-- ==== Sys2Proof/Word.lean ====
section
/-!
DEFINITION. Words and bytes, and what an address, an index or a count is.
The manual's registers are 32 bits wide (R39) and its memories are addressed in bytes, little-endian (R13).
-/
namespace Sys2Proof

/-- A 32-bit word: a register, a general register, a port value, a memory word (R39, R69). -/
abbrev Word := BitVec 32

/-- A byte of a memory. -/
abbrev Byte := BitVec 8

/-- Who makes a register or memory access. Registers that answer agents differently name them
(R104, R106, R108, R109, R287, R429, R452, R453). -/
inductive Agent where
  | host
  | sill
  /-- Code running on bay `b`. -/
  | bay (b : Nat)
  | queueManager
  | scribe
  | raisingUnit
  /-- The March engine of staging group `g`. -/
  | march (g : Nat)
  /-- The trace path of bay `b` (R111). -/
  | trace (b : Nat)
  /-- Crossbar master M2, the security module's image master (R448). -/
  | image
  /-- Crossbar master M3, the JTAG debug access port (R448). -/
  | jtag
  /-- A peer device, over a scarf link (R412). -/
  | peer (d : Nat)
  deriving DecidableEq, Repr

end Sys2Proof
end

