-- ==== Sys2Proof/Syntax.lean ====
section
/-!
DEFINITION. The commands that the device takes, one constructor for each row of the table of operations and events, and
the flits of the links that some of them carry. The words of a command are its structured operands: the table gives its
rows no bits.
-/
namespace Sys2Proof

/-- The header and payload of a flit (R394, R395): what travels end to end. `payload` is 16 words. -/
structure Flit where
  typ : Nat := 0
  dst : Nat := 0
  src : Nat := 0
  tag : Nat := 0
  cell : Nat := 0
  ncell : Nat := 0
  poison : Bool := false
  rt : Bool := false
  index : Nat := 0
  payload : List Word := []
  deriving DecidableEq, Repr

/-- The link word of a flit (R396). -/
structure LinkWord where
  seq : Nat := 0
  ackseq : Nat := 4095
  nak : Bool := false
  cclass : Nat := 0
  ccount : Nat := 0
  deriving DecidableEq, Repr

/-- Where a host read goes: an offset of BAR4, or, with `bar2`, of the doorbell pages of BAR2 (R261, R426). -/
structure BarOffset where
  bar2 : Bool
  off : Nat
  deriving DecidableEq, Repr

/-- A configuration request of one dword at offset `off` (R422). -/
structure ConfigRequest where
  write : Bool
  off : Nat
  v : Word
  deriving DecidableEq, Repr

/-- Levels at the input pins of the slow interfaces (R442, R463): the GPIO pins after debounce, and `cts`, set while
UART_CTS_N is low, the other end ready. -/
structure PinLevels where
  gpio : Word
  cts : Bool
  deriving DecidableEq, Repr

/-- A command: what happens to the device from outside, or an event of the device itself that the table names. -/
inductive Instr where
  /-- REGISTER_WRITE. R37–R41, R67, R104: an agent writes `size` bytes at offset `a` of the register space. -/
  | registerWrite (ag : Agent) (a : Nat) (size : Nat) (v : Word)
  /-- PG_SHADOW_WRITE. R37, R44, R46, R66: a 32-bit write of a PG register. -/
  | pgShadowWrite (ag : Agent) (a : Nat) (v : Word)
  /-- MW_WRITE. R37, R41: a 32-bit write of an MW register. -/
  | mwWrite (ag : Agent) (a : Nat) (v : Word)
  /-- SQ_CLEAR_WRITE. R37, R53–R56, R432: a 32-bit write of an SQ register. -/
  | sqClearWrite (ag : Agent) (a : Nat) (v : Word)
  /-- DEV_PEG. R43–R48, R66: a write of DEV_PEG; bits 15:0 name the groups. -/
  | devPeg (v : Word)
  /-- PEG_DEFERRED_ACCEPT. R47: the oldest held DEV_PEG write is accepted once BUSY = 0. -/
  | pegDeferredAccept
  /-- PEG_APPLIED. R44, R45, R48, R49, R271: the peg in progress is applied everywhere. -/
  | pegApplied
  /-- CFG_CRC_PASS. R61–R63: a configuration CRC walk completes. -/
  | cfgCrcPass
  /-- BUNDLE_ISSUE. R70–R94, R114–R176, R182–R196 and R223–R256: one clock of bay `b`, or of the sill core at 256;
  `upsets` are the storage errors that strike the bay first (array, word, error). -/
  | bundleIssue (b : Nat) (upsets : List (Nat × Nat × Nat))
  /-- RESULT_ARRIVAL. R75, R85, R86, R90, R92, R93, R166: the due result of an instance's in-bay operation reaches
  its port. -/
  | resultArrival (b : Nat) (unit : Nat) (inst : Nat)
  /-- WINDOW_RESPONSE. R89, R182–R194, R316, R518, R519: one response for the access with serial number `fid` comes
  back; `ns` is the channel time of a DDR4 access. -/
  | windowResponse (b : Nat) (fid : Nat) (ns : Nat)
  /-- FAULT_ENTRY. R212–R230, R521, R525: the detected fault of bay `b` is taken at its boundary. -/
  | faultEntry (b : Nat)
  /-- EVENT_ENTRY. R206–R222, R349, R445, R520: bay `b` takes its eligible event at an eligible boundary. -/
  | eventEntry (b : Nat)
  /-- DISPATCH_ENTRY. R252–R254, R257, R194, R221: bay `b` starts a handler run at a WAIT boundary. -/
  | dispatchEntry (b : Nat)
  /-- BAY_PRIV_WRITE. R205, R233: code on bay `b` writes BAY_PRIV. -/
  | bayPrivWrite (b : Nat) (v : Word)
  /-- BAY_MASK_WRITE. R210, R233: code on bay `b` writes BAY_MASK. -/
  | bayMaskWrite (b : Nat) (v : Word)
  /-- BAY_GCFG_WRITE. R211, R233: code on bay `b` writes BAY_GCFG. -/
  | bayGcfgWrite (b : Nat) (v : Word)
  /-- MODE_CHANGE_EFFECT. R233: mode changes of bay `b` whose three bundles have run take effect. -/
  | modeChangeEffect (b : Nat)
  /-- STRUCT_WRITE. R100–R103, R234: an agent writes the structural register at I/O address `o` of bay `b`. -/
  | structWrite (ag : Agent) (b : Nat) (o : Nat) (v : Word)
  /-- IWR_DATA_WRITE. R141, R142: code on bay `b` writes IWR_DATA. -/
  | iwrDataWrite (b : Nat) (v : Word)
  /-- PLB_DROP. R231, R232: code on bay `b` writes PLB_CTL.DROP = 1. -/
  | plbDrop (b : Nat)
  /-- PLB_FILL. R231, R232: code on bay `b` writes PLB_FILL. -/
  | plbFill (b : Nat) (v : Word)
  /-- TIMER_EXPIRY. R52, R171: timer `n` of bay `b` decrements from 1. -/
  | timerExpiry (b : Nat) (n : Nat)
  /-- MBX_POST. R107: bay `b` posts `v` in mailbox `m`. -/
  | mbxPost (b : Nat) (m : Nat) (v : Word)
  /-- MBX_LO_READ. R38, R106, R108, R110: an agent reads MBX_LO of mailbox `m`. -/
  | mbxLoRead (ag : Agent) (b : Nat) (m : Nat)
  /-- MBX_HI_READ. R38, R106, R108, R110: an agent reads MBX_HI of mailbox `m`. -/
  | mbxHiRead (ag : Agent) (b : Nat) (m : Nat)
  /-- MBX_ACK. R109, R110: an agent writes MBX_ACK of mailbox `m`; only the host's counts. -/
  | mbxAck (ag : Agent) (b : Nat) (m : Nat) (v : Word)
  /-- TRACE_ENABLE. R111: an agent writes BAY_TRC_CTL with ENABLE = 1. -/
  | traceEnable (ag : Agent) (b : Nat) (v : Word)
  /-- STEP. R100, R112: an agent writes BAY_DBG.STEP through the bay window. -/
  | step (ag : Agent) (b : Nat)
  /-- ENTER. R113: an agent writes ENTER to BAY_TSTCTL. -/
  | enter (ag : Agent) (b : Nat)
  /-- EXIT. R100, R113: an agent writes EXIT to BAY_TSTCTL. -/
  | exit (ag : Agent) (b : Nat)
  /-- TEST_ENTRY_STOP. R113: a bay that was told to ENTER stops at the event boundary where it stands. -/
  | testEntryStop (b : Nat)
  /-- LEDGER_CLEAR. R58, R191, R193: LEDGER_CTL.CLEAR of bay `b`. -/
  | ledgerClear (b : Nat)
  /-- THROTTLE_PERIOD. R186, R486: a throttle period of bent `n` begins. -/
  | throttlePeriod (n : Nat)
  /-- THROTTLE_ADJUST. R486: the millisecond's adjustment of every DUTY. -/
  | throttleAdjust
  /-- SEND_QUEUE_DEPART. R28, R247, R248: the head message of bay `b`'s send queue leaves. -/
  | sendQueueDepart (b : Nat)
  /-- MESSAGE_COMMIT. R27, R34, R235–R240, R249, R251, R260, R553: the `k`-th message under way reaches its home
  agent. -/
  | messageCommit (k : Nat)
  /-- WAIT_EXPIRED. R250: BPWAIT has passed for the waiting message of bay `b`. -/
  | waitExpired (b : Nat)
  /-- ROOM_COMMIT. R250: room has appeared for the waiting message of bay `b`. -/
  | roomCommit (b : Nat)
  /-- MESSAGE_LANDED. R27, R32, R238, R241: the next message lands on bay `b`; `bad` names its words found
  uncorrectable on the way. -/
  | messageLanded (b : Nat) (bad : List Nat)
  /-- QUEUE_TIMEOUT. R258–R260, R416: the arrival timer of queue `q` reaches TMO. -/
  | queueTimeout (q : Nat)
  /-- DB_MSG. R261, R422, R427, R428: a host write TLP at offset `off` of the doorbell page of queue `q`. -/
  | dbMsg (q : Nat) (off : Nat) (data : List Byte) (poison : Bool)
  /-- DB_WORD. R261: a host write to DB_WORD of queue `q`. -/
  | dbWord (q : Nat) (data : List Byte) (poison : Bool)
  /-- DB_HEAD. R263: a host write to DB_HEAD of queue `q`. -/
  | dbHead (q : Nat) (v : Word) (poison : Bool)
  /-- HOST_RING_WRITE. R262–R265, R424, R467: the next message of ring `n` is written. -/
  | hostRingWrite (n : Nat)
  /-- MSIX_MODERATION_EXPIRY. R265: the moderation window of ring `n` ends. -/
  | msixModerationExpiry (n : Nat)
  /-- HR_EN_SET. R264, R272: a write of HR_CFG of ring `n` with EN = 1. -/
  | hrEnSet (n : Nat) (v : Word)
  /-- HR_EN_CLEAR. R264, R272: a write of HR_CFG of ring `n` with EN = 0. -/
  | hrEnClear (n : Nat) (v : Word)
  /-- QM_READ. R270: QM_DCMD READ. -/
  | qmRead
  /-- QM_WRITE. R237, R270: QM_DCMD WRITE. -/
  | qmWrite
  /-- WRITEP. R271: QM_DCMD WRITEP. -/
  | writep
  /-- OUTSIDE_WORD_ACCESS. R29, R274, R275, R280, R554: a word access of an outside agent at scratch address `a` of
  bay `b`; `waited` tells that it waited 16 cycles. -/
  | outsideWordAccess (b : Nat) (a : Nat) (write : Bool) (v : Word) (poison : Bool) (waited : Bool) (upsets : List (Nat × Nat × Nat))
  /-- BAY_SCRUB_READ. R276, R280, R508: the scrubber of bay `b` reads its next word. -/
  | bayScrubRead (b : Nat) (upsets : List (Nat × Nat × Nat))
  /-- CE_WRITEBACK. R280: the corrected word `w` of the scratch (array 0) or instruction store (array 1) of bay `b`
  is written back. -/
  | ceWriteback (b : Nat) (array : Nat) (w : Nat)
  /-- STAGING_ACCESS. R29, R283, R287, R292–R294, R522: an agent's request at staging address `a` of `len` bytes, or
  with the write data `data` and its poisoned words; `ctrl` tells of an uncorrectable error in the bank's control.
  -/
  | stagingAccess (ag : Agent) (a : Nat) (write : Bool) (data : List Byte) (bad : List Nat) (len : Nat) (upsets : List (Nat × Nat)) (ctrl : Bool)
  /-- STAGING_SCRUB_READ. R293, R509: the scrubber reads the next line of bank `n`. -/
  | stagingScrubRead (n : Nat) (upsets : List (Nat × Nat))
  /-- STG_OWN_WRITE. R288, R289, R292: a write to STG_OWNn. -/
  | stgOwnWrite (n : Nat) (v : Word)
  /-- STG_OWN_APPLY. R290, R294: an accepted change reaches bank `n`. -/
  | stgOwnApply (n : Nat)
  /-- BANK_WAKE. R294: bank `n` becomes AWAKE. -/
  | bankWake (n : Nat)
  /-- STAGING_MARCH_START. R298, R299: a write to STG_MCTL of group `g` with START = 1. -/
  | stagingMarchStart (g : Nat) (v : Word)
  /-- STAGING_MARCH_DONE. R296, R299: the March test of group `g` ends with `fails` failing reads on `lines`. -/
  | stagingMarchDone (g : Nat) (fails : Nat) (lines : List Nat)
  /-- BAY_MARCH_START. R298, R300: a write to BAY_MCTL of bay `b` with START = 1. -/
  | bayMarchStart (b : Nat) (v : Word)
  /-- BAY_MARCH_DONE. R296, R300: the March test of bay `b` ends: failing reads, failing scratch words and
  instruction lines, and which array failed first. -/
  | bayMarchDone (b : Nat) (fails : Nat) (sw : List Nat) (il : List Nat) (firstI : Bool)
  /-- INIT. R302–R304, R322, R323: a write to MEMc_CTL with INIT = 1. -/
  | init (c : Nat) (v : Word)
  /-- TRAINING_COMPLETE. R323: the training of channel `c` ends: READY where `failed` is 0, else FAILED at that
  step; `t0`, `t1` are the DIMM temperatures read. -/
  | trainingComplete (c : Nat) (failed : Nat) (t0 : Nat) (t1 : Nat)
  /-- SR_ENTER. R324: a write to MEMc_CTL with SR = 1. -/
  | srEnter (c : Nat) (v : Word)
  /-- SELFREF_ENTERED. R324: channel `c` reaches SELFREF. -/
  | selfrefEntered (c : Nat)
  /-- SR_EXIT. R324: a write to MEMc_CTL with SR = 0. -/
  | srExit (c : Nat) (v : Word)
  /-- SELFREF_EXITED. R324: channel `c` is READY again. -/
  | selfrefExited (c : Nat)
  /-- CLRMAX. R326: a write to MEMc_CTL with CLRMAX = 1. -/
  | clrmax (c : Nat) (v : Word)
  /-- DDR4_REQUEST. R29, R306–R309, R312, R313, R319, R320, R552, R522: a request at device memory address `a`: a
  read of `n` bytes or a write of `data`; `ns` is its channel time, `ctrl` an uncorrectable controller error. -/
  | ddr4Request (a : Nat) (write : Bool) (n : Nat) (data : List Byte) (poison : Bool) (ns : Nat) (upsets : List (Nat × Nat)) (ctrl : Bool)
  /-- REFRESH_EPISODE. R314, R315, R319: a refresh episode of a rank begins. -/
  | refreshEpisode (c : Nat) (rank : Nat)
  /-- REFRESH_END. R315, R316, R319, R321: a refresh episode ends after its scrub line. -/
  | refreshEnd (c : Nat) (rank : Nat) (upsets : List (Nat × Nat))
  /-- ZQCS. R317: the 128 ms calibration command blocks a rank. -/
  | zqcs (c : Nat) (rank : Nat)
  /-- CA_PARITY_ALERT. R317: an ALERT_N parity error on channel `c`. -/
  | caParityAlert (c : Nat)
  /-- DIMM_TEMP_POLL. R314, R318, R326: the DIMM sensors of channel `c` read `t0` and `t1`. -/
  | dimmTempPoll (c : Nat) (t0 : Nat) (t1 : Nat)
  /-- RETRAIN_SLICE. R318: a retraining slice of channel `c`; `last` ends the retraining. -/
  | retrainSlice (c : Nat) (last : Bool)
  /-- EPOCH_BOUNDARY. R286, R332–R337, R348, R349: an epoch boundary. -/
  | epochBoundary
  /-- PAGE_COPY_PASS_DONE. R338, R348: a pass of the page's copy ends; `refused` tells that the peer of an L3
  destination refused. -/
  | pageCopyPassDone (table : Nat) (page : Nat) (refused : Bool)
  /-- FENCE_ACKNOWLEDGED. R338: every bay holding the page has acknowledged the fence. -/
  | fenceAcknowledged (table : Nat) (page : Nat)
  /-- PAGE_MOVE_COMPLETE. R31, R338, R339, R353: the final lines are copied; `remote` is what a peer returned of a
  page leaving L3. -/
  | pageMoveComplete (table : Nat) (page : Nat) (fenceNs : Nat) (remote : List Byte)
  /-- TASK_MOVE_DRAINED. R342: the task's messages have left the source send queue. -/
  | taskMoveDrained (task : Nat)
  /-- TASK_MOVE_COMPLETE. R31, R245, R267, R342, R349, R353: the state copy of the task ends. -/
  | taskMoveComplete (task : Nat)
  /-- MIGWAIT_EXPIRY. R343: step 4 of the task's move exceeds MIGWAIT. -/
  | migwaitExpiry (task : Nat)
  /-- TCMD_READ. R331, R334, R342, R351: a write of 1 to SCR_TCMD. -/
  | tcmdRead
  /-- TCMD_WRITE. R331, R334, R342, R351: a write of 2 to SCR_TCMD. -/
  | tcmdWrite
  /-- PLACE. R331, R334, R342, R351: a write of 3 to SCR_TCMD. -/
  | place
  /-- TCMD_MOVE. R331, R334, R342, R351: a write of 4 to SCR_TCMD. -/
  | tcmdMove
  /-- UNPLACE. R331, R334, R342, R351: a write of 5 to SCR_TCMD. -/
  | unplace
  /-- PCMD_READ. R328, R332, R351, R352: a write of 1 to SCR_PCMD. -/
  | pcmdRead
  /-- PCMD_MOVE. R328, R332, R351, R352: a write of 2 to SCR_PCMD. -/
  | pcmdMove
  /-- TWRITE. R328, R332, R351, R352: a write of 3 to SCR_PCMD. -/
  | twrite
  /-- SCR_EVAC. R344, R350: a write to SCR_EVAC with START = 1. -/
  | scrEvac (v : Word)
  /-- SCR_EVBAY. R344, R350: a write to SCR_EVBAY with START = 1. -/
  | scrEvbay (v : Word)
  /-- SCR_BANKREL. R346, R350: a write to SCR_BANKREL with START = 1. -/
  | scrBankrel (v : Word)
  /-- RAISE. R375, R379, R380, R382, R383: a write of 1 to RSU_CMD. -/
  | raise
  /-- REBENT. R375, R379, R380, R382, R383: a write of 2 to RSU_CMD. -/
  | rebent
  /-- REBAY. R375, R379, R380, R382, R383: a write of 3 to RSU_CMD. -/
  | rebay
  /-- ABORT. R375, R379, R380, R382, R383: a write of 4 to RSU_CMD. -/
  | abort
  /-- RAISE_STEP_COMPLETE. R354–R380, R382, R492, R494: the raise step in progress finishes after `us` microseconds,
  or the raise fails. -/
  | raiseStepComplete (us : Nat)
  /-- BAY_ENTER_RUN. R170, R191, R204, R228, R378: raised bay `b` enters RUN. -/
  | bayEnterRun (b : Nat)
  /-- PORT_ENABLE. R391: a write to SCFp_CTL with EN = 1. -/
  | portEnable (p : Nat) (v : Word)
  /-- PORT_DISABLE. R391: a write to SCFp_CTL with EN = 0. -/
  | portDisable (p : Nat) (v : Word)
  /-- LINK_TRAINING_DONE. R392, R393, R419: a training attempt of port `p` ends: at a failed step, or UP where
  `failed` is 0 with the peer's identifier and port, the lanes and the width. -/
  | linkTrainingDone (p : Nat) (failed : Nat) (dev : Nat) (port : Nat) (lanes : Nat) (width : Nat)
  /-- TRAINING_RETRY. R392: port `p` trains again 10 ms after a failed attempt. -/
  | trainingRetry (p : Nat)
  /-- NULL. R396, R399, R402, R403: a NULL flit at port `p`. -/
  | null (p : Nat) (l : LinkWord)
  /-- QCELL. R27, R30, R395–R402, R407, R553: a QCELL flit at port `p`. -/
  | qcell (p : Nat) (l : LinkWord) (f : Flit)
  /-- PREAD. R398, R400, R401, R412: a PREAD flit at port `p`; `guest` is 1 when the home device's placement of the
  page comes with it, 2 when the home device frees the page after it. -/
  | pread (p : Nat) (l : LinkWord) (f : Flit) (guest : Nat)
  /-- PWRITE. R398, R400, R401, R412: a PWRITE flit at port `p`; `guest` as for PREAD. -/
  | pwrite (p : Nat) (l : LinkWord) (f : Flit) (guest : Nat)
  /-- PCOMP. R397, R404: a PCOMP flit at port `p`; `intr` is the intrusion tag of a completion that met a retry (12)
  or an adaptation slice (13). -/
  | pcomp (p : Nat) (l : LinkWord) (f : Flit) (intr : Nat)
  /-- PERR. R397, R404: a PERR flit at port `p`. -/
  | perr (p : Nat) (l : LinkWord) (f : Flit) (intr : Nat)
  /-- FENCE. R408: a FENCE flit at port `p`, of the forward class or of the completion class. -/
  | fence (p : Nat) (l : LinkWord) (f : Flit) (fwd : Bool)
  /-- FENCE_ACK. R30, R408: a FENCE_ACK flit at port `p`. -/
  | fenceAck (p : Nat) (l : LinkWord) (f : Flit)
  /-- QREFUSE. R249, R397: a QREFUSE flit at port `p`. -/
  | qrefuse (p : Nat) (l : LinkWord) (f : Flit)
  /-- LSTATE. R259, R415, R416: an LSTATE flit at port `p`. -/
  | lstate (p : Nat) (l : LinkWord) (f : Flit)
  /-- TSYNC_REQ. R417: a TSYNC_REQ flit at port `p`, stamped `t2` on arrival and `t3` at the answer's egress. -/
  | tsyncReq (p : Nat) (l : LinkWord) (t2 : Nat) (t3 : Nat)
  /-- TSYNC_RSP. R418: a TSYNC_RSP flit at port `p` with its stamps, itself stamped `t4`. -/
  | tsyncRsp (p : Nat) (l : LinkWord) (t2 : Nat) (t3 : Nat) (t4 : Nat)
  /-- RESERVED_FLIT. R397: a flit of a reserved type at port `p`. -/
  | reservedFlit (p : Nat) (l : LinkWord)
  /-- REPLAY_TIMEOUT. R403, R405, R406: 1 µs without acknowledgement at port `p`. -/
  | replayTimeout (p : Nat)
  /-- CREDIT_STALL. R400, R405: flits of port `p` have waited 100 µs for credit. -/
  | creditStall (p : Nat)
  /-- LOSS_OF_SIGNAL. R249, R405, R406: the peer of port `p` has stopped transmitting. -/
  | lossOfSignal (p : Nat)
  /-- RT_READ. R407, R408, R410, R421: a write of 1 to SCF_RTCMD. -/
  | rtRead
  /-- RT_WRITE. R407, R408, R410, R421: a write of 2 to SCF_RTCMD. -/
  | rtWrite
  /-- UPDATE. R407, R408, R410, R421: a write of 3 to SCF_RTCMD. -/
  | update
  /-- UPDATE_FORCED. R408: no FENCE_ACK has come within 200 µs. -/
  | updateForced
  /-- PW_READ. R416, R421: a write of 1 to SCF_PWCMD. -/
  | pwRead
  /-- PW_WRITE. R416, R421: a write of 2 to SCF_PWCMD. -/
  | pwWrite
  /-- SCF_DEVID_WRITE. R393: a write to SCF_DEVID. -/
  | scfDevidWrite (v : Word)
  /-- SCF_TSET. R417, R421: a write to SCF_TSET_HI. -/
  | scfTset (v : Word)
  /-- TSYNC_EXCHANGE. R417: a follower sends a TSYNC_REQ, stamped `t1`. -/
  | tsyncExchange (t1 : Nat)
  /-- ADAPT_SLICE. R414: an adaptation slice stops port `p`. -/
  | adaptSlice (p : Nat)
  /-- BAR0_REQUEST. R8, R39, R40, R67, R422, R426, R427: a host request of `n` dwords at BAR0 offset `off` with its
  first and last byte enables. -/
  | bar0Request (write : Bool) (off : Nat) (n : Nat) (fbe : Nat) (lbe : Nat) (data : List Word) (poison : Bool)
  /-- BAR4_READ. R426, R427, R429, R430: a host read of `n` bytes at `off`, an offset of BAR4 or of BAR2's doorbell
  pages (R261). -/
  | bar4Read (off : BarOffset) (n : Nat)
  /-- BAR4_WRITE. R427–R430, R433: a host write at BAR4 offset `off`; `req` holds the requester ID and the tag of its TLP
  as dword 1 of the header does. -/
  | bar4Write (off : Nat) (data : List Byte) (poison : Bool) (req : Word)
  /-- MALFORMED_TLP. R426, R433: a malformed request with its header. -/
  | malformedTlp (hdr : List Word)
  /-- MSIX_ENABLE. R432: the host writes MSI-X Enable and the Function Mask. -/
  | msixEnable (on : Bool) (fmask : Bool)
  /-- MSIX_UNMASK. R432: the host writes the Vector Control word of vector `v` with its mask bit 0. -/
  | msixUnmask (v : Nat)
  /-- PCIE_LINK_UP. R423, R467: the PCIe link trains; `gen` and `width` are the most the other end offers. -/
  | pcieLinkUp (gen : Nat) (width : Nat)
  /-- ETH_FRAME_RECEIVE. R435–R437, R440: a frame without its FCS arrives at MAC `m`, its FCS matching if
  `good`; `time` is the part of a microsecond since SCF_TIME was brought up to date, in 2^-16 ns. -/
  | ethFrameReceive (m : Nat) (data : List Byte) (good : Bool) (time : Nat)
  /-- ETH_TRANSMIT. R438: MAC `m` takes the oldest message of the highest class. -/
  | ethTransmit (m : Nat)
  /-- ETH_TRANSMIT_DONE. R438, R440: the last byte of MAC `m`'s frame leaves; `time` as for
  ETH_FRAME_RECEIVE. -/
  | ethTransmitDone (m : Nat) (time : Nat)
  /-- ETH_LINK_UP. R439, R441: the link of MAC `m` reaches UP. -/
  | ethLinkUp (m : Nat)
  /-- ETH_LINK_DOWN. R439: the link of MAC `m` leaves UP. -/
  | ethLinkDown (m : Nat)
  /-- ETH_ENABLE. R441: a write to ETHm_CTL. -/
  | ethEnable (m : Nat) (v : Word)
  /-- CROSSBAR_BURST. R448, R449, R451: a burst of master 2 (image) or 3 (JTAG); `data` has one word for each beat.
  -/
  | crossbarBurst (master : Nat) (a : Nat) (write : Bool) (data : List Word)
  /-- REMAP. R452: the sill core writes MX_CTL. -/
  | remap (v : Word)
  /-- BOOT_OK. R458, R475: the sill core writes MX_BOOT.OK = 1. -/
  | bootOk
  /-- BOOT_FAIL. R458, R475: the sill core writes MX_BOOT.FAIL = 1. -/
  | bootFail
  /-- BOOT_WINDOW_EXPIRY. R458, R475: 2 s have passed since the exit without BOOT_OK. -/
  | bootWindowExpiry
  /-- MXH_POST. R460: the host writes MXH_POST. -/
  | mxhPost (v : Word)
  /-- MXH_DONE. R461: the sill core writes MXH_DONE. -/
  | mxhDone (v : Word)
  /-- MXH_STATUS. R462: mailbox service STATUS. -/
  | mxhStatus
  /-- FLASH_READ. R462: mailbox service FLASH_READ; `ok` tells that the flash device answered. -/
  | flashRead (ok : Bool)
  /-- FLASH_WRITE. R462: mailbox service FLASH_WRITE; `ok` tells that the flash device answered. -/
  | flashWrite (ok : Bool)
  /-- FLASH_ERASE. R462: mailbox service FLASH_ERASE; `ok` tells that the flash device answered. -/
  | flashErase (ok : Bool)
  /-- LEAVE_SHORING. R462, R477: mailbox service LEAVE_SHORING. -/
  | leaveShoring
  /-- ROM_RAISE. R387, R457: the sill core calls ROM_RAISE with staging address `a`. -/
  | romRaise (a : Nat)
  /-- XSPI_GO. R463, R464, R527: the sill core writes XSPI_CMD with GO = 1. -/
  | xspiGo (v : Word)
  /-- XSPI_CMD_DONE. R464: the flash command ends: the words received, and what the flash holds from byte `at_` on
  if the command changed it. -/
  | xspiCmdDone (rx : List Word) (at_ : Nat) (new : List Byte)
  /-- XSPI_DATA_READ. R38, R463: the sill core reads XSPI_DATA. -/
  | xspiDataRead
  /-- SMB_GO. R463: the sill core writes SMB_XFER with GO = 1. -/
  | smbGo (v : Word)
  /-- SMB_XFER_DONE. R463: the SMBus transfer completes: acknowledged, PEC matched, bytes received. -/
  | smbXferDone (ack : Bool) (pec : Bool) (data : List Byte)
  /-- SMB_TARGET_RX. R463: a transaction for target address 0x62 is received. -/
  | smbTargetRx (pec : Bool) (data : List Byte)
  /-- SMB_DATA_READ. R38, R463: the sill core reads SMB_DATA. -/
  | smbDataRead
  /-- UART_DATA_READ. R38, R463: the sill core reads UART_DATA. -/
  | uartDataRead
  /-- UART_RX_BYTE. R463: a byte arrives on UART_RXD, well framed or not. -/
  | uartRxByte (x : Byte) (framed : Bool)
  /-- GPIO_EDGE. R442, R463: the levels at the input pins become `levels`. -/
  | gpioEdge (levels : PinLevels)
  /-- POR. R465–R469: VDD_AON falls below 0.68 V. -/
  | por
  /-- TAMPER. R465, R466, R502: the tamper response asserts TAMPER. -/
  | tamper
  /-- COLDPIN. R465, R468: COLD_RST_N has been low past the filter. -/
  | coldpin
  /-- RAIL. R465, R537: a monitored rail has been out of range for 10 µs. -/
  | rail
  /-- WDOG. R465, R478: the watchdog count reaches zero. -/
  | wdog
  /-- SWRST. R465, R488: an agent writes RST_SW with WARM = 1; bits 15:8 are KEY. -/
  | swrst (ag : Agent) (v : Word)
  /-- RST_SW_COLD. R477, R488: an agent writes RST_SW with COLD = 1; only the sill core's counts. -/
  | rstSwCold (ag : Agent) (v : Word)
  /-- FAILSTART. R465, R475: 1 ms after a failed start. -/
  | failstart
  /-- PERST. R465–R468: PERST_N has been low for 1 µs. -/
  | perst
  /-- HOTRST. R465, R467: the endpoint receives a Hot Reset. -/
  | hotrst
  /-- DLDOWN. R465, R467: DL_Down of the endpoint. -/
  | dldown
  /-- RST_BENT. R465, R466, R472: a write to RST_BENT. -/
  | rstBent (v : Word)
  /-- RST_BAY. R268, R465, R466, R472: a write to RST_BAY with GO = 1. -/
  | rstBay (v : Word)
  /-- RST_BLOCK. R325, R405, R439, R465, R466, R472: a write to RST_BLOCK with GO = 1. -/
  | rstBlock (v : Word)
  /-- RESET_SOURCE_RELEASE. R468, R469: reset source `src` is released. -/
  | resetSourceRelease (src : Nat)
  /-- EXIT_SEQUENCE_DONE. R48, R456, R459, R470, R476, R487, R547: an exit sequence completes: of bent `what` below
  16, of the BAY or BLOCK pulse at 16, of the device at 17. -/
  | exitSequenceDone (what : Nat)
  /-- WRAPPER_DRAINED. R32, R325, R471: the wrapper of the target has drained. -/
  | wrapperDrained
  /-- TRIM_START. R473, R474: the sill core writes TRIM_CTL with START = 1. -/
  | trimStart (v : Word)
  /-- TRIM_LOAD_DONE. R473, R475: a trim load ends; `ok` tells that its CRC matched. -/
  | trimLoadDone (ok : Bool)
  /-- WDG_ENABLE. R478: a write to WDG_CTL with EN = 1. -/
  | wdgEnable (v : Word)
  /-- WDG_KICK. R478: a write to WDG_KICK. -/
  | wdgKick (v : Word)
  /-- PWR_CTL_WRITE. R324, R476, R480: a write to PWR_CTL. -/
  | pwrCtlWrite (v : Word)
  /-- PWR_RET_WRITE. R480, R482: a write to PWR_RET. -/
  | pwrRetWrite (v : Word)
  /-- DOMAIN_TRANSITION_DONE. R324, R481, R482, R496: the transition of domain `d` completes. -/
  | domainTransitionDone (d : Nat)
  /-- PLL_LOSS_OF_LOCK. R483, R522: PLL `k` loses lock, numbered as CLK_STAT.PLL, the bent PLLs from 16. -/
  | pllLossOfLock (k : Nat)
  /-- THERMAL_SAMPLE. R485, R487: the monitor reads its 24 sensors, in °C. -/
  | thermalSample (temps : List Int)
  /-- SEC_POST. R499: a post at a service port; `p` is true for port S of the sill core. -/
  | secPost (p : Bool) (v : Word)
  /-- SEC_STATUS. R497: service STATUS. -/
  | secStatus (p : Bool)
  /-- SELFTEST. R490, R497: service SELFTEST. -/
  | selftest (p : Bool)
  /-- SELFTEST_COMPLETE. R490, R491, R503: the self-tests end. -/
  | selftestComplete (pass : Bool)
  /-- ZEROISE. R322, R497, R502: service ZEROISE. -/
  | zeroise (p : Bool)
  /-- ZEROISATION_COMPLETE. R502: the zeroisation completes. -/
  | zeroisationComplete
  /-- GETNONCE. R497: service GETNONCE. -/
  | getnonce (p : Bool)
  /-- AUTH. R494, R497: service AUTH. -/
  | auth (p : Bool) (role : Nat) (slot : Nat) (sig : List Byte)
  /-- LOGOUT. R497: service LOGOUT. -/
  | logout (p : Bool)
  /-- UNLOCK. R491, R494, R497, R505: service UNLOCK with the token in the request words. -/
  | unlock (p : Bool)
  /-- SEC_HASH. R497: service HASH over `len` staging bytes at `src`. -/
  | secHash (p : Bool) (alg : Nat) (src : Nat) (len : Nat)
  /-- HMAC. R497: service HMAC with handle `h`. -/
  | hmac (p : Bool) (alg : Nat) (h : Nat) (src : Nat) (len : Nat)
  /-- GCM_ENC. R497: service GCM_ENC. -/
  | gcmEnc (p : Bool) (h : Nat) (aad : List Byte) (src : Nat) (len : Nat) (dst : Nat)
  /-- GCM_DEC. R497: service GCM_DEC. -/
  | gcmDec (p : Bool) (h : Nat) (iv : List Byte) (tag : List Byte) (aad : List Byte) (src : Nat) (len : Nat) (dst : Nat)
  /-- XTS_ENC. R497: service XTS_ENC. -/
  | xtsEnc (p : Bool) (h1 : Nat) (h2 : Nat) (tweak : Nat) (src : Nat) (len : Nat) (dst : Nat)
  /-- XTS_DEC. R497: service XTS_DEC. -/
  | xtsDec (p : Bool) (h1 : Nat) (h2 : Nat) (tweak : Nat) (src : Nat) (len : Nat) (dst : Nat)
  /-- SIGN. R497: service SIGN. -/
  | sign (p : Bool) (h : Nat) (src : Nat) (len : Nat)
  /-- VERIFY. R497: service VERIFY. -/
  | verify (p : Bool) (pub : List Byte) (sig : List Byte) (src : Nat) (len : Nat)
  /-- ECDH. R497: service ECDH. -/
  | ecdh (p : Bool) (h : Nat) (pub : List Byte)
  /-- KEYGEN. R497, R500: service KEYGEN; `pass` is the outcome of a pair's consistency test. -/
  | keygen (p : Bool) (h : Nat) (kind : Nat) (pass : Bool)
  /-- WRAP. R497: service WRAP. -/
  | wrap (p : Bool) (h : Nat) (under : Nat)
  /-- UNWRAP. R497: service UNWRAP. -/
  | unwrap (p : Bool) (h : Nat) (under : Nat) (kind : Nat) (w : List Byte)
  /-- KEYDEL. R497: service KEYDEL. -/
  | keydel (p : Bool) (h : Nat)
  /-- RANDOM. R497: service RANDOM. -/
  | random (p : Bool) (n : Nat) (dst : Nat)
  /-- ATTEST. R497: service ATTEST. -/
  | attest (p : Bool) (nonce : List Byte)
  /-- OTP_KEY. R497, R498: service OTP_KEY. -/
  | otpKey (p : Bool) (slot : Nat) (use : Nat) (h : Nat) (pub : List Byte)
  /-- OTP_REVOKE. R497, R498: service OTP_REVOKE. -/
  | otpRevoke (p : Bool) (slot : Nat)
  /-- FLOOR. R497, R498: service FLOOR; `running` is the SEQNO of the running firmware. -/
  | floor (p : Bool) (kind : Nat) (v : Word) (running : Word)
  /-- OTP_CONFIG. R497, R498: service OTP_CONFIG. -/
  | otpConfig (p : Bool) (bits : Word)
  /-- DESTROY. R497, R502, R503: service DESTROY. -/
  | destroy (p : Bool)
  /-- ENTROPY_HEALTH_FAIL. R500: a continuous entropy health test fails. -/
  | entropyHealthFail
  /-- TAMPER_MONITOR_TRIP. R322, R501, R537: the tamper monitor of this code meets its condition. -/
  | tamperMonitorTrip (code : Nat)
  /-- DEBUG_RELOCK. R505: an unlock's DURATION expires. -/
  | debugRelock
  /-- RECORD_POST. R35, R36, R52, R510–R516: the serialiser hands its oldest record to the telemetry queue. -/
  | recordPost
  /-- PERIODIC. R514: BG_TELPER.MS milliseconds have passed. -/
  | periodic
  /-- BG_RETIRE. R523, R524: the sill core writes BG_RETIRE with GO = 1. -/
  | bgRetire (v : Word)
  /-- RETIREMENT_FINISH. R523: the evacuation has ended and the retirement finishes. -/
  | retirementFinish
  /-- JOURNAL_PATROL. R526, R527: PERIOD hours have passed. -/
  | journalPatrol
  /-- JOURNAL_PATROL_END. R526, R528: the patrol has read the slots. -/
  | journalPatrolEnd
  /-- AC_REFRESH. R59, R60: an edge of the 32.768 kHz clock. -/
  | acRefresh
  /-- FLIT_CRC_FAILURE. R402: a flit at port `p` fails its CRC. -/
  | flitCrcFailure (p : Nat)
  /-- RETRY_WINDOW. R403: retry of port `p` has been in progress for 8 µs within 100 µs. -/
  | retryWindow (p : Nat)
  /-- THROTTLE_HOLD_END. R486: the hold of bent `n`'s throttle period ends. -/
  | throttleHoldEnd (n : Nat)
  /-- VDDQ_LOSS. R324: VDDQ or VPP fails at channel `c`; `back` tells that the rails have come back. -/
  | vddqLoss (c : Nat) (back : Bool)
  /-- RTC_CRYSTAL_IN_USE. R483: the RTC crystal takes over CLK_AON. -/
  | rtcCrystalInUse
  /-- UART_TX_BYTE. R442, R463: a byte finishes leaving on UART_TXD. -/
  | uartTxByte
  /-- AER_ERROR. R433: the endpoint detects the error of AER status bit `k`, numbered in the order of R433's table,
  with the header of the TLP. -/
  | aerError (k : Nat) (hdr : List Word)
  /-- D3HOT_TRANSITION. R422, R425, R431, R433: a host configuration request of one dword; a write of the power state
  moves the endpoint to D3hot, or back to D0. -/
  | d3hotTransition (req : ConfigRequest)
  deriving DecidableEq, Repr

end Sys2Proof
end

