-- ==== Sys2Proof/Decode.lean ====
section
/-!
DEFINITION. Decoding of table words. The commands of this device come from outside and from its own units as structured
operands, and no row of the table of operations and events gives bits: no word spells a command.
-/
namespace Sys2Proof

/-- The command that the low `nbits` bits of `w` spell by the table's encodings: the table gives no row any bits.
DESIGN CHOICE, log entry 1. -/
def decodeTableWord (_nbits _w : Nat) : Option Instr := none

end Sys2Proof
end

