-- ==== Sys2Proof/Machine/Bits.lean ====
section
/-!
DEFINITION. Bit fields of words, sign extension, lanes and byte order (R13).
-/
namespace Sys2Proof.Machine

/-- Field of `n` bits from bit `lo` of `w`, as a number. -/
def fld (w : Word) (lo n : Nat) : Nat := (w.toNat / 2 ^ lo) % 2 ^ n

/-- Bit `i` of `w`. -/
def bitAt (w : Word) (i : Nat) : Bool := w.getLsbD i

/-- A word from a number, modulo 2^32. -/
def wd (n : Nat) : Word := BitVec.ofNat 32 n

/-- A word from an integer, modulo 2^32. -/
def wdI (i : Int) : Word := BitVec.ofInt 32 i

/-- 1 or 0 as a word. -/
def wbit (b : Bool) : Word := if b then 1#32 else 0#32

/-- 1 or 0 as a number. -/
def nbit (b : Bool) : Nat := if b then 1 else 0

/-- The mask of `n` bits from bit `lo`. -/
def mask32 (lo n : Nat) : Word := wd ((2 ^ n - 1) * 2 ^ lo)

/-- `w` with field `lo`, `n` replaced by `v`. -/
def putFld (w : Word) (lo n : Nat) (v : Nat) : Word :=
  (w &&& ~~~ mask32 lo n) ||| (wd ((v % 2 ^ n) * 2 ^ lo))

/-- `w` with bit `i` set to `b`. -/
def putBit (w : Word) (i : Nat) (b : Bool) : Word := putFld w i 1 (nbit b)

/-- The low `n` bits of `w`, sign-extended to 32. -/
def sext (n : Nat) (w : Word) : Word :=
  if n = 0 then 0#32
  else if 32 ≤ n then w
  else
    let m := w.toNat % 2 ^ n
    if m < 2 ^ (n - 1) then wd m else wdI (Int.ofNat m - Int.ofNat (2 ^ n))

/-- The low `n` bits of `w`, zero-extended. -/
def zext (n : Nat) (w : Word) : Word := wd (w.toNat % 2 ^ n)

/-- Byte `i` of a word (byte 0 is bits 7:0, R144). -/
def byteOf (w : Word) (i : Nat) : Byte := BitVec.ofNat 8 (w.toNat / 2 ^ (8 * i))

/-- A number from bytes, lowest first (R13). -/
def ofBytes : List Byte → Nat
  | [] => 0
  | b :: t => b.toNat + 256 * ofBytes t

/-- The `n` low bytes of a number, lowest first. -/
def toBytes : Nat → Nat → List Byte
  | 0, _ => []
  | n + 1, v => BitVec.ofNat 8 v :: toBytes n (v / 256)

/-- The words of a list of bytes, four to a word; a short tail is filled with zeros. -/
def wordsOf : List Byte → List Word
  | a :: b :: c :: d :: t => wd (ofBytes [a, b, c, d]) :: wordsOf t
  | [] => []
  | l => [wd (ofBytes l)]

/-- The bytes of a list of words. -/
def bytesOf (l : List Word) : List Byte := l.flatMap fun w => toBytes 4 w.toNat

/-- `n` zeros. -/
def zeros (n : Nat) : List Byte := List.replicate n 0#8

/-- The two half-word lanes combined by `f`, low lane first. -/
def lanesH (f : BitVec 16 → BitVec 16 → BitVec 16) (a b : Word) : Word :=
  (f (a.extractLsb' 16 16) (b.extractLsb' 16 16) ++ f (a.extractLsb' 0 16) (b.extractLsb' 0 16) : BitVec 32)

/-- The four byte lanes combined by `f`. -/
def lanesB (f : Byte → Byte → Byte) (a b : Word) : Word :=
  let l (i : Nat) : Byte := f (a.extractLsb' (8 * i) 8) (b.extractLsb' (8 * i) 8)
  ((l 3 ++ l 2) ++ (l 1 ++ l 0) : BitVec 32)

/-- The low `n` bits of a number in reverse order. -/
def revBits : Nat → Nat → Nat
  | 0, _ => 0
  | n + 1, v => (v % 2) * 2 ^ n + revBits n (v / 2)

/-- Zero bits of `v` above its highest one, seen in `n` bits. -/
def clzN : Nat → Nat → Nat
  | 0, _ => 0
  | n + 1, v => if 2 ^ n ≤ v then 0 else 1 + clzN n v

/-- Zero bits of `v` below its lowest one, seen in `n` bits. -/
def ctzN : Nat → Nat → Nat
  | 0, _ => 0
  | n + 1, v => if v % 2 = 1 then 0 else 1 + ctzN n (v / 2)

/-- Ones among the low `n` bits of `v`. -/
def popN : Nat → Nat → Nat
  | 0, _ => 0
  | n + 1, v => v % 2 + popN n (v / 2)

/-- `a` divided by `b`, rounded up. -/
def ceilDiv (a b : Nat) : Nat := (a + b - 1) / b

/-- A number that stops at `m`. -/
def satAdd (m a b : Nat) : Nat := if m ≤ a + b then m else a + b

end Sys2Proof.Machine
end

