-- ==== Sys2Proof/Machine/Alu.lean ====
section
/-!
DEFINITION. The integer units of a bay: ALU, SHF, MUL, DIV and CRC (R150–R157), as functions of the operand `a`, the
trigger value `b` and, for CRC, the running value. `none` is a number the unit does not define (R145).
-/
namespace Sys2Proof.Machine

/-- Signed clamp to 16 bits. -/
def clampH (i : Int) : BitVec 16 :=
  BitVec.ofInt 16 (if i < -32768 then -32768 else if 32767 < i then 32767 else i)

/-- Unsigned clamp to a byte. -/
def clampB (i : Int) : Byte :=
  BitVec.ofInt 8 (if i < 0 then 0 else if 255 < i then 255 else i)

/-- Does an exact signed result not fit 32 bits? -/
def ovf32 (i : Int) : Bool := decide (i < -2147483648) || decide (2147483647 < i)

/-- |a - b| of two bytes. -/
def absDiffB (a b : Byte) : Nat := if a.toNat ≤ b.toNat then b.toNat - a.toNat else a.toNat - b.toNat

/-- R150, R151: ALU result and whether OV is set. -/
def aluOp (op : Nat) (a b : Word) : Option (Word × Bool) :=
  let ov (i : Int) : Option (Word × Bool) := some (wdI i, ovf32 i)
  let v (w : Word) : Option (Word × Bool) := some (w, false)
  match op with
  | 0x00 => v (a + b)
  | 0x01 => v (a - b)
  | 0x02 => ov (a.toInt + b.toInt)
  | 0x03 => ov (a.toInt - b.toInt)
  | 0x04 => ov (- b.toInt)
  | 0x05 => ov (if b.toInt < 0 then - b.toInt else b.toInt)
  | 0x06 => v b
  | 0x08 => v (a &&& b)
  | 0x09 => v (a ||| b)
  | 0x0A => v (a ^^^ b)
  | 0x0B => v (a &&& ~~~ b)
  | 0x0C => v (~~~ b)
  | 0x10 => v (wbit (decide (a = b)))
  | 0x11 => v (wbit (decide (a ≠ b)))
  | 0x12 => v (wbit (a.slt b))
  | 0x13 => v (wbit (a.sle b))
  | 0x14 => v (wbit (a.ult b))
  | 0x15 => v (wbit (a.ule b))
  | 0x18 => v (if a.sle b then a else b)
  | 0x19 => v (if a.sle b then b else a)
  | 0x1A => v (if a.ule b then a else b)
  | 0x1B => v (if a.ule b then b else a)
  | 0x20 => v (lanesH (fun x y => x + y) a b)
  | 0x21 => v (lanesH (fun x y => x - y) a b)
  | 0x22 => v (lanesH (fun x y => clampH (x.toInt + y.toInt)) a b)
  | 0x23 => v (lanesH (fun x y => clampH (x.toInt - y.toInt)) a b)
  | 0x24 => v (lanesB (fun x y => x + y) a b)
  | 0x25 => v (lanesB (fun x y => x - y) a b)
  | 0x26 => v (lanesB (fun x y => clampB (Int.ofNat x.toNat + Int.ofNat y.toNat)) a b)
  | 0x27 => v (lanesB (fun x y => clampB (Int.ofNat x.toNat - Int.ofNat y.toNat)) a b)
  | 0x28 => v (lanesB (fun x y => if x.ule y then x else y) a b)
  | 0x29 => v (lanesB (fun x y => if x.ule y then y else x) a b)
  | 0x2A => v (lanesB (fun x y => if x = y then 0xFF#8 else 0x00#8) a b)
  | 0x2B => v (wd (absDiffB (byteOf a 0) (byteOf b 0) + absDiffB (byteOf a 1) (byteOf b 1)
                 + absDiffB (byteOf a 2) (byteOf b 2) + absDiffB (byteOf a 3) (byteOf b 3)))
  | 0x2C => v (b.extractLsb' 0 16 ++ a.extractLsb' 0 16 : BitVec 32)
  | _ => none

/-- R152: SHF result. The amount is b[7:0]; position and width of a field are b[4:0] and b[13:8]. -/
def shfOp (op : Nat) (a b : Word) : Option Word :=
  let n := fld b 0 8
  let hl : BitVec 16 := a.extractLsb' 0 16
  let hh : BitVec 16 := a.extractLsb' 16 16
  let p := fld b 0 5
  let w := fld b 8 6
  match op with
  | 0x00 => some (a <<< n)
  | 0x01 => some (a >>> n)
  | 0x02 => some (a.sshiftRight n)
  | 0x03 => some (a.rotateLeft (n % 32))
  | 0x04 => some (a.rotateRight (n % 32))
  | 0x05 => some ((hh <<< n) ++ (hl <<< n) : BitVec 32)
  | 0x06 => some ((hh >>> n) ++ (hl >>> n) : BitVec 32)
  | 0x07 => some ((hh.sshiftRight n) ++ (hl.sshiftRight n) : BitVec 32)
  | 0x08 => some (if 32 ≤ w then a >>> p else zext w (a >>> p))
  | 0x09 => some (if 32 ≤ w then a.sshiftRight p else sext w (a.sshiftRight p))
  | 0x0A => some (wd (ofBytes [byteOf b 3, byteOf b 2, byteOf b 1, byteOf b 0]))
  | 0x0B => some (wd (revBits 32 b.toNat))
  | 0x0C => some (wd (clzN 32 b.toNat))
  | 0x0D => some (wd (ctzN 32 b.toNat))
  | 0x0E => some (wd (popN 32 b.toNat))
  | _ => none

/-- R153: MUL results: Q, and H where the operation writes it. -/
def mulOp (op : Nat) (a b : Word) : Option (Word × Option Word) :=
  let hs (x : Word) (i : Nat) : Int := (x.extractLsb' (16 * i) 16 : BitVec 16).toInt
  match op with
  | 0x00 => some (a * b, none)
  | 0x01 => some (wdI (a.toInt * b.toInt), some (wdI (a.toInt * b.toInt / 4294967296)))
  | 0x02 => some (wd (a.toNat * b.toNat), some (wd (a.toNat * b.toNat / 4294967296)))
  | 0x04 => some (wdI (hs a 0 * hs b 0), some (wdI (hs a 1 * hs b 1)))
  | _ => none

/-- What a division gives (R154, R155): quotient, remainder, OV, DZ. -/
structure DivRes where
  q : Word
  m : Word
  ov : Bool := false
  dz : Bool := false
  deriving DecidableEq, Repr

/-- R154, R155: DIV results, a the dividend and b the divisor. -/
def divOp (op : Nat) (a b : Word) : Option DivRes :=
  match op with
  | 0x00 =>
    if b = 0#32 then
      some { q := if a.toInt < 0 then 1#32 else 0xFFFFFFFF#32, m := a, dz := true }
    else if a = 0x80000000#32 ∧ b = 0xFFFFFFFF#32 then
      some { q := 0x80000000#32, m := 0#32, ov := true }
    else some { q := wdI (Int.tdiv a.toInt b.toInt), m := wdI (Int.tmod a.toInt b.toInt) }
  | 0x01 =>
    if b = 0#32 then some { q := 0xFFFFFFFF#32, m := a, dz := true }
    else some { q := wd (a.toNat / b.toNat), m := wd (a.toNat % b.toNat) }
  | _ => none

/-- Eight steps of the reflected CRC-32C (R157). -/
def crc32cSteps : Nat → Word → Word
  | 0, v => v
  | k + 1, v => crc32cSteps k (if bitAt v 0 then (v >>> 1) ^^^ 0x82F63B78#32 else v >>> 1)

/-- CRC-32C: fold byte `d` onto `v` (R157). -/
def crc32cByte (v : Word) (d : Byte) : Word := crc32cSteps 8 (v ^^^ d.zeroExtend 32)

/-- Eight steps of CRC-16 (R157). -/
def crc16Steps : Nat → Word → Word
  | 0, v => v
  | k + 1, v =>
    crc16Steps k (if bitAt v 15 then ((v <<< 1) ^^^ 0x1021#32) &&& 0xFFFF#32 else (v <<< 1) &&& 0xFFFF#32)

/-- CRC-16: fold byte `d` onto `v` (R157). -/
def crc16Byte (v : Word) (d : Byte) : Word :=
  crc16Steps 8 ((v &&& 0xFFFF#32) ^^^ ((d.zeroExtend 32 : Word) <<< 8))

/-- CRC-32C over bytes, from running value `v`. -/
def crc32cFold (v : Word) (l : List Byte) : Word := l.foldl crc32cByte v

/-- The check form of CRC-32C: seeded and finished with all ones (R61, R157). -/
def crc32c (l : List Byte) : Word := crc32cFold 0xFFFFFFFF#32 l ^^^ 0xFFFFFFFF#32

/-- R156: CRC result; `run` is the running value of the instance, used by the unseeded forms. -/
def crcOp (op : Nat) (a run b : Word) : Option Word :=
  let bs (n : Nat) : List Byte := toBytes n b.toNat
  match op with
  | 0x00 => some ((bs 1).foldl crc32cByte run)
  | 0x01 => some ((bs 2).foldl crc32cByte run)
  | 0x02 => some ((bs 4).foldl crc32cByte run)
  | 0x04 => some ((bs 1).foldl crc16Byte run)
  | 0x05 => some ((bs 2).foldl crc16Byte run)
  | 0x06 => some ((bs 4).foldl crc16Byte run)
  | 0x08 => some ((bs 1).foldl crc32cByte a)
  | 0x09 => some ((bs 2).foldl crc32cByte a)
  | 0x0A => some ((bs 4).foldl crc32cByte a)
  | 0x0C => some ((bs 1).foldl crc16Byte a)
  | 0x0D => some ((bs 2).foldl crc16Byte a)
  | 0x0E => some ((bs 4).foldl crc16Byte a)
  | _ => none

end Sys2Proof.Machine
end

