-- ==== Sys2Proof/Machine/Bundle.lean ====
section
/-!
DEFINITION. Bundle formats, guards and fixed codes (R114–R124): what the words of a bundle say, before any socket map.
-/
namespace Sys2Proof.Machine

/-- One move of a bundle as encoded: its joist, codes and guard modifier. `short` tells which tables turn its codes
into long codes. -/
structure Move where
  joist : Nat
  short : Bool
  src : Nat
  dst : Nat
  gm : Nat
  /-- A wide constant (R123) or the extension bits of an extended constant (R124). -/
  imm : Word
  /-- Source code 0x48 on joist 0 with M2 bits 16:7 zero (R123). -/
  wide : Bool := false
  /-- A reserved source encoding (R125). -/
  bad : Bool := false
  deriving DecidableEq, Repr

/-- A decoded bundle. -/
structure Bundle where
  long : Bool
  bg : Nat
  moves : List Move
  deriving DecidableEq, Repr

/-- R115: a short move, 13 bits. -/
def shortMove (j : Nat) (m : Nat) : Move :=
  { joist := j, short := true, src := m % 64, dst := m / 64 % 64, gm := m / 4096 % 2, imm := 0#32 }

/-- R116: a long move, 17 bits, with extension E. -/
def longMove (j m e : Nat) : Move :=
  { joist := j, short := false, src := m % 256, dst := m / 256 % 128, gm := m / 32768 % 4, imm := wd e,
    bad := decide (m % 256 = 0x48) }

/-- R114: is the bundle that begins with this word long? -/
def isLong (w0 : Word) : Bool := bitAt w0 0

/-- R114–R116, R123: the bundle of one or two words; `w1` is not looked at in a short bundle. The source code of a move
to NULL is not decoded (R122), so it makes no wide constant of M1 and M2. -/
def decodeBundle (w0 w1 : Word) : Bundle :=
  if isLong w0 then
    let v := w0.toNat + w1.toNat * 2 ^ 32
    let m0 := v / 2 ^ 5 % 2 ^ 17
    let m1 := v / 2 ^ 22 % 2 ^ 17
    let m2 := v / 2 ^ 39 % 2 ^ 17
    let e := v / 2 ^ 56 % 2 ^ 8
    if m0 % 256 = 0x48 ∧ m0 / 256 % 128 ≠ 0x7F then
      { long := true, bg := v / 2 % 16,
        moves := [{ longMove 0 m0 e with
          imm := wd (e + m1 * 2 ^ 8 + m2 % 128 * 2 ^ 25), wide := true, bad := decide (m2 / 128 ≠ 0) }] }
    else { long := true, bg := v / 2 % 16, moves := [longMove 0 m0 e, longMove 1 m1 e, longMove 2 m2 e] }
  else
    let v := w0.toNat
    { long := false, bg := v / 2 % 16, moves := [shortMove 0 (v / 2 ^ 5 % 2 ^ 13), shortMove 1 (v / 2 ^ 18 % 2 ^ 13)] }

/-- R122: the destination is NULL. -/
def Move.isNull (m : Move) : Bool := if m.short then decide (m.dst = 0x3F) else decide (m.dst = 0x7F)

/-- R118: does a move execute, given the bundle condition and G1? DEDUCED, log entry 19. -/
def Move.runs (m : Move) (cond g1 : Bool) : Bool :=
  if m.short then (if m.gm = 0 then cond else !cond)
  else match m.gm with
    | 0 => cond
    | 1 => !cond
    | 2 => true
    | _ => cond && g1

/-- Length of a bundle in bytes. -/
def Bundle.size (b : Bundle) : Nat := if b.long then 8 else 4

end Sys2Proof.Machine
end

