-- ==== Sys2Proof/Config.lean ====
section
/-!
DEFINITION. What the spec leaves open or names without spelling it out. Every constant here is opaque: nothing in Lean
can see a value of it, so a statement holds whatever it is.
-/
namespace Sys2Proof.Config

/-- Free values: the `n`-th value that source `src` draws where the spec leaves a result unspecified. Sources 0–256 are
the bays and the sill core; 300 is the device. DESIGN CHOICE, log entry 2. -/
opaque freeWord : Nat → Nat → Word

/-- A byte of a memory whose contents the spec calls unspecified since its `gen`-th such event. DESIGN CHOICE,
log entries 2, 7. -/
opaque freeByte : Nat → Nat → Byte

/-- Byte `o` of the boot ROM (R446): the spec gives its service behaviour and not its code. -/
opaque romByte : Nat → Byte

/-! ## Cryptography (R373, R490–R506)

The manual names the algorithms by their standards. Each is a function here, byte by byte of its result. DESIGN CHOICE,
log entry 8. -/

/-- The word at offset `o` of the PCI Express configuration space where the manual names a capability and not its content
(R422). -/
opaque pcieWord : Nat → Word

/-- Byte `i` of the `n`-th answer of the DRBG (R500). -/
opaque drbgByte : Nat → Nat → Byte

/-- Byte `i` of the digest of a message: algorithm 0 SHA-256, 1 SHA-384. -/
opaque hashByte : Nat → List Byte → Nat → Byte

/-- Byte `i` of an HMAC: algorithm, key, message. -/
opaque hmacByte : Nat → List Byte → List Byte → Nat → Byte

/-- Byte `i` of AES-256-GCM's output: encrypt or decrypt, key, IV, additional data, input. -/
opaque gcmByte : Bool → List Byte → List Byte → List Byte → List Byte → Nat → Byte

/-- Byte `i` of AES-256-GCM's tag over a ciphertext: key, IV, additional data, ciphertext. -/
opaque gcmTagByte : List Byte → List Byte → List Byte → List Byte → Nat → Byte

/-- Byte `i` of AES-256-XTS's output: encrypt or decrypt, two keys, tweak, input. -/
opaque xtsByte : Bool → List Byte → List Byte → Nat → List Byte → Nat → Byte

/-- Byte `i` of the 64-byte key pair that key RAM holds for a DDR4 channel: channel, number of the pair (R322, R496). -/
opaque channelKeyByte : Nat → Nat → Nat → Byte

/-- Does an ECDSA P-384 signature (r and s) over a message hold for a compressed public key? -/
opaque ecdsaOk : List Byte → List Byte → List Byte → Bool

/-- Byte `i` of an ECDSA P-384 signature: private key, message, and the DRBG request that seeds it. -/
opaque ecdsaByte : List Byte → List Byte → Nat → Nat → Byte

/-- Byte `i` of the compressed public key of a private key. -/
opaque publicByte : List Byte → Nat → Byte

/-- Is a compressed point on P-384 (R498)? -/
opaque pointOk : List Byte → Bool

/-- Byte `i` of the key that ephemeral agreement and the KDF of SP 800-56C give: own private key, peer's public key. -/
opaque agreeByte : List Byte → List Byte → Nat → Byte

/-- Byte `i` of AES-KW: wrap or unwrap, key, input; and whether an unwrapping is sound. -/
opaque wrapByte : Bool → List Byte → List Byte → Nat → Byte

/-- Does an unwrapping pass its integrity check: key, wrapped bytes? -/
opaque unwrapOk : List Byte → List Byte → Bool

/-- Byte `i` of a key derived from the PUF root: 0 the KEK, 1 the device identity key (R495). -/
opaque rootByte : Nat → Nat → Byte

end Sys2Proof.Config
end

