-- ==== Sys2Proof/Machine/Table.lean ====
section
/-!
DEFINITION. The sparse table every memory, register file and per-unit array of the model is held in: a list of
(key, value) pairs with keys strictly rising and no entry equal to the default of its key.
The default of a key is a function of the key, so a table of registers reads each register's reset value before
anything has written it.
-/
namespace Sys2Proof

/-- A sparse table: keys rising, defaults left out. -/
abbrev Tab (α : Type) := List (Nat × α)

namespace Machine

/-- The value at key `k`, or the default of `k`. -/
def tget {α : Type} (d : Nat → α) : Tab α → Nat → α
  | [], k => d k
  | (j, v) :: t, k => if j = k then v else tget d t k

/-- The table without key `k`. -/
def tdel {α : Type} : Tab α → Nat → Tab α
  | [], _ => []
  | (j, v) :: t, k => if j = k then tdel t k else (j, v) :: tdel t k

/-- The table with (`k`, `v`) put before the first larger key. -/
def tins {α : Type} : Tab α → Nat → α → Tab α
  | [], k, v => [(k, v)]
  | (j, u) :: t, k, v => if k < j then (k, v) :: (j, u) :: t else (j, u) :: tins t k v

/-- The table with `v` at key `k`. Writing the default of `k` removes the entry. -/
def tset {α : Type} [DecidableEq α] (d : Nat → α) (t : Tab α) (k : Nat) (v : α) : Tab α :=
  if v = d k then tdel t k else tins (tdel t k) k v

/-- The keys rise strictly and every entry differs from the default of its key. -/
def twf {α : Type} [DecidableEq α] (d : Nat → α) : Tab α → Bool
  | [] => true
  | [(k, v)] => decide (v ≠ d k)
  | (k, v) :: (j, u) :: t => decide (v ≠ d k) && decide (k < j) && twf d ((j, u) :: t)

/-- The entries whose key lies outside `lo ≤ k < lo + n`: a range set back to its defaults. -/
def tclear {α : Type} (t : Tab α) (lo n : Nat) : Tab α :=
  t.filter fun e => decide (e.1 < lo) || decide (lo + n ≤ e.1)

/-- Every listed value of a table changed by `f`; entries that come to equal their default go. -/
def tmap {α : Type} [DecidableEq α] (d : Nat → α) (f : Nat → α → α) (t : Tab α) : Tab α :=
  (t.map fun e => (e.1, f e.1 e.2)).filter fun e => decide (e.2 ≠ d e.1)

/-- The value at key `k` of a table whose default is one value. -/
def tgetD {α : Type} (d : α) (t : Tab α) (k : Nat) : α := tget (fun _ => d) t k

/-- `tset` for a table whose default is one value. -/
def tsetD {α : Type} [DecidableEq α] (d : α) (t : Tab α) (k : Nat) (v : α) : Tab α :=
  tset (fun _ => d) t k v

end Machine
end Sys2Proof
end

