-- ==== Sys2Proof/Machine/BayState.lean ====
section
/-!
DEFINITION. The state of one bay, as plain data: its registers, stores, pipeline, privilege state, queue ports and
timers, and the small structures that other units share with it. The sill core is one more bay (R443).
-/
namespace Sys2Proof.Machine

/-! ## Sequence-clear registers (R51–R56) -/

/-- A sequence-clear register. `ev` maps a set event bit to the SEQ that last set it (256: the bit is clear);
`since` counts the events since the last write, which decides LAP (R54). -/
structure Sq where
  seq : Nat := 0
  lap : Bool := false
  ev : Tab Nat := []
  since : Nat := 0
  deriving DecidableEq, Repr

/-! ## Memories -/

/-- A memory of bytes in canonical form. `gen` = 0: an unlisted byte reads 0. `gen` = g > 0: the spec calls the
contents unspecified since some event, and an unlisted byte reads the free value `Config.freeByte g address`. -/
structure Mem where
  gen : Nat := 0
  cells : List Host.Cell := []
  deriving DecidableEq, Repr

/-- Error marks of a memory's words, by word index: 1 a single-bit error, 2 a double-bit error, 3 the poison code
(R280, R293, R554); 0, the default, none. -/
abbrev Marks := Tab Nat

/-! ## A bay -/

/-- A function-unit port that holds a result: its value, the trigger serial number current when it last received
one, and the address kept with a poisoned result (R75, R86, R518). -/
structure Port where
  val : Word := 0
  recvAt : Nat := 0
  poison : Option Word := none
  deriving DecidableEq, Repr

/-- What an operation that left the bay waits for. -/
structure Outside where
  /-- Responses still to come: one a line or access. -/
  pending : Nat := 1
  /-- Wall cycle in which the last response made it readable (R183). -/
  readable : Option Nat := none
  /-- Wall cycle of the trigger, from which its age counts (R190). -/
  trigWall : Nat := 0
  /-- The declared latency at the trigger (R180). -/
  declared : Nat := 0
  /-- The tier that served it, 0–3. -/
  tier : Nat := 0
  /-- The served tier's latency for this operation. -/
  served : Nat := 0
  /-- The declared class, 0–3. -/
  cls : Nat := 0
  /-- The intrusion cause tagged on the response (R190), 0 none. -/
  tag : Nat := 0
  /-- The access waits behind a migration fence (R339). -/
  parked : Bool := false
  /-- A store: its response is an acknowledgement. -/
  store : Bool := false
  /-- The staging bank, or the device memory address, that serves it (R288, R310), and whether it reached its rank in a
  refresh episode and waits for the end (R316). -/
  bank : Option Nat := none
  /-- The bank of the second line of a RANGE lookup. -/
  leaf : Option Nat := none
  ddr : Option Nat := none
  episode : Bool := false
  /-- It was sent to a peer and waits for a PCOMP or PERR with this request number (R398). -/
  remote : Option Nat := none
  /-- The address that an error response to it reports (R518, R519). -/
  ea : Word := 0
  /-- The pages it resolved to, as table × 4,096 + page (R338). -/
  keys : List Nat := []
  deriving DecidableEq, Repr

/-- An operation in progress: a trigger whose result has not reached its port. -/
structure Flight where
  /-- Serial number of the trigger. -/
  id : Nat
  /-- Unit number (R363) and instance. -/
  unit : Nat
  inst : Nat
  /-- Schedule cycles until the result is due. -/
  left : Nat
  /-- The latency it was given, to place its line reads (R166). -/
  total : Nat
  /-- Result ports and the values they will receive. -/
  res : List (Nat × Word) := []
  poison : Option Word := none
  /-- A scratch line read: 0 none, 1 HASH, 2 RANGE (R166). -/
  line : Nat := 0
  /-- The line read lost the port in the cycle just passed and slides (R166). -/
  slid : Bool := false
  out : Option Outside := none
  /-- RDCYC, RDCYCH, RDWALL, RDWALLH: the number of a counter read at the end of TR, when the result is due (R172). -/
  late : Option Nat := none
  deriving DecidableEq, Repr

/-- What a pending transfer does when its delay bundles have issued (R84, R136, R138, R175). -/
inductive RedirectKind where
  | target (pc : Nat)
  /-- WAIT: stop issue. -/
  | wait
  /-- SYNCC: the structural writes stored when it ran, and the bundle it transfers to (R174, R175). -/
  | syncc (writes : List (Nat × Word)) (pc : Nat)
  /-- A RET that did not compare equal: fault PLUMB_MISMATCH (R138). -/
  | mismatch (retPc : Nat) (word : Word) (origin : Nat)
  deriving DecidableEq, Repr

/-- A word of the instruction store that SYNCI replaced, and the bundles that still fetch it (R143). -/
structure OldWord where
  left : Nat
  idx : Nat
  val : Word
  deriving DecidableEq, Repr

/-- A pending transfer: the bundles still to issue before it acts, and what it does. -/
structure Redirect where
  count : Nat
  kind : RedirectKind
  deriving DecidableEq, Repr

/-- A fault detected and not yet taken (R212, R213). -/
structure FaultReq where
  code : Nat
  info : Word
  /-- Privilege of the bundle that caused it. -/
  origin : Nat
  /-- Return address of the frame (R220). -/
  ret : Nat
  /-- The frame records an unfinished repeat (R135). -/
  repu : Bool := false
  /-- The faulting bundle, which FC_DOWN_CAUSE names (R230). -/
  bundle : Nat
  deriving DecidableEq, Repr

/-- An SVC whose boundary has not come (R215): its number, the privilege of its bundle and the bundle's address. -/
structure SvcReq where
  num : Nat
  origin : Nat
  bundle : Nat
  deriving DecidableEq, Repr

/-- A return in progress (R223, R255): RETX or DONE, the bundle and its privilege, GP63 before the bundle, where the frame
is and whether it is the fault cell's, the words read so far, and how many have been read. -/
structure Return where
  run : Bool
  at_ : Nat
  origin : Nat
  sp : Word
  key : Nat
  cell : Bool
  pc : Word
  stat : Word := 0
  read : Nat := 1
  deriving DecidableEq, Repr

/-- How source `src` stood before the bay's own work changed it, and the cycles until a boundary sees the change: that
work is done in TR, and the boundary of the same cycle lies two bundles later (R84, R206). -/
structure Stale where
  src : Nat
  was : Bool
  left : Nat := 3
  deriving DecidableEq, Repr

/-- A repeat in progress (R131–R135): cycles before its next element completes, the address of its trigger bundle, and
whether an element has just completed, so that an event may be taken (R208). -/
structure Rep where
  count : Nat
  bundle : Nat
  boundary : Bool := false
  deriving DecidableEq, Repr

/-- One entry record (R222). -/
structure EntryRec where
  priv : Nat
  mask : Nat
  level : Nat
  check : Bool
  deriving DecidableEq, Repr

/-- A mode change waiting (R233): bundles still to run under the old value, the register (0 BAY_PRIV, 1 BAY_MASK,
2 BAY_GCFG), the value. -/
structure ModeChange where
  count : Nat
  reg : Nat
  val : Word
  deriving DecidableEq, Repr

/-- One cycle of a hold in progress, not yet charged (R190, R191): its wall cycle and the causes other than outside
accesses that would hold the bay in it. -/
structure HoldCycle where
  wall : Nat
  causes : List Nat
  /-- Serial numbers of the outside accesses awaited in it. -/
  awaited : List Nat
  deriving DecidableEq, Repr

/-- A trigger that its unit cannot accept: the code it holds under (R188) and the unit instance that it names. -/
structure Wait where
  cause : Nat
  unit : Nat := 0
  inst : Nat := 0
  deriving DecidableEq, Repr

/-- Why a bay is held (R188): the triggers that wait for their units, or the outside accesses awaited. -/
structure Hold where
  waits : List Wait := []
  awaited : List Nat := []
  /-- Wall cycle in which the held bundle issued. -/
  start : Nat := 0
  deriving DecidableEq, Repr

/-- A host mailbox (R106–R109). -/
structure Mailbox where
  seq : Nat := 0
  valid : Bool := false
  seen : Bool := false
  lost : Bool := false
  data : Word := 0
  snapHost : Word := 0
  snapSill : Word := 0
  deriving DecidableEq, Repr

/-- The function units of a bay plan (R78, R359): instances of each; LSU kinds 0 none, 1 LSU-A, 2 LSU-D. -/
structure Units where
  alu : Nat := 0
  shf : Nat := 0
  crc : Nat := 0
  rep : Nat := 0
  mul : Nat := 0
  div : Nat := 0
  tbl : Nat := 0
  fma : Nat := 0
  lsu0 : Nat := 0
  lsu1 : Nat := 0
  deriving DecidableEq, Repr

/-- One joist of a socket map (R362, R363): long entries are words, short entries half-words; 0 is unassigned. -/
structure JoistMap where
  lsrc : Tab Word := []
  ldst : Tab Word := []
  ssrc : Tab Nat := []
  sdst : Tab Nat := []
  deriving DecidableEq, Repr

/-- A socket map: one table for each joist (R121). -/
structure SocketMap where
  j0 : JoistMap := {}
  j1 : JoistMap := {}
  j2 : JoistMap := {}
  deriving DecidableEq, Repr

/-- A message (R235, R236). `words` holds 16 words for each cell; `bad` names the poisoned ones. -/
structure Msg where
  words : List Word := []
  cells : Nat := 1
  pkind : Nat := 0
  dev : Nat := 0
  index : Nat := 0
  notice : Bool := false
  redelivered : Bool := false
  bad : List Nat := []
  /-- Commit number in its queue's device, which orders messages of equal priority (R241). -/
  commit : Nat := 0
  /-- Held in the DDR4 overflow area and not in the pool (R240). -/
  inOvf : Bool := false
  /-- The queue agent whose pool banks hold the cells (R239, R240). -/
  agent : Nat := 0
  deriving DecidableEq, Repr

/-- A message in a bay's landing (R241). -/
structure Landed where
  queue : Nat
  task : Nat
  prio : Nat
  msg : Msg
  deriving DecidableEq, Repr

/-- A message in a bay's send queue (R246, R251). -/
structure SendMsg where
  /-- The ENQ's trigger value. -/
  trig : Word
  words : List Word
  /-- The runtime producer and not a task (R251). -/
  rt : Bool
  /-- Task index of a task producer. -/
  task : Nat
  /-- Notice queue of the producer at the ENQ: valid bit and address (R249). -/
  notq : Word
  /-- Stores with a smaller serial number must be acknowledged first (R247). -/
  gate : Nat
  /-- It has left for its queue and its outcome is awaited (R247). -/
  out : Bool := false
  /-- Waits at its full queue (R250). -/
  waiting : Bool := false
  deriving DecidableEq, Repr

/-- A task slot of QIO (R244, R245). -/
structure Slot where
  task : Nat
  entry : Nat
  stack : Word
  notq : Word
  /-- Cycles the task has run on this slot since the epoch began (R335). -/
  cycles : Nat := 0
  deriving DecidableEq, Repr

/-- QIO: landing, current run, outbox, send queue, slots (R241–R256). -/
structure Qio where
  landing : List Landed := []
  cur : Option Landed := none
  curSlot : Nat := 0
  /-- Frame address kept at dispatch, and DEPTH + SPILLED then (R253). -/
  frame : Nat := 0
  plumbAt : Nat := 0
  /-- Entry records below the one that the dispatch entry pushed (R253, R255). -/
  depth : Nat := 0
  outbox : Tab Word := []
  sendq : List SendMsg := []
  slots : Tab (Option Slot) := []
  rtnotq : Word := 0
  deriving DecidableEq, Repr

/-- TMR (R170–R173). The counters wrap at 2^64. -/
structure Tmr where
  cyc : Nat := 0
  wall : Nat := 0
  cnt : Tab Word := []
  rld : Tab Word := []
  ctl : Word := 0
  stat : Sq := {}
  /-- Timers that decremented from 1 in the cycle in progress and whose expiry is not recorded yet: a bundle of the
  cycle may still write the count (R171). -/
  due : List Nat := []
  deriving DecidableEq, Repr

/-- The hold ledger of a bay (R188–R194). `run` is the cause and length of the run of cycles in progress. -/
structure Ledger where
  cnt : Tab Nat := []
  max : Tab Nat := []
  budget : Word := 0
  disp : Nat := 0
  stat : Sq := {}
  run : Option (Nat × Nat) := none
  deriving DecidableEq, Repr

/-- Structural registers, the values stored for SYNCC, and the socket maps of the plan (R99–R103). -/
structure Struct where
  sel : Nat := 0
  count : Nat := 0
  lsufl : Word := 0
  frames : Nat := 0
  winA : Tab Word := []
  winB : Tab Word := []
  /-- Structural writes through the bay window stored and not applied, by I/O address, in write order (R100). -/
  stored : List (Nat × Word) := []
  /-- Structural writes of the bay's own code, which wait for its SYNCC (R100). -/
  own : List (Nat × Word) := []
  maps : List SocketMap := []
  units : Units := {}
  start : Nat := 0
  startSp : Word := 0x0005FFC0#32
  deriving DecidableEq, Repr

/-- Trace, single-step and TEST control (R111–R113). -/
structure Dbg where
  trcBank : Nat := 0
  trcOn : Bool := false
  trcPtr : Nat := 0
  trcDrop : Nat := 0
  /-- Records on the trace path, oldest first, at most 64: index in the bank and the record's four words. -/
  trcPath : List (Nat × List Word) := []
  fromRun : Bool := false
  /-- ENTER from RUN waits for its boundary (R113). -/
  testReq : Bool := false
  /-- A STEP whose bundle still waits for what would hold it in RUN (R112). -/
  stepWait : Bool := false
  /-- Approved mode holds and debug is not unlocked with scope TRACE (R111, R504): a copy the security module keeps. -/
  locked : Bool := false
  deriving DecidableEq, Repr

/-- Privilege, events, faults and the plumb stack (R202–R233). -/
structure Ctx where
  priv : Nat := 1
  mask : Nat := 7
  gcfg : Word := 0
  vbase : Nat := 0
  evlvl : Word := 0x06B5B6E1#32
  chkStack : Bool := false
  check : Bool := false
  recs : List EntryRec := []
  modes : List ModeChange := []
  /-- SVC number raised and not yet taken (R215). -/
  svc : Option Nat := none
  /-- POLL as it stood at the end of the last bundle's TR (R211). -/
  poll : Bool := false
  sregBase : Word := 0
  sregLimit : Word := 0
  /-- Plumb stack, top first. -/
  plumb : List Nat := []
  spilled : Nat := 0
  errStat : Sq := {}
  errAddr : Word := 0
  errCtl : Word := 0x100#32
  plcStat : Sq := {}
  plcInfo : Word := 0
  plcEn : Word := 0
  /-- Level-sensitive source 0 of the sill core: MX_EVPEND AND MX_EVEN, and MX_EVPEND itself (R445): copies the
  management complex keeps. -/
  mxev : Word := 0
  mxPend : Word := 0
  deriving DecidableEq, Repr

/-- The machinery of issue (R84–R93). -/
structure Pipe where
  pc : Nat := 0
  redirects : List Redirect := []
  /-- Cycles in which no bundle issues: entries, exits, the supervisor stop (R93, R219, R223). -/
  idle : Nat := 0
  /-- Cycles in which an in-bay user has the scratch port (frame words, R273). -/
  port : Nat := 0
  waiting : Bool := false
  fault : Option FaultReq := none
  /-- The SVC of the bundle before (R215). -/
  svcNow : Option SvcReq := none
  /-- A RETX or DONE between its trigger and its check (R223). -/
  ret : Option Return := none
  rep : Option Rep := none
  hold : Option Hold := none
  holdLog : List HoldCycle := []
  afterStall : Bool := false
  afterHold : Bool := false
  /-- Cycles until the next bundle to issue is the first after a hold (R184). -/
  markIn : List Nat := []
  /-- The cycle before was a throttled one. -/
  afterThrottle : Bool := false
  /-- A bundle has taken effect in the cycle in progress. -/
  ran : Bool := false
  /-- An in-bay user, TBL apart, has the scratch port in this cycle, and had it in the one before (R273). -/
  used : Bool := false
  prior : Bool := false
  /-- Sources whose change no boundary sees yet, and the values of BAY_EVLVL before such changes (R206, R210). -/
  stale : List Stale := []
  lvlOld : List (Nat × Word) := []
  flights : List Flight := []
  serial : Nat := 0
  /-- Cycles until a DIV instance accepts its next trigger (R90). -/
  divBusy : Tab Nat := []
  /-- Cycles in which a read of GP63 stalls after a call or return (R87). -/
  spBusy : Nat := 0
  /-- Outside words that need a port cycle still, and the cycles that the first line of them has waited (R274, R275). -/
  words : Nat := 0
  wordAge : Nat := 0
  /-- Thermal throttling holds the bay (R486). -/
  throttled : Bool := false
  deriving DecidableEq, Repr

/-- A word access of an outside agent that waits for the end of a March test (R298). -/
structure OutWord where
  addr : Nat
  write : Bool
  val : Word
  poison : Bool
  deriving DecidableEq, Repr

/-- What a bay asks of the rest of the device in the command in progress. The device serves and empties the list before
the command ends. -/
inductive Req where
  /-- A window load: trigger serial, window, page index, byte in the page, size, sign-extend. -/
  | load (fid win page off size : Nat) (signed : Bool)
  /-- A window store. -/
  | store (fid win page off size : Nat) (data : Word) (ea : Word)
  /-- A window HASH lookup: base offset in the window, the bucket's offset, key. -/
  | hash (fid win at_ : Nat) (key : Word) (ea : Word)
  /-- A window RANGE lookup. -/
  | range (fid win at_ : Nat) (key : Word) (ea : Word)
  /-- The second line of a RANGE lookup, and the address of the first where it came poisoned. -/
  | leaf (fid win at_ : Nat) (key : Word) (ea : Word) (rootBad : Option Word)
  /-- A sill-core load or store outside its ROM and SRAM (R446). -/
  | busLoad (fid : Nat) (addr : Word) (size : Nat) (signed : Bool)
  | busStore (addr : Word) (size : Nat) (data : Word)
  /-- A sill-core fetch outside T0 and T1 (R448). -/
  | busFetch (addr : Word)
  /-- A corrected or first-detected uncorrectable error in the bay's stores: class, array (0 scratch, 1 instruction
  store), address (R280). -/
  | storeErr (cls array addr : Nat)
  /-- Bay check entry (R227): FC_CAUSE and FC_INFO. -/
  | checkRec (cause info : Word)
  /-- Bay-down (R230): FC_DOWN_CAUSE, FC_DOWN_INFO, and whether STORE_UE caused it, with the word's address. -/
  | down (cause info : Word) (ue : Bool) (addr : Nat)
  /-- DONE freed this message of the current run (R255). -/
  | freed (l : Landed)
  deriving DecidableEq, Repr

/-- One bay, or the sill core (`sill`). -/
structure Bay where
  id : Nat := 0
  sill : Bool := false
  /-- BAY_STATE.STATE: 0 OFF, 1 PLAN, 2 TEST, 3 RUN, 4 DOWN (R105). -/
  state : Nat := 0
  /-- Held in reset by retirement (R523) or by a reset not yet released. -/
  retired : Bool := false
  gp : Tab Word := []
  /-- Guard bits; bit 0 reads 1 (R81). -/
  guards : Tab Bool := []
  /-- BAY_ARITH: DZTRAP 8, DZ 1, OV 0 (R83). -/
  arith : Word := 0
  opnds : Tab Word := []
  ports : Tab Port := []
  /-- Running CRC value of each CRC instance (R156). -/
  crcs : Tab Word := []
  istore : Mem := {}
  imarks : Marks := []
  scratch : Mem := {}
  smarks : Marks := []
  iwrAddr : Nat := 0
  iwrStage : List (Nat × Word) := []
  iwrOvf : Bool := false
  oldWords : List OldWord := []
  pipe : Pipe := {}
  ctx : Ctx := {}
  tmr : Tmr := {}
  qio : Qio := {}
  led : Ledger := {}
  str : Struct := {}
  dbg : Dbg := {}
  mbx : Tab Mailbox := []
  /-- March test of the bay in progress (R298). -/
  march : Bool := false
  /-- Outside words that arrived during the test, in order of arrival. -/
  outq : List OutWord := []
  /-- Bay-downs by STORE_UE since the last reset of WARM reach or wider (R525). -/
  ueDowns : Nat := 0
  /-- Free values this bay has drawn. -/
  free : Nat := 0
  /-- MX_CTL.REMAP, of the sill core only (R452). -/
  remap : Bool := false
  reqs : List Req := []
  deriving DecidableEq, Repr

end Sys2Proof.Machine
end

