-- ==== Sys2Proof/Machine/Flags.lean ====
section
/-!
DEFINITION. Sequence-clear status registers (R51–R56): the event, the clearing write, the read.
-/
namespace Sys2Proof.Machine

/-- Is event bit `i` set? -/
def Sq.has (q : Sq) (i : Nat) : Bool := decide (tgetD 256 q.ev i ≠ 256)

/-- Is any event bit set (R56)? -/
def Sq.any (q : Sq) : Bool := !q.ev.isEmpty

/-- R52, R54: an event on bit `i`. -/
def Sq.event (q : Sq) (i : Nat) : Sq :=
  let n := (q.seq + 1) % 256
  { seq := n, lap := q.lap || decide (128 ≤ q.since + 1), ev := tsetD 256 q.ev i n, since := q.since + 1 }

/-- R53, R54: a write of SEQ value `w`. While LAP is 1 a write clears LAP and nothing else. -/
def Sq.write (q : Sq) (w : Nat) : Sq :=
  if q.lap then { q with lap := false, since := 0 }
  else { q with ev := q.ev.filter (fun e => decide (128 ≤ (w + 256 - e.2) % 256)), since := 0 }

/-- The event bits as a number. -/
def evBits : Tab Nat → Nat
  | [] => 0
  | e :: t => 2 ^ e.1 + evBits t

/-- R51: SEQ in 31:24, LAP in 23, the event bits below. -/
def Sq.read (q : Sq) : Word := wd (q.seq * 2 ^ 24 + nbit q.lap * 2 ^ 23 + evBits q.ev)

/-- BAY_ARITH.OV and DZ are sticky: an operation sets them and never clears them (R83, R147). DEDUCED, log entry 28.
-/
def setArith (a : Word) (ov dz : Bool) : Word :=
  a ||| (if ov then 1#32 else 0#32) ||| (if dz then 2#32 else 0#32)

end Sys2Proof.Machine
end

