-- ==== Sys2Proof/Machine/Ops.lean ====
section
/-!
DEFINITION. The named operations over memories and over one bay's registers, ports and stores.
-/
namespace Sys2Proof.Machine

/-! ## Memories of bytes -/

/-- The generation of an instruction store that a raise has filled: every word beyond the image is a short bundle with
BG = 0 and two moves from source code 0 to NULL (R361). DESIGN CHOICE, log entry 7. -/
def fillGen : Nat := 903

/-- What an unlisted byte of a memory reads as. DESIGN CHOICE, log entries 2, 7. -/
def memDefault (gen : Nat) (a : Nat) : Byte :=
  if gen = 0 then 0#8
  else if gen = fillGen then byteOf 0x3F01F800#32 (a % 4)
  else Config.freeByte gen a

/-- Read one byte. DESIGN CHOICE, log entry 7. -/
def Mem.byte (m : Mem) (a : Nat) : Byte := tget (memDefault m.gen) m.cells a

/-- Write one byte. -/
def Mem.putByte (m : Mem) (a : Nat) (v : Byte) : Mem := { m with cells := tset (memDefault m.gen) m.cells a v }

/-- The canonical form of a memory. DESIGN CHOICE, log entry 7. -/
def Mem.wf (m : Mem) : Bool := twf (memDefault m.gen) m.cells

/-- `n` bytes from address `a`. -/
def Mem.bytes (m : Mem) : Nat → Nat → List Byte
  | _, 0 => []
  | a, n + 1 => m.byte a :: m.bytes (a + 1) n

/-- Write a list of bytes from address `a` upward. -/
def Mem.putBytes (m : Mem) : Nat → List Byte → Mem
  | _, [] => m
  | a, v :: t => (m.putByte a v).putBytes (a + 1) t

/-- `n` bytes from `a` as a little-endian number (R13). -/
def Mem.num (m : Mem) (a n : Nat) : Nat := ofBytes (m.bytes a n)

/-- The word at `a`. -/
def Mem.word (m : Mem) (a : Nat) : Word := wd (m.num a 4)

/-- Write the low `n` bytes of `v` at `a`. -/
def Mem.putNum (m : Mem) (a n v : Nat) : Mem := m.putBytes a (toBytes n v)

/-- Write a word. -/
def Mem.putWord (m : Mem) (a : Nat) (v : Word) : Mem := m.putNum a 4 v.toNat

/-- Set `n` bytes from `a` to zero: the entries go, or zeros are listed where an unlisted byte is free. -/
def Mem.zero (m : Mem) (a n : Nat) : Mem :=
  if m.gen = 0 then { m with cells := tclear m.cells a n } else m.putBytes a (zeros n)

/-- A memory whose contents the spec calls unspecified from now on. DESIGN CHOICE, log entry 2. -/
def Mem.scrambled (gen : Nat) : Mem := { gen := gen + 1, cells := [] }

/-- The error mark of word `w`. -/
def markOf (t : Marks) (w : Nat) : Nat := tgetD 0 t w

/-- Set the error mark of word `w`. -/
def setMark (t : Marks) (w m : Nat) : Marks := tsetD 0 t w m

/-! ## General registers, guards, ports -/

/-- General register n. -/
def Bay.gpr (b : Bay) (n : Nat) : Word := tgetD 0#32 b.gp n

/-- Write general register n. -/
def Bay.setGpr (b : Bay) (n : Nat) (v : Word) : Bay := { b with gp := tsetD 0#32 b.gp n v }

/-- The key of a port in a table: unit number, instance and port number of R363. -/
def portKey (unit inst port : Nat) : Nat := unit * 64 + inst * 8 + port

/-- The value an operand port holds (R73). -/
def Bay.opnd (b : Bay) (unit inst port : Nat) : Word := tgetD 0#32 b.opnds (portKey unit inst port)

/-- Write an operand port. -/
def Bay.setOpnd (b : Bay) (unit inst port : Nat) (v : Word) : Bay :=
  { b with opnds := tsetD 0#32 b.opnds (portKey unit inst port) v }

/-- A result port (R75). -/
def Bay.port (b : Bay) (unit inst port : Nat) : Port := tgetD {} b.ports (portKey unit inst port)

/-- R75, R86, R518: a result reaches its port. -/
def Bay.receive (b : Bay) (unit inst port : Nat) (v : Word) (poison : Option Word) : Bay :=
  { b with ports := tsetD {} b.ports (portKey unit inst port) { val := v, recvAt := b.pipe.serial, poison := poison } }

/-- Several results of one operation reach their ports together. -/
def Bay.receiveAll (b : Bay) (unit inst : Nat) (poison : Option Word) : List (Nat × Word) → Bay
  | [] => b
  | (p, v) :: t => (b.receive unit inst p v poison).receiveAll unit inst poison t

/-- Draw a free value. DESIGN CHOICE, log entry 2. -/
def Bay.draw (b : Bay) : Bay × Word := ({ b with free := b.free + 1 }, Config.freeWord b.id b.free)

/-- Ask something of the rest of the device. -/
def Bay.ask (b : Bay) (r : Req) : Bay := { b with reqs := b.reqs ++ [r] }

/-! ## Scratch of a bay, SRAM of the sill core -/

/-- First byte of program scratch (R96, R97). -/
def Bay.scrLo (b : Bay) : Nat := b.str.frames * 0x10000

/-- The fault cell (R96). -/
def fcBase : Nat := 0x5FFC0

/-- R134: does the byte lie in program scratch? -/
def Bay.inProgram (b : Bay) (a : Nat) : Bool := decide (b.scrLo ≤ a) && decide (a < fcBase)

/-- R232: does the byte lie in the supervisor region? No region exists when BASE is not below LIMIT. -/
def Bay.inSreg (b : Bay) (a : Nat) : Bool :=
  decide (b.ctx.sregBase.toNat ≤ a) && decide (a < b.ctx.sregLimit.toNat)

/-- R446, R452: where a sill-core address lands. -/
inductive SillLoc where
  | rom (o : Nat)
  | sram (o : Nat)
  | bus
  deriving DecidableEq, Repr

/-- R446: ROM and SRAM of the sill core, with the alias that REMAP selects. DEDUCED, log entry 26. -/
def sillLoc (remap : Bool) (a : Nat) : SillLoc :=
  if a < 0x80000 ∧ remap then .sram a
  else if a < 0x20000 then .rom a
  else if 0x20000000 ≤ a ∧ a < 0x20080000 then .sram (a - 0x20000000)
  else if 0x30000000 ≤ a ∧ a < 0x30020000 then .rom (a - 0x30000000)
  else .bus

/-- The key in `scratch` of a stack word or frame word: the address, or the SRAM offset on the sill core, whose own
fault cell lies above its SRAM. DEDUCED, log entry 26. -/
def Bay.key (b : Bay) (a : Nat) : Nat :=
  if b.sill then (match sillLoc b.remap a with | .sram o => o | _ => a) else a

/-- Key of the byte at offset `o` of the fault cell. DEDUCED, log entry 26. -/
def Bay.fcKey (b : Bay) (o : Nat) : Nat := (if b.sill then 0x80000 else fcBase) + o

/-- Can a stack word or frame word at `a` be reached (R139, R221)? -/
def Bay.stackWordOk (b : Bay) (a : Nat) : Bool :=
  if b.sill then (match sillLoc b.remap a with | .sram o => decide (o + 4 ≤ 0x80000) | _ => false)
  else b.inProgram a && b.inProgram (a + 3)

/-- Write a whole word of scratch: fresh check bits over any error or poison code (R281). -/
def Bay.scrPut (b : Bay) (k : Nat) (v : Word) : Bay :=
  { b with scratch := b.scratch.putWord k v, smarks := setMark b.smarks (k / 4) 0 }

/-- The word of scratch at key `k`. -/
def Bay.scrWord (b : Bay) (k : Nat) : Word := b.scratch.word k

end Sys2Proof.Machine
end

