-- ==== Sys2Proof/Machine/Operands.lean ====
section
/-!
DEFINITION. Operand forms: how a move's source and destination codes become sockets through the active socket map
(R70–R72, R119–R125, R363).
-/
namespace Sys2Proof.Machine

/-- What a source code names. -/
inductive Src where
  | gp (n : Nat)
  | guard (n : Nat)
  | const (w : Word)
  | port (unit inst port : Nat)
  /-- A reserved source encoding (R125). -/
  | reserved
  deriving DecidableEq, Repr

/-- What a destination code names. -/
inductive Dst where
  | gp (n : Nat)
  | guard (n : Nat)
  | opnd (unit inst port : Nat)
  | trig (unit inst op : Nat)
  deriving DecidableEq, Repr

/-- The active socket map (R71). An index beyond the plan's maps reads an empty map. -/
def Bay.map (b : Bay) : SocketMap := b.str.maps.getD b.str.sel {}

/-- The tables of one joist. -/
def SocketMap.joist (m : SocketMap) (j : Nat) : JoistMap := if j = 0 then m.j0 else if j = 1 then m.j1 else m.j2

/-- R121: the long source code of a move; none where the short code is unassigned. -/
def Move.longSrc (jm : JoistMap) (m : Move) : Option Nat :=
  if m.short then (let e := tgetD 0 jm.ssrc m.src; if e / 2 ^ 15 % 2 = 1 then some (e % 256) else none) else some m.src

/-- R121: the long destination code of a move. -/
def Move.longDst (jm : JoistMap) (m : Move) : Option Nat :=
  if m.short then (let e := tgetD 0 jm.sdst m.dst; if e / 2 ^ 15 % 2 = 1 then some (e % 256) else none) else some m.dst

/-- R119: the source a long code names on its joist; none where the map leaves it unassigned. -/
def srcOfCode (jm : JoistMap) (m : Move) (c : Nat) : Option Src :=
  if c < 0x40 then some (.gp c)
  else if c < 0x48 then some (.guard (c - 0x40))
  else if c = 0x48 then some (if m.wide && !m.bad then .const m.imm else .reserved)
  else if c < 0x80 then
    let e := tgetD 0#32 jm.lsrc c
    if bitAt e 31 then some (.port (fld e 24 4) (fld e 20 3) (fld e 16 3)) else none
  else if c < 0xC0 then some (.const (sext 6 (wd (c % 64))))
  else some (.const (wd (c % 64 * 256 + m.imm.toNat % 256)))

/-- R120: the destination a long code names on its joist. -/
def dstOfCode (jm : JoistMap) (c : Nat) : Option Dst :=
  if c < 0x40 then some (.gp c)
  else if c < 0x48 then some (.guard (c - 0x40))
  else
    let e := tgetD 0#32 jm.ldst c
    if bitAt e 31 then
      (if fld e 16 3 = 1 then some (.trig (fld e 24 4) (fld e 20 3) (fld e 0 6))
       else some (.opnd (fld e 24 4) (fld e 20 3) (fld e 16 3)))
    else none

/-- The source of a move. -/
def Move.source (jm : JoistMap) (m : Move) : Option Src := (m.longSrc jm).bind (srcOfCode jm m)

/-- The destination of a move. -/
def Move.dest (jm : JoistMap) (m : Move) : Option Dst := (m.longDst jm).bind (dstOfCode jm)

/-- R77: do two destinations name one socket? Two operations of one trigger port do. -/
def Dst.clash : Dst → Dst → Bool
  | .gp m, .gp n => decide (m = n)
  | .guard m, .guard n => decide (m = n)
  | .opnd u i p, .opnd v j q => decide (u = v ∧ i = j ∧ p = q)
  | .trig u i _, .trig v j _ => decide (u = v ∧ i = j)
  | _, _ => false

/-- A move with its sockets, ready to run. `info` is the FRAME_INFO of a fault of its destination (R212). -/
structure Op where
  joist : Nat
  src : Src
  dst : Dst
  runs : Bool
  info : Word
  deriving DecidableEq, Repr

/-- R212: FRAME_INFO of a port fault: joist, whether the destination, the long code. -/
def portInfo (j : Nat) (isDst : Bool) (code : Nat) : Word := wd (j + nbit isDst * 4 + code % 256 * 256)

/-- Outcome of the DC checks of R94: the moves, or the first fault with its code and FRAME_INFO. -/
inductive Sockets where
  | ok (ops : List Op)
  /-- ABSENT_PORT or TRANSPORT_CONFLICT. `named` is false where the code is a short code that names no long code, so
  that the long code of FRAME_INFO is a free value. -/
  | fault (code : Nat) (info : Word) (named : Bool)
  deriving DecidableEq, Repr

/-- R71: the first unassigned code, lowest joist first and the source before the destination. The flag tells whether a
long code is named. -/
def absentPort (mp : SocketMap) : List Move → Option (Word × Bool)
  | [] => none
  | m :: t =>
    let jm := mp.joist m.joist
    if m.isNull then absentPort mp t
    else if (m.source jm).isNone then some (portInfo m.joist false ((m.longSrc jm).getD 0), (m.longSrc jm).isSome)
    else if (m.dest jm).isNone then some (portInfo m.joist true ((m.longDst jm).getD 0), (m.longDst jm).isSome)
    else absentPort mp t

/-- The moves of a bundle whose destination is not NULL, with their sockets (R122); unassigned ones are left out. -/
def resolve (mp : SocketMap) (cond g1 : Bool) : List Move → List Op
  | [] => []
  | m :: t =>
    let jm := mp.joist m.joist
    if m.isNull then resolve mp cond g1 t
    else match m.source jm, m.dest jm with
      | some s, some d =>
        { joist := m.joist, src := s, dst := d, runs := m.runs cond g1,
          info := portInfo m.joist true ((m.longDst jm).getD m.dst) } :: resolve mp cond g1 t
      | _, _ => resolve mp cond g1 t

/-- R77: the first pair of moves to one destination, reported for the higher joist. -/
def conflict : List Op → Option Word
  | [] => none
  | o :: t => match t.find? (fun p => o.dst.clash p.dst) with
    | some p => some p.info
    | none => conflict t

/-- R94: the DC checks, in the order of the table. Guards do not matter to them (R82). DEDUCED, log entry 19. -/
def sockets (mp : SocketMap) (bd : Bundle) (cond g1 : Bool) : Sockets :=
  match absentPort mp bd.moves with
  | some i => .fault 0x01 i.1 i.2
  | none =>
    let ops := resolve mp cond g1 bd.moves
    match conflict ops with
    | some i => .fault 0x02 i true
    | none => .ok ops

/-! ## Guards -/

/-- R206, R445: pending sources, as bits 0–8. -/
def Bay.pending (b : Bay) (dispatch : Bool) : Nat :=
  let bitN (s : Nat) (p : Bool) : Nat := nbit p * 2 ^ s
  let tm (n : Nat) : Bool := b.tmr.stat.has n && bitAt b.tmr.ctl (8 + n)
  bitN 0 (if b.sill then decide (b.ctx.mxev ≠ 0#32) else dispatch)
  + bitN 1 b.ctx.svc.isSome
  + bitN 2 (tm 0) + bitN 3 (tm 1) + bitN 4 (tm 2) + bitN 5 (tm 3)
  + bitN 6 (b.led.stat.has 0)
  + bitN 7 (!b.sill && decide (b.ctx.plcStat.read &&& b.ctx.plcEn &&& 0x7FFFFF#32 ≠ 0#32))
  + bitN 8 (decide (b.ctx.errStat.read &&& b.ctx.errCtl &&& 7#32 ≠ 0#32))

/-- The slot that holds a task, lowest first. -/
def Qio.slotOf (q : Qio) (task : Nat) : Option (Nat × Slot) :=
  q.slots.findSome? fun e => match e.2 with
    | some sl => if sl.task = task then some (e.1, sl) else none
    | none => none

/-- The landed message that dispatch would choose: highest priority, then earliest commit, of a task with a valid slot
(R241, R252, R253). -/
def Qio.next (q : Qio) : Option Landed :=
  let ok := q.landing.filter fun l => (q.slotOf l.task).isSome
  ok.foldl (fun best l => match best with
    | none => some l
    | some c => if c.prio < l.prio ∨ (c.prio = l.prio ∧ l.msg.commit < c.msg.commit) then some l else some c) none

/-- R252: DISPATCH is pending. -/
def Bay.dispatchPending (b : Bay) : Bool := b.qio.cur.isNone && b.qio.next.isSome

/-- BAY_EVPEND (R210). -/
def Bay.evPend (b : Bay) : Nat := b.pending b.dispatchPending

/-- Level of source s in BAY_EVLVL (R210). -/
def Bay.level (b : Bay) (s : Nat) : Nat := fld b.ctx.evlvl (3 * s) 3

/-- Level of source s as a boundary sees it: a change takes effect at the end of the writing move's TR (R210). -/
def Bay.levelAt (b : Bay) (s : Nat) : Nat :=
  match b.pipe.lvlOld with
  | [] => b.level s
  | e :: _ => fld e.2 (3 * s) 3

/-- Is source s pending? -/
def Bay.isPending (b : Bay) (s : Nat) : Bool := decide (b.evPend / 2 ^ s % 2 = 1)

/-- Is source s pending as a boundary sees it? -/
def Bay.pendingAt (b : Bay) (s : Nat) : Bool :=
  match b.pipe.stale.find? (fun e => decide (e.src = s)) with
  | some e => e.was
  | none => b.isPending s

/-- R207, R252: is source s eligible against mask level m? DISPATCH of a bay only where `disp` allows it. -/
def Bay.eligible (b : Bay) (m : Nat) (disp : Bool) (s : Nat) : Bool :=
  b.isPending s && decide (m < b.level s) && (s != 0 || b.sill || disp)

/-- The same as a boundary sees the sources and their levels. -/
def Bay.eligibleAt (b : Bay) (m : Nat) (disp : Bool) (s : Nat) : Bool :=
  b.pendingAt s && decide (m < b.levelAt s) && (s != 0 || b.sill || disp)

/-- R207: of the sources that `ok` admits, the one of highest level, lowest number between equals. -/
def pickBest (ok : Nat → Bool) (level : Nat → Nat) : Option Nat :=
  (List.range 9).foldl (fun best s =>
    if ok s then
      match best with
      | none => some s
      | some t => if level t < level s then some s else some t
    else best) none

/-- The choice at the check of a return, and of an entry that is commanded. -/
def Bay.pickEvent (b : Bay) (m : Nat) (disp : Bool) : Option Nat := pickBest (b.eligible m disp) b.level

/-- The choice at a boundary. -/
def Bay.pickAt (b : Bay) (m : Nat) (disp : Bool) : Option Nat := pickBest (b.eligibleAt m disp) b.levelAt

/-- R211: POLL: a source is pending and not eligible. -/
def Bay.pollNow (b : Bay) : Bool := (List.range 9).any fun s => b.isPending s && !b.eligible b.ctx.mask b.pipe.waiting s

/-- R211: the condition that a link value selects; none for an ordinary guard. -/
def Bay.linkVal (b : Bay) (l : Nat) : Option Bool :=
  match l with
  | 1 => some (bitAt b.arith 0)
  | 2 => some (bitAt b.arith 1)
  | 3 => some b.ctx.poll
  | _ => none

/-- The link of guard n, if it is linked. -/
def Bay.guardLink (b : Bay) (n : Nat) : Option Bool :=
  if n = 7 then b.linkVal (fld b.ctx.gcfg 2 2) else if n = 6 then b.linkVal (fld b.ctx.gcfg 0 2) else none

/-- R81, R211: guard n as read. -/
def Bay.guard (b : Bay) (n : Nat) : Bool :=
  if n = 0 then true else match b.guardLink n with
    | some c => c
    | none => tgetD false b.guards n

/-- R81, R211: a move to guard n. G0 and linked guards discard it. -/
def Bay.setGuard (b : Bay) (n : Nat) (v : Bool) : Bay :=
  if n = 0 ∨ (b.guardLink n).isSome then b else { b with guards := tsetD false b.guards n v }

/-- R117: the bundle condition. -/
def Bay.cond (b : Bay) (bg : Nat) : Bool := b.guard (bg % 8) != decide (8 ≤ bg)

end Sys2Proof.Machine
end

