-- ==== Sys2Proof/Machine/BayIo.lean ====
section
/-!
DEFINITION. A bay's I/O space (R104): the privilege each address needs, what bay code reads and what a write does.
The same registers answer the sockets of TMR and QIO (R127).
-/
namespace Sys2Proof.Machine

/-! ## Mailboxes (R106–R109) -/

/-- Mailbox m. -/
def Bay.mailbox (b : Bay) (m : Nat) : Mailbox := tgetD {} b.mbx m

/-- Write mailbox m. -/
def Bay.setMailbox (b : Bay) (m : Nat) (x : Mailbox) : Bay := { b with mbx := tsetD {} b.mbx m x }

/-- MBX_LO as a word (R106). -/
def Mailbox.lo (x : Mailbox) : Word :=
  wd (x.seq * 2 ^ 24 + nbit x.valid * 2 ^ 23 + nbit x.seen * 2 ^ 22 + nbit x.lost * 2 ^ 21)

/-- R107: a posting. -/
def Mailbox.post (x : Mailbox) (v : Word) : Mailbox :=
  { x with lost := x.valid, data := v, seq := (x.seq + 1) % 256, valid := true, seen := false }

/-- R109: a host acknowledgement of `s`. -/
def Mailbox.ack (x : Mailbox) (s : Nat) : Mailbox :=
  if x.valid ∧ s = x.seq ∧ x.seen then { x with valid := false } else x

/-- R107: post v in mailbox m. -/
def Bay.mbxPost (b : Bay) (m : Nat) (v : Word) : Bay := b.setMailbox m ((b.mailbox m).post v)

/-! ## Timers (R170–R173) -/

/-- Count of timer n. -/
def Tmr.count (t : Tmr) (n : Nat) : Word := tgetD 0#32 t.cnt n

/-- R172: the counter that RDCYC, RDCYCH, RDWALL and RDWALLH read. -/
def Tmr.counter (t : Tmr) (op : Nat) : Word :=
  if op = 0 then wd t.cyc
  else if op = 1 then wd (t.cyc / 2 ^ 32)
  else if op = 2 then wd t.wall
  else wd (t.wall / 2 ^ 32)

/-- Write the count of timer n: the write wins over a decrement of the same cycle (R171). -/
def Tmr.setCount (t : Tmr) (n : Nat) (v : Word) : Tmr := { t with cnt := tsetD 0#32 t.cnt n v }

/-- R173: a read of the TMR range. DEDUCED, log entry 22. -/
def Tmr.read (t : Tmr) (a : Nat) : Word :=
  if a = 0x1000 then wd t.cyc
  else if a = 0x1004 then wd (t.cyc / 2 ^ 32)
  else if a = 0x1008 then wd t.wall
  else if a = 0x100C then wd (t.wall / 2 ^ 32)
  else if 0x1010 ≤ a ∧ a < 0x1020 then t.count ((a - 0x1010) / 4)
  else if 0x1020 ≤ a ∧ a < 0x1030 then tgetD 0#32 t.rld ((a - 0x1020) / 4)
  else if a = 0x1030 then t.ctl
  else if a = 0x1040 then t.stat.read
  else 0#32

/-- R173: a write to the TMR range. -/
def Tmr.write (t : Tmr) (a : Nat) (v : Word) : Tmr :=
  if 0x1010 ≤ a ∧ a < 0x1020 then t.setCount ((a - 0x1010) / 4) v
  else if 0x1020 ≤ a ∧ a < 0x1030 then { t with rld := tsetD 0#32 t.rld ((a - 0x1020) / 4) v }
  else if a = 0x1030 then { t with ctl := v &&& 0xFFF#32 }
  else if a = 0x1040 then { t with stat := t.stat.write (fld v 24 8) }
  else t

/-! ## QIO registers (R244) -/

/-- R243: word w of the current message, and whether it is poisoned. -/
def Qio.word (q : Qio) (w : Nat) : Word × Bool :=
  match q.cur with
  | none => (0#32, false)
  | some l => if w < 16 * l.msg.cells then (l.msg.words.getD w 0#32, decide (w ∈ l.msg.bad)) else (0#32, false)

/-- QIO_MSG of a message (R244). -/
def Landed.msgWord (l : Landed) : Word :=
  wd (l.msg.pkind % 16 * 2 ^ 24 + nbit l.msg.redelivered * 2 ^ 20 + nbit (!l.msg.bad.isEmpty) * 2 ^ 19
    + nbit l.msg.notice * 2 ^ 18 + (l.msg.cells - 1) % 4 * 2 ^ 16 + l.queue % 65536)

/-- QIO_MSGSRC of a message (R244). -/
def Landed.srcWord (l : Landed) : Word := wd (l.msg.dev % 4096 * 2 ^ 16 + l.msg.index % 16384)

/-- A slot register: which = 0 A, 1 B, 2 C (R244). -/
def slotWord (s : Option Slot) (which : Nat) : Word :=
  match s with
  | none => 0#32
  | some sl =>
    if which = 0 then wd (2 ^ 31 + sl.task % 16384 * 2 ^ 16 + sl.entry / 4 % 16384 * 4)
    else if which = 1 then sl.stack &&& 0xFFFFFFFC#32
    else sl.notq &&& 0x8FFFFFFF#32

/-- R244: a read of the QIO range: the word and whether it is poisoned. -/
def Qio.read (q : Qio) (a : Nat) : Word × Bool :=
  if a < 0x100 then q.word (a / 4)
  else if a < 0x200 then (tgetD 0#32 q.outbox ((a - 0x100) / 4), false)
  else if a = 0x200 then ((q.cur.map Landed.msgWord).getD 0#32, false)
  else if a = 0x204 then ((q.cur.map Landed.srcWord).getD 0#32, false)
  else if a = 0x208 then (wd (nbit q.cur.isSome * 256 + q.sendq.length), false)
  else if a = 0x20C then
    (match q.cur with | some l => wd (l.task % 16384 * 2 ^ 16 + q.curSlot % 16) | none => 0#32, false)
  else if 0x400 ≤ a ∧ a < 0x500 then
    (if a % 16 = 12 then 0#32 else slotWord (tgetD none q.slots ((a - 0x400) / 16)) (a % 16 / 4), false)
  else (0#32, false)

/-- R244: a write to the QIO range: the outbox alone is writable. -/
def Qio.write (q : Qio) (a : Nat) (v : Word) : Qio :=
  if 0x100 ≤ a ∧ a < 0x200 then { q with outbox := tsetD 0#32 q.outbox ((a - 0x100) / 4) v } else q

/-! ## Structural registers (R99–R103) -/

/-- R99–R103: a read of a structural register: the value in effect. -/
def Struct.read (s : Struct) (a : Nat) : Word :=
  if 0x4008 ≤ a ∧ a < 0x4080 then
    (if a % 8 = 0 then tgetD 0#32 s.winA ((a - 0x4000) / 8) else tgetD 0#32 s.winB ((a - 0x4000) / 8))
  else if a = 0x4080 then wd (s.count % 4 * 4 + s.sel % 4)
  else if a = 0x4084 then s.lsufl
  else if a = 0x4088 then wd (s.frames % 8)
  else 0#32

/-- R102: one LSU's MODE after a write of m: 3 is ignored, and an LSU-A or missing LSU takes 0 only. -/
def lsuMode (kind old m : Nat) : Nat := if m = 3 then old else if kind ≠ 2 ∧ m ≠ 0 then old else m

/-- R99–R102: a structural write takes effect. -/
def Struct.apply (s : Struct) (a : Nat) (v : Word) : Struct :=
  if 0x4008 ≤ a ∧ a < 0x4080 then
    (if a % 8 = 0 then { s with winA := tsetD 0#32 s.winA ((a - 0x4000) / 8) (v &&& 0xE3000FFF#32) }
     else { s with winB := tsetD 0#32 s.winB ((a - 0x4000) / 8) (v &&& 0xFFFFF#32) })
  else if a = 0x4080 then (if fld v 0 2 ≤ s.count then { s with sel := fld v 0 2 } else s)
  else if a = 0x4084 then
    { s with lsufl := wd (lsuMode s.units.lsu0 (fld s.lsufl 0 2) (fld v 0 2)
        + 4 * lsuMode s.units.lsu1 (fld s.lsufl 2 2) (fld v 2 2)) }
  else s

/-- The structural writes stored through the bay window are applied in order, by a step or by EXIT (R100). -/
def Struct.applyAll (s : Struct) : Struct :=
  { s.stored.foldl (fun t e => t.apply e.1 e.2) s with stored := [] }

/-- R100: is the address a structural register that software writes? -/
def structAddr (a : Nat) : Bool :=
  (decide (0x4008 ≤ a) && decide (a < 0x4080)) || decide (a = 0x4080) || decide (a = 0x4084)

/-! ## Privilege, events, plumb stack -/

/-- R182, R186: is the bay in a hold? A bay in WAIT is never held by a throttle. -/
def Bay.held (b : Bay) : Bool := b.pipe.hold.isSome || b.pipe.throttled && !b.pipe.waiting

/-- BAY_STATE (R105). -/
def Bay.stateWord (b : Bay) : Word :=
  wd (nbit (b.held && decide (b.state = 3)) * 16
    + nbit b.ctx.check * 8 + b.state % 8)

/-- BAY_ER (R222). -/
def Ctx.erWord (c : Ctx) : Word :=
  match c.recs with
  | [] => 0#32
  | r :: _ => wd (nbit r.check * 2 ^ 11 + r.level % 8 * 2 ^ 8 + r.mask % 8 * 2 ^ 4 + r.priv % 4 * 2 ^ 2)

/-- R232: DROP removes the bottom entry and adds 1 to SPILLED; ignored when empty. -/
def Ctx.plbDrop (c : Ctx) : Ctx :=
  if c.plumb = [] then c else { c with plumb := c.plumb.dropLast, spilled := satAdd 0xFFFF c.spilled 1 }

/-- R232: FILL inserts a new bottom entry and subtracts 1 from SPILLED; ignored when full. -/
def Ctx.plbFill (c : Ctx) (v : Word) : Ctx :=
  if 512 ≤ c.plumb.length then c
  else { c with plumb := c.plumb ++ [fld v 2 14 * 4], spilled := c.spilled - 1 }

/-- R233: a mode change waits for three further bundles. DEDUCED, log entry 20. -/
def Ctx.later (c : Ctx) (reg : Nat) (v : Word) : Ctx := { c with modes := c.modes ++ [⟨3, reg, v⟩] }

/-- R205: a write to BAY_PRIV. A value above the current privilege, or 3, is ignored; so is every write inside bay
check (R227) and on the sill core (R444). -/
def Bay.writePriv (b : Bay) (v : Word) : Bay :=
  if b.sill || b.ctx.check || decide (b.ctx.priv < fld v 0 2) || decide (fld v 0 2 = 3) then b
  else { b with ctx := b.ctx.later 0 (wd (fld v 0 2)) }

/-- R210: a write to BAY_MASK; ignored inside bay check. -/
def Bay.writeMask (b : Bay) (v : Word) : Bay :=
  if b.ctx.check then b else { b with ctx := b.ctx.later 1 (wd (fld v 0 3)) }

/-- R211: a write to BAY_GCFG. -/
def Bay.writeGcfg (b : Bay) (v : Word) : Bay := { b with ctx := b.ctx.later 2 (wd (fld v 0 4)) }

/-- A mode change takes effect (R233); only an entry raises privilege (R205), so a value above the privilege that an
earlier change left is ignored. DEDUCED, log entry 20. -/
def Ctx.applyMode (c : Ctx) (m : ModeChange) : Ctx :=
  match m.reg with
  | 0 => { c with priv := if m.val.toNat % 4 ≤ c.priv then m.val.toNat % 4 else c.priv }
  | 1 => { c with mask := m.val.toNat % 8 }
  | _ => { c with gcfg := m.val }

/-- Mode changes whose three bundles have run take effect (R233). -/
def Ctx.modesDue (c : Ctx) : Ctx :=
  { (c.modes.filter fun m => decide (m.count = 0)).foldl Ctx.applyMode c with
    modes := c.modes.filter fun m => decide (m.count ≠ 0) }

/-- One more bundle has issued for every waiting mode change (R233). DEDUCED, log entry 20. -/
def Ctx.modesTick (c : Ctx) : Ctx := { c with modes := c.modes.map fun m => { m with count := m.count - 1 } }

/-- Every write still waiting takes effect at an entry, a fault or a RETX (R233). -/
def Ctx.modesAll (c : Ctx) : Ctx := { c.modes.foldl Ctx.applyMode c with modes := [] }

/-- R205, R210–R232, R349, R520: a read in 0x3010–0x30FF. -/
def Bay.evRead (b : Bay) (a : Nat) : Word :=
  let c := b.ctx
  if a = 0x3010 then wd c.priv
  else if a = 0x3014 then wd c.mask
  else if a = 0x3018 then c.gcfg
  else if a = 0x301C then wd (c.vbase % 64 * 1024)
  else if a = 0x3020 then c.evlvl
  else if a = 0x3028 then wd b.evPend
  else if a = 0x302C then c.erWord
  else if a = 0x3030 then wd c.recs.length
  else if a = 0x3040 then c.sregBase
  else if a = 0x3044 then c.sregLimit
  else if a = 0x3050 then wd (c.spilled % 65536 * 65536 + c.plumb.length)
  else if a = 0x3054 then wd (c.plumb.getLast?.getD 0)
  else if a = 0x3060 then wbit c.chkStack
  else if a = 0x3070 then c.plcStat.read
  else if a = 0x3074 then c.plcInfo
  else if a = 0x3078 then c.plcEn
  else if a = 0x3080 then c.errStat.read
  else if a = 0x3084 then c.errAddr
  else if a = 0x3088 then c.errCtl
  else if a = 0x3090 then b.qio.rtnotq
  else 0#32

/-- R205, R210–R232, R349, R520: a write in 0x3010–0x30FF by bay code. -/
def Bay.evWrite (b : Bay) (a : Nat) (v : Word) : Bay :=
  let c := b.ctx
  if a = 0x3010 then b.writePriv v
  else if a = 0x3014 then b.writeMask v
  else if a = 0x3018 then b.writeGcfg v
  else if a = 0x301C then { b with ctx := { c with vbase := fld v 10 6 } }
  else if a = 0x3020 then { b with ctx := { c with evlvl := v &&& 0x7FFFFFF#32 } }
  else if a = 0x3040 then { b with ctx := { c with sregBase := v &&& 0x7FFF0#32 } }
  else if a = 0x3044 then { b with ctx := { c with sregLimit := v &&& 0x7FFF0#32 } }
  else if a = 0x3050 then { b with ctx := { c with spilled := fld v 16 16 } }
  else if a = 0x3058 then (if bitAt v 0 then { b with ctx := c.plbDrop } else b)
  else if a = 0x305C then { b with ctx := c.plbFill v }
  else if a = 0x3060 then { b with ctx := { c with chkStack := bitAt v 0 } }
  else if a = 0x3070 then { b with ctx := { c with plcStat := c.plcStat.write (fld v 24 8) } }
  else if a = 0x3078 then { b with ctx := { c with plcEn := v &&& 7#32 } }
  else if a = 0x3080 then { b with ctx := { c with errStat := c.errStat.write (fld v 24 8) } }
  else if a = 0x3088 then { b with ctx := { c with errCtl := v &&& 0x107#32 } }
  else if a = 0x3090 then { b with qio := { b.qio with rtnotq := v &&& 0x8FFFFFFF#32 } }
  else b

/-! ## Instruction store port (R141, R142) -/

/-- R142: a write to IWR_DATA. -/
def Bay.iwrData (b : Bay) (v : Word) : Bay :=
  if 64 ≤ b.iwrStage.length then { b with iwrOvf := true }
  else { b with iwrStage := b.iwrStage ++ [(b.iwrAddr, v)], iwrAddr := (b.iwrAddr + 1) % 16384 }

/-- R141: a read of the IWR range. IWR_READ shows the committed word. -/
def Bay.iwrRead (b : Bay) (a : Nat) : Word :=
  if a = 0x3100 then wd (b.iwrAddr * 4)
  else if a = 0x3108 then b.istore.word (b.iwrAddr * 4)
  else if a = 0x310C then wd (nbit b.iwrOvf * 256 + b.iwrStage.length)
  else 0#32

/-- R141: a write to the IWR range. DEDUCED, log entry 28. -/
def Bay.iwrWrite (b : Bay) (a : Nat) (v : Word) : Bay :=
  if a = 0x3100 then { b with iwrAddr := fld v 2 14 }
  else if a = 0x3104 then b.iwrData v
  else if a = 0x310C then { b with iwrOvf := bitAt v 8 }
  else b

/-! ## Trace registers (R111) -/

/-- R111–R113: a read of 0x5000–0x501F. -/
def Dbg.read (d : Dbg) (a : Nat) : Word :=
  if a = 0x5000 then wd (d.trcBank * 256 + nbit d.trcOn)
  else if a = 0x5004 then wd d.trcPtr
  else if a = 0x5008 then wd d.trcDrop
  else if a = 0x5014 then wd (nbit d.fromRun * 256)
  else 0#32

/-- R111: a write to BAY_TRC_CTL. A bank of 192–255 is ignored; ENABLE = 1 is ignored while locked; a write of 1 to
ENABLE clears NEXT and starts the count of drops. -/
def Dbg.traceCtl (d : Dbg) (v : Word) : Dbg :=
  let d1 := if fld v 8 8 < 192 then { d with trcBank := fld v 8 8 } else d
  if bitAt v 0 then (if d.locked then d1 else { d1 with trcOn := true, trcPtr := 0, trcDrop := 0 })
  else { d1 with trcOn := false }

/-! ## The whole map for bay code -/

/-- R104, R203: the privilege that an I/O address needs. DEDUCED, log entry 28. -/
def ioPriv (a : Nat) : Nat :=
  if a = 0x3000 then 1
  else if a = 0x3060 then 2
  else if 0x3010 ≤ a ∧ a < 0x3110 then 1
  else if 0x4000 ≤ a ∧ a < 0x4090 then 2
  else if 0x5000 ≤ a ∧ a < 0x5020 then 2
  else 0

/-- R104, R127: what bay code reads at an I/O address, and whether the word is poisoned. -/
def Bay.ioRead (b : Bay) (a : Nat) : Word × Bool :=
  if a < 0x1000 then (if b.sill then (0#32, false) else b.qio.read a)
  else if a < 0x1100 then (b.tmr.read a, false)
  else if a = 0x1800 then (b.arith, false)
  else if 0x2000 ≤ a ∧ a < 0x2040 then
    (if a % 16 = 0 then ((b.mailbox ((a - 0x2000) / 16)).lo, false)
     else if a % 16 = 4 then ((b.mailbox ((a - 0x2000) / 16)).data, false) else (0#32, false))
  else if a = 0x3000 then (b.stateWord, false)
  else if 0x3010 ≤ a ∧ a < 0x3100 then (b.evRead a, false)
  else if 0x3100 ≤ a ∧ a < 0x3110 then (b.iwrRead a, false)
  else if 0x4000 ≤ a ∧ a < 0x4090 then (b.str.read a, false)
  else if 0x5000 ≤ a ∧ a < 0x5014 then (b.dbg.read a, false)
  else (0#32, false)

/-- R104, R127: an I/O store by bay code, already checked. A structural write is stored for its SYNCC (R100). -/
def Bay.ioWrite (b : Bay) (a : Nat) (v : Word) : Bay :=
  if a < 0x1000 then (if b.sill then b else { b with qio := b.qio.write a v })
  else if a < 0x1100 then { b with tmr := b.tmr.write a v }
  else if a = 0x1800 then { b with arith := v &&& 0x103#32 }
  else if 0x2000 ≤ a ∧ a < 0x2040 then (if a % 16 = 12 then b.mbxPost ((a - 0x2000) / 16) v else b)
  else if 0x3010 ≤ a ∧ a < 0x3100 then b.evWrite a v
  else if 0x3100 ≤ a ∧ a < 0x3110 then b.iwrWrite a v
  else if structAddr a then { b with str := { b.str with own := b.str.own ++ [(a, v)] } }
  else if a = 0x5000 then { b with dbg := b.dbg.traceCtl v }
  else b

end Sys2Proof.Machine
end

