-- ==== Sys2Proof/Machine/Ledger.lean ====
section
/-!
DEFINITION. The hold ledger (R188–R194): which cause a hold cycle is charged to, and what a charge does.
-/
namespace Sys2Proof.Machine

/-- Counter c of a ledger. -/
def Ledger.count (l : Ledger) (c : Nat) : Nat := tgetD 0 l.cnt c

/-- One more on counter c, wrapping at 2^64 (R58). -/
def Ledger.bump (l : Ledger) (c : Nat) : Ledger :=
  { l with cnt := tsetD 0 l.cnt c ((l.count c + 1) % 2 ^ 64) }

/-- R193: the run of cycles charged to cause c grows by one, and LEDGER_MAXc follows it, saturating. -/
def Ledger.runOn (l : Ledger) (c : Nat) : Ledger :=
  let n := match l.run with
    | some (d, k) => if d = c then k + 1 else 1
    | none => 1
  let m := if 2 ^ 32 - 1 ≤ n then 2 ^ 32 - 1 else n
  { l with run := some (c, n), max := if tgetD 0 l.max c < m then tsetD 0 l.max c m else l.max }

/-- R194: LEDGER_DISP grows by one; passing LIMIT sets OVER as an event. -/
def Ledger.dispOn (l : Ledger) : Ledger :=
  let n := satAdd (2 ^ 32 - 1) l.disp 1
  let lim := l.budget.toNat
  { l with disp := n, stat := if lim ≠ 0 ∧ l.disp ≤ lim ∧ lim < n then l.stat.event 0 else l.stat }

/-- R188: one cycle is charged to cause c; causes 1–14 also to the total and to LEDGER_DISP. -/
def Ledger.charge (l : Ledger) (c : Nat) : Ledger :=
  let l1 := (l.bump c).runOn c
  if c = 0 then l1 else (l1.bump 15).dispOn

/-- R193: a cycle that is neither a stall nor a hold ends the run. -/
def Ledger.endRun (l : Ledger) : Ledger := { l with run := none }

/-- R193: CLEAR. -/
def Ledger.clear (l : Ledger) : Ledger := { l with cnt := [], max := [], disp := 0, run := none }

/-- R190: the cause an awaited outside access gives to wall cycle w; none once it was readable earlier. -/
def Outside.cause (o : Outside) (w : Nat) : Option Nat :=
  let late : Nat :=
    if o.cls < o.tier ∧ w - o.trigWall ≤ o.served then 6 + o.tier
    else if o.tag ≠ 0 then o.tag else 14
  match o.readable with
  | some a => if w ≤ a then some late else none
  | none => some late

/-- The smaller of two optional causes. -/
def minCause (a b : Option Nat) : Option Nat :=
  match a, b with
  | none, y => y
  | x, none => x
  | some x, some y => some (if x ≤ y then x else y)

/-- R190: the lowest-numbered cause that would by itself hold the bay in this cycle. -/
def HoldCycle.cause (fl : List Flight) (h : HoldCycle) : Nat :=
  let own : Option Nat := h.causes.foldl (fun m c => minCause m (some c)) none
  let outs : Option Nat := fl.foldl (fun m f =>
    if f.id ∈ h.awaited then (match f.out with | some o => minCause m (o.cause h.wall) | none => m) else m) own
  outs.getD 14

/-- R191: the cycles of the hold that ends are charged. -/
def Bay.chargeHold (b : Bay) : Bay :=
  { b with led := b.pipe.holdLog.foldl (fun l h => l.charge (h.cause b.pipe.flights)) b.led,
           pipe := { b.pipe with holdLog := [] } }

/-- R193, R191: LEDGER_CTL.CLEAR; the cycles of a hold in progress are discarded. -/
def Bay.ledgerClear (b : Bay) : Bay := { b with led := b.led.clear, pipe := { b.pipe with holdLog := [] } }

end Sys2Proof.Machine
end

