-- ==== Sys2Proof/Machine/BayMem.lean ====
section
/-!
DEFINITION. A bay's own stores with their check bits (R280, R281, R554), bay-down (R230), and the checks of a data
access (R94, R96, R164, R212, R232).
-/
namespace Sys2Proof.Machine

/-- R230: bay-down. `at_` is the bundle address that R230 chooses; reason 5, 6 or 7. -/
def Bay.goDown (b : Bay) (reason code : Nat) (info : Word) (at_ ueAddr : Nat) : Bay :=
  let cause := wd (at_ / 4 % 16384 * 2 ^ 18 + reason % 8 * 256 + code % 256)
  let b1 := b.chargeHold
  let b2 := ((b1.scrPut (b.fcKey 0x20) cause).scrPut (b.fcKey 0x24) info).scrPut (b.fcKey 0x28) (wd b.tmr.wall)
  ({ b2 with state := 4,
             pipe := { b2.pipe with flights := [], redirects := [], idle := 0, port := 0, waiting := false,
                                    fault := none, svcNow := none, ret := none, rep := none, hold := none },
             ueDowns := b2.ueDowns + nbit (decide (reason = 7)) }).ask (.down cause info (decide (reason = 7)) ueAddr)

/-- A corrected error in this bay's stores: a record and BAY_ERRSTAT.CE (R280, R520). DEDUCED, log entry 29. -/
def Bay.corrected (b : Bay) (array addr : Nat) : Bay :=
  ({ b with ctx := { b.ctx with errStat := b.ctx.errStat.event 2 } }).ask (.storeErr 1 array addr)

/-- What reading one word of scratch finds. -/
structure WordRead where
  bay : Bay
  val : Word
  poison : Bool := false
  ue : Bool := false
  deriving DecidableEq, Repr

/-- R280, R554: read the word of scratch at byte key k (a multiple of 4). `frame` tells that it is read as part of an
L0 page frame, where a double-bit error is DEFERRED and leaves the poison code. -/
def Bay.scrRead (b : Bay) (k : Nat) (frame : Bool) : WordRead :=
  let v := b.scrWord k
  match markOf b.smarks (k / 4) with
  | 0 => { bay := b, val := v }
  | 1 => { bay := b.corrected 0 k, val := v }
  | 2 =>
    if frame then
      { bay := ({ b with smarks := setMark b.smarks (k / 4) 3 }).ask (.storeErr 2 0 k), val := v, poison := true }
    else { bay := b, val := v, ue := true }
  | _ => { bay := b, val := v, poison := true }

/-- R281: a store of `n` bytes that lie within one word. A whole word writes over anything; a part merges. -/
def Bay.scrStore (b : Bay) (a n : Nat) (v : Nat) (frame : Bool) : WordRead :=
  let w := a / 4
  let b1 := { b with scratch := b.scratch.putNum a n v }
  if n = 4 then { bay := { b1 with smarks := setMark b.smarks w 0 }, val := 0#32 }
  else match markOf b.smarks w with
    | 0 => { bay := b1, val := 0#32 }
    | 1 => { bay := ({ b1 with smarks := setMark b.smarks w 0 }).corrected 0 (w * 4), val := 0#32 }
    | 2 => if frame then { bay := { b1 with smarks := setMark b.smarks w 3 }, val := 0#32, poison := true }
           else { bay := b, val := 0#32, ue := true }
    | _ => { bay := b1, val := 0#32, poison := true }

/-- R277: does an access of n bytes at a cross a word boundary? -/
def isSplit (a n : Nat) : Bool := decide (4 < a % 4 + n)

/-- A load of n bytes at a from scratch, both halves of a split one (R277–R280). -/
def Bay.scrLoad (b : Bay) (a n : Nat) (frame : Bool) : WordRead :=
  let r1 := b.scrRead (a / 4 * 4) frame
  let v := wd (b.scratch.num a n)
  if isSplit a n then
    let r2 := r1.bay.scrRead (a / 4 * 4 + 4) frame
    { bay := r2.bay, val := v, poison := r1.poison || r2.poison, ue := r1.ue || r2.ue }
  else { bay := r1.bay, val := v, poison := r1.poison, ue := r1.ue }

/-- The address of the failing word of an access that met STORE_UE: the first half's when it is bad. -/
def Bay.ueWord (b : Bay) (a : Nat) : Nat := if markOf b.smarks (a / 4) = 2 then a / 4 * 4 else a / 4 * 4 + 4

/-- A store of the low n bytes of v at a; a split one judges both halves before either is written (R279, R281). -/
def Bay.scrStoreAny (b : Bay) (a n : Nat) (v : Word) : WordRead :=
  if isSplit a n then
    let n1 := 4 - a % 4
    let r1 := b.scrStore a n1 (v.toNat % 2 ^ (8 * n1)) false
    let r2 := r1.bay.scrStore (a + n1) (n - n1) (v.toNat / 2 ^ (8 * n1) % 2 ^ (8 * (n - n1))) false
    if r1.ue || r2.ue then { bay := b, val := 0#32, ue := true } else r2
  else b.scrStore a n (v.toNat % 2 ^ (8 * n)) false

/-- What a check finds: rank in the order of R94 and R212, code and FRAME_INFO. -/
structure Bad where
  rank : Nat
  code : Nat
  info : Word
  deriving DecidableEq, Repr

/-- The rank of a TR cause: the order of the table of R212, with SCRATCH_RANGE after PRIV_PORT, SCRATCH_PROT after
FAULT_CELL and the plumb causes last. -/
def trRank (code : Nat) : Nat := code

/-- A fault with its rank. -/
def bad (code : Nat) (info : Word) : Option Bad := some ⟨trRank code, code, info⟩

/-- Does some byte of the n from a lie in lo ≤ x < hi? -/
def touches (a n lo hi : Nat) : Bool := decide (a < hi) && decide (lo < a + n)

/-- R94, R96, R232: the checks of a scratch access of n bytes at a, by privilege. -/
def Bay.checkScratch (b : Bay) (a n : Nat) (store : Bool) (info : Word) : Option Bad :=
  if touches a n 0x60000 0x10000000 then bad 0x06 info
  else if touches a n 0 b.scrLo then bad 0x07 info
  else if touches a n fcBase 0x60000 ∧ (store ∨ b.ctx.priv < 2) then bad 0x08 info
  else if b.ctx.priv = 0 ∧ b.ctx.sregBase.toNat < b.ctx.sregLimit.toNat
      ∧ touches a n b.ctx.sregBase.toNat b.ctx.sregLimit.toNat then bad 0x09 info
  else none

/-- Descriptor A of window n. -/
def Bay.winA (b : Bay) (n : Nat) : Word := tgetD 0#32 b.str.winA n

/-- Descriptor B of window n. -/
def Bay.winB (b : Bay) (n : Nat) : Word := tgetD 0#32 b.str.winB n

/-- R94, R98: the checks of a window access of n bytes at ea. -/
def Bay.checkWindow (b : Bay) (ea n : Nat) (store : Bool) (info : Word) : Option Bad :=
  let d := b.winA (ea / 2 ^ 28)
  if !bitAt d 31 then bad 0x0A info
  else if fld d 0 12 < ea / 2 ^ 16 % 4096 then bad 0x0B info
  else if store && !bitAt d 30 then bad 0x0C info
  else if 4 < ea % 4 + n then bad 0x0D info
  else none

/-- The checks of an LSU access at effective address ea. -/
def Bay.checkData (b : Bay) (ea n : Nat) (store : Bool) : Option Bad :=
  if ea < 2 ^ 28 then b.checkScratch ea n store (wd ea) else b.checkWindow ea n store (wd ea)

/-- R164: the checks of a table extent of n bytes at base a. DEDUCED, log entry 24. -/
def Bay.checkTable (b : Bay) (a n : Nat) : Option Bad :=
  if a < 2 ^ 28 then
    if b.inProgram a && decide (fcBase < a + n) then bad 0x04 (wd a)
    else b.checkScratch a n false (wd a)
  else
    let d := b.winA (a / 2 ^ 28)
    if !bitAt d 31 then bad 0x0A (wd a)
    else if fld d 0 12 * 2 ^ 16 + 2 ^ 16 < a % 2 ^ 28 + n then bad 0x0B (wd a)
    else none

/-- R139, R232: the checks of a CALL or RET stack word. -/
def Bay.checkStack (b : Bay) (a : Nat) : Option Bad :=
  if !b.stackWordOk a then bad 0x04 (wd a)
  else if !b.sill && decide (b.ctx.priv = 0) && (b.inSreg a || b.inSreg (a + 3)) then bad 0x09 (wd a)
  else none

end Sys2Proof.Machine
end

