-- ==== Sys2Proof/Machine/Entry.lean ====
section
/-!
DEFINITION. Entries and returns (R206–R230, R252–R256): taking a fault or an event is one shared operation, and so is
the return.
-/
namespace Sys2Proof.Machine

/-! ## Frames -/

/-- The pending redirect that a frame records: bundles left and target (R217, R220). A RET that did not compare equal
is recorded as a redirect to the RET itself, which mismatches again when it runs. DEDUCED, log entry 20. -/
def Redirect.frame (r : Redirect) : Nat × Nat :=
  match r.kind with
  | .target p => (r.count, p)
  | .wait => (0, 0)
  | .syncc _ p => (r.count, p)
  | .mismatch p _ _ => (r.count, p)

/-- A pending WAIT redirects nothing (R174, R217). -/
def Redirect.redirects (r : Redirect) : Bool := match r.kind with | .wait => false | _ => true

/-- DSLOT and TGT of the frame: those of the pending redirect that acts first. DEDUCED, log entry 18. -/
def Bay.dslot (b : Bay) : Nat × Nat :=
  match b.pipe.redirects.find? Redirect.redirects with
  | none => (0, 0)
  | some r => r.frame

/-- R220: what a frame's second word says. -/
structure FrameStat where
  vector : Nat
  cause : Nat
  level : Nat
  dslot : Nat
  repu : Bool
  mask : Nat
  priv : Nat
  deriving DecidableEq, Repr

/-- FRAME_STAT as a word. -/
def FrameStat.word (f : FrameStat) : Word :=
  wd (f.vector % 256 * 2 ^ 24 + f.cause % 256 * 2 ^ 16 + f.level % 8 * 2 ^ 13 + f.dslot % 8 * 2 ^ 10
    + nbit f.repu * 2 ^ 9 + f.mask % 8 * 2 ^ 6 + f.priv % 4)

/-- FRAME_PC (R220). -/
def framePc (ret dslot tgt : Nat) : Word :=
  wd ((if dslot = 0 then 0 else tgt / 4 % 16384 * 2 ^ 18) + ret / 4 % 16384 * 4)

/-- FRAME_CTX (R220): flags, and guards as read. -/
def Bay.frameCtx (b : Bay) : Word :=
  wd (nbit (bitAt b.arith 8) * 1024 + nbit (bitAt b.arith 1) * 512 + nbit (bitAt b.arith 0) * 256
    + nbit (b.guard 7) * 128 + nbit (b.guard 6) * 64 + nbit (b.guard 5) * 32 + nbit (b.guard 4) * 16
    + nbit (b.guard 3) * 8 + nbit (b.guard 2) * 4 + nbit (b.guard 1) * 2 + 1)

/-- Write the four words of a frame at key k. -/
def Bay.putFrame (b : Bay) (k : Nat) (pc stat ctx info : Word) : Bay :=
  (((b.scrPut k pc).scrPut (k + 4) stat).scrPut (k + 8) ctx).scrPut (k + 12) info

/-- What an entry is: handler address, privilege and mask it runs with, what the frame says of it. -/
structure Entry where
  vector : Nat
  cause : Nat
  level : Nat
  priv : Nat
  mask : Nat
  info : Word
  handler : Nat
  deriving DecidableEq, Repr

/-- Address of vector v (R218). -/
def Bay.vectorAt (b : Bay) (v : Nat) : Nat := b.ctx.vbase % 64 * 1024 + 0x40 * v

/-- R221: is a push at GP63 valid for the interrupted context? -/
def Bay.pushOk (b : Bay) : Bool :=
  let sp := (b.gpr 63).toNat
  let lo := sp - 16
  decide (sp % 4 = 0) && decide (16 ≤ sp) && b.stackWordOk lo && b.stackWordOk (lo + 12)
    && (b.sill || decide (b.ctx.priv ≠ 0) || !(decide (b.ctx.sregBase.toNat < b.ctx.sregLimit.toNat)
          && touches lo 16 b.ctx.sregBase.toNat b.ctx.sregLimit.toNat))

/-- The structural writes of a SYNCC whose transfer is pending take effect (R174). -/
def Bay.flushSync (b : Bay) : Bay :=
  { b with str := b.pipe.redirects.foldl (fun s r => match r.kind with
      | .syncc ws _ => ws.foldl (fun t e => t.apply e.1 e.2) s
      | _ => s) b.str }

/-- Issue goes to `pc` after `idle` cycles without a bundle; nothing of the interrupted flow stays pending. The bundles
there are fetched after any SYNCI before has committed, and see its words (R143). -/
def Bay.redirectTo (b : Bay) (pc idle port : Nat) : Bay :=
  { b.flushSync with
    oldWords := [],
    pipe := { b.pipe with
      pc := pc, redirects := [], idle := idle, port := port, waiting := false, fault := none, svcNow := none,
      ret := none, rep := none } }

/-- R227, R228: bay check entry: the frame goes to FC_FRAME, the record is marked. -/
def Bay.enterCheck (b : Bay) (reason code : Nat) (info : Word) (ret : Nat) (repu : Bool) (idle : Nat) : Bay :=
  let ds := b.dslot
  let st : FrameStat := ⟨0, code, 7, ds.1, repu, b.ctx.mask, b.ctx.priv⟩
  let fcCause := wd (b.ctx.recs.length % 16 * 2 ^ 20 + b.ctx.priv % 4 * 2 ^ 18 + b.ctx.mask % 8 * 2 ^ 15
    + reason % 8 * 256 + code % 256)
  let b1 := b.putFrame (b.fcKey 0) (framePc ret ds.1 ds.2) st.word b.frameCtx info
  let b2 := ((b1.scrPut (b.fcKey 0x10) fcCause).scrPut (b.fcKey 0x14) info).scrPut (b.fcKey 0x18) (b.gpr 63)
  let b3 := b2.scrPut (b.fcKey 0x1C) (b2.scrWord (b.fcKey 0x1C) + 1#32)
  let b4 := { b3 with ctx := { b3.ctx with
      recs := ⟨b.ctx.priv, b.ctx.mask, 7, true⟩ :: b.ctx.recs, priv := 2, mask := 7, check := true, chkStack := false } }
  (b4.redirectTo (b.vectorAt 0) idle 4).ask (.checkRec fcCause info)

/-- R219–R222: the entry sequence. An invalid push becomes a BAD_STACK bay check, or bay-down inside bay check. -/
def Bay.enter (b : Bay) (e : Entry) (ret : Nat) (repu : Bool) (idle : Nat) : Bay :=
  if b.pushOk then
    let ds := b.dslot
    let st : FrameStat := ⟨e.vector, e.cause, e.level, ds.1, repu, b.ctx.mask, b.ctx.priv⟩
    let sp := b.gpr 63 - 16#32
    let b1 := b.putFrame (b.key sp.toNat) (framePc ret ds.1 ds.2) st.word b.frameCtx e.info
    let b2 := { (b1.setGpr 63 sp) with ctx := { b1.ctx with
        recs := ⟨b.ctx.priv, b.ctx.mask, e.level, false⟩ :: b.ctx.recs, priv := e.priv, mask := e.mask } }
    b2.redirectTo e.handler idle 4
  else if b.ctx.check then b.goDown 6 e.cause e.info ret 0
  else b.enterCheck 2 e.cause e.info ret repu idle

/-! ## Faults -/

/-- How many transfers are pending. -/
def Bay.pendingTransfers (b : Bay) : Nat := (b.pipe.redirects.filter Redirect.redirects).length

/-- R212–R217, R226: a fault is taken at its boundary, or escalates. Waiting mode changes take effect first (R233). -/
def Bay.takeFault (b0 : Bay) (f : FaultReq) (idle : Nat) : Bay :=
  let b := { b0 with ctx := b0.ctx.modesAll }
  if b.ctx.check then b.goDown 5 f.code f.info f.bundle 0
  else if 2 ≤ b.pendingTransfers then b.enterCheck 4 f.code f.info f.ret f.repu idle
  else if f.origin = 0 then
    (if b.ctx.mask ≤ 5 then
      b.enter ⟨1, f.code, 6, 1, 6, f.info, b.vectorAt 1⟩ f.ret f.repu idle
     else b.enterCheck 1 f.code f.info f.ret f.repu idle)
  else if f.origin = 1 then
    (if b.ctx.mask ≤ 6 then
      (if f.code = 0x12 then b.enter ⟨1, f.code, 7, 1, 7, f.info, b.vectorAt 1⟩ f.ret f.repu idle
       else b.enter ⟨2, f.code, 7, 2, 7, f.info, b.vectorAt 2⟩ f.ret f.repu idle)
     else b.enterCheck 1 f.code f.info f.ret f.repu idle)
  else b.enterCheck 3 f.code f.info f.ret f.repu idle

/-! ## Events -/

/-- FRAME_INFO of an event (R220, R349, R445, R520). -/
def Bay.eventInfo (b : Bay) (s : Nat) : Word :=
  if s = 0 then b.ctx.mxPend
  else if s = 1 then wd (b.ctx.svc.getD 0)
  else if s ≤ 5 then wd (s - 2)
  else if s = 6 then wd b.led.disp
  else if s = 7 then b.ctx.plcStat.read
  else b.ctx.errStat.read

/-- Vector of an event source (R218, R445). -/
def eventVector (s : Nat) : Nat := if s = 0 then 3 else 4 + s

/-- The entry that an event source of level `lvl` makes (R206). The sill core stays at machine privilege (R444). -/
def Bay.eventEntry (b : Bay) (s lvl : Nat) : Entry :=
  { vector := eventVector s, cause := 0, level := lvl, priv := if b.sill then 2 else 1, mask := lvl,
    info := b.eventInfo s, handler := b.vectorAt (eventVector s) }

/-- A one-shot source is pending until its entry (R206). -/
def Bay.consume (b : Bay) (s : Nat) : Bay := if s = 1 then { b with ctx := { b.ctx with svc := none } } else b

/-- R253: the run of a landed message begins: it leaves the landing and becomes the current message. -/
def Bay.beginRun (b : Bay) (l : Landed) (slot : Nat) (frame : Nat) : Bay :=
  { b with qio := { b.qio with landing := b.qio.landing.erase l, cur := some l, curSlot := slot, frame := frame,
                               plumbAt := b.ctx.plumb.length + b.ctx.spilled, depth := b.ctx.recs.length - 1 },
           led := { b.led with disp := 0 } }

/-- R252, R253: dispatch entry. On an invalid push the message stays landed and no run starts. -/
def Bay.dispatch (b0 : Bay) (idle : Nat) : Bay :=
  let b := { b0 with ctx := b0.ctx.modesAll }
  match b.qio.next with
  | none => b0
  | some l => match b.qio.slotOf l.task with
    | none => b0
    | some (slot, sl) =>
      let e : Entry := { vector := 0xFF, cause := 0, level := b.levelAt 0, priv := 0, mask := b.levelAt 0,
                         info := l.msgWord, handler := sl.entry }
      let frame := (b.gpr 63 - 16#32).toNat
      let b1 := b.enter e b.pipe.pc false idle
      if b.pushOk then (b1.beginRun l slot frame).setGpr 63 sl.stack else b1

/-- R206–R209, R219: an event is taken at an eligible boundary; `ret` is the bundle that would have issued. -/
def Bay.takeEvent (b0 : Bay) (s : Nat) (repu : Bool) (idle : Nat) : Bay :=
  if s = 0 ∧ !b0.sill then b0.dispatch idle
  else
    let e := b0.eventEntry s (b0.levelAt s)
    let b := { b0 with ctx := b0.ctx.modesAll }
    ((b.enter e b.pipe.pc repu idle)).consume s

/-! ## Return -/

/-- The words of a frame that a return reads. -/
structure FrameRead where
  pc : Word
  stat : Word
  ctx : Word
  deriving DecidableEq, Repr

/-- R224: is the frame forged against privilege p and mask m? DEDUCED, log entry 21. -/
def forged (stat : Word) (p m : Nat) : Bool :=
  decide (p < fld stat 0 2) || decide (fld stat 0 2 = 3) || decide (m < fld stat 6 3) || decide (4 < fld stat 10 3)

/-- The privilege and mask a frame is checked against: the top record's, or the current ones (R223, R224). DEDUCED,
log entry 21. -/
def Ctx.bound (c : Ctx) : Nat × Nat :=
  match c.recs with
  | [] => (c.priv, c.mask)
  | r :: _ => (r.priv, r.mask)

/-- R255: DONE checks its frame against the record that the dispatch entry pushed, and leaves by it: the entries of
handlers that nest in the run lie above it, `depth` records lie below. -/
def Ctx.downTo (c : Ctx) (depth : Nat) : Ctx :=
  let n := c.recs.length - (depth + 1)
  { c with recs := c.recs.drop n, check := c.check && !(c.recs.take n).any EntryRec.check }

/-- G1–G7 as a frame restores them (R223). -/
def Bay.restoreGuards (b : Bay) (ctx : Word) : Bay :=
  [1, 2, 3, 4, 5, 6, 7].foldl (fun x n => x.setGuard n (bitAt ctx n)) b

/-- The flags as a frame restores them: DZTRAP 10, DZ 9, OV 8 (R220). -/
def ctxArith (ctx : Word) : Word := wd (nbit (bitAt ctx 10) * 256 + nbit (bitAt ctx 9) * 2 + nbit (bitAt ctx 8))

/-- R223: the context of a frame resumes: record popped, privilege, mask, flags and guards restored; the first bundle
issues 5 cycles after the trigger, and an unfinished repeat runs first (R175). The cycles of the repeat count from the
one in which that bundle would issue (R133, R135). DEDUCED, log entry 21. -/
def Bay.resume (b : Bay) (f : FrameRead) (newSp : Option Word) (idle : Nat) : Bay :=
  let wasCheck := match b.ctx.recs with | [] => false | r :: _ => r.check
  let b1 := { b with arith := ctxArith f.ctx, ctx := { b.ctx with
      recs := b.ctx.recs.tail, priv := fld f.stat 0 2, mask := fld f.stat 6 3,
      check := b.ctx.check && !wasCheck } }
  let b2 := (match newSp with | some v => b1.setGpr 63 v | none => b1).restoreGuards f.ctx
  let ret := fld f.pc 2 14 * 4
  let ds := fld f.stat 10 3
  let b3 := b2.redirectTo ret idle 0
  let k := fld (b3.gpr 58) 0 3
  { b3 with pipe := { b3.pipe with
      redirects := if ds = 0 then [] else [⟨ds, .target (fld f.pc 18 14 * 4)⟩],
      rep := if bitAt f.stat 9 then
               some { count := if b3.gpr 62 = 0#32 then 3 else 3 + (if k = 2 ∨ k = 3 ∨ 6 ≤ k then 1 else 2), bundle := ret }
             else none } }

/-- R225: the frame stays and is rewritten for the chained entry. -/
def Bay.rewriteFrame (b : Bay) (k : Nat) (stat : Word) (vector level : Nat) (info : Word) : Bay :=
  let s := wd (vector % 256 * 2 ^ 24 + level % 8 * 2 ^ 13 + stat.toNat % 2 ^ 13)
  (b.scrPut (k + 4) s).scrPut (k + 12) info

/-- R225: the record of a chain: the top record takes the new level; with none, one is pushed. -/
def Ctx.chainRecord (c : Ctx) (stat : Word) (level : Nat) : List EntryRec :=
  match c.recs with
  | [] => [⟨fld stat 0 2, fld stat 6 3, level, false⟩]
  | r :: t => { r with level := level } :: t

/-- R225: chain to event s (not DISPATCH) instead of returning. -/
def Bay.chainEvent (b : Bay) (k : Nat) (f : FrameRead) (s idle : Nat) : Bay :=
  let e := b.eventEntry s (b.level s)
  let b1 := b.rewriteFrame k f.stat e.vector e.level e.info
  let b2 := { b1 with ctx := { b1.ctx with recs := b.ctx.chainRecord f.stat e.level, priv := e.priv, mask := e.mask } }
  (b2.redirectTo e.handler idle 2).consume s

/-- Where RETX reads its frame: the fault cell inside bay check unless BAY_CHKCTL.STACK, else GP63 (R223, R229).
DEDUCED, log entry 21. -/
def Bay.retxFromCell (b : Bay) : Bool := b.ctx.check && !b.ctx.chkStack

/-- R223: RETX reads FRAME_PC in the TR of its bundle; `sp` is GP63 before the bundle, `at_` the bundle. -/
def Bay.retx (b : Bay) (sp : Word) (at_ : Nat) : Bay :=
  let k := if b.retxFromCell then b.fcKey 0 else b.key sp.toNat
  let r := b.scrRead k false
  if r.ue then b.goDown 7 0x20 (wd k) at_ k
  else { r.bay with pipe := { r.bay.pipe with
    ret := some { run := false, at_ := at_, origin := b.ctx.priv, sp := sp, key := k, cell := b.retxFromCell,
                  pc := r.val } } }

/-- R255: entries leave the plumb stack from the top until DEPTH + SPILLED equals what was recorded at entry. -/
def Ctx.trimPlumb (c : Ctx) (n : Nat) : Ctx :=
  let extra := c.plumb.length + c.spilled - n
  { c with plumb := c.plumb.drop extra, spilled := c.spilled - (extra - c.plumb.length) }

/-- R255: the run ends: the message is freed and the plumb stack trimmed. -/
def Bay.endRun (b : Bay) : Bay :=
  match b.qio.cur with
  | none => b
  | some l => ({ b with qio := { b.qio with cur := none }, ctx := b.ctx.trimPlumb b.qio.plumbAt }).ask (.freed l)

/-- R256: chain to the next landed message. -/
def Bay.chainDispatch (b : Bay) (k : Nat) (f : FrameRead) (idle : Nat) : Bay :=
  match b.qio.next with
  | none => b
  | some l => match b.qio.slotOf l.task with
    | none => b
    | some (slot, sl) =>
      let b1 := b.rewriteFrame k f.stat 0xFF (b.level 0) l.msgWord
      let b2 := { b1 with ctx := { b1.ctx with recs := b.ctx.chainRecord f.stat (b.level 0), priv := 0,
                                               mask := b.level 0 } }
      ((b2.redirectTo sl.entry idle 2).beginRun l slot b.qio.frame).setGpr 63 sl.stack

/-- R255: DONE reads its frame as RETX does. With no active run it does nothing. -/
def Bay.done (b : Bay) (at_ : Nat) : Bay :=
  if b.qio.cur.isNone then b
  else
    let k := b.key b.qio.frame
    let r := b.scrRead k false
    if r.ue then b.goDown 7 0x20 (wd k) at_ k
    else { r.bay with pipe := { r.bay.pipe with
      ret := some { run := true, at_ := at_, origin := b.ctx.priv, sp := wd b.qio.frame, key := k, cell := false,
                    pc := r.val } } }

/-- R224: a forged return restores nothing and faults where its first bundle would have issued. -/
def Bay.forgedAt (b : Bay) (r : Return) (stat : Word) (idle : Nat) : Bay :=
  let c := b.redirectTo r.at_ idle 0
  { c with pipe := { c.pipe with
    fault := some { code := 0x12, info := stat, origin := r.origin, ret := r.at_, bundle := r.at_ } } }

/-- R223–R225: the check of RETX, in the cycle in which it reads FRAME_CTX. DEDUCED, log entry 21. -/
def Bay.retxCheck (b : Bay) (r : Return) (f : FrameRead) : Bay :=
  if forged f.stat b.ctx.bound.1 b.ctx.bound.2 then b.forgedAt r f.stat 2
  else
    let back := b.resume f (if r.cell then none else some (r.sp + 16#32)) 2
    if b.ctx.check then back
    else match b.pickEvent (fld f.stat 6 3) false with
      | some s => b.chainEvent r.key f s 3
      | none => back

/-- R255, R256: the check of DONE. Inside bay check a return never chains (R225). DEDUCED, log entry 21. -/
def Bay.doneCheck (b0 : Bay) (r : Return) (f : FrameRead) : Bay :=
  let b := { b0 with ctx := b0.ctx.downTo b0.qio.depth }
  if forged f.stat b.ctx.bound.1 b.ctx.bound.2 then b0.forgedAt r f.stat 2
  else
    let d := b.endRun
    let back := d.resume f (some (wd (b.qio.frame + 16))) 2
    if b0.ctx.check then back
    else match d.pickEvent (fld f.stat 6 3) true with
      | some 0 => d.chainDispatch r.key f 3
      | some s => (d.chainEvent r.key f s 3).setGpr 63 (wd b.qio.frame)
      | none => back

/-- R223, R255: one more cycle of a return: FRAME_STAT is read, then FRAME_CTX with the check. Mode changes that wait take
effect before the check (R233). -/
def Bay.returnCycle (b : Bay) (r : Return) : Bay :=
  let k := r.key + 4 * r.read
  let w := b.scrRead k false
  if w.ue then b.goDown 7 0x20 (wd k) r.at_ k
  else if r.read = 1 then
    { w.bay with pipe := { w.bay.pipe with ret := some { r with stat := w.val, read := 2 }, used := true } }
  else
    let c := { w.bay with ctx := w.bay.ctx.modesAll }
    let f : FrameRead := { pc := r.pc, stat := r.stat, ctx := w.val }
    if r.run then c.doneCheck r f else c.retxCheck r f

end Sys2Proof.Machine
end

