-- ==== Sys2Proof/Machine/Fma.lean ====
section
/-!
DEFINITION. The FMA32 unit (R167–R169): IEEE 754 binary32, round to nearest even, subnormals in full, canonical NaN.
A finite number is a sign, a natural significand and an exponent of two; sums and products are exact in the integers
and are rounded once.
-/
namespace Sys2Proof.Machine

/-- A binary32 datum taken apart. A finite value is (-1)^neg × m × 2^e. -/
inductive F32 where
  | nan
  | inf (neg : Bool)
  | fin (neg : Bool) (m : Nat) (e : Int)
  deriving DecidableEq, Repr

/-- The canonical quiet NaN (R168). -/
def f32NaN : Word := 0x7FC00000#32

/-- Take a word apart. -/
def f32Of (w : Word) : F32 :=
  let s := bitAt w 31
  let ex := fld w 23 8
  let fr := fld w 0 23
  if ex = 255 then (if fr = 0 then .inf s else .nan)
  else if ex = 0 then .fin s fr (-149)
  else .fin s (fr + 2 ^ 23) (Int.ofNat ex - 150)

/-- The word of an infinity. -/
def f32Inf (neg : Bool) : Word := if neg then 0xFF800000#32 else 0x7F800000#32

/-- The word of a zero. -/
def f32Zero (neg : Bool) : Word := if neg then 0x80000000#32 else 0#32

/-- m ÷ 2^k rounded to nearest, ties to even. -/
def rneShift (m k : Nat) : Nat :=
  let q := m / 2 ^ k
  let r := m % 2 ^ k
  if k = 0 then m
  else if 2 ^ (k - 1) < r then q + 1
  else if r = 2 ^ (k - 1) then q + q % 2
  else q

/-- The binary32 word nearest to (-1)^neg × m × 2^e, ties to even. -/
def f32Round (neg : Bool) (m : Nat) (e : Int) : Word :=
  if m = 0 then f32Zero neg
  else
    -- exponent of the last place kept: 24 significant bits, never below that of the subnormals
    let top := e + Int.ofNat (Nat.log2 m)
    let lsb := if top - 23 < -149 then -149 else top - 23
    let q : Nat := if lsb ≤ e then m * 2 ^ (e - lsb).toNat else rneShift m (lsb - e).toNat
    let q' : Nat := if q = 2 ^ 24 then 2 ^ 23 else q
    let l' : Int := if q = 2 ^ 24 then lsb + 1 else lsb
    if q' < 2 ^ 23 then wd (q' + (if neg then 2 ^ 31 else 0))
    else
      let ex := l' + 150
      if 255 ≤ ex then f32Inf neg
      else wd (q' - 2 ^ 23 + ex.toNat * 2 ^ 23 + (if neg then 2 ^ 31 else 0))

/-- Exact sum of two finite numbers, with the sign of a zero sum by round to nearest. -/
def f32AddFin (n1 : Bool) (m1 : Nat) (e1 : Int) (n2 : Bool) (m2 : Nat) (e2 : Int) : Word :=
  let e := if e1 ≤ e2 then e1 else e2
  let i1 : Int := Int.ofNat (m1 * 2 ^ (e1 - e).toNat)
  let i2 : Int := Int.ofNat (m2 * 2 ^ (e2 - e).toNat)
  let s := (if n1 then -i1 else i1) + (if n2 then -i2 else i2)
  if s = 0 then f32Zero (n1 && n2) else f32Round (decide (s < 0)) s.natAbs e

/-- Sum (R168). -/
def f32Add : F32 → F32 → Word
  | .nan, _ => f32NaN
  | _, .nan => f32NaN
  | .inf s, .inf t => if s = t then f32Inf s else f32NaN
  | .inf s, .fin _ _ _ => f32Inf s
  | .fin _ _ _, .inf t => f32Inf t
  | .fin n1 m1 e1, .fin n2 m2 e2 => f32AddFin n1 m1 e1 n2 m2 e2

/-- Exact product. -/
def f32Mul : F32 → F32 → F32
  | .nan, _ => .nan
  | _, .nan => .nan
  | .inf s, .inf t => .inf (s != t)
  | .inf s, .fin t m _ => if m = 0 then .nan else .inf (s != t)
  | .fin s m _, .inf t => if m = 0 then .nan else .inf (s != t)
  | .fin s m e, .fin t k f => .fin (s != t) (m * k) (e + f)

/-- A datum as a word, rounded once. -/
def f32Pack : F32 → Word
  | .nan => f32NaN
  | .inf s => f32Inf s
  | .fin s m e => f32Round s m e

/-- A datum with its sign inverted. -/
def f32Neg : F32 → F32
  | .nan => .nan
  | .inf s => .inf (!s)
  | .fin s m e => .fin (!s) m e

/-- Is a < b, both not NaN? Zeros of either sign are equal. -/
def f32Lt : F32 → F32 → Bool
  | .nan, _ => false
  | _, .nan => false
  | .inf s, .inf t => s && !t
  | .inf s, .fin _ _ _ => s
  | .fin _ _ _, .inf t => !t
  | .fin n1 m1 e1, .fin n2 m2 e2 =>
    let e := if e1 ≤ e2 then e1 else e2
    let i1 : Int := Int.ofNat (m1 * 2 ^ (e1 - e).toNat)
    let i2 : Int := Int.ofNat (m2 * 2 ^ (e2 - e).toNat)
    decide ((if n1 then -i1 else i1) < (if n2 then -i2 else i2))

/-- Is the datum a NaN? -/
def f32IsNaN (x : F32) : Bool := decide (x = .nan)

/-- a = b as numbers. -/
def f32Eq (x y : F32) : Bool := !f32IsNaN x && !f32IsNaN y && !f32Lt x y && !f32Lt y x

/-- R168: minimumNumber (max = false) and maximumNumber: the number beside a NaN, and −0 below +0. -/
def f32MinMax (max : Bool) (a b : Word) : Word :=
  let x := f32Of a
  let y := f32Of b
  if f32IsNaN x && f32IsNaN y then f32NaN
  else if f32IsNaN x then b
  else if f32IsNaN y then a
  else
    let aFirst := f32Lt x y || (f32Eq x y && (bitAt a 31 || !bitAt b 31))
    if aFirst != max then a else b

/-- R169: truncation of binary32 to an integer in lo..hi, the values given out of range, and whether OV is set. -/
def f32ToInt (lo hi : Int) (w : Word) : Word × Bool :=
  match f32Of w with
  | .nan => (0#32, true)
  | .inf s => (wdI (if s then lo else hi), true)
  | .fin s m e =>
    let t : Int := Int.ofNat (if 0 ≤ e then m * 2 ^ e.toNat else m / 2 ^ (-e).toNat)
    let i := if s then -t else t
    if i < lo then (wdI lo, true) else if hi < i then (wdI hi, true) else (wdI i, false)

/-- R167–R169: FMA32 result and whether OV is set. -/
def fmaOp (op : Nat) (a b c : Word) : Option (Word × Bool) :=
  let x := f32Of a
  let y := f32Of b
  let z := f32Of c
  let v (w : Word) : Option (Word × Bool) := some (w, false)
  match op with
  | 0x00 => v (f32Add (f32Mul x y) z)
  | 0x01 => v (f32Add (f32Mul x y) (f32Neg z))
  | 0x02 => v (f32Add (f32Neg (f32Mul x y)) z)
  | 0x03 => v (f32Add x y)
  | 0x04 => v (f32Add x (f32Neg y))
  | 0x05 => v (f32Pack (f32Mul x y))
  | 0x06 => v (f32MinMax false a b)
  | 0x07 => v (f32MinMax true a b)
  | 0x08 => v (wbit (f32Eq x y))
  | 0x09 => v (wbit (f32Lt x y))
  | 0x0A => v (wbit (f32Lt x y || f32Eq x y))
  | 0x0B => v (f32Round (decide (b.toInt < 0)) b.toInt.natAbs 0)
  | 0x0C => v (f32Round false b.toNat 0)
  | 0x0D => some (f32ToInt (-2147483648) 2147483647 b)
  | 0x0E => some (f32ToInt 0 4294967295 b)
  | 0x0F => v (b &&& 0x7FFFFFFF#32)
  | 0x10 => v (b ^^^ 0x80000000#32)
  | _ => none

end Sys2Proof.Machine
end

