-- ==== Sys2Proof/Machine/Exec.lean ====
section
/-!
DEFINITION. What a trigger does (R73, R126–R143, R146–R176, R231, R243–R246): the units of a bay and their checks.
-/
namespace Sys2Proof.Machine

/-! ## Launching an operation -/

/-- A trigger starts an operation: it gets the next serial number (R86). -/
def Bay.launch (b : Bay) (unit inst l : Nat) (res : List (Nat × Word)) (poison : Option Word) (line : Nat) : Bay :=
  { b with pipe := { b.pipe with
      serial := b.pipe.serial + 1,
      flights := b.pipe.flights ++ [{ id := b.pipe.serial, unit := unit, inst := inst, left := l, total := l,
                                      res := res, poison := poison, line := line }] } }

/-- A trigger whose operation leaves the bay. A lookup declared L0 reads its lines through the scratch port (R166). -/
def Bay.launchOut (b : Bay) (unit inst l : Nat) (o : Outside) (line : Nat) : Bay :=
  { b with pipe := { b.pipe with
      serial := b.pipe.serial + 1,
      flights := b.pipe.flights ++ [{ id := b.pipe.serial, unit := unit, inst := inst, left := l, total := l,
                                      out := some o, line := if o.cls = 0 then line else 0 }] } }

/-- A trigger that reads a counter at the end of its TR. DEDUCED, log entry 22. -/
def Bay.launchLate (b : Bay) (unit inst l op : Nat) : Bay :=
  { b with pipe := { b.pipe with
      serial := b.pipe.serial + 1,
      flights := b.pipe.flights ++ [{ id := b.pipe.serial, unit := unit, inst := inst, left := l, total := l,
                                      late := some op }] } }

/-- R93: the supervisor issue stop: the next bundle issues L cycles after this one. -/
def Bay.stopIssue (b : Bay) (l : Nat) : Bay :=
  if b.ctx.priv = 0 then b
  else { b with pipe := { b.pipe with idle := if b.pipe.idle < l - 1 then l - 1 else b.pipe.idle } }

/-- R125: unspecified values in result ports, and nothing else. They count as results received, at once. DESIGN CHOICE,
log entry 68. -/
def Bay.scribble (b : Bay) (unit inst : Nat) : List Nat → Bay
  | [] => b
  | p :: t => ((b.draw.1).receive unit inst p b.draw.2 none).scribble unit inst t

/-- Result ports of a unit (R363, R364): Q 2, H 3, M 4. -/
def resultPorts (unit : Nat) : List Nat :=
  if unit = 4 then [2, 3] else if unit = 5 then [2, 4] else if unit = 9 then [] else [2]

/-- Sticky flags set by an operation (R147). -/
def Bay.flag (b : Bay) (ov dz : Bool) : Bay := { b with arith := setArith b.arith ov dz }

/-! ## Latencies (R89, R158, R165) -/

/-- LSU latency of a class. -/
def lsuLat (cls : Nat) : Nat := if cls = 0 then 3 else if cls = 1 then 28 else if cls = 2 then 180 else 640

/-- HASH latency of a class. -/
def hashLat (cls : Nat) : Nat := if cls = 0 then 12 else if cls = 1 then 32 else if cls = 2 then 184 else 644

/-- RANGE latency of a class. -/
def rangeLat (cls : Nat) : Nat := if cls = 0 then 24 else if cls = 1 then 64 else if cls = 2 then 368 else 1288

/-! ## LSU -/

/-- R130: the LSU-D transform. `s` is the log of the access size. -/
def transform (mode : Nat) (base param a : Word) (s : Nat) : Word :=
  if mode = 1 then (if param = 0#32 then a else base + wd (a.toNat % param.toNat))
  else if mode = 2 then
    let k := if 16 < fld param 0 5 then 16 else fld param 0 5
    if k = 0 then a else base + wd (revBits k (a.toNat / 2 ^ s % 2 ^ k) * 2 ^ s)
  else a

/-- R102, R129, R130: the effective address of an LSU access; an LSU-A never transforms. -/
def Bay.effAddr (b : Bay) (inst : Nat) (a : Word) (s : Nat) : Word :=
  if inst = 0 then (if b.str.units.lsu0 = 2 then transform (fld b.str.lsufl 0 2) (b.gpr 54) (b.gpr 55) a s else a)
  else if b.str.units.lsu1 = 2 then transform (fld b.str.lsufl 2 2) (b.gpr 56) (b.gpr 57) a s else a

/-- The log of the size of a load or store operation. -/
def lsuSize (op : Nat) : Nat := if op = 0 ∨ op = 1 ∨ op = 8 then 0 else if op = 2 ∨ op = 3 ∨ op = 9 then 1 else 2

/-- Is the operation a load (R158)? -/
def isLoad (op : Nat) : Bool := decide (op ≤ 4)

/-- Is it a store? -/
def isStore (op : Nat) : Bool := decide (op = 8 ∨ op = 9 ∨ op = 10)

/-- A loaded value of 2^s bytes extended to a word: LDB and LDH extend the sign (R158). -/
def extend (op : Nat) (v : Word) : Word :=
  if op = 0 then sext 8 v else if op = 1 then zext 8 v else if op = 2 then sext 16 v else if op = 3 then zext 16 v else v

/-- I/O address of a trigger value (R127): bits 15:2. -/
def ioAddr (v : Word) : Nat := fld v 2 14 * 4

/-- A store window access's flight and request (R89, R180). -/
def Bay.windowOut (b : Bay) (ea : Word) (lat : Nat → Nat) (store : Bool) (lines issued : Nat) : Outside :=
  let cls := fld (b.winA (ea.toNat / 2 ^ 28)) 24 2
  { pending := lines, trigWall := issued, declared := lat cls, cls := cls, store := store }

/-- A load or store of the sill core (R444, R446). DEDUCED, log entry 26. -/
def Bay.sillLsu (b : Bay) (op : Nat) (v a : Word) : Bay :=
  let n := 2 ^ lsuSize op
  if isLoad op then
    match sillLoc b.remap v.toNat with
    | .sram o => (b.launch 6 0 3 [(2, extend op (wd (b.scratch.num o n)))] none 0).stopIssue 3
    | .rom o => (b.launch 6 0 3 [(2, extend op (wd (ofBytes ((List.range n).map fun i => Config.romByte (o + i)))))]
        none 0).stopIssue 3
    | .bus => ((b.launch 6 0 3 [(2, 0#32)] none 0).stopIssue 3).ask (.busLoad b.pipe.serial v n (decide (op = 0 ∨ op = 2)))
  else
    match sillLoc b.remap v.toNat with
    | .sram o => { b with scratch := b.scratch.putNum o n a.toNat }
    | .rom _ => b.ask (.busStore v n a)
    | .bus => b.ask (.busStore v n a)

/-- R126, R158, R159: a load or store at its effective address, already checked. `issued` is the wall cycle in which
the bundle issued, `at_` its address. -/
def Bay.lsuAccess (b : Bay) (inst op : Nat) (ea a : Word) (issued at_ : Nat) : Bay :=
  let n := 2 ^ lsuSize op
  let e := ea.toNat
  let win := e / 2 ^ 28
  if e < 2 ^ 28 then
    if isLoad op then
      let r := b.scrLoad e n false
      if r.ue then b.goDown 7 0x20 (wd (b.ueWord e)) at_ (b.ueWord e)
      else r.bay.launch 6 inst 3 [(2, extend op r.val)] (if r.poison then some ea else none) 0
    else
      let r := b.scrStoreAny e n a
      if r.ue then b.goDown 7 0x20 (wd (b.ueWord e)) at_ (b.ueWord e) else r.bay
  else if isLoad op then
    let o := b.windowOut ea lsuLat false 1 issued
    (b.launchOut 6 inst o.declared o 0).ask
      (.load b.pipe.serial win (e / 2 ^ 16 % 4096) (e % 65536) n (decide (op = 0 ∨ op = 2)))
  else
    let o := b.windowOut ea lsuLat true 1 issued
    (b.launchOut 6 inst 0 o 0).ask (.store b.pipe.serial win (e / 2 ^ 16 % 4096) (e % 65536) n a ea)

/-- R158: an LSU trigger, already checked. -/
def Bay.lsu (b : Bay) (inst op : Nat) (v : Word) (issued at_ : Nat) : Bay :=
  let a := b.opnd 6 inst 0
  if isLoad op || isStore op then
    (if b.sill then b.sillLsu op v a
     else b.lsuAccess inst op (b.effAddr inst v (lsuSize op)) a issued at_)
  else if op = 0xC then
    let r := b.ioRead (ioAddr v)
    if ioAddr v = 0x3108 ∧ markOf b.imarks b.iwrAddr = 2 then b.goDown 7 0x20 (wd (b.iwrAddr * 4)) b.pipe.pc (b.iwrAddr * 4)
    else if ioAddr v = 0x3108 ∧ markOf b.imarks b.iwrAddr = 1 then
      (b.corrected 1 (b.iwrAddr * 4)).launch 6 inst 3 [(2, r.1)] none 0
    else b.launch 6 inst 3 [(2, r.1)] (if r.2 then some v else none) 0
  else if op = 0xD then b.ioWrite (ioAddr v) a
  else b.scribble 6 inst [2]

/-! ## TBL -/

/-- A line of 32 bytes of scratch: its words, and the bay after the reads. -/
structure LineRead where
  bay : Bay
  words : List Word
  poison : Bool
  ue : Option Nat
  deriving DecidableEq, Repr

/-- Read n words of a line (R164, R280). -/
def Bay.readLine (b : Bay) (a : Nat) : Nat → LineRead
  | 0 => { bay := b, words := [], poison := false, ue := none }
  | n + 1 =>
    let r := b.scrRead a false
    let t := r.bay.readLine (a + 4) n
    { bay := t.bay, words := r.val :: t.words, poison := r.poison || t.poison,
      ue := if r.ue then some a else t.ue }

/-- R162: the bucket of key b in a table of 2^v buckets. -/
def hashBucket (v : Nat) (key : Word) : Nat := (crc32c (toBytes 4 key.toNat)).toNat % 2 ^ v

/-- R161, R162: the value of the first entry whose key matches; four entries of two words. -/
def hashFind (key : Word) : List Word → Word
  | k :: v :: t => if k = key then v else hashFind key t
  | _ => 0xFFFFFFFF#32

/-- R163: how many splitters are less than or equal to the key. -/
def rangeLeaf (key : Word) (root : List Word) : Nat := ((root.take 7).filter fun s => s.ule key).length

/-- R163: the value of the highest-numbered pair whose boundary is less than or equal to the key. -/
def rangeFind (key : Word) : List Word → Word → Word
  | k :: v :: t, best => rangeFind key t (if k.ule key then v else best)
  | _, best => best

/-- R161–R166: a TBL trigger, already checked. DEDUCED, log entry 24. -/
def Bay.tbl (b : Bay) (inst op : Nat) (key : Word) (issued at_ : Nat) : Bay :=
  let ref := b.opnd 7 inst 0
  let base := ref.toNat / 32 * 32
  let v := fld ref 0 5
  if op = 0 then
    let la := base + 32 * hashBucket v key
    if base < 2 ^ 28 then
      let r := b.readLine la 8
      match r.ue with
      | some a => b.goDown 7 0x20 (wd a) at_ a
      | none => (r.bay.launch 7 inst 12 [(2, hashFind key r.words)] (if r.poison then some (wd la) else none) 1).stopIssue 12
    else
      let o := b.windowOut (wd base) hashLat false 1 issued
      ((b.launchOut 7 inst o.declared o 1).ask (.hash b.pipe.serial (base / 2 ^ 28) (la % 2 ^ 28) key (wd la))).stopIssue
        o.declared
  else if op = 1 then
    if base < 2 ^ 28 then
      let r := b.readLine base 8
      match r.ue with
      | some a => b.goDown 7 0x20 (wd a) at_ a
      | none =>
        let la := base + 32 * (1 + rangeLeaf key r.words)
        let q := r.bay.readLine la 8
        match q.ue with
        | some a => b.goDown 7 0x20 (wd a) at_ a
        | none => (q.bay.launch 7 inst 24 [(2, rangeFind key q.words 0xFFFFFFFF#32)]
            (if r.poison then some (wd base) else if q.poison then some (wd la) else none) 2).stopIssue 24
    else
      let o := b.windowOut (wd base) rangeLat false 2 issued
      ((b.launchOut 7 inst o.declared o 2).ask (.range b.pipe.serial (base / 2 ^ 28) (base % 2 ^ 28) key (wd base))).stopIssue
        o.declared
  else b.scribble 7 inst [2]

/-! ## The other units -/

/-- ALU, SHF, CRC, MUL, DIV, FMA32 (R150–R157, R167–R169). -/
def Bay.arithUnit (b : Bay) (unit inst op : Nat) (v : Word) : Bay :=
  let a := b.opnd unit inst 0
  let bad := b.scribble unit inst (resultPorts unit)
  match unit with
  | 0 => match aluOp op a v with
    | some (r, ov) => (b.flag ov false).launch 0 inst 2 [(2, r)] none 0
    | none => bad
  | 1 => match shfOp op a v with
    | some r => b.launch 1 inst 2 [(2, r)] none 0
    | none => bad
  | 2 => match crcOp op a (tgetD 0#32 b.crcs inst) v with
    | some r => { b with crcs := tsetD 0#32 b.crcs inst r }.launch 2 inst 2 [(2, r)] none 0
    | none => bad
  | 4 => match mulOp op a v with
    | some (q, h) => b.launch 4 inst 3 ((2, q) :: (h.map fun x => (3, x)).toList) none 0
    | none => bad
  | 5 => match divOp op a v with
    | some r =>
      let b1 := ((b.flag r.ov r.dz).launch 5 inst 34 [(2, r.q), (4, r.m)] none 0).stopIssue 34
      { b1 with pipe := { b1.pipe with divBusy := tsetD 0 b1.pipe.divBusy inst 34 } }
    | none => bad
  | _ => match fmaOp op a v (b.opnd 8 inst 5) with
    | some (r, ov) => ((b.flag ov false).launch 8 inst 5 [(2, r)] none 0).stopIssue 5
    | none => bad

/-- Cycles per element of a repeat (R132): COPY and CMP 2, FILL and SRCH 1. -/
def repCycles (k : Nat) : Nat := if k = 2 ∨ k = 3 ∨ 6 ≤ k then 1 else 2

/-- R131, R133: a REP trigger: REP_K and REP_N are written, and the repeat starts. -/
def Bay.repStart (b : Bay) (op : Nat) (v : Word) (at_ : Nat) : Bay :=
  if op < 8 then
    let b1 := (b.setGpr 58 (wd op)).setGpr 62 v
    { b1 with pipe := { b1.pipe with
        rep := some { count := if v = 0#32 then 2 else 2 + repCycles op, bundle := at_ } } }
  else b.scribble 3 0 [2]

/-- R172: a TMR trigger. A read takes the value at the end of its TR. DEDUCED, log entry 22. -/
def Bay.tmrOp (b : Bay) (op : Nat) (v : Word) : Bay :=
  let q (w : Word) : Bay := b.launch 11 0 2 [(2, w)] none 0
  if op < 4 then b.launchLate 11 0 2 op
  else if op < 8 then q (b.tmr.count (op - 4))
  else if op < 12 then { b with tmr := b.tmr.setCount (op - 8) v }
  else b.scribble 11 0 [2]

/-- The notice queue of the producer of an ENQ made now (R249, R251). DEDUCED, log entry 31. -/
def Bay.producerNotq (b : Bay) : Word :=
  match b.qio.cur with
  | none => b.qio.rtnotq
  | some _ => match tgetD none b.qio.slots b.qio.curSlot with
    | some s => s.notq
    | none => 0#32

/-- R246, R251: ENQ copies the outbox into the send queue. -/
def Bay.enq (b : Bay) (v : Word) : Bay :=
  let n := fld v 28 2 + 1
  let words := (List.range (16 * n)).map fun i => tgetD 0#32 b.qio.outbox i
  let m : SendMsg := { trig := v, words := words, rt := b.qio.cur.isNone, task := (b.qio.cur.map Landed.task).getD 0,
                       notq := b.producerNotq, gate := b.pipe.serial }
  { b with qio := { b.qio with sendq := b.qio.sendq ++ [m] } }

/-- R243: a QIO trigger other than DONE. -/
def Bay.qioOp (b : Bay) (op : Nat) (v : Word) : Bay :=
  let w := fld v 0 6
  if op = 0 then
    let r := b.qio.word w
    b.launch 10 0 2 [(2, r.1)] (if r.2 then some (wd (4 * w)) else none) 0
  else if op = 1 then b.launch 10 0 2 [(2, (b.qio.read 0x200).1)] none 0
  else if op = 2 then b.launch 10 0 2 [(2, (b.qio.read 0x204).1)] none 0
  else if op = 4 then { b with qio := { b.qio with outbox := tsetD 0#32 b.qio.outbox w (b.opnd 10 0 0) } }
  else if op = 8 then b.enq v
  else if op = 0xC then b
  else b.scribble 10 0 [2]

/-! ## CTL -/

/-- The word that fetch delivers at address a to the bundle that issues after `n` more: the old one while a SYNCI's delay
bundles run (R143). -/
def Bay.fetchAfter (b : Bay) (n a : Nat) : Word :=
  if b.sill then
    match sillLoc b.remap a with
    | .sram o => b.scratch.word o
    | .rom o => wd (ofBytes ((List.range 4).map fun i => Config.romByte (o + i)))
    | .bus => 0#32
  else
    let i := a / 4 % 16384
    match b.oldWords.find? (fun o => decide (o.idx = i) && decide (n < o.left)) with
    | some o => o.val
    | none => b.istore.word (i * 4)

/-- The word that fetch delivers at address a to the next bundle. -/
def Bay.fetchWord (b : Bay) (a : Nat) : Word := b.fetchAfter 0 a

/-- The address after a bundle of n bytes at a: modulo 64 KiB, or 32 bits on the sill core (R114, R444). -/
def Bay.advance (b : Bay) (a n : Nat) : Nat := if b.sill then (a + n) % 2 ^ 32 else (a + n) % 65536

/-- A transfer target: bits 15:2, or 31:2 on the sill core (R136, R444). -/
def Bay.target (b : Bay) (v : Word) : Nat := if b.sill then v.toNat / 4 * 4 else fld v 2 14 * 4

/-- Where the pending transfers send the n-th bundle from now. -/
def targetAt (rs : List Redirect) (n : Nat) : Option Nat :=
  rs.findSome? fun r => if r.count = n then (match r.kind with
    | .target p => some p
    | .syncc _ p => some p
    | _ => none) else none

/-- R137: the address that follows, in memory, the k-th bundle issued from `pc`, under the pending transfers. `done`
bundles have been counted. -/
def Bay.ahead (b : Bay) (rs : List Redirect) : Nat → Nat → Nat → Nat
  | 0, _, pc => pc
  | k + 1, done, pc =>
    let next := b.advance pc (if isLong (b.fetchAfter done pc) then 8 else 4)
    if k = 0 then next
    else b.ahead rs k (done + 1) ((targetAt rs (done + 1)).getD next)

/-- R137, R142, R174: the address after the fourth bundle from now. -/
def Bay.afterFour (b : Bay) : Nat := b.ahead b.pipe.redirects 4 0 b.pipe.pc

/-- Add a pending transfer four bundles from now (R84). -/
def Bay.transfer (b : Bay) (k : RedirectKind) : Bay :=
  { b with pipe := { b.pipe with redirects := b.pipe.redirects ++ [⟨4, k⟩] } }

/-- R142: SYNCI commits the staged words in write order; the words replaced stay visible to its delay bundles. -/
def Bay.commitIwr (b : Bay) : Bay :=
  let old := b.iwrStage.map fun e => (⟨4, e.1, b.istore.word (e.1 * 4)⟩ : OldWord)
  { b with oldWords := b.oldWords ++ old,
           istore := b.iwrStage.foldl (fun m e => m.putWord (e.1 * 4) e.2) b.istore,
           imarks := b.iwrStage.foldl (fun t e => setMark t e.1 0) b.imarks,
           iwrStage := [] }

/-- R137: CALL, with GP63 as it stood before the bundle. -/
def Bay.call (b : Bay) (v sp : Word) : Bay :=
  let ret := b.afterFour
  let nsp := sp - 4#32
  let b1 := (b.setGpr 63 nsp).scrPut (b.key (nsp.toNat / 4 * 4)) (wd ret)
  let b2 := { b1 with ctx := { b1.ctx with plumb := ret :: b1.ctx.plumb }, pipe := { b1.pipe with spBusy := 2 } }
  b2.transfer (.target (b.target v))

/-- R138: RET, with GP63 as it stood before the bundle; `at_` is the RET bundle. -/
def Bay.ret (b : Bay) (sp : Word) (at_ : Nat) : Bay :=
  let k := b.key (sp.toNat / 4 * 4)
  let r := b.scrRead k false
  if r.ue then b.goDown 7 0x20 (wd k) at_ k
  else
    match r.bay.ctx.plumb with
    | p :: t =>
      if r.val = wd p then
        let b1 := r.bay.setGpr 63 (sp + 4#32)
        ({ b1 with ctx := { b1.ctx with plumb := t }, pipe := { b1.pipe with spBusy := 2 } }).transfer (.target p)
      else (r.bay.setGpr 63 sp).transfer (.mismatch at_ r.val b.ctx.priv)
    | [] => (r.bay.setGpr 63 sp).transfer (.mismatch at_ r.val b.ctx.priv)

/-- R215: SVC: it is pending, and the boundary after its bundle takes it or finds it masked. -/
def Bay.svcOp (b : Bay) (v : Word) (at_ : Nat) : Bay :=
  let n := fld v 0 8
  { b with ctx := { b.ctx with svc := some n },
           pipe := { b.pipe with svcNow := some { num := n, origin := b.ctx.priv, bundle := at_ } } }

/-- R174: a CTL trigger. `sp` is GP63 before the bundle, `at_` the bundle's address. -/
def Bay.ctl (b : Bay) (op : Nat) (v sp : Word) (at_ : Nat) : Bay :=
  match op with
  | 0 => b.transfer (.target (b.target v))
  | 1 => b.call v sp
  | 2 => b.ret sp at_
  | 3 => b.retx sp at_
  | 4 => (b.commitIwr).transfer (.target b.afterFour)
  | 5 => ({ b with str := { b.str with own := [] } }).transfer (.syncc b.str.own b.afterFour)
  | 6 => b.svcOp v at_
  | 7 => b.transfer .wait
  | _ => b

/-! ## TR checks of a trigger (R94, R203, R212) -/

/-- A privilege fault (R94, R148). -/
def privBad (info : Word) : Option Bad := some ⟨3, 0x03, info⟩

/-- Is a division held back because its instance is busy (R155)? -/
def Bay.divWaits (b : Bay) (inst : Nat) : Bool := decide (tgetD 0 b.pipe.divBusy inst ≠ 0)

/-- The first TR fault of one trigger: `b` holds every write of the bundle, `sp` is GP63 before it. DEDUCED, log entry
28. -/
def Bay.checkTrigger (b : Bay) (unit inst op : Nat) (v sp info : Word) : Option Bad :=
  match unit with
  | 6 =>
    if isLoad op || isStore op then
      (if b.sill then none
       else b.checkData (b.effAddr inst v (lsuSize op)).toNat (2 ^ lsuSize op) (isStore op))
    else if op = 0xC ∨ op = 0xD then
      (if b.ctx.priv < ioPriv (ioAddr v) then privBad info
       else if op = 0xD ∧ structAddr (ioAddr v) ∧ b.state = 3 ∧ !b.ctx.check ∧ !b.sill then bad 0x05 (wd (ioAddr v))
       else none)
    else none
  | 7 =>
    let ref := b.opnd 7 inst 0
    if op = 0 then b.checkTable (ref.toNat / 32 * 32) (32 * 2 ^ fld ref 0 5)
    else if op = 1 then b.checkTable (ref.toNat / 32 * 32) 288
    else none
  | 5 => if op ≤ 1 ∧ v = 0#32 ∧ bitAt b.arith 8 ∧ !b.divWaits inst then bad 0x0E (b.opnd 5 inst 0) else none
  | 9 =>
    if op = 3 ∧ b.ctx.priv = 0 then privBad info
    else if op = 1 then
      match b.checkStack ((sp - 4#32).toNat / 4 * 4) with
      | some x => some x
      | none => if 512 ≤ b.ctx.plumb.length then bad 0x0F (wd b.ctx.plumb.length) else none
    else if op = 2 then
      match b.checkStack (sp.toNat / 4 * 4) with
      | some x => some x
      | none => if b.ctx.plumb = [] ∧ b.ctx.spilled ≠ 0 then bad 0x10 0#32 else none
    else if op = 3 ∧ !b.retxFromCell then
      (if b.stackWordOk sp.toNat && b.stackWordOk (sp.toNat + 12) then none else bad 0x04 sp)
    else none
  | _ => none

/-- Why a trigger makes the bay hold (R90, R165, R248); none when its unit accepts it. -/
def Bay.checkHold (b : Bay) (unit inst op : Nat) : Option Wait :=
  let outs (u : Nat) : Nat := (b.pipe.flights.filter fun f => decide (f.unit = u ∧ f.inst = inst)).length
  let wins : Nat := (b.pipe.flights.filter fun f => decide (f.unit = 6 ∧ f.inst = inst) && f.out.isSome).length
  if unit = 5 ∧ op ≤ 1 ∧ b.divWaits inst then some { cause := 4, unit := 5, inst := inst }
  else if unit = 6 ∧ !b.sill ∧ 64 ≤ wins then some { cause := 4, unit := 6, inst := inst }
  else if unit = 7 ∧ op ≤ 1 ∧ 16 ≤ outs 7 then some { cause := 4, unit := 7, inst := inst }
  else if unit = 10 ∧ op = 8 ∧ 8 ≤ b.qio.sendq.length then some { cause := 5 }
  else none

/-- The trigger of a unit other than CTL runs. -/
def Bay.trigger (b : Bay) (unit inst op : Nat) (v : Word) (issued at_ : Nat) : Bay :=
  if b.state ≠ 3 ∧ b.state ≠ 2 then b
  else match unit with
    | 3 => b.repStart op v at_
    | 6 => b.lsu inst op v issued at_
    | 7 => b.tbl inst op v issued at_
    | 9 => b
    | 10 => b.qioOp op v
    | 11 => b.tmrOp op v
    | _ => b.arithUnit unit inst op v

end Sys2Proof.Machine
end

