-- ==== Sys2Proof/Machine/Issue.lean ====
section
/-!
DEFINITION. One clock of a bay or of the sill core (R84–R94, R182–R190, R206–R208, R273–R278): stall, hold, entry, or a
bundle whose moves and triggers take effect together.
The clock is that of the stage TR: a bundle's guards, sources and checks are taken in the command in which it writes.
-/
namespace Sys2Proof.Machine

/-! ## Results -/

/-- Can the operation's result enter its port now: due, and arrived if it came from outside? DEDUCED, log entry 25.
-/
def Flight.ready (f : Flight) : Bool :=
  decide (f.left = 0) && (match f.out with | some o => o.readable.isSome | none => true)

/-- Stores leave no result: an acknowledged one just ends. -/
def Bay.finish (b : Bay) (f : Flight) : Bay :=
  match f.late with
  | some op => b.receive f.unit f.inst 2 (b.tmr.counter op) none
  | none => b.receiveAll f.unit f.inst f.poison f.res

/-- R75, R85, R89: every ready result reaches its port, in trigger order. -/
def Bay.deliver (b : Bay) : Bay :=
  let done := b.pipe.flights.filter Flight.ready
  let b1 := { b with pipe := { b.pipe with flights := b.pipe.flights.filter fun f => !f.ready } }
  done.foldl Bay.finish b1

/-- One schedule cycle of an operation; a line read that slid stays where it was (R166). -/
def Flight.tick (f : Flight) : Flight := if f.slid then { f with slid := false } else { f with left := f.left - 1 }

/-- One schedule cycle of every in-bay operation, then delivery. -/
def Bay.tickUnits (b : Bay) : Bay :=
  { b with pipe := { b.pipe with
      flights := b.pipe.flights.map Flight.tick,
      divBusy := b.pipe.divBusy.filterMap (fun (e : Nat × Nat) => if e.2 ≤ 1 then none else some (e.1, e.2 - 1)),
      spBusy := b.pipe.spBusy - 1 } }.deliver

/-- R92: in a SLIP_HOLD hold the instance that a waiting trigger names runs on. -/
def Bay.tickInstance (b : Bay) (w : Wait) : Bay :=
  if w.cause = 4 then
    { b with pipe := { b.pipe with
        flights := b.pipe.flights.map (fun (f : Flight) => if f.unit = w.unit ∧ f.inst = w.inst then f.tick else f),
        divBusy := if w.unit = 5 then tsetD 0 b.pipe.divBusy w.inst (tgetD 0 b.pipe.divBusy w.inst - 1)
                   else b.pipe.divBusy } }.deliver
  else b

/-! ## Timers (R171) -/

/-- Does timer n count in this cycle? -/
def Tmr.counts (t : Tmr) (n : Nat) : Bool := bitAt t.ctl n && decide (t.count n ≠ 0#32)

/-- A decrement of timer n: its new count; 0 reloads where AUTO is set. DEDUCED, log entry 30. -/
def Tmr.dec (t : Tmr) (n : Nat) : Tmr :=
  if t.counts n then
    let c := t.count n - 1#32
    let r := if c ≠ 0#32 then c else if bitAt t.ctl (4 + n) then tgetD 0#32 t.rld n else 0#32
    { t with cnt := tsetD 0#32 t.cnt n r }
  else t

/-- The timers that expire in this cycle. -/
def Tmr.expiring (t : Tmr) : List Nat := [0, 1, 2, 3].filter fun n => t.counts n && decide (t.count n = 1#32)

/-- R171: expiry of a timer is an event of TMR_STAT. DEDUCED, log entries 22, 30. -/
def Tmr.expire (t : Tmr) (n : Nat) : Tmr := { t with stat := t.stat.event n }

/-- All four timers count one cycle; the expiries of the cycle are due. DEDUCED, log entry 22. -/
def Tmr.tick (t : Tmr) : Tmr := [0, 1, 2, 3].foldl Tmr.dec { t with due := t.expiring }

/-- R55, R171: the due expiries are recorded, but for the timers in `wrote`, whose count a bundle of this cycle writes. -/
def Tmr.settle (t : Tmr) (wrote : List Nat) : Tmr :=
  { (t.due.filter fun n => decide (n ∉ wrote)).foldl Tmr.expire t with due := [] }

/-- n cycles of the timers (R112). -/
def Tmr.run : Nat → Tmr → Tmr
  | 0, t => t
  | n + 1, t => Tmr.run n (t.tick.settle [])

/-! ## Sources -/

/-- Does the operation write result port p of its unit? -/
def Flight.targets (f : Flight) (p : Nat) : Bool :=
  match f.out with
  | some o => !o.store && decide (p = 2)
  | none => f.late.isSome && decide (p = 2) || f.res.any fun r => decide (r.1 = p)

/-- The state of a result port at a read (R86, R89). -/
inductive PortState where
  | ready
  | stall
  /-- Due and not arrived: the accesses the bay would hold for. -/
  | wait (ids : List Nat)
  deriving DecidableEq, Repr

/-- R86, R89: may port p of an instance be read? -/
def Bay.portState (b : Bay) (unit inst p : Nat) : PortState :=
  let fl := b.pipe.flights.filter fun f => decide (f.unit = unit ∧ f.inst = inst) && f.targets p
  let late := fl.filter fun g => decide (g.left = 0) && (match g.out with | some o => o.readable.isNone | none => false)
  if late = [] then
    match fl with
    | [] => .ready
    | f :: _ => if f.id < (b.port unit inst p).recvAt then .ready else .stall
  else .wait (late.map fun g => g.id)

/-- A source that is read: its port state. -/
def Bay.srcState (b : Bay) : Src → PortState
  | .gp n => if n = 63 ∧ b.pipe.spBusy ≠ 0 then .stall else .ready
  | .port u i p => b.portState u i p
  | _ => .ready

/-- The worst state of several: a stall first, then the accesses awaited. -/
def PortState.join : PortState → PortState → PortState
  | .stall, _ => .stall
  | _, .stall => .stall
  | .wait a, .wait b => .wait (a ++ b)
  | .ready, x => x
  | x, .ready => x

/-- The state of all sources that unsquashed moves read (R82). DEDUCED, log entry 19. -/
def Bay.sources (b : Bay) : List Op → PortState
  | [] => .ready
  | o :: t => if o.runs then (b.srcState o.src).join (b.sources t) else b.sources t

/-- The address kept by the first poisoned port that is read (R518). -/
def Bay.poisoned (b : Bay) : List Op → Option Word
  | [] => none
  | o :: t =>
    match o.runs, o.src with
    | true, .port u i p => (match (b.port u i p).poison with | some a => some a | none => b.poisoned t)
    | _, _ => b.poisoned t

/-- The value of a source, from the state before the bundle (R74). A reserved source draws an unspecified value. -/
def Bay.srcVal (b : Bay) : Src → Word
  | .gp n => b.gpr n
  | .guard n => wbit (b.guard n)
  | .const w => w
  | .port u i p => (b.port u i p).val
  | .reserved => Config.freeWord b.id b.free

/-- The moves that execute, with their values. -/
def Bay.values (b : Bay) (ops : List Op) : List (Op × Word) := (ops.filter Op.runs).map fun o => (o, b.srcVal o.src)

/-- How many free values the bundle drew: all its reserved sources share one. DESIGN CHOICE, log entry 2. -/
def drawn (ops : List Op) : Nat := nbit (ops.any fun o => o.runs && decide (o.src = .reserved))

/-- A move to a register, guard or operand port takes effect (R72, R81); a guard is written as the links stood. -/
def Bay.writeDst (b : Bay) (e : Op × Word) : Bay :=
  match e.1.dst with
  | .gp n => b.setGpr n e.2
  | .guard n => b.setGuard n (decide (e.2 ≠ 0#32))
  | .opnd u i p => b.setOpnd u i p e.2
  | .trig _ _ _ => b

/-- A trigger of the bundle: unit, instance, operation, value, FRAME_INFO of its port. -/
structure Trig where
  unit : Nat
  inst : Nat
  op : Nat
  val : Word
  info : Word
  deriving DecidableEq, Repr

/-- The triggers that start something: a reserved source starts nothing (R125). -/
def triggers (vs : List (Op × Word)) : List Trig :=
  vs.filterMap fun e => match e.1.dst with
    | .trig u i o => if e.1.src = .reserved then none else some ⟨u, i, o, e.2, e.1.info⟩
    | _ => none

/-- R94: the TR fault of lowest rank, lowest joist first. DEDUCED, log entries 18, 24. -/
def Bay.trFault (b : Bay) (sp : Word) (ts : List Trig) : Option Bad :=
  ts.foldl (fun m t => match b.checkTrigger t.unit t.inst t.op t.val sp t.info, m with
    | some x, none => some x
    | some x, some y => if x.rank < y.rank then some x else some y
    | none, m => m) none

/-- The triggers that their units cannot accept. -/
def Bay.trHold (b : Bay) (ts : List Trig) : List Wait := ts.filterMap fun t => b.checkHold t.unit t.inst t.op

/-! ## The scratch port (R91, R273, R274) -/

/-- Does the bundle hold a RETX, or a DONE with a run to end (R223, R255)? -/
def Bay.returns (b : Bay) (ts : List Trig) : Bool :=
  ts.any fun t => decide (t.unit = 9 ∧ t.op = 3) || (decide (t.unit = 10 ∧ t.op = 0xC) && b.qio.cur.isSome)

/-- Port cycles of the in-bay users of one EX1, in the order of R274: true for a first half, false for a second. The last
is a frame word of a return, or the first element of a repeat. -/
def Bay.portUses (b : Bay) (ts : List Trig) : List Bool :=
  if b.sill then [] else
  let stack := ts.flatMap fun t => if t.unit = 9 ∧ (t.op = 1 ∨ t.op = 2) then [true] else []
  let lsu (i : Nat) : List Bool := ts.flatMap fun t =>
    if t.unit = 6 ∧ t.inst = i ∧ (isLoad t.op || isStore t.op) then
      let ea := (b.effAddr i t.val (lsuSize t.op)).toNat
      if ea < 2 ^ 28 then (if isSplit ea (2 ^ lsuSize t.op) then [true, false] else [true]) else []
    else []
  let element := ts.any fun t => decide (t.unit = 3 ∧ t.op < 8 ∧ t.val ≠ 0#32)
  stack ++ lsu 0 ++ lsu 1 ++ (if b.returns ts || element then [true] else [])

/-- The causes of the extra cycles: SCRATCH_PORT while a displaced user waits or is served, else SCRATCH_SPLIT. -/
def portCauses : List Bool → List Nat
  | [] => []
  | _ :: t => go t
where
  go : List Bool → List Nat
    | [] => []
    | u :: t => (if u || t.any id then 2 else 3) :: go t

/-- R335: every wall cycle of an active run counts for its slot. -/
def Qio.countRun (q : Qio) : Qio :=
  match q.cur with
  | none => q
  | some _ => match tgetD none q.slots q.curSlot with
    | some s => { q with slots := tsetD none q.slots q.curSlot (some { s with cycles := s.cycles + 1 }) }
    | none => q

/-- Wall cycles in which the bay holds for its own port, charged at once (R188). They count only in RUN. DEDUCED, log
entry 25. -/
def Bay.portHold (b : Bay) (causes : List Nat) : Bay :=
  if b.state = 3 then
    { b with led := causes.foldl Ledger.charge b.led,
             tmr := { b.tmr with wall := (b.tmr.wall + causes.length) % 2 ^ 64 },
             qio := causes.foldl (fun q _ => q.countRun) b.qio,
             pipe := { b.pipe with markIn := if causes.isEmpty then b.pipe.markIn else 4 :: b.pipe.markIn } }
  else b

/-- Is the line read of a lookup on the port in this cycle (R166)? -/
def Flight.lineActive (f : Flight) : Bool :=
  let p := f.total - f.left
  match f.line with
  | 1 => decide (p < 8)
  | 2 => decide (p < 8) || (decide (12 ≤ p) && decide (p < 20))
  | _ => false

/-- R166, R274: line reads that lose the port slide by one; one line word is served in a cycle that no other user needs. -/
def slideLines : Bool → List Flight → List Flight
  | _, [] => []
  | used, f :: t =>
    if f.lineActive then (if used then { f with slid := true } :: slideLines true t else f :: slideLines true t)
    else f :: slideLines used t

/-- Has an outside word waited 16 cycles, so that it comes before every in-bay user (R274, R275)? -/
def Pipe.claims (p : Pipe) : Bool := decide (p.words ≠ 0) && decide (16 ≤ p.wordAge)

/-- A cycle in which an outside word is served, or waits. Words age by lines of eight; the next line of a bulk copy comes
when the line before has been served. DESIGN CHOICE, log entry 69. -/
def Pipe.wordCycle (p : Pipe) (served : Bool) : Pipe :=
  let w := if served then p.words - 1 else p.words
  { p with words := w, wordAge := if w = 0 ∨ (served ∧ w % 8 = 0) then 0 else p.wordAge + 1 }

/-- The port's users of the cycle are settled. An outside word that has waited 16 cycles displaces an in-bay user, and a
line read slides for it. DEDUCED, log entry 25. -/
def Bay.settlePort (b : Bay) : Bay :=
  let used := b.pipe.used || decide (b.pipe.port ≠ 0)
  let claim := b.pipe.claims
  let b1 := if claim && used then b.portHold [2] else b
  { b1 with pipe := { b1.pipe.wordCycle (claim || !(used || b.pipe.flights.any Flight.lineActive)) with
      used := used, port := b1.pipe.port - 1, flights := slideLines (used || claim) b1.pipe.flights } }

/-! ## Issue -/

/-- Transfers that act after this bundle: where fetch goes, WAIT, or the mismatch fault (R84, R136, R138). -/
def Redirect.act (b : Bay) (r : Redirect) : Bay :=
  match r.kind with
  | .target p => { b with pipe := { b.pipe with pc := p } }
  | .syncc _ p => { b with pipe := { b.pipe with pc := p } }
  | .wait => { b with pipe := { b.pipe with waiting := true } }
  | .mismatch p w o =>
    { b with pipe := { b.pipe with fault := some { code := 0x11, info := w, origin := o, ret := p, bundle := p } } }

/-- R136, R143, R233: one bundle of `n` bytes has issued: fetch moves on, transfers, mode changes and replaced words
count it. -/
def Bay.advanceIssue (b : Bay) (n : Nat) : Bay :=
  let rs := b.pipe.redirects.map fun r => { r with count := r.count - 1 }
  let b1 := { b with
    ctx := b.ctx.modesTick,
    oldWords := (b.oldWords.map fun o => { o with left := o.left - 1 }).filter fun o => decide (o.left ≠ 0),
    pipe := { b.pipe with pc := b.advance b.pipe.pc n, redirects := rs.filter fun r => decide (r.count ≠ 0) } }
  (rs.filter fun r => decide (r.count = 0)).foldl Redirect.act b1

/-- Structural writes of a SYNCC whose fourth delay bundle has just issued (R175). -/
def Bay.syncDone (b : Bay) (rs : List Redirect) : Bay :=
  { b with str := rs.foldl (fun s r => match r.kind with
      | .syncc ws _ => if r.count = 1 then ws.foldl (fun t e => t.apply e.1 e.2) s else s
      | _ => s) b.str }

/-- R111: an issued bundle's trace record, or the drop of one when the path is full. `b0` is the bay before the bundle and
`v` the value of the lowest joist whose move executed. A move to NULL counts as squashed, the wall count is the one of the
cycle in which the bundle takes effect, and ENABLE counts as the bundle leaves it. DESIGN CHOICE, log entry 68. -/
def Bay.trace (b : Bay) (b0 : Bay) (long : Bool) (ops : List Op) (v : Word) : Bay :=
  if b.dbg.trcOn then
    let ran (j : Nat) : Nat := nbit (ops.any fun o => o.runs && decide (o.joist = j))
    let w1 := b0.pipe.pc / 4 % 16384 + (ran 0 + ran 1 * 2 + ran 2 * 4 + nbit long * 8 + nbit b0.pipe.afterStall * 16
      + nbit b0.pipe.afterHold * 32) * 2 ^ 16 + (b0.ctx.priv % 4 + b0.ctx.mask % 8 * 4) * 2 ^ 24
    if 64 ≤ b.dbg.trcPath.length then { b with dbg := { b.dbg with trcDrop := satAdd (2 ^ 32 - 1) b.dbg.trcDrop 1 } }
    else { b with dbg := { b.dbg with
      trcPath := b.dbg.trcPath ++ [(b.dbg.trcPtr, [wd b0.tmr.wall, wd w1, v, 0#32])],
      trcPtr := (b.dbg.trcPtr + 1) % 16384 } }
  else b

/-- The one trigger of a single-instance unit, if the bundle has it. -/
def findTrig (u : Nat) (ts : List Trig) : Option Trig := ts.find? fun t => decide (t.unit = u)

/-- Timers whose count the triggers write: SETn, or IOSTW to TMR_CNTn (R171). -/
def timersWritten (ts : List Trig) : List Nat :=
  [0, 1, 2, 3].filter fun n => ts.any fun t =>
    decide (t.unit = 11 ∧ t.op = 8 + n) || decide (t.unit = 6 ∧ t.op = 0xD ∧ ioAddr t.val = 0x1010 + 4 * n)

/-- The triggers of the bundle start, in the order that decides within one cycle: units beside memory, the stack word,
FRAME_PC of a return, LSU0, LSU1, the timer reads, QIO, the other transfers (R91, R142, R159, R172, R246, R274). A table
lookup does not see a store of its own bundle (DESIGN CHOICE, log entry 68). A flag that an operation sets wins over an
I/O store of its bundle (R83). -/
def Bay.runTriggers (b : Bay) (ts : List Trig) (sp : Word) (issued at_ : Nat) : Bay :=
  let run (x : Bay) (p : Trig → Bool) : Bay :=
    (ts.filter p).foldl (fun y t => y.trigger t.unit t.inst t.op t.val issued at_) x
  let alive (x : Bay) : Bool := decide (x.state = 3 ∨ x.state = 2)
  let timerRead (t : Trig) : Bool := decide (t.unit = 11 ∧ 4 ≤ t.op ∧ t.op < 8)
  let ctl (x : Bay) (p : Nat → Bool) : Bay := match findTrig 9 ts with
    | some t => if p t.op && alive x then x.ctl t.op t.val sp at_ else x
    | none => x
  let units (x : Bay) : Bay := run x fun t => decide (t.unit ≠ 6 ∧ t.unit ≠ 9 ∧ t.unit ≠ 10) && !timerRead t
  let u := units { b with arith := b.arith &&& 0xFFFFFFFC#32 }
  let flags := u.arith &&& 3#32
  let b1 := { u with arith := b.arith ||| flags }
  let b2 := ctl b1 fun o => decide (o = 1 ∨ o = 2 ∨ o = 3)
  let b3 := (match findTrig 10 ts with
    | some t => if t.op = 0xC ∧ alive b2 then b2.done at_ else b2
    | none => b2)
  let b4 := run b3 fun t => decide (t.unit = 6 ∧ t.inst = 0)
  let b5 := run b4 fun t => decide (t.unit = 6 ∧ t.inst ≠ 0)
  let b6 := { b5 with arith := b5.arith ||| flags }
  let b7 := run b6 timerRead
  let b8 := run b7 fun t => decide (t.unit = 10)
  ctl b8 fun o => decide (o ≠ 1 ∧ o ≠ 2 ∧ o ≠ 3)

/-- Extra port cycles of the bundle (R274): those of its own EX1, and one more where FRAME_PC of its return, read in TR,
meets a user of the bundle before (R223). -/
def Bay.portCycles (b : Bay) (ts : List Trig) : List Nat :=
  portCauses (b.portUses ts) ++ (if b.returns ts && b.pipe.prior && !b.sill then [2] else [])

/-- What a bundle of `n` bytes does to the bay (R73, R74): every write, made in `b1`, then every trigger; `b` is the bay
before. DEDUCED, log entry 18. -/
def Bay.effect (b b1 : Bay) (n : Nat) (vs : List (Op × Word)) (issued : Nat) : Bay :=
  let ts := triggers vs
  let c := { b1 with tmr := b1.tmr.settle (timersWritten ts) }.advanceIssue n
  (c.runTriggers ts (b.gpr 63) issued b.pipe.pc).syncDone b.pipe.redirects

/-- The bundle takes effect, and what counts bundles takes note of it (R91, R111, R193). `b1` is the bay with the writes
made, `b` the bay before. -/
def Bay.complete (b b1 : Bay) (bd : Bundle) (ops : List Op) (vs : List (Op × Word)) (issued : Nat) : Bay :=
  let ts := triggers vs
  let d := b.effect b1 bd.size vs issued
  let e := { d with led := d.led.endRun,
                    pipe := { d.pipe with afterStall := false, afterHold := false, ran := true,
                                          used := !(b1.portUses ts).isEmpty } }
  (e.trace b bd.long ops ((vs.head?.map fun x => x.2).getD 0#32)).portHold (b1.portCycles ts)

/-- A precise fault of the bundle at `pc` (R94): taken at the boundary before it. Whatever stage detects the fault,
the entry counts from that boundary (R219). DEDUCED, log entry 24. -/
def Bay.faultHere (b : Bay) (code : Nat) (info : Word) : Bay :=
  let b1 := b.takeFault { code := code, info := info, origin := b.ctx.priv, ret := b.pipe.pc, bundle := b.pipe.pc } 5
  { b1 with led := b1.led.endRun }

/-- A precise fault of TR: the bundle has issued, and leaves its record (R84, R111), with no value carried. The bundles
discarded behind it leave none (DESIGN CHOICE, log entry 68). -/
def Bay.faultInTr (b : Bay) (bd : Bundle) (ops : List Op) (code : Nat) (info : Word) : Bay :=
  let c := b.trace b bd.long ops 0#32
  { c with pipe := { c.pipe with afterStall := false, afterHold := false } }.faultHere code info

/-- R88: a stall cycle. -/
def Bay.stall (b : Bay) : Bay :=
  { b with led := if b.state = 3 then b.led.charge 0 else b.led, pipe := { b.pipe with afterStall := true } }

/-- R183: the bay begins to hold from the next cycle. DEDUCED, log entry 25. -/
def Bay.beginHold (b : Bay) (h : Hold) (issued : Nat) : Bay :=
  { b with led := b.led.endRun, pipe := { b.pipe with hold := some { h with start := issued } } }

/-- R518: a read of a poisoned port sets BAY_ERRSTAT.POISON and BAY_ERRADDR. -/
def Bay.notePoison (b : Bay) (a : Word) : Bay :=
  { b with ctx := { b.ctx with errStat := b.ctx.errStat.event 0, errAddr := a } }

/-- A bundle whose codes are in order is judged: stall, hold, poison, TR faults, busy units; then it takes effect. -/
def Bay.judge (b : Bay) (bd : Bundle) (ops : List Op) (issued : Nat) : Bay :=
  match b.sources ops with
  | .stall => b.stall
  | .wait ids => b.beginHold { awaited := ids } issued
  | .ready =>
    let p := b.poisoned ops
    match p, bitAt b.ctx.errCtl 8 with
    | some a, true => (b.notePoison a).faultInTr bd ops 0x18 a
    | _, _ =>
      let vs := b.values ops
      let b0 := { b with free := b.free + drawn ops }
      let b1 := vs.foldl Bay.writeDst b0
      let ts := triggers vs
      match b1.trFault (b.gpr 63) ts with
      | some x => b.faultInTr bd ops x.code x.info
      | none => match b1.trHold ts with
        | w :: ws => b.beginHold { waits := w :: ws } issued
        | [] => (match p with | some a => b0.notePoison a | none => b0).complete
            (match p with | some a => b1.notePoison a | none => b1) bd ops vs issued

/-- What fetch finds at `pc`: the two words, a failing word, or a decode error of the sill core. -/
inductive Fetch where
  | words (w0 w1 : Word)
  | ue (addr : Nat)
  | err
  deriving DecidableEq, Repr

/-- R114, R280, R448: fetch. -/
def Bay.fetch (b : Bay) : Fetch :=
  let a := b.pipe.pc
  let n := b.advance a 4
  if b.sill then (if sillLoc b.remap a = .bus then .err else .words (b.fetchWord a) (b.fetchWord n))
  else if markOf b.imarks (a / 4) = 2 then .ue a
  else if isLong (b.fetchWord a) ∧ markOf b.imarks (n / 4) = 2 then .ue n
  else .words (b.fetchWord a) (b.fetchWord n)

/-- R280: single-bit errors in the words fetched are corrected and reported. -/
def Bay.fetchCorrect (b : Bay) (w0 : Word) : Bay :=
  let a := b.pipe.pc
  let n := b.advance a 4
  let b1 := if markOf b.imarks (a / 4) = 1 ∧ !b.sill then b.corrected 1 a else b
  if isLong w0 ∧ markOf b.imarks (n / 4) = 1 ∧ !b.sill then b1.corrected 1 n else b1

/-- The bundle at `pc` is in DC (R84, R94). DEDUCED, log entry 18. -/
def Bay.issue (b0 : Bay) (issued : Nat) : Bay :=
  match b0.fetch with
  | .ue a => b0.goDown 7 0x20 (wd a) b0.pipe.pc a
  | .err => (b0.ask (.busFetch (wd b0.pipe.pc))).faultHere 0x06 (wd b0.pipe.pc)
  | .words w0 w1 =>
    let b := b0.fetchCorrect w0
    let bd := decodeBundle w0 w1
    match sockets b.map bd (b.cond bd.bg) (b.guard 1) with
    | .fault code info named =>
      if named then b.faultHere code info
      else ({ b with free := b.free + 1 }).faultHere code (putFld info 8 8 (Config.freeWord b.id b.free).toNat)
    | .ok ops => b.judge bd ops issued

/-! ## REP (R131–R135) -/

/-- The addresses that the next element touches, in the order checked. -/
def Bay.repAddrs (b : Bay) (k : Nat) : List Nat :=
  let al (w : Word) : Nat := if k % 2 = 1 then w.toNat / 4 * 4 else w.toNat
  if k ≤ 1 ∨ k = 4 ∨ k = 5 then [al (b.gpr 60), al (b.gpr 61)]
  else if k ≤ 3 then [al (b.gpr 61)]
  else [al (b.gpr 60)]

/-- R134, R232: the fault of the next element, if any. -/
def Bay.repFault (b : Bay) (k n : Nat) : Option (Nat × Word) :=
  let as := b.repAddrs k
  match as.find? (fun a => !(b.inProgram a && b.inProgram (a + n - 1))) with
  | some a => some (0x04, wd a)
  | none =>
    match as.find? (fun a => decide (b.ctx.priv = 0) && decide (b.ctx.sregBase.toNat < b.ctx.sregLimit.toNat)
        && touches a n b.ctx.sregBase.toNat b.ctx.sregLimit.toNat) with
    | some a => some (0x09, wd a)
    | none => none

/-- The repeat ends: REP.Q receives 1 for an early stop, else 0 (R132). -/
def Bay.repEnd (b : Bay) (stopped : Bool) : Bay :=
  { (b.receive 3 0 2 (wbit stopped) none) with pipe := { b.pipe with rep := none } }

/-- R132: the next element completes. `n` is the element size. The result tells whether the repeat stopped early, or
the address of a word with a double-bit error. DEDUCED, log entry 23. -/
def Bay.repElement (b : Bay) (k n : Nat) : Bay × Bool × Option Nat :=
  let a := match b.repAddrs k with | x :: _ => x | [] => 0
  let d := match b.repAddrs k with | _ :: y :: _ => y | [x] => x | [] => 0
  let step (x : Bay) (ga gb : Bool) : Bay :=
    let y := if ga then x.setGpr 60 (x.gpr 60 + wd n) else x
    let z := if gb then y.setGpr 61 (y.gpr 61 + wd n) else y
    z.setGpr 62 (z.gpr 62 - 1#32)
  if k ≤ 1 then
    let r := b.scrLoad a n false
    if r.ue then (b, false, some (b.ueWord a)) else
    let s := r.bay.scrStoreAny d n r.val
    if s.ue then (b, false, some (b.ueWord d)) else (step s.bay true true, false, none)
  else if k ≤ 3 then
    let s := b.scrStoreAny d n (b.gpr 59)
    if s.ue then (b, false, some (b.ueWord d)) else (step s.bay false true, false, none)
  else if k ≤ 5 then
    let r := b.scrLoad a n false
    if r.ue then (b, false, some (b.ueWord a)) else
    let s := r.bay.scrLoad d n false
    if s.ue then (b, false, some (b.ueWord d)) else
    if r.val = s.val then (step s.bay true true, false, none) else (s.bay, true, none)
  else
    let r := b.scrLoad a n false
    if r.ue then (b, false, some (b.ueWord a)) else
    if r.val = zext (8 * n) (b.gpr 59) then (r.bay, true, none) else (step r.bay true false, false, none)

/-- Does an element have the scratch port in this cycle? The first uses EX1 of the trigger bundle, and REP_N decides how
many follow, as though none stopped early (R132, R133, R273). DESIGN CHOICE, log entry 68. -/
def Bay.repPort (b : Bay) (r : Rep) : Bool :=
  decide (b.gpr 62 ≠ 0#32) && decide (3 < r.count + repCycles (fld (b.gpr 58) 0 3) * ((b.gpr 62).toNat - 1))

/-- One cycle of a repeat that is not at a boundary an event takes. A handler may leave any value in GP58: its bits 2:0 are
the operation (DESIGN CHOICE, log entry 68). DEDUCED, log entry 23. -/
def Bay.repCycle (b0 : Bay) (r : Rep) : Bay :=
  let b := { b0 with pipe := { b0.pipe with used := b0.repPort r } }
  let k := fld (b.gpr 58) 0 3
  let n := if k % 2 = 1 then 4 else 1
  if 1 < r.count then { b with pipe := { b.pipe with rep := some { r with count := r.count - 1, boundary := false } } }
  else if b.gpr 62 = 0#32 then b.repEnd false
  else match b.repFault k n with
    | some (code, info) =>
      b.takeFault { code := code, info := info, origin := b.ctx.priv, ret := b.pipe.pc, repu := true, bundle := r.bundle } 5
    | none =>
      match b.repElement k n with
      | (_, _, some a) => b.goDown 7 0x20 (wd a) r.bundle a
      | (b1, true, none) => b1.repEnd true
      | (b1, false, none) =>
        if b1.gpr 62 = 0#32 then b1.repEnd false
        else { b1 with pipe := { b1.pipe with rep := some { r with count := repCycles k, boundary := true } } }

/-! ## Boundaries -/

/-- R208: an ordinary boundary at which an event may be taken: no transfer pending, not inside bay check. DEDUCED, log
entries 18, 20, 23. -/
def Bay.boundary (b : Bay) : Bool := b.pipe.redirects.isEmpty && !b.ctx.check

/-- R113: ENTER from RUN takes effect: the bay stops at this boundary. -/
def Bay.enterTest (b : Bay) : Bay :=
  { b with state := 2, dbg := { b.dbg with fromRun := true, testReq := false } }

/-- R94, R216: does the bundle due at `pc` fault in DC? That fault falls on the boundary before it, and an event of the
same boundary stays pending. The bundle reaches no later stage when the event is taken. DEDUCED, log entry 19. -/
def Bay.faultDue (b : Bay) : Bool :=
  match b.fetch with
  | .words w0 w1 =>
    let bd := decodeBundle w0 w1
    (match sockets b.map bd (b.cond bd.bg) (b.guard 1) with
     | .fault _ _ _ => true
     | .ok _ => false)
  | _ => false

/-- R208, R216: event s at a boundary before the bundle at `pc`. -/
def Bay.eventOrFault (b : Bay) (s : Nat) (issued : Nat) : Bay :=
  if b.faultDue then b.issue issued else b.takeEvent s false 5

/-- R215: the boundary after an SVC bundle. Nothing is fetched behind it that could issue (R174). Above the mask level the
SVC is taken, or an event of higher level that the boundary admits; else it is the fault SVC_MASKED. -/
def Bay.svcBoundary (b0 : Bay) (q : SvcReq) (idle : Nat) : Bay :=
  let b := { b0 with pipe := { b0.pipe with svcNow := none } }
  let repu := b.pipe.rep.isSome
  if !b.ctx.check && decide (b.ctx.mask < b.levelAt 1) then
    match (if b.boundary && !repu then b.pickAt b.ctx.mask false else none) with
    | some s => b.takeEvent s repu idle
    | none => b.takeEvent 1 repu idle
  else
    ({ b with ctx := { b.ctx with svc := none } }).takeFault
      { code := 0x13, info := wd q.num, origin := q.origin, ret := b.pipe.pc, repu := repu, bundle := q.bundle } idle

/-- A fault that waits is taken; a repeat that the bundle before has triggered stays unfinished (R135, R138). -/
def Bay.faultBoundary (b : Bay) (f : FaultReq) (idle : Nat) : Bay :=
  b.takeFault { f with repu := f.repu || b.pipe.rep.isSome } idle

/-- The boundary before the bundle at `pc`, or before what the bay does in its place (R206–R208, R212–R219). -/
def Bay.atBoundary (b0 : Bay) (issued : Nat) : Bay :=
  let b := { b0 with ctx := b0.ctx.modesDue }
  match b.pipe.fault, b.pipe.svcNow, b.pipe.rep with
  | some f, _, _ => b.faultBoundary f 5
  | none, some q, _ => b.svcBoundary q 5
  | none, none, some r =>
    if r.boundary && !b.ctx.check then
      (if b.dbg.testReq then b.enterTest
       else match b.pickAt b.ctx.mask false with
        | some s => b.takeEvent s true 5
        | none => b.repCycle r)
    else b.repCycle r
  | none, none, none =>
    if b.pipe.waiting then
      (if b.dbg.testReq && !b.ctx.check then b.enterTest
       else match b.pickAt b.ctx.mask true with
        | some s => if b.ctx.check then b else b.takeEvent s false 5
        | none => b)
    else if b.boundary then
      (if b.dbg.testReq then b.enterTest
       else match b.pickAt b.ctx.mask false with
        | some s => b.eventOrFault s issued
        | none => b.issue issued)
    else b.issue issued

/-- The cycle was neither a stall nor a hold, unless a stall was charged in it (R193). -/
def Bay.cycleEnd (b : Bay) (before : Ledger) : Bay := if b.led = before then { b with led := b.led.endRun } else b

/-- What the bay does in a cycle in which it is not held: a cycle of a return, an idle cycle of an entry, exit or issue
stop, else the boundary. A bundle that holds a REP trigger beside one that stops issue runs the stop and then the repeat
(DESIGN CHOICE, log entry 68). -/
def Bay.cycle (b0 : Bay) (issued : Nat) : Bay :=
  let b := { b0 with pipe := { b0.pipe with prior := b0.pipe.used, used := false } }
  (match b.pipe.ret, b.pipe.fault with
   | some r, none => { b.returnCycle r with led := b.led.endRun }
   | _, _ =>
     if b.pipe.idle ≠ 0 then { b with led := b.led.endRun, pipe := { b.pipe with idle := b.pipe.idle - 1 } }
     else (b.atBoundary issued).cycleEnd b.led).settlePort

/-! ## Clock -/

/-- One more wall cycle (R170). -/
def Bay.wallTick (b : Bay) : Bay :=
  { b with tmr := { b.tmr with wall := (b.tmr.wall + 1) % 2 ^ 64 }, qio := b.qio.countRun }

/-- R188, R190: one hold cycle is noted; it is charged when the hold ends (R191). No in-bay user needs the port in it
(R275). -/
def Bay.logHold (b : Bay) (causes awaited : List Nat) : Bay :=
  { b with pipe := { b.pipe.wordCycle true with
      holdLog := b.pipe.holdLog ++ [⟨b.tmr.wall, (if b.pipe.throttled then [1] else []) ++ causes, awaited⟩] } }

/-- Does a trigger of the held bundle still wait for its unit? -/
def Bay.stillWaits (b : Bay) (w : Wait) : Bool := (b.checkHold w.unit w.inst (if w.unit = 10 then 8 else 0)).isSome

/-- Does the hold go on? -/
def Bay.blocked (b : Bay) (h : Hold) : Bool :=
  b.pipe.flights.any (fun f => decide (f.id ∈ h.awaited) && (match f.out with | some o => o.readable.isNone | none => false))
  || h.waits.any b.stillWaits

/-- One cycle older: changes that boundaries do not see yet, and the mark of the first bundle after a hold (R184). -/
def Pipe.age (p : Pipe) : Pipe :=
  { p with stale := p.stale.filterMap fun e => if e.left ≤ 1 then none else some { e with left := e.left - 1 },
           lvlOld := p.lvlOld.filterMap fun e => if e.1 ≤ 1 then none else some (e.1 - 1, e.2),
           markIn := p.markIn.filterMap fun n => if n ≤ 1 then none else some (n - 1),
           afterHold := p.afterHold || p.markIn.any fun n => decide (n ≤ 1) }

/-- What the cycle's own work changed is noted for the boundaries that do not see it yet (R206, R210). `b0` is the bay
before it. -/
def Bay.noteStale (b b0 : Bay) : Bay :=
  let new := ((List.range 9).filter fun s => decide (2 ≤ s) && (b.isPending s != b0.isPending s)).map fun s =>
    ({ src := s, was := b0.isPending s } : Stale)
  { b with pipe := { b.pipe with stale := b.pipe.stale ++ new,
                                 lvlOld := if b.ctx.evlvl = b0.ctx.evlvl then b.pipe.lvlOld
                                           else b.pipe.lvlOld ++ [(3, b0.ctx.evlvl)] } }

/-- The end of a cycle: expiries that no bundle's write voids are recorded, unless a bundle of the cycle is held and may
still write; POLL is kept as a bundle's TR leaves it (R171, R211). -/
def Bay.endTick (b b0 : Bay) : Bay :=
  let c := (if b.pipe.hold.isSome then b else { b with tmr := b.tmr.settle [] }).noteStale b0
  if c.pipe.ran then { c with ctx := { c.ctx with poll := c.pollNow }, pipe := { c.pipe with ran := false } } else c

/-- A hold cycle (R182, R183, R92): nothing moves but the instances that SLIP_HOLD triggers wait for. When what it waited
for has come, the hold is charged and the held bundle takes effect. The first bundle to issue after the hold is the one
behind it, or the one after that where the held bundle was in TR (R184). -/
def Bay.holdTick (b : Bay) (h : Hold) : Bay :=
  let w := h.waits.filter b.stillWaits
  let b1 := b.wallTick.logHold (w.map Wait.cause) h.awaited
  let b2 := w.foldl Bay.tickInstance b1
  if b2.blocked h || b2.pipe.throttled then b2
  else
    let b3 := b2.chargeHold
    let b4 := { b3 with pipe := { b3.pipe with hold := none } }.deliver
    let b5 := b4.issue h.start
    ({ b5 with pipe := { b5.pipe with markIn := (if h.waits = [] then 1 else 2) :: b5.pipe.markIn } }.settlePort).endTick b4

/-- A throttled cycle (R186, R486). -/
def Bay.throttleTick (b : Bay) : Bay :=
  let c := b.wallTick.logHold [] []
  { c with pipe := { c.pipe with afterThrottle := true } }

/-- A cycle without a hold begins: counters, timers and units move on. The first bundle to issue after a throttle hold is
three cycles behind the one in TR (R84, R184). -/
def Bay.tickStart (b0 : Bay) : Bay :=
  let b := if b0.pipe.holdLog = [] then b0 else b0.chargeHold
  let p := if b0.pipe.afterThrottle then { b.pipe with markIn := 3 :: b.pipe.markIn, afterThrottle := false } else b.pipe
  let b1 := { b with pipe := p.age }.wallTick
  { b1 with tmr := { b1.tmr.tick with cyc := (b1.tmr.cyc + 1) % 2 ^ 64 } }.tickUnits

/-- A cycle without a hold: it begins, and the bay does its work. -/
def Bay.runTick (b : Bay) : Bay := (b.tickStart.cycle b.tickStart.tmr.wall).endTick b.tickStart

/-- R113, R378: the context that a bay starts with, at START of the plan record last applied. -/
def Bay.startContext (b : Bay) : Bay :=
  { b with
    gp := tsetD 0#32 [] 63 b.str.startSp,
    guards := [], arith := 0, oldWords := [],
    pipe := { pc := b.str.start, serial := b.pipe.serial, throttled := b.pipe.throttled },
    ctx := { b.ctx with priv := 1, mask := 7, check := false, recs := [], modes := [], svc := none, poll := false },
    dbg := { b.dbg with fromRun := false, testReq := false, stepWait := false } }

/-! ## Single step (R112) -/

/-- A repeat runs to its end within a step. -/
def Bay.repDrain : Nat → Bay → Bay
  | 0, b => b
  | n + 1, b => match b.pipe.rep with
    | some r => Bay.repDrain n (b.repCycle r)
    | none => b

/-- A return runs to its end within a step. -/
def Bay.retDrain : Nat → Bay → Bay
  | 0, b => b
  | n + 1, b => match b.pipe.ret with
    | some r => Bay.retDrain n (b.returnCycle r)
    | none => b

/-- Every in-bay operation, return and repeat comes to its end; what is outside comes when it is answered. DEDUCED, log
entry 27. -/
def Bay.drain (b0 : Bay) : Bay :=
  let b1 := Bay.retDrain 2 b0
  let b := Bay.repDrain (2 * (b1.gpr 62).toNat + 5) b1
  { b with pipe := { b.pipe with
      flights := b.pipe.flights.map (fun (f : Flight) => { f with left := 0, slid := false }),
      divBusy := [], spBusy := 0, idle := 0, port := 0, hold := none, used := false, prior := false,
      stale := [], lvlOld := [] } }.deliver

/-- R112: the cycles that a step takes: 8, or the latency of a longer operation. `b` is the bay as its bundle left it, `e`
the bay at the step's end. -/
def Bay.stepCycles (b e : Bay) : Nat :=
  let longest := b.pipe.flights.foldl (fun m f => if f.out.isNone ∧ m < f.left then f.left else m) 8
  match b.pipe.rep with
  | none => longest
  | some _ =>
    let n := 3 + repCycles (fld (b.gpr 58) 0 3) * ((b.gpr 62).toNat - (e.gpr 62).toNat)
    if n < longest then longest else n

/-- R112: what a step issues: a fault or an SVC that waits is entered first, as a step of its own, in which no bundle
issues; a waiting bay issues nothing. DESIGN CHOICE, log entry 27. -/
def Bay.stepIssue (b : Bay) : Bay :=
  match b.pipe.fault, b.pipe.svcNow with
  | some f, _ => b.faultBoundary f 0
  | none, some q => b.svcBoundary q 0
  | none, none => if b.pipe.waiting then b else b.issue b.tmr.wall

/-- R100, R112: one step in TEST: structural writes stored through the bay window take effect, one bundle issues, and
everything drains. A bundle that would hold in RUN waits: the step stays in progress until the bundle can issue. The timers
count in the cycles of the step, two of them before the bundle's TR. DESIGN CHOICE, log entry 27. -/
def Bay.step (b0 : Bay) : Bay :=
  if b0.state ≠ 2 ∨ b0.march then b0
  else
    let b := { b0 with str := b0.str.applyAll, ctx := b0.ctx.modesDue }.drain
    let b1 := { b with tmr := (Tmr.run 2 b.tmr).tick }.stepIssue
    if b1.pipe.hold.isSome then { b with dbg := { b.dbg with stepWait := true } }
    else
      let e := b1.drain
      { e with tmr := Tmr.run (b1.stepCycles e - 3) (e.tmr.settle []), dbg := { e.dbg with stepWait := false },
               ctx := { e.ctx with poll := e.pollNow }, pipe := { e.pipe with ran := false } }

/-- BUNDLE_ISSUE: one clock of a bay in RUN. In TEST a step in progress goes on; in every other state the bay does no work
(R105, R112, R170). -/
def Bay.tick (b : Bay) : Bay :=
  if b.state = 3 then
    match b.pipe.hold with
    | some h => b.holdTick h
    | none => if b.pipe.throttled && !b.pipe.waiting then b.throttleTick else b.runTick
  else if b.dbg.stepWait then b.step
  else b

end Sys2Proof.Machine
end

