-- ==== Sys2Proof/Machine/RegTable.lean ====
section
/-!
DEFINITION. The register tables of the manual, one row for each register or array of registers: where it lies, its
access type (R37), which bits software writes, its reset value and whether the configuration CRC walks it (R61).
A register's key is its BAR0 offset; the slow interfaces and port S of the security module, which only the sill core
reaches, have its address (R446). Bay windows, hold-ledger counters, the capability list and the MSI-X table are not
here: they are read from the state that holds them.
-/
namespace Sys2Proof.Machine

/-- How a register of the register file is stored and written (R37, R57). -/
inductive RegKind where
  /-- RW bits under the mask; every other bit is hardware's. -/
  | rw
  /-- PG bits under the mask, written through a shadow (R42). -/
  | pg
  /-- MW: a mask in bits 31:16 (R37). -/
  | mw
  /-- SQ; the mask holds the event bits (R51). -/
  | sq
  /-- The low word of a 64-bit counter (R57). -/
  | cnt
  /-- Nothing that a write stores: RO, AC and WO registers. -/
  | ro
  deriving DecidableEq, Repr

/-- A row: registers at `base + stride × i` for i below `count`. -/
structure RegRow where
  base : Nat
  stride : Nat
  count : Nat
  kind : RegKind
  mask : Nat
  reset : Nat
  crc : Bool
  deriving DecidableEq, Repr

/-- Device-wide registers (R11, R43, R44, R64, R66). -/
def rowsDev : List RegRow := [
  ⟨0, 4, 1, .ro, 0, 0, true⟩,  -- DEV_IDENT
  ⟨0x10, 4, 1, .ro, 0, 0, true⟩,  -- DEV_PEG
  ⟨0x14, 4, 1, .ro, 0, 0, true⟩,  -- DEV_PEG_STAT
  ⟨0x20, 4, 1, .ro, 0, 0, true⟩,  -- DEV_CFGCRC
  ⟨0x24, 4, 1, .rw, 0xffffffff, 0, false⟩,  -- DEV_CFGCRC_REF
  ⟨0x28, 4, 1, .rw, 1, 0, false⟩,  -- DEV_CFGCRC_CTL
  ⟨0x2c, 4, 1, .ro, 0, 0, true⟩,  -- DEV_CFGCRC_PASS
  ⟨0x30, 4, 1, .sq, 1, 0, true⟩,  -- DEV_CFGCRC_STAT
  ⟨0x34, 4, 1, .sq, 3, 0, true⟩]  -- DEV_REG_STAT

/-- Reset, power and clock registers (R488, R489). -/
def rowsRst : List RegRow := [
  ⟨0x10000, 4, 1, .ro, 0, 0, true⟩,  -- RST_LATCH
  ⟨0x10004, 4, 1, .ro, 0, 0, true⟩,  -- RST_LAST
  ⟨0x10010, 4, 1, .ro, 0, 0, false⟩,  -- RST_SW
  ⟨0x10014, 4, 1, .rw, 0xffff, 0, true⟩,  -- RST_BENT
  ⟨0x10018, 4, 1, .ro, 0, 0, false⟩,  -- RST_BAY
  ⟨0x1001c, 4, 1, .ro, 0, 0, false⟩,  -- RST_BLOCK
  ⟨0x10020, 4, 1, .ro, 0, 0, true⟩,  -- RST_BSTAT
  ⟨0x10024, 4, 1, .ro, 0, 0, true⟩,  -- RST_FSC
  ⟨0x10028, 4, 1, .ro, 0, 0, false⟩,  -- TRIM_CTL
  ⟨0x1002c, 4, 1, .ro, 0, 2, true⟩,  -- TRIM_STAT
  ⟨0x10030, 4, 1, .rw, 0x1ffff, 0x3e8, true⟩,  -- WDG_CTL
  ⟨0x10034, 4, 1, .ro, 0, 0, false⟩,  -- WDG_KICK
  ⟨0x10038, 4, 1, .ro, 0, 0, true⟩,  -- WDG_LEFT
  ⟨0x10040, 4, 1, .rw, 0x7ffff, 0, true⟩,  -- PWR_CTL
  ⟨0x10044, 4, 1, .rw, 0xffff, 0, true⟩,  -- PWR_RET
  ⟨0x10048, 4, 1, .ro, 0, 0, true⟩,  -- PWR_STATA
  ⟨0x1004c, 4, 1, .ro, 0, 0, true⟩,  -- PWR_STATB
  ⟨0x10050, 4, 1, .sq, 3, 0, true⟩,  -- PWR_EVT
  ⟨0x10060, 4, 1, .ro, 0, 0, true⟩,  -- CLK_STAT
  ⟨0x10070, 4, 1, .rw, 0xff07ff, 0x78047d, true⟩,  -- THM_CTL
  ⟨0x10080, 4, 6, .ro, 0, 0x80808080, true⟩,  -- THM_TEMPn
  ⟨0x100a0, 4, 1, .ro, 0, 0, true⟩,  -- THM_DUTYA
  ⟨0x100a4, 4, 1, .ro, 0, 0, true⟩,  -- THM_DUTYB
  ⟨0x100b0, 4, 1, .sq, 7, 0, true⟩]  -- THM_STAT

/-- Security module, port H (R506). -/
def rowsSec : List RegRow := [
  ⟨0x20000, 4, 1, .ro, 0, 0, false⟩,  -- SEC_STAT
  ⟨0x20008, 4, 2, .ro, 0, 0, false⟩,  -- SEC_UID_LO
  ⟨0x20010, 4, 1, .ro, 0, 0, false⟩,  -- SEC_APPR
  ⟨0x20014, 4, 1, .ro, 0, 0, false⟩,  -- SEC_FWFLOOR
  ⟨0x20018, 4, 1, .ro, 0, 0, false⟩,  -- SEC_PLFLOOR
  ⟨0x20020, 4, 1, .ro, 0, 0, false⟩,  -- SEC_DBG
  ⟨0x20024, 4, 1, .ro, 0, 0, false⟩,  -- SEC_DBGLEFT
  ⟨0x20030, 4, 1, .sq, 0x1f, 0, false⟩,  -- SEC_EVT
  ⟨0x20040, 4, 1, .ro, 0, 0, false⟩,  -- SEC_TLOG
  ⟨0x20100, 4, 48, .rw, 0xffffffff, 0, false⟩,  -- SEC_REQn
  ⟨0x20200, 4, 48, .ro, 0, 0, false⟩,  -- SEC_RSPn
  ⟨0x20300, 4, 1, .ro, 0, 0, false⟩,  -- SEC_xPOST
  ⟨0x20304, 4, 1, .ro, 0, 0, false⟩]  -- SEC_xSTAT

/-- Queue manager and host rings (R269, R272). -/
def rowsQm : List RegRow := [
  ⟨0x30010, 4, 1, .rw, 0xffff, 0, false⟩,  -- QM_DSEL
  ⟨0x30014, 4, 4, .rw, 0xffffffff, 0, false⟩,  -- QM_DDATA0–3
  ⟨0x30024, 4, 1, .ro, 0, 0, false⟩,  -- QM_DCMD
  ⟨0x30028, 4, 1, .ro, 0, 0, false⟩,  -- QM_DRES
  ⟨0x3002c, 4, 1, .ro, 0, 0, true⟩,  -- QM_DDEPTH
  ⟨0x30030, 4, 1, .pg, 0xffffffff, 0, true⟩,  -- QM_DPEG
  ⟨0x30040, 4, 1, .sq, 0x3f, 0, true⟩,  -- QM_STAT
  ⟨0x30050, 4, 1, .ro, 0, 0, true⟩,  -- QM_POOL
  ⟨0x30054, 4, 1, .ro, 0, 0, true⟩,  -- QM_OVF
  ⟨0x30058, 4, 1, .ro, 0, 0, true⟩,  -- QM_OVF_SIZE
  ⟨0x30060, 4, 1, .cnt, 0, 0, true⟩,  -- QM_ENQ_CNT
  ⟨0x30068, 4, 1, .cnt, 0, 0, true⟩,  -- QM_REFUSE_CNT
  ⟨0x30070, 4, 1, .cnt, 0, 0, true⟩,  -- QM_TMO_CNT
  ⟨0x31000, 0x20, 256, .rw, 0xffffff00, 0, true⟩,  -- HR_DBASE_LO
  ⟨0x31004, 0x20, 256, .rw, 0xffffffff, 0, true⟩,  -- HR_DBASE_HI
  ⟨0x31008, 0x20, 256, .rw, 0xfffffff8, 0, true⟩,  -- HR_SBASE_LO
  ⟨0x3100c, 0x20, 256, .rw, 0xffffffff, 0, true⟩,  -- HR_SBASE_HI
  ⟨0x31010, 0x20, 256, .rw, 0xff7ff10f, 4, true⟩,  -- HR_CFG
  ⟨0x31014, 0x20, 256, .ro, 0, 0, true⟩,  -- HR_TAIL
  ⟨0x31018, 0x20, 256, .ro, 0, 0, true⟩]  -- HR_HEAD

/-- Scribe (R350). -/
def rowsScr : List RegRow := [
  ⟨0x40000, 4, 1, .rw, 1, 0, true⟩,  -- SCR_CTL
  ⟨0x40004, 4, 1, .pg, 0xffffffc0, 0xf440, true⟩,  -- SCR_LIMIT
  ⟨0x40008, 4, 1, .pg, 0xffffffff, 0x645a32, true⟩,  -- SCR_TASKBAL
  ⟨0x40010, 4, 1, .cnt, 0, 0, true⟩,  -- SCR_EPOCH
  ⟨0x40020, 4, 1, .sq, 0x7f, 0, true⟩,  -- SCR_STAT
  ⟨0x40040, 4, 1, .rw, 0x3fff, 0, false⟩,  -- SCR_TSEL
  ⟨0x40044, 4, 8, .rw, 0xffffffff, 0, false⟩,  -- SCR_TDATA0–7
  ⟨0x40064, 4, 1, .rw, 0xff, 0, false⟩,  -- SCR_TDEST
  ⟨0x40068, 4, 1, .ro, 0, 0, false⟩,  -- SCR_TCMD
  ⟨0x4006c, 4, 1, .ro, 0, 0, true⟩,  -- SCR_TRES
  ⟨0x40080, 4, 1, .rw, 0xffffffff, 0, false⟩,  -- SCR_PSEL
  ⟨0x40084, 4, 1, .rw, 0xffffffff, 0, false⟩,  -- SCR_PDATA0
  ⟨0x40088, 4, 1, .ro, 0, 0, true⟩,  -- SCR_PDATA1
  ⟨0x4008c, 4, 1, .rw, 0xffffffff, 0, false⟩,  -- SCR_TBDATA
  ⟨0x40090, 4, 1, .ro, 0, 0, false⟩,  -- SCR_PCMD
  ⟨0x40094, 4, 1, .ro, 0, 0, true⟩,  -- SCR_PRES
  ⟨0x400a0, 4, 1, .rw, 0x4000ffff, 0, false⟩,  -- SCR_EVAC
  ⟨0x400a4, 4, 1, .rw, 0x400000ff, 0, false⟩,  -- SCR_EVBAY
  ⟨0x400a8, 4, 1, .ro, 0, 0, true⟩,  -- SCR_EVSTAT
  ⟨0x400b0, 4, 1, .rw, 0xff, 0, false⟩,  -- SCR_BANKREL
  ⟨0x400c0, 4, 1, .rw, 0x800000ff, 0, true⟩,  -- SCR_LOGCFG
  ⟨0x400c4, 4, 1, .ro, 0, 0, true⟩,  -- SCR_LOGHEAD
  ⟨0x400c8, 4, 1, .rw, 0x1fff, 0, false⟩,  -- SCR_LOGTAIL
  ⟨0x400d0, 4, 1, .ro, 0, 0, true⟩,  -- SCR_SPAN
  ⟨0x400d4, 4, 1, .ro, 0, 0, true⟩,  -- SCR_GUEST_CAP
  ⟨0x400d8, 4, 1, .ro, 0, 0, true⟩,  -- SCR_GUEST_USE
  ⟨0x40100, 4, 1, .cnt, 0, 0, true⟩,  -- SCR_PMOVE_CNT
  ⟨0x40108, 4, 1, .cnt, 0, 0, true⟩,  -- SCR_TMOVE_CNT
  ⟨0x40110, 4, 1, .cnt, 0, 0, true⟩,  -- SCR_ABANDON_CNT
  ⟨0x40400, 4, 256, .ro, 0, 0, true⟩]  -- SCR_BAYSIGb

/-- Raising unit (R383). -/
def rowsRsu : List RegRow := [
  ⟨0x50000, 4, 1, .rw, 0x3fffff0, 0, false⟩,  -- RSU_SRC
  ⟨0x50004, 4, 1, .rw, 0x1ffffff, 0, false⟩,  -- RSU_LEN
  ⟨0x50008, 4, 1, .rw, 0x10fff, 0, false⟩,  -- RSU_TARGET
  ⟨0x5000c, 4, 1, .ro, 0, 0, false⟩,  -- RSU_CMD
  ⟨0x50010, 4, 1, .ro, 0, 0, true⟩,  -- RSU_STAT
  ⟨0x50014, 4, 1, .sq, 7, 0, true⟩,  -- RSU_EVT
  ⟨0x50018, 4, 1, .ro, 0, 0, true⟩,  -- RSU_PLANID
  ⟨0x5001c, 4, 1, .ro, 0, 0, true⟩,  -- RSU_SEQNO
  ⟨0x50020, 4, 1, .ro, 0, 0, true⟩,  -- RSU_TIME
  ⟨0x50040, 4, 16, .ro, 0, 0, true⟩]  -- RSU_BENTIDn

/-- DDR4 channels (R326). -/
def rowsMem : List RegRow := [
  ⟨0x60000, 0x2000, 8, .rw, 0x3f3333ff, 0, true⟩,  -- MEMc_CFG
  ⟨0x60004, 0x2000, 8, .rw, 0xe, 8, true⟩,  -- MEMc_CTL
  ⟨0x60008, 0x2000, 8, .ro, 0, 0, true⟩,  -- MEMc_STATE
  ⟨0x6000c, 0x2000, 8, .ro, 0, 0, true⟩,  -- MEMc_TEMP
  ⟨0x60010, 0x2000, 8, .rw, 0x3ff, 0, true⟩,  -- MEMc_LATE_NS
  ⟨0x60014, 0x2000, 8, .ro, 0, 0, true⟩,  -- MEMc_TMAX
  ⟨0x60020, 0x2000, 8, .sq, 0x7f, 0, true⟩,  -- MEMc_STAT
  ⟨0x60024, 0x2000, 8, .ro, 0, 0, true⟩,  -- MEMc_ERRA_LO
  ⟨0x60028, 0x2000, 8, .ro, 0, 0, true⟩,  -- MEMc_ERRA_HI
  ⟨0x6002c, 0x2000, 8, .ro, 0, 0, true⟩,  -- MEMc_ERRI
  ⟨0x60030, 0x2000, 8, .ro, 0, 0, true⟩,  -- MEMc_ENC
  ⟨0x60040, 0x2000, 8, .cnt, 0, 0, true⟩,  -- MEMc_CE_CNT
  ⟨0x60048, 0x2000, 8, .cnt, 0, 0, true⟩,  -- MEMc_UE_CNT
  ⟨0x60050, 0x2000, 8, .cnt, 0, 0, true⟩,  -- MEMc_LATE_CNT
  ⟨0x60058, 0x2000, 8, .cnt, 0, 0, true⟩]  -- MEMc_SCRUB_PASS

/-- Scarf ports (R420, R421). -/
def rowsScf : List RegRow := [
  ⟨0x70000, 0x1000, 8, .rw, 0x1f31, 0x1f00, true⟩,  -- SCFp_CTL
  ⟨0x70004, 0x1000, 8, .ro, 0, 0, true⟩,  -- SCFp_STATE
  ⟨0x70008, 0x1000, 8, .ro, 0, 0, true⟩,  -- SCFp_PEER
  ⟨0x7000c, 0x1000, 8, .ro, 0, 0, true⟩,  -- SCFp_FLIGHT
  ⟨0x70010, 0x1000, 8, .ro, 0, 0, true⟩,  -- SCFp_RMAX
  ⟨0x70020, 0x1000, 8, .sq, 0x1f, 0, true⟩,  -- SCFp_STAT
  ⟨0x70040, 0x1000, 8, .cnt, 0, 0, true⟩,  -- SCFp_TX_CNT
  ⟨0x70048, 0x1000, 8, .cnt, 0, 0, true⟩,  -- SCFp_RX_CNT
  ⟨0x70050, 0x1000, 8, .cnt, 0, 0, true⟩,  -- SCFp_CRC_CNT
  ⟨0x70058, 0x1000, 8, .cnt, 0, 0, true⟩,  -- SCFp_REPLAY_CNT
  ⟨0x70060, 0x1000, 8, .cnt, 0, 0, true⟩,  -- SCFp_FAIL_CNT
  ⟨0x70068, 0x1000, 8, .cnt, 0, 0, true⟩,  -- SCFp_DUP_CNT
  ⟨0x78000, 4, 1, .rw, 0xfff, 0, true⟩,  -- SCF_DEVID
  ⟨0x78010, 4, 1, .rw, 0xfff, 0, false⟩,  -- SCF_RTSEL
  ⟨0x78014, 4, 1, .rw, 0x80000007, 0, false⟩,  -- SCF_RTDATA
  ⟨0x78018, 4, 1, .ro, 0, 0, false⟩,  -- SCF_RTCMD
  ⟨0x7801c, 4, 1, .ro, 0, 0, true⟩,  -- SCF_RTRES
  ⟨0x78020, 4, 1, .rw, 0x73, 0, true⟩,  -- SCF_TCTL
  ⟨0x78024, 4, 1, .ro, 0, 0, true⟩,  -- SCF_TSTAT
  ⟨0x78028, 4, 1, .cnt, 0, 0, true⟩,  -- SCF_TIME
  ⟨0x78030, 4, 2, .ro, 0, 0, false⟩,  -- SCF_TSET_LO
  ⟨0x78040, 4, 1, .rw, 0x3f, 0, false⟩,  -- SCF_PWSEL
  ⟨0x78044, 4, 1, .rw, 0x8000ffff, 0, false⟩,  -- SCF_PWDATA0
  ⟨0x78048, 4, 8, .rw, 0x7fff, 0, false⟩,  -- SCF_PWDATA1–8
  ⟨0x78068, 4, 1, .ro, 0, 0, false⟩,  -- SCF_PWCMD
  ⟨0x7806c, 4, 1, .ro, 0, 0, true⟩,  -- SCF_PWRES
  ⟨0x78070, 4, 1, .sq, 7, 0, true⟩,  -- SCF_STAT
  ⟨0x78078, 4, 1, .cnt, 0, 0, true⟩]  -- SCF_NOROUTE_CNT

/-- Ethernet MACs and host bridge (R434, R441). -/
def rowsHb : List RegRow := [
  ⟨0x80000, 0x2000, 2, .rw, 3, 0, true⟩,  -- ETHm_CTL
  ⟨0x80004, 0x2000, 2, .ro, 0, 0, true⟩,  -- ETHm_STATE
  ⟨0x80010, 0x2000, 2, .pg, 0x8000ffff, 0, true⟩,  -- ETHm_RXCFG
  ⟨0x80014, 0x2000, 2, .rw, 0xffffffff, 0, true⟩,  -- ETHm_TSCORR
  ⟨0x80020, 0x2000, 2, .sq, 0xf, 0, true⟩,  -- ETHm_STAT
  ⟨0x80040, 0x2000, 2, .cnt, 0, 0, true⟩,  -- ETHm_RXFRM_CNT
  ⟨0x80048, 0x2000, 2, .cnt, 0, 0, true⟩,  -- ETHm_RXDROP_CNT
  ⟨0x80050, 0x2000, 2, .cnt, 0, 0, true⟩,  -- ETHm_TXFRM_CNT
  ⟨0x80058, 0x2000, 2, .cnt, 0, 0, true⟩,  -- ETHm_TXBAD_CNT
  ⟨0x80400, 8, 64, .pg, 0xefffffff, 0, true⟩,  -- ETHm_RXBAn
  ⟨0x80404, 8, 64, .pg, 0xffff, 0, true⟩,  -- ETHm_RXBBn
  ⟨0x82400, 8, 64, .pg, 0xefffffff, 0, true⟩,  -- ETHm_RXBAn
  ⟨0x82404, 8, 64, .pg, 0xffff, 0, true⟩,  -- ETHm_RXBBn
  ⟨0x84000, 4, 1, .rw, 0x7f, 5, true⟩,  -- HB_CTL
  ⟨0x84004, 4, 1, .ro, 0, 0, true⟩,  -- HB_LINK
  ⟨0x84010, 4, 1, .rw, 0x87ff87ff, 0, true⟩,  -- HB_VECA
  ⟨0x84014, 4, 1, .rw, 0x87ff87ff, 0, true⟩,  -- HB_VECB
  ⟨0x84020, 4, 1, .sq, 0xf, 0, true⟩,  -- HB_STAT
  ⟨0x84100, 4, 64, .rw, 0xc00fffff, 0x40000000, true⟩]  -- HB_WINn

/-- Background unit and hold ledgers (R192–R194, R530). -/
def rowsBg : List RegRow := [
  ⟨0x90000, 4, 1, .rw, 0x1ff, 0x10, true⟩,  -- BG_CTL
  ⟨0x90004, 4, 1, .rw, 0xfff0fff, 0x1000040, true⟩,  -- BG_SCRUB
  ⟨0x90008, 4, 1, .rw, 0x8000ffff, 0, true⟩,  -- BG_TELQ
  ⟨0x9000c, 4, 1, .rw, 0xffff, 0, true⟩,  -- BG_TELPER
  ⟨0x90010, 4, 1, .sq, 0x3f, 0, true⟩,  -- BG_ERRSTAT
  ⟨0x90014, 4, 1, .ro, 0, 0, true⟩,  -- BG_RSEQ
  ⟨0x90018, 4, 1, .cnt, 0, 0, true⟩,  -- BG_LOST_CNT
  ⟨0x90020, 8, 5, .cnt, 0, 0, true⟩,  -- BG_CNTc
  ⟨0x90080, 4, 16, .ro, 0, 0, true⟩,  -- BG_LASTREC0–15
  ⟨0x90100, 4, 8, .ro, 0, 0, true⟩,  -- BG_CENSUSn
  ⟨0x90120, 4, 1, .rw, 0x400000ff, 0, false⟩,  -- BG_RETIRE
  ⟨0x90124, 4, 1, .ro, 0, 0, true⟩,  -- BG_RSTAT
  ⟨0x90140, 4, 1, .rw, 0x80ffffff, 0x80006418, true⟩,  -- BG_JCTL
  ⟨0x90144, 4, 1, .sq, 0xf, 0, true⟩,  -- BG_JSTAT
  ⟨0x93000, 0x10, 256, .rw, 0xffffffff, 0, true⟩,  -- LEDGER_BUDGET
  ⟨0x93004, 0x10, 256, .ro, 0, 0, true⟩,  -- LEDGER_DISP
  ⟨0x93008, 0x10, 256, .sq, 1, 0, true⟩,  -- LEDGER_STAT
  ⟨0x9403c, 0x40, 256, .ro, 0, 0, true⟩]  -- LEDGER_CTL

/-- Management complex (R453). -/
def rowsMx : List RegRow := [
  ⟨0xa0000, 4, 16, .rw, 0xffffffff, 0, false⟩,  -- MXH_CMDn
  ⟨0xa0040, 4, 16, .rw, 0xffffffff, 0, false⟩,  -- MXH_RSPn
  ⟨0xa0080, 4, 1, .ro, 0, 0, false⟩,  -- MXH_POST
  ⟨0xa0084, 4, 1, .ro, 0, 0, true⟩,  -- MXH_STAT
  ⟨0xa0088, 4, 1, .ro, 0, 0, false⟩,  -- MXH_DONE
  ⟨0xa008c, 4, 1, .sq, 3, 0, true⟩,  -- MXH_EVT
  ⟨0xa0100, 4, 1, .rw, 1, 0, true⟩,  -- MX_CTL
  ⟨0xa0104, 4, 1, .rw, 0xff00, 0, false⟩,  -- MX_BOOT
  ⟨0xa0110, 4, 1, .ro, 0, 0, true⟩,  -- MX_EVPEND
  ⟨0xa0114, 4, 1, .rw, 0xff, 0, true⟩,  -- MX_EVEN
  ⟨0xa0118, 4, 1, .sq, 3, 0, true⟩,  -- MX_STAT
  ⟨0xa0120, 4, 1, .ro, 0, 0, true⟩,  -- MX_ERRA
  ⟨0xa0124, 4, 1, .ro, 0, 0, true⟩,  -- MX_ERRI
  ⟨0xa0200, 8, 4, .rw, 0xc00fffff, 0, true⟩,  -- MX_WINAn
  ⟨0xa0204, 8, 4, .rw, 0xffffffff, 0, true⟩]  -- MX_WINBn

/-- Staging (R288–R300). -/
def rowsStg : List RegRow := [
  ⟨0xb0000, 4, 192, .rw, 0x200700ff, 0x40000000, true⟩,  -- STG_OWNn
  ⟨0xb0300, 4, 1, .sq, 0x1f, 0, true⟩,  -- STG_STAT
  ⟨0xb0304, 4, 1, .ro, 0, 0, false⟩,  -- STG_EVT
  ⟨0xb0400, 0x10, 16, .rw, 0x1f0, 0, false⟩,  -- STG_MCTLg
  ⟨0xb0404, 0x10, 16, .ro, 0, 0, true⟩,  -- STG_MSTATg
  ⟨0xb0408, 0x10, 16, .ro, 0, 0, true⟩,  -- STG_MFAILg
  ⟨0xb1000, 0x10, 256, .rw, 0x130, 0, false⟩,  -- BAY_MCTL
  ⟨0xb1004, 0x10, 256, .ro, 0, 0, true⟩,  -- BAY_MSTAT
  ⟨0xb1008, 0x10, 256, .ro, 0, 0, true⟩]  -- BAY_MFAIL

/-- Slow interfaces, by sill-core address (R463). -/
def rowsSlow : List RegRow := [
  ⟨0x48000000, 4, 1, .rw, 0x1fffff, 0x80c08, false⟩,  -- XSPI_CTL
  ⟨0x48000004, 4, 1, .rw, 0x7f0ff, 0, false⟩,  -- XSPI_CMD
  ⟨0x48000008, 4, 1, .rw, 0xffffffff, 0, false⟩,  -- XSPI_ADDR
  ⟨0x4800000c, 4, 1, .rw, 0x1ff, 0, false⟩,  -- XSPI_LEN
  ⟨0x48000010, 4, 1, .rw, 0xffffffff, 0, false⟩,  -- XSPI_DATA
  ⟨0x48000014, 4, 1, .ro, 0, 0, false⟩,  -- XSPI_STAT
  ⟨0x48001000, 4, 1, .rw, 0x1f, 0, false⟩,  -- SMB_CTL
  ⟨0x48001004, 4, 1, .rw, 0xfffffe, 0, false⟩,  -- SMB_XFER
  ⟨0x48001008, 4, 1, .rw, 0xff, 0, false⟩,  -- SMB_DATA
  ⟨0x4800100c, 4, 1, .sq, 0xf, 0, false⟩,  -- SMB_STAT
  ⟨0x48002000, 4, 1, .rw, 0xc00fffff, 0xd904, false⟩,  -- UART_CTL
  ⟨0x48002004, 4, 1, .rw, 0xff, 0, false⟩,  -- UART_DATA
  ⟨0x48002008, 4, 1, .ro, 0, 0, false⟩,  -- UART_LVL
  ⟨0x4800200c, 4, 1, .sq, 7, 0, false⟩,  -- UART_STAT
  ⟨0x48003000, 4, 1, .mw, 0xffff, 0, false⟩,  -- GPIO_DIR
  ⟨0x48003004, 4, 1, .mw, 0xffff, 0, false⟩,  -- GPIO_OUT
  ⟨0x48003008, 4, 1, .ro, 0, 0, false⟩,  -- GPIO_IN
  ⟨0x4800300c, 4, 1, .rw, 0xffffffff, 0, false⟩,  -- GPIO_EVCFG
  ⟨0x48003010, 4, 1, .rw, 0xffff, 0, false⟩,  -- GPIO_DEB
  ⟨0x48003014, 4, 1, .sq, 0xffff, 0, false⟩]  -- GPIO_EVT

/-- Security module, port S, by sill-core address (R506). -/
def rowsSecS : List RegRow := [
  ⟨0x60000100, 4, 48, .rw, 0xffffffff, 0, false⟩,  -- SEC_REQn
  ⟨0x60000200, 4, 48, .ro, 0, 0, false⟩,  -- SEC_RSPn
  ⟨0x60000300, 4, 1, .ro, 0, 0, false⟩,  -- SEC_xPOST
  ⟨0x60000304, 4, 1, .ro, 0, 0, false⟩]  -- SEC_xSTAT

/-- Does the row hold a register at this offset? -/
def RegRow.covers (r : RegRow) (a : Nat) : Bool :=
  decide (r.base ≤ a) && decide ((a - r.base) % r.stride = 0) && decide ((a - r.base) / r.stride < r.count)

/-- The rows of the block an offset lies in. -/
def rowsAt (a : Nat) : List RegRow :=
  match a / 0x10000 with
  | 0 => rowsDev
  | 1 => rowsRst
  | 2 => rowsSec
  | 3 => rowsQm
  | 4 => rowsScr
  | 5 => rowsRsu
  | 6 => rowsMem
  | 7 => rowsScf
  | 8 => rowsHb
  | 9 => rowsBg
  | 0xa => rowsMx
  | 0xb => rowsStg
  | 0x4800 => rowsSlow
  | 0x6000 => rowsSecS
  | _ => []

/-- The row of the register at offset `a`, if a table names one. -/
def regRow (a : Nat) : Option RegRow := (rowsAt a).find? fun r => r.covers a

/-- The reset value of the register at `a`; an indexed default of R434 is the register's own index. -/
def regReset (a : Nat) : Word :=
  match regRow a with
  | some r => if r.base = 0x84100 then wd (r.reset + (a - r.base) / 4) else wd r.reset
  | none => 0#32

end Sys2Proof.Machine
end

