-- ==== Sys2Proof/Machine/State.lean ====
section
/-!
DEFINITION. The state of the device: every register, memory, queue, buffer and mode the spec gives it, as plain data,
with the queue of waiting commands, the two ways a step can stop, and the state after reset.
-/
namespace Sys2Proof.Machine

/-! ## The part (R1–R9) -/

/-- What is fused or fitted and never changes: the part number, the stepping, the bents fused present (R4–R6, R11) and
the channels that hold DIMMs (R304). DESIGN CHOICE, log entry 4. -/
structure Hw where
  part : Nat := 0x7256
  stepping : Nat := 0xB0
  bents : Nat := 0xFFFF
  dimms : Nat := 0xFF
  /-- The MEMc_CFG that describes the DIMMs fitted at a channel (R323); none where they are what firmware writes. -/
  fitted : Tab (Option Word) := []
  /-- Bytes of the external boot flash (R442, R454). -/
  flash : Nat := 0x4000000
  /-- What the flash device's SFDP tables tell: nothing (none), no Profile 1.0 8D-8D-8D table (0), or the highest rate of
  that mode in MHz (R443). -/
  sfdp : Option Nat := some 200
  deriving DecidableEq, Repr

/-! ## Registers and the peg (R37–R66) -/

/-- The register file. `words` holds registers that differ from their reset value; `shadow` a PG register's shadow
written since its group's last peg was captured (R44); `captured` the values of the peg in progress (R45). -/
structure RegFile where
  words : Tab Word := []
  shadow : Tab (Option Word) := []
  sqs : Tab Sq := []
  cnts : Tab Nat := []
  /-- Peg group map of the frame plan (R42). -/
  groups : Tab Nat := []
  captured : List (Nat × Word) := []
  busy : Bool := false
  /-- The groups of the peg in progress. -/
  pegging : Nat := 0
  /-- DEV_PEG writes held on their path (R47). -/
  held : List Word := []
  /-- Consecutive mismatching passes (R63), and whether one has been reported since the last matching pass. -/
  mism : Nat := 0
  drifted : Bool := false
  deriving DecidableEq, Repr

/-! ## What leaves the device, and answers -/

/-- Error responses (R307, R287, R294, R325, R406). -/
inductive Err where
  | isolated
  | unmapped
  | notOwner
  | retained
  | linkDown
  deriving DecidableEq, Repr

/-- The answer to a memory access: data of a read, poisoned words by index, an error response. -/
structure Resp where
  data : List Byte := []
  bad : List Nat := []
  err : Option Err := none
  deriving DecidableEq, Repr

/-! ## Staging (R282–R299) -/

/-- A staging bank. `kind` and `bay` are what STG_OWNn reads; `ownKind` and `ownBay` what its arbiter applies (R290). -/
structure Bank where
  kind : Nat := 0
  bay : Nat := 0
  ownKind : Nat := 0
  ownBay : Nat := 0
  /-- An accepted change not yet applied at the bank (R290). -/
  pending : Bool := false
  retain : Bool := false
  awake : Bool := true
  /-- RETAIN was written 0 and AWAKE follows 2 µs later (R294). -/
  waking : Bool := false
  mem : Mem := { gen := 1 }
  marks : Marks := []
  deriving DecidableEq, Repr

/-- A March test in progress: the bank in its group and its mode (R296, R299). -/
structure BankTest where
  bank : Nat
  preserve : Bool
  deriving DecidableEq, Repr

/-- The staging store. -/
structure Staging where
  banks : Tab Bank := []
  tests : Tab (Option BankTest) := []
  /-- March tests of bays in progress, by bay; `bank` is ARRAY (R300). -/
  bayTests : Tab (Option BankTest) := []
  deriving DecidableEq, Repr

/-! ## DDR4 (R301–R326) -/

/-- A line in a channel's write queue: the bytes written since it entered, and whether poisoned data was among them
(R313, R320). -/
structure WLine where
  line : Nat
  bytes : Tab (Option Byte) := []
  poison : Bool := false
  deriving DecidableEq, Repr

/-- A request at a device memory address (R313): a read of `len` bytes, or a write of `data`; its channel time (R312). -/
structure DdrReq where
  addr : Nat
  write : Bool
  len : Nat := 0
  data : List Byte := []
  poison : Bool := false
  ns : Nat := 0
  deriving DecidableEq, Repr

/-- A DDR4 channel. STATE and FSTEP are coded as R326 codes them; temperatures are bytes. -/
structure Chan where
  state : Nat := 0
  fstep : Nat := 0
  t0 : Nat := 0
  t1 : Nat := 0
  ttrain : Nat := 0
  fast : Bool := false
  alarm : Bool := false
  keygen : Nat := 0
  wq : List WLine := []
  /-- Ranks in a refresh episode (R315): slot × 32 + rank index. -/
  episodes : List Nat := []
  /-- Next line of each rank's patrol scrub (R321), and the ranks that completed the pass in progress. -/
  scrub : Tab Nat := []
  scrubbed : List Nat := []
  /-- Corrected lines that wait for their rank's next episode (R319). -/
  back : List Nat := []
  /-- Slices left of a retraining in progress (R318). -/
  retrain : Nat := 0
  /-- SR was written and the transition is in progress: entering or leaving self-refresh (R324). -/
  srMove : Bool := false
  /-- INIT has brought the channel into use since the last exit of WARM reach or wider: its balls are no longer
  high-impedance (R533). -/
  driven : Bool := false
  /-- A BLOCK reset isolates the channel: the state it is released to. -/
  release : Option Nat := none
  /-- VDDQ failed while the domain was gated (R324). -/
  vddqLost : Bool := false
  /-- The keys were erased by a zeroisation and no INIT has followed (R322). -/
  erased : Bool := false
  /-- DIMM contents by device memory address (R305), and marks by line number: 1 + 4 × device a correctable error,
  2 an uncorrectable one, 3 the poison pattern (R319, R320). -/
  mem : Mem := { gen := 1 }
  marks : Marks := []
  /-- The key pair in the channel's key registers, by its number in key RAM (R322, R496). -/
  key : Option Nat := none
  /-- READY with a MEMc_CFG that does not describe its DIMMs: accesses return unspecified data (R323). -/
  wild : Bool := false
  /-- Requests that wait for the end of a refresh episode of their rank, in order of arrival (R315, R316). -/
  waits : List DdrReq := []
  deriving DecidableEq, Repr

/-- The DDR4 subsystem. -/
structure Ddr where
  chans : Tab Chan := []
  /-- VDDQ and VPP lie within their limits (R323, R537). -/
  rails : Bool := true
  deriving DecidableEq, Repr

/-! ## Scribe (R327–R353) -/

/-- A page map entry (R329): word 0 and HEAT, and the epoch plus one in which its fence was last set (R336). -/
structure PageEnt where
  live : Bool := false
  w0 : Word := 0
  heat : Nat := 0
  fenced : Nat := 0
  deriving DecidableEq, Repr

/-- A page move in progress (R338). `phase`: 0 copying, 1 fence set, 2 fence acknowledged. -/
structure PageMove where
  key : Nat
  src : Word
  dst : Word
  phase : Nat := 0
  dirty : List Nat := []
  passes : Nat := 0
  /-- 0 epoch, 1 command, 2 evacuation, 3 bay-down (R353); and what waits for it. -/
  origin : Nat := 0
  command : Bool := false
  evac : Bool := false
  rel : Bool := false
  epoch : Nat := 0
  /-- The scribe's microsecond count when the fence was set (R353). -/
  fenceAt : Nat := 0
  /-- Lines of 32 bytes of a source in L3, as its peer returned them (R338, R398). -/
  lines : Tab (Option Resp) := []
  deriving DecidableEq, Repr

/-- A task move in progress (R342). `phase`: 4 waits for DONE, 5 for the send queue, 6 copies. An UNPLACE has no
destination (R351). -/
structure TaskMove where
  task : Nat
  src : Nat
  dst : Option Nat
  slot : Nat := 0
  phase : Nat := 4
  frozen : List Nat := []
  origin : Nat := 0
  command : Bool := false
  evac : Bool := false
  epoch : Nat := 0
  deriving DecidableEq, Repr

/-- An evacuation in progress (R344): the bays, DROP, the write that started it. `pages` tells that every task has left
and the pages of the L0 frames move. -/
structure Evac where
  bays : List Nat
  drop : Bool
  byBay : Bool
  /-- 0 software, 1 retirement, 2 re-raise. -/
  owner : Nat := 0
  pages : Bool := false
  /-- What SCR_EVAC.BENTS or SCR_EVBAY.BAY held, for the log (R353). -/
  subject : Nat := 0
  /-- The epoch in which it began (R353). -/
  epoch : Nat := 0
  deriving DecidableEq, Repr

/-- A bank release in progress (R346), and the pages that found no other location. -/
structure Release where
  bank : Nat
  /-- The epoch in which it began (R353). -/
  epoch : Nat := 0
  stuck : List Nat := []
  deriving DecidableEq, Repr

/-- A bay's access that waits in its place: behind a fence (R339), for a refresh episode to end (R316), or for an earlier
access of the bay to the same page (R29). -/
structure Parked where
  key : Nat
  bay : Nat
  req : Req
  /-- The intrusion tag that its response will carry: 6 behind a fence, 10 in a refresh episode (R190, R316, R339). -/
  tag : Nat := 6
  deriving DecidableEq, Repr

/-- What an access through BAR4, a window of the management complex or the map service reaches (R429, R447). -/
inductive Target where
  | memory (addr : Nat)
  /-- A byte of a table: page × 65,536 + byte. -/
  | table (t off : Nat)
  | staging (addr : Nat)
  /-- A byte of the boot flash, read through target T3 (R446, R464). -/
  | flash (off : Nat)
  /-- A byte of BAR2, the doorbell pages (R261). -/
  | doorbell (off : Nat)
  /-- A byte of a bay's scratch whose March test runs (R298). -/
  | scratch (bay off : Nat)
  | unmapped
  deriving DecidableEq, Repr

/-- An access of an agent outside the bays, waiting for its turn, a fence or a peer (R332, R428). `master`: 0 the host
through BAR2 and BAR4, 1 the sill core (with its load's serial number, or none for a store), 2 and 3 M2 and M3. -/
structure Outer where
  master : Nat
  tgt : Target
  /-- Management address of an access of the crossbar, for its error log (R451); the host's offset in its BAR (R433). -/
  addr : Nat := 0
  write : Bool
  len : Nat
  data : List Byte := []
  poison : Bool := false
  fid : Option Nat := none
  signed : Bool := false
  /-- Requests sent to peers, their answers by line of the table, and those still to come. -/
  sent : Bool := false
  want : Nat := 0
  lines : Tab (Option Resp) := []
  /-- The intrusion tag that its response will carry (R316, R339). -/
  tag : Nat := 0
  deriving DecidableEq, Repr

/-- The scribe. -/
structure Scribe where
  tables : Tab Word := []
  pages : Tab PageEnt := []
  /-- Task descriptor words, task × 8 + word (R331). -/
  tasks : Tab Word := []
  /-- Counts of the reach map entries, (bay × 16 + window) × 2^32 + page key; the map service counts as bay 256, window 0
  (R335). -/
  counts : Tab Nat := []
  moves : List PageMove := []
  taskMoves : List TaskMove := []
  /-- Decided moves that have not started (R336). -/
  decided : List (Nat × Word) := []
  decidedTasks : List (Nat × Nat) := []
  evac : Option Evac := none
  rel : Option Release := none
  parked : List Parked := []
  outer : List Outer := []
  /-- Unplaced tasks that the scribe places when a bay with their signature is live (R344). -/
  homeless : List Nat := []
  /-- Microsecond count at the last epoch boundary (R336). -/
  us : Nat := 0
  /-- DDR4 ranges of the scribe: first page and number of pages, in 64 KiB units of the device memory address (R305). -/
  ranges : List (Nat × Nat) := []
  /-- Guest pages held for peers: device × 2^32 + page key, and their page in the guest area (R348). -/
  guests : List (Nat × Nat) := []
  guestRange : Nat × Nat := (0, 0)
  hostRange : Nat × Nat := (0, 0)
  members : List Nat := []
  /-- Commands in progress (SCR_TRES.BUSY, SCR_PRES.BUSY) and results. -/
  tbusy : Bool := false
  tres : Nat := 0
  pbusy : Bool := false
  pres : Nat := 0
  /-- A MOVE (4) or UNPLACE (5) waits for one of the four task moves to end, or a MOVE for one of the eight page moves
  (R336). -/
  taskWait : Nat := 0
  pageWait : Bool := false
  evRes : Nat := 0
  evReason : Nat := 0
  relRes : Nat := 0
  logHead : Nat := 0
  /-- A full raise failed at steps 6–9, so that descriptors and map area hold unspecified contents (R376). -/
  lost : Bool := false
  deriving DecidableEq, Repr

/-! ## Queue manager (R235–R272) -/

/-- A queue: its descriptor (R237), the messages not yet landed, oldest first, and the cells landed or in service
(R240). `silent` tells that a LINK_DOWN notice stopped the arrival timer (R259). -/
structure Queue where
  w0 : Word := 0
  w1 : Word := 0
  w2 : Word := 0
  w3 : Word := 0
  msgs : List Msg := []
  away : Nat := 0
  /-- Messages not yet freed whose cells lie in the overflow area (R240). -/
  inOvf : Nat := 0
  silent : Bool := false
  deriving DecidableEq, Repr

/-- Who sent a message that is on its way to its queue (R27): a task of bay `b`, the runtime of bay `b`, the doorbell
page of the queue, an Ethernet binding, a producer on another device, or this queue manager. -/
inductive Producer where
  | task (t : Nat)
  | runtime (b : Nat)
  | doorbell
  | eth (binding : Nat)
  | remote (dev : Nat) (rt : Bool) (index : Nat)
  | manager
  deriving DecidableEq, Repr

/-- A message at or on its way to its home agent. `bay` names the bay whose send queue still holds its place; a
refusal is reported to `notq` with the ENQ's trigger value, or by QREFUSE to a remote producer. -/
structure Transit where
  queue : Nat
  prod : Producer
  msg : Msg
  bay : Option Nat := none
  trig : Word := 0
  notq : Word := 0
  deriving DecidableEq, Repr

/-- A host ring (R262–R265): SEQ, HEAD, TAIL, whether a moderation window is open and a message waits for its end. -/
structure Ring where
  seq : Nat := 0
  head : Nat := 0
  tail : Nat := 0
  window : Bool := false
  waits : Bool := false
  /-- Its message waits in the PBA of its masked vector (R432). -/
  masked : Bool := false
  deriving DecidableEq, Repr

/-- A pending descriptor write (R271). -/
structure PendWrite where
  queue : Nat
  words : List Word
  deriving DecidableEq, Repr

/-- The queue manager. `ovf` counts overflow cells in use. -/
structure Qm where
  queues : Tab Queue := []
  transit : List Transit := []
  rings : Tab Ring := []
  pend : List PendWrite := []
  /-- How many of them the peg in progress captured. -/
  pegPend : Nat := 0
  /-- Pool cells in use and pool cells owned, by queue agent (R239): none owned until a raise divides the banks. -/
  used : Tab Nat := []
  cap : Tab Nat := []
  ovf : Nat := 0
  ovfSize : Nat := 0
  us : Nat := 0
  commits : Nat := 0
  dres : Nat := 0
  ddepth : Nat := 0
  /-- Stopped by a DEVICE_FATAL event (R522). -/
  stopped : Bool := false
  deriving DecidableEq, Repr

/-! ## Background unit (R507–R530) -/

/-- The record serialiser, the census and the retirement in progress. -/
structure Bg where
  /-- Records held, oldest first; each has 16 words (R510, R512). -/
  held : List (List Word) := []
  rseq : Nat := 0
  /-- Events lost since the last record the serialiser accepted. -/
  lost : Nat := 0
  /-- CORRECTED records of each source in the current millisecond, and those suppressed (R516): block × 256 + instance. -/
  ce : Tab Nat := []
  suppressed : Tab Nat := []
  ceMs : Nat := 0
  /-- Retired bays (R523). -/
  retired : List Nat := []
  /-- The retirement in progress: bay, DROP, and whether AUTORET started it. -/
  retiring : Option (Nat × Bool × Bool) := none
  rres : Nat := 0
  rreason : Nat := 0
  /-- A journal patrol runs (R526). -/
  patrol : Bool := false
  /-- Scrub positions: bays by bay index (scratch words, then instruction words), staging by bank line (R508, R509). -/
  bayScrub : Tab Nat := []
  stgScrub : Tab Nat := []
  deriving DecidableEq, Repr

/-! ## Scarf links (R388–R421) -/

/-- A flit queued at a port or kept for replay; the last cell of a message of this device carries the message. -/
structure TxFlit where
  flit : Flit
  /-- Sequence number once sent. -/
  seq : Nat := 0
  msg : Option Transit := none
  /-- The flit is passed on for another device (R401). -/
  fwd : Bool := false
  /-- Its place in the order in which flits were queued at the port (R405). -/
  ord : Nat := 0
  deriving DecidableEq, Repr

/-- A scarf port. `state`: 0 DISABLED, 1 TRAINING, 2 UP, 3 DOWN. -/
structure Port_ where
  state : Nat := 0
  /-- In TRAINING: an attempt runs, or the next one is awaited (R392). -/
  attempt : Bool := false
  dcause : Nat := 0
  lanes : Nat := 0
  width : Nat := 0
  peerDev : Nat := 0
  peerPort : Nat := 0
  flight : Nat := 0
  rmax : Nat := 0
  txSeq : Nat := 0
  rxNext : Nat := 0
  /-- Sent and not acknowledged, oldest first (R402). -/
  replay : List TxFlit := []
  /-- Waiting to be sent, oldest first, by class. -/
  qFwd : List TxFlit := []
  qCmp : List TxFlit := []
  qCtl : List TxFlit := []
  /-- Credits held for each class at the peer (R399). -/
  cFwd : Nat := 0
  cCmp : Nat := 0
  cCtl : Nat := 0
  /-- Credits to return to the peer, by class in order of return. -/
  owed : List Nat := []
  nak : Bool := false
  /-- The receiver discards flits until the expected one arrives. -/
  gap : Bool := false
  /-- A retry of the transmitter is in progress, the failed ones in a row, and the count of µs when it began. -/
  retry : Bool := false
  fails : Nat := 0
  since : Nat := 0
  /-- Generation of this port's LSTATE floods (R415). -/
  gen : Nat := 0
  /-- Flits queued so far (R405). -/
  ord : Nat := 0
  /-- A received flit has not been acknowledged to the peer yet (R394, R396). -/
  ackDue : Bool := false
  deriving DecidableEq, Repr

/-- What a bay or this device waits for from a peer (R398). -/
inductive RemoteKind where
  | load (off size : Nat) (signed : Bool) (ea : Word)
  | store (ea : Word)
  | hash (key ea : Word)
  /-- First line of a RANGE lookup: table key and the lookup's base in the window. -/
  | range (win base : Nat) (key ea : Word)
  /-- Second line; whether the first came poisoned. -/
  | leaf (key ea : Word) (bad : Option Word)
  /-- A line of an access of the map service for an outside agent: its master and the line of the table. -/
  | outside (master line : Nat)
  /-- A line of 32 bytes of a page move's copy, read from or written to a peer (R338). -/
  | copy (key line : Nat) (write : Bool)
  deriving DecidableEq, Repr

/-- A request sent to a peer and not answered. -/
structure Remote where
  tag : Nat
  port : Nat
  bay : Nat
  fid : Nat
  kind : RemoteKind
  deriving DecidableEq, Repr

/-- A route update in progress (R408). -/
structure RouteUpdate where
  dev : Nat
  port : Nat
  old : Nat
  num : Nat
  held : List (Nat × TxFlit) := []
  deriving DecidableEq, Repr

/-- A message being received cell by cell: its source device, RT, INDEX, queue, words so far and the poisoned ones. -/
structure Partial where
  src : Nat
  rt : Bool
  index : Nat
  queue : Nat
  words : List Word := []
  bad : List Nat := []
  deriving DecidableEq, Repr

/-- Fences of one route update that reached this device and are not answered (R408). -/
structure FenceSeen where
  src : Nat
  num : Nat
  fwd : Bool := false
  cmp : Bool := false
  deriving DecidableEq, Repr

/-- The scarf fabric. -/
structure Scarf where
  ports : Tab Port_ := []
  /-- Route table entries: VALID in bit 3, PORT in bits 2:0 (R407). -/
  routes : Tab Nat := []
  upd : Option RouteUpdate := none
  fenceNum : Nat := 0
  rtres : Nat := 0
  fences : List FenceSeen := []
  /-- Link states by device × 8 + port: state and generation (R415); 0 not seen. -/
  view : Tab (Option (Nat × Nat)) := []
  /-- Path watch entries, entry × 9 + word (R416). -/
  watch : Tab Word := []
  reqs : List Remote := []
  tag : Nat := 0
  asm : List Partial := []
  /-- Guest accesses that wait for the end of a refresh episode of their rank: the port, and 1 or 2 where the home device's
  placement came with it or its freeing follows (R316, R348). -/
  guestq : List (Nat × Flit × Nat) := []
  /-- Device time in units of 2^-16 ns (R417); SCF_TSET_LO; an exchange awaiting its answer with its stamp t1. -/
  time : Nat := 0
  tsetLo : Word := 0
  t1 : Option Nat := none
  good : Nat := 0
  skipped : Nat := 0
  locked : Bool := false
  offset : Word := 0
  deriving DecidableEq, Repr

/-- What remains to be done before a command ends. The list is empty between commands. -/
inductive Work where
  /-- A message is refused with a reason (R249). -/
  | refuse (t : Transit) (reason : Nat)
  /-- A link is down: path-aware queues get their notice (R259, R416). -/
  | pathDown (dev port : Nat)
  /-- A bay went down or was reset: R268, R345. -/
  | bayGone (b : Nat)
  /-- An answer from a port that went down reaches its requester (R405, R406). -/
  | lost (r : Remote) (isolated : Bool)
  deriving DecidableEq, Repr

/-! ## Reset, power, clocks, temperature (R465–R489) -/

/-- A narrow reset in progress (R472): of one bay or one block, and whether its wrapper has drained. -/
structure Pulse where
  block : Bool
  target : Nat
  drained : Bool := false
  deriving DecidableEq, Repr

/-- The reset, clock and power controller. Domains are numbered 0–15 for the bents, then 16 STG, 17 MEMW, 18 MEME,
19 SCARF, 20 HOST, 21 SEC, 22 MGMT, and coded 0 OFF, 1 ON, 2 RETAINED, 3 CHANGING (R488). -/
structure Rst where
  dom : Tab Nat := []
  /-- What each CHANGING domain changes to. -/
  goal : Tab Nat := []
  /-- For each accepted write of PWR_CTL or PWR_RET, the domains that still change (R480). -/
  writes : List (List Nat) := []
  /-- The episode (R468, R469): widest reach, sources seen, sources asserted now; 0 and no source when none is. -/
  reach : Nat := 0
  src : Nat := 0
  asserted : Nat := 0
  lastSrc : Nat := 1
  lastReach : Nat := 7
  count : Nat := 0
  shoring : Bool := false
  /-- The start in progress runs in shoring mode: SHORING as it stood at its exit (R476). -/
  shored : Bool := false
  trimFails : Nat := 0
  /-- A DEVICE_FATAL event has halted the bays: only a reset of COLD reach or wider returns them to service (R35, R522). -/
  fatal : Bool := false
  bootOk : Bool := false
  loading : Bool := false
  trimValid : Bool := false
  trimSafe : Bool := true
  /-- Watchdog: running, and microseconds left (R478). -/
  wdg : Bool := false
  wdgLeft : Nat := 0
  /-- The 2 s window in which BOOT_OK must come runs (R475). -/
  window : Bool := true
  /-- A start has failed and FAILSTART asserts 1 ms later (R475). -/
  failDue : Bool := false
  pulse : Option Pulse := none
  /-- Bents held in reset by the raising unit (R379), and bents whose release is in progress (R470). -/
  raiseHold : Nat := 0
  bentExit : List Nat := []
  /-- Last reading of each sensor, in °C; `none` before its first reading. -/
  temp : Tab (Option Int) := []
  /-- Sensors whose last reading since the monitor started, or since a write to THM_CTL, was at ALARM or above (R485). -/
  alarmed : List Nat := []
  duty : Tab Nat := []
  /-- Sensors at 135 °C or above on the last reading (R487). -/
  hot : List Nat := []
  /-- The first start after a THERM episode raises TRIP (R487). -/
  trip : Bool := false
  /-- Main PLLs out of lock (R483), numbered as CLK_STAT.PLL, and bent PLLs from 16. -/
  unlocked : List Nat := []
  rtc : Bool := false
  /-- VDDQ and VPP lie within their limits (R537). -/
  railOut : Bool := false
  deriving DecidableEq, Repr


/-! ## Raising unit (R354–R387) -/

/-- The raising unit. `op` is 1 RAISE, 2 REBENT, 3 REBAY while a raise runs. -/
structure Rsu where
  busy : Bool := false
  step : Nat := 0
  result : Nat := 0
  reason : Nat := 0
  raised : Bool := false
  signed : Bool := false
  skipped : Nat := 0
  op : Nat := 0
  /-- RSU_SRC, RSU_LEN and RSU_TARGET when the command was accepted, the bents that the plan names, and the microseconds
  that the steps have taken so far. -/
  src : Nat := 0
  len : Nat := 0
  target : Word := 0
  bents : Nat := 0
  elapsed : Nat := 0
  /-- The payloads were decrypted in place (R375). -/
  plain : Bool := false
  /-- Step 5 of a REBENT: 0 not begun, 1 evacuating, 2 evacuated, 3 the evacuation failed, 4 the bent is held in reset. -/
  quiesce : Nat := 0
  /-- The target was reset by another source (R382). -/
  disturbed : Bool := false
  /-- Tasks this raise has placed (R379). -/
  placed : List Nat := []
  /-- Bays of a completed raise that have not entered RUN yet (R378): bay and its record in the plan. -/
  starting : List Nat := []
  /-- Purlin routes, 6 × row + endpoint: 0 west, 1 east (R365). -/
  routes : List Byte := []
  /-- ROM_RAISE in progress (R387): the journal slots still to try, the one being raised first, and the staging address. -/
  rom : Option (List Nat) := none
  romAddr : Nat := 0
  deriving DecidableEq, Repr

/-! ## PCI Express and Ethernet (R422–R441) -/

/-- The PCI Express endpoint: link, power state, MSI-X, AER. `gen` and `width` are what HB_LINK reads. -/
structure Hb where
  up : Bool := false
  gen : Nat := 0
  width : Nat := 0
  d3 : Bool := false
  /-- MSI-X Enable, Function Mask, table entries (vector × 4 + word) and pending bits (R431, R432). -/
  msixOn : Bool := false
  fmask : Bool := false
  table : Tab Word := []
  pba : Tab Bool := []
  /-- Status outputs as last seen of the sources of HB_VECA and HB_VECB: ERR, MBX, RSU, ETH. -/
  outs : Tab Bool := []
  /-- AER status bits set, numbered in the order of R433's table, and the header of the first failing TLP. -/
  aer : List Nat := []
  header : List Word := []
  headerLost : Bool := false
  /-- Writable words of configuration space, by offset (R422, R425). -/
  cfg : Tab Word := []
  deriving DecidableEq, Repr

/-- A message that a MAC transmits: its queue, the message, and its class. -/
structure Sending where
  queue : Nat
  msg : Msg
  cls : Nat
  deriving DecidableEq, Repr

/-- An Ethernet MAC. `state`: 0 DISABLED, 1 TRAINING, 2 UP. -/
structure Mac where
  state : Nat := 0
  tx : Option Sending := none
  deriving DecidableEq, Repr

/-! ## Management complex (R444–R464) -/

/-- A command mailbox: MXH (R460, R461), or a port of the security module (R499). -/
structure Post where
  cseq : Nat := 0
  rseq : Nat := 0
  busy : Bool := false
  deriving DecidableEq, Repr

/-- The step that the boot ROM waits in (R456, R459): released from reset, TRIM, SELFTEST; or the firmware runs, the ROM
serves the mailbox, or it waits after a failed start. -/
inductive Boot where
  | reset
  | trim
  | selftest
  | over
  deriving DecidableEq, Repr

/-- The management complex: mailbox, error log, slow interfaces and the boot flash. -/
structure Mx where
  /-- How far the boot ROM has got (R456). -/
  boot : Boot := .reset
  mxh : Post := {}
  errAddr : Word := 0
  errMaster : Nat := 0
  errWrite : Bool := false
  errKind : Nat := 0
  errCount : Nat := 0
  /-- XSPI: a command runs; words to send and words received. -/
  xBusy : Bool := false
  xTx : List Word := []
  xRx : List Word := []
  xDone : Bool := false
  smbBusy : Bool := false
  sTx : List Byte := []
  sRx : List Byte := []
  uTx : List Byte := []
  uRx : List Byte := []
  /-- Levels at the GPIO pins, after debounce (R463). -/
  pins : Word := 0
  /-- UART_CTS_N is low: the other end is ready for a byte (R442). DESIGN CHOICE, log entry 52. -/
  cts : Bool := false
  /-- The external boot flash: what the journal and the flash services see (R454). -/
  flash : Mem := { gen := 901 }
  deriving DecidableEq, Repr

/-! ## Security module (R490–R506) -/

/-- What a key handle holds: 1 an AES-256 key, 2 a P-384 pair by its private key, as bytes; and the port it belongs
to. -/
structure Handle where
  kind : Nat
  key : List Byte
  portS : Bool
  deriving DecidableEq, Repr

/-- One service port: role 0 none, 1 USER, 2 CO. -/
structure SecPort where
  post : Post := {}
  role : Nat := 0
  nonce : Option (List Byte) := none
  req : Tab Word := []
  rsp : Tab Word := []
  deriving DecidableEq, Repr

/-- The security module. `state`: 0 SELFTEST, 1 READY, 2 ERROR, 3 ZEROISED. -/
structure Sec where
  state : Nat := 0
  approved : Bool := false
  /-- Approved mode was left by an unlock in this start (R492). -/
  left : Bool := false
  /-- READY has been reached since the last reset of the module (R491). -/
  started : Bool := false
  /-- SEC_DBG.SCOPE and the seconds left (R504). -/
  scope : Nat := 0
  dbgLeft : Nat := 0
  tlog : Nat := 0
  h : SecPort := {}
  s : SecPort := {}
  /-- Accepted posts that wait, in the order of acceptance: true is port S (R499). -/
  waits : List Bool := []
  /-- Zeroisation in progress (R502), and DESTROY's part of it. -/
  zeroing : Bool := false
  handles : Tab (Option Handle) := []
  /-- Requests the DRBG has served: each draws fresh bytes. -/
  drbg : Nat := 0
  /-- OTP contents (R493). -/
  otp : Mem := {}
  /-- Key generations whose pair is still in key RAM, by channel (R495, R496). -/
  keyRam : Tab Nat := []
  deriving DecidableEq, Repr
/-- What leaves the device during a command (the model's own record of it, emptied when the next command begins). -/
inductive Out where
  /-- The answer to the command's read or access. -/
  | answer (r : Resp)
  /-- A posted write to host memory (R262). -/
  | hostWrite (addr : Nat) (data : List Byte)
  /-- A message-signalled interrupt: its vector, address and data (R431). -/
  | msix (vector addr : Nat) (data : Word)
  /-- A completion to the host: 0 Successful, 1 Unsupported Request, 2 Completer Abort; its data and the poisoned words
  (R427). -/
  | completion (status : Nat) (data : List Byte) (bad : List Nat)
  /-- An error message to the root complex: 0 correctable, 1 non-fatal, 2 fatal (R433). -/
  | errorMessage (kind : Nat)
  /-- A frame that a MAC transmits, with its FCS (R438). -/
  | frame (mac : Nat) (data : List Byte)
  /-- Bytes on the UART and SMBus, and a command on the xSPI port (R463). -/
  | uart (b : Byte)
  | smbus (addr rlen : Nat) (data : List Byte)
  | xspi (cmd addr len : Word) (data : List Word)
  /-- A flit on a scarf port with its link word (R394). -/
  | flit (port : Nat) (f : Flit) (l : LinkWord)
  deriving DecidableEq, Repr

/-! ## Stops and the whole state -/

/-- The ways a step can stop the machine. None of the commands of this device stops it: every command has an effect,
or leaves the state as it is. The one constructor names what a model without memory for a region would need. -/
inductive Fault where
  /-- Raised by no command; safe. -/
  | none_
  deriving DecidableEq, Repr

/-- The ways a command can be refused. -/
inductive Refusal where
  /-- A command with no meaning yet, by its mnemonic: raised by an arm of `exec` alone; safe. -/
  | notModelled (mnemonic : String)
  deriving DecidableEq, Repr

/-- The state of the device. -/
structure State where
  /-- Commands waiting, first in first out. -/
  pending : List Instr := []
  hw : Hw := {}
  /-- Free values the device has drawn, and memories it has called unspecified since reset. -/
  free : Nat := 0
  gens : Nat := 1000
  regs : RegFile := {}
  rst : Rst := {}
  /-- Bays 0–255, and the sill core at index 256. -/
  bays : Tab Bay := []
  stg : Staging := {}
  ddr : Ddr := {}
  scr : Scribe := {}
  qm : Qm := {}
  scf : Scarf := {}
  /-- Work left in the command in progress; empty between commands. -/
  work : List Work := []
  bg : Bg := {}
  rsu : Rsu := {}
  hb : Hb := {}
  macs : Tab Mac := []
  mx : Mx := {}
  sec : Sec := {}
  /-- What the command in progress, or the last one, sent out of the device. -/
  out : List Out := []
  deriving DecidableEq, Repr

/-- R546–R550: the capability list of the part that `Hw` describes, as the device builds it at the exit from reset.
DESIGN CHOICE, log entry 4. -/
def capWords : Tab Word := [
  (0x100, 0x10001#32), (0x104, 0x110#32), (0x108, 0xcb07256#32), (0x110, 0x10002#32),
  (0x114, 0x120#32), (0x118, 0x10ffff#32), (0x120, 0x10003#32), (0x124, 0x130#32),
  (0x128, 0x10100fff#32), (0x130, 0x10004#32), (0x134, 0x140#32), (0x138, 0x10004c0#32),
  (0x140, 0x10005#32), (0x144, 0x150#32), (0x148, 0x10010000#32), (0x14c, 0xff08#32),
  (0x150, 0x10006#32), (0x154, 0x160#32), (0x158, 0x40144000#32), (0x160, 0x10010#32),
  (0x164, 0x170#32), (0x168, 0x802ffff#32), (0x170, 0x10011#32), (0x174, 0x180#32),
  (0x178, 0x2004ff#32), (0x180, 0x10012#32), (0x184, 0x190#32), (0x188, 0x7ff0105#32),
  (0x190, 0x10013#32), (0x194, 0x1a0#32), (0x198, 0x4003#32), (0x1a0, 0x10020#32),
  (0x1a4, 0x1b0#32), (0x1a8, 0x2000080#32), (0x1ac, 0x10#32), (0x1b0, 0x10021#32),
  (0x1b8, 0x200803#32)]

/-- The device right after reset: the exit from a reset of POR reach has just completed (R470, R480). PD_STG, PD_HOST,
PD_SEC and PD_MGMT are on and every other domain is off; the capability list is built; RST_LAST shows POR (R488); the
sill core is about to fetch its first bundle from the boot ROM (R457); the BOOT_OK window runs (R475). Everything else
holds the value its own default names. DESIGN CHOICE, log entries 1, 3, 4. -/
def State.reset : State :=
  { regs := { words := capWords ++ [(0x10004, 0x107#32)] },
    rst := { dom := [(16, 1), (20, 1), (21, 1), (22, 1)] } }

end Sys2Proof.Machine
end

