-- ==== Sys2Proof/Machine/Regs.lean ====
section
/-!
DEFINITION. The register file and the peg (R37–R63): reading and writing registers by their access type, sequence-clear
events, counters, shadows; and the named reads and writes of the device's banks, channels, bays and domains.
-/
namespace Sys2Proof.Machine

/-! ## Fresh parts of the state -/

/-- A bay nothing has written: its stores' contents are unspecified since power was applied (R481). DESIGN CHOICE, log
entries 3, 7. -/
def Bay.fresh (k : Nat) : Bay :=
  if k = 256 then
    { id := k, sill := true, state := 3, scratch := { gen := 456 },
      ctx := { priv := 2, mask := 7 }, gp := [(63, 0x20080000#32)] }
  else { id := k, scratch := { gen := 200 + k }, istore := { gen := 500 + k } }

/-- A staging bank nothing has written. DESIGN CHOICE, log entries 3, 7. -/
def Bank.fresh (n : Nat) : Bank := { mem := { gen := 2 + n } }

/-! ## Named parts -/

/-- Bay k; 256 is the sill core. -/
def State.bay (s : State) (k : Nat) : Bay := tget Bay.fresh s.bays k

/-- Replace bay k. -/
def State.setBay (s : State) (k : Nat) (b : Bay) : State := { s with bays := tset Bay.fresh s.bays k b }

/-- Change bay k. -/
def State.onBay (s : State) (k : Nat) (f : Bay → Bay) : State := s.setBay k (f (s.bay k))

/-- Staging bank n. -/
def State.bank (s : State) (n : Nat) : Bank := tget Bank.fresh s.stg.banks n

/-- Replace staging bank n. -/
def State.setBank (s : State) (n : Nat) (x : Bank) : State :=
  { s with stg := { s.stg with banks := tset Bank.fresh s.stg.banks n x } }

/-- DDR4 channel c. -/
def State.chan (s : State) (c : Nat) : Chan := tgetD {} s.ddr.chans c

/-- Replace channel c. -/
def State.setChan (s : State) (c : Nat) (x : Chan) : State :=
  { s with ddr := { s.ddr with chans := tsetD {} s.ddr.chans c x } }

/-- Queue q. -/
def State.queue (s : State) (q : Nat) : Queue := tgetD {} s.qm.queues q

/-- Replace queue q. -/
def State.setQueue (s : State) (q : Nat) (x : Queue) : State :=
  { s with qm := { s.qm with queues := tsetD {} s.qm.queues q x } }

/-- State of power domain d, coded as R488 codes it. -/
def State.dom (s : State) (d : Nat) : Nat := tgetD 0 s.rst.dom d

/-- Is domain d on? -/
def State.on (s : State) (d : Nat) : Bool := decide (s.dom d = 1)

/-- R476: do the staging banks, the queue manager, the scribe and the raising unit run: PD_STG is on and the device is
not in shoring mode? -/
def State.stgOn (s : State) : Bool := s.on 16 && !s.rst.shored

/-- Set the state of domain d. -/
def State.setDom (s : State) (d v : Nat) : State := { s with rst := { s.rst with dom := tsetD 0 s.rst.dom d v } }

/-- R4–R6: is bent n present? -/
def State.bentHere (s : State) (n : Nat) : Bool := decide (n < 16) && decide (s.hw.bents / 2 ^ n % 2 = 1)

/-- R5: is DDR4 channel c present? -/
def Hw.chanHere (h : Hw) (c : Nat) : Bool :=
  decide (c < 8) &&
    (if h.part = 0x7256 then true else if h.part = 0x7192 then decide (c % 4 ≠ 3) else decide (c % 4 < 2))

/-- R5: is scarf port p present? -/
def Hw.portHere (h : Hw) (p : Nat) : Bool :=
  decide (p < if h.part = 0x7256 then 8 else if h.part = 0x7192 then 6 else 4)

/-- R4: are the Ethernet MACs, FMA32 and inline encryption present? -/
def Hw.full (h : Hw) : Bool := decide (h.part ≠ 0x7128)

/-- The domain of DDR4 channel c (R301). -/
def chanDom (c : Nat) : Nat := if c < 4 then 17 else 18

/-- Draw a free value for the device. DESIGN CHOICE, log entry 2. -/
def State.draw (s : State) : State × Word := ({ s with free := s.free + 1 }, Config.freeWord 300 s.free)

/-- A new generation of unspecified memory contents. DESIGN CHOICE, log entry 2. -/
def State.newGen (s : State) : State × Nat := ({ s with gens := s.gens + 1 }, s.gens)

/-- Send something out of the device. -/
def State.emit (s : State) (o : Out) : State := { s with out := s.out ++ [o] }

/-! ## Words, counters and sequence-clear registers -/

/-- The stored word of the register at a: the value last written or its reset value (R37). -/
def State.reg (s : State) (a : Nat) : Word := tget regReset s.regs.words a

/-- Store a word in the register at a. -/
def State.setReg (s : State) (a : Nat) (v : Word) : State :=
  { s with regs := { s.regs with words := tset regReset s.regs.words a v } }

/-- A sequence-clear register. -/
def State.sq (s : State) (a : Nat) : Sq := tgetD {} s.regs.sqs a

/-- Replace a sequence-clear register. -/
def State.setSq (s : State) (a : Nat) (q : Sq) : State :=
  { s with regs := { s.regs with sqs := tsetD {} s.regs.sqs a q } }

/-- R52: an event of bit i. -/
def State.event (s : State) (a i : Nat) : State := s.setSq a ((s.sq a).event i)

/-- A 64-bit counter, by the offset of its low word (R57). -/
def State.count (s : State) (a : Nat) : Nat := tgetD 0 s.regs.cnts a

/-- Set a 64-bit counter. -/
def State.setCount (s : State) (a n : Nat) : State :=
  { s with regs := { s.regs with cnts := tsetD 0 s.regs.cnts a (n % 2 ^ 64) } }

/-- R58: a counter counts one, wrapping at 2^64. -/
def State.bump (s : State) (a : Nat) : State := s.setCount a (s.count a + 1)

/-! ## Writes by access type (R37) -/

/-- R37, RW: the bits under the mask take the written value. -/
def State.writeRw (s : State) (a mask : Nat) (v : Word) : State :=
  s.setReg a ((s.reg a &&& ~~~ wd mask) ||| (v &&& wd mask))

/-- R37, R41, MW: bit n of 15:0 takes the written bit where mask bit n + 16 is 1. -/
def mwMerge (old v : Word) : Word :=
  let m := v >>> 16
  (old &&& ~~~ m &&& 0xFFFF#32) ||| (v &&& m &&& 0xFFFF#32)

/-- R37, MW. -/
def State.writeMw (s : State) (a : Nat) (v : Word) : State := s.setReg a (mwMerge (s.reg a) v)

/-- R37, R44, PG: the write goes to the shadow and its group has one pending. -/
def State.writePg (s : State) (a mask : Nat) (v : Word) : State :=
  { s with regs := { s.regs with shadow := tsetD none s.regs.shadow a (some (v &&& wd mask)) } }

/-- R53, SQ: bits 31:24 name the SEQ up to which events are cleared. -/
def State.writeSq (s : State) (a : Nat) (v : Word) : State := s.setSq a ((s.sq a).write (fld v 24 8))

/-- A write by the table's access type. -/
def State.writeKind (s : State) (a : Nat) (v : Word) : State :=
  match regRow a with
  | none => s
  | some r =>
    match r.kind with
    | .rw => s.writeRw a r.mask v
    | .pg => s.writePg a r.mask v
    | .mw => s.writeMw a v
    | .sq => s.writeSq a v
    | .cnt => s
    | .ro => s

/-- R37, R57: a read by the table's access type: stored words whole, SQ registers with SEQ and LAP, either word of a
counter. -/
def State.readKind (s : State) (a : Nat) : Word :=
  match regRow a with
  | some r =>
    match r.kind with
    | .sq => (s.sq a).read
    | .cnt => wd (s.count a)
    | _ => s.reg a
  | none =>
    match regRow (a - 4) with
    | some r => if 4 ≤ a ∧ r.kind = .cnt then wd (s.count (a - 4) / 2 ^ 32) else 0#32
    | none => 0#32

/-! ## The peg (R42–R49) -/

/-- Peg group of the PG register at a (R42). -/
def RegFile.group (r : RegFile) (a : Nat) : Nat := tgetD 0 r.groups a

/-- R44: bit n of PENDING: a shadow of group n was written since the group's last peg was captured. -/
def RegFile.pendingGroup (r : RegFile) (n : Nat) : Bool :=
  r.shadow.any fun e => e.2.isSome && decide (r.group e.1 = n)

/-- DEV_PEG_STAT (R44). -/
def RegFile.pegStat (r : RegFile) : Word :=
  wd (nbit r.busy * 65536 +
    ((List.range 16).map fun n => nbit (r.pendingGroup n) * 2 ^ n).foldl (· + ·) 0)

/-- Does the peg of `groups` name the group of the register at a? -/
def RegFile.named (r : RegFile) (groups a : Nat) : Bool := decide (groups / 2 ^ r.group a % 2 = 1)

/-- R45, R48: the shadows of the named groups are captured. `down` tells which registers lie in a block in reset or
isolation: such a shadow is lost. -/
def RegFile.capture (r : RegFile) (down : Nat → Bool) (groups : Nat) : RegFile :=
  { r with
    busy := true,
    pegging := groups,
    captured := r.shadow.filterMap fun e =>
      if r.named groups e.1 && !down e.1 then e.2.map fun v => (e.1, v) else none,
    shadow := r.shadow.filter fun e => !r.named groups e.1 }

/-- R48: is a written shadow of a named group lost? -/
def RegFile.skips (r : RegFile) (down : Nat → Bool) (groups : Nat) : Bool :=
  r.shadow.any fun e => e.2.isSome && r.named groups e.1 && down e.1

/-- R43, R45: a DEV_PEG write is accepted: its groups are captured, and the pending descriptor writes with the group of
QM_DPEG (R271). DEDUCED, log entry 13. -/
def State.pegTaken (s : State) (down : Nat → Bool) (groups : Nat) : State :=
  let s1 := if s.regs.skips down groups then s.event 0x34 1 else s
  let n := if s1.regs.named groups 0x30030 && !down 0x30030 then s1.qm.pend.length else 0
  { s1 with regs := s1.regs.capture down groups, qm := { s1.qm with pegPend := n } }

/-- R43, R45, R47: a write to DEV_PEG: no effect for zero; held while BUSY, or behind a write that is held still; else
accepted. -/
def State.peg (s : State) (down : Nat → Bool) (groups : Nat) : State :=
  if groups = 0 then s
  else if s.regs.busy || !s.regs.held.isEmpty then { s with regs := { s.regs with held := s.regs.held ++ [wd groups] } }
  else s.pegTaken down groups

/-- R45, R48: the captured values are applied, but in a block that has gone into reset meanwhile, and BUSY clears.
DEDUCED, log entry 13. -/
def State.pegWords (s : State) (down : Nat → Bool) : State :=
  { s with regs := { s.regs with
      words := (s.regs.captured.filter fun e => !down e.1).foldl (fun t e => tset regReset t e.1 e.2) s.regs.words,
      captured := [], busy := false, pegging := 0 } }

/-- R47: the oldest held DEV_PEG write is accepted when BUSY has cleared. -/
def State.pegDeferred (s : State) (down : Nat → Bool) : State :=
  if s.regs.busy then s
  else match s.regs.held with
    | [] => s
    | g :: t => ({ s with regs := { s.regs with held := t } }).pegTaken down (fld g 0 16)

end Sys2Proof.Machine
end

