-- ==== Sys2Proof/Machine/Records.lean ====
section
/-!
DEFINITION. Error and telemetry records (R510–R516): what an event's record holds, the serialiser that keeps it until it
is handed on, the limit on CORRECTED records, and lost events.
-/
namespace Sys2Proof.Machine

/-- R512: device time, 0 while PD_SCARF is off. -/
def State.deviceTime (s : State) : Nat := if s.on 19 then s.scf.time / 65536 % 2 ^ 64 else 0

/-- What a record says beyond its sequence number and times. -/
structure Event where
  /-- RTYPE and block codes of R514, CLASS of R35. -/
  rtype : Nat := 1
  cls : Nat := 0
  block : Nat := 0
  inst : Nat := 0
  addr : Nat := 0
  w8 : Word := 0
  w9 : Word := 0
  deriving DecidableEq, Repr

/-- R512: the sixteen words of a record; `n` is word 10. -/
def State.recordWords (s : State) (e : Event) (n : Nat) : List Word :=
  [wd (4 + e.rtype % 256 * 2 ^ 8 + (if e.rtype = 1 then e.cls % 8 else 0) * 2 ^ 16), wd s.bg.rseq, wd s.qm.us,
   wd s.deviceTime, wd (s.deviceTime / 2 ^ 32), wd (e.block % 256 + e.inst % 256 * 256),
   wd e.addr, wd (e.addr / 2 ^ 32), e.w8, e.w9, wd n, 0#32, 0#32, 0#32, 0#32, 0#32]

/-- A record takes the next RSEQ and its place in the serialiser (R510). -/
def State.holdRecord (s : State) (ws : List Word) : State :=
  { s with bg := { s.bg with held := s.bg.held ++ [ws], rseq := (s.bg.rseq + 1) % 2 ^ 32 } }

/-- R510: an event that finds the serialiser full is lost. DEDUCED, log entry 65. -/
def State.loseRecord (s : State) : State :=
  let s1 := (s.bump 0x90018).event 0x90010 5
  { s1 with bg := { s1.bg with lost := s1.bg.lost + 1 } }

/-- R510, R515: an event's record is accepted; a LOST record precedes it when events were lost. DEDUCED, log entry 65.
-/
def State.accept (s : State) (ws : State → List Word) (rtype cls : Nat) : State :=
  if 64 < s.bg.held.length + (if s.bg.lost = 0 then 1 else 2) then s.loseRecord
  else
    let s1 := if s.bg.lost = 0 then s
      else
        let t := s.holdRecord (s.recordWords { rtype := 7 } s.bg.lost)
        { t with bg := { t.bg with lost := 0 } }
    let s2 := s1.holdRecord (ws s1)
    if rtype = 1 then (s2.bump (0x90020 + 8 * (cls - 1))).event 0x90010 (cls - 1) else s2

/-- The key of a record's source in the CORRECTED limit's tables. -/
def Event.source (e : Event) : Nat := e.block * 256 + e.inst

/-- R516: counts of CORRECTED records start again with each millisecond of the queue manager's count. DEDUCED, log
entry 29. -/
def State.ceTick (s : State) : State :=
  if s.qm.us / 1000 = s.bg.ceMs then s else { s with bg := { s.bg with ce := [], ceMs := s.qm.us / 1000 } }

/-- R510, R515, R516: an event that raises a record. DEDUCED, log entries 29, 65. -/
def State.record (s0 : State) (e : Event) : State :=
  let s := s0.ceTick
  let lim := fld (s.reg 0x90000) 0 8
  let n := tgetD 0 s.bg.ce e.source
  let k := tgetD 0 s.bg.suppressed e.source
  if e.rtype = 1 ∧ e.cls = 1 then
    if lim ≠ 0 ∧ lim ≤ n then
      let t := s.bump 0x90020
      { t with bg := { t.bg with suppressed := tsetD 0 t.bg.suppressed e.source (k + 1) } }
    else
      let t := s.accept (fun x => x.recordWords e k) 1 1
      { t with bg := { t.bg with ce := tsetD 0 t.bg.ce e.source (n + 1),
                                 suppressed := tsetD 0 t.bg.suppressed e.source 0 } }
  else s.accept (fun x => x.recordWords e 0) e.rtype e.cls

/-- R514: the PERIODIC record. -/
def State.periodicWords (s : State) : List Word :=
  (s.recordWords { rtype := 5 } 0).take 6 ++ ((List.range 6).map fun i => s.reg (0x10080 + 4 * i)) ++
    [s.reg 0x100A0, s.reg 0x100A4, 0#32, 0#32]

/-- A CFG_DRIFT, DEFERRED or other error record of a block (R35). -/
def State.err (s : State) (cls block inst addr : Nat) (w8 : Word) : State :=
  s.record { cls := cls, block := block, inst := inst, addr := addr, w8 := w8 }

end Sys2Proof.Machine
end

