-- ==== Sys2Proof/Machine/Staging.lean ====
section
/-!
DEFINITION. The staging store (R283–R299): access by owner, check bits, retention, ownership writes, the March engines;
and the same for the bays' own stores as outside agents and the scrubbers see them (R275, R280, R300, R508).
-/
namespace Sys2Proof.Machine

/-! ## Who may reach a bank -/

/-- R287: may the agent reach bank `n` of this owner kind? `log` tells that the bank is the scribe's log bank. A March
engine reaches the banks of its own group. -/
def ownerAllows (n kind obay : Nat) (log : Bool) (ag : Agent) (write : Bool) : Bool :=
  match kind with
  | 1 => decide (ag = .queueManager)
  | 2 => match ag with
    | .scribe => true
    | .bay _ => true
    | _ => false
  | 3 => match ag with
    | .trace b => decide (b = obay)
    | .sill => !write
    | .host => !write
    | _ => false
  | 4 => match ag with
    | .sill => true
    | .raisingUnit => true
    | .host => true
    | .scribe => log
    | _ => false
  | 5 => match ag with
    | .march g => decide (g = n / 12)
    | _ => false
  | _ => false

/-- R353: is bank n the decision log's? -/
def State.logBank (s : State) (n : Nat) : Bool := decide (fld (s.reg 0x400C0) 0 8 = n)

/-- R288: does an access of bay b that is still outstanding go to bank n? -/
def Bay.usesBank (b : Bay) (n : Nat) : Bool :=
  b.pipe.flights.any (fun (f : Flight) => match f.out with
    | some o => decide (o.bank = some n ∨ o.leaf = some n) && o.readable.isNone
    | none => false) || (!b.dbg.trcPath.isEmpty && decide (b.dbg.trcBank = n))

/-- STG_OWNn.BUSY (R288): an access to the bank is outstanding, or a March test runs on it. -/
def State.bankBusy (s : State) (n : Nat) : Bool :=
  s.bays.any (fun (e : Nat × Bay) => e.2.usesBank n) ||
    (match tgetD none s.stg.tests (n / 12) with
     | some t => decide (n / 12 * 12 + t.bank = n)
     | none => false)

/-- The bank of a page map entry in staging (R329). -/
def l1Bank (w : Word) : Option Nat := if fld w 30 2 = 1 then some (fld w 0 8) else none

/-- STG_OWNn.RESIDENT: the scribe holds a page, or reserves a place, in the bank (R288, R338). -/
def State.resident (s : State) (n : Nat) : Bool :=
  s.scr.pages.any (fun (e : Nat × PageEnt) => e.2.live && decide (l1Bank e.2.w0 = some n)) ||
    s.scr.moves.any fun (m : PageMove) => decide (l1Bank m.dst = some n)

/-- STG_OWNn as read (R288). -/
def State.ownWord (s : State) (n : Nat) : Word :=
  let x := s.bank n
  wd (nbit (s.bankBusy n) * 2 ^ 31 + nbit x.awake * 2 ^ 30 + nbit x.retain * 2 ^ 29 + nbit (s.resident n) * 2 ^ 28
    + x.kind % 8 * 2 ^ 16 + (if x.kind = 3 then x.bay % 256 else 0))

/-- R292: event i of STG_STAT, and STG_EVT with its bank. -/
def State.stgEvent (s : State) (i n : Nat) : State :=
  (s.event 0xB0300 i).setReg 0xB0304 (wd (n % 256 * 65536 + (i + 1)))

/-! ## Check bits (R293) -/

/-- Address of word w of bank n, as records name it. -/
def stgAddr (n w : Nat) : Nat := n * 0x40000 + 4 * w

/-- A word of a bank is read by an agent, by scrub or to merge a partial write: whether it is poisoned. -/
def State.stgWord (s : State) (n w : Nat) : State × Bool :=
  let x := s.bank n
  match markOf x.marks w with
  | 0 => (s, false)
  | 1 =>
    let s1 := (s.setBank n { x with marks := setMark x.marks w 0 }).stgEvent 3 n
    (s1.err 1 2 n (stgAddr n w) (s1.sq 0xB0300).read, false)
  | 2 =>
    let s1 := (s.setBank n { x with marks := setMark x.marks w 3 }).stgEvent 4 n
    (s1.err 2 2 n (stgAddr n w) (s1.sq 0xB0300).read, true)
  | _ => (s, true)

/-- Words of a bank are read: the poisoned ones, numbered from `base`. -/
def State.stgWords (s : State) (n base : Nat) : List Nat → State × List Nat
  | [] => (s, [])
  | w :: t =>
    let r := s.stgWord n w
    let q := r.1.stgWords n base t
    (q.1, if r.2 then (w - base) :: q.2 else q.2)

/-- The words that bytes a to a + n − 1 of a bank lie in. -/
def wordSpan (a n : Nat) : List Nat := (List.range ((a + n + 3) / 4 - a / 4)).map fun i => a / 4 + i

/-- Does a write of n bytes at a cover word w whole? -/
def wholeWord (a n w : Nat) : Bool := decide (a ≤ 4 * w) && decide (4 * w + 4 ≤ a + n)

/-- Bytes are written to a bank, already allowed: whole words get fresh check bits, parts merge. `bad` names, from the
first word written, the words written as poisoned. -/
def State.stgPut (s : State) (n a : Nat) (data : List Byte) (bad : List Nat) : State :=
  let ws := wordSpan a data.length
  let s1 := (s.stgWords n 0 (ws.filter fun w => !wholeWord a data.length w)).1
  let x := s1.bank n
  s1.setBank n { x with
    mem := x.mem.putBytes a data,
    marks := ws.foldl (fun m w =>
      if w - a / 4 ∈ bad then setMark m w 3
      else if wholeWord a data.length w then setMark m w 0 else m) x.marks }

/-- Bytes of a bank are read, already allowed. -/
def State.stgGet (s : State) (n a len : Nat) : State × Resp :=
  let r := s.stgWords n (a / 4) (wordSpan a len)
  (r.1, { data := (s.bank n).mem.bytes a len, bad := r.2 })

/-- R375: is the bank locked, since it holds the plan of the raise in progress? -/
def State.planLocks (s : State) (n : Nat) : Bool :=
  s.rsu.busy && decide (s.rsu.src / 0x40000 ≤ n) && decide (n * 0x40000 < s.rsu.src + s.rsu.len)

/-- Why a bank refuses an agent: retention first, then ownership (R287, R294, R375). -/
def State.stgRefuses (s : State) (n : Nat) (ag : Agent) (write : Bool) : Option Err :=
  let x := s.bank n
  if !x.awake then some .retained
  else if write && decide (ag ≠ .raisingUnit) && s.planLocks n then some .notOwner
  else if ownerAllows n x.ownKind x.ownBay (s.logBank n) ag write then none
  else some .notOwner

/-- A refusal is recorded (R287, R294). -/
def State.stgRefused (s : State) (n : Nat) (e : Err) : State :=
  match e with
  | .retained => s.stgEvent 2 n
  | _ => s.stgEvent 1 n

/-- R283, R287: an agent's read at a staging address. DEDUCED, log entry 35. -/
def State.stgRead (s : State) (ag : Agent) (a len : Nat) : State × Resp :=
  let n := a / 0x40000
  if 192 ≤ n ∨ !s.stgOn then (s, { data := zeros len, err := some .unmapped })
  else match s.stgRefuses n ag false with
    | some e => (s.stgRefused n e, { data := zeros len, err := some e })
    | none => s.stgGet n (a % 0x40000) len

/-- R283, R287: an agent's write at a staging address. DEDUCED, log entry 35. -/
def State.stgWrite (s : State) (ag : Agent) (a : Nat) (data : List Byte) (bad : List Nat) : State × Resp :=
  let n := a / 0x40000
  if 192 ≤ n ∨ !s.stgOn then (s, { err := some .unmapped })
  else match s.stgRefuses n ag true with
    | some e => (s.stgRefused n e, { err := some e })
    | none => (s.stgPut n (a % 0x40000) data bad, {})

/-- Upsets strike words of a bank: each is a word of the bank and the error it now holds. PRESUMED, log entry 37. -/
def State.stgUpset (s : State) (n : Nat) (u : List (Nat × Nat)) : State :=
  let x := s.bank n
  s.setBank n { x with marks := u.foldl (fun m e => setMark m (e.1 % 65536) (e.2 % 3)) x.marks }

/-! ## Ownership and retention (R288–R294) -/

/-- R289: is a write of v to STG_OWNn refused? DEDUCED, log entry 41. -/
def State.ownRefused (s : State) (n : Nat) (v : Word) : Bool :=
  let x := s.bank n
  let kind := fld v 16 3
  let bay := if kind = 3 then fld v 0 8 else 0
  let own := decide (kind ≠ x.kind) || (decide (kind = 3) && decide (bay ≠ x.bay))
  let ret := bitAt v 29
  (own && (s.bankBusy n || x.retain || s.resident n)) ||
  (decide (kind ≠ x.kind) && (decide (kind = 1) || decide (x.kind = 1))) ||
  decide (6 ≤ kind) ||
  (decide (kind = 3) && (!s.bentHere (bay / 16) || decide (bay ∈ s.bg.retired))) ||
  (ret && !x.retain && !((decide (x.kind = 0) || decide (x.kind = 4)) && !s.bankBusy n)) ||
  (own && (ret != x.retain))

/-- R289, R290, R294: a write to STG_OWNn is accepted whole or refused whole. DEDUCED, log entry 35. -/
def State.ownWrite (s : State) (n : Nat) (v : Word) : State :=
  if 192 ≤ n then s
  else if s.ownRefused n v then s.stgEvent 0 n
  else
    let x := s.bank n
    let kind := fld v 16 3
    let ret := bitAt v 29
    s.setBank n { x with
      kind := kind,
      bay := if kind = 3 then fld v 0 8 else 0,
      pending := true,
      retain := ret,
      awake := x.awake && !ret,
      waking := !ret && !x.awake }

/-- R290: an accepted change is applied at the bank. Contents stay. DEDUCED, log entry 35. -/
def State.ownApply (s : State) (n : Nat) : State :=
  let x := s.bank n
  if x.pending then s.setBank n { x with ownKind := x.kind, ownBay := x.bay, pending := false } else s

/-- R294: AWAKE rises 2 µs after RETAIN was written 0. -/
def State.bankWake (s : State) (n : Nat) : State :=
  let x := s.bank n
  if x.waking && !x.retain then s.setBank n { x with awake := true, waking := false } else s

/-! ## March tests of staging (R295–R299) -/

/-- A memory whose bytes are all zero. -/
def Mem.allZero : Mem := {}

/-- R298, R299: a write to STG_MCTLg. -/
def State.marchWrite (s : State) (g : Nat) (v : Word) : State :=
  if 16 ≤ g then s else
  let s1 := s.writeRw (0xB0400 + 0x10 * g) 0x1F0 v
  if !bitAt v 0 || (tgetD none s.stg.tests g).isSome then s1
  else
    let k := fld v 4 4
    let n := 12 * g + k
    let x := s1.bank n
    let ok := decide (k < 12) && decide (x.ownKind = 5) && x.awake && !s1.bankBusy n
    let s2 := s1.setReg (0xB0408 + 0x10 * g) 0#32
    if ok then
      { s2.setReg (0xB0404 + 0x10 * g) 0#32 with
        stg := { s2.stg with tests := tsetD none s2.stg.tests g (some { bank := k, preserve := bitAt v 8 }) } }
    else s2.setReg (0xB0404 + 0x10 * g) (wd (3 * 65536))

/-- Words the spec leaves unspecified after a failed preserving test: data and check bits of each take free values, and
the check bits may be good, hold a single-bit or a double-bit error, or be the poison code where the store has one. DESIGN
CHOICE, log entry 2. -/
def State.scrambleWords (s : State) (codes : Nat) (m : Mem) (k : Marks) : List Nat → State × Mem × Marks
  | [] => (s, m, k)
  | w :: t =>
    let d := s.draw
    let e := d.1.draw
    e.1.scrambleWords codes (m.putWord (4 * w) d.2) (setMark k w (e.2.toNat % codes)) t

/-- STG_MSTATg and BAY_MSTAT carry a count that saturates. -/
def sat16 (n : Nat) : Nat := if 65535 ≤ n then 65535 else n

/-- R296, R299: the test of group g ends; `fails` counts failing reads, `lines` are the failing lines, first first. -/
def State.marchDone (s : State) (g fails : Nat) (lines : List Nat) : State :=
  match tgetD none s.stg.tests g with
  | none => s
  | some t =>
    let n := 12 * g + t.bank
    let s1 := { s with stg := { s.stg with tests := tsetD none s.stg.tests g none } }
    let x := s1.bank n
    let res := if fails = 0 then 1 else 2
    if t.preserve then
      let d := s1.scrambleWords 4 x.mem x.marks
        (if fails = 0 then [] else lines.flatMap fun l => (List.range 8).map fun i => 8 * (l % 8192) + i)
      (d.1.setBank n { x with mem := d.2.1, marks := d.2.2 }).setReg (0xB0404 + 0x10 * g) (wd (res * 65536))
    else
      let s2 := (s1.setBank n { x with mem := Mem.allZero, marks := [] }).setReg (0xB0404 + 0x10 * g)
        (wd (res * 65536 + sat16 fails))
      match lines with
      | l :: _ => if fails = 0 then s2 else s2.setReg (0xB0408 + 0x10 * g) (wd (2 ^ 31 + l % 8192 * 32))
      | [] => s2

/-- STG_MSTATg as read. DEDUCED, log entry 35. -/
def State.marchStat (s : State) (g : Nat) : Word :=
  s.reg (0xB0404 + 0x10 * g) ||| (if (tgetD none s.stg.tests g).isSome then 0x80000000#32 else 0#32)

/-! ## Staging scrub (R509) -/

/-- R509: the scrubber reads the next line of bank n; banks in retention or under test are skipped. DEDUCED, log entry
36. -/
def State.stgScrub (s : State) (n : Nat) (u : List (Nat × Nat)) : State :=
  let under : Bool := match tgetD none s.stg.tests (n / 12) with
    | some t => decide (n / 12 * 12 + t.bank = n)
    | none => false
  if decide (192 ≤ n) || !(s.bank n).awake || under then s
  else
    let l := tgetD 0 s.bg.stgScrub n
    let s1 := ((s.stgUpset n u).stgWords n 0 ((List.range 8).map fun i => 8 * l + i)).1
    { s1 with bg := { s1.bg with stgScrub := tsetD 0 s1.bg.stgScrub n ((l + 1) % 8192) } }

/-! ## A bay's stores from outside (R275, R280, R300, R508) -/

/-- Where a scratch word lies: true in an L0 page frame (R280). -/
def Bay.inFrame (b : Bay) (a : Nat) : Bool := decide (a < b.scrLo)

/-- R280: an outside reader or scrub meets a double-bit error outside the frames: STORE_UE, and the bay goes down. A bay
that is already down, off or has no running program keeps its state. -/
def Bay.storeUe (b : Bay) (a : Nat) : Bay :=
  if b.state = 3 ∨ b.state = 2 ∨ b.state = 1 then b.goDown 7 0x20 (wd a) b.pipe.pc a else b

/-- R275, R280, R554: an outside agent reads the word of scratch at a: its value, whether it is poisoned. -/
def Bay.outRead (b : Bay) (a : Nat) : Bay × Word × Bool :=
  let r := b.scrRead (a / 4 * 4) (b.inFrame a)
  if r.ue then (b.storeUe (a / 4 * 4), b.scrWord (a / 4 * 4), true) else (r.bay, r.val, r.poison)

/-- R275, R281, R554: an outside agent writes the low n bytes of v at a, or a poisoned word. -/
def Bay.outWrite (b : Bay) (a n : Nat) (v : Word) (poison : Bool) : Bay :=
  if poison then
    { b with scratch := b.scratch.putNum a n v.toNat, smarks := setMark b.smarks (a / 4) 3 }
  else
    let r := b.scrStore a n v.toNat (b.inFrame a)
    if r.ue then b.storeUe (a / 4 * 4) else r.bay

/-- R275: n outside words need the port of a bay in RUN; while the bay is held they are served at once. `waited` tells that
the first has waited 16 cycles, so that the next cycle displaces an in-bay user. DESIGN CHOICE, log entry 69. -/
def Bay.claimPort (b : Bay) (n : Nat) (waited : Bool) : Bay :=
  if b.state = 3 ∧ !b.held then
    { b with pipe := { b.pipe with words := b.pipe.words + n, wordAge := if waited then 16 else b.pipe.wordAge } }
  else b

/-- An outside word is served (R275, R280, R554): what a read of it answers. The fault cell takes no outside write. -/
def Bay.outWord (b : Bay) (w : OutWord) : Bay × Option Resp :=
  if w.write then (if w.addr < fcBase then b.outWrite w.addr 4 w.val w.poison else b, none)
  else
    let r := b.outRead w.addr
    (r.1, some { data := toBytes 4 r.2.1.toNat, bad := if r.2.2 then [0] else [] })

/-- An outside word reaches bay b, and a read of it is answered. -/
def State.outWord (s : State) (b : Nat) (w : OutWord) : State :=
  let r := (s.bay b).outWord w
  match r.2 with
  | some p => (s.setBay b r.1).emit (.answer p)
  | none => s.setBay b r.1

/-- R280: a corrected word of scratch (array 0) or of the instruction store (array 1) is written back. -/
def Bay.writeBack (b : Bay) (array w : Nat) : Bay :=
  if array = 0 then
    match markOf b.smarks w with
    | 1 => { b with smarks := setMark b.smarks w 0 }
    | 2 => if b.inFrame (4 * w) then b else b.storeUe (4 * w)
    | _ => b
  else
    match markOf b.imarks w with
    | 1 => { b with imarks := setMark b.imarks w 0 }
    | 2 => b.storeUe (4 * w)
    | _ => b

/-- R508: one scrub read; position p counts the words of scratch, then those of the instruction store. DEDUCED, log
entry 36. -/
def Bay.scrub (b : Bay) (p : Nat) : Bay :=
  if p < 98304 then
    let r := b.scrRead (4 * p) (b.inFrame (4 * p))
    if r.ue then b.storeUe (4 * p) else r.bay
  else
    match markOf b.imarks (p - 98304) with
    | 1 => b.corrected 1 (4 * (p - 98304))
    | 2 => b.storeUe (4 * (p - 98304))
    | _ => b

/-- Upsets strike words of a bay's stores: array, word, error. PRESUMED, log entry 37. -/
def Bay.upset (b : Bay) (u : List (Nat × Nat × Nat)) : Bay :=
  u.foldl (fun c e =>
    if e.1 = 0 then { c with smarks := setMark c.smarks (e.2.1 % 98304) (e.2.2 % 3) }
    else { c with imarks := setMark c.imarks (e.2.1 % 16384) (e.2.2 % 3) }) b

/-- R508: the scrubber of bay k reads its next word, while the bay is in PLAN, RUN or DOWN. -/
def State.bayScrub (s : State) (k : Nat) (u : List (Nat × Nat × Nat)) : State :=
  let b := s.bay k
  if b.state = 0 ∨ b.state = 2 then s
  else
    let p := tgetD 0 s.bg.bayScrub k
    let s1 := s.setBay k ((b.upset u).scrub p)
    { s1 with bg := { s1.bg with bayScrub := tsetD 0 s1.bg.bayScrub k ((p + 1) % 114688) } }

/-- R298, R300: a write to BAY_MCTL of bay b. -/
def State.bayMarchWrite (s : State) (b : Nat) (v : Word) : State :=
  let a := 0xB1000 + 0x10 * b
  let s1 := s.writeRw a 0x130 v
  if !bitAt v 0 || (tgetD none s.stg.bayTests b).isSome then s1
  else
    let arr := fld v 4 2
    let s2 := s1.setReg (a + 8) 0#32
    if arr ≠ 3 ∧ (s1.bay b).state = 2 then
      let s3 := s2.setReg (a + 4) 0#32
      ({ s3 with
          stg := { s3.stg with
            bayTests := tsetD none s3.stg.bayTests b (some { bank := arr, preserve := bitAt v 8 }) } }).onBay b
        fun c => { c with march := true }
    else
      s2.setReg (a + 4) (wd ((if arr = 2 then 0 else 3) * 65536 + (if arr = 1 then 0 else 3) * 262144))

/-- R298: the outside words that waited for the end of the test are served, in order of arrival. -/
def State.serveWaiting (s : State) (b : Nat) : State :=
  (s.bay b).outq.foldl (fun t w => t.outWord b w) (s.onBay b fun c => { c with outq := [] })

/-- R296, R300: the test of bay b ends: failing reads of both arrays, failing words of scratch, failing lines of the
instruction store, and whether the first failing unit lies in the instruction store. DEDUCED, log entry 36. -/
def State.bayMarchDone (s : State) (b fails : Nat) (sw il : List Nat) (firstI : Bool) : State :=
  match tgetD none s.stg.bayTests b with
  | none => s
  | some t =>
    let a := 0xB1000 + 0x10 * b
    let s1 := ({ s with stg := { s.stg with bayTests := tsetD none s.stg.bayTests b none } }).onBay b
      fun c => { c with march := false }
    let doS := decide (t.bank ≠ 2)
    let doI := decide (t.bank ≠ 1)
    let sres := if !doS then 0 else if sw = [] then 1 else 2
    let ires := if !doI then 0 else if il = [] then 1 else 2
    if t.preserve then
      let ds := s1.scrambleWords 4 (s1.bay b).scratch (s1.bay b).smarks (if doS then sw.map (· % 98304) else [])
      let di := ds.1.scrambleWords 3 (s1.bay b).istore (s1.bay b).imarks
        (if doI then il.flatMap fun l => (List.range 4).map fun i => 4 * (l % 4096) + i else [])
      ((di.1.onBay b fun c => { c with scratch := ds.2.1, smarks := ds.2.2, istore := di.2.1, imarks := di.2.2 }).setReg
        (a + 4) (wd (sres * 65536 + ires * 262144))).serveWaiting b
    else
      let s2 := s1.onBay b fun c =>
        let c1 := if doS then { c with scratch := Mem.allZero, smarks := [] } else c
        if doI then { c1 with istore := Mem.allZero, imarks := [] } else c1
      let s3 := s2.setReg (a + 4) (wd (sres * 65536 + ires * 262144 + sat16 fails))
      let first : Option Nat := if firstI then il.head?.map fun l => 2 ^ 30 + l % 4096 * 16
        else sw.head?.map fun w => w % 98304 * 4
      (match first with
       | some x => s3.setReg (a + 8) (wd (2 ^ 31 + x))
       | none => s3).serveWaiting b

/-- BAY_MSTAT as read. -/
def State.bayMarchStat (s : State) (b : Nat) : Word :=
  s.reg (0xB1004 + 0x10 * b) ||| (if (tgetD none s.stg.bayTests b).isSome then 0x80000000#32 else 0#32)

/-! ## DEVICE_FATAL (R522) -/

/-- R522: a bay stops issuing and reads STATE = DOWN; its fault cell is not written. -/
def Bay.halt (b : Bay) : Bay :=
  if b.state = 0 then b
  else { b with
    state := 4,
    pipe := { b.chargeHold.pipe with flights := [], redirects := [], idle := 0, port := 0, waiting := false,
                                     fault := none, svcNow := none, ret := none, rep := none, hold := none },
    led := b.chargeHold.led }

/-- R522: every bay and the queue manager stop, then the record is sent. PRESUMED, log entry 37. -/
def State.fatal (s : State) (block inst addr : Nat) (w8 : Word) : State :=
  let s1 := { s with bays := s.bays.map (fun (e : Nat × Bay) => if e.1 = 256 then e else (e.1, e.2.halt)),
                     qm := { s.qm with stopped := true }, rst := { s.rst with fatal := true } }
  s1.err 4 block inst addr w8

end Sys2Proof.Machine
end

