-- ==== Sys2Proof/Machine/Ddr.lean ====
section
/-!
DEFINITION. The DDR4 subsystem (R301–R326): addresses and unmapped accesses, the write queue, ECC and poison, refresh
and scrub, calibration, training, self-refresh and the channel registers.
-/
namespace Sys2Proof.Machine

/-! ## Configuration and addresses (R302–R307) -/

/-- Base offset of channel c's registers (R326). -/
def memBase (c : Nat) : Nat := 0x60000 + 0x2000 * c

/-- Row bits (R306). PRESUMED, log entry 40. -/
def cfgRow (w : Word) : Nat := 16 + fld w 20 2

/-- Bytes of one rank (R306). PRESUMED, log entry 40. -/
def rankBytes (w : Word) : Nat := 2 ^ (cfgRow w + 17)

/-- Ranks of one DIMM: package ranks by logical ranks (R306). -/
def dimmRanks (w : Word) : Nat := (fld w 16 2 + 1) * 2 ^ fld w 12 2

/-- Bytes of one DIMM. PRESUMED, log entry 40. -/
def dimmBytes (w : Word) : Nat := rankBytes w * dimmRanks w

/-- R302, R303, R304, R323: does INIT refuse the fields of MEMc_CFG with FSTEP = 14? Device density follows from the
row bits and the width: 16 Gb x4 devices have 18 row bits, 8 Gb x8 devices 16. DEDUCED, log entry 38. -/
def cfgExcluded (w : Word) : Bool :=
  let typ := fld w 26 2
  let x8 := bitAt w 24
  let rowb := fld w 20 2
  let pr := fld w 16 2
  let lr := fld w 12 2
  decide (2 ≤ fld w 28 2) || decide (typ = 3) || decide (rowb = 3) ||
  (if x8 then decide (rowb = 2) else decide (rowb = 0)) ||
  (if typ = 2 then x8 || decide (2 ≤ pr) || decide (lr = 0) else decide (pr = 2) || decide (lr ≠ 0)) ||
  decide (2 ^ 38 < dimmBytes w) ||
  (decide (fld w 28 2 = 0) && bitAt w 25)

/-- MEMc_CFG of channel c. -/
def State.memCfg (s : State) (c : Nat) : Word := s.reg (memBase c)

/-- Channel of a device memory address (R305). -/
def chanOf (a : Nat) : Nat := a / 2 ^ 39 % 8

/-- Slot of a device memory address. -/
def slotOf (a : Nat) : Nat := a / 2 ^ 38 % 2

/-- Rank of an address of a channel: slot × 32 + index in the DIMM (R306). -/
def State.rankOf (s : State) (a : Nat) : Nat := slotOf a * 32 + a % 2 ^ 38 / rankBytes (s.memCfg (chanOf a))

/-- Is DIMM slot i populated, as MEMc_CFG says? -/
def slotHere (w : Word) (i : Nat) : Bool := decide (i = 0) || (decide (i = 1) && bitAt w 25)

/-- R307, R324, R325, R322: the error response of an access to a, if any. DEDUCED, log entry 39. -/
def State.ddrErr (s : State) (a : Nat) : Option Err :=
  let c := chanOf a
  let x := s.chan c
  if !s.hw.chanHere c then some .unmapped
  else if x.erased then some .isolated
  else match x.state with
    | 2 =>
      if !slotHere (s.memCfg c) (slotOf a) || decide (dimmBytes (s.memCfg c) ≤ a % 2 ^ 38) then some .unmapped else none
    | 4 => if s.on (chanDom c) then some .retained else some .isolated
    | 5 => some .isolated
    | _ => some .unmapped

/-! ## Lines, ECC and the write queue (R313, R319, R320) -/

/-- The entry of a line in a channel's write queue. -/
def Chan.queued (x : Chan) (l : Nat) : Option WLine := x.wq.find? fun e => decide (e.line = l)

/-- Byte i of a queued line, if written there. -/
def WLine.at (e : WLine) (i : Nat) : Option Byte := tgetD none e.bytes i

/-- Does a queued line cover all its 64 bytes? -/
def WLine.whole (e : WLine) : Bool := (List.range 64).all fun i => (e.at i).isSome

/-- R319, R320, R326: an error of a line is counted, located and recorded. -/
def State.ddrError (s : State) (c l dev : Nat) (ue : Bool) : State :=
  let a := l * 64
  let s1 := (s.bump (memBase c + (if ue then 0x48 else 0x40))).event (memBase c + 0x20) (if ue then 2 else 1)
  let eri := wd (nbit ue * 2 ^ 17 + slotOf a * 2 ^ 16 + s.rankOf a % 32 % 8 * 2 ^ 13 + dev % 32 * 2 ^ 8)
  let s2 := ((s1.setReg (memBase c + 0x24) (wd (a / 64 % 2 ^ 26 * 64))).setReg (memBase c + 0x28) (wd (a / 2 ^ 32 % 1024))).setReg
    (memBase c + 0x2C) eri
  s2.record { cls := if ue then 2 else 1, block := 3, inst := c, addr := a, w8 := (s2.sq (memBase c + 0x20)).read, w9 := eri }

/-- R319–R321: the stored line l is read: whether it comes poisoned. -/
def State.lineCheck (s : State) (c l : Nat) : State × Bool :=
  let x := s.chan c
  let m := markOf x.marks l
  match m % 4 with
  | 0 => (s, false)
  | 1 =>
    let s1 := s.ddrError c l (m / 4) false
    let y := s1.chan c
    (s1.setChan c { y with back := if l ∈ y.back then y.back else y.back ++ [l] }, false)
  | 2 => (s.ddrError c l 0x1F true, true)
  | _ => (s.event (memBase c + 0x20) 3, true)

/-- R313: bytes of a line as a read sees them: the write queue over the array. -/
def Chan.see (x : Chan) (a : Nat) : Byte :=
  match x.queued (a / 64) with
  | some e => (e.at (a % 64)).getD (x.mem.byte a)
  | none => x.mem.byte a

/-- R320: poison that waits in the write queue is read. -/
def State.queuedPoison (s : State) (c : Nat) (e : WLine) : State := if e.poison then s.event (memBase c + 0x20) 3 else s

/-- R313, R320: a line is read: whether it comes poisoned. A line that the write queue covers whole is served from it. -/
def State.lineRead (s : State) (c l : Nat) : State × Bool :=
  match (s.chan c).queued l with
  | some e =>
    if e.whole then (s.queuedPoison c e, e.poison)
    else
      let r := s.lineCheck c l
      (if r.2 then r.1 else r.1.queuedPoison c e, r.2 || e.poison)
  | none => s.lineCheck c l

/-- R322: the 64 bytes that the DIMM holds for line l: as the controller's decryption shows it, and enciphered under the
channel's key pair where ENC is 1, with the line number as tweak. DEDUCED, log entry 38. -/
def State.dimmLine (s : State) (c l : Nat) : List Byte :=
  let plain := (s.chan c).mem.bytes (64 * l) 64
  match (s.chan c).key with
  | none => plain
  | some g =>
    let k (lo : Nat) : List Byte := (List.range 32).map fun i => Config.channelKeyByte c g (lo + i)
    (List.range 64).map fun i => Config.xtsByte true (k 0) (k 32) (l % 2 ^ 36) plain i

/-- Bytes of a queued line go to the array. -/
def WLine.store (e : WLine) (m : Mem) : Mem :=
  e.bytes.foldl (fun m p => match p.2 with | some v => m.putByte (e.line * 64 + p.1) v | none => m) m

/-- R313, R320: one queued line is written: whole, or as a read-modify-write that keeps poison. -/
def State.drainLine (s : State) (c : Nat) (e : WLine) : State :=
  if e.whole then
    let x := s.chan c
    s.setChan c { x with mem := e.store x.mem, marks := setMark x.marks e.line (if e.poison then 3 else 0),
                         back := x.back.filter (· ≠ e.line) }
  else
    let r := s.lineCheck c e.line
    let x := r.1.chan c
    r.1.setChan c { x with mem := e.store x.mem, marks := setMark x.marks e.line (if r.2 || e.poison then 3 else 0),
                           back := x.back.filter (· ≠ e.line) }

/-- The write queue drains, oldest line first (R324, R325). PRESUMED, log entry 40. -/
def State.drainQueue (s : State) (c : Nat) : State :=
  let x := s.chan c
  x.wq.foldl (fun t e => t.drainLine c e) (s.setChan c { x with wq := [] })

/-- The bytes of a write that fall in line l. -/
def lineBytes (a l : Nat) (data : List Byte) : List (Nat × Byte) :=
  (data.zipIdx.map fun e => (a + e.2, e.1)).filterMap fun e => if e.1 / 64 = l then some (e.1 % 64, e.2) else none

/-- R313: a write enters the queue, merging with an earlier one of its line; a full queue drains its oldest line.
PRESUMED, log entry 40. -/
def State.lineWrite (s : State) (c l : Nat) (bs : List (Nat × Byte)) (poison : Bool) : State :=
  let put (t : Tab (Option Byte)) : Tab (Option Byte) := bs.foldl (fun t b => tsetD none t b.1 (some b.2)) t
  let x := s.chan c
  match x.queued l with
  | some e =>
    s.setChan c { x with
      wq := x.wq.map fun f =>
        if f.line = l then { f with bytes := put e.bytes,
                                    poison := poison || (e.poison && decide (bs.length < 64)) } else f }
  | none =>
    let s1 := match x.wq with
      | f :: t => if 64 ≤ x.wq.length then (s.setChan c { x with wq := t }).drainLine c f else s
      | [] => s
    let y := s1.chan c
    s1.setChan c { y with wq := y.wq ++ [{ line := l, bytes := put [], poison := poison }] }

/-- Lines that bytes a to a + n − 1 lie in. -/
def lineSpan (a n : Nat) : List Nat := (List.range ((a + n + 63) / 64 - a / 64)).map fun i => a / 64 + i

/-- Lines are read in order; a poisoned one poisons the words of the access that lie in it. -/
def State.readLines (s : State) (c a : Nat) : List Nat → State × List Nat
  | [] => (s, [])
  | l :: t =>
    let r := s.lineRead c l
    let q := r.1.readLines c a t
    (q.1, if r.2 then l :: q.2 else q.2)

/-- n words of unspecified data. -/
def State.drawWords (s : State) : Nat → State × List Word
  | 0 => (s, [])
  | n + 1 =>
    let r := s.draw
    let q := r.1.drawWords n
    (q.1, r.2 :: q.2)

/-- R323: an access to a channel whose MEMc_CFG does not describe its DIMMs: unspecified data, with or without poison and a
record. DESIGN CHOICE, log entry 2. -/
def State.wildRead (s : State) (a n : Nat) : State × Resp :=
  let r := s.drawWords ((n + 3) / 4)
  let k := r.1.draw
  let s1 := match k.2.toNat % 3 with
    | 1 => k.1.ddrError (chanOf a) (a / 64) (k.2.toNat / 3 % 18) false
    | 2 => k.1.ddrError (chanOf a) (a / 64) 0x1F true
    | _ => k.1
  let p := s1.drawWords ((n + 3) / 4)
  (p.1, { data := (bytesOf r.2).take n, bad := (List.range ((n + 3) / 4)).filter fun w => bitAt (p.2.getD w 0#32) 0 })

/-- R313: a read of n bytes at device memory address a. `bad` numbers poisoned words from a. -/
def State.ddrRead (s : State) (a n : Nat) : State × Resp :=
  match s.ddrErr a with
  | some e => (s, { data := zeros n, err := some e })
  | none =>
    let c := chanOf a
    if (s.chan c).wild then s.wildRead a n
    else
      let r := s.readLines c a (lineSpan a n)
      (r.1, { data := (List.range n).map fun i => (r.1.chan c).see (a + i),
              bad := (List.range ((n + 3) / 4)).filter fun w => decide ((a + 4 * w) / 64 ∈ r.2) })

/-- R313, R320: a write of bytes at device memory address a; `poison` tells that the data is poisoned. -/
def State.ddrWrite (s : State) (a : Nat) (data : List Byte) (poison : Bool) : State × Resp :=
  match s.ddrErr a with
  | some e => (s, { err := some e })
  | none =>
    let c := chanOf a
    ((lineSpan a data.length).foldl (fun t l => t.lineWrite c l (lineBytes a l data) poison) s, {})

/-- R312: the channel time of an access is measured, in ns. -/
def State.channelTime (s : State) (c ns : Nat) : State :=
  let b := memBase c
  let n := if 1023 ≤ ns then 1023 else ns
  let s1 := if fld (s.reg (b + 0x14)) 0 10 < n then s.setReg (b + 0x14) (wd n) else s
  let lim := fld (s.reg (b + 0x10)) 0 10
  if lim ≠ 0 ∧ lim < ns then (s1.bump (b + 0x50)).event (b + 0x20) 4 else s1

/-- R312: n accesses of the map service, a peer or a page copy are measured; how long each took is not stated. DESIGN
CHOICE, log entry 2. -/
def State.timed (s : State) (c : Nat) : Nat → State
  | 0 => s
  | n + 1 => let r := s.draw; (r.1.channelTime c (r.2.toNat % 1024)).timed c n

/-- R319, R320: what an upset makes of a line's mark m: 1 + 4 × device one correctable unit, 2 uncorrectable. Errors in two
units are uncorrectable, and a poisoned line stays poisoned. PRESUMED, log entry 37. -/
def upsetMark (m e : Nat) : Nat :=
  if m % 4 = 3 ∨ m % 4 = 2 then m
  else if e % 4 = 1 then (if m = 0 ∨ m = e % 128 then e % 128 else 2)
  else if e % 4 = 2 then 2 else m

/-- An upset strikes a line of a channel. PRESUMED, log entry 37. -/
def State.ddrUpset (s : State) (u : List (Nat × Nat)) : State :=
  u.foldl (fun t e =>
    let c := chanOf (e.1 * 64)
    let x := t.chan c
    t.setChan c { x with marks := setMark x.marks e.1 (upsetMark (markOf x.marks e.1) e.2) }) s

/-- R315, R316: does a request at a meet a refresh episode of its rank? -/
def State.inEpisode (s : State) (a : Nat) : Bool :=
  (s.ddrErr a).isNone && decide (s.rankOf a ∈ (s.chan (chanOf a)).episodes)

/-- R309, R313: a request runs: it reads or writes, and its channel time is measured. -/
def State.ddrRun (s : State) (q : DdrReq) : State × Resp :=
  let r := if q.write then s.ddrWrite q.addr q.data q.poison else s.ddrRead q.addr q.len
  match r.2.err with
  | some _ => r
  | none => (r.1.channelTime (chanOf q.addr) q.ns, r.2)

/-- A request runs and its answer leaves. -/
def State.ddrAnswer (s : State) (q : DdrReq) : State :=
  let r := s.ddrRun q
  r.1.emit (.answer r.2)

/-- R309, R313, R316: a request and its upsets come: it runs, or waits for the end of a refresh episode of its rank. -/
def State.ddrRequest (s : State) (q : DdrReq) (u : List (Nat × Nat)) : State :=
  let s1 := s.ddrUpset u
  if s1.inEpisode q.addr then
    let x := s1.chan (chanOf q.addr)
    s1.setChan (chanOf q.addr) { x with waits := x.waits ++ [q] }
  else s1.ddrAnswer q

/-- R316: the requests of channel c that `go` picks no longer wait, and are served in order. -/
def State.ddrResume (s : State) (c : Nat) (go : DdrReq → Bool) : State :=
  let x := s.chan c
  (x.waits.filter go).foldl State.ddrAnswer (s.setChan c { x with waits := x.waits.filter fun q => !go q })

/-! ## Refresh and scrub (R314–R321) -/

/-- The ranks of a channel: slot × 32 + index. -/
def cfgRanks (w : Word) : List Nat :=
  (List.range (dimmRanks w)) ++ (if bitAt w 25 then (List.range (dimmRanks w)).map (· + 32) else [])

/-- R315: a refresh episode of a rank begins. -/
def State.refreshStart (s : State) (c r : Nat) : State :=
  let x := s.chan c
  if x.state = 2 ∧ r ∈ cfgRanks (s.memCfg c) ∧ r ∉ x.episodes then s.setChan c { x with episodes := x.episodes ++ [r] }
  else s

/-- Line number of line i of rank r of channel c. -/
def State.rankLine (s : State) (c r i : Nat) : Nat :=
  (c * 2 ^ 39 + r / 32 * 2 ^ 38 + r % 32 * rankBytes (s.memCfg c)) / 64 + i

/-- R321: rank r has read its patrol line; at its last line the rank's pass ends, and with the last rank the channel's. -/
def State.scrubAdvance (s : State) (c r : Nat) : State :=
  let x := s.chan c
  let i := tgetD 0 x.scrub r
  if i + 1 < 2 ^ (cfgRow (s.memCfg c) + 11) then s.setChan c { x with scrub := tsetD 0 x.scrub r (i + 1) }
  else
    let done := if r ∈ x.scrubbed then x.scrubbed else x.scrubbed ++ [r]
    let y := { x with scrub := tsetD 0 x.scrub r 0 }
    if (cfgRanks (s.memCfg c)).all (· ∈ done) then (s.setChan c { y with scrubbed := [] }).bump (memBase c + 0x58)
    else s.setChan c { y with scrubbed := done }

/-- R315, R319, R321: the end of a refresh episode: a corrected line of the rank is written back, else the patrol reads a
line. -/
def State.refreshScrub (s : State) (c r : Nat) : State :=
    let x := s.chan c
    let s1 := s.setChan c { x with episodes := x.episodes.filter (· ≠ r) }
    match x.back.find? fun l => decide (s.rankOf (l * 64) = r) with
    | some l =>
      let y := s1.chan c
      s1.setChan c { y with back := y.back.filter (· ≠ l),
                            marks := if markOf y.marks l % 4 = 1 then setMark y.marks l 0 else y.marks }
    | none =>
      if bitAt (s.reg (memBase c + 4)) 3 then
        ((s1.lineCheck c (s1.rankLine c r (tgetD 0 x.scrub r))).1).scrubAdvance c r
      else s1

/-- R315, R316: a refresh episode ends, and the requests that waited for it are served. -/
def State.refreshEnd (s : State) (c r : Nat) (u : List (Nat × Nat)) : State :=
  if r ∉ (s.chan c).episodes then s
  else
    let t := (s.ddrUpset u).refreshScrub c r
    t.ddrResume c fun q => decide (t.rankOf q.addr = r)

/-! ## Temperature and calibration (R314, R317, R318) -/

/-- A signed byte as an integer. -/
def sbyte (n : Nat) : Int := if n % 256 < 128 then Int.ofNat (n % 256) else Int.ofNat (n % 256) - 256

/-- The hotter DIMM's reading. -/
def hotter (w : Word) (t0 t1 : Nat) : Nat := if bitAt w 25 && decide (sbyte t0 < sbyte t1) then t1 % 256 else t0 % 256

/-- R314, R318, R326: the DIMM sensors are polled. -/
def State.tempPoll (s : State) (c t0 t1 : Nat) : State :=
  let x := s.chan c
  let w := s.memCfg c
  let h := sbyte (hotter w t0 t1)
  let alarm := decide (95 ≤ h)
  let fast := if 83 < h then true else if h ≤ 80 then false else x.fast
  let d := h - sbyte x.ttrain
  let begins := decide (x.state = 2 ∧ x.retrain = 0 ∧ (10 ≤ d ∨ d ≤ -10))
  let s1 := s.setChan c { x with t0 := t0 % 256, t1 := if bitAt w 25 then t1 % 256 else 0, fast := fast, alarm := alarm,
                                 retrain := if begins then 1 else x.retrain }
  if alarm && !x.alarm then s1.event (memBase c + 0x20) 5 else s1

/-- A request outstanding at the channel is delayed and its response carries DDR_CAL (R317, R318, R552). -/
def Outside.delay (o : Outside) (hit : Nat → Bool) : Outside :=
  match o.ddr with
  | some a => if o.readable.isNone && hit a then { o with tag := 11 } else o
  | none => o

/-- R317, R318: outstanding requests at addresses that `hit` picks are delayed. -/
def State.delayed (s : State) (hit : Nat → Bool) : State :=
  { s with bays := s.bays.map (fun (e : Nat × Bay) => (e.1, { e.2 with pipe := { e.2.pipe with
      flights := e.2.pipe.flights.map (fun (f : Flight) => { f with out := f.out.map fun o => o.delay hit }) } })) }

/-- R317: a ZQCS command blocks a rank. -/
def State.zqcs (s : State) (c r : Nat) : State :=
  if (s.chan c).state = 2 then s.delayed fun a => decide (chanOf a = c ∧ s.rankOf a = r) else s

/-- R317: a command/address parity error is reported and its commands are reissued. -/
def State.caParity (s : State) (c : Nat) : State :=
  if (s.chan c).state = 2 then
    let s1 := (s.delayed fun a => decide (chanOf a = c)).event (memBase c + 0x20) 0
    s1.record { cls := 1, block := 3, inst := c, w8 := (s1.sq (memBase c + 0x20)).read, w9 := s1.reg (memBase c + 0x2C) }
  else s

/-- R318: a retraining slice blocks the channel; the last, at the latest the 64th, ends the retraining. -/
def State.retrainSlice (s : State) (c : Nat) (last : Bool) : State :=
  let x := s.chan c
  if x.state = 2 ∧ x.retrain ≠ 0 then
    let s1 := s.delayed fun a => decide (chanOf a = c)
    if last || decide (64 ≤ x.retrain) then
      s1.setChan c { x with retrain := 0, ttrain := hotter (s.memCfg c) x.t0 x.t1 }
    else s1.setChan c { x with retrain := x.retrain + 1 }
  else s

/-! ## Initialisation, self-refresh (R322–R324) -/

/-- R302: does a channel that is READY or SELFREF hold two DIMMs? -/
def State.anyDpc2 (s : State) : Bool :=
  (List.range 8).any fun c => (decide ((s.chan c).state = 2) || decide ((s.chan c).state = 4)) && bitAt (s.memCfg c) 25

/-- R302: does a READY channel run at another speed? -/
def State.otherSpeed (s : State) (sp : Nat) : Bool :=
  (List.range 8).any fun c => decide ((s.chan c).state = 2) && decide (fld (s.memCfg c) 28 2 ≠ sp)

/-- R302, R323: INIT: refused with FSTEP 14 or 15, else training begins; with ENC = 1 a fresh key pair is loaded.
DEDUCED, log entry 38. -/
def State.memInit (s : State) (c : Nat) : State :=
  let x := s.chan c
  let w := s.memCfg c
  if !(decide (x.state = 0) || decide (x.state = 3)) || !s.ddr.rails || decide (s.hw.dimms / 2 ^ c % 2 = 0) then s
  else if cfgExcluded w || (decide (fld w 28 2 = 0) && s.anyDpc2) ||
      (s.sec.approved && s.hw.full && !bitAt (s.reg (memBase c + 4)) 2) then
    s.setChan c { x with state := 3, fstep := 14 }
  else if s.otherSpeed (fld w 28 2) then s.setChan c { x with state := 3, fstep := 15 }
  else if bitAt (s.reg (memBase c + 4)) 2 && s.hw.full then
    let g := (x.keygen + 1) % 256
    { s.setChan c { x with
        state := 1, fstep := 0, erased := false, driven := true, keygen := g, key := some (g + 1) } with
      sec := { s.sec with keyRam := tsetD 0 s.sec.keyRam c (g + 1) } }
  else s.setChan c { x with state := 1, fstep := 0, erased := false, driven := true, key := none }

/-- R323: does MEMc_CFG misdescribe the DIMMs fitted at channel c: in a field other than SPEED and TRFC, or with a TRFC
below theirs? -/
def State.misfit (s : State) (c : Nat) : Bool :=
  match tgetD none s.hw.fitted c with
  | none => false
  | some w => decide ((s.memCfg c ^^^ w) &&& 0x0F333000#32 ≠ 0#32) || decide (fld (s.memCfg c) 0 10 < fld w 0 10)

/-- R323: the steps at which training can fail: 8 is for LRDIMMs alone. -/
def stepOf (w : Word) (step : Nat) : Bool := decide (step ≤ 7) || (decide (step = 8) && decide (fld w 26 2 = 1))

/-- R323: training ends: READY at step 0, else FAILED at the step. DRAM contents are then unspecified. DESIGN CHOICE,
log entry 6. -/
def State.trained (s : State) (c step t0 t1 : Nat) : State :=
  let x := s.chan c
  if decide (x.state ≠ 1) || !stepOf (s.memCfg c) step then s
  else if step = 0 then
    let g := s.newGen
    g.1.setChan c { x with state := 2, fstep := 0, t0 := t0 % 256, t1 := if bitAt (s.memCfg c) 25 then t1 % 256 else 0,
                           ttrain := hotter (s.memCfg c) t0 t1, mem := Mem.scrambled g.2, marks := [], wq := [],
                           episodes := [], scrub := [], scrubbed := [], back := [], retrain := 0, wild := s.misfit c }
  else (s.setChan c { x with state := 3, fstep := step }).event (memBase c + 0x20) 6

/-- R324: SR = 1: every request completes, the queue drains and the channel begins to enter self-refresh. -/
def State.srEnter (s : State) (c : Nat) : State :=
  let s0 := s.setReg (memBase c + 4) (putBit (s.reg (memBase c + 4)) 1 true)
  let x := s0.chan c
  if x.state = 2 then
    let s1 := (s0.ddrResume c fun _ => true).drainQueue c
    s1.setChan c { s1.chan c with srMove := true }
  else if x.state = 4 then s0.setChan c { x with srMove := false }
  else s0

/-- R324: STATE becomes SELFREF. -/
def State.srEntered (s : State) (c : Nat) : State :=
  let x := s.chan c
  if x.state = 2 ∧ x.srMove ∧ bitAt (s.reg (memBase c + 4)) 1 then
    let s1 := (s.ddrResume c fun _ => true).drainQueue c
    s1.setChan c { s1.chan c with state := 4, srMove := false, episodes := [], retrain := 0 }
  else s

/-- R324: SR = 0: the channel begins to leave self-refresh. -/
def State.srExit (s : State) (c : Nat) : State :=
  let s0 := s.setReg (memBase c + 4) (putBit (s.reg (memBase c + 4)) 1 false)
  let x := s0.chan c
  if x.state = 4 then s0.setChan c { x with srMove := true }
  else if x.state = 2 then s0.setChan c { x with srMove := false } else s0

/-- R326: CLRMAX. -/
def State.clrMax (s : State) (c : Nat) : State := s.setReg (memBase c + 0x14) 0#32

/-- R322, R326: the fields CLRMAX, SCRUB and ENC of a write to MEMc_CTL; ENC changes only while the channel is OFF. -/
def State.memFields (s : State) (c : Nat) (v : Word) : State :=
  let b := memBase c + 4
  let s1 := if bitAt v 4 then s.clrMax c else s
  let s2 := s1.setReg b (putBit (s1.reg b) 3 (bitAt v 3))
  if (s2.chan c).state = 0 ∧ s2.hw.full then s2.setReg b (putBit (s2.reg b) 2 (bitAt v 2)) else s2

/-- R324: the field SR of a write to MEMc_CTL; what the write does depends on STATE, whatever SR held. -/
def State.memSr (s : State) (c : Nat) (v : Word) : State := if bitAt v 1 then s.srEnter c else s.srExit c

/-- R322–R324, R326: a write to MEMc_CTL, each field in turn. -/
def State.memCtl (s : State) (c : Nat) (v : Word) : State :=
  if bitAt v 0 then ((s.memFields c v).memSr c v).memInit c else (s.memFields c v).memSr c v

/-- R324: the registers of channel c that retention latches do not hold return to their reset values. -/
def State.memRegsLost (s : State) (c : Nat) : State :=
  let b := memBase c
  { s with regs := { s.regs with
      words := tclear (tclear s.regs.words (b + 0x14) 0x1FEC) (b + 0xC) 4,
      sqs := tclear s.regs.sqs b 0x2000, cnts := tclear s.regs.cnts b 0x2000 } }

/-- Every register of channel c returns to its reset value. -/
def State.memRegsReset (s : State) (c : Nat) : State :=
  let b := memBase c
  { s with regs := { s.regs with words := tclear s.regs.words b 0x2000, sqs := tclear s.regs.sqs b 0x2000,
                                 cnts := tclear s.regs.cnts b 0x2000 } }

/-- R324, R481: PD_MEMW or PD_MEME comes on: a channel in SELFREF keeps what its latches hold, any other comes up OFF.
DEDUCED, log entries 39, 41. -/
def State.memPowerUp (s : State) (c : Nat) : State :=
  let x := s.chan c
  if x.state = 4 ∧ !x.vddqLost then
    (s.memRegsLost c).setChan c { x with fstep := 0, t0 := 0, t1 := 0, fast := false, alarm := false, srMove := false,
                                         episodes := [], retrain := 0, scrub := [], scrubbed := [],
                                         key := if tgetD 0 s.sec.keyRam c = 0 then none else x.key }
  else
    let g := s.newGen
    (g.1.memRegsReset c).setChan c { ({} : Chan) with
      keygen := x.keygen, erased := x.erased, driven := x.driven, mem := Mem.scrambled g.2 }

/-- R324: the channel is READY again; one whose VDDQ failed meanwhile comes up OFF. DEDUCED, log entry 41. -/
def State.srExited (s : State) (c : Nat) : State :=
  let x := s.chan c
  if x.state = 4 ∧ x.srMove ∧ bitAt (s.reg (memBase c + 4)) 1 = false then
    (if x.vddqLost then s.memPowerUp c else s.setChan c { x with state := 2, srMove := false })
  else s

/-- R324: VDDQ or VPP fails while channel c is in SELFREF or its domain is gated: DIMM contents and the retention
latches are lost. `back` tells whether the rails lie within their limits again (R323, R537). DEDUCED, log entry 41. -/
def State.vddqLoss (s : State) (c : Nat) (back : Bool) : State :=
  let s1 := { s with ddr := { s.ddr with rails := back } }
  if (s1.chan c).state = 4 ∨ !s1.on (chanDom c) then
    let g := s1.newGen
    g.1.setChan c { g.1.chan c with waits := [], vddqLost := true, mem := Mem.scrambled g.2, marks := [], back := [] }
  else s1

/-- R325: requests that wait at a channel are answered with ERR_ISOLATED. -/
def State.ddrIsolated (s : State) (c : Nat) : State :=
  (s.chan c).waits.foldl (fun t _ => t.emit (.answer { err := some .isolated })) (s.setChan c { s.chan c with waits := [] })

/-- R322, R502: a zeroisation erases the keys of every channel, and each goes to OFF. DEDUCED, log entry 39. -/
def State.memErase (s : State) : State :=
  (List.range 8).foldl (fun t c =>
    if t.hw.chanHere c then
      let g := (t.ddrIsolated c).newGen
      g.1.setChan c { ((t.ddrIsolated c).chan c) with
        state := 0, fstep := 0, erased := true, key := none, wq := [], episodes := [], back := [],
        retrain := 0, srMove := false, mem := Mem.scrambled g.2, marks := [] }
    else t) s

/-- R326: what hardware shows in a channel's registers. -/
def State.memRead (s : State) (c o : Nat) : Word :=
  let x := s.chan c
  if o = 0x08 then wd (x.fstep % 16 * 16 + x.state % 8)
  else if o = 0x0C then wd (x.t1 % 256 * 2 ^ 24 + x.t0 % 256 * 2 ^ 16 + x.ttrain % 256 * 2 ^ 8 + nbit x.alarm * 2 + nbit x.fast)
  else if o = 0x30 then wd (nbit s.hw.full * 2 ^ 31 + x.keygen % 256)
  else s.readKind (memBase c + o)

end Sys2Proof.Machine
end

