-- ==== Sys2Proof/Machine/Scarf.lean ====
section
/-!
DEFINITION. Scarf links: what answers a bay's outside access, flits as bytes (R394–R396), sending, credits, replay and
retry (R399–R403), link down (R405), routes and their fenced update (R407–R410), link states (R415), device time (R417,
R418), port enable and training (R391, R392).
-/
namespace Sys2Proof.Machine

/-! ## Answers to a bay (R89, R160, R518, R519) -/

/-- Change the flight with serial number `fid`. -/
def Bay.onFlight (b : Bay) (fid : Nat) (g : Flight → Flight) : Bay :=
  { b with pipe := { b.pipe with flights := b.pipe.flights.map fun f => if f.id = fid then g f else f } }

/-- The result that an outside access will deliver, and the address kept when it is poisoned (R518). -/
def Bay.fill (b : Bay) (fid : Nat) (res : List (Nat × Word)) (poison : Option Word) : Bay :=
  b.onFlight fid fun f => { f with res := res, poison := poison }

/-- R552: one intrusion tag a response; DDR_CAL stays. -/
def joinTag (old new : Nat) : Nat := if new = 0 then old else if old = 11 then 11 else new

/-- R89, R183: one response has come back, the first line's before the second's; with the last the result is readable from
the next wall cycle. DEDUCED, log
entry 25. -/
def Outside.arrive (o : Outside) (wall tag : Nat) : Outside :=
  let o1 := { o with pending := o.pending - 1, tag := joinTag o.tag tag, bank := o.leaf, leaf := none }
  if o1.pending = 0 ∧ o1.readable = none then { o1 with readable := some (wall + 1) } else o1

/-- A response arrives for flight `fid`. -/
def Bay.arrive (b : Bay) (fid tag : Nat) : Bay :=
  b.onFlight fid fun f => { f with out := f.out.map fun o => o.arrive b.tmr.wall tag }

/-- R519, R520: an error response answers a store. -/
def Bay.storeError (b : Bay) (ea : Word) : Bay :=
  { b with ctx := { b.ctx with errStat := b.ctx.errStat.event 1, errAddr := ea } }

/-- R519: an error response delivers a poisoned zero, with the address the port keeps. -/
def Bay.errorResult (b : Bay) (fid : Nat) (ea : Word) : Bay := b.fill fid [(2, 0#32)] (some ea)

/-- Mark where a flight is served. -/
def Bay.served (b : Bay) (fid : Nat) (g : Outside → Outside) : Bay := b.onFlight fid fun f => { f with out := f.out.map g }

/-- R519: the answer of a lost request. -/
def Bay.remoteLost (b : Bay) (fid : Nat) (k : RemoteKind) : Bay :=
  let c := match k with
    | .load _ _ _ ea => b.errorResult fid ea
    | .store ea => b.storeError ea
    | .hash _ ea => b.errorResult fid ea
    | .range _ _ _ ea => (b.errorResult fid ea).arrive fid 0
    | .leaf _ ea bad => b.errorResult fid (bad.getD ea)
    | .outside _ _ => b
    | .copy _ _ _ => b
  c.arrive fid 0

/-! ## Flits as bytes (R394–R396) -/

/-- The header as a 64-bit number (R395). -/
def flitHeader (f : Flit) : Nat :=
  f.typ % 16 + f.dst % 4096 * 2 ^ 4 + f.src % 4096 * 2 ^ 16 + f.tag % 65536 * 2 ^ 28 + f.cell % 4 * 2 ^ 44
    + f.ncell % 4 * 2 ^ 46 + nbit f.poison * 2 ^ 48 + nbit f.rt * 2 ^ 49 + f.index % 16384 * 2 ^ 50

/-- The link word (R396). -/
def linkBits (l : LinkWord) : Word :=
  wd (l.seq % 4096 + l.ackseq % 4096 * 2 ^ 12 + nbit l.nak * 2 ^ 24 + l.cclass % 4 * 2 ^ 25 + l.ccount % 16 * 2 ^ 27)

/-- The first 76 bytes of a flit: header, payload, link word (R394). -/
def flitBody (f : Flit) (l : LinkWord) : List Byte :=
  toBytes 8 (flitHeader f) ++ bytesOf ((List.range 16).map fun i => f.payload.getD i 0#32) ++ toBytes 4 (linkBits l).toNat

/-- A flit on the wire: 80 bytes with its CRC-32C (R61, R394). -/
def flitWire (f : Flit) (l : LinkWord) : List Byte :=
  flitBody f l ++ toBytes 4 (crc32c (flitBody f l)).toNat

/-- The class of a flit type: 0 FWD, 1 CMP, 2 CTL (R397); a FENCE is sent in both of the first two. DEDUCED, log entry
46. -/
def flitClass (typ : Nat) : Nat := if typ = 1 ∨ typ = 2 ∨ typ = 3 then 0 else if typ = 9 then 2 else 1

/-! ## Ports -/

/-- This device's identifier (R393). -/
def State.devId (s : State) : Nat := fld (s.reg 0x78000) 0 12

/-- Port p. -/
def State.port (s : State) (p : Nat) : Port_ := tgetD {} s.scf.ports p

/-- Replace port p. -/
def State.setPort (s : State) (p : Nat) (x : Port_) : State :=
  { s with scf := { s.scf with ports := tsetD {} s.scf.ports p x } }

/-- Base offset of port p's registers (R420). -/
def scfBase (p : Nat) : Nat := 0x70000 + 0x1000 * p

/-- Is the port present, powered and UP? -/
def State.portUp (s : State) (p : Nat) : Bool := s.hw.portHere p && s.on 19 && decide ((s.port p).state = 2)

/-- The ports that are UP. -/
def State.upPorts (s : State) : List Nat := (List.range 8).filter s.portUp

/-- Credits of a class. -/
def Port_.credit (x : Port_) (c : Nat) : Nat := if c = 0 then x.cFwd else if c = 1 then x.cCmp else x.cCtl

/-- Change the credits of a class. -/
def Port_.setCredit (x : Port_) (c n : Nat) : Port_ :=
  if c = 0 then { x with cFwd := n } else if c = 1 then { x with cCmp := n } else { x with cCtl := n }

/-- Flits waiting in a class. -/
def Port_.queue (x : Port_) (c : Nat) : List TxFlit := if c = 0 then x.qFwd else if c = 1 then x.qCmp else x.qCtl

/-- Replace the flits waiting in a class. -/
def Port_.setQueue (x : Port_) (c : Nat) (q : List TxFlit) : Port_ :=
  if c = 0 then { x with qFwd := q } else if c = 1 then { x with qCmp := q } else { x with qCtl := q }

/-- The link word of the next flit: acknowledgement, NAK, and credits of one class (R396). -/
def Port_.link (x : Port_) (seq : Nat) : LinkWord :=
  let cls := x.owed.head?.getD 0
  let n := (x.owed.filter (· = cls)).length
  { seq := seq, ackseq := (x.rxNext + 4095) % 4096, nak := x.nak, cclass := cls,
    ccount := if x.owed = [] then 0 else if 15 ≤ n then 15 else n }

/-- The first n entries equal to c are taken away. -/
def dropCredits : List Nat → Nat → Nat → List Nat
  | [], _, _ => []
  | l, _, 0 => l
  | x :: t, c, n + 1 => if x = c then dropCredits t c n else x :: dropCredits t c (n + 1)

/-- What a flit's link word carried is no longer due. -/
def Port_.linked (x : Port_) : Port_ :=
  let l := x.link 0
  { x with nak := false, owed := dropCredits x.owed l.cclass l.ccount, ackDue := false }

/-- R399, R402: the class whose next flit may be sent: control first, then completions, then forward traffic. -/
def Port_.ready (x : Port_) : Option Nat :=
  if 256 ≤ x.replay.length then none
  else [2, 1, 0].find? fun c => decide (x.queue c ≠ []) && decide (x.credit c ≠ 0)

/-- One sequenced flit is sent. DEDUCED, log entry 46. -/
def State.sendOne (s : State) (p c : Nat) : State :=
  let x := s.port p
  match x.queue c with
  | [] => s
  | t :: rest =>
    let l := x.link x.txSeq
    let y := ((x.linked.setQueue c rest).setCredit c (x.credit c - 1))
    ((s.setPort p { y with txSeq := (x.txSeq + 1) % 4096, replay := x.replay ++ [{ t with seq := x.txSeq }] }).emit
      (.flit p t.flit l)).bump (scfBase p + 0x40)

/-- R394, R402: NULL flits carry what is still due: a NAK, credits, an acknowledgement. -/
def State.sendNull (s : State) (p : Nat) : Nat → State
  | 0 => s
  | n + 1 =>
    let x := s.port p
    if x.nak || !x.owed.isEmpty || x.ackDue then
      ((s.setPort p x.linked).emit (.flit p {} (x.link 0))).sendNull p n
    else s

/-- R399, R402: everything that credits and the replay buffer allow is sent. -/
def State.pumpN (s : State) (p : Nat) : Nat → State
  | 0 => s
  | n + 1 => match (s.port p).ready with
    | some c => (s.sendOne p c).pumpN p n
    | none => s

/-- The transmitter of port p sends what it may. DEDUCED, log entry 46. -/
def State.pump (s : State) (p : Nat) : State :=
  if s.portUp p then
    let x := s.port p
    let s1 := s.pumpN p (x.qFwd.length + x.qCmp.length + x.qCtl.length)
    s1.sendNull p ((s1.port p).owed.length + 1)
  else s

/-- A flit is put at the end of its class at port p. -/
def State.enqueue (s : State) (p c : Nat) (t : TxFlit) : State :=
  let x := s.port p
  (s.setPort p { x.setQueue c (x.queue c ++ [{ t with ord := x.ord }]) with ord := x.ord + 1 }).pump p

/-! ## Sending to a device (R401, R405, R407) -/

/-- Route of device d: 0 invalid, port + 1 else. -/
def State.route (s : State) (d : Nat) : Nat :=
  if 8 ≤ tgetD 0 s.scf.routes d then tgetD 0 s.scf.routes d - 7 else 0

/-- Add work to the command in progress. -/
def State.todo (s : State) (w : Work) : State := { s with work := s.work ++ [w] }

/-- A completion goes to its device; where no port can take it, it is discarded (R405). -/
def State.sendCmp (s : State) (f : Flit) : State :=
  let r := s.route f.dst
  let go : State :=
    if r = 0 then (s.event 0x78070 0).bump 0x78078
    else if s.portUp (r - 1) then s.enqueue (r - 1) 1 { flit := f } else s
  match s.scf.upd with
  | some u =>
    if u.dev = f.dst then
      { s with scf := { s.scf with upd := some { u with held := u.held ++ [(1, { flit := f })] } } }
    else go
  | none => go

/-- R397: a QREFUSE for a message of device `dst`. -/
def refuseFlit (src dst reason : Nat) (trig : Word) (who : Word) : Flit :=
  { typ := 8, dst := dst, src := src, payload := [wd reason, trig, who] }

/-- Word 2 of a QREFUSE: the producer (R251, R397). -/
def refuseWho (rt : Bool) (index : Nat) : Word := if rt then wd (2 ^ 31 + index % 256) else wd (index % 16384)

/-- The ENQ trigger value that a QCELL's header tells: destination and cells; bits 31:30 are not carried. DEDUCED, log
entry 49. -/
def flitTrigger (f : Flit) : Word := wd (f.dst % 4096 * 2 ^ 16 + f.tag % 65536 + f.ncell % 4 * 2 ^ 28)

/-- R405: a flit that its port cannot carry is answered. `reason` is what a message of this device is refused with.
DEDUCED, log entry 49. -/
def State.deadFlit (s : State) (t : TxFlit) (reason : Nat) (isolated : Bool) : State :=
  let f := t.flit
  if f.typ = 1 then
    if f.cell ≠ f.ncell then s
    else if t.fwd then
      if f.rt ∧ 2 ^ 13 ≤ f.index then s.event 0x30040 4
      else s.sendCmp (refuseFlit s.devId f.src 3 (flitTrigger f) (refuseWho f.rt f.index))
    else match t.msg with
      | some m => if m.prod = .manager then s.event 0x30040 4 else s.todo (.refuse m reason)
      | none => s
  else if f.typ = 2 ∨ f.typ = 3 then
    if t.fwd then s.sendCmp { typ := 5, dst := f.src, src := s.devId, tag := f.tag, index := 1 }
    else match s.scf.reqs.find? fun r => decide (r.tag = f.tag) with
      | some r =>
        ({ s with scf := { s.scf with reqs := s.scf.reqs.filter fun q => decide (q.tag ≠ f.tag) } }).todo (.lost r isolated)
      | none => s
  else s

/-- R407: a flit of class c goes to its device: held behind an update, by its route, or answered. -/
def State.sendTo (s : State) (c : Nat) (t : TxFlit) : State :=
  let d := t.flit.dst
  let r := s.route d
  let go (u : State) : State :=
    if r = 0 then ((u.event 0x78070 0).bump 0x78078).deadFlit t 2 false
    else if u.portUp (r - 1) then u.enqueue (r - 1) c t
    else u.deadFlit t 3 false
  match s.scf.upd with
  | some u =>
    if u.dev = d then { s with scf := { s.scf with upd := some { u with held := u.held ++ [(c, t)] } } } else go s
  | none => go s

/-! ## Link states (R415, R416) -/

/-- An LSTATE flit (R415). PRESUMED, log entry 47. -/
def lstateFlit (src dst dev port st gen : Nat) : Flit :=
  { typ := 9, dst := dst, src := src,
    payload := [wd (dev % 4096 + port % 8 * 2 ^ 12 + st % 4 * 2 ^ 16), wd (gen % 256)] }

/-- An LSTATE flit is sent on the ports `ps`. -/
def State.lstateOn (s : State) (ps : List Nat) (dev port st gen : Nat) : State :=
  ps.foldl (fun t q => t.enqueue q 2 { flit := lstateFlit t.devId (t.port q).peerDev dev port st gen }) s

/-- R415: this device floods the state of its port p: 0 UP, 1 RETRY, 2 DOWN. -/
def State.flood (s : State) (p st : Nat) : State :=
  let g := ((s.port p).gen + 1) % 256
  let s1 := s.setPort p { s.port p with gen := g }
  let s2 := { s1 with scf := { s1.scf with view := tsetD none s1.scf.view (s.devId * 8 + p) (some (st, g)) } }
  s2.lstateOn s2.upPorts s.devId p st g

/-! ## Retry and link down (R402–R406) -/

/-- Time in ns since a retry began, for SCFp_RMAX. -/
def Port_.retryNs (x : Port_) (us : Nat) : Nat := let n := (us - x.since) * 1000; if 2 ^ 32 ≤ n then 2 ^ 32 - 1 else n

/-- R403, R420: the longest retry, with one that ends now. -/
def Port_.longest (x : Port_) (us : Nat) : Nat :=
  if (x.retry || x.gap) && decide (x.rmax < x.retryNs us) then x.retryNs us else x.rmax

/-- A flit takes its place in the order of queuing. -/
def ordInsert (t : TxFlit) : List TxFlit → List TxFlit
  | [] => [t]
  | y :: r => if t.ord < y.ord then t :: y :: r else y :: ordInsert t r

/-- Every flit that a port holds, in the order it was queued (R405). -/
def Port_.held (x : Port_) : List TxFlit := (x.replay ++ x.qFwd ++ x.qCmp ++ x.qCtl).foldl (fun l t => ordInsert t l) []

/-- Is this request's flit among those held? -/
def Remote.heldIn (r : Remote) (l : List TxFlit) : Bool :=
  l.any fun t => !t.fwd && (decide (t.flit.typ = 2) || decide (t.flit.typ = 3)) && decide (t.flit.tag = r.tag)

/-- R405, R406: port p is declared down, or disabled: state and cause are set; the requests of this device whose flits have
been acknowledged are answered, then every flit held, in the order it was queued. -/
def State.dropPort (s : State) (p st cause reason : Nat) (isolated : Bool) : State :=
  let x := s.port p
  let s1 := s.setPort p { ({} : Port_) with state := st, dcause := cause, rmax := x.longest s.qm.us, flight := x.flight,
                                            gen := x.gen }
  let gone (r : Remote) : Bool := decide (r.port = p) && !r.heldIn x.held
  let s2 := { s1 with scf := { s1.scf with reqs := s1.scf.reqs.filter fun r => !gone r } }
  let s3 := (s1.scf.reqs.filter gone).foldl (fun t r => t.todo (.lost r isolated)) s2
  x.held.foldl (fun t f => t.deadFlit f reason isolated) s3

/-- R405: a port is declared down with a cause. -/
def State.declareDown (s : State) (p cause : Nat) : State :=
  ((((s.dropPort p 3 cause 3 (decide (cause = 8))).event (scfBase p + 0x20) 1).flood p 2)).todo (.pathDown s.devId p)

/-- Outstanding accesses to peers through port p are delayed and their answers carry the tag. -/
def State.delayRemote (s : State) (p tag : Nat) : State :=
  (s.scf.reqs.filter fun r => decide (r.port = p)).foldl
    (fun t r => t.onBay r.bay fun b => b.served r.fid fun o => { o with tag := joinTag o.tag tag }) s

/-- R418: an exchange was skipped; the eighth in a row loses the lock. -/
def State.tsyncSkip (s : State) : State :=
  let n := s.scf.skipped + 1
  { s with scf := { s.scf with t1 := none, skipped := n, good := 0, locked := s.scf.locked && decide (n < 8) } }

/-- A retry meets port p: its outstanding accesses will be tagged LINK_RETRY (R404), and a time exchange under way on it is
skipped (R417). -/
def State.meetsRetry (s : State) (p : Nat) : State :=
  let s1 := s.delayRemote p 12
  if s1.scf.t1.isSome && decide (p = fld (s1.reg 0x78020) 4 3) then s1.tsyncSkip else s1

/-- R35, R403: a retry starts: it is counted, raises REPLAY and a CORRECTED record. -/
def State.replayStarts (s : State) (p : Nat) : State :=
  let s1 := (s.bump (scfBase p + 0x58)).event (scfBase p + 0x20) 2
  s1.err 1 4 p 0 (s1.sq (scfBase p + 0x20)).read

/-- R402, R403: every unacknowledged flit is sent again, in order. DEDUCED, log entry 46. -/
def State.resend (s : State) (p : Nat) : State :=
  (s.port p).replay.foldl (fun t e => (t.setPort p (t.port p).linked).emit (.flit p e.flit ((t.port p).link e.seq))) s

/-- R403: a NAK or a timeout: a retry starts; while one is in progress it has failed and another follows; the
sixteenth failure in a row takes the port down. -/
def State.retryStart (s0 : State) (p : Nat) : State :=
  let s := s0.meetsRetry p
  let x := s.port p
  if !s0.portUp p || x.replay.isEmpty then s0
  else if x.retry then
    let s1 := (s.setPort p { x with fails := x.fails + 1 }).bump (scfBase p + 0x60)
    if 16 ≤ x.fails + 1 then s1.declareDown p 1
    else (s1.replayStarts p).resend p
  else
    let s1 := s.setPort p { x with retry := true, fails := 0, since := if x.gap then x.since else s.qm.us }
    let s2 := (s1.replayStarts p).resend p
    if x.gap then s2 else s2.flood p 1

/-- The flits of a replay buffer up to sequence number a are acknowledged. -/
def ackList (l : List TxFlit) (a : Nat) : List TxFlit :=
  if l.any fun t => decide (t.seq = a) then (l.dropWhile fun t => decide (t.seq ≠ a)).tail else l

/-- R396, R402, R403: the link word of a flit that passed its CRC: acknowledgement, credits, NAK. -/
def State.linkWord (s : State) (p : Nat) (l : LinkWord) : State :=
  let x := s.port p
  let rest := ackList x.replay l.ackseq
  let moved := decide (rest.length ≠ x.replay.length)
  let x1 := { x with replay := rest }
  let x2 := x1.setCredit l.cclass (x1.credit l.cclass + l.ccount)
  let s1 :=
    if moved && x.retry then
      let x3 := { x2 with retry := false, fails := 0, rmax := if x.gap then x.rmax else x.longest s.qm.us }
      if x.gap then s.setPort p x3 else (s.setPort p x3).flood p 0
    else s.setPort p x2
  if l.nak then s1.retryStart p else s1

/-- R402: a flit is discarded and the next outgoing flit asks for it, once for each gap. -/
def State.openGap (s : State) (p : Nat) : State :=
  let x := s.port p
  if x.gap then s
  else
    let s1 := (s.setPort p { x with gap := true, nak := true, since := if x.retry then x.since else s.qm.us }).meetsRetry p
    if x.retry then s1 else s1.flood p 1

/-- R402: a sequenced flit of class c, 3 for none, whose CRC passed: its link word is taken; the flit is accepted and handled,
discarded as a duplicate, or discarded because it is ahead. -/
def State.receive (s : State) (p c : Nat) (l : LinkWord) (handle : State → State) : State :=
  if !s.portUp p then s
  else
    let s1 := s.linkWord p l
    if !s1.portUp p then s1
    else
      let x := s1.port p
      let behind := (x.rxNext + 4096 - l.seq % 4096) % 4096
      if behind = 0 then
        let x1 := { x with rxNext := (x.rxNext + 1) % 4096, gap := false, owed := if c = 3 then x.owed else x.owed ++ [c],
                           rmax := if x.retry then x.rmax else x.longest s1.qm.us, ackDue := true }
        let s2 := (s1.setPort p x1).bump (scfBase p + 0x48)
        let s3 := if x.gap && !x.retry then s2.flood p 0 else s2
        (handle s3).pump p
      else if behind ≤ 2047 then ((s1.bump (scfBase p + 0x68)).setPort p { x with ackDue := true }).pump p
      else (s1.openGap p).pump p

/-- R394, R402: a NULL flit: its link word alone. -/
def State.rxNull (s : State) (p : Nat) (l : LinkWord) : State :=
  if s.portUp p then (s.linkWord p l).pump p else s

/-- R402: a flit whose CRC fails is discarded. -/
def State.crcFail (s : State) (p : Nat) : State :=
  if s.portUp p then ((s.bump (scfBase p + 0x50)).openGap p).pump p else s

/-- R403: retry has been in progress for 8 µs within the last 100 µs. -/
def State.retryWindow (s : State) (p : Nat) : State :=
  if s.portUp p && ((s.port p).retry || (s.port p).gap) then s.declareDown p 2 else s

/-- R400: flits have waited 100 µs with no credit for their class. -/
def State.creditStall (s : State) (p : Nat) : State :=
  let x := s.port p
  if s.portUp p && [0, 1, 2].any fun c => decide (x.queue c ≠ []) && decide (x.credit c = 0) then s.declareDown p 5 else s

/-- R405: the peer has stopped transmitting. -/
def State.signalLoss (s : State) (p : Nat) : State := if s.portUp p then s.declareDown p 6 else s

/-! ## Enable and training (R391–R393) -/

/-- R391: EN is written 1. -/
def State.portEnable (s : State) (p : Nat) : State :=
  let s1 := s.setReg (scfBase p) (putBit (s.reg (scfBase p)) 0 true)
  if (s.port p).state = 0 then s1.setPort p { s.port p with state := 1, attempt := true } else s1

/-- R391: EN is written 0: the port goes to DISABLED from any state; what it held is answered as for a link down.
DEDUCED, log entry 49. -/
def State.portDisable (s : State) (p : Nat) : State :=
  let s1 := s.setReg (scfBase p) (putBit (s.reg (scfBase p)) 0 false)
  if (s.port p).state = 0 then s1 else s1.dropPort p 0 (s.port p).dcause 3 false

/-- A write to SCFp_CTL: WIDTH 3 is ignored. -/
def State.portCtl (s : State) (p : Nat) (v : Word) : State :=
  let old := s.reg (scfBase p)
  let keep := if fld v 4 2 = 3 then putFld (v &&& 0x1F31#32) 4 2 (fld old 4 2) else v &&& 0x1F31#32
  let s1 := s.setReg (scfBase p) (putBit keep 0 (bitAt old 0))
  if bitAt v 0 = bitAt old 0 then s1 else if bitAt v 0 then s1.portEnable p else s1.portDisable p

/-- DCAUSE of a failed training step (R392). -/
def trainCause (step : Nat) : Nat := if step = 1 then 7 else if step = 5 then 4 else 3

/-- R389, R392: the sets of lanes that a link may use, by width (1 x4, 2 x2, 3 x1), the widest first and lower lanes
before higher ones. -/
def laneSets : List (Nat × Nat) := [(1, 15), (2, 3), (2, 12), (3, 1), (3, 2), (3, 4), (3, 8)]

/-- R392, step 4: the width and the lanes of a link: the widest within SCFp_CTL.WIDTH and the peer's bound `width` (1 x4, 2
x2, 3 x1; 0 no bound) whose lanes pass at both ends and SCFp_CTL.LANES permits. -/
def State.linkSet (s : State) (p lanes width : Nat) : Option (Nat × Nat) :=
  let ctl := s.reg (scfBase p)
  let ok := (lanes % 16) &&& fld ctl 8 4
  laneSets.find? fun e => decide (fld ctl 4 2 + 1 ≤ e.1) && decide (width % 4 ≤ e.1) && decide (e.2 &&& ok = e.2)

/-- R392: an attempt ends: at a failed step 1–5, or with the peer's identifier and port, the lanes that pass at both ends
and the width that the peer permits. With no lane permitted it fails step 1, with no width step 4, and with a peer that has
this device's identifier step 5. -/
def State.trained_ (s : State) (p step dev port lanes width : Nat) : State :=
  let x := s.port p
  if !(s.hw.portHere p && s.on 19) || decide (x.state ≠ 1) || !x.attempt then s
  else
    let w := (s.linkSet p lanes width).getD (0, 0)
    let st := if fld (s.reg (scfBase p)) 8 4 = 0 then 1
      else if step ≠ 0 then step
      else if w.1 = 0 then 4
      else if dev % 4096 = s.devId then 5 else 0
    if st ≠ 0 then s.setPort p { x with attempt := false, dcause := trainCause st }
    else
      let y : Port_ := { ({} : Port_) with
        state := 2, dcause := x.dcause, lanes := w.2, width := w.1, peerDev := dev % 4096,
        peerPort := port % 8, flight := x.flight, rmax := x.rmax, cFwd := 64, cCmp := 64, cCtl := 16, gen := x.gen }
      ((s.setPort p y).event (scfBase p + 0x20) 0).flood p 0

/-- R392: a new attempt starts 10 ms after a failed one. -/
def State.trainRetry (s : State) (p : Nat) : State :=
  let x := s.port p
  if x.state = 1 ∧ !x.attempt then s.setPort p { x with attempt := true } else s

/-- R393: SCF_DEVID changes only while every port is DISABLED or DOWN. -/
def State.devIdWrite (s : State) (v : Word) : State :=
  if (List.range 8).all fun p => decide ((s.port p).state = 0) || decide ((s.port p).state = 3) then
    s.writeRw 0x78000 0xFFF v
  else s

/-! ## Routes (R407–R410) -/

/-- R410: does device d hold guest pages of this device, or this device guest pages of d? -/
def State.guestsWith (s : State) (d : Nat) : Bool :=
  s.scr.pages.any (fun (e : Nat × PageEnt) => e.2.live && decide (fld e.2.w0 30 2 = 3) && decide (fld e.2.w0 0 12 = d)) ||
    s.scr.guests.any fun g => decide (g.1 / 2 ^ 32 = d)

/-- The result of a route command. -/
def State.rtResult (s : State) (n : Nat) : State := { s with scf := { s.scf with rtres := n } }

/-- The entry that SCF_RTDATA holds: VALID in bit 3, PORT in bits 2:0. -/
def State.rtEntry (s : State) : Nat := nbit (bitAt (s.reg 0x78014) 31) * 8 + fld (s.reg 0x78014) 0 3

/-- R407, READ. -/
def State.rtRead (s : State) : State :=
  if s.scf.upd.isSome then s
  else
    let e := tgetD 0 s.scf.routes (fld (s.reg 0x78010) 0 12)
    (s.setReg 0x78014 (wd (e / 8 * 2 ^ 31 + e % 8))).rtResult 0

/-- R407, R410, WRITE: only from or to an invalid entry. -/
def State.rtWrite (s : State) : State :=
  if s.scf.upd.isSome then s
  else
    let d := fld (s.reg 0x78010) 0 12
    let old := tgetD 0 s.scf.routes d
    let new := s.rtEntry
    if 8 ≤ old ∧ 8 ≤ new then s.rtResult 1
    else if old ≠ new ∧ s.guestsWith d then s.rtResult 1
    else ({ s with scf := { s.scf with routes := tsetD 0 s.scf.routes d new } }).rtResult 0

/-- R407, R408, R410, UPDATE: from a valid entry to a valid one; fences leave on the old port in both classes. -/
def State.rtUpdate (s : State) : State :=
  if s.scf.upd.isSome then s
  else
    let d := fld (s.reg 0x78010) 0 12
    let old := s.route d
    let new := s.rtEntry
    if old = 0 ∨ new < 8 ∨ (old ≠ new - 7 ∧ s.guestsWith d) then s.rtResult 1
    else
      let n := (s.scf.fenceNum + 1) % 65536
      let f : Flit := { typ := 6, dst := d, src := s.devId, tag := n }
      let s1 := { s with scf := { s.scf with fenceNum := n, upd := some ⟨d, new - 8, old - 1, n, []⟩ } }
      if s1.portUp (old - 1) then (s1.enqueue (old - 1) 0 { flit := f }).enqueue (old - 1) 1 { flit := f } else s1

/-- R408: the entry changes and the held flits leave on the new port, in order. -/
def State.updateDone (s : State) (res : Nat) : State :=
  match s.scf.upd with
  | none => s
  | some u =>
    let s1 := ({ s with scf := { s.scf with upd := none, routes := tsetD 0 s.scf.routes u.dev (u.port + 8) } }).rtResult res
    u.held.foldl (fun t e => t.sendTo e.1 e.2) s1

/-- R408: no FENCE_ACK came within 200 µs: forced. -/
def State.updateForced (s : State) : State :=
  if s.scf.upd.isSome then (s.updateDone 2).event 0x78070 1 else s

/-- Path watch commands (R416, R421): READ fills the data registers. -/
def State.pwRead (s : State) : State :=
  let e := fld (s.reg 0x78040) 0 6
  (List.range 9).foldl (fun t i => t.setReg (0x78044 + 4 * i) (tgetD 0#32 t.scf.watch (e * 9 + i))) s

/-- WRITE stores them. -/
def State.pwWrite (s : State) : State :=
  let e := fld (s.reg 0x78040) 0 6
  (List.range 9).foldl (fun t i =>
    { t with scf := { t.scf with watch := tsetD 0#32 t.scf.watch (e * 9 + i) (t.reg (0x78044 + 4 * i)) } }) s

/-! ## Adaptation and device time (R404, R414, R417, R418) -/

/-- R414: an adaptation slice stops the link. -/
def State.adaptSlice (s : State) (p : Nat) : State :=
  if s.portUp p && bitAt (s.reg (scfBase p)) 12 then (s.event (scfBase p + 0x20) 3).delayRemote p 13 else s

/-- Device time at an event: SCF_TIME with the fraction of a microsecond that has passed since it was brought up to date, in
units of 2^-16 ns (R417). DESIGN CHOICE, log entry 5. -/
def State.stamp (s : State) (sub : Nat) : Nat := (s.scf.time + sub % 65536000) % 2 ^ 80

/-- R417: the follower sends TSYNC_REQ, stamped t1 at egress; an earlier exchange without an answer is skipped. `sub` is the
part of a microsecond that has passed. -/
def State.tsyncStart (s : State) (sub : Nat) : State :=
  let p := fld (s.reg 0x78020) 4 3
  if fld (s.reg 0x78020) 0 2 ≠ 2 ∨ !s.on 19 then s
  else
    let s1 := if s.scf.t1.isSome then s.tsyncSkip else s
    if s1.portUp p && !(s1.port p).retry && !(s1.port p).gap then
      ({ s1 with scf := { s1.scf with t1 := some (s1.stamp sub) } }).emit
        (.flit p { typ := 10, dst := (s1.port p).peerDev, src := s1.devId } ((s1.port p).link 0))
    else s1.tsyncSkip

/-- R417: the upstream device answers a TSYNC_REQ with its stamps, in units of 2^-16 ns: `sub2` is the part of a
microsecond at ingress, `turn` the time until the answer's egress. PRESUMED, log entry 47. -/
def State.tsyncReq (s : State) (p : Nat) (l : LinkWord) (sub2 turn : Nat) : State :=
  if s.portUp p then
    let s1 := s.linkWord p l
    let t2 := s1.stamp sub2
    let t3 := (t2 + turn) % 2 ^ 80
    s1.emit (.flit p { typ := 11, dst := (s1.port p).peerDev, src := s1.devId,
                       payload := [wd t2, wd (t2 / 2 ^ 32), wd (t2 / 2 ^ 64), wd t3, wd (t3 / 2 ^ 32), wd (t3 / 2 ^ 64)] }
      ((s1.port p).link 0))
  else s

/-- Device time moves by d units of 2^-16 ns, modulo 2^80. DESIGN CHOICE, log entry 5. -/
def Scarf.moveTime (f : Scarf) (d : Int) : Scarf := { f with time := ((Int.ofNat f.time + d) % (2 ^ 80 : Int)).toNat }

/-- A signed number of ns that saturates at 16 bits (SCF_TSTAT.OFFSET). -/
def sat16s (d : Int) : Word := wdI (if d < -32768 then -32768 else if 32767 < d then 32767 else d) &&& 0xFFFF#32

/-- R418: the answer arrives, stamped t4 `sub4` into a microsecond: delay and offset; the time steps or slews. An exchange
that met a retry is skipped (R417). PRESUMED, log entry 47. -/
def State.tsyncRsp (s : State) (p : Nat) (l : LinkWord) (t2 t3 sub4 : Nat) : State :=
  if !s.portUp p then s
  else
    let s1 := s.linkWord p l
    let t4 := s1.stamp sub4
    match s1.scf.t1 with
    | none => s1
    | some t1 =>
      if p ≠ fld (s1.reg 0x78020) 4 3 ∨ fld (s1.reg 0x78020) 0 2 ≠ 2 then s1
      else
        let delay : Int := ((Int.ofNat t4 - Int.ofNat t1) - (Int.ofNat t3 - Int.ofNat t2)) / 2
        let off : Int := (Int.ofNat t2 - Int.ofNat t1) - delay
        let big := decide (off < -65536000 ∨ 65536000 < off)
        let near := decide (-524288 ≤ off ∧ off ≤ 524288)
        let slew : Int := if off < -819200 then -819200 else if 819200 < off then 819200 else off
        let good := if big then 0 else if near then s1.scf.good + 1 else 0
        let fl : Int := (delay - 50 * 65536) / 4096
        let s2 := s1.setPort p { s1.port p with flight := if fl < 0 then 0 else fl.toNat % 65536 }
        let f := s2.scf.moveTime (if big then off else slew)
        let s3 := { s2 with scf := { f with t1 := none, skipped := 0, good := good,
                                            locked := !big && (f.locked || decide (8 ≤ good)), offset := sat16s (off / 65536) } }
        if big then s3.event 0x78070 2 else s3

/-- R417, R421: SCF_TSET applies when its high word is written, with ROLE = 1. -/
def State.timeSet (s : State) (hi : Bool) (v : Word) : State :=
  if hi then
    if fld (s.reg 0x78020) 0 2 = 1 then
      { s with scf := { s.scf with time := (v.toNat * 2 ^ 32 + s.scf.tsetLo.toNat) * 65536 } }
    else s
  else { s with scf := { s.scf with tsetLo := v } }

/-! ## Registers (R420, R421) -/

/-- A port's registers as read. -/
def State.portRead (s : State) (p o : Nat) : Word :=
  let x := s.port p
  if o = 4 then wd (x.fails % 16 * 2 ^ 24 + x.dcause % 16 * 2 ^ 16 + x.lanes % 16 * 2 ^ 8 + x.width % 4 * 2 ^ 4
    + nbit (x.retry || x.gap) * 8 + x.state % 8)
  else if o = 8 then (if x.state = 2 then wd (2 ^ 31 + x.peerPort % 8 * 2 ^ 16 + x.peerDev % 4096) else 0#32)
  else if o = 0xC then wd (x.flight % 65536)
  else if o = 0x10 then wd x.rmax
  else s.readKind (scfBase p + o)

/-- The common registers as read. -/
def State.scfRead (s : State) (o : Nat) : Word :=
  if o = 0x1C then wd (nbit s.scf.upd.isSome * 2 ^ 31 + s.scf.rtres % 4)
  else if o = 0x24 then wd (nbit s.scf.locked * 2 ^ 31) ||| s.scf.offset
  else if o = 0x28 then wd (s.scf.time / 65536)
  else if o = 0x2C then wd (s.scf.time / 65536 / 2 ^ 32)
  else s.readKind (0x78000 + o)

end Sys2Proof.Machine
end

