-- ==== Sys2Proof/Machine/PciConfig.lean ====
section
/-!
DEFINITION. The configuration space of the PCI Express endpoint (R422, R425, R431): what a host configuration read shows,
which bits a write changes, and Advanced Error Reporting (R433). The registers and their places are those of the PCI
Express Base Specification, to which the endpoint conforms; the offsets of the capabilities are the model's. PRESUMED,
log entry 50.
-/
namespace Sys2Proof.Machine

/-! ## Registers -/

/-- The writable bits of the word at configuration offset o: Command, the BARs by type and size (R425), Device Control, and
the masks, severities and ECRC enables of AER. PRESUMED, log entry 50. -/
def pciMask (o : Nat) : Word :=
  if o = 0x04 then 0x146#32
  else if o = 0x10 then 0xFC000000#32
  else if o = 0x18 then 0xF0000000#32
  else if o = 0x14 ∨ o = 0x1C then 0xFFFFFFFF#32
  else if o = 0x24 then 0xFFFFFFFC#32
  else if o = 0x78 then 0x70EF#32
  else if o = 0x108 ∨ o = 0x10C then 0x005FB010#32
  else if o = 0x114 then 0x0000F1C1#32
  else if o = 0x118 then 0x140#32
  else 0#32

/-- The reset values of the writable words: Max_Payload_Size 128, and the default masks and severities (R433). PRESUMED,
log entry 50. -/
def pciReset (o : Nat) : Word :=
  if o = 0x78 then 0x2000#32
  else if o = 0x108 then 0x00400000#32
  else if o = 0x10C then 0x00462010#32
  else if o = 0x114 then 0x0000E000#32
  else 0#32

/-- A writable word of configuration space. -/
def Hb.pci (h : Hb) (o : Nat) : Word := tget pciReset h.cfg o

/-- R422: Max_Payload_Size in bytes: 128, 256 or 512. -/
def Hb.mps (h : Hb) : Nat := 128 * 2 ^ min 2 (fld (h.pci 0x78) 5 3)

/-- The bus address at which BAR `i` of 0, 2 and 4 lies (R425). -/
def Hb.barBase (h : Hb) (i : Nat) : Nat := (h.pci (0x10 + 4 * i)).toNat + (h.pci (0x14 + 4 * i)).toNat * 2 ^ 32

/-! ## Advanced Error Reporting (R433) -/

/-- R433: the status bits that the endpoint supports. -/
def aerBits : Nat := 17

/-- Where the specification puts AER status bit i, numbered in the order of R433's table: in Correctable Error Status below
7, in Uncorrectable Error Status from there. PRESUMED, log entry 50. -/
def aerBit (i : Nat) : Nat := [0, 6, 7, 8, 12, 13, 14, 12, 4, 13, 15, 16, 17, 18, 19, 20, 22].getD i 31

/-- Correctable (`false`) or Uncorrectable Error Status; Header Log Overflow is bit 15 of the former. -/
def Hb.aerStatus (h : Hb) (unc : Bool) : Word :=
  h.aer.foldl (fun w i => if decide (7 ≤ i) = unc then w ||| wd (2 ^ aerBit i) else w)
    (if !unc && h.headerLost then 0x8000#32 else 0#32)

/-- The uncorrectable error reported first, to which the header log belongs. -/
def Hb.firstError (h : Hb) : Option Nat := h.aer.find? fun i => decide (7 ≤ i)

/-- R433: an error that is neither masked nor kept from reporting by Device Control is reported to the root complex, with
its severity. PRESUMED, log entry 50. -/
def State.aerMessage (s : State) (i : Nat) : State :=
  let fatal := bitAt (s.hb.pci 0x10C) (aerBit i)
  let kind := if i < 7 then 0 else if fatal then 2 else 1
  if bitAt (s.hb.pci (if i < 7 then 0x114 else 0x108)) (aerBit i) || !bitAt (s.hb.pci 0x78) kind then s
  else s.emit (.errorMessage kind)

/-- R433: AER status bit i is set, numbered in the order of R433's table; `hdr` is the failing TLP's header, which a masked
error does not log. PRESUMED, log entry 50. -/
def State.aer (s : State) (i : Nat) (hdr : List Word) : State :=
  let logs := decide (7 ≤ i) && decide (hdr ≠ []) && !bitAt (s.hb.pci 0x108) (aerBit i)
  let h := { s.hb with
    aer := if s.hb.aer.contains i then s.hb.aer else s.hb.aer ++ [i],
    header := if logs && decide (s.hb.header = []) then hdr else s.hb.header,
    headerLost := s.hb.headerLost || (logs && decide (s.hb.header ≠ [])) }
  let s1 := (({ s with hb := h }).event 0x84020 3).aerMessage i
  if i < 7 then s1.err 1 5 0 0 (s1.sq 0x84020).read
  else if i = 7 then s1.err 2 5 0 0 (s1.sq 0x84020).read
  else if i = 16 then s1.fatal 5 0 0 (s1.sq 0x84020).read
  else s1

/-- Status bits are cleared by writing 1 to them; with the first uncorrectable error its header goes. PRESUMED, log entry
50. -/
def State.aerClear (s : State) (unc : Bool) (v : Word) : State :=
  let gone (i : Nat) : Bool := decide (decide (7 ≤ i) = unc) && bitAt v (aerBit i)
  let first := match s.hb.firstError with | some i => gone i | none => false
  { s with hb := { s.hb with
      aer := s.hb.aer.filter fun i => !gone i,
      header := if first then [] else s.hb.header,
      headerLost := s.hb.headerLost && !(!unc && bitAt v 15) } }

/-- The header of a memory request to a BAR: n dwords at byte offset `off` with its byte enables. Requester and tag are
those of `req`, where the command gives them; else they are free values, as traffic class and attributes are. PRESUMED, log
entry 50. -/
def State.tlp (s : State) (bar : Nat) (write : Bool) (off n fbe lbe : Nat) (poison : Bool) (req : Option Word := none) :
    State × List Word :=
  let a := s.draw
  let b := a.1.draw
  let at_ := (s.hb.barBase bar + off) / 4 * 4
  let long := decide (2 ^ 32 ≤ at_)
  let kind := nbit write * 2 ^ 30 + nbit long * 2 ^ 29 + nbit poison * 2 ^ 14 + n % 1024
  (b.1, [wd kind ||| (a.2 &&& 0x00FCB000#32), (req.getD b.2 &&& 0xFFFFFF00#32) ||| wd (lbe % 16 * 16 + fbe % 16)] ++
    (if long then [wd (at_ / 2 ^ 32)] else []) ++ [wd at_])

/-- The byte enables of a request for n bytes at `off`: dwords, first, last. -/
def byteEnables (off n : Nat) : Nat × Nat × Nat :=
  let k := max 1 (ceilDiv (off % 4 + n) 4)
  let last := (off + n - 1) % 4 + 1
  (k, if k = 1 then (2 ^ n - 1) * 2 ^ (off % 4) % 16 else (15 * 2 ^ (off % 4)) % 16, if k = 1 then 0 else 2 ^ last - 1)

/-- An AER error of a memory request of n bytes to a BAR. -/
def State.aerRequest (s : State) (i bar : Nat) (write : Bool) (off n : Nat) (poison : Bool) (req : Option Word := none) :
    State :=
  let e := byteEnables off n
  let r := s.tlp bar write off e.1 e.2.1 e.2.2 poison req
  r.1.aer i r.2

/-! ## Configuration requests -/

/-- Words of the extended capabilities after AER: Secondary PCI Express, Physical Layer 16.0 GT/s and 32.0 GT/s, Lane
Margining at the Receiver (R422). PRESUMED, log entry 50. -/
def pciExtended (o : Nat) : Word :=
  if o = 0x148 then 0x18010019#32
  else if o = 0x180 then 0x1C010026#32
  else if o = 0x1C0 then 0x2001002A#32
  else if o = 0x200 then 0x00010027#32
  else if o < 0x280 then Config.pcieWord o
  else 0#32

/-- R422, R425, R431, R433: the word at offset o of configuration space. The content of capability registers that the
manual only names is a free value. PRESUMED, log entry 50. -/
def State.pciRead (s : State) (o : Nat) : Word :=
  let h := s.hb
  match o with
  | 0x00 => wd (s.hw.part * 2 ^ 16 + 0x1F4D)
  | 0x04 => h.pci o ||| 0x00100000#32
  | 0x08 => wd (0x12000000 + s.hw.stepping % 256)
  | 0x10 => h.pci o ||| 4#32
  | 0x18 => h.pci o ||| 4#32
  | 0x20 => 0xC#32
  | 0x34 => 0x40#32
  | 0x40 => 0x00035001#32
  | 0x44 => wd (8 + 3 * nbit h.d3)
  | 0x50 => wd (0x11 + 0x70 * 2 ^ 8 + 2047 * 2 ^ 16 + nbit h.fmask * 2 ^ 30 + nbit h.msixOn * 2 ^ 31)
  | 0x54 => 0x88000#32
  | 0x58 => 0x85000#32
  | 0x70 => 0x00020010#32
  | 0x74 => (Config.pcieWord 0x74 &&& 0xFFFFFFF8#32) ||| 2#32
  | 0x94 => Config.pcieWord 0x94 ||| 0x00010000#32
  | 0x100 => 0x14820001#32
  | 0x104 => h.aerStatus true
  | 0x110 => h.aerStatus false
  | 0x118 => h.pci o ||| 0xA0#32 ||| (match h.firstError with | some i => wd (aerBit i) | none => 0#32)
  | 0x11C => h.header.getD 0 0#32
  | 0x120 => h.header.getD 1 0#32
  | 0x124 => h.header.getD 2 0#32
  | 0x128 => h.header.getD 3 0#32
  | _ =>
    if pciMask o ≠ 0#32 then h.pci o
    else if 0x7C ≤ o ∧ o < 0xAC then Config.pcieWord o
    else if 0x148 ≤ o then pciExtended o
    else 0#32

end Sys2Proof.Machine
end

