-- ==== Sys2Proof/Machine/Msix.lean ====
section
/-!
DEFINITION. MSI-X (R431, R432): sending, masking and unmasking a vector, the four device sources, and the ring
messages of R265.
-/
namespace Sys2Proof.Machine

/-- Reset value of word i of the MSI-X table: the specification's mask bit of every entry is 1. PRESUMED, log entry
50. -/
def msixReset (i : Nat) : Word := if i % 4 = 3 then 1#32 else 0#32

/-- Word i of the MSI-X table: entry i / 4. -/
def Hb.entry (h : Hb) (i : Nat) : Word := tget msixReset h.table i

/-- Is the vector held back, by its entry or by the Function Mask, or because the endpoint in D3hot issues no write? A
message due in D3hot is kept in the PBA until D0. DESIGN CHOICE, log entry 51. -/
def Hb.maskedV (h : Hb) (v : Nat) : Bool := h.d3 || h.fmask || bitAt (h.entry (4 * v + 3)) 0

/-- Ring n. -/
def State.ring (s : State) (n : Nat) : Ring := tgetD {} s.qm.rings n

/-- Replace ring n. -/
def State.setRing (s : State) (n : Nat) (r : Ring) : State :=
  { s with qm := { s.qm with rings := tsetD {} s.qm.rings n r } }

/-- HR_CFG of ring n (R272). -/
def State.hrCfg (s : State) (n : Nat) : Word := s.reg (0x31010 + 0x20 * n)

/-- R432: a message due on vector v: lost while MSI-X Enable = 0, kept in the PBA while masked, else sent. -/
def State.signal (s : State) (v : Nat) : State :=
  if !s.hb.msixOn then s
  else if s.hb.maskedV v then { s with hb := { s.hb with pba := tsetD false s.hb.pba v true } }
  else s.emit (.msix v ((s.hb.entry (4 * v)).toNat + (s.hb.entry (4 * v + 1)).toNat * 2 ^ 32) (s.hb.entry (4 * v + 2)))

/-- R265: a ring's message is sent, or kept pending; a message sent opens a moderation window. -/
def State.ringSend (s : State) (n : Nat) : State :=
  let v := fld (s.hrCfg n) 12 11
  let m := s.hb.msixOn && s.hb.maskedV v
  let r := s.ring n
  (s.signal v).setRing n { r with
    waits := false, masked := m, window := !m && s.hb.msixOn && decide (fld (s.hrCfg n) 24 8 ≠ 0) }

/-- R265: a status entry has been written. -/
def State.ringNotify (s : State) (n : Nat) : State :=
  let r := s.ring n
  if r.window then s.setRing n { r with waits := true } else s.ringSend n

/-- R265: MODER µs have passed since ring n's last message. -/
def State.ringWindowEnd (s : State) (n : Nat) : State :=
  let r := s.ring n
  if r.waits then s.ringSend n else s.setRing n { r with window := false }

/-- R432: vector v is no longer masked: one message for everything pending; for a ring it counts as R265's send. -/
def State.unmasked (s : State) (v : Nat) : State :=
  if tgetD false s.hb.pba v && !s.hb.maskedV v then
    let s1 := ({ s with hb := { s.hb with pba := tsetD false s.hb.pba v false } }).signal v
    (List.range 256).foldl (fun t n =>
      let r := t.ring n
      if r.masked && decide (fld (t.hrCfg n) 12 11 = v) then
        t.setRing n { r with masked := false, window := decide (fld (t.hrCfg n) 24 8 ≠ 0) }
      else t) s1
  else s

/-- The vectors whose PBA bit is set. -/
def Hb.pendingV (h : Hb) : List Nat := h.pba.map (·.1)

/-- A write to word i of the MSI-X table. -/
def State.msixWrite (s : State) (i : Nat) (v : Word) : State :=
  let w := if i % 4 = 0 then v &&& 0xFFFFFFFC#32 else if i % 4 = 3 then v &&& 1#32 else v
  ({ s with hb := { s.hb with table := tset msixReset s.hb.table i w } }).unmasked (i / 4)

/-- The MSI-X table and PBA as read (R431). -/
def State.msixRead (s : State) (o : Nat) : Word :=
  if 0x88000 ≤ o then s.hb.entry ((o - 0x88000) / 4)
  else wd (((List.range 32).map fun i => nbit (tgetD false s.hb.pba ((o - 0x85000) / 4 * 32 + i)) * 2 ^ i).foldl (· + ·) 0)

/-- Status output i of the device sources: 0 error notices, 1 the host mailbox, 2 the raising unit, 3 Ethernet (R434). -/
def State.sourceOut (s : State) (i : Nat) : Bool :=
  let up (a : Nat) : Bool := !(s.sq a).ev.isEmpty
  match i with
  | 0 => up 0x90010
  | 1 => up 0xA008C
  | 2 => up 0x50014
  | _ => up 0x80020 || up 0x82020

/-- Does source i signal, and on which vector (R434)? -/
def State.sourceVec (s : State) (i : Nat) : Option Nat :=
  let w := s.reg (if i < 2 then 0x84010 else 0x84014)
  if i % 2 = 0 then (if bitAt w 31 then some (fld w 16 11) else none) else (if bitAt w 15 then some (fld w 0 11) else none)

/-- Source i sends its vector's message if it is enabled. -/
def State.sourceSend (s : State) (i : Nat) : State := match s.sourceVec i with | some v => s.signal v | none => s

/-- R432: a source whose status output has risen since it was last looked at sends its message. -/
def State.watchSource (s : State) (i : Nat) : State :=
  let now := s.sourceOut i
  if now = tgetD false s.hb.outs i then s
  else
    let t := { s with hb := { s.hb with outs := tsetD false s.hb.outs i now } }
    if now then t.sourceSend i else t

/-- The four sources. DESIGN CHOICE, log entry 9. -/
def State.watchSources (s : State) : State := [0, 1, 2, 3].foldl State.watchSource s

/-- The source that a status register drives. -/
def sourceOf (a : Nat) : Option Nat :=
  if a = 0x90010 then some 0 else if a = 0xA008C then some 1 else if a = 0x50014 then some 2
  else if a = 0x80020 ∨ a = 0x82020 then some 3 else none

/-- R53, R432: a clearing write; a source whose output it leaves asserted sends again. -/
def State.sqClear (s : State) (a : Nat) (v : Word) : State :=
  let t := s.writeSq a v
  match sourceOf a with
  | some i => if t.sourceOut i then t.sourceSend i else t
  | none => t

/-- R432: the driver writes MSI-X Enable and the Function Mask. A rise of MSI-X Enable sends for every asserted
source; a falling Function Mask releases what is pending. DESIGN CHOICE, log entry 51. -/
def State.msixControl (s : State) (on mask : Bool) : State :=
  let t := { s with hb := { s.hb with msixOn := on, fmask := mask } }
  let u := if on && !s.hb.msixOn then
      [0, 1, 2, 3].foldl (fun x i => if x.sourceOut i then x.sourceSend i else x) t
    else t
  if on then u.hb.pendingV.foldl State.unmasked u else u

end Sys2Proof.Machine
end

