-- ==== Sys2Proof/Machine/Queues.lean ====
section
/-!
DEFINITION. The queue manager (R235–R272): descriptors, room and placement, commit and refusal, notices, landing, send
queues, host doorbells and rings, descriptor commands, timeouts, and what happens to the messages of a bay that goes
down.
-/
namespace Sys2Proof.Machine

/-! ## The descriptor (R237) -/

/-- STATE. -/
def Queue.state (q : Queue) : Nat := fld q.w0 30 2
/-- BIND: 0 NONE, 1 TASK, 2 HOST, 3 ETH_TX. -/
def Queue.bind (q : Queue) : Nat := fld q.w0 28 2
/-- PRIO. -/
def Queue.prio (q : Queue) : Nat := fld q.w0 26 2
/-- POLICY: waiting for room. -/
def Queue.waits (q : Queue) : Bool := bitAt q.w0 25
/-- SPILL. -/
def Queue.spill (q : Queue) : Bool := bitAt q.w0 24
/-- HOME. -/
def Queue.home (q : Queue) : Nat := fld q.w0 20 4
/-- TARGET. -/
def Queue.target (q : Queue) : Nat := fld q.w0 0 14
/-- LIMIT. -/
def Queue.limit (q : Queue) : Nat := fld q.w1 0 18
/-- TMO. -/
def Queue.tmo (q : Queue) : Nat := fld q.w2 16 16
/-- BPWAIT. -/
def Queue.bpwait (q : Queue) : Nat := fld q.w2 8 8
/-- PATH. -/
def Queue.path (q : Queue) : Bool := bitAt q.w3 31
/-- SRCDEV. -/
def Queue.srcdev (q : Queue) : Nat := fld q.w3 0 12

/-- R240: cells held: waiting, landed and in service. -/
def Queue.cells (q : Queue) : Nat := (q.msgs.map Msg.cells).foldl (· + ·) 0 + q.away

/-- Word 0 with another STATE. -/
def Queue.setState (q : Queue) (st : Nat) : Queue := { q with w0 := putFld q.w0 30 2 st }

/-- R239, R476, R522: the queue manager runs: PD_STG is on, the device is not in shoring mode and nothing fatal has
stopped it. -/
def State.qmRuns (s : State) : Bool := s.stgOn && !s.qm.stopped

/-- R18: the global address of a queue of this device. -/
def State.globalOf (s : State) (q : Nat) : Nat := s.devId * 65536 + q % 65536

/-! ## Room and placement (R239, R240) -/

/-- R240: where the cells of a message go: `some true` the overflow area, `some false` the pool, `none` no room. A
notice may use either. DEDUCED, log entry 31. -/
def State.place (s : State) (q : Queue) (cells : Nat) (notice : Bool) : Option Bool :=
  let ag := q.home
  let ovfOk := decide (s.qm.ovf + cells ≤ s.qm.ovfSize)
  if q.inOvf ≠ 0 then (if ovfOk then some true else none)
  else if tgetD 0 s.qm.used ag + cells ≤ tgetD 0 s.qm.cap ag then some false
  else if ovfOk && (notice || q.spill) then some true
  else none

/-- R240, R260: is the queue full for a message? A notice bypasses LIMIT. DEDUCED, log entry 31. -/
def State.fullFor (s : State) (q : Queue) (cells : Nat) (notice : Bool) : Bool :=
  (s.place q cells notice).isNone || (!notice && decide (q.limit ≠ 0) && decide (q.limit < q.cells + cells))

/-- Cells are taken from the pool or the overflow area. DEDUCED, log entry 31. -/
def Qm.take (m : Qm) (agent : Nat) (ovf : Bool) (cells : Nat) : Qm :=
  if ovf then { m with ovf := m.ovf + cells } else { m with used := tsetD 0 m.used agent (tgetD 0 m.used agent + cells) }

/-- Cells are given back. DEDUCED, log entry 31. -/
def Qm.give (m : Qm) (agent : Nat) (ovf : Bool) (cells : Nat) : Qm :=
  if ovf then { m with ovf := m.ovf - cells } else { m with used := tsetD 0 m.used agent (tgetD 0 m.used agent - cells) }

/-- R269: an event when the pool's share of the agent, or the overflow area, has filled. DEDUCED, log entry 31. -/
def State.fillEvent (s : State) (agent : Nat) (ovf : Bool) : State :=
  if ovf then (if s.qm.ovf = s.qm.ovfSize then s.event 0x30040 3 else s)
  else if tgetD 0 s.qm.used agent = tgetD 0 s.qm.cap agent then s.event 0x30040 2 else s

/-- A message enters queue q (R27, R34, R236, R258). The next commit number orders it. -/
def State.enter (s : State) (q : Nat) (m : Msg) (ovf : Bool) : State :=
  let x := s.queue q
  let m1 := { m with commit := s.qm.commits, inOvf := ovf, agent := x.home }
  let s1 := s.setQueue q { x with
    msgs := x.msgs ++ [m1], inOvf := x.inOvf + nbit ovf, silent := x.silent && m.notice }
  (({ s1 with qm := { s1.qm.take x.home ovf m.cells with commits := s1.qm.commits + 1 } }).fillEvent x.home ovf).bump 0x30060

/-- R238, R249: the home agent admits a message: 0, or the reason of its refusal. -/
def State.takeIn (s : State) (q : Nat) (m : Msg) : State × Nat :=
  let x := s.queue q
  if !s.qmRuns || decide (x.state = 0) || decide (x.state = 3) then (s, 2)
  else if s.fullFor x m.cells m.notice then (s, 1)
  else match s.place x m.cells m.notice with
    | some ovf => (s.enter q m ovf, 0)
    | none => (s, 1)

/-- A message of queue q is freed: its cells go back (R255). -/
def State.freeMsg (s : State) (q : Nat) (m : Msg) : State :=
  let x := s.queue q
  let s1 := s.setQueue q { x with inOvf := x.inOvf - nbit m.inOvf }
  { s1 with qm := s1.qm.give m.agent m.inOvf m.cells }

/-- A landed or current message of queue q is freed at DONE (R255). -/
def State.freeAway (s : State) (q : Nat) (m : Msg) : State :=
  let x := s.queue q
  (s.setQueue q { x with away := x.away - m.cells }).freeMsg q m

/-! ## Notices (R260, R553) and refusals (R249) -/

/-- The cell of a notice of KIND 1–3 (R260). -/
def noticeCell (kind w1 w2 : Nat) (w3 : Word) (us : Nat) : List Word :=
  [wd kind, wd (w1 % 2 ^ 28), wd w2, w3, wd us] ++ List.replicate 11 0#32

/-- A notice as a message. -/
def noticeMsg (dev : Nat) (ws : List Word) : Msg := { words := ws, cells := 1, pkind := 3, dev := dev, notice := true }

/-- R260: a notice is posted to a queue of this device, or dropped with NOTICELOST. The answer tells which. -/
def State.postLocal (s : State) (q dev : Nat) (ws : List Word) : State × Bool :=
  let r := s.takeIn q (noticeMsg dev ws)
  if r.2 = 0 then (r.1, true) else (s.event 0x30040 4, false)

/-- R553: a notice for a queue of another device leaves as one QCELL. -/
def State.postRemote (s : State) (ga : Nat) (ws : List Word) : State :=
  s.sendTo 0 { flit := { typ := 1, dst := ga / 65536 % 4096, src := s.devId, tag := ga % 65536, rt := true, index := 2 ^ 13,
                         payload := ws },
               msg := some { queue := ga % 65536, prod := .manager, msg := noticeMsg s.devId ws } }

/-- A notice is posted to a global address. -/
def State.postNotice (s : State) (ga : Nat) (ws : List Word) : State :=
  if ga / 65536 % 4096 = s.devId then (s.postLocal (ga % 65536) s.devId ws).1 else s.postRemote ga ws

/-- R249: a refusal is counted and recorded, and reported to the notice queue. -/
def State.refused (s : State) (notq : Word) (trig : Word) (reason : Nat) : State :=
  let s1 := (s.bump 0x30068).event 0x30040 1
  if bitAt notq 31 then s1.postNotice (fld notq 0 28) (noticeCell 3 (fld trig 0 28) reason trig s.qm.us) else s1

/-- The metadata of a producer (R236): PKIND and INDEX. -/
def Producer.meta (p : Producer) : Nat × Nat :=
  match p with
  | .task t => (0, t)
  | .runtime b => (5, b)
  | .doorbell => (1, 0)
  | .eth n => (2, n)
  | .remote _ rt i => if rt then (5, i) else (4, i)
  | .manager => (3, 0)

/-- The message of a producer: `words` holds 16 words a cell. -/
def Producer.message (p : Producer) (dev : Nat) (words : List Word) (bad : List Nat) : Msg :=
  { words := words, cells := words.length / 16, pkind := p.meta.1, dev := dev, index := p.meta.2, bad := bad }

/-- R249: a producer that is not a bay commits to a queue of this device, or is refused: 0 or the reason. DEDUCED, log
entry 32. -/
def State.commitNow (s : State) (q : Nat) (p : Producer) (words : List Word) : State × Nat :=
  let r := s.takeIn q (p.message s.devId words [])
  if r.2 = 0 then r else (s.refused 0#32 0#32 r.2, r.2)

/-! ## Send queues (R246–R251) -/

/-- R247: is a store that the bay issued before the ENQ still unacknowledged? -/
def Bay.storesBefore (b : Bay) (gate : Nat) : Bool :=
  b.pipe.flights.any fun (f : Flight) => decide (f.id < gate) && (match f.out with
    | some o => o.store && o.readable.isNone
    | none => false)

/-- The head of a bay's send queue changes. DEDUCED, log entry 32. -/
def Bay.onHead (b : Bay) (g : SendMsg → SendMsg) : Bay :=
  match b.qio.sendq with
  | m :: t => { b with qio := { b.qio with sendq := g m :: t } }
  | [] => b

/-- The head message leaves the send queue for good. -/
def Bay.popSend (b : Bay) : Bay := { b with qio := { b.qio with sendq := b.qio.sendq.tail } }

/-- The producer of a message in bay b's send queue (R251). -/
def SendMsg.producer (m : SendMsg) (b : Nat) : Producer := if m.rt then .runtime b else .task m.task

/-- The cells of a message as QCELL flits (R395, R411). The last one carries the message, to answer for it. -/
def State.qcells (s : State) (t : Transit) (ga : Nat) (rt : Bool) (index : Nat) : List TxFlit :=
  (List.range t.msg.cells).map fun i =>
    { flit := { typ := 1, dst := ga / 65536 % 4096, src := s.devId, tag := ga % 65536, cell := i, ncell := t.msg.cells - 1,
                poison := t.msg.bad.any fun w => decide (w / 16 = i), rt := rt, index := index,
                payload := (t.msg.words.drop (16 * i)).take 16 },
      msg := if i + 1 = t.msg.cells then some t else none }

/-- R247: the head message of bay b's send queue leaves once every earlier store is acknowledged: for its home agent,
or, for another device, through a scarf port. One message of a send queue is under way at a time. DEDUCED, log entry
32. -/
def State.depart (s : State) (k : Nat) : State :=
  let b := s.bay k
  match b.qio.sendq with
  | [] => s
  | m :: _ =>
    if m.out || b.storesBefore m.gate || !s.qmRuns then s
    else
      let ga := fld m.trig 0 28
      let p := m.producer k
      let t : Transit := { queue := ga % 65536, prod := p, msg := p.message s.devId m.words [], bay := some k,
                           trig := m.trig, notq := m.notq }
      if ga / 65536 = s.devId then
        let s1 := s.onBay k fun c => c.onHead fun x => { x with out := true }
        { s1 with qm := { s1.qm with transit := s1.qm.transit ++ [t] } }
      else
        let s1 := s.onBay k Bay.popSend
        (s1.qcells { t with bay := none } ga m.rt (if m.rt then k else m.task)).foldl (fun x f => x.sendTo 0 f) s1

/-- A message under way is settled: its place in the send queue frees. -/
def State.settleTransit (s : State) (i : Nat) (t : Transit) : State :=
  let s1 := { s with qm := { s.qm with transit := s.qm.transit.eraseIdx i } }
  match t.bay with
  | some k => s1.onBay k Bay.popSend
  | none => s1

/-- R249, R250: the home agent takes the i-th message under way: commits it, refuses it, or lets it wait. `expired` tells
that BPWAIT has passed. -/
def State.commitTransit (s : State) (i : Nat) (t : Transit) (expired : Bool) : State :=
  let r := s.takeIn t.queue t.msg
  if r.2 = 0 then r.1.settleTransit i t
  else if r.2 = 1 && (s.queue t.queue).waits && t.bay.isSome && !expired && decide ((s.queue t.queue).bpwait ≠ 0) then
    match t.bay with
    | some k => s.onBay k fun c => c.onHead fun x => { x with waiting := true }
    | none => s
  else
    let reason := if r.2 = 1 ∧ (s.queue t.queue).waits ∧ t.bay.isSome then 4 else r.2
    (s.settleTransit i t).refused t.notq t.trig reason

/-- Does an earlier message of the same producer for the same queue come first (R27)? -/
def Qm.behind (m : Qm) (i : Nat) (t : Transit) : Bool :=
  (m.transit.take i).any fun u => decide (u.prod = t.prod) && decide (u.queue = t.queue)

/-- The message under way of bay k, with its place in the list. -/
def Qm.transitOf (m : Qm) (k : Nat) : Option (Nat × Transit) :=
  (m.transit.zipIdx.find? fun e => decide (e.1.bay = some k)).map fun e => (e.2, e.1)

/-- R34, R249: MESSAGE_COMMIT: the i-th message under way reaches its home agent, after the earlier ones of its producer. A
message that waits at its full queue is left to ROOM_COMMIT and WAIT_EXPIRED. -/
def State.commitAt (s : State) (i : Nat) : State :=
  match s.qm.transit[i]? with
  | none => s
  | some t =>
    let waiting : Bool := match t.bay with
      | some k => (s.bay k).qio.sendq.head?.any fun m => m.waiting
      | none => false
    if !s.qmRuns || s.qm.behind i t || waiting then s else s.commitTransit i t false

/-- R250: room has appeared, or BPWAIT has passed, for the waiting message of bay k. -/
def State.waiterAgain (s : State) (k : Nat) (expired : Bool) : State :=
  match s.qm.transitOf k with
  | none => s
  | some (i, t) =>
    if s.qmRuns && (s.bay k).qio.sendq.head?.any (fun m => m.waiting) then s.commitTransit i t expired else s

/-! ## Landing (R241, R267, R268) -/

/-- Cells of bay k's landing in use: landed, and in service until DONE. -/
def Qio.landed (q : Qio) : Nat :=
  (q.landing.map fun l => l.msg.cells).foldl (· + ·) 0 + (q.cur.map fun l => l.msg.cells).getD 0

/-- The next message to land on a bay that holds slots: highest PRIO, then earliest commit, of the ENABLED queues bound to
its tasks (R241). -/
def State.nextToLand (s : State) (b : Bay) : Option (Nat × Msg) :=
  s.qm.queues.foldl (fun best e =>
    let x : Queue := e.2
    match x.msgs.head? with
    | some m =>
      if x.state = 1 ∧ x.bind = 1 ∧ (b.qio.slotOf x.target).isSome then
        (match best with
         | none => some (e.1, m)
         | some (j, n) =>
           let y := s.queue j
           if y.prio < x.prio ∨ (y.prio = x.prio ∧ m.commit < n.commit) then some (e.1, m) else some (j, n))
      else best
    | none => best) none

/-- R241: the next message lands on bay k when the landing has room for all of it; `bad` names words found uncorrectable
in the pool or the overflow area (R236). -/
def State.land (s : State) (k : Nat) (bad : List Nat) : State :=
  let b := s.bay k
  if b.state ≠ 3 ∨ b.sill ∨ !s.qmRuns then s
  else match s.nextToLand b with
    | none => s
    | some (q, m) =>
      if 16 < b.qio.landed + m.cells then s
      else
        let x := s.queue q
        let m1 := { m with bad := m.bad ++ bad.filter fun w => decide (w < 16 * m.cells) && decide (w ∉ m.bad) }
        let s1 := s.setQueue q { x with msgs := x.msgs.tail, away := x.away + m.cells }
        s1.onBay k fun c =>
          { c with qio := { c.qio with landing := c.qio.landing ++ [⟨q, x.target, x.prio, m1⟩] } }

/-- Landed messages in commit order. -/
def byCommit : List Landed → List Landed
  | [] => []
  | l :: t => put l (byCommit t)
where
  put (l : Landed) : List Landed → List Landed
    | [] => [l]
    | x :: r => if x.msg.commit < l.msg.commit then x :: put l r else l :: x :: r

/-- Messages go back to the head of queue q, in their original order. -/
def State.giveBack (s : State) (q : Nat) (ls : List Landed) (redelivered : Bool) : State :=
  let x := s.queue q
  let ms := (byCommit ls).map fun l => { l.msg with redelivered := l.msg.redelivered || redelivered }
  s.setQueue q { x with msgs := ms ++ x.msgs, away := x.away - (ms.map Msg.cells).foldl (· + ·) 0 }

/-- R267, R270: the landed messages of queue q that are not in service go back. -/
def State.unland (s : State) (q : Nat) : State :=
  (s.bays.map (·.1)).foldl (fun t k =>
    let b := t.bay k
    let mine := b.qio.landing.filter fun l => decide (l.queue = q)
    if mine = [] then t
    else (t.giveBack q mine false).onBay k fun c =>
      { c with qio := { c.qio with landing := c.qio.landing.filter fun l => decide (l.queue ≠ q) } }) s

/-- Queue numbers of a list of landed messages, once each. -/
def queuesOf (ls : List Landed) : List Nat := (ls.map Landed.queue).eraseDups

/-- R268: bay k went down or was reset. Messages still in its send queue are refused ISOLATED; those under way go on; its
landed message and the one in service go back, REDELIVERED. -/
def State.bayMessages (s : State) (k : Nat) : State :=
  let b := s.bay k
  let gone := b.qio.sendq.filter fun m => !m.out || m.waiting
  let waits := b.qio.sendq.any fun m => m.waiting
  let back := b.qio.landing ++ b.qio.cur.toList
  let s1 := s.setBay k { b with qio := { b.qio with sendq := [], landing := [], cur := none } }
  let s2 := { s1 with qm := { s1.qm with
    transit := (s1.qm.transit.filter fun t => !(waits && decide (t.bay = some k))).map fun t =>
      if t.bay = some k then { t with bay := none } else t } }
  let s3 := gone.foldl (fun t m => t.refused m.notq m.trig 5) s2
  (queuesOf back).foldl (fun t q => t.giveBack q (back.filter fun l => decide (l.queue = q)) true) s3

/-! ## Descriptor commands (R270, R271) -/

/-- R382: during steps 5–10 of a full raise, commands and writes to the queue manager, the scribe and bank owners are
ignored. -/
def State.raiseLocks (s : State) : Bool := s.rsu.busy && decide (s.rsu.op = 1) && decide (5 ≤ s.rsu.step)

/-- Bits of descriptor word n that are not reserved (R237). -/
def descMask (n : Nat) : Nat :=
  if n = 0 then 0xFFF03FFF else if n = 1 then 0x3FFFF else if n = 2 then 0xFFFFFF00 else 0x80000FFF

/-- The descriptor that QM_DDATA0–3 hold. -/
def State.descData (s : State) : List Word := (List.range 4).map fun n => s.reg (0x30014 + 4 * n) &&& wd (descMask n)

/-- A queue with descriptor words. -/
def Queue.withDesc (q : Queue) (ws : List Word) : Queue :=
  { q with w0 := ws.getD 0 0#32, w1 := ws.getD 1 0#32, w2 := ws.getD 2 0#32, w3 := ws.getD 3 0#32, silent := false }

/-- R342: is the task in steps 2–7 of a move? -/
def State.taskMoving (s : State) (t : Nat) : Bool := s.scr.taskMoves.any fun m => decide (m.task = t)

/-- R270, R262: the result a WRITE gets: 0 accepted, 1 refused, 3 the host ring is bound already. -/
def State.descCheck (s : State) (q : Nat) (ws : List Word) : Nat :=
  let old := s.queue q
  let new := old.withDesc ws
  let keep := 0x31F03FFF#32
  if new.state = 3 ∨ (old.state = 2) ≠ (new.state = 2) then 1
  else if new.state = 1 ∧ old.state ≠ 1 ∧ new.bind = 1 ∧ s.taskMoving new.target then 1
  else if old.state ≠ 0 ∧ ((new.state ≠ old.state ∧ new.state ≠ 0) ∨ (old.w0 ^^^ new.w0) &&& keep ≠ 0#32) then 1
  else if new.bind = 2 ∧ s.qm.queues.any fun (e : Nat × Queue) =>
      decide (e.1 ≠ q) && decide (e.2.bind = 2) && decide (e.2.target = new.target) then 3
  else 0

/-- R270: a checked write is applied in one step. Disabling returns the landed messages. -/
def State.descApply (s : State) (q : Nat) (ws : List Word) : State :=
  let old := s.queue q
  let new := old.withDesc ws
  let s1 := s.setQueue q new
  if new.state = 0 ∧ old.state ≠ 0 then s1.unland q
  else { s1 with bays := s1.bays.map fun (e : Nat × Bay) => (e.1, { e.2 with qio := { e.2.qio with
          landing := e.2.qio.landing.map fun l => if l.queue = q then { l with prio := new.prio } else l } }) }

/-- The result of a descriptor command. -/
def State.dResult (s : State) (n : Nat) : State := { s with qm := { s.qm with dres := n } }

/-- R270, READ. -/
def State.descRead (s : State) : State :=
  if !s.qmRuns || s.raiseLocks then s
  else
    let x := s.queue (fld (s.reg 0x30010) 0 16)
    let s1 := (((s.setReg 0x30014 x.w0).setReg 0x30018 x.w1).setReg 0x3001C x.w2).setReg 0x30020 x.w3
    ({ s1 with qm := { s1.qm with ddepth := x.cells } }).dResult 0

/-- R270, WRITE. -/
def State.descWrite (s : State) : State :=
  if !s.qmRuns || s.raiseLocks then s
  else
    let q := fld (s.reg 0x30010) 0 16
    match s.descCheck q s.descData with
    | 0 => (s.descApply q s.descData).dResult 0
    | n => s.dResult n

/-- R271, WRITEP. -/
def State.descWritep (s : State) : State :=
  if !s.qmRuns || s.raiseLocks then s
  else
    let q := fld (s.reg 0x30010) 0 16
    match s.descCheck q s.descData with
    | 0 => if 16 ≤ s.qm.pend.length then s.dResult 2
           else ({ s with qm := { s.qm with pend := s.qm.pend ++ [PendWrite.mk q s.descData] } }).dResult 0
    | n => s.dResult n

/-- R271: at the peg, the pending writes it captured are checked again and applied in the order stored. DEDUCED, log
entry 13. -/
def State.applyPending (s : State) : State :=
  (s.qm.pend.take s.qm.pegPend).foldl (fun t p =>
    if t.descCheck p.queue p.words = 0 then t.descApply p.queue p.words else t.event 0x30040 5)
    { s with qm := { s.qm with pend := s.qm.pend.drop s.qm.pegPend, pegPend := 0 } }

/-! ## Doorbells (R261, R263) -/

/-- A doorbell write that is discarded (R261). -/
def State.hostBad (s : State) : State := s.event 0x30040 0

/-- R261: a write TLP of n bytes at an offset below 0x100 of queue q's doorbell page. DEDUCED, log entry 32. -/
def State.doorbell (s : State) (q off : Nat) (data : List Byte) : State :=
  if !s.qmRuns then s
  else if off = 0 ∧ data.length % 64 = 0 ∧ data ≠ [] ∧ data.length ≤ 256 then
    (s.commitNow (q % 65536) .doorbell (wordsOf data)).1
  else s.hostBad

/-- R261: a write to DB_WORD. -/
def State.doorbellWord (s : State) (q : Nat) (data : List Byte) : State :=
  if !s.qmRuns then s
  else if data.length = 4 ∨ data.length = 8 then
    (s.commitNow (q % 65536) .doorbell (wordsOf (data ++ zeros (64 - data.length)))).1
  else s.hostBad

/-- R263: a write to DB_HEAD of queue q. -/
def State.doorbellHead (s : State) (q : Nat) (v : Word) : State :=
  let x := s.queue (q % 65536)
  if !s.qmRuns || decide (x.bind ≠ 2) then s
  else
    let n := x.target % 256
    let r := s.ring n
    let h := fld v 0 16
    if (h + 65536 - r.head) % 65536 ≤ (r.tail + 65536 - r.head) % 65536 then s.setRing n { r with head := h } else s

/-- DB_STAT of queue q (R261). DEDUCED, log entry 34. -/
def State.doorbellStat (s : State) (q : Nat) : Word :=
  let x := s.queue (q % 65536)
  wd (x.state * 2 ^ 30 + x.cells % 2 ^ 18)

/-- R261: a host write at BAR2 offset `off`. -/
def State.bar2Put (s : State) (off : Nat) (data : List Byte) : State :=
  let q := off / 0x1000
  let o := off % 0x1000
  if o < 0x100 then s.doorbell q o data
  else if o = 0x100 then s.doorbellWord q data
  else if o = 0x180 ∧ data.length = 4 then s.doorbellHead q ((wordsOf data).headD 0#32)
  else if o < 0x200 ∧ s.qmRuns then s.hostBad
  else s

/-- R261: n bytes at BAR2 offset `off`: DB_STAT, and zeros elsewhere. -/
def State.bar2Get (s : State) (off n : Nat) : List Byte :=
  (List.range n).map fun i =>
    let a := off + i
    if a % 0x1000 / 4 = 0x200 then ((toBytes 4 (s.doorbellStat (a / 0x1000)).toNat).getD (a % 4) 0#8) else 0#8

/-! ## Host rings (R262–R264, R272, R467) -/

/-- R272: a write to HR_CFG of ring n: K keeps its value while EN = 1 or for a value outside 4–15; setting EN sets
SEQ, HEAD and TAIL to 0. DEDUCED, log entry 33. -/
def State.ringCfg (s : State) (n : Nat) (v : Word) : State :=
  let old := s.hrCfg n
  let w := v &&& 0xFF7FF10F#32
  let w1 := if bitAt old 8 || decide (fld w 0 4 < 4) then putFld w 0 4 (fld old 0 4) else w
  let s1 := s.setReg (0x31010 + 0x20 * n) w1
  if bitAt v 8 && !bitAt old 8 then s1.setRing n { (s1.ring n) with seq := 0, head := 0, tail := 0 } else s1

/-- R272: a write to a base register of ring n, offset o below 0x10: ignored while EN = 1. -/
def State.ringBase (s : State) (n o : Nat) (v : Word) : State :=
  if bitAt (s.hrCfg n) 8 then s
  else
    let m := if o = 0 then 0xFFFFFF00#32 else if o = 8 then 0xFFFFFFF8#32 else 0xFFFFFFFF#32
    s.setReg (0x31000 + 0x20 * n + o) (v &&& m)

/-- The queue that is bound to host ring n. -/
def State.ringQueue (s : State) (n : Nat) : Option Nat :=
  (s.qm.queues.find? fun (e : Nat × Queue) => decide (e.2.bind = 2) && decide (e.2.target = n)).map (·.1)

/-- Bytes of a host address register pair. -/
def State.hostAddr (s : State) (a : Nat) : Nat := (s.reg a).toNat + (s.reg (a + 4)).toNat * 2 ^ 32

/-- The status entry of a message (R262). -/
def State.statusEntry (s : State) (q seq k tail : Nat) (m : Msg) : Nat :=
  seq % 65536 + (m.cells - 1) % 4 * 2 ^ 16 + nbit m.notice * 2 ^ 18 + nbit (!m.bad.isEmpty) * 2 ^ 19
    + nbit m.redelivered * 2 ^ 20 + (1 - tail / 2 ^ k % 2) * 2 ^ 31 + s.globalOf q * 2 ^ 32

/-- R424: posted writes to host memory: none exceeds Max_Payload_Size, and since the address of each piece is a multiple of
its size none crosses a 4 KiB boundary. -/
def State.hostWrites (s : State) (a : Nat) (data : List Byte) : State :=
  (List.range (ceilDiv data.length s.hb.mps)).foldl (fun t i =>
    t.emit (.hostWrite (a + s.hb.mps * i) ((data.drop (s.hb.mps * i)).take s.hb.mps))) s

/-- R262–R265, R422, R467: the next message of the queue bound to ring n is written to its slot, then its status entry, while
the ring is enabled, has a free slot and the host link is up in D0. -/
def State.ringWrite (s : State) (n : Nat) : State :=
  let cfg := s.hrCfg n
  let r := s.ring n
  let k := fld cfg 0 4
  if !s.qmRuns || !bitAt cfg 8 || !s.hb.up || s.hb.d3 || decide (2 ^ k ≤ (r.tail + 65536 - r.head) % 65536) then s
  else match s.ringQueue n with
    | none => s
    | some q =>
      let x := s.queue q
      match x.msgs with
      | [] => s
      | m :: t =>
        if x.state ≠ 1 then s
        else
          let i := r.tail % 2 ^ k
          let seq := (r.seq + 1) % 65536
          let a := 0x31000 + 0x20 * n
          let s1 := (s.setQueue q { x with msgs := t }).freeMsg q m
          let s2 := (s1.hostWrites (s.hostAddr a + 256 * i) (bytesOf (m.words.take (16 * m.cells)))).hostWrites
            (s.hostAddr (a + 8) + 8 * i) (toBytes 8 (s.statusEntry q seq k r.tail m))
          (s2.setRing n { r with seq := seq, tail := (r.tail + 1) % 65536 }).ringNotify n

/-! ## Timeouts and link-down notices (R258, R259, R416) -/

/-- The links that queue q's timeout watches, as (device, port): those of the matching path watch entry, else this device's
port that routes toward SRCDEV (R416). -/
def State.watched (s : State) (x : Queue) : List (Nat × Nat) :=
  let entry := (List.range 64).find? fun e =>
    let w := tgetD 0#32 s.scf.watch (e * 9)
    bitAt w 31 && decide (fld w 0 12 = x.srcdev)
  match entry with
  | some e =>
    (List.range (min 8 (fld (tgetD 0#32 s.scf.watch (e * 9)) 12 4))).map fun i =>
      let w := tgetD 0#32 s.scf.watch (e * 9 + 1 + i)
      (fld w 0 12, fld w 12 3)
  | none => if s.route x.srcdev = 0 then [] else [(s.devId, s.route x.srcdev - 1)]

/-- Is the timeout of the queue path-aware (R259)? DEDUCED, log entry 33. -/
def State.pathAware (s : State) (x : Queue) : Bool :=
  x.path && decide (x.srcdev ≠ s.devId) && decide (x.tmo ≠ 0) && (decide (x.state = 1) || decide (x.state = 2))

/-- Does a watched link show RETRY (R416)? -/
def State.pathRetry (s : State) (x : Queue) : Bool :=
  s.pathAware x && (s.watched x).any fun l =>
    match tgetD none s.scf.view (l.1 * 8 + l.2) with
    | some v => decide (v.1 = 1)
    | none => false

/-- R258: the arrival timer of queue q reaches TMO: a TIMEOUT notice. The timer runs from the commit of a raise and
stands while a watched link retries or a LINK_DOWN notice has stopped it. DEDUCED, log entry 33. -/
def State.queueTimeout (s : State) (q : Nat) : State :=
  let x := s.queue q
  if !s.qmRuns || !s.rsu.raised || decide (x.tmo = 0) || x.silent || !(decide (x.state = 1) || decide (x.state = 2))
      || s.pathRetry x then s
  else ((s.postLocal q s.devId (noticeCell 1 (s.globalOf q) 0 0#32 s.qm.us)).1).bump 0x30070

/-- R259, R416: link (device, port) shows DOWN: every path-aware queue that watches it gets a LINK_DOWN notice, and
its timer stops. DEDUCED, log entry 33. -/
def State.pathDown (s : State) (dev port : Nat) : State :=
  (s.qm.queues.map (·.1)).foldl (fun t q =>
    let x := t.queue q
    if s.qmRuns && t.pathAware x && decide ((dev, port) ∈ t.watched x) then
      let u := ((t.postLocal q t.devId (noticeCell 2 (t.globalOf q) port 0#32 t.qm.us)).1).bump 0x30070
      u.setQueue q { u.queue q with silent := true }
    else t) s

/-- R259: a fenced route update has restored a route from device d: timers stopped for it run again. -/
def State.pathRestored (s : State) (d : Nat) : State :=
  { s with qm := { s.qm with queues := s.qm.queues.map fun (e : Nat × Queue) =>
      if e.2.srcdev = d then (e.1, { e.2 with silent := false }) else e } }

/-- QM_POOL: pool cells in use at all agents. -/
def Qm.pool (m : Qm) : Nat := (m.used.map (·.2)).foldl (· + ·) 0

/-- Queue manager registers as read (R269, R272). -/
def State.qmRead (s : State) (o : Nat) : Word :=
  if o = 0x28 then wd s.qm.dres
  else if o = 0x2C then wd s.qm.ddepth
  else if o = 0x50 then wd s.qm.pool
  else if o = 0x54 then wd s.qm.ovf
  else if o = 0x58 then wd s.qm.ovfSize
  else if 0x1000 ≤ o ∧ o % 0x20 = 0x14 then wd (s.ring ((o - 0x1000) / 0x20)).tail
  else if 0x1000 ≤ o ∧ o % 0x20 = 0x18 then wd (s.ring ((o - 0x1000) / 0x20)).head
  else s.readKind (0x30000 + o)

end Sys2Proof.Machine
end

