-- ==== Sys2Proof/Machine/Scribe.lean ====
section
/-!
DEFINITION. The scribe's records and page moves (R327–R341, R346, R353): descriptors, where a page may live and which
place it takes, the contents of a page in each tier, the decision log, and the steps of a page move.
-/
namespace Sys2Proof.Machine

/-! ## Records (R327–R331) -/

/-- Key of a page: table × 4,096 + page. -/
def pageKey (t p : Nat) : Nat := t % 2 ^ 20 * 4096 + p % 4096

/-- Table descriptor (R328). -/
def State.table (s : State) (t : Nat) : Word := tgetD 0#32 s.scr.tables t

/-- Page map entry (R329). -/
def State.page (s : State) (k : Nat) : PageEnt := tgetD {} s.scr.pages k

/-- Replace a page map entry. -/
def State.setPage (s : State) (k : Nat) (e : PageEnt) : State :=
  { s with scr := { s.scr with pages := tsetD {} s.scr.pages k e } }

/-- Task descriptor word (R331). -/
def State.taskWord (s : State) (t i : Nat) : Word := tgetD 0#32 s.scr.tasks (t * 8 + i)

/-- Replace a task descriptor word. -/
def State.setTaskWord (s : State) (t i : Nat) (w : Word) : State :=
  { s with scr := { s.scr with tasks := tsetD 0#32 s.scr.tasks (t * 8 + i) w } }

/-- Tier of a page map word (R329). -/
def tierOf (w : Word) : Nat := fld w 30 2

/-- Where a page lies, without FENCE and MOVING. -/
def placeOf (w : Word) : Word := w &&& 0xC3FFFFFF#32

/-- A page map word for a tier and location. -/
def placeWord (tier loc : Nat) : Word := wd (tier % 4 * 2 ^ 30 + loc % 2 ^ 26)

/-- POLICY of a table descriptor or of word 0 of a task descriptor: 0 FIXED, 1 STEERED, 2 FREE. -/
def policyOf (w : Word) : Nat := fld w 29 2

/-- The epoch number (R336). -/
def State.epoch (s : State) : Nat := s.count 0x40010

/-- R332: is tier t permitted by the descriptor itself? DEDUCED, log entry 44. -/
def State.tierAllowed (s : State) (d : Word) (t : Nat) : Bool :=
  bitAt d (24 + t) && (decide (t ≠ 3) || (bitAt d 28 && bitAt (s.reg 0x400D0) 31))

/-! ## Windows that map a table (R332) -/

/-- PLACED. -/
def State.taskPlaced (s : State) (t : Nat) : Bool := bitAt (s.taskWord t 0) 28

/-- BAY of a placed task. -/
def State.taskBay (s : State) (t : Nat) : Nat := fld (s.taskWord t 0) 16 8

/-- Every task with a VALID descriptor, lowest first. -/
def State.taskList (s : State) : List Nat :=
  s.scr.tasks.filterMap fun e => if e.1 % 8 = 0 ∧ bitAt e.2 31 then some (e.1 / 8) else none

/-- Tasks placed on bay b. -/
def State.tasksOn (s : State) (b : Nat) : List Nat :=
  s.taskList.filter fun t => s.taskPlaced t && decide (s.taskBay t = b)

/-- Valid windows of a bay that name table t. -/
def Bay.windowsOf (b : Bay) (t : Nat) : List Nat :=
  (List.range 16).filter fun n => decide (n ≠ 0) && bitAt (b.winA n) 31 && decide (fld (b.winB n) 0 20 = t)

/-- R332: has a bay of an evacuation stopped mapping: have its tasks left it? -/
def State.vacated (s : State) (b : Nat) : Bool :=
  match s.scr.evac with
  | some e => decide (b ∈ e.bays) && (e.pages || (s.tasksOn b).isEmpty)
  | none => false

/-- R332: the (bay, window) pairs that map table t. -/
def State.mappers (s : State) (t : Nat) : List (Nat × Nat) :=
  s.bays.flatMap fun (e : Nat × Bay) =>
    if e.1 < 256 ∧ e.2.state = 3 ∧ s.vacated e.1 = false then (e.2.windowsOf t).map fun n => (e.1, n) else []

/-- The bays that map table t, once each. -/
def State.mapBays (s : State) (t : Nat) : List Nat := ((s.mappers t).map (·.1)).eraseDups

/-- CLASS and PIN of a window. -/
def State.winClass (s : State) (m : Nat × Nat) : Nat := fld ((s.bay m.1).winA m.2) 24 2

/-- Is the window pinned? -/
def State.winPin (s : State) (m : Nat × Nat) : Bool := bitAt ((s.bay m.1).winA m.2) 29

/-- The strictest CLASS of the pinned windows that map table t (R332, R336). -/
def State.pinClass (s : State) (t : Nat) : Option Nat :=
  ((s.mappers t).filter s.winPin).foldl (fun m x => some (match m with
    | none => s.winClass x
    | some c => if s.winClass x < c then s.winClass x else c)) none

/-! ## Places (R329, R332, R337) -/

/-- Is a place held by a page, or reserved by a move or by a decided move (R336, R338)? -/
def State.taken (s : State) (w : Word) : Bool :=
  s.scr.pages.any (fun (e : Nat × PageEnt) => e.2.live && decide (placeOf e.2.w0 = w)) ||
    s.scr.moves.any (fun (m : PageMove) => decide (placeOf m.dst = w)) ||
    s.scr.decided.any fun e => decide (placeOf e.2 = w)

/-- R282, R285: hops from bay b to staging bank n. -/
def bankHops (b n : Nat) : Nat :=
  let r := b / 16
  let g := n / 12
  (if n % 12 < 6 then b % 16 + 1 else 16 - b % 16) + (if r ≤ g then g - r else r - g)

/-- The largest hop count from a set of bays to a bank. -/
def farthest (bs : List Nat) (n : Nat) : Nat := bs.foldl (fun m b => if m < bankHops b n then bankHops b n else m) 0

/-- R346: is the bank being released? -/
def State.releasing (s : State) (n : Nat) : Bool := s.scr.rel.any fun r => decide (r.bank = n)

/-- R332: may bank n hold pages for these bays? -/
def State.bankFit (s : State) (bs : List Nat) (n : Nat) : Bool :=
  let x := s.bank n
  s.stgOn && decide (x.kind = 2) && decide (x.ownKind = 2) && x.awake && !s.releasing n && decide (farthest bs n ≤ 8)

/-- A free page slot of bank n, lowest first. -/
def State.bankSlot (s : State) (n : Nat) : Option Nat := (List.range 4).find? fun i => !s.taken (placeWord 1 (n + 256 * i))

/-- R337: the place in L1. DESIGN CHOICE, log entry 42. -/
def State.pickL1 (s : State) (bs : List Nat) : Option Word :=
  let fit := (List.range 192).filter fun n => s.bankFit bs n && (s.bankSlot n).isSome
  let best : Option Nat := fit.foldl (fun m n => match m with
    | none => some n
    | some c => if farthest bs n < farthest bs c then some n else some c) none
  best.bind fun n => (s.bankSlot n).map fun i => placeWord 1 (n + 256 * i)

/-- R332, R337: the place in L0: the lowest free frame of the one bay that maps the table. DESIGN CHOICE, log entry
42. -/
def State.pickL0 (s : State) (bs : List Nat) : Option Word :=
  match bs with
  | [b] => ((List.range (s.bay b).str.frames).find? fun f => !s.taken (placeWord 0 (b + 256 * f))).map fun f =>
      placeWord 0 (b + 256 * f)
  | _ => none

/-- The lowest free page at or above lo, below hi. -/
def State.freePage (s : State) (lo hi : Nat) : Nat → Option Nat
  | 0 => none
  | n + 1 => if hi ≤ lo then none else if s.taken (placeWord 2 lo) then s.freePage (lo + 1) hi n else some lo

/-- R307: the pages of channel c that its DIMMs hold: first and last + 1 for each slot. -/
def State.slotPages (s : State) (c : Nat) : List (Nat × Nat) :=
  ([0, 1].filter (slotHere (s.memCfg c))).map fun i =>
    let lo := c * 2 ^ 23 + i * 2 ^ 22
    (lo, lo + (if dimmBytes (s.memCfg c) < 2 ^ 38 then dimmBytes (s.memCfg c) else 2 ^ 38) / 65536)

/-- The lowest free page of the scribe's ranges in channel c (R307, R332). -/
def State.freeIn (s : State) (c : Nat) : Option Nat :=
  (s.scr.ranges.flatMap fun r => (s.slotPages c).map fun q => (r, q)).foldl (fun (m : Option Nat) e =>
    let lo := if e.1.1 < e.2.1 then e.2.1 else e.1.1
    let hi := if e.2.2 < e.1.1 + e.1.2 then e.2.2 else e.1.1 + e.1.2
    match s.freePage lo hi (s.scr.pages.length + s.scr.moves.length + s.scr.decided.length + 1), m with
    | some x, some y => some (if x < y then x else y)
    | some x, none => some x
    | none, y => y) none

/-- Summed HEAT of the pages that channel c holds. -/
def State.channelHeat (s : State) (c : Nat) : Nat :=
  s.scr.pages.foldl (fun n (e : Nat × PageEnt) =>
    if e.2.live ∧ tierOf e.2.w0 = 2 ∧ fld e.2.w0 0 26 / 2 ^ 23 = c then n + e.2.heat else n) 0

/-- R332: may the channel hold pages of the table? -/
def State.chanFit (s : State) (d : Word) (c : Nat) : Bool := bitAt d (16 + c) && decide ((s.chan c).state = 2)

/-- R337: the place in L2. DESIGN CHOICE, log entry 42. -/
def State.pickL2 (s : State) (d : Word) : Option Word :=
  let fit := (List.range 8).filter fun c => s.chanFit d c && (s.freeIn c).isSome
  let best : Option Nat := fit.foldl (fun m c => match m with
    | none => some c
    | some x => if s.channelHeat c < s.channelHeat x then some c else some x) none
  best.bind fun c => (s.freeIn c).map fun p => placeWord 2 p

/-- R412: may device d hold guest pages of this device: a member of the span group, peer of a port that is UP, and
routed to directly through that port? DESIGN CHOICE, log entry 45. -/
def State.guestPeer (s : State) (d : Nat) : Bool :=
  decide (d ∈ s.scr.members) && decide (d ≠ s.devId) && decide (s.route d ≠ 0) &&
    s.portUp (s.route d - 1) && decide ((s.port (s.route d - 1)).peerDev = d)

/-- A place in L3. DESIGN CHOICE, log entry 45. -/
def State.pickL3 (s : State) : Option Word := (s.scr.members.find? s.guestPeer).map fun d => placeWord 3 d

/-- R332, R337: the place of a page of table t in a tier, if the tier permits it and has room. -/
def State.pickIn (s : State) (t tier : Nat) : Option Word :=
  let d := s.table t
  let bs := s.mapBays t
  let pinOk : Bool := match s.pinClass t with | some c => decide (tier ≤ c) | none => true
  if !s.tierAllowed d tier || !pinOk then none
  else match tier with
    | 0 => s.pickL0 bs
    | 1 => if bs = [] then none else s.pickL1 bs
    | 2 => s.pickL2 d
    | _ => s.pickL3

/-- R332: does the tier permit the table, room apart? -/
def State.tierFits (s : State) (t tier : Nat) : Bool :=
  let d := s.table t
  let bs := s.mapBays t
  let pinOk : Bool := match s.pinClass t with | some c => decide (tier ≤ c) | none => true
  s.tierAllowed d tier && pinOk && (match tier with
    | 0 => (match bs with | [b] => decide ((s.bay b).str.frames ≠ 0) | _ => false)
    | 1 => decide (bs ≠ []) && (List.range 192).any fun n => s.bankFit bs n
    | 2 => (List.range 8).any fun c => s.chanFit d c
    | _ => s.scr.members.any s.guestPeer)

/-- The fastest tier with room, in the order given. -/
def State.pickAny (s : State) (t : Nat) : List Nat → Option Word
  | [] => none
  | x :: r => match s.pickIn t x with | some w => some w | none => s.pickAny t r

/-- R307, R332: is this exact place permitted for a page of table t, whether it is free or not? -/
def State.placeFits (s : State) (t : Nat) (w : Word) : Bool :=
  let d := s.table t
  let bs := s.mapBays t
  let tier := tierOf w
  let loc := fld w 0 26
  let pinOk : Bool := match s.pinClass t with | some c => decide (tier ≤ c) | none => true
  s.tierAllowed d tier && pinOk && (match tier with
    | 0 => (match bs with
      | [b] => decide (loc % 256 = b) && decide (loc / 256 < (s.bay b).str.frames)
      | _ => false)
    | 1 => decide (bs ≠ []) && decide (loc < 1024) && decide (loc % 256 < 192) && s.bankFit bs (loc % 256)
    | 2 => s.chanFit d (loc / 2 ^ 23) && s.scr.ranges.any (fun r => decide (r.1 ≤ loc) && decide (loc < r.1 + r.2)) &&
        (s.ddrErr (loc * 65536)).isNone
    | _ => decide (loc < 4096) && s.guestPeer loc)

/-- R332: is this exact place permitted for a page of table t, and free? A peer has room as long as it refuses no guest
(R348). -/
def State.placeOk (s : State) (t : Nat) (w : Word) : Bool := s.placeFits t w && (decide (tierOf w = 3) || !s.taken w)

/-! ## Contents of a page (R338, R345) -/

/-- A page as copied: its bytes and its poisoned words. -/
structure PageData where
  byte : Nat → Byte
  bad : List Nat

/-- Words of a page, numbered from its start, that carry a mark. -/
def markedWords (m : Marks) (w0 : Nat) : List Nat :=
  m.filterMap fun e => if w0 ≤ e.1 ∧ e.1 < w0 + 16384 then some e.1 else none

/-- R275, R280, R554: words of scratch are read by the scribe, each as the place where it lies has it: those that come
poisoned. -/
def Bay.readMarked (b : Bay) : List Nat → Bay × List Nat
  | [] => (b, [])
  | w :: t =>
    let r := b.outRead (4 * w)
    let q := r.1.readMarked t
    (q.1, if r.2.2 then w :: q.2 else q.2)

/-- The page at a place is read whole; `remote` is the page as a peer returned it, with its poisoned words. -/
def State.readPage (s : State) (w : Word) (remote : List Byte) (bad : List Nat) : State × PageData :=
  let loc := fld w 0 26
  match tierOf w with
  | 0 =>
    let b := s.bay (loc % 256)
    let base := loc / 256 * 65536
    let r := b.readMarked (markedWords b.smarks (base / 4))
    (s.setBay (loc % 256) r.1, { byte := fun o => b.scratch.byte (base + o), bad := r.2.map (· - base / 4) })
  | 1 =>
    let x := s.bank (loc % 256)
    let base := loc / 256 * 65536
    let r := s.stgWords (loc % 256) (base / 4) (markedWords x.marks (base / 4))
    (r.1, { byte := fun o => x.mem.byte (base + o), bad := r.2 })
  | 2 =>
    let c := loc / 2 ^ 23
    let base := loc * 65536
    let x := s.chan c
    let ls := (x.marks.map (·.1) ++ x.wq.map WLine.line).filter fun l => decide (base / 64 ≤ l) && decide (l < base / 64 + 1024)
    let r := s.readLines c base ls.eraseDups
    (r.1, { byte := fun o => x.see (base + o),
            bad := r.2.flatMap fun l => (List.range 16).map fun i => (l - base / 64) * 16 + i })
  | _ => (s, { byte := fun o => remote.getD o 0#8, bad := bad })

/-- n bytes of a memory from base take new values. -/
def Mem.splice (m : Mem) (base n : Nat) (f : Nat → Byte) : Mem :=
  { m with cells := m.cells.filter (fun c => decide (c.1 < base)) ++
      ((List.range n).filterMap fun o => if f o = memDefault m.gen (base + o) then none else some (base + o, f o)) ++
      m.cells.filter fun c => decide (base + n ≤ c.1) }

/-- Marks of n words from w0: the poison code on the words of `bad`, none on the rest. -/
def spliceMarks (m : Marks) (w0 n : Nat) (bad : List Nat) : Marks :=
  bad.foldl (fun t i => if i < n then setMark t (w0 + i) 3 else t) (tclear m w0 n)

/-- A page is written whole at a place of this device; a peer has had it line by line (R338). -/
def State.writePage (s : State) (w : Word) (d : PageData) : State :=
  let loc := fld w 0 26
  match tierOf w with
  | 0 =>
    let base := loc / 256 * 65536
    s.onBay (loc % 256) fun b => { b with scratch := b.scratch.splice base 65536 d.byte,
                                          smarks := spliceMarks b.smarks (base / 4) 16384 d.bad }
  | 1 =>
    let base := loc / 256 * 65536
    let x := s.bank (loc % 256)
    s.setBank (loc % 256) { x with mem := x.mem.splice base 65536 d.byte,
                                   marks := spliceMarks x.marks (base / 4) 16384 d.bad }
  | 2 =>
    let c := loc / 2 ^ 23
    let base := loc * 65536
    let x := s.chan c
    let inPage (l : Nat) : Bool := decide (base / 64 ≤ l) && decide (l < base / 64 + 1024)
    s.setChan c { x with mem := x.mem.splice base 65536 d.byte,
                         marks := spliceMarks x.marks (base / 64) 1024 (d.bad.map (· / 16)),
                         wq := x.wq.filter fun e => !inPage e.line, back := x.back.filter fun l => !inPage l }
  | _ => s

/-! ## The decision log (R353) -/

/-- A record of the decision log. -/
structure LogRec where
  epoch : Nat := 0
  kind : Nat
  result : Nat := 0
  reason : Nat := 0
  origin : Nat := 0
  subject : Nat := 0
  before : Word := 0
  after : Word := 0
  heat : Nat := 0
  passes : Nat := 0
  fenceNs : Nat := 0
  deriving DecidableEq, Repr

/-- R353: a record is written at SCR_LOGHEAD, or dropped with LOGLOST. -/
def State.log (s : State) (r : LogRec) : State :=
  let cfg := s.reg 0x400C0
  if !bitAt cfg 31 then s
  else
    let head := s.scr.logHead
    let next := (head + 1) % 8192
    if next = fld (s.reg 0x400C8) 0 13 then s.event 0x40020 3
    else
      let ws := [wd r.epoch,
        wd (r.kind % 16 + r.result % 16 * 16 + r.reason % 256 * 256 + r.origin % 4 * 65536), wd r.subject, r.before, r.after,
        wd (if r.heat < 2 ^ 32 then r.heat else 2 ^ 32 - 1), wd (r.passes % 256 + r.fenceNs % 2 ^ 24 * 256), wd s.scr.us]
      let w := s.stgWrite .scribe (fld cfg 0 8 * 0x40000 + head * 32) (bytesOf ws) []
      match w.2.err with
      | some _ => w.1.event 0x40020 3
      | none => { w.1 with scr := { w.1.scr with logHead := next } }

/-! ## Steps of a page move (R338–R341) -/

/-- The move of a page. -/
def State.moveOf (s : State) (k : Nat) : Option PageMove := s.scr.moves.find? fun m => decide (m.key = k)

/-- Change the move of a page. -/
def State.onMove (s : State) (k : Nat) (f : PageMove → PageMove) : State :=
  { s with scr := { s.scr with moves := s.scr.moves.map fun m => if m.key = k then f m else m } }

/-- Is this a request of the copy of page k? -/
def Remote.copies (r : Remote) (k : Nat) : Bool :=
  match r.kind with
  | .copy x _ _ => decide (x = k)
  | _ => false

/-- Does the copy of page k wait for a peer? -/
def State.copying (s : State) (k : Nat) : Bool := s.scf.reqs.any fun r => r.copies k

/-- The move of a page is over, and what its copy still asked for. -/
def State.dropMove (s : State) (k : Nat) : State :=
  { s with scr := { s.scr with moves := s.scr.moves.filter fun m => decide (m.key ≠ k) },
           scf := { s.scf with reqs := s.scf.reqs.filter fun r => !r.copies k } }

/-! ## Requests to peers (R398, R412) -/

/-- A request number that is not in use. -/
def Scarf.freshTag (f : Scarf) : Nat :=
  let ok (t : Nat) : Bool := f.reqs.all fun r => decide (r.tag ≠ t)
  (((List.range (f.reqs.length + 1)).map fun i => (f.tag + 1 + i) % 65536).find? ok).getD 0

/-- Words 0 and 1 of a PREAD or PWRITE: table, page and line. -/
def lineWords (k off : Nat) : List Word := [wd (k / 4096), wd (k % 4096 + off / 32 * 32 * 65536)]

/-- The 64 bytes of a PWRITE: byte enables in word 2, the line in the upper half. -/
def lineStore (k off : Nat) (data : List Byte) : List Word :=
  let a := off % 32
  lineWords k off ++ [wd ((2 ^ data.length - 1) * 2 ^ a)] ++ List.replicate 5 0#32 ++
    wordsOf ((zeros a ++ data ++ zeros 32).take 32)

/-- Is a retry in progress at port p (R403)? -/
def State.retrying (s : State) (p : Nat) : Bool := (s.port p).retry || (s.port p).gap

/-- R398: a request for a line of a guest page goes to device `dev`. The answer is its number. -/
def State.askDev (s : State) (dev bay fid k off : Nat) (data : Option (List Byte)) (poison : Bool) (kind : RemoteKind) :
    State × Nat :=
  let tag := s.scf.freshTag
  let f : Flit := {
    typ := if data.isSome then 3 else 2, dst := dev, src := s.devId, tag := tag, poison := poison,
    payload := match data with | some d => lineStore k off d | none => lineWords k off }
  let s1 := { s with scf := { s.scf with tag := tag, reqs := s.scf.reqs ++ [Remote.mk tag (s.route dev - 1) bay fid kind] } }
  (s1.sendTo 0 { flit := f }, tag)

/-! ## The copy (R338) -/

/-- R275: a scribe copy takes n lines of 64 bytes through the scratch port of the bay whose frame a place names. -/
def State.claimLines (s : State) (w : Word) (n : Nat) : State :=
  if tierOf w = 0 then s.onBay (fld w 0 8) fun b => b.claimPort (16 * n) false else s

/-- R312: the channel that a place names is read or written n times. -/
def State.timeLines (s : State) (w : Word) (n : Nat) : State := if tierOf w = 2 then s.timed (fld w 0 26 / 2 ^ 23) n else s

/-- The page as its peer returned it. DESIGN CHOICE, log entry 44. -/
def PageMove.image (m : PageMove) (remote : List Byte) : List Byte :=
  (List.range 2048).flatMap fun i => match tgetD none m.lines i with
    | some r => (r.data ++ zeros 32).take 32
    | none => (remote.drop (32 * i) ++ zeros 32).take 32

/-- Its poisoned words. -/
def PageMove.imageBad (m : PageMove) : List Nat :=
  m.lines.flatMap fun e => match e.2 with | some r => r.bad.map (· + 8 * e.1) | none => []

/-- R338, R398: lines of the page are copied: those of a source in L3 are asked for, those for a destination in L3 are sent;
words of L0 frames take the port and accesses of DDR4 channels are measured. -/
def State.copyLines (s : State) (k : Nat) (ls : List Nat) : State :=
  match s.moveOf k with
  | none => s
  | some m =>
    let half := ls.flatMap fun l => [2 * l, 2 * l + 1]
    let s1 := ((s.claimLines m.src ls.length).claimLines m.dst ls.length).timeLines m.src ls.length
    let s2 := s1.timeLines m.dst ls.length
    if tierOf m.src = 3 then
      half.foldl (fun t i => (t.askDev (fld m.src 0 12) 256 0 k (32 * i) none false (.copy k i false)).1) s2
    else if tierOf m.dst = 3 then
      let r := s2.readPage m.src [] []
      half.foldl (fun t i =>
        (t.askDev (fld m.dst 0 12) 256 0 k (32 * i) (some ((List.range 32).map fun j => r.2.byte (32 * i + j)))
          (r.2.bad.any fun w => decide (w / 8 = i)) (.copy k i true)).1) r.1
    else s2

/-- R298, R316: must a copy at this place wait: does a March test of the bay run, or a refresh episode of the rank? -/
def State.placeWaits (s : State) (w : Word) : Bool :=
  match tierOf w with
  | 0 => (s.bay (fld w 0 8)).march
  | 2 => s.inEpisode (fld w 0 26 * 65536)
  | _ => false

/-- R336: may a move of the page start: not moving, and no fence of it set in this epoch? -/
def State.mayMove (s : State) (k : Nat) : Bool :=
  (s.page k).live && (s.moveOf k).isNone && decide ((s.page k).fenced ≠ s.epoch + 1)

/-- R338, steps 1 and 2: a move starts: its destination is reserved, MOVING set, and the first pass begins. -/
def State.startMove (s : State) (k : Nat) (dst : Word) (origin : Nat) (command evac rel : Bool) : State :=
  let e := s.page k
  let s1 := s.setPage k { e with w0 := e.w0 ||| 0x10000000#32 }
  let m : PageMove := {
    key := k, src := placeOf e.w0, dst := placeOf dst, origin := origin, command := command, evac := evac, rel := rel,
    epoch := s.epoch }
  ({ s1 with scr := { s1.scr with moves := s1.scr.moves ++ [m] } } : State).copyLines k (List.range 1024)

/-- R379, R523: the end of an evacuation that a retirement (1) or a re-raise (2) waits for. A retirement whose evacuation
fails while its bay is still in RUN ends with RETIRE_FAILED. -/
def State.evacOwner (s : State) (owner : Nat) (ok : Bool) : State :=
  if owner = 2 then { s with rsu := { s.rsu with quiesce := if ok then 2 else 3 } }
  else if owner = 1 then
    match s.bg.retiring with
    | some r =>
      if ok || decide ((s.bay r.1).state ≠ 3) then s
      else ({ s with bg := { s.bg with retiring := none, rres := 2, rreason := 3 } })
    | none => s
  else s

/-- An evacuation ends (R344): its result, its log record, and STAT. -/
def State.endEvac (s : State) (e : Evac) (reason : Nat) : State :=
  let s1 := { s with scr := { s.scr with evac := none, evRes := if reason = 0 then 1 else 2, evReason := reason } }
  let s2 := if reason = 0 then s1 else s1.event 0x40020 1
  (s2.log { epoch := e.epoch, kind := if e.byBay then 4 else 3, result := if reason = 0 then 0 else 1, reason := reason,
            origin := if e.owner = 0 then 1 else 2, subject := e.subject }).evacOwner e.owner (decide (reason = 0))

/-- A page command ends (R351). -/
def State.endPageCmd (s : State) (res : Nat) : State := { s with scr := { s.scr with pbusy := false, pres := res } }

/-- R338: a move ends: log, counts, and what waited for it. `reason` 0 tells that it completed. -/
def State.moveOver (s : State) (m : PageMove) (reason fenceNs : Nat) : State :=
  let e := s.page m.key
  let s1 := (s.dropMove m.key).log {
    epoch := m.epoch, kind := 1, result := if reason = 0 then 0 else 1, reason := reason, origin := m.origin,
    subject := m.key, before := m.src, after := placeOf e.w0, heat := e.heat, passes := m.passes, fenceNs := fenceNs }
  let s2 := if reason = 0 then s1.bump 0x40100 else (s1.bump 0x40110).event 0x40020 0
  if m.command then s2.endPageCmd (if reason = 0 then 0 else 4) else s2

/-- R353: how long the fence of a move has been set, in ns, by the scribe's microsecond count. DESIGN CHOICE, log entry 44. -/
def State.fenceNs (s : State) (m : PageMove) : Nat := if m.phase = 0 then 0 else (s.scr.us - m.fenceAt) * 1000

/-- R341, R338: a move is abandoned: the page stays at its source and a fence in progress lifts. -/
def State.abandon (s : State) (m : PageMove) (reason : Nat) : State :=
  let e := s.page m.key
  (s.setPage m.key { e with w0 := placeOf e.w0 }).moveOver m reason (s.fenceNs m)

/-- Most dirty lines with which the fence may be set (R338): FENCEL + 1. -/
def State.fenceLines (s : State) : Nat := fld (s.reg 0x40004) 12 6 + 1

/-- R338, step 4: the fence is set. -/
def State.setFence (s : State) (k : Nat) : State :=
  let e := s.page k
  (s.setPage k { e with w0 := e.w0 ||| 0x20000000#32, fenced := s.epoch + 1 }).onMove k fun m => { m with phase := 1, fenceAt := s.scr.us }

/-- R348: the peer of an L3 destination refuses the guest. -/
def State.guestRefused (s : State) (m : PageMove) : State := (s.abandon m 9).event 0x40020 4

/-- R338, R348: a pass of a page copy ends: not while a peer, a March test or a refresh episode keeps it. `refused` tells that
the peer of an L3 destination refused the guest. -/
def State.copyPass (s : State) (k : Nat) (refused : Bool) : State :=
  match s.moveOf k with
  | none => s
  | some m =>
    if m.phase ≠ 0 then s
    else if refused && decide (tierOf m.dst = 3) then s.guestRefused m
    else if s.copying k || s.placeWaits m.src || s.placeWaits m.dst then s
    else
      let n := m.passes + 1
      let s1 := s.onMove k fun x => { x with passes := n }
      if m.dirty.length ≤ s.fenceLines then s1.setFence k
      else if 8 ≤ n then s1.abandon { m with passes := n } 1
      else (s1.copyLines k m.dirty).onMove k fun x => { x with dirty := [] }

/-- Does an access of the map service touch page k? -/
def Outer.touches (o : Outer) (k : Nat) : Bool :=
  match o.tgt with
  | .table t off =>
    decide (t = k / 4096) && decide (off / 65536 ≤ k % 4096) && decide (k % 4096 ≤ (off + o.len - 1) / 65536)
  | _ => false

/-- R338, step 5: is an access to page k that a bay, or the map service, issued before the fence still on its way? -/
def State.accessing (s : State) (k : Nat) : Bool :=
  (s.bays.any fun (e : Nat × Bay) => e.2.pipe.flights.any fun (f : Flight) => match f.out with
    | some o => decide (k ∈ o.keys) && o.readable.isNone && !o.parked
    | none => false) || s.scr.outer.any fun o => o.sent && o.touches k

/-- R338, steps 5 and 6: every bay that holds the page has acknowledged the fence, and the remaining dirty lines are
copied. -/
def State.fenceAck (s : State) (k : Nat) : State :=
  match s.moveOf k with
  | some m =>
    if m.phase = 1 && !s.accessing k then (s.copyLines k m.dirty).onMove k fun x => { x with phase := 2, dirty := [] } else s
  | none => s

/-- R349: bays whose windows map the page are told when it now lies slower than their CLASS. -/
def State.tellSlower (s : State) (k tier : Nat) : State :=
  (s.mappers (k / 4096)).foldl (fun t m =>
    if s.winClass m < tier ∧ k % 4096 ≤ fld ((s.bay m.1).winA m.2) 0 12 then
      t.onBay m.1 fun b => { b with ctx := { b.ctx with
        plcStat := b.ctx.plcStat.event 0,
        plcInfo := wd (m.2 % 16 * 2 ^ 28 + k % 4096 * 2 ^ 16) ||| (b.ctx.plcInfo &&& 0xF#32) } }
    else t) s

/-- R338, steps 6–8: the final lines have been copied, the entry takes the new location, the fence lifts and the source is
free: not while a peer, a March test or a refresh episode keeps the copy. `remote` stands for lines of a source in L3 that no
answer has brought. -/
def State.completeMove (s : State) (k fenceNs : Nat) (remote : List Byte) : State :=
  match s.moveOf k with
  | none => s
  | some m =>
    if decide (m.phase ≠ 2) || s.copying k || s.placeWaits m.src || s.placeWaits m.dst then s
    else
      let r := s.readPage m.src (m.image remote) m.imageBad
      let s1 := r.1.writePage m.dst r.2
      let e := s1.page k
      let s2 := (s1.setPage k { e with w0 := placeOf m.dst }).moveOver m 0 fenceNs
      if tierOf m.src < tierOf m.dst then s2.tellSlower k (tierOf m.dst) else s2

/-- R341: why a move in progress is lost, if it is. -/
def State.moveLost (s : State) (m : PageMove) : Option Nat :=
  let lost (w : Word) : Bool := match tierOf w with
    | 0 => decide ((s.bay (fld w 0 8)).state = 0)
    | 1 => !(s.bank (fld w 0 8)).awake || decide ((s.bank (fld w 0 8)).kind ≠ 2)
    | 2 => decide ((s.chan (fld w 0 26 / 2 ^ 23)).state ≠ 2)
    | _ => !s.guestPeer (fld w 0 12)
  if lost m.dst then some (if tierOf m.dst = 3 then 5 else 3)
  else if lost m.src then some (if tierOf m.src = 3 then 5 else 4)
  else none

/-- R341: every move whose source or destination is lost is abandoned. -/
def State.checkMoves (s : State) : State :=
  s.scr.moves.foldl (fun t m => match s.moveLost m with
    | some r => t.abandon m r
    | none => t) s

/-- What may preempt a move in its copy phase (R341): 2 bay-down, 1 evacuation or release, 0 anything else. -/
def rankOfMove (origin : Nat) (evac rel : Bool) : Nat := if origin = 3 then 2 else if evac || rel then 1 else 0

/-- A page is to be moved for a bay-down, an evacuation or a release, preempting a move of it in its copy phase that is none
of theirs (R341). Nothing happens while the page is behind a fence, has been behind one in this epoch, or waits for one of the eight moves. The answer tells
whether a place was found. -/
def State.moveOut (s : State) (k : Nat) (origin : Nat) (evac rel : Bool) (tiers : List Nat) : State × Bool :=
  let go (t : State) : State × Bool :=
    if !t.mayMove k || decide (8 ≤ t.scr.moves.length) then (t, true)
    else match t.pickAny (k / 4096) tiers with
      | some w => (t.startMove k w origin false evac rel, true)
      | none => (t, false)
  match s.moveOf k with
  | none => go s
  | some m =>
    if m.phase = 0 && decide (rankOfMove m.origin m.evac m.rel < rankOfMove origin evac rel) then go (s.abandon m 10)
    else (s, true)

/-- R344, R346: a page that no place can take: PINBLOCK and a record of KIND 7. -/
def State.pinBlocked (s : State) (k reason : Nat) (origin : Nat) : State :=
  (s.event 0x40020 2).log { epoch := s.epoch, kind := 7, result := 1, reason := reason, origin := origin, subject := k,
                             before := placeOf (s.page k).w0, heat := (s.page k).heat }

/-! ## Bank release (R346) -/

/-- Pages that lie in bank n. -/
def State.pagesIn (s : State) (n : Nat) : List Nat :=
  s.scr.pages.filterMap fun (e : Nat × PageEnt) => if e.2.live ∧ l1Bank e.2.w0 = some n then some e.1 else none

/-- SCR_BANKREL's result. -/
def State.relResult (s : State) (n : Nat) : State := { s with scr := { s.scr with relRes := n } }

/-- R346: could a page of the table live anywhere but in a bank being released, room apart? -/
def State.elsewhere (s : State) (t : Nat) : Bool := [0, 1, 2, 3].any fun x => s.tierFits t x

/-- R346: SCR_BANKREL.START. -/
def State.releaseStart (s : State) (n : Nat) : State :=
  if s.scr.rel.isSome then s
  else
    let ps := s.pagesIn n
    let s1 := { s with scr := { s.scr with rel := some { bank := n, epoch := s.epoch } } }
    let refuse (reason : Nat) : State :=
      (s.relResult 2).log { epoch := s.epoch, kind := 6, result := 2, reason := reason, origin := 1, subject := n }
    if (s.bank n).kind ≠ 2 then refuse 0
    else if ps.any fun k => decide (policyOf (s.table (k / 4096)) = 0) then refuse 8
    else if ps.any fun k => !s1.elsewhere (k / 4096) then refuse 7
    else s1.relResult 0

/-- R341, R346: moves into a bank being released stop: those in their copy phase are abandoned. -/
def State.stopInto (s : State) (n : Nat) : State :=
  (s.scr.moves.filter fun (m : PageMove) => decide (m.phase = 0) && decide (l1Bank m.dst = some n)).foldl
    (fun t m => t.abandon m 10) s

/-- R346: the release goes on: pages start to move while moves are free; when none is left in the bank, nor on its way into
it, it ends. -/
def State.releaseStep (s0 : State) : State :=
  match s0.scr.rel with
  | none => s0
  | some r =>
    let s := s0.stopInto r.bank
    let todo := (s.pagesIn r.bank).filter fun k => decide (k ∉ r.stuck)
    if todo = [] then
      if s.scr.moves.any fun (m : PageMove) => decide (l1Bank m.dst = some r.bank) then s
      else
      let res := if r.stuck = [] then 1 else 3
      (({ s with scr := { s.scr with rel := none } }).relResult res).log {
        epoch := r.epoch, kind := 6, result := if res = 1 then 0 else 1, reason := if res = 1 then 0 else 11, origin := 1,
        subject := r.bank }
    else
      todo.foldl (fun t k =>
        let x := t.moveOut k 1 false true [0, 1, 2, 3]
        if x.2 then x.1
        else ({ x.1 with scr := { x.1.scr with rel := x.1.scr.rel.map fun (q : Release) => { q with stuck := q.stuck ++ [k] } } }).pinBlocked
          k 11 1) s

end Sys2Proof.Machine
end

