-- ==== Sys2Proof/Machine/Tasks.lean ====
section
/-!
DEFINITION. Tasks (R331–R337, R342–R345, R351): admission, placing and leaving a slot, task moves, evacuation, what
becomes of the tasks of a bay that goes down, and the decisions of an epoch.
-/
namespace Sys2Proof.Machine

/-! ## Task records (R331, R334) -/

/-- Is the task VALID? -/
def State.taskValid (s : State) (t : Nat) : Bool := bitAt (s.taskWord t 0) 31

/-- SLOT of a placed task. -/
def State.taskSlot (s : State) (t : Nat) : Nat := fld (s.taskWord t 0) 24 4

/-- A task's stack range and state region, as (first, last + 1) (R331, R334). -/
def State.regions (s : State) (t : Nat) : List (Nat × Nat) :=
  let st := (s.taskWord t 3).toNat / 4 * 4
  let sb := fld (s.taskWord t 5) 4 15 * 16
  [(st - fld (s.taskWord t 6) 16 16 * 16, st), (sb, sb + fld (s.taskWord t 6) 0 16 * 16)]

/-- Do the STACK and its range fit below one another (no wrap below 0)? -/
def State.stackFits (s : State) (t : Nat) : Bool :=
  decide (fld (s.taskWord t 6) 16 16 * 16 ≤ (s.taskWord t 3).toNat / 4 * 4)

/-- Do two ranges share a byte? An empty one shares none. -/
def overlap (x y : Nat × Nat) : Bool := decide (x.1 < y.2) && decide (y.1 < x.2) && decide (x.1 < x.2) && decide (y.1 < y.2)

/-- R344, R379, R382: may the bay be named by no placement: it is being evacuated or re-raised? -/
def State.barred (s : State) (b : Nat) : Bool :=
  s.scr.evac.any (fun e => decide (b ∈ e.bays)) ||
    (s.rsu.busy && ((decide (s.rsu.op = 2) && decide (fld s.rsu.target 8 4 = b / 16)) ||
      (decide (s.rsu.op = 3) && decide (fld s.rsu.target 0 8 = b))))

/-- A free slot of bay b, lowest first; a slot reserved by a task move is not free (R334, R342). -/
def State.freeSlot (s : State) (b : Nat) : Option Nat :=
  (List.range 16).find? fun i => (tgetD none (s.bay b).qio.slots i).isNone &&
    !s.scr.taskMoves.any fun (m : TaskMove) => decide (m.dst = some b) && decide (m.slot = i)

/-- R334: the slots aside, may task t run on bay b? -/
def State.fitsBay (s : State) (t b : Nat) : Bool :=
  let x := s.bay b
  let rs := s.regions t
  let sr := (x.ctx.sregBase.toNat, x.ctx.sregLimit.toNat)
  decide (b < 256) && s.bentHere (b / 16) && decide (b ∉ s.bg.retired) && decide (x.state = 3) && !s.barred b &&
    decide (s.reg (0x40400 + 4 * b) = s.taskWord t 1) &&
    (decide (policyOf (s.taskWord t 0) = 0) || bitAt (s.taskWord t 0) (b / 16)) &&
    s.stackFits t &&
    (rs.all fun r => decide (r.1 = r.2) || (decide (x.scrLo ≤ r.1) && decide (r.2 ≤ fcBase) && !overlap r sr)) &&
    ((s.tasksOn b).all fun u => decide (u = t) || (s.regions u).all fun y => rs.all fun r => !overlap r y)

/-- R334: is task t admissible on bay b? -/
def State.admissible (s : State) (t b : Nat) : Bool := s.fitsBay t b && (s.freeSlot b).isSome

/-- A bay's load in units of cycles: BUSY of its tasks, summed (R336). -/
def State.load (s : State) (b : Nat) : Nat := ((s.tasksOn b).map fun t => (s.taskWord t 7).toNat).foldl (· + ·) 0

/-- The admissible bay outside a set with the lowest load, ties to the lower index (R344). DESIGN CHOICE, log entry
42. -/
def State.bestBay (s : State) (t : Nat) (out : List Nat) : Option Nat :=
  ((List.range 256).filter fun b => decide (b ∉ out) && s.admissible t b).foldl (fun (m : Option Nat) b => match m with
    | none => some b
    | some c => if s.load b < s.load c then some b else some c) none

/-! ## Queues of a task (R342) -/

/-- Queues bound to task t. -/
def State.boundTo (s : State) (t : Nat) : List Nat :=
  s.qm.queues.filterMap fun (e : Nat × Queue) => if e.2.bind = 1 ∧ e.2.target = t then some e.1 else none

/-- R342, steps 2 and 3: the ENABLED queues of the task are FROZEN and their landed messages go back. -/
def State.freeze (s : State) (t : Nat) : State × List Nat :=
  let qs := (s.boundTo t).filter fun q => decide ((s.queue q).state = 1)
  (qs.foldl (fun x q => (x.setQueue q ((x.queue q).setState 2)).unland q) s, qs)

/-- R342, step 8: queues are set ENABLED again. -/
def State.thaw (s : State) (qs : List Nat) : State :=
  qs.foldl (fun x q => if (x.queue q).state = 2 then x.setQueue q ((x.queue q).setState 1) else x) s

/-- R342, step 7: HOME of every bound queue moves to bent n. -/
def State.rehome (s : State) (t n : Nat) : State :=
  (s.boundTo t).foldl (fun x q => x.setQueue q { x.queue q with w0 := putFld (x.queue q).w0 20 4 n }) s

/-! ## Slots (R245, R342, R349) -/

/-- The slot registers of a task, from its descriptor. -/
def State.slotFor (s : State) (t : Nat) : Slot :=
  { task := t, entry := fld (s.taskWord t 2) 2 14 * 4, stack := s.taskWord t 3 &&& 0xFFFFFFFC#32,
    notq := s.taskWord t 4 &&& 0x8FFFFFFF#32 }

/-- A placement notice to a bay: 2 ARRIVE or 1 DEPART, with its slot (R349). -/
def Bay.placement (b : Bay) (i slot : Nat) : Bay :=
  { b with ctx := { b.ctx with plcStat := b.ctx.plcStat.event i,
                               plcInfo := (b.ctx.plcInfo &&& 0xFFFFFFF0#32) ||| wd (slot % 16) } }

/-- A task takes a slot: descriptor and slot registers, and its queues' HOME. -/
def State.enterSlot (s : State) (t b slot : Nat) : State :=
  let w := s.taskWord t 0
  let s1 := s.setTaskWord t 0 ((w &&& 0xE000FFFF#32) ||| wd (2 ^ 28 + slot % 16 * 2 ^ 24 + b % 256 * 2 ^ 16))
  let s2 := s1.onBay b fun x =>
    ({ x with qio := { x.qio with slots := tsetD none x.qio.slots slot (some (s.slotFor t)) } }).placement 2 slot
  { s2.rehome t (b / 16) with scr := { (s2.rehome t (b / 16)).scr with homeless := s2.scr.homeless.filter (· ≠ t) } }

/-- A task leaves its slot: PLACED falls. -/
def State.leaveSlot (s : State) (t : Nat) : State :=
  let b := s.taskBay t
  let slot := s.taskSlot t
  let s1 := s.setTaskWord t 0 (s.taskWord t 0 &&& 0xE000FFFF#32)
  s1.onBay b fun x => ({ x with qio := { x.qio with slots := tsetD none x.qio.slots slot none } }).placement 1 slot

/-- A task that no task holds is placed and its FROZEN queues are ENABLED (R351, R344). -/
def State.placeTask (s : State) (t b : Nat) : State :=
  match s.freeSlot b with
  | some i => (s.enterSlot t b i).thaw (s.boundTo t)
  | none => s

/-- R275, R342, R345: words of a region are copied from bay s to the same addresses of bay d, poison with them, as outside
words at both. -/
def State.copyRegion (s : State) (src dst : Nat) (r : Nat × Nat) : State :=
  let b := s.bay src
  let lo := r.1
  let n := r.2 - r.1
  let ws := b.smarks.filterMap fun e => if r.1 / 4 ≤ e.1 ∧ e.1 < r.2 / 4 then some e.1 else none
  let q := (b.claimPort (n / 4) false).readMarked ws
  (s.setBay src q.1).onBay dst fun c =>
    { c.claimPort (n / 4) false with
      scratch := c.scratch.splice lo n (fun o => b.scratch.byte (lo + o)),
      smarks := spliceMarks c.smarks (lo / 4) (n / 4) (q.2.map (· - lo / 4)) }

/-- Both regions of a task. -/
def State.copyTask (s : State) (t src dst : Nat) : State :=
  (s.regions t).foldl (fun x r => if r.1 < r.2 then x.copyRegion src dst r else x) s

/-! ## Task moves (R342, R343) -/

/-- The move of task t. -/
def State.taskMove (s : State) (t : Nat) : Option TaskMove := s.scr.taskMoves.find? fun m => decide (m.task = t)

/-- A task command ends (R351). -/
def State.endTaskCmd (s : State) (res : Nat) : State := { s with scr := { s.scr with tbusy := false, tres := res } }

/-- R342, steps 1–3: a task move starts; with no destination it is an UNPLACE (R351). -/
def State.startTaskMove (s : State) (t : Nat) (dst : Option Nat) (origin : Nat) (command evac : Bool) : State :=
  let slot := (dst.bind s.freeSlot).getD 0
  let f := s.freeze t
  { f.1 with scr := { f.1.scr with taskMoves := f.1.scr.taskMoves ++ [{
      task := t, src := s.taskBay t, dst := dst, slot := slot, frozen := f.2, origin := origin, command := command,
      evac := evac, epoch := s.epoch }] } }

/-- A task move ends: log, counts, and what waited for it. -/
def State.taskMoveOver (s : State) (m : TaskMove) (reason : Nat) : State :=
  let s0 := { s with scr := { s.scr with taskMoves := s.scr.taskMoves.filter fun x => decide (x.task ≠ m.task) } }
  let s1 := s0.log {
    epoch := m.epoch, kind := 2, result := if reason = 0 then 0 else 1, reason := reason, origin := m.origin,
    subject := m.task, before := wd m.src, after := wd (m.dst.getD m.src), heat := (s.taskWord m.task 7).toNat }
  let s2 := if reason = 0 then (if m.dst.isSome then s1.bump 0x40108 else s1) else (s1.bump 0x40110).event 0x40020 0
  let s3 := if m.command then s2.endTaskCmd (if reason = 0 then 0 else 4) else s2
  match reason, m.evac, s3.scr.evac with
  | 0, _, _ => s3
  | _, true, some e => s3.endEvac e reason
  | _, _, _ => s3

/-- R343: a task move is abandoned: queues ENABLED again, the slot released, the task stays. -/
def State.abandonTask (s : State) (m : TaskMove) (reason : Nat) : State := (s.thaw m.frozen).taskMoveOver m reason

/-- Is a run of task t active on bay b? -/
def Bay.running (b : Bay) (t : Nat) : Bool := b.qio.cur.any fun l => decide (l.task = t)

/-- Does bay b's send queue hold a message of task t? -/
def Bay.sending (b : Bay) (t : Nat) : Bool := b.qio.sendq.any fun m => !m.rt && decide (m.task = t)

/-- An UNPLACE ends: the slot is cleared and the queues stay FROZEN (R351); under DROP the scribe places the task again
when it can (R344). -/
def State.unplaced (s : State) (m : TaskMove) : State :=
  let s1 := (s.leaveSlot m.task).taskMoveOver m 0
  if m.evac then { s1 with scr := { s1.scr with homeless := s1.scr.homeless ++ [m.task] } } else s1

/-- R342, steps 4 and 5: the run has ended and the task's messages have left: the copy begins, or an UNPLACE ends. -/
def State.drained (s : State) (t : Nat) : State :=
  match s.taskMove t with
  | none => s
  | some m =>
    let b := s.bay m.src
    if m.phase ≠ 4 ∨ b.running t ∨ b.sending t then s
    else if m.dst.isNone then s.unplaced m
    else { s with scr := { s.scr with taskMoves := s.scr.taskMoves.map fun x =>
        if x.task = t then { x with phase := 6 } else x } }

/-- R342, steps 6–8: the copy ends, the slot and HOME move, and the frozen queues are ENABLED. Copied words wait while a March
test of either bay runs (R298); where the copy takes the source down, the move becomes a re-placement (R343). -/
def State.completeTask (s : State) (t : Nat) : State :=
  match s.taskMove t with
  | none => s
  | some m =>
    match m.phase, m.dst with
    | 6, some d =>
      if (s.bay m.src).march || (s.bay d).march then s
      else
      let s0 := s.copyTask t m.src d
      if (s.bay m.src).state = 3 ∧ (s0.bay m.src).state ≠ 3 then s0
      else
      let s1 := s0.leaveSlot t
      ((s1.enterSlot t d m.slot).thaw m.frozen).taskMoveOver m 0
    | _, _ => s

/-- R343: MIGWAIT has passed and the run still goes on. -/
def State.migwait (s : State) (t : Nat) : State :=
  match s.taskMove t with
  | none => s
  | some m => if m.phase = 4 && (s.bay m.src).running t then s.abandonTask m 2 else s

/-- R343: a move whose destination bay left RUN is abandoned; R344: so is a commanded one whose destination is being
evacuated. -/
def State.checkTaskMoves (s : State) : State :=
  s.scr.taskMoves.foldl (fun t m => match m.dst with
    | some d =>
      if (t.bay d).state ≠ 3 ∨ t.scr.evac.any (fun e => decide (d ∈ e.bays)) then t.abandonTask m 3 else t
    | none => t) s

/-! ## Evacuation (R344) -/

/-- Tasks still to leave. -/
def State.evacTasks (s : State) (e : Evac) : List Nat := e.bays.flatMap s.tasksOn

/-- Pages in the L0 frames of the bays. -/
def State.framePages (s : State) (bs : List Nat) : List Nat :=
  s.scr.pages.filterMap fun (e : Nat × PageEnt) =>
    if e.2.live ∧ tierOf e.2.w0 = 0 ∧ fld e.2.w0 0 8 ∈ bs then some e.1 else none

/-- R344: an evacuation starts, or is refused while one runs (R350). -/
def State.evacStart (s : State) (bs : List Nat) (drop byBay : Bool) (owner subject : Nat) : State :=
  if s.scr.evac.isSome then { s with scr := { s.scr with evRes := 3 } }
  else { s with scr := { s.scr with evRes := 0, evReason := 0,
                                    evac := some { bays := bs, drop := drop, byBay := byBay, owner := owner, subject := subject,
                                                   epoch := s.epoch } } }

/-- R351: does a commanded MOVE or UNPLACE of task t wait for one of the four moves to end? -/
def State.commandWaits (s : State) (t : Nat) : Bool := decide (s.scr.taskWait ≠ 0) && decide (fld (s.reg 0x40040) 0 14 = t)

/-- One task of an evacuation: it moves to the best bay, or is unplaced, or the evacuation fails; a commanded move of it,
running or waiting, is left to end first. -/
def State.evacTask (s : State) (t : Nat) : State :=
  match s.scr.evac with
  | none => s
  | some e =>
    if (s.taskMove t).isSome || s.commandWaits t || decide (4 ≤ s.scr.taskMoves.length) then s
    else match s.bestBay t e.bays with
      | some d => s.startTaskMove t (some d) 2 false true
      | none => if e.drop then s.startTaskMove t none 2 false true else s.endEvac e 6

/-- One page of the frames of an evacuation: it moves to the fastest tier that R332 permits, or the evacuation fails. -/
def State.evacPage (s : State) (k : Nat) : State :=
  match s.scr.evac with
  | none => s
  | some e =>
    let x := s.moveOut k 2 true false [0, 1, 2, 3]
    if x.2 then x.1 else (x.1.pinBlocked k 11 2).endEvac e 11

/-- R344: the evacuation goes on: tasks first, then the pages of the frames; with none left it is done. -/
def State.evacStep (s : State) : State :=
  match s.scr.evac with
  | none => s
  | some e =>
    let ts := s.evacTasks e
    if ts ≠ [] then ts.foldl State.evacTask s
    else
      let s1 := { s with scr := { s.scr with evac := some { e with pages := true } } }
      let ks := s1.framePages e.bays
      if ks ≠ [] then ks.foldl State.evacPage s1 else s1.endEvac e 0

/-! ## Bay-down (R345) -/

/-- R345: one task of a downed bay is re-placed at once, or unplaced. -/
def State.replaceTask (s : State) (b t : Nat) : State :=
  let s0 := match s.taskMove t with
    | some m => { (if m.command then s.endTaskCmd 0 else s) with
        scr := { (if m.command then s.endTaskCmd 0 else s).scr with
          taskMoves := s.scr.taskMoves.filter fun x => decide (x.task ≠ t) } }
    | none => s
  let f := s0.freeze t
  match f.1.bestBay t [b] with
  | some d =>
    match f.1.freeSlot d with
    | some i =>
      let s1 := (f.1.copyTask t b d).leaveSlot t
      let s2 := (s1.enterSlot t d i).thaw (s1.boundTo t)
      s2.log { epoch := s.epoch, kind := 5, origin := 3, subject := t, before := wd b, after := wd d,
               heat := (s.taskWord t 7).toNat }
    | none => f.1
  | none =>
    let s1 := (f.1.leaveSlot t).event 0x40020 5
    ({ s1 with scr := { s1.scr with homeless := s1.scr.homeless ++ [t] } }).log {
      epoch := s.epoch, kind := 5, result := 1, reason := 6, origin := 3, subject := t, before := wd b, after := wd b,
      heat := (s.taskWord t 7).toNat }

/-- R345: the tasks of bay b are re-placed, and the pages of its L0 frames leave. -/
def State.replaceAll (s : State) (b : Nat) : State := (s.tasksOn b).foldl (fun t k => t.replaceTask b k) s

/-- R345: pages in the frames of downed bays start to move while moves are free. -/
def State.rescuePages (s : State) : State :=
  let downs := s.bays.filterMap fun (e : Nat × Bay) => if e.1 < 256 ∧ e.2.state = 4 then some e.1 else none
  (s.framePages downs).foldl (fun t k => (t.moveOut k 3 false false [0, 1, 2, 3]).1) s

/-- R344: tasks that were unplaced for want of a bay are placed as soon as one is live. -/
def State.rehouse (s : State) : State :=
  s.scr.homeless.foldl (fun t k =>
    if t.taskValid k && !t.taskPlaced k && (t.taskMove k).isNone then
      (match t.bestBay k [] with | some b => t.placeTask k b | none => t)
    else t) s

/-! ## The epoch (R335, R336) -/

/-- Insert by an order. -/
def insertBy {α : Type} (lt : α → α → Bool) (x : α) : List α → List α
  | [] => [x]
  | y :: t => if lt x y then x :: y :: t else y :: insertBy lt x t

/-- A list in order. DESIGN CHOICE, log entry 42. -/
def sortBy {α : Type} (lt : α → α → Bool) : List α → List α
  | [] => []
  | x :: t => insertBy lt x (sortBy lt t)

/-- Counts of page k, over every bay and the map service (R335). -/
def State.pageCount (s : State) (k : Nat) : Nat :=
  s.scr.counts.foldl (fun n e => if e.1 % 2 ^ 32 = k then n + e.2 else n) 0

/-- R335: one access through window `win` of bay b (256 the map service) that resolves through page k; the count of the
entry saturates at 255. -/
def State.countAccess (s : State) (b win k : Nat) : State :=
  let key := (b * 16 + win % 16) * 2 ^ 32 + k
  let n := tgetD 0 s.scr.counts key
  { s with scr := { s.scr with counts := tsetD 0 s.scr.counts key (if n < 255 then n + 1 else 255) } }

/-- R336: HEAT of every page, from its counts, which start again. -/
def State.heatPages (s : State) : State :=
  let d := if fld (s.reg 0x40004) 9 3 = 0 then 1 else fld (s.reg 0x40004) 9 3
  { s with scr := { s.scr with
      pages := s.scr.pages.map (fun (e : Nat × PageEnt) =>
        (e.1, { e.2 with heat := satAdd (2 ^ 24 - 1) (e.2.heat - e.2.heat / 2 ^ d) (s.pageCount e.1) })),
      counts := [] } }

/-- R336: BUSY of every placed task, from its slot's count, which starts again. -/
def State.busyTasks (s : State) : State :=
  (s.taskList.filter fun t => s.taskPlaced t).foldl (fun x t =>
    let b := s.taskBay t
    let i := s.taskSlot t
    match tgetD none (x.bay b).qio.slots i with
    | some sl =>
      (x.setTaskWord t 7 (wd (if sl.cycles < 2 ^ 32 then sl.cycles else 2 ^ 32 - 1))).onBay b fun y =>
        { y with qio := { y.qio with slots := tsetD none y.qio.slots i (some { sl with cycles := 0 }) } }
    | none => x) s

/-- A page move is decided. -/
def State.decide_ (s : State) (k : Nat) (w : Word) : State := { s with scr := { s.scr with decided := s.scr.decided ++ [(k, w)] } }

/-- Page moves that may still be decided (R336). -/
def State.pageRoom (s : State) : Nat := fld (s.reg 0x40004) 24 8 - s.scr.decided.length

/-- Is a move of the page decided? -/
def State.isDecided (s : State) (k : Nat) : Bool := s.scr.decided.any fun e => decide (e.1 = k)

/-- R336, step 1: pin restoration of one page. -/
def State.restorePin (s : State) (k : Nat) : State :=
  let t := k / 4096
  match s.pinClass t with
  | none => s
  | some c =>
    if tierOf (s.page k).w0 ≤ c ∨ (s.moveOf k).isSome then s
    else if policyOf (s.table t) = 0 then s.pinBlocked k 8 0
    else match s.pickAny t (c :: List.range c) with
      | some w => if s.pageRoom = 0 then s else s.decide_ k w
      | none => s.pinBlocked k 11 0

/-- R336, step 2: a destination for a task whose load share is n, off a bay: the least loaded bay at LOW or less that stays
at HIGH or below. `loads` are the loads after the decisions so far. -/
def State.balanceTo (s : State) (loads : Tab Nat) (t n : Nat) : Option Nat :=
  let low := fld (s.reg 0x40008) 0 8
  let high := fld (s.reg 0x40008) 8 8
  ((List.range 256).filter fun b => s.admissible t b && decide (tgetD 0 loads b * 100 ≤ low * 1600000) &&
      decide ((tgetD 0 loads b + n) * 100 ≤ high * 1600000)).foldl (fun (m : Option Nat) b => match m with
    | none => some b
    | some c => if tgetD 0 loads b < tgetD 0 loads c then some b else some c) none

/-- R336, step 2, for one overloaded bay: its first FREE task, in descending BUSY, that has a destination. -/
def State.balanceBay (s : State) (p : State × Tab Nat) (b : Nat) : State × Tab Nat :=
  let loads := p.2
  if tgetD 0 loads b * 100 ≤ fld (s.reg 0x40008) 8 8 * 1600000 ∨
      fld (s.reg 0x40004) 18 6 ≤ p.1.scr.decidedTasks.length then p
  else
    let busy (t : Nat) : Nat := (s.taskWord t 7).toNat
    let ts := sortBy (fun x y => decide (busy y < busy x) || (decide (busy x = busy y) && decide (x < y)))
      ((s.tasksOn b).filter fun t => decide (policyOf (s.taskWord t 0) = 2) && (s.taskMove t).isNone)
    match ts.findSome? fun t => (s.balanceTo loads t (busy t)).map fun d => (t, d) with
    | some (t, d) =>
      ({ p.1 with scr := { p.1.scr with decidedTasks := p.1.scr.decidedTasks ++ [(t, d)] } },
       tsetD 0 (tsetD 0 loads b (tgetD 0 loads b - busy t)) d (tgetD 0 loads d + busy t))
    | none => p

/-- R336, step 2: task balance, bays in descending load. DESIGN CHOICE, log entry 42. -/
def State.balance (s : State) : State :=
  let loads : Tab Nat := (List.range 256).foldl (fun t b => tsetD 0 t b (s.load b)) []
  let bs := sortBy (fun x y => decide (tgetD 0 loads y < tgetD 0 loads x) ||
    (decide (tgetD 0 loads x = tgetD 0 loads y) && decide (x < y))) (List.range 256)
  (bs.foldl s.balanceBay (s, loads)).1

/-- R336, step 3: the fastest tier, faster than its own, that the page's table is permitted. DESIGN CHOICE, log entry
42. -/
def State.fastest (s : State) (k : Nat) : Option Nat :=
  (List.range (tierOf (s.page k).w0)).find? fun t => s.tierFits (k / 4096) t

/-- R336, step 3: could the page take the place that page q holds? -/
def State.couldTake (s : State) (k q : Nat) : Bool :=
  let w := (s.page q).w0
  let d := s.table (k / 4096)
  let bs := s.mapBays (k / 4096)
  match tierOf w with
  | 0 => (match bs with | [b] => decide (fld w 0 8 = b) | _ => false)
  | 1 => s.bankFit bs (fld w 0 8)
  | 2 => s.chanFit d (fld w 0 26 / 2 ^ 23)
  | _ => false

/-- R336, step 3: the coldest FREE page of the tier whose place the page could take. -/
def State.coldest (s : State) (k tier : Nat) : Option Nat :=
  (s.scr.pages.filter fun (e : Nat × PageEnt) => e.2.live && decide (tierOf e.2.w0 = tier) &&
      decide (policyOf (s.table (e.1 / 4096)) = 2) && (s.moveOf e.1).isNone && !s.isDecided e.1 && s.couldTake k e.1).foldl
    (fun (m : Option Nat) e => match m with
      | none => some e.1
      | some c => if e.2.heat < (s.page c).heat then some e.1 else some c) none

/-- R336, step 3: the place to which page q is demoted: the next slower permitted tier. -/
def State.demotion (s : State) (q : Nat) : Option Word :=
  let t := q / 4096
  let from_ := tierOf (s.page q).w0
  ((List.range 4).find? fun x => decide (from_ < x) && s.tierFits t x).bind fun x => s.pickIn t x

/-- R336, step 3: promotion of one page. -/
def State.promote (s : State) (k : Nat) : State :=
  if (s.moveOf k).isSome || s.isDecided k || decide (s.pageRoom = 0) then s
  else match s.fastest k with
    | none => s
    | some t => match s.pickIn (k / 4096) t with
      | some w => s.decide_ k w
      | none => match s.coldest k t with
        | none => s
        | some q =>
          let h := (s.page q).heat
          if h + h / 2 ^ fld (s.reg 0x40004) 6 3 + 1 < (s.page k).heat ∧ 2 ≤ s.pageRoom then
            (match s.demotion q with
             | some w => (s.decide_ q w).decide_ k (placeOf (s.page q).w0)
             | none => s)
          else s

/-- Pages of FREE tables in descending HEAT, ties to the lower table and page. DESIGN CHOICE, log entry 42. -/
def State.hotPages (s : State) : List Nat :=
  sortBy (fun x y => decide ((s.page y).heat < (s.page x).heat) || (decide ((s.page x).heat = (s.page y).heat) && decide (x < y)))
    (s.scr.pages.filterMap fun (e : Nat × PageEnt) =>
      if e.2.live ∧ policyOf (s.table (e.1 / 4096)) = 2 then some e.1 else none)

/-- R336: an epoch boundary: counts are collected, HEAT and BUSY computed, and with ENABLE moves are decided. DESIGN
CHOICE, log entry 5. -/
def State.epochEnd (s0 : State) : State :=
  if !s0.rsu.raised || !s0.stgOn then s0
  else
    let s := s0.bump 0x40010
    let s1 := { s with scr := { s.scr with us := (s.scr.us / 1000 + 1) * 1000, decided := [], decidedTasks := [] } }
    let s2 := s1.heatPages.busyTasks
    if bitAt (s2.reg 0x40000) 0 then
      let keys := s2.scr.pages.map (·.1)
      let s3 := keys.foldl State.restorePin s2
      let s4 := s3.balance
      s4.hotPages.foldl State.promote s4
    else s2

/-- A decided page move starts when a move is free, the page may move and its place is free (R336); one whose place R332 no
longer permits is dropped. DEDUCED, log entry 42. -/
def State.startDecided (s : State) (e : Nat × Word) : State :=
  let drop := { s with scr := { s.scr with decided := s.scr.decided.filter fun x => decide (x ≠ e) } }
  if 8 ≤ s.scr.moves.length then s
  else if !s.mayMove e.1 || !s.placeFits (e.1 / 4096) e.2 then drop
  else if decide (tierOf e.2 ≠ 3) && drop.taken e.2 then s
  else drop.startMove e.1 e.2 0 false false false

/-- A decided task move starts when a move is free and the task is still admissible. -/
def State.startDecidedTask (s : State) (e : Nat × Nat) : State :=
  if 4 ≤ s.scr.taskMoves.length then s
  else
    let drop := { s with scr := { s.scr with decidedTasks := s.scr.decidedTasks.filter fun x => decide (x ≠ e) } }
    if drop.taskPlaced e.1 && (drop.taskMove e.1).isNone && drop.admissible e.1 e.2 then
      drop.startTaskMove e.1 (some e.2) 0 false false
    else drop

/-- Everything the scribe does on its own when something has changed. -/
def State.scribeStep (s : State) : State :=
  if !s.stgOn then s
  else
    let s1 := s.checkMoves.checkTaskMoves
    let s2 := s1.evacStep.releaseStep
    let s3 := s2.rescuePages.rehouse
    let s4 := s3.scr.decidedTasks.foldl State.startDecidedTask s3
    s4.scr.decided.foldl State.startDecided s4

end Sys2Proof.Machine
end

