-- ==== Sys2Proof/Machine/Window.lean ====
section
/-!
DEFINITION. Accesses to table pages (R98, R158–R166, R332, R338, R339, R398, R412): a bay's window accesses through the
page map, requests to peers and their completions, parking behind a fence, and the map service for the host and the
management complex (R428–R430, R447).
-/
namespace Sys2Proof.Machine

/-! ## A page where it lies -/

/-- Words of L0 frames are read, in order: those that come poisoned, numbered from `w0` (R280, R554). -/
def Bay.frameWords (b : Bay) (w0 : Nat) : List Nat → Bay × List Nat
  | [] => (b, [])
  | w :: t =>
    let r := b.scrRead (4 * w) true
    let q := r.bay.frameWords w0 t
    (q.1, if r.poison then (w - w0) :: q.2 else q.2)

/-- n bytes at a of a bay's frames are read. -/
def Bay.frameRead (b : Bay) (a n : Nat) : Bay × Resp :=
  let r := b.frameWords (a / 4) (wordSpan a n)
  (r.1, { data := b.scratch.bytes a n, bad := r.2 })

/-- Bytes are written at a of a bay's frames; parts of words merge. -/
def Bay.frameWrite (b : Bay) (a : Nat) (data : List Byte) (poison : Bool) : Bay :=
  let ws := wordSpan a data.length
  let c := (b.frameWords 0 (ws.filter fun w => !wholeWord a data.length w)).1
  { c with
    scratch := c.scratch.putBytes a data,
    smarks := ws.foldl (fun m w =>
      if poison then setMark m w 3
      else if wholeWord a data.length w || decide (markOf m w = 1) then setMark m w 0 else m) c.smarks }

/-- R275: the words of an agent outside the bays take the port of the bay that they reach. -/
def State.outsideWords (s : State) (ag : Agent) (b a n : Nat) : State :=
  match ag with
  | .bay _ => s
  | _ => s.onBay b fun c => c.claimPort (wordSpan a n).length false

/-- A page of this device is read: its map word, the byte in the page, the length. -/
def State.pageRead (s : State) (ag : Agent) (w : Word) (off n : Nat) : State × Resp :=
  let loc := fld w 0 26
  match tierOf w with
  | 0 =>
    if s.on (loc % 256 / 16) then
      let t := s.outsideWords ag (loc % 256) off n
      let r := (t.bay (loc % 256)).frameRead (loc / 256 * 65536 + off) n
      (t.setBay (loc % 256) r.1, r.2)
    else (s, { data := zeros n, err := some .isolated })
  | 1 => s.stgRead ag (loc % 256 * 0x40000 + loc / 256 * 65536 + off) n
  | 2 => s.ddrRead (loc * 65536 + off) n
  | _ => (s, { data := zeros n, err := some .unmapped })

/-- A page of this device is written. -/
def State.pageWrite (s : State) (ag : Agent) (w : Word) (off : Nat) (data : List Byte) (poison : Bool) : State × Resp :=
  let loc := fld w 0 26
  match tierOf w with
  | 0 =>
    if s.on (loc % 256 / 16) then
      ((s.outsideWords ag (loc % 256) off data.length).onBay (loc % 256) fun b =>
        b.frameWrite (loc / 256 * 65536 + off) data poison, {})
    else (s, { err := some .isolated })
  | 1 =>
    s.stgWrite ag (loc % 256 * 0x40000 + loc / 256 * 65536 + off) data
      (if poison then (List.range (wordSpan off data.length).length) else [])
  | 2 => s.ddrWrite (loc * 65536 + off) data poison
  | _ => (s, { err := some .unmapped })

/-- R338, step 2: a write to a page being copied marks its lines dirty. -/
def State.dirty (s : State) (k off n : Nat) : State :=
  s.onMove k fun m => { m with dirty := (lineSpan off n).foldl (fun d l => if l ∈ d then d else d ++ [l]) m.dirty }

/-- A write through the page map, with the mark of a page move. -/
def State.keyWrite (s : State) (ag : Agent) (k off : Nat) (data : List Byte) (poison : Bool) : State × Resp :=
  let r := s.pageWrite ag (s.page k).w0 off data poison
  if r.2.err = none then (r.1.dirty k off data.length, r.2) else r

/-- A request for a line of a guest page goes to its peer; a store marks its line dirty (R338). The answer is its number. -/
def State.askPeer (s : State) (bay fid k off : Nat) (data : Option (List Byte)) (poison : Bool) (kind : RemoteKind) :
    State × Nat :=
  (match data with | some d => s.dirty k off d.length | none => s).askDev (fld (s.page k).w0 0 12) bay fid k off data poison kind

/-! ## A bay's window accesses (R98, R339) -/

/-- The page map key that page `page` of window `win` of bay b resolves to. -/
def State.winKey (s : State) (b win page : Nat) : Nat := pageKey (fld ((s.bay b).winB win) 0 20) page

/-- The effective address of a byte of a window. -/
def winAddr (win off : Nat) : Word := wd (win * 2 ^ 28 + off)

/-- Where an access, or the second line of a RANGE lookup, that page word w serves is noted: its tier and that tier's
latency, the bank, the DDR4 address where no error answers it, and a refresh episode that it met (R190, R288, R312, R316). -/
def serveNote (w : Word) (k off lat tag : Nat) (second failed : Bool) (o : Outside) : Outside :=
  let t := tierOf w
  let b := if t = 1 then some (fld w 0 8) else none
  let a := fld w 0 26 * 65536 + off
  { o with
    tier := if o.tier < t then t else o.tier, served := if o.served < lat then lat else o.served,
    tag := joinTag o.tag tag, parked := false,
    bank := if second ∧ 1 < o.pending then o.bank else b, leaf := if second ∧ 1 < o.pending then b else none,
    ddr := if t = 2 ∧ !failed then some a else o.ddr,
    episode := o.episode || decide (tag = 10), keys := if k ∈ o.keys then o.keys else o.keys ++ [k] }

/-- The serial number of the trigger that made a window access. -/
def Req.fid : Req → Nat
  | .load fid _ _ _ _ _ => fid
  | .store fid _ _ _ _ _ _ => fid
  | .hash fid _ _ _ _ => fid
  | .range fid _ _ _ _ => fid
  | .leaf fid _ _ _ _ _ => fid
  | _ => 0

/-- A waiting access takes its place before the later ones of its bay. -/
def parkInsert (p : Parked) : List Parked → List Parked
  | [] => [p]
  | y :: t => if y.bay = p.bay ∧ p.req.fid < y.req.fid then p :: y :: t else y :: parkInsert p t

/-- An access waits in its place, in issue order (R29, R316, R339). -/
def State.park (s : State) (b fid k tag : Nat) (r : Req) : State :=
  { (s.onBay b fun c => c.served fid fun o => { o with parked := true }) with
    scr := { s.scr with parked := parkInsert (Parked.mk k b r tag) s.scr.parked } }

/-- The RANGE lookups of bay b issued before trigger `f` whose first line has not been answered: window and base. -/
def State.rangesAhead (s : State) (b f : Nat) : List (Nat × Nat) :=
  (s.scr.parked.filterMap fun p => match p.req with
    | .range fid win at_ _ _ => if p.bay = b ∧ fid < f then some (win, at_) else none
    | _ => none) ++
  s.scf.reqs.filterMap fun r => match r.kind with
    | .range win base _ _ => if r.bay = b ∧ r.fid < f then some (win, base) else none
    | _ => none

/-- R29: must an access of bay b to n bytes of page k wait for an earlier one of the bay: one that waits at the page, or, for
a store, a RANGE lookup whose second line may lie there? -/
def State.behind (s : State) (b f k off n : Nat) (store : Bool) : Bool :=
  (s.scr.parked.any fun p => decide (p.bay = b) && decide (p.key = k) && decide (p.req.fid < f)) ||
    (store && (s.rangesAhead b f).any fun e => (List.range 8).any fun i =>
      let a := (e.2 + 32 * (1 + i)) % 2 ^ 28
      decide (s.winKey b e.1 (a / 65536) = k) && decide (a % 65536 < off + n) && decide (off < a % 65536 + 32))

/-- The address that an error response reports (R518, R519). -/
def RemoteKind.ea : RemoteKind → Word
  | .load _ _ _ ea => ea
  | .store ea => ea
  | .hash _ ea => ea
  | .range _ _ _ ea => ea
  | .leaf _ ea bad => bad.getD ea
  | .outside _ _ => 0#32
  | .copy _ _ _ => 0#32

/-- Is this the second line of a RANGE lookup? -/
def Req.second : Req → Bool
  | .leaf _ _ _ _ _ _ => true
  | _ => false

/-- One access of bay b to a page: it parks, goes to a peer, or is answered. `data` is what a store writes, `lat` the
latency of the operation by tier. DESIGN CHOICE, log entry 10. -/
def State.access (s : State) (b fid k off n : Nat) (data : Option (List Byte)) (lat : Nat → Nat) (tag : Nat) (r : Req)
    (kind : RemoteKind) : State × Option Resp :=
  let e := s.page k
  if !e.live then (s, some { data := zeros n, err := some .unmapped })
  else if bitAt e.w0 29 then (s.park b fid k (joinTag tag 6) r, none)
  else if s.behind b fid k off n data.isSome then (s.park b fid k tag r, none)
  else if tierOf e.w0 = 2 && s.inEpisode (fld e.w0 0 26 * 65536 + off) then (s.park b fid k (joinTag tag 10) r, none)
  else if tierOf e.w0 = 3 then
    let q := s.askPeer b fid k off data false kind
    (q.1.onBay b fun c => c.served fid fun o =>
      { serveNote e.w0 k off (lat 3) (if s.retrying (s.route (fld e.w0 0 12) - 1) then joinTag tag 12 else tag) r.second false o with
        remote := some q.2, ea := kind.ea }, none)
  else
    let q := match data with
      | some d => s.keyWrite (.bay b) k off d false
      | none => s.pageRead (.bay b) e.w0 off n
    (q.1.onBay b fun c => c.served fid fun o =>
      { serveNote e.w0 k off (lat (tierOf e.w0)) tag r.second q.2.err.isSome o with ea := kind.ea }, some q.2)

/-- The value of a load of `size` bytes. -/
def loadValue (size : Nat) (signed : Bool) (data : List Byte) : Word :=
  if signed then sext (8 * size) (wd (ofBytes (data.take size))) else wd (ofBytes (data.take size))

/-- R518, R519: the answer of one line gives the access its result. -/
def Bay.answerWith (c : Bay) (fid : Nat) (p : Resp) (v : Word) (ea : Word) : Bay :=
  if p.err.isSome then c.errorResult fid ea else c.fill fid [(2, v)] (if p.bad = [] then none else some ea)

/-- R163, R518: the second line of a RANGE lookup gives its result; a poisoned first line is reported first. -/
def Bay.answerLeaf (c : Bay) (fid : Nat) (p : Resp) (key ea : Word) (bad : Option Word) : Bay :=
  if p.err.isSome then c.errorResult fid (bad.getD ea)
  else c.fill fid [(2, rangeFind key (wordsOf p.data) 0xFFFFFFFF#32)] (if bad.isSome then bad else if p.bad = [] then none else some ea)

/-- Heat counts once for each access, when it first resolves (R335). -/
def State.countFirst (s : State) (first : Bool) (b win k : Nat) : State :=
  if first && (s.page k).live then s.countAccess b win k else s

/-- R163: the second line of a RANGE lookup of bay b. -/
def State.serveLeaf (s : State) (b fid win at_ : Nat) (key ea : Word) (bad : Option Word) (first : Bool) (tag : Nat) : State :=
  let k := s.winKey b win (at_ / 65536 % 4096)
  match (s.countFirst first b win k).access b fid k (at_ % 65536) 32 none rangeLat tag (.leaf fid win at_ key ea bad)
      (.leaf key ea bad) with
  | (t, none) => t
  | (t, some p) => t.onBay b fun c => c.answerLeaf fid p key ea bad

/-- The first line of a RANGE lookup has come: the second is read. -/
def State.rangeRoot (s : State) (b fid win base : Nat) (key ea : Word) (p : Resp) : State :=
  if p.err.isSome then s.onBay b fun c => (c.errorResult fid ea).arrive fid 0
  else
    let at_ := (base + 32 * (1 + rangeLeaf key (wordsOf p.data))) % 2 ^ 28
    s.serveLeaf b fid win at_ key (winAddr win at_) (if p.bad = [] then none else some ea) true 0

/-- A window access of bay b is carried out, or waits. `first` is false when it was parked before (R339); `tag` is
what its response then carries. DESIGN CHOICE, log entry 10. -/
def State.serve (s : State) (b : Nat) (r : Req) (first : Bool) (tag : Nat) : State :=
  match r with
  | .load fid win page off size signed =>
    let k := s.winKey b win page
    let ea := winAddr win (page * 65536 + off)
    (match (s.countFirst first b win k).access b fid k off size none lsuLat tag r (.load off size signed ea) with
     | (t, none) => t
     | (t, some p) => t.onBay b fun c => c.answerWith fid p (loadValue size signed p.data) ea)
  | .store fid win page off size data ea =>
    let k := s.winKey b win page
    (match (s.countFirst first b win k).access b fid k off size (some (toBytes size data.toNat)) lsuLat tag r (.store ea) with
     | (t, none) => t
     | (t, some p) => if p.err.isSome then t.onBay b fun c => c.storeError ea else t)
  | .hash fid win at_ key ea =>
    let k := s.winKey b win (at_ / 65536 % 4096)
    (match (s.countFirst first b win k).access b fid k (at_ % 65536) 32 none hashLat tag r (.hash key ea) with
     | (t, none) => t
     | (t, some p) => t.onBay b fun c => c.answerWith fid p (hashFind key (wordsOf p.data)) ea)
  | .range fid win at_ key ea =>
    let k := s.winKey b win (at_ / 65536 % 4096)
    (match (s.countFirst first b win k).access b fid k (at_ % 65536) 32 none rangeLat tag r (.range win at_ key ea) with
     | (t, none) => t
     | (t, some p) => t.rangeRoot b fid win at_ key ea p)
  | .leaf fid win at_ key ea bad => s.serveLeaf b fid win at_ key ea bad first tag
  | _ => s

/-- R29, R316, R339: the waiting accesses go on, in issue order: where a fence has lifted, to the new location. One that must
wait still takes its place again. -/
def State.unpark (s : State) : State :=
  s.scr.parked.foldl (fun t p =>
    ({ t with scr := { t.scr with parked := t.scr.parked.erase p } }).serve p.bay p.req false p.tag) s

/-- WINDOW_RESPONSE (R89, R316, R518, R519): one response for access fid of bay b has come back, `ns` the channel time of
a DDR4 access (R312). An access that waits in its place, or at a peer, has none yet; a bay in TEST gets its own (R112). -/
def State.windowResponse (s : State) (b fid ns : Nat) : State :=
  let c := s.bay b
  match c.pipe.flights.find? fun (f : Flight) => decide (f.id = fid) with
  | none => s
  | some f => match f.out with
    | none => s
    | some o =>
      if o.parked || o.remote.isSome || o.readable.isSome then s
      else
        let s1 := s.onBay b fun x => let y := x.arrive fid 0; if y.state = 2 then y.deliver else y
        match o.ddr with
        | some a => s1.channelTime (chanOf a) ns
        | none => s1

/-! ## Completions from peers (R397, R398, R404, R405) -/

/-- A line of an outside access has its answer. -/
def State.outerLine (s : State) (master line : Nat) (p : Resp) : State :=
  { s with scr := { s.scr with outer := s.scr.outer.map fun o =>
      if o.master = master ∧ o.sent then { o with want := o.want - 1, lines := tsetD none o.lines line (some p) } else o } }

/-- The bay no longer waits for a peer. -/
def Outside.home (o : Outside) : Outside := { o with remote := none }

/-- R338, R348: a peer has answered a line of a page move's copy. A line read is kept, and sent on to a destination in L3; a
refusal of the guest, or a lost line, ends the move. -/
def State.copyAnswer (s : State) (k line : Nat) (write : Bool) (p : Resp) : State :=
  match s.moveOf k with
  | none => s
  | some m => match p.err with
    | some .unmapped => if write then s.guestRefused m else s.abandon m 4
    | some .linkDown => s.abandon m 5
    | some _ => s.abandon m (if write then 3 else 4)
    | none =>
      if write then s
      else
        let t := s.onMove k fun x => { x with lines := tsetD none x.lines line (some p) }
        if tierOf m.dst = 3 then
          (t.askDev (fld m.dst 0 12) 256 0 k (32 * line) (some p.data) (!p.bad.isEmpty) (.copy k line true)).1
        else t

/-- The answer to a request: `p` is the whole line. -/
def State.remoteAnswer (s : State) (r : Remote) (p : Resp) (tag : Nat) : State :=
  let s0 := s.onBay r.bay fun c => c.served r.fid Outside.home
  let done (t : State) : State := t.onBay r.bay fun c => c.arrive r.fid tag
  match r.kind with
  | .load off size signed ea =>
    let w := off % 32 / 4
    done (s0.onBay r.bay fun c =>
      c.answerWith r.fid { p with bad := p.bad.filter (· = w) } (loadValue size signed (p.data.drop (off % 32))) ea)
  | .store ea => done (if p.err.isSome then s0.onBay r.bay fun c => c.storeError ea else s0)
  | .hash key ea => done (s0.onBay r.bay fun c => c.answerWith r.fid p (hashFind key (wordsOf p.data)) ea)
  | .range win base key ea => (done s0).rangeRoot r.bay r.fid win base key ea p
  | .leaf key ea bad => done (s0.onBay r.bay fun c => c.answerLeaf r.fid p key ea bad)
  | .outside master line => s.outerLine master line p
  | .copy k line write => s.copyAnswer k line write p

/-- R405, R406: a request whose port went down is answered with an error. -/
def State.lostAnswer (s : State) (r : Remote) (isolated : Bool) : State :=
  match r.kind with
  | .outside master line =>
    s.outerLine master line { data := zeros 32, err := some (if isolated then .isolated else .linkDown) }
  | .copy k line write => s.copyAnswer k line write { err := some .linkDown }
  | k => s.onBay r.bay fun c => (c.served r.fid Outside.home).remoteLost r.fid k

/-- A completion with request number `tag` arrives at port p. -/
def State.complete (s : State) (p tag : Nat) (a : Resp) (intr : Nat) : State :=
  match s.scf.reqs.find? fun r => decide (r.tag = tag ∧ r.port = p) with
  | none => s
  | some r =>
    ({ s with scf := { s.scf with reqs := s.scf.reqs.filter fun q => decide (q.tag ≠ tag) } }).remoteAnswer r a intr

/-! ## The map service and the translated windows (R332, R428–R430, R447) -/

/-- R451: an access of the crossbar failed: KIND 1 decode, 2 error response, 3 cross-target burst. -/
def State.busError (s : State) (master addr : Nat) (write : Bool) (kind : Nat) : State :=
  let s1 := { s with mx := { s.mx with errAddr := wd addr, errMaster := master, errWrite := write, errKind := kind,
                                       errCount := satAdd 0xFFFF s.mx.errCount 1 } }
  s1.event 0xA0118 (if kind = 2 then 1 else 0)

/-- n bytes from a in pieces that do not cross a multiple of `unit`: start and length of each. DESIGN CHOICE, log
entry 10. -/
def pieces (unit a n : Nat) : List (Nat × Nat) :=
  (List.range ((a + n + unit - 1) / unit - a / unit)).map fun i =>
    let lo := if i = 0 then a else (a / unit + i) * unit
    let hi := if (a / unit + i + 1) * unit < a + n then (a / unit + i + 1) * unit else a + n
    (lo, hi - lo)

/-- Two answers to parts of one access: data in order, the first error. -/
def Resp.append (x y : Resp) : Resp :=
  { data := x.data ++ y.data, bad := x.bad ++ y.bad, err := if x.err.isSome then x.err else y.err }

/-- Parts of an access run in address order. DESIGN CHOICE, log entry 10. -/
def State.parts (s : State) (go : State → Nat → Nat → List Byte → State × Resp) (a0 : Nat) (data : List Byte) :
    List (Nat × Nat) → State × Resp
  | [] => (s, {})
  | (a, n) :: t =>
    let r := go s a n (data.take n)
    let q := r.1.parts go a0 (data.drop n) t
    (q.1, r.2.append q.2)

/-- Poisoned words of a part, numbered from the start of the whole access. -/
def Resp.shift (p : Resp) (a0 a : Nat) : Resp := { p with bad := p.bad.map (· + (a / 4 - a0 / 4)) }

/-- Is page `k` of a table that the map service may reach (R429)? -/
def State.pageThere (s : State) (k : Nat) : Bool :=
  bitAt (s.table (k / 4096)) 31 && decide (k % 4096 ≤ fld (s.table (k / 4096)) 0 12) && (s.page k).live

/-- The page map key of byte `o` of table t, and whether the table can have such a page. -/
def tableKey (t o : Nat) : Nat := pageKey t (o / 65536)

/-- R339, R430: does the access wait behind a fence? -/
def State.fenced (s : State) (t off n : Nat) : Bool :=
  (pieces 65536 off n).any fun e => decide (e.1 / 65536 < 4096) && bitAt (s.page (tableKey t e.1)).w0 29

/-- R298, R316, R430: does the access wait for a March test of the bay whose frame it reaches, or for a refresh episode? -/
def State.stalled (s : State) (t off n : Nat) : Bool :=
  (pieces 65536 off n).any fun e => decide (e.1 / 65536 < 4096) && s.pageThere (tableKey t e.1) &&
    s.placeWaits (s.page (tableKey t e.1)).w0

/-- R298, R316, R339: the tag of an access of the map service, DDR4 memory or a bay's scratch that must wait now, if it
must. -/
def State.outerWaits (s : State) (o : Outer) : Option Nat :=
  match o.tgt with
  | .table t off => if s.fenced t off o.len then some 6 else if s.stalled t off o.len then some 10 else none
  | .memory a => if (pieces 65536 a o.len).any fun e => s.inEpisode e.1 then some 10 else none
  | .scratch b _ => if (s.bay b).march then some 0 else none
  | _ => none

/-- One page of a table access on this device, or its lines as peers answered them. -/
def State.tablePart (s : State) (o : Outer) (t off0 a n : Nat) (data : List Byte) : State × Resp :=
  let k := tableKey t a
  if 4096 ≤ a / 65536 ∨ !s.pageThere k then (s, { data := zeros n, err := some .unmapped })
  else if tierOf (s.page k).w0 = 3 then
    let ls := pieces 32 a n
    (s, ls.foldl (fun (r : Resp) e =>
      let p : Resp := (tgetD none o.lines (e.1 / 32)).getD { err := some .linkDown }
      r.append { data := (p.data.drop (e.1 % 32)).take e.2, err := p.err,
                 bad := (p.bad.filter fun w => decide (e.1 % 32 / 4 ≤ w) && decide (w < (e.1 % 32 + e.2 + 3) / 4)).map
                   fun w => e.1 / 32 * 8 + w - off0 / 4 }) {})
  else
    let r := if o.write then s.keyWrite .scribe k (a % 65536) data o.poison
      else s.pageRead .scribe (s.page k).w0 (a % 65536) n
    (if r.2.err.isNone then r.1.timeLines (s.page k).w0 (lineSpan a n).length else r.1, r.2.shift off0 a)

/-- The requests that an access sends to peers: the lines of guest pages. -/
def State.guestLines (s : State) (t off n : Nat) : List (Nat × Nat) :=
  (pieces 32 off n).filter fun e =>
    decide (e.1 / 65536 < 4096) && s.pageThere (tableKey t e.1) && decide (tierOf (s.page (tableKey t e.1)).w0 = 3)

/-- R337, R398: the lines of guest pages are requested. -/
def State.askLines (s : State) (o : Outer) (t off : Nat) (ls : List (Nat × Nat)) : State :=
  ls.foldl (fun x e =>
    (x.askPeer 256 0 (tableKey t e.1) (e.1 % 65536) (if o.write then some ((o.data.drop (e.1 - off)).take e.2) else none)
      o.poison (.outside o.master (e.1 / 32))).1) s

/-- The pages that an access of the map service resolves through, once each (R335). -/
def State.countOuter (s : State) (t off n : Nat) : State :=
  (pieces 65536 off n).foldl (fun x e => if x.pageThere (tableKey t e.1) then x.countAccess 256 0 (tableKey t e.1) else x) s

/-- The agent that staging sees. -/
def Outer.agent (o : Outer) : Agent := if o.master = 0 then .host else .sill

/-- An access of an outside agent runs: its answer. -/
def State.outerRun (s : State) (o : Outer) : State × Resp :=
  match o.tgt with
  | .memory a =>
    s.parts (fun x p n d =>
      let r := if o.write then x.ddrWrite p d o.poison else x.ddrRead p n
      (if r.2.err.isNone then r.1.timed (chanOf p) (lineSpan p n).length else r.1, r.2.shift a p)) a o.data (pieces 65536 a o.len)
  | .staging a =>
    s.parts (fun x p n d =>
      let r := if o.write then x.stgWrite o.agent p d (if o.poison then List.range (wordSpan p d.length).length else [])
        else x.stgRead o.agent p n
      (r.1, r.2.shift a p)) a o.data (pieces 0x40000 a o.len)
  | .table t off => s.parts (fun x p n d => x.tablePart o t off p n d) off o.data (pieces 65536 off o.len)
  | .scratch b a =>
    if !s.on (b / 16) then (s, { data := zeros o.len, err := some .isolated })
    else if o.write then (s.onBay b fun c => (c.claimPort 1 false).outWrite a o.len (wd (ofBytes o.data)) o.poison, {})
    else
      let r := ((s.bay b).claimPort 1 false).outRead a
      (s.setBay b r.1, { data := (toBytes 4 (r.2.1 >>> (8 * (a % 4))).toNat).take o.len, bad := if r.2.2 then [0] else [] })
  | .doorbell a => if o.write then (s.bar2Put a o.data, {}) else (s, { data := s.bar2Get a o.len })
  | .flash a => (s, { data := if o.write then [] else s.mx.flash.bytes a o.len })
  | .unmapped => (s, { data := if o.write then [] else zeros o.len, err := some .unmapped })

/-- R426: what a read returns that asks for no byte: one dword of unspecified data. -/
def State.noBytes (s : State) (o : Outer) (l : List Byte) : State × List Byte :=
  if o.len = 0 then (s.draw.1, bytesOf [s.draw.2]) else (s, l)

/-- R427, R433: the endpoint answers the host; a completion with an error sets its AER bit. -/
def State.hostAnswer (s : State) (o : Outer) (p : Resp) : State :=
  match p.err with
  | none =>
    if o.write then s
    else
      let r := s.noBytes o p.data
      r.1.emit (.completion 0 r.2 p.bad)
  | some e =>
    let unsup := decide (e = .unmapped) || decide (e = .notOwner)
    if o.write then s.event 0x84020 0
    else
      let bar := match o.tgt with | .doorbell _ => 2 | _ => 4
      let s1 := s.aerRequest (if unsup then 15 else 10) bar false o.addr o.len false
      (s1.event 0x84020 1).emit (.completion (if unsup then 1 else 2) [] [])

/-- The crossbar answers its master (R451). -/
def State.busAnswer (s : State) (o : Outer) (p : Resp) : State :=
  let s1 := if p.err.isSome then s.busError o.master o.addr o.write 2 else s
  let d := if p.err.isSome then zeros o.len else p.data
  if o.master = 1 then
    match o.fid with
    | some fid =>
      s1.onBay 256 fun c => (c.fill fid [(2, loadValue o.len o.signed d)]
        (if p.err.isNone && !p.bad.isEmpty then some (wd o.addr) else none)).arrive fid o.tag
    | none => s1
  else if o.write then s1 else s1.emit (.answer { data := d, bad := p.bad })

/-- The first access of a master that waits. DESIGN CHOICE, log entry 10. -/
def State.outerHead (s : State) (m : Nat) : Option Outer := s.scr.outer.find? fun o => decide (o.master = m)

/-- The head access of a master is over. -/
def State.outerPop (s : State) (m : Nat) : State :=
  { s with scr := { s.scr with outer := match s.outerHead m with
      | some o => s.scr.outer.erase o
      | none => s.scr.outer } }

/-- The head access of a master changes. -/
def State.outerSet (s : State) (m : Nat) (f : Outer → Outer) : State :=
  let rec go : List Outer → List Outer
    | [] => []
    | o :: t => if o.master = m then f o :: t else o :: go t
  { s with scr := { s.scr with outer := go s.scr.outer } }

/-- The accesses of master m run in order until one must wait: behind a fence (R339), for a peer, or for the flash
port (R464). DESIGN CHOICE, log entry 10. -/
def State.outerServe (s : State) (m : Nat) : Nat → State
  | 0 => s
  | n + 1 => match s.outerHead m with
    | none => s
    | some o =>
      let finish (x : State) : State :=
        let r := x.outerRun o
        let y := r.1.outerPop m
        (if m = 0 then y.hostAnswer o r.2 else y.busAnswer o r.2).outerServe m n
      match s.outerWaits o, o.tgt with
      | some w, _ =>
        if o.sent then (if o.want = 0 then finish s else s)
        else s.outerSet m fun x => { x with tag := joinTag x.tag w }
      | none, .table t off =>
        if o.sent then (if o.want = 0 then finish s else s)
        else
          let c := s.countOuter t off o.len
          let ls := c.guestLines t off o.len
          if ls = [] then finish c
          else (c.outerSet m fun x => { x with sent := true, want := ls.length }).askLines o t off ls
      | none, .flash _ => if s.mx.xBusy then s else finish s
      | none, _ => finish s

/-- Every master's accesses. DESIGN CHOICE, log entry 9. -/
def State.outerAll (s : State) : State := [0, 1, 2, 3].foldl (fun t m => t.outerServe m (t.scr.outer.length + 1)) s

/-- An access of an outside agent takes its place. DESIGN CHOICE, log entry 51. -/
def State.outerAdd (s : State) (o : Outer) : State := { s with scr := { s.scr with outer := s.scr.outer ++ [o] } }

end Sys2Proof.Machine
end

