-- ==== Sys2Proof/Machine/ScarfRx.lean ====
section
/-!
DEFINITION. What a device does with the flits that reach it (R395–R401, R405–R408, R411, R412, R415, R553): messages and
their refusals, guest accesses, completions, fences and link states; and what is passed on for another device.
-/
namespace Sys2Proof.Machine

/-- R401: a flit for another device is passed on in its class. -/
def State.passOn (s : State) (c : Nat) (f : Flit) : State := s.sendTo c { flit := f, fwd := true }

/-- A flit whose destination is this device is handled, any other is passed on. -/
def State.forMe (s : State) (c : Nat) (f : Flit) (handle : State → State) : State :=
  if f.dst % 4096 = s.devId then handle s else s.passOn c f

/-! ## Messages (R397, R400, R553) -/

/-- Is this the message that a cell belongs to? -/
def Partial.of (a : Partial) (f : Flit) : Bool :=
  decide (a.src = f.src ∧ a.rt = f.rt ∧ a.index = f.index ∧ a.queue = f.tag)

/-- The message so far with one more cell; the first cell starts it. -/
def State.withCell (s : State) (f : Flit) : Partial :=
  let old : Partial := if f.cell = 0 then { src := f.src, rt := f.rt, index := f.index, queue := f.tag }
    else (s.scf.asm.find? fun a => a.of f).getD { src := f.src, rt := f.rt, index := f.index, queue := f.tag }
  { old with
    words := old.words ++ (List.range 16).map fun i => f.payload.getD i 0#32,
    bad := if f.poison then old.bad ++ (List.range 16).map (· + old.words.length) else old.bad }

/-- R400, R553: a whole message is committed at once, or refused; a notice is dropped with NOTICELOST. -/
def State.remoteCommit (s : State) (f : Flit) (a : Partial) : State :=
  if f.rt ∧ 2 ^ 13 ≤ f.index then (s.postLocal f.tag f.src a.words).1
  else
    let p := Producer.remote f.src f.rt (if f.rt then f.index % 256 else f.index)
    let r := s.takeIn f.tag (p.message f.src a.words a.bad)
    if r.2 = 0 then r.1
    else ((r.1.bump 0x30068).event 0x30040 1).sendCmp
      (refuseFlit s.devId f.src r.2 (flitTrigger f) (refuseWho f.rt f.index))

/-- QCELL: one cell of a message for this device. -/
def State.takeCell (s : State) (f : Flit) : State :=
  let a := s.withCell f
  let rest := s.scf.asm.filter fun x => !x.of f
  if f.cell % 4 = f.ncell % 4 then ({ s with scf := { s.scf with asm := rest } }).remoteCommit f a
  else { s with scf := { s.scf with asm := rest ++ [a] } }

/-- QCELL at port p. -/
def State.rxCell (s : State) (p : Nat) (l : LinkWord) (f : Flit) : State :=
  s.receive p 0 l fun t => t.forMe 0 f fun u => u.takeCell f

/-- QREFUSE (R249, R397): the refusal is counted here and reported to the producer's notice queue. -/
def State.takeRefuse (s : State) (f : Flit) : State :=
  let who := f.payload.getD 2 0#32
  let notq := if bitAt who 31 then (s.bay (fld who 0 8)).qio.rtnotq else s.taskWord (fld who 0 14) 4 &&& 0x8FFFFFFF#32
  s.refused notq (f.payload.getD 1 0#32) (fld (f.payload.getD 0 0#32) 0 8)

/-- QREFUSE at port p. DEDUCED, log entry 49. -/
def State.rxRefuse (s : State) (p : Nat) (l : LinkWord) (f : Flit) : State :=
  s.receive p 1 l fun t => t.forMe 1 f fun u => u.takeRefuse f

/-! ## Guest accesses (R348, R398, R412) -/

/-- The key of a guest page: its home device and page. -/
def guestKey (dev k : Nat) : Nat := dev * 2 ^ 32 + k

/-- The guest area's page that holds a guest. -/
def State.guestPage (s : State) (dev k : Nat) : Option Nat :=
  (s.scr.guests.find? fun g => decide (g.1 = guestKey dev k)).map (·.2)

/-- Pages of every channel's DIMMs, lowest first (R307). -/
def State.slotPagesAll (s : State) : List (Nat × Nat) := (List.range 8).flatMap s.slotPages

/-- The lowest free page of the guest area that is not unmapped (R307, R348). DESIGN CHOICE, log entry 45. -/
def State.guestFree (s : State) : Option Nat :=
  (s.slotPagesAll.flatMap fun q =>
      let lo := if s.scr.guestRange.1 < q.1 then q.1 else s.scr.guestRange.1
      let hi := if s.scr.guestRange.1 + s.scr.guestRange.2 < q.2 then s.scr.guestRange.1 + s.scr.guestRange.2 else q.2
      ((List.range (s.scr.guests.length + 1)).map (lo + ·)).filter fun g => decide (g < hi)).find? fun g =>
    (s.ddrErr (g * 65536)).isNone && s.scr.guests.all fun e => decide (e.2 ≠ g)

/-- R348, R412: a guest page of device `dev` is accepted when the area has room and the route to `dev` leaves through
the port on which the request arrived. DESIGN CHOICE, log entry 45. -/
def State.guestAdd (s : State) (p dev k : Nat) : State :=
  if (s.guestPage dev k).isSome ∨ s.route dev ≠ p + 1 ∨ dev ∉ s.scr.members then s
  else match s.guestFree with
    | some g => { s with scr := { s.scr with guests := s.scr.guests ++ [(guestKey dev k, g)] } }
    | none => s

/-- The home device frees a guest page. -/
def State.guestDrop (s : State) (dev k : Nat) : State :=
  { s with scr := { s.scr with guests := s.scr.guests.filter fun g => decide (g.1 ≠ guestKey dev k) } }

/-- The page that a PREAD or PWRITE names, and the byte of its line. -/
def flitPage (f : Flit) : Nat × Nat :=
  (pageKey (fld (f.payload.getD 0 0#32) 0 20) (fld (f.payload.getD 1 0#32) 0 12), fld (f.payload.getD 1 0#32) 21 11 * 32)

/-- The code of a PERR (R397). PRESUMED, log entry 48. -/
def errCode (e : Err) : Nat := match e with | .linkDown => 1 | .unmapped => 2 | _ => 3

/-- The error response that a PERR's code tells. PRESUMED, log entry 48. -/
def errOf (c : Nat) : Err := if c = 1 then .linkDown else if c = 2 then .unmapped else .isolated

/-- The completion that answers a request. -/
def State.guestReply (s : State) (f : Flit) (r : Resp) : State :=
  match r.err with
  | some e => s.sendCmp { typ := 5, dst := f.src, src := s.devId, tag := f.tag, index := errCode e }
  | none => s.sendCmp {
      typ := 4, dst := f.src, src := s.devId, tag := f.tag,
      payload := (wordsOf r.data) ++ (if r.data = [] then [] else [wd ((r.bad.map fun i => 2 ^ i).foldl (· + ·) 0)]) }

/-- The guest service: a line of a guest page is read or written, or the answer is PERR code 2. DESIGN CHOICE, log
entry 45. -/
def State.guestRun (s : State) (f : Flit) : State × Resp :=
  let k := flitPage f
  match s.guestPage f.src k.1 with
  | none => (s, { err := some .unmapped })
  | some g =>
    let a := g * 65536 + k.2
    if f.typ = 2 then
      let r := s.ddrRead a 32
      (if r.2.err.isNone then r.1.timed (chanOf a) 1 else r.1, { r.2 with err := r.2.err.map (fun _ => Err.isolated) })
    else
      let be := f.payload.getD 2 0#32
      let d := bytesOf ((List.range 8).map fun i => f.payload.getD (8 + i) 0#32)
      match s.ddrErr a with
      | some _ => (s, { err := some .isolated })
      | none =>
        ((s.timed (chanOf a) 1).lineWrite (chanOf a) (a / 64)
          ((List.range 32).filterMap fun i => if bitAt be i then some (a % 64 + i, d.getD i 0#8) else none) f.poison, {})

/-- A guest access is served. `guest` is 1 when the home device's placement of the page came with it, 2 when the home device
frees the page after it. -/
def State.guestServe (s : State) (p : Nat) (f : Flit) (guest : Nat) : State :=
  let k := (flitPage f).1
  let s1 := if guest = 1 then s.guestAdd p f.src k else s
  let r := s1.guestRun f
  let s2 := r.1.guestReply f r.2
  if guest = 2 then s2.guestDrop f.src k else s2

/-- R316: must a guest access wait for the end of a refresh episode of its rank? -/
def State.guestWaits (s : State) (f : Flit) : Bool :=
  match s.guestPage f.src (flitPage f).1 with
  | some g => s.inEpisode (g * 65536)
  | none => false

/-- PREAD or PWRITE for this device at port p: it is served, or waits in its order of arrival. -/
def State.takeGuest (s : State) (p : Nat) (f : Flit) (guest : Nat) : State :=
  if s.guestWaits f || s.scf.guestq.any fun e => decide (e.2.1.src = f.src ∧ (flitPage e.2.1).1 = (flitPage f).1) then
    { s with scf := { s.scf with guestq := s.scf.guestq ++ [(p, f, guest)] } }
  else s.guestServe p f guest

/-- R316: guest accesses whose rank's episode has ended are served, in order. -/
def State.guestResume (s : State) : State :=
  s.scf.guestq.foldl (fun t e => t.takeGuest e.1 e.2.1 e.2.2) { s with scf := { s.scf with guestq := [] } }

/-- PREAD or PWRITE at port p. -/
def State.rxGuest (s : State) (p : Nat) (l : LinkWord) (f : Flit) (guest : Nat) : State :=
  s.receive p 0 l fun t => t.forMe 0 f fun u => u.takeGuest p f guest

/-- PCOMP at port p; `intr` is the intrusion tag of a completion that met a retry or an adaptation slice (R404, R414). -/
def State.rxComp (s : State) (p : Nat) (l : LinkWord) (f : Flit) (intr : Nat) : State :=
  s.receive p 1 l fun t => t.forMe 1 f fun u =>
    u.complete p f.tag
      { data := bytesOf ((List.range 8).map fun i => f.payload.getD i 0#32),
        bad := (List.range 8).filter fun i => bitAt (f.payload.getD 8 0#32) i } intr

/-- PERR at port p. -/
def State.rxErr (s : State) (p : Nat) (l : LinkWord) (f : Flit) (intr : Nat) : State :=
  s.receive p 1 l fun t => t.forMe 1 f fun u =>
    u.complete p f.tag { data := zeros 32, err := some (errOf (f.index % 256)) } intr

/-! ## Fences (R408) -/

/-- A FENCE for this device, in the FWD class or not: with both, FENCE_ACK answers. -/
def State.takeFence (s : State) (f : Flit) (fwd : Bool) : State :=
  let old : FenceSeen := (s.scf.fences.find? fun e => decide (e.src = f.src ∧ e.num = f.tag)).getD { src := f.src, num := f.tag }
  let new : FenceSeen := { old with fwd := old.fwd || fwd, cmp := old.cmp || !fwd }
  let rest := s.scf.fences.filter fun e => !decide (e.src = f.src ∧ e.num = f.tag)
  if new.fwd && new.cmp then
    ({ s with scf := { s.scf with fences := rest } }).sendCmp { typ := 7, dst := f.src, src := s.devId, tag := f.tag }
  else { s with scf := { s.scf with fences := rest ++ [new] } }

/-- FENCE at port p. -/
def State.rxFence (s : State) (p : Nat) (l : LinkWord) (f : Flit) (fwd : Bool) : State :=
  let c := if fwd then 0 else 1
  s.receive p c l fun t => t.forMe c f fun u => u.takeFence f fwd

/-- R259, R408: an update completes, and timers stopped for the device run again. -/
def State.updateEnds (s : State) (forced : Bool) : State :=
  match s.scf.upd with
  | none => s
  | some u => (if forced then s.updateForced else s.updateDone 0).pathRestored u.dev

/-- FENCE_ACK at port p. -/
def State.rxFenceAck (s : State) (p : Nat) (l : LinkWord) (f : Flit) : State :=
  s.receive p 1 l fun t => t.forMe 1 f fun u =>
    match u.scf.upd with
    | some d => if d.num = f.tag ∧ d.dev = f.src then u.updateEnds false else u
    | none => u

/-! ## Link states (R415) -/

/-- A newer generation is recorded, and the flit forwarded once on every other UP port. PRESUMED, log entry 47. -/
def State.takeLstate (s : State) (p : Nat) (f : Flit) : State :=
  let w := f.payload.getD 0 0#32
  let dev := fld w 0 12
  let port := fld w 12 3
  let st := fld w 16 2
  let gen := fld (f.payload.getD 1 0#32) 0 8
  let key := dev * 8 + port
  let newer : Bool := match tgetD none s.scf.view key with
    | some v => decide (1 ≤ (gen + 256 - v.2) % 256 ∧ (gen + 256 - v.2) % 256 ≤ 127)
    | none => true
  if newer && decide (dev ≠ s.devId) then
    let s1 := { s with scf := { s.scf with view := tsetD none s.scf.view key (some (st, gen)) } }
    let s2 := s1.lstateOn (s1.upPorts.filter (· ≠ p)) dev port st gen
    if st = 2 then s2.todo (.pathDown dev port) else s2
  else s

/-- LSTATE at port p. -/
def State.rxLstate (s : State) (p : Nat) (l : LinkWord) (f : Flit) : State :=
  s.receive p 2 l fun t => t.takeLstate p f

/-- R397: a flit of a reserved type is accepted, acknowledged and discarded. DEDUCED, log entry 46. -/
def State.rxReserved (s : State) (p : Nat) (l : LinkWord) : State :=
  s.receive p 3 l fun t => t.event (scfBase p + 0x20) 4

end Sys2Proof.Machine
end

