-- ==== Sys2Proof/Machine/Eth.lean ====
section
/-!
DEFINITION. The Ethernet MACs (R435–R441): link states, classification and delivery of received frames, the choice and
transmission of messages, timestamps and reports.
-/
namespace Sys2Proof.Machine

/-- Base offset of MAC m's registers (R441). -/
def ethBase (m : Nat) : Nat := 0x80000 + 0x2000 * m

/-- MAC m. -/
def State.mac (s : State) (m : Nat) : Mac := tgetD {} s.macs m

/-- Replace MAC m. -/
def State.setMac (s : State) (m : Nat) (x : Mac) : State := { s with macs := tsetD {} s.macs m x }

/-- R4, R476: is MAC m there and out of reset? -/
def State.macHere (s : State) (m : Nat) : Bool := decide (m < 2) && s.hw.full && s.on 20 && !s.rst.shored

/-- A 16-bit signed field as an integer. -/
def s16 (w : Word) (lo : Nat) : Int :=
  let v := fld w lo 16
  if v < 2 ^ 15 then Int.ofNat v else Int.ofNat v - 2 ^ 16

/-- R440: a measured time, in units of 2^-16 ns, with ETHm_TSCORR added. -/
def stampWith (t : Nat) (corr : Int) : Nat := ((Int.ofNat t + corr * 65536) % (2 ^ 80)).toNat

/-- Integer ns and fraction of a timestamp as R436 lays them out: bytes 7:0, and bytes 13:12. -/
def stampHead (t : Nat) (mid : List Byte) : List Byte :=
  toBytes 8 (t / 65536) ++ mid ++ toBytes 2 (t % 65536) ++ zeros 2

/-- Bytes padded to whole 64-byte cells. -/
def padCells (l : List Byte) : List Byte := l ++ zeros (64 * ceilDiv l.length 64 - l.length)

/-- R436: the message of a received frame. -/
def frameWords (stamp : Nat) (f : List Byte) : List Word :=
  wordsOf (padCells (stampHead stamp (toBytes 2 f.length ++ [if 240 < f.length then 1#8 else 0#8, 0#8]) ++ f.take 240))

/-- EtherType of a frame, after one IEEE 802.1Q tag if one is present, and the tag's VLAN identifier (R437). PRESUMED,
log entry 50. -/
def frameType (f : List Byte) : Nat × Option Nat :=
  let be (i : Nat) : Nat := (f.getD i 0#8).toNat * 256 + (f.getD (i + 1) 0#8).toNat
  if be 12 = 0x8100 then (be 16, some (be 14 % 4096)) else (be 12, none)

/-- R437: does binding n of MAC m take a frame? -/
def State.bindingTakes (s : State) (m n : Nat) (ty : Nat × Option Nat) : Bool :=
  let a := s.reg (ethBase m + 0x400 + 8 * n)
  bitAt a 31 && decide (fld a 0 16 = ty.1) && (!bitAt a 30 || decide (ty.2 = some (fld a 16 12)))

/-- R437: the binding, queue and MODE that a frame goes to. -/
def State.bindingFor (s : State) (m : Nat) (ty : Nat × Option Nat) : Option (Nat × Nat × Bool) :=
  match (List.range 63).find? fun n => s.bindingTakes m n ty with
  | some n => some (n, fld (s.reg (ethBase m + 0x404 + 8 * n)) 0 16, bitAt (s.reg (ethBase m + 0x400 + 8 * n)) 29)
  | none =>
    let d := s.reg (ethBase m + 0x10)
    if bitAt d 31 then some (62, fld d 0 16, false) else none

/-- A received frame is dropped and counted (R437). -/
def State.rxDrop (s : State) (m : Nat) : State := (s.bump (ethBase m + 0x48)).event (ethBase m + 0x20) 2

/-- R435–R437, R440: a frame of `f.length` bytes without FCS arrives, with a good FCS or not; `t` is the part of a
microsecond that has passed since SCF_TIME was brought up to date. -/
def State.frameIn (s : State) (m : Nat) (f : List Byte) (good : Bool) (t : Nat) : State :=
  if !s.macHere m || decide ((s.mac m).state ≠ 2) then s
  else if !good || decide (f.length < 60) || decide (9212 < f.length) then s.rxDrop m
  else
    match s.bindingFor m (frameType f) with
    | none => s.rxDrop m
    | some (n, q, strict) =>
      if strict && decide (240 < f.length) then s.rxDrop m
      else
        let stamp := stampWith (s.stamp t) (s16 (s.reg (ethBase m + 0x14)) 0)
        let r := s.commitNow q (.eth (64 * m + n)) (frameWords stamp f)
        if r.2 = 0 then r.1.bump (ethBase m + 0x40) else r.1.rxDrop m

/-- R438: the next message that MAC m may take: the highest class, and within it the earliest commit, of the ENABLED
queues bound to it. -/
def State.nextToSend (s : State) (m : Nat) : Option (Nat × Msg × Nat) :=
  s.qm.queues.foldl (fun (best : Option (Nat × Msg × Nat)) (e : Nat × Queue) =>
    let x : Queue := e.2
    match x.msgs.head? with
    | some g =>
      if x.state = 1 ∧ x.bind = 3 ∧ x.target / 8 = m then
        (match best with
         | none => some (e.1, g, x.target % 8)
         | some (j, h, c) =>
           if c < x.target % 8 ∨ (c = x.target % 8 ∧ g.commit < h.commit) then some (e.1, g, x.target % 8)
           else some (j, h, c))
      else best
    | none => best) none

/-- L of a transmit message (R438). -/
def sendLength (g : Msg) : Nat := fld (g.words.getD 0 0#32) 0 16

/-- R438: is a transmit message well formed? -/
def sendOk (g : Msg) : Bool :=
  let l := sendLength g
  decide (14 ≤ l) && decide (l ≤ 240) && decide (ceilDiv (16 + l) 64 ≤ g.cells)

/-- R438, R439: a transmit message is freed without having been sent whole. -/
def State.txBad (s : State) (m q : Nat) (g : Msg) : State :=
  ((s.freeAway q g).bump (ethBase m + 0x58)).event (ethBase m + 0x20) 3

/-- R438, R439: MAC m takes its next message, or frees a malformed one unsent. -/
def State.ethTake (s : State) (m : Nat) : State :=
  if !s.macHere m || decide ((s.mac m).state ≠ 2) || (s.mac m).tx.isSome || !s.qmRuns then s
  else
    match s.nextToSend m with
    | none => s
    | some (q, g, c) =>
      let x := s.queue q
      let s1 := s.setQueue q { x with msgs := x.msgs.tail, away := x.away + g.cells }
      if sendOk g then s1.setMac m { s.mac m with tx := some { queue := q, msg := g, cls := c } } else s1.txBad m q g

/-- R418, R438, R440: the timestamp report of a transmitted message goes to binding 63's queue. -/
def State.txReport (s : State) (m : Nat) (x : Sending) (t : Nat) : State :=
  let w := x.msg.words.getD 0 0#32
  let b := s.reg (ethBase m + 0x400 + 8 * 63)
  if bitAt w 16 && bitAt b 31 then
    let stamp := stampWith (s.stamp t) (s16 (s.reg (ethBase m + 0x14)) 16)
    (s.commitNow (fld (s.reg (ethBase m + 0x404 + 8 * 63)) 0 16) (.eth (64 * m + 63))
      (wordsOf (padCells (stampHead stamp (toBytes 1 (fld w 24 8) ++ toBytes 1 x.cls ++ toBytes 2 (sendLength x.msg)))))).1
  else s

/-- R435: the FCS of IEEE 802.3: CRC-32 of the frame, least significant byte first. PRESUMED, log entry 50. -/
def frameFcs (f : List Byte) : List Byte :=
  let step (v : Word) (d : Byte) : Word :=
    (List.range 8).foldl (fun w _ => if bitAt w 0 then (w >>> 1) ^^^ 0xEDB88320#32 else w >>> 1) (v ^^^ d.zeroExtend 32)
  toBytes 4 (f.foldl step 0xFFFFFFFF#32 ^^^ 0xFFFFFFFF#32).toNat

/-- R435, R438: a frame as it leaves: padded to 60 bytes, with its FCS. -/
def wireFrame (f : List Byte) : List Byte :=
  let p := f ++ zeros (60 - f.length)
  p ++ frameFcs p

/-- R438: the last byte of the frame has left; `t` is the part of a microsecond that has passed. -/
def State.ethSent (s : State) (m t : Nat) : State :=
  match (s.mac m).tx with
  | none => s
  | some x =>
    let f := ((bytesOf x.msg.words).drop 16).take (sendLength x.msg)
    let s1 := ((s.setMac m { s.mac m with tx := none }).emit (.frame m (wireFrame f))).freeAway x.queue x.msg
    (s1.bump (ethBase m + 0x50)).txReport m x t

/-- R439: a frame in transmission is cut short. -/
def State.txCut (s : State) (m : Nat) : State :=
  match (s.mac m).tx with
  | none => s
  | some x => (s.setMac m { s.mac m with tx := none }).txBad m x.queue x.msg

/-- R441: the link reaches UP. -/
def State.ethUp (s : State) (m : Nat) : State :=
  if s.macHere m && decide ((s.mac m).state = 1) then
    (s.setMac m { s.mac m with state := 2 }).event (ethBase m + 0x20) 0
  else s

/-- R439, R441: the link leaves UP for `st`. -/
def State.ethLeave (s : State) (m st : Nat) : State :=
  if (s.mac m).state = 2 then
    let s1 := s.txCut m
    (s1.setMac m { s1.mac m with state := st }).event (ethBase m + 0x20) 1
  else s.setMac m { s.mac m with state := st }

/-- The link is lost: the MAC trains again. -/
def State.ethDown (s : State) (m : Nat) : State :=
  if s.macHere m && decide ((s.mac m).state = 2) then s.ethLeave m 1 else s

/-- R441: a write to ETHm_CTL. -/
def State.ethCtl (s : State) (m : Nat) (v : Word) : State :=
  if !s.macHere m then s
  else
    let s1 := s.writeRw (ethBase m) 3 v
    if bitAt v 0 then (if (s.mac m).state = 0 then s1.setMac m { s1.mac m with state := 1 } else s1)
    else if (s.mac m).state = 0 then s1 else s1.ethLeave m 0

/-- R441: ETHm_STATE. -/
def State.ethState (s : State) (m : Nat) : Word := wd (s.mac m).state

end Sys2Proof.Machine
end

