-- ==== Sys2Proof/Machine/Host.lean ====
section
/-!
DEFINITION. The PCI Express endpoint (R422–R434, R467): link and power state, Advanced Error Reporting, the BAR4 window,
and what a reset of HOST reach returns to reset. BAR0 requests are carried out register by register in `Bus.lean`.
-/
namespace Sys2Proof.Machine

/-- A request of n bytes to a BAR that receives Unsupported Request: a read is completed so, which HB_STAT.RDERR records, a
write is gone; AER records either (R422, R426, R433, R434). -/
def State.unsupported (s : State) (bar : Nat) (write : Bool) (off n : Nat) (req : Option Word := none) : State :=
  let s1 := s.aerRequest 15 bar write off n false req
  if write then s1 else (s1.event 0x84020 1).emit (.completion 1 [] [])

/-- R426: a malformed TLP is discarded. -/
def State.malformed (s : State) (hdr : List Word) : State := if s.hb.up then s.aer 13 hdr else s

/-- R423: the link comes up at the highest rate and widest width common to both ends, within HB_CTL, at 2.5 GT/s x1 in
shoring mode. `gen` and `width` are the most the other end allows. -/
def State.hostUp (s : State) (gen width : Nat) : State :=
  if !s.on 20 || decide (3 ≤ s.rst.reach) || s.hb.up then s
  else
    let c := s.reg 0x84000
    let g := if fld c 0 4 = 0 ∨ 5 < fld c 0 4 then 5 else fld c 0 4
    let w := match fld c 4 3 with | 1 => 8 | 2 => 4 | 3 => 2 | 4 => 1 | _ => 16
    { s with hb := { s.hb with up := true, gen := if s.rst.shored then 1 else min g gen,
                               width := if s.rst.shored then 1 else min w width } }

/-- R429: where offset o of BAR4 leads, by the window's value in force. -/
def State.bar4Target (s : State) (off : Nat) : Target :=
  let w := s.reg (0x84100 + 4 * (off / 2 ^ 28 % 64))
  let o := off % 2 ^ 28
  let t := fld w 0 20
  match fld w 30 2 with
  | 1 =>
    if t * 2 ^ 28 + o < s.scr.hostRange.2 * 65536 then .memory (s.scr.hostRange.1 * 65536 + t * 2 ^ 28 + o) else .unmapped
  | 2 => .table t o
  | 3 => if o < 0x3000000 then .staging o else .unmapped
  | _ => .unmapped

/-- R426: does a request of n bytes cross a 4 KiB boundary or exceed what a TLP may ask? -/
def tlpBad (off n : Nat) : Bool := decide (4096 < off % 4096 + n)

/-- R426–R430: a host read of n bytes at BAR4 offset off, or of the doorbell pages at BAR2 offset off, takes its place; a
read of no byte (n = 0) flushes what is before it and returns one dword of unspecified data. -/
def State.hostRead (s : State) (bar2 : Bool) (off n : Nat) : State :=
  let bar := if bar2 then 2 else 4
  if !s.hb.up then s
  else if s.hb.d3 then s.unsupported bar false off n
  else if tlpBad off n then s.aerRequest 13 bar false off n false
  else s.outerAdd { master := 0, tgt := if bar2 then .doorbell (off % 2 ^ 28) else s.bar4Target off, addr := off,
                    write := false, len := n }

/-- R426: is a write of this length at this offset Malformed: longer than Max_Payload_Size, empty, or across a 4 KiB
boundary? -/
def State.writeBad (s : State) (off n : Nat) : Bool := tlpBad off n || decide (n = 0) || decide (s.hb.mps < n)

/-- R426–R430: a host write at BAR4 offset off takes its place. DESIGN CHOICE, log entry 51. -/
def State.bar4Write (s : State) (off : Nat) (data : List Byte) (poison : Bool) (req : Word) : State :=
  if !s.hb.up then s
  else if s.hb.d3 then s.unsupported 4 true off data.length (some req)
  else if s.writeBad off data.length then s.aerRequest 13 4 true off data.length poison (some req)
  else
    let s1 := if poison then s.aerRequest 7 4 true off data.length true (some req) else s
    s1.outerAdd { master := 0, tgt := s1.bar4Target off, addr := off, write := true, len := data.length, data := data,
                  poison := poison }

/-- R261, R422, R426–R428: a host write at BAR2 offset off: it waits behind the writes through BAR4 that came before it, and
is discarded when poisoned. -/
def State.bar2Write (s : State) (off : Nat) (data : List Byte) (poison : Bool) : State :=
  if !s.hb.up then s
  else if s.hb.d3 then s.unsupported 2 true off data.length
  else if s.writeBad off data.length then s.aerRequest 13 2 true off data.length poison
  else if poison then s.aerRequest 7 2 true off data.length true
  else if (s.outerHead 0).isSome then
    s.outerAdd { master := 0, tgt := .doorbell off, addr := off, write := true, len := data.length, data := data }
  else s.bar2Put off data

/-- R422: a host configuration write: the writable bits take their values; Power State moves the endpoint to D3hot or back
to D0, where what is pending is sent; MSI-X control and AER status follow their rules. PRESUMED, log entry 50. -/
def State.pciWrite (s : State) (o : Nat) (v : Word) : State :=
  if o = 0x44 then
    if fld v 0 2 = 3 then { s with hb := { s.hb with d3 := true } }
    else if fld v 0 2 = 0 then
      let t := { s with hb := { s.hb with d3 := false } }
      if s.hb.d3 && s.hb.msixOn then t.hb.pendingV.foldl State.unmasked t else t
    else s
  else if o = 0x50 then s.msixControl (bitAt v 31) (bitAt v 30)
  else if o = 0x104 then s.aerClear true v
  else if o = 0x110 then s.aerClear false v
  else { s with hb := { s.hb with cfg := tset pciReset s.hb.cfg o ((s.hb.pci o &&& ~~~pciMask o) ||| (v &&& pciMask o)) } }

/-- R422: a host configuration request of one dword, which needs the link up and is served in D3hot as in D0. -/
def State.pciRequest (s : State) (write : Bool) (o : Nat) (v : Word) : State :=
  if !s.hb.up then s
  else if write then s.pciWrite (o / 4 * 4) v
  else s.emit (.completion 0 (bytesOf [s.pciRead (o / 4 * 4)]) [])

/-- R466, R467: a reset of HOST reach returns the PCIe core, configuration space, the HB_* registers, the MSI-X table and
the PBA to reset. Requests of the host in flight are gone, and a ring's message that waits in the PBA with them. -/
def State.hostReset (s : State) : State :=
  { s with
    hb := { ({} : Hb) with outs := s.hb.outs },
    regs := { s.regs with words := tclear s.regs.words 0x84000 0x200, sqs := tclear s.regs.sqs 0x84000 0x200 },
    scr := { s.scr with outer := s.scr.outer.filter fun o => decide (o.master ≠ 0) },
    qm := { s.qm with rings := tmap (fun _ => {}) (fun _ (r : Ring) => { r with masked := false }) s.qm.rings } }

/-- HB_LINK (R434). -/
def State.hbLink (s : State) : Word := wd (nbit s.hb.up * 2 ^ 31 + s.hb.width * 16 + s.hb.gen)

end Sys2Proof.Machine
end

