-- ==== Sys2Proof/Machine/Reset.lean ====
section
/-!
DEFINITION. Resets and their reaches, the reach latch, exit sequences, isolation wrappers, trims and failed starts, the
watchdog (R465–R478), and the capability list (R546–R550).
-/
namespace Sys2Proof.Machine

/-! ## Wrappers (R471) -/

/-- R471: one outstanding access of a bay is answered with ERR_ISOLATED. -/
def Bay.isolateFlight (b : Bay) (f : Flight) : Bay :=
  match f.out with
  | some o =>
    let c := b.onFlight f.id fun g => { g with out := g.out.map fun x => { x with pending := 1 } }
    (if o.store then c.storeError o.ea else c.errorResult f.id o.ea).arrive f.id 0
  | none => b

/-- R471: the accesses of bays outstanding into a block that closes are answered, in issue order. -/
def State.isolate (s : State) (hit : Outside → Bool) : State :=
  (s.bays.map (·.1)).foldl (fun t k => t.onBay k fun b =>
    (b.pipe.flights.filter fun f => match f.out with
      | some o => o.readable.isNone && !o.parked && o.remote.isNone && hit o
      | none => false).foldl Bay.isolateFlight b) s

/-! ## Bays (R466, R472, R482) -/

/-- R191, R466: a bay returned to reset keeps its stores, the fault cell included, and its ledger, to which a hold in
progress is charged. -/
def Bay.reset (b : Bay) (st : Nat) : Bay :=
  let b := b.chargeHold
  { Bay.fresh b.id with
    state := st, retired := b.retired, istore := b.istore, imarks := b.imarks, scratch := b.scratch, smarks := b.smarks,
    led := { b.led with run := none }, ueDowns := b.ueDowns, free := b.free, dbg := { locked := b.dbg.locked } }

/-- Bays of bent n. -/
def bentBays (n : Nat) : List Nat := (List.range 16).map (16 * n + ·)

/-- What a bay issued outward is dropped with it (R471): parked accesses and requests to peers. -/
def State.dropIssued (s : State) (b : Nat) : State :=
  { s with scr := { s.scr with parked := s.scr.parked.filter fun p => decide (p.bay ≠ b) },
           scf := { s.scf with reqs := s.scf.reqs.filter fun r => decide (r.bay ≠ b) || (match r.kind with
             | .outside _ _ => true
             | .copy _ _ _ => true
             | _ => false) } }

/-- R268, R345, R472: a bay is reset by software or by the raising unit: its messages go back or are refused, its tasks are
re-placed, and it is held in reset. A March test of it ends unfinished. -/
def State.dropBay (s : State) (b : Nat) : State :=
  let s1 := ((s.bayMessages b).replaceAll b).dropIssued b
  ({ s1 with stg := { s1.stg with bayTests := tsetD none s1.stg.bayTests b none },
             rsu := { s1.rsu with starting := s1.rsu.starting.filter fun k => decide (k ≠ b) } }).onBay b fun x =>
    { x with id := b }.reset 0

/-- R382: a re-raise learns that another source has reset its target. -/
def State.disturb (s : State) (b : Nat) : State :=
  if s.rsu.busy && ((decide (s.rsu.op = 2) && decide (fld s.rsu.target 8 4 = b / 16)) ||
      (decide (s.rsu.op = 3) && decide (fld s.rsu.target 0 8 = b))) then
    { s with rsu := { s.rsu with disturbed := true } }
  else s

/-- Is bent n held in reset, or not yet released? -/
def State.bentHeld (s : State) (n : Nat) : Bool :=
  bitAt (s.reg 0x10014) n || decide (s.rst.raiseHold / 2 ^ n % 2 = 1) || s.rst.bentExit.contains n

/-- R472, R523: a bay comes out of reset into PLAN, unless its bent is off or held or it is retired, or a DEVICE_FATAL event
has halted the device (R35, R522). -/
def State.bayRelease (s : State) (b : Nat) : State :=
  if !s.rst.fatal && s.on (b / 16) && !s.bentHeld (b / 16) && !(s.bay b).retired then s.onBay b fun x => { x with id := b, state := 1 }
  else s

/-- R466: a reset of BENT reach. -/
def State.bentReset (s : State) (n : Nat) (byRaise : Bool) : State :=
  (bentBays n).foldl (fun t b => (if byRaise then t else t.disturb b).dropBay b) s

/-- Stores of a bent switched on from OFF hold unspecified values (R481). DEDUCED, log entry 57. -/
def State.scrambleBent (s : State) (n : Nat) : State :=
  (bentBays n).foldl (fun t b =>
    let g := t.newGen
    let h := g.1.newGen
    h.1.onBay b fun x => { x with id := b, scratch := Mem.scrambled g.2, istore := Mem.scrambled h.2, smarks := [], imarks := [] }) s

/-- R472: a BENT reset wakes a retained bent first (R482). DEDUCED, log entry 57. -/
def State.bentWake (s : State) (n : Nat) : State :=
  if s.dom n = 2 then (s.setReg 0x10044 (putBit (s.reg 0x10044) n false)).setDom n 1 else s

/-- R472: bit n of RST_BENT.HOLD takes a value; the bit of an absent or gated bent is ignored. -/
def State.holdBit (s : State) (v : Word) (n : Nat) : State :=
  if !s.bentHere n || decide (s.dom n = 0) || decide (s.dom n = 3) || bitAt v n = bitAt (s.reg 0x10014) n then s
  else
    let s1 := s.setReg 0x10014 (putBit (s.reg 0x10014) n (bitAt v n))
    if bitAt v n then
      let s2 := s1.bentWake n
      ({ s2 with rst := { s2.rst with bentExit := s2.rst.bentExit.filter fun k => decide (k ≠ n) } }).bentReset n false
    else { s1 with rst := { s1.rst with bentExit := s1.rst.bentExit ++ [n] } }

/-- R472: a write to RST_BENT. -/
def State.rstBent (s : State) (v : Word) : State := (List.range 16).foldl (fun t n => t.holdBit v n) s

/-- R470: the release of bent n has run its course: its bays enter PLAN. -/
def State.bentDone (s : State) (n : Nat) : State :=
  if s.rst.bentExit.contains n then
    let s1 := { s with rst := { s.rst with bentExit := s.rst.bentExit.filter fun k => decide (k ≠ n) } }
    (bentBays n).foldl State.bayRelease s1
  else s

/-! ## Pulses of one bay or block (R472) -/

/-- R472: a write to RST_BAY. DEDUCED, log entry 55. -/
def State.rstBay (s : State) (v : Word) : State :=
  let b := fld v 0 8
  if !bitAt v 31 || s.rst.pulse.isSome || !s.bentHere (b / 16) || !s.on (b / 16) then s
  else
    let s1 := (s.disturb b).dropBay b
    { s1 with rst := { s1.rst with pulse := some { block := false, target := b } } }

/-- R325: a channel is isolated: from READY it drains and enters self-refresh first; the registers that retention
latches hold keep their values, and outstanding accesses are answered. DEDUCED, log entry 55. -/
def State.chanBlock (s : State) (c : Nat) : State :=
  let s1 := if (s.chan c).state = 2 then s.drainQueue c else s
  let x := s1.chan c
  let keep := decide (x.state = 2) || decide (x.state = 4)
  let s2 := ((s1.isolate fun o => match o.ddr with
    | some a => decide (chanOf a = c)
    | none => false).memRegsLost c).ddrIsolated c
  if keep then
    s2.setChan c { x with state := 5, release := some 4, fstep := 0, t0 := 0, t1 := 0, fast := false, alarm := false,
                          srMove := false, episodes := [], retrain := 0, scrub := [], scrubbed := [], back := [],
                          waits := [] }
  else
    let g := s2.newGen
    g.1.setChan c { ({} : Chan) with state := 5, release := some 0, keygen := x.keygen, erased := x.erased,
                                     ttrain := x.ttrain, key := x.key, driven := x.driven,
                                     mem := Mem.scrambled g.2 }

/-- R472, R405: a scarf port is declared down with DCAUSE 8 and ends DISABLED. DEDUCED, log entry 49. -/
def State.portBlock (s : State) (p : Nat) : State :=
  let b := scfBase p
  let s1 := { s with regs := { s.regs with words := tclear s.regs.words b 0x1000, sqs := tclear s.regs.sqs b 0x1000,
                                           cnts := tclear s.regs.cnts b 0x1000 } }
  let s2 := if (s.port p).state = 1 ∨ (s.port p).state = 2 then s1.declareDown p 8 else s1
  s2.setPort p { s2.port p with state := 0, dcause := 8, rmax := 0, flight := 0 }

/-- R48, R439, R472: a MAC is reset; a frame in transmission is lost and counted. Its shadows go when it is released, so
that a peg meanwhile records the ones it skips. -/
def State.macBlock (s : State) (m : Nat) : State :=
  let b := ethBase m
  let s1 := { s with regs := { s.regs with words := tclear s.regs.words b 0x2000, sqs := tclear s.regs.sqs b 0x2000,
                                           cnts := tclear s.regs.cnts b 0x2000 } }
  s1.ethLeave m 0

/-- R472: is block k there, and is its domain on? -/
def State.blockThere (s : State) (k : Nat) : Bool :=
  if k < 8 then s.hw.chanHere k && s.on (chanDom k)
  else if k < 16 then s.hw.portHere (k - 8) && s.on 19
  else decide (k < 18) && s.macHere (k - 16)

/-- R472: a write to RST_BLOCK. DEDUCED, log entry 55. -/
def State.rstBlock (s : State) (v : Word) : State :=
  let k := fld v 0 5
  if !bitAt v 31 || s.rst.pulse.isSome || !s.blockThere k then s
  else
    let s1 := if k < 8 then s.chanBlock k else if k < 16 then s.portBlock (k - 8) else s.macBlock (k - 16)
    { s1 with rst := { s1.rst with pulse := some { block := true, target := k } } }

/-- R471: the wrapper of the target has drained. DEDUCED, log entry 55. -/
def State.wrapperDrained (s : State) : State :=
  { s with rst := { s.rst with pulse := s.rst.pulse.map fun p => { p with drained := true } } }

/-- R470, R472: the pulse is over and its target released. DEDUCED, log entry 55. -/
def State.pulseDone (s : State) : State :=
  match s.rst.pulse with
  | none => s
  | some p =>
    if !p.drained then s
    else
      let s1 := { s with rst := { s.rst with pulse := none } }
      if !p.block then s1.bayRelease p.target
      else if p.target < 8 then
        let x := s1.chan p.target
        (match x.release with
         | some st => s1.setChan p.target { x with state := st, release := none }
         | none => s1)
      else if 16 ≤ p.target then
        { s1 with regs := { s1.regs with shadow := tclear s1.regs.shadow (ethBase (p.target - 16)) 0x2000 } }
      else s1

/-! ## Always-on copies (R59, R60, R488, R489) -/

/-- RST_LATCH or RST_LAST as a word. -/
def latchWord (src reach : Nat) (active : Bool) : Word := wd (src % 2048 * 256 + nbit active * 8 + reach)

/-- A reading as a byte of THM_TEMPn: −128 where there is none; a free value where the reading has no 8-bit form. -/
def tempByte (t : Option Int) (free : Word) : Nat :=
  match t with
  | none => 0x80
  | some v => if -128 ≤ v ∧ v ≤ 127 then (v % 256).toNat else free.toNat % 256

/-- R59: THM_TEMPn takes its four sensors. -/
def State.copyTemp (s : State) (n : Nat) : State :=
  let rd (i : Nat) : Option Int := tgetD none s.rst.temp (4 * n + i)
  let odd := (List.range 4).any fun i => match rd i with | some v => decide (127 < v) || decide (v < -128) | none => false
  let d := if odd then s.draw else (s, 0#32)
  let byte (i : Nat) : Nat := tempByte (rd i) (d.2 >>> (8 * i))
  d.1.setReg (0x10080 + 4 * n) (wd (byte 0 + byte 1 * 2 ^ 8 + byte 2 * 2 ^ 16 + byte 3 * 2 ^ 24))

/-- R486: THM_DUTYA or THM_DUTYB: eight bents from n. -/
def State.dutyWord (s : State) (n : Nat) : Word :=
  wd (((List.range 8).map fun i => tgetD 0 s.rst.duty (n + i) % 8 * 2 ^ (4 * i)).foldl (· + ·) 0)

/-- R59: every AC register is refreshed on one edge of the 32.768 kHz clock. DEDUCED, log entry 58. -/
def State.acRefresh (s : State) : State :=
  let r := s.rst
  let s1 := ((((((s.setReg 0x10000 (latchWord r.src r.reach (decide (r.reach ≠ 0)))).setReg 0x10004
      (latchWord r.lastSrc r.lastReach false)).setReg 0x10024
      (wd (nbit r.bootOk * 2 ^ 10 + r.trimFails % 4 * 2 ^ 8 + nbit r.shoring * 16 + r.count % 16))).setReg 0x1002C
      (wd (nbit r.loading * 4 + nbit r.trimSafe * 2 + nbit r.trimValid))).setReg 0x10038
      (wd (ceilDiv r.wdgLeft 1000 % 65536))).setReg 0x20040 (wd (s.sec.tlog % 8)))
  let s2 := (List.range 6).foldl State.copyTemp s1
  (s2.setReg 0x100A0 (s2.dutyWord 0)).setReg 0x100A4 (s2.dutyWord 8)

/-! ## The capability list (R546–R550) -/

/-- The PARAM of a capability entry (R549, R550) and whether SHORED can be 1. -/
structure CapEnt where
  id : Nat
  param : Nat
  shores : Bool
  deriving DecidableEq, Repr

/-- R6: the bent mask of the part. DESIGN CHOICE, log entry 4. -/
def Hw.bentMask (h : Hw) : Nat := if h.part = 0x7256 then 0xFFFF else h.bents % 65536

/-- R549: a mask of present units. -/
def maskOf (here : Nat → Bool) : Nat := ((List.range 8).map fun c => nbit (here c) * 2 ^ c).foldl (· + ·) 0

/-- R549, R550: the entries of a part, in ascending CAP_ID. DESIGN CHOICE, log entry 4. -/
def Hw.caps (h : Hw) : List CapEnt :=
  let n := if h.full then 12 else 11
  [⟨1, h.part + h.stepping * 2 ^ 16 + n * 2 ^ 24, false⟩,
   ⟨2, h.bentMask + popN 16 h.bentMask * 2 ^ 16, true⟩,
   ⟨3, (if h.full then 0xFFF else 0xEFF) + 16 * 2 ^ 16 + 16 * 2 ^ 24, true⟩,
   ⟨4, 192 + 4 * 2 ^ 8 + 256 * 2 ^ 16, true⟩,
   ⟨5, 65536 + 16 * 2 ^ 24 + 8 * 2 ^ 32 + 255 * 2 ^ 40, true⟩,
   ⟨6, 16384 + 20 * 2 ^ 16 + 64 * 2 ^ 24, true⟩,
   ⟨0x10, maskOf h.chanHere + (if h.full then maskOf h.chanHere else 0) * 2 ^ 8 + 2 * 2 ^ 16 + 8 * 2 ^ 24, true⟩,
   ⟨0x11, maskOf h.portHere + 4 * 2 ^ 8 + 32 * 2 ^ 16, true⟩,
   ⟨0x12, 5 + 16 * 2 ^ 4 + 2047 * 2 ^ 16, false⟩] ++
  (if h.full then [⟨0x13, 3 + 64 * 2 ^ 8, true⟩] else []) ++
  [⟨0x20, 128 + 512 * 2 ^ 16 + 16 * 2 ^ 32, false⟩, ⟨0x21, 3 + 8 * 2 ^ 8 + 32 * 2 ^ 16, false⟩]

/-- R546, R548: entries are written one after another from BAR0 offset e. -/
def State.writeCaps (s : State) (e : Nat) : List CapEnt → State
  | [] => s
  | c :: t =>
    ((((s.setReg e (wd (c.id + 2 ^ 16 + nbit (c.shores && s.rst.shoring) * 2 ^ 24))).setReg (e + 4)
      (wd (if t.isEmpty then 0 else e + 16))).setReg (e + 8) (wd c.param)).setReg (e + 12) (wd (c.param / 2 ^ 32))).writeCaps
      (e + 16) t

/-- R547: the device builds the list. -/
def State.buildCaps (s : State) : State := s.writeCaps 0x100 s.hw.caps

/-! ## Device-wide resets (R465–R470) -/

/-- The reach of a reset source, coded as R488 codes it: 7 POR, 6 TAMPER, 5 COLD, 4 WARM, 3 HOST. -/
def reachOf (src : Nat) : Nat :=
  if src = 0 then 7 else if src = 1 then 6 else if src ≤ 4 then 5 else if src ≤ 7 then 4 else 3

/-- What the always-on domain keeps of the register file through a reset of WARM reach or wider: its own registers, but for
PWR_CTL, PWR_RET, RST_BENT, WDG_CTL.EN, PWR_EVT and THM_STAT (R478, R480, R489). -/
def RegFile.warm (r : RegFile) : RegFile :=
  let aon : Tab Word := r.words.filter fun e => decide (e.1 < 0x20000)
  { words := tset regReset (tclear (tclear aon 0x10040 8) 0x10014 4) 0x10030 (tget regReset aon 0x10030 &&& 0xFFFF#32),
    sqs := (r.sqs.filter fun e => decide (e.1 < 0x20000)).filter fun e => decide (e.1 ≠ 0x10050) && decide (e.1 ≠ 0x100B0),
    mism := r.mism, drifted := r.drifted }

/-- R466: what the reset, power and clock controller itself loses at a reset of the given reach, the source apart. -/
def Rst.warm (r : Rst) (reach : Nat) : Rst :=
  if reach = 7 then { asserted := r.asserted, reach := r.reach, src := r.src, window := false, railOut := r.railOut }
  else
    { r with
      dom := [], goal := [], writes := [], bootOk := false, loading := false, wdg := false, wdgLeft := 0, window := false,
      pulse := none, raiseHold := 0, bentExit := [],
      fatal := r.fatal && decide (reach = 4), trimValid := r.trimValid && decide (reach = 4), trimSafe := r.trimSafe || decide (reach ≠ 4),
      unlocked := if reach = 4 then r.unlocked.filter fun k => decide (k < 2) else [] }

/-- R466: a security module in reset keeps its OTP; a zeroisation in progress runs to its end first (R502). -/
def Sec.warm (x : Sec) : Sec :=
  if x.zeroing then x else { otp := x.otp, tlog := x.tlog, drbg := x.drbg }

/-- R466: a reset of WARM reach or wider returns every domain but PD_AON to reset; POR returns that too. What lies outside
the device or in fuses stays. -/
def State.wideReset (s : State) (reach : Nat) : State :=
  { pending := s.pending, hw := s.hw, free := s.free, gens := s.gens, out := s.out,
    regs := if reach = 7 then {} else s.regs.warm,
    rst := s.rst.warm reach,
    bays := tmap Bay.fresh (fun k b => { Bay.fresh k with free := b.free, state := 0 }) s.bays,
    qm := { stopped := s.rst.fatal && decide (reach = 4) },
    ddr := { rails := s.ddr.rails },
    mx := { pins := s.mx.pins, flash := s.mx.flash },
    sec := if reach = 7 then { s.sec.warm with tlog := 0 } else s.sec.warm }

/-- R465, R468, R469: a source asserts. A wider reach than the episode had takes effect at once. -/
def State.assertReset (s : State) (src : Nat) : State :=
  let reach := reachOf src
  let old := s.rst.reach
  let s1 := { s with rst := { s.rst with
    asserted := s.rst.asserted ||| 2 ^ src, src := s.rst.src ||| 2 ^ src, reach := if old < reach then reach else old } }
  let s2 := if 4 ≤ s1.rst.reach then (s1.wideReset s1.rst.reach).onBay 256 fun b => { b with state := 0 } else s1
  if old < 3 ∧ reach = 3 then s2.hostReset else s2

/-- May source `src` let go: a thermal trip once every sensor reads 115 °C or below, a rail failure once the rails are
back, a tamper response once zeroisation has completed (R465)? DEDUCED, log entry 58. -/
def State.mayRelease (s : State) (src : Nat) : Bool :=
  if src = 1 then !s.sec.zeroing
  else if src = 3 then (List.range 24).all fun i => match tgetD none s.rst.temp i with
    | some v => decide (v ≤ 115)
    | none => true
  else if src = 4 then !s.rst.railOut
  else true

/-- R469: a source is released. -/
def State.releaseReset (s : State) (src : Nat) : State :=
  if s.rst.asserted / 2 ^ src % 2 = 1 ∧ s.mayRelease src then
    { s with rst := { s.rst with asserted := s.rst.asserted - 2 ^ src } }
  else s

/-- Staging banks and the working SRAM that come out of reset hold unspecified values. -/
def State.scrambleCore (s : State) : State :=
  let g := s.gens
  let s1 := { s with gens := g + 193, stg := { banks := (List.range 192).map fun n =>
    (n, { Bank.fresh n with mem := Mem.scrambled (g + n) }) } }
  s1.onBay 256 fun b => { b with state := 3, scratch := Mem.scrambled (g + 192), pipe := { b.pipe with pc := 0 } }

/-- R470, R475, R487, R547: the exit of a reset of WARM reach or wider ends: the four domains are on, the capability
list is built, the sill core starts, and the BOOT_OK window runs outside shoring mode. DEDUCED, log entry 56. -/
def State.wideExit (s : State) : State :=
  let s1 := (((s.setDom 16 1).setDom 20 1).setDom 21 1).setDom 22 1
  let s2 := s1.scrambleCore
  let s3 := { s2 with rst := { s2.rst with shored := s2.rst.shoring, window := !s2.rst.shoring } }
  let s4 := if s3.rst.src / 8 % 2 = 1 then s3.event 0x100B0 2 else s3
  s4.buildCaps

/-- R469, R470: the exit sequence completes once every source is released: the episode ends. -/
def State.exitDone (s : State) : State :=
  if s.rst.reach = 0 ∨ s.rst.asserted ≠ 0 ∨ (4 ≤ s.rst.reach ∧ s.sec.zeroing) then s
  else
    let s1 := if 4 ≤ s.rst.reach then s.wideExit else s
    let s2 := { s1 with rst := { s1.rst with lastSrc := s1.rst.src, lastReach := s1.rst.reach, src := 0, reach := 0 } }
    if 4 ≤ s.rst.reach then s2.acRefresh else s2

/-- R470: an exit sequence ends: of bent `what` below 16, of the BAY or BLOCK pulse at 16, of the device at 17. -/
def State.exitOf (s : State) (what : Nat) : State :=
  if what < 16 then s.bentDone what
  else if what = 16 then s.pulseDone
  else if what = 17 then s.exitDone
  else s

/-! ## Software resets (R477, R488) -/

/-- R477, R488: RST_SW.COLD: SHORING and COUNT clear and COLDPIN is raised internally. -/
def State.rstSwCold (s : State) : State :=
  ({ s with rst := { s.rst with shoring := false, count := 0 } }).assertReset 2

/-- R488: a write to RST_SW: KEY must be 0xA5, and COLD counts from the sill core alone. DEDUCED, log entry 56. -/
def State.rstSw (s : State) (ag : Agent) (v : Word) : State :=
  if fld v 8 8 ≠ 0xA5 then s
  else
    let s1 := if bitAt v 1 && decide (ag = .sill) then s.rstSwCold else s
    if bitAt v 0 then s1.assertReset 6 else s1

/-! ## Trims, failed starts, the watchdog (R473–R478) -/

/-- R475: a start fails: COUNT grows, SHORING may be set, and FAILSTART follows 1 ms later. DEDUCED, log entry 56. -/
def State.startFails (s : State) : State :=
  let n := satAdd 15 s.rst.count 1
  { s with rst := { s.rst with count := n, shoring := s.rst.shoring || decide (3 ≤ n), window := false, failDue := true } }

/-- R458, R475: the start in progress fails, unless it has succeeded or failed already. DEDUCED, log entry 56. -/
def State.failIfStarting (s : State) : State := if s.rst.bootOk || s.rst.failDue then s else s.startFails

/-- R458, R475: 2 s have passed without a BOOT_OK. -/
def State.windowExpires (s : State) : State := if s.rst.window then s.startFails else s

/-- R475: FAILSTART asserts. -/
def State.failstart (s : State) : State :=
  if s.rst.failDue then ({ s with rst := { s.rst with failDue := false } }).assertReset 7 else s

/-- R458, R475, R476: a BOOT_OK ends the start; it is ignored in shoring mode. DEDUCED, log entry 56. -/
def State.bootOk (s : State) : State :=
  if s.rst.window then
    { s with rst := { s.rst with bootOk := true, window := false, count := 0, trimFails := 0 } }
  else s

/-- R473, R488: TRIM_CTL.START, from the sill core alone. -/
def State.trimStart (s : State) (ag : Agent) (v : Word) : State :=
  if decide (ag = .sill) && bitAt v 0 then
    { s with rst := { s.rst with loading := true, trimValid := false, trimSafe := true } }
  else s

/-- R473–R475: a trim load ends; the third failure in a row fails the start. DEDUCED, log entry 56. -/
def State.trimDone (s : State) (ok : Bool) : State :=
  if !s.rst.loading then s
  else if ok then
    { s with rst := { s.rst with loading := false, trimValid := true, trimSafe := false, trimFails := 0 } }
  else
    let n := satAdd 3 s.rst.trimFails 1
    let s1 := { s with rst := { s.rst with loading := false, trimFails := n } }
    if n = 3 then s1.failIfStarting else s1

/-- WDG_CTL.MS in microseconds; 0 acts as 1 ms (R488). -/
def State.wdgSpan (s : State) : Nat :=
  let m := fld (s.reg 0x10030) 0 16
  (if m = 0 then 1 else m) * 1000

/-- R478: a write to WDG_CTL: ignored while EN is set; setting EN loads the count. It never runs in shoring mode. -/
def State.wdgCtl (s : State) (v : Word) : State :=
  if bitAt (s.reg 0x10030) 16 then s
  else
    let s1 := s.writeRw 0x10030 0x1FFFF v
    if bitAt v 16 && !s1.rst.shored then { s1 with rst := { s1.rst with wdg := true, wdgLeft := s1.wdgSpan } } else s1

/-- R478: a write to WDG_KICK. -/
def State.wdgKick (s : State) (v : Word) : State :=
  if fld v 0 16 = 0x6B3D ∧ s.rst.wdg then { s with rst := { s.rst with wdgLeft := s.wdgSpan } } else s

/-- R478: the watchdog's count reaches 0. -/
def State.wdgExpire (s : State) : State :=
  if s.rst.wdg then ({ s with rst := { s.rst with wdgLeft := 0 } }).assertReset 5 else s

/-- R478: one microsecond of the watchdog. DESIGN CHOICE, log entry 5. DEDUCED, log entry 58. -/
def State.wdgTick (s : State) : State :=
  if !s.rst.wdg then s
  else if s.rst.wdgLeft ≤ 1 then s.wdgExpire
  else { s with rst := { s.rst with wdgLeft := s.rst.wdgLeft - 1 } }

end Sys2Proof.Machine
end

