-- ==== Sys2Proof/Machine/Power.lean ====
section
/-!
DEFINITION. Power domains (R479–R482), clocks (R483), temperature and throttling (R485–R487).
-/
namespace Sys2Proof.Machine

/-! ## Power domains -/

/-- What a domain is to be, by PWR_CTL and PWR_RET (R480, R488). -/
def domTarget (ctl ret : Word) (d : Nat) : Nat :=
  if d < 16 then (if bitAt ctl d then (if bitAt ret d then 2 else 1) else 0)
  else if bitAt ctl (d - 1) then 1 else 0

/-- The domains that software switches: the bents, PD_MEMW, PD_MEME and PD_SCARF. -/
def swDoms : List Nat := List.range 16 ++ [17, 18, 19]

/-- R480: may domain d leave ON? -/
def State.mayLeave (s : State) (d : Nat) : Bool :=
  if d < 16 then (bentBays d).all fun b => decide ((s.bay b).state ≠ 3) && (s.tasksOn b).isEmpty
  else if d = 19 then (List.range 8).all fun p => decide ((s.port p).state = 0) || decide ((s.port p).state = 3)
  else (List.range 8).all fun c =>
    decide (chanDom c ≠ d) || !s.hw.chanHere c || decide ((s.chan c).state = 0) || decide ((s.chan c).state = 4)

/-- R480: is a write that would make PWR_CTL and PWR_RET read `ctl` and `ret` refused? `named` are the bents it names.
DEDUCED, log entry 57. -/
def State.pwrRefused (s : State) (ctl ret : Word) (named : Nat) : Bool :=
  let ch := swDoms.filter fun d => decide (domTarget ctl ret d ≠ domTarget (s.reg 0x10040) (s.reg 0x10044) d)
  (List.range 16).any (fun n => decide (named / 2 ^ n % 2 = 1) && !s.bentHere n) ||
  ch.any (fun d => decide (s.dom d = 3)) ||
  ch.any (fun d => s.on d && !s.mayLeave d) ||
  (s.rst.shored && !ch.isEmpty)

/-- R471, R481: domain d begins to change: its wrappers close, and stores that come up from OFF hold unspecified values. -/
def State.domBegin (s : State) (d goal : Nat) : State :=
  let s1 := if d < 16 ∧ s.dom d = 0 then s.scrambleBent d
    else if d < 16 then (bentBays d).foldl (fun t b => (t.disturb b).dropBay b) s
    else if d = 19 then s
    else s.isolate fun o => match o.ddr with | some a => decide (chanDom (chanOf a) = d) | none => false
  { s1.setDom d 3 with rst := { (s1.setDom d 3).rst with goal := tsetD 0 s1.rst.goal d goal } }

/-- R480: an accepted or refused write of PWR_CTL or PWR_RET. DEDUCED, log entry 57. -/
def State.pwrWrite (s : State) (ctl ret : Word) (named : Nat) (always : Bool) : State :=
  if s.pwrRefused ctl ret named || (always && s.rst.shored) then s.event 0x10050 1
  else
    let ch := swDoms.filter fun d => decide (domTarget ctl ret d ≠ domTarget (s.reg 0x10040) (s.reg 0x10044) d)
    let s1 := (s.setReg 0x10040 ctl).setReg 0x10044 ret
    if ch = [] then s1.event 0x10050 0
    else
      let s2 := ch.foldl (fun t d => t.domBegin d (domTarget ctl ret d)) s1
      { s2 with rst := { s2.rst with writes := s2.rst.writes ++ [ch] } }

/-- R480: a write to PWR_CTL; in shoring mode every one is refused (R476). -/
def State.pwrCtl (s : State) (v : Word) : State :=
  let w := v &&& 0x7FFFF#32
  s.pwrWrite w (s.reg 0x10044) (fld w 0 16) true

/-- R480: a write to PWR_RET. -/
def State.pwrRet (s : State) (v : Word) : State :=
  let w := v &&& 0xFFFF#32
  s.pwrWrite (s.reg 0x10040) w (fld w 0 16) false

/-- PD_SCARF comes on: the fabric is in its reset state (R481). -/
def State.scfPowerUp (s : State) : State :=
  { s with scf := {}, regs := { s.regs with
      words := tclear s.regs.words 0x70000 0x10000, sqs := tclear s.regs.sqs 0x70000 0x10000,
      cnts := tclear s.regs.cnts 0x70000 0x10000 } }

/-- What a domain does when it has come on (R481, R482, R324). A bent PLL that had lost lock locks again. -/
def State.domOn (s : State) (d : Nat) : State :=
  let s0 := { s with rst := { s.rst with unlocked := s.rst.unlocked.filter fun k => decide (k ≠ 16 + d) || decide (16 ≤ d) } }
  if d < 16 then (bentBays d).foldl State.bayRelease s0
  else if d = 19 then s0.scfPowerUp
  else
    let s1 := { s0 with rst := { s0.rst with unlocked := s0.rst.unlocked.filter fun k => decide (k ≠ d - 15) } }
    ((List.range 8).filter fun c => decide (chanDom c = d) && s.hw.chanHere c).foldl State.memPowerUp s1

/-- R480: a domain has finished: writes whose last change it was are done. -/
def State.writesDone (s : State) (d : Nat) : State :=
  let ws := s.rst.writes.map fun l => l.filter fun k => decide (k ≠ d)
  (ws.filter List.isEmpty).foldl (fun t _ => t.event 0x10050 0)
    { s with rst := { s.rst with writes := ws.filter fun l => !l.isEmpty } }

/-- R481: the transition of domain d ends. DESIGN CHOICE, log entry 6. -/
def State.domDone (s : State) (d : Nat) : State :=
  if s.dom d ≠ 3 then s
  else
    let g := tgetD 0 s.rst.goal d
    let s1 := s.setDom d g
    let s2 := { s1 with rst := { s1.rst with goal := tsetD 0 s1.rst.goal d 0 } }
    (if g = 1 then s2.domOn d else s2).writesDone d

/-- PWR_STATA (R488). -/
def State.pwrStatA (s : State) : Word :=
  wd (((List.range 16).map fun n => s.dom n % 4 * 4 ^ n).foldl (· + ·) 0)

/-- PWR_STATB (R488). -/
def State.pwrStatB (s : State) : Word :=
  wd (((List.range 7).map fun n => s.dom (16 + n) % 4 * 4 ^ n).foldl (· + ·) 0)

/-! ## Clocks (R483) -/

/-- Is main PLL i, as CLK_STAT.PLL numbers them, supplied and in lock? -/
def State.pllOn (s : State) (i : Nat) : Bool :=
  !s.rst.unlocked.contains i &&
    (match i with | 0 => s.on 16 | 1 => s.on 22 | 2 => s.on 17 | 3 => s.on 18 | 4 => s.on 20 | _ => s.on 20)

/-- CLK_STAT (R489): a retained bent's PLL stays locked (R482). -/
def State.clkStat (s : State) : Word :=
  wd (nbit s.rst.rtc * 2 ^ 22 + ((List.range 6).map fun i => nbit (s.pllOn i) * 2 ^ (16 + i)).foldl (· + ·) 0 +
    ((List.range 16).map fun n =>
      nbit ((s.on n || decide (s.dom n = 2)) && !s.rst.unlocked.contains (16 + n)) * 2 ^ n).foldl (· + ·) 0)

/-- R483: PLL i loses lock: a DEVICE_FATAL record and its domain's clock stops; what was outstanding into its blocks is
answered (R471). -/
def State.pllLoss (s : State) (i : Nat) : State :=
  if s.rst.unlocked.contains i || decide (32 ≤ i) || (decide (6 ≤ i) && decide (i < 16)) then s
  else
    let s1 := { s with rst := { s.rst with unlocked := s.rst.unlocked ++ [i] } }
    let s2 := if i = 2 ∨ i = 3 then
        s1.isolate fun o => match o.ddr with | some a => decide (chanDom (chanOf a) = i + 15) | none => false
      else s1
    s2.fatal 13 0 0 s2.clkStat

/-! ## Temperature (R485–R487) -/

/-- The domain in which sensor i lies; 23 is PD_AON. DEDUCED, log entry 58. -/
def State.sensorOn (s : State) (i : Nat) : Bool := decide (i = 23) || s.on i

/-- A reading: −128 in a domain that is off. DEDUCED, log entry 58. -/
def State.reading (s : State) (i : Nat) (t : Int) : Int := if s.sensorOn i then t else -128

/-- THM_CTL.ALARM as an integer. -/
def State.alarmAt (s : State) : Int := Int.ofNat (fld (s.reg 0x10070) 16 8)

/-- R485: does sensor i cross the alarm threshold with this reading? -/
def State.alarms (s : State) (i : Nat) (t : Int) : Bool :=
  decide (s.alarmAt ≤ t) && !s.rst.alarmed.contains i

/-- R485, R487: the monitor reads its 24 sensors. `temps` are the temperatures in °C, sensor 0 first. -/
def State.thermalSample (s : State) (temps : List Int) : State :=
  let rs := (List.range 24).map fun i => s.reading i (temps.getD i 0)
  let now := (List.range 24).filter fun i => decide (135 ≤ rs.getD i 0)
  let trip := now.any fun i => s.rst.hot.contains i
  let alarm := (List.range 24).any fun i => s.alarms i (rs.getD i 0)
  let s1 := if alarm then s.event 0x100B0 0 else s
  let s2 := { s1 with rst := { s1.rst with
    hot := now, alarmed := (List.range 24).filter fun i => decide (s.alarmAt ≤ rs.getD i 0), temp := (List.range 24).foldl (fun t i => tsetD none t i (some (rs.getD i 0))) s1.rst.temp } }
  if trip then s2.assertReset 3
  else if s2.rst.asserted / 8 % 2 = 1 then s2.releaseReset 3
  else s2

/-- R486: the duty of bent n after a millisecond. -/
def State.nextDuty (s : State) (n : Nat) : Nat :=
  let c := s.reg 0x10070
  let m := fld c 8 3
  let thr := Int.ofNat (fld c 0 8)
  let d := tgetD 0 s.rst.duty n
  match tgetD none s.rst.temp n with
  | some t =>
    if m = 0 then 0
    else if thr ≤ t then (if d + 1 < m then d + 1 else m)
    else if t ≤ thr - 3 then d - 1
    else d
  | none => if m = 0 then 0 else d

/-- R486: the monitor adjusts the duty of every present bent. -/
def State.throttleAdjust (s : State) : State :=
  (List.range 16).foldl (fun t n =>
    if !t.bentHere n then t
    else
      let d := t.nextDuty n
      let u := { t with rst := { t.rst with duty := tsetD 0 t.rst.duty n d } }
      if tgetD 0 t.rst.duty n = 0 ∧ d ≠ 0 then u.event 0x100B0 1 else u) s

/-- R486: a throttle period of bent n begins: while DUTY is not 0 its bays hold for the first 200 × DUTY cycles. -/
def State.throttlePeriod (s : State) (n : Nat) : State :=
  if s.on n && decide (tgetD 0 s.rst.duty n ≠ 0) then
    (bentBays n).foldl (fun t b => t.onBay b fun x => { x with pipe := { x.pipe with throttled := true } }) s
  else s

/-- R486: the held cycles of the period have passed. -/
def State.throttleEnd (s : State) (n : Nat) : State :=
  (bentBays n).foldl (fun t b => t.onBay b fun x => { x with pipe := { x.pipe with throttled := false } }) s

/-- R489: a write to THM_CTL: ignored outside the stated ranges; the next readings count as a monitor's first (R485). -/
def State.thmCtl (s : State) (v : Word) : State :=
  let al := fld v 16 8
  let th := fld v 0 8
  if 80 ≤ al ∧ al ≤ 130 ∧ 100 ≤ th ∧ th ≤ 125 then
    let s1 := s.setReg 0x10070 (v &&& 0x00FF07FF#32)
    { s1 with rst := { s1.rst with alarmed := [] } }
  else s

end Sys2Proof.Machine
end

