-- ==== Sys2Proof/Machine/Background.lean ====
section
/-!
DEFINITION. The background unit (R507–R530): handing on records, periodic telemetry, the records of bay checks and
bay-downs, the bay census and retirement, and the flash journal's patrol.
-/
namespace Sys2Proof.Machine

/-! ## Handing records on (R513, R514) -/

/-- R513: BG_LASTREC takes a record. -/
def State.lastRec (s : State) (ws : List Word) : State :=
  (List.range 16).foldl (fun t n => t.setReg (0x90080 + 4 * n) (ws.getD n 0#32)) s

/-- R513: the serialiser hands its oldest record to the telemetry queue, or counts it as not sent. -/
def State.recordPost (s : State) : State :=
  match s.bg.held with
  | [] => s
  | ws :: t =>
    let s1 := ({ s with bg := { s.bg with held := t } }).lastRec ws
    let q := s.reg 0x90008
    if bitAt q 31 then
      let r := s1.postLocal (fld q 0 16) s1.devId ws
      if r.2 then r.1 else r.1.bump 0x90018
    else s1.bump 0x90018

/-- R514: BG_TELPER.MS milliseconds have passed. -/
def State.periodic (s : State) : State :=
  if fld (s.reg 0x9000C) 0 16 = 0 then s else s.accept State.periodicWords 5 0

/-! ## Bay checks and bay-downs (R227, R521) -/

/-- The block code and instance of a bay in a record; the sill core belongs to the management complex. -/
def bayBlock (b : Nat) : Nat × Nat := if b = 256 then (11, 0) else (1, b)

/-- R227, R514: the record of a bay check entry. -/
def State.checkRecord (s : State) (b : Nat) (cause info : Word) : State :=
  s.record { rtype := 2, block := (bayBlock b).1, inst := (bayBlock b).2, w8 := cause, w9 := info }

/-- R521: the BAY_FATAL record of a bay-down. DEDUCED, log entry 29. -/
def State.downRecord (s : State) (b : Nat) (cause : Word) (addr : Nat) : State :=
  s.record { cls := 3, block := (bayBlock b).1, inst := (bayBlock b).2, addr := addr, w8 := cause }

/-! ## Census and retirement (R523–R525) -/

/-- BG_CENSUSn (R523). -/
def State.census (s : State) (n : Nat) : Word :=
  wd (((List.range 32).map fun j =>
    nbit (s.bentHere ((32 * n + j) / 16) && !s.bg.retired.contains (32 * n + j)) * 2 ^ j).foldl (· + ·) 0)

/-- BG_RSTAT (R530). -/
def State.retireStat (s : State) : Word :=
  wd (nbit s.bg.retiring.isSome * 2 ^ 31 + s.bg.rres % 4 * 256 + s.bg.rreason % 256)

/-- R524: why a retirement is refused: 0 it is not. DEDUCED, log entry 66. -/
def State.retireReason (s : State) (b : Nat) : Nat :=
  if s.bg.retiring.isSome || s.scr.evac.isSome || (s.rsu.busy && decide (s.rsu.op ≠ 1)) then 4
  else if !s.bentHere (b / 16) || s.bg.retired.contains b then 1
  else if (List.range 192).any fun n => decide ((s.bank n).kind = 3) && decide ((s.bank n).bay = b) then 2
  else 0

/-- R523, R524: a retirement begins, or is refused. -/
def State.retireGo (s : State) (b : Nat) (drop auto : Bool) : State :=
  let r := s.retireReason b
  if r ≠ 0 then { s with bg := { s.bg with rres := 3, rreason := r } }
  else
    let s1 := { s with bg := { s.bg with retiring := some (b, drop, auto), rres := 0, rreason := 0 } }
    if (s.bay b).state = 3 then s1.evacStart [b] drop true 1 b else s1

/-- R523, R524: a write to BG_RETIRE, from the sill core alone; refused whole it changes nothing. -/
def State.bgRetire (s : State) (ag : Agent) (v : Word) : State :=
  let b := fld v 0 8
  if ag ≠ .sill then s
  else if bitAt v 31 then
    let t := s.retireGo b (bitAt v 30) false
    if s.retireReason b = 0 then t.writeRw 0x90120 0x400000FF v else t
  else s.writeRw 0x90120 0x400000FF v

/-- R523, steps 2–4: the bay is held in reset for good, its census bit falls and the RETIRE record is sent. DEDUCED,
log entry 66. -/
def State.retireFinish (s : State) : State :=
  match s.bg.retiring with
  | none => s
  | some (b, _, _) =>
    if s.scr.evac.any fun e => decide (e.owner = 1) then s
    else
      let s1 := (s.dropBay b).onBay b fun x => { x with retired := true }
      let s2 := ({ s1 with bg := { s1.bg with
        retiring := none, rres := 1, rreason := 0, retired := s1.bg.retired ++ [b] } }).setReg (0x40400 + 4 * b) 0#32
      s2.record { rtype := 6, block := 1, inst := b, w8 := s2.retireStat }

/-- R525: a bay that went down through STORE_UE for the second time is retired with DROP = 1. DEDUCED, log entry 66.
-/
def State.autoRetire (s : State) (b : Nat) : State :=
  if bitAt (s.reg 0x90000) 8 && decide (b < 256) && decide ((s.bay b).ueDowns = 2) then s.retireGo b true true else s

/-! ## The journal patrol (R385, R526–R528) -/

/-- Start of a journal slot (R454). -/
def slotBase (i : Nat) : Nat := if i = 0 then 0x1000000 else 0x2100000

/-- Flash bytes as a word, lowest first. -/
def State.flashWord (s : State) (a : Nat) : Word := wd (ofBytes (s.mx.flash.bytes a 4))

/-- R385: do the MAGIC and RCRC of a slot hold? -/
def State.slotSound (s : State) (i : Nat) : Bool :=
  let b := slotBase i
  decide (s.mx.flash.bytes b 4 = [0x53#8, 0x4B#8, 0x4A#8, 0x52#8]) &&
    decide (crc32c (s.mx.flash.bytes b 16) = s.flashWord (b + 0x10))

/-- STATE of a slot (R385). -/
def State.slotState (s : State) (i : Nat) : Nat := (s.mx.flash.byte (slotBase i + 0x14)).toNat

/-- Does a slot's plan match PCRC (R385)? -/
def State.slotGood (s : State) (i : Nat) : Bool :=
  decide (crc32c (s.mx.flash.bytes (slotBase i + 4096) (s.flashWord (slotBase i + 8)).toNat) = s.flashWord (slotBase i + 12))

/-- A finding of the patrol: a bit of BG_JSTAT and a JOURNAL record. -/
def State.journal (s : State) (i bit : Nat) (w9 : Word) : State :=
  let t := s.event 0x90144 bit
  t.record { rtype := 8, block := 14, addr := slotBase i, w8 := (t.sq 0x90144).read, w9 := w9 }

/-- R526, R528: the patrol of one slot. DEDUCED, log entries 65, 67. -/
def State.patrolSlot (s : State) (i : Nat) : State :=
  if !s.slotSound i || !(decide (s.slotState i = 0x7F) || decide (s.slotState i = 0x3F) || decide (s.slotState i = 0x1F)) then s
  else
    let s1 := if s.slotGood i then s else s.journal i i 0#32
    let g := s.flashWord (slotBase i + 4)
    if fld (s.reg 0x90140) 8 16 * 1000 ≤ g.toNat then s1.journal i (2 + i) g else s1

/-- R526: PERIOD hours have passed: after BOOT_OK, outside shoring mode and while EN = 1 a patrol begins. DEDUCED, log
entry 67. -/
def State.patrolStart (s : State) : State :=
  if s.rst.bootOk && !s.rst.shored && bitAt (s.reg 0x90140) 31 then { s with bg := { s.bg with patrol := true } } else s

/-- R526: the patrol has read both slots. DEDUCED, log entry 67. -/
def State.patrolEnd (s : State) : State :=
  if s.bg.patrol then (({ s with bg := { s.bg with patrol := false } }).patrolSlot 0).patrolSlot 1 else s

end Sys2Proof.Machine
end

