-- ==== Sys2Proof/Machine/Mgmt.lean ====
section
/-!
DEFINITION. The management complex (R444–R464): the host mailbox and its services, boot reports, REMAP, the slow
interfaces, the events it shows the sill core, and the crossbar's address map.
-/
namespace Sys2Proof.Machine

/-! ## The host mailbox (R460–R462) -/

/-- R460: a post of SEQ. -/
def State.mxhPost (s : State) (v : Word) : State :=
  if s.mx.mxh.busy then s.event 0xA008C 1
  else { s with mx := { s.mx with mxh := { s.mx.mxh with cseq := fld v 0 8, busy := true } } }

/-- R461: the sill core answers with SEQ. -/
def State.mxhDone (s : State) (ag : Agent) (v : Word) : State :=
  if decide (ag = .sill) && s.mx.mxh.busy && decide (fld v 0 8 = s.mx.mxh.cseq) then
    ({ s with mx := { s.mx with mxh := { s.mx.mxh with rseq := fld v 0 8, busy := false } } }).event 0xA008C 0
  else s

/-- MXH_STAT, or SEC_xSTAT (R453, R499). -/
def Post.stat (p : Post) : Word := wd (p.cseq * 2 ^ 24 + p.rseq * 2 ^ 16 + nbit p.busy)

/-- R453: a write to MXH_CMDn or MXH_RSPn. -/
def State.mxhWord (s : State) (ag : Agent) (off : Nat) (v : Word) : State :=
  if off < 0xA0040 then (if s.mx.mxh.busy && decide (ag ≠ .sill) then s else s.setReg off v)
  else if decide (ag = .sill) && s.mx.mxh.busy then s.setReg off v
  else s

/-- Command word n. -/
def State.mxhArg (s : State) (n : Nat) : Word := s.reg (0xA0000 + 4 * n)

/-- Is the command that waits in the mailbox of this OP? -/
def State.mxhIs (s : State) (op : Nat) : Bool := s.mx.mxh.busy && decide (fld (s.mxhArg 0) 24 8 = op)

/-- R461, R462: a service answers: word 0 with OP, the number of result words, STATUS and the low byte of TAG; the results;
and DONE. -/
def State.mxhAnswer (s : State) (status : Nat) (rs : List Word) : State :=
  let c := s.mxhArg 0
  let w0 := wd (fld c 24 8 * 2 ^ 24 + rs.length % 256 * 2 ^ 16 + status * 256 + fld c 0 8)
  let s1 := ((w0 :: rs).zip (List.range 16)).foldl (fun t e => t.setReg (0xA0040 + 4 * e.2) e.1) s
  s1.mxhDone .sill (wd s.mx.mxh.cseq)

/-- DEV_IDENT (R11). DESIGN CHOICE, log entry 4. -/
def State.devIdent (s : State) : Word := wd (s.hw.part * 2 ^ 16 + s.hw.stepping * 2 ^ 8)

/-- R462: STATUS. -/
def State.svcStatus (s : State) : State :=
  if s.mxhIs 1 then s.mxhAnswer 0 [s.devIdent, s.reg 0xA0104, wd s.rst.count] else s

/-- R462: FLASH_READ; `ok` tells that the flash answered. PRESUMED, log entry 53. -/
def State.svcFlashRead (s : State) (ok : Bool) : State :=
  let a := (s.mxhArg 1).toNat
  let n := (s.mxhArg 2).toNat
  if !s.mxhIs 2 then s
  else if 56 < n ∨ s.hw.flash < a + n then s.mxhAnswer 2 []
  else if !ok then s.mxhAnswer 3 []
  else s.mxhAnswer 0 (wordsOf (s.mx.flash.bytes a n))

/-- Flash bytes are programmed: bits go from 1 to 0 (R385). PRESUMED, log entry 53. -/
def State.flashProgram (s : State) (a : Nat) (data : List Byte) : State :=
  let new := (data.zip (s.mx.flash.bytes a data.length)).map fun (e : Byte × Byte) => e.1 &&& e.2
  { s with mx := { s.mx with flash := s.mx.flash.putBytes a new } }

/-- R462: FLASH_WRITE. PRESUMED, log entry 53. -/
def State.svcFlashWrite (s : State) (ok : Bool) : State :=
  let a := (s.mxhArg 1).toNat
  let n := (s.mxhArg 2).toNat
  let data := (bytesOf ((List.range 13).map fun i => s.mxhArg (3 + i))).take n
  if !s.mxhIs 3 then s
  else if 52 < n ∨ s.hw.flash < a + n then s.mxhAnswer 2 []
  else if !ok then s.mxhAnswer 3 []
  else (s.flashProgram a data).mxhAnswer 0 []

/-- R462: FLASH_ERASE: a sector of 64 KiB reads 0xFF. PRESUMED, log entry 53. -/
def State.svcFlashErase (s : State) (ok : Bool) : State :=
  let a := (s.mxhArg 1).toNat
  if !s.mxhIs 4 then s
  else if a % 65536 ≠ 0 ∨ s.hw.flash < a + 65536 then s.mxhAnswer 2 []
  else if !ok then s.mxhAnswer 3 []
  else ({ s with mx := { s.mx with flash := s.mx.flash.splice a 65536 fun _ => 0xFF#8 } }).mxhAnswer 0 []

/-- R462, R477: LEAVE_SHORING: answered, then the sill core writes RST_SW.COLD. -/
def State.svcLeaveShoring (s : State) : State := if s.mxhIs 5 then (s.mxhAnswer 0 []).rstSwCold else s

/-! ## Boot reports and REMAP (R452, R458) -/

/-- R453, R458: a write to MX_BOOT, from the sill core alone. -/
def State.mxBoot (s : State) (ag : Agent) (v : Word) : State :=
  if ag ≠ .sill then s
  else
    let s1 := s.writeRw 0xA0104 0xFF00 v
    let s2 := if bitAt v 1 then s1.failIfStarting else s1
    if bitAt v 0 then s2.bootOk else s2

/-- R452: a write to MX_CTL, from the sill core alone. -/
def State.mxCtl (s : State) (ag : Agent) (v : Word) : State :=
  if ag ≠ .sill then s else (s.writeRw 0xA0100 1 v).onBay 256 fun b => { b with remap := bitAt v 0 }

/-! ## xSPI (R463, R464) -/

/-- A FIFO that holds at most n entries takes what fits. DEDUCED, log entry 52. -/
def fifoPush {α : Type} (n : Nat) (l new : List α) : List α := (l ++ new).take n

/-- R463: a write to XSPI_DATA. -/
def State.xspiPush (s : State) (v : Word) : State := { s with mx := { s.mx with xTx := fifoPush 64 s.mx.xTx [v] } }

/-- R463, R464: a write to XSPI_CMD: ignored with GO while a command runs; GO starts the command. DEDUCED, log entry
52. -/
def State.xspiCmd (s : State) (v : Word) : State :=
  if bitAt v 31 && s.mx.xBusy then s
  else
    let s1 := s.writeRw 0x48000004 0x7F0FF v
    if !bitAt v 31 then s1
    else
      let n := fld (s.reg 0x4800000C) 0 9
      let k := if bitAt v 18 then ceilDiv (if 256 < n then 256 else n) 4 else 0
      ({ s1 with mx := { s1.mx with xBusy := true, xDone := false, xTx := s1.mx.xTx.drop k } }).emit
        (.xspi (v &&& 0x7FFFFFFF#32) (s.reg 0x48000008) (wd n) (s1.mx.xTx.take k))

/-- R464: the command ends. `rx` are the words received by a command with WRITE = 0; `new` what the flash holds from byte
`at_` after a command that changed it. -/
def State.xspiDone (s : State) (rx : List Word) (at_ : Nat) (new : List Byte) : State :=
  if !s.mx.xBusy then s
  else
    let w := bitAt (s.reg 0x48000004) 18
    { s with mx := { s.mx with xBusy := false, xDone := true, xRx := if w then s.mx.xRx else fifoPush 64 s.mx.xRx rx,
                               flash := s.mx.flash.putBytes at_ new } }

/-- R38, R463: a read of XSPI_DATA pops a word, 0 from an empty FIFO. -/
def State.xspiPop (s : State) : State × Word :=
  match s.mx.xRx with
  | [] => (s, 0#32)
  | w :: t => ({ s with mx := { s.mx with xRx := t } }, w)

/-! ## SMBus (R463) -/

/-- R463: a write to SMB_XFER; GO starts a transfer while the controller is enabled and free. DEDUCED, log entry 52.
-/
def State.smbXfer (s : State) (v : Word) : State :=
  let s1 := s.writeRw 0x48001004 0xFFFFFE v
  if !bitAt v 31 || s.mx.smbBusy || !bitAt (s.reg 0x48001000) 4 then s1
  else
    let n := fld v 8 8
    let k := if 32 < n then 32 else n
    ({ s1 with mx := { s1.mx with smbBusy := true, sTx := s1.mx.sTx.drop k } }).emit
      (.smbus (fld v 1 7) (fld v 16 8) (s1.mx.sTx.take k))

/-- R463: the transfer is complete: its bytes received, whether it was acknowledged, and whether the PEC matched. -/
def State.smbDone (s : State) (ack pec : Bool) (data : List Byte) : State :=
  if !s.mx.smbBusy then s
  else
    let s1 := { s with mx := { s.mx with smbBusy := false, sRx := fifoPush 32 s.mx.sRx (if ack then data else []) } }
    let s2 := if ack then s1 else s1.event 0x4800100C 1
    let s3 := if bitAt (s.reg 0x48001000) 2 && !pec then s2.event 0x4800100C 2 else s2
    s3.event 0x4800100C 0

/-- R463: a transaction for target address 0x62 has been received. -/
def State.smbTarget (s : State) (pec : Bool) (data : List Byte) : State :=
  let c := s.reg 0x48001000
  if !bitAt c 4 || !bitAt c 3 then s
  else
    let s1 := { s with mx := { s.mx with sRx := fifoPush 32 s.mx.sRx data } }
    let s2 := if bitAt c 2 && !pec then s1.event 0x4800100C 2 else s1
    s2.event 0x4800100C 3

/-- R38, R463: a read of SMB_DATA pops a byte. -/
def State.smbPop (s : State) : State × Word :=
  match s.mx.sRx with
  | [] => (s, 0#32)
  | b :: t => ({ s with mx := { s.mx with sRx := t } }, b.zeroExtend 32)

/-! ## UART (R463) -/

/-- R463: a write to UART_CTL: DIV outside its range acts as the nearer limit. -/
def State.uartDiv (s : State) : Nat :=
  let d := fld (s.reg 0x48002000) 0 20
  if d < 2133 then 2133 else if 666667 < d then 666667 else d

/-- R463: a byte arrives, well framed or not. DEDUCED, log entry 52. -/
def State.uartRx (s : State) (b : Byte) (framed : Bool) : State :=
  if !bitAt (s.reg 0x48002000) 30 then s
  else if !framed then s.event 0x4800200C 2
  else if 64 ≤ s.mx.uRx.length then s.event 0x4800200C 1
  else
    let t := { s with mx := { s.mx with uRx := s.mx.uRx ++ [b] } }
    if s.mx.uRx.isEmpty then t.event 0x4800200C 0 else t

/-- R442, R463: with flow control UART_RTS_N asks for more while the receive FIFO has room; a UART without it, or disabled,
leaves the line not ready. DEDUCED, log entry 52. -/
def State.uartReady (s : State) : Bool :=
  bitAt (s.reg 0x48002000) 31 && bitAt (s.reg 0x48002000) 30 && decide (s.mx.uRx.length < 64)

/-- R442, R463: the next byte of the transmit FIFO leaves; with flow control only while UART_CTS_N says so. -/
def State.uartTx (s : State) : State :=
  match s.mx.uTx with
  | [] => s
  | b :: t =>
    if bitAt (s.reg 0x48002000) 30 && (s.mx.cts || !bitAt (s.reg 0x48002000) 31) then
      ({ s with mx := { s.mx with uTx := t } }).emit (.uart b)
    else s

/-- R38, R463: a read of UART_DATA pops a byte; VALID tells that there was one. -/
def State.uartPop (s : State) : State × Word :=
  match s.mx.uRx with
  | [] => (s, 0#32)
  | b :: t => ({ s with mx := { s.mx with uRx := t } }, wd (256 + b.toNat))

/-! ## GPIO (R463) -/

/-- GPIO_IN: an output pin shows what it drives. DEDUCED, log entry 52. -/
def State.gpioIn (s : State) : Word :=
  let dir := s.reg 0x48003000
  ((s.mx.pins &&& ~~~ dir) ||| (s.reg 0x48003004 &&& dir)) &&& 0xFFFF#32

/-- Event mode of pin n. -/
def State.gpioMode (s : State) (n : Nat) : Nat := fld (s.reg 0x4800300C) (2 * n) 2

/-- R463: edges between two sets of levels raise events of the pins that look for them. -/
def State.gpioEdges (s : State) (old : Word) : State :=
  (List.range 16).foldl (fun t n =>
    let a := bitAt old n
    let b := bitAt t.gpioIn n
    if (t.gpioMode n = 1 ∧ a = false ∧ b = true) ∨ (t.gpioMode n = 2 ∧ a = true ∧ b = false) then t.event 0x48003014 n
    else t) s

/-- R442, R463: the levels at the input pins, those of GPIO after debounce, become `v`. -/
def State.gpioPins (s : State) (v : PinLevels) : State :=
  let t := { s with mx := { s.mx with pins := v.gpio &&& 0xFFFF#32, cts := v.cts } }
  t.gpioEdges s.gpioIn

/-- R463: a write to GPIO_DIR or GPIO_OUT. -/
def State.gpioWrite (s : State) (a : Nat) (v : Word) : State := (s.writeMw a v).gpioEdges s.gpioIn

/-! ## Events to the sill core (R445, R453) -/

/-- MX_EVPEND. -/
def State.mxPend (s : State) : Word :=
  let gpio := (s.sq 0x48003014).any || (List.range 16).any fun n => decide (s.gpioMode n = 3) && bitAt s.gpioIn n
  wd (nbit s.mx.mxh.busy + 2 * nbit gpio + 4 * nbit (s.sq 0x4800200C).any + 8 * nbit (s.sq 0x4800100C).any +
    16 * nbit s.mx.xDone + 32 * nbit (s.sq 0x50014).any + 64 * nbit (s.sq 0x90010).any + 128 * nbit (s.sq 0xA0118).any)

/-- R492, R504: is what bit i of an unlock token's SCOPE opens locked? It is while approved mode holds, and once
approved mode was left by an unlock, but for the scope in force. DEDUCED, log entry 64. -/
def State.debugLocked (s : State) (i : Nat) : Bool :=
  (s.sec.approved || s.sec.left) && !decide (s.sec.scope / 2 ^ i % 2 = 1)

/-- The copies that the bays keep of what other units hold: MX_EVPEND for the sill core, the debug lock for every bay. -/
def State.syncBay (s : State) (k : Nat) : State :=
  s.onBay k fun b =>
    let lock := s.debugLocked 1
    if k = 256 then
      { b with ctx := { b.ctx with mxPend := s.mxPend, mxev := s.mxPend &&& s.reg 0xA0114 }, dbg := { b.dbg with locked := lock } }
    else { b with id := k, dbg := { b.dbg with locked := lock } }

/-! ## The crossbar's address map (R446, R447) -/

/-- Where an address of the crossbar leads. -/
inductive BusAddr where
  | rom (o : Nat)
  | sram (o : Nat)
  | register (o : Nat)
  | flash (o : Nat)
  | security (o : Nat)
  | outer (t : Target)
  | scratch (b o : Nat)
  | istore (b o : Nat)
  | nothing
  deriving DecidableEq, Repr

/-- R447: where a management window leads. -/
def State.mxTarget (s : State) (n o : Nat) : Target :=
  let a := s.reg (0xA0200 + 8 * n)
  let base := (s.reg (0xA0204 + 8 * n)).toNat
  match fld a 30 2 with
  | 1 =>
    let x := base * 2 ^ 24 + o
    if x < s.scr.hostRange.2 * 65536 then .memory (s.scr.hostRange.1 * 65536 + x) else .unmapped
  | 2 => .table (fld a 0 20) (base * 65536 + o)
  | _ => .unmapped

/-- R446: the target of an address. -/
def State.busAddr (s : State) (a : Nat) : BusAddr :=
  let remap := (s.bay 256).remap
  if a < 0x80000 then (if remap then .sram a else if a < 0x20000 then .rom a else .nothing)
  else if 0x20000000 ≤ a ∧ a < 0x20080000 then .sram (a - 0x20000000)
  else if 0x30000000 ≤ a ∧ a < 0x30020000 then .rom (a - 0x30000000)
  else if 0x40000000 ≤ a ∧ a < 0x44000000 then .register (a - 0x40000000)
  else if 0x48000000 ≤ a ∧ a < 0x48010000 then .register a
  else if 0x50000000 ≤ a ∧ a < 0x50000000 + s.hw.flash ∧ a < 0x60000000 then .flash (a - 0x50000000)
  else if 0x60000000 ≤ a ∧ a < 0x70000000 then .security (a - 0x60000000)
  else if 0x70000000 ≤ a ∧ a < 0x73000000 then .outer (.staging (a - 0x70000000))
  else if 0x74000000 ≤ a ∧ a < 0x78000000 then
    .outer (s.mxTarget ((a - 0x74000000) / 2 ^ 24) ((a - 0x74000000) % 2 ^ 24))
  else if 0x78000000 ≤ a ∧ a < 0x80000000 then
    let b := (a - 0x78000000) / 0x80000
    let o := (a - 0x78000000) % 0x80000
    if o < 0x60000 then .scratch b o else if o < 0x70000 then .istore b (o - 0x60000) else .nothing
  else .nothing

/-- R446: the crossbar target of an address, 0–5; 6 none. DEDUCED, log entry 54. -/
def State.busTarget (s : State) (a : Nat) : Nat :=
  match s.busAddr a with
  | .rom _ => 0
  | .sram _ => 1
  | .register _ => 2
  | .flash _ => 3
  | .security _ => 4
  | .nothing => 6
  | _ => 5

end Sys2Proof.Machine
end

