-- ==== Sys2Proof/Machine/Security.lean ====
section
/-!
DEFINITION. The security module (R490–R506): OTP and key slots, the two service ports, roles and services, approved mode,
zeroisation, tamper monitors, debug unlock.

The manual names each service's arguments and results but, UNLOCK apart, gives no layout for them in the request and
response words; a service here takes its arguments as the command's operands, and its results follow word 1.
-/
namespace Sys2Proof.Machine

/-! ## OTP (R493, R494) -/

/-- CONFIG. -/
def Sec.config (x : Sec) : Nat := ofBytes (x.otp.bytes 0 4)

/-- Bits are programmed from 0 to 1 and never back. -/
def Sec.program (x : Sec) (a : Nat) (data : List Byte) : Sec :=
  let new := (data.zip (x.otp.bytes a data.length)).map fun (e : Byte × Byte) => e.1 ||| e.2
  { x with otp := x.otp.putBytes a new }

/-- Address of the attribute byte of a slot. -/
def attrAddr (slot : Nat) : Nat := if slot < 8 then 0x110 + 52 * slot + 49 else 0x3F0 + (slot - 8)

/-- Attribute byte of a slot. -/
def Sec.attr (x : Sec) (slot : Nat) : Nat := (x.otp.byte (attrAddr slot)).toNat

/-- Public key of a slot. -/
def Sec.slotKey (x : Sec) (slot : Nat) : List Byte := x.otp.bytes (0x110 + 52 * slot) 49

/-- Is nothing programmed in a slot? -/
def Sec.slotEmpty (x : Sec) (slot : Nat) : Bool :=
  decide (x.attr slot = 0) &&
    (if slot < 8 then (x.slotKey slot).all fun b => decide (b = 0#8)
     else (x.otp.bytes (0x2B0 + 40 * (slot - 8)) 40).all fun b => decide (b = 0#8))

/-- R494, R498: does a slot hold a key of this use that is not revoked? A public key that is no point counts as none. -/
def Sec.slotHolds (x : Sec) (slot use : Nat) : Bool :=
  decide (slot < 12) && decide (x.attr slot % 8 = use) && decide (x.attr slot < 128) &&
    (decide (use = 6) == decide (8 ≤ slot)) && (decide (8 ≤ slot) || Config.pointOk (x.slotKey slot))

/-- Does some slot hold a key of this use? -/
def Sec.anyHolds (x : Sec) (use : Nat) : Bool := (List.range 12).any fun i => x.slotHolds i use

/-- A floor entry: its value if the second word is the complement of the first (R493). -/
def Sec.floorEntry (x : Sec) (base i : Nat) : Option Word :=
  let v := wd (ofBytes (x.otp.bytes (base + 8 * i) 4))
  if wd (ofBytes (x.otp.bytes (base + 8 * i + 4) 4)) = ~~~ v then some v else none

/-- R493: the floor of a kind, 0 firmware, 1 frame plan. -/
def Sec.floor (x : Sec) (kind : Nat) : Word :=
  (List.range 8).foldl (fun f i => (x.floorEntry (if kind = 0 then 0x350 else 0x390) i).getD f) 0#32

/-- Floor entries that something has been programmed into, counted through the last one. -/
def Sec.floorUsed (x : Sec) (kind : Nat) : Nat :=
  (List.range 8).foldl (fun n i =>
    if (x.otp.bytes ((if kind = 0 then 0x350 else 0x390) + 8 * i) 8).all fun b => decide (b = 0#8) then n else i + 1) 0

/-- Departure bits set (R506). -/
def Sec.departs (x : Sec) : Nat := popN 256 (ofBytes (x.otp.bytes 0x3D0 32))

/-! ## Keys (R495) -/

/-- The KEK. DESIGN CHOICE, log entry 8. -/
def kek : List Byte := (List.range 32).map (Config.rootByte 0)

/-- The device identity key. DESIGN CHOICE, log entry 8. -/
def identKey : List Byte := (List.range 48).map (Config.rootByte 1)

/-- The frame-plan decryption key: the lowest PLANDEC slot that is not revoked (R494). -/
def Sec.planKey (x : Sec) : Option (List Byte) :=
  match [8, 9, 10, 11].find? fun i => x.slotHolds i 6 with
  | some i => some ((List.range 32).map (Config.wrapByte false kek (x.otp.bytes (0x2B0 + 40 * (i - 8)) 40)))
  | none => none

/-- SEC_UID (R495). -/
def secUid : Nat :=
  ofBytes ((List.range 8).map (Config.hashByte 1 ((List.range 49).map (Config.publicByte identKey))))

/-! ## Status (R506) -/

/-- SEC_STAT. -/
def Sec.stat (x : Sec) : Word :=
  wd (nbit (decide (x.config / 32 % 2 = 1)) * 2 ^ 11 + nbit (decide (x.scope ≠ 0)) * 2 ^ 10 + nbit x.approved * 2 ^ 9 +
    x.config % 2 * 2 ^ 8 + x.h.role % 4 * 16 + x.s.role % 4 * 4 + x.state % 4)

/-! ## Ports (R499) -/

/-- A port: true is port S, of the sill core. -/
def Sec.port (x : Sec) (p : Bool) : SecPort := if p then x.s else x.h

/-- Replace a port. -/
def Sec.setPort (x : Sec) (p : Bool) (y : SecPort) : Sec := if p then { x with s := y } else { x with h := y }

/-- Change a port. -/
def Sec.onPort (x : Sec) (p : Bool) (f : SecPort → SecPort) : Sec := x.setPort p (f (x.port p))

/-- OP of the request that waits at a port. -/
def SecPort.op (y : SecPort) : Nat := fld (tgetD 0#32 y.req 0) 24 8

/-- The services of R497, by OP. -/
def secOps : List Nat :=
  [1, 2, 3, 4, 5, 6, 7, 0x10, 0x11, 0x12, 0x13, 0x14, 0x15, 0x16, 0x17, 0x18, 0x19, 0x1A, 0x1B, 0x1C, 0x1D, 0x1E, 0x20, 0x21,
   0x22, 0x23, 0x24]

/-- R499: the service of a port ends: word 0 echoes OP and TAG with the number of result words and STATUS, word 1
holds the approved indicator, the results follow. DESIGN CHOICE, log entry 63. -/
def Sec.answer (x : Sec) (p : Bool) (status : Nat) (rs : List Word) : Sec :=
  let y := x.port p
  let c := tgetD 0#32 y.req 0
  let w0 := wd (fld c 24 8 * 2 ^ 24 + (rs.length + 1) % 256 * 2 ^ 16 + status * 256 + fld c 0 8)
  let ws := (w0 :: wbit x.approved :: rs).take 48
  let rsp := (ws.zip (List.range 48)).foldl (fun (t : Tab Word) e => tsetD 0#32 t e.2 e.1) y.rsp
  let z := { y with rsp := rsp, post := { y.post with busy := false, rseq := y.post.cseq } }
  { x.setPort p z with waits := x.waits.filter fun q => q ≠ p }

/-- What the module does with a post at the head of its line without running a service: an unknown OP, a state that allows
STATUS alone, or a zeroisation in progress (R490, R497, R502). -/
def Sec.turnsAway (x : Sec) (p : Bool) : Option Nat :=
  let op := (x.port p).op
  if x.zeroing then (if op = 3 ∨ op = 0x24 then none else some 5)
  else if x.state = 0 then none
  else if !secOps.contains op then some 1
  else if x.state ≠ 1 ∧ op ≠ 1 then some 5
  else none

/-- Posts that the module turns away are answered. -/
def Sec.clear (x : Sec) : Nat → Sec
  | 0 => x
  | n + 1 => match x.waits with
    | p :: _ => (match x.turnsAway p with
      | some st => (x.answer p st []).clear n
      | none => x)
    | [] => x

/-- The module's state after it has turned away what it can. -/
def State.setSec (s : State) (x : Sec) : State := { s with sec := x.clear 4 }

/-- R499: a post at a port. -/
def State.secPost (s : State) (p : Bool) (v : Word) : State :=
  let y := s.sec.port p
  if !s.on 21 || y.post.busy then s
  else
    let x := s.sec.setPort p { y with post := { y.post with cseq := fld v 0 8, busy := true } }
    s.setSec { x with waits := x.waits ++ [p] }

/-- R499: a write to SEC_REQn of a port. -/
def State.secReq (s : State) (p : Bool) (n : Nat) (v : Word) : State :=
  if (s.sec.port p).post.busy then s
  else { s with sec := s.sec.onPort p fun y => { y with req := tsetD 0#32 y.req n v } }

/-- May the service of this OP run for port p now: it is at the head of the line and the module is READY, or answers
STATUS? -/
def State.secRuns (s : State) (p : Bool) (op : Nat) : Bool :=
  s.on 21 && !s.sec.zeroing && decide (s.sec.waits.head? = some p) && decide ((s.sec.port p).op = op) &&
    (decide (s.sec.state = 1) || (decide (op = 1) && decide (s.sec.state ≠ 0)))

/-- A service of this OP runs for port p, when its role allows (R497): `role` 0 none, 1 USER, 2 CO. DESIGN CHOICE, log
entry 63. -/
def State.service (s : State) (p : Bool) (op role : Nat) (run : State → State) : State :=
  if !s.secRuns p op then s
  else if (s.sec.port p).role < role then s.setSec (s.sec.answer p 4 [])
  else run s

/-- A service ends. -/
def State.secEnd (s : State) (p : Bool) (status : Nat) (rs : List Word) : State := s.setSec (s.sec.answer p status rs)

/-- `n` fresh bytes of the DRBG. DESIGN CHOICE, log entry 8. -/
def State.random (s : State) (n : Nat) : State × List Byte :=
  ({ s with sec := { s.sec with drbg := s.sec.drbg + 1 } }, (List.range n).map (Config.drbgByte s.sec.drbg))

/-- The first `n` bytes of a digest, signature or key. DESIGN CHOICE, log entry 8. -/
def firstBytes (n : Nat) (f : Nat → Byte) : List Byte := (List.range n).map f

/-! ## Staging data of services (R497) -/

/-- Bytes of staging are read by the image master. DESIGN CHOICE, log entry 63. -/
def State.secRead (s : State) (a n : Nat) : State × Option (List Byte) :=
  let r := s.parts (fun t x k _ => t.stgRead .sill x k) a [] (pieces 0x40000 a n)
  (r.1, if r.2.err.isSome then none else some r.2.data)

/-- Bytes of staging are written by the image master. -/
def State.secWrite (s : State) (a : Nat) (data : List Byte) : State × Bool :=
  let r := s.parts (fun t x _ d => t.stgWrite .sill x d []) a data (pieces 0x40000 a data.length)
  (r.1, r.2.err.isNone)

/-- A service reads its input from staging; an error response ends it with FAILED. Over 1 MiB is a bad argument. -/
def State.withInput (s : State) (p : Bool) (a n : Nat) (go : State → List Byte → State) : State :=
  if 0x100000 < n then s.secEnd p 2 []
  else match s.secRead a n with
    | (t, some d) => go t d
    | (t, none) => t.secEnd p 3 []

/-- A service writes its output to staging and ends. -/
def State.outputEnd (s : State) (p : Bool) (a : Nat) (data : List Byte) (status : Nat) (rs : List Word) : State :=
  let r := s.secWrite a data
  r.1.secEnd p (if r.2 then status else 3) (if r.2 then rs else [])

/-! ## Handles -/

/-- What handle i of port p holds, of this kind. -/
def State.handle (s : State) (p : Bool) (i kind : Nat) : Option (List Byte) :=
  match tgetD none s.sec.handles i with
  | some h => if i < 32 ∧ h.kind = kind ∧ h.portS = p then some h.key else none
  | none => none

/-- A key goes into a handle. -/
def State.setHandle (s : State) (i : Nat) (h : Option Handle) : State :=
  { s with sec := { s.sec with handles := tsetD none s.sec.handles i h } }

/-- A service with a handle; a handle that does not hold a key of the kind for the port is a bad argument. DESIGN
CHOICE, log entry 63. -/
def State.withHandle (s : State) (p : Bool) (i kind : Nat) (go : List Byte → State) : State :=
  match s.handle p i kind with
  | some k => go k
  | none => s.secEnd p 2 []

/-! ## Services without keys (R497) -/

/-- STATUS. -/
def State.svcSecStatus (s : State) (p : Bool) : State :=
  s.service p 1 0 fun t => t.secEnd p 0 [t.sec.stat, wd t.sec.departs, t.sec.floor 0, t.sec.floor 1]

/-- SELFTEST: the module leaves READY until the tests have ended (R490). -/
def State.svcSelftest (s : State) (p : Bool) : State :=
  s.service p 2 0 fun t => { t with sec := { t.sec with state := 0 } }

/-- GETNONCE. -/
def State.svcNonce (s : State) (p : Bool) : State :=
  s.service p 4 0 fun t =>
    let r := t.random 32
    ({ r.1 with sec := r.1.sec.onPort p fun y => { y with nonce := some r.2 } }).secEnd p 0 (wordsOf r.2)

/-- AUTH: a signature over nonce, port and role, with a CO or USER slot. DESIGN CHOICE, log entry 63. -/
def State.svcAuth (s : State) (p : Bool) (role slot : Nat) (sig : List Byte) : State :=
  s.service p 5 0 fun t =>
    match (t.sec.port p).nonce with
    | none => t.secEnd p 2 []
    | some n =>
      if role ≠ 1 ∧ role ≠ 2 then t.secEnd p 2 []
      else if t.sec.slotHolds slot (if role = 2 then 4 else 5) &&
          Config.ecdsaOk (t.sec.slotKey slot) (n ++ [BitVec.ofNat 8 (nbit p), BitVec.ofNat 8 role]) sig then
        ({ t with sec := t.sec.onPort p fun y => { y with role := role } }).secEnd p 0 []
      else t.secEnd p 6 []

/-- The handles of a port go. -/
def Sec.dropHandles (x : Sec) (p : Bool) : Sec :=
  { x with handles := x.handles.filter fun e => match e.2 with
      | some h => h.portS ≠ p
      | none => false }

/-- LOGOUT. -/
def State.svcLogout (s : State) (p : Bool) : State :=
  s.service p 6 1 fun t =>
    ({ t with sec := (t.sec.onPort p fun y => { y with role := 0 }).dropHandles p }).secEnd p 0 []

/-! ## Bulk services (R497) -/

/-- Bytes of a digest algorithm: 0 SHA-256, 1 SHA-384. -/
def digestLen (alg : Nat) : Nat := if alg = 0 then 32 else 48

/-- HASH. -/
def State.svcHash (s : State) (p : Bool) (alg src len : Nat) : State :=
  s.service p 0x10 1 fun t => t.withInput p src len fun u d =>
    u.secEnd p 0 (wordsOf (firstBytes (digestLen alg) (Config.hashByte alg d)))

/-- HMAC. -/
def State.svcHmac (s : State) (p : Bool) (alg h src len : Nat) : State :=
  s.service p 0x11 1 fun t => t.withHandle p h 1 fun k => t.withInput p src len fun u d =>
    u.secEnd p 0 (wordsOf (firstBytes (digestLen alg) (Config.hmacByte alg k d)))

/-- GCM_ENC: the module forms the IV; the response carries the IV and the tag. -/
def State.svcGcmEnc (s : State) (p : Bool) (h : Nat) (aad : List Byte) (src len dst : Nat) : State :=
  s.service p 0x12 1 fun t => t.withHandle p h 1 fun k => t.withInput p src len fun u d =>
    let r := u.random 12
    let c := firstBytes d.length (Config.gcmByte true k r.2 aad d)
    r.1.outputEnd p dst c 0 (wordsOf (r.2 ++ firstBytes 16 (Config.gcmTagByte k r.2 aad c)))

/-- GCM_DEC: plaintext is written only after the tag passes; else the output is zero and STATUS is VERIFY_FAIL. -/
def State.svcGcmDec (s : State) (p : Bool) (h : Nat) (iv tag aad : List Byte) (src len dst : Nat) : State :=
  s.service p 0x13 1 fun t => t.withHandle p h 1 fun k => t.withInput p src len fun u d =>
    if tag = firstBytes 16 (Config.gcmTagByte k iv aad d) then
      u.outputEnd p dst (firstBytes d.length (Config.gcmByte false k iv aad d)) 0 []
    else u.outputEnd p dst (zeros d.length) 6 []

/-- XTS_ENC and XTS_DEC, with a pair of handles. -/
def State.svcXts (s : State) (p : Bool) (enc : Bool) (h1 h2 tweak src len dst : Nat) : State :=
  s.service p (if enc then 0x14 else 0x15) 1 fun t => t.withHandle p h1 1 fun a => t.withHandle p h2 1 fun b =>
    t.withInput p src len fun u d => u.outputEnd p dst (firstBytes d.length (Config.xtsByte enc a b tweak d)) 0 []

/-- SIGN. -/
def State.svcSign (s : State) (p : Bool) (h src len : Nat) : State :=
  s.service p 0x16 1 fun t => t.withHandle p h 2 fun k => t.withInput p src len fun u d =>
    let r := u.random 0
    r.1.secEnd p 0 (wordsOf (firstBytes 96 (Config.ecdsaByte k d u.sec.drbg)))

/-- VERIFY, with a public key in the request. -/
def State.svcVerify (s : State) (p : Bool) (pub sig : List Byte) (src len : Nat) : State :=
  s.service p 0x17 1 fun t => t.withInput p src len fun u d => u.secEnd p (if Config.ecdsaOk pub d sig then 0 else 6) []

/-- ECDH: an ephemeral pair; the agreed key goes into a handle, the public key into the response. -/
def State.svcEcdh (s : State) (p : Bool) (h : Nat) (pub : List Byte) : State :=
  s.service p 0x18 1 fun t =>
    if 32 ≤ h ∨ !Config.pointOk pub then t.secEnd p 2 []
    else
      let r := t.random 48
      (r.1.setHandle h (some { kind := 1, key := firstBytes 32 (Config.agreeByte r.2 pub), portS := p })).secEnd p 0
        (wordsOf (firstBytes 49 (Config.publicByte r.2)))

/-- KEYGEN: an AES-256 key (kind 1) or a P-384 pair (kind 2), whose pairwise test passes or takes the module to ERROR. -/
def State.svcKeygen (s : State) (p : Bool) (h kind : Nat) (pass : Bool) : State :=
  s.service p 0x19 1 fun t =>
    if 32 ≤ h ∨ (kind ≠ 1 ∧ kind ≠ 2) then t.secEnd p 2 []
    else if kind = 2 ∧ !pass then
      let x := t.sec.answer p 3 []
      (t.event 0x20030 0).setSec { x with state := 2, approved := false }
    else
      let r := t.random (if kind = 1 then 32 else 48)
      (r.1.setHandle h (some { kind := kind, key := r.2, portS := p })).secEnd p 0 []

/-- The kind and key of a handle of port p. -/
def State.anyHandle (s : State) (p : Bool) (i : Nat) : Option Handle :=
  match tgetD none s.sec.handles i with
  | some h => if i < 32 ∧ h.portS = p then some h else none
  | none => none

/-- WRAP: one handle under another. -/
def State.svcWrap (s : State) (p : Bool) (h under : Nat) : State :=
  s.service p 0x1A 1 fun t => match t.anyHandle p h, t.handle p under 1 with
    | some x, some k => t.secEnd p 0 (wordsOf (firstBytes (x.key.length + 8) (Config.wrapByte true k x.key)))
    | _, _ => t.secEnd p 2 []

/-- UNWRAP: a wrapped key of a kind into a handle. -/
def State.svcUnwrap (s : State) (p : Bool) (h under kind : Nat) (w : List Byte) : State :=
  s.service p 0x1B 1 fun t => match t.handle p under 1 with
    | none => t.secEnd p 2 []
    | some k =>
      let n := if kind = 1 then 32 else 48
      if 32 ≤ h ∨ (kind ≠ 1 ∧ kind ≠ 2) ∨ w.length ≠ n + 8 then t.secEnd p 2 []
      else if Config.unwrapOk k w then
        (t.setHandle h (some { kind := kind, key := firstBytes n (Config.wrapByte false k w), portS := p })).secEnd p 0 []
      else t.secEnd p 6 []

/-- KEYDEL. -/
def State.svcKeydel (s : State) (p : Bool) (h : Nat) : State :=
  s.service p 0x1C 1 fun t => if (t.anyHandle p h).isSome then (t.setHandle h none).secEnd p 0 [] else t.secEnd p 2 []

/-- RANDOM: up to 256 bytes to staging. DESIGN CHOICE, log entry 63. -/
def State.svcRandom (s : State) (p : Bool) (n dst : Nat) : State :=
  s.service p 0x1D 1 fun t =>
    if 256 < n then t.secEnd p 2 []
    else
      let r := t.random n
      r.1.outputEnd p dst r.2 0 []

/-- ATTEST: the device identity key signs a nonce, SEC_STAT, SEC_APPR and both floors. -/
def State.svcAttest (s : State) (p : Bool) (nonce : List Byte) : State :=
  s.service p 0x1E 1 fun t =>
    let m := nonce ++ bytesOf [t.sec.stat, wd t.sec.departs, t.sec.floor 0, t.sec.floor 1]
    let r := t.random 0
    r.1.secEnd p 0 (wordsOf (firstBytes 96 (Config.ecdsaByte identKey m t.sec.drbg)))

/-! ## OTP services (R498) -/

/-- OTP_KEY: an empty slot takes a key and attribute; open with no role for a CO key while no slot holds one. A secret key
comes from a handle and is stored wrapped under the KEK. -/
def State.svcOtpKey (s : State) (p : Bool) (slot use h : Nat) (pub : List Byte) : State :=
  let first := !s.sec.anyHolds 4
  s.service p 0x20 (if first && decide (use = 4) then 0 else 2) fun t =>
    if first ∧ use ≠ 4 then t.secEnd p 4 []
    else if !t.sec.slotEmpty slot || decide (12 ≤ slot) then t.secEnd p 2 []
    else if slot < 8 then
      (if use = 0 ∨ 5 < use ∨ pub.length ≠ 49 then t.secEnd p 2 []
       else ({ t with sec := (t.sec.program (0x110 + 52 * slot) pub).program (attrAddr slot) [BitVec.ofNat 8 use] }).secEnd p 0 [])
    else match t.handle p h 1 with
      | some k =>
        if use ≠ 6 then t.secEnd p 2 []
        else
          let w := firstBytes 40 (Config.wrapByte true kek k)
          ({ t with sec := (t.sec.program (0x2B0 + 40 * (slot - 8)) w).program (attrAddr slot) [6#8] }).secEnd p 0 []
      | none => t.secEnd p 2 []

/-- An OTP service other than the first CO key: DENIED while no slot holds a CO key. -/
def State.otpService (s : State) (p : Bool) (op : Nat) (run : State → State) : State :=
  s.service p op 2 fun t => if t.sec.anyHolds 4 then run t else t.secEnd p 4 []

/-- OTP_REVOKE. -/
def State.svcRevoke (s : State) (p : Bool) (slot : Nat) : State :=
  s.otpService p 0x21 fun t =>
    if 12 ≤ slot then t.secEnd p 2 []
    else ({ t with sec := t.sec.program (attrAddr slot) [0x80#8] }).secEnd p 0 []

/-- FLOOR: the next entry of a kind; `running` is the SEQNO of the firmware that runs. DEDUCED, log entry 64. -/
def State.svcFloor (s : State) (p : Bool) (kind : Nat) (v running : Word) : State :=
  s.otpService p 0x22 fun t =>
    let top := if kind = 0 then running else t.reg 0x5001C
    if 1 < kind ∨ v.toNat < (t.sec.floor kind).toNat ∨ top.toNat < v.toNat then t.secEnd p 2 []
    else if 8 ≤ t.sec.floorUsed kind then t.secEnd p 3 []
    else
      let a := (if kind = 0 then 0x350 else 0x390) + 8 * t.sec.floorUsed kind
      ({ t with sec := t.sec.program a (toBytes 4 v.toNat ++ toBytes 4 (~~~ v).toNat) }).secEnd p 0 []

/-- May CONFIG become `n` (R498)? -/
def Sec.configOk (x : Sec) (n : Nat) : Bool :=
  let tl (c : Nat) : Bool := decide (c = 0) || decide (c = 3)
  decide (x.config / 2 ^ 31 % 2 = 0) &&
    (decide (n % 2 = x.config % 2) || (tl (n / 2 % 4) && tl (n / 8 % 4) && x.anyHolds 4 && x.anyHolds 1 && x.anyHolds 2))

/-- OTP_CONFIG: bits of CONFIG but DESTROYED. -/
def State.svcConfig (s : State) (p : Bool) (bits : Word) : State :=
  s.otpService p 0x23 fun t =>
    let b := bits &&& 0x8000001F#32
    let n := (wd t.sec.config ||| b).toNat
    if t.sec.configOk n then ({ t with sec := t.sec.program 0 (toBytes 4 b.toNat) }).secEnd p 0 [] else t.secEnd p 2 []

/-! ## Zeroisation and tamper (R500–R503) -/

/-- R502: zeroisation starts: channels' keys and the module's keys, handles, nonces and roles go; what waits is answered
NOT_READY, but the service that asked for it. -/
def State.zeroise (s : State) : State :=
  if s.sec.zeroing then s
  else
    let s1 := (s.isolate fun o => o.ddr.isSome).memErase
    let x := { s1.sec with zeroing := true, approved := false, handles := [], keyRam := [],
                           h := { s1.sec.h with role := 0, nonce := none }, s := { s1.sec.s with role := 0, nonce := none } }
    let busy := match x.waits with
      | p :: _ => decide (x.state = 0) && decide ((x.port p).op = 2)
      | [] => false
    s1.setSec (match busy, x.waits with
      | true, p :: _ => x.answer p 3 []
      | _, _ => x)

/-- R502: zeroisation completes. In a reset the module is then reset too and TAMPER lets go (R465). -/
def State.zeroised (s : State) : State :=
  if !s.sec.zeroing then s
  else
    let x0 := { s.sec with zeroing := false, state := 3 }
    let x := match x0.waits with
      | p :: _ => if (x0.port p).op = 3 ∨ (x0.port p).op = 0x24 then x0.answer p 0 [] else x0
      | [] => x0
    if 4 ≤ s.rst.reach then ({ s with sec := x.warm }).releaseReset 1
    else (s.setSec x).event 0x20030 1

/-- ZEROISE. -/
def State.svcZeroise (s : State) (p : Bool) : State := s.service p 3 0 State.zeroise

/-- DESTROY: DESTROYED is programmed, then the module zeroises (R503). -/
def State.svcDestroy (s : State) (p : Bool) : State :=
  s.otpService p 0x24 fun t => ({ t with sec := t.sec.program 0 (toBytes 4 0x20) }).zeroise

/-- R465, R502: a reset of TAMPER reach. -/
def State.tamper (s : State) : State := s.zeroise.assertReset 1

/-- R501: a tamper monitor meets its condition. DEDUCED, log entry 64. -/
def State.tamperTrip (s : State) (code : Nat) : State :=
  let resp := if code ≤ 4 then 3 else if code = 5 then s.sec.config / 2 % 4 else s.sec.config / 8 % 4
  if code = 0 ∨ 6 < code then s
  else if resp = 3 then ({ s with sec := { s.sec with tlog := code } }).tamper
  else if resp = 1 then
    let t := ({ s with sec := { s.sec with tlog := code } }).event 0x20030 3
    t.record { rtype := 4, block := 10, w8 := (t.sq 0x20030).read }
  else s

/-- R500: an entropy health test fails. -/
def State.healthFail (s : State) : State :=
  if !s.on 21 || decide (1 < s.sec.state) || s.sec.zeroing then s
  else (s.event 0x20030 2).setSec { s.sec with state := 2, approved := false }

/-- R490, R491, R503: the self-tests end. A destroyed module never leaves ERROR. -/
def State.selftestDone (s : State) (pass : Bool) : State :=
  if !s.on 21 || decide (s.sec.state ≠ 0) || s.sec.zeroing then s
  else
    let ok := pass && decide (s.sec.config / 32 % 2 = 0)
    let x0 := { s.sec with
      state := if ok then 1 else 2, started := s.sec.started || ok,
      approved := ok && (s.sec.approved || (!s.sec.started && decide (s.sec.config % 2 = 1) && decide (s.sec.scope = 0))) }
    let x := match x0.waits with
      | p :: _ => if (x0.port p).op = 2 ∧ s.sec.started then x0.answer p (if ok then 0 else 3) [] else x0
      | [] => x0
    (if ok then s else s.event 0x20030 0).setSec x

/-! ## Debug unlock (R504, R505) -/

/-- The token of an UNLOCK request: the words after word 0, as bytes. -/
def SecPort.token (y : SecPort) : List Byte := bytesOf ((List.range 42).map fun i => tgetD 0#32 y.req (i + 1))

/-- A field of a token. -/
def tokenField (t : List Byte) (o n : Nat) : List Byte := (t.drop o).take n

/-- R505, steps 1–4: is a token well formed for this device and nonce? -/
def tokenOk (t : List Byte) (nonce : Option (List Byte)) : Bool :=
  decide (tokenField t 0 4 = [0x53#8, 0x4B#8, 0x44#8, 0x54#8]) && decide (ofBytes (tokenField t 4 4) < 8) &&
    decide (ofBytes (tokenField t 0x34 4) = 0) && decide (ofBytes (tokenField t 0x3A 14) = 0) &&
    decide (ofBytes (tokenField t 8 8) = secUid) && decide (nonce = some (tokenField t 0x10 32)) &&
    decide (ofBytes (tokenField t 4 4) ≠ 0)

/-- R505, steps 5 and 6: KEYSLOT holds a DEBUG key, and the signature over bytes 0x00–0x47 holds. -/
def Sec.tokenSigned (x : Sec) (t : List Byte) : Bool :=
  let slot := ofBytes (tokenField t 0x38 1)
  x.slotHolds slot 3 && decide (tokenField t 0x39 1 = [1#8]) &&
    Config.ecdsaOk (x.slotKey slot) (tokenField t 0 0x48) (tokenField t 0x48 96)

/-- R505: the unlock takes effect: handles, nonces and roles are erased, the DRBG reseeds, approved mode is left.
DEDUCED, log entry 64. -/
def State.unlockNow (s : State) (p : Bool) (t : List Byte) : State :=
  let was := s.sec.approved
  let x0 := if was then s.sec.program (0x3D0 + s.sec.departs / 8) [BitVec.ofNat 8 (2 ^ (s.sec.departs % 8))] else s.sec
  let x := { x0 with
    handles := [], h := { x0.h with role := 0, nonce := none }, s := { x0.s with role := 0, nonce := none },
    drbg := x0.drbg + 1, approved := false, left := x0.left || was, scope := ofBytes (tokenField t 4 4),
    dbgLeft := ofBytes (tokenField t 0x30 4) }
  let s1 := { s with sec := x }
  let s2 := if was then
      let e := s1.event 0x20030 4
      e.record { rtype := 3, block := 10, w8 := (e.sq 0x20030).read }
    else s1
  s2.secEnd p 0 []

/-- R505: UNLOCK. The nonce is discarded whatever the outcome. -/
def State.svcUnlock (s : State) (p : Bool) : State :=
  s.service p 7 0 fun u =>
    let y := u.sec.port p
    let t := y.token
    let u1 := { u with sec := u.sec.setPort p { y with nonce := none } }
    if !tokenOk t y.nonce then u1.secEnd p 2 []
    else if !u1.sec.tokenSigned t then u1.secEnd p 6 []
    else if u1.sec.approved ∧ u1.sec.departs = 256 then u1.secEnd p 3 []
    else u1.unlockNow p t

/-- R505: DURATION has expired: debug locks again. -/
def State.relock (s : State) : State :=
  if s.sec.scope = 0 ∨ s.sec.dbgLeft = 0 then s else { s with sec := { s.sec with scope := 0, dbgLeft := 0 } }

end Sys2Proof.Machine
end

