-- ==== Sys2Proof/Machine/Plan.lean ====
section
/-!
DEFINITION. Frame plans as bytes (R354–R374): header, directory, sections, and the checks that look at the plan alone or
at the part: bay plans, socket maps, routes, bank map, queues, peg map.

A check answers with a reason code of R384, or 0. Reserved fields that are not zero take the reason of the section they
stand in (R357).
-/
namespace Sys2Proof.Machine

/-- A plan: its byte at each offset. -/
abbrev Plan := Nat → Byte

/-- `n` bytes at offset a. -/
def Plan.bytes (p : Plan) (a n : Nat) : List Byte := (List.range n).map fun i => p (a + i)

/-- A little-endian number of n bytes at offset a (R354). -/
def Plan.num (p : Plan) (a n : Nat) : Nat := ofBytes (p.bytes a n)

/-- A word at offset a. -/
def Plan.word (p : Plan) (a : Nat) : Word := wd (p.num a 4)

/-- Are n bytes from offset a zero? -/
def Plan.zeroAt (p : Plan) (a n : Nat) : Bool := (List.range n).all fun i => decide (p (a + i) = 0#8)

/-- A number rounded up to a multiple of 16. -/
def up16 (n : Nat) : Nat := (n + 15) / 16 * 16

/-- The reason of the first check that fails, 0 if none does. DEDUCED, log entry 59. -/
def firstReason : List (Bool × Nat) → Nat
  | [] => 0
  | (ok, r) :: t => if ok then firstReason t else r

/-! ## Header and directory (R354–R357) -/

/-- TOTAL_LEN. -/
def Plan.total (p : Plan) : Nat := p.num 8 4
/-- FLAGS.ENC. -/
def Plan.enc (p : Plan) : Bool := decide (p.num 0xE 2 % 2 = 1)
/-- SEQNO. -/
def Plan.seqno (p : Plan) : Word := p.word 0x10
/-- PLAN_ID. -/
def Plan.id (p : Plan) : Word := p.word 0x14
/-- BENTS. -/
def Plan.bents (p : Plan) : Nat := p.num 0x18 2
/-- NSECT. -/
def Plan.nsect (p : Plan) : Nat := p.num 0x1A 2

/-- One directory entry (R355). -/
structure Section_ where
  typ : Nat
  off : Nat
  len : Nat
  crc : Word
  deriving DecidableEq, Repr

/-- Directory entry i. -/
def Plan.entry (p : Plan) (i : Nat) : Section_ :=
  { typ := p.num (64 + 16 * i) 2, off := p.num (64 + 16 * i + 4) 4, len := p.num (64 + 16 * i + 8) 4,
    crc := p.word (64 + 16 * i + 12) }

/-- The directory. -/
def Plan.entries (p : Plan) : List Section_ := (List.range p.nsect).map p.entry

/-- The section of a type. -/
def Plan.section_ (p : Plan) (typ : Nat) : Option Section_ := p.entries.find? fun e => decide (e.typ = typ)

/-- Offset of the payload of a section type; 0 where the plan has none. -/
def Plan.off (p : Plan) (typ : Nat) : Nat := ((p.section_ typ).map Section_.off).getD 0

/-- Length of the payload of a section type; 0 where the plan has none. -/
def Plan.len (p : Plan) (typ : Nat) : Nat := ((p.section_ typ).map Section_.len).getD 0

/-- R354: the header, for a command (1 RAISE, 2 REBENT, 3 REBAY) with RSU_LEN `len`, on part `part`; `bent` is the
bent that a re-raise names. DEDUCED, log entry 59. -/
def Plan.headerReason (p : Plan) (op len part bent : Nat) : Nat :=
  firstReason [
    (decide (p.bytes 0 4 = [0x53#8, 0x4B#8, 0x46#8, 0x50#8]) && decide (p.num 4 1 = 1) && decide (p.num 6 2 = 64) &&
      decide (p.num 0x1C 4 = 64) && p.zeroAt 0x2C 4 && (p.enc || (p.zeroAt 0x20 12 && p.zeroAt 0x30 16)), 1),
    (decide (p.total = len) && decide (p.total ≤ 0x1000000), 2),
    (decide (p.num 0xC 2 = 0) || decide (p.num 0xC 2 = part), 3),
    (decide (p.num 0xE 2 / 4 = 0) && decide (p.num 0xE 2 / 2 % 2 = if op = 1 then 0 else 1) &&
      (decide (op = 1) || decide (p.bents = 2 ^ bent)), 4)]

/-- Section types of a full plan, or of a bent plan; a REBAY allows no PEGMAP (R356, R380). -/
def allowedSections (op : Nat) : List Nat :=
  if op = 1 then [1, 2, 3, 4, 5, 6, 7, 0xFF] else if op = 2 then [1, 2, 6, 7, 0xFF] else [1, 2, 6, 0xFF]

/-- Section types that must be there (R356). -/
def neededSections (op : Nat) : List Nat := if op = 1 then [1, 2, 3, 4, 5, 0xFF] else [1, 2, 0xFF]

/-- R355: payloads in directory order from offset a, without overlap, each start a multiple of 16; gaps are zero and the
last payload, the SIGNATURE of 112 bytes, ends at TOTAL_LEN. -/
def Plan.placed (p : Plan) : Nat → List Section_ → Bool
  | a, [] => decide (a = p.total)
  | a, e :: t =>
    decide (e.off % 16 = 0) && decide (a ≤ e.off) && decide (e.off + e.len ≤ p.total) && p.zeroAt a (e.off - a) &&
      (decide (e.typ ≠ 0xFF) || (t.isEmpty && decide (e.len = 112))) && Plan.placed p (e.off + e.len) t

/-- R355–R357: the directory. DEDUCED, log entry 59. -/
def Plan.directoryReason (p : Plan) (op : Nat) : Nat :=
  let ts := p.entries.map Section_.typ
  firstReason [
    (decide (3 ≤ p.nsect) && decide (p.nsect ≤ 8) && decide ts.Nodup && (ts.all fun t => (allowedSections op).contains t) &&
      ((neededSections op).all fun t => ts.contains t) &&
      ((List.range p.nsect).all fun i => p.zeroAt (64 + 16 * i + 2) 2), 6),
    (Plan.placed p (64 + 16 * p.nsect) p.entries, 2)]

/-- R355: every section's CRC. -/
def Plan.crcsOk (p : Plan) : Bool := p.entries.all fun e => decide (crc32c (p.bytes e.off e.len) = e.crc)

/-! ## Bay plans (R358–R361) -/

/-- NPLAN. -/
def Plan.nplan (p : Plan) : Nat := p.num (p.off 1) 2

/-- ASSIGN of bay b. -/
def Plan.assign (p : Plan) (b : Nat) : Nat := p.num (p.off 1 + 0x10 + b) 1

/-- Length of a record's image. -/
def Plan.imgLen (p : Plan) (o : Nat) : Nat := p.num (o + 0x98) 4

/-- Offsets of n records from offset o, each on a 16-byte boundary, and the end of the last. -/
def Plan.recordsFrom (p : Plan) : Nat → Nat → List Nat × Nat
  | o, 0 => ([], o)
  | o, n + 1 =>
    let e := o + 0xA0 + p.imgLen o
    let r := Plan.recordsFrom p (up16 e) n
    (o :: r.1, if n = 0 then e else r.2)

/-- Offsets of the records in the plan. -/
def Plan.records (p : Plan) : List Nat := (p.recordsFrom (p.off 1 + 0x110) p.nplan).1

/-- Instances of unit u in the record at o, numbered as R363 numbers units; CTL, QIO and TMR are one each. -/
def Plan.count (p : Plan) (o u : Nat) : Nat :=
  match u with
  | 0 => p.num o 1
  | 1 => p.num (o + 1) 1
  | 2 => p.num (o + 2) 1
  | 3 => p.num (o + 3) 1
  | 4 => p.num (o + 4) 1
  | 5 => p.num (o + 5) 1
  | 6 => nbit (decide (p.num (o + 8) 1 % 4 ≠ 0)) + nbit (decide (p.num (o + 8) 1 / 4 % 4 ≠ 0))
  | 7 => p.num (o + 6) 1
  | 8 => p.num (o + 7) 1
  | 9 => 1
  | 10 => 1
  | 11 => 1
  | _ => 0

/-- The kind of LSU i in the record at o. -/
def Plan.lsu (p : Plan) (o i : Nat) : Nat := p.num (o + 8) 1 / 4 ^ i % 4

/-- R79: instance limits, slot costs, and FMA32 only where the part has it. -/
def Plan.slotsOk (p : Plan) (o : Nat) (full : Bool) : Bool :=
  let c := p.count o
  decide (c 0 ≤ 8) && decide (c 1 ≤ 8) && decide (c 2 ≤ 4) && decide (c 3 ≤ 1) && decide (c 4 ≤ 4) && decide (c 5 ≤ 2) &&
    decide (c 7 ≤ 2) && decide (c 8 ≤ 2) && (full || decide (c 8 = 0)) && decide (1 ≤ c 6) &&
    decide (c 0 + c 1 + c 2 + c 3 + 2 * (c 4 + c 5 + c 6) + 3 * (c 7 + c 8) ≤ 16)

/-- R360, R102: an LSU's flavour. -/
def Plan.flavourOk (p : Plan) (o i : Nat) : Bool :=
  let m := p.num (o + 9) 1 / 4 ^ i % 4
  decide (m ≠ 3) && (decide (m = 0) || decide (p.lsu o i = 2))

/-- NMAPS of a record, and its map indexes. -/
def Plan.mapIdx (p : Plan) (o : Nat) : List Nat := (List.range (p.num (o + 0xA) 1)).map fun i => p.num (o + 0x10 + 2 * i) 2

/-- NMAP of the SOCKMAP section. -/
def Plan.nmap (p : Plan) : Nat := p.num (p.off 2) 4

/-- R359, R360: a record, images and windows apart. -/
def Plan.recordOk (p : Plan) (full : Bool) (o : Nat) : Bool :=
  let n := p.num (o + 0xA) 1
  p.slotsOk o full && decide (p.num (o + 8) 1 < 16) && decide (p.lsu o 0 ≠ 0) && decide (p.lsu o 0 ≠ 3) &&
    decide (p.lsu o 1 ≠ 3) && decide (p.num (o + 9) 1 < 16) && p.flavourOk o 0 && p.flavourOk o 1 && decide (1 ≤ n) &&
    decide (n ≤ 4) && (p.mapIdx o).all (fun i => decide (i < p.nmap)) &&
    ((List.range (4 - n)).all fun i => decide (p.num (o + 0x10 + 2 * (n + i)) 2 = 0xFFFF)) && decide (p.num (o + 0xB) 1 ≤ 4) &&
    decide (p.num (o + 0xC) 1 < 64) && p.zeroAt (o + 0xD) 3 && p.zeroAt (o + 0x1A) 2 && p.zeroAt (o + 0x9C) 4

/-- Offset of socket map m. -/
def Plan.mapAt (p : Plan) (m : Nat) : Nat := p.off 2 + 16 + 2096 * m

/-- R361: what a signature covers: the record and its socket maps in MAPIDX order. -/
def Plan.signed (p : Plan) (o : Nat) : List Byte :=
  p.bytes o (0xA0 + p.imgLen o) ++ (p.mapIdx o).flatMap fun m => p.bytes (p.mapAt m) 2096

/-- R361: the plan signature of a record: bits 31:0 of the SHA-256 digest. -/
def Plan.sig (p : Plan) (o : Nat) : Word := wd (ofBytes (firstBytes 4 (Config.hashByte 0 (p.signed o))))

/-- R361: no two different records share a signature. -/
def Plan.sigsOk (p : Plan) : List Nat → Bool
  | [] => true
  | o :: t =>
    (t.all fun q => decide (p.bytes o (0xA0 + p.imgLen o) = p.bytes q (0xA0 + p.imgLen q)) || decide (p.sig o ≠ p.sig q)) &&
      Plan.sigsOk p t

/-- R358–R361: the BAYPLAN section; the index given for an absent or retired bay of a named bent is ignored. -/
def Plan.bayplanOk (p : Plan) (full : Bool) (live : Nat → Bool) : Bool :=
  let b := p.off 1
  decide (0x110 ≤ p.len 1) && decide (1 ≤ p.nplan) && decide (p.nplan ≤ 255) && p.zeroAt (b + 2) 14 &&
    ((List.range 256).all fun k => decide (p.assign k = 0xFF) ||
      (decide (p.bents / 2 ^ (k / 16) % 2 = 1) && (!live k || decide (p.assign k < p.nplan)))) &&
    p.records.all (p.recordOk full) && p.sigsOk p.records

/-- R359, R360: images and starts. -/
def Plan.imagesOk (p : Plan) : Bool :=
  decide ((p.recordsFrom (p.off 1 + 0x110) p.nplan).2 = p.off 1 + p.len 1) && p.records.all fun o =>
    let sp := p.num (o + 0x1C) 4
    decide (p.imgLen o % 16 = 0) && decide (p.imgLen o ≤ 65536) && decide (p.num (o + 0x18) 2 % 4 = 0) &&
      decide (sp % 4 = 0) && decide (p.num (o + 0xB) 1 * 0x10000 + 16 ≤ sp) && decide (sp ≤ 0x5FFC0)

/-- Descriptor words A and B of window n in the record at o. -/
def Plan.winA (p : Plan) (o n : Nat) : Word := p.word (o + 0x20 + 8 * (n - 1))
/-- Descriptor word B. -/
def Plan.winB (p : Plan) (o n : Nat) : Word := p.word (o + 0x24 + 8 * (n - 1))

/-- R360: the windows of a record, against table descriptors. -/
def Plan.windowsOk (p : Plan) (desc : Nat → Word) (o : Nat) : Bool :=
  let ns := (List.range 15).map (· + 1)
  (ns.all fun n =>
    decide (p.winA o n &&& 0x1CFFF000#32 = 0#32) && decide (p.winB o n &&& 0xFFF00000#32 = 0#32) &&
      (!bitAt (p.winA o n) 31 ||
        (bitAt (desc (fld (p.winB o n) 0 20)) 31 && decide (fld (p.winA o n) 0 12 ≤ fld (desc (fld (p.winB o n) 0 20)) 0 12)))) &&
  decide ((ns.map fun n => if bitAt (p.winA o n) 31 then fld (p.winA o n) 0 12 + 1 else 0).foldl (· + ·) 0 ≤ 4096)

/-! ## Socket maps (R362–R364) -/

/-- Offset of joist j of the map at m. -/
def joistAt (m j : Nat) : Nat := m + 8 + 696 * j

/-- Ports that a unit has (R364), numbered as R363 numbers them: 0 O, 1 T, 2 Q, 3 H, 4 M, 5 C. -/
def unitPorts (u : Nat) : List Nat :=
  match u with
  | 3 => [1, 2]
  | 11 => [1, 2]
  | 9 => [1]
  | 4 => [0, 1, 2, 3]
  | 5 => [0, 1, 2, 4]
  | 8 => [0, 5, 1, 2]
  | _ => if u < 12 then [0, 1, 2] else []

/-- R363: a long entry is in order: reserved bits, an operation only with T, and where it is assigned a source or
destination port of its unit. -/
def longOk (src : Bool) (w : Word) : Bool :=
  let port := fld w 16 3
  decide (w &&& 0x7088FFC0#32 = 0#32) && (decide (port = 1) || decide (fld w 0 6 = 0)) && (!bitAt w 31 ||
    ((if src then [2, 3, 4] else [0, 1, 5]).contains port && (unitPorts (fld w 24 4)).contains port))

/-- The long entry of code c on joist j of the map at m. -/
def Plan.lsrc (p : Plan) (m j c : Nat) : Word := p.word (joistAt m j + 4 * (c - 0x49))
/-- The long destination entry. -/
def Plan.ldst (p : Plan) (m j c : Nat) : Word := p.word (joistAt m j + 220 + 4 * (c - 0x48))
/-- The short source entry of code c. -/
def Plan.ssrc (p : Plan) (m j c : Nat) : Nat := p.num (joistAt m j + 440 + 2 * c) 2
/-- The short destination entry. -/
def Plan.sdst (p : Plan) (m j c : Nat) : Nat := p.num (joistAt m j + 568 + 2 * c) 2

/-- R121, R364: a short source entry on joist j. -/
def Plan.shortSrcOk (p : Plan) (m j e : Nat) : Bool :=
  let c := e % 256
  decide (e / 256 % 128 = 0) && (decide (e < 32768) || (decide (c ≠ 0x48) && decide (c < 0xC0) &&
    (!(decide (0x49 ≤ c) && decide (c ≤ 0x7F)) || bitAt (p.lsrc m j c) 31)))

/-- R121, R364: a short destination entry. DEDUCED, log entry 59. -/
def Plan.shortDstOk (p : Plan) (m j e : Nat) : Bool :=
  let c := e % 256
  decide (e / 256 % 128 = 0) && (decide (e < 32768) || (decide (c < 0x7F) &&
    (!decide (0x49 ≤ c) || bitAt (p.ldst m j c) 31)))

/-- R362–R364: one joist. -/
def Plan.joistOk (p : Plan) (m j : Nat) : Bool :=
  ((List.range 55).all fun i => longOk true (p.lsrc m j (0x49 + i)) && longOk false (p.ldst m j (0x48 + i))) &&
  ((List.range 64).all fun i => p.shortSrcOk m j (p.ssrc m j i)) &&
  ((List.range 63).all fun i => p.shortDstOk m j (p.sdst m j i)) && p.zeroAt (joistAt m j + 694) 2 &&
  (decide (j ≠ 2) || p.zeroAt (joistAt m j + 440) 254)

/-- R364: every entry of a map names an instance that the record at o has. -/
def Plan.instancesOk (p : Plan) (o m : Nat) : Bool :=
  (List.range 3).all fun j => (List.range 55).all fun i =>
    let ok (w : Word) : Bool := !bitAt w 31 || decide (fld w 20 3 < p.count o (fld w 24 4))
    ok (p.lsrc m j (0x49 + i)) && ok (p.ldst m j (0x48 + i))

/-- R362–R364: the SOCKMAP section. -/
def Plan.sockmapOk (p : Plan) : Bool :=
  let b := p.off 2
  decide (p.len 2 = 16 + 2096 * p.nmap) && p.zeroAt (b + 4) 12 &&
    ((List.range p.nmap).all fun i => p.zeroAt (p.mapAt i) 8 && (List.range 3).all fun j => p.joistOk (p.mapAt i) j) &&
    p.records.all fun o => (p.mapIdx o).all fun i => p.instancesOk o (p.mapAt i)

/-- A joist as a bay holds it. -/
def Plan.joist (p : Plan) (m j : Nat) : JoistMap :=
  { lsrc := (List.range 55).filterMap fun i =>
      if p.lsrc m j (0x49 + i) = 0#32 then none else some (0x49 + i, p.lsrc m j (0x49 + i)),
    ldst := (List.range 55).filterMap fun i =>
      if p.ldst m j (0x48 + i) = 0#32 then none else some (0x48 + i, p.ldst m j (0x48 + i)),
    ssrc := (List.range 64).filterMap fun i => if p.ssrc m j i = 0 then none else some (i, p.ssrc m j i),
    sdst := (List.range 63).filterMap fun i => if p.sdst m j i = 0 then none else some (i, p.sdst m j i) }

/-- A socket map as a bay holds it. -/
def Plan.map (p : Plan) (m : Nat) : SocketMap := { j0 := p.joist m 0, j1 := p.joist m 1, j2 := p.joist m 2 }

/-- The structural registers and units that the record at o gives (R359). -/
def Plan.struct (p : Plan) (o : Nat) : Struct :=
  let ns := (List.range 15).map (· + 1)
  { sel := 0, count := p.num (o + 0xA) 1 - 1, lsufl := wd (p.num (o + 9) 1 % 16), frames := p.num (o + 0xB) 1,
    winA := ns.filterMap fun n => if p.winA o n = 0#32 then none else some (n, p.winA o n),
    winB := ns.filterMap fun n => if p.winB o n = 0#32 then none else some (n, p.winB o n),
    stored := [],
    maps := (p.mapIdx o).map fun i => p.map (p.mapAt i),
    units := { alu := p.count o 0, shf := p.count o 1, crc := p.count o 2, rep := p.count o 3, mul := p.count o 4,
               div := p.count o 5, tbl := p.count o 7, fma := p.count o 8, lsu0 := p.lsu o 0, lsu1 := p.lsu o 1 },
    start := p.num (o + 0x18) 2, startSp := p.word (o + 0x1C) }

/-- The instruction store that the record at o gives (R359, R361). -/
def Plan.image (p : Plan) (o : Nat) : Mem := ({ gen := fillGen } : Mem).putBytes 0 (p.bytes (o + 0xA0) (p.imgLen o))

/-! ## Routes, bank map and queues (R365–R367) -/

/-- R365. -/
def Plan.routesOk (p : Plan) : Bool := decide (p.len 3 = 96) && (p.bytes (p.off 3) 96).all fun b => decide (b.toNat < 2)

/-- KIND of bank n in BANKMAP, and its agent or bay. -/
def Plan.bank (p : Plan) (n : Nat) : Nat × Nat := (p.num (p.off 4 + 0x10 + 2 * n) 1, p.num (p.off 4 + 0x11 + 2 * n) 1)

/-- QM banks of an agent. -/
def Plan.qmBanks (p : Plan) (agent : Nat) : Nat :=
  ((List.range 192).filter fun n => decide (p.bank n = (1, agent))).length

/-- R366, R367: the bank map. `bayHere` tells a bay that is present and not retired, `holds` a bank of the plan itself. -/
def Plan.banksOk (p : Plan) (bayHere holds : Nat → Bool) : Bool :=
  let ns := List.range 192
  decide ((ns.filter fun n => decide ((p.bank n).1 = 1)).length = 64) &&
    ((List.range 16).all fun a => decide (0 < p.qmBanks a)) &&
    ns.all fun n =>
      let k := p.bank n
      (decide (k.1 < 5) && (decide (k.1 ≠ 3) || bayHere k.2) && (decide (k.1 ≠ 1) || decide (k.2 < 16)) &&
        (decide (k.1 = 1) || decide (k.1 = 3) || decide (k.2 = 0)) && (!holds n || decide (k.1 = 4)))

/-- NDESC. -/
def Plan.ndesc (p : Plan) : Nat := p.num (p.off 4) 4

/-- Queue number of descriptor entry i. -/
def Plan.descQueue (p : Plan) (i : Nat) : Nat := p.num (p.off 4 + 0x190 + 20 * i) 2

/-- The queue that entry i describes. -/
def Plan.desc (p : Plan) (i : Nat) : Queue :=
  let a := p.off 4 + 0x190 + 20 * i
  { w0 := p.word (a + 4), w1 := p.word (a + 8), w2 := p.word (a + 12), w3 := p.word (a + 16) }

/-- NTASK. -/
def Plan.ntask (p : Plan) : Nat := if (p.section_ 6).isSome then p.num (p.off 6) 4 else 0

/-- Offset of task record i. -/
def Plan.taskAt (p : Plan) (i : Nat) : Nat := p.off 6 + 0x10 + 40 * i

/-- Offsets of the task records, in order. -/
def Plan.taskRecs (p : Plan) : List Nat := (List.range p.ntask).map p.taskAt

/-- The task of the record at o. -/
def Plan.taskOf (p : Plan) (o : Nat) : Nat := p.num o 4

/-- FLAGS.PLACE. -/
def Plan.places (p : Plan) (o : Nat) : Bool := decide (p.num (o + 4) 4 % 2 = 1)

/-- Descriptor word n of a task record. -/
def Plan.taskWord (p : Plan) (o n : Nat) : Word := p.word (o + 8 + 4 * n)

/-- R367: one descriptor entry. -/
def Plan.descOk (p : Plan) (full : Bool) (i : Nat) : Bool :=
  let q := p.desc i
  decide (p.num (p.off 4 + 0x190 + 20 * i + 2) 2 = 0) && decide (q.w0 &&& ~~~ wd (descMask 0) = 0#32) &&
    decide (q.w1 &&& ~~~ wd (descMask 1) = 0#32) && decide (q.w2 &&& ~~~ wd (descMask 2) = 0#32) &&
    decide (q.w3 &&& ~~~ wd (descMask 3) = 0#32) && decide (q.state < 2) &&
    (match q.bind with
     | 1 => p.taskRecs.any fun o => decide (p.taskOf o = q.target) && bitAt (p.taskWord o 0) 31
     | 2 => decide (q.target < 256)
     | 3 => full && decide (q.target < 16)
     | _ => true)

/-- R366, R367: the descriptors. -/
def Plan.queuesOk (p : Plan) (full : Bool) : Bool :=
  let b := p.off 4
  let is := List.range p.ndesc
  decide (p.ndesc ≤ 65536) && decide (p.len 4 = 0x190 + 20 * p.ndesc) && p.zeroAt (b + 4) 12 && is.all (p.descOk full) && decide (is.map p.descQueue).Nodup &&
    decide ((is.filter fun i => decide ((p.desc i).bind = 2)).map fun i => (p.desc i).target).Nodup

/-! ## Peg group map (R372) -/

/-- R5, R6: is the unit that a register belongs to present on the part? -/
def State.unitHere (s : State) (a : Nat) : Bool :=
  if 0x60000 ≤ a ∧ a < 0x70000 then s.hw.chanHere ((a - 0x60000) / 0x2000)
  else if 0x70000 ≤ a ∧ a < 0x78000 then s.hw.portHere ((a - 0x70000) / 0x1000)
  else if 0x80000 ≤ a ∧ a < 0x84000 then s.hw.full
  else if 0x93000 ≤ a ∧ a < 0x94000 then s.bentHere ((a - 0x93000) / 0x100)
  else if 0x94000 ≤ a ∧ a < 0x98000 then s.bentHere ((a - 0x94000) / 0x400)
  else if 0x98000 ≤ a ∧ a < 0xA0000 then s.bentHere ((a - 0x98000) / 0x800)
  else if 0xB1000 ≤ a ∧ a < 0xB2000 then s.bentHere ((a - 0xB1000) / 0x100)
  else true

/-- Is there a PG register at BAR0 offset a? -/
def State.pgHere (s : State) (a : Nat) : Bool :=
  match regRow a with
  | some r => decide (r.kind = .pg) && s.unitHere a && decide (a < 0x1000000)
  | none => false

/-- NENT. -/
def Plan.nent (p : Plan) : Nat := if (p.section_ 7).isSome then p.num (p.off 7) 4 else 0

/-- Entries of the map: offset and group. -/
def Plan.pegs (p : Plan) : List (Nat × Nat) :=
  (List.range p.nent).map fun i =>
    let w := p.word (p.off 7 + 0x10 + 4 * i)
    (fld w 2 22 * 4, fld w 28 4)

/-- R372. -/
def Plan.pegmapOk (p : Plan) (s : State) : Bool :=
  (p.section_ 7).isNone || (decide (p.len 7 = 16 + 4 * p.nent) && p.zeroAt (p.off 7 + 4) 12 &&
    ((List.range p.nent).all fun i => decide (p.word (p.off 7 + 0x10 + 4 * i) &&& 0x0F000003#32 = 0#32)) &&
    (p.pegs.all fun e => s.pgHere e.1) && decide (p.pegs.map (·.1)).Nodup)

/-! ## Scribe records (R368–R370) -/

/-- SCR_SPAN of the SCRIBE section. -/
def Plan.span (p : Plan) : Word := p.word (p.off 5 + 0xC)
/-- NRANGE. -/
def Plan.nrange (p : Plan) : Nat := p.num (p.off 5 + 0x10) 4
/-- NTABLE. -/
def Plan.ntable (p : Plan) : Nat := p.num (p.off 5 + 0x14) 4
/-- NMEMBER. -/
def Plan.nmember (p : Plan) : Nat := p.num (p.off 5 + 0x18) 4

/-- The member identifiers. DEDUCED, log entry 60. -/
def Plan.members (p : Plan) : List Nat := (List.range p.nmember).map fun i => p.num (p.off 5 + 0x20 + 2 * i) 2

/-- Offset of the first range entry. -/
def Plan.rangesAt (p : Plan) : Nat := p.off 5 + 0x20 + up16 (2 * p.nmember)

/-- One range: KIND, BASE, PAGES. -/
structure Range_ where
  kind : Nat
  base : Nat
  pages : Nat
  deriving DecidableEq, Repr

/-- The range entries. -/
def Plan.ranges (p : Plan) : List Range_ :=
  (List.range p.nrange).map fun i =>
    let a := p.rangesAt + 16 * i
    { kind := p.num a 4, base := p.num (a + 4) 8, pages := p.num (a + 12) 4 }

/-- One table record: TABLE, DESC, NPLACE and the offset of its placements. -/
structure TableRec where
  table : Nat
  desc : Word
  nplace : Nat
  at_ : Nat
  deriving DecidableEq, Repr

/-- n table records from offset a, and where they end. -/
def Plan.tablesFrom (p : Plan) : Nat → Nat → List TableRec × Nat
  | a, 0 => ([], a)
  | a, n + 1 =>
    let k := p.num (a + 8) 4
    let r := Plan.tablesFrom p (a + 12 + 4 * k) n
    ({ table := p.num a 4, desc := p.word (a + 4), nplace := k, at_ := a + 12 } :: r.1, r.2)

/-- Does the SCRIBE section have room for the counts it names? -/
def Plan.scribeFits (p : Plan) : Bool :=
  decide (0x20 + up16 (2 * p.nmember) + 16 * p.nrange + 12 * p.ntable ≤ p.len 5)

/-- The table records and where they end. -/
def Plan.tablesEnd (p : Plan) : List TableRec × Nat :=
  p.tablesFrom (p.rangesAt + 16 * p.nrange) (if p.scribeFits then p.ntable else 0)

/-- The table records. -/
def Plan.tables (p : Plan) : List TableRec := p.tablesEnd.1

/-- Pages of valid tables. -/
def Plan.pageCount (p : Plan) : Nat :=
  (p.tables.map fun t => if bitAt t.desc 31 then fld t.desc 0 12 + 1 else 0).foldl (· + ·) 0

/-- The descriptor that the plan gives table t; 0 where it gives none. -/
def Plan.tableDesc (p : Plan) (t : Nat) : Word := ((p.tables.find? fun r => decide (r.table = t)).map TableRec.desc).getD 0#32

/-- Do two ranges of device memory meet? -/
def Range_.meets (x y : Range_) : Bool := overlap (x.base, x.base + x.pages * 65536) (y.base, y.base + y.pages * 65536)

/-- No two ranges of a list meet. -/
def apart : List Range_ → Bool
  | [] => true
  | x :: t => (t.all fun y => !x.meets y) && apart t

/-- R369: every address of a range is mapped, and its channel READY: its ends, and both sides of each slot boundary in it. -/
def State.rangeMapped (s : State) (r : Range_) : Bool :=
  let hi := r.base + r.pages * 65536
  decide (hi ≤ 2 ^ 42) && (decide (r.pages = 0) ||
    ((r.base :: (hi - 1) :: (List.range 16).flatMap fun k => [k * 2 ^ 38, (k + 1) * 2 ^ 38 - 1]).all fun a =>
      decide (a < r.base) || decide (hi ≤ a) || (s.ddrErr a).isNone))

/-- Ranges of a kind. -/
def Plan.rangesOf (p : Plan) (k : Nat) : List Range_ := p.ranges.filter fun r => decide (r.kind = k)

/-- R368, R369: the SCRIBE section, tables apart. -/
def Plan.rangesOk (p : Plan) (s : State) : Bool :=
  let b := p.off 5
  let sp := p.span
  p.scribeFits && decide (p.tablesEnd.2 = b + p.len 5) && p.zeroAt (b + 0x1C) 4 &&
    decide (p.word b &&& 0xFFFFFFFE#32 = 0#32) && decide (p.word (b + 4) &&& 0x3F#32 = 0#32) &&
    decide (sp &&& 0x7FC0FFFF#32 = 0#32) && decide (p.nmember = if bitAt sp 31 then fld sp 16 6 + 1 else 0) &&
    (p.members.all fun d => decide (d < 4096)) && (decide (p.nmember = 0) || p.members.contains s.devId) &&
    p.zeroAt (b + 0x20 + 2 * p.nmember) (up16 (2 * p.nmember) - 2 * p.nmember) &&
    (p.ranges.all fun r => decide (1 ≤ r.kind) && decide (r.kind ≤ 5) && decide (r.base % 65536 = 0) && s.rangeMapped r) &&
    apart p.ranges && decide ((p.rangesOf 2).length = 1) && decide ((p.rangesOf 3).length ≤ 1) &&
    decide ((p.rangesOf 4).length ≤ 1) && decide ((p.rangesOf 5).length ≤ 1) &&
    ((p.rangesOf 5).all fun r => decide (r.pages ≤ 262144)) && (decide (p.rangesOf 3 = []) || bitAt sp 31) &&
    ((p.rangesOf 2).all fun r => decide (4 * 2 ^ 20 + 8 * p.pageCount ≤ r.pages * 65536))

/-- R370: the table records, placements apart. DEDUCED, log entry 60. -/
def Plan.tablesOk (p : Plan) : Bool :=
  (p.tables.all fun t => decide (t.table < 2 ^ 20) && decide (policyOf t.desc ≠ 3) && decide (t.desc &&& 0xF000#32 = 0#32) &&
    decide (t.nplace ≤ if bitAt t.desc 31 then fld t.desc 0 12 + 1 else 0)) &&
  decide (p.tables.map TableRec.table).Nodup

/-- R331, R371: the task records, admission apart. `valid` tells, for a bent plan, the tasks that are VALID now.
DEDUCED, log entry 60. -/
def Plan.taskRecsOk (p : Plan) (op : Nat) (valid : Nat → Bool) : Bool :=
  let slot (o : Nat) : Nat := fld (p.taskWord o 0) 16 12
  (p.section_ 6).isNone || (decide (p.len 6 = 16 + 40 * p.ntask) && p.zeroAt (p.off 6 + 4) 12 &&
    (p.taskRecs.all fun o =>
      decide (p.taskOf o < 16384) && decide (p.num (o + 4) 4 < 2) && decide (p.taskWord o 2 &&& 0xFFFF0003#32 = 0#32) &&
        decide (p.taskWord o 3 &&& 3#32 = 0#32) && decide (p.taskWord o 4 &&& 0x70000000#32 = 0#32) &&
        decide (p.taskWord o 5 &&& 0xFFF8000F#32 = 0#32) &&
        (if op = 1 then decide (policyOf (p.taskWord o 0) ≠ 3) else valid (p.taskOf o)) &&
        (!p.places o || decide (p.bents / 2 ^ (fld (p.taskWord o 0) 16 8 / 16) % 2 = 1))) &&
    decide (p.taskRecs.map p.taskOf).Nodup && decide ((p.taskRecs.filter p.places).map slot).Nodup)

end Sys2Proof.Machine
end

