-- ==== Sys2Proof/Machine/Raise.lean ====
section
/-!
DEFINITION. The raising unit (R373–R384): acceptance, the ten steps, commit and entry to RUN, re-raises, failures, and
the boot ROM's ROM_RAISE (R387, R457).

The unit reads the plan from its locked staging banks at every step that needs it.
-/
namespace Sys2Proof.Machine

/-! ## Reading the plan -/

/-- The plan of the raise in progress, as it lies in staging. -/
def State.plan (s : State) : Plan := fun a =>
  (s.bank ((s.rsu.src + a) / 0x40000)).mem.byte ((s.rsu.src + a) % 0x40000)

/-- R376: bytes of the plan are read: whether neither poison nor an error response came. DEDUCED, log entry 61. -/
def State.planRead (s : State) (a n : Nat) : State × Bool :=
  let r := s.parts (fun t x k _ => t.stgRead .raisingUnit x k) (s.rsu.src + a) [] (pieces 0x40000 (s.rsu.src + a) n)
  (r.1, r.2.err.isNone && r.2.bad.isEmpty)

/-- Change the raising unit. -/
def State.onRsu (s : State) (f : Rsu → Rsu) : State := { s with rsu := f s.rsu }

/-- The bent of a re-raise: RSU_TARGET.BENT, or the bent of RSU_TARGET.BAY (R379, R380). -/
def State.raiseBent (s : State) : Nat := if s.rsu.op = 3 then fld s.rsu.target 0 8 / 16 else fld s.rsu.target 8 4

/-- Is bay b present and not retired (R358)? -/
def State.bayLive (s : State) (b : Nat) : Bool := s.bentHere (b / 16) && !s.bg.retired.contains b

/-- The bays of a mask of bents. -/
def maskBays (m : Nat) : List Nat := (List.range 256).filter fun b => decide (m / 2 ^ (b / 16) % 2 = 1)

/-- The bays that the raise works on. -/
def State.raiseTargets (s : State) : List Nat :=
  if s.rsu.op = 1 then maskBays s.rsu.bents
  else if s.rsu.op = 2 then bentBays (fld s.rsu.target 8 4)
  else [fld s.rsu.target 0 8]

/-- R382: is bay b being raised, in steps 5–10? -/
def State.beingRaised (s : State) (b : Nat) : Bool :=
  s.rsu.busy && decide (5 ≤ s.rsu.step) && s.raiseTargets.contains b

/-- RSU_STAT (R383). -/
def State.rsuStat (s : State) : Word :=
  let r := s.rsu
  wd (nbit r.busy * 2 ^ 31 + r.step % 16 * 2 ^ 27 + r.result % 8 * 2 ^ 24 + r.reason % 256 * 2 ^ 16 + nbit r.raised * 2 ^ 15 +
    nbit r.signed * 2 ^ 14 + r.skipped % 256)

/-! ## The end of a raise -/

/-- R375: decrypted payloads are set to zero when the raise ends. -/
def State.wipePlan (s : State) : State :=
  if !s.rsu.plain then s
  else (s.plan.entries.filter fun e => decide (e.typ ≠ 0xFF)).foldl (fun t e =>
    (t.parts (fun u x k _ => u.stgWrite .raisingUnit x (zeros k) []) (s.rsu.src + e.off) (zeros e.len)
      (pieces 0x40000 (s.rsu.src + e.off) e.len)).1) s

/-- A raise ends: result, reason, RSU_TIME and RSU_EVT. -/
def State.raiseEnd (s : State) (result reason : Nat) : State :=
  let s1 := s.wipePlan.onRsu fun r => { r with busy := false, plain := false, quiesce := 0, disturbed := false, placed := [],
                                               result := result, reason := reason }
  (s1.setReg 0x50020 (wd (if s.rsu.elapsed < 2 ^ 32 then s.rsu.elapsed else 2 ^ 32 - 1))).event 0x50014
    (if result = 1 then 0 else 1)

/-- A structural register set whose contents are unspecified: every readable field is a free value. DEDUCED, log entry
61. -/
def Struct.scrambled (x : Struct) (gen : Nat) : Struct :=
  let w (i : Nat) : Word := Config.freeWord 301 (gen * 64 + i)
  let tab (mask : Word) (o : Nat) : Tab Word := ((List.range 15).map fun n => (n + 1, w (o + n) &&& mask)).filter fun e =>
    decide (e.2 ≠ 0#32)
  { x with sel := fld (w 0) 0 2, count := fld (w 1) 0 2, lsufl := w 2 &&& 0xF#32, frames := fld (w 3) 0 3,
           winA := tab 0xE3000FFF#32 8, winB := tab 0x000FFFFF#32 24, stored := [] }

/-- R376: instruction store and structural registers of a bay are unspecified after a failed raise. DEDUCED, log entry
61. -/
def State.loseBay (s : State) (b : Nat) : State :=
  let g := s.newGen
  g.1.onBay b fun x => { x with id := b, istore := Mem.scrambled g.2, imarks := [], str := x.str.scrambled g.2 }

/-- R376: the queue descriptors are unspecified after a failed full raise. DEDUCED, log entry 61. -/
def State.loseQueues (s : State) : State :=
  let g := s.newGen
  let d (q n : Nat) : Word := Config.freeWord (302 + g.2) (4 * q + n) &&& wd (descMask n)
  let qs : Tab Queue := (List.range 65536).map fun q => (q, { w0 := d q 0, w1 := d q 1, w2 := d q 2, w3 := d q 3 })
  { g.1 with qm := { g.1.qm with queues := qs.filter fun e => decide (e.2 ≠ {}) } }

/-- R379: a task placed at step 9 is unplaced again, with its queues FROZEN. -/
def State.unplaceAgain (s : State) (t : Nat) : State := (s.freeze t).1.leaveSlot t

/-- R379: the bays of a re-raised bent leave the reset that the raising unit holds: into PLAN. -/
def State.bentFree (s : State) (n : Nat) : State :=
  (bentBays n).foldl State.bayRelease { s with rst := { s.rst with raiseHold := s.rst.raiseHold &&& (0xFFFF ^^^ 2 ^ n) } }

/-- R376, R379: a raise fails at its current step. DEDUCED, log entry 61. -/
def State.raiseFail (s : State) (reason : Nat) : State :=
  let bs := s.raiseTargets
  let s1 :=
    if s.rsu.op = 2 && decide (s.rsu.step = 5) then
      let t := { s with scr := { s.scr with evac := s.scr.evac.filter fun e => decide (e.owner ≠ 2) } }
      if s.rsu.quiesce = 4 then t.bentFree s.raiseBent else t
    else s
  if s.rsu.step < 6 then s1.raiseEnd 2 reason
  else
    let live := bs.filter s1.bayLive
    let s2 := live.foldl State.loseBay s1
    if s.rsu.op = 1 then
      ({ s2.loseQueues with scr := { s2.loseQueues.scr with lost := true } }).raiseEnd 2 reason
    else
      let s3 := s.rsu.placed.foldl State.unplaceAgain s2
      (bs.foldl (fun t b => t.setReg (0x40400 + 4 * b) 0#32) s3).raiseEnd 2 reason

/-- The raise goes on with a step. -/
def State.raiseTo (s : State) (n : Nat) : State := s.onRsu fun r => { r with step := n }

/-! ## Commands (R375, R382) -/

/-- R375: is the command accepted? -/
def State.raiseOk (s : State) (op : Nat) : Bool :=
  if op = 1 then !s.rsu.raised
  else
    let b := fld (s.reg 0x50008) 0 8
    s.rsu.raised && (decide (op = 2) || (s.bayLive b && decide ((s.bay b).state = 1)))

/-- R375, R382, R383: a write to RSU_CMD. DEDUCED, log entry 61. -/
def State.rsuCmd (s : State) (op : Nat) : State :=
  if !s.stgOn then s
  else if op = 4 then
    if !s.rsu.busy then s else if s.rsu.step ≤ 4 then s.raiseEnd 4 0 else s.event 0x50014 2
  else if s.rsu.busy then s.event 0x50014 2
  else if op = 0 ∨ 4 < op then s
  else if !s.raiseOk op then
    (s.onRsu fun r => { r with result := 3, reason := 0x24, step := 0 }).event 0x50014 1
  else
    s.onRsu fun r => { r with
      busy := true, step := 1, result := 0, reason := 0, skipped := 0, op := op, src := (s.reg 0x50000).toNat,
      len := (s.reg 0x50004).toNat, target := s.reg 0x50008, bents := 0, elapsed := 0, plain := false, quiesce := 0,
      disturbed := false, placed := [] }

/-! ## Step 1: FETCH -/

/-- R376: the bents named are present and on and, for a full raise, wholly in PLAN. -/
def State.bentsReady (s : State) (m : Nat) (plan : Bool) : Bool :=
  ((List.range 16).all fun n => decide (m / 2 ^ n % 2 = 0) || (s.bentHere n && s.on n)) &&
    (!plan || (maskBays m).all fun b => !s.bayLive b || decide ((s.bay b).state = 1))

/-- The gaps between payloads, as offset and length. -/
def gapsFrom : Nat → List Section_ → List (Nat × Nat)
  | _, [] => []
  | a, e :: t => (a, e.off - a) :: gapsFrom (e.off + e.len) t

/-- R354–R357, R376: step 1. -/
def State.raiseFetch (s : State) : State :=
  let r := s.planRead 0 64
  let p := s.plan
  if !r.2 then r.1.raiseFail 0xD
  else
    let h := p.headerReason s.rsu.op s.rsu.len s.hw.part s.raiseBent
    if h ≠ 0 then r.1.raiseFail h
    else if p.nsect < 3 ∨ 8 < p.nsect then r.1.raiseFail 6
    else
      let r1 := r.1.planRead 64 (16 * p.nsect)
      let d := p.directoryReason s.rsu.op
      if !r1.2 then r1.1.raiseFail 0xD
      else if d = 6 then r1.1.raiseFail 6
      else
        let r2 := (gapsFrom (64 + 16 * p.nsect) p.entries).foldl (fun (x : State × Bool) g =>
          let y := x.1.planRead g.1 g.2
          (y.1, x.2 && y.2)) (r1.1, true)
        if d ≠ 0 then r2.1.raiseFail d
        else if !r2.2 then r2.1.raiseFail 0xD
        else if !r2.1.bentsReady p.bents (decide (s.rsu.op = 1)) then r2.1.raiseFail 5
        else (r2.1.onRsu fun u => { u with bents := p.bents }).raiseTo 2

/-! ## Steps 2 and 3: AUTH, DECRYPT -/

/-- R373, R374: the reason that authentication gives. DEDUCED, log entry 59. -/
def State.authReason (s : State) (p : Plan) : Nat :=
  let o := p.off 0xFF
  let slot := p.num o 1
  let alg := p.num (o + 1) 1
  firstReason [
    (decide (alg ≠ 0) || !s.sec.approved, 8),
    (decide (alg < 2) && p.zeroAt (o + 2) 14, 0xA),
    (decide (alg = 0) || s.sec.slotHolds slot 2, 9),
    (decide (alg = 0) || Config.ecdsaOk (s.sec.slotKey slot) (p.bytes 0 (o + 0x10)) (p.bytes (o + 0x10) 96), 0xA),
    (decide ((s.sec.floor 1).toNat ≤ p.seqno.toNat), 0xB)]

/-- R373, R374, R376: step 2. -/
def State.raiseAuth (s : State) : State :=
  let p := s.plan
  let r := s.planRead 0 p.total
  if !r.2 then r.1.raiseFail 0xD
  else if !p.crcsOk then r.1.raiseFail 7
  else
    let a := s.authReason p
    if a ≠ 0 then r.1.raiseFail a else r.1.raiseTo (if p.enc then 3 else 4)

/-- Payloads that are encrypted: every section but SIGNATURE (R373). -/
def Plan.payloads (p : Plan) : List Section_ := p.entries.filter fun e => decide (e.typ ≠ 0xFF)

/-- Bytes put in place of the payloads, in directory order. -/
def State.putPayloads (s : State) : List Byte → List Section_ → State
  | _, [] => s
  | d, e :: t =>
    State.putPayloads (s.parts (fun u x _ b => u.stgWrite .raisingUnit x b []) (s.rsu.src + e.off) (d.take e.len)
      (pieces 0x40000 (s.rsu.src + e.off) e.len)).1 (d.drop e.len) t

/-- R373–R376: step 3: the plan is decrypted in place. DEDUCED, log entry 60. -/
def State.raiseDecrypt (s : State) : State :=
  let p := s.plan
  let r := s.planRead 0 p.total
  if !r.2 then r.1.raiseFail 0xD
  else
    let c := p.payloads.flatMap fun e => p.bytes e.off e.len
    let iv := p.bytes 0x20 12
    let aad := p.bytes 0 0x30 ++ p.bytes 64 (16 * p.nsect)
    match s.sec.planKey with
    | none => r.1.raiseFail 0xC
    | some k =>
      if p.bytes 0x30 16 ≠ firstBytes 16 (Config.gcmTagByte k iv aad c) then r.1.raiseFail 0xC
      else ((r.1.putPayloads (firstBytes c.length (Config.gcmByte false k iv aad c)) p.payloads).onRsu fun u =>
        { u with plain := true }).raiseTo 4

/-! ## What steps 6–9 write -/

/-- R359, R361, R371, R376: step 6 for one bay. -/
def State.loadBay (s : State) (p : Plan) (b : Nat) : State :=
  let i := p.assign b
  if i = 0xFF then s.setReg (0x40400 + 4 * b) 0#32
  else
    let o := p.records.getD i 0
    (s.onBay b fun x => { x with id := b, istore := p.image o, imarks := [], str := p.struct o, oldWords := [],
                                 ctx := { x.ctx with vbase := p.num (o + 0xC) 1 },
                                 qio := { x.qio with slots := [] } }).setReg (0x40400 + 4 * b) (p.sig o)

/-- R366, R376: step 7: bank owners; contents stay. -/
def State.loadBanks (s : State) (p : Plan) : State :=
  (List.range 192).foldl (fun t n =>
    let k := p.bank n
    t.setBank n { t.bank n with kind := k.1, ownKind := k.1, bay := if k.1 = 3 then k.2 else 0,
                                ownBay := if k.1 = 3 then k.2 else 0, pending := false }) s

/-- Does the plan place task t (R367)? -/
def Plan.placesTask (p : Plan) (t : Nat) : Bool := p.taskRecs.any fun o => decide (p.taskOf o = t) && p.places o

/-- R366, R367, R369: step 8: the queue table, pool shares and the overflow area; queues without an entry are DISABLED. -/
def State.loadQueues (s : State) (p : Plan) : State :=
  let put (t : Tab Queue) (i : Nat) : Tab Queue :=
    let q := p.desc i
    tsetD {} t (p.descQueue i) (if q.bind = 1 ∧ q.state = 1 ∧ p.placesTask q.target = false then q.setState 2 else q)
  { s with qm := { s.qm with
      queues := (List.range p.ndesc).foldl put [],
      transit := [], pend := [], pegPend := 0, used := [], ovf := 0,
      cap := (List.range 16).map fun a => (a, 4096 * p.qmBanks a),
      ovfSize := ((p.rangesOf 4).map Range_.pages).foldl (· + ·) 0 * 1024 } }

/-- A range as first page and number of pages. -/
def Range_.pair (r : Range_) : Nat × Nat := (r.base / 65536, r.pages)

/-- R368–R370: the scribe's registers, ranges and table descriptors. -/
def State.loadTables (s : State) (p : Plan) : State :=
  let b := p.off 5
  let one (k : Nat) : Nat × Nat := ((p.rangesOf k).head?.map Range_.pair).getD (0, 0)
  let s1 := ((((s.setReg 0x40000 (p.word b)).setReg 0x40004 (p.word (b + 4))).setReg 0x40008 (p.word (b + 8))).setReg 0x400D0
    p.span).setReg 0x400D4 (wd (one 3).2)
  { s1 with scr := {
      tables := p.tables.foldl (fun t r => tsetD 0#32 t r.table r.desc) [],
      ranges := (p.rangesOf 1).map Range_.pair, guestRange := one 3, hostRange := one 5, members := p.members,
      tres := s.scr.tres, pres := s.scr.pres, evRes := s.scr.evRes, evReason := s.scr.evReason, relRes := s.scr.relRes,
      logHead := s.scr.logHead, us := s.scr.us, outer := s.scr.outer } }

/-- R370: the listed pages of a table take their places; with `check`, only where R332 permits. -/
def State.loadListed (s : State) (p : Plan) (check : Bool) : Option State :=
  p.tables.foldl (fun o r => (List.range r.nplace).foldl (fun (x : Option State) i =>
    x.bind fun t =>
      let w := p.word (r.at_ + 4 * i)
      if !check || (decide (w &&& 0x3C000000#32 = 0#32) && decide (tierOf w ≠ 3) && t.placeOk r.table w) then
        some (t.setPage (pageKey r.table i) { live := true, w0 := w })
      else none) o) (some s)

/-- R337, R370: the unlisted pages of valid tables go to L2. DEDUCED, log entry 44. -/
def State.loadUnlisted (s : State) (p : Plan) : Option State :=
  p.tables.foldl (fun o r =>
    let n := if bitAt r.desc 31 then fld r.desc 0 12 + 1 else 0
    (List.range (n - r.nplace)).foldl (fun (x : Option State) i => x.bind fun t =>
      (t.pickIn r.table 2).map fun w => t.setPage (pageKey r.table (r.nplace + i)) { live := true, w0 := w }) o) (some s)

/-- R368–R370: the scribe's records of a full plan; none where a page has no place. -/
def State.loadScribe (s : State) (p : Plan) (check : Bool) : Option State :=
  ((s.loadTables p).loadListed p check).bind fun t => t.loadUnlisted p

/-- Words 1–6 of a task record go to the descriptor, with word 0 as given; BUSY starts at 0. -/
def State.loadTask (s : State) (p : Plan) (o : Nat) (w0 : Word) : State :=
  let t := p.taskOf o
  ([1, 2, 3, 4, 5, 6].foldl (fun x n => x.setTaskWord t n (p.taskWord o n)) (s.setTaskWord t 0 (w0 &&& 0xE000FFFF#32)))

/-- BAY and SLOT of a task record. -/
def Plan.taskPlace (p : Plan) (o : Nat) : Nat × Nat := (fld (p.taskWord o 0) 16 8, fld (p.taskWord o 0) 24 4)

/-- R371: the task records of a full plan. -/
def State.loadTasks (s : State) (p : Plan) : State :=
  p.taskRecs.foldl (fun t o =>
    let x := (t.loadTask p o (p.taskWord o 0)).setTaskWord (p.taskOf o) 7 0#32
    if p.places o then x.enterSlot (p.taskOf o) (p.taskPlace o).1 (p.taskPlace o).2 else x) s

/-- R371, R379, R380: the task records of a bent plan; a task that is PLACED is skipped. -/
def State.reloadTasks (s : State) (p : Plan) : State :=
  p.taskRecs.foldl (fun t o =>
    let k := p.taskOf o
    let pl := p.taskPlace o
    if s.rsu.op = 3 && !(p.places o && decide (pl.1 = fld s.rsu.target 0 8)) then t
    else if !t.taskValid k then t
    else if t.taskPlaced k then t.onRsu fun r => { r with skipped := satAdd 255 r.skipped 1 }
    else
      let x := t.loadTask p o (t.taskWord k 0)
      if p.places o then
        ((x.enterSlot k pl.1 pl.2).thaw (x.boundTo k)).onRsu fun r => { r with placed := r.placed ++ [k] }
      else x) s

/-! ## Step 4: VALIDATE -/

/-- What the device would look like with the plan's bays in RUN, its banks owned and its records loaded, against which
placements and admissions are judged (R370, R371). DEDUCED, log entry 60. -/
def State.trial (s : State) (p : Plan) : Option State :=
  let bs := (maskBays p.bents).filter s.bayLive
  let clean : State := { s with rsu := {}, scr := { s.scr with
    evac := none, moves := [], taskMoves := [], decided := [], decidedTasks := [], rel := none } }
  let s0 := (bs.flatMap clean.tasksOn).foldl (fun t k => t.setTaskWord k 0 (t.taskWord k 0 &&& 0xE000FFFF#32)) clean
  let s1 := bs.foldl (fun t b =>
    let x := t.loadBay p b
    if p.assign b = 0xFF then x else x.onBay b fun y => { y with state := 3, ctx := { y.ctx with sregBase := 0, sregLimit := 0 } }) s0
  if s.rsu.op = 1 then (s1.loadBanks p).loadScribe p true else some s1

/-- R334, R371: one task record judged against what is there. -/
def State.trialTask (full : Bool) (p : Plan) (x : Option State) (o : Nat) : Option State :=
  x.bind fun s =>
    let t := p.taskOf o
    let b := (p.taskPlace o).1
    let w0 := if full then p.taskWord o 0 else s.taskWord t 0
    let s1 := s.loadTask p o w0
    if !p.places o then some s1
    else if bitAt w0 31 && s1.fitsBay t b then
      some (s1.setTaskWord t 0 ((w0 &&& 0xE000FFFF#32) ||| wd (2 ^ 28 + (p.taskPlace o).2 * 2 ^ 24 + b * 2 ^ 16)))
    else none

/-- R358–R372: the reason that step 4 gives, in the order of the codes. DEDUCED, log entry 59. -/
def State.planReason (s : State) (p : Plan) : Nat :=
  let op := s.rsu.op
  let fullPlan := decide (op = 1)
  let desc := if fullPlan then p.tableDesc else s.table
  let x := s.trial p
  firstReason [
    (p.bayplanOk s.hw.full s.bayLive, 0x10),
    (p.sockmapOk, 0x11),
    (p.records.all (p.windowsOk desc), 0x12),
    (p.imagesOk, 0x13),
    (!fullPlan || p.routesOk, 0x14),
    (!fullPlan || p.banksOk s.bayLive s.planLocks, 0x15),
    (!fullPlan || p.queuesOk s.hw.full, 0x16),
    (!fullPlan || p.rangesOk s, 0x17),
    (!fullPlan || (p.tablesOk && x.isSome), 0x18),
    (p.taskRecsOk op s.taskValid && (p.taskRecs.foldl (State.trialTask fullPlan p) x).isSome, 0x19),
    (p.pegmapOk s, 0x1A)]

/-- R382: step 5 of a REBENT begins: SCR_EVAC is written, and the evacuation waited for. -/
def State.quiesceStart (s : State) : State :=
  let k := s.raiseBent
  let drop := bitAt s.rsu.target 16
  let s1 := s.setReg 0x400A0 (wd (nbit drop * 2 ^ 30 + 2 ^ k))
  if s1.scr.evac.isSome then (s1.evacStart [] drop false 2 0).raiseFail 0x20
  else (s1.evacStart (bentBays k) drop false 2 (2 ^ k)).onRsu fun r => { r with quiesce := 1 }

/-- R358–R372, R376: step 4. -/
def State.raiseValidate (s : State) : State :=
  let p := s.plan
  let r := s.planRead 0 p.total
  if !r.2 then r.1.raiseFail 0xD
  else
    let n := r.1.planReason p
    if n ≠ 0 then r.1.raiseFail n
    else
      let t := r.1.raiseTo 5
      if s.rsu.op = 2 then t.quiesceStart else t

/-! ## Step 5: QUIESCE -/

/-- R376: every channel that a range lies in is READY. DEDUCED, log entry 60. -/
def State.channelsReady (s : State) (p : Plan) : Bool :=
  p.ranges.all fun r => decide (r.pages = 0) || (List.range 8).all fun c =>
    !overlap (r.base, r.base + r.pages * 65536) (c * 2 ^ 39, (c + 1) * 2 ^ 39) || decide ((s.chan c).state = 2)

/-- R376, R379, R380: step 5. -/
def State.raiseQuiesce (s : State) : State :=
  if s.rsu.op = 1 then
    if !s.bentsReady s.rsu.bents true then s.raiseFail 5
    else if !s.channelsReady s.plan then s.raiseFail 0x17
    else s.raiseTo 6
  else if s.rsu.op = 3 then
    if s.raiseTargets.all fun b => s.bayLive b && decide ((s.bay b).state = 1) then s.raiseTo 6 else s.raiseFail 5
  else if s.rsu.quiesce = 4 then (s.bentFree s.raiseBent).raiseTo 6
  else s

/-- R379: the evacuation of a re-raise has ended: the bent is reset and held, or the raise fails. -/
def State.quiesceGo (s : State) : State :=
  if !s.rsu.busy || decide (s.rsu.step ≠ 5) then s
  else if s.rsu.quiesce = 3 then s.raiseFail 0x20
  else if s.rsu.quiesce = 2 then
    let k := s.raiseBent
    let s1 := (s.bentWake k).bentReset k true
    let s2 := (bentBays k).foldl (fun t b => t.setReg (0x40400 + 4 * b) 0#32) s1
    { s2 with rst := { s2.rst with raiseHold := s2.rst.raiseHold ||| 2 ^ k },
              rsu := { s2.rsu with quiesce := 4 } }
  else s

/-! ## Steps 6–10 -/

/-- R376: what steps 6–9 of a full raise meet first: the plan must be readable and the channels READY. -/
def State.withPlan (s : State) (go : State → Plan → State) : State :=
  let p := s.plan
  let r := s.planRead 0 p.total
  if !r.2 then r.1.raiseFail 0xD
  else if s.rsu.op = 1 && !s.channelsReady p then r.1.raiseFail 0x17
  else go r.1 p

/-- Step 6. DEDUCED, log entry 62. -/
def State.raiseBays (s : State) : State :=
  s.withPlan fun t p =>
    ((t.raiseTargets.filter t.bayLive).foldl (fun x b => x.loadBay p b) t).raiseTo (if s.rsu.op = 1 then 7 else 9)

/-- Step 7. -/
def State.raiseFabric (s : State) : State :=
  s.withPlan fun t p => ((t.onRsu fun r => { r with routes := p.bytes (p.off 3) 96 }).loadBanks p).raiseTo 8

/-- Step 8. -/
def State.raiseQueues (s : State) : State := s.withPlan fun t p => (t.loadQueues p).raiseTo 9

/-- Step 9. -/
def State.raiseScribe (s : State) : State :=
  s.withPlan fun t p =>
    if s.rsu.op = 1 then
      match t.loadScribe p false with
      | some x => (x.loadTasks p).raiseTo 10
      | none => t.raiseFail 0x17
    else (t.reloadTasks p).raiseTo 10

/-- R372, R377: the peg group map is replaced in one step; shadows of registers whose group differs are discarded. -/
def RegFile.regroup (r : RegFile) (pegs : List (Nat × Nat)) : RegFile :=
  let g : Tab Nat := pegs.foldl (fun t e => tsetD 0 t e.1 e.2) []
  { r with groups := g, shadow := r.shadow.filter fun e => decide (tgetD 0 g e.1 = r.group e.1) }

/-- R376, R377, R383: step 10. -/
def State.raiseCommit (s : State) : State :=
  let p := s.plan
  let op := s.rsu.op
  let s1 := if op = 1 || (p.section_ 7).isSome then { s with regs := s.regs.regroup p.pegs } else s
  let s2 := if op = 1 then
      { (s1.setReg 0x50018 p.id).setCount 0x40010 0 with
        qm := { s1.qm with us := 0 }, scr := { s1.scr with us := 0 } }
    else s1
  let s3 := if op = 3 then s2
    else (List.range 16).foldl (fun t n => if s.rsu.bents / 2 ^ n % 2 = 1 then t.setReg (0x50040 + 4 * n) p.id else t) s2
  let s4 := s3.setReg 0x5001C p.seqno
  let bs := (s.raiseTargets.filter s.bayLive).filter fun b => decide (p.assign b ≠ 0xFF)
  (s4.onRsu fun r => { r with raised := true, signed := decide (p.num (p.off 0xFF + 1) 1 = 1),
                              starting := r.starting ++ bs }).raiseEnd 1 0

/-- R376: RAISE_STEP_COMPLETE: the step in progress has done its work, in `us` microseconds. -/
def State.raiseStep (s : State) (us : Nat) : State :=
  if !s.rsu.busy then s
  else
    let t := s.onRsu fun r => { r with elapsed := r.elapsed + us }
    if t.rsu.op ≠ 1 ∧ t.rsu.disturbed then t.raiseFail 0x22
    else match t.rsu.step with
      | 1 => t.raiseFetch
      | 2 => t.raiseAuth
      | 3 => t.raiseDecrypt
      | 4 => t.raiseValidate
      | 5 => t.raiseQuiesce
      | 6 => t.raiseBays
      | 7 => t.raiseFabric
      | 8 => t.raiseQueues
      | 9 => t.raiseScribe
      | 10 => t.raiseCommit
      | _ => t

/-- R382: a zeroisation ends a raise at once. -/
def State.raiseZeroised (s : State) : State := if s.rsu.busy && s.sec.zeroing then s.raiseFail 0x23 else s

/-! ## Entry to RUN (R204, R378) -/

/-- R204, R228, R378: a raised bay starts: what no part of its context is zero too (R75, R156, R170, R191, R228). A
throttle period of its bent goes on. DEDUCED, log entry 62. -/
def Bay.enterRun (b : Bay) : Bay :=
  let c := b.startContext
  { c with
    state := 3, ports := [], crcs := [], tmr := {}, led := {},
    scratch := b.scratch.zero fcBase 0x40, smarks := tclear b.smarks (fcBase / 4) 16,
    str := { b.str with sel := 0, stored := [], own := [] } }

/-- R378: BAY_ENTER_RUN. DEDUCED, log entry 62. -/
def State.bayEnterRun (s : State) (b : Nat) : State :=
  if !s.rsu.starting.contains b then s
  else
    let t := s.onRsu fun r => { r with starting := r.starting.filter fun k => decide (k ≠ b) }
    if (t.bay b).state = 1 ∧ (t.bay b).retired = false then t.onBay b fun x => { x with id := b }.enterRun else t

/-! ## ROM_RAISE (R387, R457) -/

/-- A slot's STATE is programmed. DEDUCED, log entry 62. -/
def State.slotMark (s : State) (i v : Nat) : State := s.flashProgram (slotBase i + 0x14) [BitVec.ofNat 8 v]

/-- R387: the candidates, newest first. -/
def State.romCandidates (s : State) : List Nat :=
  let c := [0, 1].filter fun i => s.slotSound i && (decide (s.slotState i = 0x7F) || decide (s.slotState i = 0x1F))
  if c = [0, 1] ∧ 2 ^ 31 ≤ (s.flashWord (slotBase 0 + 4) - s.flashWord (slotBase 1 + 4)).toNat then [1, 0] else c

/-- R457: the routine returns with GP1 = RSU_STAT. -/
def State.romReturn (s : State) : State :=
  (s.onRsu fun r => { r with rom := none }).onBay 256 fun b => b.setGpr 1 s.rsuStat

/-- R387: one candidate after another, until a raise begins; with none left MX_BOOT.FAIL is written. -/
def State.romTry (s : State) : List Nat → State
  | [] => s.failIfStarting.romReturn
  | i :: t =>
    if !s.slotGood i then State.romTry (s.slotMark i 0x0F) t
    else
      let s1 := if s.slotState i = 0x7F then s.slotMark i 0x3F else s
      let n := (s.flashWord (slotBase i + 8)).toNat
      let a := s.rsu.romAddr
      let s2 := (s1.parts (fun u x _ d => u.stgWrite .sill x d []) a (s.mx.flash.bytes (slotBase i + 4096) n)
        (pieces 0x40000 a n)).1
      let s3 := ((s2.setReg 0x50000 (wd a &&& 0x03FFFFF0#32)).setReg 0x50004 (wd n &&& 0x01FFFFFF#32)).rsuCmd 1
      if s3.rsu.busy then s3.onRsu fun r => { r with rom := some (i :: t) } else State.romTry (s3.slotMark i 0x0F) t

/-- R387: a raise of ROM_RAISE has ended. -/
def State.romNext (s : State) : State :=
  match s.rsu.rom with
  | some (i :: t) =>
    if s.rsu.busy then s
    else if s.rsu.result = 1 then s.romReturn
    else (s.slotMark i 0x0F).romTry t
  | some [] => s.romReturn
  | none => s

/-- R387, R457: ROM_RAISE, with the staging address in GP1. DEDUCED, log entry 62. -/
def State.romRaise (s : State) (addr : Nat) : State :=
  if !s.stgOn || s.rsu.busy || s.rsu.rom.isSome then s
  else
    let s1 := [0, 1].foldl (fun t i => if t.slotSound i && decide (t.slotState i = 0x3F) then t.slotMark i 0x0F else t) s
    (s1.onRsu fun r => { r with romAddr := addr, rom := some [] }).romTry s1.romCandidates

end Sys2Proof.Machine
end

