-- ==== Sys2Proof/Machine/Boot.lean ====
section
/-!
DEFINITION. The steps of the boot ROM (R443, R454–R456, R459): the manual gives what each does and not the ROM's code. A
step runs when what it waits for has happened: the fuse load it starts, the self-tests of the security module. DEDUCED, log
entry 70.
-/
namespace Sys2Proof.Machine

/-- R456: STAGE is written as a step begins. -/
def State.bootStage (s : State) (stage : Nat) : State := s.mxBoot .sill (wd (stage * 256))

/-- The ROM has gone as far as `b`. -/
def State.bootAt (s : State) (b : Boot) : State := { s with mx := { s.mx with boot := b } }

/-- R456: a failed start: STAGE with bit 7, MX_BOOT.FAIL, and WAIT. -/
def State.bootFails (s : State) : State :=
  let stage := fld (s.reg 0xA0104) 8 7
  ((s.mxBoot .sill (wd ((stage + 128) * 256 + 2))).bootAt .over).onBay 256 fun b =>
    { b with pipe := { b.pipe with waiting := true } }

/-! ## FLASH (R443) -/

/-- The divider of SCK for the highest rate at or below `mhz` and 200 MHz (R463). -/
def sckDiv (mhz : Nat) : Nat := ceilDiv 200 (min mhz 200)

/-- R443: the port starts in 1S-1S-1S at 25 MHz, and goes to 8D-8D-8D at the highest rate allowed where SFDP has a Profile 1.0
table. The opcode and dummy cycles of mapped reads are then those of the device's tables, which the manual does not give:
free values. DESIGN CHOICE, log entry 70. -/
def State.bootPort (s : State) (mhz : Nat) : State :=
  let s1 := s.setReg 0x48000000 0x00080C08#32
  if mhz = 0 then s1
  else
    let d := s1.draw
    d.1.setReg 0x48000000 (putFld (d.2 &&& 0x001FFF00#32) 0 8 (0x80 + sckDiv mhz))

/-! ## FWLOAD (R455, R456) -/

/-- Flash offset of firmware slot FA or FB (R454). -/
def fwBase (i : Nat) : Nat := 0x80000 * i

/-- LEN of a firmware slot. -/
def State.fwLen (s : State) (i : Nat) : Nat := (s.flashWord (fwBase i + 8)).toNat

/-- ENTRY. -/
def State.fwEntry (s : State) (i : Nat) : Nat := (s.flashWord (fwBase i + 0xC)).toNat

/-- R455, R456: do the MAGIC and RCRC of a firmware slot hold? -/
def State.fwSound (s : State) (i : Nat) : Bool :=
  decide (s.mx.flash.bytes (fwBase i) 4 = [0x53#8, 0x4B#8, 0x4D#8, 0x46#8]) &&
    decide (crc32c (s.mx.flash.bytes (fwBase i) 16) = s.flashWord (fwBase i + 0x10))

/-- R455: are LEN and ENTRY what a header may hold? -/
def State.fwFits (s : State) (i : Nat) : Bool :=
  decide (s.fwLen i % 16 = 0) && decide (s.fwLen i ≤ 0x78000) && decide (s.fwEntry i % 4 = 0)

/-- R455, R373: the signature block authenticates the slot: by a firmware key for ALG = 1; ALG = 0 counts outside approved
mode alone; ALG from 2 to 255 never does. DEDUCED, log entry 70. -/
def State.fwSigned (s : State) (i : Nat) : Bool :=
  let o := fwBase i + 0x40 + s.fwLen i
  let slot := (s.mx.flash.byte o).toNat
  let alg := (s.mx.flash.byte (o + 1)).toNat
  (s.mx.flash.bytes (o + 2) 14).all (fun b => decide (b = 0#8)) &&
    ((decide (alg = 0) && !s.sec.approved) ||
      (decide (alg = 1) && s.sec.slotHolds slot 1 &&
        Config.ecdsaOk (s.sec.slotKey slot) (s.mx.flash.bytes (fwBase i) (0x40 + s.fwLen i + 0x10))
          (s.mx.flash.bytes (o + 0x10) 96)))

/-- R455: SEQNO is not below the firmware rollback floor. -/
def State.fwFloor (s : State) (i : Nat) : Bool := decide ((s.sec.floor 0).toNat ≤ (s.flashWord (fwBase i + 4)).toNat)

/-- R456: the sound slots in descending SEQNO, FA first on a tie. -/
def State.fwSlots (s : State) : List Nat :=
  let l := [0, 1].filter s.fwSound
  if l = [0, 1] ∧ (s.flashWord (fwBase 0 + 4)).toNat < (s.flashWord (fwBase 1 + 4)).toNat then [1, 0] else l

/-- R455: the image is copied to 0x2000_0000. -/
def State.fwCopy (s : State) (i : Nat) : State :=
  s.onBay 256 fun b => { b with
    scratch := b.scratch.putBytes 0 (s.mx.flash.bytes (fwBase i + 0x40) (s.fwLen i)),
    smarks := tclear b.smarks 0 (s.fwLen i / 4) }

/-- R456: START: REMAP, and the jump to the image. What the ROM leaves in the registers and in its data area is unspecified.
DESIGN CHOICE, log entry 70. -/
def State.fwStart (s : State) (i : Nat) : State :=
  let s1 := ((s.bootStage 5).mxCtl .sill 1#32).bootAt .over
  let g := s1.newGen
  let d := g.1.drawWords 64
  d.1.onBay 256 fun b =>
    let b1 := (b.redirectTo (0x20000000 + s.fwEntry i) 0 0)
    (List.range 64).foldl (fun c r => c.setGpr r (d.2.getD r 0#32))
      { b1 with scratch := b1.scratch.splice 0x78000 0x8000 (memDefault (g.2 + 1)), smarks := tclear b1.smarks 0x1E000 0x2000 }

/-- R456: one slot after another; with none left the start fails. -/
def State.fwTry (s : State) : List Nat → State
  | [] => s.bootFails
  | i :: t =>
    if !s.fwFits i then State.fwTry s t
    else
      let s1 := s.fwCopy i
      if s1.fwSigned i && s1.fwFloor i then s1.fwStart i else State.fwTry s1 t

/-! ## The steps in order -/

/-- R443, R456, R459: FLASH, then FWLOAD and START, or in shoring mode the mailbox alone. -/
def State.bootFlash (s : State) : State :=
  let s1 := s.bootStage 3
  match s1.hw.sfdp with
  | none => s1.bootFails
  | some mhz =>
    let s2 := s1.bootPort mhz
    if s2.rst.shored then (s2.bootStage 0x7F).bootAt .over
    else (s2.bootStage 4).fwTry (s2.bootStage 4).fwSlots

/-- R456, R490: the SELFTEST step goes on once the security module has left SELFTEST. -/
def State.bootTested (s : State) : State :=
  if s.mx.boot ≠ .selftest ∨ s.sec.state = 0 then s
  else if s.sec.state = 1 then s.bootFlash
  else s.bootFails

/-- R456, R459, R473: the TRIM step goes on with valid trims, or in shoring mode with the safe default trims; the third load
that fails ends the start. -/
def State.bootTrimmed (s : State) : State :=
  if s.mx.boot ≠ .trim then s
  else if s.rst.trimValid || s.rst.shored then ((s.bootStage 2).bootAt .selftest).bootTested
  else if s.rst.trimFails = 3 ∧ !s.rst.loading then s.bootFails
  else s

/-- R456: the ROM's first step begins with its write of TRIM_CTL.START, or in shoring mode as the sill core is released. -/
def State.bootBegins (s : State) : State :=
  if s.mx.boot ≠ .reset ∨ 4 ≤ s.rst.reach ∨ !(s.rst.loading || s.rst.shored) then s else ((s.bootStage 1).bootAt .trim).bootTrimmed

end Sys2Proof.Machine
end

