-- ==== Sys2Proof/Machine/ScribeCmd.lean ====
section
/-!
DEFINITION. The scribe's command registers (R344, R346, R350–R352): what a write to each command register does, and the
scribe's registers as read.
-/
namespace Sys2Proof.Machine

/-- Does the scribe take writes: PD_STG is on, no shoring mode, and no full raise is in steps 5–10 (R351, R382)? -/
def State.scribeOpen (s : State) : Bool := s.stgOn && !s.raiseLocks

/-- A task command may begin. -/
def State.tOpen (s : State) : Bool := s.scribeOpen && !s.scr.tbusy

/-- A page command may begin. -/
def State.pOpen (s : State) : Bool := s.scribeOpen && !s.scr.pbusy

/-- SCR_TSEL.TASK. -/
def State.tsel (s : State) : Nat := fld (s.reg 0x40040) 0 14

/-- SCR_TDEST.BAY. -/
def State.tdest (s : State) : Nat := fld (s.reg 0x40064) 0 8

/-- SCR_PSEL: the table and the page key that it names. -/
def State.psel (s : State) : Nat := (s.reg 0x40080).toNat

/-! ## Task commands (R351) -/

/-- A word of the scribe's records: unspecified after a failed full raise (R376). -/
def State.recordWord (s : State) (w : Word) : State × Word := if s.scr.lost then s.draw else (s, w)

/-- TCMD READ. DEDUCED, log entry 43. -/
def State.tcmdRead (s : State) : State :=
  if !s.tOpen then s
  else
    let t := s.tsel
    ((List.range 8).foldl (fun x i =>
      let r := x.recordWord (x.taskWord t i)
      r.1.setReg (0x40044 + 4 * i) r.2) s).endTaskCmd 0

/-- Bits of task descriptor word n that a WRITE changes (R331). DEDUCED, log entry 43. -/
def taskMask (n : Nat) : Word :=
  match n with
  | 0 => 0xE000FFFF#32
  | 2 => 0x0000FFFC#32
  | 3 => 0xFFFFFFFC#32
  | 4 => 0x8FFFFFFF#32
  | 5 => 0x0007FFF0#32
  | 7 => 0#32
  | _ => 0xFFFFFFFF#32

/-- TCMD WRITE: words 1–6 only while PLACED = 0 (R331). DEDUCED, log entry 43. -/
def State.tcmdWrite (s : State) : State :=
  if !s.tOpen then s
  else
    let t := s.tsel
    let d (n : Nat) : Word := s.reg (0x40044 + 4 * n)
    if policyOf (d 0) = 3 then s.endTaskCmd 2
    else
      let put (x : State) (n : Nat) : State :=
        x.setTaskWord t n ((x.taskWord t n &&& ~~~ taskMask n) ||| (d n &&& taskMask n))
      ((if s.taskPlaced t then [0] else [0, 1, 2, 3, 4, 5, 6]).foldl put s).endTaskCmd 0

/-- TCMD PLACE: an unplaced task takes the lowest free slot of SCR_TDEST. DEDUCED, log entry 43. -/
def State.tcmdPlace (s : State) : State :=
  if !s.tOpen then s
  else
    let t := s.tsel
    if !s.taskValid t then s.endTaskCmd 5
    else if s.taskPlaced t && decide (policyOf (s.taskWord t 0) = 0) then s.endTaskCmd 1
    else if s.taskPlaced t || !s.admissible t s.tdest then s.endTaskCmd 2
    else (s.placeTask t s.tdest).endTaskCmd 0

/-- A commanded task move begins, or waits for one of the four to end (R336). -/
def State.taskGo (s : State) (t : Nat) (dst : Option Nat) : State :=
  if 4 ≤ s.scr.taskMoves.length then
    { s with scr := { s.scr with tbusy := true, taskWait := if dst.isSome then 4 else 5 } }
  else
    let x := s.startTaskMove t dst 1 true false
    { x with scr := { x.scr with tbusy := true } }

/-- What a MOVE of the selected task finds now. DEDUCED, log entry 43. -/
def State.taskMoveTry (s : State) : State :=
  let t := s.tsel
  if !s.taskValid t then s.endTaskCmd 5
  else if policyOf (s.taskWord t 0) = 0 then s.endTaskCmd 1
  else if (s.taskMove t).isSome then s.endTaskCmd 3
  else if !s.taskPlaced t || !s.admissible t s.tdest then s.endTaskCmd 2
  else s.taskGo t (some s.tdest)

/-- What an UNPLACE of the selected task finds now. DEDUCED, log entry 43. -/
def State.taskUnplaceTry (s : State) : State :=
  let t := s.tsel
  if !s.taskValid t then s.endTaskCmd 5
  else if (s.taskMove t).isSome then s.endTaskCmd 3
  else if !s.taskPlaced t then s.endTaskCmd 2
  else s.taskGo t none

/-- TCMD MOVE. -/
def State.tcmdMove (s : State) : State :=
  if !s.tOpen then s else { s with scr := { s.scr with tres := 0 } }.taskMoveTry

/-- TCMD UNPLACE. -/
def State.tcmdUnplace (s : State) : State :=
  if !s.tOpen then s else { s with scr := { s.scr with tres := 0 } }.taskUnplaceTry

/-- A write to SCR_TCMD. -/
def State.tcmd (s : State) (op : Nat) : State :=
  match op with
  | 1 => s.tcmdRead
  | 2 => s.tcmdWrite
  | 3 => s.tcmdPlace
  | 4 => s.tcmdMove
  | 5 => s.tcmdUnplace
  | _ => s

/-! ## Page commands (R351, R352) -/

/-- PCMD READ: the table descriptor and the page map entry. DEDUCED, log entry 43. -/
def State.pcmdRead (s : State) : State :=
  if !s.pOpen then s
  else
    let k := s.psel
    let r := s.recordWord (s.table (k / 4096))
    let s1 := r.1.setReg 0x4008C r.2
    let e := s1.page k
    if s1.scr.lost then
      let a := s1.draw
      let b := a.1.draw
      ((b.1.setReg 0x40084 a.2).setReg 0x40088 (b.2 &&& 0xFFFFFF00#32)).endPageCmd 0
    else if e.live then ((s1.setReg 0x40084 e.w0).setReg 0x40088 (wd (e.heat % 2 ^ 24 * 256))).endPageCmd 0
    else s1.endPageCmd 5

/-- R332, R337, R351: the place that a MOVE to the word of SCR_PDATA0 takes, if it is permitted. -/
def State.movePlace (s : State) (k : Nat) (w : Word) : Option Word :=
  if fld w 0 26 = 0x3FFFFFF then s.pickIn (k / 4096) (tierOf w)
  else if s.placeOk (k / 4096) (placeOf w) then some (placeOf w)
  else none

/-- What a MOVE of the selected page finds now. -/
def State.pageMoveTry (s : State) : State :=
  let k := s.psel
  if !(s.page k).live then s.endPageCmd 5
  else if policyOf (s.table (k / 4096)) = 0 then s.endPageCmd 1
  else if !s.mayMove k then s.endPageCmd 3
  else match s.movePlace k (s.reg 0x40084) with
    | none => s.endPageCmd 2
    | some w =>
      if 8 ≤ s.scr.moves.length then { s with scr := { s.scr with pbusy := true, pageWait := true } }
      else
        let t := s.startMove k w 1 true false false
        { t with scr := { t.scr with pbusy := true } }

/-- PCMD MOVE. -/
def State.pcmdMove (s : State) : State :=
  if !s.pOpen then s else { s with scr := { s.scr with pres := 0 } }.pageMoveTry

/-- A page leaves the map; a move of it is abandoned. -/
def State.freePageEnt (s : State) (k : Nat) : State :=
  let s1 := match s.moveOf k with
    | some m => s.abandon m 10
    | none => s
  { s1.setPage k {} with scr := { (s1.setPage k {}).scr with decided := s1.scr.decided.filter fun e => decide (e.1 ≠ k) } }

/-- Pages of table t in the map. -/
def State.pagesOf (s : State) (t : Nat) : List Nat :=
  s.scr.pages.filterMap fun (e : Nat × PageEnt) => if e.2.live ∧ e.1 / 4096 = t then some e.1 else none

/-- R352: what a TWRITE to a mapped table may not do. -/
def State.twriteBad (s : State) (t : Nat) (d : Word) : Bool :=
  let ms := s.mappers t
  let ws := (s.pagesOf t).map fun k => (s.page k).w0
  let permitted (x : Nat) : Bool := s.tierAllowed d x
  let old := s.table t
  let clears (i : Nat) : Bool := bitAt old i && !bitAt d i
  !ms.isEmpty && (clears 31 ||
    (decide (fld d 0 12 < fld old 0 12) && ms.any fun m => decide (fld d 0 12 < fld ((s.bay m.1).winA m.2) 0 12)) ||
    (ws.any fun w => clears (24 + tierOf w) || (decide (tierOf w = 2) && clears (16 + fld w 0 26 / 2 ^ 23)) ||
      (decide (tierOf w = 3) && clears 28)) ||
    (match s.pinClass t with
     | some _ => ms.any fun m => s.winPin m && !((List.range (s.winClass m + 1)).any permitted)
     | none => false))

/-- Pages from i on are added to table t, in L2. DEDUCED, log entry 44. -/
def State.addPages (s : State) (t : Nat) : List Nat → Option State
  | [] => some s
  | i :: r => match s.pickIn t 2 with
    | some w => (s.setPage (pageKey t i) { live := true, w0 := w }).addPages t r
    | none => none

/-- PCMD TWRITE. DEDUCED, log entry 44. -/
def State.pcmdTwrite (s : State) : State :=
  if !s.pOpen then s
  else
    let t := s.psel / 4096
    let d := s.reg 0x4008C &&& 0xFFFF0FFF#32
    let old := s.table t
    if policyOf d = 3 ∨ s.twriteBad t d then s.endPageCmd 2
    else
      let s1 := { s with scr := { s.scr with tables := tsetD 0#32 s.scr.tables t d } }
      let keep := if bitAt d 31 then fld d 0 12 + 1 else 0
      let have_ := if bitAt old 31 then fld old 0 12 + 1 else 0
      match s1.addPages t ((List.range (keep - have_)).map (have_ + ·)) with
      | none => s.endPageCmd 2
      | some s2 => (((s2.pagesOf t).filter fun k => decide (keep ≤ k % 4096)).foldl State.freePageEnt s2).endPageCmd 0

/-- A write to SCR_PCMD. -/
def State.pcmd (s : State) (op : Nat) : State :=
  match op with
  | 1 => s.pcmdRead
  | 2 => s.pcmdMove
  | 3 => s.pcmdTwrite
  | _ => s

/-- Commands that waited for a move to end begin (R336). DEDUCED, log entry 43. -/
def State.scribeWaits (s : State) : State :=
  let s1 := if s.scr.taskWait ≠ 0 ∧ s.scr.taskMoves.length < 4 then
      let t := { s with scr := { s.scr with taskWait := 0 } }
      if s.scr.taskWait = 5 then t.taskUnplaceTry else t.taskMoveTry
    else s
  if s1.scr.pageWait && decide (s1.scr.moves.length < 8) then
    { s1 with scr := { s1.scr with pageWait := false } }.pageMoveTry
  else s1

/-! ## Evacuation and release (R344, R346) -/

/-- R344, R350: a write to SCR_EVAC. -/
def State.scrEvac (s : State) (v : Word) : State :=
  if !s.scribeOpen then s
  else
    let s1 := s.writeRw 0x400A0 0x4000FFFF v
    if bitAt v 31 then
      s1.evacStart ((maskBays (fld v 0 16)).filter fun b => s.bentHere (b / 16)) (bitAt v 30) false 0 (fld v 0 16)
    else s1

/-- R344, R350: a write to SCR_EVBAY. -/
def State.scrEvbay (s : State) (v : Word) : State :=
  if !s.scribeOpen then s
  else
    let s1 := s.writeRw 0x400A4 0x400000FF v
    if bitAt v 31 then s1.evacStart [fld v 0 8] (bitAt v 30) true 0 (fld v 0 8) else s1

/-- R346, R350: a write to SCR_BANKREL. -/
def State.scrBankrel (s : State) (v : Word) : State :=
  if !s.scribeOpen then s
  else
    let s1 := s.writeRw 0x400B0 0xFF v
    if bitAt v 31 then s1.releaseStart (fld v 0 8) else s1

/-! ## Registers as read (R350) -/

/-- Guest pages held. -/
def State.guestUse (s : State) : Nat := s.scr.guests.length

/-- What the scribe shows at offset o in its block, beyond stored words. -/
def State.scribeRead (s : State) (o : Nat) : Word :=
  if o = 0x6C then wd (nbit s.scr.tbusy * 2 ^ 31 + s.scr.tres % 8)
  else if o = 0x94 then wd (nbit s.scr.pbusy * 2 ^ 31 + s.scr.pres % 8)
  else if o = 0xA8 then
    wd (nbit s.scr.evac.isSome * 2 ^ 31 + s.scr.evRes % 8 * 2 ^ 28 + s.scr.evReason % 256 * 2 ^ 20 +
      (match s.scr.evac with | some e => (s.evacTasks e).length % 16384 | none => 0))
  else if o = 0xB0 then
    wd (nbit s.scr.rel.isSome * 2 ^ 30 + s.scr.relRes % 8 * 2 ^ 27) ||| (s.reg 0x400B0 &&& 0xFF#32)
  else if o = 0xC4 then wd s.scr.logHead
  else if o = 0xD8 then wd s.guestUse
  else if 0x400 ≤ o ∧ o < 0x800 then
    (if (s.bay ((o - 0x400) / 4)).state = 3 ∧ s.bayLive ((o - 0x400) / 4) then s.reg (0x40000 + o) else 0#32)
  else s.readKind (0x40000 + o)

end Sys2Proof.Machine
end

