-- ==== Sys2Proof/Machine/RegBus.lean ====
section
/-!
DEFINITION. Reads and writes of registers (R37–R41, R67, R104): which block a register lies in and whether it answers,
what a read shows, what a write does, through BAR0, the register bridge and the bay windows; and the configuration CRC.
A command with a row of its own calls the same operation as the register write that causes it.
-/
namespace Sys2Proof.Machine

/-! ## Which register answers -/

/-- The block of a register that a BLOCK reset aims at, numbered as R472 numbers it. -/
def blockOf (a : Nat) : Option Nat :=
  if 0x60000 ≤ a ∧ a < 0x70000 then some ((a - 0x60000) / 0x2000)
  else if 0x70000 ≤ a ∧ a < 0x78000 then some (8 + (a - 0x70000) / 0x1000)
  else if 0x80000 ≤ a ∧ a < 0x84000 then some (16 + (a - 0x80000) / 0x2000)
  else none

/-- R471, R472: is the block of the register in a BLOCK reset? DEDUCED, log entry 14. -/
def State.pulsed (s : State) (a : Nat) : Bool :=
  match s.rst.pulse with
  | some p => p.block && decide (blockOf a = some p.target)
  | none => false

/-- R466: is every domain beside the always-on one in reset, so that no master reads or writes a register? DEDUCED,
log entry 14. -/
def State.wideHeld (s : State) : Bool := decide (4 ≤ s.rst.reach)

/-- R8, R466, R476, R481: is the block of a register of BAR0 offset a there, is its domain on, and is it out of
reset? DEDUCED, log entry 14. -/
def State.blockLive (s : State) (a : Nat) : Bool :=
  s.unitHere a &&
    (if 0x30000 ≤ a ∧ a < 0x60000 ∨ 0xB0000 ≤ a ∧ a < 0xC0000 then s.stgOn
     else if 0x60000 ≤ a ∧ a < 0x70000 then s.on (chanDom ((a - 0x60000) / 0x2000))
     else if 0x70000 ≤ a ∧ a < 0x80000 then s.on 19
     else if 0x80000 ≤ a ∧ a < 0x84000 then !s.rst.shored && s.on 20
     else if 0x84000 ≤ a ∧ a < 0x90000 then decide (s.rst.reach ≠ 3)
     else true)

/-- R48: does the block of a PG register lie in reset or isolation? DEDUCED, log entry 14. -/
def State.regDown (s : State) (a : Nat) : Bool := !s.blockLive a || s.pulsed a

/-- Does the offset hold a register, and not a reserved location (R67)? The capability list of a part fills its first
entries alone (R548). -/
def State.isRegister (s : State) (a : Nat) : Bool :=
  (regRow a).isSome
    || (match regRow (a - 4) with | some r => decide (4 ≤ a) && decide (r.kind = .cnt) | none => false)
    || (decide (0x100 ≤ a) && decide (a < 0x100 + 16 * s.hw.caps.length))
    || (decide (0x85000 ≤ a) && decide (a < 0x85100)) || (decide (0x88000 ≤ a) && decide (a < 0x90000))
    || (decide (0x94000 ≤ a) && decide (a < 0xA0000))

/-- Registers of a bay window beside its timers, mailboxes and structural tables: BAY_ARITH and BAY_STATE (R83, R105), the
mask, event and guard configuration (R204–R228), STR_ENTRY, STR_STKBASE and STR_STKLEN (R99), and trace and step control
(R111, R112). -/
def bayLone : List Nat :=
  [0x1030, 0x1040, 0x1800, 0x3000, 0x3010, 0x3014, 0x3018, 0x301C, 0x3020, 0x3028, 0x302C, 0x3030, 0x3040, 0x3044, 0x3050,
   0x3054, 0x3058, 0x305C, 0x3060, 0x3070, 0x3074, 0x3078, 0x3080, 0x3084, 0x3088, 0x3090, 0x4080, 0x4084, 0x4088, 0x5000,
   0x5004, 0x5008, 0x5010, 0x5014]

/-- R104: does the offset in a bay window hold a register that host or sill core may see? -/
def bayRegister (o : Nat) : Bool :=
  (decide (0x1000 ≤ o) && decide (o < 0x1030))
    || (decide (0x2000 ≤ o) && decide (o < 0x2040) && decide (o % 16 ≠ 12))
    || (decide (0x4008 ≤ o) && decide (o < 0x4080)) || bayLone.contains o

/-! ## Bay windows (R104–R113) -/

/-- R106, R108: a read of a mailbox through the bay window: MBX_LO takes the agent's snapshot, MBX_HI shows it, and a
host read of either sets SEEN. DEDUCED, log entry 16. -/
def State.mailboxRead (s : State) (ag : Agent) (b m : Nat) (hi : Bool) : State × Word :=
  let x := (s.bay b).mailbox m
  let seen (y : Mailbox) : Mailbox := if ag = .host then { y with seen := true } else y
  if hi then
    (s.onBay b fun c => c.setMailbox m (seen x),
      if ag = .host then x.snapHost else if ag = .sill then x.snapSill else x.data)
  else
    let y := if ag = .host then { x with snapHost := x.data } else if ag = .sill then { x with snapSill := x.data } else x
    (s.onBay b fun c => c.setMailbox m (seen y), x.lo)

/-- R109: a write to MBX_ACK, which counts from the host alone. -/
def State.mailboxAck (s : State) (ag : Agent) (b m : Nat) (v : Word) : State :=
  if ag = .host then s.onBay b fun c => c.setMailbox m ((c.mailbox m).ack (fld v 0 8)) else s

/-- A bay's registers can be reached: its bent is present and it is not OFF (R8, R105). DEDUCED, log entry 14. -/
def State.bayReached (s : State) (b : Nat) : Bool := s.bentHere (b / 16) && decide ((s.bay b).state ≠ 0)

/-- R104: a 32-bit read through the bay window. -/
def State.bayRead (s : State) (ag : Agent) (b o : Nat) : State × Word :=
  let c := s.bay b
  if !s.bayReached b then (s, 0#32)
  else if 0x2000 ≤ o ∧ o < 0x2040 then
    (if o % 16 = 0 then s.mailboxRead ag b ((o - 0x2000) / 16) false
     else if o % 16 = 4 then s.mailboxRead ag b ((o - 0x2000) / 16) true
     else (s, 0#32))
  else
    (s, if 0x1000 ≤ o ∧ o < 0x1100 then c.tmr.read o
        else if o = 0x1800 then c.arith
        else if o = 0x3000 then c.stateWord
        else if 0x3010 ≤ o ∧ o < 0x3100 then c.evRead o
        else if 0x4000 ≤ o ∧ o < 0x4090 then c.str.read o
        else if 0x5000 ≤ o ∧ o < 0x5020 then c.dbg.read o
        else 0#32)

/-- What a narrower read of a bay window finds: the same, but a mailbox is left as it is (R39). -/
def State.bayPeek (s : State) (ag : Agent) (b o : Nat) : Word := (s.bayRead ag b o).2

/-- The window in which a bay's structural registers take writes (R100, R382). -/
def State.structOpen (s : State) (b : Nat) : Bool :=
  (decide ((s.bay b).state = 1) || decide ((s.bay b).state = 2)) && !s.beingRaised b

/-- R100: a write to a structural register through the bay window is stored in PLAN or TEST, else discarded. -/
def State.structWrite (s : State) (b o : Nat) (v : Word) : State :=
  if structAddr o && s.structOpen b then
    s.onBay b fun c => { c with str := { c.str with stored := c.str.stored ++ [(o, v)] } }
  else s

/-- R330: do a bay's window descriptors keep to the reach map's limits, and name valid tables? -/
def State.reachOk (s : State) (x : Struct) : Bool :=
  let ns := (List.range 16).filter fun n => decide (n ≠ 0) && bitAt (tgetD 0#32 x.winA n) 31
  let last (n : Nat) : Nat := fld (tgetD 0#32 x.winA n) 0 12
  let tab (n : Nat) : Word := s.table (fld (tgetD 0#32 x.winB n) 0 20)
  decide ((ns.map fun n => last n + 1).foldl (· + ·) 0 ≤ 4096) &&
    ns.all fun n => bitAt (tab n) 31 && decide (last n ≤ fld (tab n) 0 12)

/-- R330: window writes that a command of bay b has applied against those limits are taken back, with REACHFULL. -/
def State.reachGuard (s : State) (b : Nat) (old : Struct) : State :=
  let x := (s.bay b).str
  if (x.winA = old.winA ∧ x.winB = old.winB) ∨ s.reachOk x then s
  else (s.onBay b fun c => { c with str := { c.str with winA := old.winA, winB := old.winB } }).event 0x40020 6

/-- R113: the CMD field of BAY_TSTCTL: 1 ENTER, 2 EXIT. -/
def State.testCtl (s : State) (b cmd : Nat) : State :=
  let c := s.bay b
  if cmd = 1 then
    if c.state = 1 then
      s.onBay b fun x => { x.startContext with state := 2 }
    else if c.state = 3 ∧ !s.debugLocked 1 then s.onBay b fun x => { x with dbg := { x.dbg with testReq := true } }
    else s
  else if cmd = 2 then
    if c.state ≠ 2 ∨ c.march then s
    else if c.dbg.fromRun then
      (s.onBay b fun x => { x with state := 3, str := x.str.applyAll, dbg := { x.dbg with fromRun := false, stepWait := false } }).reachGuard b c.str
    else s.onBay b fun x => { x with state := 1, dbg := { x.dbg with stepWait := false } }
  else s

/-- R112: BAY_DBG.STEP through the bay window or by the step command. DEDUCED, log entry 27. -/
def State.bayStep (s : State) (b : Nat) : State :=
  if (s.bay b).state ≠ 2 ∨ s.debugLocked 1 then s
  else ((s.syncBay b).onBay b Bay.step).reachGuard b (s.bay b).str

/-- R111: a write to BAY_TRC_CTL through the bay window. -/
def State.traceCtl (s : State) (b : Nat) (v : Word) : State :=
  (s.syncBay b).onBay b fun c => { c with dbg := c.dbg.traceCtl v }

/-- R104, R106, R111, R113: a 32-bit write through the bay window. -/
def State.bayWrite (s : State) (ag : Agent) (b o : Nat) (v : Word) : State :=
  if !s.bayReached b then s
  else if 0x2000 ≤ o ∧ o < 0x2040 ∧ o % 16 = 8 then s.mailboxAck ag b ((o - 0x2000) / 16) v
  else if 0x4000 ≤ o ∧ o < 0x4090 then s.structWrite b o v
  else if o = 0x5014 then s.testCtl b (fld v 0 2)
  else if s.debugLocked 1 then s
  else if o = 0x5000 then s.traceCtl b v
  else if o = 0x5010 then (if bitAt v 0 then s.bayStep b else s)
  else s

/-! ## Hold ledgers (R192–R194) -/

/-- A ledger register as read. -/
def State.ledgerRead (s : State) (a : Nat) : Word :=
  if a < 0x94000 then
    let l := (s.bay ((a - 0x93000) / 0x10)).led
    (if a % 0x10 = 0 then l.budget else if a % 0x10 = 4 then wd l.disp else if a % 0x10 = 8 then l.stat.read else 0#32)
  else if a < 0x98000 then
    (if a % 0x40 = 0x3C then 0#32 else wd (tgetD 0 (s.bay ((a - 0x94000) / 0x40)).led.max (a % 0x40 / 4)))
  else
    let n := (s.bay ((a - 0x98000) / 0x80)).led.count (a % 0x80 / 8)
    (if a % 8 = 0 then wd n else wd (n / 2 ^ 32))

/-- R193: LEDGER_CTL. -/
def State.ledgerClear (s : State) (b : Nat) (v : Word) : State :=
  if bitAt v 0 && s.bentHere (b / 16) then s.onBay b Bay.ledgerClear else s

/-- A write to a ledger register. -/
def State.ledgerWrite (s : State) (a : Nat) (v : Word) : State :=
  if a < 0x94000 then
    (if a % 0x10 = 0 then s.onBay ((a - 0x93000) / 0x10) fun c => { c with led := { c.led with budget := v } }
     else if a % 0x10 = 8 then
       s.onBay ((a - 0x93000) / 0x10) fun c => { c with led := { c.led with stat := c.led.stat.write (fld v 24 8) } }
     else s)
  else if a < 0x98000 ∧ a % 0x40 = 0x3C then s.ledgerClear ((a - 0x94000) / 0x40) v
  else s

/-! ## What a register shows -/

/-- Security module, by offset within its region; `p` tells port S (R506). -/
def State.secRead32 (s : State) (p : Bool) (o : Nat) : Word :=
  let x := s.sec
  let y := x.port p
  if o = 0 then x.stat
  else if o = 8 then (if x.started then wd secUid else 0#32)
  else if o = 0xC then (if x.started then wd (secUid / 2 ^ 32) else 0#32)
  else if o = 0x10 then wd x.departs
  else if o = 0x14 then x.floor 0
  else if o = 0x18 then x.floor 1
  else if o = 0x20 then wd x.scope
  else if o = 0x24 then wd x.dbgLeft
  else if 0x100 ≤ o ∧ o < 0x1C0 then tgetD 0#32 y.req ((o - 0x100) / 4)
  else if 0x200 ≤ o ∧ o < 0x2C0 then tgetD 0#32 y.rsp ((o - 0x200) / 4)
  else if o = 0x304 then y.post.stat
  else if o < 0x100 then s.readKind (0x20000 + o)
  else 0#32

/-- Management complex. -/
def State.mxRead (s : State) (a : Nat) : Word :=
  if a = 0xA0084 then s.mx.mxh.stat
  else if a = 0xA0110 then s.mxPend
  else if a = 0xA0120 then s.mx.errAddr
  else if a = 0xA0124 then wd (s.mx.errCount * 2 ^ 16 + s.mx.errMaster * 16 + nbit s.mx.errWrite * 8 + s.mx.errKind)
  else s.readKind a

/-- Slow interfaces (R463), but for what a read pops. -/
def State.slowRead (s : State) (a : Nat) : Word :=
  if a = 0x48000010 then s.xspiPop.2
  else if a = 0x48000014 then wd (nbit s.mx.xBusy * 2 ^ 31)
  else if a = 0x48001008 then s.smbPop.2
  else if a = 0x48002004 then s.uartPop.2
  else if a = 0x48002008 then wd (s.mx.uTx.length % 128 * 2 ^ 16 + s.mx.uRx.length % 128)
  else if a = 0x48003008 then s.gpioIn
  else s.readKind a

/-- Staging registers. -/
def State.stgRead32 (s : State) (a : Nat) : Word :=
  if a < 0xB0300 then s.ownWord ((a - 0xB0000) / 4)
  else if 0xB0400 ≤ a ∧ a < 0xB0500 ∧ a % 16 = 4 then s.marchStat ((a - 0xB0400) / 16)
  else if 0xB1000 ≤ a ∧ a % 16 = 4 then s.bayMarchStat ((a - 0xB1000) / 16)
  else s.readKind a

/-- What the register at BAR0 offset a shows, bay windows apart: zero where its block does not answer (R8, R67, R481); a
channel in a BLOCK reset shows its STATE alone (R325). -/
def State.regShow (s : State) (ag : Agent) (a : Nat) : Word :=
  if !s.blockLive a then 0#32
  else if s.pulsed a then
    (if 0x60000 ≤ a ∧ a < 0x70000 ∧ a % 0x2000 = 8 then s.memRead ((a - 0x60000) / 0x2000) 8 else 0#32)
  else match a / 0x10000 with
  | 0 => if a = 0 then s.devIdent else if a = 0x14 then s.regs.pegStat
         else if 0x100 ≤ a then s.reg a else s.readKind a
  | 1 => if a = 0x10020 then wd (nbit s.rst.pulse.isSome)
         else if a = 0x10048 then s.pwrStatA else if a = 0x1004C then s.pwrStatB
         else if a = 0x10060 then s.clkStat else s.readKind a
  | 2 => if 0x20100 ≤ a ∧ ag = .sill then 0#32 else s.secRead32 false (a - 0x20000)
  | 3 => s.qmRead (a - 0x30000)
  | 4 => s.scribeRead (a - 0x40000)
  | 5 => if a = 0x50010 then s.rsuStat else s.readKind a
  | 6 => s.memRead ((a - 0x60000) / 0x2000) (a % 0x2000)
  | 7 => if a < 0x78000 then s.portRead ((a - 0x70000) / 0x1000) (a % 0x1000) else s.scfRead (a - 0x78000)
  | 8 => if a < 0x84000 ∧ a % 0x2000 = 4 then s.ethState ((a - 0x80000) / 0x2000)
         else if a = 0x84004 then s.hbLink
         else if 0x85000 ≤ a ∧ a < 0x85100 ∨ 0x88000 ≤ a then s.msixRead a
         else s.readKind a
  | 9 => if 0x93000 ≤ a then s.ledgerRead a
         else if a = 0x90014 then wd s.bg.rseq
         else if 0x90100 ≤ a ∧ a < 0x90120 then s.census ((a - 0x90100) / 4)
         else if a = 0x90124 then s.retireStat else s.readKind a
  | 0xA => s.mxRead a
  | 0xB => s.stgRead32 a
  | _ => 0#32

/-- The register key of a security module address of the sill core (R506). -/
def secAddr (o : Nat) : Nat := if o < 0x100 then 0x20000 + o else 0x60000000 + o

/-- A 32-bit read of the register at an aligned offset: through BAR0 or the register bridge, or, for the sill core, of a
slow interface or of the security module at 0x6000_0000 (R38, R446). -/
def State.regRead (s : State) (ag : Agent) (a : Nat) : State × Word :=
  if s.wideHeld then (s, 0#32)
  else if 0x1000000 ≤ a ∧ a < 0x2000000 then s.bayRead ag ((a - 0x1000000) / 0x10000) (a % 0x10000)
  else if a = 0x48000010 ∧ ag = .sill then s.xspiPop
  else if a = 0x48001008 ∧ ag = .sill then s.smbPop
  else if a = 0x48002004 ∧ ag = .sill then s.uartPop
  else if 0x48000000 ≤ a ∧ a < 0x48010000 then (s, if ag = .sill then s.slowRead a else 0#32)
  else if 0x60000000 ≤ a then (s, if ag = .sill then s.secRead32 true (a - 0x60000000) else 0#32)
  else (s, s.regShow ag a)

/-- What a narrower read of the register shows: it changes nothing (R39). -/
def State.regPeek (s : State) (ag : Agent) (a : Nat) : Word := (s.regRead ag a).2

/-! ## What a write does -/

/-- Device-wide registers. -/
def State.devWrite (s : State) (a : Nat) (v : Word) : State :=
  if a = 0x10 then s.peg s.regDown (fld v 0 16)
  else if a = 0x28 then
    let t := s.writeKind a v
    { t with regs := { t.regs with mism := 0 } }
  else s.writeKind a v

/-- Reset, power, clock and thermal registers. -/
def State.rstWrite (s : State) (ag : Agent) (a : Nat) (v : Word) : State :=
  if a = 0x10010 then s.rstSw ag v
  else if a = 0x10014 then s.rstBent v
  else if a = 0x10018 then s.rstBay v
  else if a = 0x1001C then s.rstBlock v
  else if a = 0x10028 then (s.trimStart ag v).bootBegins
  else if a = 0x10030 then s.wdgCtl v
  else if a = 0x10034 then s.wdgKick v
  else if a = 0x10040 then s.pwrCtl v
  else if a = 0x10044 then s.pwrRet v
  else if a = 0x10070 then s.thmCtl v
  else s.writeKind a v

/-- Security module, by offset within its region. -/
def State.secWrite32 (s : State) (p : Bool) (o : Nat) (v : Word) : State :=
  if 0x100 ≤ o ∧ o < 0x1C0 then s.secReq p ((o - 0x100) / 4) v
  else if o = 0x300 then s.secPost p v
  else if o < 0x100 then s.writeKind (0x20000 + o) v
  else s

/-- Queue manager and host rings; ignored in steps 5–10 of a full raise (R382). -/
def State.qmWrite (s : State) (a : Nat) (v : Word) : State :=
  if s.raiseLocks then s
  else if a = 0x30024 then
    (match fld v 0 2 with | 1 => s.descRead | 2 => s.descWrite | 3 => s.descWritep | _ => s)
  else if 0x31000 ≤ a ∧ a < 0x33000 then
    let n := (a - 0x31000) / 0x20
    (if a % 0x20 < 0x10 then s.ringBase n (a % 0x20) v else if a % 0x20 = 0x10 then s.ringCfg n v else s)
  else s.writeKind a v

/-- Scribe; ignored in steps 5–10 of a full raise (R382), and the registers of a command group while it is BUSY (R351). -/
def State.scrWrite (s : State) (a : Nat) (v : Word) : State :=
  if s.raiseLocks then s
  else if 0x40040 ≤ a ∧ a < 0x40068 then (if s.scr.tbusy then s else s.writeKind a v)
  else if a = 0x40068 then s.tcmd (fld v 0 3)
  else if 0x40080 ≤ a ∧ a < 0x40090 then (if s.scr.pbusy then s else s.writeKind a v)
  else if a = 0x40090 then s.pcmd (fld v 0 2)
  else if a = 0x400A0 then s.scrEvac v
  else if a = 0x400A4 then s.scrEvbay v
  else if a = 0x400B0 then s.scrBankrel v
  else s.writeKind a v

/-- Scarf ports and common registers; a route command's registers are closed while it is BUSY (R421). -/
def State.scfWrite (s : State) (a : Nat) (v : Word) : State :=
  if a < 0x78000 then
    (if a % 0x1000 = 0 then s.portCtl ((a - 0x70000) / 0x1000) v else s.writeKind a v)
  else if a = 0x78000 then s.devIdWrite v
  else if a = 0x78010 ∨ a = 0x78014 then (if s.scf.upd.isSome then s else s.writeKind a v)
  else if a = 0x78018 then
    (if s.scf.upd.isSome then s
     else match fld v 0 2 with | 1 => s.rtRead | 2 => s.rtWrite | 3 => s.rtUpdate | _ => s)
  else if a = 0x78030 then s.timeSet false v
  else if a = 0x78034 then s.timeSet true v
  else if a = 0x78068 then (match fld v 0 2 with | 1 => s.pwRead | 2 => s.pwWrite | _ => s)
  else s.writeKind a v

/-- Management complex. -/
def State.mxWrite (s : State) (ag : Agent) (a : Nat) (v : Word) : State :=
  if a < 0xA0080 then s.mxhWord ag a v
  else if a = 0xA0080 then s.mxhPost v
  else if a = 0xA0088 then s.mxhDone ag v
  else if a = 0xA0100 then s.mxCtl ag v
  else if a = 0xA0104 then s.mxBoot ag v
  else s.writeKind a v

/-- Slow interfaces. -/
def State.slowWrite (s : State) (a : Nat) (v : Word) : State :=
  if a = 0x48000004 then s.xspiCmd v
  else if a = 0x48000010 then s.xspiPush v
  else if a = 0x48001004 then s.smbXfer v
  else if a = 0x48001008 then { s with mx := { s.mx with sTx := fifoPush 32 s.mx.sTx [byteOf v 0] } }
  else if a = 0x48002004 then { s with mx := { s.mx with uTx := fifoPush 64 s.mx.uTx [byteOf v 0] } }
  else if a = 0x48003000 ∨ a = 0x48003004 then s.gpioWrite a v
  else s.writeKind a v

/-- Staging registers; bank owners are closed in steps 5–10 of a full raise (R382). -/
def State.stgWrite32 (s : State) (a : Nat) (v : Word) : State :=
  if a < 0xB0300 then (if s.raiseLocks then s else s.ownWrite ((a - 0xB0000) / 4) v)
  else if 0xB0400 ≤ a ∧ a < 0xB0500 ∧ a % 16 = 0 then s.marchWrite ((a - 0xB0400) / 16) v
  else if 0xB1000 ≤ a ∧ a < 0xB2000 ∧ a % 16 = 0 then s.bayMarchWrite ((a - 0xB1000) / 16) v
  else s.writeKind a v

/-- A write to the register at BAR0 offset a, bay windows apart. -/
def State.regAct (s : State) (ag : Agent) (a : Nat) (v : Word) : State :=
  if s.regDown a then s
  else match regRow a with
  | some r =>
    if r.kind = .sq ∧ a < 0x93000 ∨ r.kind = .sq ∧ 0xA0000 ≤ a then
      (if s.raiseLocks && decide (0x30000 ≤ a) && decide (a < 0x50000) then s else s.sqClear a v)
    else match a / 0x10000 with
    | 0 => s.devWrite a v
    | 1 => s.rstWrite ag a v
    | 2 => if 0x20100 ≤ a ∧ ag = .sill then s else s.secWrite32 false (a - 0x20000) v
    | 3 => s.qmWrite a v
    | 4 => s.scrWrite a v
    | 5 => if a = 0x5000C then s.rsuCmd (fld v 0 3) else s.writeKind a v
    | 6 => if a % 0x2000 = 4 then s.memCtl ((a - 0x60000) / 0x2000) v else s.writeKind a v
    | 7 => s.scfWrite a v
    | 8 => if a < 0x84000 ∧ a % 0x2000 = 0 then s.ethCtl ((a - 0x80000) / 0x2000) v else s.writeKind a v
    | 9 => if 0x93000 ≤ a then s.ledgerWrite a v
           else if a = 0x90120 then s.bgRetire ag v
           else if a = 0x90140 then (if ag = .sill then s.writeKind a v else s)
           else s.writeKind a v
    | 0xA => s.mxWrite ag a v
    | 0xB => s.stgWrite32 a v
    | _ => s
  | none => if 0x88000 ≤ a ∧ a < 0x90000 then s.msixWrite ((a - 0x88000) / 4) v else s

/-- A 32-bit write of the register at an aligned offset, as `regRead` reads it. -/
def State.regWrite (s : State) (ag : Agent) (a : Nat) (v : Word) : State :=
  if s.wideHeld then s
  else if 0x1000000 ≤ a ∧ a < 0x2000000 then s.bayWrite ag ((a - 0x1000000) / 0x10000) (a % 0x10000) v
  else if 0x48000000 ≤ a ∧ a < 0x48010000 then
    (if ag ≠ .sill then s
     else match regRow a with
       | some r => if r.kind = .sq then s.sqClear a v else s.slowWrite a v
       | none => s)
  else if 0x60000000 ≤ a then
    (if ag ≠ .sill then s
     else if a < 0x60000100 then s.regAct .host (a - 0x60000000 + 0x20000) v
     else s.secWrite32 true (a - 0x60000000) v)
  else s.regAct ag a v

/-! ## Narrow and unaligned accesses (R39) -/

/-- Does the aligned offset hold a register that answers? DEDUCED, log entry 12. -/
def State.answers (s : State) (a : Nat) : Bool :=
  if s.wideHeld then false
  else if 0x1000000 ≤ a ∧ a < 0x2000000 then s.bayReached ((a - 0x1000000) / 0x10000) && bayRegister (a % 0x10000)
  else if 0x60000000 ≤ a then s.isRegister (secAddr (a - 0x60000000))
  else s.isRegister a && s.blockLive a

/-- R39: a write that does not cover a whole register is discarded, and SUBWORD records it once. DEDUCED, log entry
12. -/
def State.narrowWrite (s : State) (a : Nat) : State := if s.answers (a / 4 * 4) then s.event 0x34 0 else s

/-- R39: a register write of `size` bytes at any offset. DEDUCED, log entry 12. -/
def State.registerWrite (s : State) (ag : Agent) (a size : Nat) (v : Word) : State :=
  if size = 4 ∧ a % 4 = 0 then s.regWrite ag a v else s.narrowWrite a

/-- R39: a register read of `size` bytes at any offset: bytes beyond the register read zero. -/
def State.registerRead (s : State) (ag : Agent) (a size : Nat) : State × Word :=
  if size = 4 ∧ a % 4 = 0 then s.regRead ag a
  else (s, (s.regPeek ag (a / 4 * 4) >>> (8 * (a % 4))) &&& mask32 0 (8 * size))

/-! ## BAR0 requests (R40, R426) -/

/-- The byte enables of dword i of n (PCI Express: first and last, all in between). -/
def enables (i n fbe lbe : Nat) : Nat := if i = 0 then fbe % 16 else if i + 1 = n then lbe % 16 else 15

/-- The bytes of a word that the enables name; the others are 0. -/
def enabled (be : Nat) (w : Word) : Word :=
  w &&& ((List.range 4).foldl (fun m i => if be / 2 ^ i % 2 = 1 then m ||| mask32 (8 * i) 8 else m) 0#32)

/-- Dwords i and up of a BAR0 write. DEDUCED, log entry 12. -/
def State.bar0Words (s : State) (off n fbe lbe : Nat) : Nat → List Word → State
  | _, [] => s
  | i, w :: t =>
    let a := (off + 4 * i) % 0x4000000
    (if enables i n fbe lbe = 15 then s.regWrite .host a w else s.narrowWrite a).bar0Words off n fbe lbe (i + 1) t

/-- `k` dwords from dword i of a BAR0 read, in ascending offset. -/
def State.bar0Read (s : State) (off n fbe lbe i : Nat) : Nat → State × List Word
  | 0 => (s, [])
  | k + 1 =>
    let a := (off + 4 * i) % 0x4000000
    let be := enables i n fbe lbe
    let r := if be = 15 then s.regRead .host a else (s, enabled be (s.regPeek .host a))
    let q := r.1.bar0Read off n fbe lbe (i + 1) k
    (q.1, r.2 :: q.2)

/-- An AER error of a BAR0 request of n dwords. -/
def State.bar0Error (s : State) (i : Nat) (write : Bool) (off n fbe lbe : Nat) (poison : Bool) : State :=
  let r := s.tlp 0 write off n fbe lbe poison
  r.1.aer i r.2

/-- A BAR0 request that receives Unsupported Request (R422, R426, R434). -/
def State.bar0Refused (s : State) (write : Bool) (off n fbe lbe : Nat) (poison : Bool) : State :=
  let s1 := s.bar0Error 15 write off n fbe lbe poison
  if write then s1 else (s1.event 0x84020 1).emit (.completion 1 [] [])

/-- R40, R426, R427: a host request to BAR0 of n dwords at an aligned offset, with its byte enables. A poisoned write is
discarded, and one over 64 bytes sets BIGREQ as well. -/
def State.bar0Request (s : State) (write : Bool) (off n fbe lbe : Nat) (data : List Word) (poison : Bool) : State :=
  if s.wideHeld || !s.hb.up then s
  else if s.hb.d3 then s.bar0Refused write off n fbe lbe poison
  else if tlpBad off (4 * n) || decide (off % 4 ≠ 0) || decide (n = 0) || (write && decide (s.hb.mps < 4 * n)) then
    s.bar0Error 13 write off n fbe lbe poison
  else if 16 < n then
    ((if write && poison then s.bar0Error 7 write off n fbe lbe poison else s).event 0x84020 2).bar0Refused write off n fbe lbe
      poison
  else if write && poison then s.bar0Error 7 write off n fbe lbe poison
  else if write then s.bar0Words off n fbe lbe 0 (data.take n)
  else
    let r := s.bar0Read off n fbe lbe 0 n
    r.1.emit (.completion 0 (bytesOf r.2) [])

/-! ## The configuration CRC (R61–R63) -/

/-- R61: does the CRC walk the word at BAR0 offset a? DEDUCED, log entry 15. -/
def State.walked (s : State) (a : Nat) : Bool :=
  s.unitHere a &&
    ((match regRow a with
      | some r => r.crc
      | none => match regRow (a - 4) with
        | some r => decide (4 ≤ a) && decide (r.kind = .cnt) && r.crc
        | none => false)
     || (decide (0x94000 ≤ a) && decide (a < 0xA0000)))

/-- R61: what the word contributes: its applied value with every bit that is not PG or RW zero. DEDUCED, log entry 15.
-/
def State.crcWord (s : State) (a : Nat) : Word :=
  match regRow a with
  | some r => if r.kind = .rw ∨ r.kind = .pg then s.regShow .sill a &&& wd r.mask else 0#32
  | none => 0#32

/-- R61: the result of a walk. DEDUCED, log entry 15. -/
def State.cfgCrc (s : State) : Word :=
  crc32c (((List.range 0x30000).filter fun i => s.walked (4 * i)).flatMap fun i => toBytes 4 (s.crcWord (4 * i)).toNat)

/-- R62, R63: a pass completes with a result. -/
def State.crcPass (s : State) : State :=
  let v := s.cfgCrc
  let s1 := (s.setReg 0x20 v).setReg 0x2C ((s.reg 0x2C + 1#32) &&& 0xFFFF#32)
  if !bitAt (s.reg 0x28) 0 then s1
  else if v = s.reg 0x24 then { s1 with regs := { s1.regs with mism := 0, drifted := false } }
  else
    let n := s1.regs.mism + 1
    let s2 := { s1 with regs := { s1.regs with mism := n } }
    if 2 ≤ n ∧ !s2.regs.drifted then
      let s3 := { s2 with regs := { s2.regs with drifted := true } }
      let s4 := s3.event 0x30 0
      s4.err 5 12 0 0x20 (s4.sq 0x30).read
    else s2

end Sys2Proof.Machine
end

