-- ==== Sys2Proof/Machine/Pins.lean ====
section
/-!
DEFINITION. What the device does with its signal balls (R532–R535): which it leaves undriven, which it holds, and which an
interface drives. Levels that the board's resistors set are the board's.
-/
namespace Sys2Proof.Machine

/-- The outputs and bidirectional balls of the device by group (R532); bent domains own none (R535). -/
inductive Ball where
  /-- DDRc_RESET_N, DDRc_CKE0–1 and the other outputs of a channel. -/
  | ddrReset (c : Nat)
  | ddrCke (c : Nat)
  | ddrOther (c : Nat)
  /-- Transmit pairs of a scarf port, of the PCIe endpoint, of a MAC. -/
  | scarf (p : Nat)
  | pcie
  | ethernet (m : Nat)
  | xspi
  | smbus
  /-- UART_TXD and UART_RTS_N. -/
  | uartTxd
  | uartRts
  | gpio (n : Nat)
  | tampDrv
  deriving DecidableEq, Repr

/-- What a ball does. -/
inductive Pad where
  /-- High-impedance, without an internal pull (R533). -/
  | undriven
  /-- Held by a pad latch at a level, or high-impedance (R535). -/
  | held (level : Option Bool)
  /-- Electrical idle, the transmitter high-impedance (R535). -/
  | idle
  /-- Driven by its interface, at a level where the registers give one. -/
  | driven (level : Option Bool)
  deriving DecidableEq, Repr

/-- R5, R532: does the ball belong to a unit that the part has? -/
def State.ballHere (s : State) : Ball → Bool
  | .ddrReset c => s.hw.chanHere c
  | .ddrCke c => s.hw.chanHere c
  | .ddrOther c => s.hw.chanHere c
  | .scarf p => s.hw.portHere p
  | .ethernet m => s.hw.full && decide (m < 2)
  | .gpio n => decide (n < 16)
  | _ => true

/-- R535: are the balls of channel c held: its domain is off or it is in a BLOCK reset? -/
def State.chanHeld (s : State) (c : Nat) : Bool := !s.on (chanDom c) || (s.chan c).release.isSome

/-- A ball of channel c: high-impedance until the channel has been brought into use after the exit, then held or driven
(R533, R535). DEDUCED, log entry 71. -/
def State.ddrPad (s : State) (c : Nat) (level : Option Bool) : Pad :=
  if !(s.chan c).driven then .undriven else if s.chanHeld c then .held level else .driven none

/-- A ball of a slow interface: high-impedance until the interface is enabled (R533). -/
def padWhen (enabled : Bool) (level : Option Bool) : Pad := if enabled then .driven level else .undriven

/-- R533, R535: what a ball does in this state. -/
def State.pad (s : State) (b : Ball) : Pad :=
  if !s.ballHere b || s.wideHeld then .undriven
  else match b with
  | .ddrReset c => s.ddrPad c (some true)
  | .ddrCke c => s.ddrPad c (some false)
  | .ddrOther c => s.ddrPad c none
  | .scarf p => if s.on 19 && !s.pulsed (scfBase p) && bitAt (s.reg (scfBase p)) 0 then .driven none else .idle
  | .pcie => if s.on 20 && decide (s.rst.reach ≠ 3) then .driven none else .idle
  | .ethernet m => if s.macHere m && !s.pulsed (ethBase m) && bitAt (s.reg (ethBase m)) 0 then .driven none else .idle
  | .xspi => padWhen (decide (s.mx.boot = .over) || bitAt (s.reg 0x48000000) 7 || s.mx.xBusy) none
  | .smbus => padWhen (bitAt (s.reg 0x48001000) 4) none
  | .uartTxd => padWhen (bitAt (s.reg 0x48002000) 30) none
  | .uartRts => padWhen (bitAt (s.reg 0x48002000) 30 && bitAt (s.reg 0x48002000) 31) (some (!s.uartReady))
  | .gpio n => padWhen (bitAt (s.reg 0x48003000) n) (some (bitAt (s.reg 0x48003004) n))
  | .tampDrv => .driven none

end Sys2Proof.Machine
end

