-- ==== Sys2Proof/Machine/Crossbar.lean ====
section
/-!
DEFINITION. The management crossbar (R446–R452): loads, stores and fetches of the sill core outside its ROM and SRAM, and
bursts of the security module's image master and of the JTAG port.
-/
namespace Sys2Proof.Machine

/-- The agent that a register sees behind a master: M1 the sill core, M2 the image master, M3 JTAG. DEDUCED, log entry
54. -/
def busAgent (master : Nat) : Agent := if master = 2 then .image else if master = 3 then .jtag else .sill

/-- A master gets its answer: M1 in the load's flight, M2 and M3 as data. `w` holds the bytes read, lowest first. -/
def State.busGive (s : State) (master addr size : Nat) (fid : Option Nat) (signed : Bool) (w : Word) (bad : Bool) : State :=
  if master = 1 then
    match fid with
    | some f => s.onBay 256 fun c => c.fill f [(2, loadValue size signed (toBytes 4 w.toNat))] (if bad then some (wd addr) else none)
    | none => s
  else s.emit (.answer { data := toBytes size w.toNat, bad := if bad then [0] else [] })

/-- R451: a read that fails returns zero. -/
def State.busFail (s : State) (master addr size : Nat) (fid : Option Nat) (kind : Nat) : State :=
  (s.busError master addr false kind).busGive master addr size fid false 0#32 false

/-- A sill-core load whose answer is awaited: the port that it fills is read no earlier (R89). DEDUCED, log entry 26.
-/
def Bay.awaitBus (c : Bay) (fid : Option Nat) : Bay :=
  match fid with
  | some f => c.onFlight f fun x => { x with out := some { trigWall := c.tmr.wall } }
  | none => c

/-- Part of a word: the bytes from byte `a` on. -/
def wordFrom (w : Word) (a : Nat) : Word := w >>> (8 * (a % 4))

/-- R446: a read of `size` bytes. Scratch of a bay under a March test is read at its end (R298). -/
def State.busRead (s : State) (master addr size : Nat) (fid : Option Nat) (signed : Bool) : State :=
  let reg (ag : Agent) (a : Nat) : State :=
    let r := s.registerRead ag a size
    r.1.busGive master addr size fid signed r.2 false
  let outer (t : Target) : State :=
    (s.onBay 256 fun c => if master = 1 then c.awaitBus fid else c).outerAdd
      { master := master, tgt := t, addr := addr, write := false, len := size, fid := fid, signed := signed }
  match s.busAddr addr with
  | .rom o => s.busGive master addr size fid signed (wd (ofBytes ((List.range size).map fun i => Config.romByte (o + i)))) false
  | .sram o => s.busGive master addr size fid signed (wd ((s.bay 256).scratch.num o size)) false
  | .register o => reg (busAgent master) o
  | .security o =>
    if master = 3 then s.busFail master addr size fid 1 else reg .sill (0x60000000 + o)
  | .flash o => outer (.flash o)
  | .outer t => outer t
  | .scratch b o =>
    if !s.bayReached b then s.busFail master addr size fid 2
    else if (s.bay b).march then outer (.scratch b o)
    else
      let r := ((s.bay b).claimPort 1 false).outRead o
      (s.setBay b r.1).busGive master addr size fid signed (wordFrom r.2.1 o) r.2.2
  | .istore b o =>
    if !s.bayReached b then s.busFail master addr size fid 2
    else
      let c := s.bay b
      let m := markOf c.imarks (o / 4)
      let c1 := if m = 1 then c.corrected 1 (o / 4 * 4) else if m = 2 then c.storeUe (o / 4 * 4) else c
      (s.setBay b c1).busGive master addr size fid signed (wordFrom (c.istore.word (o / 4 * 4)) o) (decide (m = 2))
  | .nothing => s.busFail master addr size fid 1

/-- R446: a write of the low `size` bytes of v. The ROM discards it. DEDUCED, log entry 54. -/
def State.busWrite (s : State) (master addr size : Nat) (v : Word) : State :=
  let fail (kind : Nat) : State := s.busError master addr true kind
  match s.busAddr addr with
  | .rom _ => s
  | .sram o => s.onBay 256 fun c => { c with scratch := c.scratch.putNum o size v.toNat }
  | .register o => s.registerWrite (busAgent master) o size v
  | .security o => if master = 3 then fail 1 else s.registerWrite .sill (0x60000000 + o) size v
  | .flash _ => fail 1
  | .outer t =>
    s.outerAdd { master := master, tgt := t, addr := addr, write := true, len := size, data := toBytes size v.toNat }
  | .scratch b o =>
    if !s.bayReached b || decide (fcBase < o + size) then fail 2
    else if (s.bay b).march then
      s.outerAdd { master := master, tgt := .scratch b o, addr := addr, write := true, len := size, data := toBytes size v.toNat }
    else s.onBay b fun c => (c.claimPort 1 false).outWrite o size v false
  | .istore _ _ => fail 2
  | .nothing => fail 1

/-- R448: a fetch beyond T0 and T1 is a decode error of M0; the sill core's bay check is its own. -/
def State.busFetch (s : State) (addr : Nat) : State := s.busError 0 addr false 1

/-- The beats of a burst in address order. DESIGN CHOICE, log entry 10. DEDUCED, log entry 54. -/
def State.beats (s : State) (master addr : Nat) (write : Bool) : Nat → List Word → State
  | _, [] => s
  | i, w :: t =>
    let a := addr + 4 * i
    (if write then s.busWrite master a 4 w else s.busRead master a 4 none false).beats master addr write (i + 1) t

/-- R449: a burst of M2 or M3: refused whole where its beats would cross into another target. JTAG moves nothing while
locked (R504). `data` has one word a beat; what it holds does not matter to a read. DEDUCED, log entry 54. -/
def State.burst (s : State) (master addr : Nat) (write : Bool) (data : List Word) : State :=
  let a := addr / 4 * 4
  if !(decide (master = 2) || decide (master = 3)) || (decide (master = 3) && s.debugLocked 0) then s
  else if (List.range data.length).any fun i => decide (s.busTarget (a + 4 * i) ≠ s.busTarget a) then
    let t := s.busError master a write 3
    if write then t else t.emit (.answer { data := zeros (4 * data.length) })
  else s.beats master a write 0 data

end Sys2Proof.Machine
end

