-- ==== Sys2Proof/Machine/Settle.lean ====
section
/-!
DEFINITION. What the rest of the device does before a command ends: it serves what the bays asked for, answers for links
and bays that went down, lets the scribe, the raising unit and the outside agents go on, and looks at the interrupt
sources. A device in which nothing of this is due (`State.calm`) stays as the command left it.
-/
namespace Sys2Proof.Machine

/-- One piece of work is done. -/
def State.doWork (s : State) (w : Work) : State :=
  match w with
  | .refuse t reason => s.refused t.notq t.trig reason
  | .pathDown d p => s.pathDown d p
  | .bayGone b => if b < 256 then ((s.dropIssued b).bayMessages b).replaceAll b else s
  | .lost r isolated => s.lostAnswer r isolated

/-- The work that waits is done, in order. DESIGN CHOICE, log entry 9. -/
def State.doWorks (s : State) : State := s.work.foldl State.doWork { s with work := [] }

/-- Does the bay still run, so that what it asks for is served? -/
def State.askerRuns (s : State) (b : Nat) : Bool := decide ((s.bay b).state = 3) || decide ((s.bay b).state = 2)

/-- What bay b asks for is served. Requests into windows go with a bay that has gone down meanwhile (R471). DEDUCED,
log entry 29. -/
def State.serveReq (s : State) (b : Nat) (r : Req) : State :=
  match r with
  | .busLoad fid a n signed => s.busRead 1 a.toNat n (some fid) signed
  | .busStore a n v => s.busWrite 1 a.toNat n v
  | .busFetch a => s.busFetch a.toNat
  | .storeErr cls _ a => s.record { cls := cls, block := (bayBlock b).1, inst := (bayBlock b).2, addr := a,
                                    w8 := (s.bay b).ctx.errStat.read }
  | .checkRec cause info => s.checkRecord b cause info
  | .down cause _ ue a =>
    let t := (s.downRecord b cause (if ue then a else 0)).todo (.bayGone b)
    if ue then t.autoRetire b else t
  | .freed l => s.freeAway l.queue l.msg
  | .load _ _ _ _ _ _ => if s.askerRuns b then s.serve b r true 0 else s
  | .store _ _ _ _ _ _ _ => if s.askerRuns b then s.serve b r true 0 else s
  | .hash _ _ _ _ _ => if s.askerRuns b then s.serve b r true 0 else s
  | .range _ _ _ _ _ => if s.askerRuns b then s.serve b r true 0 else s
  | .leaf _ _ _ _ _ _ => if s.askerRuns b then s.serve b r true 0 else s

/-- Bay b's requests are served, in order. -/
def State.serveBay (s : State) (b : Nat) : State :=
  (s.bay b).reqs.foldl (fun t r => t.serveReq b r) (s.onBay b fun c => { c with reqs := [] })

/-- R111: the trace path of bay b writes its records to the bank; one that the bank turns away is lost. DEDUCED, log
entry 27. -/
def State.traceOut (s : State) (b : Nat) : State :=
  let d := (s.bay b).dbg
  d.trcPath.foldl (fun t e => (t.stgWrite (.trace b) (d.trcBank * 0x40000 + 16 * e.1) (bytesOf e.2) []).1)
    (s.onBay b fun c => { c with dbg := { c.dbg with trcPath := [] } })

/-- Every bay's requests and trace records. DESIGN CHOICE, log entry 9. -/
def State.serveAll (s : State) : State :=
  (s.bays.map (·.1)).foldl (fun t b => (t.serveBay b).traceOut b) s

/-- One round: work and requests, then the units that act on their own. DESIGN CHOICE, log entry 9. -/
def State.round (s : State) : State :=
  let s1 := s.doWorks.serveAll.doWorks
  let s2 := s1.scribeStep.scribeWaits
  let s3 := s2.quiesceGo.raiseZeroised.romNext
  s3.unpark.guestResume.outerAll.watchSources

/-- Does a bay ask for something, or work wait? -/
def State.due (s : State) : Bool :=
  !s.work.isEmpty || s.bays.any fun (e : Nat × Bay) => !e.2.reqs.isEmpty || !e.2.dbg.trcPath.isEmpty

/-- Rounds until nothing is due, `n` at most. DESIGN CHOICE, log entry 9. -/
def State.rounds : Nat → State → State
  | 0, s => s
  | n + 1, s => let t := s.round; if t.due then State.rounds n t else t

/-- Has the scribe nothing to go on with? -/
def Scribe.calm (x : Scribe) : Bool :=
  x.moves.isEmpty && x.taskMoves.isEmpty && x.decided.isEmpty && x.decidedTasks.isEmpty && x.evac.isNone && x.rel.isNone &&
    x.parked.isEmpty && x.outer.isEmpty && x.homeless.isEmpty && decide (x.taskWait = 0) && !x.pageWait

/-- Is nothing due that a command could set going: no work, requests or trace records, no move, evacuation, release or
access waiting, no page in the map beside a bay that is down, no raise, and no interrupt source that has changed?.
DESIGN CHOICE, log entry 9. -/
def State.calm (s : State) : Bool :=
  !s.due && s.scr.calm && s.scf.guestq.isEmpty &&
    (s.scr.pages.isEmpty || !s.bays.any fun (e : Nat × Bay) => decide (e.2.state = 4)) &&
    !s.rsu.busy && s.rsu.rom.isNone &&
    (List.range 4).all fun i => decide (tgetD false s.hb.outs i = s.sourceOut i)

/-- What a command leaves is brought to rest before the next. DESIGN CHOICE, log entry 9. -/
def State.close (s : State) : State := if s.calm then s else State.rounds 16 s

end Sys2Proof.Machine
end

