-- ==== Sys2Proof/Machine/Commands.lean ====
section
/-!
DEFINITION. What the commands share: how a command runs, and the operations of commands that are no register write and
have no description of their own in another file.
-/
namespace Sys2Proof.Machine

/-! ## How a command runs -/

/-- The state that a command starts from: what the last command sent out is gone. The queue is put aside. DESIGN
CHOICE, log entry 1. -/
def State.start (s : State) : State := { s with out := [], pending := [] }

/-- The state that a command leaves: everything it set going comes to rest, and the queue is what it was. DESIGN
CHOICE, log entry 1. -/
def State.finish (s t : State) : State := { t.close with pending := s.pending }

/-- A command's effect, as an outcome. DESIGN CHOICE, log entry 1. -/
def State.run (s : State) (f : State → State) : Host.Outcome State Fault Refusal := .next (s.finish (f s.start))

/-- R38: a 32-bit register read whose word is answered. -/
def State.regAnswer (s : State) (ag : Agent) (a : Nat) : State :=
  (s.regRead ag a).1.emit (.answer { data := toBytes 4 (s.regRead ag a).2.toNat })

/-! ## Registers -/

/-- R45, R48, R49, R271: the peg in progress is applied in every block, the pending queue descriptors among them. -/
def State.pegApplied (s : State) : State := if s.regs.busy then (s.pegWords s.regDown).applyPending else s

/-! ## Bays -/

/-- Base of the bay window of bay b (R104). -/
def bayWindow (b : Nat) : Nat := 0x1000000 + 0x10000 * b

/-- MBX_LO of mailbox m of bay b (R106). -/
def mailboxAddr (b m : Nat) : Nat := bayWindow b + 0x2000 + 16 * m

/-- Is b the sill core, or a bay of a bent that is there? -/
def State.coreHere (s : State) (b : Nat) : Bool := decide (b = 256) || (decide (b < 256) && s.bentHere (b / 16))

/-- Does code execute on bay b: it is in RUN, or in TEST, where it executes a step at a time? -/
def State.codeRuns (s : State) (b : Nat) : Bool :=
  s.coreHere b && (decide ((s.bay b).state = 3) || decide ((s.bay b).state = 2))

/-- One clock of a bay (R84), after the errors that strike its stores. DESIGN CHOICE, log entry 5. -/
def State.bundle (s : State) (b : Nat) (u : List (Nat × Nat × Nat)) : State :=
  if s.coreHere b then
    let s1 := if b < 256 then s.onBay b fun c => c.upset u else s
    ((s1.syncBay b).onBay b Bay.tick).reachGuard b (s.bay b).str
  else s

/-- Is the result of an operation of this instance due now? A stepped bay drains whatever is in progress (R112). -/
def Bay.resultDue (b : Bay) (unit inst : Nat) (f : Flight) : Bool :=
  decide (f.unit = unit) && decide (f.inst = inst) && f.out.isNone && (decide (f.left ≤ 1) || decide (b.state = 2))

/-- In a hold nothing moves but the instances that waiting SLIP_HOLD triggers name (R92, R182). -/
def Bay.movesOn (b : Bay) (unit inst : Nat) : Bool :=
  !b.held || (match b.pipe.hold with
    | none => false
    | some h => h.waits.any fun w => decide (w.cause = 4) && decide (w.unit = unit) && decide (w.inst = inst))

/-- R75, R85, R90: the due result of an instance reaches its port. -/
def Bay.resultArrives (b : Bay) (unit inst : Nat) : Bay :=
  if b.movesOn unit inst then
    { b with pipe := { b.pipe with
        flights := b.pipe.flights.map (fun (f : Flight) => if b.resultDue unit inst f then { f with left := 0 } else f) } }.deliver
  else b

/-- RESULT_ARRIVAL at bay b. -/
def State.resultArrives (s : State) (b unit inst : Nat) : State :=
  if s.codeRuns b then s.onBay b fun c => c.resultArrives unit inst else s

/-- Does the bay stand before a bundle, with nothing of an entry, exit or hold in progress? A fault that waits ends a
return in progress. -/
def Bay.atRest (b : Bay) : Bool :=
  decide (b.state = 3) && !b.held && decide (b.pipe.idle = 0) && (b.pipe.ret.isNone || b.pipe.fault.isSome)

/-- R212–R230: the fault that waits is taken; the entry's six cycles follow. -/
def Bay.takesFault (b : Bay) : Bay :=
  if b.atRest then
    match b.pipe.fault with
    | some f => ({ b with ctx := b.ctx.modesDue }).faultBoundary f 6
    | none => b
  else b

/-- FAULT_ENTRY at bay b. -/
def State.takesFault (s : State) (b : Nat) : State :=
  if s.coreHere b then (s.syncBay b).onBay b Bay.takesFault else s

/-- R206–R208, R219: the eligible event that the boundary admits is taken, DISPATCH apart: after an element of a repeat,
while a WAIT waits, between bundles, and for SVC behind its trigger. -/
def Bay.takesEvent (b0 : Bay) : Bay :=
  let b := { b0 with ctx := b0.ctx.modesDue }
  if !b.atRest || b.pipe.fault.isSome || b.ctx.check then b0
  else
    let go (s : Option Nat) (repu : Bool) : Bay :=
      match s with
      | some n => if n = 0 ∧ !b.sill then b0 else b.takeEvent n repu 6
      | none => b0
    match b.pipe.svcNow, b.pipe.rep with
    | some q, _ => b.svcBoundary q 6
    | none, some r => if r.boundary && !b.dbg.testReq then go (b.pickAt b.ctx.mask false) true else b0
    | none, none =>
      if b.pipe.waiting then (if b.dbg.testReq then b0 else go (b.pickAt b.ctx.mask true) false)
      else if b.boundary then (if b.dbg.testReq then b0 else go (b.pickAt b.ctx.mask false) false)
      else b0

/-- EVENT_ENTRY at bay b. -/
def State.takesEvent (s : State) (b : Nat) : State :=
  if s.coreHere b then (s.syncBay b).onBay b Bay.takesEvent else s

/-- R252, R253: a waiting bay to which DISPATCH is the event to take starts a handler run. -/
def Bay.takesDispatch (b0 : Bay) : Bay :=
  let b := { b0 with ctx := b0.ctx.modesDue }
  if b.atRest && b.pipe.fault.isNone && b.pipe.svcNow.isNone && b.pipe.rep.isNone && !b.ctx.check && b.pipe.waiting &&
      !b.dbg.testReq && !b.sill && decide (b.pickAt b.ctx.mask true = some 0) then b.dispatch 6
  else b0

/-- DISPATCH_ENTRY at bay b. -/
def State.takesDispatch (s : State) (b : Nat) : State :=
  if s.coreHere b then (s.syncBay b).onBay b Bay.takesDispatch else s

/-- R104, R203: code on bay b stores a word at I/O address a. A store below the privilege that the address needs
faults where its bundle issues and never gets here (R94). DEDUCED, log entry 28. -/
def State.bayIo (s : State) (b a : Nat) (v : Word) : State :=
  if s.codeRuns b && decide (ioPriv a ≤ (s.bay b).ctx.priv) then (s.syncBay b).onBay b fun c => c.ioWrite a v else s

/-- MODE_CHANGE_EFFECT at bay b (R233). -/
def State.modesTake (s : State) (b : Nat) : State :=
  if s.codeRuns b then s.onBay b fun c => { c with ctx := c.ctx.modesDue } else s

/-- R100, R234: a structural write: by machine code of the bay itself, which faults STRUCT_LOCKED in RUN outside bay
check, or through the bay window. DEDUCED, log entry 28. -/
def State.structural (s : State) (ag : Agent) (b o : Nat) (v : Word) : State :=
  match ag with
  | .bay k =>
    if decide (k = b) && structAddr o && s.codeRuns b && decide (2 ≤ (s.bay b).ctx.priv) then
      if (s.bay b).state = 3 ∧ !(s.bay b).ctx.check ∧ b ≠ 256 then s.onBay b fun c => c.faultHere 0x05 (wd o)
      else s.onBay b fun c => c.ioWrite o v
    else s
  | _ => if structAddr o then s.regWrite ag (bayWindow b + o) v else s

/-- TIMER_EXPIRY (R171): timer n of bay b decrements from 1. DEDUCED, log entry 30. -/
def State.timerExpires (s : State) (b n : Nat) : State :=
  let t := (s.bay b).tmr
  if s.coreHere b && decide ((s.bay b).state = 3) && !(s.bay b).held && decide (n < 4) && t.counts n &&
      decide (t.count n = 1#32) then
    s.onBay b fun c => { c with tmr := (c.tmr.dec n).expire n }
  else s

/-- MBX_POST (R107): code on bay b posts a value in mailbox m. -/
def State.mailboxPost (s : State) (b m : Nat) (v : Word) : State :=
  if s.codeRuns b && decide (m < 4) && decide (b < 256) then s.onBay b fun c => c.mbxPost m v else s

/-- A register of bay b: by code of the bay itself, or through the bay window. -/
def State.bayRegister (s : State) (ag : Agent) (b o : Nat) (v : Word) : State :=
  match ag with
  | .bay k => if k = b then s.bayIo b o v else s
  | _ => s.regWrite ag (bayWindow b + o) v

/-- R113, R208: the bay was told to ENTER and stands at an event boundary: after an element of a repeat, in WAIT, or
between bundles. -/
def State.testStops (s : State) (b : Nat) : State :=
  let c := s.bay b
  let here := match c.pipe.rep with
    | some r => r.boundary
    | none => c.pipe.waiting || c.boundary
  if s.coreHere b && c.atRest && c.dbg.testReq && c.pipe.fault.isNone && c.pipe.svcNow.isNone && !c.ctx.check && here then
    s.onBay b Bay.enterTest
  else s

/-! ## Requests from outside -/

/-- R275, R280, R554: a word access of an outside agent to the scratch of bay b. The fault cell takes no outside
write. While a March test runs on the bay, outside words wait for its end (R298). -/
def State.outsideWord (s : State) (b a : Nat) (write : Bool) (v : Word) (poison waited : Bool)
    (u : List (Nat × Nat × Nat)) : State :=
  let w : OutWord := { addr := a / 4 * 4, write := write, val := v, poison := poison }
  if decide (256 ≤ b) || !s.bayReached b then s
  else if (s.bay b).march then s.onBay b fun c => { c.upset u with outq := c.outq ++ [w] }
  else (s.onBay b fun c => (c.upset u).claimPort 1 waited).outWord b w

/-- R287, R522: a request at a staging bank, whose control may have failed. PRESUMED, log entry 37. -/
def State.stagingAccess (s : State) (ag : Agent) (a : Nat) (write : Bool) (data : List Byte) (bad : List Nat) (len : Nat)
    (u : List (Nat × Nat)) (ctrl : Bool) : State :=
  if !s.stgOn then s.emit (.answer { err := some .isolated })
  else if ctrl then s.fatal 2 (a / 0x40000) a 0#32
  else
    let s1 := s.stgUpset (a / 0x40000) u
    let r := if write then s1.stgWrite ag a data bad else s1.stgRead ag a len
    r.1.emit (.answer r.2)

/-- R309, R316, R522: a request at a DDR4 channel, whose controller may have failed. PRESUMED, log entry 37. -/
def State.ddrAccess (s : State) (a : Nat) (write : Bool) (n : Nat) (data : List Byte) (poison : Bool) (ns : Nat)
    (u : List (Nat × Nat)) (ctrl : Bool) : State :=
  if ctrl && s.on (chanDom (chanOf a)) then s.fatal 3 (chanOf a) a 0#32
  else
    s.ddrRequest { addr := a, write := write, len := n, data := data, poison := poison, ns := ns } u

/-- R499: a post, at port H by the host or at port S by the sill core. -/
def State.secPostAt (s : State) (p : Bool) (v : Word) : State :=
  if p then s.regWrite .sill 0x60000300 v else s.regWrite .host 0x20300 v

/-! ## Supplies and clocks -/

/-- R465, R537: a monitored rail has been out of range for 10 µs. -/
def State.railFails (s : State) : State := ({ s with rst := { s.rst with railOut := true } }).assertReset 4

/-- R468, R469, R537: a source lets go. A rail that lets go is back within its limits; the board holds COLD_RST_N low
until VDDQ and VPP are within theirs. DEDUCED, log entry 58. -/
def State.sourceBack (s : State) (src : Nat) : State :=
  if src = 4 then ({ s with rst := { s.rst with railOut := false } }).releaseReset 4
  else if src = 2 then ({ s with ddr := { s.ddr with rails := true } }).releaseReset 2
  else s.releaseReset src

/-- A microsecond of the clocks that count whatever is commanded: the queue manager's and the scribe's counts (R258,
R336), which stand while PD_STG is off, device time (R417), the watchdog (R478). The scribe's count waits before a
multiple of 1,000 for the epoch boundary's own command. DESIGN CHOICE, log entry 5. -/
def State.microsecond (s : State) : State :=
  let s1 := if s.stgOn then
      { s with qm := { s.qm with us := s.qm.us + 1 },
               scr := { s.scr with us := if s.scr.us % 1000 = 999 then s.scr.us else s.scr.us + 1 } }
    else s
  let s2 := if s1.on 19 then { s1 with scf := s1.scf.moveTime 65536000 } else s1
  s2.wdgTick

/-- R483: the RTC crystal takes over CLK_AON. -/
def State.crystalRuns (s : State) : State := { s with rst := { s.rst with rtc := true } }

end Sys2Proof.Machine
end

