-- ==== Sys2Proof/Machine/CmdBay.lean ====
section
/-!
DEFINITION. The meanings of the commands of bays, their mailboxes, entries and ledgers.
-/
namespace Sys2Proof.Machine

/-- R70–R94, R114–R176, R182–R196 and R223–R256: one clock of bay `b`, or of the sill core at 256; `upsets` are the
storage errors that strike the bay first (array, word, error). -/
def execBundleIssue (b : Nat) (upsets : List (Nat × Nat × Nat)) (s : State) : Host.Outcome State Fault Refusal :=
  s.run fun t => t.bundle b upsets

/-- R75, R85, R86, R90, R92, R93, R166: the due result of an instance's in-bay operation reaches its port. -/
def execResultArrival (b : Nat) (unit : Nat) (inst : Nat) (s : State) : Host.Outcome State Fault Refusal :=
  s.run fun t => t.resultArrives b unit inst

/-- R89, R182–R194, R316, R518, R519: one response for the access with serial number `fid` comes back; `ns` is the
channel time of a DDR4 access. -/
def execWindowResponse (b : Nat) (fid : Nat) (ns : Nat) (s : State) : Host.Outcome State Fault Refusal :=
  s.run fun t => t.windowResponse b fid ns

/-- R212–R230, R521, R525: the detected fault of bay `b` is taken at its boundary. -/
def execFaultEntry (b : Nat) (s : State) : Host.Outcome State Fault Refusal :=
  s.run fun t => t.takesFault b

/-- R206–R222, R349, R445, R520: bay `b` takes its eligible event at an eligible boundary. -/
def execEventEntry (b : Nat) (s : State) : Host.Outcome State Fault Refusal :=
  s.run fun t => t.takesEvent b

/-- R252–R254, R257, R194, R221: bay `b` starts a handler run at a WAIT boundary. -/
def execDispatchEntry (b : Nat) (s : State) : Host.Outcome State Fault Refusal :=
  s.run fun t => t.takesDispatch b

/-- R205, R233: code on bay `b` writes BAY_PRIV. -/
def execBayPrivWrite (b : Nat) (v : Word) (s : State) : Host.Outcome State Fault Refusal :=
  s.run fun t => t.bayIo b 0x3010 v

/-- R210, R233: code on bay `b` writes BAY_MASK. -/
def execBayMaskWrite (b : Nat) (v : Word) (s : State) : Host.Outcome State Fault Refusal :=
  s.run fun t => t.bayIo b 0x3014 v

/-- R211, R233: code on bay `b` writes BAY_GCFG. -/
def execBayGcfgWrite (b : Nat) (v : Word) (s : State) : Host.Outcome State Fault Refusal :=
  s.run fun t => t.bayIo b 0x3018 v

/-- R233: mode changes of bay `b` whose three bundles have run take effect. -/
def execModeChangeEffect (b : Nat) (s : State) : Host.Outcome State Fault Refusal :=
  s.run fun t => t.modesTake b

/-- R100–R103, R234: an agent writes the structural register at I/O address `o` of bay `b`. -/
def execStructWrite (ag : Agent) (b : Nat) (o : Nat) (v : Word) (s : State) : Host.Outcome State Fault Refusal :=
  s.run fun t => t.structural ag b o v

/-- R141, R142: code on bay `b` writes IWR_DATA. -/
def execIwrDataWrite (b : Nat) (v : Word) (s : State) : Host.Outcome State Fault Refusal :=
  s.run fun t => t.bayIo b 0x3104 v

/-- R231, R232: code on bay `b` writes PLB_CTL.DROP = 1. -/
def execPlbDrop (b : Nat) (s : State) : Host.Outcome State Fault Refusal :=
  s.run fun t => t.bayIo b 0x3058 1#32

/-- R231, R232: code on bay `b` writes PLB_FILL. -/
def execPlbFill (b : Nat) (v : Word) (s : State) : Host.Outcome State Fault Refusal :=
  s.run fun t => t.bayIo b 0x305C v

/-- R52, R171: timer `n` of bay `b` decrements from 1. -/
def execTimerExpiry (b : Nat) (n : Nat) (s : State) : Host.Outcome State Fault Refusal :=
  s.run fun t => t.timerExpires b n

/-- R107: bay `b` posts `v` in mailbox `m`. -/
def execMbxPost (b : Nat) (m : Nat) (v : Word) (s : State) : Host.Outcome State Fault Refusal :=
  s.run fun t => t.mailboxPost b m v

/-- R38, R106, R108, R110: an agent reads MBX_LO of mailbox `m`. -/
def execMbxLoRead (ag : Agent) (b : Nat) (m : Nat) (s : State) : Host.Outcome State Fault Refusal :=
  s.run fun t => t.regAnswer ag (mailboxAddr b m)

/-- R38, R106, R108, R110: an agent reads MBX_HI of mailbox `m`. -/
def execMbxHiRead (ag : Agent) (b : Nat) (m : Nat) (s : State) : Host.Outcome State Fault Refusal :=
  s.run fun t => t.regAnswer ag (mailboxAddr b m + 4)

/-- R109, R110: an agent writes MBX_ACK of mailbox `m`; only the host's counts. -/
def execMbxAck (ag : Agent) (b : Nat) (m : Nat) (v : Word) (s : State) : Host.Outcome State Fault Refusal :=
  s.run fun t => t.regWrite ag (mailboxAddr b m + 8) v

/-- R111: an agent writes BAY_TRC_CTL with ENABLE = 1. -/
def execTraceEnable (ag : Agent) (b : Nat) (v : Word) (s : State) : Host.Outcome State Fault Refusal :=
  s.run fun t => t.bayRegister ag b 0x5000 (v ||| 1#32)

/-- R100, R112: an agent writes BAY_DBG.STEP through the bay window. -/
def execStep (ag : Agent) (b : Nat) (s : State) : Host.Outcome State Fault Refusal :=
  s.run fun t => t.regWrite ag (bayWindow b + 0x5010) 1#32

/-- R113: an agent writes ENTER to BAY_TSTCTL. -/
def execEnter (ag : Agent) (b : Nat) (s : State) : Host.Outcome State Fault Refusal :=
  s.run fun t => t.regWrite ag (bayWindow b + 0x5014) 1#32

/-- R100, R113: an agent writes EXIT to BAY_TSTCTL. -/
def execExit (ag : Agent) (b : Nat) (s : State) : Host.Outcome State Fault Refusal :=
  s.run fun t => t.regWrite ag (bayWindow b + 0x5014) 2#32

/-- R113: a bay that was told to ENTER stops at the event boundary where it stands. -/
def execTestEntryStop (b : Nat) (s : State) : Host.Outcome State Fault Refusal :=
  s.run fun t => t.testStops b

/-- R58, R191, R193: LEDGER_CTL.CLEAR of bay `b`. -/
def execLedgerClear (b : Nat) (s : State) : Host.Outcome State Fault Refusal :=
  s.run fun t => t.regWrite .host (0x9403C + 0x40 * b) 1#32

/-- R186, R486: a throttle period of bent `n` begins. -/
def execThrottlePeriod (n : Nat) (s : State) : Host.Outcome State Fault Refusal :=
  s.run fun t => t.throttlePeriod n

/-- R486: the millisecond's adjustment of every DUTY. -/
def execThrottleAdjust (s : State) : Host.Outcome State Fault Refusal :=
  s.run fun t => if t.wideHeld then t else t.throttleAdjust

end Sys2Proof.Machine
end

