-- ==== Sys2Proof/Machine/CmdBg.lean ====
section
/-!
DEFINITION. The meanings of the commands of background work and error records.
-/
namespace Sys2Proof.Machine

/-- R35, R36, R52, R510–R516: the serialiser hands its oldest record to the telemetry queue. -/
def execRecordPost (s : State) : Host.Outcome State Fault Refusal :=
  s.run fun t => t.recordPost

/-- R514: BG_TELPER.MS milliseconds have passed. -/
def execPeriodic (s : State) : Host.Outcome State Fault Refusal :=
  s.run fun t => t.periodic

/-- R523, R524: the sill core writes BG_RETIRE with GO = 1. -/
def execBgRetire (v : Word) (s : State) : Host.Outcome State Fault Refusal :=
  s.run fun t => t.regWrite .sill 0x90120 (v ||| 0x80000000#32)

/-- R523: the evacuation has ended and the retirement finishes. -/
def execRetirementFinish (s : State) : Host.Outcome State Fault Refusal :=
  s.run fun t => t.retireFinish

/-- R526, R527: PERIOD hours have passed. -/
def execJournalPatrol (s : State) : Host.Outcome State Fault Refusal :=
  s.run fun t => t.patrolStart

/-- R526, R528: the patrol has read the slots. -/
def execJournalPatrolEnd (s : State) : Host.Outcome State Fault Refusal :=
  s.run fun t => t.patrolEnd

end Sys2Proof.Machine
end

