-- ==== Sys2Proof/Machine/CmdDdr.lean ====
section
/-!
DEFINITION. The meanings of the commands of DDR4 channels.
-/
namespace Sys2Proof.Machine

/-- R302–R304, R322, R323: a write to MEMc_CTL with INIT = 1. -/
def execInit (c : Nat) (v : Word) (s : State) : Host.Outcome State Fault Refusal :=
  s.run fun t => t.regWrite .host (0x60004 + 0x2000 * c) (v ||| 1#32)

/-- R323: the training of channel `c` ends: READY where `failed` is 0, else FAILED at that step; `t0`, `t1` are the
DIMM temperatures read. -/
def execTrainingComplete (c : Nat) (failed : Nat) (t0 : Nat) (t1 : Nat)
    (s : State) : Host.Outcome State Fault Refusal :=
  s.run fun t => t.trained c failed t0 t1

/-- R324: a write to MEMc_CTL with SR = 1. -/
def execSrEnter (c : Nat) (v : Word) (s : State) : Host.Outcome State Fault Refusal :=
  s.run fun t => t.regWrite .host (0x60004 + 0x2000 * c) (v ||| 2#32)

/-- R324: channel `c` reaches SELFREF. -/
def execSelfrefEntered (c : Nat) (s : State) : Host.Outcome State Fault Refusal :=
  s.run fun t => t.srEntered c

/-- R324: a write to MEMc_CTL with SR = 0. -/
def execSrExit (c : Nat) (v : Word) (s : State) : Host.Outcome State Fault Refusal :=
  s.run fun t => t.regWrite .host (0x60004 + 0x2000 * c) (v &&& 0xFFFFFFFD#32)

/-- R324: channel `c` is READY again. -/
def execSelfrefExited (c : Nat) (s : State) : Host.Outcome State Fault Refusal :=
  s.run fun t => t.srExited c

/-- R326: a write to MEMc_CTL with CLRMAX = 1. -/
def execClrmax (c : Nat) (v : Word) (s : State) : Host.Outcome State Fault Refusal :=
  s.run fun t => t.regWrite .host (0x60004 + 0x2000 * c) (v ||| 16#32)

/-- R29, R306–R309, R312, R313, R319, R320, R552, R522: a request at device memory address `a`: a read of `n` bytes or
a write of `data`; `ns` is its channel time, `ctrl` an uncorrectable controller error. -/
def execDdr4Request (a : Nat) (write : Bool) (n : Nat) (data : List Byte) (poison : Bool) (ns : Nat) (upsets : List (Nat × Nat)) (ctrl : Bool)
    (s : State) : Host.Outcome State Fault Refusal :=
  s.run fun t => t.ddrAccess a write n data poison ns upsets ctrl

/-- R314, R315, R319: a refresh episode of a rank begins. -/
def execRefreshEpisode (c : Nat) (rank : Nat) (s : State) : Host.Outcome State Fault Refusal :=
  s.run fun t => t.refreshStart c rank

/-- R315, R316, R319, R321: a refresh episode ends after its scrub line. -/
def execRefreshEnd (c : Nat) (rank : Nat) (upsets : List (Nat × Nat))
    (s : State) : Host.Outcome State Fault Refusal :=
  s.run fun t => t.refreshEnd c rank upsets

/-- R317: the 128 ms calibration command blocks a rank. -/
def execZqcs (c : Nat) (rank : Nat) (s : State) : Host.Outcome State Fault Refusal :=
  s.run fun t => t.zqcs c rank

/-- R317: an ALERT_N parity error on channel `c`. -/
def execCaParityAlert (c : Nat) (s : State) : Host.Outcome State Fault Refusal :=
  s.run fun t => t.caParity c

/-- R314, R318, R326: the DIMM sensors of channel `c` read `t0` and `t1`. -/
def execDimmTempPoll (c : Nat) (t0 : Nat) (t1 : Nat) (s : State) : Host.Outcome State Fault Refusal :=
  s.run fun t => t.tempPoll c t0 t1

/-- R318: a retraining slice of channel `c`; `last` ends the retraining. -/
def execRetrainSlice (c : Nat) (last : Bool) (s : State) : Host.Outcome State Fault Refusal :=
  s.run fun t => t.retrainSlice c last

/-- R324: VDDQ or VPP fails at channel `c`; `back` tells that the rails have come back. -/
def execVddqLoss (c : Nat) (back : Bool) (s : State) : Host.Outcome State Fault Refusal :=
  s.run fun t => t.vddqLoss c back

end Sys2Proof.Machine
end

