-- ==== Sys2Proof/Machine/CmdHost.lean ====
section
/-!
DEFINITION. The meanings of the commands of the host interface and Ethernet.
-/
namespace Sys2Proof.Machine

/-- R8, R39, R40, R67, R422, R426, R427: a host request of `n` dwords at BAR0 offset `off` with its first and last
byte enables. -/
def execBar0Request (write : Bool) (off : Nat) (n : Nat) (fbe : Nat) (lbe : Nat) (data : List Word) (poison : Bool)
    (s : State) : Host.Outcome State Fault Refusal :=
  s.run fun t => t.bar0Request write off n fbe lbe data poison

/-- R426, R427, R429, R430: a host read of `n` bytes at an offset of BAR4 or of the doorbell pages (R261). -/
def execBar4Read (off : BarOffset) (n : Nat) (s : State) : Host.Outcome State Fault Refusal :=
  s.run fun t => t.hostRead off.bar2 off.off n

/-- R427–R430, R433: a host write at BAR4 offset `off`; `req`: requester ID and tag. -/
def execBar4Write (off : Nat) (data : List Byte) (poison : Bool) (req : Word) (s : State) :
    Host.Outcome State Fault Refusal :=
  s.run fun t => t.bar4Write off data poison req

/-- R426, R433: a malformed request with its header. -/
def execMalformedTlp (hdr : List Word) (s : State) : Host.Outcome State Fault Refusal :=
  s.run fun t => t.malformed hdr

/-- R432: the host writes MSI-X Enable and the Function Mask. -/
def execMsixEnable (on : Bool) (fmask : Bool) (s : State) : Host.Outcome State Fault Refusal :=
  s.run fun t => if t.hb.up then t.msixControl on fmask else t

/-- R432: the host writes the Vector Control word of vector `v` with its mask bit 0. -/
def execMsixUnmask (v : Nat) (s : State) : Host.Outcome State Fault Refusal :=
  s.run fun t => t.regWrite .host (0x8800C + 16 * v) 0#32

/-- R423, R467: the PCIe link trains; `gen` and `width` are the most the other end offers. -/
def execPcieLinkUp (gen : Nat) (width : Nat) (s : State) : Host.Outcome State Fault Refusal :=
  s.run fun t => t.hostUp gen width

/-- R435–R437, R440: a frame without its FCS arrives at MAC `m`; `good` tells that the FCS matched, `time` the part of a
microsecond since SCF_TIME was brought up to date. -/
def execEthFrameReceive (m : Nat) (data : List Byte) (good : Bool) (time : Nat)
    (s : State) : Host.Outcome State Fault Refusal :=
  s.run fun t => t.frameIn m data good time

/-- R438: MAC `m` takes the oldest message of the highest class. -/
def execEthTransmit (m : Nat) (s : State) : Host.Outcome State Fault Refusal :=
  s.run fun t => t.ethTake m

/-- R438, R440: the last byte of MAC `m`'s frame leaves, `time` into a microsecond. -/
def execEthTransmitDone (m : Nat) (time : Nat) (s : State) : Host.Outcome State Fault Refusal :=
  s.run fun t => t.ethSent m time

/-- R439, R441: the link of MAC `m` reaches UP. -/
def execEthLinkUp (m : Nat) (s : State) : Host.Outcome State Fault Refusal :=
  s.run fun t => t.ethUp m

/-- R439: the link of MAC `m` leaves UP. -/
def execEthLinkDown (m : Nat) (s : State) : Host.Outcome State Fault Refusal :=
  s.run fun t => t.ethDown m

/-- R441: a write to ETHm_CTL. -/
def execEthEnable (m : Nat) (v : Word) (s : State) : Host.Outcome State Fault Refusal :=
  s.run fun t => t.regWrite .host (0x80000 + 0x2000 * m) v

/-- R433: the endpoint detects the error of AER status bit `k`, numbered in the order of R433's table, with the header
of the TLP. -/
def execAerError (k : Nat) (hdr : List Word) (s : State) : Host.Outcome State Fault Refusal :=
  s.run fun t => if t.on 20 && decide (t.rst.reach < 3) then t.aer k hdr else t

/-- R422, R425, R431, R433: a host configuration request of one dword: a write to Power Management
Control/Status (offset 0x44) moves the endpoint between D0 and D3hot. -/
def execD3hotTransition (req : ConfigRequest) (s : State) : Host.Outcome State Fault Refusal :=
  s.run fun t => t.pciRequest req.write req.off req.v

end Sys2Proof.Machine
end

