-- ==== Sys2Proof/Machine/CmdMgmt.lean ====
section
/-!
DEFINITION. The meanings of the commands of the management complex.
-/
namespace Sys2Proof.Machine

/-- R448, R449, R451: a burst of master 2 (image) or 3 (JTAG); `data` has one word for each beat. -/
def execCrossbarBurst (master : Nat) (a : Nat) (write : Bool) (data : List Word)
    (s : State) : Host.Outcome State Fault Refusal :=
  s.run fun t => t.burst master a write data

/-- R452: the sill core writes MX_CTL. -/
def execRemap (v : Word) (s : State) : Host.Outcome State Fault Refusal :=
  s.run fun t => t.regWrite .sill 0xA0100 v

/-- R458, R475: the sill core writes MX_BOOT.OK = 1. -/
def execBootOk (s : State) : Host.Outcome State Fault Refusal :=
  s.run fun t => t.regWrite .sill 0xA0104 (t.reg 0xA0104 ||| 1#32)

/-- R458, R475: the sill core writes MX_BOOT.FAIL = 1. -/
def execBootFail (s : State) : Host.Outcome State Fault Refusal :=
  s.run fun t => t.regWrite .sill 0xA0104 (t.reg 0xA0104 ||| 2#32)

/-- R458, R475: 2 s have passed since the exit without BOOT_OK. -/
def execBootWindowExpiry (s : State) : Host.Outcome State Fault Refusal :=
  s.run fun t => t.windowExpires

/-- R460: the host writes MXH_POST. -/
def execMxhPost (v : Word) (s : State) : Host.Outcome State Fault Refusal :=
  s.run fun t => t.regWrite .host 0xA0080 v

/-- R461: the sill core writes MXH_DONE. -/
def execMxhDone (v : Word) (s : State) : Host.Outcome State Fault Refusal :=
  s.run fun t => t.regWrite .sill 0xA0088 v

/-- R462: mailbox service STATUS. -/
def execMxhStatus (s : State) : Host.Outcome State Fault Refusal :=
  s.run fun t => t.svcStatus

/-- R462: mailbox service FLASH_READ; `ok` tells that the flash device answered. -/
def execFlashRead (ok : Bool) (s : State) : Host.Outcome State Fault Refusal :=
  s.run fun t => t.svcFlashRead ok

/-- R462: mailbox service FLASH_WRITE; `ok` tells that the flash device answered. -/
def execFlashWrite (ok : Bool) (s : State) : Host.Outcome State Fault Refusal :=
  s.run fun t => t.svcFlashWrite ok

/-- R462: mailbox service FLASH_ERASE; `ok` tells that the flash device answered. -/
def execFlashErase (ok : Bool) (s : State) : Host.Outcome State Fault Refusal :=
  s.run fun t => t.svcFlashErase ok

/-- R462, R477: mailbox service LEAVE_SHORING. -/
def execLeaveShoring (s : State) : Host.Outcome State Fault Refusal :=
  s.run fun t => t.svcLeaveShoring

/-- R387, R457: the sill core calls ROM_RAISE with staging address `a`. -/
def execRomRaise (a : Nat) (s : State) : Host.Outcome State Fault Refusal :=
  s.run fun t => t.romRaise a

/-- R463, R464, R527: the sill core writes XSPI_CMD with GO = 1. -/
def execXspiGo (v : Word) (s : State) : Host.Outcome State Fault Refusal :=
  s.run fun t => t.regWrite .sill 0x48000004 (v ||| 0x80000000#32)

/-- R464: the flash command ends: the words received, and what the flash holds from byte `at_` on if the command
changed it. -/
def execXspiCmdDone (rx : List Word) (at_ : Nat) (new : List Byte) (s : State) : Host.Outcome State Fault Refusal :=
  s.run fun t => t.xspiDone rx at_ new

/-- R38, R463: the sill core reads XSPI_DATA. -/
def execXspiDataRead (s : State) : Host.Outcome State Fault Refusal :=
  s.run fun t => t.regAnswer .sill 0x48000010

/-- R463: the sill core writes SMB_XFER with GO = 1. -/
def execSmbGo (v : Word) (s : State) : Host.Outcome State Fault Refusal :=
  s.run fun t => t.regWrite .sill 0x48001004 (v ||| 0x80000000#32)

/-- R463: the SMBus transfer completes: acknowledged, PEC matched, bytes received. -/
def execSmbXferDone (ack : Bool) (pec : Bool) (data : List Byte) (s : State) : Host.Outcome State Fault Refusal :=
  s.run fun t => t.smbDone ack pec data

/-- R463: a transaction for target address 0x62 is received. -/
def execSmbTargetRx (pec : Bool) (data : List Byte) (s : State) : Host.Outcome State Fault Refusal :=
  s.run fun t => t.smbTarget pec data

/-- R38, R463: the sill core reads SMB_DATA. -/
def execSmbDataRead (s : State) : Host.Outcome State Fault Refusal :=
  s.run fun t => t.regAnswer .sill 0x48001008

/-- R38, R463: the sill core reads UART_DATA. -/
def execUartDataRead (s : State) : Host.Outcome State Fault Refusal :=
  s.run fun t => t.regAnswer .sill 0x48002004

/-- R463: a byte arrives on UART_RXD, well framed or not. -/
def execUartRxByte (x : Byte) (framed : Bool) (s : State) : Host.Outcome State Fault Refusal :=
  s.run fun t => t.uartRx x framed

/-- R442, R463: the levels at the input pins become `levels`. -/
def execGpioEdge (levels : PinLevels) (s : State) : Host.Outcome State Fault Refusal :=
  s.run fun t => t.gpioPins levels

/-- R442, R463: a byte finishes leaving on UART_TXD. -/
def execUartTxByte (s : State) : Host.Outcome State Fault Refusal := s.run State.uartTx

end Sys2Proof.Machine
end

