-- ==== Sys2Proof/Machine/CmdQueues.lean ====
section
/-!
DEFINITION. The meanings of the commands of messages, doorbells and host rings.
-/
namespace Sys2Proof.Machine

/-- R28, R247, R248: the head message of bay `b`'s send queue leaves. -/
def execSendQueueDepart (b : Nat) (s : State) : Host.Outcome State Fault Refusal :=
  s.run fun t => t.depart b

/-- R27, R34, R235–R240, R249, R251, R260, R553: the `k`-th message under way reaches its home agent. -/
def execMessageCommit (k : Nat) (s : State) : Host.Outcome State Fault Refusal :=
  s.run fun t => t.commitAt k

/-- R250: BPWAIT has passed for the waiting message of bay `b`. -/
def execWaitExpired (b : Nat) (s : State) : Host.Outcome State Fault Refusal :=
  s.run fun t => t.waiterAgain b true

/-- R250: room has appeared for the waiting message of bay `b`. -/
def execRoomCommit (b : Nat) (s : State) : Host.Outcome State Fault Refusal :=
  s.run fun t => t.waiterAgain b false

/-- R27, R32, R238, R241: the next message lands on bay `b`; `bad` names its words found uncorrectable on the way. -/
def execMessageLanded (b : Nat) (bad : List Nat) (s : State) : Host.Outcome State Fault Refusal :=
  s.run fun t => t.land b bad

/-- R258–R260, R416: the arrival timer of queue `q` reaches TMO. -/
def execQueueTimeout (q : Nat) (s : State) : Host.Outcome State Fault Refusal :=
  s.run fun t => t.queueTimeout q

/-- R261, R422, R427, R428: a host write TLP at offset `off` of the doorbell page of queue `q`. -/
def execDbMsg (q : Nat) (off : Nat) (data : List Byte) (poison : Bool)
    (s : State) : Host.Outcome State Fault Refusal :=
  s.run fun t => t.bar2Write (q * 0x1000 + off) data poison

/-- R261: a host write to DB_WORD of queue `q`. -/
def execDbWord (q : Nat) (data : List Byte) (poison : Bool) (s : State) : Host.Outcome State Fault Refusal :=
  s.run fun t => t.bar2Write (q * 0x1000 + 0x100) data poison

/-- R263: a host write to DB_HEAD of queue `q`. -/
def execDbHead (q : Nat) (v : Word) (poison : Bool) (s : State) : Host.Outcome State Fault Refusal :=
  s.run fun t => t.bar2Write (q * 0x1000 + 0x180) (toBytes 4 v.toNat) poison

/-- R262–R265, R424, R467: the next message of ring `n` is written. -/
def execHostRingWrite (n : Nat) (s : State) : Host.Outcome State Fault Refusal :=
  s.run fun t => t.ringWrite n

/-- R265: the moderation window of ring `n` ends. -/
def execMsixModerationExpiry (n : Nat) (s : State) : Host.Outcome State Fault Refusal :=
  s.run fun t => t.ringWindowEnd n

/-- R264, R272: a write of HR_CFG of ring `n` with EN = 1. -/
def execHrEnSet (n : Nat) (v : Word) (s : State) : Host.Outcome State Fault Refusal :=
  s.run fun t => t.regWrite .host (0x31010 + 0x20 * n) (v ||| 0x100#32)

/-- R264, R272: a write of HR_CFG of ring `n` with EN = 0. -/
def execHrEnClear (n : Nat) (v : Word) (s : State) : Host.Outcome State Fault Refusal :=
  s.run fun t => t.regWrite .host (0x31010 + 0x20 * n) (v &&& 0xFFFFFEFF#32)

/-- R270: QM_DCMD READ. -/
def execQmRead (s : State) : Host.Outcome State Fault Refusal :=
  s.run fun t => t.regWrite .host 0x30024 1#32

/-- R237, R270: QM_DCMD WRITE. -/
def execQmWrite (s : State) : Host.Outcome State Fault Refusal :=
  s.run fun t => t.regWrite .host 0x30024 2#32

/-- R271: QM_DCMD WRITEP. -/
def execWritep (s : State) : Host.Outcome State Fault Refusal :=
  s.run fun t => t.regWrite .host 0x30024 3#32

end Sys2Proof.Machine
end

