-- ==== Sys2Proof/Machine/CmdRaise.lean ====
section
/-!
DEFINITION. The meanings of the commands of the raising unit.
-/
namespace Sys2Proof.Machine

/-- R375, R379, R380, R382, R383: a write of 1 to RSU_CMD. -/
def execRaise (s : State) : Host.Outcome State Fault Refusal :=
  s.run fun t => t.regWrite .host 0x5000C 1#32

/-- R375, R379, R380, R382, R383: a write of 2 to RSU_CMD. -/
def execRebent (s : State) : Host.Outcome State Fault Refusal :=
  s.run fun t => t.regWrite .host 0x5000C 2#32

/-- R375, R379, R380, R382, R383: a write of 3 to RSU_CMD. -/
def execRebay (s : State) : Host.Outcome State Fault Refusal :=
  s.run fun t => t.regWrite .host 0x5000C 3#32

/-- R375, R379, R380, R382, R383: a write of 4 to RSU_CMD. -/
def execAbort (s : State) : Host.Outcome State Fault Refusal :=
  s.run fun t => t.regWrite .host 0x5000C 4#32

/-- R354–R380, R382, R492, R494: the raise step in progress finishes after `us` microseconds, or the raise fails. -/
def execRaiseStepComplete (us : Nat) (s : State) : Host.Outcome State Fault Refusal :=
  s.run fun t => t.raiseStep us

/-- R170, R191, R204, R228, R378: raised bay `b` enters RUN. -/
def execBayEnterRun (b : Nat) (s : State) : Host.Outcome State Fault Refusal :=
  s.run fun t => t.bayEnterRun b

end Sys2Proof.Machine
end

