-- ==== Sys2Proof/Machine/CmdRegs.lean ====
section
/-!
DEFINITION. The meanings of the commands of registers and the peg.
-/
namespace Sys2Proof.Machine

/-- R37–R41, R67, R104: an agent writes `size` bytes at offset `a` of the register space. -/
def execRegisterWrite (ag : Agent) (a : Nat) (size : Nat) (v : Word) (s : State) : Host.Outcome State Fault Refusal :=
  s.run fun t => t.registerWrite ag a size v

/-- R37, R44, R46, R66: a 32-bit write of a PG register. -/
def execPgShadowWrite (ag : Agent) (a : Nat) (v : Word) (s : State) : Host.Outcome State Fault Refusal :=
  s.run fun t => t.regWrite ag a v

/-- R37, R41: a 32-bit write of an MW register. -/
def execMwWrite (ag : Agent) (a : Nat) (v : Word) (s : State) : Host.Outcome State Fault Refusal :=
  s.run fun t => t.regWrite ag a v

/-- R37, R53–R56, R432: a 32-bit write of an SQ register. -/
def execSqClearWrite (ag : Agent) (a : Nat) (v : Word) (s : State) : Host.Outcome State Fault Refusal :=
  s.run fun t => t.regWrite ag a v

/-- R43–R48, R66: a write of DEV_PEG; bits 15:0 name the groups. -/
def execDevPeg (v : Word) (s : State) : Host.Outcome State Fault Refusal :=
  s.run fun t => t.regWrite .host 0x10 v

/-- R47: the oldest held DEV_PEG write is accepted once BUSY = 0. -/
def execPegDeferredAccept (s : State) : Host.Outcome State Fault Refusal :=
  s.run fun t => t.pegDeferred t.regDown

/-- R44, R45, R48, R49, R271: the peg in progress is applied everywhere. -/
def execPegApplied (s : State) : Host.Outcome State Fault Refusal :=
  s.run fun t => t.pegApplied

/-- R61–R63: a configuration CRC walk completes. -/
def execCfgCrcPass (s : State) : Host.Outcome State Fault Refusal :=
  s.run fun t => if t.wideHeld then t else t.crcPass

end Sys2Proof.Machine
end

