-- ==== Sys2Proof/Machine/CmdReset.lean ====
section
/-!
DEFINITION. The meanings of the commands of resets, power, clocks and temperature.
-/
namespace Sys2Proof.Machine

/-- R465–R469: VDD_AON falls below 0.68 V. -/
def execPor (s : State) : Host.Outcome State Fault Refusal :=
  s.run fun t => t.assertReset 0

/-- R465, R466, R502: the tamper response asserts TAMPER. -/
def execTamper (s : State) : Host.Outcome State Fault Refusal :=
  s.run fun t => t.tamper

/-- R465, R468: COLD_RST_N has been low past the filter. -/
def execColdpin (s : State) : Host.Outcome State Fault Refusal :=
  s.run fun t => t.assertReset 2

/-- R465, R537: a monitored rail has been out of range for 10 µs. -/
def execRail (s : State) : Host.Outcome State Fault Refusal :=
  s.run fun t => t.railFails

/-- R465, R478: the watchdog count reaches zero. -/
def execWdog (s : State) : Host.Outcome State Fault Refusal :=
  s.run fun t => t.wdgExpire

/-- R465, R488: an agent writes RST_SW with WARM = 1; bits 15:8 are KEY. -/
def execSwrst (ag : Agent) (v : Word) (s : State) : Host.Outcome State Fault Refusal :=
  s.run fun t => t.regWrite ag 0x10010 (v ||| 1#32)

/-- R477, R488: an agent writes RST_SW with COLD = 1; only the sill core's counts. -/
def execRstSwCold (ag : Agent) (v : Word) (s : State) : Host.Outcome State Fault Refusal :=
  s.run fun t => t.regWrite ag 0x10010 (v ||| 2#32)

/-- R465, R475: 1 ms after a failed start. -/
def execFailstart (s : State) : Host.Outcome State Fault Refusal :=
  s.run fun t => t.failstart

/-- R465–R468: PERST_N has been low for 1 µs. -/
def execPerst (s : State) : Host.Outcome State Fault Refusal :=
  s.run fun t => t.assertReset 8

/-- R465, R467: the endpoint receives a Hot Reset. -/
def execHotrst (s : State) : Host.Outcome State Fault Refusal :=
  s.run fun t => if t.hb.up then t.assertReset 9 else t

/-- R465, R467: DL_Down of the endpoint. -/
def execDldown (s : State) : Host.Outcome State Fault Refusal :=
  s.run fun t => if t.hb.up then t.assertReset 10 else t

/-- R465, R466, R472: a write to RST_BENT. -/
def execRstBent (v : Word) (s : State) : Host.Outcome State Fault Refusal :=
  s.run fun t => t.regWrite .host 0x10014 v

/-- R268, R465, R466, R472: a write to RST_BAY with GO = 1. -/
def execRstBay (v : Word) (s : State) : Host.Outcome State Fault Refusal :=
  s.run fun t => t.regWrite .host 0x10018 (v ||| 0x80000000#32)

/-- R325, R405, R439, R465, R466, R472: a write to RST_BLOCK with GO = 1. -/
def execRstBlock (v : Word) (s : State) : Host.Outcome State Fault Refusal :=
  s.run fun t => t.regWrite .host 0x1001C (v ||| 0x80000000#32)

/-- R468, R469: reset source `src` is released. -/
def execResetSourceRelease (src : Nat) (s : State) : Host.Outcome State Fault Refusal :=
  s.run fun t => t.sourceBack src

/-- R48, R456, R459, R470, R476, R487, R547: an exit sequence completes: of bent `what` below 16, of the BAY or BLOCK
pulse at 16, of the device at 17; the sill core starts after one of WARM reach or wider. -/
def execExitSequenceDone (what : Nat) (s : State) : Host.Outcome State Fault Refusal :=
  s.run fun t => if what = 17 ∧ 4 ≤ t.rst.reach then (t.exitOf what).bootBegins else t.exitOf what

/-- R32, R325, R471: the wrapper of the target has drained. -/
def execWrapperDrained (s : State) : Host.Outcome State Fault Refusal :=
  s.run fun t => t.wrapperDrained

/-- R473, R474: the sill core writes TRIM_CTL with START = 1. -/
def execTrimStart (v : Word) (s : State) : Host.Outcome State Fault Refusal :=
  s.run fun t => t.regWrite .sill 0x10028 (v ||| 1#32)

/-- R473, R475: a trim load ends; `ok` tells that its CRC matched. -/
def execTrimLoadDone (ok : Bool) (s : State) : Host.Outcome State Fault Refusal :=
  s.run fun t => (t.trimDone ok).bootTrimmed

/-- R478: a write to WDG_CTL with EN = 1. -/
def execWdgEnable (v : Word) (s : State) : Host.Outcome State Fault Refusal :=
  s.run fun t => t.regWrite .host 0x10030 (v ||| 0x10000#32)

/-- R478: a write to WDG_KICK. -/
def execWdgKick (v : Word) (s : State) : Host.Outcome State Fault Refusal :=
  s.run fun t => t.regWrite .host 0x10034 v

/-- R324, R476, R480: a write to PWR_CTL. -/
def execPwrCtlWrite (v : Word) (s : State) : Host.Outcome State Fault Refusal :=
  s.run fun t => t.regWrite .host 0x10040 v

/-- R480, R482: a write to PWR_RET. -/
def execPwrRetWrite (v : Word) (s : State) : Host.Outcome State Fault Refusal :=
  s.run fun t => t.regWrite .host 0x10044 v

/-- R324, R481, R482, R496: the transition of domain `d` completes. -/
def execDomainTransitionDone (d : Nat) (s : State) : Host.Outcome State Fault Refusal :=
  s.run fun t => t.domDone d

/-- R483, R522: PLL `k` loses lock, numbered as CLK_STAT.PLL, the bent PLLs from 16. -/
def execPllLossOfLock (k : Nat) (s : State) : Host.Outcome State Fault Refusal :=
  s.run fun t => t.pllLoss k

/-- R485, R487: the monitor reads its 24 sensors, in °C. -/
def execThermalSample (temps : List Int) (s : State) : Host.Outcome State Fault Refusal :=
  s.run fun t => t.thermalSample temps

/-- R59, R60: an edge of the 32.768 kHz clock. -/
def execAcRefresh (s : State) : Host.Outcome State Fault Refusal :=
  s.run fun t => t.acRefresh

/-- R486: the hold of bent `n`'s throttle period ends. -/
def execThrottleHoldEnd (n : Nat) (s : State) : Host.Outcome State Fault Refusal :=
  s.run fun t => t.throttleEnd n

/-- R483: the RTC crystal takes over CLK_AON. -/
def execRtcCrystalInUse (s : State) : Host.Outcome State Fault Refusal :=
  s.run fun t => t.crystalRuns

end Sys2Proof.Machine
end

