-- ==== Sys2Proof/Machine/CmdScarf.lean ====
section
/-!
DEFINITION. The meanings of the commands of scarf links.
-/
namespace Sys2Proof.Machine

/-- R391: a write to SCFp_CTL with EN = 1. -/
def execPortEnable (p : Nat) (v : Word) (s : State) : Host.Outcome State Fault Refusal :=
  s.run fun t => t.regWrite .host (0x70000 + 0x1000 * p) (v ||| 1#32)

/-- R391: a write to SCFp_CTL with EN = 0. -/
def execPortDisable (p : Nat) (v : Word) (s : State) : Host.Outcome State Fault Refusal :=
  s.run fun t => t.regWrite .host (0x70000 + 0x1000 * p) (v &&& 0xFFFFFFFE#32)

/-- R392, R393, R419: a training attempt of port `p` ends: at a failed step, or UP where `failed` is 0 with the peer's
identifier and port, the lanes and the width. -/
def execLinkTrainingDone (p : Nat) (failed : Nat) (dev : Nat) (port : Nat) (lanes : Nat) (width : Nat)
    (s : State) : Host.Outcome State Fault Refusal :=
  s.run fun t => t.trained_ p failed dev port lanes width

/-- R392: port `p` trains again 10 ms after a failed attempt. -/
def execTrainingRetry (p : Nat) (s : State) : Host.Outcome State Fault Refusal :=
  s.run fun t => t.trainRetry p

/-- R396, R399, R402, R403: a NULL flit at port `p`. -/
def execNull (p : Nat) (l : LinkWord) (s : State) : Host.Outcome State Fault Refusal :=
  s.run fun t => t.rxNull p l

/-- R27, R30, R395–R402, R407, R553: a QCELL flit at port `p`. -/
def execQcell (p : Nat) (l : LinkWord) (f : Flit) (s : State) : Host.Outcome State Fault Refusal :=
  s.run fun t => t.rxCell p l { f with typ := 1 }

/-- R398, R400, R401, R412: a PREAD flit at port `p`; `guest` is 1 when the home device's placement of the page comes
with it, 2 when the home device frees the page after it. -/
def execPread (p : Nat) (l : LinkWord) (f : Flit) (guest : Nat) (s : State) : Host.Outcome State Fault Refusal :=
  s.run fun t => t.rxGuest p l { f with typ := 2 } guest

/-- R398, R400, R401, R412: a PWRITE flit at port `p`; `guest` as for PREAD. -/
def execPwrite (p : Nat) (l : LinkWord) (f : Flit) (guest : Nat) (s : State) : Host.Outcome State Fault Refusal :=
  s.run fun t => t.rxGuest p l { f with typ := 3 } guest

/-- R397, R404: a PCOMP flit at port `p`; `intr` is the intrusion tag of a completion that met a retry (12) or an
adaptation slice (13). -/
def execPcomp (p : Nat) (l : LinkWord) (f : Flit) (intr : Nat) (s : State) : Host.Outcome State Fault Refusal :=
  s.run fun t => t.rxComp p l { f with typ := 4 } intr

/-- R397, R404: a PERR flit at port `p`. -/
def execPerr (p : Nat) (l : LinkWord) (f : Flit) (intr : Nat) (s : State) : Host.Outcome State Fault Refusal :=
  s.run fun t => t.rxErr p l { f with typ := 5 } intr

/-- R408: a FENCE flit at port `p`, of the forward class or of the completion class. -/
def execFence (p : Nat) (l : LinkWord) (f : Flit) (fwd : Bool) (s : State) : Host.Outcome State Fault Refusal :=
  s.run fun t => t.rxFence p l { f with typ := 6 } fwd

/-- R30, R408: a FENCE_ACK flit at port `p`. -/
def execFenceAck (p : Nat) (l : LinkWord) (f : Flit) (s : State) : Host.Outcome State Fault Refusal :=
  s.run fun t => t.rxFenceAck p l { f with typ := 7 }

/-- R249, R397: a QREFUSE flit at port `p`. -/
def execQrefuse (p : Nat) (l : LinkWord) (f : Flit) (s : State) : Host.Outcome State Fault Refusal :=
  s.run fun t => t.rxRefuse p l { f with typ := 8 }

/-- R259, R415, R416: an LSTATE flit at port `p`. -/
def execLstate (p : Nat) (l : LinkWord) (f : Flit) (s : State) : Host.Outcome State Fault Refusal :=
  s.run fun t => t.rxLstate p l { f with typ := 9 }

/-- R417: a TSYNC_REQ flit at port `p`: `t2` is the part of a microsecond that has passed at ingress, `t3` the time from
there to the answer's egress. -/
def execTsyncReq (p : Nat) (l : LinkWord) (t2 : Nat) (t3 : Nat) (s : State) : Host.Outcome State Fault Refusal :=
  s.run fun t => t.tsyncReq p l t2 t3

/-- R418: a TSYNC_RSP flit at port `p` with its stamps; `t4` is the part of a microsecond that has passed at ingress. -/
def execTsyncRsp (p : Nat) (l : LinkWord) (t2 : Nat) (t3 : Nat) (t4 : Nat)
    (s : State) : Host.Outcome State Fault Refusal :=
  s.run fun t => t.tsyncRsp p l t2 t3 t4

/-- R397: a flit of a reserved type at port `p`. -/
def execReservedFlit (p : Nat) (l : LinkWord) (s : State) : Host.Outcome State Fault Refusal :=
  s.run fun t => t.rxReserved p l

/-- R403, R405, R406: 1 µs without acknowledgement at port `p`. -/
def execReplayTimeout (p : Nat) (s : State) : Host.Outcome State Fault Refusal :=
  s.run fun t => t.retryStart p

/-- R400, R405: flits of port `p` have waited 100 µs for credit. -/
def execCreditStall (p : Nat) (s : State) : Host.Outcome State Fault Refusal :=
  s.run fun t => t.creditStall p

/-- R249, R405, R406: the peer of port `p` has stopped transmitting. -/
def execLossOfSignal (p : Nat) (s : State) : Host.Outcome State Fault Refusal :=
  s.run fun t => t.signalLoss p

/-- R407, R408, R410, R421: a write of 1 to SCF_RTCMD. -/
def execRtRead (s : State) : Host.Outcome State Fault Refusal :=
  s.run fun t => t.regWrite .host 0x78018 1#32

/-- R407, R408, R410, R421: a write of 2 to SCF_RTCMD. -/
def execRtWrite (s : State) : Host.Outcome State Fault Refusal :=
  s.run fun t => t.regWrite .host 0x78018 2#32

/-- R407, R408, R410, R421: a write of 3 to SCF_RTCMD. -/
def execUpdate (s : State) : Host.Outcome State Fault Refusal :=
  s.run fun t => t.regWrite .host 0x78018 3#32

/-- R408: no FENCE_ACK has come within 200 µs. -/
def execUpdateForced (s : State) : Host.Outcome State Fault Refusal :=
  s.run fun t => t.updateEnds true

/-- R416, R421: a write of 1 to SCF_PWCMD. -/
def execPwRead (s : State) : Host.Outcome State Fault Refusal :=
  s.run fun t => t.regWrite .host 0x78068 1#32

/-- R416, R421: a write of 2 to SCF_PWCMD. -/
def execPwWrite (s : State) : Host.Outcome State Fault Refusal :=
  s.run fun t => t.regWrite .host 0x78068 2#32

/-- R393: a write to SCF_DEVID. -/
def execScfDevidWrite (v : Word) (s : State) : Host.Outcome State Fault Refusal :=
  s.run fun t => t.regWrite .host 0x78000 v

/-- R417, R421: a write to SCF_TSET_HI. -/
def execScfTset (v : Word) (s : State) : Host.Outcome State Fault Refusal :=
  s.run fun t => t.regWrite .host 0x78034 v

/-- R417: a follower sends a TSYNC_REQ; `t1` is the part of a microsecond that has passed at its egress. -/
def execTsyncExchange (t1 : Nat) (s : State) : Host.Outcome State Fault Refusal :=
  s.run fun t => t.tsyncStart t1

/-- R414: an adaptation slice stops port `p`. -/
def execAdaptSlice (p : Nat) (s : State) : Host.Outcome State Fault Refusal :=
  s.run fun t => t.adaptSlice p

/-- R402: a flit at port `p` fails its CRC. -/
def execFlitCrcFailure (p : Nat) (s : State) : Host.Outcome State Fault Refusal :=
  s.run fun t => t.crcFail p

/-- R403: retry of port `p` has been in progress for 8 µs within 100 µs. -/
def execRetryWindow (p : Nat) (s : State) : Host.Outcome State Fault Refusal :=
  s.run fun t => t.retryWindow p

end Sys2Proof.Machine
end

