-- ==== Sys2Proof/Machine/CmdScribe.lean ====
section
/-!
DEFINITION. The meanings of the commands of the scribe.
-/
namespace Sys2Proof.Machine

/-- R286, R332–R337, R348, R349: an epoch boundary. -/
def execEpochBoundary (s : State) : Host.Outcome State Fault Refusal :=
  s.run fun t => if t.stgOn then t.epochEnd else t

/-- R338, R348: a pass of the page's copy ends; `refused` tells that the peer of an L3 destination refused. -/
def execPageCopyPassDone (table : Nat) (page : Nat) (refused : Bool) (s : State) : Host.Outcome State Fault Refusal :=
  s.run fun t => t.copyPass (pageKey table page) refused

/-- R338: every bay holding the page has acknowledged the fence. -/
def execFenceAcknowledged (table : Nat) (page : Nat) (s : State) : Host.Outcome State Fault Refusal :=
  s.run fun t => t.fenceAck (pageKey table page)

/-- R31, R338, R339, R353: the final lines are copied; `remote` is what a peer returned of a page leaving L3. -/
def execPageMoveComplete (table : Nat) (page : Nat) (fenceNs : Nat) (remote : List Byte)
    (s : State) : Host.Outcome State Fault Refusal :=
  s.run fun t => t.completeMove (pageKey table page) fenceNs remote

/-- R342: the task's messages have left the source send queue. -/
def execTaskMoveDrained (task : Nat) (s : State) : Host.Outcome State Fault Refusal :=
  s.run fun t => t.drained task

/-- R31, R245, R267, R342, R349, R353: the state copy of the task ends. -/
def execTaskMoveComplete (task : Nat) (s : State) : Host.Outcome State Fault Refusal :=
  s.run fun t => t.completeTask task

/-- R343: step 4 of the task's move exceeds MIGWAIT. -/
def execMigwaitExpiry (task : Nat) (s : State) : Host.Outcome State Fault Refusal :=
  s.run fun t => t.migwait task

/-- R331, R334, R342, R351: a write of 1 to SCR_TCMD. -/
def execTcmdRead (s : State) : Host.Outcome State Fault Refusal :=
  s.run fun t => t.regWrite .host 0x40068 1#32

/-- R331, R334, R342, R351: a write of 2 to SCR_TCMD. -/
def execTcmdWrite (s : State) : Host.Outcome State Fault Refusal :=
  s.run fun t => t.regWrite .host 0x40068 2#32

/-- R331, R334, R342, R351: a write of 3 to SCR_TCMD. -/
def execPlace (s : State) : Host.Outcome State Fault Refusal :=
  s.run fun t => t.regWrite .host 0x40068 3#32

/-- R331, R334, R342, R351: a write of 4 to SCR_TCMD. -/
def execTcmdMove (s : State) : Host.Outcome State Fault Refusal :=
  s.run fun t => t.regWrite .host 0x40068 4#32

/-- R331, R334, R342, R351: a write of 5 to SCR_TCMD. -/
def execUnplace (s : State) : Host.Outcome State Fault Refusal :=
  s.run fun t => t.regWrite .host 0x40068 5#32

/-- R328, R332, R351, R352: a write of 1 to SCR_PCMD. -/
def execPcmdRead (s : State) : Host.Outcome State Fault Refusal :=
  s.run fun t => t.regWrite .host 0x40090 1#32

/-- R328, R332, R351, R352: a write of 2 to SCR_PCMD. -/
def execPcmdMove (s : State) : Host.Outcome State Fault Refusal :=
  s.run fun t => t.regWrite .host 0x40090 2#32

/-- R328, R332, R351, R352: a write of 3 to SCR_PCMD. -/
def execTwrite (s : State) : Host.Outcome State Fault Refusal :=
  s.run fun t => t.regWrite .host 0x40090 3#32

/-- R344, R350: a write to SCR_EVAC with START = 1. -/
def execScrEvac (v : Word) (s : State) : Host.Outcome State Fault Refusal :=
  s.run fun t => t.regWrite .host 0x400A0 (v ||| 0x80000000#32)

/-- R344, R350: a write to SCR_EVBAY with START = 1. -/
def execScrEvbay (v : Word) (s : State) : Host.Outcome State Fault Refusal :=
  s.run fun t => t.regWrite .host 0x400A4 (v ||| 0x80000000#32)

/-- R346, R350: a write to SCR_BANKREL with START = 1. -/
def execScrBankrel (v : Word) (s : State) : Host.Outcome State Fault Refusal :=
  s.run fun t => t.regWrite .host 0x400B0 (v ||| 0x80000000#32)

end Sys2Proof.Machine
end

