-- ==== Sys2Proof/Machine/CmdSec.lean ====
section
/-!
DEFINITION. The meanings of the commands of the security module.
-/
namespace Sys2Proof.Machine

/-- R499: a post at a service port; `p` is true for port S of the sill core. -/
def execSecPost (p : Bool) (v : Word) (s : State) : Host.Outcome State Fault Refusal :=
  s.run fun t => t.secPostAt p v

/-- R497: service STATUS. -/
def execSecStatus (p : Bool) (s : State) : Host.Outcome State Fault Refusal :=
  s.run fun t => t.svcSecStatus p

/-- R490, R497: service SELFTEST. -/
def execSelftest (p : Bool) (s : State) : Host.Outcome State Fault Refusal :=
  s.run fun t => t.svcSelftest p

/-- R490, R491, R503: the self-tests end. -/
def execSelftestComplete (pass : Bool) (s : State) : Host.Outcome State Fault Refusal :=
  s.run fun t => (t.selftestDone pass).bootTested

/-- R322, R497, R502: service ZEROISE. -/
def execZeroise (p : Bool) (s : State) : Host.Outcome State Fault Refusal :=
  s.run fun t => t.svcZeroise p

/-- R502: the zeroisation completes. -/
def execZeroisationComplete (s : State) : Host.Outcome State Fault Refusal :=
  s.run fun t => t.zeroised

/-- R497: service GETNONCE. -/
def execGetnonce (p : Bool) (s : State) : Host.Outcome State Fault Refusal :=
  s.run fun t => t.svcNonce p

/-- R494, R497: service AUTH. -/
def execAuth (p : Bool) (role : Nat) (slot : Nat) (sig : List Byte) (s : State) : Host.Outcome State Fault Refusal :=
  s.run fun t => t.svcAuth p role slot sig

/-- R497: service LOGOUT. -/
def execLogout (p : Bool) (s : State) : Host.Outcome State Fault Refusal :=
  s.run fun t => t.svcLogout p

/-- R491, R494, R497, R505: service UNLOCK with the token in the request words. -/
def execUnlock (p : Bool) (s : State) : Host.Outcome State Fault Refusal :=
  s.run fun t => t.svcUnlock p

/-- R497: service HASH over `len` staging bytes at `src`. -/
def execSecHash (p : Bool) (alg : Nat) (src : Nat) (len : Nat) (s : State) : Host.Outcome State Fault Refusal :=
  s.run fun t => t.svcHash p alg src len

/-- R497: service HMAC with handle `h`. -/
def execHmac (p : Bool) (alg : Nat) (h : Nat) (src : Nat) (len : Nat)
    (s : State) : Host.Outcome State Fault Refusal :=
  s.run fun t => t.svcHmac p alg h src len

/-- R497: service GCM_ENC. -/
def execGcmEnc (p : Bool) (h : Nat) (aad : List Byte) (src : Nat) (len : Nat) (dst : Nat)
    (s : State) : Host.Outcome State Fault Refusal :=
  s.run fun t => t.svcGcmEnc p h aad src len dst

/-- R497: service GCM_DEC. -/
def execGcmDec (p : Bool) (h : Nat) (iv : List Byte) (tag : List Byte) (aad : List Byte) (src : Nat) (len : Nat) (dst : Nat)
    (s : State) : Host.Outcome State Fault Refusal :=
  s.run fun t => t.svcGcmDec p h iv tag aad src len dst

/-- R497: service XTS_ENC. -/
def execXtsEnc (p : Bool) (h1 : Nat) (h2 : Nat) (tweak : Nat) (src : Nat) (len : Nat) (dst : Nat)
    (s : State) : Host.Outcome State Fault Refusal :=
  s.run fun t => t.svcXts p true h1 h2 tweak src len dst

/-- R497: service XTS_DEC. -/
def execXtsDec (p : Bool) (h1 : Nat) (h2 : Nat) (tweak : Nat) (src : Nat) (len : Nat) (dst : Nat)
    (s : State) : Host.Outcome State Fault Refusal :=
  s.run fun t => t.svcXts p false h1 h2 tweak src len dst

/-- R497: service SIGN. -/
def execSign (p : Bool) (h : Nat) (src : Nat) (len : Nat) (s : State) : Host.Outcome State Fault Refusal :=
  s.run fun t => t.svcSign p h src len

/-- R497: service VERIFY. -/
def execVerify (p : Bool) (pub : List Byte) (sig : List Byte) (src : Nat) (len : Nat)
    (s : State) : Host.Outcome State Fault Refusal :=
  s.run fun t => t.svcVerify p pub sig src len

/-- R497: service ECDH. -/
def execEcdh (p : Bool) (h : Nat) (pub : List Byte) (s : State) : Host.Outcome State Fault Refusal :=
  s.run fun t => t.svcEcdh p h pub

/-- R497, R500: service KEYGEN; `pass` is the outcome of a pair's consistency test. -/
def execKeygen (p : Bool) (h : Nat) (kind : Nat) (pass : Bool) (s : State) : Host.Outcome State Fault Refusal :=
  s.run fun t => t.svcKeygen p h kind pass

/-- R497: service WRAP. -/
def execWrap (p : Bool) (h : Nat) (under : Nat) (s : State) : Host.Outcome State Fault Refusal :=
  s.run fun t => t.svcWrap p h under

/-- R497: service UNWRAP. -/
def execUnwrap (p : Bool) (h : Nat) (under : Nat) (kind : Nat) (w : List Byte)
    (s : State) : Host.Outcome State Fault Refusal :=
  s.run fun t => t.svcUnwrap p h under kind w

/-- R497: service KEYDEL. -/
def execKeydel (p : Bool) (h : Nat) (s : State) : Host.Outcome State Fault Refusal :=
  s.run fun t => t.svcKeydel p h

/-- R497: service RANDOM. -/
def execRandom (p : Bool) (n : Nat) (dst : Nat) (s : State) : Host.Outcome State Fault Refusal :=
  s.run fun t => t.svcRandom p n dst

/-- R497: service ATTEST. -/
def execAttest (p : Bool) (nonce : List Byte) (s : State) : Host.Outcome State Fault Refusal :=
  s.run fun t => t.svcAttest p nonce

/-- R497, R498: service OTP_KEY. -/
def execOtpKey (p : Bool) (slot : Nat) (use : Nat) (h : Nat) (pub : List Byte)
    (s : State) : Host.Outcome State Fault Refusal :=
  s.run fun t => t.svcOtpKey p slot use h pub

/-- R497, R498: service OTP_REVOKE. -/
def execOtpRevoke (p : Bool) (slot : Nat) (s : State) : Host.Outcome State Fault Refusal :=
  s.run fun t => t.svcRevoke p slot

/-- R497, R498: service FLOOR; `running` is the SEQNO of the running firmware. -/
def execFloor (p : Bool) (kind : Nat) (v : Word) (running : Word) (s : State) : Host.Outcome State Fault Refusal :=
  s.run fun t => t.svcFloor p kind v running

/-- R497, R498: service OTP_CONFIG. -/
def execOtpConfig (p : Bool) (bits : Word) (s : State) : Host.Outcome State Fault Refusal :=
  s.run fun t => t.svcConfig p bits

/-- R497, R502, R503: service DESTROY. -/
def execDestroy (p : Bool) (s : State) : Host.Outcome State Fault Refusal :=
  s.run fun t => t.svcDestroy p

/-- R500: a continuous entropy health test fails. -/
def execEntropyHealthFail (s : State) : Host.Outcome State Fault Refusal :=
  s.run fun t => t.healthFail

/-- R322, R501, R537: the tamper monitor of this code meets its condition. -/
def execTamperMonitorTrip (code : Nat) (s : State) : Host.Outcome State Fault Refusal :=
  s.run fun t => t.tamperTrip code

/-- R505: an unlock's DURATION expires. -/
def execDebugRelock (s : State) : Host.Outcome State Fault Refusal :=
  s.run fun t => t.relock

end Sys2Proof.Machine
end

