-- ==== Sys2Proof/Machine/CmdStore.lean ====
section
/-!
DEFINITION. The meanings of the commands of bay scratch and the staging store.
-/
namespace Sys2Proof.Machine

/-- R29, R274, R275, R280, R554: a word access of an outside agent at scratch address `a` of bay `b`; `waited` tells
that it waited 16 cycles. -/
def execOutsideWordAccess (b : Nat) (a : Nat) (write : Bool) (v : Word) (poison : Bool) (waited : Bool) (upsets : List (Nat × Nat × Nat))
    (s : State) : Host.Outcome State Fault Refusal :=
  s.run fun t => t.outsideWord b a write v poison waited upsets

/-- R276, R280, R508: the scrubber of bay `b` reads its next word. -/
def execBayScrubRead (b : Nat) (upsets : List (Nat × Nat × Nat)) (s : State) : Host.Outcome State Fault Refusal :=
  s.run fun t => if t.bentHere (b / 16) then t.bayScrub b upsets else t

/-- R280: the corrected word `w` of the scratch (array 0) or instruction store (array 1) of bay `b` is written back.
-/
def execCeWriteback (b : Nat) (array : Nat) (w : Nat) (s : State) : Host.Outcome State Fault Refusal :=
  s.run fun t => if t.bayReached b then t.onBay b fun c => c.writeBack array w else t

/-- R29, R283, R287, R292–R294, R522: an agent's request at staging address `a` of `len` bytes, or with the write data
`data` and its poisoned words; `ctrl` tells of an uncorrectable error in the bank's control. -/
def execStagingAccess (ag : Agent) (a : Nat) (write : Bool) (data : List Byte) (bad : List Nat) (len : Nat) (upsets : List (Nat × Nat)) (ctrl : Bool)
    (s : State) : Host.Outcome State Fault Refusal :=
  s.run fun t => t.stagingAccess ag a write data bad len upsets ctrl

/-- R293, R509: the scrubber reads the next line of bank `n`. -/
def execStagingScrubRead (n : Nat) (upsets : List (Nat × Nat)) (s : State) : Host.Outcome State Fault Refusal :=
  s.run fun t => if t.stgOn then t.stgScrub n upsets else t

/-- R288, R289, R292: a write to STG_OWNn. -/
def execStgOwnWrite (n : Nat) (v : Word) (s : State) : Host.Outcome State Fault Refusal :=
  s.run fun t => t.regWrite .host (0xB0000 + 4 * n) v

/-- R290, R294: an accepted change reaches bank `n`. -/
def execStgOwnApply (n : Nat) (s : State) : Host.Outcome State Fault Refusal :=
  s.run fun t => t.ownApply n

/-- R294: bank `n` becomes AWAKE. -/
def execBankWake (n : Nat) (s : State) : Host.Outcome State Fault Refusal :=
  s.run fun t => t.bankWake n

/-- R298, R299: a write to STG_MCTL of group `g` with START = 1. -/
def execStagingMarchStart (g : Nat) (v : Word) (s : State) : Host.Outcome State Fault Refusal :=
  s.run fun t => t.regWrite .host (0xB0400 + 0x10 * g) (v ||| 1#32)

/-- R296, R299: the March test of group `g` ends with `fails` failing reads on `lines`. -/
def execStagingMarchDone (g : Nat) (fails : Nat) (lines : List Nat) (s : State) : Host.Outcome State Fault Refusal :=
  s.run fun t => t.marchDone g fails lines

/-- R298, R300: a write to BAY_MCTL of bay `b` with START = 1. -/
def execBayMarchStart (b : Nat) (v : Word) (s : State) : Host.Outcome State Fault Refusal :=
  s.run fun t => t.regWrite .host (0xB1000 + 0x10 * b) (v ||| 1#32)

/-- R296, R300: the March test of bay `b` ends: failing reads, failing scratch words and instruction lines, and which
array failed first. -/
def execBayMarchDone (b : Nat) (fails : Nat) (sw : List Nat) (il : List Nat) (firstI : Bool)
    (s : State) : Host.Outcome State Fault Refusal :=
  s.run fun t => t.bayMarchDone b fails sw il firstI

end Sys2Proof.Machine
end

