-- ==== Sys2Proof/Machine/Dispatch.lean ====
section
/-!
DEFINITION. Dispatch: one arm for each command.
-/
namespace Sys2Proof.Machine

/-- The effect of a command on everything but the queue of waiting commands. -/
def exec (i : Instr) (s : State) : Host.Outcome State Fault Refusal :=
  match i with
  | .registerWrite ag a size v => Sys2Proof.Machine.execRegisterWrite ag a size v s
  | .pgShadowWrite ag a v => Sys2Proof.Machine.execPgShadowWrite ag a v s
  | .mwWrite ag a v => Sys2Proof.Machine.execMwWrite ag a v s
  | .sqClearWrite ag a v => Sys2Proof.Machine.execSqClearWrite ag a v s
  | .devPeg v => Sys2Proof.Machine.execDevPeg v s
  | .pegDeferredAccept => Sys2Proof.Machine.execPegDeferredAccept s
  | .pegApplied => Sys2Proof.Machine.execPegApplied s
  | .cfgCrcPass => Sys2Proof.Machine.execCfgCrcPass s
  | .bundleIssue b upsets => Sys2Proof.Machine.execBundleIssue b upsets s
  | .resultArrival b unit inst => Sys2Proof.Machine.execResultArrival b unit inst s
  | .windowResponse b fid ns => Sys2Proof.Machine.execWindowResponse b fid ns s
  | .faultEntry b => Sys2Proof.Machine.execFaultEntry b s
  | .eventEntry b => Sys2Proof.Machine.execEventEntry b s
  | .dispatchEntry b => Sys2Proof.Machine.execDispatchEntry b s
  | .bayPrivWrite b v => Sys2Proof.Machine.execBayPrivWrite b v s
  | .bayMaskWrite b v => Sys2Proof.Machine.execBayMaskWrite b v s
  | .bayGcfgWrite b v => Sys2Proof.Machine.execBayGcfgWrite b v s
  | .modeChangeEffect b => Sys2Proof.Machine.execModeChangeEffect b s
  | .structWrite ag b o v => Sys2Proof.Machine.execStructWrite ag b o v s
  | .iwrDataWrite b v => Sys2Proof.Machine.execIwrDataWrite b v s
  | .plbDrop b => Sys2Proof.Machine.execPlbDrop b s
  | .plbFill b v => Sys2Proof.Machine.execPlbFill b v s
  | .timerExpiry b n => Sys2Proof.Machine.execTimerExpiry b n s
  | .mbxPost b m v => Sys2Proof.Machine.execMbxPost b m v s
  | .mbxLoRead ag b m => Sys2Proof.Machine.execMbxLoRead ag b m s
  | .mbxHiRead ag b m => Sys2Proof.Machine.execMbxHiRead ag b m s
  | .mbxAck ag b m v => Sys2Proof.Machine.execMbxAck ag b m v s
  | .traceEnable ag b v => Sys2Proof.Machine.execTraceEnable ag b v s
  | .step ag b => Sys2Proof.Machine.execStep ag b s
  | .enter ag b => Sys2Proof.Machine.execEnter ag b s
  | .exit ag b => Sys2Proof.Machine.execExit ag b s
  | .testEntryStop b => Sys2Proof.Machine.execTestEntryStop b s
  | .ledgerClear b => Sys2Proof.Machine.execLedgerClear b s
  | .throttlePeriod n => Sys2Proof.Machine.execThrottlePeriod n s
  | .throttleAdjust => Sys2Proof.Machine.execThrottleAdjust s
  | .sendQueueDepart b => Sys2Proof.Machine.execSendQueueDepart b s
  | .messageCommit k => Sys2Proof.Machine.execMessageCommit k s
  | .waitExpired b => Sys2Proof.Machine.execWaitExpired b s
  | .roomCommit b => Sys2Proof.Machine.execRoomCommit b s
  | .messageLanded b bad => Sys2Proof.Machine.execMessageLanded b bad s
  | .queueTimeout q => Sys2Proof.Machine.execQueueTimeout q s
  | .dbMsg q off data poison => Sys2Proof.Machine.execDbMsg q off data poison s
  | .dbWord q data poison => Sys2Proof.Machine.execDbWord q data poison s
  | .dbHead q v poison => Sys2Proof.Machine.execDbHead q v poison s
  | .hostRingWrite n => Sys2Proof.Machine.execHostRingWrite n s
  | .msixModerationExpiry n => Sys2Proof.Machine.execMsixModerationExpiry n s
  | .hrEnSet n v => Sys2Proof.Machine.execHrEnSet n v s
  | .hrEnClear n v => Sys2Proof.Machine.execHrEnClear n v s
  | .qmRead => Sys2Proof.Machine.execQmRead s
  | .qmWrite => Sys2Proof.Machine.execQmWrite s
  | .writep => Sys2Proof.Machine.execWritep s
  | .outsideWordAccess b a write v poison waited upsets => Sys2Proof.Machine.execOutsideWordAccess b a write v poison waited upsets s
  | .bayScrubRead b upsets => Sys2Proof.Machine.execBayScrubRead b upsets s
  | .ceWriteback b array w => Sys2Proof.Machine.execCeWriteback b array w s
  | .stagingAccess ag a write data bad len upsets ctrl => Sys2Proof.Machine.execStagingAccess ag a write data bad len upsets ctrl s
  | .stagingScrubRead n upsets => Sys2Proof.Machine.execStagingScrubRead n upsets s
  | .stgOwnWrite n v => Sys2Proof.Machine.execStgOwnWrite n v s
  | .stgOwnApply n => Sys2Proof.Machine.execStgOwnApply n s
  | .bankWake n => Sys2Proof.Machine.execBankWake n s
  | .stagingMarchStart g v => Sys2Proof.Machine.execStagingMarchStart g v s
  | .stagingMarchDone g fails lines => Sys2Proof.Machine.execStagingMarchDone g fails lines s
  | .bayMarchStart b v => Sys2Proof.Machine.execBayMarchStart b v s
  | .bayMarchDone b fails sw il firstI => Sys2Proof.Machine.execBayMarchDone b fails sw il firstI s
  | .init c v => Sys2Proof.Machine.execInit c v s
  | .trainingComplete c failed t0 t1 => Sys2Proof.Machine.execTrainingComplete c failed t0 t1 s
  | .srEnter c v => Sys2Proof.Machine.execSrEnter c v s
  | .selfrefEntered c => Sys2Proof.Machine.execSelfrefEntered c s
  | .srExit c v => Sys2Proof.Machine.execSrExit c v s
  | .selfrefExited c => Sys2Proof.Machine.execSelfrefExited c s
  | .clrmax c v => Sys2Proof.Machine.execClrmax c v s
  | .ddr4Request a write n data poison ns upsets ctrl => Sys2Proof.Machine.execDdr4Request a write n data poison ns upsets ctrl s
  | .refreshEpisode c rank => Sys2Proof.Machine.execRefreshEpisode c rank s
  | .refreshEnd c rank upsets => Sys2Proof.Machine.execRefreshEnd c rank upsets s
  | .zqcs c rank => Sys2Proof.Machine.execZqcs c rank s
  | .caParityAlert c => Sys2Proof.Machine.execCaParityAlert c s
  | .dimmTempPoll c t0 t1 => Sys2Proof.Machine.execDimmTempPoll c t0 t1 s
  | .retrainSlice c last => Sys2Proof.Machine.execRetrainSlice c last s
  | .epochBoundary => Sys2Proof.Machine.execEpochBoundary s
  | .pageCopyPassDone table page refused => Sys2Proof.Machine.execPageCopyPassDone table page refused s
  | .fenceAcknowledged table page => Sys2Proof.Machine.execFenceAcknowledged table page s
  | .pageMoveComplete table page fenceNs remote => Sys2Proof.Machine.execPageMoveComplete table page fenceNs remote s
  | .taskMoveDrained task => Sys2Proof.Machine.execTaskMoveDrained task s
  | .taskMoveComplete task => Sys2Proof.Machine.execTaskMoveComplete task s
  | .migwaitExpiry task => Sys2Proof.Machine.execMigwaitExpiry task s
  | .tcmdRead => Sys2Proof.Machine.execTcmdRead s
  | .tcmdWrite => Sys2Proof.Machine.execTcmdWrite s
  | .place => Sys2Proof.Machine.execPlace s
  | .tcmdMove => Sys2Proof.Machine.execTcmdMove s
  | .unplace => Sys2Proof.Machine.execUnplace s
  | .pcmdRead => Sys2Proof.Machine.execPcmdRead s
  | .pcmdMove => Sys2Proof.Machine.execPcmdMove s
  | .twrite => Sys2Proof.Machine.execTwrite s
  | .scrEvac v => Sys2Proof.Machine.execScrEvac v s
  | .scrEvbay v => Sys2Proof.Machine.execScrEvbay v s
  | .scrBankrel v => Sys2Proof.Machine.execScrBankrel v s
  | .raise => Sys2Proof.Machine.execRaise s
  | .rebent => Sys2Proof.Machine.execRebent s
  | .rebay => Sys2Proof.Machine.execRebay s
  | .abort => Sys2Proof.Machine.execAbort s
  | .raiseStepComplete us => Sys2Proof.Machine.execRaiseStepComplete us s
  | .bayEnterRun b => Sys2Proof.Machine.execBayEnterRun b s
  | .portEnable p v => Sys2Proof.Machine.execPortEnable p v s
  | .portDisable p v => Sys2Proof.Machine.execPortDisable p v s
  | .linkTrainingDone p failed dev port lanes width => Sys2Proof.Machine.execLinkTrainingDone p failed dev port lanes width s
  | .trainingRetry p => Sys2Proof.Machine.execTrainingRetry p s
  | .null p l => Sys2Proof.Machine.execNull p l s
  | .qcell p l f => Sys2Proof.Machine.execQcell p l f s
  | .pread p l f guest => Sys2Proof.Machine.execPread p l f guest s
  | .pwrite p l f guest => Sys2Proof.Machine.execPwrite p l f guest s
  | .pcomp p l f intr => Sys2Proof.Machine.execPcomp p l f intr s
  | .perr p l f intr => Sys2Proof.Machine.execPerr p l f intr s
  | .fence p l f fwd => Sys2Proof.Machine.execFence p l f fwd s
  | .fenceAck p l f => Sys2Proof.Machine.execFenceAck p l f s
  | .qrefuse p l f => Sys2Proof.Machine.execQrefuse p l f s
  | .lstate p l f => Sys2Proof.Machine.execLstate p l f s
  | .tsyncReq p l t2 t3 => Sys2Proof.Machine.execTsyncReq p l t2 t3 s
  | .tsyncRsp p l t2 t3 t4 => Sys2Proof.Machine.execTsyncRsp p l t2 t3 t4 s
  | .reservedFlit p l => Sys2Proof.Machine.execReservedFlit p l s
  | .replayTimeout p => Sys2Proof.Machine.execReplayTimeout p s
  | .creditStall p => Sys2Proof.Machine.execCreditStall p s
  | .lossOfSignal p => Sys2Proof.Machine.execLossOfSignal p s
  | .rtRead => Sys2Proof.Machine.execRtRead s
  | .rtWrite => Sys2Proof.Machine.execRtWrite s
  | .update => Sys2Proof.Machine.execUpdate s
  | .updateForced => Sys2Proof.Machine.execUpdateForced s
  | .pwRead => Sys2Proof.Machine.execPwRead s
  | .pwWrite => Sys2Proof.Machine.execPwWrite s
  | .scfDevidWrite v => Sys2Proof.Machine.execScfDevidWrite v s
  | .scfTset v => Sys2Proof.Machine.execScfTset v s
  | .tsyncExchange t1 => Sys2Proof.Machine.execTsyncExchange t1 s
  | .adaptSlice p => Sys2Proof.Machine.execAdaptSlice p s
  | .bar0Request write off n fbe lbe data poison => Sys2Proof.Machine.execBar0Request write off n fbe lbe data poison s
  | .bar4Read off n => Sys2Proof.Machine.execBar4Read off n s
  | .bar4Write off data poison req => Sys2Proof.Machine.execBar4Write off data poison req s
  | .malformedTlp hdr => Sys2Proof.Machine.execMalformedTlp hdr s
  | .msixEnable on fmask => Sys2Proof.Machine.execMsixEnable on fmask s
  | .msixUnmask v => Sys2Proof.Machine.execMsixUnmask v s
  | .pcieLinkUp gen width => Sys2Proof.Machine.execPcieLinkUp gen width s
  | .ethFrameReceive m data good time => Sys2Proof.Machine.execEthFrameReceive m data good time s
  | .ethTransmit m => Sys2Proof.Machine.execEthTransmit m s
  | .ethTransmitDone m time => Sys2Proof.Machine.execEthTransmitDone m time s
  | .ethLinkUp m => Sys2Proof.Machine.execEthLinkUp m s
  | .ethLinkDown m => Sys2Proof.Machine.execEthLinkDown m s
  | .ethEnable m v => Sys2Proof.Machine.execEthEnable m v s
  | .crossbarBurst master a write data => Sys2Proof.Machine.execCrossbarBurst master a write data s
  | .remap v => Sys2Proof.Machine.execRemap v s
  | .bootOk => Sys2Proof.Machine.execBootOk s
  | .bootFail => Sys2Proof.Machine.execBootFail s
  | .bootWindowExpiry => Sys2Proof.Machine.execBootWindowExpiry s
  | .mxhPost v => Sys2Proof.Machine.execMxhPost v s
  | .mxhDone v => Sys2Proof.Machine.execMxhDone v s
  | .mxhStatus => Sys2Proof.Machine.execMxhStatus s
  | .flashRead ok => Sys2Proof.Machine.execFlashRead ok s
  | .flashWrite ok => Sys2Proof.Machine.execFlashWrite ok s
  | .flashErase ok => Sys2Proof.Machine.execFlashErase ok s
  | .leaveShoring => Sys2Proof.Machine.execLeaveShoring s
  | .romRaise a => Sys2Proof.Machine.execRomRaise a s
  | .xspiGo v => Sys2Proof.Machine.execXspiGo v s
  | .xspiCmdDone rx at_ new => Sys2Proof.Machine.execXspiCmdDone rx at_ new s
  | .xspiDataRead => Sys2Proof.Machine.execXspiDataRead s
  | .smbGo v => Sys2Proof.Machine.execSmbGo v s
  | .smbXferDone ack pec data => Sys2Proof.Machine.execSmbXferDone ack pec data s
  | .smbTargetRx pec data => Sys2Proof.Machine.execSmbTargetRx pec data s
  | .smbDataRead => Sys2Proof.Machine.execSmbDataRead s
  | .uartDataRead => Sys2Proof.Machine.execUartDataRead s
  | .uartRxByte x framed => Sys2Proof.Machine.execUartRxByte x framed s
  | .gpioEdge levels => Sys2Proof.Machine.execGpioEdge levels s
  | .por => Sys2Proof.Machine.execPor s
  | .tamper => Sys2Proof.Machine.execTamper s
  | .coldpin => Sys2Proof.Machine.execColdpin s
  | .rail => Sys2Proof.Machine.execRail s
  | .wdog => Sys2Proof.Machine.execWdog s
  | .swrst ag v => Sys2Proof.Machine.execSwrst ag v s
  | .rstSwCold ag v => Sys2Proof.Machine.execRstSwCold ag v s
  | .failstart => Sys2Proof.Machine.execFailstart s
  | .perst => Sys2Proof.Machine.execPerst s
  | .hotrst => Sys2Proof.Machine.execHotrst s
  | .dldown => Sys2Proof.Machine.execDldown s
  | .rstBent v => Sys2Proof.Machine.execRstBent v s
  | .rstBay v => Sys2Proof.Machine.execRstBay v s
  | .rstBlock v => Sys2Proof.Machine.execRstBlock v s
  | .resetSourceRelease src => Sys2Proof.Machine.execResetSourceRelease src s
  | .exitSequenceDone what => Sys2Proof.Machine.execExitSequenceDone what s
  | .wrapperDrained => Sys2Proof.Machine.execWrapperDrained s
  | .trimStart v => Sys2Proof.Machine.execTrimStart v s
  | .trimLoadDone ok => Sys2Proof.Machine.execTrimLoadDone ok s
  | .wdgEnable v => Sys2Proof.Machine.execWdgEnable v s
  | .wdgKick v => Sys2Proof.Machine.execWdgKick v s
  | .pwrCtlWrite v => Sys2Proof.Machine.execPwrCtlWrite v s
  | .pwrRetWrite v => Sys2Proof.Machine.execPwrRetWrite v s
  | .domainTransitionDone d => Sys2Proof.Machine.execDomainTransitionDone d s
  | .pllLossOfLock k => Sys2Proof.Machine.execPllLossOfLock k s
  | .thermalSample temps => Sys2Proof.Machine.execThermalSample temps s
  | .secPost p v => Sys2Proof.Machine.execSecPost p v s
  | .secStatus p => Sys2Proof.Machine.execSecStatus p s
  | .selftest p => Sys2Proof.Machine.execSelftest p s
  | .selftestComplete pass => Sys2Proof.Machine.execSelftestComplete pass s
  | .zeroise p => Sys2Proof.Machine.execZeroise p s
  | .zeroisationComplete => Sys2Proof.Machine.execZeroisationComplete s
  | .getnonce p => Sys2Proof.Machine.execGetnonce p s
  | .auth p role slot sig => Sys2Proof.Machine.execAuth p role slot sig s
  | .logout p => Sys2Proof.Machine.execLogout p s
  | .unlock p => Sys2Proof.Machine.execUnlock p s
  | .secHash p alg src len => Sys2Proof.Machine.execSecHash p alg src len s
  | .hmac p alg h src len => Sys2Proof.Machine.execHmac p alg h src len s
  | .gcmEnc p h aad src len dst => Sys2Proof.Machine.execGcmEnc p h aad src len dst s
  | .gcmDec p h iv tag aad src len dst => Sys2Proof.Machine.execGcmDec p h iv tag aad src len dst s
  | .xtsEnc p h1 h2 tweak src len dst => Sys2Proof.Machine.execXtsEnc p h1 h2 tweak src len dst s
  | .xtsDec p h1 h2 tweak src len dst => Sys2Proof.Machine.execXtsDec p h1 h2 tweak src len dst s
  | .sign p h src len => Sys2Proof.Machine.execSign p h src len s
  | .verify p pub sig src len => Sys2Proof.Machine.execVerify p pub sig src len s
  | .ecdh p h pub => Sys2Proof.Machine.execEcdh p h pub s
  | .keygen p h kind pass => Sys2Proof.Machine.execKeygen p h kind pass s
  | .wrap p h under => Sys2Proof.Machine.execWrap p h under s
  | .unwrap p h under kind w => Sys2Proof.Machine.execUnwrap p h under kind w s
  | .keydel p h => Sys2Proof.Machine.execKeydel p h s
  | .random p n dst => Sys2Proof.Machine.execRandom p n dst s
  | .attest p nonce => Sys2Proof.Machine.execAttest p nonce s
  | .otpKey p slot use h pub => Sys2Proof.Machine.execOtpKey p slot use h pub s
  | .otpRevoke p slot => Sys2Proof.Machine.execOtpRevoke p slot s
  | .floor p kind v running => Sys2Proof.Machine.execFloor p kind v running s
  | .otpConfig p bits => Sys2Proof.Machine.execOtpConfig p bits s
  | .destroy p => Sys2Proof.Machine.execDestroy p s
  | .entropyHealthFail => Sys2Proof.Machine.execEntropyHealthFail s
  | .tamperMonitorTrip code => Sys2Proof.Machine.execTamperMonitorTrip code s
  | .debugRelock => Sys2Proof.Machine.execDebugRelock s
  | .recordPost => Sys2Proof.Machine.execRecordPost s
  | .periodic => Sys2Proof.Machine.execPeriodic s
  | .bgRetire v => Sys2Proof.Machine.execBgRetire v s
  | .retirementFinish => Sys2Proof.Machine.execRetirementFinish s
  | .journalPatrol => Sys2Proof.Machine.execJournalPatrol s
  | .journalPatrolEnd => Sys2Proof.Machine.execJournalPatrolEnd s
  | .acRefresh => Sys2Proof.Machine.execAcRefresh s
  | .flitCrcFailure p => Sys2Proof.Machine.execFlitCrcFailure p s
  | .retryWindow p => Sys2Proof.Machine.execRetryWindow p s
  | .throttleHoldEnd n => Sys2Proof.Machine.execThrottleHoldEnd n s
  | .vddqLoss c back => Sys2Proof.Machine.execVddqLoss c back s
  | .rtcCrystalInUse => Sys2Proof.Machine.execRtcCrystalInUse s
  | .uartTxByte => Sys2Proof.Machine.execUartTxByte s
  | .aerError k hdr => Sys2Proof.Machine.execAerError k hdr s
  | .d3hotTransition req => Sys2Proof.Machine.execD3hotTransition req s

end Sys2Proof.Machine
end

