-- ==== Sys2Proof/Machine/Step.lean ====
section
/-!
DEFINITION. A step takes the command at the front of the queue; with none, a microsecond passes.
-/
namespace Sys2Proof.Machine

/-- One step: the front command's effect with the queue's rest; on an empty queue the device idles for a microsecond.
DESIGN CHOICE, log entries 1, 5. -/
def step (s : State) : Host.Outcome State Fault Refusal :=
  match s.pending with
  | [] => s.run State.microsecond
  | i :: rest => exec i { s with pending := rest }

/-- The state with the command that a table word spells put at the front of its queue: the table gives no row bits, so
no word spells one. DESIGN CHOICE, log entry 1. -/
def State.withFetchWord (s : State) (nbits w : Nat) : State :=
  match decodeTableWord nbits w with
  | some i => { s with pending := i :: s.pending }
  | none => s

end Sys2Proof.Machine
end

