-- ==== Sys2Proof/WellFormed.lean ====
section
/-!
DEFINITION. Well-formed commands: every operand within the range that the spec gives it. A command that is not well formed
is one that nothing sends.
-/
namespace Sys2Proof

/-- The number is a bay index (R16). -/
abbrev okBay (b : Nat) : Prop := b < 256

/-- The number is a bay index, or 256 for the sill core. -/
abbrev okCore (b : Nat) : Prop := b ≤ 256

/-- The number is a bent (R15). -/
abbrev okBent (n : Nat) : Prop := n < 16

/-- The number is a staging bank (R282). -/
abbrev okBank (n : Nat) : Prop := n < 192

/-- The number is a staging group (R299). -/
abbrev okGroup (n : Nat) : Prop := n < 16

/-- The number is a DDR4 channel. -/
abbrev okChan (n : Nat) : Prop := n < 8

/-- The number is a rank of a channel: slot × 32 + index (R306). -/
abbrev okRank (n : Nat) : Prop := n < 64

/-- The number is a scarf port. -/
abbrev okPort (n : Nat) : Prop := n < 8

/-- The number is a queue (R235). -/
abbrev okQueue (n : Nat) : Prop := n < 65536

/-- The number is a host ring (R272). -/
abbrev okRing (n : Nat) : Prop := n < 256

/-- The number is an MSI-X vector (R431). -/
abbrev okVector (n : Nat) : Prop := n < 2048

/-- The number is an Ethernet MAC. -/
abbrev okMac (n : Nat) : Prop := n < 2

/-- The number is a host mailbox of a bay (R106). -/
abbrev okMailbox (n : Nat) : Prop := n < 4

/-- The number is a timer (R171). -/
abbrev okTimer (n : Nat) : Prop := n < 4

/-- The number is a power domain (R479). -/
abbrev okDomain (n : Nat) : Prop := n < 23

/-- The number is a task descriptor (R331). -/
abbrev okTask (n : Nat) : Prop := n < 16384

/-- The number is a table (R328). -/
abbrev okTable (n : Nat) : Prop := n < 1048576

/-- The number is a page of a table (R327). -/
abbrev okPage (n : Nat) : Prop := n < 4096

/-- The number is a PLL: a main one as CLK_STAT.PLL numbers them, or a bent's from 16 (R483). -/
abbrev okPll (n : Nat) : Prop := n < 6 ∨ (16 ≤ n ∧ n < 32)

/-- The number is an AER status bit (R433). -/
abbrev okAer (n : Nat) : Prop := n < 17

/-- The number is a reset source, in the order of R465's table. -/
abbrev okSource (n : Nat) : Prop := n ≤ 10

/-- The number is an exit sequence: of a bent, of the pulse at 16, of the device at 17. -/
abbrev okExit (n : Nat) : Prop := n ≤ 17

/-- The number is a key handle (R495). -/
abbrev okHandle (n : Nat) : Prop := n < 32

/-- The number is an OTP key slot (R493). -/
abbrev okSlot (n : Nat) : Prop := n < 12

/-- The number is a tamper monitor's code (R501). -/
abbrev okMonitor (n : Nat) : Prop := 1 ≤ n ∧ n ≤ 6

/-- The number is a crossbar master that bursts: M2 or M3 (R448). -/
abbrev okMaster (n : Nat) : Prop := n = 2 ∨ n = 3

/-- The number is the size of a register access in bytes (R39). -/
abbrev okSize (n : Nat) : Prop := n = 1 ∨ n = 2 ∨ n = 4 ∨ n = 8

/-- The number is the byte enables of a dword (R40). -/
abbrev okEnables (n : Nat) : Prop := n < 16

/-- The number is the offset of a 32-bit register (R39). -/
abbrev okWordAt (a : Nat) : Prop := a % 4 = 0

/-- The number is a temperature as the byte that a DIMM reports (R326). -/
abbrev okTemp (n : Nat) : Prop := n < 256

/-- The number is 0, or the failed step of a link training (R392). -/
abbrev okStep (n : Nat) : Prop := n ≤ 5

/-- The number is 0, or the failed step of a DDR4 training (R323). -/
abbrev okTrain (n : Nat) : Prop := n ≤ 13

/-- The number is the lanes of a scarf port, one bit each. -/
abbrev okLanes (n : Nat) : Prop := n < 16

/-- The number is the width of a scarf port, as SCFp_STATE codes it. -/
abbrev okWidth (n : Nat) : Prop := n < 4

/-- The number is a device identifier (R18). -/
abbrev okDevice (n : Nat) : Prop := n < 4096

/-- The number is an array of a bay: scratch or instruction store. -/
abbrev okArray (n : Nat) : Prop := n ≤ 1

/-- The number is what comes with a guest access: nothing, the placement, the page's end. -/
abbrev okGuest (n : Nat) : Prop := n ≤ 2

/-- The number is an intrusion tag of a completion: none, a retry, an adaptation slice (R190). -/
abbrev okIntr (n : Nat) : Prop := n = 0 ∨ n = 12 ∨ n = 13

/-- The number is a role: USER or CO (R497). -/
abbrev okRole (n : Nat) : Prop := n = 1 ∨ n = 2

/-- The number is a digest algorithm: SHA-256 or SHA-384. -/
abbrev okDigest (n : Nat) : Prop := n ≤ 1

/-- The number is a kind of key: AES-256 or a P-384 pair. -/
abbrev okKeyKind (n : Nat) : Prop := n = 1 ∨ n = 2

/-- The number is a rollback floor: of firmware or of frame plans (R493). -/
abbrev okFloor (n : Nat) : Prop := n ≤ 1

/-- A dword of configuration space (R422). -/
abbrev okConfig (n : Nat) : Prop := n < 4096 ∧ n % 4 = 0

/-- A time in 2^-16 ns (R417). -/
abbrev okStamp (n : Nat) : Prop := n < 2 ^ 80

/-- The list is one reading for each of the 24 sensors (R485). -/
abbrev okSensors (l : List Int) : Prop := l.length = 24

/-- The list is a TLP header. -/
abbrev okHeader (l : List Word) : Prop := l.length ≤ 4

/-- The list is the data of a write request. -/
abbrev okWrite (l : List Byte) : Prop := 0 < l.length ∧ l.length ≤ 4096

/-- The list is the data of a doorbell write. -/
abbrev okCells (l : List Byte) : Prop := 0 < l.length ∧ l.length ≤ 512

/-- The list is the bytes of a page. -/
abbrev okLine (l : List Byte) : Prop := l.length ≤ 65536

/-- The list is the beats of a burst (R449). -/
abbrev okBurst (l : List Word) : Prop := 0 < l.length ∧ l.length ≤ 256

/-- The list is errors that strike words or lines. -/
abbrev okStrikes (l : List (Nat × Nat)) : Prop := ∀ e ∈ l, e.2 < 4096

/-- The list is errors that strike a bay's stores: array, word, and a single-bit (1) or double-bit (2) error. -/
abbrev okUpsets (l : List (Nat × Nat × Nat)) : Prop := ∀ e ∈ l, e.1 ≤ 1 ∧ e.2.2 ≤ 2

/-- The fields of a flit keep to their widths, and its payload is 16 words (R395). -/
abbrev okFlit (f : Flit) : Prop :=
  f.typ < 16 ∧ f.dst < 4096 ∧ f.src < 4096 ∧ f.tag < 65536 ∧ f.cell < 4 ∧ f.ncell < 4 ∧ f.index < 16384 ∧
    f.payload.length = 16

/-- The fields of a link word keep to their widths (R396). -/
abbrev okLink (l : LinkWord) : Prop := l.seq < 4096 ∧ l.ackseq < 4096 ∧ l.cclass < 3 ∧ l.ccount < 16

/-- Agents outside the bays have no index; the others have one of theirs. -/
abbrev okAgent (a : Agent) : Prop :=
  match a with
  | .bay b | .trace b => okBay b
  | .march g => okGroup g
  | .peer d => okDevice d
  | _ => True

/-- Is a command well formed?. DESIGN CHOICE, log entry 11. -/
abbrev Instr.WellFormed (i : Instr) : Prop :=
  match i with
  | .registerWrite ag _ size _ => okAgent ag ∧ okSize size
  | .pgShadowWrite ag a _ => okAgent ag ∧ okWordAt a
  | .mwWrite ag a _ => okAgent ag ∧ okWordAt a
  | .sqClearWrite ag a _ => okAgent ag ∧ okWordAt a
  | .devPeg _ => True
  | .pegDeferredAccept => True
  | .pegApplied => True
  | .cfgCrcPass => True
  | .bundleIssue b upsets => okCore b ∧ okUpsets upsets
  | .resultArrival b _ _ => okCore b
  | .windowResponse b _ _ => okCore b
  | .faultEntry b => okCore b
  | .eventEntry b => okCore b
  | .dispatchEntry b => okBay b
  | .bayPrivWrite b _ => okCore b
  | .bayMaskWrite b _ => okCore b
  | .bayGcfgWrite b _ => okCore b
  | .modeChangeEffect b => okCore b
  | .structWrite ag b _ _ => okAgent ag ∧ okCore b
  | .iwrDataWrite b _ => okCore b
  | .plbDrop b => okCore b
  | .plbFill b _ => okCore b
  | .timerExpiry b n => okCore b ∧ okTimer n
  | .mbxPost b m _ => okBay b ∧ okMailbox m
  | .mbxLoRead ag b m => okAgent ag ∧ okBay b ∧ okMailbox m
  | .mbxHiRead ag b m => okAgent ag ∧ okBay b ∧ okMailbox m
  | .mbxAck ag b m _ => okAgent ag ∧ okBay b ∧ okMailbox m
  | .traceEnable ag b _ => okAgent ag ∧ okBay b
  | .step ag b => okAgent ag ∧ okBay b
  | .enter ag b => okAgent ag ∧ okBay b
  | .exit ag b => okAgent ag ∧ okBay b
  | .testEntryStop b => okBay b
  | .ledgerClear b => okBay b
  | .throttlePeriod n => okBent n
  | .throttleAdjust => True
  | .sendQueueDepart b => okBay b
  | .messageCommit _ => True
  | .waitExpired b => okBay b
  | .roomCommit b => okBay b
  | .messageLanded b _ => okBay b
  | .queueTimeout q => okQueue q
  | .dbMsg q _ data _ => okQueue q ∧ okCells data
  | .dbWord q data _ => okQueue q ∧ okCells data
  | .dbHead q _ _ => okQueue q
  | .hostRingWrite n => okRing n
  | .msixModerationExpiry n => okRing n
  | .hrEnSet n _ => okRing n
  | .hrEnClear n _ => okRing n
  | .qmRead => True
  | .qmWrite => True
  | .writep => True
  | .outsideWordAccess b _ _ _ _ _ upsets => okBay b ∧ okUpsets upsets
  | .bayScrubRead b upsets => okBay b ∧ okUpsets upsets
  | .ceWriteback b array _ => okBay b ∧ okArray array
  | .stagingAccess ag _ _ _ _ _ upsets _ => okAgent ag ∧ okStrikes upsets
  | .stagingScrubRead n upsets => okBank n ∧ okStrikes upsets
  | .stgOwnWrite n _ => okBank n
  | .stgOwnApply n => okBank n
  | .bankWake n => okBank n
  | .stagingMarchStart g _ => okGroup g
  | .stagingMarchDone g _ _ => okGroup g
  | .bayMarchStart b _ => okBay b
  | .bayMarchDone b _ _ _ _ => okBay b
  | .init c _ => okChan c
  | .trainingComplete c failed t0 t1 => okChan c ∧ okTrain failed ∧ okTemp t0 ∧ okTemp t1
  | .srEnter c _ => okChan c
  | .selfrefEntered c => okChan c
  | .srExit c _ => okChan c
  | .selfrefExited c => okChan c
  | .clrmax c _ => okChan c
  | .ddr4Request _ _ _ _ _ _ upsets _ => okStrikes upsets
  | .refreshEpisode c rank => okChan c ∧ okRank rank
  | .refreshEnd c rank upsets => okChan c ∧ okRank rank ∧ okStrikes upsets
  | .zqcs c rank => okChan c ∧ okRank rank
  | .caParityAlert c => okChan c
  | .dimmTempPoll c t0 t1 => okChan c ∧ okTemp t0 ∧ okTemp t1
  | .retrainSlice c _ => okChan c
  | .epochBoundary => True
  | .pageCopyPassDone table page _ => okTable table ∧ okPage page
  | .fenceAcknowledged table page => okTable table ∧ okPage page
  | .pageMoveComplete table page _ remote => okTable table ∧ okPage page ∧ okLine remote
  | .taskMoveDrained task => okTask task
  | .taskMoveComplete task => okTask task
  | .migwaitExpiry task => okTask task
  | .tcmdRead => True
  | .tcmdWrite => True
  | .place => True
  | .tcmdMove => True
  | .unplace => True
  | .pcmdRead => True
  | .pcmdMove => True
  | .twrite => True
  | .scrEvac _ => True
  | .scrEvbay _ => True
  | .scrBankrel _ => True
  | .raise => True
  | .rebent => True
  | .rebay => True
  | .abort => True
  | .raiseStepComplete _ => True
  | .bayEnterRun b => okBay b
  | .portEnable p _ => okPort p
  | .portDisable p _ => okPort p
  | .linkTrainingDone p failed dev port lanes width => okPort p ∧ okStep failed ∧ okDevice dev ∧ okPort port ∧ okLanes lanes ∧ okWidth width
  | .trainingRetry p => okPort p
  | .null p l => okPort p ∧ okLink l
  | .qcell p l f => okPort p ∧ okLink l ∧ okFlit f
  | .pread p l f guest => okPort p ∧ okLink l ∧ okFlit f ∧ okGuest guest
  | .pwrite p l f guest => okPort p ∧ okLink l ∧ okFlit f ∧ okGuest guest
  | .pcomp p l f intr => okPort p ∧ okLink l ∧ okFlit f ∧ okIntr intr
  | .perr p l f intr => okPort p ∧ okLink l ∧ okFlit f ∧ okIntr intr
  | .fence p l f _ => okPort p ∧ okLink l ∧ okFlit f
  | .fenceAck p l f => okPort p ∧ okLink l ∧ okFlit f
  | .qrefuse p l f => okPort p ∧ okLink l ∧ okFlit f
  | .lstate p l f => okPort p ∧ okLink l ∧ okFlit f
  | .tsyncReq p l t2 t3 => okPort p ∧ okLink l ∧ okStamp t2 ∧ okStamp t3
  | .tsyncRsp p l t2 t3 t4 => okPort p ∧ okLink l ∧ okStamp t2 ∧ okStamp t3 ∧ okStamp t4
  | .reservedFlit p l => okPort p ∧ okLink l
  | .replayTimeout p => okPort p
  | .creditStall p => okPort p
  | .lossOfSignal p => okPort p
  | .rtRead => True
  | .rtWrite => True
  | .update => True
  | .updateForced => True
  | .pwRead => True
  | .pwWrite => True
  | .scfDevidWrite _ => True
  | .scfTset _ => True
  | .tsyncExchange t1 => okStamp t1
  | .adaptSlice p => okPort p
  | .bar0Request _ _ _ fbe lbe _ _ => okEnables fbe ∧ okEnables lbe
  | .bar4Read _ _ => True
  | .bar4Write _ data _ _ => okWrite data
  | .malformedTlp hdr => okHeader hdr
  | .msixEnable _ _ => True
  | .msixUnmask v => okVector v
  | .pcieLinkUp _ _ => True
  | .ethFrameReceive m _ _ time => okMac m ∧ okStamp time
  | .ethTransmit m => okMac m
  | .ethTransmitDone m time => okMac m ∧ okStamp time
  | .ethLinkUp m => okMac m
  | .ethLinkDown m => okMac m
  | .ethEnable m _ => okMac m
  | .crossbarBurst master _ _ data => okMaster master ∧ okBurst data
  | .remap _ => True
  | .bootOk => True
  | .bootFail => True
  | .bootWindowExpiry => True
  | .mxhPost _ => True
  | .mxhDone _ => True
  | .mxhStatus => True
  | .flashRead _ => True
  | .flashWrite _ => True
  | .flashErase _ => True
  | .leaveShoring => True
  | .romRaise _ => True
  | .xspiGo _ => True
  | .xspiCmdDone _ _ _ => True
  | .xspiDataRead => True
  | .smbGo _ => True
  | .smbXferDone _ _ _ => True
  | .smbTargetRx _ _ => True
  | .smbDataRead => True
  | .uartDataRead => True
  | .uartRxByte _ _ => True
  | .gpioEdge _ => True
  | .por => True
  | .tamper => True
  | .coldpin => True
  | .rail => True
  | .wdog => True
  | .swrst ag _ => okAgent ag
  | .rstSwCold ag _ => okAgent ag
  | .failstart => True
  | .perst => True
  | .hotrst => True
  | .dldown => True
  | .rstBent _ => True
  | .rstBay _ => True
  | .rstBlock _ => True
  | .resetSourceRelease src => okSource src
  | .exitSequenceDone what => okExit what
  | .wrapperDrained => True
  | .trimStart _ => True
  | .trimLoadDone _ => True
  | .wdgEnable _ => True
  | .wdgKick _ => True
  | .pwrCtlWrite _ => True
  | .pwrRetWrite _ => True
  | .domainTransitionDone d => okDomain d
  | .pllLossOfLock k => okPll k
  | .thermalSample temps => okSensors temps
  | .secPost _ _ => True
  | .secStatus _ => True
  | .selftest _ => True
  | .selftestComplete _ => True
  | .zeroise _ => True
  | .zeroisationComplete => True
  | .getnonce _ => True
  | .auth _ role slot _ => okRole role ∧ okSlot slot
  | .logout _ => True
  | .unlock _ => True
  | .secHash _ alg _ _ => okDigest alg
  | .hmac _ alg h _ _ => okDigest alg ∧ okHandle h
  | .gcmEnc _ h _ _ _ _ => okHandle h
  | .gcmDec _ h _ _ _ _ _ _ => okHandle h
  | .xtsEnc _ h1 h2 _ _ _ _ => okHandle h1 ∧ okHandle h2
  | .xtsDec _ h1 h2 _ _ _ _ => okHandle h1 ∧ okHandle h2
  | .sign _ h _ _ => okHandle h
  | .verify _ _ _ _ _ => True
  | .ecdh _ h _ => okHandle h
  | .keygen _ h kind _ => okHandle h ∧ okKeyKind kind
  | .wrap _ h under => okHandle h ∧ okHandle under
  | .unwrap _ h under kind _ => okHandle h ∧ okHandle under ∧ okKeyKind kind
  | .keydel _ h => okHandle h
  | .random _ _ _ => True
  | .attest _ _ => True
  | .otpKey _ slot _ h _ => okSlot slot ∧ okHandle h
  | .otpRevoke _ slot => okSlot slot
  | .floor _ kind _ _ => okFloor kind
  | .otpConfig _ _ => True
  | .destroy _ => True
  | .entropyHealthFail => True
  | .tamperMonitorTrip code => okMonitor code
  | .debugRelock => True
  | .recordPost => True
  | .periodic => True
  | .bgRetire _ => True
  | .retirementFinish => True
  | .journalPatrol => True
  | .journalPatrolEnd => True
  | .acRefresh => True
  | .flitCrcFailure p => okPort p
  | .retryWindow p => okPort p
  | .throttleHoldEnd n => okBent n
  | .vddqLoss c _ => okChan c
  | .rtcCrystalInUse => True
  | .uartTxByte => True
  | .aerError k hdr => okAer k ∧ okHeader hdr
  | .d3hotTransition req => okConfig req.off

end Sys2Proof
end

