-- ==== Sys2Proof/Safety.lean ====
section
/-!
DEFINITION. What counts as a safe run: one that never stops, and the canonical form of the memories that every state of it
keeps.
-/
namespace Sys2Proof

/-- From state s the machine runs n steps without a fault or a refusal. -/
def RunsFor (n : Nat) (s : Machine.State) : Prop := ∃ t, core.run n s = .next t

namespace Machine

/-- A bay's two memories are in canonical form. -/
def Bay.memOk (b : Bay) : Bool := b.scratch.wf && b.istore.wf

/-- Every memory that the state lists is in canonical form: bays, staging banks, DIMMs, boot flash, OTP. -/
def State.memOk (s : State) : Bool :=
  (s.bays.all fun (e : Nat × Bay) => e.2.memOk) && (s.stg.banks.all fun (e : Nat × Bank) => e.2.mem.wf) &&
    (s.ddr.chans.all fun (e : Nat × Chan) => e.2.mem.wf) && s.mx.flash.wf && s.sec.otp.wf

/-- A bay that stands before the bundle at its pc with nothing in progress: no operation, transfer, entry, repeat or hold,
no event to take, no timer enabled, no trace, no error in its instruction store. -/
def Bay.quiet (b : Bay) : Prop :=
  b.sill = false ∧ b.pipe = { pc := b.pipe.pc, serial := b.pipe.serial } ∧ b.ctx.modes = [] ∧ b.ctx.svc = none ∧
    b.ctx.check = false ∧ b.pickAt b.ctx.mask false = none ∧ b.dbg.trcOn = false ∧ b.dbg.testReq = false ∧
    b.tmr.ctl = 0#32 ∧ b.tmr.due = [] ∧ b.qio.cur = none ∧ b.oldWords = [] ∧ b.imarks = []

/-- The moves of the bundle at the bay's pc, through its active socket map, and the bundle's length. -/
def Bay.bundleAt (b : Bay) (ops : List Op) (n : Nat) : Prop :=
  let bd := decodeBundle (b.fetchWord b.pipe.pc) (b.fetchWord (b.advance b.pipe.pc 4))
  bd.size = n ∧ sockets b.map bd (b.cond bd.bg) (b.guard 1) = .ok ops

/-- The registers after a list of register moves whose values were taken before it. -/
def gpAfter (g : Tab Word) (old : Nat → Word) (ops : List Op) : Tab Word :=
  (ops.filter Op.runs).foldl (fun x o => match o.src, o.dst with
    | .gp m, .gp n => tsetD 0#32 x n (old m)
    | _, _ => x) g

/-- Is every move of the bundle from a general register to a general register? -/
def regMoves (ops : List Op) : Prop := ∀ o ∈ ops, ∃ m n, o.src = .gp m ∧ o.dst = .gp n

/-- Byte i of the page at a place of this device (R332). -/
def State.placeByte (s : State) (w : Word) (i : Nat) : Byte :=
  let loc := fld w 0 26
  match tierOf w with
  | 0 => (s.bay (loc % 256)).scratch.byte (loc / 256 * 65536 + i)
  | 1 => (s.bank (loc % 256)).mem.byte (loc / 256 * 65536 + i)
  | 2 => (s.chan (loc / 2 ^ 23)).see (loc * 65536 + i)
  | _ => 0#8

/-- The bay at the boundary of its clock: due mode changes hold, and the port's use is that of the bundle before. -/
def Bay.atIssue (c : Bay) : Bay :=
  { c with ctx := c.ctx.modesDue, pipe := { c.pipe with prior := c.pipe.used, used := false } }

/-- A running bay at the boundary of this clock's bundle: counters and units have moved on. -/
def Bay.poised (b : Bay) : Bay := b.tickStart.atIssue

/-- A bay in TEST as a step's bundle finds it: stored structural writes applied, what was in progress drained. -/
def Bay.stepPoised (b0 : Bay) : Bay :=
  let b := { b0 with str := b0.str.applyAll, ctx := b0.ctx.modesDue }.drain
  { b with tmr := (Tmr.run 2 b.tmr).tick }

/-- At this boundary the bay issues: no fault, SVC, return, repeat, entry or WAIT stands before the bundle, and where an
event or a stop may come in between there is none. -/
def Bay.issues (b : Bay) : Prop :=
  b.pipe.fault = none ∧ b.pipe.svcNow = none ∧ b.pipe.ret = none ∧ b.pipe.rep = none ∧ b.pipe.idle = 0 ∧
    b.pipe.waiting = false ∧ (b.boundary = true → b.dbg.testReq = false ∧ b.pickAt b.ctx.mask false = none)

/-- Every unsquashed move's destination is written, with the values of before the bundle (R73, R74). -/
def Bay.moved (b : Bay) (ops : List Op) : Bay :=
  (b.values ops).foldl Bay.writeDst { b with free := b.free + drawn ops }

/-- The bundle of n bytes at the bay's pc, with the moves ops, takes effect now: it is fetched and its codes are in order,
its sources are ready and sound, and no operation it triggers faults or must wait. c is the bay, with single-bit errors of
the words fetched corrected. -/
def Bay.goes (b : Bay) (ops : List Op) (n : Nat) (c : Bay) : Prop :=
  (∃ w0 w1, b.fetch = .words w0 w1 ∧ c = b.fetchCorrect w0 ∧ (decodeBundle w0 w1).size = n ∧
    sockets c.map (decodeBundle w0 w1) (c.cond (decodeBundle w0 w1).bg) (c.guard 1) = .ok ops) ∧
  c.sources ops = .ready ∧ c.poisoned ops = none ∧
  (c.moved ops).trFault (c.gpr 63) (triggers (c.values ops)) = none ∧ (c.moved ops).trHold (triggers (c.values ops)) = []

/-- Bay t holds what code of bay a can read and write: registers, guards, operand and result ports, both stores, the pc. -/
structure SameCore (a t : Bay) : Prop where
  gp : t.gp = a.gp
  guards : t.guards = a.guards
  opnds : t.opnds = a.opnds
  ports : t.ports = a.ports
  scratch : t.scratch = a.scratch
  istore : t.istore = a.istore
  state : t.state = a.state
  pc : t.pipe.pc = a.pipe.pc

/-- Between bay b and bay t an entry e was made for the bundle at `ret`: the frame of four words stands below the old
GP63, a record is pushed, privilege, mask and pc are the entry's; every other register, the guards and every byte of
scratch outside the frame are what they were. -/
def Bay.entered (b : Bay) (e : Entry) (ret : Nat) (repu : Bool) (t : Bay) : Prop :=
  let k := b.key (b.gpr 63 - 16#32).toNat
  t.scrWord k = framePc ret b.dslot.1 b.dslot.2 ∧
    t.scrWord (k + 4) = FrameStat.word ⟨e.vector, e.cause, e.level, b.dslot.1, repu, b.ctx.mask, b.ctx.priv⟩ ∧
    t.scrWord (k + 8) = b.frameCtx ∧ t.scrWord (k + 12) = e.info ∧
    t.ctx.recs = ⟨b.ctx.priv, b.ctx.mask, e.level, false⟩ :: b.ctx.recs ∧ t.ctx.priv = e.priv ∧ t.ctx.mask = e.mask ∧
    t.pipe.pc = e.handler ∧ t.pipe.redirects = [] ∧ (∀ n, n ≠ 63 → t.gpr n = b.gpr n) ∧ t.guards = b.guards ∧
    (∀ a, a < k ∨ k + 16 ≤ a → t.scratch.byte a = b.scratch.byte a) ∧ t.state = b.state

/-- Does the register at BAR0 offset a answer: no wide reset runs, its block is there, on, and out of reset?. DESIGN
CHOICE, log entry 6. DEDUCED, log entry 14. -/
def State.reachable (s : State) (a : Nat) : Bool := !s.wideHeld && !s.regDown a

/-- The posted writes of n bytes of data to host memory at address a: none longer than Max_Payload_Size (R424). -/
def hostPieces (mps a : Nat) (data : List Byte) : List Out :=
  (List.range (ceilDiv data.length mps)).map fun i => .hostWrite (a + mps * i) ((data.drop (mps * i)).take mps)

/-- The MSI-X message that ring n sends now: none while MSI-X is off or its vector masked (R265, R432). -/
def State.ringMessage (s : State) (n : Nat) : List Out :=
  let v := fld (s.hrCfg n) 12 11
  if s.hb.msixOn && !s.hb.maskedV v then
    [.msix v ((s.hb.entry (4 * v)).toNat + (s.hb.entry (4 * v + 1)).toNat * 2 ^ 32) (s.hb.entry (4 * v + 2))]
  else []

/-- The registers below the bay windows whose write does more than their access type says: commands, resets, modes, the
peg, and stores of their own (R37 and the rule of each). -/
def actsAlone (a : Nat) : Bool :=
  match a / 0x10000 with
  | 0 => [0x10, 0x28].contains a
  | 1 => [0x10010, 0x10014, 0x10018, 0x1001C, 0x10028, 0x10030, 0x10034, 0x10040, 0x10044, 0x10070].contains a
  | 2 => decide (0x20100 ≤ a)
  | 3 => decide (a = 0x30024) || decide (0x31000 ≤ a)
  | 4 => [0x40068, 0x40090, 0x400A0, 0x400A4, 0x400B0].contains a
  | 5 => decide (a = 0x5000C)
  | 6 => decide (a % 0x2000 = 4)
  | 7 => decide (a < 0x78000) && decide (a % 0x1000 = 0) || [0x78000, 0x78018, 0x78030, 0x78034, 0x78068].contains a
  | 8 => decide (a % 0x2000 = 0)
  | 9 => decide (0x93000 ≤ a) || [0x90120, 0x90140].contains a
  | 0xA => decide (a < 0xA0084) || [0xA0088, 0xA0100, 0xA0104].contains a
  | 0xB => decide (a < 0xB0300) || decide (a % 16 = 0)
  | _ => true

/-- A link word on the flit that port x expects next which acknowledges nothing, returns nothing and asks for nothing. -/
def plainLink (l : LinkWord) (x : Port_) : Prop :=
  l.seq % 4096 = x.rxNext ∧ l.nak = false ∧ l.ccount = 0 ∧ ∀ t ∈ x.replay, t.seq ≠ l.ackseq

/-- Between u and v only scarf ports, 64-bit counters and what is sent out may differ. -/
def LinkRest (u v : State) : Prop :=
  ∃ P g o, v = { u with scf := { u.scf with ports := P }, regs := { u.regs with cnts := g }, out := o }

/-- The host mailbox has been answered between s and t: response word 0 with the command's OP, the number of results, a
status and the low byte of TAG, then the results; RSEQ, DONE, and the mailbox free. -/
def State.answered (s t : State) (status : Nat) (rs : List Word) : Prop :=
  t.mx.mxh.busy = false ∧ t.mx.mxh.rseq = s.mx.mxh.cseq ∧ t.sq 0xA008C = (s.sq 0xA008C).event 0 ∧
    t.reg 0xA0040 = wd (fld (s.reg 0xA0000) 24 8 * 2 ^ 24 + rs.length * 2 ^ 16 + status * 256 + fld (s.reg 0xA0000) 0 8) ∧
    (∀ i, i < rs.length → t.reg (0xA0044 + 4 * i) = rs.getD i 0#32) ∧ t.bays = s.bays ∧ t.scr = s.scr

/-- The service of this OP can run for port p, whose role allows it: its post alone waits, and the module is READY. -/
def State.serves (s : State) (p : Bool) (op role : Nat) : Prop :=
  s.on 21 = true ∧ s.sec.zeroing = false ∧ s.sec.waits = [p] ∧ (s.sec.port p).op = op ∧ s.sec.state = 1 ∧
    role ≤ (s.sec.port p).role

/-- The services that a role guards whatever the device's state: port, OP and the least role, 0 none, 1 USER, 2 CO (R497). -/
def serviceOf : Instr → Option (Bool × Nat × Nat)
  | .secStatus p => some (p, 0x01, 0)
  | .selftest p => some (p, 0x02, 0)
  | .zeroise p => some (p, 0x03, 0)
  | .getnonce p => some (p, 0x04, 0)
  | .auth p _ _ _ => some (p, 0x05, 0)
  | .logout p => some (p, 0x06, 1)
  | .unlock p => some (p, 0x07, 0)
  | .secHash p _ _ _ => some (p, 0x10, 1)
  | .hmac p _ _ _ _ => some (p, 0x11, 1)
  | .gcmEnc p _ _ _ _ _ => some (p, 0x12, 1)
  | .gcmDec p _ _ _ _ _ _ _ => some (p, 0x13, 1)
  | .xtsEnc p _ _ _ _ _ _ => some (p, 0x14, 1)
  | .xtsDec p _ _ _ _ _ _ => some (p, 0x15, 1)
  | .sign p _ _ _ => some (p, 0x16, 1)
  | .verify p _ _ _ _ => some (p, 0x17, 1)
  | .ecdh p _ _ => some (p, 0x18, 1)
  | .keygen p _ _ _ => some (p, 0x19, 1)
  | .wrap p _ _ => some (p, 0x1A, 1)
  | .unwrap p _ _ _ _ => some (p, 0x1B, 1)
  | .keydel p _ => some (p, 0x1C, 1)
  | .random p _ _ => some (p, 0x1D, 1)
  | .attest p _ => some (p, 0x1E, 1)
  | .otpRevoke p _ => some (p, 0x21, 2)
  | .floor p _ _ _ => some (p, 0x22, 2)
  | .otpConfig p _ => some (p, 0x23, 2)
  | .destroy p => some (p, 0x24, 2)
  | _ => none

/-- Port p of the security module has been answered between x and y: response word 0 with OP, the number of result words,
STATUS and TAG, word 1 with the approved indicator, the results from word 2; RSEQ, and the port free. -/
def Sec.replied (x y : Sec) (p : Bool) (status : Nat) (rs : List Word) : Prop :=
  (∃ post rsp, y = { x.setPort p { x.port p with post := post, rsp := rsp } with waits := [] } ∧ post.busy = false ∧
    post.rseq = (x.port p).post.cseq ∧
    tgetD 0#32 rsp 0 = wd (fld (tgetD 0#32 (x.port p).req 0) 24 8 * 2 ^ 24 + (rs.length + 1) % 256 * 2 ^ 16 + status * 256 +
      fld (tgetD 0#32 (x.port p).req 0) 0 8) ∧
    tgetD 0#32 rsp 1 = wbit x.approved ∧ ∀ i, i < rs.length → i < 46 → tgetD 0#32 rsp (i + 2) = rs.getD i 0#32)

/-- t is s after a reset of the given reach, WARM or wider: every unit but PD_AON is at reset, and PD_AON too at POR; fuses,
flash, pins and supplies are what they were. -/
def State.cleared (reach : Nat) (s t : State) : Prop :=
  (t.hw = s.hw ∧ t.free = s.free ∧ t.sec.otp = s.sec.otp ∧ t.mx = { pins := s.mx.pins, flash := s.mx.flash } ∧
    t.ddr = { rails := s.ddr.rails }) ∧
  (t.stg = {} ∧ t.scr = {} ∧ t.qm = { stopped := s.rst.fatal && decide (reach = 4) } ∧ t.scf = {} ∧ t.hb = {} ∧ t.macs = [] ∧ t.bg = {} ∧ t.rsu = {} ∧ t.work = []) ∧
  (∀ k, (t.bay k).state = 0 ∧ (t.bay k).pipe.flights = [] ∧ (k ≠ 256 → (t.bay k).gp = [])) ∧
  (∀ a, 0x20000 ≤ a ∨ reach = 7 → t.reg a = regReset a) ∧
  (reach ≠ 7 → ∀ a, a < 0x20000 → a < 0x10040 ∨ 0x10048 ≤ a → a < 0x10014 ∨ 0x10018 ≤ a → a ≠ 0x10030 → t.reg a = s.reg a) ∧
  (t.rst.fatal = (s.rst.fatal && decide (reach = 4)) ∧ t.rst.dom = [] ∧ t.rst.wdg = false ∧ t.rst.window = false ∧ t.rst.pulse = none) ∧
  (reach ≠ 7 → t.rst.count = s.rst.count ∧ t.rst.shoring = s.rst.shoring) ∧ (reach = 7 → t.rst.count = 0 ∧ t.rst.shoring = false)

/-- R465–R469: reset source src, of reach r, joins the episode of u: the reach latch widens, and everything of that reach is at
reset. -/
def State.joins (src r : Nat) (u t : State) : Prop :=
  t.rst.reach = max u.rst.reach r ∧ t.rst.asserted = u.rst.asserted ||| 2 ^ src ∧ t.rst.src = u.rst.src ||| 2 ^ src ∧
  u.cleared (max u.rst.reach r) t

/-- R465–R468: reset source src, of HOST reach, asserts: the endpoint, its configuration space, the HB registers, the MSI-X table
and the PBA return to reset, what the host has sent and not yet been served is discarded, and nothing else changes; in an episode
of that reach or wider it joins. -/
def State.hostJoins (src : Nat) (u t : State) : Prop :=
  (u.rst.reach < 3 →
    t.rst = { u.rst with asserted := u.rst.asserted ||| 2 ^ src, src := u.rst.src ||| 2 ^ src, reach := 3 } ∧
    t.hb = { outs := u.hb.outs } ∧ (∀ a, 0x84000 ≤ a → a < 0x84200 → t.reg a = regReset a) ∧
    (∀ a, a < 0x84000 ∨ 0x84200 ≤ a → t.reg a = u.reg a) ∧ t.bays = u.bays ∧ t.ddr = u.ddr ∧ t.stg = u.stg ∧ t.scf = u.scf ∧
    t.macs = u.macs ∧ t.sec = u.sec ∧ t.mx = u.mx ∧ t.rsu = u.rsu ∧ t.out = u.out ∧
    t.scr = { u.scr with outer := u.scr.outer.filter fun o => decide (o.master ≠ 0) }) ∧
  (u.rst.reach = 3 → t = { u with rst := { u.rst with asserted := u.rst.asserted ||| 2 ^ src, src := u.rst.src ||| 2 ^ src } }) ∧
  (4 ≤ u.rst.reach → u.joins src 3 t)

/-- What keeps domain d from leaving ON (R480). -/
def State.staysOn (s : State) (d : Nat) : Prop :=
  (d < 16 ∧ ∃ b, b / 16 = d ∧ ((s.bay b).state = 3 ∨ s.tasksOn b ≠ [])) ∨
  (d = 19 ∧ ∃ p, p < 8 ∧ (s.port p).state ≠ 0 ∧ (s.port p).state ≠ 3) ∨
  ((d = 17 ∨ d = 18) ∧ ∃ c, c < 8 ∧ chanDom c = d ∧ s.hw.chanHere c = true ∧ (s.chan c).state ≠ 0 ∧ (s.chan c).state ≠ 4)

/-- R480–R482: t is u after a write that would make PWR_CTL and PWR_RET read ctl and ret, and names the bents of m: refused whole,
done at once where it changes no domain, or with the transition of each domain it changes begun; a bent that leaves ON or
retention loses all but its stores. -/
def State.powers (ctl ret m : Word) (ctlWrite : Bool) (u t : State) : Prop :=
  ∀ ch, ch = (swDoms.filter fun d => decide (domTarget ctl ret d ≠ domTarget (u.reg 0x10040) (u.reg 0x10044) d)) →
    ((∃ n, n < 16 ∧ bitAt m n = true ∧ u.bentHere n = false) ∨ (u.rst.shored = true ∧ (ch ≠ [] ∨ ctlWrite = true)) ∨
      (∃ d ∈ ch, u.dom d = 3 ∨ (u.dom d = 1 ∧ u.staysOn d)) → t = u.event 0x10050 1) ∧
    ((∀ n, n < 16 → bitAt m n = true → u.bentHere n = true) →
      (ch = [] → u.rst.shored = false ∨ ctlWrite = false → t = ((u.setReg 0x10040 ctl).setReg 0x10044 ret).event 0x10050 0) ∧
      (ch ≠ [] → u.rst.shored = false → (∀ d ∈ ch, u.dom d ≠ 3 ∧ (u.dom d = 1 → ¬ u.staysOn d)) →
        (∀ d ∈ ch, u.dom d ≠ 0 → d < 16 → ∀ b, b / 16 = d →
          u.tasksOn b = [] ∧ (u.bay b).qio.sendq = [] ∧ (u.bay b).qio.landing = [] ∧ (u.bay b).qio.cur = none) →
        t.reg 0x10040 = ctl ∧ t.reg 0x10044 = ret ∧ (∀ a, a ≠ 0x10040 → a ≠ 0x10044 → t.reg a = u.reg a) ∧
        t.rst.writes = u.rst.writes ++ [ch] ∧
        (∀ d, t.dom d = if d ∈ ch then 3 else u.dom d) ∧ (∀ d ∈ ch, tgetD 0 t.rst.goal d = domTarget ctl ret d) ∧
        (∀ b, b / 16 ∉ ch → (∀ d ∈ ch, d < 16 ∨ d = 19) ∨ (u.bay b).pipe.flights = [] → t.bay b = u.bay b) ∧
        (∀ b, b / 16 ∈ ch → b / 16 < 16 → u.dom (b / 16) ≠ 0 → (t.bay b).state = 0 ∧ (t.bay b).gp = [] ∧ (t.bay b).pipe.flights = [] ∧
          (t.bay b).guards = [] ∧ (t.bay b).scratch = (u.bay b).scratch ∧ (t.bay b).istore = (u.bay b).istore)))

/-- The hardware the part was built with is h, and every bit that the memory o holds as 1 is 1 in the OTP (R493). -/
def State.keepsFuses (s : State) (h : Hw) (o : Mem) : Prop :=
  s.hw = h ∧ ∀ a i, (o.byte a).getLsbD i = true → (s.sec.otp.byte a).getLsbD i = true

/-- R433: AER status bit k has been set between s and t, and HB_STAT.AER with it; no bay, register or table has changed, and
nothing has been sent but an error message. -/
def State.reported (k : Nat) (s t : State) : Prop :=
  (∀ j, j ∈ t.hb.aer ↔ j = k ∨ j ∈ s.hb.aer) ∧ t.sq 0x84020 = (s.sq 0x84020).event 3 ∧ t.scr = s.scr ∧ t.bays = s.bays ∧
  t.regs.words = s.regs.words ∧ ∃ m, t.out = s.out ++ m ∧ ∀ o ∈ m, ∃ c, o = .errorMessage c

/-- R319, R320: does line l of a channel come poisoned to a read: by its queued write where that covers it whole, else by its
stored mark or the bytes that wait? -/
def Chan.poisoned (x : Chan) (l : Nat) : Bool :=
  match x.queued l with
  | some e => if e.whole then e.poison else decide (2 ≤ markOf x.marks l % 4) || e.poison
  | none => decide (2 ≤ markOf x.marks l % 4)

/-- What a patrol finds in journal slot i, as bits of BG_JSTAT (R526, R528): nothing in a slot that is not sound or holds no plan;
else a plan that does not match its CRC, and a generation that has reached the wear threshold. -/
def State.findings (s : State) (i : Nat) : List Nat :=
  if !s.slotSound i || !(decide (s.slotState i = 0x7F) || decide (s.slotState i = 0x3F) || decide (s.slotState i = 0x1F)) then []
  else (if s.slotGood i then [] else [i]) ++
    (if fld (s.reg 0x90140) 8 16 * 1000 ≤ (s.flashWord (slotBase i + 4)).toNat then [2 + i] else [])

/-- A flight of bay k with the tag that its outstanding access through port p takes (R316, R404). -/
def tagged (s : State) (k p tag : Nat) (f : Flight) : Flight :=
  if (s.scf.reqs.any fun r => decide (r.port = p) && decide (r.bay = k) && decide (r.fid = f.id)) = true then
    { f with out := f.out.map fun o => { o with tag := joinTag o.tag tag } }
  else f

/-- The binding n of MAC m that takes a frame, its queue and its STRICT bit (R439): the lowest that fits, else the default queue. -/
def chosen (u : State) (m : Nat) (f : List Byte) (n q : Nat) (strict : Bool) : Prop :=
  (n < 63 ∧ u.bindingTakes m n (frameType f) = true ∧ (∀ k, k < n → u.bindingTakes m k (frameType f) = false) ∧
    q = fld (u.reg (ethBase m + 0x404 + 8 * n)) 0 16 ∧ strict = bitAt (u.reg (ethBase m + 0x400 + 8 * n)) 29) ∨
  (n = 62 ∧ (∀ k, k < 63 → u.bindingTakes m k (frameType f) = false) ∧ bitAt (u.reg (ethBase m + 0x10)) 31 = true ∧
    q = fld (u.reg (ethBase m + 0x10)) 0 16 ∧ strict = false)

end Machine

end Sys2Proof
end

