-- ==== Sys2Proof/Certificates/Slice0/Obligations.lean ====
section
/-!
DEFINITION. What is claimed of the model. A command's next state is written `s.finish t`: t as the command makes it from
`s.start`, brought to rest, with the queue as it was found (log entries 1 and 9). Statements about a next state name what
differs in t; what they write as an update of `s.start` leaves every other field of the state as it was.
-/
open Sys2Proof Sys2Proof.Machine

/-- A step with a command at the front of the queue is that command's effect with the queue's rest; it answers a next
state, whose queue is that rest. It rests in part on the model's own readings, log entry 1. -/
def Obligations.StepRunsFrontCommand : Prop :=
  ∀ (c : Instr) (rest : List Instr) (s : State), s.pending = c :: rest →
    step s = exec c { s with pending := rest } ∧ ∃ t, step s = .next t ∧ t.pending = rest

/-- Commands run first in first out, none sees the queue behind it, and the machine never stops: after as many steps
as there are commands in front the rest of the queue waits, and the commands behind them made no difference. It rests
in part on the model's own readings, log entry 1. -/
def Obligations.QueueRunsInOrder : Prop :=
  (∀ (c : Instr) (s : State) (q : List Instr), ∃ t, exec c s = .next t ∧
    exec c { s with pending := q } = .next { t with pending := q }) ∧
  (∀ (cs rest : List Instr) (s : State), ∃ t, core.run cs.length { s with pending := cs } = .next t ∧ t.pending = [] ∧
    core.run cs.length { s with pending := cs ++ rest } = .next { t with pending := rest }) ∧
  ∀ n s, RunsFor n s

/-- A state in which nothing is due is what the command leaves, with the queue as the command found it: of such a
state, the statements of this file name every field. This is the model's reading of 'at once'. It rests in part on the
model's own readings, log entry 9. -/
def Obligations.CalmStateStays : Prop :=
  ∀ (s t : State), t.calm = true → s.finish t = { t with pending := s.pending }

/-- The model's own idle step: with no command waiting, a microsecond passes for the queue manager's and the scribe's
counts while PD_STG is on, for device time while PD_SCARF is on, and for a watchdog that runs and is not at its end;
no bay, register, bank or channel changes. It rests in part on the model's own readings, log entry 5. -/
def Obligations.IdleMicrosecond : Prop :=
  ∀ (s : State), s.pending = [] → (s.rst.wdg = true → 1 < s.rst.wdgLeft) →
    ∃ t, step s = .next (s.finish t) ∧ t.out = [] ∧ t.bays = s.bays ∧ t.regs = s.regs ∧ t.stg = s.stg ∧ t.ddr = s.ddr ∧
      t.qm = { s.qm with us := if s.stgOn then s.qm.us + 1 else s.qm.us } ∧
      t.scr = { s.scr with us := if s.stgOn = true ∧ s.scr.us % 1000 ≠ 999 then s.scr.us + 1 else s.scr.us } ∧
      t.scf = { s.scf with time := if s.on 19 then ((Int.ofNat s.scf.time + 65536000) % (2 ^ 80 : Int)).toNat else s.scf.time } ∧
      t.rst = { s.rst with wdgLeft := if s.rst.wdg then s.rst.wdgLeft - 1 else s.rst.wdgLeft }

/-- R456, R480, R488 (in part): right after reset PD_STG, PD_HOST, PD_SEC and PD_MGMT are on and every other switched
domain is off, PWR_CTL, PWR_RET and RST_BENT are zero, RST_LAST shows POR, the sill core stands at address 0 at
machine privilege with mask 7, GP63 = 0x2008_0000 and REMAP = 0; no bay runs, no channel, port or MAC is up, no queue
is in use, nothing is raised; every register that is not of the capability list, and is not RST_LAST, reads its reset
value. It rests in part on the model's own readings, log entries 3, 4. -/
def Obligations.ResetValues : Prop :=
  (∀ d, d < 23 → State.reset.dom d = if d = 16 ∨ d = 20 ∨ d = 21 ∨ d = 22 then 1 else 0) ∧
  State.reset.reg 0x10004 = 0x107#32 ∧
  (∀ a, 0x1C0 ≤ a → a ≠ 0x10004 → State.reset.reg a = regReset a) ∧ regReset 0x10040 = 0#32 ∧ regReset 0x10044 = 0#32 ∧
  regReset 0x10014 = 0#32 ∧
  ((State.reset.bay 256).state = 3 ∧ (State.reset.bay 256).pipe.pc = 0 ∧ (State.reset.bay 256).ctx.priv = 2 ∧
    (State.reset.bay 256).ctx.mask = 7 ∧ (State.reset.bay 256).gpr 63 = 0x20080000#32 ∧
      (State.reset.bay 256).remap = false) ∧
  (∀ k, k < 256 → (State.reset.bay k).state = 0) ∧ (∀ c, (State.reset.chan c).state = 0) ∧
    (∀ p, (State.reset.port p).state = 0) ∧
  (∀ m, (State.reset.mac m).state = 0) ∧ (∀ q, (State.reset.queue q).state = 0) ∧ State.reset.rsu.raised = false ∧
  State.reset.pending = []

/-- R13 (in part): memory. A byte, a run of bytes or a little-endian word written is read back, every other byte keeps
its value, and a write keeps the canonical form, and memories in canonical form that read alike everywhere are the
same data. It rests in part on the model's own readings, log entry 7. -/
def Obligations.MemoryReadsBack : Prop :=
  ∀ (m : Mem) (a : Nat), m.wf = true →
    (∀ v, (m.putByte a v).wf = true ∧ ∀ b, (m.putByte a v).byte b = if b = a then v else m.byte b) ∧
    (∀ l : List Byte, (m.putBytes a l).wf = true ∧ (m.putBytes a l).bytes a l.length = l ∧
      ∀ b, b < a ∨ a + l.length ≤ b → (m.putBytes a l).byte b = m.byte b) ∧
    (∀ v : Word, (m.putWord a v).word a = v ∧ (m.putWord a v).byte a = BitVec.ofNat 8 (v.toNat % 256) ∧
      (m.putWord a v).byte (a + 3) = BitVec.ofNat 8 (v.toNat / 2 ^ 24)) ∧
    ∀ n : Mem, n.wf = true → n.gen = m.gen → (∀ b, n.byte b = m.byte b) → n = m

/-- Every row of the command table has a well-formed command. It rests in part on the model's own readings, log entry
11. -/
def Obligations.EveryRowAdmitted : Prop := ∀ i : Instr, ∃ j : Instr, j.ctorIdx = i.ctorIdx ∧ j.WellFormed

/-- R493 (in part): 'A bit is programmed from 0 to 1 and never back.' No step changes the fuses and board that the
part was built with, nor clears a bit of the OTP: what holds of both before a step holds after it. It rests in part on
the model's own readings, log entry 4. -/
def Obligations.FusesNeverClear : Prop :=
  ∀ (h : Hw) (o : Mem) (s t : State), s.keepsFuses h o → step s = .next t → t.keepsFuses h o

/-- The invariant of FusesNeverClear holds at reset for the hardware that the log describes and an empty OTP. It rests
in part on the model's own readings, log entries 4, 7. -/
def Obligations.ResetFuses : Prop := State.reset.keepsFuses {} {} ∧ ∀ a, State.reset.sec.otp.byte a = 0#8

/-- R43, R45, R47, R48: a write to DEV_PEG. Zero has no effect; while BUSY, or while others are held, it is held in
order; else the shadows of the named groups are captured, BUSY is set, and a written shadow of a block that does not
answer is skipped with PEGSKIP. R45, R47, R48, R49: when the peg in progress is applied, every captured value of a
block that still answers becomes its register's value and BUSY clears; then the oldest held DEV_PEG write is taken,
with PEGSKIP where it skips a shadow. R37, R44: a write of a PG register goes to its shadow, cut to its PG bits, and
no register changes. It rests in part on the model's own readings, log entry 13. -/
def Obligations.Pegs : Prop :=
  (∀ (s : State) (v : Word), s.wideHeld = false →
    (fld v 0 16 = 0 → exec (.devPeg v) s = .next (s.finish s.start)) ∧
    (fld v 0 16 ≠ 0 → s.regs.busy = true ∨ s.regs.held ≠ [] →
      exec (.devPeg v) s = .next (s.finish { s.start with
        regs := { s.regs with held := s.regs.held ++ [wd (fld v 0 16)] } })) ∧
    (fld v 0 16 ≠ 0 → s.regs.busy = false → s.regs.held = [] → s.regs.skips s.regDown (fld v 0 16) = false →
      exec (.devPeg v) s = .next (s.finish { s.start with
        regs := s.regs.capture s.regDown (fld v 0 16),
        qm := { s.qm with
          pegPend := if s.regs.named (fld v 0 16) 0x30030 && !s.regDown 0x30030 then s.qm.pend.length else 0 } })) ∧
    (fld v 0 16 ≠ 0 → s.regs.busy = false → s.regs.held = [] → s.regs.skips s.regDown (fld v 0 16) = true →
      exec (.devPeg v) s = .next (s.finish { s.start.event 0x34 1 with
        regs := (s.event 0x34 1).regs.capture s.regDown (fld v 0 16),
        qm := { s.qm with
          pegPend := if s.regs.named (fld v 0 16) 0x30030 && !s.regDown 0x30030 then s.qm.pend.length else 0 } }))) ∧
  ((∀ (s : State), s.regs.busy = true → s.qm.pegPend = 0 →
    exec .pegApplied s = .next (s.finish { s.start with regs := { s.regs with
      words := (s.regs.captured.filter fun e => !s.regDown e.1).foldl (fun t e => tset regReset t e.1 e.2) s.regs.words,
      captured := [], busy := false, pegging := 0 } })) ∧
  (∀ (s : State) (g : Word) (rest : List Word), s.regs.busy = false → s.regs.held = g :: rest →
    let t := if s.regs.skips s.regDown (fld g 0 16) then s.start.event 0x34 1 else s.start
    exec .pegDeferredAccept s = .next (s.finish { t with
      regs := { t.regs with held := rest }.capture s.regDown (fld g 0 16),
      qm := { s.qm with
        pegPend := if s.regs.named (fld g 0 16) 0x30030 && !s.regDown 0x30030 then s.qm.pend.length else 0 } })) ∧
  (∀ (s : State), s.regs.busy = true ∨ s.regs.held = [] → exec .pegDeferredAccept s = .next (s.finish s.start))) ∧
  (∀ (s : State) (ag : Agent) (a : Nat) (v : Word) (r : RegRow), regRow a = some r → r.kind = .pg →
    s.reachable a = true → s.raiseLocks = false →
    exec (.pgShadowWrite ag a v) s = .next (s.finish { s.start with regs := { s.regs with
      shadow := tsetD none s.regs.shadow a (some (v &&& wd r.mask)) } }))

/-- R53, R54, R432: a write of SEQ w to a sequence-clear register clears LAP alone while LAP is 1, and else exactly
the event bits set no later than w; where the register drives a status output that stays asserted, its message is sent
again. -/
def Obligations.SequenceClear : Prop :=
  ∀ (s : State) (ag : Agent) (a : Nat) (v : Word) (r : RegRow), regRow a = some r → r.kind = .sq → a < 0x1000000 →
    (a < 0x93000 ∨ 0xA0000 ≤ a) → s.reachable a = true → s.raiseLocks = false →
    let t := s.start.setSq a (
      if (s.sq a).lap then { s.sq a with lap := false, since := 0 }
      else { s.sq a with ev := (s.sq a).ev.filter (fun e => decide (128 ≤ (fld v 24 8 + 256 - e.2) % 256)), since := 0 })
    exec (.sqClearWrite ag a v) s = .next (s.finish (match sourceOf a with
      | some i => if t.sourceOut i then t.sourceSend i else t
      | none => t))

/-- R37, R41, R446, R463: a write of GPIO_DIR or GPIO_OUT by the sill core changes the bits whose mask bit is 1, and
no other register; of any other agent it has no effect. R37, R39, R67: an aligned write of four bytes to a register
that does no more than its access type says changes the bits of an RW register that software writes, and has no effect
on a read-only register or a counter, nor on a reserved offset; of a PG, MW or SQ register it is that register's
write. A narrow or unaligned write of a register that answers is discarded with one SUBWORD event, and of none has no
effect. It rests in part on the model's own readings, log entry 12. -/
def Obligations.RegisterWrites : Prop :=
  (∀ (s : State) (v : Word) (b : Nat), s.wideHeld = false → b = 0x48003000 ∨ b = 0x48003004 →
    (∃ t, exec (.mwWrite .sill b v) s = .next (s.finish t) ∧ t.reg b = mwMerge (s.reg b) v ∧
      (∀ a, a ≠ b → t.reg a = s.reg a) ∧ t.bays = s.bays ∧ t.rst = s.rst ∧ t.stg = s.stg ∧ t.ddr = s.ddr ∧ t.mx = s.mx) ∧
    (∀ ag, ag ≠ .sill → exec (.mwWrite ag b v) s = .next (s.finish s.start))) ∧
  (∀ (s : State) (ag : Agent) (v : Word),
    (∀ a r, regRow a = some r → actsAlone a = false → a % 4 = 0 → s.reachable a = true → s.raiseLocks = false →
      s.scr.tbusy = false → s.scr.pbusy = false → s.scf.upd = none →
      (r.kind = .rw → exec (.registerWrite ag a 4 v) s =
        .next (s.finish (s.start.setReg a ((s.reg a &&& ~~~ wd r.mask) ||| (v &&& wd r.mask))))) ∧
      (r.kind = .ro ∨ r.kind = .cnt → exec (.registerWrite ag a 4 v) s = .next (s.finish s.start))) ∧
    (∀ a, regRow a = none → a < 0x88000 ∨ 0x90000 ≤ a → a < 0x1000000 → a % 4 = 0 →
      exec (.registerWrite ag a 4 v) s = .next (s.finish s.start)) ∧
    (∀ a, a % 4 = 0 → exec (.registerWrite ag a 4 v) s = exec (.pgShadowWrite ag a v) s ∧
      exec (.registerWrite ag a 4 v) s = exec (.mwWrite ag a v) s ∧
      exec (.registerWrite ag a 4 v) s = exec (.sqClearWrite ag a v) s) ∧
    (∀ a size, (size ≠ 4 ∨ a % 4 ≠ 0) → s.answers (a / 4 * 4) = true →
      exec (.registerWrite ag a size v) s = .next (s.finish (s.start.event 0x34 0))) ∧
    (∀ a size, (size ≠ 4 ∨ a % 4 ≠ 0) → s.answers (a / 4 * 4) = false →
      exec (.registerWrite ag a size v) s = .next (s.finish s.start)))

/-- R61–R63: a completed pass leaves its result in DEV_CFGCRC and counts in DEV_CFGCRC_PASS; compared and equal it
ends a run of mismatches, and the second mismatch in a row is a DRIFT. It rests in part on the model's own readings,
log entry 15. -/
def Obligations.CfgCrcPass : Prop :=
  ∀ (s : State), s.wideHeld = false → ∀ v, s.start.cfgCrc = v →
    let t := (s.start.setReg 0x20 v).setReg 0x2C ((s.reg 0x2C + 1#32) &&& 0xFFFF#32)
    (bitAt (s.reg 0x28) 0 = false → exec .cfgCrcPass s = .next (s.finish t)) ∧
    (bitAt (s.reg 0x28) 0 = true → v = s.reg 0x24 →
      exec .cfgCrcPass s = .next (s.finish { t with regs := { t.regs with mism := 0, drifted := false } })) ∧
    (bitAt (s.reg 0x28) 0 = true → v ≠ s.reg 0x24 → s.regs.mism = 0 →
      exec .cfgCrcPass s = .next (s.finish { t with regs := { t.regs with mism := 1 } })) ∧
    (bitAt (s.reg 0x28) 0 = true → v ≠ s.reg 0x24 → s.regs.mism = 1 → s.regs.drifted = false →
      let u := ({ t with regs := { t.regs with mism := 2, drifted := true } } : State).event 0x30 0
      exec .cfgCrcPass s = .next (s.finish (u.err 5 12 0 0x20 (u.sq 0x30).read)))

/-- R205, R210, R211, R233: a store of bay code to BAY_PRIV, BAY_MASK or BAY_GCFG waits for three further bundles;
when they have run, the change takes effect; a change of privilege never raises it. It rests in part on the model's
own readings, log entry 20. -/
def Obligations.ModeChanges : Prop :=
  ∀ (s : State) (b : Nat), s.codeRuns b = true → 1 ≤ (s.bay b).ctx.priv →
    (∀ v, (s.bay b).sill = false → (s.bay b).ctx.check = false → fld v 0 2 ≤ (s.bay b).ctx.priv → fld v 0 2 ≠ 3 →
      exec (.bayPrivWrite b v) s = .next (s.finish ((s.start.syncBay b).onBay b fun c =>
        { c with ctx := { c.ctx with modes := c.ctx.modes ++ [⟨3, 0, wd (fld v 0 2)⟩] } }))) ∧
    (∀ v, (s.bay b).ctx.check = false →
      exec (.bayMaskWrite b v) s = .next (s.finish ((s.start.syncBay b).onBay b fun c =>
        { c with ctx := { c.ctx with modes := c.ctx.modes ++ [⟨3, 1, wd (fld v 0 3)⟩] } }))) ∧
    (∀ v, exec (.bayGcfgWrite b v) s = .next (s.finish ((s.start.syncBay b).onBay b fun c =>
        { c with ctx := { c.ctx with modes := c.ctx.modes ++ [⟨3, 2, wd (fld v 0 4)⟩] } }))) ∧
    (∀ v, (s.bay b).ctx.modes = [⟨0, 0, v⟩] →
      exec (.modeChangeEffect b) s = .next (s.finish (s.start.onBay b fun c =>
        { c with ctx := { c.ctx with priv := min (v.toNat % 4) c.ctx.priv, modes := [] } }))) ∧
    (∀ v, (s.bay b).ctx.modes = [⟨0, 1, v⟩] →
      exec (.modeChangeEffect b) s = .next (s.finish (s.start.onBay b fun c =>
        { c with ctx := { c.ctx with mask := v.toNat % 8, modes := [] } }))) ∧
    (∀ v, (s.bay b).ctx.modes = [⟨0, 2, v⟩] →
      exec (.modeChangeEffect b) s = .next (s.finish (s.start.onBay b fun c =>
        { c with ctx := { c.ctx with gcfg := v, modes := [] } })))

/-- R141, R142, R232: bay code stages an instruction word and IWR_ADDR moves on, or sets OVF when 64 words are staged;
PLB_CTL.DROP drops the bottom plumb entry and counts it; PLB_FILL inserts one below and counts it off. R100, R234: a
structural register stores a write of bay code in TEST or in bay check, for its SYNCC, and of host or sill core in
PLAN or TEST, for SYNCC, a step or EXIT; bay code in RUN outside bay check faults STRUCT_LOCKED instead. It rests in
part on the model's own readings, log entry 28. -/
def Obligations.StructureStagePlumb : Prop :=
  (∀ (s : State) (b : Nat), s.codeRuns b = true → 1 ≤ (s.bay b).ctx.priv →
    (∀ v, (s.bay b).iwrStage.length < 64 →
      exec (.iwrDataWrite b v) s = .next (s.finish ((s.start.syncBay b).onBay b fun c =>
        { c with iwrStage := c.iwrStage ++ [(c.iwrAddr, v)], iwrAddr := (c.iwrAddr + 1) % 16384 }))) ∧
    (∀ v, 64 ≤ (s.bay b).iwrStage.length →
      exec (.iwrDataWrite b v) s = .next (s.finish ((s.start.syncBay b).onBay b fun c => { c with iwrOvf := true }))) ∧
    ((s.bay b).ctx.plumb ≠ [] →
      exec (.plbDrop b) s = .next (s.finish ((s.start.syncBay b).onBay b fun c =>
        { c with ctx := { c.ctx with plumb := c.ctx.plumb.dropLast, spilled := satAdd 0xFFFF c.ctx.spilled 1 } }))) ∧
    (∀ v, (s.bay b).ctx.plumb.length < 512 →
      exec (.plbFill b v) s = .next (s.finish ((s.start.syncBay b).onBay b fun c =>
        { c with ctx := { c.ctx with plumb := c.ctx.plumb ++ [fld v 2 14 * 4], spilled := c.ctx.spilled - 1 } })))) ∧
  (∀ (s : State) (b o : Nat) (v : Word), structAddr o = true →
    (s.coreHere b = true → 2 ≤ (s.bay b).ctx.priv →
      (s.bay b).state = 2 ∨ ((s.bay b).state = 3 ∧ ((s.bay b).ctx.check = true ∨ b = 256)) →
      exec (.structWrite (.bay b) b o v) s = .next (s.finish (s.start.onBay b fun c =>
        { c with str := { c.str with own := c.str.own ++ [(o, v)] } }))) ∧
    (∀ ag, ag = .host ∨ ag = .sill → s.wideHeld = false → b < 256 → s.bentHere (b / 16) = true →
      (s.bay b).state = 1 ∨ (s.bay b).state = 2 → s.beingRaised b = false →
      exec (.structWrite ag b o v) s = .next (s.finish (s.start.onBay b fun c =>
        { c with str := { c.str with stored := c.str.stored ++ [(o, v)] } }))) ∧
    (s.coreHere b = true → b ≠ 256 → 2 ≤ (s.bay b).ctx.priv → (s.bay b).state = 3 → (s.bay b).ctx.check = false →
      exec (.structWrite (.bay b) b o v) s = .next (s.finish (s.start.onBay b fun c => c.faultHere 0x05 (wd o)))))

/-- R106–R110: a posting raises SEQ, sets VALID, clears SEEN and notes a loss; a host read of MBX_LO takes its
snapshot and sets SEEN; MBX_HI shows the snapshot; the sill core has a snapshot of its own and sets no SEEN; a host
acknowledgement of the SEQ it saw clears VALID. -/
def Obligations.Mailboxes : Prop :=
  ∀ (s : State) (b m : Nat), b < 256 → m < 4 → s.bentHere (b / 16) = true →
    (∀ v, s.codeRuns b = true →
      exec (.mbxPost b m v) s = .next (s.finish (s.start.onBay b fun c => c.setMailbox m { c.mailbox m with
        lost := (c.mailbox m).valid, data := v, seq := ((c.mailbox m).seq + 1) % 256, valid := true, seen := false }))) ∧
    (s.wideHeld = false → (s.bay b).state ≠ 0 →
      exec (.mbxLoRead .host b m) s = .next (s.finish ((s.start.onBay b fun c => c.setMailbox m
          { c.mailbox m with snapHost := (c.mailbox m).data, seen := true }).emit
        (.answer { data := toBytes 4 ((s.bay b).mailbox m).lo.toNat }))) ∧
      exec (.mbxHiRead .host b m) s = .next (s.finish ((s.start.onBay b fun c => c.setMailbox m
          { c.mailbox m with seen := true }).emit
        (.answer { data := toBytes 4 ((s.bay b).mailbox m).snapHost.toNat }))) ∧
      exec (.mbxLoRead .sill b m) s = .next (s.finish ((s.start.onBay b fun c => c.setMailbox m
          { c.mailbox m with snapSill := (c.mailbox m).data }).emit
        (.answer { data := toBytes 4 ((s.bay b).mailbox m).lo.toNat }))) ∧
      exec (.mbxHiRead .sill b m) s = .next (s.finish ((s.start.onBay b fun c => c.setMailbox m (c.mailbox m)).emit
        (.answer { data := toBytes 4 ((s.bay b).mailbox m).snapSill.toNat }))) ∧
      (∀ v, fld v 0 8 = ((s.bay b).mailbox m).seq → ((s.bay b).mailbox m).valid = true →
        ((s.bay b).mailbox m).seen = true →
        exec (.mbxAck .host b m v) s = .next (s.finish (s.start.onBay b fun c => c.setMailbox m
          { c.mailbox m with valid := false }))) ∧
      (∀ v, exec (.mbxAck .sill b m v) s = .next (s.finish s.start)))

/-- R112, R113, R100: ENTER gives a bay of PLAN its start context in TEST at once and asks a running one to stop; the
stop itself, at an eligible boundary, after an element of a repeat, or in a WAIT; EXIT returns to PLAN, or to RUN with
the stored structural writes applied as far as the reach limits allow (R330). In every other state neither has an
effect. -/
def Obligations.TestMode : Prop :=
  ∀ (s : State) (b : Nat), b < 256 → s.bentHere (b / 16) = true → s.wideHeld = false →
    (∀ ag, (s.bay b).state = 1 →
      exec (.enter ag b) s = .next (s.finish (s.start.onBay b fun x => { x.startContext with state := 2 }))) ∧
    (∀ ag, (s.bay b).state = 3 → s.debugLocked 1 = false →
      exec (.enter ag b) s = .next (s.finish (s.start.onBay b fun x => { x with dbg := { x.dbg with testReq := true } }))) ∧
    ((s.bay b).state = 3 → (s.bay b).dbg.testReq = true → (s.bay b).held = false → (s.bay b).pipe.idle = 0 →
      (s.bay b).pipe.fault = none → (s.bay b).pipe.ret = none → (s.bay b).pipe.svcNow = none → (s.bay b).ctx.check = false →
      (match (s.bay b).pipe.rep with
        | some r => r.boundary = true
        | none => (s.bay b).pipe.waiting = true ∨ (s.bay b).pipe.redirects = []) →
      exec (.testEntryStop b) s = .next (s.finish (s.start.onBay b fun x =>
        { x with state := 2, dbg := { x.dbg with fromRun := true, testReq := false } }))) ∧
    (∀ ag, (s.bay b).state = 2 → (s.bay b).march = false → (s.bay b).dbg.fromRun = false →
      exec (.exit ag b) s = .next (s.finish (s.start.onBay b fun x =>
        { x with state := 1, dbg := { x.dbg with stepWait := false } }))) ∧
    (∀ ag, (s.bay b).state = 2 → (s.bay b).march = false → (s.bay b).dbg.fromRun = true →
      exec (.exit ag b) s = .next (s.finish ((s.start.onBay b fun x =>
        { x with state := 3, str := x.str.applyAll, dbg := { x.dbg with fromRun := false, stepWait := false } }).reachGuard b
          (s.bay b).str))) ∧
    (∀ ag, (s.bay b).state ≠ 1 → (s.bay b).state ≠ 3 → exec (.enter ag b) s = .next (s.finish s.start)) ∧
    (∀ ag, (s.bay b).state ≠ 2 → exec (.exit ag b) s = .next (s.finish s.start))

/-- R171, R111, R193: an expiry in a bay that is not held sets EXP as an event and reloads or clears the count; a
trace enable takes the bank and clears NEXT and the drops; LEDGER_CTL.CLEAR empties a bay's ledger and discards the
hold in progress. It rests in part on the model's own readings, log entry 30. -/
def Obligations.BayTimersTraceLedger : Prop :=
  ∀ (s : State) (b : Nat), b < 256 → s.bentHere (b / 16) = true →
    (∀ n, n < 4 → (s.bay b).state = 3 → (s.bay b).held = false → bitAt (s.bay b).tmr.ctl n = true →
      (s.bay b).tmr.count n = 1#32 →
      ∃ t, exec (.timerExpiry b n) s = .next (s.finish t) ∧ (t.bay b).tmr.stat = (s.bay b).tmr.stat.event n ∧
        (t.bay b).tmr.count n =
          (if bitAt (s.bay b).tmr.ctl (4 + n) then tgetD 0#32 (s.bay b).tmr.rld n else 0#32) ∧
        (t.bay b).gp = (s.bay b).gp ∧ (∀ k, k ≠ b → t.bay k = s.bay k) ∧ t.regs = s.regs) ∧
    (∀ ag v, ag = .host ∨ ag = .sill → s.wideHeld = false → (s.bay b).state ≠ 0 → s.debugLocked 1 = false →
      fld (v ||| 1#32) 8 8 < 192 →
      exec (.traceEnable ag b v) s = .next (s.finish ((s.start.syncBay b).onBay b fun c =>
        { c with dbg := { c.dbg with trcBank := fld (v ||| 1#32) 8 8, trcOn := true, trcPtr := 0, trcDrop := 0 } }))) ∧
    (s.wideHeld = false →
      exec (.ledgerClear b) s = .next (s.finish (s.start.onBay b fun c => { c with
        led := { c.led with cnt := [], max := [], disp := 0, run := none },
        pipe := { c.pipe with holdLog := [] } })))

/-- R186, R486: the start of a throttle period holds exactly the bays of a bent whose DUTY is not 0; its end of held
cycles lets them go; the millisecond's adjustment gives every present bent its new DUTY. -/
def Obligations.Throttling : Prop :=
  ∀ (s : State) (n : Nat),
    (s.on n = true → tgetD 0 s.rst.duty n ≠ 0 →
      ∃ t, exec (.throttlePeriod n) s = .next (s.finish t) ∧
        ∀ k, t.bay k = if k / 16 = n then { s.bay k with pipe := { (s.bay k).pipe with throttled := true } } else s.bay k) ∧
    (∃ t, exec (.throttleHoldEnd n) s = .next (s.finish t) ∧
        ∀ k, t.bay k = if k / 16 = n then { s.bay k with pipe := { (s.bay k).pipe with throttled := false } } else s.bay k) ∧
    (s.wideHeld = false →
      ∃ t, exec .throttleAdjust s = .next (s.finish t) ∧
        (∀ k, k < 16 → s.bentHere k = true → tgetD 0 t.rst.duty k = s.nextDuty k) ∧
        (∀ k, s.bentHere k = false → tgetD 0 t.rst.duty k = tgetD 0 s.rst.duty k) ∧ t.bays = s.bays)

/-- R73, R74, R84, R85, R112: one clock of a running bay or of the sill core, and one step of a bay in TEST, whose
bundle goes: the bay holds what the bundle's writes and triggers make of it, and no other bay changes. Where the
bundle moves general registers to general registers alone, the registers that the unsquashed moves name take the
values the sources had before the bundle, fetch goes on behind the bundle, and nothing else of the bay's stores or of
the device changes. It rests in part on the model's own readings, log entries 18, 27, 68. -/
def Obligations.MoveBundles : Prop :=
  (∀ (s : State) (b : Nat) (u : List (Nat × Nat × Nat)) (ops : List Op) (n : Nat) (c : Bay), s.coreHere b = true →
    let x := ((if b < 256 then s.start.onBay b fun y => y.upset u else s.start).syncBay b).bay b
    x.state = 3 → x.pipe.hold = none → x.pipe.throttled = false → x.poised.issues → x.poised.goes ops n c →
      ∃ t, exec (.bundleIssue b u) s = .next (s.finish t) ∧
        SameCore (c.effect (c.moved ops) n (c.values ops) x.tickStart.tmr.wall) (t.bay b) ∧ ∀ k, k ≠ b →
          t.bay k = s.bay k) ∧
  (∀ (s : State) (ag : Agent) (b : Nat) (ops : List Op) (n : Nat) (c e : Bay), b < 256 → s.bentHere (b / 16) = true →
    s.wideHeld = false → s.debugLocked 1 = false →
    let x := (s.start.syncBay b).bay b
    x.state = 2 → x.march = false → x.stepPoised.pipe.fault = none → x.stepPoised.pipe.svcNow = none →
    x.stepPoised.pipe.waiting = false → x.stepPoised.goes ops n c →
    c.effect (c.moved ops) n (c.values ops) x.stepPoised.tmr.wall = e → e.pipe.ret = none → e.pipe.rep = none →
    e.pipe.hold = none →
      ∃ t, exec (.step ag b) s = .next (s.finish t) ∧ (t.bay b).gp = e.gp ∧ (t.bay b).guards = e.guards ∧
        (t.bay b).opnds = e.opnds ∧ (t.bay b).scratch = e.scratch ∧ (t.bay b).istore = e.istore ∧
          (t.bay b).state = e.state ∧
        (t.bay b).pipe.pc = e.pipe.pc ∧ ∀ k, k ≠ b → t.bay k = s.bay k) ∧
  (∀ (s : State) (b : Nat) (ops : List Op) (n : Nat), b < 256 → s.bentHere (b / 16) = true → (s.bay b).quiet →
    (s.bay b).bundleAt ops n → regMoves ops →
    ((s.bay b).state = 3 →
      ∃ t, exec (.bundleIssue b []) s = .next (s.finish t) ∧ (t.bay b).gp = gpAfter (s.bay b).gp (s.bay b).gpr ops ∧
        (t.bay b).pipe.pc = (s.bay b).advance (s.bay b).pipe.pc n ∧
        (t.bay b).tmr.cyc = ((s.bay b).tmr.cyc + 1) % 2 ^ 64 ∧ (t.bay b).guards = (s.bay b).guards ∧
        (t.bay b).scratch = (s.bay b).scratch ∧ (t.bay b).istore = (s.bay b).istore ∧ (t.bay b).state = 3 ∧
        (∀ k, k ≠ b → t.bay k = s.bay k) ∧ t.regs = s.regs) ∧
    (∀ ag, (s.bay b).state = 2 → s.wideHeld = false → s.debugLocked 1 = false → (s.bay b).march = false →
      (s.bay b).str.stored = [] →
      ∃ t, exec (.step ag b) s = .next (s.finish t) ∧ (t.bay b).gp = gpAfter (s.bay b).gp (s.bay b).gpr ops ∧
        (t.bay b).pipe.pc = (s.bay b).advance (s.bay b).pipe.pc n ∧ (t.bay b).tmr.cyc = (s.bay b).tmr.cyc ∧
        (t.bay b).guards = (s.bay b).guards ∧ (t.bay b).scratch = (s.bay b).scratch ∧
        (t.bay b).istore = (s.bay b).istore ∧ (t.bay b).state = 2 ∧ (∀ k, k ≠ b → t.bay k = s.bay k) ∧ t.regs = s.regs))

/-- R75, R85, R89, R92, R172, R183, R190, R518: the due result of an instance reaches its ports, with its poison mark
or as the counter it reads; a response to an outside access is counted off, and the last one makes its result readable
in the next wall cycle. It rests in part on the model's own readings, log entry 25. -/
def Obligations.Arrivals : Prop :=
  ∀ (s : State) (b : Nat) (f : Flight) (l1 l2 : List Flight), (s.bay b).pipe.flights = l1 ++ f :: l2 →
    (s.codeRuns b = true → (s.bay b).held = false → f.out = none → f.left ≤ 1 ∨ (s.bay b).state = 2 →
      (∀ g ∈ l1 ++ l2, g.ready = false ∧ (s.bay b).resultDue f.unit f.inst g = false) →
      ∃ t, exec (.resultArrival b f.unit f.inst) s = .next (s.finish t) ∧
        (f.late = none → (f.res.map Prod.fst).Nodup → ∀ p v, (p, v) ∈ f.res →
          (t.bay b).port f.unit f.inst p = { val := v, recvAt := (s.bay b).pipe.serial, poison := f.poison }) ∧
        (∀ op, f.late = some op →
          (t.bay b).port f.unit f.inst 2 = { val := (s.bay b).tmr.counter op, recvAt := (s.bay b).pipe.serial }) ∧
        (t.bay b).pipe.flights = l1 ++ l2 ∧ (t.bay b).gp = (s.bay b).gp ∧ (t.bay b).scratch = (s.bay b).scratch ∧
        (∀ k, k ≠ b → t.bay k = s.bay k)) ∧
    (∀ o ns, (∀ g ∈ l1 ++ l2, g.id ≠ f.id) → (s.bay b).state ≠ 2 → f.out = some o → o.parked = false → o.remote = none →
      o.readable = none →
      ∃ t, exec (.windowResponse b f.id ns) s = .next (s.finish t) ∧
        (t.bay b).pipe.flights = l1 ++ { f with out := some { o with
          pending := o.pending - 1, tag := joinTag o.tag 0, bank := o.leaf, leaf := none,
          readable := if o.pending - 1 = 0 then some ((s.bay b).tmr.wall + 1) else none } } :: l2 ∧
        (t.bay b).gp = (s.bay b).gp ∧ (t.bay b).ports = (s.bay b).ports ∧ (∀ k, k ≠ b → t.bay k = s.bay k))

/-- R206, R208, R213, R215, R216, R218–R222, R252, R253: where the push is valid, a user fault enters vector 1 at
supervisor privilege, a supervisor fault vector 2 at machine privilege, an event its vector at its level (between
bundles, in a WAIT, after an element of a repeat, or behind the SVC that raised it), and a dispatch the entry of the
message's task at user privilege with the slot's stack. It rests in part on the model's own readings, log entry 21. -/
def Obligations.Entries : Prop :=
  ∀ (s : State) (b : Nat), s.coreHere b = true →
    let x := (s.start.syncBay b).bay b
    x.state = 3 → x.held = false → x.pipe.idle = 0 → x.ctx.modes = [] → x.ctx.check = false → x.pushOk = true →
    (∀ f, x.pipe.fault = some f → x.pendingTransfers < 2 → f.origin = 0 → x.ctx.mask ≤ 5 →
      ∃ t, exec (.faultEntry b) s = .next (s.finish t) ∧
        x.entered ⟨1, f.code, 6, 1, 6, f.info, x.vectorAt 1⟩ f.ret (f.repu || x.pipe.rep.isSome) (t.bay b) ∧
        (t.bay b).gpr 63 = x.gpr 63 - 16#32 ∧ (t.bay b).pipe.fault = none ∧ ∀ k, k ≠ b → t.bay k = s.bay k) ∧
    (∀ f, x.pipe.fault = some f → x.pendingTransfers < 2 → f.origin = 1 → x.ctx.mask ≤ 6 → f.code ≠ 0x12 →
      ∃ t, exec (.faultEntry b) s = .next (s.finish t) ∧
        x.entered ⟨2, f.code, 7, 2, 7, f.info, x.vectorAt 2⟩ f.ret (f.repu || x.pipe.rep.isSome) (t.bay b) ∧
        (t.bay b).gpr 63 = x.gpr 63 - 16#32 ∧ (t.bay b).pipe.fault = none ∧ ∀ k, k ≠ b → t.bay k = s.bay k) ∧
    (∀ n, x.pipe.fault = none → x.pipe.ret = none → x.pipe.svcNow = none → x.dbg.testReq = false → n ≠ 0 ∨ x.sill = true →
      (match x.pipe.rep with
        | some r => r.boundary = true ∧ x.pickAt x.ctx.mask false = some n
        | none => (x.pipe.waiting = true ∨ x.pipe.redirects = []) ∧ x.pickAt x.ctx.mask x.pipe.waiting = some n) →
      ∃ t, exec (.eventEntry b) s = .next (s.finish t) ∧
        x.entered (x.eventEntry n (x.levelAt n)) x.pipe.pc x.pipe.rep.isSome (t.bay b) ∧
        (t.bay b).gpr 63 = x.gpr 63 - 16#32 ∧ ∀ k, k ≠ b → t.bay k = s.bay k) ∧
    (∀ q, x.pipe.fault = none → x.pipe.ret = none → x.pipe.svcNow = some q → x.ctx.mask < x.levelAt 1 →
      (x.pipe.redirects = [] → x.pipe.rep = none → x.pickAt x.ctx.mask false = some 1) →
      ∃ t, exec (.eventEntry b) s = .next (s.finish t) ∧
        x.entered (x.eventEntry 1 (x.levelAt 1)) x.pipe.pc x.pipe.rep.isSome (t.bay b) ∧ (t.bay b).ctx.svc = none ∧
        (t.bay b).gpr 63 = x.gpr 63 - 16#32 ∧ ∀ k, k ≠ b → t.bay k = s.bay k) ∧
    (∀ l slot sl, x.pipe.fault = none → x.pipe.ret = none → x.pipe.svcNow = none → x.pipe.rep = none → x.sill = false →
      x.pipe.waiting = true → x.dbg.testReq = false → x.pickAt x.ctx.mask true = some 0 → x.qio.next = some l →
      x.qio.slotOf l.task = some (slot, sl) →
      ∃ t, exec (.dispatchEntry b) s = .next (s.finish t) ∧
        x.entered ⟨0xFF, 0, x.levelAt 0, 0, x.levelAt 0, l.msgWord, sl.entry⟩ x.pipe.pc false (t.bay b) ∧
        (t.bay b).gpr 63 = sl.stack ∧ (t.bay b).qio.cur = some l ∧ (t.bay b).qio.curSlot = slot ∧
        (t.bay b).qio.landing = x.qio.landing.erase l ∧ ∀ k, k ≠ b → t.bay k = s.bay k)

/-- R34, R246–R250, R27, R236: a bay's head message with no unacknowledged store before it departs for a queue of this
device; a message under way that comes first of its producer and has room is committed with the next commit number,
and leaves the send queue; one that waited commits when room has appeared, and is refused, with its count and event,
when BPWAIT has passed. R32, R236, R241: the next message to land joins the landing when all of it has room, and
counts at its queue until DONE. It rests in part on the model's own readings, log entry 31. -/
def Obligations.Messages : Prop :=
  (∀ (s : State), s.qmRuns = true →
    (∀ b m rest, (s.bay b).qio.sendq = m :: rest → m.out = false → (s.bay b).storesBefore m.gate = false →
      fld m.trig 0 28 / 65536 = s.devId →
      ∃ t, exec (.sendQueueDepart b) s = .next (s.finish t) ∧
        t.qm.transit = s.qm.transit ++
          [{ queue := fld m.trig 0 28 % 65536, prod := m.producer b, msg := (m.producer b).message s.devId m.words [],
             bay := some b, trig := m.trig, notq := m.notq }] ∧
        (t.bay b).qio.sendq = { m with out := true } :: rest ∧ t.qm.queues = s.qm.queues ∧
        (∀ k, k ≠ b → t.bay k = s.bay k) ∧ t.regs = s.regs) ∧
    (∀ i t ovf, s.qm.transit[i]? = some t → s.qm.behind i t = false → t.bay = none → (s.queue t.queue).state ≠ 0 →
      (s.queue t.queue).state ≠ 3 → s.fullFor (s.queue t.queue) t.msg.cells t.msg.notice = false →
      s.place (s.queue t.queue) t.msg.cells t.msg.notice = some ovf →
      ∃ u, exec (.messageCommit i) s = .next (s.finish u) ∧
        (u.queue t.queue).msgs = (s.queue t.queue).msgs ++
          [{ t.msg with commit := s.qm.commits, inOvf := ovf, agent := (s.queue t.queue).home }] ∧
        u.qm.transit = s.qm.transit.eraseIdx i ∧ u.qm.commits = s.qm.commits + 1 ∧
        (∀ q, q ≠ t.queue → u.queue q = s.queue q) ∧ u.bays = s.bays) ∧
    (∀ b i t ovf m rest, s.qm.transitOf b = some (i, t) → t.bay = some b → (s.bay b).qio.sendq = m :: rest →
      m.waiting = true → (s.queue t.queue).state ≠ 0 → (s.queue t.queue).state ≠ 3 →
      s.fullFor (s.queue t.queue) t.msg.cells t.msg.notice = false →
      s.place (s.queue t.queue) t.msg.cells t.msg.notice = some ovf →
      ∃ u, exec (.roomCommit b) s = .next (s.finish u) ∧
        (u.queue t.queue).msgs = (s.queue t.queue).msgs ++
          [{ t.msg with commit := s.qm.commits, inOvf := ovf, agent := (s.queue t.queue).home }] ∧
        u.qm.transit = s.qm.transit.eraseIdx i ∧ (u.bay b).qio.sendq = rest ∧ (∀ k, k ≠ b → u.bay k = s.bay k)) ∧
    (∀ b i t m rest, s.qm.transitOf b = some (i, t) → t.bay = some b → (s.bay b).qio.sendq = m :: rest →
      m.waiting = true → (s.queue t.queue).state ≠ 0 → (s.queue t.queue).state ≠ 3 →
      s.fullFor (s.queue t.queue) t.msg.cells t.msg.notice = true → (s.queue t.queue).waits = true →
      bitAt t.notq 31 = false →
      ∃ u, exec (.waitExpired b) s = .next (s.finish u) ∧ u.qm.queues = s.qm.queues ∧
        u.qm.transit = s.qm.transit.eraseIdx i ∧ (u.bay b).qio.sendq = rest ∧
        u.count 0x30068 = (s.count 0x30068 + 1) % 2 ^ 64 ∧ u.sq 0x30040 = (s.sq 0x30040).event 1 ∧
        (∀ k, k ≠ b → u.bay k = s.bay k))) ∧
  (∀ (s : State) (b q : Nat) (m : Msg), s.qmRuns = true → (s.bay b).state = 3 → (s.bay b).sill = false →
    s.nextToLand (s.bay b) = some (q, m) → (s.bay b).qio.landed + m.cells ≤ 16 →
    ∃ t, exec (.messageLanded b []) s = .next (s.finish t) ∧
      (t.bay b).qio.landing = (s.bay b).qio.landing ++ [⟨q, (s.queue q).target, (s.queue q).prio, m⟩] ∧
      (t.queue q).msgs = (s.queue q).msgs.tail ∧ (t.queue q).away = (s.queue q).away + m.cells ∧
      (∀ j, j ≠ q → t.queue j = s.queue j) ∧ (∀ k, k ≠ b → t.bay k = s.bay k) ∧ (t.bay b).gp = (s.bay b).gp)

/-- R261, R263, R424, R426–R428: a host write of one to four cells to DB_MSG, and one of four or eight bytes to
DB_WORD, commits a message of the doorbell producer; any other size or offset below 0x100 is discarded with HOSTBAD;
DB_HEAD moves the head of the ring of a HOST queue within its window. A write behind accesses through BAR4 waits its
turn. R262–R265, R272, R424, R432: the next message of an enabled ring with a free slot goes to its slot in writes of
up to Max_Payload_Size, its status entry after it, then the ring's MSI-X message unless its moderation window waits;
SEQ and TAIL move on; a window that ends sends the message that waits for it; setting EN sets SEQ, HEAD and TAIL to 0,
and clearing it keeps K. It rests in part on the model's own readings, log entries 32, 33. -/
def Obligations.DoorbellsAndRings : Prop :=
  (∀ (s : State) (q : Nat), q < 65536 → s.hb.up = true → s.hb.d3 = false →
    (s.qmRuns = true → s.outerHead 0 = none →
      (∀ data k ovf, data.length = 64 * k → 1 ≤ k → k ≤ 4 → data.length ≤ s.hb.mps → (s.queue q).state ≠ 0 →
        (s.queue q).state ≠ 3 → s.fullFor (s.queue q) k false = false → s.place (s.queue q) k false = some ovf →
        ∃ t, exec (.dbMsg q 0 data false) s = .next (s.finish t) ∧
          (t.queue q).msgs = (s.queue q).msgs ++
            [{ words := wordsOf data, cells := k, pkind := 1, dev := s.devId, index := 0, commit := s.qm.commits,
               inOvf := ovf, agent := (s.queue q).home }] ∧
          (∀ j, j ≠ q → t.queue j = s.queue j) ∧ t.bays = s.bays) ∧
      (∀ data ovf, data.length = 4 ∨ data.length = 8 → (s.queue q).state ≠ 0 → (s.queue q).state ≠ 3 →
        s.fullFor (s.queue q) 1 false = false → s.place (s.queue q) 1 false = some ovf →
        ∃ t, exec (.dbWord q data false) s = .next (s.finish t) ∧
          (t.queue q).msgs = (s.queue q).msgs ++
            [{ words := wordsOf (data ++ zeros (64 - data.length)), cells := 1, pkind := 1, dev := s.devId, index := 0,
               commit := s.qm.commits, inOvf := ovf, agent := (s.queue q).home }] ∧
          (∀ j, j ≠ q → t.queue j = s.queue j) ∧ t.bays = s.bays) ∧
      (∀ off data, off < 0x100 → s.writeBad (q * 0x1000 + off) data.length = false →
        (off ≠ 0 ∨ data.length % 64 ≠ 0 ∨ 256 < data.length) →
        exec (.dbMsg q off data false) s = .next (s.finish (s.start.event 0x30040 0))) ∧
      (∀ v, (s.queue q).bind = 2 →
        ((fld v 0 16 + 65536 - (s.ring ((s.queue q).target % 256)).head) % 65536 ≤
          ((s.ring ((s.queue q).target % 256)).tail + 65536 - (s.ring ((s.queue q).target % 256)).head) % 65536 →
          exec (.dbHead q v false) s = .next (s.finish (s.start.setRing ((s.queue q).target % 256)
            { s.ring ((s.queue q).target % 256) with head := fld v 0 16 }))) ∧
        (¬ (fld v 0 16 + 65536 - (s.ring ((s.queue q).target % 256)).head) % 65536 ≤
          ((s.ring ((s.queue q).target % 256)).tail + 65536 - (s.ring ((s.queue q).target % 256)).head) % 65536 →
          exec (.dbHead q v false) s = .next (s.finish s.start)))) ∧
    (∀ o off data, s.outerHead 0 = some o → s.writeBad (q * 0x1000 + off) data.length = false →
      exec (.dbMsg q off data false) s = .next (s.finish { s.start with scr := { s.scr with outer := s.scr.outer ++
        [{ master := 0, tgt := .doorbell (q * 0x1000 + off), addr := q * 0x1000 + off, write := true, len := data.length,
           data := data }] } }))) ∧
  (∀ (s : State) (n : Nat), n < 256 →
    (∀ q m rest, s.qmRuns = true → bitAt (s.hrCfg n) 8 = true → s.hb.up = true → s.hb.d3 = false →
      ((s.ring n).tail + 65536 - (s.ring n).head) % 65536 < 2 ^ fld (s.hrCfg n) 0 4 → s.ringQueue n = some q →
      (s.queue q).msgs = m :: rest → (s.queue q).state = 1 →
      ∃ t, exec (.hostRingWrite n) s = .next (s.finish t) ∧
        t.out = hostPieces s.hb.mps (s.hostAddr (0x31000 + 0x20 * n) + 256 * ((s.ring n).tail % 2 ^ fld (s.hrCfg n) 0 4))
            (bytesOf (m.words.take (16 * m.cells))) ++
          hostPieces s.hb.mps (s.hostAddr (0x31008 + 0x20 * n) + 8 * ((s.ring n).tail % 2 ^ fld (s.hrCfg n) 0 4))
            (toBytes 8 (s.statusEntry q (((s.ring n).seq + 1) % 65536) (fld (s.hrCfg n) 0 4) (s.ring n).tail m)) ++
          (if (s.ring n).window then [] else s.ringMessage n) ∧
        (t.queue q).msgs = rest ∧ (t.ring n).seq = ((s.ring n).seq + 1) % 65536 ∧
        (t.ring n).tail = ((s.ring n).tail + 1) % 65536 ∧ (t.ring n).head = (s.ring n).head ∧
        (∀ j, j ≠ q → t.queue j = s.queue j) ∧ t.bays = s.bays ∧ t.regs = s.regs) ∧
    ((s.ring n).waits = false →
      exec (.msixModerationExpiry n) s = .next (s.finish (s.start.setRing n { s.ring n with window := false }))) ∧
    ((s.ring n).waits = true →
      ∃ t, exec (.msixModerationExpiry n) s = .next (s.finish t) ∧ t.out = s.ringMessage n ∧ (t.ring n).waits = false ∧
        (t.ring n).window = (s.hb.msixOn && !s.hb.maskedV (fld (s.hrCfg n) 12 11) && decide (fld (s.hrCfg n) 24 8 ≠ 0)) ∧
        t.qm.queues = s.qm.queues ∧ t.bays = s.bays ∧ t.regs = s.regs) ∧
    (∀ v, s.reachable (0x31010 + 0x20 * n) = true → s.raiseLocks = false → bitAt (s.hrCfg n) 8 = false → 4 ≤ fld v 0 4 →
      exec (.hrEnSet n v) s = .next (s.finish ((s.start.setReg (0x31010 + 0x20 * n) ((v ||| 0x100#32) &&& 0xFF7FF10F#32)).setRing n
        { s.ring n with seq := 0, head := 0, tail := 0 }))) ∧
    (∀ v, s.reachable (0x31010 + 0x20 * n) = true → s.raiseLocks = false → bitAt (s.hrCfg n) 8 = true →
      exec (.hrEnClear n v) s = .next (s.finish (s.start.setReg (0x31010 + 0x20 * n)
        (putFld ((v &&& 0xFFFFFEFF#32) &&& 0xFF7FF10F#32) 0 4 (fld (s.hrCfg n) 0 4))))))

/-- R270, R271: READ copies the selected queue's descriptor and depth; a WRITE that passes the checks on a queue that
stays out of use replaces the descriptor in one step; WRITEP keeps it for the peg. R258, R260: when the arrival timer
of a queue in use reaches TMO, one TIMEOUT notice with the queue's global address and the time enters the queue. It
rests in part on the model's own readings, log entry 33. -/
def Obligations.QueueDescriptors : Prop :=
  (∀ (s : State), s.reachable 0x30024 = true → s.raiseLocks = false → s.qmRuns = true →
    (∃ t, exec .qmRead s = .next (s.finish t) ∧ t.reg 0x30014 = (s.queue (fld (s.reg 0x30010) 0 16)).w0 ∧
      t.reg 0x30018 = (s.queue (fld (s.reg 0x30010) 0 16)).w1 ∧ t.reg 0x3001C = (s.queue (fld (s.reg 0x30010) 0 16)).w2 ∧
      t.reg 0x30020 = (s.queue (fld (s.reg 0x30010) 0 16)).w3 ∧ t.qm.ddepth = (s.queue (fld (s.reg 0x30010) 0 16)).cells ∧
      t.qm.dres = 0 ∧ t.qm.queues = s.qm.queues ∧ t.bays = s.bays) ∧
    (s.descCheck (fld (s.reg 0x30010) 0 16) s.descData = 0 →
      (∃ t, exec .qmWrite s = .next (s.finish t) ∧ t.qm.dres = 0 ∧
        ((((s.queue (fld (s.reg 0x30010) 0 16)).withDesc s.descData).state ≠ 0 ∨
            (s.queue (fld (s.reg 0x30010) 0 16)).state = 0) →
          t.queue (fld (s.reg 0x30010) 0 16) = (s.queue (fld (s.reg 0x30010) 0 16)).withDesc s.descData ∧
          ∀ j, j ≠ fld (s.reg 0x30010) 0 16 → t.queue j = s.queue j)) ∧
      (s.qm.pend.length < 16 →
        exec .writep s = .next (s.finish { s.start with qm := { s.qm with
          pend := s.qm.pend ++ [PendWrite.mk (fld (s.reg 0x30010) 0 16) s.descData], dres := 0 } }))) ∧
    (∀ n, s.descCheck (fld (s.reg 0x30010) 0 16) s.descData = n + 1 →
      exec .qmWrite s = .next (s.finish { s.start with qm := { s.qm with dres := n + 1 } }))) ∧
  (∀ (s : State) (q : Nat) (ovf : Bool), s.qmRuns = true → s.rsu.raised = true → (s.queue q).tmo ≠ 0 →
    (s.queue q).silent = false → (s.queue q).state = 1 → s.pathRetry (s.queue q) = false →
    s.fullFor (s.queue q) 1 true = false → s.place (s.queue q) 1 true = some ovf →
    ∃ t, exec (.queueTimeout q) s = .next (s.finish t) ∧
      (t.queue q).msgs = (s.queue q).msgs ++
        [{ words := noticeCell 1 (s.globalOf q) 0 0#32 s.qm.us, cells := 1, pkind := 3, dev := s.devId, notice := true,
           commit := s.qm.commits, inOvf := ovf, agent := (s.queue q).home }] ∧
      (∀ j, j ≠ q → t.queue j = s.queue j) ∧ t.bays = s.bays)

/-- R275, R280, R281, R298, R508, R554: an outside word written below the fault cell is stored whole with fresh check
bits or the poison code, one at the fault cell is not; an outside read of a word without an uncorrectable error
answers it, marked when poisoned, and changes no data; while a March test runs the word waits; the scrubber of a bay
moves on by one word; a corrected word is written back. It rests in part on the model's own readings, log entries 36,
69. -/
def Obligations.OutsideWords : Prop :=
  ∀ (s : State) (b : Nat), b < 256 → s.bentHere (b / 16) = true → (s.bay b).state ≠ 0 →
    (∀ u waited, (s.bay b).march = false →
      let x := (s.bay b).upset u
      (∀ a v poison, a / 4 * 4 < 0x5FFC0 →
        ∃ t, exec (.outsideWordAccess b a true v poison waited u) s = .next (s.finish t) ∧
          (t.bay b).scrWord (a / 4 * 4) = v ∧ markOf (t.bay b).smarks (a / 4 * 4 / 4) = (if poison then 3 else 0) ∧
          (∀ y, y < a / 4 * 4 ∨ a / 4 * 4 + 4 ≤ y → (t.bay b).scratch.byte y = (s.bay b).scratch.byte y) ∧
          (t.bay b).gp = (s.bay b).gp ∧ (t.bay b).pipe.pc = (s.bay b).pipe.pc ∧
          (t.bay b).pipe.words = (s.bay b).pipe.words + nbit (decide ((s.bay b).state = 3) && !(s.bay b).held) ∧
          ∀ k, k ≠ b → t.bay k = s.bay k) ∧
      (∀ a v poison, 0x5FFC0 ≤ a / 4 * 4 →
        ∃ t, exec (.outsideWordAccess b a true v poison waited u) s = .next (s.finish t) ∧
          (t.bay b).scratch = (s.bay b).scratch ∧ (t.bay b).smarks = x.smarks ∧ (t.bay b).gp = (s.bay b).gp ∧
          ∀ k, k ≠ b → t.bay k = s.bay k) ∧
      (∀ a v poison, markOf x.smarks (a / 4 * 4 / 4) ≠ 2 →
        ∃ t, exec (.outsideWordAccess b a false v poison waited u) s = .next (s.finish t) ∧
          t.out = [.answer { data := toBytes 4 ((s.bay b).scrWord (a / 4 * 4)).toNat,
                             bad := if 2 ≤ markOf x.smarks (a / 4 * 4 / 4) then [0] else [] }] ∧
          (t.bay b).scratch = (s.bay b).scratch ∧ (t.bay b).smarks = x.smarks ∧ (t.bay b).gp = (s.bay b).gp ∧
          ∀ k, k ≠ b → t.bay k = s.bay k)) ∧
    (∀ u a w v poison waited, (s.bay b).march = true →
      exec (.outsideWordAccess b a w v poison waited u) s = .next (s.finish (s.start.onBay b fun c => { (c.upset u) with
        outq := c.outq ++ [{ addr := a / 4 * 4, write := w, val := v, poison := poison }] }))) ∧
    (∀ u, (s.bay b).state ≠ 2 →
      (tgetD 0 s.bg.bayScrub b < 98304 → markOf ((s.bay b).upset u).smarks (tgetD 0 s.bg.bayScrub b) ≠ 2) →
      (98304 ≤ tgetD 0 s.bg.bayScrub b → markOf ((s.bay b).upset u).imarks (tgetD 0 s.bg.bayScrub b - 98304) ≠ 2) →
      ∃ t, exec (.bayScrubRead b u) s = .next (s.finish t) ∧
        tgetD 0 t.bg.bayScrub b = (tgetD 0 s.bg.bayScrub b + 1) % 114688 ∧ (t.bay b).gp = (s.bay b).gp ∧
        (t.bay b).scratch = (s.bay b).scratch ∧ (t.bay b).istore = (s.bay b).istore ∧ (t.bay b).pipe = (s.bay b).pipe ∧
        (t.bay b).state = (s.bay b).state ∧ ∀ k, k ≠ b → t.bay k = s.bay k) ∧
    (∀ w, markOf (s.bay b).smarks w = 1 →
      exec (.ceWriteback b 0 w) s = .next (s.finish (s.start.onBay b fun c => { c with smarks := setMark c.smarks w 0 }))) ∧
    (∀ n w, n ≠ 0 → markOf (s.bay b).imarks w = 1 →
      exec (.ceWriteback b n w) s = .next (s.finish (s.start.onBay b fun c => { c with imarks := setMark c.imarks w 0 })))

/-- R283, R287, R292–R294, R509: an awake bank serves the agents its owner kind allows: a read answers the stored
bytes and names the poisoned words, a write is stored; another agent's access is refused NOT_OWNER, any access to a
bank in retention is refused, and either changes no contents; the scrubber moves on a line. It rests in part on the
model's own readings, log entry 35. -/
def Obligations.StagingAccesses : Prop :=
  ∀ (s : State) (ag : Agent) (a : Nat) (u : List (Nat × Nat)), a / 0x40000 < 192 → s.stgOn = true →
    let n := a / 0x40000
    let x := (s.start.stgUpset n u).bank n
    ((s.bank n).awake = true →
      (∀ data bad len, ownerAllows n (s.bank n).ownKind (s.bank n).ownBay (s.logBank n) ag false = true →
        ∃ t, exec (.stagingAccess ag a false data bad len u false) s = .next (s.finish t) ∧
          t.out = [.answer {
            data := (s.bank n).mem.bytes (a % 0x40000) len
            bad := ((wordSpan (a % 0x40000) len).filter fun w => decide (2 ≤ markOf x.marks w)).map (· - a % 0x40000 / 4) }] ∧
          (∀ k, (t.bank k).mem = (s.bank k).mem ∧ (t.bank k).ownKind = (s.bank k).ownKind) ∧ t.bays = s.bays) ∧
      (∀ data bad len, ownerAllows n (s.bank n).ownKind (s.bank n).ownBay (s.logBank n) ag false = false →
        ∃ t, exec (.stagingAccess ag a false data bad len u false) s = .next (s.finish t) ∧
          t.out = [.answer { data := zeros len, err := some .notOwner }] ∧
          t.sq 0xB0300 = (s.sq 0xB0300).event 1 ∧ t.reg 0xB0304 = wd (n % 256 * 65536 + 2) ∧
          (∀ k, (t.bank k).mem = (s.bank k).mem ∧ (t.bank k).ownKind = (s.bank k).ownKind) ∧ t.bays = s.bays) ∧
      (∀ data bad len, (ag ≠ .raisingUnit → s.planLocks n = false) →
        ownerAllows n (s.bank n).ownKind (s.bank n).ownBay (s.logBank n) ag true = true →
        ∃ t, exec (.stagingAccess ag a true data bad len u false) s = .next (s.finish t) ∧
          t.out = [.answer {}] ∧ (t.bank n).mem.bytes (a % 0x40000) data.length = data ∧
          (∀ y, y < a % 0x40000 ∨ a % 0x40000 + data.length ≤ y → (t.bank n).mem.byte y = (s.bank n).mem.byte y) ∧
          (∀ k, k ≠ n → t.bank k = s.bank k) ∧ t.bays = s.bays) ∧
      (∀ data bad len, ownerAllows n (s.bank n).ownKind (s.bank n).ownBay (s.logBank n) ag true = false →
        ∃ t, exec (.stagingAccess ag a true data bad len u false) s = .next (s.finish t) ∧
          t.out = [.answer { err := some .notOwner }] ∧ t.sq 0xB0300 = (s.sq 0xB0300).event 1 ∧
          (∀ k, (t.bank k).mem = (s.bank k).mem ∧ (t.bank k).ownKind = (s.bank k).ownKind) ∧ t.bays = s.bays) ∧
      ((∀ m, tgetD none s.stg.tests (n / 12) = some m → n / 12 * 12 + m.bank ≠ n) →
        ∃ t, exec (.stagingScrubRead n u) s = .next (s.finish t) ∧
          tgetD 0 t.bg.stgScrub n = (tgetD 0 s.bg.stgScrub n + 1) % 8192 ∧ (∀ k, (t.bank k).mem = (s.bank k).mem) ∧
          t.bays = s.bays)) ∧
    ((s.bank n).awake = false → ∀ write data bad len,
      ∃ t, exec (.stagingAccess ag a write data bad len u false) s = .next (s.finish t) ∧
        t.out = [.answer { data := if write then [] else zeros len, err := some .retained }] ∧
        t.sq 0xB0300 = (s.sq 0xB0300).event 2 ∧ t.reg 0xB0304 = wd (n % 256 * 65536 + 3) ∧
        (∀ k, (t.bank k).mem = (s.bank k).mem) ∧ t.bays = s.bays)

/-- R288–R290, R292, R294: a write to STG_OWNn is applied whole, at the bank with the apply command, contents kept, or
refused with HANDREF; a bank wakes after retention. It rests in part on the model's own readings, log entries 35, 41. -/
def Obligations.BankOwnership : Prop :=
  ∀ (s : State) (n : Nat), n < 192 →
    (∀ v, s.reachable (0xB0000 + 4 * n) = true → s.raiseLocks = false → s.ownRefused n v = false →
      exec (.stgOwnWrite n v) s = .next (s.finish (s.start.setBank n { s.bank n with
        kind := fld v 16 3, bay := if fld v 16 3 = 3 then fld v 0 8 else 0, pending := true, retain := bitAt v 29,
        awake := (s.bank n).awake && !bitAt v 29, waking := !bitAt v 29 && !(s.bank n).awake }))) ∧
    (∀ v, s.reachable (0xB0000 + 4 * n) = true → s.raiseLocks = false → s.ownRefused n v = true →
      exec (.stgOwnWrite n v) s = .next (s.finish (s.start.stgEvent 0 n))) ∧
    ((s.bank n).pending = true →
      exec (.stgOwnApply n) s = .next (s.finish (s.start.setBank n { s.bank n with
        ownKind := (s.bank n).kind, ownBay := (s.bank n).bay, pending := false }))) ∧
    ((s.bank n).waking = true → (s.bank n).retain = false →
      exec (.bankWake n) s = .next (s.finish (s.start.setBank n { s.bank n with awake := true, waking := false })))

/-- R295–R300: a March test of a bank owned by the engine, or of a bay in TEST, starts; a destructive test ends with
all of the array zero and its result, failing reads and first failing unit; a preserving one without a failure keeps
every byte. It rests in part on the model's own readings, log entry 35. -/
def Obligations.MarchTests : Prop :=
  ∀ (s : State),
    (∀ g v, g < 16 → s.reachable (0xB0400 + 0x10 * g) = true → tgetD none s.stg.tests g = none → fld v 4 4 < 12 →
      (s.bank (12 * g + fld v 4 4)).ownKind = 5 → (s.bank (12 * g + fld v 4 4)).awake = true →
      s.bankBusy (12 * g + fld v 4 4) = false →
      ∃ t, exec (.stagingMarchStart g v) s = .next (s.finish t) ∧
        tgetD none t.stg.tests g = some { bank := fld v 4 4, preserve := bitAt v 8 } ∧ t.reg (0xB0404 + 0x10 * g) = 0#32 ∧
        t.reg (0xB0408 + 0x10 * g) = 0#32 ∧ (∀ n, t.bank n = s.bank n) ∧ t.bays = s.bays) ∧
    (∀ g t fails lines, tgetD none s.stg.tests g = some t → t.preserve = false →
      ∃ u, exec (.stagingMarchDone g fails lines) s = .next (s.finish u) ∧ tgetD none u.stg.tests g = none ∧
        (u.bank (12 * g + t.bank)).mem = {} ∧ (u.bank (12 * g + t.bank)).marks = [] ∧
        u.reg (0xB0404 + 0x10 * g) = wd ((if fails = 0 then 1 else 2) * 65536 + min 65535 fails) ∧
        (∀ l r, fails ≠ 0 → lines = l :: r → u.reg (0xB0408 + 0x10 * g) = wd (2 ^ 31 + l % 8192 * 32)) ∧
        (∀ n, n ≠ 12 * g + t.bank → u.bank n = s.bank n) ∧ u.bays = s.bays) ∧
    (∀ g t fails lines, tgetD none s.stg.tests g = some t → t.preserve = true →
      ∃ u, exec (.stagingMarchDone g fails lines) s = .next (s.finish u) ∧ tgetD none u.stg.tests g = none ∧
        u.reg (0xB0404 + 0x10 * g) = wd ((if fails = 0 then 1 else 2) * 65536) ∧
        (fails = 0 → u.bank (12 * g + t.bank) = s.bank (12 * g + t.bank)) ∧
        (∀ n, n ≠ 12 * g + t.bank → u.bank n = s.bank n) ∧ u.bays = s.bays) ∧
    (∀ b v, b < 256 → s.reachable (0xB1000 + 0x10 * b) = true → tgetD none s.stg.bayTests b = none → fld v 4 2 ≠ 3 →
      (s.bay b).state = 2 →
      ∃ t, exec (.bayMarchStart b v) s = .next (s.finish t) ∧
        tgetD none t.stg.bayTests b = some { bank := fld v 4 2, preserve := bitAt v 8 } ∧
        t.bay b = { s.bay b with march := true } ∧ t.reg (0xB1004 + 0x10 * b) = 0#32 ∧ ∀ k, k ≠ b → t.bay k = s.bay k) ∧
    (∀ b t fails sw il f, tgetD none s.stg.bayTests b = some t → t.preserve = false → (s.bay b).outq = [] →
      ∃ u, exec (.bayMarchDone b fails sw il f) s = .next (s.finish u) ∧ tgetD none u.stg.bayTests b = none ∧
        (u.bay b).scratch = (if t.bank = 2 then (s.bay b).scratch else {}) ∧
        (u.bay b).istore = (if t.bank = 1 then (s.bay b).istore else {}) ∧
        (u.bay b).smarks = (if t.bank = 2 then (s.bay b).smarks else []) ∧
        (u.bay b).imarks = (if t.bank = 1 then (s.bay b).imarks else []) ∧
        (u.bay b).march = false ∧ (u.bay b).gp = (s.bay b).gp ∧
        u.reg (0xB1004 + 0x10 * b) = wd ((if t.bank = 2 then 0 else if sw = [] then 1 else 2) * 65536 +
          (if t.bank = 1 then 0 else if il = [] then 1 else 2) * 262144 + min 65535 fails) ∧
        ∀ k, k ≠ b → u.bay k = s.bay k) ∧
    (∀ b t fails f, tgetD none s.stg.bayTests b = some t → t.preserve = true → (s.bay b).outq = [] →
      ∃ u, exec (.bayMarchDone b fails [] [] f) s = .next (s.finish u) ∧ tgetD none u.stg.bayTests b = none ∧
        u.bay b = { s.bay b with march := false } ∧
        u.reg (0xB1004 + 0x10 * b) = wd ((if t.bank = 2 then 0 else 1) * 65536 + (if t.bank = 1 then 0 else 1) * 262144) ∧
        ∀ k, k ≠ b → u.bay k = s.bay k)

/-- R302–R304, R322, R323: INIT of an OFF or FAILED channel: excluded fields give FAILED with FSTEP 14, another speed
than a READY channel's FSTEP 15; else training starts, with ENC under a fresh key pair. Training ends READY with
TTRAIN the hotter reading and an empty write queue, or FAILED at its step with TRAINFAIL. R313, R316, R324, R326: SR =
1 serves what waits at a READY channel, drains its write queue and begins its entry; it then stands in SELFREF with
its contents kept; SR = 0 begins the exit, to READY, or to OFF where VDDQ was lost meanwhile; a loss of VDDQ in
SELFREF or with the domain gated is remembered; CLRMAX clears MEMc_TMAX. It rests in part on the model's own readings,
log entries 38, 41. -/
def Obligations.ChannelTraining : Prop :=
  (∀ (s : State) (c : Nat), c < 8 →
    (∀ v, s.reachable (memBase c + 4) = true → (s.chan c).state = 0 ∨ (s.chan c).state = 3 → s.ddr.rails = true →
      s.hw.dimms / 2 ^ c % 2 = 1 →
      let w := s.memCfg c
      let enc := if (s.chan c).state = 0 ∧ s.hw.full = true then bitAt v 2 else bitAt (s.reg (memBase c + 4)) 2
      let bad := cfgExcluded w || (decide (fld w 28 2 = 0) && s.anyDpc2) || (s.sec.approved && s.hw.full && !enc)
      ∃ t, exec (.init c v) s = .next (s.finish t) ∧ (∀ k, k ≠ c → t.chan k = s.chan k) ∧ t.bays = s.bays ∧
        (bad = true → t.chan c = { s.chan c with state := 3, fstep := 14 } ∧ t.sec = s.sec) ∧
        (bad = false → s.otherSpeed (fld w 28 2) = true →
          t.chan c = { s.chan c with state := 3, fstep := 15 } ∧ t.sec = s.sec) ∧
        (bad = false → s.otherSpeed (fld w 28 2) = false → (enc && s.hw.full) = false →
          t.chan c = { s.chan c with state := 1, fstep := 0, erased := false, driven := true, key := none } ∧
          t.sec = s.sec) ∧
        (bad = false → s.otherSpeed (fld w 28 2) = false → (enc && s.hw.full) = true →
          let g := ((s.chan c).keygen + 1) % 256
          t.chan c = { s.chan c with
            state := 1, fstep := 0, erased := false, driven := true, keygen := g, key := some (g + 1) } ∧
          tgetD 0 t.sec.keyRam c = g + 1)) ∧
    (∀ t0 t1, (s.chan c).state = 1 →
      ∃ t, exec (.trainingComplete c 0 t0 t1) s = .next (s.finish t) ∧ (t.chan c).state = 2 ∧
        (t.chan c).ttrain = hotter (s.memCfg c) t0 t1 ∧ (t.chan c).wq = [] ∧ (t.chan c).episodes = [] ∧
        (t.chan c).key = (s.chan c).key ∧ (∀ k, k ≠ c → t.chan k = s.chan k) ∧ t.bays = s.bays) ∧
    (∀ step t0 t1, (s.chan c).state = 1 → step ≠ 0 → stepOf (s.memCfg c) step = true →
      ∃ t, exec (.trainingComplete c step t0 t1) s = .next (s.finish t) ∧
        t.chan c = { s.chan c with state := 3, fstep := step } ∧
        t.sq (memBase c + 0x20) = (s.sq (memBase c + 0x20)).event 6 ∧ (∀ k, k ≠ c → t.chan k = s.chan k) ∧ t.bays = s.bays)) ∧
  (∀ (s : State) (c : Nat), c < 8 →
    (∀ v, s.reachable (memBase c + 4) = true → (s.chan c).state = 2 →
      ∃ t, exec (.srEnter c v) s = .next (s.finish t) ∧ (t.chan c).state = 2 ∧ (t.chan c).srMove = true ∧
        (t.chan c).wq = [] ∧ (t.chan c).waits = [] ∧ bitAt (t.reg (memBase c + 4)) 1 = true ∧
        (∀ k, (t.chan k).state = (s.chan k).state) ∧ t.bays = s.bays ∧
        ((s.chan c).waits = [] → ∀ k, k ≠ c → t.chan k = s.chan k)) ∧
    ((s.chan c).state = 2 → (s.chan c).srMove = true → bitAt (s.reg (memBase c + 4)) 1 = true →
      ∃ t, exec (.selfrefEntered c) s = .next (s.finish t) ∧ (t.chan c).state = 4 ∧ (t.chan c).srMove = false ∧
        (t.chan c).wq = [] ∧ (t.chan c).waits = [] ∧ (t.chan c).episodes = [] ∧
        (∀ k, k ≠ c → (t.chan k).state = (s.chan k).state) ∧ t.bays = s.bays ∧
        ((s.chan c).waits = [] → (∀ k, k ≠ c → t.chan k = s.chan k) ∧
          ((s.chan c).wq = [] → (t.chan c).mem = (s.chan c).mem ∧ t.regs = s.regs))) ∧
    (∀ v, s.reachable (memBase c + 4) = true → (s.chan c).state = 4 →
      ∃ t, exec (.srExit c v) s = .next (s.finish t) ∧ t.chan c = { s.chan c with srMove := true } ∧
        bitAt (t.reg (memBase c + 4)) 1 = false ∧ (∀ k, k ≠ c → t.chan k = s.chan k) ∧ t.bays = s.bays) ∧
    ((s.chan c).state = 4 → (s.chan c).srMove = true → bitAt (s.reg (memBase c + 4)) 1 = false →
      ((s.chan c).vddqLost = false →
        exec (.selfrefExited c) s = .next (s.finish (s.start.setChan c { s.chan c with state := 2, srMove := false }))) ∧
      ((s.chan c).vddqLost = true →
        ∃ t, exec (.selfrefExited c) s = .next (s.finish t) ∧ (t.chan c).state = 0 ∧ (t.chan c).srMove = false ∧
          (∀ k, k ≠ c → t.chan k = s.chan k) ∧ t.bays = s.bays)) ∧
    (∀ back, (s.chan c).state = 4 ∨ s.on (chanDom c) = false →
      ∃ t, exec (.vddqLoss c back) s = .next (s.finish t) ∧ (t.chan c).vddqLost = true ∧ t.ddr.rails = back ∧
        (t.chan c).state = (s.chan c).state ∧ (∀ k, k ≠ c → t.chan k = s.chan k) ∧ t.bays = s.bays) ∧
    (∀ back, (s.chan c).state ≠ 4 → s.on (chanDom c) = true →
      exec (.vddqLoss c back) s = .next (s.finish { s.start with ddr := { s.ddr with rails := back } })) ∧
    (∀ v, s.reachable (memBase c + 4) = true → bitAt v 0 = false → bitAt v 1 = false →
      ∃ t, exec (.clrmax c v) s = .next (s.finish t) ∧ t.reg (memBase c + 0x14) = 0#32 ∧
        (∀ k, (t.chan k).state = (s.chan k).state ∧ (t.chan k).mem = (s.chan k).mem) ∧ t.bays = s.bays))

/-- R306, R307, R309, R313, R316, R319, R320: a request at an address that a DIMM serves, its rank in no refresh
episode, is served: a write is acknowledged, and where the write queue has room a read then sees the new bytes where
it wrote and the old ones elsewhere; a read answers the bytes the channel shows and names the words of the lines that
come poisoned. One whose rank is in its episode waits; one that no DIMM serves is answered with its error. It rests in
part on the model's own readings, log entry 40. -/
def Obligations.DdrRequests : Prop :=
  ∀ (s : State) (a n ns : Nat) (data : List Byte) (poison : Bool) (u : List (Nat × Nat)),
    let x := s.start.ddrUpset u
    let c := chanOf a
    (s.ddrErr a = none → s.rankOf a ∉ (s.chan c).episodes →
      (∃ t, exec (.ddr4Request a true n data poison ns u false) s = .next (s.finish t) ∧ t.out = [.answer {}] ∧
        (∀ k, k ≠ c → t.chan k = x.chan k) ∧ (t.chan c).state = (s.chan c).state ∧ (t.chan c).waits = (s.chan c).waits ∧
        t.bays = s.bays ∧
        ((s.chan c).wq.length + (lineSpan a data.length).length ≤ 64 → ∀ y, (t.chan c).see y =
          if a ≤ y ∧ y < a + data.length then data.getD (y - a) 0#8 else (s.chan c).see y)) ∧
      ((s.chan c).wild = false →
        ∃ t, exec (.ddr4Request a false n data poison ns u false) s = .next (s.finish t) ∧
          t.out = [.answer {
            data := (List.range n).map fun i => (s.chan c).see (a + i)
            bad := (List.range ((n + 3) / 4)).filter fun w =>
              decide ((a + 4 * w) / 64 ∈ (lineSpan a n).filter (x.chan c).poisoned) }] ∧
          (∀ k, k ≠ c → t.chan k = x.chan k) ∧ (∀ y, (t.chan c).see y = (s.chan c).see y) ∧
          (t.chan c).marks = (x.chan c).marks ∧ t.bays = s.bays) ∧
      ((s.chan c).wild = true →
        ∃ t r, exec (.ddr4Request a false n data poison ns u false) s = .next (s.finish t) ∧ t.out = [.answer r] ∧
          r.err = none ∧ (∀ k, (t.chan k).state = (s.chan k).state) ∧ t.bays = s.bays)) ∧
    (∀ write, s.ddrErr a = none → s.rankOf a ∈ (s.chan c).episodes →
      exec (.ddr4Request a write n data poison ns u false) s = .next (s.finish (x.setChan c { x.chan c with
        waits := (x.chan c).waits ++
          [{ addr := a, write := write, len := n, data := data, poison := poison, ns := ns }] }))) ∧
    (∀ write e, s.ddrErr a = some e →
      exec (.ddr4Request a write n data poison ns u false) s = .next (s.finish (x.emit (.answer
        { data := if write then [] else zeros n, err := some e }))))

/-- R314–R318, R321: a rank of a READY channel enters its refresh episode and leaves it, writing a corrected line of
the rank back or, with SCRUB set, moving the patrol on by a line; ZQCS and a parity error delay what waits at the rank
or channel; the poll stores the readings and judges ALARM, doubled refresh and retraining; a slice delays what waits
and the last ends the retraining. -/
def Obligations.RefreshAndCalibration : Prop :=
  ∀ (s : State) (c : Nat),
    (∀ r, (s.chan c).state = 2 → r ∈ cfgRanks (s.memCfg c) → r ∉ (s.chan c).episodes →
      exec (.refreshEpisode c r) s = .next (s.finish (s.start.setChan c { s.chan c with
        episodes := (s.chan c).episodes ++ [r] }))) ∧
    (∀ r u, r ∈ (s.chan c).episodes →
      let x := s.start.ddrUpset u
      ∃ t, exec (.refreshEnd c r u) s = .next (s.finish t) ∧ (t.chan c).episodes = (s.chan c).episodes.filter (· ≠ r) ∧
        (∀ k, (t.chan k).state = (s.chan k).state) ∧ t.bays = s.bays ∧
        ((∀ l ∈ (s.chan c).back, s.rankOf (l * 64) ≠ r) → bitAt (s.reg (memBase c + 4)) 3 = true →
          tgetD 0 (t.chan c).scrub r = if tgetD 0 (s.chan c).scrub r + 1 < 2 ^ (cfgRow (s.memCfg c) + 11) then
            tgetD 0 (s.chan c).scrub r + 1 else 0) ∧
        ((s.chan c).waits = [] → (t.chan c).mem = (s.chan c).mem ∧ (t.chan c).wq = (s.chan c).wq ∧
          (∀ k, k ≠ c → t.chan k = x.chan k) ∧
          ∀ l, (s.chan c).back.find? (fun l => decide (s.rankOf (l * 64) = r)) = some l →
            (t.chan c).back = (s.chan c).back.filter (· ≠ l) ∧
            (markOf (x.chan c).marks l % 4 = 1 → markOf (t.chan c).marks l = 0))) ∧
    (∀ r, (s.chan c).state = 2 →
      exec (.zqcs c r) s = .next (s.finish (s.start.delayed fun a => decide (chanOf a = c ∧ s.rankOf a = r)))) ∧
    ((s.chan c).state = 2 → ∃ t : State, t = (s.start.delayed fun a => decide (chanOf a = c)).event (memBase c + 0x20) 0 ∧
      exec (.caParityAlert c) s = .next (s.finish (t.record
        { cls := 1, block := 3, inst := c, w8 := (t.sq (memBase c + 0x20)).read, w9 := t.reg (memBase c + 0x2C) }))) ∧
    (∀ t0 t1, ∃ t, exec (.dimmTempPoll c t0 t1) s = .next (s.finish t) ∧
        let h := sbyte (hotter (s.memCfg c) t0 t1)
        (t.chan c).t0 = t0 % 256 ∧ (t.chan c).t1 = (if bitAt (s.memCfg c) 25 then t1 % 256 else 0) ∧
        ((t.chan c).alarm = true ↔ 95 ≤ h) ∧
        ((t.chan c).fast = true ↔ 83 < h ∨ (80 < h ∧ (s.chan c).fast = true)) ∧
        ((t.chan c).retrain = if (s.chan c).state = 2 ∧ (s.chan c).retrain = 0 ∧
          (10 ≤ h - sbyte (s.chan c).ttrain ∨ h - sbyte (s.chan c).ttrain ≤ -10) then 1 else (s.chan c).retrain) ∧
        (95 ≤ h → (s.chan c).alarm = false → t.sq (memBase c + 0x20) = (s.sq (memBase c + 0x20)).event 5) ∧
        (¬(95 ≤ h ∧ (s.chan c).alarm = false) → t.regs = s.regs) ∧
        (t.chan c).mem = (s.chan c).mem ∧ (∀ k, k ≠ c → t.chan k = s.chan k) ∧ t.bays = s.bays) ∧
    (∀ last, (s.chan c).state = 2 → (s.chan c).retrain ≠ 0 →
      exec (.retrainSlice c last) s = .next (s.finish ((s.start.delayed fun a => decide (chanOf a = c)).setChan c
        (if last = true ∨ 64 ≤ (s.chan c).retrain then { s.chan c with
          retrain := 0, ttrain := hotter (s.memCfg c) (s.chan c).t0 (s.chan c).t1 }
         else { s.chan c with retrain := (s.chan c).retrain + 1 }))))

/-- R335, R336: at an epoch boundary the epoch counts one, HEAT decays and takes in the epoch's counts, which start
again; with ENABLE 0 nothing is decided. It rests in part on the model's own readings, log entry 5. -/
def Obligations.Epochs : Prop :=
  ∀ (s : State) (d : Nat), s.stgOn = true → s.rsu.raised = true →
    d = (if fld (s.reg 0x40004) 9 3 = 0 then 1 else fld (s.reg 0x40004) 9 3) →
    ∃ t, exec .epochBoundary s = .next (s.finish t) ∧ t.count 0x40010 = (s.count 0x40010 + 1) % 2 ^ 64 ∧
      t.scr.us = (s.scr.us / 1000 + 1) * 1000 ∧ t.scr.counts = [] ∧
      t.scr.pages = s.scr.pages.map (fun e => (e.1, { e.2 with heat := satAdd (2 ^ 24 - 1) (e.2.heat - e.2.heat / 2 ^ d) (s.pageCount e.1) })) ∧
      (bitAt (s.reg 0x40000) 0 = false → t.scr.decided = [] ∧ t.scr.decidedTasks = [])

/-- R338, R353: a pass that no peer, March test or refresh episode keeps and that leaves few enough dirty lines sets
the fence; one that leaves more starts the next, the eighth abandons the move; with every access drained the
acknowledged fence has the last lines copied; the end copies the page, the entry takes the new place and the source is
free. R342, R343: a task whose run has ended and whose messages have left is copied, or its slot cleared where the
move is an UNPLACE; the end of the copy moves its slot; a run that outlasts MIGWAIT ends the move with the task where
it was. -/
def Obligations.Moves : Prop :=
  (∀ (s : State) (tb pg : Nat) (m : PageMove), s.moveOf (pageKey tb pg) = some m →
    let k := pageKey tb pg
    let free := s.copying k = false ∧ s.placeWaits m.src = false ∧ s.placeWaits m.dst = false
    let home := tierOf m.src ≠ 3 ∧ tierOf m.dst ≠ 3
    (∀ refused, m.phase = 0 → (refused = true → tierOf m.dst ≠ 3) → free →
      (m.dirty.length ≤ fld (s.reg 0x40004) 12 6 + 1 →
        ∃ t, exec (.pageCopyPassDone tb pg refused) s = .next (s.finish t) ∧
          t.page k = { s.page k with w0 := (s.page k).w0 ||| 0x20000000#32, fenced := s.epoch + 1 } ∧
          t.scr.moves = s.scr.moves.map (fun x => if x.key = k then
            { x with passes := m.passes + 1, phase := 1, fenceAt := s.scr.us } else x) ∧
          (∀ j, j ≠ k → t.page j = s.page j) ∧ t.bays = s.bays ∧ t.ddr = s.ddr ∧ t.stg = s.stg) ∧
      (fld (s.reg 0x40004) 12 6 + 1 < m.dirty.length → m.passes + 1 < 8 →
        ∃ t, exec (.pageCopyPassDone tb pg refused) s = .next (s.finish t) ∧
          t = (((s.start.onMove k fun x => { x with passes := m.passes + 1 }).copyLines k m.dirty).onMove k
            fun x => { x with dirty := [] }) ∧
          (home → t.scr.moves = s.scr.moves.map (fun x => if x.key = k then
              { x with passes := m.passes + 1, dirty := [] } else x) ∧
            t.scr.pages = s.scr.pages ∧ t.ddr = s.ddr ∧ t.stg = s.stg ∧
            ∀ b, ∃ p, t.bay b = { s.bay b with pipe := p })) ∧
      (fld (s.reg 0x40004) 12 6 + 1 < m.dirty.length → 8 ≤ m.passes + 1 →
        ∃ t, exec (.pageCopyPassDone tb pg refused) s = .next (s.finish t) ∧
          t.scr.moves = s.scr.moves.filter (fun x => decide (x.key ≠ k)) ∧
          t.page k = { s.page k with w0 := placeOf (s.page k).w0 } ∧
          (∀ j, j ≠ k → t.page j = s.page j) ∧ t.bays = s.bays ∧ t.ddr = s.ddr)) ∧
    (m.phase = 1 → s.accessing k = false →
      ∃ t, exec (.fenceAcknowledged tb pg) s = .next (s.finish t) ∧
        t = ((s.start.copyLines k m.dirty).onMove k fun x => { x with phase := 2, dirty := [] }) ∧
        (home → t.scr.moves = s.scr.moves.map (fun x => if x.key = k then { x with phase := 2, dirty := [] } else x) ∧
          t.scr.pages = s.scr.pages ∧ t.ddr = s.ddr ∧ t.stg = s.stg ∧ ∀ b, ∃ p, t.bay b = { s.bay b with pipe := p })) ∧
    (∀ ns remote, m.phase = 2 → free → home →
      ∃ t, exec (.pageMoveComplete tb pg ns remote) s = .next (s.finish t) ∧
        (t.page k).w0 = placeOf m.dst ∧ (∀ j, j ≠ k → t.page j = s.page j) ∧
        t.scr.moves = s.scr.moves.filter (fun x => decide (x.key ≠ k)) ∧
        (bitAt (s.reg 0x400C0) 31 = false → ∀ i, i < 65536 → t.placeByte m.dst i = s.placeByte m.src i))) ∧
  (∀ (s : State) (k : Nat) (m : TaskMove), s.taskMove k = some m →
    (∀ d, m.phase = 4 → (s.bay m.src).running k = false → (s.bay m.src).sending k = false → m.dst = some d →
      ∃ t, exec (.taskMoveDrained k) s = .next (s.finish t) ∧
        t.scr.taskMoves = s.scr.taskMoves.map (fun x => if x.task = k then { x with phase := 6 } else x) ∧
        t.scr.tasks = s.scr.tasks ∧ t.bays = s.bays ∧ t.qm = s.qm) ∧
    (m.phase = 4 → (s.bay m.src).running k = false → (s.bay m.src).sending k = false → m.dst = none →
      ∃ t, exec (.taskMoveDrained k) s = .next (s.finish t) ∧
        t.scr.taskMoves = s.scr.taskMoves.filter (fun x => decide (x.task ≠ k)) ∧
        t.taskWord k 0 = s.taskWord k 0 &&& 0xE000FFFF#32 ∧
        tgetD none (t.bay (s.taskBay k)).qio.slots (s.taskSlot k) = none ∧
        (∀ b, b ≠ s.taskBay k → t.bay b = s.bay b) ∧ t.qm = s.qm ∧ t.ddr = s.ddr) ∧
    (∀ d, m.phase = 6 → m.dst = some d → (s.bay m.src).march = false → (s.bay d).march = false →
      ((s.bay m.src).state = 3 → ((s.start.copyTask k m.src d).bay m.src).state = 3) →
      ∃ t, exec (.taskMoveComplete k) s = .next (s.finish t) ∧
        t.scr.taskMoves = s.scr.taskMoves.filter (fun x => decide (x.task ≠ k)) ∧
        t.taskWord k 0 = (s.taskWord k 0 &&& 0xE000FFFF#32) ||| wd (2 ^ 28 + m.slot % 16 * 2 ^ 24 + d % 256 * 2 ^ 16) ∧
        tgetD none (t.bay d).qio.slots m.slot = some (s.slotFor k) ∧ t.ddr = s.ddr) ∧
    (m.phase = 4 → (s.bay m.src).running k = true →
      ∃ t, exec (.migwaitExpiry k) s = .next (s.finish t) ∧
        t.scr.taskMoves = s.scr.taskMoves.filter (fun x => decide (x.task ≠ k)) ∧ t.scr.tasks = s.scr.tasks ∧
        t.bays = s.bays ∧ t.ddr = s.ddr ∧
        (bitAt (s.reg 0x400C0) 31 = false → m.evac = false → t.sq 0x40020 = (s.sq 0x40020).event 0 ∧ t.stg = s.stg)))

/-- R331, R342, R351: with no command in progress, READ copies the selected task's descriptor (free values where a
failed raise left the records unspecified); WRITE changes the writable bits, of word 0 alone while the task is placed,
and POLICY 3 gives RESULT 2; PLACE takes the lowest free slot of the chosen bay; MOVE and UNPLACE start a task move,
or wait while four run. A command on a task that is not valid, FIXED, moving or has no admissible place ends with
RESULT 5, 1, 3 or 2. R344, R346, R350–R352: READ copies the selected table's descriptor and page map entry; MOVE of a
page of a table that is not FIXED to a permitted place starts a page move, or waits while eight run, and otherwise
gives RESULT 5, 1, 3 or 2; TWRITE replaces the descriptor unless R352 forbids it (RESULT 2), adds the pages that the
table gains and frees those beyond its length; START begins an evacuation of bents or of a bay unless one runs (RESULT
3), and a bank release unless the bank holds no pages of L1, a FIXED page or a page that may live nowhere else (RESULT
2). It rests in part on the model's own readings, log entries 42, 43. -/
def Obligations.ScribeCommands : Prop :=
  (∀ (s : State) (k : Nat), s.reachable 0x40068 = true → s.raiseLocks = false → s.tOpen = true → k = s.tsel →
    (∃ t, exec .tcmdRead s = .next (s.finish t) ∧ t.scr = { s.scr with tbusy := false, tres := 0 } ∧
      (s.scr.lost = false → ∀ i, i < 8 → t.reg (0x40044 + 4 * i) = s.taskWord k i) ∧ t.bays = s.bays ∧ t.qm = s.qm) ∧
    (policyOf (s.reg 0x40044) = 3 → exec .tcmdWrite s = .next (s.finish (s.start.endTaskCmd 2))) ∧
    (policyOf (s.reg 0x40044) ≠ 3 →
      ∃ t, exec .tcmdWrite s = .next (s.finish t) ∧
        (∀ n, n < 7 → t.taskWord k n = if s.taskPlaced k = true ∧ n ≠ 0 then s.taskWord k n
          else (s.taskWord k n &&& ~~~ taskMask n) ||| (s.reg (0x40044 + 4 * n) &&& taskMask n)) ∧
        (∀ j n, n < 8 → (j ≠ k ∨ n = 7) → t.taskWord j n = s.taskWord j n) ∧ t.scr.tres = 0 ∧ t.bays = s.bays ∧
          t.qm = s.qm) ∧
    (s.taskValid k = false → ∀ i, i = .place ∨ i = .tcmdMove ∨ i = .unplace →
      exec i s = .next (s.finish (s.start.endTaskCmd 5))) ∧
    (s.taskValid k = true →
      (s.taskPlaced k = true → exec .place s =
        .next (s.finish (s.start.endTaskCmd (if policyOf (s.taskWord k 0) = 0 then 1 else 2)))) ∧
      (s.taskPlaced k = false → s.admissible k s.tdest = false → exec .place s = .next (s.finish (s.start.endTaskCmd 2))) ∧
      (∀ i, s.taskPlaced k = false → s.admissible k s.tdest = true → s.freeSlot s.tdest = some i →
        ∃ t, exec .place s = .next (s.finish t) ∧ t.scr.tres = 0 ∧ t.scr.tbusy = false ∧
          t.taskWord k 0 = (s.taskWord k 0 &&& 0xE000FFFF#32) ||| wd (2 ^ 28 + i % 16 * 2 ^ 24 + s.tdest % 256 * 2 ^ 16) ∧
          tgetD none (t.bay s.tdest).qio.slots i = some (s.slotFor k)) ∧
      (policyOf (s.taskWord k 0) = 0 → exec .tcmdMove s = .next (s.finish (s.start.endTaskCmd 1))) ∧
      (policyOf (s.taskWord k 0) ≠ 0 → (s.taskMove k).isSome = true →
        exec .tcmdMove s = .next (s.finish (s.start.endTaskCmd 3))) ∧
      (policyOf (s.taskWord k 0) ≠ 0 → s.taskMove k = none → s.taskPlaced k = false ∨ s.admissible k s.tdest = false →
        exec .tcmdMove s = .next (s.finish (s.start.endTaskCmd 2))) ∧
      (policyOf (s.taskWord k 0) ≠ 0 → s.taskMove k = none → s.taskPlaced k = true → s.admissible k s.tdest = true →
        ∃ t, exec .tcmdMove s = .next (s.finish t) ∧ t.scr.tbusy = true ∧ t.scr.tasks = s.scr.tasks ∧
          (4 ≤ s.scr.taskMoves.length → t.scr.taskMoves = s.scr.taskMoves ∧ t.scr.taskWait = 4 ∧ t.bays = s.bays ∧
            t.qm = s.qm) ∧
          (s.scr.taskMoves.length < 4 → t.scr.taskMoves = s.scr.taskMoves ++
            [{ task := k, src := s.taskBay k, dst := some s.tdest, slot := (s.freeSlot s.tdest).getD 0,
               frozen := (s.boundTo k).filter (fun q => decide ((s.queue q).state = 1)), origin := 1, command := true,
               epoch := s.epoch }])) ∧
      ((s.taskMove k).isSome = true → exec .unplace s = .next (s.finish (s.start.endTaskCmd 3))) ∧
      (s.taskMove k = none → s.taskPlaced k = false → exec .unplace s = .next (s.finish (s.start.endTaskCmd 2))) ∧
      (s.taskMove k = none → s.taskPlaced k = true →
        ∃ t, exec .unplace s = .next (s.finish t) ∧ t.scr.tbusy = true ∧ t.scr.tasks = s.scr.tasks ∧
          (4 ≤ s.scr.taskMoves.length → t.scr.taskMoves = s.scr.taskMoves ∧ t.scr.taskWait = 5 ∧ t.bays = s.bays ∧
            t.qm = s.qm) ∧
          (s.scr.taskMoves.length < 4 → t.scr.taskMoves = s.scr.taskMoves ++
            [{ task := k, src := s.taskBay k, dst := none,
               frozen := (s.boundTo k).filter (fun q => decide ((s.queue q).state = 1)), origin := 1, command := true,
               epoch := s.epoch }])))) ∧
  (∀ (s : State), s.raiseLocks = false →
    (s.pOpen = true → s.reachable 0x40090 = true →
      (∃ t, exec .pcmdRead s = .next (s.finish t) ∧ t.bays = s.bays ∧ t.qm = s.qm ∧
        (s.scr.lost = true → t.scr = { s.scr with pbusy := false, pres := 0 }) ∧
        (s.scr.lost = false → t.reg 0x4008C = s.table (s.psel / 4096)) ∧
        (s.scr.lost = false → (s.page s.psel).live = false → t.scr = { s.scr with pbusy := false, pres := 5 }) ∧
        (s.scr.lost = false → (s.page s.psel).live = true → t.scr = { s.scr with pbusy := false, pres := 0 } ∧
          t.reg 0x40084 = (s.page s.psel).w0 ∧ t.reg 0x40088 = wd ((s.page s.psel).heat % 2 ^ 24 * 256))) ∧
      ((s.page s.psel).live = false → exec .pcmdMove s = .next (s.finish (s.start.endPageCmd 5))) ∧
      ((s.page s.psel).live = true → policyOf (s.table (s.psel / 4096)) = 0 →
        exec .pcmdMove s = .next (s.finish (s.start.endPageCmd 1))) ∧
      ((s.page s.psel).live = true → policyOf (s.table (s.psel / 4096)) ≠ 0 → s.mayMove s.psel = false →
        exec .pcmdMove s = .next (s.finish (s.start.endPageCmd 3))) ∧
      (s.mayMove s.psel = true → policyOf (s.table (s.psel / 4096)) ≠ 0 → s.movePlace s.psel (s.reg 0x40084) = none →
        exec .pcmdMove s = .next (s.finish (s.start.endPageCmd 2))) ∧
      (∀ w, s.mayMove s.psel = true → policyOf (s.table (s.psel / 4096)) ≠ 0 →
        s.movePlace s.psel (s.reg 0x40084) = some w →
        ∃ t, exec .pcmdMove s = .next (s.finish t) ∧ t.scr.pbusy = true ∧
          (8 ≤ s.scr.moves.length → t.scr.moves = s.scr.moves ∧ t.scr.pageWait = true ∧ t.bays = s.bays) ∧
          (s.scr.moves.length < 8 → tierOf (placeOf (s.page s.psel).w0) ≠ 3 → tierOf (placeOf w) ≠ 3 →
            s.moveOf s.psel = none →
            t.scr.moves = s.scr.moves ++
              [{ key := s.psel, src := placeOf (s.page s.psel).w0, dst := placeOf w, origin := 1, command := true,
                 epoch := s.epoch }] ∧
            t.page s.psel = { s.page s.psel with w0 := (s.page s.psel).w0 ||| 0x10000000#32 } ∧
            (∀ j, j ≠ s.psel → t.page j = s.page j) ∧ ∀ b, ∃ p, t.bay b = { s.bay b with pipe := p })) ∧
      (∀ d, d = s.reg 0x4008C &&& 0xFFFF0FFF#32 → policyOf d = 3 ∨ s.twriteBad (s.psel / 4096) d = true →
        exec .twrite s = .next (s.finish (s.start.endPageCmd 2))) ∧
      (∀ d s1 keep had, d = s.reg 0x4008C &&& 0xFFFF0FFF#32 → policyOf d ≠ 3 → s.twriteBad (s.psel / 4096) d = false →
        s1 = ({ s.start with scr := { s.scr with tables := tsetD 0#32 s.scr.tables (s.psel / 4096) d } } : State) →
        keep = (if bitAt d 31 then fld d 0 12 + 1 else 0) →
        had = (if bitAt (s.table (s.psel / 4096)) 31 then fld (s.table (s.psel / 4096)) 0 12 + 1 else 0) →
        (s1.addPages (s.psel / 4096) ((List.range (keep - had)).map (had + ·)) = none →
          exec .twrite s = .next (s.finish (s.start.endPageCmd 2))) ∧
        (∀ s2, s1.addPages (s.psel / 4096) ((List.range (keep - had)).map (had + ·)) = some s2 →
          ∃ t, exec .twrite s = .next (s.finish t) ∧ t.scr.pres = 0 ∧ t.scr.pbusy = false ∧
            t.table (s.psel / 4096) = d ∧ (∀ j, j ≠ s.psel / 4096 → t.table j = s.table j) ∧
            (∀ j, t.page j = if j ∈ (s2.pagesOf (s.psel / 4096)).filter (fun k => decide (keep ≤ k % 4096)) then {} else s2.page j) ∧
            (∀ j, j ∉ ((List.range (keep - had)).map (had + ·)).map (pageKey (s.psel / 4096)) → s2.page j = s.page j) ∧
            (∀ j, j ∈ ((List.range (keep - had)).map (had + ·)).map (pageKey (s.psel / 4096)) → (s2.page j).live = true) ∧
            t.bays = s.bays ∧ t.ddr = s.ddr ∧ t.qm = s.qm ∧ t.scr.tasks = s.scr.tasks))) ∧
    (∀ v, s.scribeOpen = true → s.reachable 0x400A0 = true → s.reachable 0x400A4 = true →
      (s.scr.evac.isSome = true →
        exec (.scrEvac v) s = .next (s.finish { s.start.writeRw 0x400A0 0x4000FFFF (v ||| 0x80000000#32) with scr := { s.scr with evRes := 3 } }) ∧
        exec (.scrEvbay v) s = .next (s.finish { s.start.writeRw 0x400A4 0x400000FF (v ||| 0x80000000#32) with scr := { s.scr with evRes := 3 } })) ∧
      (s.scr.evac = none → ∃ t, exec (.scrEvac v) s = .next (s.finish t) ∧
        t.scr.evac = some
          { bays := (maskBays (fld v 0 16)).filter fun b => s.bentHere (b / 16), drop := bitAt v 30, byBay := false,
            subject := fld v 0 16, epoch := s.epoch } ∧ t.scr.evRes = 0 ∧ t.bays = s.bays) ∧
      (s.scr.evac = none → ∃ t, exec (.scrEvbay v) s = .next (s.finish t) ∧
        t.scr.evac = some
          { bays := [fld v 0 8], drop := bitAt v 30, byBay := true, subject := fld v 0 8, epoch := s.epoch } ∧
        t.scr.evRes = 0 ∧ t.bays = s.bays)) ∧
    (∀ v w, s.scribeOpen = true → s.reachable 0x400B0 = true → w = s.start.writeRw 0x400B0 0xFF (v ||| 0x80000000#32) →
      (s.scr.rel.isSome = true → exec (.scrBankrel v) s = .next (s.finish w)) ∧
      (s.scr.rel = none → (s.bank (fld v 0 8)).kind = 2 →
        (∀ k, k ∈ s.pagesIn (fld v 0 8) → policyOf (s.table (k / 4096)) ≠ 0 ∧
          ({ w with scr := { w.scr with rel := some { bank := fld v 0 8, epoch := s.epoch } } } : State).elsewhere (k / 4096) = true) →
        exec (.scrBankrel v) s =
          .next (s.finish { w with scr := { s.scr with rel := some { bank := fld v 0 8, epoch := s.epoch }, relRes := 0 } })) ∧
      (s.scr.rel = none → ((s.bank (fld v 0 8)).kind ≠ 2 ∨ ∃ k, k ∈ s.pagesIn (fld v 0 8) ∧
          (policyOf (s.table (k / 4096)) = 0 ∨ ({ w with scr := { w.scr with
            rel := some { bank := fld v 0 8, epoch := s.epoch } } } : State).elsewhere (k / 4096) = false)) →
        ∃ t, exec (.scrBankrel v) s = .next (s.finish t) ∧ t.scr.rel = none ∧ t.scr.relRes = 2 ∧
          t.scr.moves = s.scr.moves ∧ t.scr.pages = s.scr.pages)))

/-- R375, R382, R383: a raise command that is accepted starts step 1 with what RSU_SRC, RSU_LEN and RSU_TARGET hold;
one that is not accepted is refused with reason 0x24; one during a raise, whatever its OP but ABORT, is lost. ABORT
ends a raise in steps 1–4 and is lost from step 5 on. With PD_STG off no command is taken. R376–R383: the step in
progress ends: with no raise nothing happens; a re-raise whose bay was disturbed fails with 0x22; step 1 goes on to
step 2 unless the plan cannot be read (0xD) or its header, its directory or the readiness of the bents gives a reason;
step 2 goes on when the plan's CRCs and its signature hold, step 3 decrypts and step 4 validates; step 5 goes on when
bents and channels are ready; steps 6–9 load bays, fabric, queues and the scribe's records; step 10 commits: RAISED,
result OK, and the loaded bays are set to start. A failure in steps 1–4 leaves bays, scribe and queues alone. A bay
that starts enters RUN with its start words, supervisor privilege, every event masked, and every other register zero.
It rests in part on the model's own readings, log entries 60, 61, 62. -/
def Obligations.Raising : Prop :=
  ((∀ (s : State), s.reachable 0x5000C = true →
    (s.stgOn = true → s.rsu.busy = false → ∀ op t, 1 ≤ op → op ≤ 3 → s.raiseOk op = true →
      t = { s.start with rsu := { s.rsu with
        busy := true, step := 1, result := 0, reason := 0, skipped := 0, op := op, src := (s.reg 0x50000).toNat,
        len := (s.reg 0x50004).toNat, target := s.reg 0x50008, bents := 0, elapsed := 0, plain := false, quiesce := 0,
        disturbed := false, placed := [] } } →
      (op = 1 → exec .raise s = .next (s.finish t)) ∧ (op = 2 → exec .rebent s = .next (s.finish t)) ∧
      (op = 3 → exec .rebay s = .next (s.finish t))) ∧
    (s.stgOn = true → s.rsu.busy = false → ∀ op t, 1 ≤ op → op ≤ 3 → s.raiseOk op = false →
      t = ({ s.start with rsu := { s.rsu with result := 3, reason := 0x24, step := 0 } } : State).event 0x50014 1 →
      (op = 1 → exec .raise s = .next (s.finish t)) ∧ (op = 2 → exec .rebent s = .next (s.finish t)) ∧
      (op = 3 → exec .rebay s = .next (s.finish t))) ∧
    (s.stgOn = true → s.rsu.busy = true →
      exec .raise s = .next (s.finish (s.start.event 0x50014 2)) ∧
        exec .rebent s = .next (s.finish (s.start.event 0x50014 2)) ∧
      exec .rebay s = .next (s.finish (s.start.event 0x50014 2)) ∧
      ∀ v, fld v 0 3 ≠ 4 → exec (.registerWrite .host 0x5000C 4 v) s = .next (s.finish (s.start.event 0x50014 2))) ∧
    (s.stgOn = true → s.rsu.busy = true → s.rsu.step ≤ 4 →
      ∃ t, exec .abort s = .next (s.finish t) ∧ t.rsu.busy = false ∧ t.rsu.result = 4 ∧ t.rsu.raised = s.rsu.raised ∧
        t.bays = s.bays ∧ t.scr = s.scr ∧ t.qm = s.qm ∧ (s.rsu.plain = false → t.stg = s.stg)) ∧
    (s.stgOn = true → s.rsu.busy = true → 4 < s.rsu.step → exec .abort s = .next (s.finish (s.start.event 0x50014 2))) ∧
    (s.stgOn = true → s.rsu.busy = false → exec .abort s = .next (s.finish s.start))) ∧
  (∀ (s : State), s.stgOn = false → ∀ i, i = .raise ∨ i = .rebent ∨ i = .rebay ∨ i = .abort →
    exec i s = .next (s.finish s.start))) ∧
  (∀ (s : State) (us : Nat),
    (s.rsu.busy = false → exec (.raiseStepComplete us) s = .next (s.finish s.start)) ∧
    (∀ u : State, s.rsu.busy = true → u = { s.start with rsu := { s.rsu with elapsed := s.rsu.elapsed + us } } →
      (s.rsu.op ≠ 1 → s.rsu.disturbed = true → exec (.raiseStepComplete us) s = .next (s.finish (u.raiseFail 0x22))) ∧
      (s.rsu.op = 1 ∨ s.rsu.disturbed = false →
        (s.rsu.step = 1 → (u.planRead 0 64).2 = false →
          exec (.raiseStepComplete us) s = .next (s.finish ((u.planRead 0 64).1.raiseFail 0xD))) ∧
        (s.rsu.step = 1 → (u.planRead 0 64).2 = true →
          ∀ h, h = s.plan.headerReason s.rsu.op s.rsu.len s.hw.part s.raiseBent →
          h ≠ 0 → exec (.raiseStepComplete us) s = .next (s.finish ((u.planRead 0 64).1.raiseFail h))) ∧
        (s.rsu.step = 1 → (u.planRead 0 64).2 = true → s.plan.headerReason s.rsu.op s.rsu.len s.hw.part s.raiseBent = 0 →
          3 ≤ s.plan.nsect → s.plan.nsect ≤ 8 → s.plan.directoryReason s.rsu.op = 0 →
          ((u.planRead 0 64).1.planRead 64 (16 * s.plan.nsect)).2 = true →
          ∀ w : State × Bool, w = (gapsFrom (64 + 16 * s.plan.nsect) s.plan.entries).foldl (fun (x : State × Bool) g =>
              ((x.1.planRead g.1 g.2).1, x.2 && (x.1.planRead g.1 g.2).2)) (((u.planRead 0 64).1.planRead 64 (16 * s.plan.nsect)).1, true) → w.2 = true →
          w.1.bentsReady s.plan.bents (decide (s.rsu.op = 1)) = true →
          ∃ t, exec (.raiseStepComplete us) s = .next (s.finish t) ∧
            t.rsu = { u.rsu with bents := s.plan.bents, step := 2 } ∧
            t.bays = s.bays ∧ t.scr = s.scr ∧ t.qm = s.qm) ∧
        (s.rsu.step = 2 → (u.planRead 0 s.plan.total).2 = true → s.plan.crcsOk = true → u.authReason s.plan = 0 →
          ∃ t, exec (.raiseStepComplete us) s = .next (s.finish t) ∧
            t.rsu = { u.rsu with step := if s.plan.enc then 3 else 4 } ∧ t.bays = s.bays ∧ t.scr = s.scr ∧ t.qm = s.qm) ∧
        (s.rsu.step = 2 → (u.planRead 0 s.plan.total).2 = true → ∀ n, n ≠ 0 →
          n = (if s.plan.crcsOk then u.authReason s.plan else 7) →
          ∃ t, exec (.raiseStepComplete us) s = .next (s.finish t) ∧ t.rsu.busy = false ∧ t.rsu.result = 2 ∧
            t.rsu.reason = n ∧
            t.bays = s.bays ∧ t.scr = s.scr ∧ t.qm = s.qm) ∧
        (s.rsu.step = 3 → ∃ t, exec (.raiseStepComplete us) s = .next (s.finish t) ∧
          ((t.rsu = { u.rsu with plain := true, step := 4 }) ∨
            (t.rsu.busy = false ∧ t.rsu.result = 2 ∧ (t.rsu.reason = 0xC ∨ t.rsu.reason = 0xD))) ∧
          t.bays = s.bays ∧ t.scr = s.scr ∧ t.qm = s.qm) ∧
        (s.rsu.step = 4 → ∀ r, r = u.planRead 0 s.plan.total →
          exec (.raiseStepComplete us) s = .next (s.finish (
            if r.2 = false then r.1.raiseFail 0xD
            else if r.1.planReason s.plan ≠ 0 then r.1.raiseFail (r.1.planReason s.plan)
            else if s.rsu.op = 2 then (r.1.raiseTo 5).quiesceStart else r.1.raiseTo 5))) ∧
        (s.rsu.step = 5 → s.rsu.op = 1 →
          exec (.raiseStepComplete us) s = .next (s.finish (
            if s.bentsReady s.rsu.bents true = false then u.raiseFail 5
            else if s.channelsReady s.plan = false then u.raiseFail 0x17 else u.raiseTo 6))) ∧
        (s.rsu.step = 5 → s.rsu.op = 3 →
          exec (.raiseStepComplete us) s = .next (s.finish (
            if s.raiseTargets.all (fun b => s.bayLive b && decide ((s.bay b).state = 1)) then u.raiseTo 6 else u.raiseFail 5))) ∧
        (s.rsu.step = 5 → s.rsu.op = 2 →
          exec (.raiseStepComplete us) s = .next (s.finish (
            if s.rsu.quiesce = 4 then (u.bentFree s.raiseBent).raiseTo 6 else u))) ∧
        (6 ≤ s.rsu.step → s.rsu.step ≤ 9 → ∀ r, r = u.planRead 0 s.plan.total → r.2 = true →
          s.rsu.op ≠ 1 ∨ s.channelsReady s.plan = true →
          (s.rsu.step = 6 → exec (.raiseStepComplete us) s = .next (s.finish (((r.1.raiseTargets.filter r.1.bayLive).foldl
            (fun x b => x.loadBay s.plan b) r.1).raiseTo (if s.rsu.op = 1 then 7 else 9)))) ∧
          (s.rsu.step = 7 → exec (.raiseStepComplete us) s = .next (s.finish ((({ r.1 with
            rsu := { r.1.rsu with routes := s.plan.bytes (s.plan.off 3) 96 } } : State).loadBanks s.plan).raiseTo 8))) ∧
          (s.rsu.step = 8 → exec (.raiseStepComplete us) s = .next (s.finish ((r.1.loadQueues s.plan).raiseTo 9))) ∧
          (s.rsu.step = 9 → s.rsu.op ≠ 1 →
            exec (.raiseStepComplete us) s = .next (s.finish ((r.1.reloadTasks s.plan).raiseTo 10))) ∧
          (s.rsu.step = 9 → s.rsu.op = 1 → ∀ x, r.1.loadScribe s.plan false = some x →
            exec (.raiseStepComplete us) s = .next (s.finish ((x.loadTasks s.plan).raiseTo 10)))) ∧
        (6 ≤ s.rsu.step → s.rsu.step ≤ 9 → ∀ r, r = u.planRead 0 s.plan.total →
          (r.2 = false → exec (.raiseStepComplete us) s = .next (s.finish (r.1.raiseFail 0xD))) ∧
          (r.2 = true → s.rsu.op = 1 → s.channelsReady s.plan = false →
            exec (.raiseStepComplete us) s = .next (s.finish (r.1.raiseFail 0x17)))) ∧
        (s.rsu.step = 10 → s.rsu.op = 1 → s.rsu.plain = false →
          ∃ t, exec (.raiseStepComplete us) s = .next (s.finish t) ∧ t.rsu.raised = true ∧ t.rsu.busy = false ∧
            t.rsu.result = 1 ∧
            t.rsu.starting = s.rsu.starting ++
              (s.raiseTargets.filter s.bayLive).filter (fun b => decide (s.plan.assign b ≠ 0xFF)) ∧
            t.reg 0x5001C = s.plan.seqno ∧ t.bays = s.bays ∧ t.stg = s.stg) ∧
        (s.rsu.step = 10 → exec (.raiseStepComplete us) s = .next (s.finish u.raiseCommit)))) ∧
    (∀ b, s.rsu.starting.contains b = false → exec (.bayEnterRun b) s = .next (s.finish s.start)) ∧
    (∀ b, b ∈ s.rsu.starting → ((s.bay b).state ≠ 1 ∨ (s.bay b).retired = true) →
      exec (.bayEnterRun b) s = .next (s.finish { s.start with
        rsu := { s.rsu with starting := s.rsu.starting.filter fun k => decide (k ≠ b) } })) ∧
    (∀ b, b ∈ s.rsu.starting → (s.bay b).state = 1 → (s.bay b).retired = false →
      ∃ t, exec (.bayEnterRun b) s = .next (s.finish t) ∧ (t.bay b).state = 3 ∧ (t.bay b).pipe.pc = (s.bay b).str.start ∧
        (t.bay b).ctx.priv = 1 ∧ (t.bay b).ctx.mask = 7 ∧ (t.bay b).ports = [] ∧ (t.bay b).crcs = [] ∧ (t.bay b).tmr = {} ∧
        (∀ r, tgetD 0#32 (t.bay b).gp r = if r = 63 then (s.bay b).str.startSp else 0#32) ∧
        (t.bay b).istore = (s.bay b).istore ∧ (∀ k, k ≠ b → t.bay k = s.bay k) ∧ t.regs = s.regs ∧ t.stg = s.stg))

/-- R397, R400, R402, R415, R553: at a port that is UP, the expected flit is handled and the next is expected: a QCELL
of one cell enters its queue; a QREFUSE is counted and recorded; an LSTATE of a newer generation is recorded; a flit
of a reserved type only raises PROTO. A QCELL seen before changes nothing but counters and credits. A NULL flit
acknowledges and returns credits. It rests in part on the model's own readings, log entry 46. -/
def Obligations.FlitsReceived : Prop :=
  ∀ (s : State) (p : Nat) (l : LinkWord) (f : Flit), s.portUp p = true → plainLink l (s.port p) → (s.port p).gap = false →
    (∀ ovf, f.dst % 4096 = s.devId → f.cell = 0 → f.ncell = 0 → (f.rt = true → f.index < 2 ^ 13) → s.qmRuns = true →
      (s.queue f.tag).state ≠ 0 → (s.queue f.tag).state ≠ 3 → s.fullFor (s.queue f.tag) 1 false = false →
      s.place (s.queue f.tag) 1 false = some ovf →
      ∃ t, exec (.qcell p l f) s = .next (s.finish t) ∧
        (t.queue f.tag).msgs = (s.queue f.tag).msgs ++
          [{ words := (List.range 16).map fun i => f.payload.getD i 0#32, cells := 1, pkind := if f.rt then 5 else 4,
             dev := f.src, index := if f.rt then f.index % 256 else f.index, bad := if f.poison then List.range 16 else [],
             commit := s.qm.commits, inOvf := ovf, agent := (s.queue f.tag).home }] ∧
        (∀ j, j ≠ f.tag → t.queue j = s.queue j) ∧ (t.port p).rxNext = ((s.port p).rxNext + 1) % 4096 ∧ t.bays = s.bays ∧
        t.ddr = s.ddr) ∧
    (f.dst % 4096 = s.devId → bitAt (f.payload.getD 2 0#32) 31 = false →
      bitAt (s.taskWord (fld (f.payload.getD 2 0#32) 0 14) 4) 31 = false →
      ∃ t, exec (.qrefuse p l f) s = .next (s.finish t) ∧ t.sq 0x30040 = (s.sq 0x30040).event 1 ∧ t.qm = s.qm ∧
        (t.port p).rxNext = ((s.port p).rxNext + 1) % 4096 ∧ t.bays = s.bays ∧ t.ddr = s.ddr) ∧
    (∀ dev port st gen, dev = fld (f.payload.getD 0 0#32) 0 12 → port = fld (f.payload.getD 0 0#32) 12 3 →
      st = fld (f.payload.getD 0 0#32) 16 2 → gen = fld (f.payload.getD 1 0#32) 0 8 → dev ≠ s.devId →
      (∀ v, tgetD none s.scf.view (dev * 8 + port) = some v → 1 ≤ (gen + 256 - v.2) % 256 ∧ (gen + 256 - v.2) % 256 ≤ 127) →
      ∃ t, exec (.lstate p l f) s = .next (s.finish t) ∧
        t.scf.view = tsetD none s.scf.view (dev * 8 + port) (some (st, gen)) ∧
        (t.port p).rxNext = ((s.port p).rxNext + 1) % 4096 ∧ t.qm = s.qm ∧ t.bays = s.bays ∧ t.ddr = s.ddr) ∧
    (∃ t, exec (.reservedFlit p l) s = .next (s.finish t) ∧ LinkRest (s.start.event (scfBase p + 0x20) 4) t ∧
      (t.port p).rxNext = ((s.port p).rxNext + 1) % 4096) ∧
    (∀ n, 1 ≤ n → n ≤ 2047 →
      ∃ t, exec (.qcell p { l with seq := (s.port p).rxNext + 4096 - n } f) s = .next (s.finish t) ∧ LinkRest s.start t ∧
        (t.port p).rxNext = (s.port p).rxNext) ∧
    (∀ a c n, (s.port p).retry = false →
      ∃ t, exec (.null p { ackseq := a, cclass := c, ccount := n }) s = .next (s.finish t) ∧ LinkRest s.start t ∧
        (t.port p).rxNext = (s.port p).rxNext) ∧
    (∀ a c n, (s.port p).retry = false → (s.port p).qFwd = [] → (s.port p).qCmp = [] → (s.port p).qCtl = [] →
      (s.port p).owed = [] → (s.port p).nak = false → (s.port p).ackDue = false →
      exec (.null p { ackseq := a, cclass := c, ccount := n }) s = .next (s.finish (s.start.setPort p
        ({ s.port p with replay := ackList (s.port p).replay a }.setCredit c ((s.port p).credit c + n)))))

/-- R316, R348, R397, R398, R404, R408, R412: a PREAD or PWRITE of a page that is no guest here is answered by PERR
code 2, of a page whose channel is not READY by code 3; one that finds a refresh episode, or an earlier request to its
page, waits; of a held guest page PREAD is answered by PCOMP with the line and PWRITE changes the enabled bytes of its
line. PCOMP and PERR end the request with their number and answer the access that waits; with no such request nothing
happens. The first FENCE of an update is noted, with the second FENCE_ACK is sent; the FENCE_ACK of the update in
progress ends it, any other does nothing. R407, R408, R410, R421: with no update in progress READ answers a route's
entry, WRITE changes one from or to an entry that is not valid, UPDATE of a valid route to a valid entry begins, and
any other change, or a change while pages are kept across the route, is refused with RESULT 1; while an update runs
the commands do nothing; an update without FENCE_ACK is forced. It rests in part on the model's own readings, log
entries 45, 48. -/
def Obligations.GuestsAndRoutes : Prop :=
  (∀ (s : State) (p : Nat) (l : LinkWord) (f : Flit), s.portUp p = true → plainLink l (s.port p) → (s.port p).gap = false →
    f.dst % 4096 = s.devId →
    (∀ gn i typ, (i = .pread p l f gn ∧ typ = 2) ∨ (i = .pwrite p l f gn ∧ typ = 3) →
      s.guestWaits f = true ∨ (s.scf.guestq.any fun e => decide (e.2.1.src = f.src ∧
        (flitPage e.2.1).1 = (flitPage f).1)) = true →
      ∃ t, exec i s = .next (s.finish t) ∧ t.scf.guestq = s.scf.guestq ++ [(p, { f with typ := typ }, gn)] ∧
        t.bays = s.bays ∧ t.ddr = s.ddr ∧ t.qm = s.qm ∧ t.scr = s.scr) ∧
    (s.guestWaits f = false →
      (s.scf.guestq.any fun e => decide (e.2.1.src = f.src ∧ (flitPage e.2.1).1 = (flitPage f).1)) = false →
      (s.guestPage f.src (flitPage f).1 = none → (∃ b, LinkRest s.start b ∧ exec (.pread p l f 0) s =
          .next (s.finish ((b.sendCmp { typ := 5, dst := f.src, src := s.devId, tag := f.tag, index := 2 }).pump p))) ∧
        (∃ b, LinkRest s.start b ∧ exec (.pwrite p l f 0) s =
          .next (s.finish ((b.sendCmp { typ := 5, dst := f.src, src := s.devId, tag := f.tag, index := 2 }).pump p)))) ∧
      (∀ g e, s.guestPage f.src (flitPage f).1 = some g → s.ddrErr (g * 65536 + (flitPage f).2) = some e →
        (∃ b, LinkRest s.start b ∧ exec (.pread p l f 0) s =
          .next (s.finish ((b.sendCmp { typ := 5, dst := f.src, src := s.devId, tag := f.tag, index := 3 }).pump p))) ∧
        (∃ b, LinkRest s.start b ∧ exec (.pwrite p l f 0) s =
          .next (s.finish ((b.sendCmp { typ := 5, dst := f.src, src := s.devId, tag := f.tag, index := 3 }).pump p)))) ∧
      (∀ g a, s.guestPage f.src (flitPage f).1 = some g → a = g * 65536 + (flitPage f).2 → s.ddrErr a = none →
        (∃ b, LinkRest s.start b ∧ exec (.pread p l f 0) s =
          .next (s.finish ((((b.ddrRead a 32).1.timed (chanOf a) 1).sendCmp {
          typ := 4, dst := f.src, src := s.devId, tag := f.tag,
          payload := wordsOf (b.ddrRead a 32).2.data ++ (if (b.ddrRead a 32).2.data = [] then []
            else [wd (((b.ddrRead a 32).2.bad.map fun i => 2 ^ i).foldl (· + ·) 0)]) }).pump p))) ∧
        (∃ b, LinkRest s.start b ∧ exec (.pwrite p l f 0) s =
          .next (s.finish ((((b.timed (chanOf a) 1).lineWrite (chanOf a) (a / 64)
          ((List.range 32).filterMap fun i => if bitAt (f.payload.getD 2 0#32) i then
            some (a % 64 + i, (bytesOf ((List.range 8).map fun i => f.payload.getD (8 + i) 0#32)).getD i 0#8) else none)
          f.poison).sendCmp { typ := 4, dst := f.src, src := s.devId, tag := f.tag }).pump p)))) ∧
      (∀ g a, s.guestPage f.src (flitPage f).1 = some g → a = g * 65536 + (flitPage f).2 → s.ddrErr a = none →
        (s.chan (chanOf a)).wq = [] → s.scf.upd = none → s.route f.src = p + 1 → (s.port p).qFwd = [] →
          (s.port p).qCmp = [] →
        (s.port p).qCtl = [] → (s.port p).owed = [] → (s.port p).nak = false → (s.port p).cCmp ≠ 0 →
          (s.port p).replay.length < 256 →
        (∀ ws, (s.chan (chanOf a)).marks = [] → (s.chan (chanOf a)).wild = false →
          ws = wordsOf ((List.range 32).map fun i => (s.chan (chanOf a)).mem.byte (a + i)) ++ [0#32] →
          ∃ t, exec (.pread p l f 0) s = .next (s.finish t) ∧
            (∃ w, t.out = [.flit p { typ := 4, dst := f.src, src := s.devId, tag := f.tag, payload := ws } w]) ∧
            t.ddr = s.ddr ∧ t.bays = s.bays ∧ t.qm = s.qm) ∧
        (∃ t, exec (.pwrite p l f 0) s = .next (s.finish t) ∧
          (∃ w, t.out = [.flit p { typ := 4, dst := f.src, src := s.devId, tag := f.tag } w]) ∧
          (∀ x, (t.chan (chanOf a)).see x =
            if x / 64 = a / 64 ∧ a % 64 ≤ x % 64 ∧ x % 64 < a % 64 + 32 ∧
              bitAt (f.payload.getD 2 0#32) (x % 64 - a % 64) = true then
              (bytesOf ((List.range 8).map fun i => f.payload.getD (8 + i) 0#32)).getD (x % 64 - a % 64) 0#8
            else (s.chan (chanOf a)).see x) ∧
          (∀ c, c ≠ chanOf a → t.chan c = s.chan c) ∧ t.bays = s.bays ∧ t.qm = s.qm))) ∧
    (∀ n, s.scf.reqs.find? (fun r => decide (r.tag = f.tag ∧ r.port = p)) = none →
      (∃ t, exec (.pcomp p l f n) s = .next (s.finish t) ∧ LinkRest s.start t) ∧
      (∃ t, exec (.perr p l f n) s = .next (s.finish t) ∧ LinkRest s.start t)) ∧
    (∀ r n, s.scf.reqs.find? (fun r => decide (r.tag = f.tag ∧ r.port = p)) = some r →
      (∃ b, LinkRest s.start b ∧ exec (.pcomp p l f n) s = .next (s.finish ((({ b with
        scf := { b.scf with reqs := s.scf.reqs.filter fun q => decide (q.tag ≠ f.tag) } } : State).remoteAnswer r {
          data := bytesOf ((List.range 8).map fun i => f.payload.getD i 0#32),
          bad := (List.range 8).filter fun i => bitAt (f.payload.getD 8 0#32) i } n).pump p))) ∧
      (∃ b, LinkRest s.start b ∧ exec (.perr p l f n) s = .next (s.finish ((({ b with
        scf := { b.scf with reqs := s.scf.reqs.filter fun q => decide (q.tag ≠ f.tag) } } : State).remoteAnswer r {
          data := zeros 32, err := some (errOf (f.index % 256)) } n).pump p))) ∧
      (∀ off size sg ea, r.kind = .load off size sg ea →
        ∃ t, exec (.pcomp p l f n) s = .next (s.finish t) ∧
          t.scf.reqs = s.scf.reqs.filter (fun q => decide (q.tag ≠ f.tag)) ∧
          t.bay r.bay = (((s.bay r.bay).served r.fid Outside.home).answerWith r.fid
            { data := bytesOf ((List.range 8).map fun i => f.payload.getD i 0#32),
              bad := ((List.range 8).filter fun i => bitAt (f.payload.getD 8 0#32) i).filter (· = off % 32 / 4) }
            (loadValue size sg ((bytesOf ((List.range 8).map fun i => f.payload.getD i 0#32)).drop (off % 32))) ea).arrive r.fid n ∧
          (∀ k, k ≠ r.bay → t.bay k = s.bay k) ∧ t.ddr = s.ddr ∧ t.qm = s.qm) ∧
      (∀ ea, r.kind = .store ea →
        ∃ t, exec (.perr p l f n) s = .next (s.finish t) ∧
          t.scf.reqs = s.scf.reqs.filter (fun q => decide (q.tag ≠ f.tag)) ∧
          t.bay r.bay = (((s.bay r.bay).served r.fid Outside.home).storeError ea).arrive r.fid n ∧
          (∀ k, k ≠ r.bay → t.bay k = s.bay k) ∧ t.ddr = s.ddr ∧ t.qm = s.qm)) ∧
    (∀ fw, s.scf.fences.find? (fun e => decide (e.src = f.src ∧ e.num = f.tag)) = none →
      ∃ t, exec (.fence p l f fw) s = .next (s.finish t) ∧
        t.scf.fences = s.scf.fences.filter (fun e => !decide (e.src = f.src ∧ e.num = f.tag)) ++
          [{ src := f.src, num := f.tag, fwd := fw, cmp := !fw }] ∧ t.bays = s.bays ∧ t.ddr = s.ddr ∧ t.qm = s.qm) ∧
    (∀ fw e, s.scf.fences.find? (fun e => decide (e.src = f.src ∧ e.num = f.tag)) = some e → (e.fwd || fw) = true →
      (e.cmp || !fw) = true → ∃ b, LinkRest s.start b ∧ exec (.fence p l f fw) s = .next (s.finish ((({ b with
        scf := { b.scf with fences := s.scf.fences.filter fun e => !decide (e.src = f.src ∧ e.num = f.tag) } } : State).sendCmp {
          typ := 7, dst := f.src, src := s.devId, tag := f.tag }).pump p))) ∧
    (∀ u, s.scf.upd = some u → u.num = f.tag → u.dev = f.src →
      (∃ b, LinkRest s.start b ∧ exec (.fenceAck p l f) s = .next (s.finish ((b.updateEnds false).pump p))) ∧
      (u.held = [] → ∃ t, exec (.fenceAck p l f) s = .next (s.finish t) ∧ t.scf.upd = none ∧ t.scf.rtres = 0 ∧
        t.scf.routes = tsetD 0 s.scf.routes u.dev (u.port + 8) ∧ t.bays = s.bays ∧ t.ddr = s.ddr)) ∧
    ((∀ u, s.scf.upd = some u → ¬ (u.num = f.tag ∧ u.dev = f.src)) →
      ∃ t, exec (.fenceAck p l f) s = .next (s.finish t) ∧ LinkRest s.start t)) ∧
  (∀ (s : State) (d old : Nat), d = fld (s.reg 0x78010) 0 12 → old = tgetD 0 s.scf.routes d →
    (s.reachable 0x78018 = true → s.scf.upd.isSome = true →
      ∀ i, i = .rtRead ∨ i = .rtWrite ∨ i = .update → exec i s = .next (s.finish s.start)) ∧
    (s.reachable 0x78018 = true → s.scf.upd = none →
      (∃ t, exec .rtRead s = .next (s.finish t) ∧ t.scf = { s.scf with rtres := 0 } ∧
        t.reg 0x78014 = wd (old / 8 * 2 ^ 31 + old % 8) ∧ t.bays = s.bays) ∧
      (old < 8 ∨ s.rtEntry < 8 → old = s.rtEntry ∨ s.guestsWith d = false →
        exec .rtWrite s = .next (s.finish { s.start with scf := { s.scf with
          routes := tsetD 0 s.scf.routes d s.rtEntry, rtres := 0 } })) ∧
      ((8 ≤ old ∧ 8 ≤ s.rtEntry) ∨ (old ≠ s.rtEntry ∧ s.guestsWith d = true) →
        exec .rtWrite s = .next (s.finish { s.start with scf := { s.scf with rtres := 1 } })) ∧
      (8 ≤ old → 8 ≤ s.rtEntry → old = s.rtEntry ∨ s.guestsWith d = false →
        ∃ t, exec .update s = .next (s.finish t) ∧
          t.scf.upd = some ⟨d, s.rtEntry - 8, old - 8, (s.scf.fenceNum + 1) % 65536, []⟩ ∧
          t.scf.routes = s.scf.routes ∧ t.bays = s.bays ∧ t.qm = s.qm) ∧
      (old < 8 ∨ s.rtEntry < 8 ∨ (old ≠ s.rtEntry ∧ s.guestsWith d = true) →
        exec .update s = .next (s.finish { s.start with scf := { s.scf with rtres := 1 } }))) ∧
    (∀ u, s.scf.upd = some u →
      exec .updateForced s = .next (s.finish (s.start.updateForced.pathRestored u.dev)) ∧
      (u.held = [] → ∃ t, exec .updateForced s = .next (s.finish t) ∧ t.scf.upd = none ∧ t.scf.rtres = 2 ∧
        t.scf.routes = tsetD 0 s.scf.routes u.dev (u.port + 8) ∧ t.sq 0x78070 = (s.sq 0x78070).event 1 ∧ t.bays = s.bays)) ∧
    (s.scf.upd = none → exec .updateForced s = .next (s.finish s.start)))

/-- R389, R391, R392: EN written 1 at a DISABLED port starts training, EN written 0 ends in DISABLED from any state; a
training attempt fails with the cause of its step, of a width that no set of lanes allows or of an identifier that
clashes, or ends UP with what the peer told, on the widest set of lanes that both ends and SCFp_CTL permit; a new
attempt follows a failed one. -/
def Obligations.PortTraining : Prop :=
  ∀ (s : State) (p : Nat), p < 8 →
    (∀ v, s.reachable (scfBase p) = true → bitAt (s.reg (scfBase p)) 0 = false → (s.port p).state = 0 →
      ∃ t, exec (.portEnable p v) s = .next (s.finish t) ∧ t.port p = { s.port p with state := 1, attempt := true } ∧
        bitAt (t.reg (scfBase p)) 0 = true ∧ (∀ q, q ≠ p → t.port q = s.port q) ∧ t.bays = s.bays) ∧
    (∀ v, s.reachable (scfBase p) = true → bitAt (s.reg (scfBase p)) 0 = true → (s.port p).state ≠ 0 →
      ∃ t, exec (.portDisable p v) s = .next (s.finish t) ∧ (t.port p).state = 0 ∧ (t.port p).dcause = (s.port p).dcause ∧
        t.bays = s.bays ∧ t.ddr = s.ddr ∧ t.qm = s.qm) ∧
    (∀ n dev port lanes width (fits : Nat × Nat → Prop),
      (∀ e, fits e ↔ e ∈ [(1, 15), (2, 3), (2, 12), (3, 1), (3, 2), (3, 4), (3, 8)] ∧
        fld (s.reg (scfBase p)) 4 2 + 1 ≤ e.1 ∧
        width % 4 ≤ e.1 ∧ e.2 &&& ((lanes % 16) &&& fld (s.reg (scfBase p)) 8 4) = e.2) →
      ((s.hw.portHere p && s.on 19) = true → (s.port p).state = 1 → (s.port p).attempt = true →
        (∀ k, (k = 7 ∧ fld (s.reg (scfBase p)) 8 4 = 0) ∨
            (fld (s.reg (scfBase p)) 8 4 ≠ 0 ∧ n ≠ 0 ∧ k = if n = 1 then 7 else if n = 5 then 4 else 3) ∨
            (fld (s.reg (scfBase p)) 8 4 ≠ 0 ∧ n = 0 ∧ (∀ e, ¬ fits e) ∧ k = 3) ∨
            (fld (s.reg (scfBase p)) 8 4 ≠ 0 ∧ n = 0 ∧ (∃ e, fits e) ∧ dev % 4096 = s.devId ∧ k = 4) →
          exec (.linkTrainingDone p n dev port lanes width) s = .next (s.finish (s.start.setPort p
            { s.port p with attempt := false, dcause := k }))) ∧
        (fld (s.reg (scfBase p)) 8 4 ≠ 0 → n = 0 → (∃ e, fits e) → dev % 4096 ≠ s.devId →
          ∃ t, exec (.linkTrainingDone p n dev port lanes width) s = .next (s.finish t) ∧ (t.port p).state = 2 ∧
            (t.port p).peerDev = dev % 4096 ∧ (t.port p).peerPort = port % 8 ∧ (t.port p).rxNext = 0 ∧
            fits ((t.port p).width, (t.port p).lanes) ∧
            (∀ e, fits e → (t.port p).width < e.1 ∨ (t.port p).width = e.1 ∧ (t.port p).lanes ≤ e.2) ∧
            t.sq (scfBase p + 0x20) = (s.sq (scfBase p + 0x20)).event 0 ∧ t.bays = s.bays)) ∧
      (¬ ((s.hw.portHere p && s.on 19) = true ∧ (s.port p).state = 1 ∧ (s.port p).attempt = true) →
        exec (.linkTrainingDone p n dev port lanes width) s = .next (s.finish s.start))) ∧
    ((s.port p).state = 1 → (s.port p).attempt = false →
      exec (.trainingRetry p) s = .next (s.finish (s.start.setPort p { s.port p with attempt := true }))) ∧
    (¬ ((s.port p).state = 1 ∧ (s.port p).attempt = false) → exec (.trainingRetry p) s = .next (s.finish s.start))

/-- R400, R402–R406, R414: loss of signal, 100 µs without credit and 8 µs of retry take an UP port down with their
cause; a flit with a bad CRC opens a gap, once; a replay timeout starts a retry or fails the one in progress, and the
sixteenth failure in a row takes the port down; an adaptation slice raises ADAPT and tags the accesses that it delays. -/
def Obligations.PortErrors : Prop :=
  ∀ (s : State) (p : Nat),
    (s.portUp p = true →
      exec (.lossOfSignal p) s = .next (s.finish (s.start.declareDown p 6)) ∧
      ((∃ c, c < 3 ∧ (s.port p).queue c ≠ [] ∧ (s.port p).credit c = 0) →
        exec (.creditStall p) s = .next (s.finish (s.start.declareDown p 5))) ∧
      ((s.port p).retry = true ∨ (s.port p).gap = true →
        exec (.retryWindow p) s = .next (s.finish (s.start.declareDown p 2))) ∧
      (∀ (u : State) n, ((u.declareDown p n).port p).state = 3 ∧ ((u.declareDown p n).port p).dcause = n ∧
        (u.declareDown p n).sq (scfBase p + 0x20) = (u.sq (scfBase p + 0x20)).event 1 ∧
        (u.declareDown p n).bays = u.bays ∧ (u.declareDown p n).ddr = u.ddr ∧ (u.declareDown p n).qm = u.qm) ∧
      (∃ t, exec (.flitCrcFailure p) s = .next (s.finish t) ∧ (t.port p).gap = true ∧
        (t.port p).rxNext = (s.port p).rxNext ∧
        (t.port p).state = 2 ∧ t.ddr = s.ddr ∧ t.qm = s.qm ∧
        ((s.port p).gap = true ∨ (∀ r ∈ s.scf.reqs, r.port ≠ p) → t.bays = s.bays)) ∧
      ((s.port p).replay ≠ [] → (s.port p).retry = false ∨ (s.port p).fails < 15 →
        ∃ t, exec (.replayTimeout p) s = .next (s.finish t) ∧ (t.port p).retry = true ∧ (t.port p).state = 2 ∧
          t.sq (scfBase p + 0x20) = (s.sq (scfBase p + 0x20)).event 2 ∧ t.ddr = s.ddr ∧ t.qm = s.qm ∧
          (∀ k, (t.bay k).pipe.flights = (s.bay k).pipe.flights.map (tagged s k p 12))) ∧
      ((s.port p).replay ≠ [] → (s.port p).retry = true → 15 ≤ (s.port p).fails →
        ∃ t, exec (.replayTimeout p) s = .next (s.finish t) ∧ (t.port p).state = 3 ∧ (t.port p).dcause = 1 ∧
          t.sq (scfBase p + 0x20) = (s.sq (scfBase p + 0x20)).event 1 ∧ t.ddr = s.ddr ∧ t.qm = s.qm) ∧
      ((s.port p).replay = [] → exec (.replayTimeout p) s = .next (s.finish s.start)) ∧
      (bitAt (s.reg (scfBase p)) 12 = true →
        ∃ t, exec (.adaptSlice p) s = .next (s.finish t) ∧
          t = { s.start.event (scfBase p + 0x20) 3 with bays := t.bays } ∧
          (∀ k, (t.bay k).pipe.flights = (s.bay k).pipe.flights.map (tagged s k p 13)) ∧
          ((∀ r ∈ s.scf.reqs, r.port ≠ p) → t.bays = s.bays)) ∧
      (bitAt (s.reg (scfBase p)) 12 = false → exec (.adaptSlice p) s = .next (s.finish s.start))) ∧
    (s.portUp p = false →
      exec (.lossOfSignal p) s = .next (s.finish s.start) ∧ exec (.creditStall p) s = .next (s.finish s.start) ∧
      exec (.retryWindow p) s = .next (s.finish s.start) ∧ exec (.flitCrcFailure p) s = .next (s.finish s.start) ∧
      exec (.replayTimeout p) s = .next (s.finish s.start) ∧ exec (.adaptSlice p) s = .next (s.finish s.start))

/-- R393, R416–R418, R421: device time as written at the grandmaster, the identifier only while no port trains or is
up; a follower's exchange is stamped and steps or slews the time by the offset that its four stamps give, and one that
a retry meets is skipped; the upstream device answers with its stamps; path watch entries are read and written whole.
The operands give the part of a microsecond that has passed (log entry 5). It rests in part on the model's own
readings, log entry 47. -/
def Obligations.DeviceTime : Prop :=
  ∀ (s : State),
    (∀ v, s.reachable 0x78034 = true →
      exec (.scfTset v) s = .next (s.finish (if fld (s.reg 0x78020) 0 2 = 1 then { s.start with scf := { s.scf with
        time := (v.toNat * 2 ^ 32 + s.scf.tsetLo.toNat) * 65536 } } else s.start))) ∧
    (∀ v, s.reachable 0x78000 = true →
      ((∀ p, p < 8 → (s.port p).state = 0 ∨ (s.port p).state = 3) →
        exec (.scfDevidWrite v) s = .next (s.finish (s.start.setReg 0x78000
          ((s.reg 0x78000 &&& 0xFFFFF000#32) ||| (v &&& 0xFFF#32))))) ∧
      (∀ p, p < 8 → (s.port p).state = 1 ∨ (s.port p).state = 2 → exec (.scfDevidWrite v) s = .next (s.finish s.start))) ∧
    (∀ p sub u, p = fld (s.reg 0x78020) 4 3 → fld (s.reg 0x78020) 0 2 = 2 → s.on 19 = true →
      u = (if s.scf.t1 = none then s.start else s.start.tsyncSkip) →
      (s.portUp p = true → (s.port p).retry = false → (s.port p).gap = false →
        exec (.tsyncExchange sub) s = .next (s.finish (({ u with scf := { u.scf with
          t1 := some ((s.scf.time + sub % 65536000) % 2 ^ 80) } } : State).emit
          (.flit p { typ := 10, dst := (s.port p).peerDev, src := s.devId } ((s.port p).link 0))))) ∧
      (s.portUp p = false ∨ (s.port p).retry = true ∨ (s.port p).gap = true →
        exec (.tsyncExchange sub) s = .next (s.finish u.tsyncSkip)) ∧
      u.tsyncSkip.scf.t1 = none ∧ u.tsyncSkip.scf.skipped = u.scf.skipped + 1 ∧ u.tsyncSkip.scf.good = 0 ∧
      u.tsyncSkip.scf.locked = (u.scf.locked && decide (u.scf.skipped + 1 < 8))) ∧
    (∀ sub, fld (s.reg 0x78020) 0 2 ≠ 2 ∨ s.on 19 = false → exec (.tsyncExchange sub) s = .next (s.finish s.start)) ∧
    (∀ p l sub2 turn t2 t3, s.portUp p = true → plainLink l (s.port p) → t2 = (s.scf.time + sub2 % 65536000) % 2 ^ 80 →
      t3 = (t2 + turn) % 2 ^ 80 →
      ∃ t, exec (.tsyncReq p l sub2 turn) s = .next (s.finish t) ∧ LinkRest s.start t ∧
        ∃ w, t.out = [.flit p { typ := 11, dst := (s.port p).peerDev, src := s.devId, payload :=
          [wd t2, wd (t2 / 2 ^ 32), wd (t2 / 2 ^ 64), wd t3, wd (t3 / 2 ^ 32), wd (t3 / 2 ^ 64)] } w]) ∧
    (∀ p l t1 t2 t3 sub4 t4 u (delay off : Int), s.portUp p = true → u = s.start.linkWord p l →
      (u.scf.t1 = some t1 → p = fld (u.reg 0x78020) 4 3 → fld (u.reg 0x78020) 0 2 = 2 →
        t4 = (u.scf.time + sub4 % 65536000) % 2 ^ 80 →
        delay = ((Int.ofNat t4 - Int.ofNat t1) - (Int.ofNat t3 - Int.ofNat t2)) / 2 →
          off = Int.ofNat t2 - Int.ofNat t1 - delay →
        ∃ t, exec (.tsyncRsp p l t2 t3 sub4) s = .next (s.finish t) ∧ t.scf.t1 = none ∧ t.scf.skipped = 0 ∧
          t.bays = u.bays ∧
          (t.port p).flight = (if (delay - 50 * 65536) / 4096 < 0 then 0 else ((delay - 50 * 65536) / 4096).toNat % 65536) ∧
          ((off < -65536000 ∨ 65536000 < off) → t.scf.time = ((Int.ofNat u.scf.time + off) % (2 ^ 80 : Int)).toNat ∧
            t.scf.locked = false ∧ t.sq 0x78070 = (u.sq 0x78070).event 2) ∧
          (-65536000 ≤ off → off < -819200 → t.scf.time = ((Int.ofNat u.scf.time - 819200) % (2 ^ 80 : Int)).toNat) ∧
          (819200 < off → off ≤ 65536000 → t.scf.time = ((Int.ofNat u.scf.time + 819200) % (2 ^ 80 : Int)).toNat) ∧
          (-819200 ≤ off → off ≤ 819200 → t.scf.time = ((Int.ofNat u.scf.time + off) % (2 ^ 80 : Int)).toNat) ∧
          (-524288 ≤ off → off ≤ 524288 → t.scf.good = u.scf.good + 1 ∧
            t.scf.locked = (u.scf.locked || decide (8 ≤ u.scf.good + 1)))) ∧
      (u.scf.t1 = none ∨ p ≠ fld (u.reg 0x78020) 4 3 ∨ fld (u.reg 0x78020) 0 2 ≠ 2 →
        exec (.tsyncRsp p l t2 t3 sub4) s = .next (s.finish u)) ∧
      (plainLink l (s.port p) → u = s.start.setPort p (s.port p))) ∧
    (∀ p l t2 t3 sub, s.portUp p = false → exec (.tsyncRsp p l t2 t3 sub) s = .next (s.finish s.start) ∧
      exec (.tsyncReq p l t2 t3) s = .next (s.finish s.start)) ∧
    (∀ e, e = fld (s.reg 0x78040) 0 6 → s.reachable 0x78068 = true →
      (∃ t, exec .pwRead s = .next (s.finish t) ∧ t.scf = s.scf ∧
        (∀ i, i < 9 → t.reg (0x78044 + 4 * i) = tgetD 0#32 s.scf.watch (e * 9 + i)) ∧ t.bays = s.bays) ∧
      (∃ t, exec .pwWrite s = .next (s.finish t) ∧ t.regs = s.regs ∧
        (∀ i, i < 9 → tgetD 0#32 t.scf.watch (e * 9 + i) = s.reg (0x78044 + 4 * i)) ∧
        (∀ j i, j ≠ e → i < 9 → tgetD 0#32 t.scf.watch (j * 9 + i) = tgetD 0#32 s.scf.watch (j * 9 + i)) ∧ t.bays = s.bays))

/-- R39, R40, R261, R422, R426–R430, R433: a BAR0 request of up to 64 bytes is its dwords' register accesses in
ascending offset, a dword without all its byte enables a narrower access; a longer one is Unsupported and raises
BIGREQ; a BAR4 request, or a read of a doorbell page, takes its place at the target its offset names, a poisoned write
with its data poisoned; a write longer than Max_Payload_Size is Malformed; in D3hot every request is Unsupported and
nothing else changes; each error sets its AER bit. R422, R423, R425, R431–R433: the link comes up at the rate and
width common to both ends, at 2.5 GT/s x1 in shoring mode; a configuration read shows identity, BARs and the MSI-X
capability, a write changes what is writable and moves the endpoint to D3hot and back; an error sets its AER bit and
HB_STAT.AER, and raises the record of its kind; MSI-X Enable rising sends for each asserted enabled source; a vector's
message is sent, kept in the PBA while masked and sent once at unmask, and lost while MSI-X Enable is 0. The places of
the configuration registers are the model's (log entry 50). It rests in part on the model's own readings, log entries
50, 51. -/
def Obligations.HostLink : Prop :=
  (∀ (s : State), s.hb.up = true →
    (s.wideHeld = false → s.hb.d3 = false → ∀ off n fbe lbe, off % 4 = 0 → 0 < n → off % 4096 + 4 * n ≤ 4096 →
      off + 4 * n ≤ 0x4000000 →
      (∀ data : List Word, n ≤ 16 → data.length = n →
        exec (.bar0Request true off n fbe lbe data false) s = .next (s.finish
          ((List.range n).foldl (fun t i => if (if i = 0 then fbe % 16 else if i + 1 = n then lbe % 16 else 15) = 15 then
            t.regWrite .host (off + 4 * i) (data.getD i 0#32) else t.narrowWrite (off + 4 * i)) s.start))) ∧
      (∀ data p (T : Nat → State), n ≤ 16 → T 0 = s.start →
        (∀ i, T (i + 1) = if enables i n fbe lbe = 15 then ((T i).regRead .host (off + 4 * i)).1 else T i) →
        exec (.bar0Request false off n fbe lbe data p) s =
          .next (s.finish ((T n).emit (.completion 0 (bytesOf ((List.range n).map
          fun i => if enables i n fbe lbe = 15 then ((T i).regRead .host (off + 4 * i)).2
            else enabled (enables i n fbe lbe) ((T i).regPeek .host (off + 4 * i)))) [])))) ∧
      (∀ data p, 16 < n → ∃ t, exec (.bar0Request false off n fbe lbe data p) s = .next (s.finish t) ∧
        (∀ j, j ∈ t.hb.aer ↔ j = 15 ∨ j ∈ s.hb.aer) ∧ t.sq 0x84020 = (((s.sq 0x84020).event 2).event 3).event 1 ∧
        t.regs.words = s.regs.words ∧ t.bays = s.bays ∧ t.scr = s.scr ∧
        ∃ m, t.out = m ++ [.completion 1 [] []] ∧ ∀ o ∈ m, ∃ c, o = .errorMessage c) ∧
      (∀ data, 16 < n → 4 * n ≤ s.hb.mps → ∃ t, exec (.bar0Request true off n fbe lbe data false) s = .next (s.finish t) ∧
        State.reported 15 (s.start.event 0x84020 2) t) ∧
      (∀ data, n ≤ 16 → ∃ t, exec (.bar0Request true off n fbe lbe data true) s = .next (s.finish t) ∧
        State.reported 7 s.start t)) ∧
    (s.hb.d3 = true →
      (∀ b off n, ∃ t, exec (.bar4Read ⟨b, off⟩ n) s = .next (s.finish t) ∧
        (∀ j, j ∈ t.hb.aer ↔ j = 15 ∨ j ∈ s.hb.aer) ∧ t.sq 0x84020 = ((s.sq 0x84020).event 3).event 1 ∧ t.scr = s.scr ∧
        t.bays = s.bays ∧ t.regs.words = s.regs.words ∧
        ∃ m, t.out = m ++ [.completion 1 [] []] ∧ ∀ o ∈ m, ∃ c, o = .errorMessage c) ∧
      (∀ off data p r, ∃ t, exec (.bar4Write off data p r) s = .next (s.finish t) ∧ State.reported 15 s.start t) ∧
      (s.wideHeld = false → ∀ off k fbe lbe data p, ∃ t, exec (.bar0Request true off k fbe lbe data p) s =
        .next (s.finish t) ∧
        State.reported 15 s.start t)) ∧
    (s.hb.d3 = false → ∀ off n w t, w = s.reg (0x84100 + 4 * (off / 2 ^ 28 % 64)) → t = fld w 0 20 → off % 4096 + n ≤ 4096 →
      ∀ tgt : Target,
        ((fld w 30 2 = 1 ∧ t * 2 ^ 28 + off % 2 ^ 28 < s.scr.hostRange.2 * 65536 ∧
            tgt = .memory (s.scr.hostRange.1 * 65536 + t * 2 ^ 28 + off % 2 ^ 28)) ∨
          (fld w 30 2 = 2 ∧ tgt = .table t (off % 2 ^ 28)) ∨
          (fld w 30 2 = 3 ∧ off % 2 ^ 28 < 0x3000000 ∧ tgt = .staging (off % 2 ^ 28)) ∨
          (tgt = .unmapped ∧ (fld w 30 2 = 0 ∨ (fld w 30 2 = 3 ∧ 0x3000000 ≤ off % 2 ^ 28) ∨
            (fld w 30 2 = 1 ∧ s.scr.hostRange.2 * 65536 ≤ t * 2 ^ 28 + off % 2 ^ 28)))) →
        exec (.bar4Read ⟨false, off⟩ n) s = .next (s.finish { s.start with scr := { s.scr with outer := s.scr.outer ++
          [{ master := 0, tgt := tgt, addr := off, write := false, len := n }] } }) ∧
        exec (.bar4Read ⟨true, off⟩ n) s = .next (s.finish { s.start with scr := { s.scr with outer := s.scr.outer ++
          [{ master := 0, tgt := .doorbell (off % 2 ^ 28), addr := off, write := false, len := n }] } }) ∧
        ∀ data r, data.length = n → 0 < n →
          (n ≤ s.hb.mps →
            exec (.bar4Write off data false r) s =
              .next (s.finish { s.start with scr := { s.scr with outer := s.scr.outer ++
              [{ master := 0, tgt := tgt, addr := off, write := true, len := n, data := data }] } }) ∧
            ∃ u, State.reported 7 s.start u ∧
              exec (.bar4Write off data true r) s = .next (s.finish { u with scr := { s.scr with outer := s.scr.outer ++
              [{ master := 0, tgt := tgt, addr := off, write := true, len := n, data := data, poison := true }] } })) ∧
          (s.hb.mps < n → ∀ p, ∃ u, exec (.bar4Write off data p r) s = .next (s.finish u) ∧ State.reported 13 s.start u)) ∧
    (∀ hdr, ∃ t, exec (.malformedTlp hdr) s = .next (s.finish t) ∧ State.reported 13 s.start t)) ∧
  (∀ (s : State),
    (∀ gen width c, s.on 20 = true → s.rst.reach < 3 → s.hb.up = false → c = s.reg 0x84000 →
      ∀ g w, g = (if fld c 0 4 = 0 ∨ 5 < fld c 0 4 then 5 else fld c 0 4) →
        w = (if fld c 4 3 = 1 then 8 else if fld c 4 3 = 2 then 4 else if fld c 4 3 = 3 then 2 else if fld c 4 3 =
          4 then 1 else 16) →
        exec (.pcieLinkUp gen width) s = .next (s.finish { s.start with hb :=
          { s.hb with up := true, gen := if s.rst.shored then 1 else min g gen, width := if s.rst.shored then 1 else min w width } })) ∧
    (s.hb.up = true → ∀ o v,
      (exec (.d3hotTransition ⟨false, o, v⟩) s =
        .next (s.finish (s.start.emit (.completion 0 (bytesOf [s.pciRead (o / 4 * 4)]) []))) ∧
        s.pciRead 0 = wd (s.hw.part * 2 ^ 16 + 0x1F4D) ∧ s.pciRead 8 = wd (0x12000000 + s.hw.stepping % 256) ∧
        s.pciRead 0x50 = wd (0x11 + 0x70 * 2 ^ 8 + 2047 * 2 ^ 16 + nbit s.hb.fmask * 2 ^ 30 + nbit s.hb.msixOn * 2 ^ 31) ∧
        s.pciRead 0x54 = 0x88000#32 ∧ s.pciRead 0x58 = 0x85000#32) ∧
      (o / 4 * 4 = 0x44 → fld v 0 2 = 3 →
        exec (.d3hotTransition ⟨true, o, v⟩) s = .next (s.finish { s.start with hb := { s.hb with d3 := true } })) ∧
      (o / 4 * 4 = 0x44 → fld v 0 2 = 0 →
        exec (.d3hotTransition ⟨true, o, v⟩) s = .next (s.finish (if s.hb.d3 = true ∧ s.hb.msixOn = true then
          s.hb.pendingV.foldl State.unmasked { s.start with hb := { s.hb with d3 := false } } else { s.start with hb := { s.hb with d3 := false } }))) ∧
      (o / 4 * 4 = 0x104 ∨ o / 4 * 4 = 0x110 → ∃ t, exec (.d3hotTransition ⟨true, o, v⟩) s = .next (s.finish t) ∧
        (∀ j, j ∈ t.hb.aer ↔ j ∈ s.hb.aer ∧ ¬ ((7 ≤ j ↔ o / 4 * 4 = 0x104) ∧ bitAt v (aerBit j) = true)) ∧ t.scr = s.scr ∧
          t.regs = s.regs ∧ t.bays = s.bays) ∧
      (o / 4 * 4 ≠ 0x44 → o / 4 * 4 ≠ 0x50 → o / 4 * 4 ≠ 0x104 → o / 4 * 4 ≠ 0x110 →
        ∃ t, exec (.d3hotTransition ⟨true, o, v⟩) s = .next (s.finish t) ∧
          t = { s.start with hb := { s.hb with cfg := t.hb.cfg } } ∧
          t.hb.pci (o / 4 * 4) = (s.hb.pci (o / 4 * 4) &&& ~~~pciMask (o / 4 * 4)) ||| (v &&& pciMask (o / 4 * 4)) ∧
          ∀ a, a ≠ o / 4 * 4 → t.hb.pci a = s.hb.pci a)) ∧
    (∀ k hdr, k < 17 → s.on 20 = true → s.rst.reach < 3 →
      ∃ t, exec (.aerError k hdr) s = .next (s.finish t) ∧ (∀ j, j ∈ t.hb.aer ↔ j = k ∨ j ∈ s.hb.aer) ∧
        t.sq 0x84020 = (s.sq 0x84020).event 3 ∧ t.scr = s.scr ∧
        (k ≠ 16 → State.reported k s.start t) ∧ (8 ≤ k → k < 16 → t.bg = s.bg) ∧
        ((k < 8 ∨ k = 16) → s.bg.lost = 0 → s.bg.held.length < 64 → fld (s.reg 0x90000) 0 8 = 0 →
          t.bg.held.length = s.bg.held.length + 1 ∧
          t.sq 0x90010 = (s.sq 0x90010).event (if k < 7 then 0 else if k = 7 then 1 else 3))) ∧
    (s.hb.up = true →
      (∀ mask, exec (.msixEnable false mask) s =
        .next (s.finish { s.start with hb := { s.hb with msixOn := false, fmask := mask } })) ∧
      (∀ mask u x, u = { s.start with hb := { s.hb with msixOn := true, fmask := mask } } →
        x = (if s.hb.msixOn = true then u else (([0, 1, 2, 3].filter s.sourceOut).filterMap s.sourceVec).foldl State.signal u) →
        exec (.msixEnable true mask) s = .next (s.finish (x.hb.pendingV.foldl State.unmasked x)) ∧
        (s.hb.pba = [] → x.hb.pendingV.foldl State.unmasked x = x))) ∧
    (∀ v, (s.hb.msixOn = false → s.signal v = s) ∧
      (s.hb.msixOn = true → (s.hb.d3 || s.hb.fmask || bitAt (s.hb.entry (4 * v + 3)) 0) = true →
        s.signal v = { s with hb := { s.hb with pba := tsetD false s.hb.pba v true } }) ∧
      (s.hb.msixOn = true → (s.hb.d3 || s.hb.fmask || bitAt (s.hb.entry (4 * v + 3)) 0) = false →
        s.signal v = s.emit (.msix v ((s.hb.entry (4 * v)).toNat + (s.hb.entry (4 * v + 1)).toNat * 2 ^ 32) (s.hb.entry (4 * v + 2))))) ∧
    (∀ v, v < 2048 → s.reachable (0x8800C + 16 * v) = true →
      ∃ t, exec (.msixUnmask v) s = .next (s.finish t) ∧ t.hb.entry (4 * v + 3) = 0#32 ∧ (∀ i, i ≠ 4 * v + 3 →
        t.hb.entry i = s.hb.entry i) ∧
        t.bays = s.bays ∧ t.scr = s.scr ∧ t.regs = s.regs ∧
        (s.hb.d3 = true ∨ s.hb.fmask = true ∨ tgetD false s.hb.pba v = false → t.hb.pba = s.hb.pba ∧ t.out = [] ∧
          t.qm = s.qm) ∧
        (s.hb.d3 = false → s.hb.fmask = false → tgetD false s.hb.pba v = true → s.hb.msixOn = true →
          t.hb.pba = tsetD false s.hb.pba v false ∧
          t.out = [.msix v ((s.hb.entry (4 * v)).toNat + (s.hb.entry (4 * v + 1)).toNat * 2 ^ 32) (s.hb.entry (4 * v + 2))] ∧
          ∀ n, n < 256 → t.ring n = if (s.ring n).masked = true ∧ fld (s.hrCfg n) 12 11 = v then
            { s.ring n with masked := false, window := decide (fld (s.hrCfg n) 24 8 ≠ 0) } else s.ring n)))

/-- R435–R441: a good frame becomes one message of its timestamp, length and first 240 bytes for the lowest binding
that takes it, or for the default queue, or is dropped and counted; a MAC takes the oldest message of the highest
class, sends it padded to 60 bytes with its FCS and frees it, or frees a malformed one unsent; losing the link frees
the frame in transmission unsent; EN trains and stops the MAC. It rests in part on the model's own readings, log entry
50. -/
def Obligations.EthFrames : Prop :=
  ∀ (s : State) (m : Nat), s.macHere m = true →
    ((s.mac m).state = 2 →
      (∀ f good t, (good = false ∨ f.length < 60 ∨ 9212 < f.length) →
        exec (.ethFrameReceive m f good t) s =
          .next (s.finish ((s.start.bump (ethBase m + 0x48)).event (ethBase m + 0x20) 2))) ∧
      (∀ f t, 60 ≤ f.length → f.length ≤ 9212 →
        (∀ n q strict, chosen s m f n q strict → (strict = false ∨ f.length ≤ 240) →
          ∀ r, r = s.start.commitNow q (.eth (64 * m + n))
              (frameWords (stampWith ((s.scf.time + t % 65536000) % 2 ^ 80) (s16 (s.reg (ethBase m + 0x14)) 0)) f) →
          exec (.ethFrameReceive m f true t) s =
            .next (s.finish (if r.2 = 0 then r.1.bump (ethBase m + 0x40) else r.1.rxDrop m))) ∧
        ((∃ n q, chosen s m f n q true ∧ 240 < f.length) ∨
            ((∀ k, k < 63 → s.bindingTakes m k (frameType f) = false) ∧ bitAt (s.reg (ethBase m + 0x10)) 31 = false) →
          exec (.ethFrameReceive m f true t) s =
            .next (s.finish ((s.start.bump (ethBase m + 0x48)).event (ethBase m + 0x20) 2))) ∧
        ∀ st, (frameWords st f).length = 16 * ceilDiv (16 + min f.length 240) 64) ∧
      (s.qmRuns = true → (s.mac m).tx = none → ∀ q g c, s.nextToSend m = some (q, g, c) →
        (∀ u, u = s.start.setQueue q { s.queue q with msgs := (s.queue q).msgs.tail, away := (s.queue q).away + g.cells } →
          (14 ≤ sendLength g ∧ sendLength g ≤ 240 ∧ ceilDiv (16 + sendLength g) 64 ≤ g.cells →
            exec (.ethTransmit m) s = .next (s.finish (u.setMac m { s.mac m with tx := some { queue := q, msg := g, cls := c } }))) ∧
          (¬ (14 ≤ sendLength g ∧ sendLength g ≤ 240 ∧ ceilDiv (16 + sendLength g) 64 ≤ g.cells) →
            exec (.ethTransmit m) s = .next (s.finish (((u.freeAway q g).bump (ethBase m + 0x58)).event (ethBase m + 0x20) 3)))) ∧
        (∃ x, (q, x) ∈ s.qm.queues ∧ x.msgs.head? = some g ∧ x.state = 1 ∧ x.bind = 3 ∧ x.target = 8 * m + c) ∧
        ∀ j y h, (j, y) ∈ s.qm.queues → y.msgs.head? = some h → y.state = 1 → y.bind = 3 → y.target / 8 = m →
          y.target % 8 < c ∨ (y.target % 8 = c ∧ g.commit ≤ h.commit)) ∧
      (∃ t, exec (.ethLinkDown m) s = .next (s.finish t) ∧ (t.mac m).state = 1 ∧ (t.mac m).tx = none ∧ t.bays = s.bays ∧
        t.scr = s.scr ∧
        t.sq (ethBase m + 0x20) = if (s.mac m).tx =
          none then (s.sq (ethBase m + 0x20)).event 1 else ((s.sq (ethBase m + 0x20)).event 3).event 1)) ∧
    ((s.mac m).state ≠ 2 ∨ (s.mac m).tx ≠ none ∨ s.qmRuns = false ∨ s.nextToSend m = none →
      exec (.ethTransmit m) s = .next (s.finish s.start)) ∧
    (∀ x t f p u, (s.mac m).tx = some x → f = ((bytesOf x.msg.words).drop 16).take (sendLength x.msg) →
      p = f ++ zeros (60 - f.length) →
      u = (((s.start.setMac m { s.mac m with tx := none }).emit (.frame m (p ++ frameFcs p))).freeAway x.queue x.msg).bump (ethBase m + 0x50) →
      (bitAt (x.msg.words.getD 0 0#32) 16 = false ∨ bitAt (u.reg (ethBase m + 0x5F8)) 31 = false →
        exec (.ethTransmitDone m t) s = .next (s.finish u)) ∧
      (bitAt (x.msg.words.getD 0 0#32) 16 = true → bitAt (u.reg (ethBase m + 0x5F8)) 31 = true →
        exec (.ethTransmitDone m t) s = .next (s.finish (u.commitNow (fld (u.reg (ethBase m + 0x5FC)) 0 16) (.eth (64 * m + 63))
          (wordsOf (padCells (stampHead (stampWith ((u.scf.time + t % 65536000) % 2 ^ 80) (s16 (u.reg (ethBase m + 0x14)) 16))
            (toBytes 1 (fld (x.msg.words.getD 0 0#32) 24 8) ++ toBytes 1 x.cls ++ toBytes 2 (sendLength x.msg)))))).1))) ∧
    ((s.mac m).state = 1 → exec (.ethLinkUp m) s = .next (s.finish
      ((s.start.setMac m { s.mac m with state := 2 }).event (ethBase m + 0x20) 0))) ∧
    (∀ v, s.reachable (ethBase m) = true →
      (bitAt v 0 = true → exec (.ethEnable m v) s = .next (s.finish (if (s.mac m).state = 0 then
        (s.start.writeRw (ethBase m) 3 v).setMac m { s.mac m with state := 1 } else s.start.writeRw (ethBase m) 3 v))) ∧
      (bitAt v 0 = false → ∃ t, exec (.ethEnable m v) s = .next (s.finish t) ∧ (t.mac m).state = 0 ∧
        ((s.mac m).state = 2 → (t.mac m).tx = none) ∧ t.bays = s.bays ∧ t.scr = s.scr ∧
        t.sq (ethBase m + 0x20) = if (s.mac m).state ≠ 2 then s.sq (ethBase m + 0x20) else
          if (s.mac m).tx = none then (s.sq (ethBase m + 0x20)).event 1 else ((s.sq (ethBase m + 0x20)).event 3).event 1))

/-- R453, R460–R462: a post is taken while the mailbox is free and raises MISS while it is not; the sill core's DONE
frees it; each service answers in the response words and leaves what it names: STATUS the identity, the boot word and
COUNT, FLASH_READ bytes of the flash, FLASH_WRITE bytes programmed, FLASH_ERASE a sector of ones; a range beyond the
flash is a bad argument, and a flash that does not answer a failure; a service that is not the command waiting does
nothing. It rests in part on the model's own readings, log entry 53. -/
def Obligations.HostMailbox : Prop :=
  ∀ (s : State),
    (∀ v, s.reachable 0xA0080 = true → s.mx.mxh.busy = false →
      exec (.mxhPost v) s = .next (s.finish { s.start with mx := { s.mx with mxh := { s.mx.mxh with cseq := fld v 0 8, busy := true } } })) ∧
    (∀ v, s.reachable 0xA0080 = true → s.mx.mxh.busy = true →
      exec (.mxhPost v) s = .next (s.finish (s.start.event 0xA008C 1))) ∧
    (s.mx.mxh.busy = true → ∀ v, s.reachable 0xA0088 = true → fld v 0 8 = s.mx.mxh.cseq →
      exec (.mxhDone v) s = .next (s.finish ({ s.start with mx :=
        { s.mx with mxh := { s.mx.mxh with rseq := fld v 0 8, busy := false } } }.event 0xA008C 0))) ∧
    (∀ v, s.reachable 0xA0088 = true → s.mx.mxh.busy = false ∨ fld v 0 8 ≠ s.mx.mxh.cseq →
      exec (.mxhDone v) s = .next (s.finish s.start)) ∧
    (s.mx.mxh.busy = true → s.mx.mxh.cseq < 256 → ∀ op a n, op = fld (s.reg 0xA0000) 24 8 → a = (s.reg 0xA0004).toNat →
      n = (s.reg 0xA0008).toNat →
      (op = 1 → ∃ t, exec .mxhStatus s = .next (s.finish t) ∧ 
        s.answered t 0 [wd (s.hw.part * 2 ^ 16 + s.hw.stepping * 2 ^ 8), s.reg 0xA0104, wd s.rst.count] ∧
        t.mx.flash = s.mx.flash ∧ t.rst = s.rst) ∧
      (op = 2 → n ≤ 56 → a + n ≤ s.hw.flash → ∃ t, exec (.flashRead true) s = .next (s.finish t) ∧
        s.answered t 0 (wordsOf (s.mx.flash.bytes a n)) ∧ t.mx.flash = s.mx.flash) ∧
      (∀ (i : Instr) (bad : Prop) ok, (i = .flashRead ok ∧ op = 2 ∧ bad = (56 < n ∨ s.hw.flash < a + n)) ∨
          (i = .flashWrite ok ∧ op = 3 ∧ bad = (52 < n ∨ s.hw.flash < a + n)) ∨
          (i = .flashErase ok ∧ op = 4 ∧ bad = (a % 65536 ≠ 0 ∨ s.hw.flash < a + 65536)) →
        (bad → ∃ t, exec i s = .next (s.finish t) ∧ s.answered t 2 [] ∧ t.mx.flash = s.mx.flash) ∧
        (¬ bad → ok = false → ∃ t, exec i s = .next (s.finish t) ∧ s.answered t 3 [] ∧ t.mx.flash = s.mx.flash)) ∧
      (op = 3 → n ≤ 52 → a + n ≤ s.hw.flash → ∃ t, exec (.flashWrite true) s = .next (s.finish t) ∧ s.answered t 0 [] ∧
        t.mx.flash.bytes a n = (((bytesOf ((List.range 13).map fun i => s.reg (0xA000C + 4 * i))).take n).zip
          (s.mx.flash.bytes a n)).map (fun (e : Byte × Byte) => e.1 &&& e.2) ∧
        ∀ k, k < a ∨ a + n ≤ k → t.mx.flash.byte k = s.mx.flash.byte k) ∧
      (op = 4 → a % 65536 = 0 → a + 65536 ≤ s.hw.flash → ∃ t, exec (.flashErase true) s = .next (s.finish t) ∧
        s.answered t 0 [] ∧
        ∀ k, t.mx.flash.byte k = if a ≤ k ∧ k < a + 65536 then 0xFF#8 else s.mx.flash.byte k) ∧
      (op = 5 → ∃ u, exec .leaveShoring s =
        .next (s.finish ({ u with rst := { s.rst with shoring := false, count := 0 } }.assertReset 2)) ∧
        s.answered u 0 [] ∧ u.rst = s.rst)) ∧
    (∀ (i : Instr) op ok, (i = .mxhStatus ∧ op = 1) ∨ (i = .flashRead ok ∧ op = 2) ∨ (i = .flashWrite ok ∧ op = 3) ∨
        (i = .flashErase ok ∧ op = 4) ∨ (i = .leaveShoring ∧ op = 5) →
      s.mx.mxh.busy = false ∨ fld (s.reg 0xA0000) 24 8 ≠ op → exec i s = .next (s.finish s.start))

/-- R387, R449, R452, R457, R458, R475, R504: the sill core sets REMAP; BOOT_OK ends the start well; BOOT_FAIL, or 2 s
without either, is a failed start, the third in a row sets SHORING; ROM_RAISE marks a TRIED slot BAD, takes the newest
candidate, marks it TRIED when it was WRITTEN, copies its plan to staging and raises, and with no candidate the start
fails; a burst of the image master or of JTAG is carried out beat by beat, or refused whole where it would cross into
another target. It rests in part on the model's own readings, log entries 54, 56, 62, 70. -/
def Obligations.BootAndCrossbar : Prop :=
  ∀ (s : State),
    (∀ v, s.reachable 0xA0100 = true → ∃ t, exec (.remap v) s = .next (s.finish t) ∧ (t.bay 256).remap = bitAt v 0 ∧
      (∀ k, k ≠ 256 → t.bay k = s.bay k) ∧ t.rst = s.rst ∧ t.scr = s.scr) ∧
    (s.reachable 0xA0104 = true → bitAt (s.reg 0xA0104) 1 = false →
      ∃ t, exec .bootOk s = .next (s.finish t) ∧ t.bays = s.bays ∧ t.scr = s.scr ∧
        t.rst = if s.rst.window = true then { s.rst with bootOk := true, window := false, count := 0, trimFails := 0 } else s.rst) ∧
    (∀ r : Rst, r = { s.rst with count := min 15 (s.rst.count + 1), failDue := true, window := false, shoring := s.rst.shoring || decide (3 ≤ min 15 (s.rst.count + 1)) } →
      (s.reachable 0xA0104 = true → bitAt (s.reg 0xA0104) 0 = false →
        ∃ t, exec .bootFail s = .next (s.finish t) ∧ t.bays = s.bays ∧ t.scr = s.scr ∧ t.mx = s.mx ∧
          t.rst = if s.rst.bootOk = true ∨ s.rst.failDue = true then s.rst else r) ∧
      (s.rst.window = true → exec .bootWindowExpiry s = .next (s.finish { s.start with rst := r })) ∧
      (s.rst.window = false → exec .bootWindowExpiry s = .next (s.finish s.start))) ∧
    (∀ a, s.stgOn = true → s.rsu.busy = false → s.rsu.rom = none →
      (∀ i, i < 2 → s.slotSound i = true → s.slotState i = 0x3F → (∀ k, k < i → ¬ (s.slotSound k = true ∧
        s.slotState k = 0x3F)) →
        exec (.romRaise a) s = .next (s.finish ((s.start.slotMark i 0x0F).romRaise a)) ∧
          (s.slotMark i 0x0F).slotState i = 0x0F) ∧
      ((∀ i, i < 2 → s.slotSound i = true → s.slotState i ≠ 0x3F) → ∀ c : List Nat, c.Nodup →
        (∀ i, i ∈ c ↔ i < 2 ∧ s.slotSound i = true ∧ (s.slotState i = 0x7F ∨ s.slotState i = 0x1F)) →
        (0 ∈ c → 1 ∈ c → c = if 2 ^ 31 ≤ (s.flashWord (slotBase 0 + 4) - s.flashWord (slotBase 1 + 4)).toNat then [1, 0] else [0, 1]) →
        (c = [] → s.rst.bootOk = false → s.rst.failDue = false →
          ∃ t, exec (.romRaise a) s = .next (s.finish t) ∧ t.rst.failDue = true ∧ t.rsu.rom = none ∧
            (t.bay 256).gpr 1 = t.rsuStat ∧ t.mx = s.mx ∧ t.stg = s.stg) ∧
        (∀ i tl n w, c = i :: tl → s.slotGood i = true → s.rsu.raised = false → n = (s.flashWord (slotBase i + 8)).toNat →
          w = (if s.slotState i = 0x7F then s.start.slotMark i 0x3F else s.start) →
          ∃ t, exec (.romRaise a) s = .next (s.finish t) ∧ t.rsu.busy = true ∧ t.rsu.step = 1 ∧ t.rsu.op = 1 ∧
            t.rsu.rom = some (i :: tl) ∧
            t.rsu.src = (wd a &&& 0x03FFFFF0#32).toNat ∧ t.rsu.len = (wd n &&& 0x01FFFFFF#32).toNat ∧ t.mx = w.mx ∧
              t.bays = s.bays ∧
            t.stg = ((w.onRsu fun r => { r with romAddr := a, rom := some [] }).parts (fun u x _ d => u.stgWrite .sill x d []) a
              (s.mx.flash.bytes (slotBase i + 4096) n) (pieces 0x40000 a n)).1.stg))) ∧
    (∀ m w a (data : List Word), m = 2 ∨ (m = 3 ∧ s.debugLocked 0 = false) → a % 4 = 0 →
      (∀ k, k < data.length → s.busTarget (a + 4 * k) ≠ s.busTarget a →
        exec (.crossbarBurst m a true data) s = .next (s.finish (s.start.busError m a true 3)) ∧
        exec (.crossbarBurst m a false data) s =
          .next (s.finish ((s.start.busError m a false 3).emit (.answer { data := zeros (4 * data.length) })))) ∧
      ((∀ k, k < data.length → s.busTarget (a + 4 * k) = s.busTarget a) →
        exec (.crossbarBurst m a true data) s = .next (s.finish ((List.range data.length).foldl (fun t k =>
          t.busWrite m (a + 4 * k) 4 (data.getD k 0#32)) s.start)) ∧
        exec (.crossbarBurst m a false data) s = .next (s.finish ((List.range data.length).foldl (fun t k =>
          t.busRead m (a + 4 * k) 4 none false) s.start))) ∧
      (0x20000000 ≤ a → a + 4 * data.length ≤ 0x20080000 →
        (∃ t, exec (.crossbarBurst m a true data) s = .next (s.finish t) ∧
          (∀ k, k < data.length → (t.bay 256).scratch.num (a - 0x20000000 + 4 * k) 4 = (data.getD k 0#32).toNat) ∧
          (∀ k, k < a - 0x20000000 ∨ a - 0x20000000 + 4 * data.length ≤ k →
            (t.bay 256).scratch.byte k = (s.bay 256).scratch.byte k) ∧
          (∀ k, k ≠ 256 → t.bay k = s.bay k) ∧ t.out = [] ∧ t.regs = s.regs) ∧
        exec (.crossbarBurst m a false data) s =
          .next (s.finish ({ s.start with out := (List.range data.length).map fun k =>
          (Out.answer { data := toBytes 4 (wd ((s.bay 256).scratch.num (a - 0x20000000 + 4 * k) 4)).toNat }) } : State))) ∧
      (w = true ∨ w = false → s.debugLocked 0 = true → exec (.crossbarBurst 3 a w data) s = .next (s.finish s.start)))

/-- R463, R464: GO starts a flash command or an SMBus transfer with what it names and its bytes; the end of each
stores what came in and raises its event; the data registers pop one item a read, and read 0 when empty. R463: the
UART stores a byte while it has room, raises FRAME or OVERRUN otherwise, and sends the oldest waiting byte, with flow
control only to a receiver that is ready; a read pops a byte and tells whether there was one; a change of the pins
raises the event of each pin whose edge is looked for. It rests in part on the model's own readings, log entries 52,
53. -/
def Obligations.SlowInterfaces : Prop :=
  (∀ (s : State), s.wideHeld = false →
    (∀ v n k, n = fld (s.reg 0x4800000C) 0 9 → k = (if bitAt v 18 then ceilDiv (min 256 n) 4 else 0) →
      (s.mx.xBusy = false →
        ∃ t, exec (.xspiGo v) s = .next (s.finish t) ∧
          t.reg 0x48000004 = ((s.reg 0x48000004 &&& ~~~ 0x7F0FF#32) ||| (v &&& 0x7F0FF#32)) ∧
          t.mx = { s.mx with xBusy := true, xDone := false, xTx := s.mx.xTx.drop k } ∧
          t.out = [.xspi (v &&& 0x7FFFFFFF#32) (s.reg 0x48000008) (wd n) (s.mx.xTx.take k)] ∧ t.bays = s.bays) ∧
      (s.mx.xBusy = true → exec (.xspiGo v) s = .next (s.finish s.start))) ∧
    (s.mx.xBusy = true → ∀ rx a new,
      exec (.xspiCmdDone rx a new) s = .next (s.finish { s.start with mx :=
        { s.mx with xBusy := false, xDone := true,
                    xRx := if bitAt (s.reg 0x48000004) 18 then s.mx.xRx else (s.mx.xRx ++ rx).take 64,
                    flash := s.mx.flash.putBytes a new } })) ∧
    (s.mx.xBusy = false → ∀ rx a new, exec (.xspiCmdDone rx a new) s = .next (s.finish s.start)) ∧
    (∀ w l, s.mx.xRx = w :: l → exec .xspiDataRead s = .next (s.finish
      ({ s.start with mx := { s.mx with xRx := l } }.emit (.answer { data := toBytes 4 w.toNat })))) ∧
    (s.mx.xRx = [] → exec .xspiDataRead s = .next (s.finish (s.start.emit (.answer { data := zeros 4 })))) ∧
    (∀ v k, k = min 32 (fld v 8 8) → s.mx.smbBusy = false → bitAt (s.reg 0x48001000) 4 = true →
      ∃ t, exec (.smbGo v) s = .next (s.finish t) ∧ t.mx = { s.mx with smbBusy := true, sTx := s.mx.sTx.drop k } ∧
        t.out = [.smbus (fld v 1 7) (fld v 16 8) (s.mx.sTx.take k)] ∧ t.bays = s.bays ∧
        t.reg 0x48001004 = ((s.reg 0x48001004 &&& ~~~ 0xFFFFFE#32) ||| (v &&& 0xFFFFFE#32))) ∧
    (∀ v, s.mx.smbBusy = true ∨ bitAt (s.reg 0x48001000) 4 = false →
      ∃ t, exec (.smbGo v) s = .next (s.finish t) ∧ t.mx = s.mx ∧ t.out = [] ∧ t.bays = s.bays ∧
        t.reg 0x48001004 = ((s.reg 0x48001004 &&& ~~~ 0xFFFFFE#32) ||| (v &&& 0xFFFFFE#32))) ∧
    (∀ ack pec data, s.mx.smbBusy = true → ∀ q, q = (if ack then s.sq 0x4800100C else (s.sq 0x4800100C).event 1) →
      ∃ t, exec (.smbXferDone ack pec data) s = .next (s.finish t) ∧
        t.mx = { s.mx with smbBusy := false, sRx := (s.mx.sRx ++ (if ack then data else [])).take 32 } ∧
        t.sq 0x4800100C = ((if bitAt (s.reg 0x48001000) 2 && !pec then q.event 2 else q).event 0) ∧ t.bays = s.bays) ∧
    (s.mx.smbBusy = false → ∀ ack pec data, exec (.smbXferDone ack pec data) s = .next (s.finish s.start)) ∧
    (bitAt (s.reg 0x48001000) 4 = false ∨ bitAt (s.reg 0x48001000) 3 = false →
      ∀ pec data, exec (.smbTargetRx pec data) s = .next (s.finish s.start)) ∧
    (∀ pec data, bitAt (s.reg 0x48001000) 4 = true → bitAt (s.reg 0x48001000) 3 = true →
      ∃ t, exec (.smbTargetRx pec data) s = .next (s.finish t) ∧ t.mx = { s.mx with sRx := (s.mx.sRx ++ data).take 32 } ∧
        t.sq 0x4800100C = ((if bitAt (s.reg 0x48001000) 2 && !pec then (s.sq 0x4800100C).event 2 else s.sq 0x4800100C).event 3) ∧
        t.bays = s.bays) ∧
    (∀ b l, s.mx.sRx = b :: l → exec .smbDataRead s = .next (s.finish
      ({ s.start with mx := { s.mx with sRx := l } }.emit (.answer { data := toBytes 4 b.toNat })))) ∧
    (s.mx.sRx = [] → exec .smbDataRead s = .next (s.finish (s.start.emit (.answer { data := zeros 4 }))))) ∧
  (∀ (s : State), s.wideHeld = false →
    (bitAt (s.reg 0x48002000) 30 = true → ∀ x,
      exec (.uartRxByte x false) s = .next (s.finish (s.start.event 0x4800200C 2)) ∧
      (64 ≤ s.mx.uRx.length → exec (.uartRxByte x true) s = .next (s.finish (s.start.event 0x4800200C 1))) ∧
      (s.mx.uRx.length < 64 → ∃ t, exec (.uartRxByte x true) s = .next (s.finish t) ∧
        t.mx = { s.mx with uRx := s.mx.uRx ++ [x] } ∧
        t.sq 0x4800200C = (if s.mx.uRx = [] then (s.sq 0x4800200C).event 0 else s.sq 0x4800200C) ∧ t.bays = s.bays) ∧
      (∀ b l, s.mx.uTx = b :: l →
        (s.mx.cts = true ∨ bitAt (s.reg 0x48002000) 31 = false →
          exec .uartTxByte s = .next (s.finish ({ s.start with mx := { s.mx with uTx := l } }.emit (.uart b)))) ∧
        (s.mx.cts = false → bitAt (s.reg 0x48002000) 31 = true → exec .uartTxByte s = .next (s.finish s.start)))) ∧
    (bitAt (s.reg 0x48002000) 30 = false → ∀ x f,
      exec (.uartRxByte x f) s = .next (s.finish s.start) ∧ exec .uartTxByte s = .next (s.finish s.start)) ∧
    (s.mx.uTx = [] → exec .uartTxByte s = .next (s.finish s.start)) ∧
    (s.mx.uRx = [] → exec .uartDataRead s = .next (s.finish (s.start.emit (.answer { data := zeros 4 })))) ∧
    (∀ b l, s.mx.uRx = b :: l → exec .uartDataRead s = .next (s.finish
      ({ s.start with mx := { s.mx with uRx := l } }.emit (.answer { data := toBytes 4 (wd (256 + b.toNat)).toNat })))) ∧
    (∀ v u, u = { s.start with mx := { s.mx with pins := v.gpio &&& 0xFFFF#32, cts := v.cts } } →
      ∃ t, exec (.gpioEdge v) s = .next (s.finish t) ∧ t.mx = u.mx ∧ t.bays = s.bays ∧ t.regs.words = s.regs.words ∧
        (∀ a, a ≠ 0x48003014 → t.sq a = s.sq a) ∧ t.sq 0x48003014 =
        ((List.range 16).filter fun n => (decide (s.gpioMode n = 1) && !bitAt s.gpioIn n && bitAt u.gpioIn n) ||
          (decide (s.gpioMode n = 2) && bitAt s.gpioIn n && !bitAt u.gpioIn n)).foldl Sq.event (s.sq 0x48003014)))

/-- R465–R469, R475, R477, R478, R488: each source of WARM reach or wider joins the episode, widens its reach and
returns to reset all that the reach names; a failed start, the watchdog and the software resets count only where they
may. R465–R468: PERST, Hot Reset and DL_Down of a running link return the endpoint, its configuration space, the HB
registers, the MSI-X table and the PBA to reset, discard what the host has sent and not yet been served, and nothing
else; in an episode of wider reach they join it. -/
def Obligations.SourcesOfReset : Prop :=
  (∀ (s : State),
    (∃ t, exec .por s = .next (s.finish t) ∧ s.start.joins 0 7 t) ∧
    (∃ t, exec .tamper s = .next (s.finish t) ∧ s.start.zeroise.joins 1 6 t) ∧
    (∃ t, exec .coldpin s = .next (s.finish t) ∧ s.start.joins 2 5 t) ∧
    (∃ t, exec .rail s = .next (s.finish t) ∧
      ({ s.start with rst := { s.rst with railOut := true } } : State).joins 4 5 t) ∧
    (s.rst.wdg = true → ∃ t, exec .wdog s = .next (s.finish t) ∧
      ({ s.start with rst := { s.rst with wdgLeft := 0 } } : State).joins 5 4 t) ∧
    (s.rst.wdg = false → exec .wdog s = .next (s.finish s.start)) ∧
    (s.rst.failDue = true → ∃ t, exec .failstart s = .next (s.finish t) ∧
      ({ s.start with rst := { s.rst with failDue := false } } : State).joins 7 4 t) ∧
    (s.rst.failDue = false → exec .failstart s = .next (s.finish s.start)) ∧
    (s.reachable 0x10010 = true → ∀ ag v u, u = { s.start with rst := { s.rst with shoring := false, count := 0 } } →
      (fld v 8 8 ≠ 0xA5 → exec (.swrst ag v) s = .next (s.finish s.start) ∧
        exec (.rstSwCold ag v) s = .next (s.finish s.start)) ∧
      (fld v 8 8 = 0xA5 →
        (ag ≠ .sill ∨ bitAt v 1 = false → ∃ t, exec (.swrst ag v) s = .next (s.finish t) ∧ s.start.joins 6 4 t) ∧
        (ag = .sill → bitAt v 1 = true → ∃ m t, exec (.swrst ag v) s = .next (s.finish t) ∧ u.joins 2 5 m ∧ m.joins 6 4 t) ∧
        (ag = .sill → bitAt v 0 = false → ∃ t, exec (.rstSwCold ag v) s = .next (s.finish t) ∧ u.joins 2 5 t) ∧
        (ag = .sill → bitAt v 0 = true → ∃ m t, exec (.rstSwCold ag v) s = .next (s.finish t) ∧ u.joins 2 5 m ∧
          m.joins 6 4 t) ∧
        (ag ≠ .sill → bitAt v 0 = true → ∃ t, exec (.rstSwCold ag v) s = .next (s.finish t) ∧ s.start.joins 6 4 t) ∧
        (ag ≠ .sill → bitAt v 0 = false → exec (.rstSwCold ag v) s = .next (s.finish s.start))))) ∧
  (∀ (s : State),
    (∃ t, exec .perst s = .next (s.finish t) ∧ s.start.hostJoins 8 t) ∧
    (s.hb.up = true → (∃ t, exec .hotrst s = .next (s.finish t) ∧ s.start.hostJoins 9 t) ∧
      ∃ t, exec .dldown s = .next (s.finish t) ∧ s.start.hostJoins 10 t) ∧
    (s.hb.up = false → exec .hotrst s = .next (s.finish s.start) ∧ exec .dldown s = .next (s.finish s.start)))

/-- R456, R468–R470, R475, R476: a source that may let go leaves the asserted set; with none left the exit ends the
episode, and after WARM reach or wider switches the four domains on, starts the sill core and the BOOT_OK window
outside shoring mode; in shoring mode the ROM goes on to its self-tests at once; a wrapper that has drained lets the
pulse end. It rests in part on the model's own readings, log entries 56, 58, 70. -/
def Obligations.ResetEpisode : Prop :=
  ∀ (s : State),
    (∀ src, src < 11 → s.rst.asserted / 2 ^ src % 2 = 1 → (src = 4 ∨ s.mayRelease src = true) →
      ∃ t, exec (.resetSourceRelease src) s = .next (s.finish t) ∧ t.rst.asserted = s.rst.asserted - 2 ^ src ∧
        t.rst.reach = s.rst.reach ∧
        t.rst.railOut = (s.rst.railOut && decide (src ≠ 4)) ∧ t.ddr.rails = (s.ddr.rails || decide (src = 2)) ∧
          t.bays = s.bays ∧ t.regs = s.regs) ∧
    (∀ src, s.rst.asserted / 2 ^ src % 2 = 0 → src < 11 → ∃ t, exec (.resetSourceRelease src) s = .next (s.finish t) ∧
      t.rst.asserted = s.rst.asserted ∧
      t.rst.reach = s.rst.reach ∧ t.bays = s.bays ∧ t.regs = s.regs) ∧
    (s.rst.asserted = 0 → s.rst.reach = 3 →
      exec (.exitSequenceDone 17) s = .next (s.finish { s.start with rst :=
        { s.rst with lastSrc := s.rst.src, lastReach := 3, src := 0, reach := 0 } })) ∧
    (s.rst.reach = 0 ∨ s.rst.asserted ≠ 0 ∨ (4 ≤ s.rst.reach ∧ s.sec.zeroing = true) →
      exec (.exitSequenceDone 17) s = .next (s.finish s.start)) ∧
    (s.rst.asserted = 0 → 4 ≤ s.rst.reach → s.sec.zeroing = false → s.rst.shoring = false ∨ s.sec.state = 0 →
      s.rst.loading = false →
      ∃ t, exec (.exitSequenceDone 17) s = .next (s.finish t) ∧ t.rst.reach = 0 ∧ t.rst.src = 0 ∧
        t.rst.lastSrc = s.rst.src ∧
        t.rst.lastReach = s.rst.reach ∧ t.rst.shored = s.rst.shoring ∧ t.rst.window = !s.rst.shoring ∧
        t.on 16 = true ∧ t.on 20 = true ∧ t.on 21 = true ∧ t.on 22 = true ∧
        (t.bay 256).state = 3 ∧ (t.bay 256).pipe.pc = 0 ∧ (∀ k, k ≠ 256 → t.bay k = s.bay k) ∧ t.sec = s.sec ∧
          t.ddr = s.ddr ∧
        t.mx.boot = (if s.rst.shoring = true ∧ s.mx.boot = .reset then .selftest else s.mx.boot) ∧
        (s.rst.shoring = true → s.mx.boot = .reset → fld (t.reg 0xA0104) 8 8 = 2)) ∧
    (∀ p, s.rst.pulse = some p → exec .wrapperDrained s = .next (s.finish { s.start with rst :=
      { s.rst with pulse := some { p with drained := true } } })) ∧
    (s.rst.pulse = none → exec .wrapperDrained s = .next (s.finish s.start))

/-- R59, R60, R473–R475, R478, R483, R488, R489: the sill core starts a trim load, whose end is VALID, or a failure of
which the third in a row is a failed start, and the boot ROM goes on from its TRIM step or ends with a failed start;
the watchdog loads its count when enabled and when kicked with its key; an edge of the 32.768 kHz clock refreshes
every AC register; CLK_STAT tells that the crystal runs. It rests in part on the model's own readings, log entries 56,
58, 70. -/
def Obligations.TrimsWatchdogCopies : Prop :=
  ∀ (s : State),
    (∀ v u, s.reachable 0x10028 = true →
      u = { s.start with rst := { s.rst with loading := true, trimValid := false, trimSafe := true } } →
      (s.mx.boot ≠ .reset → exec (.trimStart v) s = .next (s.finish u)) ∧
      (s.mx.boot = .reset → s.rst.reach < 4 → s.rst.shored = false → ∃ t, exec (.trimStart v) s = .next (s.finish t) ∧
        t.rst = u.rst ∧
        t.mx = { s.mx with boot := .trim } ∧ fld (t.reg 0xA0104) 8 8 = 1 ∧ t.bays = s.bays)) ∧
    (s.rst.loading = true → ∀ u, u = { s.start with rst := { s.rst with loading := false, trimValid := true, trimSafe := false, trimFails := 0 } } →
      (s.mx.boot ≠ .trim → exec (.trimLoadDone true) s = .next (s.finish u)) ∧
      (s.mx.boot = .trim → s.sec.state = 0 → ∃ t, exec (.trimLoadDone true) s = .next (s.finish t) ∧ t.rst = u.rst ∧
        t.mx = { s.mx with boot := .selftest } ∧ fld (t.reg 0xA0104) 8 8 = 2 ∧ t.bays = s.bays)) ∧
    (s.rst.loading = true → s.mx.boot ≠ .trim ∨ (s.rst.trimValid = false ∧ s.rst.shored = false) →
      ∃ t, exec (.trimLoadDone false) s = .next (s.finish t) ∧ t.rst.loading = false ∧
        t.rst.trimFails = min 3 (s.rst.trimFails + 1) ∧
        t.rst.trimValid = s.rst.trimValid ∧ (∀ k, k ≠ 256 → t.bay k = s.bay k) ∧
        t.rst.count = (if 2 ≤ s.rst.trimFails ∧ s.rst.bootOk = false ∧
          s.rst.failDue = false then min 15 (s.rst.count + 1) else s.rst.count) ∧
        (s.mx.boot ≠ .trim ∨ s.rst.trimFails < 2 → t.mx = s.mx ∧ t.bays = s.bays) ∧
        (s.mx.boot = .trim → 2 ≤ s.rst.trimFails → t.mx = { s.mx with boot := .over } ∧ (t.bay 256).pipe.waiting = true ∧
          fld (t.reg 0xA0104) 8 8 = 128 + fld (s.reg 0xA0104) 8 7)) ∧
    (s.rst.loading = false → s.mx.boot ≠ .trim ∨ (s.rst.trimValid = false ∧ s.rst.shored = false ∧ s.rst.trimFails ≠ 3) →
      ∀ ok,
      exec (.trimLoadDone ok) s = .next (s.finish s.start)) ∧
    (∀ v m, s.reachable 0x10030 = true → bitAt (s.reg 0x10030) 16 = false → s.rst.shored = false → m = fld v 0 16 →
      ∃ t, exec (.wdgEnable v) s = .next (s.finish t) ∧ t.rst.wdg = true ∧ t.rst.wdgLeft = 1000 * max 1 m ∧
        fld (t.reg 0x10030) 0 16 = m ∧
        t.bays = s.bays) ∧
    (∀ v, s.reachable 0x10034 = true → s.rst.wdg = true → fld v 0 16 = 0x6B3D →
      exec (.wdgKick v) s = .next (s.finish { s.start with rst :=
        { s.rst with wdgLeft := 1000 * max 1 (fld (s.reg 0x10030) 0 16) } })) ∧
    (∀ v, s.reachable 0x10030 = true → bitAt (s.reg 0x10030) 16 = true → exec (.wdgEnable v) s = .next (s.finish s.start)) ∧
    (∀ v, s.reachable 0x10034 = true → s.rst.wdg = false ∨ fld v 0 16 ≠ 0x6B3D →
      exec (.wdgKick v) s = .next (s.finish s.start)) ∧
    (exec .rtcCrystalInUse s = .next (s.finish { s.start with rst := { s.rst with rtc := true } })) ∧
    ∃ t, exec .acRefresh s = .next (s.finish t) ∧
      t.reg 0x10000 = wd (s.rst.src % 2048 * 256 + nbit (decide (s.rst.reach ≠ 0)) * 8 + s.rst.reach) ∧
      t.reg 0x10004 = wd (s.rst.lastSrc % 2048 * 256 + s.rst.lastReach) ∧
      t.reg 0x10024 = wd (nbit s.rst.bootOk * 2 ^ 10 + s.rst.trimFails % 4 * 2 ^ 8 + nbit s.rst.shoring * 16 + s.rst.count % 16) ∧
      t.reg 0x1002C = wd (nbit s.rst.loading * 4 + nbit s.rst.trimSafe * 2 + nbit s.rst.trimValid) ∧
      t.reg 0x10038 = wd (ceilDiv s.rst.wdgLeft 1000 % 65536) ∧ t.reg 0x20040 = wd (s.sec.tlog % 8) ∧
      t.reg 0x100A0 = s.dutyWord 0 ∧ t.reg 0x100A4 = s.dutyWord 8 ∧ t.rst = s.rst ∧ t.bays = s.bays ∧
      ((∀ i, tgetD none s.rst.temp i = none ∨ ∃ v, tgetD none s.rst.temp i = some v ∧ -128 ≤ v ∧ v ≤ 127) → ∀ n, n < 6 →
        t.reg (0x10080 + 4 * n) = wd (tempByte (tgetD none s.rst.temp (4 * n)) 0#32 + tempByte (tgetD none s.rst.temp (4 * n + 1)) 0#32 * 2 ^ 8 +
          tempByte (tgetD none s.rst.temp (4 * n + 2)) 0#32 * 2 ^ 16 + tempByte (tgetD none s.rst.temp (4 * n + 3)) 0#32 * 2 ^ 24))

/-- R466, R470, R472: RST_BAY puts one bay in reset and RST_BLOCK one channel, port or MAC, each with a pulse that
allows no other until it ends; a bay without tasks or messages keeps its stores, and nothing else changes; a name of
an absent unit, or a second pulse, is ignored; after the wrapper has drained the pulse ends with the bay in PLAN, the
channel as it was, the port or MAC open again. R466, R470, R472, R482: setting a bent's HOLD bit wakes the bent if it
is retained, and puts its bays in reset with their stores kept; clearing it begins the release, at whose end every bay
of the bent that is not retired is in PLAN; the bits of absent and gated bents are ignored. It rests in part on the
model's own readings, log entry 55. -/
def Obligations.NarrowResets : Prop :=
  (∀ (s : State),
    (∀ v b, s.reachable 0x10018 = true → b = fld v 0 8 →
      (s.rst.pulse = none → s.bentHere (b / 16) = true → s.on (b / 16) = true →
        ∃ t, exec (.rstBay v) s = .next (s.finish t) ∧ (t.bay b).state = 0 ∧ (t.bay b).gp = [] ∧
          (t.bay b).pipe.flights = [] ∧
          (t.bay b).guards = [] ∧ t.rst.pulse = some { block := false, target := b } ∧
          (s.tasksOn b = [] → (s.bay b).qio.sendq = [] → (s.bay b).qio.landing = [] → (s.bay b).qio.cur = none →
            (∀ k, k ≠ b → t.bay k = s.bay k) ∧ (t.bay b).scratch = (s.bay b).scratch ∧ (t.bay b).istore = (s.bay b).istore ∧
            t.rst = { s.rst with pulse := some { block := false, target := b } } ∧
            t.ddr = s.ddr ∧ t.regs = s.regs ∧ t.mx = s.mx ∧ t.hb = s.hb)) ∧
      (s.rst.pulse.isSome = true ∨ s.bentHere (b / 16) = false ∨ s.on (b / 16) = false →
        exec (.rstBay v) s = .next (s.finish s.start))) ∧
    (∀ v k, s.reachable 0x1001C = true → k = fld v 0 5 →
      (s.rst.pulse = none → s.blockThere k = true →
        ∃ t, exec (.rstBlock v) s = .next (s.finish t) ∧ t.rst.pulse = some { block := true, target := k } ∧
          (k < 8 → (t.chan k).state = 5 ∧ ((s.chan k).wq = [] →
            (t.chan k).release = some (if (s.chan k).state = 2 ∨ (s.chan k).state = 4 then 4 else 0))) ∧
          (8 ≤ k → k < 16 → (t.port (k - 8)).state = 0 ∧ (t.port (k - 8)).dcause = 8) ∧
          (16 ≤ k → (t.mac (k - 16)).state = 0 ∧ ((s.mac (k - 16)).tx = none → (t.mac (k - 16)).tx = none))) ∧
      (s.rst.pulse.isSome = true ∨ s.blockThere k = false → exec (.rstBlock v) s = .next (s.finish s.start))) ∧
    (∀ p, s.rst.pulse = some p → p.drained = true →
      (p.block = false →
        ∃ t, exec (.exitSequenceDone 16) s = .next (s.finish t) ∧ t.rst = { s.rst with pulse := none } ∧
          (∀ k, k ≠ p.target → t.bay k = s.bay k) ∧
          t.bay p.target = (if s.rst.fatal = false ∧ s.on (p.target / 16) = true ∧ s.bentHeld (p.target / 16) = false ∧
            (s.bay p.target).retired = false
            then { s.bay p.target with id := p.target, state := 1 } else s.bay p.target) ∧ t.regs = s.regs ∧ t.ddr = s.ddr ∧
              t.scf = s.scf) ∧
      (p.block = true → p.target < 8 →
        ∃ t, exec (.exitSequenceDone 16) s = .next (s.finish t) ∧ t.rst = { s.rst with pulse := none } ∧ t.bays = s.bays ∧
          (∀ st, (s.chan p.target).release = some st →
            t.chan p.target = { s.chan p.target with state := st, release := none }) ∧
          ((s.chan p.target).release = none → t.ddr = s.ddr) ∧ t.regs = s.regs ∧ t.scf = s.scf) ∧
      (p.block = true → 8 ≤ p.target → p.target < 16 →
        exec (.exitSequenceDone 16) s = .next (s.finish { s.start with rst := { s.rst with pulse := none } })) ∧
      (p.block = true → 16 ≤ p.target →
        exec (.exitSequenceDone 16) s = .next (s.finish { s.start with
          rst := { s.rst with pulse := none },
          regs := { s.regs with shadow := tclear s.regs.shadow (ethBase (p.target - 16)) 0x2000 } }))) ∧
    (s.rst.pulse = none ∨ (∃ p, s.rst.pulse = some p ∧ p.drained = false) →
      exec (.exitSequenceDone 16) s = .next (s.finish s.start))) ∧
  (∀ (s : State) (n : Nat), n < 16 →
    (s.bentHere n = true → s.dom n = 1 ∨ s.dom n = 2 → s.reachable 0x10014 = true → ∀ v, (∀ m, m < 16 → m ≠ n →
      bitAt v m = bitAt (s.reg 0x10014) m) →
      (bitAt v n = true → bitAt (s.reg 0x10014) n = false →
        (∀ b, b / 16 = n → s.tasksOn b = [] ∧ (s.bay b).qio.sendq = [] ∧ (s.bay b).qio.landing = [] ∧
          (s.bay b).qio.cur = none) →
        ∃ t, exec (.rstBent v) s = .next (s.finish t) ∧ t.reg 0x10014 = putBit (s.reg 0x10014) n true ∧ t.dom n = 1 ∧
          (s.dom n = 2 → t.reg 0x10044 = putBit (s.reg 0x10044) n false) ∧
          (∀ a, a ≠ 0x10014 → a ≠ 0x10044 ∨ s.dom n = 1 → t.reg a = s.reg a) ∧
          (∀ b, b / 16 = n → (t.bay b).state = 0 ∧ (t.bay b).gp = [] ∧ (t.bay b).scratch = (s.bay b).scratch ∧
            (t.bay b).istore = (s.bay b).istore) ∧
          (∀ b, b / 16 ≠ n → t.bay b = s.bay b) ∧ t.ddr = s.ddr ∧ t.hb = s.hb ∧ t.mx = s.mx) ∧
      (bitAt v n = false → bitAt (s.reg 0x10014) n = true →
        exec (.rstBent v) s = .next (s.finish { (s.start.setReg 0x10014 (putBit (s.reg 0x10014) n false)) with rst :=
          { s.rst with bentExit := s.rst.bentExit ++ [n] } }))) ∧
    (∀ v, s.reachable 0x10014 = true → (∀ n, n < 16 → s.bentHere n = false ∨ s.dom n = 0 ∨ s.dom n = 3 ∨
      bitAt v n = bitAt (s.reg 0x10014) n) →
      exec (.rstBent v) s = .next (s.finish s.start)) ∧
    (s.rst.bentExit.contains n = true →
      ∃ t, exec (.exitSequenceDone n) s = .next (s.finish t) ∧
        t.rst = { s.rst with bentExit := s.rst.bentExit.filter fun k => decide (k ≠ n) } ∧
        (∀ b, t.bay b = if b / 16 = n ∧ (s.rst.fatal = false ∧ s.dom n = 1 ∧ bitAt (s.reg 0x10014) n = false ∧
          s.rst.raiseHold / 2 ^ n % 2 ≠ 1) ∧
          (s.bay b).retired = false then { s.bay b with id := b, state := 1 } else s.bay b) ∧ t.regs = s.regs ∧
            t.ddr = s.ddr) ∧
    (s.rst.bentExit.contains n = false → exec (.exitSequenceDone n) s = .next (s.finish s.start)))

/-- R480–R482, R488: a write to PWR_CTL or PWR_RET that is not refused starts the transition of every domain it
changes; one that names an absent bent, changes anything in shoring mode, changes a domain in transition or would
switch off a unit in use is refused with REFUSED, and one that changes nothing is done at once. R324, R470, R480–R482,
R522: when the transition of a domain ends the domain is as asked, and each write whose last change it was is DONE; a
bent that comes on has its bays in PLAN unless it is held or they are retired, PD_SCARF is at reset, and a channel is
in SELFREF where its DIMMs were kept, else OFF. It rests in part on the model's own readings, log entry 57. -/
def Obligations.PowerSwitching : Prop :=
  (∀ (s : State) (v ctl ret : Word),
    (s.reachable 0x10040 = true → ctl = v &&& 0x7FFFF#32 →
      ∃ t, exec (.pwrCtlWrite v) s = .next (s.finish t) ∧ s.start.powers ctl (s.reg 0x10044) ctl true t) ∧
    (s.reachable 0x10044 = true → ret = v &&& 0xFFFF#32 →
      ∃ t, exec (.pwrRetWrite v) s = .next (s.finish t) ∧ s.start.powers (s.reg 0x10040) ret ret false t)) ∧
  (∀ (s : State) (d g : Nat) (ws : List (List Nat)), g = tgetD 0 s.rst.goal d →
    ws = (s.rst.writes.map fun l => l.filter fun k => decide (k ≠ d)) →
    (s.dom d = 3 → ∃ t, exec (.domainTransitionDone d) s = .next (s.finish t) ∧ t.dom d = g ∧ (∀ k, k ≠ d →
      t.dom k = s.dom k) ∧
      t.rst.writes = (ws.filter fun l => !l.isEmpty) ∧
      t.sq 0x10050 = (ws.filter List.isEmpty).foldl (fun q _ => q.event 0) (s.sq 0x10050) ∧
      (16 ≤ d ∨ g ≠ 1 → t.bays = s.bays) ∧ (g ≠ 1 → t.ddr = s.ddr ∧ t.scf = s.scf ∧ t.regs.words = s.regs.words) ∧
      (g = 1 →
        (d < 16 → (∀ b, t.bay b = if b / 16 = d ∧ (s.rst.fatal = false ∧ s.bentHeld d = false) ∧ (s.bay b).retired = false
            then { s.bay b with id := b, state := 1 } else s.bay b) ∧
          t.rst.unlocked = s.rst.unlocked.filter fun k => decide (k ≠ 16 + d)) ∧
        (d = 19 → t.scf = {}) ∧
        (d = 17 ∨ d = 18 → t.rst.unlocked = (s.rst.unlocked.filter fun k => decide (k ≠ d - 15)) ∧
          ∀ c, c < 8 → chanDom c = d → s.hw.chanHere c = true →
          ((s.chan c).state = 4 → (s.chan c).vddqLost = false → (t.chan c).state = 4 ∧ (t.chan c).mem = (s.chan c).mem) ∧
          ((s.chan c).state ≠ 4 ∨ (s.chan c).vddqLost = true → (t.chan c).state = 0)))) ∧
    (s.dom d ≠ 3 → exec (.domainTransitionDone d) s = .next (s.finish s.start)))

/-- R483, R522: a PLL that loses lock is a fatal error: its lock bit falls, every bay out of reset goes DOWN and the
queue manager stops. R485, R487: a sample keeps the readings; one that crosses the alarm threshold is an event, THERM
lets go once every sensor reads 115 °C or below, and a sensor at 135 °C in two successive samples resets the device.
It rests in part on the model's own readings, log entry 58. -/
def Obligations.ClocksAndHeat : Prop :=
  ∀ (s : State),
    (∀ k, k < 6 ∨ (16 ≤ k ∧ k < 32) → s.rst.unlocked.contains k = false →
      ∃ t, exec (.pllLossOfLock k) s = .next (s.finish t) ∧
        t.rst = { s.rst with unlocked := s.rst.unlocked ++ [k], fatal := true } ∧
        t.qm.stopped = true ∧
        (k ≠ 2 → k ≠ 3 → t.bays = s.bays.map (fun e => if e.1 = 256 then e else (e.1, e.2.halt)) ∧ t.ddr = s.ddr ∧
          t.stg = s.stg ∧
          (s.bg.lost = 0 → s.bg.held.length < 64 → t.bg.held.length = s.bg.held.length + 1))) ∧
    (∀ k, s.rst.unlocked.contains k = true ∨ (6 ≤ k ∧ k < 16) ∨ 32 ≤ k →
      exec (.pllLossOfLock k) s = .next (s.finish s.start)) ∧
    (∀ (temps : List Int) (r : Nat → Int), (∀ i, r i = if i = 23 ∨ s.dom i = 1 then temps.getD i 0 else -128) →
      ((∀ i, i < 24 → 135 ≤ r i → s.rst.hot.contains i = false) →
        ∃ t, exec (.thermalSample temps) s = .next (s.finish t) ∧ (∀ i, i < 24 → tgetD none t.rst.temp i = some (r i)) ∧
          t.rst.hot = ((List.range 24).filter fun i => decide (135 ≤ r i)) ∧
          t.rst.alarmed = ((List.range 24).filter fun i => decide (Int.ofNat (fld (s.reg 0x10070) 16 8) ≤ r i)) ∧
          ((∃ i, i < 24 ∧ Int.ofNat (fld (s.reg 0x10070) 16 8) ≤ r i ∧ s.rst.alarmed.contains i = false) →
            t.sq 0x100B0 = (s.sq 0x100B0).event 0) ∧
          ((∀ i, i < 24 → Int.ofNat (fld (s.reg 0x10070) 16 8) ≤ r i → s.rst.alarmed.contains i = true) →
            t.sq 0x100B0 = s.sq 0x100B0) ∧
          (∀ a, a ≠ 0x100B0 → t.sq a = s.sq a) ∧ t.regs.words = s.regs.words ∧ t.bays = s.bays ∧ t.ddr = s.ddr ∧
            t.out = [] ∧
          t.rst.reach = s.rst.reach ∧ t.rst.src = s.rst.src ∧
          ((∀ i, i < 24 → r i ≤ 115) → s.rst.asserted / 8 % 2 = 1 → t.rst.asserted = s.rst.asserted - 8) ∧
          ((∃ i, i < 24 ∧ 115 < r i) ∨ s.rst.asserted / 8 % 2 = 0 → t.rst.asserted = s.rst.asserted)) ∧
      ((∃ i, i < 24 ∧ 135 ≤ r i ∧ s.rst.hot.contains i = true) →
        ∃ u t : State, exec (.thermalSample temps) s = .next (s.finish t) ∧ u.ddr = s.ddr ∧ u.rst.reach = s.rst.reach ∧
          u.rst.asserted = s.rst.asserted ∧ u.rst.src = s.rst.src ∧ (∀ i, i < 24 → tgetD none u.rst.temp i = some (r i)) ∧
            u.joins 3 5 t))

/-- R497, R499: a post at an idle port of the module waits for its service; one the module does not know is answered
BADOP, and one while the module is in ERROR or ZEROISED, STATUS apart, or zeroises, NOT_READY; one during SELFTEST, or
behind a service of the other port, waits; a post at a busy port, or at a module without its supply, has no effect.
STATUS, GETNONCE, AUTH and LOGOUT answer as stated and change what they name. It rests in part on the model's own
readings, log entries 8, 63. -/
def Obligations.SecurityPorts : Prop :=
  ∀ (s : State) (p : Bool),
    (∀ v, (if p then s.wideHeld = false else s.reachable 0x20300 = true) → s.on 21 = true → ∀ x,
      x = s.sec.setPort p { s.sec.port p with
        post := { (s.sec.port p).post with cseq := fld v 0 8, busy := true } } →
      ((s.sec.port p).post.busy = true → exec (.secPost p v) s = .next (s.finish s.start)) ∧
      ((s.sec.port p).post.busy = false → s.sec.waits = [] → s.sec.zeroing = true → (s.sec.port p).op ≠ 3 →
        (s.sec.port p).op ≠ 0x24 →
        ∃ y, exec (.secPost p v) s = .next (s.finish { s.start with sec := y }) ∧ x.replied y p 5 []) ∧
      ((s.sec.port p).post.busy = false → ∀ q, s.sec.waits = [q] → x.turnsAway q = none →
        exec (.secPost p v) s = .next (s.finish { s.start with sec := { x with waits := [q, p] } })) ∧
      ((s.sec.port p).post.busy = false → s.sec.waits = [] → s.sec.zeroing = false →
        (s.sec.state = 0 → exec (.secPost p v) s = .next (s.finish { s.start with sec := { x with waits := [p] } })) ∧
        (s.sec.state = 1 → (s.sec.port p).op ∈ secOps →
          exec (.secPost p v) s = .next (s.finish { s.start with sec := { x with waits := [p] } })) ∧
        (s.sec.state = 1 → (s.sec.port p).op ∉ secOps →
          ∃ y, exec (.secPost p v) s = .next (s.finish { s.start with sec := y }) ∧ x.replied y p 1 []) ∧
        (2 ≤ s.sec.state → (s.sec.port p).op ∈ secOps → (s.sec.port p).op ≠ 1 →
          ∃ y, exec (.secPost p v) s = .next (s.finish { s.start with sec := y }) ∧ x.replied y p 5 []))) ∧
    (∀ v, (if p then s.wideHeld = false else s.reachable 0x20300 = true) → s.on 21 = false →
      exec (.secPost p v) s = .next (s.finish s.start)) ∧
    (s.serves p 1 0 → ∃ y, exec (.secStatus p) s = .next (s.finish { s.start with sec := y }) ∧
      s.sec.replied y p 0 [s.sec.stat, wd s.sec.departs, s.sec.floor 0, s.sec.floor 1]) ∧
    (s.serves p 4 0 → ∀ n, n = (List.range 32).map (Config.drbgByte s.sec.drbg) →
      ∃ y, exec (.getnonce p) s = .next (s.finish { s.start with sec := y }) ∧
        (Sec.onPort { s.sec with drbg := s.sec.drbg + 1 } p fun z => { z with nonce := some n }).replied y p 0 (wordsOf n)) ∧
    (∀ role slot sig, s.serves p 5 0 →
      (∀ n, (s.sec.port p).nonce = some n → role = 1 ∨ role = 2 → s.sec.slotHolds slot (if role = 2 then 4 else 5) = false →
        ∃ y, exec (.auth p role slot sig) s = .next (s.finish { s.start with sec := y }) ∧ s.sec.replied y p 6 []) ∧
      (∀ n, (s.sec.port p).nonce = some n → role = 1 ∨ role = 2 → s.sec.slotHolds slot (if role = 2 then 4 else 5) = true →
        (Config.ecdsaOk (s.sec.slotKey slot) (n ++ [BitVec.ofNat 8 (nbit p), BitVec.ofNat 8 role]) sig = true →
          ∃ y, exec (.auth p role slot sig) s = .next (s.finish { s.start with sec := y }) ∧
            (s.sec.onPort p fun z => { z with role := role }).replied y p 0 []) ∧
        (Config.ecdsaOk (s.sec.slotKey slot) (n ++ [BitVec.ofNat 8 (nbit p), BitVec.ofNat 8 role]) sig = false →
          ∃ y, exec (.auth p role slot sig) s = .next (s.finish { s.start with sec := y }) ∧ s.sec.replied y p 6 [])) ∧
      ((s.sec.port p).nonce = none ∨ (role ≠ 1 ∧ role ≠ 2) →
        ∃ y, exec (.auth p role slot sig) s = .next (s.finish { s.start with sec := y }) ∧
        s.sec.replied y p 2 [])) ∧
    (s.serves p 6 1 → ∃ y, exec (.logout p) s = .next (s.finish { s.start with sec := y }) ∧
      ((s.sec.onPort p fun z => { z with role := 0 }).dropHandles p).replied y p 0 [])

/-- R490, R491, R500, R501, R502, R505, R322: the module's own events. SELFTEST leaves READY until the tests end, in
READY or in ERROR with an event; ZEROISE erases handles, nonces, roles, approved mode and every channel, and its
completion ends in ZEROISED; a failed entropy health test ends in ERROR; a tamper monitor acts as CONFIG says;
DURATION's expiry locks debug. Where the boot ROM waits for the tests, it goes on with the flash, or its start fails.
An event that finds nothing to end changes nothing. It rests in part on the model's own readings, log entries 39, 56,
64, 70. -/
def Obligations.SecurityModes : Prop :=
  ∀ (s : State),
    (∀ p, s.serves p 2 0 → exec (.selftest p) s = .next (s.finish { s.start with sec := { s.sec with state := 0 } })) ∧
    (∀ pass ok, s.on 21 = true → s.sec.state = 0 → s.sec.zeroing = false →
      ok = (pass && decide (s.sec.config / 32 % 2 = 0)) →
      ∀ x, x = { s.sec with
        state := if ok then 1 else 2, started := s.sec.started || ok,
        approved := ok && (s.sec.approved || (!s.sec.started && decide (s.sec.config % 2 = 1) && decide (s.sec.scope = 0))) } →
      (s.mx.boot ≠ .selftest →
        (s.sec.waits = [] → ok = true → exec (.selftestComplete pass) s = .next (s.finish { s.start with sec := x })) ∧
        (s.sec.waits = [] → ok = false → exec (.selftestComplete pass) s =
          .next (s.finish { s.start.event 0x20030 0 with sec := x })) ∧
        (∀ p, s.sec.waits = [p] → (s.sec.port p).op = 2 → s.sec.started = true →
          ∃ t, exec (.selftestComplete pass) s = .next (s.finish t) ∧ x.replied t.sec p (if ok then 0 else 3) [] ∧
            t.bays = s.bays)) ∧
      (s.mx.boot = .selftest → s.sec.waits = [] →
        (ok = true → exec (.selftestComplete pass) s = .next (s.finish (State.bootFlash { s.start with sec := x }))) ∧
        (ok = false → ∃ t, exec (.selftestComplete pass) s = .next (s.finish t) ∧ t.sec = x ∧
          t.mx = { s.mx with boot := .over } ∧
          t.rst = s.failIfStarting.rst ∧ fld (t.reg 0xA0104) 8 8 = 128 + fld (s.reg 0xA0104) 8 7 ∧
            (t.bay 256).pipe.waiting = true ∧
          ∀ k, k ≠ 256 → t.bay k = s.bay k))) ∧
    (∀ pass, s.mx.boot ≠ .selftest → s.on 21 = false ∨ s.sec.state ≠ 0 ∨ s.sec.zeroing = true →
      exec (.selftestComplete pass) s = .next (s.finish s.start)) ∧
    (∀ p, s.serves p 3 0 →
      ∃ t, exec (.zeroise p) s = .next (s.finish t) ∧ t.sec.zeroing = true ∧ t.sec.approved = false ∧ t.sec.handles = [] ∧
        t.sec.keyRam = [] ∧
        (∀ q, (t.sec.port q).role = 0 ∧ (t.sec.port q).nonce = none) ∧ t.sec.otp = s.sec.otp ∧ t.sec.waits = [p] ∧
        (∀ c, c < 8 → s.hw.chanHere c = true → (t.chan c).state = 0 ∧ (t.chan c).erased = true ∧ (t.chan c).key = none) ∧
          t.mx = s.mx ∧ t.stg = s.stg ∧ t.rst = s.rst) ∧
    (s.sec.zeroing = false → exec .zeroisationComplete s = .next (s.finish s.start)) ∧
    (s.sec.zeroing = true → 4 ≤ s.rst.reach → s.sec.waits = [] →
      exec .zeroisationComplete s =
        .next (s.finish (State.releaseReset { s.start with sec := ({ s.sec with zeroing := false, state := 3 } : Sec).warm } 1))) ∧
    (s.sec.zeroing = true → s.rst.reach < 4 →
      (s.sec.waits = [] → exec .zeroisationComplete s =
        .next (s.finish (State.event { s.start with sec := { s.sec with zeroing := false, state := 3 } } 0x20030 1))) ∧
      (∀ p, s.sec.waits = [p] → (s.sec.port p).op = 3 ∨ (s.sec.port p).op = 0x24 →
        ∃ y, exec .zeroisationComplete s = .next (s.finish (State.event { s.start with sec := y } 0x20030 1)) ∧
          Sec.replied { s.sec with zeroing := false, state := 3 } y p 0 [])) ∧
    (s.on 21 = true → s.sec.state ≤ 1 → s.sec.zeroing = false →
      ∃ t, exec .entropyHealthFail s = .next (s.finish t) ∧ t.sec.state = 2 ∧ t.sec.approved = false ∧
        t.sec.otp = s.sec.otp ∧
        t.sec.handles = s.sec.handles ∧ t.sq 0x20030 = (s.sq 0x20030).event 2 ∧ t.bays = s.bays ∧ t.ddr = s.ddr) ∧
    (s.on 21 = false ∨ 1 < s.sec.state ∨ s.sec.zeroing = true → exec .entropyHealthFail s = .next (s.finish s.start)) ∧
    (∀ code, code = 0 ∨ 6 < code → exec (.tamperMonitorTrip code) s = .next (s.finish s.start)) ∧
    (∀ code resp, 1 ≤ code → code ≤ 6 →
      resp = (if code ≤ 4 then 3 else if code = 5 then s.sec.config / 2 % 4 else s.sec.config / 8 % 4) →
      (resp = 0 ∨ resp = 2 → exec (.tamperMonitorTrip code) s = .next (s.finish s.start)) ∧
      (resp = 1 → ∃ t, exec (.tamperMonitorTrip code) s = .next (s.finish t) ∧ t.sec = { s.sec with tlog := code } ∧
        t.sq 0x20030 = (s.sq 0x20030).event 3 ∧ t.bays = s.bays ∧ t.rst = s.rst ∧
        (s.bg.lost = 0 → s.bg.held.length < 64 → t.bg.held.length = s.bg.held.length + 1)) ∧
      (resp = 3 → ∀ u, u = State.zeroise { s.start with sec := { s.sec with tlog := code } } →
        ∃ t, exec (.tamperMonitorTrip code) s = .next (s.finish t) ∧ u.joins 1 6 t)) ∧
    exec .debugRelock s = .next (s.finish (if s.sec.scope = 0 ∨ s.sec.dbgLeft = 0 then s.start
      else { s.start with sec := { s.sec with scope := 0, dbgLeft := 0 } }))

/-- R497, R499: the bulk services. Each reads its input from staging with the image master, answers with the digest,
tag, signature or verdict, and writes ciphertext or plaintext to staging; GCM_DEC writes zeros for a wrong tag; a
handle that holds no key of the kind for the port, or over 1 MiB, is BADARG, and a failed access to staging FAILED. It
rests in part on the model's own readings, log entries 8, 63. -/
def Obligations.SecurityBulk : Prop :=
  ∀ (s : State) (p : Bool) (src len : Nat),
    (∀ i, (∃ alg, i = .secHash p alg src len ∧ s.serves p 0x10 1) ∨
        (∃ alg h k, i = .hmac p alg h src len ∧ s.serves p 0x11 1 ∧ s.handle p h 1 = some k) ∨
        (∃ h aad dst k, i = .gcmEnc p h aad src len dst ∧ s.serves p 0x12 1 ∧ s.handle p h 1 = some k) ∨
        (∃ h iv tag aad dst k, i = .gcmDec p h iv tag aad src len dst ∧ s.serves p 0x13 1 ∧ s.handle p h 1 = some k) ∨
        (∃ h1 h2 tw dst k l, i = .xtsEnc p h1 h2 tw src len dst ∧ s.serves p 0x14 1 ∧ s.handle p h1 1 = some k ∧
          s.handle p h2 1 = some l) ∨
        (∃ h1 h2 tw dst k l, i = .xtsDec p h1 h2 tw src len dst ∧ s.serves p 0x15 1 ∧ s.handle p h1 1 = some k ∧
          s.handle p h2 1 = some l) ∨
        (∃ h k, i = .sign p h src len ∧ s.serves p 0x16 1 ∧ s.handle p h 2 = some k) ∨
        (∃ pub sig, i = .verify p pub sig src len ∧ s.serves p 0x17 1) →
      (0x100000 < len → ∃ y, exec i s = .next (s.finish { s.start with sec := y }) ∧ s.sec.replied y p 2 []) ∧
      (∀ u, len ≤ 0x100000 → s.start.secRead src len = (u, none) →
        ∃ y, exec i s = .next (s.finish { u with sec := y }) ∧ s.sec.replied y p 3 [])) ∧
    (∀ u d, len ≤ 0x100000 → s.start.secRead src len = (u, some d) →
      (∀ alg, s.serves p 0x10 1 → ∃ y, exec (.secHash p alg src len) s = .next (s.finish { u with sec := y }) ∧
        s.sec.replied y p 0 (wordsOf (firstBytes (digestLen alg) (Config.hashByte alg d)))) ∧
      (∀ alg h k, s.serves p 0x11 1 → s.handle p h 1 = some k →
        ∃ y, exec (.hmac p alg h src len) s = .next (s.finish { u with sec := y }) ∧
          s.sec.replied y p 0 (wordsOf (firstBytes (digestLen alg) (Config.hmacByte alg k d)))) ∧
      (∀ h aad dst k iv c w ok, s.serves p 0x12 1 → s.handle p h 1 = some k →
        iv = (List.range 12).map (Config.drbgByte s.sec.drbg) →
        c = firstBytes d.length (Config.gcmByte true k iv aad d) →
        State.secWrite { u with sec := { u.sec with drbg := u.sec.drbg + 1 } } dst c = (w, ok) →
        ∃ y, exec (.gcmEnc p h aad src len dst) s = .next (s.finish { w with sec := y }) ∧
          Sec.replied { s.sec with drbg := s.sec.drbg + 1 } y p (if ok then 0 else 3)
            (if ok then wordsOf (iv ++ firstBytes 16 (Config.gcmTagByte k iv aad c)) else [])) ∧
      (∀ h iv tag aad dst k w ok, s.serves p 0x13 1 → s.handle p h 1 = some k →
        (tag = firstBytes 16 (Config.gcmTagByte k iv aad d) →
          u.secWrite dst (firstBytes d.length (Config.gcmByte false k iv aad d)) = (w, ok) →
          ∃ y, exec (.gcmDec p h iv tag aad src len dst) s = .next (s.finish { w with sec := y }) ∧
            s.sec.replied y p (if ok then 0 else 3) []) ∧
        (tag ≠ firstBytes 16 (Config.gcmTagByte k iv aad d) → u.secWrite dst (zeros d.length) = (w, ok) →
          ∃ y, exec (.gcmDec p h iv tag aad src len dst) s = .next (s.finish { w with sec := y }) ∧
            s.sec.replied y p (if ok then 6 else 3) [])) ∧
      (∀ h1 h2 tweak dst a b w ok, s.handle p h1 1 = some a → s.handle p h2 1 = some b →
        (s.serves p 0x14 1 → u.secWrite dst (firstBytes d.length (Config.xtsByte true a b tweak d)) = (w, ok) →
          ∃ y, exec (.xtsEnc p h1 h2 tweak src len dst) s = .next (s.finish { w with sec := y }) ∧
            s.sec.replied y p (if ok then 0 else 3) []) ∧
        (s.serves p 0x15 1 → u.secWrite dst (firstBytes d.length (Config.xtsByte false a b tweak d)) = (w, ok) →
          ∃ y, exec (.xtsDec p h1 h2 tweak src len dst) s = .next (s.finish { w with sec := y }) ∧
            s.sec.replied y p (if ok then 0 else 3) [])) ∧
      (∀ h k, s.serves p 0x16 1 → s.handle p h 2 = some k →
        ∃ y, exec (.sign p h src len) s = .next (s.finish { u with sec := y }) ∧
        Sec.replied { s.sec with drbg := s.sec.drbg + 1 } y p 0 (wordsOf (firstBytes 96 (Config.ecdsaByte k d s.sec.drbg)))) ∧
      (∀ pub sig, s.serves p 0x17 1 → ∃ y, exec (.verify p pub sig src len) s = .next (s.finish { u with sec := y }) ∧
        s.sec.replied y p (if Config.ecdsaOk pub d sig then 0 else 6) [])) ∧
    (∀ i, (∃ alg h, i = .hmac p alg h src len ∧ s.serves p 0x11 1 ∧ s.handle p h 1 = none) ∨
        (∃ h aad dst, i = .gcmEnc p h aad src len dst ∧ s.serves p 0x12 1 ∧ s.handle p h 1 = none) ∨
        (∃ h iv tag aad dst, i = .gcmDec p h iv tag aad src len dst ∧ s.serves p 0x13 1 ∧ s.handle p h 1 = none) ∨
        (∃ h1 h2 tw dst, i = .xtsEnc p h1 h2 tw src len dst ∧ s.serves p 0x14 1 ∧ (s.handle p h1 1 = none ∨
          s.handle p h2 1 = none)) ∨
        (∃ h1 h2 tw dst, i = .xtsDec p h1 h2 tw src len dst ∧ s.serves p 0x15 1 ∧ (s.handle p h1 1 = none ∨
          s.handle p h2 1 = none)) ∨
        (∃ h, i = .sign p h src len ∧ s.serves p 0x16 1 ∧ s.handle p h 2 = none) →
      ∃ y, exec i s = .next (s.finish { s.start with sec := y }) ∧ s.sec.replied y p 2 [])

/-- R497, R500: the key services. ECDH, KEYGEN and UNWRAP fill a handle of the port, WRAP answers with the wrapped
key, KEYDEL empties a handle; a pair whose consistency test fails takes the module to ERROR; RANDOM writes DRBG bytes
to staging and ATTEST signs. An argument out of its range, or a handle that holds no key of the kind, is BADARG. It
rests in part on the model's own readings, log entries 8, 63. -/
def Obligations.SecurityKeys : Prop :=
  ∀ (s : State) (p : Bool) (h : Nat),
    (∀ pub e, s.serves p 0x18 1 → e = (List.range 48).map (Config.drbgByte s.sec.drbg) →
      (h < 32 → Config.pointOk pub = true → ∃ y, exec (.ecdh p h pub) s = .next (s.finish { s.start with sec := y }) ∧
        Sec.replied { s.sec with
          drbg := s.sec.drbg + 1, handles := tsetD none s.sec.handles h (some { kind := 1, key := firstBytes 32 (Config.agreeByte e pub), portS := p }) }
          y p 0 (wordsOf (firstBytes 49 (Config.publicByte e)))) ∧
      (32 ≤ h ∨ Config.pointOk pub = false → ∃ y, exec (.ecdh p h pub) s = .next (s.finish { s.start with sec := y }) ∧
        s.sec.replied y p 2 [])) ∧
    (∀ kind pass k, s.serves p 0x19 1 → h < 32 → kind = 1 ∨ kind = 2 →
      k = (List.range (if kind = 1 then 32 else 48)).map (Config.drbgByte s.sec.drbg) →
      (kind = 1 ∨ pass = true → ∃ y, exec (.keygen p h kind pass) s = .next (s.finish { s.start with sec := y }) ∧
        Sec.replied { s.sec with
          drbg := s.sec.drbg + 1, handles := tsetD none s.sec.handles h (some { kind := kind, key := k, portS := p }) } y p 0 []) ∧
      (kind = 2 → pass = false → ∃ y, exec (.keygen p h kind pass) s =
        .next (s.finish { s.start.event 0x20030 0 with sec := { y with state := 2, approved := false } }) ∧
          s.sec.replied y p 3 [])) ∧
    (∀ kind pass, s.serves p 0x19 1 → 32 ≤ h ∨ (kind ≠ 1 ∧ kind ≠ 2) →
      ∃ y, exec (.keygen p h kind pass) s = .next (s.finish { s.start with sec := y }) ∧ s.sec.replied y p 2 []) ∧
    (∀ under x k, s.serves p 0x1A 1 → s.anyHandle p h = some x → s.handle p under 1 = some k →
      ∃ y, exec (.wrap p h under) s = .next (s.finish { s.start with sec := y }) ∧
        s.sec.replied y p 0 (wordsOf (firstBytes (x.key.length + 8) (Config.wrapByte true k x.key)))) ∧
    (∀ under, s.serves p 0x1A 1 → s.anyHandle p h = none ∨ s.handle p under 1 = none →
      ∃ y, exec (.wrap p h under) s = .next (s.finish { s.start with sec := y }) ∧ s.sec.replied y p 2 []) ∧
    (∀ under kind w, s.serves p 0x1B 1 →
      s.handle p under 1 = none ∨ 32 ≤ h ∨ (kind ≠ 1 ∧ kind ≠ 2) ∨ w.length ≠ (if kind = 1 then 32 else 48) + 8 →
      ∃ y, exec (.unwrap p h under kind w) s = .next (s.finish { s.start with sec := y }) ∧ s.sec.replied y p 2 []) ∧
    (∀ under kind w k n, s.serves p 0x1B 1 → s.handle p under 1 = some k → h < 32 → (kind = 1 ∧ n = 32) ∨ (kind = 2 ∧
      n = 48) →
      w.length = n + 8 →
      (Config.unwrapOk k w = true → ∃ y, exec (.unwrap p h under kind w) s = .next (s.finish { s.start with sec := y }) ∧
        Sec.replied { s.sec with
          handles := tsetD none s.sec.handles h (some { kind := kind, key := firstBytes n (Config.wrapByte false k w), portS := p }) } y p 0 []) ∧
      (Config.unwrapOk k w = false → ∃ y, exec (.unwrap p h under kind w) s = .next (s.finish { s.start with sec := y }) ∧
        s.sec.replied y p 6 [])) ∧
    (s.serves p 0x1C 1 →
      (∀ x, s.anyHandle p h = some x → ∃ y, exec (.keydel p h) s = .next (s.finish { s.start with sec := y }) ∧
        Sec.replied { s.sec with handles := tsetD none s.sec.handles h none } y p 0 []) ∧
      (s.anyHandle p h = none → ∃ y, exec (.keydel p h) s = .next (s.finish { s.start with sec := y }) ∧
        s.sec.replied y p 2 [])) ∧
    (∀ n dst, s.serves p 0x1D 1 → 256 < n →
      ∃ y, exec (.random p n dst) s = .next (s.finish { s.start with sec := y }) ∧ s.sec.replied y p 2 []) ∧
    (∀ n dst w ok, s.serves p 0x1D 1 → n ≤ 256 →
      State.secWrite { s.start with sec := { s.sec with drbg := s.sec.drbg + 1 } } dst ((List.range n).map (Config.drbgByte s.sec.drbg)) = (w, ok) →
      ∃ y, exec (.random p n dst) s = .next (s.finish { w with sec := y }) ∧
        Sec.replied { s.sec with drbg := s.sec.drbg + 1 } y p (if ok then 0 else 3) []) ∧
    (∀ nonce, s.serves p 0x1E 1 → ∃ y, exec (.attest p nonce) s = .next (s.finish { s.start with sec := y }) ∧
      Sec.replied { s.sec with drbg := s.sec.drbg + 1 } y p 0 (wordsOf (firstBytes 96 (Config.ecdsaByte identKey
        (nonce ++ bytesOf [s.sec.stat, wd s.sec.departs, s.sec.floor 0, s.sec.floor 1]) s.sec.drbg))))

/-- R497, R499: a service asked for by a port whose role is too low is answered DENIED and changes nothing else; a
service that is not at its turn does nothing. It rests in part on the model's own readings, log entry 63. -/
def Obligations.ServiceRoles : Prop :=
  ∀ (s : State) (i : Instr) (p : Bool) (op role : Nat), serviceOf i = some (p, op, role) →
    (s.serves p op 0 → (s.sec.port p).role < role →
      ∃ y, exec i s = .next (s.finish { s.start with sec := y }) ∧ s.sec.replied y p 4 []) ∧
    (s.secRuns p op = false → exec i s = .next (s.finish s.start))

/-- R493, R494, R497, R498, R503, R505: the OTP services program bits and never clear one: a key and its attribute
into an empty slot, the first CO key with no role, the REVOKED bit, the next floor entry, CONFIG; all but that first
key are DENIED while no slot holds a CO key, and one whose arguments do not fit is BADARG; DESTROY programs DESTROYED
and zeroises. R491, R505: UNLOCK. A token that is ill formed, for another device or another nonce is BADARG, one whose
signature does not hold VERIFY_FAIL; the nonce goes whatever the outcome; a good one erases handles, nonces and roles,
sets SCOPE and DURATION, and leaves approved mode, which programs a departure bit and is an event. It rests in part on
the model's own readings, log entries 63, 64. -/
def Obligations.OtpAndDebug : Prop :=
  (∀ (s : State) (p : Bool),
    (∀ slot use h pub, slot < 12 → s.sec.slotEmpty slot = true →
      (s.sec.anyHolds 4 = false → s.serves p 0x20 0 → slot < 8 → use = 4 → pub.length = 49 →
        ∃ y, exec (.otpKey p slot use h pub) s = .next (s.finish { s.start with sec := y }) ∧
          ((s.sec.program (0x110 + 52 * slot) pub).program (attrAddr slot) [4#8]).replied y p 0 []) ∧
      (s.sec.anyHolds 4 = false → s.serves p 0x20 2 → use ≠ 4 →
        ∃ y, exec (.otpKey p slot use h pub) s = .next (s.finish { s.start with sec := y }) ∧ s.sec.replied y p 4 []) ∧
      (s.sec.anyHolds 4 = true → s.serves p 0x20 2 → slot < 8 → 1 ≤ use → use ≤ 5 → pub.length = 49 →
        ∃ y, exec (.otpKey p slot use h pub) s = .next (s.finish { s.start with sec := y }) ∧
          ((s.sec.program (0x110 + 52 * slot) pub).program (attrAddr slot) [BitVec.ofNat 8 use]).replied y p 0 []) ∧
      (∀ k, s.sec.anyHolds 4 = true → s.serves p 0x20 2 → 8 ≤ slot → use = 6 → s.handle p h 1 = some k →
        ∃ y, exec (.otpKey p slot use h pub) s = .next (s.finish { s.start with sec := y }) ∧
          ((s.sec.program (0x2B0 + 40 * (slot - 8)) (firstBytes 40 (Config.wrapByte true kek k))).program (attrAddr slot) [6#8]).replied y p 0 [])) ∧
    (∀ slot use h pub, s.sec.anyHolds 4 = true ∨ use = 4 → (s.sec.anyHolds 4 = true → s.serves p 0x20 2) →
      (s.sec.anyHolds 4 = false → s.serves p 0x20 0) →
      s.sec.slotEmpty slot = false ∨ 12 ≤ slot ∨ (slot < 8 ∧ (use = 0 ∨ 5 < use ∨ pub.length ≠ 49)) ∨
        (8 ≤ slot ∧ (use ≠ 6 ∨ s.handle p h 1 = none)) →
      ∃ y, exec (.otpKey p slot use h pub) s = .next (s.finish { s.start with sec := y }) ∧ s.sec.replied y p 2 []) ∧
    (∀ slot, s.serves p 0x21 2 → s.sec.anyHolds 4 = true → 12 ≤ slot →
      ∃ y, exec (.otpRevoke p slot) s = .next (s.finish { s.start with sec := y }) ∧ s.sec.replied y p 2 []) ∧
    (∀ kind v running, s.serves p 0x22 2 → s.sec.anyHolds 4 = true → 2 ≤ kind →
      ∃ y, exec (.floor p kind v running) s = .next (s.finish { s.start with sec := y }) ∧ s.sec.replied y p 2 []) ∧
    (∀ i op, (∃ slot, i = .otpRevoke p slot ∧ op = 0x21) ∨ (∃ k v r, i = .floor p k v r ∧ op = 0x22) ∨
      (∃ b, i = .otpConfig p b ∧ op = 0x23) ∨
        (i = .destroy p ∧ op = 0x24) → s.serves p op 2 → s.sec.anyHolds 4 = false →
      ∃ y, exec i s = .next (s.finish { s.start with sec := y }) ∧ s.sec.replied y p 4 []) ∧
    (∀ slot, s.serves p 0x21 2 → s.sec.anyHolds 4 = true → slot < 12 →
      ∃ y, exec (.otpRevoke p slot) s = .next (s.finish { s.start with sec := y }) ∧
        (s.sec.program (attrAddr slot) [0x80#8]).replied y p 0 []) ∧
    (∀ kind v running top, s.serves p 0x22 2 → s.sec.anyHolds 4 = true → kind < 2 →
      top = (if kind = 0 then running else s.reg 0x5001C) →
      (v.toNat < (s.sec.floor kind).toNat ∨ top.toNat < v.toNat →
        ∃ y, exec (.floor p kind v running) s = .next (s.finish { s.start with sec := y }) ∧ s.sec.replied y p 2 []) ∧
      ((s.sec.floor kind).toNat ≤ v.toNat → v.toNat ≤ top.toNat →
        (8 ≤ s.sec.floorUsed kind → ∃ y, exec (.floor p kind v running) s = .next (s.finish { s.start with sec := y }) ∧
          s.sec.replied y p 3 []) ∧
        (s.sec.floorUsed kind < 8 → ∃ y, exec (.floor p kind v running) s = .next (s.finish { s.start with sec := y }) ∧
          (s.sec.program ((if kind = 0 then 0x350 else 0x390) + 8 * s.sec.floorUsed kind)
            (toBytes 4 v.toNat ++ toBytes 4 (~~~ v).toNat)).replied y p 0 []))) ∧
    (∀ bits b, s.serves p 0x23 2 → s.sec.anyHolds 4 = true → b = bits &&& 0x8000001F#32 →
      (s.sec.configOk (wd s.sec.config ||| b).toNat = true →
        ∃ y, exec (.otpConfig p bits) s = .next (s.finish { s.start with sec := y }) ∧
        (s.sec.program 0 (toBytes 4 b.toNat)).replied y p 0 []) ∧
      (s.sec.configOk (wd s.sec.config ||| b).toNat = false →
        ∃ y, exec (.otpConfig p bits) s = .next (s.finish { s.start with sec := y }) ∧
        s.sec.replied y p 2 [])) ∧
    (s.serves p 0x24 2 → s.sec.anyHolds 4 = true →
      ∃ t, exec (.destroy p) s = .next (s.finish t) ∧ t.sec.otp = (s.sec.program 0 (toBytes 4 0x20)).otp ∧
        t.sec.zeroing = true ∧
        t.sec.approved = false ∧ t.sec.handles = [] ∧ t.sec.keyRam = [] ∧ (∀ q, (t.sec.port q).role = 0 ∧
          (t.sec.port q).nonce = none) ∧
        t.sec.waits = [p] ∧ (∀ c, c < 8 → s.hw.chanHere c = true → (t.chan c).state = 0 ∧ (t.chan c).erased = true ∧
          (t.chan c).key = none) ∧ t.rst = s.rst)) ∧
  (∀ (s : State) (p : Bool) (t : List Byte) (x : Sec), s.serves p 7 0 → t = (s.sec.port p).token →
    x = s.sec.setPort p { s.sec.port p with nonce := none } →
    (tokenOk t (s.sec.port p).nonce = false →
      ∃ y, exec (.unlock p) s = .next (s.finish { s.start with sec := y }) ∧ x.replied y p 2 []) ∧
    (tokenOk t (s.sec.port p).nonce = true → s.sec.tokenSigned t = false →
      ∃ y, exec (.unlock p) s = .next (s.finish { s.start with sec := y }) ∧ x.replied y p 6 []) ∧
    (tokenOk t (s.sec.port p).nonce = true → s.sec.tokenSigned t = true →
      (s.sec.approved = true → s.sec.departs = 256 →
        ∃ y, exec (.unlock p) s = .next (s.finish { s.start with sec := y }) ∧ x.replied y p 3 []) ∧
      (∀ x0 z, (s.sec.approved = false ∧ x0 = x) ∨ (s.sec.approved = true ∧ s.sec.departs < 256 ∧
          x0 = x.program (0x3D0 + s.sec.departs / 8) [BitVec.ofNat 8 (2 ^ (s.sec.departs % 8))]) →
        z = { x0 with
          handles := [], h := { x0.h with role := 0, nonce := none }, s := { x0.s with role := 0, nonce := none }, drbg := x0.drbg + 1,
          approved := false, left := x0.left || s.sec.approved, scope := ofBytes (tokenField t 4 4), dbgLeft := ofBytes (tokenField t 0x30 4) } →
        ∃ r, exec (.unlock p) s = .next (s.finish r) ∧ z.replied r.sec p 0 [] ∧ r.bays = s.bays ∧
          r.sq 0x20030 = (if s.sec.approved then (s.sq 0x20030).event 4 else s.sq 0x20030))))

/-- R513, R514: the serialiser's oldest record goes to BG_LASTREC and, where it is enabled and the queue has room,
into the telemetry queue as a notice; else it counts as not sent; a millisecond period adds a PERIODIC record. R523,
R524: a retirement is refused with its reason, or begins, with an evacuation if the bay runs; its end holds the bay in
reset for good, clears its cell of the bay table and sends a record. It rests in part on the model's own readings, log
entries 65, 66. -/
def Obligations.RecordsAndRetirement : Prop :=
  ∀ (s : State),
    (s.bg.held = [] → exec .recordPost s = .next (s.finish s.start)) ∧
    (∀ ws r, s.bg.held = ws :: r →
      (bitAt (s.reg 0x90008) 31 = false →
        ∃ t, exec .recordPost s = .next (s.finish t) ∧ t.bg = { s.bg with held := r } ∧
          (∀ n, n < 16 → t.reg (0x90080 + 4 * n) = ws.getD n 0#32) ∧ t.count 0x90018 = (s.count 0x90018 + 1) % 2 ^ 64 ∧
            t.bays = s.bays ∧ t.qm = s.qm) ∧
      (∀ q ovf, q = fld (s.reg 0x90008) 0 16 → bitAt (s.reg 0x90008) 31 = true → s.qmRuns = true → (s.queue q).state ≠ 0 →
        (s.queue q).state ≠ 3 →
        s.fullFor (s.queue q) 1 true = false → s.place (s.queue q) 1 true = some ovf →
        ∃ t, exec .recordPost s = .next (s.finish t) ∧ (∀ j, j ≠ q → t.queue j = s.queue j) ∧ t.bays = s.bays ∧
          (t.queue q).msgs = (s.queue q).msgs ++ [{ noticeMsg s.devId ws with
            commit := s.qm.commits, inOvf := ovf, agent := (s.queue q).home }]) ∧
      (∀ q, q = fld (s.reg 0x90008) 0 16 → bitAt (s.reg 0x90008) 31 = true → s.qmRuns = false ∨ (s.queue q).state = 0 ∨
        (s.queue q).state = 3 ∨
          s.fullFor (s.queue q) 1 true = true ∨ s.place (s.queue q) 1 true = none →
        ∃ t, exec .recordPost s = .next (s.finish t) ∧ t.bg = { s.bg with held := r } ∧
          t.sq 0x30040 = (s.sq 0x30040).event 4 ∧
          t.count 0x90018 = (s.count 0x90018 + 1) % 2 ^ 64 ∧ t.bays = s.bays ∧ t.qm = s.qm)) ∧
    (fld (s.reg 0x9000C) 0 16 = 0 → exec .periodic s = .next (s.finish s.start)) ∧
    (fld (s.reg 0x9000C) 0 16 ≠ 0 →
      ∃ t, exec .periodic s = .next (s.finish t) ∧ t.bays = s.bays ∧
        (s.bg.lost = 0 → s.bg.held.length < 64 → t.bg.held.length = s.bg.held.length + 1)) ∧
    (∀ v b, s.reachable 0x90120 = true → b = fld v 0 8 →
      (s.bg.retiring.isSome = true ∨ s.scr.evac.isSome = true ∨ (s.rsu.busy = true ∧ s.rsu.op ≠ 1) →
        exec (.bgRetire v) s = .next (s.finish { s.start with bg := { s.bg with rres := 3, rreason := 4 } })) ∧
      (s.bg.retiring = none → s.scr.evac = none → s.rsu.busy = false ∨ s.rsu.op = 1 →
        (s.bentHere (b / 16) = false ∨ s.bg.retired.contains b = true →
          exec (.bgRetire v) s = .next (s.finish { s.start with bg := { s.bg with rres := 3, rreason := 1 } })) ∧
        (s.bentHere (b / 16) = true → s.bg.retired.contains b = false →
          ((∃ n, n < 192 ∧ (s.bank n).kind = 3 ∧ (s.bank n).bay = b) →
            exec (.bgRetire v) s = .next (s.finish { s.start with bg := { s.bg with rres := 3, rreason := 2 } })) ∧
          ((∀ n, n < 192 → (s.bank n).kind ≠ 3 ∨ (s.bank n).bay ≠ b) →
            ∃ t, exec (.bgRetire v) s = .next (s.finish t) ∧
              t.bg = { s.bg with retiring := some (b, bitAt v 30, false), rres := 0, rreason := 0 } ∧
              t.bays = s.bays ∧ ((s.bay b).state ≠ 3 → t.scr = s.scr) ∧
              ((s.bay b).state = 3 → t.scr = { s.scr with
                evRes := 0, evReason := 0, evac := some { bays := [b], drop := bitAt v 30, byBay := true, owner := 1, subject := b, epoch := s.epoch } }))))) ∧
    (s.bg.retiring = none → exec .retirementFinish s = .next (s.finish s.start)) ∧
    (∀ b d a, s.bg.retiring = some (b, d, a) → b < 256 →
      (∀ e, s.scr.evac = some e → e.owner = 1 → exec .retirementFinish s = .next (s.finish s.start)) ∧
      ((∀ e, s.scr.evac = some e → e.owner ≠ 1) → s.tasksOn b = [] → (s.bay b).qio.sendq = [] → (s.bay b).qio.landing = [] →
        (s.bay b).qio.cur = none →
        ∃ t, exec .retirementFinish s = .next (s.finish t) ∧ (t.bay b).state = 0 ∧ (t.bay b).retired = true ∧
          (∀ k, k ≠ b → t.bay k = s.bay k) ∧ t.bg.retiring = none ∧ t.bg.rres = 1 ∧ t.bg.retired = s.bg.retired ++ [b] ∧
          t.reg (0x40400 + 4 * b) = 0#32 ∧
          (s.bg.lost = 0 → s.bg.held.length < 64 → t.bg.held.length = s.bg.held.length + 1)))

/-- R526–R528: a patrol of the flash journal begins after BOOT_OK, outside shoring mode, while it is enabled; its end
finds nothing in sound slots below the wear threshold, and raises an event and a record for a slot whose plan does not
match its CRC or whose generation has reached the threshold. It rests in part on the model's own readings, log entries
65, 67. -/
def Obligations.JournalPatrol : Prop :=
  ∀ (s : State),
    (s.rst.bootOk = true → s.rst.shored = false → bitAt (s.reg 0x90140) 31 = true →
      exec .journalPatrol s = .next (s.finish { s.start with bg := { s.bg with patrol := true } })) ∧
    (s.rst.bootOk = false ∨ s.rst.shored = true ∨ bitAt (s.reg 0x90140) 31 = false →
      exec .journalPatrol s = .next (s.finish s.start)) ∧
    (s.bg.patrol = false → exec .journalPatrolEnd s = .next (s.finish s.start)) ∧
    (s.bg.patrol = true → ∀ (quiet : Nat → Prop), (∀ i, quiet i ↔ (s.slotSound i = false ∨ (s.slotGood i = true ∧
        (s.flashWord (slotBase i + 4)).toNat < fld (s.reg 0x90140) 8 16 * 1000))) →
      (quiet 0 → quiet 1 → exec .journalPatrolEnd s =
        .next (s.finish { s.start with bg := { s.bg with patrol := false } })) ∧
      (∃ t, exec .journalPatrolEnd s = .next (s.finish t) ∧
        t.sq 0x90144 = (s.findings 0 ++ s.findings 1).foldl Sq.event (s.sq 0x90144) ∧
        t.bg.patrol = false ∧ t.mx = s.mx ∧ t.bays = s.bays ∧
        (s.bg.lost = 0 → s.bg.held.length + (s.findings 0 ++ s.findings 1).length ≤ 64 →
          t.bg.held.length = s.bg.held.length + (s.findings 0 ++ s.findings 1).length)))
end

