-- ==== Sys2Proof/Laws/Table.lean ====
section
/-!
SUPPORT. Laws of sparse tables: a read after a write, and the canonical form that every table operation keeps.
-/
namespace Sys2Proof.Machine

/-- The keys rise strictly and no entry equals its default: the canonical form without its Bool. -/
def TabOk {α : Type} (d : Nat → α) (t : Tab α) : Prop :=
  t.Pairwise (fun x y => x.1 < y.1) ∧ ∀ e ∈ t, e.2 ≠ d e.1

theorem twf_iff {α : Type} [DecidableEq α] (d : Nat → α) (t : Tab α) : twf d t = true ↔ TabOk d t := by
  induction t with
  | nil => simp [twf, TabOk]
  | cons x t ih =>
    cases t with
    | nil => obtain ⟨k, v⟩ := x; simp [twf, TabOk]
    | cons y t =>
      obtain ⟨k, v⟩ := x
      obtain ⟨j, u⟩ := y
      simp only [twf, Bool.and_eq_true, decide_eq_true_eq, ih]
      simp only [TabOk, List.pairwise_cons, List.mem_cons, forall_eq_or_imp]
      constructor
      · rintro ⟨⟨h1, h2⟩, ⟨h3, h4⟩, h5, h6⟩
        exact ⟨⟨⟨h2, fun a ha => h2.trans (h3 a ha)⟩, h3, h4⟩, h1, h5, h6⟩
      · rintro ⟨⟨⟨h2, _⟩, h3, h4⟩, h1, h5, h6⟩
        exact ⟨⟨h1, h2⟩, ⟨h3, h4⟩, h5, h6⟩

/-! ## Reads after writes -/

@[simp] theorem tget_nil {α : Type} (d : Nat → α) (k : Nat) : tget d [] k = d k := rfl

theorem tget_tdel {α : Type} (d : Nat → α) (t : Tab α) (k j : Nat) :
    tget d (tdel t k) j = if j = k then d j else tget d t j := by
  induction t with
  | nil => simp [tdel]
  | cons x t ih =>
    obtain ⟨i, v⟩ := x
    by_cases hi : i = k
    · subst hi
      simp only [tdel, if_true, ih, tget]
      by_cases hj : j = i
      · simp [hj]
      · simp [hj, Ne.symm hj]
    · simp only [tdel, if_neg hi, tget, ih]
      by_cases hj : i = j
      · subst hj; simp [hi]
      · simp [hj]

theorem tget_tins {α : Type} (d : Nat → α) (t : Tab α) (k j : Nat) (v : α) (h : ∀ e ∈ t, e.1 ≠ k) :
    tget d (tins t k v) j = if j = k then v else tget d t j := by
  induction t with
  | nil =>
    by_cases hj : j = k
    · simp [tins, tget, hj]
    · simp [tins, tget, hj, Ne.symm hj]
  | cons x t ih =>
    obtain ⟨i, u⟩ := x
    have hi : i ≠ k := h (i, u) (by simp)
    simp only [tins]
    split
    · simp only [tget]
      by_cases hj : j = k
      · simp [hj]
      · simp [hj, Ne.symm hj]
    · simp only [tget, ih (fun e he => h e (List.mem_cons_of_mem _ he))]
      by_cases hj : i = j
      · subst hj; simp [hi]
      · simp [hj]

theorem tdel_keys {α : Type} (t : Tab α) (k : Nat) : ∀ e ∈ tdel t k, e.1 ≠ k := by
  induction t with
  | nil => simp [tdel]
  | cons x t ih =>
    obtain ⟨i, v⟩ := x
    by_cases hi : i = k
    · simpa [tdel, hi] using ih
    · simp only [tdel, if_neg hi, List.mem_cons, forall_eq_or_imp]
      exact ⟨hi, ih⟩

/-- A table reads back what was written, and every other key as before. -/
theorem tget_tset {α : Type} [DecidableEq α] (d : Nat → α) (t : Tab α) (k j : Nat) (v : α) :
    tget d (tset d t k v) j = if j = k then v else tget d t j := by
  unfold tset
  split
  · rename_i h
    rw [tget_tdel]
    by_cases hj : j = k
    · simp [hj, h]
    · simp [hj]
  · rw [tget_tins d _ k j v (tdel_keys t k), tget_tdel]
    by_cases hj : j = k <;> simp [hj]

@[simp] theorem tget_tset_same {α : Type} [DecidableEq α] (d : Nat → α) (t : Tab α) (k : Nat) (v : α) :
    tget d (tset d t k v) k = v := by simp [tget_tset]

theorem tget_tset_ne {α : Type} [DecidableEq α] (d : Nat → α) (t : Tab α) {k j : Nat} (v : α) (h : j ≠ k) :
    tget d (tset d t k v) j = tget d t j := by simp [tget_tset, h]

@[simp] theorem tgetD_tsetD_same {α : Type} [DecidableEq α] (d : α) (t : Tab α) (k : Nat) (v : α) :
    tgetD d (tsetD d t k v) k = v := tget_tset_same _ t k v

theorem tgetD_tsetD_ne {α : Type} [DecidableEq α] (d : α) (t : Tab α) {k j : Nat} (v : α) (h : j ≠ k) :
    tgetD d (tsetD d t k v) j = tgetD d t j := tget_tset_ne _ t v h

@[simp] theorem tgetD_nil {α : Type} (d : α) (k : Nat) : tgetD d [] k = d := rfl

/-! ## The canonical form -/

theorem tdel_sublist {α : Type} (t : Tab α) (k : Nat) : (tdel t k).Sublist t := by
  induction t with
  | nil => simp [tdel]
  | cons x t ih =>
    obtain ⟨i, v⟩ := x
    by_cases hi : i = k
    · simpa [tdel, hi] using ih.trans (List.sublist_cons_self _ _)
    · simpa [tdel, hi] using ih

theorem TabOk.sublist {α : Type} {d : Nat → α} {t u : Tab α} (h : TabOk d t) (s : u.Sublist t) : TabOk d u :=
  ⟨h.1.sublist s, fun e he => h.2 e (s.subset he)⟩

theorem mem_tins {α : Type} (t : Tab α) (k : Nat) (v : α) (e : Nat × α) (h : e ∈ tins t k v) :
    e = (k, v) ∨ e ∈ t := by
  induction t with
  | nil => simpa [tins] using h
  | cons x t ih =>
    obtain ⟨i, u⟩ := x
    simp only [tins] at h
    split at h
    · simpa using h
    · rcases List.mem_cons.1 h with h | h
      · simp [h]
      · rcases ih h with h | h <;> simp [h]

theorem TabOk.tins {α : Type} {d : Nat → α} {t : Tab α} {k : Nat} {v : α} (h : TabOk d t) (hk : ∀ e ∈ t, e.1 ≠ k)
    (hv : v ≠ d k) : TabOk d (tins t k v) := by
  induction t with
  | nil => simp [Machine.tins, TabOk, hv]
  | cons x t ih =>
    obtain ⟨i, u⟩ := x
    have hi : i ≠ k := hk (i, u) (by simp)
    obtain ⟨h1, h2⟩ := h
    rw [List.pairwise_cons] at h1
    have ht : TabOk d t := ⟨h1.2, fun e he => h2 e (List.mem_cons_of_mem _ he)⟩
    simp only [Machine.tins]
    split
    · rename_i hlt
      refine ⟨?_, ?_⟩
      · rw [List.pairwise_cons]
        refine ⟨fun e he => ?_, List.pairwise_cons.2 h1⟩
        rcases List.mem_cons.1 he with rfl | he
        · exact hlt
        · exact hlt.trans (h1.1 e he)
      · intro e he
        rcases List.mem_cons.1 he with rfl | he
        · exact hv
        · exact h2 e he
    · rename_i hlt
      have ih' := ih ht (fun e he => hk e (List.mem_cons_of_mem _ he))
      refine ⟨?_, ?_⟩
      · rw [List.pairwise_cons]
        refine ⟨fun e he => ?_, ih'.1⟩
        rcases mem_tins t k v e he with rfl | he
        · have : ¬ k < i := hlt
          show i < k
          omega
        · exact h1.1 e he
      · intro e he
        rcases List.mem_cons.1 he with rfl | he
        · exact h2 _ (by simp)
        · exact ih'.2 e he

/-- Writing a table keeps its canonical form. -/
theorem twf_tset {α : Type} [DecidableEq α] {d : Nat → α} {t : Tab α} (k : Nat) (v : α) (h : twf d t = true) :
    twf d (tset d t k v) = true := by
  rw [twf_iff] at h ⊢
  have hd := h.sublist (tdel_sublist t k)
  unfold tset
  split
  · exact hd
  · rename_i hv
    exact hd.tins (tdel_keys t k) hv

/-- Clearing a range of a table keeps its canonical form. -/
theorem twf_tclear {α : Type} [DecidableEq α] {d : Nat → α} {t : Tab α} (lo n : Nat) (h : twf d t = true) :
    twf d (tclear t lo n) = true := by
  rw [twf_iff] at h ⊢
  exact h.sublist List.filter_sublist

/-- An empty table is in canonical form. -/
@[simp] theorem twf_nil {α : Type} [DecidableEq α] (d : Nat → α) : twf d [] = true := rfl

end Sys2Proof.Machine
end

