-- ==== Sys2Proof/Laws/Memory.lean ====
section
/-!
SUPPORT. Laws of byte memories: a read after a write, and the canonical form that every memory operation keeps.
-/
namespace Sys2Proof.Machine

/-! ## Generations -/

@[simp] theorem Mem.putByte_gen (m : Mem) (a : Nat) (v : Byte) : (m.putByte a v).gen = m.gen := rfl

@[simp] theorem Mem.putBytes_gen (l : List Byte) : ∀ (m : Mem) (a : Nat), (m.putBytes a l).gen = m.gen := by
  induction l with
  | nil => intro m a; rfl
  | cons v t ih => intro m a; simp [Mem.putBytes, ih]

/-! ## Reads after writes -/

/-- A byte reads back; every other address is left alone. -/
theorem Mem.byte_putByte (m : Mem) (a b : Nat) (v : Byte) :
    (m.putByte a v).byte b = if b = a then v else m.byte b := tget_tset _ _ _ _ _

@[simp] theorem Mem.byte_putByte_same (m : Mem) (a : Nat) (v : Byte) : (m.putByte a v).byte a = v := by
  simp [Mem.byte_putByte]

/-- A write of a list of bytes leaves every address below and beyond it alone. -/
theorem Mem.byte_putBytes_out (l : List Byte) :
    ∀ (m : Mem) (a b : Nat), (b < a ∨ a + l.length ≤ b) → (m.putBytes a l).byte b = m.byte b := by
  induction l with
  | nil => intro m a b _; rfl
  | cons v t ih =>
    intro m a b h
    simp only [List.length_cons] at h
    rw [Mem.putBytes, ih _ _ _ (by omega), Mem.byte_putByte, if_neg (by omega)]

/-- Every byte of the list reads back at its place. -/
theorem Mem.byte_putBytes_in (l : List Byte) :
    ∀ (m : Mem) (a i : Nat) (h : i < l.length), (m.putBytes a l).byte (a + i) = l[i] := by
  induction l with
  | nil => intro m a i h; simp at h
  | cons v t ih =>
    intro m a i h
    cases i with
    | zero => simp [Mem.putBytes, Mem.byte_putBytes_out t _ (a + 1) a (by omega)]
    | succ i =>
      have := ih (m.putByte a v) (a + 1) i (by simpa using h)
      simpa [Mem.putBytes, Nat.add_assoc, Nat.add_comm 1 i] using this

theorem Mem.bytes_putBytes_out (m : Mem) (a : Nat) (l : List Byte) (n : Nat) :
    ∀ b, (b + n ≤ a ∨ a + l.length ≤ b) → (m.putBytes a l).bytes b n = m.bytes b n := by
  induction n with
  | zero => intro b _; rfl
  | succ n ih =>
    intro b h
    rw [Mem.bytes, Mem.bytes, ih (b + 1) (by omega), Mem.byte_putBytes_out l m a b (by omega)]

/-- What was written reads back whole. -/
theorem Mem.bytes_putBytes (l : List Byte) : ∀ (m : Mem) (a : Nat), (m.putBytes a l).bytes a l.length = l := by
  induction l with
  | nil => intro m a; rfl
  | cons v t ih =>
    intro m a
    have h : (m.putBytes a (v :: t)).byte a = v :=
      Mem.byte_putBytes_in (v :: t) m a 0 (by simp)
    simp only [List.length_cons, Mem.bytes, h]
    rw [Mem.putBytes, ih]

theorem toBytes_length : ∀ n v, (toBytes n v).length = n
  | 0, _ => rfl
  | n + 1, v => by simp [toBytes, toBytes_length n]

theorem ofBytes_toBytes : ∀ n v, ofBytes (toBytes n v) = v % 256 ^ n
  | 0, v => by simp [toBytes, ofBytes, Nat.mod_one]
  | n + 1, v => by
    simp only [toBytes, ofBytes, ofBytes_toBytes n, BitVec.toNat_ofNat]
    have e : 256 ^ (n + 1) = 256 * 256 ^ n := by rw [pow_succ, Nat.mul_comm]
    rw [e, Nat.mod_mul]

/-- A number written at an address reads back, cut to its width. -/
theorem Mem.num_putNum (m : Mem) (a n v : Nat) : (m.putNum a n v).num a n = v % 256 ^ n := by
  unfold Mem.num Mem.putNum
  have h := Mem.bytes_putBytes (toBytes n v) m a
  rw [toBytes_length] at h
  rw [h, ofBytes_toBytes]

/-- A word reads back. -/
@[simp] theorem Mem.word_putWord (m : Mem) (a : Nat) (v : Word) : (m.putWord a v).word a = v := by
  unfold Mem.word Mem.putWord
  rw [Mem.num_putNum]
  apply BitVec.eq_of_toNat_eq
  have := v.isLt
  simp only [wd, BitVec.toNat_ofNat]
  omega

/-- A number elsewhere is left alone. -/
theorem Mem.num_putNum_out (m : Mem) (a n v b k : Nat) (h : b + k ≤ a ∨ a + n ≤ b) :
    (m.putNum a n v).num b k = m.num b k := by
  unfold Mem.num Mem.putNum
  rw [Mem.bytes_putBytes_out _ _ _ _ _ (by rw [toBytes_length]; omega)]

/-! ## The canonical form -/

theorem Mem.wf_putByte {m : Mem} (a : Nat) (v : Byte) (h : m.wf = true) : (m.putByte a v).wf = true := twf_tset _ _ h

theorem Mem.wf_putBytes (l : List Byte) : ∀ {m : Mem} (a : Nat), m.wf = true → (m.putBytes a l).wf = true := by
  induction l with
  | nil => intro m a h; exact h
  | cons v t ih => intro m a h; exact ih (a + 1) (Mem.wf_putByte a v h)

theorem Mem.wf_putNum {m : Mem} (a n v : Nat) (h : m.wf = true) : (m.putNum a n v).wf = true := Mem.wf_putBytes _ a h

theorem Mem.wf_putWord {m : Mem} (a : Nat) (v : Word) (h : m.wf = true) : (m.putWord a v).wf = true :=
  Mem.wf_putBytes _ a h

theorem Mem.wf_zero {m : Mem} (a n : Nat) (h : m.wf = true) : (m.zero a n).wf = true := by
  unfold Mem.zero
  split
  · exact twf_tclear a n h
  · exact Mem.wf_putBytes _ a h

@[simp] theorem Mem.wf_scrambled (gen : Nat) : (Mem.scrambled gen).wf = true := rfl

@[simp] theorem Mem.wf_empty (gen : Nat) : ({ gen := gen } : Mem).wf = true := rfl

/-- Entries put in the place of a range keep the canonical form. -/
theorem Mem.wf_splice {m : Mem} (base n : Nat) (f : Nat → Byte) (h : m.wf = true) : (m.splice base n f).wf = true := by
  unfold Mem.wf at h ⊢
  rw [twf_iff] at h ⊢
  obtain ⟨h1, h2⟩ := h
  have hmid : ((List.range n).filterMap fun o =>
      if f o = memDefault m.gen (base + o) then none else some (base + o, f o)).Pairwise (fun x y => x.1 < y.1) := by
    rw [List.pairwise_filterMap]
    refine List.pairwise_lt_range.imp ?_
    intro a b hab x hx y hy
    split at hx <;> simp only [Option.some.injEq, reduceCtorEq] at hx
    split at hy <;> simp only [Option.some.injEq, reduceCtorEq] at hy
    subst hx; subst hy
    simpa using hab
  have hin : ∀ e ∈ (List.range n).filterMap (fun o =>
      if f o = memDefault m.gen (base + o) then none else some (base + o, f o)),
      base ≤ e.1 ∧ e.1 < base + n ∧ e.2 ≠ memDefault m.gen e.1 := by
    intro e he
    rw [List.mem_filterMap] at he
    obtain ⟨o, ho, hx⟩ := he
    split at hx <;> simp only [Option.some.injEq, reduceCtorEq] at hx
    subst hx
    rw [List.mem_range] at ho
    exact ⟨by simp, by simpa using ho, by assumption⟩
  refine ⟨?_, ?_⟩
  · simp only [Mem.splice]
    rw [List.pairwise_append, List.pairwise_append]
    refine ⟨⟨h1.filter _, hmid, ?_⟩, h1.filter _, ?_⟩
    · intro x hx y hy
      rw [List.mem_filter] at hx
      have := (hin y hy).1
      have hx2 : x.1 < base := by simpa using hx.2
      omega
    · intro x hx y hy
      rw [List.mem_filter] at hy
      have hy2 : base + n ≤ y.1 := by simpa using hy.2
      rcases List.mem_append.1 hx with hx | hx
      · rw [List.mem_filter] at hx
        have hx2 : x.1 < base := by simpa using hx.2
        omega
      · have := (hin x hx).2.1
        omega
  · intro e he
    simp only [Mem.splice, List.mem_append, List.mem_filter] at he
    rcases he with (he | he) | he
    · exact h2 e he.1
    · exact (hin e he).2.2
    · exact h2 e he.1

/-! ## A block that is replaced -/

/-- A lookup in two tables put one behind the other, where the second lists no such key. -/
theorem tget_append_left {α : Type} (d : Nat → α) (t : Tab α) (k : Nat) : ∀ (l : Tab α), (∀ e ∈ t, e.1 ≠ k) →
    tget d (l ++ t) k = tget d l k
  | [], h => by
    induction t with
    | nil => rfl
    | cons e t ih =>
      have h1 : e.1 ≠ k := h e (by simp)
      have h2 := ih fun x hx => h x (by simp [hx])
      simpa [tget, h1] using h2
  | e :: l, h => by
    have := tget_append_left d t k l h
    simp only [List.cons_append, tget, this]

/-- A lookup in two tables put one behind the other, where the first lists no such key. -/
theorem tget_append_right {α : Type} (d : Nat → α) (t : Tab α) (k : Nat) : ∀ (l : Tab α), (∀ e ∈ l, e.1 ≠ k) →
    tget d (l ++ t) k = tget d t k
  | [], _ => rfl
  | e :: l, h => by
    have h1 : e.1 ≠ k := h e (by simp)
    have := tget_append_right d t k l fun x hx => h x (by simp [hx])
    simp only [List.cons_append, tget, this, h1, if_false]

/-- A lookup of a key that a filter by keys lets pass. -/
theorem tget_filter {α : Type} (d : Nat → α) (p : Nat → Bool) (k : Nat) (hk : p k = true) : ∀ (l : Tab α),
    tget d (l.filter fun e => p e.1) k = tget d l k
  | [] => rfl
  | e :: l => by
    have ih := tget_filter d p k hk l
    by_cases h : e.1 = k
    · rw [List.filter_cons_of_pos (p := fun e : Nat × α => p e.1) (by rw [h]; exact hk)]
      simp [tget, h]
    · by_cases hp : p e.1 = true
      · rw [List.filter_cons_of_pos (p := fun e : Nat × α => p e.1) hp]
        simp only [tget, h, if_false, ih]
      · rw [List.filter_cons_of_neg (p := fun e : Nat × α => p e.1) hp, ih]
        simp only [tget, h, if_false]

/-- A lookup in a table that lists the values of `f` from `base` on where they differ from the default. -/
theorem tget_listed (d : Nat → Byte) (f : Nat → Byte) (base k : Nat) (hb : base ≤ k) : ∀ (l : List Nat), k - base ∈ l →
    tget d (l.filterMap fun o => if f o = d (base + o) then none else some (base + o, f o)) k = f (k - base)
  | [], h => by simp at h
  | o :: l, h => by
    by_cases ho : o = k - base
    · have hk : base + o = k := by omega
      by_cases hf : f o = d (base + o)
      · rw [List.filterMap_cons_none (by simp [hf])]
        by_cases hm : k - base ∈ l
        · exact tget_listed d f base k hb l hm
        · rw [← List.nil_append (List.filterMap _ l), tget_append_left d _ k []]
          · rw [← ho, hf, hk]; rfl
          · intro e he
            rw [List.mem_filterMap] at he
            obtain ⟨x, hx, hy⟩ := he
            split at hy
            · simp at hy
            · simp only [Option.some.injEq] at hy
              subst hy
              intro hc
              dsimp at hc
              exact hm (by rw [show k - base = x from by omega]; exact hx)
      · rw [List.filterMap_cons_some (b := (base + o, f o)) (by simp [hf])]
        rw [ho] at hk ⊢
        simp [tget, hk]
    · have hm : k - base ∈ l := by
        rcases List.mem_cons.1 h with h | h
        · exact absurd h.symm ho
        · exact h
      have ih := tget_listed d f base k hb l hm
      by_cases hf : f o = d (base + o)
      · rw [List.filterMap_cons_none (by simp [hf]), ih]
      · rw [List.filterMap_cons_some (b := (base + o, f o)) (by simp [hf])]
        have : base + o ≠ k := by omega
        simp only [tget, this, if_false, ih]

/-- A block that is replaced reads as the new bytes, and the rest of the memory as before. -/
theorem Mem.byte_splice (m : Mem) (base n : Nat) (f : Nat → Byte) (a : Nat) :
    (m.splice base n f).byte a = if base ≤ a ∧ a < base + n then f (a - base) else m.byte a := by
  have hin : ∀ e ∈ (List.range n).filterMap (fun o =>
      if f o = memDefault m.gen (base + o) then none else some (base + o, f o)), base ≤ e.1 ∧ e.1 < base + n := by
    intro e he
    rw [List.mem_filterMap] at he
    obtain ⟨o, ho, hx⟩ := he
    split at hx <;> simp only [Option.some.injEq, reduceCtorEq] at hx
    subst hx
    rw [List.mem_range] at ho
    exact ⟨by simp, by simpa using ho⟩
  unfold Mem.byte
  rw [show (m.splice base n f).gen = m.gen from rfl]
  simp only [Mem.splice]
  by_cases h1 : a < base
  · rw [if_neg (by omega), tget_append_left, tget_append_left]
    · exact tget_filter _ (fun k => decide (k < base)) a (by simp [h1]) _
    · intro e he; have := (hin e he).1; omega
    · intro e he
      rw [List.mem_filter] at he
      have : base + n ≤ e.1 := by simpa using he.2
      omega
  · by_cases h2 : a < base + n
    · rw [if_pos ⟨by omega, h2⟩, tget_append_left, tget_append_right]
      · exact tget_listed _ f base a (by omega) _ (by rw [List.mem_range]; omega)
      · intro e he
        rw [List.mem_filter] at he
        have : e.1 < base := by simpa using he.2
        omega
      · intro e he
        rw [List.mem_filter] at he
        have : base + n ≤ e.1 := by simpa using he.2
        omega
    · rw [if_neg (by omega), tget_append_right]
      · exact tget_filter _ (fun k => decide (base + n ≤ k)) a (by simp; omega) _
      · intro e he
        rcases List.mem_append.1 he with he | he
        · rw [List.mem_filter] at he
          have : e.1 < base := by simpa using he.2
          omega
        · have := (hin e he).2
          omega

end Sys2Proof.Machine
end

