-- ==== Sys2Proof/Laws/Bay.lean ====
section
/-!
SUPPORT. What each named update of a bay leaves of each field, and its registers read back after a write.
-/
namespace Sys2Proof.Machine

@[simp] theorem Bay.setGpr_id (b : Bay) (n : Nat) (v : Word) : (b.setGpr n v).id = b.id := rfl
@[simp] theorem Bay.setGpr_sill (b : Bay) (n : Nat) (v : Word) : (b.setGpr n v).sill = b.sill := rfl
@[simp] theorem Bay.setGpr_state (b : Bay) (n : Nat) (v : Word) : (b.setGpr n v).state = b.state := rfl
@[simp] theorem Bay.setGpr_retired (b : Bay) (n : Nat) (v : Word) : (b.setGpr n v).retired = b.retired := rfl
@[simp] theorem Bay.setGpr_guards (b : Bay) (n : Nat) (v : Word) : (b.setGpr n v).guards = b.guards := rfl
@[simp] theorem Bay.setGpr_arith (b : Bay) (n : Nat) (v : Word) : (b.setGpr n v).arith = b.arith := rfl
@[simp] theorem Bay.setGpr_opnds (b : Bay) (n : Nat) (v : Word) : (b.setGpr n v).opnds = b.opnds := rfl
@[simp] theorem Bay.setGpr_ports (b : Bay) (n : Nat) (v : Word) : (b.setGpr n v).ports = b.ports := rfl
@[simp] theorem Bay.setGpr_crcs (b : Bay) (n : Nat) (v : Word) : (b.setGpr n v).crcs = b.crcs := rfl
@[simp] theorem Bay.setGpr_istore (b : Bay) (n : Nat) (v : Word) : (b.setGpr n v).istore = b.istore := rfl
@[simp] theorem Bay.setGpr_imarks (b : Bay) (n : Nat) (v : Word) : (b.setGpr n v).imarks = b.imarks := rfl
@[simp] theorem Bay.setGpr_scratch (b : Bay) (n : Nat) (v : Word) : (b.setGpr n v).scratch = b.scratch := rfl
@[simp] theorem Bay.setGpr_smarks (b : Bay) (n : Nat) (v : Word) : (b.setGpr n v).smarks = b.smarks := rfl
@[simp] theorem Bay.setGpr_iwrAddr (b : Bay) (n : Nat) (v : Word) : (b.setGpr n v).iwrAddr = b.iwrAddr := rfl
@[simp] theorem Bay.setGpr_iwrStage (b : Bay) (n : Nat) (v : Word) : (b.setGpr n v).iwrStage = b.iwrStage := rfl
@[simp] theorem Bay.setGpr_iwrOvf (b : Bay) (n : Nat) (v : Word) : (b.setGpr n v).iwrOvf = b.iwrOvf := rfl
@[simp] theorem Bay.setGpr_oldWords (b : Bay) (n : Nat) (v : Word) : (b.setGpr n v).oldWords = b.oldWords := rfl
@[simp] theorem Bay.setGpr_pipe (b : Bay) (n : Nat) (v : Word) : (b.setGpr n v).pipe = b.pipe := rfl
@[simp] theorem Bay.setGpr_ctx (b : Bay) (n : Nat) (v : Word) : (b.setGpr n v).ctx = b.ctx := rfl
@[simp] theorem Bay.setGpr_tmr (b : Bay) (n : Nat) (v : Word) : (b.setGpr n v).tmr = b.tmr := rfl
@[simp] theorem Bay.setGpr_qio (b : Bay) (n : Nat) (v : Word) : (b.setGpr n v).qio = b.qio := rfl
@[simp] theorem Bay.setGpr_led (b : Bay) (n : Nat) (v : Word) : (b.setGpr n v).led = b.led := rfl
@[simp] theorem Bay.setGpr_str (b : Bay) (n : Nat) (v : Word) : (b.setGpr n v).str = b.str := rfl
@[simp] theorem Bay.setGpr_dbg (b : Bay) (n : Nat) (v : Word) : (b.setGpr n v).dbg = b.dbg := rfl
@[simp] theorem Bay.setGpr_mbx (b : Bay) (n : Nat) (v : Word) : (b.setGpr n v).mbx = b.mbx := rfl
@[simp] theorem Bay.setGpr_march (b : Bay) (n : Nat) (v : Word) : (b.setGpr n v).march = b.march := rfl
@[simp] theorem Bay.setGpr_ueDowns (b : Bay) (n : Nat) (v : Word) : (b.setGpr n v).ueDowns = b.ueDowns := rfl
@[simp] theorem Bay.setGpr_free (b : Bay) (n : Nat) (v : Word) : (b.setGpr n v).free = b.free := rfl
@[simp] theorem Bay.setGpr_remap (b : Bay) (n : Nat) (v : Word) : (b.setGpr n v).remap = b.remap := rfl
@[simp] theorem Bay.setGpr_reqs (b : Bay) (n : Nat) (v : Word) : (b.setGpr n v).reqs = b.reqs := rfl

@[simp] theorem Bay.setOpnd_id (b : Bay) (u i p : Nat) (v : Word) : (b.setOpnd u i p v).id = b.id := rfl
@[simp] theorem Bay.setOpnd_sill (b : Bay) (u i p : Nat) (v : Word) : (b.setOpnd u i p v).sill = b.sill := rfl
@[simp] theorem Bay.setOpnd_state (b : Bay) (u i p : Nat) (v : Word) : (b.setOpnd u i p v).state = b.state := rfl
@[simp] theorem Bay.setOpnd_retired (b : Bay) (u i p : Nat) (v : Word) : (b.setOpnd u i p v).retired = b.retired := rfl
@[simp] theorem Bay.setOpnd_gp (b : Bay) (u i p : Nat) (v : Word) : (b.setOpnd u i p v).gp = b.gp := rfl
@[simp] theorem Bay.setOpnd_guards (b : Bay) (u i p : Nat) (v : Word) : (b.setOpnd u i p v).guards = b.guards := rfl
@[simp] theorem Bay.setOpnd_arith (b : Bay) (u i p : Nat) (v : Word) : (b.setOpnd u i p v).arith = b.arith := rfl
@[simp] theorem Bay.setOpnd_ports (b : Bay) (u i p : Nat) (v : Word) : (b.setOpnd u i p v).ports = b.ports := rfl
@[simp] theorem Bay.setOpnd_crcs (b : Bay) (u i p : Nat) (v : Word) : (b.setOpnd u i p v).crcs = b.crcs := rfl
@[simp] theorem Bay.setOpnd_istore (b : Bay) (u i p : Nat) (v : Word) : (b.setOpnd u i p v).istore = b.istore := rfl
@[simp] theorem Bay.setOpnd_imarks (b : Bay) (u i p : Nat) (v : Word) : (b.setOpnd u i p v).imarks = b.imarks := rfl
@[simp] theorem Bay.setOpnd_scratch (b : Bay) (u i p : Nat) (v : Word) : (b.setOpnd u i p v).scratch = b.scratch := rfl
@[simp] theorem Bay.setOpnd_smarks (b : Bay) (u i p : Nat) (v : Word) : (b.setOpnd u i p v).smarks = b.smarks := rfl
@[simp] theorem Bay.setOpnd_iwrAddr (b : Bay) (u i p : Nat) (v : Word) : (b.setOpnd u i p v).iwrAddr = b.iwrAddr := rfl
@[simp] theorem Bay.setOpnd_iwrStage (b : Bay) (u i p : Nat) (v : Word) : (b.setOpnd u i p v).iwrStage = b.iwrStage := rfl
@[simp] theorem Bay.setOpnd_iwrOvf (b : Bay) (u i p : Nat) (v : Word) : (b.setOpnd u i p v).iwrOvf = b.iwrOvf := rfl
@[simp] theorem Bay.setOpnd_oldWords (b : Bay) (u i p : Nat) (v : Word) : (b.setOpnd u i p v).oldWords = b.oldWords := rfl
@[simp] theorem Bay.setOpnd_pipe (b : Bay) (u i p : Nat) (v : Word) : (b.setOpnd u i p v).pipe = b.pipe := rfl
@[simp] theorem Bay.setOpnd_ctx (b : Bay) (u i p : Nat) (v : Word) : (b.setOpnd u i p v).ctx = b.ctx := rfl
@[simp] theorem Bay.setOpnd_tmr (b : Bay) (u i p : Nat) (v : Word) : (b.setOpnd u i p v).tmr = b.tmr := rfl
@[simp] theorem Bay.setOpnd_qio (b : Bay) (u i p : Nat) (v : Word) : (b.setOpnd u i p v).qio = b.qio := rfl
@[simp] theorem Bay.setOpnd_led (b : Bay) (u i p : Nat) (v : Word) : (b.setOpnd u i p v).led = b.led := rfl
@[simp] theorem Bay.setOpnd_str (b : Bay) (u i p : Nat) (v : Word) : (b.setOpnd u i p v).str = b.str := rfl
@[simp] theorem Bay.setOpnd_dbg (b : Bay) (u i p : Nat) (v : Word) : (b.setOpnd u i p v).dbg = b.dbg := rfl
@[simp] theorem Bay.setOpnd_mbx (b : Bay) (u i p : Nat) (v : Word) : (b.setOpnd u i p v).mbx = b.mbx := rfl
@[simp] theorem Bay.setOpnd_march (b : Bay) (u i p : Nat) (v : Word) : (b.setOpnd u i p v).march = b.march := rfl
@[simp] theorem Bay.setOpnd_ueDowns (b : Bay) (u i p : Nat) (v : Word) : (b.setOpnd u i p v).ueDowns = b.ueDowns := rfl
@[simp] theorem Bay.setOpnd_free (b : Bay) (u i p : Nat) (v : Word) : (b.setOpnd u i p v).free = b.free := rfl
@[simp] theorem Bay.setOpnd_remap (b : Bay) (u i p : Nat) (v : Word) : (b.setOpnd u i p v).remap = b.remap := rfl
@[simp] theorem Bay.setOpnd_reqs (b : Bay) (u i p : Nat) (v : Word) : (b.setOpnd u i p v).reqs = b.reqs := rfl

@[simp] theorem Bay.receive_id (b : Bay) (u i p : Nat) (v : Word) (x : Option Word) : (b.receive u i p v x).id = b.id := rfl
@[simp] theorem Bay.receive_sill (b : Bay) (u i p : Nat) (v : Word) (x : Option Word) : (b.receive u i p v x).sill = b.sill := rfl
@[simp] theorem Bay.receive_state (b : Bay) (u i p : Nat) (v : Word) (x : Option Word) : (b.receive u i p v x).state = b.state := rfl
@[simp] theorem Bay.receive_retired (b : Bay) (u i p : Nat) (v : Word) (x : Option Word) : (b.receive u i p v x).retired = b.retired := rfl
@[simp] theorem Bay.receive_gp (b : Bay) (u i p : Nat) (v : Word) (x : Option Word) : (b.receive u i p v x).gp = b.gp := rfl
@[simp] theorem Bay.receive_guards (b : Bay) (u i p : Nat) (v : Word) (x : Option Word) : (b.receive u i p v x).guards = b.guards := rfl
@[simp] theorem Bay.receive_arith (b : Bay) (u i p : Nat) (v : Word) (x : Option Word) : (b.receive u i p v x).arith = b.arith := rfl
@[simp] theorem Bay.receive_opnds (b : Bay) (u i p : Nat) (v : Word) (x : Option Word) : (b.receive u i p v x).opnds = b.opnds := rfl
@[simp] theorem Bay.receive_crcs (b : Bay) (u i p : Nat) (v : Word) (x : Option Word) : (b.receive u i p v x).crcs = b.crcs := rfl
@[simp] theorem Bay.receive_istore (b : Bay) (u i p : Nat) (v : Word) (x : Option Word) : (b.receive u i p v x).istore = b.istore := rfl
@[simp] theorem Bay.receive_imarks (b : Bay) (u i p : Nat) (v : Word) (x : Option Word) : (b.receive u i p v x).imarks = b.imarks := rfl
@[simp] theorem Bay.receive_scratch (b : Bay) (u i p : Nat) (v : Word) (x : Option Word) : (b.receive u i p v x).scratch = b.scratch := rfl
@[simp] theorem Bay.receive_smarks (b : Bay) (u i p : Nat) (v : Word) (x : Option Word) : (b.receive u i p v x).smarks = b.smarks := rfl
@[simp] theorem Bay.receive_iwrAddr (b : Bay) (u i p : Nat) (v : Word) (x : Option Word) : (b.receive u i p v x).iwrAddr = b.iwrAddr := rfl
@[simp] theorem Bay.receive_iwrStage (b : Bay) (u i p : Nat) (v : Word) (x : Option Word) : (b.receive u i p v x).iwrStage = b.iwrStage := rfl
@[simp] theorem Bay.receive_iwrOvf (b : Bay) (u i p : Nat) (v : Word) (x : Option Word) : (b.receive u i p v x).iwrOvf = b.iwrOvf := rfl
@[simp] theorem Bay.receive_oldWords (b : Bay) (u i p : Nat) (v : Word) (x : Option Word) : (b.receive u i p v x).oldWords = b.oldWords := rfl
@[simp] theorem Bay.receive_pipe (b : Bay) (u i p : Nat) (v : Word) (x : Option Word) : (b.receive u i p v x).pipe = b.pipe := rfl
@[simp] theorem Bay.receive_ctx (b : Bay) (u i p : Nat) (v : Word) (x : Option Word) : (b.receive u i p v x).ctx = b.ctx := rfl
@[simp] theorem Bay.receive_tmr (b : Bay) (u i p : Nat) (v : Word) (x : Option Word) : (b.receive u i p v x).tmr = b.tmr := rfl
@[simp] theorem Bay.receive_qio (b : Bay) (u i p : Nat) (v : Word) (x : Option Word) : (b.receive u i p v x).qio = b.qio := rfl
@[simp] theorem Bay.receive_led (b : Bay) (u i p : Nat) (v : Word) (x : Option Word) : (b.receive u i p v x).led = b.led := rfl
@[simp] theorem Bay.receive_str (b : Bay) (u i p : Nat) (v : Word) (x : Option Word) : (b.receive u i p v x).str = b.str := rfl
@[simp] theorem Bay.receive_dbg (b : Bay) (u i p : Nat) (v : Word) (x : Option Word) : (b.receive u i p v x).dbg = b.dbg := rfl
@[simp] theorem Bay.receive_mbx (b : Bay) (u i p : Nat) (v : Word) (x : Option Word) : (b.receive u i p v x).mbx = b.mbx := rfl
@[simp] theorem Bay.receive_march (b : Bay) (u i p : Nat) (v : Word) (x : Option Word) : (b.receive u i p v x).march = b.march := rfl
@[simp] theorem Bay.receive_ueDowns (b : Bay) (u i p : Nat) (v : Word) (x : Option Word) : (b.receive u i p v x).ueDowns = b.ueDowns := rfl
@[simp] theorem Bay.receive_free (b : Bay) (u i p : Nat) (v : Word) (x : Option Word) : (b.receive u i p v x).free = b.free := rfl
@[simp] theorem Bay.receive_remap (b : Bay) (u i p : Nat) (v : Word) (x : Option Word) : (b.receive u i p v x).remap = b.remap := rfl
@[simp] theorem Bay.receive_reqs (b : Bay) (u i p : Nat) (v : Word) (x : Option Word) : (b.receive u i p v x).reqs = b.reqs := rfl

@[simp] theorem Bay.draw_id (b : Bay) : b.draw.1.id = b.id := rfl
@[simp] theorem Bay.draw_sill (b : Bay) : b.draw.1.sill = b.sill := rfl
@[simp] theorem Bay.draw_state (b : Bay) : b.draw.1.state = b.state := rfl
@[simp] theorem Bay.draw_retired (b : Bay) : b.draw.1.retired = b.retired := rfl
@[simp] theorem Bay.draw_gp (b : Bay) : b.draw.1.gp = b.gp := rfl
@[simp] theorem Bay.draw_guards (b : Bay) : b.draw.1.guards = b.guards := rfl
@[simp] theorem Bay.draw_arith (b : Bay) : b.draw.1.arith = b.arith := rfl
@[simp] theorem Bay.draw_opnds (b : Bay) : b.draw.1.opnds = b.opnds := rfl
@[simp] theorem Bay.draw_ports (b : Bay) : b.draw.1.ports = b.ports := rfl
@[simp] theorem Bay.draw_crcs (b : Bay) : b.draw.1.crcs = b.crcs := rfl
@[simp] theorem Bay.draw_istore (b : Bay) : b.draw.1.istore = b.istore := rfl
@[simp] theorem Bay.draw_imarks (b : Bay) : b.draw.1.imarks = b.imarks := rfl
@[simp] theorem Bay.draw_scratch (b : Bay) : b.draw.1.scratch = b.scratch := rfl
@[simp] theorem Bay.draw_smarks (b : Bay) : b.draw.1.smarks = b.smarks := rfl
@[simp] theorem Bay.draw_iwrAddr (b : Bay) : b.draw.1.iwrAddr = b.iwrAddr := rfl
@[simp] theorem Bay.draw_iwrStage (b : Bay) : b.draw.1.iwrStage = b.iwrStage := rfl
@[simp] theorem Bay.draw_iwrOvf (b : Bay) : b.draw.1.iwrOvf = b.iwrOvf := rfl
@[simp] theorem Bay.draw_oldWords (b : Bay) : b.draw.1.oldWords = b.oldWords := rfl
@[simp] theorem Bay.draw_pipe (b : Bay) : b.draw.1.pipe = b.pipe := rfl
@[simp] theorem Bay.draw_ctx (b : Bay) : b.draw.1.ctx = b.ctx := rfl
@[simp] theorem Bay.draw_tmr (b : Bay) : b.draw.1.tmr = b.tmr := rfl
@[simp] theorem Bay.draw_qio (b : Bay) : b.draw.1.qio = b.qio := rfl
@[simp] theorem Bay.draw_led (b : Bay) : b.draw.1.led = b.led := rfl
@[simp] theorem Bay.draw_str (b : Bay) : b.draw.1.str = b.str := rfl
@[simp] theorem Bay.draw_dbg (b : Bay) : b.draw.1.dbg = b.dbg := rfl
@[simp] theorem Bay.draw_mbx (b : Bay) : b.draw.1.mbx = b.mbx := rfl
@[simp] theorem Bay.draw_march (b : Bay) : b.draw.1.march = b.march := rfl
@[simp] theorem Bay.draw_ueDowns (b : Bay) : b.draw.1.ueDowns = b.ueDowns := rfl
@[simp] theorem Bay.draw_free (b : Bay) : b.draw.1.free = b.free + 1 := rfl
@[simp] theorem Bay.draw_remap (b : Bay) : b.draw.1.remap = b.remap := rfl
@[simp] theorem Bay.draw_reqs (b : Bay) : b.draw.1.reqs = b.reqs := rfl

@[simp] theorem Bay.ask_id (b : Bay) (r : Req) : (b.ask r).id = b.id := rfl
@[simp] theorem Bay.ask_sill (b : Bay) (r : Req) : (b.ask r).sill = b.sill := rfl
@[simp] theorem Bay.ask_state (b : Bay) (r : Req) : (b.ask r).state = b.state := rfl
@[simp] theorem Bay.ask_retired (b : Bay) (r : Req) : (b.ask r).retired = b.retired := rfl
@[simp] theorem Bay.ask_gp (b : Bay) (r : Req) : (b.ask r).gp = b.gp := rfl
@[simp] theorem Bay.ask_guards (b : Bay) (r : Req) : (b.ask r).guards = b.guards := rfl
@[simp] theorem Bay.ask_arith (b : Bay) (r : Req) : (b.ask r).arith = b.arith := rfl
@[simp] theorem Bay.ask_opnds (b : Bay) (r : Req) : (b.ask r).opnds = b.opnds := rfl
@[simp] theorem Bay.ask_ports (b : Bay) (r : Req) : (b.ask r).ports = b.ports := rfl
@[simp] theorem Bay.ask_crcs (b : Bay) (r : Req) : (b.ask r).crcs = b.crcs := rfl
@[simp] theorem Bay.ask_istore (b : Bay) (r : Req) : (b.ask r).istore = b.istore := rfl
@[simp] theorem Bay.ask_imarks (b : Bay) (r : Req) : (b.ask r).imarks = b.imarks := rfl
@[simp] theorem Bay.ask_scratch (b : Bay) (r : Req) : (b.ask r).scratch = b.scratch := rfl
@[simp] theorem Bay.ask_smarks (b : Bay) (r : Req) : (b.ask r).smarks = b.smarks := rfl
@[simp] theorem Bay.ask_iwrAddr (b : Bay) (r : Req) : (b.ask r).iwrAddr = b.iwrAddr := rfl
@[simp] theorem Bay.ask_iwrStage (b : Bay) (r : Req) : (b.ask r).iwrStage = b.iwrStage := rfl
@[simp] theorem Bay.ask_iwrOvf (b : Bay) (r : Req) : (b.ask r).iwrOvf = b.iwrOvf := rfl
@[simp] theorem Bay.ask_oldWords (b : Bay) (r : Req) : (b.ask r).oldWords = b.oldWords := rfl
@[simp] theorem Bay.ask_pipe (b : Bay) (r : Req) : (b.ask r).pipe = b.pipe := rfl
@[simp] theorem Bay.ask_ctx (b : Bay) (r : Req) : (b.ask r).ctx = b.ctx := rfl
@[simp] theorem Bay.ask_tmr (b : Bay) (r : Req) : (b.ask r).tmr = b.tmr := rfl
@[simp] theorem Bay.ask_qio (b : Bay) (r : Req) : (b.ask r).qio = b.qio := rfl
@[simp] theorem Bay.ask_led (b : Bay) (r : Req) : (b.ask r).led = b.led := rfl
@[simp] theorem Bay.ask_str (b : Bay) (r : Req) : (b.ask r).str = b.str := rfl
@[simp] theorem Bay.ask_dbg (b : Bay) (r : Req) : (b.ask r).dbg = b.dbg := rfl
@[simp] theorem Bay.ask_mbx (b : Bay) (r : Req) : (b.ask r).mbx = b.mbx := rfl
@[simp] theorem Bay.ask_march (b : Bay) (r : Req) : (b.ask r).march = b.march := rfl
@[simp] theorem Bay.ask_ueDowns (b : Bay) (r : Req) : (b.ask r).ueDowns = b.ueDowns := rfl
@[simp] theorem Bay.ask_free (b : Bay) (r : Req) : (b.ask r).free = b.free := rfl
@[simp] theorem Bay.ask_remap (b : Bay) (r : Req) : (b.ask r).remap = b.remap := rfl
@[simp] theorem Bay.ask_reqs (b : Bay) (r : Req) : (b.ask r).reqs = b.reqs ++ [r] := rfl

@[simp] theorem Bay.scrPut_id (b : Bay) (k : Nat) (v : Word) : (b.scrPut k v).id = b.id := rfl
@[simp] theorem Bay.scrPut_sill (b : Bay) (k : Nat) (v : Word) : (b.scrPut k v).sill = b.sill := rfl
@[simp] theorem Bay.scrPut_state (b : Bay) (k : Nat) (v : Word) : (b.scrPut k v).state = b.state := rfl
@[simp] theorem Bay.scrPut_retired (b : Bay) (k : Nat) (v : Word) : (b.scrPut k v).retired = b.retired := rfl
@[simp] theorem Bay.scrPut_gp (b : Bay) (k : Nat) (v : Word) : (b.scrPut k v).gp = b.gp := rfl
@[simp] theorem Bay.scrPut_guards (b : Bay) (k : Nat) (v : Word) : (b.scrPut k v).guards = b.guards := rfl
@[simp] theorem Bay.scrPut_arith (b : Bay) (k : Nat) (v : Word) : (b.scrPut k v).arith = b.arith := rfl
@[simp] theorem Bay.scrPut_opnds (b : Bay) (k : Nat) (v : Word) : (b.scrPut k v).opnds = b.opnds := rfl
@[simp] theorem Bay.scrPut_ports (b : Bay) (k : Nat) (v : Word) : (b.scrPut k v).ports = b.ports := rfl
@[simp] theorem Bay.scrPut_crcs (b : Bay) (k : Nat) (v : Word) : (b.scrPut k v).crcs = b.crcs := rfl
@[simp] theorem Bay.scrPut_istore (b : Bay) (k : Nat) (v : Word) : (b.scrPut k v).istore = b.istore := rfl
@[simp] theorem Bay.scrPut_imarks (b : Bay) (k : Nat) (v : Word) : (b.scrPut k v).imarks = b.imarks := rfl
@[simp] theorem Bay.scrPut_scratch (b : Bay) (k : Nat) (v : Word) : (b.scrPut k v).scratch = b.scratch.putWord k v := rfl
@[simp] theorem Bay.scrPut_smarks (b : Bay) (k : Nat) (v : Word) : (b.scrPut k v).smarks = setMark b.smarks (k / 4) 0 := rfl
@[simp] theorem Bay.scrPut_iwrAddr (b : Bay) (k : Nat) (v : Word) : (b.scrPut k v).iwrAddr = b.iwrAddr := rfl
@[simp] theorem Bay.scrPut_iwrStage (b : Bay) (k : Nat) (v : Word) : (b.scrPut k v).iwrStage = b.iwrStage := rfl
@[simp] theorem Bay.scrPut_iwrOvf (b : Bay) (k : Nat) (v : Word) : (b.scrPut k v).iwrOvf = b.iwrOvf := rfl
@[simp] theorem Bay.scrPut_oldWords (b : Bay) (k : Nat) (v : Word) : (b.scrPut k v).oldWords = b.oldWords := rfl
@[simp] theorem Bay.scrPut_pipe (b : Bay) (k : Nat) (v : Word) : (b.scrPut k v).pipe = b.pipe := rfl
@[simp] theorem Bay.scrPut_ctx (b : Bay) (k : Nat) (v : Word) : (b.scrPut k v).ctx = b.ctx := rfl
@[simp] theorem Bay.scrPut_tmr (b : Bay) (k : Nat) (v : Word) : (b.scrPut k v).tmr = b.tmr := rfl
@[simp] theorem Bay.scrPut_qio (b : Bay) (k : Nat) (v : Word) : (b.scrPut k v).qio = b.qio := rfl
@[simp] theorem Bay.scrPut_led (b : Bay) (k : Nat) (v : Word) : (b.scrPut k v).led = b.led := rfl
@[simp] theorem Bay.scrPut_str (b : Bay) (k : Nat) (v : Word) : (b.scrPut k v).str = b.str := rfl
@[simp] theorem Bay.scrPut_dbg (b : Bay) (k : Nat) (v : Word) : (b.scrPut k v).dbg = b.dbg := rfl
@[simp] theorem Bay.scrPut_mbx (b : Bay) (k : Nat) (v : Word) : (b.scrPut k v).mbx = b.mbx := rfl
@[simp] theorem Bay.scrPut_march (b : Bay) (k : Nat) (v : Word) : (b.scrPut k v).march = b.march := rfl
@[simp] theorem Bay.scrPut_ueDowns (b : Bay) (k : Nat) (v : Word) : (b.scrPut k v).ueDowns = b.ueDowns := rfl
@[simp] theorem Bay.scrPut_free (b : Bay) (k : Nat) (v : Word) : (b.scrPut k v).free = b.free := rfl
@[simp] theorem Bay.scrPut_remap (b : Bay) (k : Nat) (v : Word) : (b.scrPut k v).remap = b.remap := rfl
@[simp] theorem Bay.scrPut_reqs (b : Bay) (k : Nat) (v : Word) : (b.scrPut k v).reqs = b.reqs := rfl

@[simp] theorem Bay.setMailbox_id (b : Bay) (m : Nat) (x : Mailbox) : (b.setMailbox m x).id = b.id := rfl
@[simp] theorem Bay.setMailbox_sill (b : Bay) (m : Nat) (x : Mailbox) : (b.setMailbox m x).sill = b.sill := rfl
@[simp] theorem Bay.setMailbox_state (b : Bay) (m : Nat) (x : Mailbox) : (b.setMailbox m x).state = b.state := rfl
@[simp] theorem Bay.setMailbox_retired (b : Bay) (m : Nat) (x : Mailbox) : (b.setMailbox m x).retired = b.retired := rfl
@[simp] theorem Bay.setMailbox_gp (b : Bay) (m : Nat) (x : Mailbox) : (b.setMailbox m x).gp = b.gp := rfl
@[simp] theorem Bay.setMailbox_guards (b : Bay) (m : Nat) (x : Mailbox) : (b.setMailbox m x).guards = b.guards := rfl
@[simp] theorem Bay.setMailbox_arith (b : Bay) (m : Nat) (x : Mailbox) : (b.setMailbox m x).arith = b.arith := rfl
@[simp] theorem Bay.setMailbox_opnds (b : Bay) (m : Nat) (x : Mailbox) : (b.setMailbox m x).opnds = b.opnds := rfl
@[simp] theorem Bay.setMailbox_ports (b : Bay) (m : Nat) (x : Mailbox) : (b.setMailbox m x).ports = b.ports := rfl
@[simp] theorem Bay.setMailbox_crcs (b : Bay) (m : Nat) (x : Mailbox) : (b.setMailbox m x).crcs = b.crcs := rfl
@[simp] theorem Bay.setMailbox_istore (b : Bay) (m : Nat) (x : Mailbox) : (b.setMailbox m x).istore = b.istore := rfl
@[simp] theorem Bay.setMailbox_imarks (b : Bay) (m : Nat) (x : Mailbox) : (b.setMailbox m x).imarks = b.imarks := rfl
@[simp] theorem Bay.setMailbox_scratch (b : Bay) (m : Nat) (x : Mailbox) : (b.setMailbox m x).scratch = b.scratch := rfl
@[simp] theorem Bay.setMailbox_smarks (b : Bay) (m : Nat) (x : Mailbox) : (b.setMailbox m x).smarks = b.smarks := rfl
@[simp] theorem Bay.setMailbox_iwrAddr (b : Bay) (m : Nat) (x : Mailbox) : (b.setMailbox m x).iwrAddr = b.iwrAddr := rfl
@[simp] theorem Bay.setMailbox_iwrStage (b : Bay) (m : Nat) (x : Mailbox) : (b.setMailbox m x).iwrStage = b.iwrStage := rfl
@[simp] theorem Bay.setMailbox_iwrOvf (b : Bay) (m : Nat) (x : Mailbox) : (b.setMailbox m x).iwrOvf = b.iwrOvf := rfl
@[simp] theorem Bay.setMailbox_oldWords (b : Bay) (m : Nat) (x : Mailbox) : (b.setMailbox m x).oldWords = b.oldWords := rfl
@[simp] theorem Bay.setMailbox_pipe (b : Bay) (m : Nat) (x : Mailbox) : (b.setMailbox m x).pipe = b.pipe := rfl
@[simp] theorem Bay.setMailbox_ctx (b : Bay) (m : Nat) (x : Mailbox) : (b.setMailbox m x).ctx = b.ctx := rfl
@[simp] theorem Bay.setMailbox_tmr (b : Bay) (m : Nat) (x : Mailbox) : (b.setMailbox m x).tmr = b.tmr := rfl
@[simp] theorem Bay.setMailbox_qio (b : Bay) (m : Nat) (x : Mailbox) : (b.setMailbox m x).qio = b.qio := rfl
@[simp] theorem Bay.setMailbox_led (b : Bay) (m : Nat) (x : Mailbox) : (b.setMailbox m x).led = b.led := rfl
@[simp] theorem Bay.setMailbox_str (b : Bay) (m : Nat) (x : Mailbox) : (b.setMailbox m x).str = b.str := rfl
@[simp] theorem Bay.setMailbox_dbg (b : Bay) (m : Nat) (x : Mailbox) : (b.setMailbox m x).dbg = b.dbg := rfl
@[simp] theorem Bay.setMailbox_march (b : Bay) (m : Nat) (x : Mailbox) : (b.setMailbox m x).march = b.march := rfl
@[simp] theorem Bay.setMailbox_ueDowns (b : Bay) (m : Nat) (x : Mailbox) : (b.setMailbox m x).ueDowns = b.ueDowns := rfl
@[simp] theorem Bay.setMailbox_free (b : Bay) (m : Nat) (x : Mailbox) : (b.setMailbox m x).free = b.free := rfl
@[simp] theorem Bay.setMailbox_remap (b : Bay) (m : Nat) (x : Mailbox) : (b.setMailbox m x).remap = b.remap := rfl
@[simp] theorem Bay.setMailbox_reqs (b : Bay) (m : Nat) (x : Mailbox) : (b.setMailbox m x).reqs = b.reqs := rfl

@[simp] theorem Bay.flag_id (b : Bay) (ov dz : Bool) : (b.flag ov dz).id = b.id := rfl
@[simp] theorem Bay.flag_sill (b : Bay) (ov dz : Bool) : (b.flag ov dz).sill = b.sill := rfl
@[simp] theorem Bay.flag_state (b : Bay) (ov dz : Bool) : (b.flag ov dz).state = b.state := rfl
@[simp] theorem Bay.flag_retired (b : Bay) (ov dz : Bool) : (b.flag ov dz).retired = b.retired := rfl
@[simp] theorem Bay.flag_gp (b : Bay) (ov dz : Bool) : (b.flag ov dz).gp = b.gp := rfl
@[simp] theorem Bay.flag_guards (b : Bay) (ov dz : Bool) : (b.flag ov dz).guards = b.guards := rfl
@[simp] theorem Bay.flag_arith (b : Bay) (ov dz : Bool) : (b.flag ov dz).arith = setArith b.arith ov dz := rfl
@[simp] theorem Bay.flag_opnds (b : Bay) (ov dz : Bool) : (b.flag ov dz).opnds = b.opnds := rfl
@[simp] theorem Bay.flag_ports (b : Bay) (ov dz : Bool) : (b.flag ov dz).ports = b.ports := rfl
@[simp] theorem Bay.flag_crcs (b : Bay) (ov dz : Bool) : (b.flag ov dz).crcs = b.crcs := rfl
@[simp] theorem Bay.flag_istore (b : Bay) (ov dz : Bool) : (b.flag ov dz).istore = b.istore := rfl
@[simp] theorem Bay.flag_imarks (b : Bay) (ov dz : Bool) : (b.flag ov dz).imarks = b.imarks := rfl
@[simp] theorem Bay.flag_scratch (b : Bay) (ov dz : Bool) : (b.flag ov dz).scratch = b.scratch := rfl
@[simp] theorem Bay.flag_smarks (b : Bay) (ov dz : Bool) : (b.flag ov dz).smarks = b.smarks := rfl
@[simp] theorem Bay.flag_iwrAddr (b : Bay) (ov dz : Bool) : (b.flag ov dz).iwrAddr = b.iwrAddr := rfl
@[simp] theorem Bay.flag_iwrStage (b : Bay) (ov dz : Bool) : (b.flag ov dz).iwrStage = b.iwrStage := rfl
@[simp] theorem Bay.flag_iwrOvf (b : Bay) (ov dz : Bool) : (b.flag ov dz).iwrOvf = b.iwrOvf := rfl
@[simp] theorem Bay.flag_oldWords (b : Bay) (ov dz : Bool) : (b.flag ov dz).oldWords = b.oldWords := rfl
@[simp] theorem Bay.flag_pipe (b : Bay) (ov dz : Bool) : (b.flag ov dz).pipe = b.pipe := rfl
@[simp] theorem Bay.flag_ctx (b : Bay) (ov dz : Bool) : (b.flag ov dz).ctx = b.ctx := rfl
@[simp] theorem Bay.flag_tmr (b : Bay) (ov dz : Bool) : (b.flag ov dz).tmr = b.tmr := rfl
@[simp] theorem Bay.flag_qio (b : Bay) (ov dz : Bool) : (b.flag ov dz).qio = b.qio := rfl
@[simp] theorem Bay.flag_led (b : Bay) (ov dz : Bool) : (b.flag ov dz).led = b.led := rfl
@[simp] theorem Bay.flag_str (b : Bay) (ov dz : Bool) : (b.flag ov dz).str = b.str := rfl
@[simp] theorem Bay.flag_dbg (b : Bay) (ov dz : Bool) : (b.flag ov dz).dbg = b.dbg := rfl
@[simp] theorem Bay.flag_mbx (b : Bay) (ov dz : Bool) : (b.flag ov dz).mbx = b.mbx := rfl
@[simp] theorem Bay.flag_march (b : Bay) (ov dz : Bool) : (b.flag ov dz).march = b.march := rfl
@[simp] theorem Bay.flag_ueDowns (b : Bay) (ov dz : Bool) : (b.flag ov dz).ueDowns = b.ueDowns := rfl
@[simp] theorem Bay.flag_free (b : Bay) (ov dz : Bool) : (b.flag ov dz).free = b.free := rfl
@[simp] theorem Bay.flag_remap (b : Bay) (ov dz : Bool) : (b.flag ov dz).remap = b.remap := rfl
@[simp] theorem Bay.flag_reqs (b : Bay) (ov dz : Bool) : (b.flag ov dz).reqs = b.reqs := rfl

/-- R81, R211: a move to a guard writes at most the guard bits. -/
theorem Bay.setGuard_eq (b : Bay) (n : Nat) (v : Bool) :
    b.setGuard n v = b ∨ b.setGuard n v = { b with guards := tsetD false b.guards n v } := by
  unfold Bay.setGuard
  split
  · exact .inl rfl
  · exact .inr rfl

@[simp] theorem Bay.gpr_setGpr (b : Bay) (n : Nat) (v : Word) : (b.setGpr n v).gpr n = v := tgetD_tsetD_same _ _ _ _

theorem Bay.gpr_setGpr_ne (b : Bay) {n m : Nat} (v : Word) (h : m ≠ n) : (b.setGpr n v).gpr m = b.gpr m :=
  tgetD_tsetD_ne _ _ _ h

@[simp] theorem Bay.opnd_setOpnd (b : Bay) (u i p : Nat) (v : Word) : (b.setOpnd u i p v).opnd u i p = v :=
  tgetD_tsetD_same _ _ _ _

@[simp] theorem Bay.port_receive (b : Bay) (u i p : Nat) (v : Word) (x : Option Word) :
    (b.receive u i p v x).port u i p = { val := v, recvAt := b.pipe.serial, poison := x } := tgetD_tsetD_same _ _ _ _

@[simp] theorem Bay.mailbox_setMailbox (b : Bay) (m : Nat) (x : Mailbox) : (b.setMailbox m x).mailbox m = x :=
  tgetD_tsetD_same _ _ _ _

theorem Bay.mailbox_setMailbox_ne (b : Bay) {m j : Nat} (x : Mailbox) (h : j ≠ m) :
    (b.setMailbox m x).mailbox j = b.mailbox j := tgetD_tsetD_ne _ _ _ h

@[simp] theorem Bay.scrWord_scrPut (b : Bay) (k : Nat) (v : Word) : (b.scrPut k v).scrWord k = v :=
  Mem.word_putWord _ _ _

/-- R81: guard 0 reads 1 whatever is written. -/
@[simp] theorem Bay.guard_zero (b : Bay) : b.guard 0 = true := rfl

end Sys2Proof.Machine
end

