-- ==== Sys2Proof/Laws/State.lean ====
section
/-!
SUPPORT. What each named update of the state leaves of each field: one lemma for every field and update, so that no proof
unfolds a record update; and the named parts read back after a write.
-/
namespace Sys2Proof.Machine

/-! ## Fields -/

@[simp] theorem State.start_pending (s : State) : s.start.pending = [] := rfl
@[simp] theorem State.start_hw (s : State) : s.start.hw = s.hw := rfl
@[simp] theorem State.start_free (s : State) : s.start.free = s.free := rfl
@[simp] theorem State.start_gens (s : State) : s.start.gens = s.gens := rfl
@[simp] theorem State.start_regs (s : State) : s.start.regs = s.regs := rfl
@[simp] theorem State.start_rst (s : State) : s.start.rst = s.rst := rfl
@[simp] theorem State.start_bays (s : State) : s.start.bays = s.bays := rfl
@[simp] theorem State.start_stg (s : State) : s.start.stg = s.stg := rfl
@[simp] theorem State.start_ddr (s : State) : s.start.ddr = s.ddr := rfl
@[simp] theorem State.start_scr (s : State) : s.start.scr = s.scr := rfl
@[simp] theorem State.start_qm (s : State) : s.start.qm = s.qm := rfl
@[simp] theorem State.start_scf (s : State) : s.start.scf = s.scf := rfl
@[simp] theorem State.start_work (s : State) : s.start.work = s.work := rfl
@[simp] theorem State.start_bg (s : State) : s.start.bg = s.bg := rfl
@[simp] theorem State.start_rsu (s : State) : s.start.rsu = s.rsu := rfl
@[simp] theorem State.start_hb (s : State) : s.start.hb = s.hb := rfl
@[simp] theorem State.start_macs (s : State) : s.start.macs = s.macs := rfl
@[simp] theorem State.start_mx (s : State) : s.start.mx = s.mx := rfl
@[simp] theorem State.start_sec (s : State) : s.start.sec = s.sec := rfl
@[simp] theorem State.start_out (s : State) : s.start.out = [] := rfl

@[simp] theorem State.emit_pending (s : State) (o : Out) : (s.emit o).pending = s.pending := rfl
@[simp] theorem State.emit_hw (s : State) (o : Out) : (s.emit o).hw = s.hw := rfl
@[simp] theorem State.emit_free (s : State) (o : Out) : (s.emit o).free = s.free := rfl
@[simp] theorem State.emit_gens (s : State) (o : Out) : (s.emit o).gens = s.gens := rfl
@[simp] theorem State.emit_regs (s : State) (o : Out) : (s.emit o).regs = s.regs := rfl
@[simp] theorem State.emit_rst (s : State) (o : Out) : (s.emit o).rst = s.rst := rfl
@[simp] theorem State.emit_bays (s : State) (o : Out) : (s.emit o).bays = s.bays := rfl
@[simp] theorem State.emit_stg (s : State) (o : Out) : (s.emit o).stg = s.stg := rfl
@[simp] theorem State.emit_ddr (s : State) (o : Out) : (s.emit o).ddr = s.ddr := rfl
@[simp] theorem State.emit_scr (s : State) (o : Out) : (s.emit o).scr = s.scr := rfl
@[simp] theorem State.emit_qm (s : State) (o : Out) : (s.emit o).qm = s.qm := rfl
@[simp] theorem State.emit_scf (s : State) (o : Out) : (s.emit o).scf = s.scf := rfl
@[simp] theorem State.emit_work (s : State) (o : Out) : (s.emit o).work = s.work := rfl
@[simp] theorem State.emit_bg (s : State) (o : Out) : (s.emit o).bg = s.bg := rfl
@[simp] theorem State.emit_rsu (s : State) (o : Out) : (s.emit o).rsu = s.rsu := rfl
@[simp] theorem State.emit_hb (s : State) (o : Out) : (s.emit o).hb = s.hb := rfl
@[simp] theorem State.emit_macs (s : State) (o : Out) : (s.emit o).macs = s.macs := rfl
@[simp] theorem State.emit_mx (s : State) (o : Out) : (s.emit o).mx = s.mx := rfl
@[simp] theorem State.emit_sec (s : State) (o : Out) : (s.emit o).sec = s.sec := rfl
@[simp] theorem State.emit_out (s : State) (o : Out) : (s.emit o).out = s.out ++ [o] := rfl

@[simp] theorem State.draw_pending (s : State) : s.draw.1.pending = s.pending := rfl
@[simp] theorem State.draw_hw (s : State) : s.draw.1.hw = s.hw := rfl
@[simp] theorem State.draw_free (s : State) : s.draw.1.free = s.free + 1 := rfl
@[simp] theorem State.draw_gens (s : State) : s.draw.1.gens = s.gens := rfl
@[simp] theorem State.draw_regs (s : State) : s.draw.1.regs = s.regs := rfl
@[simp] theorem State.draw_rst (s : State) : s.draw.1.rst = s.rst := rfl
@[simp] theorem State.draw_bays (s : State) : s.draw.1.bays = s.bays := rfl
@[simp] theorem State.draw_stg (s : State) : s.draw.1.stg = s.stg := rfl
@[simp] theorem State.draw_ddr (s : State) : s.draw.1.ddr = s.ddr := rfl
@[simp] theorem State.draw_scr (s : State) : s.draw.1.scr = s.scr := rfl
@[simp] theorem State.draw_qm (s : State) : s.draw.1.qm = s.qm := rfl
@[simp] theorem State.draw_scf (s : State) : s.draw.1.scf = s.scf := rfl
@[simp] theorem State.draw_work (s : State) : s.draw.1.work = s.work := rfl
@[simp] theorem State.draw_bg (s : State) : s.draw.1.bg = s.bg := rfl
@[simp] theorem State.draw_rsu (s : State) : s.draw.1.rsu = s.rsu := rfl
@[simp] theorem State.draw_hb (s : State) : s.draw.1.hb = s.hb := rfl
@[simp] theorem State.draw_macs (s : State) : s.draw.1.macs = s.macs := rfl
@[simp] theorem State.draw_mx (s : State) : s.draw.1.mx = s.mx := rfl
@[simp] theorem State.draw_sec (s : State) : s.draw.1.sec = s.sec := rfl
@[simp] theorem State.draw_out (s : State) : s.draw.1.out = s.out := rfl

@[simp] theorem State.newGen_pending (s : State) : s.newGen.1.pending = s.pending := rfl
@[simp] theorem State.newGen_hw (s : State) : s.newGen.1.hw = s.hw := rfl
@[simp] theorem State.newGen_free (s : State) : s.newGen.1.free = s.free := rfl
@[simp] theorem State.newGen_gens (s : State) : s.newGen.1.gens = s.gens + 1 := rfl
@[simp] theorem State.newGen_regs (s : State) : s.newGen.1.regs = s.regs := rfl
@[simp] theorem State.newGen_rst (s : State) : s.newGen.1.rst = s.rst := rfl
@[simp] theorem State.newGen_bays (s : State) : s.newGen.1.bays = s.bays := rfl
@[simp] theorem State.newGen_stg (s : State) : s.newGen.1.stg = s.stg := rfl
@[simp] theorem State.newGen_ddr (s : State) : s.newGen.1.ddr = s.ddr := rfl
@[simp] theorem State.newGen_scr (s : State) : s.newGen.1.scr = s.scr := rfl
@[simp] theorem State.newGen_qm (s : State) : s.newGen.1.qm = s.qm := rfl
@[simp] theorem State.newGen_scf (s : State) : s.newGen.1.scf = s.scf := rfl
@[simp] theorem State.newGen_work (s : State) : s.newGen.1.work = s.work := rfl
@[simp] theorem State.newGen_bg (s : State) : s.newGen.1.bg = s.bg := rfl
@[simp] theorem State.newGen_rsu (s : State) : s.newGen.1.rsu = s.rsu := rfl
@[simp] theorem State.newGen_hb (s : State) : s.newGen.1.hb = s.hb := rfl
@[simp] theorem State.newGen_macs (s : State) : s.newGen.1.macs = s.macs := rfl
@[simp] theorem State.newGen_mx (s : State) : s.newGen.1.mx = s.mx := rfl
@[simp] theorem State.newGen_sec (s : State) : s.newGen.1.sec = s.sec := rfl
@[simp] theorem State.newGen_out (s : State) : s.newGen.1.out = s.out := rfl

@[simp] theorem State.setBay_pending (s : State) (k : Nat) (b : Bay) : (s.setBay k b).pending = s.pending := rfl
@[simp] theorem State.setBay_hw (s : State) (k : Nat) (b : Bay) : (s.setBay k b).hw = s.hw := rfl
@[simp] theorem State.setBay_free (s : State) (k : Nat) (b : Bay) : (s.setBay k b).free = s.free := rfl
@[simp] theorem State.setBay_gens (s : State) (k : Nat) (b : Bay) : (s.setBay k b).gens = s.gens := rfl
@[simp] theorem State.setBay_regs (s : State) (k : Nat) (b : Bay) : (s.setBay k b).regs = s.regs := rfl
@[simp] theorem State.setBay_rst (s : State) (k : Nat) (b : Bay) : (s.setBay k b).rst = s.rst := rfl
@[simp] theorem State.setBay_stg (s : State) (k : Nat) (b : Bay) : (s.setBay k b).stg = s.stg := rfl
@[simp] theorem State.setBay_ddr (s : State) (k : Nat) (b : Bay) : (s.setBay k b).ddr = s.ddr := rfl
@[simp] theorem State.setBay_scr (s : State) (k : Nat) (b : Bay) : (s.setBay k b).scr = s.scr := rfl
@[simp] theorem State.setBay_qm (s : State) (k : Nat) (b : Bay) : (s.setBay k b).qm = s.qm := rfl
@[simp] theorem State.setBay_scf (s : State) (k : Nat) (b : Bay) : (s.setBay k b).scf = s.scf := rfl
@[simp] theorem State.setBay_work (s : State) (k : Nat) (b : Bay) : (s.setBay k b).work = s.work := rfl
@[simp] theorem State.setBay_bg (s : State) (k : Nat) (b : Bay) : (s.setBay k b).bg = s.bg := rfl
@[simp] theorem State.setBay_rsu (s : State) (k : Nat) (b : Bay) : (s.setBay k b).rsu = s.rsu := rfl
@[simp] theorem State.setBay_hb (s : State) (k : Nat) (b : Bay) : (s.setBay k b).hb = s.hb := rfl
@[simp] theorem State.setBay_macs (s : State) (k : Nat) (b : Bay) : (s.setBay k b).macs = s.macs := rfl
@[simp] theorem State.setBay_mx (s : State) (k : Nat) (b : Bay) : (s.setBay k b).mx = s.mx := rfl
@[simp] theorem State.setBay_sec (s : State) (k : Nat) (b : Bay) : (s.setBay k b).sec = s.sec := rfl
@[simp] theorem State.setBay_out (s : State) (k : Nat) (b : Bay) : (s.setBay k b).out = s.out := rfl

@[simp] theorem State.onBay_pending (s : State) (k : Nat) (f : Bay → Bay) : (s.onBay k f).pending = s.pending := rfl
@[simp] theorem State.onBay_hw (s : State) (k : Nat) (f : Bay → Bay) : (s.onBay k f).hw = s.hw := rfl
@[simp] theorem State.onBay_free (s : State) (k : Nat) (f : Bay → Bay) : (s.onBay k f).free = s.free := rfl
@[simp] theorem State.onBay_gens (s : State) (k : Nat) (f : Bay → Bay) : (s.onBay k f).gens = s.gens := rfl
@[simp] theorem State.onBay_regs (s : State) (k : Nat) (f : Bay → Bay) : (s.onBay k f).regs = s.regs := rfl
@[simp] theorem State.onBay_rst (s : State) (k : Nat) (f : Bay → Bay) : (s.onBay k f).rst = s.rst := rfl
@[simp] theorem State.onBay_stg (s : State) (k : Nat) (f : Bay → Bay) : (s.onBay k f).stg = s.stg := rfl
@[simp] theorem State.onBay_ddr (s : State) (k : Nat) (f : Bay → Bay) : (s.onBay k f).ddr = s.ddr := rfl
@[simp] theorem State.onBay_scr (s : State) (k : Nat) (f : Bay → Bay) : (s.onBay k f).scr = s.scr := rfl
@[simp] theorem State.onBay_qm (s : State) (k : Nat) (f : Bay → Bay) : (s.onBay k f).qm = s.qm := rfl
@[simp] theorem State.onBay_scf (s : State) (k : Nat) (f : Bay → Bay) : (s.onBay k f).scf = s.scf := rfl
@[simp] theorem State.onBay_work (s : State) (k : Nat) (f : Bay → Bay) : (s.onBay k f).work = s.work := rfl
@[simp] theorem State.onBay_bg (s : State) (k : Nat) (f : Bay → Bay) : (s.onBay k f).bg = s.bg := rfl
@[simp] theorem State.onBay_rsu (s : State) (k : Nat) (f : Bay → Bay) : (s.onBay k f).rsu = s.rsu := rfl
@[simp] theorem State.onBay_hb (s : State) (k : Nat) (f : Bay → Bay) : (s.onBay k f).hb = s.hb := rfl
@[simp] theorem State.onBay_macs (s : State) (k : Nat) (f : Bay → Bay) : (s.onBay k f).macs = s.macs := rfl
@[simp] theorem State.onBay_mx (s : State) (k : Nat) (f : Bay → Bay) : (s.onBay k f).mx = s.mx := rfl
@[simp] theorem State.onBay_sec (s : State) (k : Nat) (f : Bay → Bay) : (s.onBay k f).sec = s.sec := rfl
@[simp] theorem State.onBay_out (s : State) (k : Nat) (f : Bay → Bay) : (s.onBay k f).out = s.out := rfl

@[simp] theorem State.setBank_pending (s : State) (n : Nat) (x : Bank) : (s.setBank n x).pending = s.pending := rfl
@[simp] theorem State.setBank_hw (s : State) (n : Nat) (x : Bank) : (s.setBank n x).hw = s.hw := rfl
@[simp] theorem State.setBank_free (s : State) (n : Nat) (x : Bank) : (s.setBank n x).free = s.free := rfl
@[simp] theorem State.setBank_gens (s : State) (n : Nat) (x : Bank) : (s.setBank n x).gens = s.gens := rfl
@[simp] theorem State.setBank_regs (s : State) (n : Nat) (x : Bank) : (s.setBank n x).regs = s.regs := rfl
@[simp] theorem State.setBank_rst (s : State) (n : Nat) (x : Bank) : (s.setBank n x).rst = s.rst := rfl
@[simp] theorem State.setBank_bays (s : State) (n : Nat) (x : Bank) : (s.setBank n x).bays = s.bays := rfl
@[simp] theorem State.setBank_ddr (s : State) (n : Nat) (x : Bank) : (s.setBank n x).ddr = s.ddr := rfl
@[simp] theorem State.setBank_scr (s : State) (n : Nat) (x : Bank) : (s.setBank n x).scr = s.scr := rfl
@[simp] theorem State.setBank_qm (s : State) (n : Nat) (x : Bank) : (s.setBank n x).qm = s.qm := rfl
@[simp] theorem State.setBank_scf (s : State) (n : Nat) (x : Bank) : (s.setBank n x).scf = s.scf := rfl
@[simp] theorem State.setBank_work (s : State) (n : Nat) (x : Bank) : (s.setBank n x).work = s.work := rfl
@[simp] theorem State.setBank_bg (s : State) (n : Nat) (x : Bank) : (s.setBank n x).bg = s.bg := rfl
@[simp] theorem State.setBank_rsu (s : State) (n : Nat) (x : Bank) : (s.setBank n x).rsu = s.rsu := rfl
@[simp] theorem State.setBank_hb (s : State) (n : Nat) (x : Bank) : (s.setBank n x).hb = s.hb := rfl
@[simp] theorem State.setBank_macs (s : State) (n : Nat) (x : Bank) : (s.setBank n x).macs = s.macs := rfl
@[simp] theorem State.setBank_mx (s : State) (n : Nat) (x : Bank) : (s.setBank n x).mx = s.mx := rfl
@[simp] theorem State.setBank_sec (s : State) (n : Nat) (x : Bank) : (s.setBank n x).sec = s.sec := rfl
@[simp] theorem State.setBank_out (s : State) (n : Nat) (x : Bank) : (s.setBank n x).out = s.out := rfl

@[simp] theorem State.setChan_pending (s : State) (c : Nat) (x : Chan) : (s.setChan c x).pending = s.pending := rfl
@[simp] theorem State.setChan_hw (s : State) (c : Nat) (x : Chan) : (s.setChan c x).hw = s.hw := rfl
@[simp] theorem State.setChan_free (s : State) (c : Nat) (x : Chan) : (s.setChan c x).free = s.free := rfl
@[simp] theorem State.setChan_gens (s : State) (c : Nat) (x : Chan) : (s.setChan c x).gens = s.gens := rfl
@[simp] theorem State.setChan_regs (s : State) (c : Nat) (x : Chan) : (s.setChan c x).regs = s.regs := rfl
@[simp] theorem State.setChan_rst (s : State) (c : Nat) (x : Chan) : (s.setChan c x).rst = s.rst := rfl
@[simp] theorem State.setChan_bays (s : State) (c : Nat) (x : Chan) : (s.setChan c x).bays = s.bays := rfl
@[simp] theorem State.setChan_stg (s : State) (c : Nat) (x : Chan) : (s.setChan c x).stg = s.stg := rfl
@[simp] theorem State.setChan_scr (s : State) (c : Nat) (x : Chan) : (s.setChan c x).scr = s.scr := rfl
@[simp] theorem State.setChan_qm (s : State) (c : Nat) (x : Chan) : (s.setChan c x).qm = s.qm := rfl
@[simp] theorem State.setChan_scf (s : State) (c : Nat) (x : Chan) : (s.setChan c x).scf = s.scf := rfl
@[simp] theorem State.setChan_work (s : State) (c : Nat) (x : Chan) : (s.setChan c x).work = s.work := rfl
@[simp] theorem State.setChan_bg (s : State) (c : Nat) (x : Chan) : (s.setChan c x).bg = s.bg := rfl
@[simp] theorem State.setChan_rsu (s : State) (c : Nat) (x : Chan) : (s.setChan c x).rsu = s.rsu := rfl
@[simp] theorem State.setChan_hb (s : State) (c : Nat) (x : Chan) : (s.setChan c x).hb = s.hb := rfl
@[simp] theorem State.setChan_macs (s : State) (c : Nat) (x : Chan) : (s.setChan c x).macs = s.macs := rfl
@[simp] theorem State.setChan_mx (s : State) (c : Nat) (x : Chan) : (s.setChan c x).mx = s.mx := rfl
@[simp] theorem State.setChan_sec (s : State) (c : Nat) (x : Chan) : (s.setChan c x).sec = s.sec := rfl
@[simp] theorem State.setChan_out (s : State) (c : Nat) (x : Chan) : (s.setChan c x).out = s.out := rfl

@[simp] theorem State.setQueue_pending (s : State) (q : Nat) (x : Queue) : (s.setQueue q x).pending = s.pending := rfl
@[simp] theorem State.setQueue_hw (s : State) (q : Nat) (x : Queue) : (s.setQueue q x).hw = s.hw := rfl
@[simp] theorem State.setQueue_free (s : State) (q : Nat) (x : Queue) : (s.setQueue q x).free = s.free := rfl
@[simp] theorem State.setQueue_gens (s : State) (q : Nat) (x : Queue) : (s.setQueue q x).gens = s.gens := rfl
@[simp] theorem State.setQueue_regs (s : State) (q : Nat) (x : Queue) : (s.setQueue q x).regs = s.regs := rfl
@[simp] theorem State.setQueue_rst (s : State) (q : Nat) (x : Queue) : (s.setQueue q x).rst = s.rst := rfl
@[simp] theorem State.setQueue_bays (s : State) (q : Nat) (x : Queue) : (s.setQueue q x).bays = s.bays := rfl
@[simp] theorem State.setQueue_stg (s : State) (q : Nat) (x : Queue) : (s.setQueue q x).stg = s.stg := rfl
@[simp] theorem State.setQueue_ddr (s : State) (q : Nat) (x : Queue) : (s.setQueue q x).ddr = s.ddr := rfl
@[simp] theorem State.setQueue_scr (s : State) (q : Nat) (x : Queue) : (s.setQueue q x).scr = s.scr := rfl
@[simp] theorem State.setQueue_scf (s : State) (q : Nat) (x : Queue) : (s.setQueue q x).scf = s.scf := rfl
@[simp] theorem State.setQueue_work (s : State) (q : Nat) (x : Queue) : (s.setQueue q x).work = s.work := rfl
@[simp] theorem State.setQueue_bg (s : State) (q : Nat) (x : Queue) : (s.setQueue q x).bg = s.bg := rfl
@[simp] theorem State.setQueue_rsu (s : State) (q : Nat) (x : Queue) : (s.setQueue q x).rsu = s.rsu := rfl
@[simp] theorem State.setQueue_hb (s : State) (q : Nat) (x : Queue) : (s.setQueue q x).hb = s.hb := rfl
@[simp] theorem State.setQueue_macs (s : State) (q : Nat) (x : Queue) : (s.setQueue q x).macs = s.macs := rfl
@[simp] theorem State.setQueue_mx (s : State) (q : Nat) (x : Queue) : (s.setQueue q x).mx = s.mx := rfl
@[simp] theorem State.setQueue_sec (s : State) (q : Nat) (x : Queue) : (s.setQueue q x).sec = s.sec := rfl
@[simp] theorem State.setQueue_out (s : State) (q : Nat) (x : Queue) : (s.setQueue q x).out = s.out := rfl

@[simp] theorem State.setDom_pending (s : State) (d v : Nat) : (s.setDom d v).pending = s.pending := rfl
@[simp] theorem State.setDom_hw (s : State) (d v : Nat) : (s.setDom d v).hw = s.hw := rfl
@[simp] theorem State.setDom_free (s : State) (d v : Nat) : (s.setDom d v).free = s.free := rfl
@[simp] theorem State.setDom_gens (s : State) (d v : Nat) : (s.setDom d v).gens = s.gens := rfl
@[simp] theorem State.setDom_regs (s : State) (d v : Nat) : (s.setDom d v).regs = s.regs := rfl
@[simp] theorem State.setDom_bays (s : State) (d v : Nat) : (s.setDom d v).bays = s.bays := rfl
@[simp] theorem State.setDom_stg (s : State) (d v : Nat) : (s.setDom d v).stg = s.stg := rfl
@[simp] theorem State.setDom_ddr (s : State) (d v : Nat) : (s.setDom d v).ddr = s.ddr := rfl
@[simp] theorem State.setDom_scr (s : State) (d v : Nat) : (s.setDom d v).scr = s.scr := rfl
@[simp] theorem State.setDom_qm (s : State) (d v : Nat) : (s.setDom d v).qm = s.qm := rfl
@[simp] theorem State.setDom_scf (s : State) (d v : Nat) : (s.setDom d v).scf = s.scf := rfl
@[simp] theorem State.setDom_work (s : State) (d v : Nat) : (s.setDom d v).work = s.work := rfl
@[simp] theorem State.setDom_bg (s : State) (d v : Nat) : (s.setDom d v).bg = s.bg := rfl
@[simp] theorem State.setDom_rsu (s : State) (d v : Nat) : (s.setDom d v).rsu = s.rsu := rfl
@[simp] theorem State.setDom_hb (s : State) (d v : Nat) : (s.setDom d v).hb = s.hb := rfl
@[simp] theorem State.setDom_macs (s : State) (d v : Nat) : (s.setDom d v).macs = s.macs := rfl
@[simp] theorem State.setDom_mx (s : State) (d v : Nat) : (s.setDom d v).mx = s.mx := rfl
@[simp] theorem State.setDom_sec (s : State) (d v : Nat) : (s.setDom d v).sec = s.sec := rfl
@[simp] theorem State.setDom_out (s : State) (d v : Nat) : (s.setDom d v).out = s.out := rfl

@[simp] theorem State.setReg_pending (s : State) (a : Nat) (v : Word) : (s.setReg a v).pending = s.pending := rfl
@[simp] theorem State.setReg_hw (s : State) (a : Nat) (v : Word) : (s.setReg a v).hw = s.hw := rfl
@[simp] theorem State.setReg_free (s : State) (a : Nat) (v : Word) : (s.setReg a v).free = s.free := rfl
@[simp] theorem State.setReg_gens (s : State) (a : Nat) (v : Word) : (s.setReg a v).gens = s.gens := rfl
@[simp] theorem State.setReg_rst (s : State) (a : Nat) (v : Word) : (s.setReg a v).rst = s.rst := rfl
@[simp] theorem State.setReg_bays (s : State) (a : Nat) (v : Word) : (s.setReg a v).bays = s.bays := rfl
@[simp] theorem State.setReg_stg (s : State) (a : Nat) (v : Word) : (s.setReg a v).stg = s.stg := rfl
@[simp] theorem State.setReg_ddr (s : State) (a : Nat) (v : Word) : (s.setReg a v).ddr = s.ddr := rfl
@[simp] theorem State.setReg_scr (s : State) (a : Nat) (v : Word) : (s.setReg a v).scr = s.scr := rfl
@[simp] theorem State.setReg_qm (s : State) (a : Nat) (v : Word) : (s.setReg a v).qm = s.qm := rfl
@[simp] theorem State.setReg_scf (s : State) (a : Nat) (v : Word) : (s.setReg a v).scf = s.scf := rfl
@[simp] theorem State.setReg_work (s : State) (a : Nat) (v : Word) : (s.setReg a v).work = s.work := rfl
@[simp] theorem State.setReg_bg (s : State) (a : Nat) (v : Word) : (s.setReg a v).bg = s.bg := rfl
@[simp] theorem State.setReg_rsu (s : State) (a : Nat) (v : Word) : (s.setReg a v).rsu = s.rsu := rfl
@[simp] theorem State.setReg_hb (s : State) (a : Nat) (v : Word) : (s.setReg a v).hb = s.hb := rfl
@[simp] theorem State.setReg_macs (s : State) (a : Nat) (v : Word) : (s.setReg a v).macs = s.macs := rfl
@[simp] theorem State.setReg_mx (s : State) (a : Nat) (v : Word) : (s.setReg a v).mx = s.mx := rfl
@[simp] theorem State.setReg_sec (s : State) (a : Nat) (v : Word) : (s.setReg a v).sec = s.sec := rfl
@[simp] theorem State.setReg_out (s : State) (a : Nat) (v : Word) : (s.setReg a v).out = s.out := rfl

@[simp] theorem State.setSq_pending (s : State) (a : Nat) (q : Sq) : (s.setSq a q).pending = s.pending := rfl
@[simp] theorem State.setSq_hw (s : State) (a : Nat) (q : Sq) : (s.setSq a q).hw = s.hw := rfl
@[simp] theorem State.setSq_free (s : State) (a : Nat) (q : Sq) : (s.setSq a q).free = s.free := rfl
@[simp] theorem State.setSq_gens (s : State) (a : Nat) (q : Sq) : (s.setSq a q).gens = s.gens := rfl
@[simp] theorem State.setSq_rst (s : State) (a : Nat) (q : Sq) : (s.setSq a q).rst = s.rst := rfl
@[simp] theorem State.setSq_bays (s : State) (a : Nat) (q : Sq) : (s.setSq a q).bays = s.bays := rfl
@[simp] theorem State.setSq_stg (s : State) (a : Nat) (q : Sq) : (s.setSq a q).stg = s.stg := rfl
@[simp] theorem State.setSq_ddr (s : State) (a : Nat) (q : Sq) : (s.setSq a q).ddr = s.ddr := rfl
@[simp] theorem State.setSq_scr (s : State) (a : Nat) (q : Sq) : (s.setSq a q).scr = s.scr := rfl
@[simp] theorem State.setSq_qm (s : State) (a : Nat) (q : Sq) : (s.setSq a q).qm = s.qm := rfl
@[simp] theorem State.setSq_scf (s : State) (a : Nat) (q : Sq) : (s.setSq a q).scf = s.scf := rfl
@[simp] theorem State.setSq_work (s : State) (a : Nat) (q : Sq) : (s.setSq a q).work = s.work := rfl
@[simp] theorem State.setSq_bg (s : State) (a : Nat) (q : Sq) : (s.setSq a q).bg = s.bg := rfl
@[simp] theorem State.setSq_rsu (s : State) (a : Nat) (q : Sq) : (s.setSq a q).rsu = s.rsu := rfl
@[simp] theorem State.setSq_hb (s : State) (a : Nat) (q : Sq) : (s.setSq a q).hb = s.hb := rfl
@[simp] theorem State.setSq_macs (s : State) (a : Nat) (q : Sq) : (s.setSq a q).macs = s.macs := rfl
@[simp] theorem State.setSq_mx (s : State) (a : Nat) (q : Sq) : (s.setSq a q).mx = s.mx := rfl
@[simp] theorem State.setSq_sec (s : State) (a : Nat) (q : Sq) : (s.setSq a q).sec = s.sec := rfl
@[simp] theorem State.setSq_out (s : State) (a : Nat) (q : Sq) : (s.setSq a q).out = s.out := rfl

@[simp] theorem State.event_pending (s : State) (a i : Nat) : (s.event a i).pending = s.pending := rfl
@[simp] theorem State.event_hw (s : State) (a i : Nat) : (s.event a i).hw = s.hw := rfl
@[simp] theorem State.event_free (s : State) (a i : Nat) : (s.event a i).free = s.free := rfl
@[simp] theorem State.event_gens (s : State) (a i : Nat) : (s.event a i).gens = s.gens := rfl
@[simp] theorem State.event_rst (s : State) (a i : Nat) : (s.event a i).rst = s.rst := rfl
@[simp] theorem State.event_bays (s : State) (a i : Nat) : (s.event a i).bays = s.bays := rfl
@[simp] theorem State.event_stg (s : State) (a i : Nat) : (s.event a i).stg = s.stg := rfl
@[simp] theorem State.event_ddr (s : State) (a i : Nat) : (s.event a i).ddr = s.ddr := rfl
@[simp] theorem State.event_scr (s : State) (a i : Nat) : (s.event a i).scr = s.scr := rfl
@[simp] theorem State.event_qm (s : State) (a i : Nat) : (s.event a i).qm = s.qm := rfl
@[simp] theorem State.event_scf (s : State) (a i : Nat) : (s.event a i).scf = s.scf := rfl
@[simp] theorem State.event_work (s : State) (a i : Nat) : (s.event a i).work = s.work := rfl
@[simp] theorem State.event_bg (s : State) (a i : Nat) : (s.event a i).bg = s.bg := rfl
@[simp] theorem State.event_rsu (s : State) (a i : Nat) : (s.event a i).rsu = s.rsu := rfl
@[simp] theorem State.event_hb (s : State) (a i : Nat) : (s.event a i).hb = s.hb := rfl
@[simp] theorem State.event_macs (s : State) (a i : Nat) : (s.event a i).macs = s.macs := rfl
@[simp] theorem State.event_mx (s : State) (a i : Nat) : (s.event a i).mx = s.mx := rfl
@[simp] theorem State.event_sec (s : State) (a i : Nat) : (s.event a i).sec = s.sec := rfl
@[simp] theorem State.event_out (s : State) (a i : Nat) : (s.event a i).out = s.out := rfl

@[simp] theorem State.setCount_pending (s : State) (a n : Nat) : (s.setCount a n).pending = s.pending := rfl
@[simp] theorem State.setCount_hw (s : State) (a n : Nat) : (s.setCount a n).hw = s.hw := rfl
@[simp] theorem State.setCount_free (s : State) (a n : Nat) : (s.setCount a n).free = s.free := rfl
@[simp] theorem State.setCount_gens (s : State) (a n : Nat) : (s.setCount a n).gens = s.gens := rfl
@[simp] theorem State.setCount_rst (s : State) (a n : Nat) : (s.setCount a n).rst = s.rst := rfl
@[simp] theorem State.setCount_bays (s : State) (a n : Nat) : (s.setCount a n).bays = s.bays := rfl
@[simp] theorem State.setCount_stg (s : State) (a n : Nat) : (s.setCount a n).stg = s.stg := rfl
@[simp] theorem State.setCount_ddr (s : State) (a n : Nat) : (s.setCount a n).ddr = s.ddr := rfl
@[simp] theorem State.setCount_scr (s : State) (a n : Nat) : (s.setCount a n).scr = s.scr := rfl
@[simp] theorem State.setCount_qm (s : State) (a n : Nat) : (s.setCount a n).qm = s.qm := rfl
@[simp] theorem State.setCount_scf (s : State) (a n : Nat) : (s.setCount a n).scf = s.scf := rfl
@[simp] theorem State.setCount_work (s : State) (a n : Nat) : (s.setCount a n).work = s.work := rfl
@[simp] theorem State.setCount_bg (s : State) (a n : Nat) : (s.setCount a n).bg = s.bg := rfl
@[simp] theorem State.setCount_rsu (s : State) (a n : Nat) : (s.setCount a n).rsu = s.rsu := rfl
@[simp] theorem State.setCount_hb (s : State) (a n : Nat) : (s.setCount a n).hb = s.hb := rfl
@[simp] theorem State.setCount_macs (s : State) (a n : Nat) : (s.setCount a n).macs = s.macs := rfl
@[simp] theorem State.setCount_mx (s : State) (a n : Nat) : (s.setCount a n).mx = s.mx := rfl
@[simp] theorem State.setCount_sec (s : State) (a n : Nat) : (s.setCount a n).sec = s.sec := rfl
@[simp] theorem State.setCount_out (s : State) (a n : Nat) : (s.setCount a n).out = s.out := rfl

@[simp] theorem State.bump_pending (s : State) (a : Nat) : (s.bump a).pending = s.pending := rfl
@[simp] theorem State.bump_hw (s : State) (a : Nat) : (s.bump a).hw = s.hw := rfl
@[simp] theorem State.bump_free (s : State) (a : Nat) : (s.bump a).free = s.free := rfl
@[simp] theorem State.bump_gens (s : State) (a : Nat) : (s.bump a).gens = s.gens := rfl
@[simp] theorem State.bump_rst (s : State) (a : Nat) : (s.bump a).rst = s.rst := rfl
@[simp] theorem State.bump_bays (s : State) (a : Nat) : (s.bump a).bays = s.bays := rfl
@[simp] theorem State.bump_stg (s : State) (a : Nat) : (s.bump a).stg = s.stg := rfl
@[simp] theorem State.bump_ddr (s : State) (a : Nat) : (s.bump a).ddr = s.ddr := rfl
@[simp] theorem State.bump_scr (s : State) (a : Nat) : (s.bump a).scr = s.scr := rfl
@[simp] theorem State.bump_qm (s : State) (a : Nat) : (s.bump a).qm = s.qm := rfl
@[simp] theorem State.bump_scf (s : State) (a : Nat) : (s.bump a).scf = s.scf := rfl
@[simp] theorem State.bump_work (s : State) (a : Nat) : (s.bump a).work = s.work := rfl
@[simp] theorem State.bump_bg (s : State) (a : Nat) : (s.bump a).bg = s.bg := rfl
@[simp] theorem State.bump_rsu (s : State) (a : Nat) : (s.bump a).rsu = s.rsu := rfl
@[simp] theorem State.bump_hb (s : State) (a : Nat) : (s.bump a).hb = s.hb := rfl
@[simp] theorem State.bump_macs (s : State) (a : Nat) : (s.bump a).macs = s.macs := rfl
@[simp] theorem State.bump_mx (s : State) (a : Nat) : (s.bump a).mx = s.mx := rfl
@[simp] theorem State.bump_sec (s : State) (a : Nat) : (s.bump a).sec = s.sec := rfl
@[simp] theorem State.bump_out (s : State) (a : Nat) : (s.bump a).out = s.out := rfl

@[simp] theorem State.writeRw_pending (s : State) (a mask : Nat) (v : Word) : (s.writeRw a mask v).pending = s.pending := rfl
@[simp] theorem State.writeRw_hw (s : State) (a mask : Nat) (v : Word) : (s.writeRw a mask v).hw = s.hw := rfl
@[simp] theorem State.writeRw_free (s : State) (a mask : Nat) (v : Word) : (s.writeRw a mask v).free = s.free := rfl
@[simp] theorem State.writeRw_gens (s : State) (a mask : Nat) (v : Word) : (s.writeRw a mask v).gens = s.gens := rfl
@[simp] theorem State.writeRw_rst (s : State) (a mask : Nat) (v : Word) : (s.writeRw a mask v).rst = s.rst := rfl
@[simp] theorem State.writeRw_bays (s : State) (a mask : Nat) (v : Word) : (s.writeRw a mask v).bays = s.bays := rfl
@[simp] theorem State.writeRw_stg (s : State) (a mask : Nat) (v : Word) : (s.writeRw a mask v).stg = s.stg := rfl
@[simp] theorem State.writeRw_ddr (s : State) (a mask : Nat) (v : Word) : (s.writeRw a mask v).ddr = s.ddr := rfl
@[simp] theorem State.writeRw_scr (s : State) (a mask : Nat) (v : Word) : (s.writeRw a mask v).scr = s.scr := rfl
@[simp] theorem State.writeRw_qm (s : State) (a mask : Nat) (v : Word) : (s.writeRw a mask v).qm = s.qm := rfl
@[simp] theorem State.writeRw_scf (s : State) (a mask : Nat) (v : Word) : (s.writeRw a mask v).scf = s.scf := rfl
@[simp] theorem State.writeRw_work (s : State) (a mask : Nat) (v : Word) : (s.writeRw a mask v).work = s.work := rfl
@[simp] theorem State.writeRw_bg (s : State) (a mask : Nat) (v : Word) : (s.writeRw a mask v).bg = s.bg := rfl
@[simp] theorem State.writeRw_rsu (s : State) (a mask : Nat) (v : Word) : (s.writeRw a mask v).rsu = s.rsu := rfl
@[simp] theorem State.writeRw_hb (s : State) (a mask : Nat) (v : Word) : (s.writeRw a mask v).hb = s.hb := rfl
@[simp] theorem State.writeRw_macs (s : State) (a mask : Nat) (v : Word) : (s.writeRw a mask v).macs = s.macs := rfl
@[simp] theorem State.writeRw_mx (s : State) (a mask : Nat) (v : Word) : (s.writeRw a mask v).mx = s.mx := rfl
@[simp] theorem State.writeRw_sec (s : State) (a mask : Nat) (v : Word) : (s.writeRw a mask v).sec = s.sec := rfl
@[simp] theorem State.writeRw_out (s : State) (a mask : Nat) (v : Word) : (s.writeRw a mask v).out = s.out := rfl

@[simp] theorem State.writeMw_pending (s : State) (a : Nat) (v : Word) : (s.writeMw a v).pending = s.pending := rfl
@[simp] theorem State.writeMw_hw (s : State) (a : Nat) (v : Word) : (s.writeMw a v).hw = s.hw := rfl
@[simp] theorem State.writeMw_free (s : State) (a : Nat) (v : Word) : (s.writeMw a v).free = s.free := rfl
@[simp] theorem State.writeMw_gens (s : State) (a : Nat) (v : Word) : (s.writeMw a v).gens = s.gens := rfl
@[simp] theorem State.writeMw_rst (s : State) (a : Nat) (v : Word) : (s.writeMw a v).rst = s.rst := rfl
@[simp] theorem State.writeMw_bays (s : State) (a : Nat) (v : Word) : (s.writeMw a v).bays = s.bays := rfl
@[simp] theorem State.writeMw_stg (s : State) (a : Nat) (v : Word) : (s.writeMw a v).stg = s.stg := rfl
@[simp] theorem State.writeMw_ddr (s : State) (a : Nat) (v : Word) : (s.writeMw a v).ddr = s.ddr := rfl
@[simp] theorem State.writeMw_scr (s : State) (a : Nat) (v : Word) : (s.writeMw a v).scr = s.scr := rfl
@[simp] theorem State.writeMw_qm (s : State) (a : Nat) (v : Word) : (s.writeMw a v).qm = s.qm := rfl
@[simp] theorem State.writeMw_scf (s : State) (a : Nat) (v : Word) : (s.writeMw a v).scf = s.scf := rfl
@[simp] theorem State.writeMw_work (s : State) (a : Nat) (v : Word) : (s.writeMw a v).work = s.work := rfl
@[simp] theorem State.writeMw_bg (s : State) (a : Nat) (v : Word) : (s.writeMw a v).bg = s.bg := rfl
@[simp] theorem State.writeMw_rsu (s : State) (a : Nat) (v : Word) : (s.writeMw a v).rsu = s.rsu := rfl
@[simp] theorem State.writeMw_hb (s : State) (a : Nat) (v : Word) : (s.writeMw a v).hb = s.hb := rfl
@[simp] theorem State.writeMw_macs (s : State) (a : Nat) (v : Word) : (s.writeMw a v).macs = s.macs := rfl
@[simp] theorem State.writeMw_mx (s : State) (a : Nat) (v : Word) : (s.writeMw a v).mx = s.mx := rfl
@[simp] theorem State.writeMw_sec (s : State) (a : Nat) (v : Word) : (s.writeMw a v).sec = s.sec := rfl
@[simp] theorem State.writeMw_out (s : State) (a : Nat) (v : Word) : (s.writeMw a v).out = s.out := rfl

@[simp] theorem State.writePg_pending (s : State) (a mask : Nat) (v : Word) : (s.writePg a mask v).pending = s.pending := rfl
@[simp] theorem State.writePg_hw (s : State) (a mask : Nat) (v : Word) : (s.writePg a mask v).hw = s.hw := rfl
@[simp] theorem State.writePg_free (s : State) (a mask : Nat) (v : Word) : (s.writePg a mask v).free = s.free := rfl
@[simp] theorem State.writePg_gens (s : State) (a mask : Nat) (v : Word) : (s.writePg a mask v).gens = s.gens := rfl
@[simp] theorem State.writePg_rst (s : State) (a mask : Nat) (v : Word) : (s.writePg a mask v).rst = s.rst := rfl
@[simp] theorem State.writePg_bays (s : State) (a mask : Nat) (v : Word) : (s.writePg a mask v).bays = s.bays := rfl
@[simp] theorem State.writePg_stg (s : State) (a mask : Nat) (v : Word) : (s.writePg a mask v).stg = s.stg := rfl
@[simp] theorem State.writePg_ddr (s : State) (a mask : Nat) (v : Word) : (s.writePg a mask v).ddr = s.ddr := rfl
@[simp] theorem State.writePg_scr (s : State) (a mask : Nat) (v : Word) : (s.writePg a mask v).scr = s.scr := rfl
@[simp] theorem State.writePg_qm (s : State) (a mask : Nat) (v : Word) : (s.writePg a mask v).qm = s.qm := rfl
@[simp] theorem State.writePg_scf (s : State) (a mask : Nat) (v : Word) : (s.writePg a mask v).scf = s.scf := rfl
@[simp] theorem State.writePg_work (s : State) (a mask : Nat) (v : Word) : (s.writePg a mask v).work = s.work := rfl
@[simp] theorem State.writePg_bg (s : State) (a mask : Nat) (v : Word) : (s.writePg a mask v).bg = s.bg := rfl
@[simp] theorem State.writePg_rsu (s : State) (a mask : Nat) (v : Word) : (s.writePg a mask v).rsu = s.rsu := rfl
@[simp] theorem State.writePg_hb (s : State) (a mask : Nat) (v : Word) : (s.writePg a mask v).hb = s.hb := rfl
@[simp] theorem State.writePg_macs (s : State) (a mask : Nat) (v : Word) : (s.writePg a mask v).macs = s.macs := rfl
@[simp] theorem State.writePg_mx (s : State) (a mask : Nat) (v : Word) : (s.writePg a mask v).mx = s.mx := rfl
@[simp] theorem State.writePg_sec (s : State) (a mask : Nat) (v : Word) : (s.writePg a mask v).sec = s.sec := rfl
@[simp] theorem State.writePg_out (s : State) (a mask : Nat) (v : Word) : (s.writePg a mask v).out = s.out := rfl

@[simp] theorem State.writeSq_pending (s : State) (a : Nat) (v : Word) : (s.writeSq a v).pending = s.pending := rfl
@[simp] theorem State.writeSq_hw (s : State) (a : Nat) (v : Word) : (s.writeSq a v).hw = s.hw := rfl
@[simp] theorem State.writeSq_free (s : State) (a : Nat) (v : Word) : (s.writeSq a v).free = s.free := rfl
@[simp] theorem State.writeSq_gens (s : State) (a : Nat) (v : Word) : (s.writeSq a v).gens = s.gens := rfl
@[simp] theorem State.writeSq_rst (s : State) (a : Nat) (v : Word) : (s.writeSq a v).rst = s.rst := rfl
@[simp] theorem State.writeSq_bays (s : State) (a : Nat) (v : Word) : (s.writeSq a v).bays = s.bays := rfl
@[simp] theorem State.writeSq_stg (s : State) (a : Nat) (v : Word) : (s.writeSq a v).stg = s.stg := rfl
@[simp] theorem State.writeSq_ddr (s : State) (a : Nat) (v : Word) : (s.writeSq a v).ddr = s.ddr := rfl
@[simp] theorem State.writeSq_scr (s : State) (a : Nat) (v : Word) : (s.writeSq a v).scr = s.scr := rfl
@[simp] theorem State.writeSq_qm (s : State) (a : Nat) (v : Word) : (s.writeSq a v).qm = s.qm := rfl
@[simp] theorem State.writeSq_scf (s : State) (a : Nat) (v : Word) : (s.writeSq a v).scf = s.scf := rfl
@[simp] theorem State.writeSq_work (s : State) (a : Nat) (v : Word) : (s.writeSq a v).work = s.work := rfl
@[simp] theorem State.writeSq_bg (s : State) (a : Nat) (v : Word) : (s.writeSq a v).bg = s.bg := rfl
@[simp] theorem State.writeSq_rsu (s : State) (a : Nat) (v : Word) : (s.writeSq a v).rsu = s.rsu := rfl
@[simp] theorem State.writeSq_hb (s : State) (a : Nat) (v : Word) : (s.writeSq a v).hb = s.hb := rfl
@[simp] theorem State.writeSq_macs (s : State) (a : Nat) (v : Word) : (s.writeSq a v).macs = s.macs := rfl
@[simp] theorem State.writeSq_mx (s : State) (a : Nat) (v : Word) : (s.writeSq a v).mx = s.mx := rfl
@[simp] theorem State.writeSq_sec (s : State) (a : Nat) (v : Word) : (s.writeSq a v).sec = s.sec := rfl
@[simp] theorem State.writeSq_out (s : State) (a : Nat) (v : Word) : (s.writeSq a v).out = s.out := rfl

@[simp] theorem State.todo_pending (s : State) (w : Work) : (s.todo w).pending = s.pending := rfl
@[simp] theorem State.todo_hw (s : State) (w : Work) : (s.todo w).hw = s.hw := rfl
@[simp] theorem State.todo_free (s : State) (w : Work) : (s.todo w).free = s.free := rfl
@[simp] theorem State.todo_gens (s : State) (w : Work) : (s.todo w).gens = s.gens := rfl
@[simp] theorem State.todo_regs (s : State) (w : Work) : (s.todo w).regs = s.regs := rfl
@[simp] theorem State.todo_rst (s : State) (w : Work) : (s.todo w).rst = s.rst := rfl
@[simp] theorem State.todo_bays (s : State) (w : Work) : (s.todo w).bays = s.bays := rfl
@[simp] theorem State.todo_stg (s : State) (w : Work) : (s.todo w).stg = s.stg := rfl
@[simp] theorem State.todo_ddr (s : State) (w : Work) : (s.todo w).ddr = s.ddr := rfl
@[simp] theorem State.todo_scr (s : State) (w : Work) : (s.todo w).scr = s.scr := rfl
@[simp] theorem State.todo_qm (s : State) (w : Work) : (s.todo w).qm = s.qm := rfl
@[simp] theorem State.todo_scf (s : State) (w : Work) : (s.todo w).scf = s.scf := rfl
@[simp] theorem State.todo_work (s : State) (w : Work) : (s.todo w).work = s.work ++ [w] := rfl
@[simp] theorem State.todo_bg (s : State) (w : Work) : (s.todo w).bg = s.bg := rfl
@[simp] theorem State.todo_rsu (s : State) (w : Work) : (s.todo w).rsu = s.rsu := rfl
@[simp] theorem State.todo_hb (s : State) (w : Work) : (s.todo w).hb = s.hb := rfl
@[simp] theorem State.todo_macs (s : State) (w : Work) : (s.todo w).macs = s.macs := rfl
@[simp] theorem State.todo_mx (s : State) (w : Work) : (s.todo w).mx = s.mx := rfl
@[simp] theorem State.todo_sec (s : State) (w : Work) : (s.todo w).sec = s.sec := rfl
@[simp] theorem State.todo_out (s : State) (w : Work) : (s.todo w).out = s.out := rfl

/-! ## Named parts after a write -/

@[simp] theorem State.bay_setBay (s : State) (k : Nat) (b : Bay) : (s.setBay k b).bay k = b := tget_tset_same _ _ _ _

theorem State.bay_setBay_ne (s : State) {k j : Nat} (b : Bay) (h : j ≠ k) : (s.setBay k b).bay j = s.bay j :=
  tget_tset_ne _ _ _ h

@[simp] theorem State.bay_onBay (s : State) (k : Nat) (f : Bay → Bay) : (s.onBay k f).bay k = f (s.bay k) :=
  tget_tset_same _ _ _ _

theorem State.bay_onBay_ne (s : State) {k j : Nat} (f : Bay → Bay) (h : j ≠ k) : (s.onBay k f).bay j = s.bay j :=
  tget_tset_ne _ _ _ h

@[simp] theorem State.bank_setBank (s : State) (n : Nat) (x : Bank) : (s.setBank n x).bank n = x := tget_tset_same _ _ _ _

theorem State.bank_setBank_ne (s : State) {n j : Nat} (x : Bank) (h : j ≠ n) : (s.setBank n x).bank j = s.bank j :=
  tget_tset_ne _ _ _ h

@[simp] theorem State.chan_setChan (s : State) (c : Nat) (x : Chan) : (s.setChan c x).chan c = x := tgetD_tsetD_same _ _ _ _

theorem State.chan_setChan_ne (s : State) {c j : Nat} (x : Chan) (h : j ≠ c) : (s.setChan c x).chan j = s.chan j :=
  tgetD_tsetD_ne _ _ _ h

@[simp] theorem State.queue_setQueue (s : State) (q : Nat) (x : Queue) : (s.setQueue q x).queue q = x :=
  tgetD_tsetD_same _ _ _ _

theorem State.queue_setQueue_ne (s : State) {q j : Nat} (x : Queue) (h : j ≠ q) : (s.setQueue q x).queue j = s.queue j :=
  tgetD_tsetD_ne _ _ _ h

@[simp] theorem State.dom_setDom (s : State) (d v : Nat) : (s.setDom d v).dom d = v := tgetD_tsetD_same _ _ _ _

theorem State.dom_setDom_ne (s : State) {d j : Nat} (v : Nat) (h : j ≠ d) : (s.setDom d v).dom j = s.dom j :=
  tgetD_tsetD_ne _ _ _ h

@[simp] theorem State.reg_setReg (s : State) (a : Nat) (v : Word) : (s.setReg a v).reg a = v := tget_tset_same _ _ _ _

theorem State.reg_setReg_ne (s : State) {a j : Nat} (v : Word) (h : j ≠ a) : (s.setReg a v).reg j = s.reg j :=
  tget_tset_ne _ _ _ h

@[simp] theorem State.sq_setSq (s : State) (a : Nat) (q : Sq) : (s.setSq a q).sq a = q := tgetD_tsetD_same _ _ _ _

theorem State.sq_setSq_ne (s : State) {a j : Nat} (q : Sq) (h : j ≠ a) : (s.setSq a q).sq j = s.sq j :=
  tgetD_tsetD_ne _ _ _ h

@[simp] theorem State.sq_event (s : State) (a i : Nat) : (s.event a i).sq a = (s.sq a).event i := State.sq_setSq _ _ _

@[simp] theorem State.count_setCount (s : State) (a n : Nat) : (s.setCount a n).count a = n % 2 ^ 64 :=
  tgetD_tsetD_same _ _ _ _

theorem State.count_setCount_ne (s : State) {a j : Nat} (n : Nat) (h : j ≠ a) : (s.setCount a n).count j = s.count j :=
  tgetD_tsetD_ne _ _ _ h

/-! ## Parts that an update does not touch -/

@[simp] theorem State.bay_of_start (s : State) (j : Nat) : s.start.bay j = s.bay j := rfl
@[simp] theorem State.bank_of_start (s : State) (j : Nat) : s.start.bank j = s.bank j := rfl
@[simp] theorem State.chan_of_start (s : State) (j : Nat) : s.start.chan j = s.chan j := rfl
@[simp] theorem State.queue_of_start (s : State) (j : Nat) : s.start.queue j = s.queue j := rfl
@[simp] theorem State.dom_of_start (s : State) (j : Nat) : s.start.dom j = s.dom j := rfl
@[simp] theorem State.on_of_start (s : State) (j : Nat) : s.start.on j = s.on j := rfl
@[simp] theorem State.stgOn_of_start (s : State) : s.start.stgOn = s.stgOn := rfl
@[simp] theorem State.wideHeld_of_start (s : State) : s.start.wideHeld = s.wideHeld := rfl
@[simp] theorem State.bentHere_of_start (s : State) (j : Nat) : s.start.bentHere j = s.bentHere j := rfl
@[simp] theorem State.reg_of_start (s : State) (j : Nat) : s.start.reg j = s.reg j := rfl
@[simp] theorem State.sq_of_start (s : State) (j : Nat) : s.start.sq j = s.sq j := rfl
@[simp] theorem State.count_of_start (s : State) (j : Nat) : s.start.count j = s.count j := rfl

@[simp] theorem State.bay_of_emit (s : State) (o : Out) (j : Nat) : (s.emit o).bay j = s.bay j := rfl
@[simp] theorem State.bank_of_emit (s : State) (o : Out) (j : Nat) : (s.emit o).bank j = s.bank j := rfl
@[simp] theorem State.chan_of_emit (s : State) (o : Out) (j : Nat) : (s.emit o).chan j = s.chan j := rfl
@[simp] theorem State.queue_of_emit (s : State) (o : Out) (j : Nat) : (s.emit o).queue j = s.queue j := rfl
@[simp] theorem State.dom_of_emit (s : State) (o : Out) (j : Nat) : (s.emit o).dom j = s.dom j := rfl
@[simp] theorem State.on_of_emit (s : State) (o : Out) (j : Nat) : (s.emit o).on j = s.on j := rfl
@[simp] theorem State.stgOn_of_emit (s : State) (o : Out) : (s.emit o).stgOn = s.stgOn := rfl
@[simp] theorem State.wideHeld_of_emit (s : State) (o : Out) : (s.emit o).wideHeld = s.wideHeld := rfl
@[simp] theorem State.bentHere_of_emit (s : State) (o : Out) (j : Nat) : (s.emit o).bentHere j = s.bentHere j := rfl
@[simp] theorem State.reg_of_emit (s : State) (o : Out) (j : Nat) : (s.emit o).reg j = s.reg j := rfl
@[simp] theorem State.sq_of_emit (s : State) (o : Out) (j : Nat) : (s.emit o).sq j = s.sq j := rfl
@[simp] theorem State.count_of_emit (s : State) (o : Out) (j : Nat) : (s.emit o).count j = s.count j := rfl

@[simp] theorem State.bay_of_draw (s : State) (j : Nat) : s.draw.1.bay j = s.bay j := rfl
@[simp] theorem State.bank_of_draw (s : State) (j : Nat) : s.draw.1.bank j = s.bank j := rfl
@[simp] theorem State.chan_of_draw (s : State) (j : Nat) : s.draw.1.chan j = s.chan j := rfl
@[simp] theorem State.queue_of_draw (s : State) (j : Nat) : s.draw.1.queue j = s.queue j := rfl
@[simp] theorem State.dom_of_draw (s : State) (j : Nat) : s.draw.1.dom j = s.dom j := rfl
@[simp] theorem State.on_of_draw (s : State) (j : Nat) : s.draw.1.on j = s.on j := rfl
@[simp] theorem State.stgOn_of_draw (s : State) : s.draw.1.stgOn = s.stgOn := rfl
@[simp] theorem State.wideHeld_of_draw (s : State) : s.draw.1.wideHeld = s.wideHeld := rfl
@[simp] theorem State.bentHere_of_draw (s : State) (j : Nat) : s.draw.1.bentHere j = s.bentHere j := rfl
@[simp] theorem State.reg_of_draw (s : State) (j : Nat) : s.draw.1.reg j = s.reg j := rfl
@[simp] theorem State.sq_of_draw (s : State) (j : Nat) : s.draw.1.sq j = s.sq j := rfl
@[simp] theorem State.count_of_draw (s : State) (j : Nat) : s.draw.1.count j = s.count j := rfl

@[simp] theorem State.bay_of_newGen (s : State) (j : Nat) : s.newGen.1.bay j = s.bay j := rfl
@[simp] theorem State.bank_of_newGen (s : State) (j : Nat) : s.newGen.1.bank j = s.bank j := rfl
@[simp] theorem State.chan_of_newGen (s : State) (j : Nat) : s.newGen.1.chan j = s.chan j := rfl
@[simp] theorem State.queue_of_newGen (s : State) (j : Nat) : s.newGen.1.queue j = s.queue j := rfl
@[simp] theorem State.dom_of_newGen (s : State) (j : Nat) : s.newGen.1.dom j = s.dom j := rfl
@[simp] theorem State.on_of_newGen (s : State) (j : Nat) : s.newGen.1.on j = s.on j := rfl
@[simp] theorem State.stgOn_of_newGen (s : State) : s.newGen.1.stgOn = s.stgOn := rfl
@[simp] theorem State.wideHeld_of_newGen (s : State) : s.newGen.1.wideHeld = s.wideHeld := rfl
@[simp] theorem State.bentHere_of_newGen (s : State) (j : Nat) : s.newGen.1.bentHere j = s.bentHere j := rfl
@[simp] theorem State.reg_of_newGen (s : State) (j : Nat) : s.newGen.1.reg j = s.reg j := rfl
@[simp] theorem State.sq_of_newGen (s : State) (j : Nat) : s.newGen.1.sq j = s.sq j := rfl
@[simp] theorem State.count_of_newGen (s : State) (j : Nat) : s.newGen.1.count j = s.count j := rfl

@[simp] theorem State.bank_of_setBay (s : State) (k : Nat) (b : Bay) (j : Nat) : (s.setBay k b).bank j = s.bank j := rfl
@[simp] theorem State.chan_of_setBay (s : State) (k : Nat) (b : Bay) (j : Nat) : (s.setBay k b).chan j = s.chan j := rfl
@[simp] theorem State.queue_of_setBay (s : State) (k : Nat) (b : Bay) (j : Nat) : (s.setBay k b).queue j = s.queue j := rfl
@[simp] theorem State.dom_of_setBay (s : State) (k : Nat) (b : Bay) (j : Nat) : (s.setBay k b).dom j = s.dom j := rfl
@[simp] theorem State.on_of_setBay (s : State) (k : Nat) (b : Bay) (j : Nat) : (s.setBay k b).on j = s.on j := rfl
@[simp] theorem State.stgOn_of_setBay (s : State) (k : Nat) (b : Bay) : (s.setBay k b).stgOn = s.stgOn := rfl
@[simp] theorem State.wideHeld_of_setBay (s : State) (k : Nat) (b : Bay) : (s.setBay k b).wideHeld = s.wideHeld := rfl
@[simp] theorem State.bentHere_of_setBay (s : State) (k : Nat) (b : Bay) (j : Nat) : (s.setBay k b).bentHere j = s.bentHere j := rfl
@[simp] theorem State.reg_of_setBay (s : State) (k : Nat) (b : Bay) (j : Nat) : (s.setBay k b).reg j = s.reg j := rfl
@[simp] theorem State.sq_of_setBay (s : State) (k : Nat) (b : Bay) (j : Nat) : (s.setBay k b).sq j = s.sq j := rfl
@[simp] theorem State.count_of_setBay (s : State) (k : Nat) (b : Bay) (j : Nat) : (s.setBay k b).count j = s.count j := rfl

@[simp] theorem State.bank_of_onBay (s : State) (k : Nat) (f : Bay → Bay) (j : Nat) : (s.onBay k f).bank j = s.bank j := rfl
@[simp] theorem State.chan_of_onBay (s : State) (k : Nat) (f : Bay → Bay) (j : Nat) : (s.onBay k f).chan j = s.chan j := rfl
@[simp] theorem State.queue_of_onBay (s : State) (k : Nat) (f : Bay → Bay) (j : Nat) : (s.onBay k f).queue j = s.queue j := rfl
@[simp] theorem State.dom_of_onBay (s : State) (k : Nat) (f : Bay → Bay) (j : Nat) : (s.onBay k f).dom j = s.dom j := rfl
@[simp] theorem State.on_of_onBay (s : State) (k : Nat) (f : Bay → Bay) (j : Nat) : (s.onBay k f).on j = s.on j := rfl
@[simp] theorem State.stgOn_of_onBay (s : State) (k : Nat) (f : Bay → Bay) : (s.onBay k f).stgOn = s.stgOn := rfl
@[simp] theorem State.wideHeld_of_onBay (s : State) (k : Nat) (f : Bay → Bay) : (s.onBay k f).wideHeld = s.wideHeld := rfl
@[simp] theorem State.bentHere_of_onBay (s : State) (k : Nat) (f : Bay → Bay) (j : Nat) : (s.onBay k f).bentHere j = s.bentHere j := rfl
@[simp] theorem State.reg_of_onBay (s : State) (k : Nat) (f : Bay → Bay) (j : Nat) : (s.onBay k f).reg j = s.reg j := rfl
@[simp] theorem State.sq_of_onBay (s : State) (k : Nat) (f : Bay → Bay) (j : Nat) : (s.onBay k f).sq j = s.sq j := rfl
@[simp] theorem State.count_of_onBay (s : State) (k : Nat) (f : Bay → Bay) (j : Nat) : (s.onBay k f).count j = s.count j := rfl

@[simp] theorem State.bay_of_setBank (s : State) (n : Nat) (x : Bank) (j : Nat) : (s.setBank n x).bay j = s.bay j := rfl
@[simp] theorem State.chan_of_setBank (s : State) (n : Nat) (x : Bank) (j : Nat) : (s.setBank n x).chan j = s.chan j := rfl
@[simp] theorem State.queue_of_setBank (s : State) (n : Nat) (x : Bank) (j : Nat) : (s.setBank n x).queue j = s.queue j := rfl
@[simp] theorem State.dom_of_setBank (s : State) (n : Nat) (x : Bank) (j : Nat) : (s.setBank n x).dom j = s.dom j := rfl
@[simp] theorem State.on_of_setBank (s : State) (n : Nat) (x : Bank) (j : Nat) : (s.setBank n x).on j = s.on j := rfl
@[simp] theorem State.stgOn_of_setBank (s : State) (n : Nat) (x : Bank) : (s.setBank n x).stgOn = s.stgOn := rfl
@[simp] theorem State.wideHeld_of_setBank (s : State) (n : Nat) (x : Bank) : (s.setBank n x).wideHeld = s.wideHeld := rfl
@[simp] theorem State.bentHere_of_setBank (s : State) (n : Nat) (x : Bank) (j : Nat) : (s.setBank n x).bentHere j = s.bentHere j := rfl
@[simp] theorem State.reg_of_setBank (s : State) (n : Nat) (x : Bank) (j : Nat) : (s.setBank n x).reg j = s.reg j := rfl
@[simp] theorem State.sq_of_setBank (s : State) (n : Nat) (x : Bank) (j : Nat) : (s.setBank n x).sq j = s.sq j := rfl
@[simp] theorem State.count_of_setBank (s : State) (n : Nat) (x : Bank) (j : Nat) : (s.setBank n x).count j = s.count j := rfl

@[simp] theorem State.bay_of_setChan (s : State) (c : Nat) (x : Chan) (j : Nat) : (s.setChan c x).bay j = s.bay j := rfl
@[simp] theorem State.bank_of_setChan (s : State) (c : Nat) (x : Chan) (j : Nat) : (s.setChan c x).bank j = s.bank j := rfl
@[simp] theorem State.queue_of_setChan (s : State) (c : Nat) (x : Chan) (j : Nat) : (s.setChan c x).queue j = s.queue j := rfl
@[simp] theorem State.dom_of_setChan (s : State) (c : Nat) (x : Chan) (j : Nat) : (s.setChan c x).dom j = s.dom j := rfl
@[simp] theorem State.on_of_setChan (s : State) (c : Nat) (x : Chan) (j : Nat) : (s.setChan c x).on j = s.on j := rfl
@[simp] theorem State.stgOn_of_setChan (s : State) (c : Nat) (x : Chan) : (s.setChan c x).stgOn = s.stgOn := rfl
@[simp] theorem State.wideHeld_of_setChan (s : State) (c : Nat) (x : Chan) : (s.setChan c x).wideHeld = s.wideHeld := rfl
@[simp] theorem State.bentHere_of_setChan (s : State) (c : Nat) (x : Chan) (j : Nat) : (s.setChan c x).bentHere j = s.bentHere j := rfl
@[simp] theorem State.reg_of_setChan (s : State) (c : Nat) (x : Chan) (j : Nat) : (s.setChan c x).reg j = s.reg j := rfl
@[simp] theorem State.sq_of_setChan (s : State) (c : Nat) (x : Chan) (j : Nat) : (s.setChan c x).sq j = s.sq j := rfl
@[simp] theorem State.count_of_setChan (s : State) (c : Nat) (x : Chan) (j : Nat) : (s.setChan c x).count j = s.count j := rfl

@[simp] theorem State.bay_of_setQueue (s : State) (q : Nat) (x : Queue) (j : Nat) : (s.setQueue q x).bay j = s.bay j := rfl
@[simp] theorem State.bank_of_setQueue (s : State) (q : Nat) (x : Queue) (j : Nat) : (s.setQueue q x).bank j = s.bank j := rfl
@[simp] theorem State.chan_of_setQueue (s : State) (q : Nat) (x : Queue) (j : Nat) : (s.setQueue q x).chan j = s.chan j := rfl
@[simp] theorem State.dom_of_setQueue (s : State) (q : Nat) (x : Queue) (j : Nat) : (s.setQueue q x).dom j = s.dom j := rfl
@[simp] theorem State.on_of_setQueue (s : State) (q : Nat) (x : Queue) (j : Nat) : (s.setQueue q x).on j = s.on j := rfl
@[simp] theorem State.stgOn_of_setQueue (s : State) (q : Nat) (x : Queue) : (s.setQueue q x).stgOn = s.stgOn := rfl
@[simp] theorem State.wideHeld_of_setQueue (s : State) (q : Nat) (x : Queue) : (s.setQueue q x).wideHeld = s.wideHeld := rfl
@[simp] theorem State.bentHere_of_setQueue (s : State) (q : Nat) (x : Queue) (j : Nat) : (s.setQueue q x).bentHere j = s.bentHere j := rfl
@[simp] theorem State.reg_of_setQueue (s : State) (q : Nat) (x : Queue) (j : Nat) : (s.setQueue q x).reg j = s.reg j := rfl
@[simp] theorem State.sq_of_setQueue (s : State) (q : Nat) (x : Queue) (j : Nat) : (s.setQueue q x).sq j = s.sq j := rfl
@[simp] theorem State.count_of_setQueue (s : State) (q : Nat) (x : Queue) (j : Nat) : (s.setQueue q x).count j = s.count j := rfl

@[simp] theorem State.bay_of_setDom (s : State) (d v : Nat) (j : Nat) : (s.setDom d v).bay j = s.bay j := rfl
@[simp] theorem State.bank_of_setDom (s : State) (d v : Nat) (j : Nat) : (s.setDom d v).bank j = s.bank j := rfl
@[simp] theorem State.chan_of_setDom (s : State) (d v : Nat) (j : Nat) : (s.setDom d v).chan j = s.chan j := rfl
@[simp] theorem State.queue_of_setDom (s : State) (d v : Nat) (j : Nat) : (s.setDom d v).queue j = s.queue j := rfl
@[simp] theorem State.wideHeld_of_setDom (s : State) (d v : Nat) : (s.setDom d v).wideHeld = s.wideHeld := rfl
@[simp] theorem State.bentHere_of_setDom (s : State) (d v : Nat) (j : Nat) : (s.setDom d v).bentHere j = s.bentHere j := rfl
@[simp] theorem State.reg_of_setDom (s : State) (d v : Nat) (j : Nat) : (s.setDom d v).reg j = s.reg j := rfl
@[simp] theorem State.sq_of_setDom (s : State) (d v : Nat) (j : Nat) : (s.setDom d v).sq j = s.sq j := rfl
@[simp] theorem State.count_of_setDom (s : State) (d v : Nat) (j : Nat) : (s.setDom d v).count j = s.count j := rfl

@[simp] theorem State.bay_of_setReg (s : State) (a : Nat) (v : Word) (j : Nat) : (s.setReg a v).bay j = s.bay j := rfl
@[simp] theorem State.bank_of_setReg (s : State) (a : Nat) (v : Word) (j : Nat) : (s.setReg a v).bank j = s.bank j := rfl
@[simp] theorem State.chan_of_setReg (s : State) (a : Nat) (v : Word) (j : Nat) : (s.setReg a v).chan j = s.chan j := rfl
@[simp] theorem State.queue_of_setReg (s : State) (a : Nat) (v : Word) (j : Nat) : (s.setReg a v).queue j = s.queue j := rfl
@[simp] theorem State.dom_of_setReg (s : State) (a : Nat) (v : Word) (j : Nat) : (s.setReg a v).dom j = s.dom j := rfl
@[simp] theorem State.on_of_setReg (s : State) (a : Nat) (v : Word) (j : Nat) : (s.setReg a v).on j = s.on j := rfl
@[simp] theorem State.stgOn_of_setReg (s : State) (a : Nat) (v : Word) : (s.setReg a v).stgOn = s.stgOn := rfl
@[simp] theorem State.wideHeld_of_setReg (s : State) (a : Nat) (v : Word) : (s.setReg a v).wideHeld = s.wideHeld := rfl
@[simp] theorem State.bentHere_of_setReg (s : State) (a : Nat) (v : Word) (j : Nat) : (s.setReg a v).bentHere j = s.bentHere j := rfl
@[simp] theorem State.sq_of_setReg (s : State) (a : Nat) (v : Word) (j : Nat) : (s.setReg a v).sq j = s.sq j := rfl
@[simp] theorem State.count_of_setReg (s : State) (a : Nat) (v : Word) (j : Nat) : (s.setReg a v).count j = s.count j := rfl

@[simp] theorem State.bay_of_setSq (s : State) (a : Nat) (q : Sq) (j : Nat) : (s.setSq a q).bay j = s.bay j := rfl
@[simp] theorem State.bank_of_setSq (s : State) (a : Nat) (q : Sq) (j : Nat) : (s.setSq a q).bank j = s.bank j := rfl
@[simp] theorem State.chan_of_setSq (s : State) (a : Nat) (q : Sq) (j : Nat) : (s.setSq a q).chan j = s.chan j := rfl
@[simp] theorem State.queue_of_setSq (s : State) (a : Nat) (q : Sq) (j : Nat) : (s.setSq a q).queue j = s.queue j := rfl
@[simp] theorem State.dom_of_setSq (s : State) (a : Nat) (q : Sq) (j : Nat) : (s.setSq a q).dom j = s.dom j := rfl
@[simp] theorem State.on_of_setSq (s : State) (a : Nat) (q : Sq) (j : Nat) : (s.setSq a q).on j = s.on j := rfl
@[simp] theorem State.stgOn_of_setSq (s : State) (a : Nat) (q : Sq) : (s.setSq a q).stgOn = s.stgOn := rfl
@[simp] theorem State.wideHeld_of_setSq (s : State) (a : Nat) (q : Sq) : (s.setSq a q).wideHeld = s.wideHeld := rfl
@[simp] theorem State.bentHere_of_setSq (s : State) (a : Nat) (q : Sq) (j : Nat) : (s.setSq a q).bentHere j = s.bentHere j := rfl
@[simp] theorem State.reg_of_setSq (s : State) (a : Nat) (q : Sq) (j : Nat) : (s.setSq a q).reg j = s.reg j := rfl
@[simp] theorem State.count_of_setSq (s : State) (a : Nat) (q : Sq) (j : Nat) : (s.setSq a q).count j = s.count j := rfl

@[simp] theorem State.bay_of_event (s : State) (a i : Nat) (j : Nat) : (s.event a i).bay j = s.bay j := rfl
@[simp] theorem State.bank_of_event (s : State) (a i : Nat) (j : Nat) : (s.event a i).bank j = s.bank j := rfl
@[simp] theorem State.chan_of_event (s : State) (a i : Nat) (j : Nat) : (s.event a i).chan j = s.chan j := rfl
@[simp] theorem State.queue_of_event (s : State) (a i : Nat) (j : Nat) : (s.event a i).queue j = s.queue j := rfl
@[simp] theorem State.dom_of_event (s : State) (a i : Nat) (j : Nat) : (s.event a i).dom j = s.dom j := rfl
@[simp] theorem State.on_of_event (s : State) (a i : Nat) (j : Nat) : (s.event a i).on j = s.on j := rfl
@[simp] theorem State.stgOn_of_event (s : State) (a i : Nat) : (s.event a i).stgOn = s.stgOn := rfl
@[simp] theorem State.wideHeld_of_event (s : State) (a i : Nat) : (s.event a i).wideHeld = s.wideHeld := rfl
@[simp] theorem State.bentHere_of_event (s : State) (a i : Nat) (j : Nat) : (s.event a i).bentHere j = s.bentHere j := rfl
@[simp] theorem State.reg_of_event (s : State) (a i : Nat) (j : Nat) : (s.event a i).reg j = s.reg j := rfl
@[simp] theorem State.count_of_event (s : State) (a i : Nat) (j : Nat) : (s.event a i).count j = s.count j := rfl

@[simp] theorem State.bay_of_setCount (s : State) (a n : Nat) (j : Nat) : (s.setCount a n).bay j = s.bay j := rfl
@[simp] theorem State.bank_of_setCount (s : State) (a n : Nat) (j : Nat) : (s.setCount a n).bank j = s.bank j := rfl
@[simp] theorem State.chan_of_setCount (s : State) (a n : Nat) (j : Nat) : (s.setCount a n).chan j = s.chan j := rfl
@[simp] theorem State.queue_of_setCount (s : State) (a n : Nat) (j : Nat) : (s.setCount a n).queue j = s.queue j := rfl
@[simp] theorem State.dom_of_setCount (s : State) (a n : Nat) (j : Nat) : (s.setCount a n).dom j = s.dom j := rfl
@[simp] theorem State.on_of_setCount (s : State) (a n : Nat) (j : Nat) : (s.setCount a n).on j = s.on j := rfl
@[simp] theorem State.stgOn_of_setCount (s : State) (a n : Nat) : (s.setCount a n).stgOn = s.stgOn := rfl
@[simp] theorem State.wideHeld_of_setCount (s : State) (a n : Nat) : (s.setCount a n).wideHeld = s.wideHeld := rfl
@[simp] theorem State.bentHere_of_setCount (s : State) (a n : Nat) (j : Nat) : (s.setCount a n).bentHere j = s.bentHere j := rfl
@[simp] theorem State.reg_of_setCount (s : State) (a n : Nat) (j : Nat) : (s.setCount a n).reg j = s.reg j := rfl
@[simp] theorem State.sq_of_setCount (s : State) (a n : Nat) (j : Nat) : (s.setCount a n).sq j = s.sq j := rfl

@[simp] theorem State.bay_of_bump (s : State) (a : Nat) (j : Nat) : (s.bump a).bay j = s.bay j := rfl
@[simp] theorem State.bank_of_bump (s : State) (a : Nat) (j : Nat) : (s.bump a).bank j = s.bank j := rfl
@[simp] theorem State.chan_of_bump (s : State) (a : Nat) (j : Nat) : (s.bump a).chan j = s.chan j := rfl
@[simp] theorem State.queue_of_bump (s : State) (a : Nat) (j : Nat) : (s.bump a).queue j = s.queue j := rfl
@[simp] theorem State.dom_of_bump (s : State) (a : Nat) (j : Nat) : (s.bump a).dom j = s.dom j := rfl
@[simp] theorem State.on_of_bump (s : State) (a : Nat) (j : Nat) : (s.bump a).on j = s.on j := rfl
@[simp] theorem State.stgOn_of_bump (s : State) (a : Nat) : (s.bump a).stgOn = s.stgOn := rfl
@[simp] theorem State.wideHeld_of_bump (s : State) (a : Nat) : (s.bump a).wideHeld = s.wideHeld := rfl
@[simp] theorem State.bentHere_of_bump (s : State) (a : Nat) (j : Nat) : (s.bump a).bentHere j = s.bentHere j := rfl
@[simp] theorem State.reg_of_bump (s : State) (a : Nat) (j : Nat) : (s.bump a).reg j = s.reg j := rfl
@[simp] theorem State.sq_of_bump (s : State) (a : Nat) (j : Nat) : (s.bump a).sq j = s.sq j := rfl

@[simp] theorem State.bay_of_writeRw (s : State) (a mask : Nat) (v : Word) (j : Nat) : (s.writeRw a mask v).bay j = s.bay j := rfl
@[simp] theorem State.bank_of_writeRw (s : State) (a mask : Nat) (v : Word) (j : Nat) : (s.writeRw a mask v).bank j = s.bank j := rfl
@[simp] theorem State.chan_of_writeRw (s : State) (a mask : Nat) (v : Word) (j : Nat) : (s.writeRw a mask v).chan j = s.chan j := rfl
@[simp] theorem State.queue_of_writeRw (s : State) (a mask : Nat) (v : Word) (j : Nat) : (s.writeRw a mask v).queue j = s.queue j := rfl
@[simp] theorem State.dom_of_writeRw (s : State) (a mask : Nat) (v : Word) (j : Nat) : (s.writeRw a mask v).dom j = s.dom j := rfl
@[simp] theorem State.on_of_writeRw (s : State) (a mask : Nat) (v : Word) (j : Nat) : (s.writeRw a mask v).on j = s.on j := rfl
@[simp] theorem State.stgOn_of_writeRw (s : State) (a mask : Nat) (v : Word) : (s.writeRw a mask v).stgOn = s.stgOn := rfl
@[simp] theorem State.wideHeld_of_writeRw (s : State) (a mask : Nat) (v : Word) : (s.writeRw a mask v).wideHeld = s.wideHeld := rfl
@[simp] theorem State.bentHere_of_writeRw (s : State) (a mask : Nat) (v : Word) (j : Nat) : (s.writeRw a mask v).bentHere j = s.bentHere j := rfl
@[simp] theorem State.sq_of_writeRw (s : State) (a mask : Nat) (v : Word) (j : Nat) : (s.writeRw a mask v).sq j = s.sq j := rfl
@[simp] theorem State.count_of_writeRw (s : State) (a mask : Nat) (v : Word) (j : Nat) : (s.writeRw a mask v).count j = s.count j := rfl

@[simp] theorem State.bay_of_writeMw (s : State) (a : Nat) (v : Word) (j : Nat) : (s.writeMw a v).bay j = s.bay j := rfl
@[simp] theorem State.bank_of_writeMw (s : State) (a : Nat) (v : Word) (j : Nat) : (s.writeMw a v).bank j = s.bank j := rfl
@[simp] theorem State.chan_of_writeMw (s : State) (a : Nat) (v : Word) (j : Nat) : (s.writeMw a v).chan j = s.chan j := rfl
@[simp] theorem State.queue_of_writeMw (s : State) (a : Nat) (v : Word) (j : Nat) : (s.writeMw a v).queue j = s.queue j := rfl
@[simp] theorem State.dom_of_writeMw (s : State) (a : Nat) (v : Word) (j : Nat) : (s.writeMw a v).dom j = s.dom j := rfl
@[simp] theorem State.on_of_writeMw (s : State) (a : Nat) (v : Word) (j : Nat) : (s.writeMw a v).on j = s.on j := rfl
@[simp] theorem State.stgOn_of_writeMw (s : State) (a : Nat) (v : Word) : (s.writeMw a v).stgOn = s.stgOn := rfl
@[simp] theorem State.wideHeld_of_writeMw (s : State) (a : Nat) (v : Word) : (s.writeMw a v).wideHeld = s.wideHeld := rfl
@[simp] theorem State.bentHere_of_writeMw (s : State) (a : Nat) (v : Word) (j : Nat) : (s.writeMw a v).bentHere j = s.bentHere j := rfl
@[simp] theorem State.sq_of_writeMw (s : State) (a : Nat) (v : Word) (j : Nat) : (s.writeMw a v).sq j = s.sq j := rfl
@[simp] theorem State.count_of_writeMw (s : State) (a : Nat) (v : Word) (j : Nat) : (s.writeMw a v).count j = s.count j := rfl

@[simp] theorem State.bay_of_writePg (s : State) (a mask : Nat) (v : Word) (j : Nat) : (s.writePg a mask v).bay j = s.bay j := rfl
@[simp] theorem State.bank_of_writePg (s : State) (a mask : Nat) (v : Word) (j : Nat) : (s.writePg a mask v).bank j = s.bank j := rfl
@[simp] theorem State.chan_of_writePg (s : State) (a mask : Nat) (v : Word) (j : Nat) : (s.writePg a mask v).chan j = s.chan j := rfl
@[simp] theorem State.queue_of_writePg (s : State) (a mask : Nat) (v : Word) (j : Nat) : (s.writePg a mask v).queue j = s.queue j := rfl
@[simp] theorem State.dom_of_writePg (s : State) (a mask : Nat) (v : Word) (j : Nat) : (s.writePg a mask v).dom j = s.dom j := rfl
@[simp] theorem State.on_of_writePg (s : State) (a mask : Nat) (v : Word) (j : Nat) : (s.writePg a mask v).on j = s.on j := rfl
@[simp] theorem State.stgOn_of_writePg (s : State) (a mask : Nat) (v : Word) : (s.writePg a mask v).stgOn = s.stgOn := rfl
@[simp] theorem State.wideHeld_of_writePg (s : State) (a mask : Nat) (v : Word) : (s.writePg a mask v).wideHeld = s.wideHeld := rfl
@[simp] theorem State.bentHere_of_writePg (s : State) (a mask : Nat) (v : Word) (j : Nat) : (s.writePg a mask v).bentHere j = s.bentHere j := rfl
@[simp] theorem State.reg_of_writePg (s : State) (a mask : Nat) (v : Word) (j : Nat) : (s.writePg a mask v).reg j = s.reg j := rfl
@[simp] theorem State.sq_of_writePg (s : State) (a mask : Nat) (v : Word) (j : Nat) : (s.writePg a mask v).sq j = s.sq j := rfl
@[simp] theorem State.count_of_writePg (s : State) (a mask : Nat) (v : Word) (j : Nat) : (s.writePg a mask v).count j = s.count j := rfl

@[simp] theorem State.bay_of_writeSq (s : State) (a : Nat) (v : Word) (j : Nat) : (s.writeSq a v).bay j = s.bay j := rfl
@[simp] theorem State.bank_of_writeSq (s : State) (a : Nat) (v : Word) (j : Nat) : (s.writeSq a v).bank j = s.bank j := rfl
@[simp] theorem State.chan_of_writeSq (s : State) (a : Nat) (v : Word) (j : Nat) : (s.writeSq a v).chan j = s.chan j := rfl
@[simp] theorem State.queue_of_writeSq (s : State) (a : Nat) (v : Word) (j : Nat) : (s.writeSq a v).queue j = s.queue j := rfl
@[simp] theorem State.dom_of_writeSq (s : State) (a : Nat) (v : Word) (j : Nat) : (s.writeSq a v).dom j = s.dom j := rfl
@[simp] theorem State.on_of_writeSq (s : State) (a : Nat) (v : Word) (j : Nat) : (s.writeSq a v).on j = s.on j := rfl
@[simp] theorem State.stgOn_of_writeSq (s : State) (a : Nat) (v : Word) : (s.writeSq a v).stgOn = s.stgOn := rfl
@[simp] theorem State.wideHeld_of_writeSq (s : State) (a : Nat) (v : Word) : (s.writeSq a v).wideHeld = s.wideHeld := rfl
@[simp] theorem State.bentHere_of_writeSq (s : State) (a : Nat) (v : Word) (j : Nat) : (s.writeSq a v).bentHere j = s.bentHere j := rfl
@[simp] theorem State.reg_of_writeSq (s : State) (a : Nat) (v : Word) (j : Nat) : (s.writeSq a v).reg j = s.reg j := rfl
@[simp] theorem State.count_of_writeSq (s : State) (a : Nat) (v : Word) (j : Nat) : (s.writeSq a v).count j = s.count j := rfl

@[simp] theorem State.bay_of_todo (s : State) (w : Work) (j : Nat) : (s.todo w).bay j = s.bay j := rfl
@[simp] theorem State.bank_of_todo (s : State) (w : Work) (j : Nat) : (s.todo w).bank j = s.bank j := rfl
@[simp] theorem State.chan_of_todo (s : State) (w : Work) (j : Nat) : (s.todo w).chan j = s.chan j := rfl
@[simp] theorem State.queue_of_todo (s : State) (w : Work) (j : Nat) : (s.todo w).queue j = s.queue j := rfl
@[simp] theorem State.dom_of_todo (s : State) (w : Work) (j : Nat) : (s.todo w).dom j = s.dom j := rfl
@[simp] theorem State.on_of_todo (s : State) (w : Work) (j : Nat) : (s.todo w).on j = s.on j := rfl
@[simp] theorem State.stgOn_of_todo (s : State) (w : Work) : (s.todo w).stgOn = s.stgOn := rfl
@[simp] theorem State.wideHeld_of_todo (s : State) (w : Work) : (s.todo w).wideHeld = s.wideHeld := rfl
@[simp] theorem State.bentHere_of_todo (s : State) (w : Work) (j : Nat) : (s.todo w).bentHere j = s.bentHere j := rfl
@[simp] theorem State.reg_of_todo (s : State) (w : Work) (j : Nat) : (s.todo w).reg j = s.reg j := rfl
@[simp] theorem State.sq_of_todo (s : State) (w : Work) (j : Nat) : (s.todo w).sq j = s.sq j := rfl
@[simp] theorem State.count_of_todo (s : State) (w : Work) (j : Nat) : (s.todo w).count j = s.count j := rfl

/-! ## How a command runs -/

/-- A command's outcome is always a next state. -/
@[simp] theorem State.run_next (s : State) (f : State → State) : s.run f = .next (s.finish (f s.start)) := rfl

/-- A state in which nothing is due stays as the command left it. -/
theorem State.close_of_calm {t : State} (h : t.calm = true) : t.close = t := by simp [State.close, h]

/-- What a command leaves when nothing further is due: the state it made, with the queue it found. -/
theorem State.finish_of_calm (s : State) {t : State} (h : t.calm = true) : s.finish t = { t with pending := s.pending } := by
  simp [State.finish, State.close_of_calm h]

/-- Whatever a command sets going, the queue is the one it found. -/
@[simp] theorem State.finish_pending (s t : State) : (s.finish t).pending = s.pending := rfl

end Sys2Proof.Machine
end

