-- ==== Sys2Proof/Laws/Commands.lean ====
section
/-!
SUPPORT. The way of a register write: which block's write it becomes, said once for each part of the address space.
-/
namespace Sys2Proof.Machine

/-- A command runs to what its operation makes of the state it starts from. -/
theorem ran {s : State} {f : State → State} {t : State} (h : f s.start = t) : s.run f = .next (s.finish t) :=
  congrArg (fun x => Host.Outcome.next (s.finish x)) h

/-- A register that answers: no wide reset, and its block answers. -/
theorem State.reachable_iff (s : State) (a : Nat) :
    s.reachable a = true ↔ s.wideHeld = false ∧ s.regDown a = false := by
  simp [State.reachable]

/-- Below the bay windows a register write is the block's write. -/
theorem State.regWrite_low (s : State) (ag : Agent) {a : Nat} (v : Word) (h : s.wideHeld = false) (ha : a < 0x1000000) :
    s.regWrite ag a v = s.regAct ag a v := by
  have h1 : ¬(0x1000000 ≤ a ∧ a < 0x2000000) := by omega
  have h2 : ¬(0x48000000 ≤ a ∧ a < 0x48010000) := by omega
  have h3 : ¬(0x60000000 ≤ a) := by omega
  simp [State.regWrite, h, h1, h2, h3]

/-- While a reset of WARM reach or wider runs, no register write has an effect (R466). -/
theorem State.regWrite_held (s : State) (ag : Agent) (a : Nat) (v : Word) (h : s.wideHeld = true) :
    s.regWrite ag a v = s := by
  simp [State.regWrite, h]

/-- A register of a block that does not answer takes no write. -/
theorem State.regAct_down (s : State) (ag : Agent) (a : Nat) (v : Word) (h : s.regDown a = true) :
    s.regAct ag a v = s := by
  simp [State.regAct, h]

/-- In a bay window a register write is the bay's. -/
theorem State.regWrite_bay (s : State) (ag : Agent) {a : Nat} (v : Word) (h : s.wideHeld = false)
    (h1 : 0x1000000 ≤ a) (h2 : a < 0x2000000) :
    s.regWrite ag a v = s.bayWrite ag ((a - 0x1000000) / 0x10000) (a % 0x10000) v := by
  simp [State.regWrite, h, h1, h2]

/-- Only the sill core reaches the slow interfaces (R446). -/
theorem State.regWrite_slow (s : State) {a : Nat} (v : Word) (h : s.wideHeld = false)
    (h1 : 0x48000000 ≤ a) (h2 : a < 0x48010000) {r : RegRow} (hr : regRow a = some r) :
    s.regWrite .sill a v = if r.kind = .sq then s.sqClear a v else s.slowWrite a v := by
  have h3 : ¬(0x1000000 ≤ a ∧ a < 0x2000000) := by omega
  simp [State.regWrite, h, h1, h2, h3, hr]

end Sys2Proof.Machine
end

