-- ==== Sys2Proof/Laws/Registers.lean ====
section
/-!
SUPPORT. The register file and the peg: what each shared operation does, case by case.
-/
namespace Sys2Proof.Machine

/-- A DEV_PEG write of zero has no effect. -/
theorem State.peg_zero (s : State) (down : Nat → Bool) : s.peg down 0 = s := rfl

/-- While BUSY, or while others are held, a DEV_PEG write is held behind those held already. -/
theorem State.peg_busy (s : State) (down : Nat → Bool) {g : Nat} (h0 : g ≠ 0) (h : s.regs.busy = true ∨ s.regs.held ≠ []) :
    s.peg down g = { s with regs := { s.regs with held := s.regs.held ++ [wd g] } } := by
  unfold State.peg
  rw [if_neg h0, if_pos (by rcases h with h | h <;> simp [h])]

/-- A DEV_PEG write that is accepted and skips nothing. -/
theorem State.peg_accepts (s : State) (down : Nat → Bool) {g : Nat} (h0 : g ≠ 0) (h : s.regs.busy = false)
    (he : s.regs.held = []) (hk : s.regs.skips down g = false) :
    s.peg down g = { s with
      regs := s.regs.capture down g,
      qm := { s.qm with
        pegPend := if s.regs.named g 0x30030 && !down 0x30030 then s.qm.pend.length else 0 } } := by
  unfold State.peg State.pegTaken
  rw [if_neg h0, if_neg (by simp [h, he])]
  simp only [hk]
  rfl

/-- A DEV_PEG write that is accepted and skips a shadow. -/
theorem State.peg_skips (s : State) (down : Nat → Bool) {g : Nat} (h0 : g ≠ 0) (h : s.regs.busy = false)
    (he : s.regs.held = []) (hk : s.regs.skips down g = true) :
    s.peg down g = { s.event 0x34 1 with
      regs := (s.event 0x34 1).regs.capture down g,
      qm := { s.qm with
        pegPend := if s.regs.named g 0x30030 && !down 0x30030 then s.qm.pend.length else 0 } } := by
  unfold State.peg State.pegTaken
  rw [if_neg h0, if_neg (by simp [h, he])]
  simp only [hk]
  rfl

/-- The registers below 0x1_0000 always answer. -/
@[simp] theorem State.regDown_dev (s : State) {a : Nat} (h : a < 0x10000) : s.regDown a = false := by
  have this : ∀ k, 0x30000 ≤ k → ¬ k ≤ a := by intro k hk; omega
  have e : blockOf a = none := by simp [blockOf, this]
  have e2 : s.pulsed a = false := by
    unfold State.pulsed
    cases s.rst.pulse <;> simp [e]
  have e3 : s.blockLive a = true := by
    unfold State.blockLive State.unitHere
    simp [this]
  simp [State.regDown, e2, e3]

/-- A register that a table names lies in that table. -/
theorem mem_rowsAt {a : Nat} {r : RegRow} (h : regRow a = some r) : r ∈ rowsAt a := List.mem_of_find?_eq_some h

/-- A register that a table names is one of its row's. -/
theorem covers_of_regRow {a : Nat} {r : RegRow} (h : regRow a = some r) : r.covers a = true := by
  have := List.find?_some h
  simpa using this

/-! ## The configuration CRC (R61–R63) -/

/-- What a pass with result v does. -/
theorem State.crcPass_result (s : State) {v : Word} (hv : s.cfgCrc = v) :
    s.crcPass =
      let s1 := (s.setReg 0x20 v).setReg 0x2C ((s.reg 0x2C + 1#32) &&& 0xFFFF#32)
      if !bitAt (s.reg 0x28) 0 then s1
      else if v = s.reg 0x24 then { s1 with regs := { s1.regs with mism := 0, drifted := false } }
      else if 2 ≤ s.regs.mism + 1 ∧ !s.regs.drifted then
        let s2 := ({ s1 with regs := { s1.regs with mism := s.regs.mism + 1, drifted := true } } : State).event 0x30 0
        s2.err 5 12 0 0x20 (s2.sq 0x30).read
      else { s1 with regs := { s1.regs with mism := s.regs.mism + 1 } } := by
  have e1 : ((s.setReg 0x20 v).setReg 0x2C ((s.reg 0x2C + 1#32) &&& 0xFFFF#32)).regs.mism = s.regs.mism := rfl
  have e2 : ((s.setReg 0x20 v).setReg 0x2C ((s.reg 0x2C + 1#32) &&& 0xFFFF#32)).regs.drifted = s.regs.drifted := rfl
  unfold State.crcPass
  rw [hv]
  clear hv
  simp only [e1, e2]

end Sys2Proof.Machine
end

