-- ==== Sys2Proof/Laws/Bays.lean ====
section
/-!
SUPPORT. Commands that act on one bay: what the copies kept by a bay change, and stores of bay code.
-/
namespace Sys2Proof.Machine

/-- Two changes of a bay that agree on the bay as it stands are the same change of the state. -/
theorem State.onBay_congr {s : State} {k : Nat} {f g : Bay → Bay} (h : f (s.bay k) = g (s.bay k)) :
    s.onBay k f = s.onBay k g := by
  unfold State.onBay
  rw [h]

/-- The copies that a bay keeps of what other units hold are brought up to date; nothing else of it changes. -/
theorem State.syncBay_bay (s : State) (k : Nat) :
    (s.syncBay k).bay k =
      if k = 256 then
        { s.bay k with
          ctx := { (s.bay k).ctx with mxPend := s.mxPend, mxev := s.mxPend &&& s.reg 0xA0114 },
          dbg := { (s.bay k).dbg with locked := s.debugLocked 1 } }
      else { s.bay k with id := k, dbg := { (s.bay k).dbg with locked := s.debugLocked 1 } } :=
  State.bay_onBay _ _ _

@[simp] theorem State.syncBay_sill (s : State) (k : Nat) : ((s.syncBay k).bay k).sill = (s.bay k).sill := by
  rw [State.syncBay_bay]; split <;> rfl

@[simp] theorem State.syncBay_state (s : State) (k : Nat) : ((s.syncBay k).bay k).state = (s.bay k).state := by
  rw [State.syncBay_bay]; split <;> rfl

@[simp] theorem State.syncBay_check (s : State) (k : Nat) : ((s.syncBay k).bay k).ctx.check = (s.bay k).ctx.check := by
  rw [State.syncBay_bay]; split <;> rfl

@[simp] theorem State.syncBay_priv (s : State) (k : Nat) : ((s.syncBay k).bay k).ctx.priv = (s.bay k).ctx.priv := by
  rw [State.syncBay_bay]; split <;> rfl

@[simp] theorem State.syncBay_plumb (s : State) (k : Nat) : ((s.syncBay k).bay k).ctx.plumb = (s.bay k).ctx.plumb := by
  rw [State.syncBay_bay]; split <;> rfl

@[simp] theorem State.syncBay_iwrStage (s : State) (k : Nat) : ((s.syncBay k).bay k).iwrStage = (s.bay k).iwrStage := by
  rw [State.syncBay_bay]; split <;> rfl

@[simp] theorem State.syncBay_pipe (s : State) (k : Nat) : ((s.syncBay k).bay k).pipe = (s.bay k).pipe := by
  rw [State.syncBay_bay]; split <;> rfl

@[simp] theorem State.syncBay_str (s : State) (k : Nat) : ((s.syncBay k).bay k).str = (s.bay k).str := by
  rw [State.syncBay_bay]; split <;> rfl

/-- A store of bay code that has the privilege its address needs. -/
theorem State.bayIo_eq {s : State} {b a : Nat} {v : Word} (h : s.codeRuns b = true)
    (hp : ioPriv a ≤ (s.bay b).ctx.priv) : s.bayIo b a v = (s.syncBay b).onBay b fun c => c.ioWrite a v := by
  simp [State.bayIo, h, hp]

/-- A register write in the window of bay b. -/
theorem State.regWrite_window (s : State) (ag : Agent) {b o : Nat} (v : Word) (h : s.wideHeld = false) (hb : b < 256)
    (ho : o < 0x10000) : s.regWrite ag (bayWindow b + o) v = s.bayWrite ag b o v := by
  rw [State.regWrite_bay s ag v h (by unfold bayWindow; omega) (by unfold bayWindow; omega)]
  have d1 : (bayWindow b + o - 0x1000000) / 0x10000 = b := by unfold bayWindow; omega
  have d2 : (bayWindow b + o) % 0x10000 = o := by unfold bayWindow; omega
  rw [d1, d2]

/-- The registers of a bay that is not OFF, in a bent that is there, answer. -/
theorem State.bayReached_of (s : State) {b : Nat} (h : s.bentHere (b / 16) = true) (h2 : (s.bay b).state ≠ 0) :
    s.bayReached b = true := by
  simp [State.bayReached, h, h2]

/-- Bay k after the same change of every bay of a list. -/
theorem State.bay_foldl_onBay (f : Bay → Bay) (hf : ∀ x, f (f x) = f x) (k : Nat) :
    ∀ (l : List Nat) (s : State),
      (l.foldl (fun t b => t.onBay b f) s).bay k = if k ∈ l then f (s.bay k) else s.bay k
  | [], s => by simp
  | b :: l, s => by
    rw [List.foldl_cons, State.bay_foldl_onBay f hf k l]
    by_cases h : k = b
    · subst h
      by_cases h2 : k ∈ l <;> simp [h2, hf]
    · rw [State.bay_onBay_ne _ _ h]
      by_cases h2 : k ∈ l <;> simp [h2, h]

/-- The bays of bent n are those whose number divided by 16 is n. -/
theorem mem_bentBays (n k : Nat) : k ∈ bentBays n ↔ k / 16 = n := by
  unfold bentBays
  simp only [List.mem_map, List.mem_range]
  constructor
  · rintro ⟨i, hi, rfl⟩; omega
  · intro h; exact ⟨k % 16, by omega, by omega⟩

end Sys2Proof.Machine
end

