-- ==== Sys2Proof/Laws/Fold.lean ====
section
/-!
SUPPORT. What a fold of steps keeps when every step keeps it.
-/
namespace Sys2Proof.Machine

/-- A quantity that every step of a fold keeps is kept by the fold. -/
theorem foldl_keeps {σ α β : Type} (g : σ → β) (f : σ → α → σ) (h : ∀ s x, g (f s x) = g s) :
    ∀ (l : List α) (s : σ), g (l.foldl f s) = g s
  | [], _ => rfl
  | x :: t, s => by rw [List.foldl_cons, foldl_keeps g f h t, h]

/-- A property that every step of a fold keeps is kept by the fold. -/
theorem foldl_inv {σ α : Type} (p : σ → Prop) (f : σ → α → σ) (h : ∀ s x, p s → p (f s x)) :
    ∀ (l : List α) (s : σ), p s → p (l.foldl f s)
  | [], _, hs => hs
  | x :: t, s, hs => foldl_inv p f h t (f s x) (h s x hs)

end Sys2Proof.Machine
end

