-- ==== Sys2Proof/Laws/BayCode.lean ====
section
/-!
SUPPORT. What stores of bay code, structural writes and mailboxes do to a state.
-/
namespace Sys2Proof.Laws.BayCode
open Sys2Proof Sys2Proof.Machine

theorem struct_range {o : Nat} (h : structAddr o = true) : 0x4008 ≤ o ∧ o < 0x4088 := by
  simp [structAddr] at h
  omega

theorem mbx_addr (b m k : Nat) (hm : m < 4) (hk : k = 0 ∨ k = 4 ∨ k = 8) :
    (mailboxAddr b m + k - 0x1000000) / 0x10000 = b ∧ (mailboxAddr b m + k) % 0x10000 = 0x2000 + 16 * m + k := by
  unfold mailboxAddr bayWindow
  omega

end Sys2Proof.Laws.BayCode
end

