-- ==== Sys2Proof/Laws/Blocks.lean ====
section
/-!
SUPPORT. A write of a register that answers, and that is no sequence-clear register, is its block's write.
-/
namespace Sys2Proof.Machine

/-- The block of a register is chosen by its offset. -/
theorem State.regWrite_block (s : State) (ag : Agent) {a : Nat} (v : Word) (h : s.reachable a = true)
    (ha : a < 0x1000000) :
    s.wideHeld = false ∧ s.regDown a = false ∧ s.regWrite ag a v = s.regAct ag a v := by
  rw [State.reachable_iff] at h
  exact ⟨h.1, h.2, State.regWrite_low s ag v h.1 ha⟩

theorem State.regWrite_dev (s : State) (ag : Agent) {a : Nat} (v : Word) (h : s.reachable a = true) {r : RegRow}
    (hr : regRow a = some r) (hk : r.kind ≠ .sq) (h1 : 0x0 ≤ a) (h2 : a < 0x10000) :
    s.regWrite ag a v = s.devWrite a v := by
  obtain ⟨_, hd, e⟩ := s.regWrite_block ag v h (by omega)
  have d : a / 0x10000 = 0 := by omega
  rw [e]
  unfold State.regAct
  rw [if_neg (by simp [hd]), hr]
  simp only [hk, false_and, or_self, if_false, d]

theorem State.regWrite_rst (s : State) (ag : Agent) {a : Nat} (v : Word) (h : s.reachable a = true) {r : RegRow}
    (hr : regRow a = some r) (hk : r.kind ≠ .sq) (h1 : 0x10000 ≤ a) (h2 : a < 0x20000) :
    s.regWrite ag a v = s.rstWrite ag a v := by
  obtain ⟨_, hd, e⟩ := s.regWrite_block ag v h (by omega)
  have d : a / 0x10000 = 1 := by omega
  rw [e]
  unfold State.regAct
  rw [if_neg (by simp [hd]), hr]
  simp only [hk, false_and, or_self, if_false, d]

theorem State.regWrite_qm (s : State) (ag : Agent) {a : Nat} (v : Word) (h : s.reachable a = true) {r : RegRow}
    (hr : regRow a = some r) (hk : r.kind ≠ .sq) (h1 : 0x30000 ≤ a) (h2 : a < 0x40000) :
    s.regWrite ag a v = s.qmWrite a v := by
  obtain ⟨_, hd, e⟩ := s.regWrite_block ag v h (by omega)
  have d : a / 0x10000 = 3 := by omega
  rw [e]
  unfold State.regAct
  rw [if_neg (by simp [hd]), hr]
  simp only [hk, false_and, or_self, if_false, d]

theorem State.regWrite_scr (s : State) (ag : Agent) {a : Nat} (v : Word) (h : s.reachable a = true) {r : RegRow}
    (hr : regRow a = some r) (hk : r.kind ≠ .sq) (h1 : 0x40000 ≤ a) (h2 : a < 0x50000) :
    s.regWrite ag a v = s.scrWrite a v := by
  obtain ⟨_, hd, e⟩ := s.regWrite_block ag v h (by omega)
  have d : a / 0x10000 = 4 := by omega
  rw [e]
  unfold State.regAct
  rw [if_neg (by simp [hd]), hr]
  simp only [hk, false_and, or_self, if_false, d]

theorem State.regWrite_rsu (s : State) (ag : Agent) {a : Nat} (v : Word) (h : s.reachable a = true) {r : RegRow}
    (hr : regRow a = some r) (hk : r.kind ≠ .sq) (h1 : 0x50000 ≤ a) (h2 : a < 0x60000) :
    s.regWrite ag a v = (if a = 0x5000C then s.rsuCmd (fld v 0 3) else s.writeKind a v) := by
  obtain ⟨_, hd, e⟩ := s.regWrite_block ag v h (by omega)
  have d : a / 0x10000 = 5 := by omega
  rw [e]
  unfold State.regAct
  rw [if_neg (by simp [hd]), hr]
  simp only [hk, false_and, or_self, if_false, d]

theorem State.regWrite_mem (s : State) (ag : Agent) {a : Nat} (v : Word) (h : s.reachable a = true) {r : RegRow}
    (hr : regRow a = some r) (hk : r.kind ≠ .sq) (h1 : 0x60000 ≤ a) (h2 : a < 0x70000) :
    s.regWrite ag a v = (if a % 0x2000 = 4 then s.memCtl ((a - 0x60000) / 0x2000) v else s.writeKind a v) := by
  obtain ⟨_, hd, e⟩ := s.regWrite_block ag v h (by omega)
  have d : a / 0x10000 = 6 := by omega
  rw [e]
  unfold State.regAct
  rw [if_neg (by simp [hd]), hr]
  simp only [hk, false_and, or_self, if_false, d]

theorem State.regWrite_scf (s : State) (ag : Agent) {a : Nat} (v : Word) (h : s.reachable a = true) {r : RegRow}
    (hr : regRow a = some r) (hk : r.kind ≠ .sq) (h1 : 0x70000 ≤ a) (h2 : a < 0x80000) :
    s.regWrite ag a v = s.scfWrite a v := by
  obtain ⟨_, hd, e⟩ := s.regWrite_block ag v h (by omega)
  have d : a / 0x10000 = 7 := by omega
  rw [e]
  unfold State.regAct
  rw [if_neg (by simp [hd]), hr]
  simp only [hk, false_and, or_self, if_false, d]

theorem State.regWrite_eth (s : State) (ag : Agent) {a : Nat} (v : Word) (h : s.reachable a = true) {r : RegRow}
    (hr : regRow a = some r) (hk : r.kind ≠ .sq) (h1 : 0x80000 ≤ a) (h2 : a < 0x90000) :
    s.regWrite ag a v = (if a < 0x84000 ∧ a % 0x2000 = 0 then s.ethCtl ((a - 0x80000) / 0x2000) v else s.writeKind a v) := by
  obtain ⟨_, hd, e⟩ := s.regWrite_block ag v h (by omega)
  have d : a / 0x10000 = 8 := by omega
  rw [e]
  unfold State.regAct
  rw [if_neg (by simp [hd]), hr]
  simp only [hk, false_and, or_self, if_false, d]

theorem State.regWrite_err (s : State) (ag : Agent) {a : Nat} (v : Word) (h : s.reachable a = true) {r : RegRow}
    (hr : regRow a = some r) (hk : r.kind ≠ .sq) (h1 : 0x90000 ≤ a) (h2 : a < 0xa0000) :
    s.regWrite ag a v = (if 0x93000 ≤ a then s.ledgerWrite a v
      else if a = 0x90120 then s.bgRetire ag v
      else if a = 0x90140 then (if ag = .sill then s.writeKind a v else s)
      else s.writeKind a v) := by
  obtain ⟨_, hd, e⟩ := s.regWrite_block ag v h (by omega)
  have d : a / 0x10000 = 9 := by omega
  rw [e]
  unfold State.regAct
  rw [if_neg (by simp [hd]), hr]
  simp only [hk, false_and, or_self, if_false, d]

theorem State.regWrite_mx (s : State) (ag : Agent) {a : Nat} (v : Word) (h : s.reachable a = true) {r : RegRow}
    (hr : regRow a = some r) (hk : r.kind ≠ .sq) (h1 : 0xa0000 ≤ a) (h2 : a < 0xb0000) :
    s.regWrite ag a v = s.mxWrite ag a v := by
  obtain ⟨_, hd, e⟩ := s.regWrite_block ag v h (by omega)
  have d : a / 0x10000 = 10 := by omega
  rw [e]
  unfold State.regAct
  rw [if_neg (by simp [hd]), hr]
  simp only [hk, false_and, or_self, if_false, d]

theorem State.regWrite_stg (s : State) (ag : Agent) {a : Nat} (v : Word) (h : s.reachable a = true) {r : RegRow}
    (hr : regRow a = some r) (hk : r.kind ≠ .sq) (h1 : 0xb0000 ≤ a) (h2 : a < 0xc0000) :
    s.regWrite ag a v = s.stgWrite32 a v := by
  obtain ⟨_, hd, e⟩ := s.regWrite_block ag v h (by omega)
  have d : a / 0x10000 = 11 := by omega
  rw [e]
  unfold State.regAct
  rw [if_neg (by simp [hd]), hr]
  simp only [hk, false_and, or_self, if_false, d]

end Sys2Proof.Machine
end

