-- ==== Sys2Proof/Laws/Records.lean ====
section
/-!
SUPPORT. What raising an error record can change, and what it leaves when there is room for it.
-/
namespace Sys2Proof.Machine

/-- Between u and v only records, 64-bit counters and the status register of the error notices may differ. -/
def RecRest (u v : State) : Prop :=
  ∃ B c q, v = { u with bg := B, regs := { u.regs with cnts := c, sqs := q } } ∧
    ∀ a, a ≠ 0x90010 → tgetD ({} : Sq) q a = tgetD {} u.regs.sqs a

theorem RecRest.refl (u : State) : RecRest u u := ⟨_, _, _, rfl, fun _ _ => rfl⟩

theorem RecRest.trans {u v w : State} (h : RecRest u v) (g : RecRest v w) : RecRest u w := by
  obtain ⟨B, c, q, rfl, h⟩ := h
  obtain ⟨B', c', q', rfl, g⟩ := g
  exact ⟨_, _, _, rfl, fun a ha => (g a ha).trans (h a ha)⟩

theorem RecRest.event (u : State) (k : Nat) : RecRest u (u.event 0x90010 k) :=
  ⟨_, _, _, rfl, fun _ ha => tgetD_tsetD_ne _ _ _ ha⟩

theorem RecRest.bump (u : State) (a : Nat) : RecRest u (u.bump a) := ⟨_, _, _, rfl, fun _ _ => rfl⟩

theorem RecRest.bg (u : State) (B : Bg) : RecRest u { u with bg := B } := ⟨_, _, _, rfl, fun _ _ => rfl⟩

theorem RecRest.sq {u v : State} (h : RecRest u v) {a : Nat} (ha : a ≠ 0x90010) : v.sq a = u.sq a := by
  obtain ⟨B, c, q, rfl, h⟩ := h
  exact h a ha

/-- Accepting a record changes records, counters and the error notices only. -/
theorem State.accept_rest (u : State) (ws : State → List Word) (ty cls : Nat) : RecRest u (u.accept ws ty cls) := by
  unfold State.accept
  by_cases hf : 64 < u.bg.held.length + (if u.bg.lost = 0 then 1 else 2)
  · rw [if_pos hf]
    exact ((RecRest.bump _ _).trans (RecRest.event _ _)).trans (RecRest.bg _ _)
  · rw [if_neg hf]
    dsimp only
    have e : RecRest u (if u.bg.lost = 0 then u
        else { u.holdRecord (u.recordWords { rtype := 7 } u.bg.lost) with bg := { (u.holdRecord (u.recordWords { rtype := 7 } u.bg.lost)).bg with lost := 0 } }) := by
      split
      · exact RecRest.refl _
      · exact RecRest.bg _ _
    refine e.trans ?_
    generalize (if u.bg.lost = 0 then u
        else { u.holdRecord (u.recordWords { rtype := 7 } u.bg.lost) with bg := { (u.holdRecord (u.recordWords { rtype := 7 } u.bg.lost)).bg with lost := 0 } }) = w
    split
    · exact ((RecRest.bg _ _).trans (RecRest.bump _ _)).trans (RecRest.event _ _)
    · exact RecRest.bg _ _

/-- So does raising one. -/
theorem State.record_rest (u : State) (e : Event) : RecRest u (u.record e) := by
  have t : RecRest u u.ceTick := by
    unfold State.ceTick
    split
    · exact RecRest.refl _
    · exact RecRest.bg _ _
  refine t.trans ?_
  unfold State.record
  dsimp only
  split
  · split
    · exact (RecRest.bump _ _).trans (RecRest.bg _ _)
    · exact (State.accept_rest _ _ _ _).trans (RecRest.bg _ _)
  · exact State.accept_rest _ _ _ _

theorem State.err_rest (u : State) (c b i a : Nat) (w : Word) : RecRest u (u.err c b i a w) := u.record_rest _

/-- R510: with no event lost and room in the serialiser, an error that no limit holds back adds one record and counts in its
class. -/
theorem State.record_room (u : State) (e : Event) (h : e.rtype = 1) (hl : u.bg.lost = 0) (hh : u.bg.held.length < 64)
    (hc : e.cls ≠ 1 ∨ fld (u.reg 0x90000) 0 8 = 0) :
    (u.record e).bg.held.length = u.bg.held.length + 1 ∧ (u.record e).bg.lost = 0 ∧
      (u.record e).sq 0x90010 = (u.sq 0x90010).event (e.cls - 1) := by
  have t : u.ceTick.bg.lost = 0 ∧ u.ceTick.bg.held = u.bg.held ∧ u.ceTick.sq 0x90010 = u.sq 0x90010 ∧
      u.ceTick.reg 0x90000 = u.reg 0x90000 := by
    unfold State.ceTick
    split
    · exact ⟨hl, rfl, rfl, rfl⟩
    · exact ⟨hl, rfl, rfl, rfl⟩
  obtain ⟨t1, t2, t3, t4⟩ := t
  have a (ws : State → List Word) (cls : Nat) : (u.ceTick.accept ws 1 cls).bg.held.length = u.bg.held.length + 1 ∧
      (u.ceTick.accept ws 1 cls).bg.lost = 0 ∧ (u.ceTick.accept ws 1 cls).sq 0x90010 = (u.sq 0x90010).event (cls - 1) := by
    unfold State.accept
    rw [t1, if_pos rfl, if_neg (by rw [t2]; omega)]
    dsimp only
    rw [if_pos rfl, if_pos rfl]
    refine ⟨?_, t1, ?_⟩
    · show (u.ceTick.bg.held ++ [_]).length = _
      rw [List.length_append, t2]; rfl
    · rw [State.sq_event]
      exact congrArg (·.event (cls - 1)) t3
  unfold State.record
  dsimp only
  split
  · rename_i g
    rw [if_neg (by rw [t4]; rcases hc with hc | hc; exact absurd g.2 hc; exact fun c => c.1 hc), g.2]
    exact a _ 1
  · rw [h]
    exact a _ e.cls

/-- A record of another type than ERROR is accepted where there is room; it counts in no error class. -/
theorem State.record_other (u : State) (e : Event) (h : e.rtype ≠ 1) (hl : u.bg.lost = 0) (hh : u.bg.held.length < 64) :
    (u.record e).bg.held.length = u.bg.held.length + 1 ∧ (u.record e).bg.lost = 0 := by
  have t : u.ceTick.bg.lost = 0 ∧ u.ceTick.bg.held = u.bg.held := by
    unfold State.ceTick
    split
    · exact ⟨hl, rfl⟩
    · exact ⟨hl, rfl⟩
  obtain ⟨t1, t2⟩ := t
  unfold State.record
  dsimp only
  rw [if_neg (fun c => h c.1)]
  unfold State.accept
  rw [t1, if_pos rfl, if_neg (by rw [t2]; omega)]
  dsimp only
  rw [if_pos rfl, if_neg h]
  refine ⟨?_, t1⟩
  show (u.ceTick.bg.held ++ [_]).length = _
  rw [List.length_append, t2]; rfl

/-- What the background unit keeps through a record. -/
def Bg.marks (g : Bg) : Option (Nat × Bool × Bool) × Nat × Nat × List Nat × Bool := (g.retiring, g.rres, g.rreason, g.retired, g.patrol)

theorem State.accept_marks (u : State) (ws : State → List Word) (ty cls : Nat) : (u.accept ws ty cls).bg.marks = u.bg.marks := by
  unfold State.accept
  dsimp only
  repeat' split
  all_goals rfl

theorem State.record_marks (u : State) (e : Event) : (u.record e).bg.marks = u.bg.marks := by
  have t : u.ceTick.bg.marks = u.bg.marks := by
    unfold State.ceTick
    split <;> rfl
  unfold State.record
  dsimp only
  split
  · split
    · exact t
    · exact (State.accept_marks u.ceTick _ 1 1).trans t
  · exact (State.accept_marks u.ceTick _ _ _).trans t

end Sys2Proof.Machine
end

