-- ==== Sys2Proof/Laws/Staging.lean ====
section
/-!
SUPPORT. What an access to staging can change.
-/
namespace Sys2Proof.Machine

/-- Between u and v only staging, records and registers may differ. -/
def StgRest (u v : State) : Prop := ∃ S B R, v = { u with stg := S, bg := B, regs := R }

theorem StgRest.refl (u : State) : StgRest u u := ⟨_, _, _, rfl⟩

theorem StgRest.trans {u v w : State} (h : StgRest u v) (g : StgRest v w) : StgRest u w := by
  obtain ⟨_, _, _, rfl⟩ := h
  obtain ⟨_, _, _, rfl⟩ := g
  exact ⟨_, _, _, rfl⟩

theorem RecRest.stg {u v : State} (h : RecRest u v) : StgRest u v := by
  obtain ⟨_, _, _, rfl, _⟩ := h
  exact ⟨_, _, _, rfl⟩

theorem StgRest.stgEvent (u : State) (i n : Nat) : StgRest u (u.stgEvent i n) := ⟨_, _, _, rfl⟩

theorem StgRest.setBank (u : State) (n : Nat) (x : Bank) : StgRest u (u.setBank n x) := ⟨_, _, _, rfl⟩

theorem stgWord_rest (u : State) (n w : Nat) : StgRest u (u.stgWord n w).1 := by
  unfold State.stgWord
  dsimp only
  split
  · exact StgRest.refl _
  · dsimp only
    refine StgRest.trans ?_ (RecRest.stg (State.err_rest _ _ _ _ _ _))
    exact (StgRest.setBank _ _ _).trans (StgRest.stgEvent _ _ _)
  · dsimp only
    refine StgRest.trans ?_ (RecRest.stg (State.err_rest _ _ _ _ _ _))
    exact (StgRest.setBank _ _ _).trans (StgRest.stgEvent _ _ _)
  · exact StgRest.refl _

theorem stgWords_rest (n base : Nat) : ∀ (l : List Nat) (u : State), StgRest u (u.stgWords n base l).1
  | [], u => StgRest.refl _
  | w :: l, u => (stgWord_rest u n w).trans (stgWords_rest n base l _)

theorem stgWrite_rest (u : State) (ag : Agent) (a : Nat) (d : List Byte) (bad : List Nat) : StgRest u (u.stgWrite ag a d bad).1 := by
  unfold State.stgWrite
  dsimp only
  split
  · exact StgRest.refl _
  · split
    · unfold State.stgRefused
      split
      · exact StgRest.stgEvent _ _ _
      · exact StgRest.stgEvent _ _ _
    · unfold State.stgPut
      exact (stgWords_rest _ _ _ _).trans (StgRest.setBank _ _ _)

theorem parts_rest (go : State → Nat → Nat → List Byte → State × Resp) (hg : ∀ u a n d, StgRest u (go u a n d).1) (a0 : Nat) :
    ∀ (l : List (Nat × Nat)) (u : State) (d : List Byte), StgRest u (u.parts go a0 d l).1
  | [], u, d => StgRest.refl _
  | (a, n) :: l, u, d => (hg u a n _).trans (parts_rest go hg a0 l _ _)

theorem stgRead_rest (u : State) (ag : Agent) (a n : Nat) : StgRest u (u.stgRead ag a n).1 := by
  unfold State.stgRead
  dsimp only
  split
  · exact StgRest.refl _
  · split
    · unfold State.stgRefused
      split
      · exact StgRest.stgEvent _ _ _
      · exact StgRest.stgEvent _ _ _
    · unfold State.stgGet
      dsimp only
      exact stgWords_rest _ _ _ _

end Sys2Proof.Machine
end

