-- ==== Sys2Proof/Laws/Boot.lean ====
section
/-!
SUPPORT. What the boot path, the crossbar and staging accesses do to a state.
-/
namespace Sys2Proof.Laws.Boot
open Sys2Proof Sys2Proof.Machine

theorem row_of {a : Nat} (h : ((regRow a).any fun r => decide (r.kind ≠ .sq)) = true) : ∃ r, regRow a = some r ∧ r.kind ≠ .sq := by
  rw [Option.any_eq_true] at h
  obtain ⟨r, h1, h2⟩ := h
  exact ⟨r, h1, of_decide_eq_true h2⟩

theorem mx_go (u : State) (ag : Agent) (a : Nat) (v : Word) (h : u.reachable a = true) (ha : a = 0xA0080 ∨ a = 0xA0088 ∨ a = 0xA0100 ∨ a = 0xA0104) :
    u.regWrite ag a v = u.mxWrite ag a v := by
  have hrow : ((regRow a).any fun r => decide (r.kind ≠ .sq)) = true := by rcases ha with rfl | rfl | rfl | rfl <;> decide
  obtain ⟨r, hr, hk⟩ := row_of hrow
  exact u.regWrite_mx ag v h hr hk (by omega) (by omega)

theorem fails_eq (u : State) : (u.startFails).rst.count = min 15 (u.rst.count + 1) ∧ u.startFails.rst.failDue = true ∧ u.startFails.rst.window = false ∧
    u.startFails.rst.shoring = (u.rst.shoring || decide (3 ≤ min 15 (u.rst.count + 1))) ∧ u.startFails.bays = u.bays ∧ u.startFails.scr = u.scr ∧
    u.startFails.mx = u.mx ∧ u.startFails.stg = u.stg ∧ u.startFails.rsu = u.rsu := by
  have e : satAdd 15 u.rst.count 1 = min 15 (u.rst.count + 1) := by
    unfold satAdd
    split <;> omega
  unfold State.startFails
  dsimp only
  rw [e]
  exact ⟨rfl, rfl, rfl, rfl, rfl, rfl, rfl, rfl, rfl⟩

theorem fails_rst (u : State) : u.startFails.rst = { u.rst with count := min 15 (u.rst.count + 1), failDue := true, window := false,
                                                                shoring := u.rst.shoring || decide (3 ≤ min 15 (u.rst.count + 1)) } := by
  have e : satAdd 15 u.rst.count 1 = min 15 (u.rst.count + 1) := by
    unfold satAdd
    split <;> omega
  unfold State.startFails
  dsimp only
  rw [e]

theorem fails_whole (u : State) : u.startFails = { u with rst := { u.rst with count := min 15 (u.rst.count + 1), failDue := true, window := false,
                                                                              shoring := u.rst.shoring || decide (3 ≤ min 15 (u.rst.count + 1)) } } := by
  rw [← fails_rst]
  rfl

theorem failIf_eq (u : State) (h1 : u.rst.bootOk = false) (h2 : u.rst.failDue = false) : u.failIfStarting = u.startFails := by
  unfold State.failIfStarting
  rw [h1, h2, if_neg (by decide)]

theorem num_congr (M N : Mem) (a : Nat) : ∀ (n b : Nat), (∀ x, b ≤ x → x < b + n → M.byte x = N.byte x) → M.bytes b n = N.bytes b n
  | 0, _, _ => rfl
  | n + 1, b, h => by
    unfold Mem.bytes
    rw [h b (by omega) (by omega), num_congr M N a n (b + 1) fun x x1 x2 => h x (by omega) (by omega)]

/-- With no slot TRIED the first pass of ROM_RAISE changes nothing. -/
theorem marks_none (u : State) (h : ∀ i, i < 2 → u.slotSound i = true → u.slotState i ≠ 0x3F) :
    [0, 1].foldl (fun (t : State) i => if t.slotSound i && decide (t.slotState i = 0x3F) then t.slotMark i 0x0F else t) u = u := by
  have f : ∀ i, i < 2 → ¬ (u.slotSound i && decide (u.slotState i = 0x3F)) = true := fun i hi c => by
    rw [Bool.and_eq_true, decide_eq_true_eq] at c
    exact h i hi c.1 c.2
  rw [List.foldl_cons, if_neg (f 0 (by decide)), List.foldl_cons, if_neg (f 1 (by decide)), List.foldl_nil]

theorem rom_none (u : State) (a : Nat) (h : u.stgOn = true) (hb : u.rsu.busy = false) (hr : u.rsu.rom = none)
    (hm : ∀ i, i < 2 → u.slotSound i = true → u.slotState i ≠ 0x3F) (c : u.romCandidates = [])
    (h2 : u.rst.bootOk = false) (h3 : u.rst.failDue = false) :
    (u.romRaise a).rst.failDue = true ∧ (u.romRaise a).rsu.rom = none ∧ ((u.romRaise a).bay 256).gpr 1 = (u.romRaise a).rsuStat ∧
    (u.romRaise a).mx = u.mx ∧ (u.romRaise a).stg = u.stg := by
  have e : u.romRaise a = (u.onRsu fun r => { r with romAddr := a, rom := some [] }).startFails.romReturn := by
    unfold State.romRaise
    rw [h, hb, hr, if_neg (by decide)]
    dsimp only
    rw [marks_none u hm, c]
    unfold State.romTry
    rw [failIf_eq]
    · exact h2
    · exact h3
  rw [e]
  obtain ⟨f1, f2, f3, f4, f5, f6, f7, f8, f9⟩ := fails_eq (u.onRsu fun r => { r with romAddr := a, rom := some [] })
  refine ⟨f2, rfl, ?_, f7, f8⟩
  unfold State.romReturn
  generalize (u.onRsu fun r => { r with romAddr := a, rom := some [] }).startFails = w
  show Bay.gpr (State.bay (State.onBay _ 256 _) 256) 1 = State.rsuStat w
  rw [State.bay_onBay]
  exact tgetD_tsetD_same _ _ _ _

theorem rom_good (u : State) (a i n : Nat) (tl : List Nat) (h : u.stgOn = true) (hb : u.rsu.busy = false) (hr : u.rsu.rom = none)
    (hm : ∀ i, i < 2 → u.slotSound i = true → u.slotState i ≠ 0x3F) (c : u.romCandidates = i :: tl)
    (h3 : u.slotGood i = true) (h4 : u.rsu.raised = false) (hn : n = (u.flashWord (slotBase i + 8)).toNat) :
    (u.romRaise a).rsu.busy = true ∧ (u.romRaise a).rsu.step = 1 ∧ (u.romRaise a).rsu.op = 1 ∧ (u.romRaise a).rsu.rom = some (i :: tl) ∧
    (u.romRaise a).rsu.src = (wd a &&& 0x03FFFFF0#32).toNat ∧ (u.romRaise a).rsu.len = (wd n &&& 0x01FFFFFF#32).toNat ∧
    (u.romRaise a).mx = (if u.slotState i = 0x7F then u.slotMark i 0x3F else u).mx ∧ (u.romRaise a).bays = u.bays ∧
    (u.romRaise a).stg = (((if u.slotState i = 0x7F then u.slotMark i 0x3F else u).onRsu fun r => { r with romAddr := a, rom := some [] }).parts
      (fun u x _ d => u.stgWrite .sill x d []) a (u.mx.flash.bytes (slotBase i + 4096) n) (pieces 0x40000 a n)).1.stg := by
  generalize hv : u.onRsu (fun r => { r with romAddr := a, rom := some [] }) = v
  have v1 : v.mx = u.mx ∧ v.bays = u.bays ∧ v.rsu.busy = false ∧ v.rsu.raised = false ∧ v.rsu.romAddr = a ∧ v.stgOn = true := by
    rw [← hv]
    exact ⟨rfl, rfl, hb, h4, rfl, h⟩
  obtain ⟨v1, v2, v3, v4, v5, v6⟩ := v1
  have vg : v.slotGood i = true ∧ v.slotState i = u.slotState i ∧ (v.flashWord (slotBase i + 8)).toNat = n := by
    unfold State.slotGood State.slotState State.flashWord at *
    rw [v1]
    exact ⟨h3, rfl, hn.symm⟩
  -- the state that the copy to staging starts from
  obtain ⟨M, hM⟩ : ∃ M, (if v.slotState i = 0x7F then v.slotMark i 0x3F else v) = { v with mx := M } := by
    split
    · exact ⟨_, rfl⟩
    · exact ⟨v.mx, rfl⟩
  have hMw : ({ v with mx := M } : State) = (if u.slotState i = 0x7F then u.slotMark i 0x3F else u).onRsu fun r => { r with romAddr := a, rom := some [] } := by
    rw [← hM, vg.2.1, ← hv]
    split <;> rfl
  have hMu : M = (if u.slotState i = 0x7F then u.slotMark i 0x3F else u).mx := congrArg State.mx hMw
  have pr := parts_rest (fun u x _ d => u.stgWrite .sill x d []) (fun u x _ d => stgWrite_rest u _ x d []) a (pieces 0x40000 a n) { v with mx := M } (u.mx.flash.bytes (slotBase i + 4096) n)
  have e : u.romRaise a = (if ((((({ v with mx := M } : State).parts (fun u x _ d => u.stgWrite .sill x d []) a (u.mx.flash.bytes (slotBase i + 4096) n) (pieces 0x40000 a n)).1.setReg 0x50000 (wd a &&& 0x03FFFFF0#32)).setReg 0x50004 (wd n &&& 0x01FFFFFF#32)).rsuCmd 1 |>.rsu.busy)
      then (((((({ v with mx := M } : State).parts (fun u x _ d => u.stgWrite .sill x d []) a (u.mx.flash.bytes (slotBase i + 4096) n) (pieces 0x40000 a n)).1.setReg 0x50000 (wd a &&& 0x03FFFFF0#32)).setReg 0x50004 (wd n &&& 0x01FFFFFF#32)).rsuCmd 1).onRsu fun r => { r with rom := some (i :: tl) })
      else (((((({ v with mx := M } : State).parts (fun u x _ d => u.stgWrite .sill x d []) a (u.mx.flash.bytes (slotBase i + 4096) n) (pieces 0x40000 a n)).1.setReg 0x50000 (wd a &&& 0x03FFFFF0#32)).setReg 0x50004 (wd n &&& 0x01FFFFFF#32)).rsuCmd 1 |>.slotMark i 0x0F).romTry tl)) := by
    unfold State.romRaise
    rw [h, hb, hr, if_neg (by decide)]
    dsimp only
    rw [marks_none u hm, c, hv]
    conv_lhs => unfold State.romTry
    dsimp only
    rw [vg.1, if_neg (by decide), hM, vg.2.2, v5, v1]
  rw [e, ← hMw]
  obtain ⟨S, B, R, q⟩ := pr
  rw [q]
  generalize hx : (({ v with mx := M, stg := S, bg := B, regs := R } : State).setReg 0x50000 (wd a &&& 0x03FFFFF0#32)).setReg 0x50004 (wd n &&& 0x01FFFFFF#32) = x
  have x1 : x.rsu = v.rsu ∧ x.mx = M ∧ x.bays = v.bays ∧ x.stg = S ∧ x.stgOn = true := by
    rw [← hx]
    exact ⟨rfl, rfl, rfl, rfl, v6⟩
  have x2 : x.reg 0x50000 = wd a &&& 0x03FFFFF0#32 ∧ x.reg 0x50004 = wd n &&& 0x01FFFFFF#32 := by
    rw [← hx]
    exact ⟨(State.reg_setReg_ne _ _ (by decide)).trans (State.reg_setReg _ _ _), State.reg_setReg _ _ _⟩
  have acc : x.rsuCmd 1 = x.onRsu fun r => { r with
      busy := true, step := 1, result := 0, reason := 0, skipped := 0, op := 1, src := (x.reg 0x50000).toNat,
      len := (x.reg 0x50004).toNat, target := x.reg 0x50008, bents := 0, elapsed := 0, plain := false, quiesce := 0,
      disturbed := false, placed := [] } := by
    unfold State.rsuCmd
    rw [if_neg (by rw [x1.2.2.2.2]; decide), if_neg (by decide), if_neg (by rw [x1.1, v3]; decide), if_neg (by decide),
      if_neg (by unfold State.raiseOk; rw [if_pos rfl, x1.1, v4]; decide)]
  rw [acc, if_pos (show (x.onRsu _).rsu.busy = true from rfl), x2.1, x2.2]
  refine ⟨rfl, rfl, rfl, rfl, rfl, rfl, x1.2.1.trans hMu, x1.2.2.1.trans v2, x1.2.2.2.1⟩

/-- A slot that is TRIED is marked BAD first. -/
theorem rom_marks (u : State) (a i : Nat) (hi : i < 2) (h1 : u.slotSound i = true) (h2 : u.slotState i = 0x3F)
    (h3 : ∀ k, k < i → ¬ (u.slotSound k = true ∧ u.slotState k = 0x3F)) (h : u.stgOn = true) (hb : u.rsu.busy = false) (hr : u.rsu.rom = none) :
    u.romRaise a = (u.slotMark i 0x0F).romRaise a ∧ (u.slotMark i 0x0F).slotState i = 0x0F := by
  have byte : ∀ k, k ≠ slotBase i + 0x14 → (u.slotMark i 0x0F).mx.flash.byte k = u.mx.flash.byte k := fun k hk => by
    unfold State.slotMark State.flashProgram
    exact Mem.byte_putBytes_out _ _ _ _ (by simp; omega)
  have mark : (u.slotMark i 0x0F).slotState i = 0x0F := by
    unfold State.slotState at h2 ⊢
    have e : (u.slotMark i 0x0F).mx.flash.byte (slotBase i + 0x14) = 0x0F#8 &&& u.mx.flash.byte (slotBase i + 0x14) := by
      have := Mem.bytes_putBytes [0x0F#8 &&& u.mx.flash.byte (slotBase i + 0x14)] u.mx.flash (slotBase i + 0x14)
      exact (List.cons.inj this).1
    rw [e]
    have : u.mx.flash.byte (slotBase i + 0x14) = 0x3F#8 := BitVec.eq_of_toNat_eq h2
    rw [this]
    rfl
  have other : i = 1 → (u.slotMark i 0x0F).slotSound 0 = u.slotSound 0 ∧ (u.slotMark i 0x0F).slotState 0 = u.slotState 0 := by
    rintro rfl
    have bs : ∀ n b, b + n ≤ slotBase 1 → (u.slotMark 1 0x0F).mx.flash.bytes b n = u.mx.flash.bytes b n := fun n b hn =>
      num_congr _ _ 0 n b fun x _ hx => byte x (by unfold slotBase at *; simp at *; omega)
    refine ⟨?_, congrArg BitVec.toNat (byte _ (by decide))⟩
    unfold State.slotSound State.flashWord
    dsimp only
    rw [bs 4 (slotBase 0) (by decide), bs 16 (slotBase 0) (by decide), bs 4 (slotBase 0 + 0x10) (by decide)]
  refine ⟨?_, mark⟩
  have fold : [0, 1].foldl (fun (t : State) i => if t.slotSound i && decide (t.slotState i = 0x3F) then t.slotMark i 0x0F else t) u =
      [0, 1].foldl (fun (t : State) i => if t.slotSound i && decide (t.slotState i = 0x3F) then t.slotMark i 0x0F else t) (u.slotMark i 0x0F) := by
    have no : ¬ ((u.slotMark i 0x0F).slotSound i && decide ((u.slotMark i 0x0F).slotState i = 0x3F)) = true := by
      rw [mark, decide_eq_false (by decide), Bool.and_false]; decide
    have yes : (u.slotSound i && decide (u.slotState i = 0x3F)) = true := by rw [h1, h2]; rfl
    obtain ⟨F, hF⟩ : ∃ F : State → Nat → State, F = fun t i => if t.slotSound i && decide (t.slotState i = 0x3F) then t.slotMark i 0x0F else t := ⟨_, rfl⟩
    have ft : ∀ x : State, [0, 1].foldl F x = F (F x 0) 1 := fun _ => rfl
    have fp : ∀ (x : State) k, (x.slotSound k && decide (x.slotState k = 0x3F)) = true → F x k = x.slotMark k 0x0F := fun x k c => by
      rw [hF]; exact if_pos c
    have fn : ∀ (x : State) k, ¬ (x.slotSound k && decide (x.slotState k = 0x3F)) = true → F x k = x := fun x k c => by
      rw [hF]; exact if_neg c
    rw [← hF, ft, ft]
    have : i = 0 ∨ i = 1 := by omega
    rcases this with rfl | rfl
    · rw [fp u 0 yes, fn _ 0 no]
    · obtain ⟨o1, o2⟩ := other rfl
      have z : ¬ (u.slotSound 0 && decide (u.slotState 0 = 0x3F)) = true := by
        rw [Bool.and_eq_true, decide_eq_true_eq]; exact h3 0 (by decide)
      have z' : ¬ ((u.slotMark 1 0x0F).slotSound 0 && decide ((u.slotMark 1 0x0F).slotState 0 = 0x3F)) = true := by rw [o1, o2]; exact z
      rw [fn u 0 z, fp u 1 yes, fn _ 0 z', fn _ 1 no]
  unfold State.romRaise
  rw [h, hb, hr, show (u.slotMark i 0x0F).stgOn = true from h, show (u.slotMark i 0x0F).rsu.busy = false from hb,
    show (u.slotMark i 0x0F).rsu.rom = none from hr, if_neg (by decide), if_neg (by decide)]
  dsimp only
  rw [fold]

/-- Which slots are candidates, and in which order. -/
theorem candidates (u : State) : (∀ i, i ∈ u.romCandidates ↔ i < 2 ∧ u.slotSound i = true ∧ (u.slotState i = 0x7F ∨ u.slotState i = 0x1F)) ∧
    u.romCandidates.Nodup ∧ (0 ∈ u.romCandidates → 1 ∈ u.romCandidates →
      u.romCandidates = if 2 ^ 31 ≤ (u.flashWord (slotBase 0 + 4) - u.flashWord (slotBase 1 + 4)).toNat then [1, 0] else [0, 1]) := by
  unfold State.romCandidates
  dsimp only
  have f : ∀ i, ((u.slotSound i && (decide (u.slotState i = 0x7F) || decide (u.slotState i = 0x1F))) = true ↔
      u.slotSound i = true ∧ (u.slotState i = 0x7F ∨ u.slotState i = 0x1F)) := fun i => by
    rw [Bool.and_eq_true, Bool.or_eq_true, decide_eq_true_eq, decide_eq_true_eq]
  have m : ∀ i, i ∈ ([0, 1].filter fun i => u.slotSound i && (decide (u.slotState i = 0x7F) || decide (u.slotState i = 0x1F))) ↔
      i < 2 ∧ u.slotSound i = true ∧ (u.slotState i = 0x7F ∨ u.slotState i = 0x1F) := fun i => by
    rw [List.mem_filter, f]
    refine and_congr_left fun _ => ?_
    simp only [List.mem_cons, List.not_mem_nil, or_false]
    omega
  have nd : ([0, 1].filter fun i => u.slotSound i && (decide (u.slotState i = 0x7F) || decide (u.slotState i = 0x1F))).Nodup :=
    List.Nodup.filter _ (by decide)
  have both : 0 ∈ ([0, 1].filter fun i => u.slotSound i && (decide (u.slotState i = 0x7F) || decide (u.slotState i = 0x1F))) →
      1 ∈ ([0, 1].filter fun i => u.slotSound i && (decide (u.slotState i = 0x7F) || decide (u.slotState i = 0x1F))) →
      ([0, 1].filter fun i => u.slotSound i && (decide (u.slotState i = 0x7F) || decide (u.slotState i = 0x1F))) = [0, 1] := fun a b => by
    refine List.filter_eq_self.2 fun k hk => ?_
    rcases List.mem_cons.1 hk with rfl | hk
    · exact (f 0).2 ((m 0).1 a).2
    · rw [List.mem_singleton.1 hk]; exact (f 1).2 ((m 1).1 b).2
  generalize ([0, 1].filter fun i => u.slotSound i && (decide (u.slotState i = 0x7F) || decide (u.slotState i = 0x1F))) = l at m nd both
  split
  · next c =>
    obtain ⟨rfl, c⟩ := c
    refine ⟨fun i => Iff.trans ?_ (m i), by decide, fun _ _ => ?_⟩
    · rw [List.mem_cons, List.mem_singleton, List.mem_cons, List.mem_singleton]; exact or_comm
    · rw [if_pos c]
  · next c =>
    refine ⟨m, nd, fun a b => ?_⟩
    have := both a b
    rw [if_neg (fun d => c ⟨this, d⟩)]
    exact this

/-- Two lists of candidates in the order of R387 are one. -/
theorem same_candidates (u : State) (c : List Nat) (h0 : c.Nodup)
    (h1 : ∀ i, i ∈ c ↔ i < 2 ∧ u.slotSound i = true ∧ (u.slotState i = 0x7F ∨ u.slotState i = 0x1F))
    (h2 : 0 ∈ c → 1 ∈ c → c = if 2 ^ 31 ≤ (u.flashWord (slotBase 0 + 4) - u.flashWord (slotBase 1 + 4)).toNat then [1, 0] else [0, 1]) :
    u.romCandidates = c := by
  obtain ⟨g1, g0, g2⟩ := candidates u
  have m : ∀ i, i ∈ u.romCandidates ↔ i ∈ c := fun i => (g1 i).trans (h1 i).symm
  have lo : ∀ i, i ∈ c → i = 0 ∨ i = 1 := fun i hi => by have := ((h1 i).1 hi).1; omega
  by_cases a : 0 ∈ c
  · by_cases b : 1 ∈ c
    · rw [g2 ((m 0).2 a) ((m 1).2 b), h2 a b]
    · have one : ∀ l : List Nat, l.Nodup → (∀ i, i ∈ l ↔ i = 0) → l = [0] := fun l nd h =>
        List.perm_singleton.1 ((List.perm_ext_iff_of_nodup nd (by decide)).2 fun i => by rw [h, List.mem_singleton])
      have hc : ∀ i, i ∈ c ↔ i = 0 := fun i => ⟨fun h => (lo i h).resolve_right fun e => b (e ▸ h), fun e => e ▸ a⟩
      rw [one c h0 hc, one _ g0 fun i => (m i).trans (hc i)]
  · have one : ∀ l : List Nat, l.Nodup → (∀ i, i ∈ l → i = 1) → l = [] ∨ l = [1] := fun l nd h => by
      match l with
      | [] => exact .inl rfl
      | [x] => exact .inr (by rw [h x (List.mem_singleton.2 rfl)])
      | x :: y :: r =>
        have e1 := h x (by simp)
        have e2 := h y (by simp)
        rw [e1, e2] at nd
        simp at nd
    have hc : ∀ i, i ∈ c → i = 1 := fun i h => (lo i h).resolve_left fun e => a (e ▸ h)
    have hr : ∀ i, i ∈ u.romCandidates → i = 1 := fun i h => hc i ((m i).1 h)
    rcases one c h0 hc with e | e <;> rcases one _ g0 hr with e' | e'
    · rw [e, e']
    · have := (m 1).1 (by rw [e']; simp); rw [e] at this; cases this
    · have := (m 1).2 (by rw [e]; simp); rw [e'] at this; cases this
    · rw [e, e']

theorem sram_addr (u : State) (a : Nat) (h1 : 0x20000000 ≤ a) (h2 : a < 0x20080000) : u.busAddr a = .sram (a - 0x20000000) := by
  unfold State.busAddr
  dsimp only
  rw [if_neg (by omega), if_pos ⟨h1, h2⟩]

theorem beats_write (m a : Nat) : ∀ (data : List Word) (i : Nat) (u : State), 0x20000000 ≤ a → a + 4 * (i + data.length) ≤ 0x20080000 →
    ∃ B, u.beats m a true i data = { u with bays := B } ∧ (∀ k, k ≠ 256 → tget Bay.fresh B k = u.bay k) ∧
      (∀ k, k < data.length → (tget Bay.fresh B 256).scratch.num (a - 0x20000000 + 4 * (i + k)) 4 = (data.getD k 0#32).toNat) ∧
      (∀ k, k < a - 0x20000000 + 4 * i ∨ a - 0x20000000 + 4 * (i + data.length) ≤ k →
        (tget Bay.fresh B 256).scratch.byte k = (u.bay 256).scratch.byte k)
  | [], i, u, h1, h2 => ⟨u.bays, rfl, fun _ _ => rfl, fun k hk => absurd hk (by simp), fun _ _ => rfl⟩
  | w :: l, i, u, h1, h2 => by
    rw [List.length_cons] at h2
    have e : u.busWrite m (a + 4 * i) 4 w = u.onBay 256 fun c => { c with scratch := c.scratch.putNum (a + 4 * i - 0x20000000) 4 w.toNat } := by
      unfold State.busWrite
      dsimp only
      rw [sram_addr u _ (by omega) (by omega)]
    obtain ⟨B, m0, mo, m1, m2⟩ := beats_write m a l (i + 1) (u.busWrite m (a + 4 * i) 4 w) h1 (by omega)
    have pe : a + 4 * i - 0x20000000 = a - 0x20000000 + 4 * i := by omega
    have sb : ((u.busWrite m (a + 4 * i) 4 w).bay 256).scratch = (u.bay 256).scratch.putNum (a - 0x20000000 + 4 * i) 4 w.toNat := by
      rw [e, State.bay_onBay, pe]
    have wl : w.toNat % 256 ^ 4 = w.toNat := Nat.mod_eq_of_lt (by have := w.isLt; omega)
    refine ⟨B, ?_, fun k hk => ?_, fun k hk => ?_, fun k hk => ?_⟩
    · rw [State.beats, if_pos rfl, m0, e]
      rfl
    · rw [mo k hk, e, State.bay_onBay_ne _ _ hk]
    · match k with
      | 0 =>
        have : (tget Bay.fresh B 256).scratch.num (a - 0x20000000 + 4 * (i + 0)) 4 = ((u.busWrite m (a + 4 * i) 4 w).bay 256).scratch.num (a - 0x20000000 + 4 * (i + 0)) 4 :=
          congrArg ofBytes (num_congr _ _ 0 _ _ fun x x1 x2 => m2 x (Or.inl (by omega)))
        rw [this, sb, Nat.add_zero, Mem.num_putNum, wl]; rfl
      | k + 1 =>
        rw [show i + (k + 1) = i + 1 + k from by omega, m1 k (by simp at hk; omega)]
        rfl
    · rw [m2 k (by simp at hk ⊢; omega), sb]
      exact Mem.byte_putBytes_out _ _ _ _ (by rw [toBytes_length]; simp at hk; omega)

theorem beats_read (m a : Nat) (hm : m ≠ 1) (u : State) : ∀ (data : List Word) (i : Nat) (o : List Out), 0x20000000 ≤ a → a + 4 * (i + data.length) ≤ 0x20080000 →
    ({ u with out := o } : State).beats m a false i data = { u with out := o ++ (List.range data.length).map fun k =>
      (Out.answer { data := toBytes 4 (wd ((u.bay 256).scratch.num (a - 0x20000000 + 4 * (i + k)) 4)).toNat }) }
  | [], i, o, h1, h2 => by simp [State.beats]
  | w :: l, i, o, h1, h2 => by
    rw [List.length_cons] at h2
    have e : ({ u with out := o } : State).busRead m (a + 4 * i) 4 none false = { u with out := o ++ [Out.answer { data := toBytes 4 (wd ((u.bay 256).scratch.num (a - 0x20000000 + 4 * i) 4)).toNat }] } := by
      unfold State.busRead
      dsimp only
      rw [sram_addr _ _ (by omega) (by omega)]
      dsimp only
      unfold State.busGive
      rw [if_neg hm, show a + 4 * i - 0x20000000 = a - 0x20000000 + 4 * i from by omega]
      rfl
    rw [State.beats, if_neg (by decide), e, beats_read m a hm u l (i + 1) _ h1 (by omega), List.length_cons, List.range_succ_eq_map, List.map_cons, List.map_map,
      List.append_assoc]
    refine congrArg (fun x => ({ u with out := o ++ x } : State)) ?_
    rw [List.singleton_append, Nat.add_zero]
    refine congrArg (List.cons _) (List.map_congr_left fun k _ => ?_)
    simp only [Function.comp]
    rw [show i + 1 + k = i + k.succ from by omega]

theorem burst_go (u : State) (m a : Nat) (w : Bool) (data : List Word) (hm : m = 2 ∨ (m = 3 ∧ u.debugLocked 0 = false)) (ha : a % 4 = 0)
    (hc : ∀ k, k < data.length → u.busTarget (a + 4 * k) = u.busTarget a) : u.burst m a w data = u.beats m a w 0 data := by
  unfold State.burst
  dsimp only
  rw [show a / 4 * 4 = a from by omega, if_neg, if_neg]
  · rw [Bool.not_eq_true, List.any_eq_false]
    intro k hk
    rw [decide_eq_true_eq, not_not]
    exact hc k (List.mem_range.1 hk)
  · rcases hm with rfl | ⟨rfl, hd⟩
    · simp
    · rw [hd]; simp

theorem burst_bad (u : State) (m a : Nat) (w : Bool) (data : List Word) (hm : m = 2 ∨ (m = 3 ∧ u.debugLocked 0 = false)) (ha : a % 4 = 0)
    (k : Nat) (hk : k < data.length) (hb : u.busTarget (a + 4 * k) ≠ u.busTarget a) :
    u.burst m a w data = if w then u.busError m a w 3 else (u.busError m a w 3).emit (.answer { data := zeros (4 * data.length) }) := by
  unfold State.burst
  dsimp only
  rw [show a / 4 * 4 = a from by omega, if_neg, if_pos]
  · rw [List.any_eq_true]
    exact ⟨k, List.mem_range.2 hk, decide_eq_true hb⟩
  · rcases hm with rfl | ⟨rfl, hd⟩
    · simp
    · rw [hd]; simp

theorem beats_fold (m a : Nat) (w : Bool) : ∀ (data : List Word) (i : Nat) (u : State),
    u.beats m a w i data = (List.range data.length).foldl (fun t k =>
      if w then t.busWrite m (a + 4 * (i + k)) 4 (data.getD k 0#32) else t.busRead m (a + 4 * (i + k)) 4 none false) u
  | [], _, _ => rfl
  | x :: l, i, u => by
    unfold State.beats
    dsimp only
    rw [beats_fold m a w l (i + 1), List.length_cons, List.range_succ_eq_map, List.foldl_cons, List.foldl_map]
    refine congrArg₂ (fun f x => List.foldl f x (List.range l.length)) ?_ rfl
    funext t k
    rw [show i + 1 + k = i + (k + 1) from by omega]
    rfl

end Sys2Proof.Laws.Boot
end

