-- ==== Sys2Proof/Laws/Issue.lean ====
section
/-!
SUPPORT. One clock and one step of a bay: what a bundle that nothing stands before makes of it, and which of its parts a
bundle of register moves changes.
-/
namespace Sys2Proof.Machine

theorem Ctx.modes_nil (c : Ctx) (h : c.modes = []) : c.modesDue = c ∧ c.modesTick = c := by
  obtain ⟨⟩ := c
  simp only at h
  subst h
  exact ⟨rfl, rfl⟩

@[simp] theorem Bay.syncDone_nil (b : Bay) : b.syncDone [] = b := rfl

/-! ## What the end of a bundle's clock leaves alone -/

/-- What the end of a bundle's clock keeps: what code sees, and what tells whether a repeat, a return or a hold is in
progress, the structural registers and the cycle count. -/
structure Kept (a t : Bay) : Prop extends SameCore a t where
  rep : t.pipe.rep = a.pipe.rep
  ret : t.pipe.ret = a.pipe.ret
  hold : t.pipe.hold = a.pipe.hold
  str : t.str = a.str
  cyc : t.tmr.cyc = a.tmr.cyc

theorem Kept.rfl' (a : Bay) : Kept a a := ⟨⟨rfl, rfl, rfl, rfl, rfl, rfl, rfl, rfl⟩, rfl, rfl, rfl, rfl, rfl⟩

theorem SameCore.trans {a b c : Bay} (h : SameCore a b) (k : SameCore b c) : SameCore a c :=
  ⟨k.1.trans h.1, k.2.trans h.2, k.3.trans h.3, k.4.trans h.4, k.5.trans h.5, k.6.trans h.6, k.7.trans h.7, k.8.trans h.8⟩

theorem Kept.trans {a b c : Bay} (h : Kept a b) (k : Kept b c) : Kept a c :=
  ⟨h.1.trans k.1, k.2.trans h.2, k.3.trans h.3, k.4.trans h.4, k.5.trans h.5, k.6.trans h.6⟩

theorem Bay.portHold_kept (b : Bay) (l : List Nat) : Kept b (b.portHold l) := by
  unfold Bay.portHold
  split <;> exact ⟨⟨rfl, rfl, rfl, rfl, rfl, rfl, rfl, rfl⟩, rfl, rfl, rfl, rfl, rfl⟩

theorem Bay.trace_kept (b c : Bay) (l : Bool) (ops : List Op) (v : Word) : Kept b (b.trace c l ops v) := by
  unfold Bay.trace
  split
  · dsimp only
    split <;> exact ⟨⟨rfl, rfl, rfl, rfl, rfl, rfl, rfl, rfl⟩, rfl, rfl, rfl, rfl, rfl⟩
  · exact Kept.rfl' b

theorem Bay.settlePort_kept (b : Bay) : Kept b b.settlePort := by
  unfold Bay.settlePort
  dsimp only
  split
  · exact (Bay.portHold_kept b [2]).trans ⟨⟨rfl, rfl, rfl, rfl, rfl, rfl, rfl, rfl⟩, rfl, rfl, rfl, rfl, rfl⟩
  · exact ⟨⟨rfl, rfl, rfl, rfl, rfl, rfl, rfl, rfl⟩, rfl, rfl, rfl, rfl, rfl⟩

theorem Bay.cycleEnd_kept (b : Bay) (l : Ledger) : Kept b (b.cycleEnd l) := by
  unfold Bay.cycleEnd
  split <;> exact ⟨⟨rfl, rfl, rfl, rfl, rfl, rfl, rfl, rfl⟩, rfl, rfl, rfl, rfl, rfl⟩

theorem Tmr.foldl_expire_cyc : ∀ (l : List Nat) (t : Tmr), (l.foldl Tmr.expire t).cyc = t.cyc
  | [], _ => rfl
  | n :: l, t => (Tmr.foldl_expire_cyc l (t.expire n)).trans rfl

theorem Tmr.settle_cyc (t : Tmr) (l : List Nat) : (t.settle l).cyc = t.cyc := Tmr.foldl_expire_cyc _ _

theorem Bay.endTick_kept (b b0 : Bay) : Kept b (b.endTick b0) := by
  have h : Kept b ((if b.pipe.hold.isSome then b else { b with tmr := b.tmr.settle [] }).noteStale b0) := by
    split
    · exact ⟨⟨rfl, rfl, rfl, rfl, rfl, rfl, rfl, rfl⟩, rfl, rfl, rfl, rfl, rfl⟩
    · exact ⟨⟨rfl, rfl, rfl, rfl, rfl, rfl, rfl, rfl⟩, rfl, rfl, rfl, rfl, Tmr.settle_cyc _ _⟩
  unfold Bay.endTick
  generalize (if b.pipe.hold.isSome then b else { b with tmr := b.tmr.settle [] }).noteStale b0 = c at h
  dsimp only
  split
  · exact h.trans ⟨⟨rfl, rfl, rfl, rfl, rfl, rfl, rfl, rfl⟩, rfl, rfl, rfl, rfl, rfl⟩
  · exact h

/-- A bundle that takes effect: the rest of its clock keeps what code sees of the effect. -/
theorem Bay.complete_kept (b b1 : Bay) (bd : Bundle) (ops : List Op) (vs : List (Op × Word)) (w : Nat) :
    Kept (b.effect b1 bd.size vs w) (b.complete b1 bd ops vs w) := by
  unfold Bay.complete
  dsimp only
  refine Kept.trans ?_ (Bay.portHold_kept _ _)
  refine Kept.trans ?_ (Bay.trace_kept _ _ _ _ _)
  exact ⟨⟨rfl, rfl, rfl, rfl, rfl, rfl, rfl, rfl⟩, rfl, rfl, rfl, rfl, rfl⟩

/-! ## A bundle that nothing stands before -/

/-- A bundle that goes takes effect. -/
theorem Bay.issue_goes (b c : Bay) (ops : List Op) (n w : Nat) (h : b.goes ops n c) :
    Kept (c.effect (c.moved ops) n (c.values ops) w) (b.issue w) := by
  obtain ⟨⟨w0, w1, h1, h3, h2, h4⟩, h5, h6, h7, h8⟩ := h
  have e : b.issue w = ({ c with free := c.free + drawn ops } : Bay).complete (c.moved ops) (decodeBundle w0 w1) ops
      (c.values ops) w := by
    unfold Bay.issue
    rw [h1]
    dsimp only
    rw [← h3, h4]
    dsimp only
    unfold Bay.judge
    rw [h5, h6]
    have h7' := h7
    have h8' := h8
    unfold Bay.moved at h7' h8'
    dsimp only
    rw [h7', h8']
    rfl
  rw [e]
  subst h2
  exact Bay.complete_kept _ _ _ _ _ _

/-- At a boundary where a bay issues it issues. -/
theorem Bay.atBoundary_issues (b x : Bay) (w : Nat) (hx : { b with ctx := b.ctx.modesDue } = x) (hi : x.issues) :
    b.atBoundary w = x.issue w := by
  obtain ⟨i1, i2, i3, i4, i5, i6, i7⟩ := hi
  unfold Bay.atBoundary
  rw [hx]
  dsimp only
  rw [i1, i2, i4]
  dsimp only
  rw [i6]
  cases hb : x.boundary with
  | false => simp
  | true => obtain ⟨j1, j2⟩ := i7 hb; simp [j1, j2]

/-- The cycle of a bay that issues is the bundle's. -/
theorem Bay.cycle_issues (x : Bay) (w : Nat) (hi : x.atIssue.issues) :
    x.cycle w = ((x.atIssue.issue w).cycleEnd x.led).settlePort := by
  have e := Bay.atBoundary_issues { x with pipe := { x.pipe with prior := x.pipe.used, used := false } } x.atIssue w rfl hi
  have r : x.pipe.ret = none := hi.2.2.1
  have d : x.pipe.idle = 0 := hi.2.2.2.2.1
  rw [← e]
  unfold Bay.cycle
  dsimp only
  rw [r]
  dsimp only
  rw [if_neg (by simp [d])]

/-- A running bay that is not held issues the bundle that goes. -/
theorem Bay.tick_goes (b c : Bay) (ops : List Op) (n : Nat) (hs : b.state = 3) (hh : b.pipe.hold = none)
    (ht : b.pipe.throttled = false) (hi : b.poised.issues) (h : b.poised.goes ops n c) :
    Kept (c.effect (c.moved ops) n (c.values ops) b.tickStart.tmr.wall) b.tick := by
  unfold Bay.tick
  rw [if_pos hs, hh]
  dsimp only
  rw [if_neg (by simp [ht])]
  unfold Bay.runTick
  rw [Bay.cycle_issues _ _ hi]
  exact (((Bay.issue_goes b.poised c ops n _ h).trans (Bay.cycleEnd_kept _ _)).trans (Bay.settlePort_kept _)).trans
    (Bay.endTick_kept _ _)

/-- A bundle that triggers nothing runs nothing. -/
@[simp] theorem Bay.runTriggers_nil (b : Bay) (sp : Word) (i a : Nat) : b.runTriggers [] sp i a = b := by
  have e : ∀ x : Word, x ||| (x &&& 0xFFFFFFFC#32 &&& 3#32) = x := by
    intro x
    rw [BitVec.and_assoc]
    simp
  simp [Bay.runTriggers, findTrig, e]

/-! ## A single step -/

theorem Bay.receiveAll_rest (unit inst : Nat) (p : Option Word) : ∀ (l : List (Nat × Word)) (b : Bay),
    ∃ x, b.receiveAll unit inst p l = { b with ports := x }
  | [], b => ⟨b.ports, rfl⟩
  | (q, v) :: t, b => by
    obtain ⟨x, h⟩ := Bay.receiveAll_rest unit inst p t (b.receive unit inst q v p)
    exact ⟨x, h⟩

theorem Bay.finish_rest (b : Bay) (f : Flight) : ∃ x, b.finish f = { b with ports := x } := by
  unfold Bay.finish
  split
  · exact ⟨_, rfl⟩
  · exact Bay.receiveAll_rest _ _ _ _ _

theorem Bay.foldl_finish_rest : ∀ (l : List Flight) (b : Bay), ∃ x, l.foldl Bay.finish b = { b with ports := x }
  | [], b => ⟨b.ports, rfl⟩
  | f :: t, b => by
    obtain ⟨x, h⟩ := Bay.finish_rest b f
    obtain ⟨y, h2⟩ := Bay.foldl_finish_rest t (b.finish f)
    refine ⟨y, ?_⟩
    rw [List.foldl_cons, h2, h]

/-- Delivery changes result ports and what is in progress, nothing else. -/
theorem Bay.deliver_rest (b : Bay) : ∃ x y, b.deliver = { b with ports := x, pipe := { b.pipe with flights := y } } := by
  unfold Bay.deliver
  obtain ⟨x, h⟩ := Bay.foldl_finish_rest (b.pipe.flights.filter Flight.ready)
    { b with pipe := { b.pipe with flights := b.pipe.flights.filter fun f => !f.ready } }
  exact ⟨x, _, h⟩

theorem Bay.retDrain_none (b : Bay) (h : b.pipe.ret = none) : ∀ n, Bay.retDrain n b = b
  | 0 => rfl
  | n + 1 => by rw [Bay.retDrain, h]

theorem Bay.repDrain_none (b : Bay) (h : b.pipe.rep = none) : ∀ n, Bay.repDrain n b = b
  | 0 => rfl
  | n + 1 => by rw [Bay.repDrain, h]

/-- With no return and no repeat in progress, draining changes result ports and what is in progress. -/
theorem Bay.drain_rest (b : Bay) (h : b.pipe.ret = none) (k : b.pipe.rep = none) :
    ∃ x y, b.drain = { b with ports := x, pipe := { b.pipe with
      flights := y, divBusy := [], spBusy := 0, idle := 0, port := 0, hold := none, used := false, prior := false,
      stale := [], lvlOld := [] } } := by
  unfold Bay.drain
  rw [Bay.retDrain_none b h]
  dsimp only
  rw [Bay.repDrain_none b k]
  obtain ⟨x, y, e⟩ := Bay.deliver_rest { b with pipe := { b.pipe with
      flights := b.pipe.flights.map (fun (f : Flight) => { f with left := 0, slid := false }),
      divBusy := [], spBusy := 0, idle := 0, port := 0, hold := none, used := false, prior := false,
      stale := [], lvlOld := [] } }
  exact ⟨x, y, e⟩

theorem Tmr.dec_cyc (t : Tmr) (n : Nat) : (t.dec n).cyc = t.cyc := by
  unfold Tmr.dec
  split <;> rfl

theorem Tmr.tick_cyc (t : Tmr) : t.tick.cyc = t.cyc := by
  simp [Tmr.tick, Tmr.dec_cyc]

theorem Tmr.run_cyc : ∀ (n : Nat) (t : Tmr), (Tmr.run n t).cyc = t.cyc
  | 0, _ => rfl
  | n + 1, t => by rw [Tmr.run, Tmr.run_cyc n, Tmr.settle_cyc, Tmr.tick_cyc]

/-- A step over a bundle that goes, after which no return, repeat or hold is in progress: everything drains, and of what
code sees only result ports change. -/
theorem Bay.step_goes (b c : Bay) (ops : List Op) (n : Nat) (hs : b.state = 2) (hm : b.march = false)
    (h1 : b.stepPoised.pipe.fault = none) (h2 : b.stepPoised.pipe.svcNow = none)
    (h3 : b.stepPoised.pipe.waiting = false) (h : b.stepPoised.goes ops n c) (e : Bay)
    (he : c.effect (c.moved ops) n (c.values ops) b.stepPoised.tmr.wall = e) (e1 : e.pipe.ret = none)
    (e2 : e.pipe.rep = none) (e3 : e.pipe.hold = none) :
    b.step.gp = e.gp ∧ b.step.guards = e.guards ∧ b.step.opnds = e.opnds ∧ b.step.scratch = e.scratch ∧
      b.step.istore = e.istore ∧ b.step.state = e.state ∧ b.step.pipe.pc = e.pipe.pc ∧ b.step.str = e.str ∧
      b.step.tmr.cyc = e.tmr.cyc := by
  have k := Bay.issue_goes b.stepPoised c ops n b.stepPoised.tmr.wall h
  rw [he] at k
  have si : b.stepPoised.stepIssue = b.stepPoised.issue b.stepPoised.tmr.wall := by
    unfold Bay.stepIssue
    rw [h1, h2]
    dsimp only
    rw [if_neg (by simp [h3])]
  have st : b.step =
      let b1 := b.stepPoised.issue b.stepPoised.tmr.wall
      { b1.drain with tmr := Tmr.run (b1.stepCycles b1.drain - 3) (b1.drain.tmr.settle []), dbg := { b1.drain.dbg with stepWait := false },
                      ctx := { b1.drain.ctx with poll := b1.drain.pollNow }, pipe := { b1.drain.pipe with ran := false } } := by
    unfold Bay.step
    rw [if_neg (by simp [hs, hm])]
    dsimp only
    change (if b.stepPoised.stepIssue.pipe.hold.isSome then _ else
      ({ b.stepPoised.stepIssue.drain with
          tmr := Tmr.run (b.stepPoised.stepIssue.stepCycles b.stepPoised.stepIssue.drain - 3)
            (b.stepPoised.stepIssue.drain.tmr.settle []),
          dbg := { b.stepPoised.stepIssue.drain.dbg with stepWait := false },
          ctx := { b.stepPoised.stepIssue.drain.ctx with poll := b.stepPoised.stepIssue.drain.pollNow },
          pipe := { b.stepPoised.stepIssue.drain.pipe with ran := false } } : Bay)) = _
    rw [si, if_neg (by rw [k.hold, e3]; simp)]
  rw [st]
  generalize b.stepPoised.issue b.stepPoised.tmr.wall = z at k
  obtain ⟨x, y, d⟩ := Bay.drain_rest z (k.ret.trans e1) (k.rep.trans e2)
  dsimp only
  rw [d]
  exact ⟨k.gp, k.guards, k.opnds, k.scratch, k.istore, k.state, k.pc, k.str,
    (Tmr.run_cyc _ _).trans ((Tmr.settle_cyc _ _).trans k.cyc)⟩

/-! ## A bundle of register moves -/

/-- With no transfer pending, a bundle moves fetch on by its length. -/
theorem Bay.advanceIssue_free (b : Bay) (n : Nat) (h : b.pipe.redirects = []) :
    b.advanceIssue n = { b with
      ctx := b.ctx.modesTick,
      oldWords := (b.oldWords.map fun o => { o with left := o.left - 1 }).filter fun o => decide (o.left ≠ 0),
      pipe := { b.pipe with pc := b.advance b.pipe.pc n, redirects := [] } } := by
  simp [Bay.advanceIssue, h]

/-- What a bundle that triggers nothing does, with no transfer pending: its moves, and fetch goes on. -/
theorem Bay.effect_moves (b b1 : Bay) (n : Nat) (vs : List (Op × Word)) (w : Nat) (h : triggers vs = [])
    (hr : b1.pipe.redirects = []) (h0 : b.pipe.redirects = []) :
    b.effect b1 n vs w = { b1 with
      tmr := b1.tmr.settle [],
      ctx := b1.ctx.modesTick,
      oldWords := (b1.oldWords.map fun o => { o with left := o.left - 1 }).filter fun o => decide (o.left ≠ 0),
      pipe := { b1.pipe with pc := b1.advance b1.pipe.pc n, redirects := [] } } := by
  have e := Bay.advanceIssue_free { b1 with tmr := b1.tmr.settle [] } n hr
  have w0 : timersWritten [] = [] := rfl
  unfold Bay.effect
  rw [h, h0]
  dsimp only
  rw [Bay.runTriggers_nil, Bay.syncDone_nil, w0, e]
  rfl

theorem regMoves_triggers (b : Bay) (ops : List Op) (h : regMoves ops) : triggers (b.values ops) = [] := by
  unfold triggers Bay.values
  rw [List.filterMap_eq_nil_iff]
  intro e he
  rw [List.mem_map] at he
  obtain ⟨o, ho, rfl⟩ := he
  obtain ⟨m, n, h1, h2⟩ := h o (List.mem_of_mem_filter ho)
  simp [h2]

theorem regMoves_sources (b : Bay) (hb : b.pipe.spBusy = 0) : ∀ ops, regMoves ops → b.sources ops = .ready
  | [], _ => rfl
  | o :: t, h => by
    have ih := regMoves_sources b hb t fun x hx => h x (List.mem_cons_of_mem _ hx)
    obtain ⟨m, n, h1, h2⟩ := h o (by simp)
    rw [Bay.sources, ih, h1]
    simp [Bay.srcState, hb, PortState.join]

theorem regMoves_poisoned (b : Bay) : ∀ ops, regMoves ops → b.poisoned ops = none
  | [], _ => rfl
  | o :: t, h => by
    have ih := regMoves_poisoned b t fun x hx => h x (List.mem_cons_of_mem _ hx)
    obtain ⟨m, n, h1, h2⟩ := h o (by simp)
    rw [Bay.poisoned, ih, h1]
    cases o.runs <;> rfl

theorem regMoves_drawn (ops : List Op) (h : regMoves ops) : drawn ops = 0 := by
  unfold drawn
  have : (ops.any fun o => o.runs && decide (o.src = .reserved)) = false := by
    rw [List.any_eq_false]
    intro o ho
    obtain ⟨m, n, h1, h2⟩ := h o ho
    simp [h1]
  rw [this]
  rfl

/-- Register moves write registers alone, each with the value its source had before the bundle. -/
theorem regMoves_write (b : Bay) : ∀ (ops : List Op) (x : Bay), regMoves ops →
    (b.values ops).foldl Bay.writeDst x = { x with gp := gpAfter x.gp b.gpr ops }
  | [], x, _ => rfl
  | o :: t, x, h => by
    have ht : regMoves t := fun y hy => h y (List.mem_cons_of_mem _ hy)
    obtain ⟨m, n, h1, h2⟩ := h o (by simp)
    cases hr : o.runs with
    | false =>
      have ih := regMoves_write b t x ht
      simp only [Bay.values, gpAfter, List.filter_cons, hr, Bool.false_eq_true, if_false] at ih ⊢
      exact ih
    | true =>
      have ih := regMoves_write b t (x.setGpr n (b.gpr m)) ht
      simp only [Bay.values, gpAfter, List.filter_cons, hr, if_true, List.map_cons, List.foldl_cons, h1, h2] at ih ⊢
      have e : x.writeDst (o, b.srcVal (.gp m)) = x.setGpr n (b.gpr m) := by simp [Bay.writeDst, h2, Bay.srcVal]
      rw [e]
      exact ih

theorem regMoves_moved (b : Bay) (ops : List Op) (h : regMoves ops) :
    b.moved ops = { b with gp := gpAfter b.gp b.gpr ops } := by
  unfold Bay.moved
  rw [regMoves_drawn ops h]
  exact regMoves_write b ops _ h

/-- Of a bay with nothing in progress, register moves at its pc go. -/
theorem Bay.goes_regMoves (b : Bay) (ops : List Op) (n : Nat) (hs : b.sill = false) (hp : b.pipe.spBusy = 0)
    (hm : b.imarks = []) (hb : b.bundleAt ops n) (h : regMoves ops) : b.goes ops n b := by
  have mk : ∀ i, markOf b.imarks i = 0 := by intro i; rw [hm]; rfl
  have f : b.fetch = .words (b.fetchWord b.pipe.pc) (b.fetchWord (b.advance b.pipe.pc 4)) := by
    unfold Bay.fetch
    dsimp only
    rw [if_neg (by simp [hs]), if_neg (by simp [mk]), if_neg (by simp [mk])]
  have fc : b.fetchCorrect (b.fetchWord b.pipe.pc) = b := by
    unfold Bay.fetchCorrect
    dsimp only
    rw [if_neg (by simp [mk]), if_neg (by simp [mk])]
  refine ⟨⟨_, _, f, fc.symm, hb.1, hb.2⟩, regMoves_sources b hp ops h, regMoves_poisoned b ops h, ?_, ?_⟩
  · rw [regMoves_triggers b ops h]; rfl
  · rw [regMoves_triggers b ops h]; rfl

theorem Tmr.tick_idle (t : Tmr) (h1 : t.ctl = 0#32) (h2 : t.due = []) : t.tick = t := by
  have d : ∀ (u : Tmr) n, u.ctl = 0#32 → u.dec n = u := by
    intro u n h; simp [Tmr.dec, Tmr.counts, h, bitAt]
  have e : ({ t with due := t.expiring } : Tmr) = t := by
    have : t.expiring = t.due := by rw [h2]; simp [Tmr.expiring, Tmr.counts, h1, bitAt]
    rw [this]
  unfold Tmr.tick
  rw [e]
  simp only [List.foldl_cons, List.foldl_nil, d t _ h1]

theorem Tmr.settle_idle (t : Tmr) (h : t.due = []) (l : List Nat) : t.settle l = t := by
  obtain ⟨⟩ := t
  simp only at h
  subst h
  rfl

theorem Tmr.run_idle (t : Tmr) (h1 : t.ctl = 0#32) (h2 : t.due = []) : ∀ n, Tmr.run n t = t
  | 0 => rfl
  | n + 1 => by rw [Tmr.run, Tmr.tick_idle t h1 h2, Tmr.settle_idle t h2, Tmr.run_idle t h1 h2 n]

theorem Bay.tickUnits_idle (b : Bay) (h1 : b.pipe.flights = []) (h2 : b.pipe.divBusy = []) (h3 : b.pipe.spBusy = 0) :
    b.tickUnits = b := by
  obtain ⟨⟩ := b
  rename_i p _ _ _ _ _ _ _ _ _ _ _ _ _
  obtain ⟨⟩ := p
  simp only at h1 h2 h3
  subst h1 h2 h3
  rfl

/-- A bay with nothing in progress moves its counters on. -/
theorem Bay.quiet_poised (b : Bay) (hq : b.quiet) :
    b.poised = { b with tmr := { b.tmr with wall := (b.tmr.wall + 1) % 2 ^ 64, cyc := (b.tmr.cyc + 1) % 2 ^ 64 } } := by
  obtain ⟨q1, q2, q3, q4, q5, q6, q7, q8, q9, q10, q11, q12, q13⟩ := hq
  have cr : b.qio.countRun = b.qio := by unfold Qio.countRun; rw [q11]
  have w : b.wallTick = { b with tmr := { b.tmr with wall := (b.tmr.wall + 1) % 2 ^ 64 } } := by
    unfold Bay.wallTick; rw [cr]
  have e1 : ({ b with pipe := b.pipe.age } : Bay) = b := by
    have : b.pipe.age = b.pipe := by rw [q2]; rfl
    rw [this]
  have e : b.tickStart = { b with tmr := { b.tmr with wall := (b.tmr.wall + 1) % 2 ^ 64, cyc := (b.tmr.cyc + 1) % 2 ^ 64 } } := by
    unfold Bay.tickStart
    rw [if_pos (by rw [q2])]
    dsimp only
    rw [if_neg (by rw [q2]; simp), e1, w]
    dsimp only
    rw [Tmr.tick_idle { b.tmr with wall := (b.tmr.wall + 1) % 2 ^ 64 } q9 q10]
    exact Bay.tickUnits_idle _ (by show b.pipe.flights = []; rw [q2]) (by show b.pipe.divBusy = []; rw [q2])
      (by show b.pipe.spBusy = 0; rw [q2])
  unfold Bay.poised Bay.atIssue
  rw [e]
  dsimp only
  have p : ({ b.pipe with prior := b.pipe.used, used := false } : Pipe) = b.pipe := by rw [q2]
  rw [(Ctx.modes_nil _ q3).1, p]

/-- Such a bay issues. -/
theorem Bay.quiet_issues (b : Bay) (hq : b.quiet) : b.issues := by
  obtain ⟨q1, q2, q3, q4, q5, q6, q7, q8, q9, q10, q11, q12, q13⟩ := hq
  refine ⟨?_, ?_, ?_, ?_, ?_, ?_, fun _ => ⟨q8, q6⟩⟩
  all_goals rw [q2]

theorem Bay.quiet_tmr {b : Bay} (hq : b.quiet) (w c : Nat) :
    ({ b with tmr := { b.tmr with wall := w, cyc := c } } : Bay).quiet := hq

/-- A clock of a bay with nothing in progress, over a bundle of register moves. -/
theorem Bay.tick_regMoves (b : Bay) (hq : b.quiet) (hs : b.state = 3) (ops : List Op) (n : Nat) (hb : b.bundleAt ops n)
    (hr : regMoves ops) :
    b.tick.gp = gpAfter b.gp b.gpr ops ∧ b.tick.pipe.pc = b.advance b.pipe.pc n ∧
      b.tick.tmr.cyc = (b.tmr.cyc + 1) % 2 ^ 64 ∧ b.tick.guards = b.guards ∧ b.tick.scratch = b.scratch ∧
      b.tick.istore = b.istore ∧ b.tick.state = 3 ∧ b.tick.ports = b.ports ∧ b.tick.str = b.str := by
  have e := Bay.quiet_poised b hq
  have cq := Bay.quiet_tmr hq ((b.tmr.wall + 1) % 2 ^ 64) ((b.tmr.cyc + 1) % 2 ^ 64)
  generalize hc : ({ b with tmr := { b.tmr with wall := (b.tmr.wall + 1) % 2 ^ 64, cyc := (b.tmr.cyc + 1) % 2 ^ 64 } } : Bay) = c at e cq
  have cb : c.bundleAt ops n := by rw [← hc]; exact hb
  have g := Bay.goes_regMoves c ops n cq.1 (by rw [cq.2.1]) cq.2.2.2.2.2.2.2.2.2.2.2.2 cb hr
  have k := Bay.tick_goes b c ops n hs (by rw [hq.2.1]) (by rw [hq.2.1]) (by rw [e]; exact Bay.quiet_issues c cq)
    (by rw [e]; exact g)
  have r0 : c.pipe.redirects = [] := by rw [cq.2.1]
  have m := regMoves_moved c ops hr
  rw [Bay.effect_moves c (c.moved ops) n _ _ (regMoves_triggers c ops hr) (by rw [m]; exact r0) r0, m] at k
  refine ⟨k.gp.trans ?_, k.pc.trans ?_, k.cyc.trans ?_, k.guards.trans ?_, k.scratch.trans ?_, k.istore.trans ?_,
    k.state.trans ?_, k.ports.trans ?_, k.str.trans ?_⟩
  all_goals rw [← hc]
  · rfl
  · rfl
  · exact (Tmr.settle_cyc _ _)
  · exact hs

theorem Struct.applyAll_nil (x : Struct) (h : x.stored = []) : x.applyAll = x := by
  obtain ⟨⟩ := x
  simp only at h
  subst h
  rfl

theorem Bay.drain_idle (b : Bay) (h : b.pipe = { pc := b.pipe.pc, serial := b.pipe.serial }) : b.drain = b := by
  obtain ⟨x, y, e⟩ : ∃ x y, b.pipe = { pc := x, serial := y } := ⟨_, _, h⟩
  obtain ⟨⟩ := b
  simp only at e
  subst e
  rfl

/-- A single step over a bundle of register moves. -/
theorem Bay.step_regMoves (b : Bay) (hq : b.quiet) (hs : b.state = 2) (hm : b.march = false) (ht : b.str.stored = [])
    (ops : List Op) (n : Nat) (hb : b.bundleAt ops n) (hr : regMoves ops) :
    b.step.gp = gpAfter b.gp b.gpr ops ∧ b.step.pipe.pc = b.advance b.pipe.pc n ∧
      b.step.guards = b.guards ∧ b.step.scratch = b.scratch ∧
      b.step.istore = b.istore ∧ b.step.state = 2 ∧ b.step.str = b.str ∧ b.step.tmr.cyc = b.tmr.cyc := by
  have hq' := hq
  obtain ⟨q1, q2, q3, q4, q5, q6, q7, q8, q9, q10, q11, q12, q13⟩ := hq
  have m : ({ b with str := b.str.applyAll, ctx := b.ctx.modesDue } : Bay) = b := by
    rw [(Ctx.modes_nil _ q3).1, Struct.applyAll_nil _ ht]
  have e : b.stepPoised = b := by
    unfold Bay.stepPoised
    rw [m, Bay.drain_idle b q2]
    dsimp only
    rw [Tmr.run_idle b.tmr q9 q10, Tmr.tick_idle b.tmr q9 q10]
  have r0 : b.pipe.redirects = [] := by rw [q2]
  have mv := regMoves_moved b ops hr
  have k := Bay.step_goes b b ops n hs hm (by rw [e, q2]) (by rw [e, q2]) (by rw [e, q2])
    (by rw [e]; exact Bay.goes_regMoves b ops n q1 (by rw [q2]) q13 hb hr) _ rfl
  rw [Bay.effect_moves b (b.moved ops) n _ _ (regMoves_triggers b ops hr) (by rw [mv]; exact r0) r0, mv] at k
  have k := k (by show b.pipe.ret = none; rw [q2]) (by show b.pipe.rep = none; rw [q2]) (by show b.pipe.hold = none; rw [q2])
  exact ⟨k.1, k.2.2.2.2.2.2.1, k.2.1, k.2.2.2.1, k.2.2.2.2.1, k.2.2.2.2.2.1.trans hs, k.2.2.2.2.2.2.2.1,
    k.2.2.2.2.2.2.2.2.trans (Tmr.settle_cyc _ _)⟩

end Sys2Proof.Machine
end

