-- ==== Sys2Proof/Laws/Entry.lean ====
section
/-!
SUPPORT. Entries: what a valid push makes of a bay, said once for faults, events and dispatch.
-/
namespace Sys2Proof.Machine

theorem Mem.word_putWord_out (m : Mem) (a b : Nat) (v : Word) (h : b + 4 ≤ a ∨ a + 4 ≤ b) :
    (m.putWord a v).word b = m.word b := by
  unfold Mem.word Mem.putWord
  rw [Mem.num_putNum_out _ _ _ _ _ _ h]

theorem Mem.byte_putWord_out (m : Mem) (a b : Nat) (v : Word) (h : b < a ∨ a + 4 ≤ b) :
    (m.putWord a v).byte b = m.byte b := by
  unfold Mem.putWord Mem.putNum
  exact Mem.byte_putBytes_out _ _ _ _ (by rw [toBytes_length]; exact h)

theorem Bay.scrWord_scrPut_out (b : Bay) (k j : Nat) (v : Word) (h : j + 4 ≤ k ∨ k + 4 ≤ j) :
    (b.scrPut k v).scrWord j = b.scrWord j := Mem.word_putWord_out _ _ _ _ h

@[simp] theorem Bay.flushSync_gp (b : Bay) : b.flushSync.gp = b.gp := rfl

/-- The four words of a frame. -/
theorem Bay.putFrame_words (b : Bay) (k : Nat) (p s c i : Word) :
    let t := b.putFrame k p s c i
    t.scrWord k = p ∧ t.scrWord (k + 4) = s ∧ t.scrWord (k + 8) = c ∧ t.scrWord (k + 12) = i ∧
      ∀ a, a < k ∨ k + 16 ≤ a → t.scratch.byte a = b.scratch.byte a := by
  unfold Bay.putFrame
  refine ⟨?_, ?_, ?_, ?_, ?_⟩
  · rw [Bay.scrWord_scrPut_out _ _ _ _ (by omega), Bay.scrWord_scrPut_out _ _ _ _ (by omega),
      Bay.scrWord_scrPut_out _ _ _ _ (by omega), Bay.scrWord_scrPut]
  · rw [Bay.scrWord_scrPut_out _ _ _ _ (by omega), Bay.scrWord_scrPut_out _ _ _ _ (by omega), Bay.scrWord_scrPut]
  · rw [Bay.scrWord_scrPut_out _ _ _ _ (by omega), Bay.scrWord_scrPut]
  · rw [Bay.scrWord_scrPut]
  · intro a h
    simp only [Bay.scrPut_scratch]
    rw [Mem.byte_putWord_out _ _ _ _ (by omega), Mem.byte_putWord_out _ _ _ _ (by omega),
      Mem.byte_putWord_out _ _ _ _ (by omega), Mem.byte_putWord_out _ _ _ _ (by omega)]

theorem Bay.putFrame_rest (b : Bay) (k : Nat) (p s c i : Word) :
    ∃ m x, b.putFrame k p s c i = { b with scratch := m, smarks := x } := by
  unfold Bay.putFrame Bay.scrPut
  exact ⟨_, _, rfl⟩

/-- A valid push: the entry is made, and GP63 points at the frame. -/
theorem Bay.enter_entered (b : Bay) (e : Entry) (ret : Nat) (repu : Bool) (idle : Nat) (h : b.pushOk = true) :
    b.entered e ret repu (b.enter e ret repu idle) ∧ (b.enter e ret repu idle).gpr 63 = b.gpr 63 - 16#32 ∧
      (b.enter e ret repu idle).pipe.idle = idle ∧ (b.enter e ret repu idle).pipe.fault = none ∧
      (b.enter e ret repu idle).qio = b.qio ∧ (b.enter e ret repu idle).ctx.svc = b.ctx.svc := by
  unfold Bay.enter
  rw [if_pos h]
  dsimp only
  unfold Bay.entered
  dsimp only
  generalize hk : b.key (b.gpr 63 - 16#32).toNat = k
  generalize framePc ret b.dslot.1 b.dslot.2 = p
  generalize FrameStat.word ⟨e.vector, e.cause, e.level, b.dslot.1, repu, b.ctx.mask, b.ctx.priv⟩ = s
  generalize hc : b.frameCtx = c
  have w := Bay.putFrame_words b k p s c e.info
  dsimp only at w
  obtain ⟨m, x, hm⟩ := Bay.putFrame_rest b k p s c e.info
  rw [hm] at w ⊢
  refine ⟨⟨w.1, w.2.1, w.2.2.1, w.2.2.2.1, rfl, rfl, rfl, rfl, rfl, fun n hn => ?_, rfl, w.2.2.2.2, rfl⟩, ?_, rfl, rfl, rfl, rfl⟩
  · exact Bay.gpr_setGpr_ne { b with scratch := m, smarks := x } _ hn
  · exact Bay.gpr_setGpr { b with scratch := m, smarks := x } 63 _

end Sys2Proof.Machine
end

