-- ==== Sys2Proof/Laws/Channels.lean ====
section
/-!
SUPPORT. What requests, refresh and calibration of a channel do to a state.
-/
namespace Sys2Proof.Laws.Channels
open Sys2Proof Sys2Proof.Machine

/-- A channel that keeps everything but its lines and its write queue. -/
def Chan.Same (x y : Chan) : Prop := ∃ m k b q, y = { x with mem := m, marks := k, back := b, wq := q }

theorem Chan.Same.refl (x : Chan) : Chan.Same x x := ⟨_, _, _, _, rfl⟩

theorem Chan.Same.trans {x y z : Chan} (h : Chan.Same x y) (g : Chan.Same y z) : Chan.Same x z := by
  obtain ⟨_, _, _, _, rfl⟩ := h
  obtain ⟨_, _, _, _, rfl⟩ := g
  exact ⟨_, _, _, _, rfl⟩

theorem Chan.Same.back (x : Chan) (b : List Nat) : Chan.Same x { x with back := b } :=
  ⟨x.mem, x.marks, b, x.wq, rfl⟩

/-- The registers that an access of a channel may write: MEMc_TMAX and those that locate an error. -/
def errReg (a : Nat) : Prop := ∃ k, a = memBase k + 0x14 ∨ a = memBase k + 0x24 ∨ a = memBase k + 0x28 ∨ a = memBase k + 0x2C

/-- Between u and v only records, counters, status registers, error registers, free values, what leaves the device and the
lines and queues of the channels in C may differ. -/
def ChanRest (C : Nat → Prop) (u v : State) : Prop :=
  ∃ B R F O D, v = { u with bg := B, regs := R, free := F, out := O, ddr := { u.ddr with chans := D } } ∧
    (∀ a, ¬errReg a → v.reg a = u.reg a) ∧ (∀ k, ¬C k → v.chan k = u.chan k) ∧ ∀ k, Chan.Same (u.chan k) (v.chan k)

variable {C : Nat → Prop}

theorem ChanRest.refl (u : State) : ChanRest C u u :=
  ⟨_, _, _, _, _, rfl, fun _ _ => rfl, fun _ _ => rfl, fun _ => Chan.Same.refl _⟩

theorem ChanRest.trans {u v w : State} (h : ChanRest C u v) (g : ChanRest C v w) : ChanRest C u w := by
  obtain ⟨_, _, _, _, _, rfl, h1, h2, h3⟩ := h
  obtain ⟨_, _, _, _, _, rfl, g1, g2, g3⟩ := g
  exact ⟨_, _, _, _, _, rfl, fun a ha => (g1 a ha).trans (h1 a ha), fun k hk => (g2 k hk).trans (h2 k hk),
    fun k => (h3 k).trans (g3 k)⟩

theorem ChanRest.bays {u v : State} (h : ChanRest C u v) : v.bays = u.bays := by obtain ⟨_, _, _, _, _, rfl, _⟩ := h; rfl
theorem ChanRest.sec {u v : State} (h : ChanRest C u v) : v.sec = u.sec := by obtain ⟨_, _, _, _, _, rfl, _⟩ := h; rfl
theorem ChanRest.hw {u v : State} (h : ChanRest C u v) : v.hw = u.hw := by obtain ⟨_, _, _, _, _, rfl, _⟩ := h; rfl
theorem ChanRest.rails {u v : State} (h : ChanRest C u v) : v.ddr.rails = u.ddr.rails := by
  obtain ⟨_, _, _, _, _, rfl, _⟩ := h; rfl
theorem ChanRest.reg {u v : State} (h : ChanRest C u v) {a : Nat} (ha : ¬errReg a) : v.reg a = u.reg a := by
  obtain ⟨_, _, _, _, _, _, h1, _⟩ := h; exact h1 a ha
theorem ChanRest.chan {u v : State} (h : ChanRest C u v) {k : Nat} (hk : ¬C k) : v.chan k = u.chan k := by
  obtain ⟨_, _, _, _, _, _, _, h2, _⟩ := h; exact h2 k hk
theorem ChanRest.same {u v : State} (h : ChanRest C u v) (k : Nat) : Chan.Same (u.chan k) (v.chan k) := by
  obtain ⟨_, _, _, _, _, _, _, _, h3⟩ := h; exact h3 k

theorem not_errReg {c o : Nat} (h : o < 0x14) : ¬errReg (memBase c + o) := by
  rintro ⟨k, h'⟩
  unfold memBase at h'
  omega

theorem ChanRest.memCfg {u v : State} (h : ChanRest C u v) (c : Nat) : v.memCfg c = u.memCfg c :=
  h.reg (not_errReg (c := c) (o := 0) (by omega))

theorem ChanRest.event (u : State) (a i : Nat) : ChanRest C u (u.event a i) :=
  ⟨_, _, _, _, _, rfl, fun _ _ => rfl, fun _ _ => rfl, fun _ => Chan.Same.refl _⟩

theorem ChanRest.bump (u : State) (a : Nat) : ChanRest C u (u.bump a) :=
  ⟨_, _, _, _, _, rfl, fun _ _ => rfl, fun _ _ => rfl, fun _ => Chan.Same.refl _⟩

theorem ChanRest.draw (u : State) : ChanRest C u u.draw.1 :=
  ⟨_, _, _, _, _, rfl, fun _ _ => rfl, fun _ _ => rfl, fun _ => Chan.Same.refl _⟩

theorem ChanRest.emit (u : State) (o : Out) : ChanRest C u (u.emit o) :=
  ⟨_, _, _, _, _, rfl, fun _ _ => rfl, fun _ _ => rfl, fun _ => Chan.Same.refl _⟩

theorem ChanRest.setReg (u : State) {a : Nat} (v : Word) (h : errReg a) : ChanRest C u (u.setReg a v) :=
  ⟨_, _, _, _, _, rfl, fun b hb => State.reg_setReg_ne _ _ (by rintro rfl; exact hb h), fun _ _ => rfl,
    fun _ => Chan.Same.refl _⟩

theorem ChanRest.record (u : State) (e : Event) : ChanRest C u (u.record e) := by
  obtain ⟨B, c, q, h, _⟩ := u.record_rest e
  rw [h]
  exact ⟨_, _, _, _, _, rfl, fun _ _ => rfl, fun _ _ => rfl, fun _ => Chan.Same.refl _⟩

theorem ChanRest.setChan (u : State) {c : Nat} {x : Chan} (hC : C c) (h : Chan.Same (u.chan c) x) :
    ChanRest C u (u.setChan c x) := by
  refine ⟨_, _, _, _, _, rfl, fun _ _ => rfl, fun k hk => State.chan_setChan_ne _ _ (by rintro rfl; exact hk hC), fun k => ?_⟩
  by_cases hk : k = c
  · subst hk; rw [State.chan_setChan]; exact h
  · rw [State.chan_setChan_ne _ _ hk]; exact Chan.Same.refl _

/-- An error of a line is counted, located and recorded; no channel changes. -/
theorem ddrError_rest (u : State) (c l dev : Nat) (ue : Bool) :
    ChanRest C u (u.ddrError c l dev ue) ∧ ∀ k, (u.ddrError c l dev ue).chan k = u.chan k := by
  constructor
  · unfold State.ddrError
    refine (((((ChanRest.bump _ _).trans (ChanRest.event _ _ _)).trans (ChanRest.setReg _ _ ⟨c, by omega⟩)).trans
      (ChanRest.setReg _ _ ⟨c, by omega⟩)).trans (ChanRest.setReg _ _ ⟨c, by omega⟩)).trans (ChanRest.record _ _)
  · intro k
    unfold State.ddrError
    dsimp only
    generalize hw : State.setReg _ _ _ = w
    have e : ∀ r, (w.record r).chan k = w.chan k := fun r => by
      obtain ⟨B, x, q, h, _⟩ := w.record_rest r
      rw [h]; rfl
    rw [e, ← hw]
    rfl

/-- A line is checked: no line and no queue changes, and it comes poisoned where its mark says so. -/
theorem lineCheck_rest (u : State) (c l : Nat) (hC : C c) : ChanRest C u (u.lineCheck c l).1 ∧
    (u.lineCheck c l).2 = decide (2 ≤ markOf (u.chan c).marks l % 4) ∧
    ∃ b, ((u.lineCheck c l).1.chan c) = { u.chan c with back := b } := by
  have m4 : markOf (u.chan c).marks l % 4 < 4 := Nat.mod_lt _ (by decide)
  unfold State.lineCheck
  dsimp only
  generalize hm : markOf (u.chan c).marks l = m at m4 ⊢
  have : m % 4 = 0 ∨ m % 4 = 1 ∨ m % 4 = 2 ∨ m % 4 = 3 := by omega
  rcases this with h | h | h | h <;> rw [h] <;> simp only []
  · exact ⟨ChanRest.refl _, by simp, _, rfl⟩
  · obtain ⟨r, k⟩ := ddrError_rest (C := C) u c l (m / 4) false
    rw [k c]
    exact ⟨r.trans (ChanRest.setChan _ hC (by rw [k]; exact Chan.Same.back _ _)), by simp, _, State.chan_setChan _ _ _⟩
  · obtain ⟨r, k⟩ := ddrError_rest (C := C) u c l 0x1F true
    exact ⟨r, by simp, _, k c⟩
  · exact ⟨ChanRest.event _ _ _, by simp, _, rfl⟩

theorem record_out (u : State) (e : Event) : (u.record e).out = u.out := by
  obtain ⟨B, c, q, h, _⟩ := u.record_rest e
  rw [h]

theorem lineCheck_out (u : State) (c l : Nat) : (u.lineCheck c l).1.out = u.out := by
  have e : ∀ d ue, (u.ddrError c l d ue).out = u.out := by
    intro d ue
    unfold State.ddrError
    dsimp only
    rw [record_out]
    rfl
  unfold State.lineCheck
  dsimp only
  split
  · rfl
  · exact e _ _
  · exact e _ _
  · rfl

theorem queuedPoison_rest (u : State) (c : Nat) (e : WLine) :
    ChanRest C u (u.queuedPoison c e) ∧ (u.queuedPoison c e).chan c = u.chan c := by
  unfold State.queuedPoison
  split
  · exact ⟨ChanRest.event _ _ _, rfl⟩
  · exact ⟨ChanRest.refl _, rfl⟩

/-- So is one that is read, from the array or the queue. -/
theorem lineRead_rest (u : State) (c l : Nat) (hC : C c) : ChanRest C u (u.lineRead c l).1 ∧
    (u.lineRead c l).2 = (u.chan c).poisoned l ∧ ∃ b, ((u.lineRead c l).1.chan c) = { u.chan c with back := b } := by
  obtain ⟨r1, r2, b, r3⟩ := lineCheck_rest (C := C) u c l hC
  unfold State.lineRead Chan.poisoned
  cases hq : (u.chan c).queued l with
  | none => exact ⟨r1, r2, b, r3⟩
  | some e =>
    dsimp only
    by_cases hw : e.whole = true
    · rw [if_pos hw]
      obtain ⟨q1, q2⟩ := queuedPoison_rest (C := C) u c e
      exact ⟨q1, by rw [if_pos hw], _, q2⟩
    · rw [if_neg hw]
      dsimp only
      refine ⟨?_, by rw [if_neg hw, r2], ?_⟩
      · split
        · exact r1
        · exact r1.trans (queuedPoison_rest _ c e).1
      · split
        · exact ⟨b, r3⟩
        · exact ⟨b, ((queuedPoison_rest (C := C) _ c e).2).trans r3⟩

theorem queued_back (x : Chan) (b : List Nat) (l : Nat) : ({ x with back := b } : Chan).poisoned l = x.poisoned l := rfl

/-- Reading lines in order keeps every line and queue, and finds those that come poisoned. -/
theorem readLines_rest (c a : Nat) (hC : C c) : ∀ (l : List Nat) (u : State), ChanRest C u (u.readLines c a l).1 ∧
    (u.readLines c a l).2 = l.filter (u.chan c).poisoned ∧ ∃ b, ((u.readLines c a l).1.chan c) = { u.chan c with back := b }
  | [], u => ⟨ChanRest.refl _, rfl, _, rfl⟩
  | x :: t, u => by
    obtain ⟨r1, r2, b, r3⟩ := lineRead_rest (C := C) u c x hC
    obtain ⟨q1, q2, b', q3⟩ := readLines_rest c a hC t (u.lineRead c x).1
    rw [State.readLines]
    refine ⟨r1.trans q1, ?_, b', ?_⟩
    · dsimp only
      have e : ∀ y, ((u.lineRead c x).1.chan c).poisoned y = (u.chan c).poisoned y := fun y => by rw [r3]; rfl
      rw [q2, r2, List.filter_cons]
      have f : t.filter ((u.lineRead c x).1.chan c).poisoned = t.filter (u.chan c).poisoned := by
        congr 1; funext y; exact e y
      rw [f]
    · dsimp only
      rw [q3, r3]

theorem drainLine_rest (u : State) (c : Nat) (e : WLine) (hC : C c) : ChanRest C u (u.drainLine c e) ∧
    ((u.drainLine c e).chan c).wq = (u.chan c).wq ∧ ((u.drainLine c e).chan c).waits = (u.chan c).waits := by
  unfold State.drainLine
  split
  · refine ⟨ChanRest.setChan _ hC ⟨_, _, _, _, rfl⟩, ?_, ?_⟩ <;> rw [State.chan_setChan]
  · obtain ⟨r1, -, b, r3⟩ := lineCheck_rest (C := C) u c e.line hC
    refine ⟨r1.trans (ChanRest.setChan _ hC ⟨_, _, _, _, rfl⟩), ?_, ?_⟩ <;> rw [State.chan_setChan, r3]

/-- The queue drains: it is empty, and only lines and their marks change. -/
theorem drainQueue_rest (u : State) (c : Nat) (hC : C c) : ChanRest C u (u.drainQueue c) ∧ ((u.drainQueue c).chan c).wq = [] ∧
    ((u.drainQueue c).chan c).waits = (u.chan c).waits := by
  have f : ∀ (l : List WLine) (w : State), ChanRest C w (l.foldl (fun t e => t.drainLine c e) w) ∧
      ((l.foldl (fun t e => t.drainLine c e) w).chan c).wq = (w.chan c).wq ∧
      ((l.foldl (fun t e => t.drainLine c e) w).chan c).waits = (w.chan c).waits := by
    intro l
    induction l with
    | nil => exact fun w => ⟨ChanRest.refl _, rfl, rfl⟩
    | cons e t ih =>
      intro w
      obtain ⟨r1, r2, r3⟩ := drainLine_rest (C := C) w c e hC
      obtain ⟨q1, q2, q3⟩ := ih (w.drainLine c e)
      exact ⟨r1.trans q1, q2.trans r2, q3.trans r3⟩
  unfold State.drainQueue
  obtain ⟨r1, r2, r3⟩ := f (u.chan c).wq (u.setChan c { u.chan c with wq := [] })
  refine ⟨(ChanRest.setChan u hC ⟨_, _, _, _, rfl⟩).trans r1, ?_, ?_⟩
  · rw [r2, State.chan_setChan]
  · rw [r3, State.chan_setChan]

theorem lineWrite_rest (u : State) (c l : Nat) (bs : List (Nat × Byte)) (p : Bool) (hC : C c) :
    ChanRest C u (u.lineWrite c l bs p) ∧ ((u.lineWrite c l bs p).chan c).waits = (u.chan c).waits := by
  unfold State.lineWrite
  dsimp only
  split
  · refine ⟨ChanRest.setChan _ hC ⟨_, _, _, _, rfl⟩, ?_⟩
    rw [State.chan_setChan]
  · split
    · split
      · rename_i f t _ _
        obtain ⟨r1, _, r3⟩ := drainLine_rest (C := C) (u.setChan c { u.chan c with wq := t }) c f hC
        refine ⟨((ChanRest.setChan u hC ⟨_, _, _, _, rfl⟩).trans r1).trans (ChanRest.setChan _ hC ⟨_, _, _, _, rfl⟩), ?_⟩
        rw [State.chan_setChan]
        exact r3.trans (by rw [State.chan_setChan])
      · refine ⟨ChanRest.setChan _ hC ⟨_, _, _, _, rfl⟩, ?_⟩
        rw [State.chan_setChan]
    · refine ⟨ChanRest.setChan _ hC ⟨_, _, _, _, rfl⟩, ?_⟩
      rw [State.chan_setChan]

theorem channelTime_chans (u : State) (c ns : Nat) : ChanRest C u (u.channelTime c ns) ∧
    ∀ k, (u.channelTime c ns).chan k = u.chan k := by
  unfold State.channelTime
  dsimp only
  generalize (if 1023 ≤ ns then 1023 else ns) = m
  have s1 : ChanRest C u (if fld (u.reg (memBase c + 0x14)) 0 10 < m then u.setReg (memBase c + 0x14) (wd m) else u) := by
    split
    · exact ChanRest.setReg _ _ ⟨c, by omega⟩
    · exact ChanRest.refl _
  have k1 : ∀ k, (if fld (u.reg (memBase c + 0x14)) 0 10 < m then u.setReg (memBase c + 0x14) (wd m) else u).chan k = u.chan k := by
    intro k; split <;> rfl
  split
  · exact ⟨(s1.trans (ChanRest.bump _ _)).trans (ChanRest.event _ _ _), fun k => k1 k⟩
  · exact ⟨s1, k1⟩

theorem drawWords_rest : ∀ (n : Nat) (u : State), ChanRest C u (u.drawWords n).1 ∧ (u.drawWords n).1.out = u.out ∧
    (u.drawWords n).1.ddr = u.ddr
  | 0, u => ⟨ChanRest.refl _, rfl, rfl⟩
  | n + 1, u => by
    obtain ⟨h1, h2, h3⟩ := drawWords_rest n u.draw.1
    rw [State.drawWords]
    exact ⟨(ChanRest.draw u).trans h1, h2, h3⟩

theorem wildRead_rest (u : State) (a n : Nat) : ChanRest C u (u.wildRead a n).1 ∧ (u.wildRead a n).2.err = none := by
  unfold State.wildRead
  dsimp only
  generalize hr : (u.drawWords ((n + 3) / 4)).1 = w
  have h1 : ChanRest C u w := by rw [← hr]; exact (drawWords_rest _ _).1
  refine ⟨?_, rfl⟩
  have h2 : ChanRest C u (match w.draw.2.toNat % 3 with
    | 1 => w.draw.1.ddrError (chanOf a) (a / 64) (w.draw.2.toNat / 3 % 18) false
    | 2 => w.draw.1.ddrError (chanOf a) (a / 64) 0x1F true
    | _ => w.draw.1) := by
    split
    · exact (h1.trans (ChanRest.draw w)).trans (ddrError_rest _ _ _ _ _).1
    · exact (h1.trans (ChanRest.draw w)).trans (ddrError_rest _ _ _ _ _).1
    · exact h1.trans (ChanRest.draw w)
  exact h2.trans (drawWords_rest _ _).1

theorem ddrRead_rest (u : State) (a n : Nat) (hC : C (chanOf a)) : ChanRest C u (u.ddrRead a n).1 := by
  unfold State.ddrRead
  split
  · exact ChanRest.refl _
  · dsimp only
    split
    · exact (wildRead_rest _ _ _).1
    · exact (readLines_rest _ a hC _ _).1

theorem ddrWrite_rest (u : State) (a : Nat) (data : List Byte) (p : Bool) (hC : C (chanOf a)) :
    ChanRest C u (u.ddrWrite a data p).1 ∧ ((u.ddrWrite a data p).1.chan (chanOf a)).waits = (u.chan (chanOf a)).waits := by
  have f : ∀ (l : List Nat) (w : State), ChanRest C w (l.foldl (fun t l => t.lineWrite (chanOf a) l (lineBytes a l data) p) w) ∧
      ((l.foldl (fun t l => t.lineWrite (chanOf a) l (lineBytes a l data) p) w).chan (chanOf a)).waits = (w.chan (chanOf a)).waits := by
    intro l
    induction l with
    | nil => exact fun w => ⟨ChanRest.refl _, rfl⟩
    | cons e t ih =>
      intro w
      obtain ⟨r1, r2⟩ := lineWrite_rest (C := C) w (chanOf a) e (lineBytes a e data) p hC
      obtain ⟨q1, q2⟩ := ih (w.lineWrite (chanOf a) e (lineBytes a e data) p)
      exact ⟨r1.trans q1, q2.trans r2⟩
  unfold State.ddrWrite
  split
  · exact ⟨ChanRest.refl _, rfl⟩
  · exact f _ _

/-- A request runs: only its channel's lines and queue change. -/
theorem ddrRun_rest (u : State) (q : DdrReq) (hC : C (chanOf q.addr)) : ChanRest C u (u.ddrRun q).1 := by
  have h : ChanRest C u (if q.write then u.ddrWrite q.addr q.data q.poison else u.ddrRead q.addr q.len).1 := by
    split
    · exact (ddrWrite_rest u _ _ _ hC).1
    · exact ddrRead_rest u _ _ hC
  unfold State.ddrRun
  dsimp only
  generalize (if q.write then u.ddrWrite q.addr q.data q.poison else u.ddrRead q.addr q.len) = r at h ⊢
  split
  · exact h
  · exact h.trans (channelTime_chans _ _ _).1

theorem ddrAnswer_rest (u : State) (q : DdrReq) (hC : C (chanOf q.addr)) : ChanRest C u (u.ddrAnswer q) :=
  (ddrRun_rest u q hC).trans (ChanRest.emit _ _)

/-- Waiting requests are served: the channels keep their standing. -/
theorem ddrResume_rest (u : State) (c : Nat) (go : DdrReq → Bool) (hC : ∀ q ∈ (u.chan c).waits, C (chanOf q.addr)) :
    ChanRest C (u.setChan c { u.chan c with waits := (u.chan c).waits.filter fun q => !go q }) (u.ddrResume c go) := by
  have f : ∀ (l : List DdrReq) (w : State), (∀ q ∈ l, C (chanOf q.addr)) → ChanRest C w (l.foldl State.ddrAnswer w) := by
    intro l
    induction l with
    | nil => exact fun w _ => ChanRest.refl _
    | cons q t ih =>
      intro w h
      exact (ddrAnswer_rest w q (h q (List.mem_cons_self ..))).trans (ih _ fun p hp => h p (List.mem_cons_of_mem _ hp))
  unfold State.ddrResume
  exact f _ _ fun q hq => hC q (List.mem_of_mem_filter hq)

/-- An upset changes marks alone. -/
theorem ddrUpset_rest : ∀ (l : List (Nat × Nat)) (u : State), ∃ D, u.ddrUpset l = { u with ddr := { u.ddr with chans := D } } ∧
    (∀ k, (∀ e ∈ l, chanOf (e.1 * 64) ≠ k) → (u.ddrUpset l).chan k = u.chan k) ∧
    ∀ k, ∃ m, (u.ddrUpset l).chan k = { u.chan k with marks := m }
  | [], u => ⟨_, rfl, fun _ _ => rfl, fun _ => ⟨_, rfl⟩⟩
  | e :: t, u => by
    generalize hw : u.setChan (chanOf (e.1 * 64)) { u.chan (chanOf (e.1 * 64)) with
      marks := setMark (u.chan (chanOf (e.1 * 64))).marks e.1 (upsetMark (markOf (u.chan (chanOf (e.1 * 64))).marks e.1) e.2) } = w
    obtain ⟨D, h1, h2, h3⟩ := ddrUpset_rest t w
    have e0 : u.ddrUpset (e :: t) = w.ddrUpset t := by rw [← hw]; rfl
    refine ⟨D, ?_, fun k hk => ?_, fun k => ?_⟩
    · rw [e0, h1, ← hw]; rfl
    · rw [e0, h2 k fun e' he' => hk e' (List.mem_cons_of_mem _ he'), ← hw]
      exact State.chan_setChan_ne _ _ (hk e (List.mem_cons_self ..)).symm
    · obtain ⟨m, hm⟩ := h3 k
      rw [e0, hm, ← hw]
      by_cases hk : k = chanOf (e.1 * 64)
      · rw [hk, State.chan_setChan]; exact ⟨_, rfl⟩
      · rw [State.chan_setChan_ne _ _ hk]; exact ⟨_, rfl⟩

theorem ddrUpset_chans (l : List (Nat × Nat)) (u : State) : ChanRest (fun _ => True) u (u.ddrUpset l) := by
  obtain ⟨D, h1, h2, h3⟩ := ddrUpset_rest l u
  refine ⟨_, _, _, _, D, h1, fun a _ => by rw [h1]; rfl, fun k hk => absurd trivial hk, fun k => ?_⟩
  obtain ⟨m, hm⟩ := h3 k
  exact ⟨_, m, _, _, hm⟩

/-- The bytes of a write that fall in line l, as a table of the line's bytes. -/
theorem lineBytes_get (a l : Nat) : ∀ (data : List Byte) (n : Nat) (t : Tab (Option Byte)) (i : Nat), i < 64 →
    tgetD none ((((data.zipIdx n).map fun e => (a + e.2, e.1)).filterMap fun e => if e.1 / 64 = l then some (e.1 % 64, e.2) else none).foldl
      (fun t b => tsetD none t b.1 (some b.2)) t) i =
      if a + n ≤ 64 * l + i ∧ 64 * l + i < a + n + data.length then some (data.getD (64 * l + i - (a + n)) 0#8) else tgetD none t i
  | [], n, t, i, hi => by simp; try omega
  | d :: ds, n, t, i, hi => by
    simp only [List.zipIdx_cons, List.map_cons, List.filterMap_cons, List.length_cons]
    by_cases hl : (a + n) / 64 = l
    · simp only [hl, if_true, List.foldl_cons]
      rw [lineBytes_get a l ds (n + 1) _ i hi]
      by_cases h1 : a + (n + 1) ≤ 64 * l + i ∧ 64 * l + i < a + (n + 1) + ds.length
      · rw [if_pos h1, if_pos (by omega)]
        have : 64 * l + i - (a + n) = (64 * l + i - (a + (n + 1))) + 1 := by omega
        rw [this, List.getD_cons_succ]
      · rw [if_neg h1]
        by_cases h2 : i = (a + n) % 64
        · have : 64 * l + i = a + n := by omega
          rw [h2, tgetD_tsetD_same, ← h2, this, if_pos (by omega), Nat.sub_self, List.getD_cons_zero]
        · rw [tgetD_tsetD_ne _ _ _ h2, if_neg (by omega)]
    · simp only [hl, if_false]
      rw [lineBytes_get a l ds (n + 1) _ i hi]
      by_cases h1 : a + (n + 1) ≤ 64 * l + i ∧ 64 * l + i < a + (n + 1) + ds.length
      · rw [if_pos h1, if_pos (by omega)]
        have : 64 * l + i - (a + n) = (64 * l + i - (a + (n + 1))) + 1 := by omega
        rw [this, List.getD_cons_succ]
      · rw [if_neg h1, if_neg (by omega)]

/-- What a line of a channel shows at byte i. -/
theorem see_mem (x : Chan) (a : Nat) : x.see a = ((x.queued (a / 64)).bind fun e => e.at (a % 64)).getD (x.mem.byte a) := by
  unfold Chan.see
  cases x.queued (a / 64) <;> rfl

theorem find_map (l : Nat) (f : WLine → WLine) (hf : ∀ e, (f e).line = e.line) (k : Nat) : ∀ q : List WLine,
    (q.map fun e => if e.line = l then f e else e).find? (fun e => decide (e.line = k)) =
      (q.find? fun e => decide (e.line = k)).map fun e => if e.line = l then f e else e
  | [] => rfl
  | e :: t => by
    have h1 : (if e.line = l then f e else e).line = e.line := by split; exact hf e; rfl
    rw [List.map_cons, List.find?_cons, List.find?_cons, h1]
    cases decide (e.line = k)
    · exact find_map l f hf k t
    · rfl

/-- A line's write into a queue with room: the channel shows the new bytes where they stand and the old ones elsewhere. -/
theorem lineWrite_see (u : State) (c a l : Nat) (data : List Byte) (p : Bool) (h : (u.chan c).wq.length < 64) (x : Nat) :
    ((u.lineWrite c l (lineBytes a l data) p).chan c).see x =
      (if x / 64 = l ∧ a ≤ x ∧ x < a + data.length then data.getD (x - a) 0#8 else (u.chan c).see x) ∧
    ((u.lineWrite c l (lineBytes a l data) p).chan c).wq.length ≤ (u.chan c).wq.length + 1 := by
  have put : ∀ (tb : Tab (Option Byte)) i, i < 64 →
      tgetD none ((lineBytes a l data).foldl (fun t b => tsetD none t b.1 (some b.2)) tb) i =
        if a ≤ 64 * l + i ∧ 64 * l + i < a + data.length then some (data.getD (64 * l + i - a) 0#8) else tgetD none tb i :=
    fun tb i hi => by
      have := lineBytes_get a l data 0 tb i hi
      simpa [lineBytes] using this
  have xl : x / 64 = l → 64 * l + x % 64 = x := fun h => by omega
  unfold State.lineWrite
  dsimp only
  cases hq : (u.chan c).queued l with
  | some e =>
    dsimp only
    rw [State.chan_setChan]
    refine ⟨?_, by simp⟩
    rw [see_mem, see_mem]
    unfold Chan.queued at hq ⊢
    dsimp only
    rw [find_map l (fun f => { f with
      bytes := (lineBytes a l data).foldl (fun t b => tsetD none t b.1 (some b.2)) e.bytes,
      poison := p || (e.poison && decide ((lineBytes a l data).length < 64)) }) (fun _ => rfl)]
    by_cases hx : x / 64 = l
    · rw [hx, hq]
      have el : e.line = l := by simpa using List.find?_some hq
      simp only [Option.map_some, Option.bind_some, el, if_true, true_and]
      unfold WLine.at
      dsimp only
      rw [put _ _ (Nat.mod_lt _ (by decide)), xl hx]
      by_cases hr : a ≤ x ∧ x < a + data.length
      · rw [if_pos hr, if_pos hr]; rfl
      · rw [if_neg hr, if_neg hr]
    · rw [if_neg fun h => hx h.1]
      cases hf : (u.chan c).wq.find? (fun e => decide (e.line = x / 64)) with
      | none => rfl
      | some f =>
        have fl : f.line = x / 64 := by simpa using List.find?_some hf
        simp only [Option.map_some, Option.bind_some, fl, hx, if_false]
  | none =>
    have go : ∀ w : State, w = u → (((w.setChan c { w.chan c with wq := (w.chan c).wq ++
        [{ line := l, bytes := (lineBytes a l data).foldl (fun t b => tsetD none t b.1 (some b.2)) [], poison := p }] }).chan c).see x =
      (if x / 64 = l ∧ a ≤ x ∧ x < a + data.length then data.getD (x - a) 0#8 else (u.chan c).see x)) ∧
      ((w.setChan c { w.chan c with wq := (w.chan c).wq ++
        [{ line := l, bytes := (lineBytes a l data).foldl (fun t b => tsetD none t b.1 (some b.2)) [], poison := p }] }).chan c).wq.length ≤
        (u.chan c).wq.length + 1 := by
      rintro w rfl
      rw [State.chan_setChan]
      refine ⟨?_, by simp⟩
      rw [see_mem, see_mem]
      unfold Chan.queued at hq ⊢
      dsimp only
      rw [List.find?_append]
      by_cases hx : x / 64 = l
      · rw [hx, hq]
        simp only [Option.none_or, List.find?_cons, decide_true, Option.bind_some, true_and, Option.bind_none, Option.getD_none]
        unfold WLine.at
        dsimp only
        rw [put _ _ (Nat.mod_lt _ (by decide)), xl hx]
        by_cases hr : a ≤ x ∧ x < a + data.length
        · rw [if_pos hr, if_pos hr]; rfl
        · rw [if_neg hr, if_neg hr]; rfl
      · rw [if_neg fun h => hx h.1]
        have : decide (l = x / 64) = false := decide_eq_false (by omega)
        simp only [List.find?_cons, List.find?_nil, this, Option.or_none]
    cases hl : (u.chan c).wq with
    | nil =>
      have := go u rfl
      rw [hl] at this
      simpa [hl] using this
    | cons f t =>
      rw [hl] at h
      dsimp only
      rw [if_neg (by omega)]
      have := go u rfl
      rw [hl] at this
      simpa [hl] using this

/-- Lines written in turn into a queue with room for them. -/
theorem linesWrite_see (c a : Nat) (data : List Byte) (p : Bool) : ∀ (ls : List Nat) (u : State),
    (u.chan c).wq.length + ls.length ≤ 64 → ∀ x,
    ((ls.foldl (fun t l => t.lineWrite c l (lineBytes a l data) p) u).chan c).see x =
      if x / 64 ∈ ls ∧ a ≤ x ∧ x < a + data.length then data.getD (x - a) 0#8 else (u.chan c).see x
  | [], u, _, x => by simp
  | l :: t, u, h, x => by
    have h' : (u.chan c).wq.length + t.length + 1 ≤ 64 := by simpa [Nat.add_assoc] using h
    obtain ⟨h1, h2⟩ := lineWrite_see u c a l data p (by omega) x
    rw [List.foldl_cons, linesWrite_see c a data p t _ (by omega) x, h1]
    by_cases hr : a ≤ x ∧ x < a + data.length
    · by_cases hl : x / 64 = l <;> by_cases ht : x / 64 ∈ t <;> simp [hr, hl, ht]
    · simp [hr]

theorem mem_lineSpan (a n x : Nat) (h1 : a ≤ x) (h2 : x < a + n) : x / 64 ∈ lineSpan a n := by
  unfold lineSpan
  rw [List.mem_map]
  exact ⟨x / 64 - a / 64, List.mem_range.mpr (by omega), by omega⟩

/-- The patrol's next line of a rank (R321). -/
def patrolNext (u : State) (c r : Nat) : Nat :=
  if tgetD 0 (u.chan c).scrub r + 1 < 2 ^ (cfgRow (u.memCfg c) + 11) then tgetD 0 (u.chan c).scrub r + 1 else 0

/-- R321: the patrol of a rank moves on by a line. -/
theorem scrubAdvance_eq (u : State) (c r : Nat) : ∃ q,
    u.scrubAdvance c r = u.setChan c { u.chan c with scrub := tsetD 0 (u.chan c).scrub r (patrolNext u c r), scrubbed := q } ∨
    u.scrubAdvance c r = (u.setChan c { u.chan c with
      scrub := tsetD 0 (u.chan c).scrub r (patrolNext u c r), scrubbed := q }).bump (memBase c + 0x58) := by
  unfold State.scrubAdvance patrolNext
  dsimp only
  split
  · exact ⟨_, Or.inl rfl⟩
  · generalize (if r ∈ (u.chan c).scrubbed then (u.chan c).scrubbed else (u.chan c).scrubbed ++ [r]) = d
    split
    · exact ⟨_, Or.inr rfl⟩
    · exact ⟨_, Or.inl rfl⟩

/-- The end of an episode touches its own channel alone, and there no line, no queue and no waiting request. -/
theorem refreshScrub_rest (u : State) (c r : Nat) : ∃ x : Chan,
    (u.refreshScrub c r).chan c = x ∧ (∀ k, k ≠ c → (u.refreshScrub c r).chan k = u.chan k) ∧
    (u.refreshScrub c r).bays = u.bays ∧ (u.refreshScrub c r).out = u.out ∧
    x.episodes = (u.chan c).episodes.filter (· ≠ r) ∧ x.state = (u.chan c).state ∧ x.mem = (u.chan c).mem ∧
      x.waits = (u.chan c).waits ∧ x.wq = (u.chan c).wq := by
  unfold State.refreshScrub
  dsimp only
  generalize hv : u.setChan c { u.chan c with episodes := (u.chan c).episodes.filter (· ≠ r) } = v
  have vc : v.chan c = { u.chan c with episodes := (u.chan c).episodes.filter (· ≠ r) } := by rw [← hv, State.chan_setChan]
  have vk : ∀ k, k ≠ c → v.chan k = u.chan k := fun k hk => by rw [← hv, State.chan_setChan_ne _ _ hk]
  have vb : v.bays = u.bays := by rw [← hv]; rfl
  have vo : v.out = u.out := by rw [← hv]; rfl
  split
  · rw [vc]
    exact ⟨_, State.chan_setChan _ _ _, fun k hk => (State.chan_setChan_ne _ _ hk).trans (vk k hk), vb, vo, rfl, rfl, rfl, rfl, rfl⟩
  · split
    · obtain ⟨r1, -, b, r3⟩ := lineCheck_rest (C := fun k => k = c) v c (v.rankLine c r (tgetD 0 (u.chan c).scrub r)) rfl
      have ro : (v.lineCheck c (v.rankLine c r (tgetD 0 (u.chan c).scrub r))).1.out = v.out := lineCheck_out _ _ _
      generalize (v.lineCheck c (v.rankLine c r (tgetD 0 (u.chan c).scrub r))).1 = w at r1 r3 ro ⊢
      obtain ⟨q, e⟩ := scrubAdvance_eq w c r
      generalize patrolNext w c r = N at e
      rw [r3, vc] at e
      refine ⟨{ u.chan c with
        episodes := (u.chan c).episodes.filter (· ≠ r), back := b, scrub := tsetD 0 (u.chan c).scrub r N, scrubbed := q }, ?_,
        fun k hk => ?_, ?_, ?_, rfl, rfl, rfl, rfl, rfl⟩
      · rcases e with e | e <;> rw [e]
        · exact State.chan_setChan _ _ _
        · exact State.chan_setChan _ _ _
      · rcases e with e | e <;> rw [e]
        · exact (State.chan_setChan_ne _ _ hk).trans ((r1.chan hk).trans (vk k hk))
        · exact (State.chan_setChan_ne _ _ hk).trans ((r1.chan hk).trans (vk k hk))
      · rcases e with e | e <;> rw [e] <;> exact r1.bays.trans vb
      · rcases e with e | e <;> rw [e] <;> exact ro.trans vo
    · exact ⟨_, vc, vk, vb, vo, rfl, rfl, rfl, rfl, rfl⟩

/-- R319: a corrected line of the rank is written back in its episode. -/
theorem refreshScrub_back (u : State) (c r l : Nat)
    (h : (u.chan c).back.find? (fun l => decide (u.rankOf (l * 64) = r)) = some l) :
    ((u.refreshScrub c r).chan c).back = (u.chan c).back.filter (· ≠ l) ∧
      (markOf (u.chan c).marks l % 4 = 1 → markOf ((u.refreshScrub c r).chan c).marks l = 0) := by
  unfold State.refreshScrub
  dsimp only
  rw [h]
  dsimp only
  rw [State.chan_setChan, State.chan_setChan]
  dsimp only
  refine ⟨rfl, fun h => ?_⟩
  rw [if_pos h]
  exact tgetD_tsetD_same _ _ _ _

/-- R321: else the patrol reads a line of it. -/
theorem refreshScrub_patrol (u : State) (c r : Nat)
    (h : (u.chan c).back.find? (fun l => decide (u.rankOf (l * 64) = r)) = none) (h3 : bitAt (u.reg (memBase c + 4)) 3 = true) :
    tgetD 0 ((u.refreshScrub c r).chan c).scrub r = patrolNext u c r := by
  unfold State.refreshScrub
  dsimp only
  rw [h]
  dsimp only
  rw [if_pos h3]
  generalize hv : u.setChan c { u.chan c with episodes := (u.chan c).episodes.filter (· ≠ r) } = v
  have vc : v.chan c = { u.chan c with episodes := (u.chan c).episodes.filter (· ≠ r) } := by rw [← hv, State.chan_setChan]
  have vm : v.memCfg c = u.memCfg c := by rw [← hv]; rfl
  obtain ⟨r1, -, b, r3⟩ := lineCheck_rest (C := fun k => k = c) v c (v.rankLine c r (tgetD 0 (u.chan c).scrub r)) rfl
  generalize (v.lineCheck c (v.rankLine c r (tgetD 0 (u.chan c).scrub r))).1 = w at r1 r3 ⊢
  have n : patrolNext w c r = patrolNext u c r := by
    unfold patrolNext
    rw [r1.memCfg, vm, r3, vc]
  obtain ⟨q, e⟩ := scrubAdvance_eq w c r
  rw [n] at e
  generalize patrolNext u c r = N at e ⊢
  rcases e with e | e <;> rw [e]
  · rw [State.chan_setChan]; exact tgetD_tsetD_same _ _ _ _
  · rw [State.chan_of_bump, State.chan_setChan]; exact tgetD_tsetD_same _ _ _ _

/-! ## What leaves the device -/

theorem ddrError_out (u : State) (c l d : Nat) (ue : Bool) : (u.ddrError c l d ue).out = u.out := by
  unfold State.ddrError
  dsimp only
  rw [record_out]
  rfl

theorem channelTime_out (u : State) (c ns : Nat) : (u.channelTime c ns).out = u.out := by
  unfold State.channelTime
  dsimp only
  generalize (if 1023 ≤ ns then 1023 else ns) = m
  split <;> split <;> rfl

theorem lineRead_out (u : State) (c l : Nat) : (u.lineRead c l).1.out = u.out := by
  have p : ∀ (w : State) e, (w.queuedPoison c e).out = w.out := fun w e => by unfold State.queuedPoison; split <;> rfl
  unfold State.lineRead
  split
  · split
    · exact p _ _
    · dsimp only
      split
      · exact lineCheck_out _ _ _
      · rw [p]; exact lineCheck_out _ _ _
  · exact lineCheck_out _ _ _

theorem readLines_out (c a : Nat) : ∀ (l : List Nat) (u : State), (u.readLines c a l).1.out = u.out
  | [], _ => rfl
  | x :: t, u => by
    rw [State.readLines]
    exact (readLines_out c a t _).trans (lineRead_out u c x)

theorem drainLine_out (u : State) (c : Nat) (e : WLine) : (u.drainLine c e).out = u.out := by
  unfold State.drainLine
  split
  · rfl
  · exact lineCheck_out _ _ _

theorem lineWrite_out (u : State) (c l : Nat) (bs : List (Nat × Byte)) (p : Bool) : (u.lineWrite c l bs p).out = u.out := by
  unfold State.lineWrite
  dsimp only
  split
  · rfl
  · split
    · split
      · exact drainLine_out _ _ _
      · rfl
    · rfl

theorem linesWrite_out (c a : Nat) (data : List Byte) (p : Bool) : ∀ (ls : List Nat) (u : State),
    (ls.foldl (fun t l => t.lineWrite c l (lineBytes a l data) p) u).out = u.out
  | [], _ => rfl
  | l :: t, u => by
    rw [List.foldl_cons]
    exact (linesWrite_out c a data p t _).trans (lineWrite_out u c l _ p)

theorem wildRead_out (u : State) (a n : Nat) : (u.wildRead a n).1.out = u.out := by
  unfold State.wildRead
  dsimp only
  rw [(drawWords_rest (C := fun _ => False) _ _).2.1]
  split
  · rw [ddrError_out]; exact (drawWords_rest (C := fun _ => False) _ _).2.1
  · rw [ddrError_out]; exact (drawWords_rest (C := fun _ => False) _ _).2.1
  · exact (drawWords_rest (C := fun _ => False) _ _).2.1

/-- R314, R318, R326: what a poll of the DIMM sensors leaves. -/
theorem tempPoll_eq (u : State) (c t0 t1 : Nat) :
    let h := sbyte (hotter (u.memCfg c) t0 t1)
    let y := u.chan c
    let n := if y.state = 2 ∧ y.retrain = 0 ∧ (10 ≤ h - sbyte y.ttrain ∨ h - sbyte y.ttrain ≤ -10) then 1 else y.retrain
    let f := if 83 < h then true else if h ≤ 80 then false else y.fast
    let m := if bitAt (u.memCfg c) 25 then t1 % 256 else 0
    let x := u.setChan c { y with t0 := t0 % 256, t1 := m, fast := f, alarm := decide (95 ≤ h), retrain := n }
    u.tempPoll c t0 t1 = if 95 ≤ h ∧ y.alarm = false then x.event (memBase c + 0x20) 5 else x := by
  dsimp only
  unfold State.tempPoll
  dsimp only
  simp only [decide_eq_true_eq, Bool.and_eq_true, Bool.not_eq_true']

end Sys2Proof.Laws.Channels
end

