-- ==== Sys2Proof/Laws/Queues.lean ====
section
/-!
SUPPORT. Messages: when a queue takes one in, what its entry changes, and how one under way is settled.
-/
namespace Sys2Proof.Machine

theorem State.takeIn_ok (s : State) (q : Nat) (m : Msg) (ovf : Bool) (h : s.qmRuns = true) (h0 : (s.queue q).state ≠ 0)
    (h3 : (s.queue q).state ≠ 3) (hf : s.fullFor (s.queue q) m.cells m.notice = false)
    (hp : s.place (s.queue q) m.cells m.notice = some ovf) : s.takeIn q m = (s.enter q m ovf, 0) := by
  unfold State.takeIn
  dsimp only
  rw [if_neg (by simp [h, h0, h3]), if_neg (by simp [hf]), hp]

theorem State.takeIn_full (s : State) (q : Nat) (m : Msg) (h : s.qmRuns = true) (h0 : (s.queue q).state ≠ 0)
    (h3 : (s.queue q).state ≠ 3) (hf : s.fullFor (s.queue q) m.cells m.notice = true) : s.takeIn q m = (s, 1) := by
  unfold State.takeIn
  dsimp only
  rw [if_neg (by simp [h, h0, h3]), if_pos hf]

theorem State.fillEvent_rest (s : State) (a : Nat) (o : Bool) : ∃ r, s.fillEvent a o = { s with regs := r } := by
  unfold State.fillEvent
  split
  · split
    · exact ⟨_, rfl⟩
    · exact ⟨s.regs, rfl⟩
  · split
    · exact ⟨_, rfl⟩
    · exact ⟨s.regs, rfl⟩

theorem State.enter_eq (s : State) (q : Nat) (m : Msg) (ovf : Bool) :
    (s.enter q m ovf).queue q = { s.queue q with
        msgs := (s.queue q).msgs ++ [{ m with commit := s.qm.commits, inOvf := ovf, agent := (s.queue q).home }],
        inOvf := (s.queue q).inOvf + nbit ovf, silent := (s.queue q).silent && m.notice } ∧
      (∀ j, j ≠ q → (s.enter q m ovf).queue j = s.queue j) ∧ (s.enter q m ovf).bays = s.bays ∧
      (s.enter q m ovf).qm.commits = s.qm.commits + 1 ∧ (s.enter q m ovf).qm.transit = s.qm.transit := by
  have tk : ∀ (m : Qm) a o c, ∃ u v, m.take a o c = { m with used := u, ovf := v } := by
    intro m a o c; unfold Qm.take; split
    · exact ⟨m.used, _, rfl⟩
    · exact ⟨_, m.ovf, rfl⟩
  have e : ∃ u v r, s.enter q m ovf = { s with
      qm := { s.qm with queues := tsetD {} s.qm.queues q { s.queue q with
        msgs := (s.queue q).msgs ++ [{ m with commit := s.qm.commits, inOvf := ovf, agent := (s.queue q).home }],
        inOvf := (s.queue q).inOvf + nbit ovf, silent := (s.queue q).silent && m.notice },
                        used := u, ovf := v, commits := s.qm.commits + 1 },
      regs := r } := by
    unfold State.enter State.bump State.setQueue
    dsimp only
    obtain ⟨u, v, h⟩ := tk { s.qm with queues := tsetD {} s.qm.queues q { s.queue q with
        msgs := (s.queue q).msgs ++ [{ m with commit := s.qm.commits, inOvf := ovf, agent := (s.queue q).home }],
        inOvf := (s.queue q).inOvf + nbit ovf, silent := (s.queue q).silent && m.notice } } (s.queue q).home ovf m.cells
    rw [h]
    obtain ⟨r, hr⟩ := State.fillEvent_rest { s with
      qm := { s.qm with queues := tsetD {} s.qm.queues q { s.queue q with
        msgs := (s.queue q).msgs ++ [{ m with commit := s.qm.commits, inOvf := ovf, agent := (s.queue q).home }],
        inOvf := (s.queue q).inOvf + nbit ovf, silent := (s.queue q).silent && m.notice },
                        used := u, ovf := v, commits := s.qm.commits + 1 } } (s.queue q).home ovf
    rw [hr]
    exact ⟨u, v, _, rfl⟩
  obtain ⟨u, v, r, e⟩ := e
  rw [e]
  exact ⟨tgetD_tsetD_same _ _ _ _, fun j hj => tgetD_tsetD_ne _ _ _ hj, rfl, rfl, rfl⟩

theorem State.settle_none (s : State) (i : Nat) (t : Transit) (h : t.bay = none) :
    s.settleTransit i t = { s with qm := { s.qm with transit := s.qm.transit.eraseIdx i } } := by
  unfold State.settleTransit; rw [h]

theorem State.settle_some (s : State) (i b : Nat) (t : Transit) (h : t.bay = some b) :
    s.settleTransit i t = ({ s with qm := { s.qm with transit := s.qm.transit.eraseIdx i } } : State).onBay b Bay.popSend := by
  unfold State.settleTransit; rw [h]

end Sys2Proof.Machine
end

