-- ==== Sys2Proof/Laws/Doorbells.lean ====
section
/-!
SUPPORT. What doorbells, host rings and descriptor commands do to a state.
-/
namespace Sys2Proof.Laws.Doorbells
open Sys2Proof Sys2Proof.Machine

/-- A write TLP to BAR2 that fits and has no write of BAR4 before it is carried out. -/
theorem bar2_go (s : State) (off : Nat) (data : List Byte) (h1 : s.hb.up = true) (h2 : s.hb.d3 = false)
    (h3 : s.writeBad off data.length = false) (h4 : s.outerHead 0 = none) : s.bar2Write off data false = s.bar2Put off data := by
  unfold State.bar2Write
  rw [if_neg (by simp [h1]), if_neg (by simp [h2]), if_neg (by simp [h3]), if_neg (by decide), if_neg (by simp [h4])]

/-- Inside one page nothing of up to Max_Payload_Size is malformed. -/
theorem writeBad_page (s : State) (q o n : Nat) (h : o + n ≤ 4096) (h0 : n ≠ 0) (hm : n ≤ s.hb.mps) :
    s.writeBad (q * 0x1000 + o) n = false := by
  unfold State.writeBad tlpBad
  simp
  omega

theorem wordsOf_length : ∀ (n : Nat) (l : List Byte), l.length = 4 * n → (wordsOf l).length = n
  | 0, l, h => by
    have : l = [] := List.length_eq_zero_iff.mp (by omega)
    subst this; rfl
  | n + 1, l, h => by
    match l, h with
    | a :: b :: c :: d :: t, h =>
      have := wordsOf_length n t (by simp at h; omega)
      simp [wordsOf, this]

/-- The word of four bytes written out. -/
theorem headD_bytes (w : Word) : (wordsOf (toBytes 4 w.toNat)).headD 0#32 = w := by
  simp only [toBytes, wordsOf, List.headD_cons]
  apply BitVec.eq_of_toNat_eq
  simp [ofBytes, wd]
  have := w.isLt
  omega

theorem commitNow_ok (s : State) (q k : Nat) (p : Producer) (ws : List Word) (ovf : Bool) (h : s.qmRuns = true)
    (hw : ws.length = 16 * k) (h0 : (s.queue q).state ≠ 0) (h3 : (s.queue q).state ≠ 3)
    (hf : s.fullFor (s.queue q) k false = false) (hp : s.place (s.queue q) k false = some ovf) :
    s.commitNow q p ws = (s.enter q (p.message s.devId ws []) ovf, 0) := by
  have c : (p.message s.devId ws []).cells = k := by simp [Producer.message, hw]
  unfold State.commitNow
  dsimp only
  rw [State.takeIn_ok s q _ ovf h h0 h3 (by rw [c]; exact hf) (by rw [c]; exact hp), if_pos rfl]

theorem head_in (u : State) (q : Nat) (v : Word) (hq : q < 65536) (h3 : u.qmRuns = true) (hb : (u.queue q).bind = 2)
    (h4 : (fld v 0 16 + 65536 - (u.ring ((u.queue q).target % 256)).head) % 65536 ≤
        ((u.ring ((u.queue q).target % 256)).tail + 65536 - (u.ring ((u.queue q).target % 256)).head) % 65536) :
    u.doorbellHead q v = u.setRing ((u.queue q).target % 256) { u.ring ((u.queue q).target % 256) with head := fld v 0 16 } := by
  have m : q % 65536 = q := by omega
  unfold State.doorbellHead
  dsimp only
  rw [m, if_neg (by simp [h3, hb]), if_pos h4]

theorem head_out (u : State) (q : Nat) (v : Word) (hq : q < 65536) (h3 : u.qmRuns = true) (hb : (u.queue q).bind = 2)
    (h4 : ¬ (fld v 0 16 + 65536 - (u.ring ((u.queue q).target % 256)).head) % 65536 ≤
        ((u.ring ((u.queue q).target % 256)).tail + 65536 - (u.ring ((u.queue q).target % 256)).head) % 65536) :
    u.doorbellHead q v = u := by
  have m : q % 65536 = q := by omega
  unfold State.doorbellHead
  dsimp only
  rw [m, if_neg (by simp [h3, hb]), if_neg h4]

theorem ring_setRing (s : State) (n : Nat) (r : Ring) : (s.setRing n r).ring n = r := tgetD_tsetD_same _ _ _ _

theorem freeMsg_eq (u : State) (q : Nat) (m : Msg) :
    (u.freeMsg q m).queue q = { u.queue q with inOvf := (u.queue q).inOvf - nbit m.inOvf } ∧
      (∀ j, j ≠ q → (u.freeMsg q m).queue j = u.queue j) ∧ (u.freeMsg q m).qm.rings = u.qm.rings ∧
      (u.freeMsg q m).bays = u.bays ∧ (u.freeMsg q m).regs = u.regs ∧ (u.freeMsg q m).out = u.out ∧
      (u.freeMsg q m).hb = u.hb := by
  have gv : ∀ (z : Qm) a o c, ∃ x y, z.give a o c = { z with used := x, ovf := y } := by
    intro z a o c; unfold Qm.give; split
    · exact ⟨z.used, _, rfl⟩
    · exact ⟨_, z.ovf, rfl⟩
  unfold State.freeMsg
  dsimp only
  obtain ⟨x, y, h⟩ := gv (u.setQueue q { u.queue q with inOvf := (u.queue q).inOvf - nbit m.inOvf }).qm m.agent m.inOvf m.cells
  rw [h]
  exact ⟨State.queue_setQueue u q _, fun j hj => State.queue_setQueue_ne u _ hj, rfl, rfl, rfl, rfl, rfl⟩

/-- Posted writes are sent, and change nothing else. -/
theorem hostWrites_eq (s : State) (a : Nat) (data : List Byte) :
    s.hostWrites a data = { s with out := s.out ++ hostPieces s.hb.mps a data } := by
  have k : ∀ (f : Nat → Out) (l : List Nat) (u : State), l.foldl (fun t i => t.emit (f i)) u = { u with out := u.out ++ l.map f } := by
    intro f l
    induction l with
    | nil => intro u; simp
    | cons x l ih => intro u; rw [List.foldl_cons, ih]; simp [State.emit]
  unfold State.hostWrites hostPieces
  rw [k]

/-- What the end of a ring's write, or of its window, sends: the message of the ring, where one is due now. -/
theorem ringSend_eq (s : State) (n : Nat) :
    (s.ringSend n).out = s.out ++ s.ringMessage n ∧ (s.ringSend n).qm.queues = s.qm.queues ∧ (s.ringSend n).bays = s.bays ∧
      (s.ringSend n).regs = s.regs ∧ (s.ringSend n).ring n = { s.ring n with
        waits := false, masked := s.hb.msixOn && s.hb.maskedV (fld (s.hrCfg n) 12 11),
        window := !(s.hb.msixOn && s.hb.maskedV (fld (s.hrCfg n) 12 11)) && s.hb.msixOn && decide (fld (s.hrCfg n) 24 8 ≠ 0) } := by
  have g : ∀ v, (s.signal v).out = s.out ++ (if s.hb.msixOn && !s.hb.maskedV v then
        [.msix v ((s.hb.entry (4 * v)).toNat + (s.hb.entry (4 * v + 1)).toNat * 2 ^ 32) (s.hb.entry (4 * v + 2))] else []) ∧
      (s.signal v).qm = s.qm ∧ (s.signal v).bays = s.bays ∧ (s.signal v).regs = s.regs := by
    intro v
    unfold State.signal
    cases h1 : s.hb.msixOn <;> cases h2 : s.hb.maskedV v <;> simp [State.emit]
  obtain ⟨g1, g2, g3, g4⟩ := g (fld (s.hrCfg n) 12 11)
  unfold State.ringSend State.ringMessage
  dsimp only
  exact ⟨g1, show (s.signal (fld (s.hrCfg n) 12 11)).qm.queues = s.qm.queues by rw [g2], g3, g4, ring_setRing _ _ _⟩

/-- A status entry has been written: in the window the message waits, else it goes. -/
theorem ringNotify_eq (s : State) (n : Nat) :
    (s.ringNotify n).out = s.out ++ (if (s.ring n).window then [] else s.ringMessage n) ∧
      (s.ringNotify n).qm.queues = s.qm.queues ∧ (s.ringNotify n).bays = s.bays ∧ (s.ringNotify n).regs = s.regs ∧
      ((s.ringNotify n).ring n).seq = (s.ring n).seq ∧ ((s.ringNotify n).ring n).head = (s.ring n).head ∧
      ((s.ringNotify n).ring n).tail = (s.ring n).tail := by
  unfold State.ringNotify
  dsimp only
  cases hw : (s.ring n).window with
  | true =>
    rw [if_pos rfl, if_pos rfl, List.append_nil]
    exact ⟨rfl, rfl, rfl, rfl, by rw [ring_setRing], by rw [ring_setRing], by rw [ring_setRing]⟩
  | false =>
    rw [if_neg (by decide), if_neg (by decide)]
    obtain ⟨g1, g2, g3, g4, g5⟩ := ringSend_eq s n
    exact ⟨g1, g2, g3, g4, by rw [g5], by rw [g5], by rw [g5]⟩

/-- The next message of a ring with a free slot is written: its slot, its status entry, and the message of the ring. -/
theorem ringWrite_ok (u : State) (n q : Nat) (m : Msg) (rest : List Msg) (h1 : u.qmRuns = true)
    (h2 : bitAt (u.hrCfg n) 8 = true) (h3 : u.hb.up = true) (h4 : u.hb.d3 = false)
    (h5 : ((u.ring n).tail + 65536 - (u.ring n).head) % 65536 < 2 ^ fld (u.hrCfg n) 0 4) (h6 : u.ringQueue n = some q)
    (h7 : (u.queue q).msgs = m :: rest) (h8 : (u.queue q).state = 1) :
    (u.ringWrite n).out = u.out ++ hostPieces u.hb.mps (u.hostAddr (0x31000 + 0x20 * n) + 256 * ((u.ring n).tail % 2 ^ fld (u.hrCfg n) 0 4))
          (bytesOf (m.words.take (16 * m.cells))) ++
        hostPieces u.hb.mps (u.hostAddr (0x31008 + 0x20 * n) + 8 * ((u.ring n).tail % 2 ^ fld (u.hrCfg n) 0 4))
          (toBytes 8 (u.statusEntry q (((u.ring n).seq + 1) % 65536) (fld (u.hrCfg n) 0 4) (u.ring n).tail m)) ++
        (if (u.ring n).window then [] else u.ringMessage n) ∧
      ((u.ringWrite n).queue q).msgs = rest ∧ (∀ j, j ≠ q → (u.ringWrite n).queue j = u.queue j) ∧
      (u.ringWrite n).bays = u.bays ∧ (u.ringWrite n).regs = u.regs ∧ ((u.ringWrite n).ring n).seq = ((u.ring n).seq + 1) % 65536 ∧
      ((u.ringWrite n).ring n).tail = ((u.ring n).tail + 1) % 65536 ∧ ((u.ringWrite n).ring n).head = (u.ring n).head := by
  have a : 0x31000 + 0x20 * n + 8 = 0x31008 + 0x20 * n := by omega
  obtain ⟨f1, f2, f3, f4, f5, f6, f7⟩ := freeMsg_eq (u.setQueue q { u.queue q with msgs := rest }) q m
  generalize hw : (u.setQueue q { u.queue q with msgs := rest }).freeMsg q m = w at f1 f2 f3 f4 f5 f6 f7
  generalize ha : u.hostAddr (0x31000 + 0x20 * n) + 256 * ((u.ring n).tail % 2 ^ fld (u.hrCfg n) 0 4) = a1
  generalize hc : u.hostAddr (0x31008 + 0x20 * n) + 8 * ((u.ring n).tail % 2 ^ fld (u.hrCfg n) 0 4) = a2
  generalize hd : bytesOf (m.words.take (16 * m.cells)) = d1
  generalize he : toBytes 8 (u.statusEntry q (((u.ring n).seq + 1) % 65536) (fld (u.hrCfg n) 0 4) (u.ring n).tail m) = d2
  generalize hr : ({ u.ring n with seq := ((u.ring n).seq + 1) % 65536, tail := ((u.ring n).tail + 1) % 65536 } : Ring) = r
  have e : u.ringWrite n = (((w.hostWrites a1 d1).hostWrites a2 d2).setRing n r).ringNotify n := by
    unfold State.ringWrite
    dsimp only
    rw [if_neg (by simp [h1, h2, h3, h4]; omega), h6]
    dsimp only
    rw [h7]
    dsimp only
    rw [if_neg (by simp [h8]), a, hw, ha, hc, hd, he, hr]
  have mp : w.hb.mps = u.hb.mps := congrArg Hb.mps f7
  rw [e, hostWrites_eq, hostWrites_eq]
  generalize hz : State.setRing _ n r = z
  obtain ⟨g1, g2, g3, g4, g5, g6, g7⟩ := ringNotify_eq z n
  have zr : z.ring n = r := by rw [← hz]; exact ring_setRing _ _ _
  have zm : z.ringMessage n = u.ringMessage n := by
    have x1 : z.hb = u.hb := by rw [← hz]; exact f7
    have x2 : z.hrCfg n = u.hrCfg n := by
      rw [← hz]
      show tget regReset w.regs.words _ = tget regReset u.regs.words _
      rw [f5]; rfl
    unfold State.ringMessage
    rw [x1, x2]
  have wd' : r.window = (u.ring n).window := by rw [← hr]
  have zo : z.out = u.out ++ hostPieces u.hb.mps a1 d1 ++ hostPieces u.hb.mps a2 d2 := by
    rw [← hz]
    show w.out ++ hostPieces w.hb.mps a1 d1 ++ hostPieces w.hb.mps a2 d2 = _
    rw [mp, f6]; rfl
  have qs : ∀ j, (z.ringNotify n).queue j = w.queue j := by
    intro j
    show tgetD _ (z.ringNotify n).qm.queues j = _
    rw [g2, ← hz]; rfl
  refine ⟨?_, ?_, fun j hj => ?_, ?_, ?_, ?_, ?_, ?_⟩
  · rw [g1, zo, zr, zm, wd']
  · rw [qs, f1]
    show ((u.setQueue q { u.queue q with msgs := rest }).queue q).msgs = rest
    rw [State.queue_setQueue]
  · rw [qs]
    exact (f2 j hj).trans (State.queue_setQueue_ne u _ hj)
  · rw [g3, ← hz]; exact f4
  · rw [g4, ← hz]; exact f5
  · rw [g5, zr, ← hr]
  · rw [g7, zr, ← hr]
  · rw [g6, zr, ← hr]

theorem descRead_ok (u : State) (h1 : u.qmRuns = true) (h2 : u.raiseLocks = false) (x : Queue)
    (hx : u.queue (fld (u.reg 0x30010) 0 16) = x) :
    u.descRead = { ((((u.setReg 0x30014 x.w0).setReg 0x30018 x.w1).setReg 0x3001C x.w2).setReg 0x30020 x.w3) with
      qm := { u.qm with ddepth := x.cells, dres := 0 } } := by
  unfold State.descRead
  rw [if_neg (by simp [h1, h2])]
  dsimp only
  rw [hx]
  rfl

theorem descWrite_ok (u : State) (h1 : u.qmRuns = true) (h2 : u.raiseLocks = false)
    (h : u.descCheck (fld (u.reg 0x30010) 0 16) u.descData = 0) :
    u.descWrite = (u.descApply (fld (u.reg 0x30010) 0 16) u.descData).dResult 0 := by
  unfold State.descWrite
  rw [if_neg (by simp [h1, h2])]
  dsimp only
  rw [h]
  rfl

theorem descWrite_no (u : State) (n : Nat) (h1 : u.qmRuns = true) (h2 : u.raiseLocks = false)
    (h : u.descCheck (fld (u.reg 0x30010) 0 16) u.descData = n + 1) : u.descWrite = u.dResult (n + 1) := by
  unfold State.descWrite
  rw [if_neg (by simp [h1, h2])]
  dsimp only
  rw [h]
  rfl

theorem descApply_stays (u : State) (q : Nat) (ws : List Word)
    (h : ((u.queue q).withDesc ws).state ≠ 0 ∨ (u.queue q).state = 0) :
    (u.descApply q ws).queue q = (u.queue q).withDesc ws ∧ ∀ j, j ≠ q → (u.descApply q ws).queue j = u.queue j := by
  unfold State.descApply
  rw [if_neg (by rintro ⟨a, b⟩; rcases h with h | h <;> contradiction)]
  exact ⟨State.queue_setQueue u q _, fun j hj => State.queue_setQueue_ne u _ hj⟩

theorem descWritep_ok (u : State) (h1 : u.qmRuns = true) (h2 : u.raiseLocks = false)
    (h : u.descCheck (fld (u.reg 0x30010) 0 16) u.descData = 0) (h3 : u.qm.pend.length < 16) :
    u.descWritep = { u with qm := { u.qm with
          pend := u.qm.pend ++ [PendWrite.mk (fld (u.reg 0x30010) 0 16) u.descData], dres := 0 } } := by
  unfold State.descWritep
  rw [if_neg (by simp [h1, h2])]
  dsimp only
  rw [h]
  rw [if_neg (by omega)]
  rfl

theorem reg_qm (x : State) (m : Qm) (a : Nat) : ({ x with qm := m } : State).reg a = x.reg a := rfl

theorem ringCfg_set (u : State) (n : Nat) (v : Word) (h : bitAt (u.hrCfg n) 8 = false) (hk : 4 ≤ fld v 0 4) :
    u.ringCfg n (v ||| 0x100#32) = (u.setReg (0x31010 + 0x20 * n) ((v ||| 0x100#32) &&& 0xFF7FF10F#32)).setRing n
        { u.ring n with seq := 0, head := 0, tail := 0 } := by
  have b8 : bitAt (v ||| 0x100#32) 8 = true := by simp [bitAt]
  have f : fld ((v ||| 0x100#32) &&& 0xFF7FF10F#32) 0 4 = fld v 0 4 := by
    have e : ∀ w : Word, fld w 0 4 = (w.setWidth 4).toNat := by
      intro w; simp [fld, BitVec.toNat_setWidth]
    rw [e, e]
    congr 1
    apply BitVec.eq_of_getLsbD_eq
    intro i hi
    have : i = 0 ∨ i = 1 ∨ i = 2 ∨ i = 3 := by omega
    rcases this with rfl | rfl | rfl | rfl <;> simp
  have c1 : decide (fld ((v ||| 0x100#32) &&& 0xFF7FF10F#32) 0 4 < 4) = false := by
    rw [f]; simp; omega
  unfold State.ringCfg
  simp only [c1, b8, h, Bool.or_self, Bool.not_false, Bool.and_self, if_true, Bool.false_eq_true, if_false]
  rfl

theorem ringCfg_clear (u : State) (n : Nat) (v : Word) (h : bitAt (u.hrCfg n) 8 = true) :
    u.ringCfg n (v &&& 0xFFFFFEFF#32) = u.setReg (0x31010 + 0x20 * n)
        (putFld ((v &&& 0xFFFFFEFF#32) &&& 0xFF7FF10F#32) 0 4 (fld (u.hrCfg n) 0 4)) := by
  unfold State.ringCfg
  simp only [h, Bool.true_or, if_true, Bool.not_true, Bool.and_false, Bool.false_eq_true, if_false]

theorem timeout_ok (u : State) (q : Nat) (ovf : Bool) (h1 : u.qmRuns = true) (h2 : u.rsu.raised = true)
    (h3 : (u.queue q).tmo ≠ 0) (h4 : (u.queue q).silent = false) (h5 : (u.queue q).state = 1)
    (h6 : u.pathRetry (u.queue q) = false) (h7 : u.fullFor (u.queue q) 1 true = false)
    (h8 : u.place (u.queue q) 1 true = some ovf) :
    u.queueTimeout q = (u.enter q (noticeMsg u.devId (noticeCell 1 (u.globalOf q) 0 0#32 u.qm.us)) ovf).bump 0x30070 := by
  unfold State.queueTimeout
  dsimp only
  rw [if_neg (by simp [h1, h2, h3, h4, h5, h6])]
  unfold State.postLocal
  dsimp only
  rw [State.takeIn_ok u q (noticeMsg u.devId (noticeCell 1 (u.globalOf q) 0 0#32 u.qm.us)) ovf h1 (by omega) (by omega) h7 h8,
    if_pos rfl]

end Sys2Proof.Laws.Doorbells
end

