-- ==== Sys2Proof/Laws/Rom.lean ====
section
/-!
SUPPORT. What the boot ROM's steps TRIM and SELFTEST, and its failed start, do to a state.
-/
namespace Sys2Proof.Laws.Rom
open Sys2Proof Sys2Proof.Machine

/-- MX_BOOT with STAGE taken from v. -/
def stageWord (r v : Word) : Word := (r &&& ~~~ 0xFF00#32) ||| (v &&& 0xFF00#32)

theorem stage_fld (r v : Word) : fld (stageWord r v) 8 8 = fld v 8 8 := by
  unfold fld stageWord
  refine Nat.eq_of_testBit_eq fun j => ?_
  rw [Nat.testBit_mod_two_pow, Nat.testBit_mod_two_pow, Nat.testBit_div_two_pow, Nat.testBit_div_two_pow]
  by_cases c : j < 8
  · have m : (0xFF00#32).getLsbD (j + 8) = true := by
      have : ∀ j : Fin 8, (0xFF00#32).getLsbD (j.1 + 8) = true := by decide
      exact this ⟨j, c⟩
    have : ((r &&& ~~~ 0xFF00#32) ||| (v &&& 0xFF00#32)).getLsbD (j + 8) = v.getLsbD (j + 8) := by
      rw [BitVec.getLsbD_or, BitVec.getLsbD_and, BitVec.getLsbD_and, BitVec.getLsbD_not, m]
      simp
    exact congrArg (fun b => decide (j < 8) && b) this
  · simp [c]

theorem stage_bits (n i : Nat) (h : i < 8) : bitAt (wd (n * 256)) i = false := by
  show (BitVec.ofNat 32 (n * 256)).getLsbD i = false
  rw [BitVec.getLsbD_ofNat, show (256 : Nat) = 2 ^ 8 from rfl, Nat.testBit_mul_two_pow, decide_eq_false (by omega : ¬ 8 ≤ i)]
  simp

theorem stage_eq (u : State) (n : Nat) : u.bootStage n = u.setReg 0xA0104 (stageWord (u.reg 0xA0104) (wd (n * 256))) := by
  unfold State.bootStage State.mxBoot
  rw [if_neg (by decide), stage_bits n 1 (by decide), stage_bits n 0 (by decide)]
  rfl

/-- The ROM waits where it is. -/
theorem begins_stay (u : State) (h : u.mx.boot ≠ .reset ∨ (u.rst.loading = false ∧ u.rst.shored = false)) : u.bootBegins = u := by
  unfold State.bootBegins
  refine if_pos ?_
  rcases h with h | ⟨h1, h2⟩
  · exact Or.inl h
  · rw [h1, h2]; exact Or.inr (Or.inr rfl)

theorem begins_trim (u : State) (h : u.mx.boot = .reset) (hr : u.rst.reach < 4) (hl : u.rst.loading = true) (hv : u.rst.trimValid = false)
    (hs : u.rst.shored = false) :
    u.bootBegins = ({ u with mx := { u.mx with boot := .trim } } : State).setReg 0xA0104 (stageWord (u.reg 0xA0104) 0x100#32) := by
  have e : u.bootBegins = ((u.bootStage 1).bootAt .trim).bootTrimmed := by
    unfold State.bootBegins
    refine if_neg ?_
    rw [h, hl]
    simp; omega
  rw [e, stage_eq]
  unfold State.bootTrimmed
  rw [if_neg (fun c => c rfl), if_neg, if_neg]
  · rfl
  · show ¬ (_ ∧ (!u.rst.loading) = true)
    rw [hl]; simp
  · show ¬ (u.rst.trimValid || u.rst.shored) = true
    rw [hv, hs]; decide

/-- SELFTEST begins, and waits for the security module. -/
theorem trimmed_on (u : State) (h : u.mx.boot = .trim) (hv : u.rst.trimValid = true ∨ u.rst.shored = true) (hs : u.sec.state = 0) :
    u.bootTrimmed = ({ u with mx := { u.mx with boot := .selftest } } : State).setReg 0xA0104 (stageWord (u.reg 0xA0104) 0x200#32) := by
  unfold State.bootTrimmed
  rw [if_neg (fun c => c h), if_pos (by rcases hv with hv | hv <;> rw [hv] <;> simp), stage_eq]
  exact if_pos (Or.inr hs)

theorem trimmed_stay (u : State) (h : u.mx.boot ≠ .trim ∨ (u.rst.trimValid = false ∧ u.rst.shored = false ∧ (u.rst.trimFails ≠ 3 ∨ u.rst.loading = true))) :
    u.bootTrimmed = u := by
  unfold State.bootTrimmed
  by_cases c : u.mx.boot = .trim
  · obtain ⟨h1, h2, h3⟩ := h.resolve_left (fun d => d c)
    rw [if_neg (fun d => d c), h1, h2, if_neg (by decide), if_neg]
    rcases h3 with h3 | h3
    · exact fun d => h3 d.1
    · rw [h3]; simp
  · rw [if_pos c]

theorem begins_shored (u : State) (h : u.mx.boot = .reset) (hr : u.rst.reach < 4) (hs : u.rst.shored = true) (hz : u.sec.state = 0) :
    (u.bootBegins).rst = u.rst ∧ u.bootBegins.mx = { u.mx with boot := .selftest } ∧ u.bootBegins.bays = u.bays ∧ u.bootBegins.sec = u.sec ∧
    u.bootBegins.ddr = u.ddr ∧ fld (u.bootBegins.reg 0xA0104) 8 8 = 2 ∧ ∀ a, a ≠ 0xA0104 → u.bootBegins.reg a = u.reg a := by
  have e : u.bootBegins = ((u.bootStage 1).bootAt .trim).bootTrimmed := by
    unfold State.bootBegins
    refine if_neg ?_
    rw [h, hs]
    simp; omega
  rw [e, trimmed_on _ rfl (by rw [stage_eq]; exact Or.inr hs) (by rw [stage_eq]; exact hz), stage_eq]
  refine ⟨rfl, rfl, rfl, rfl, rfl, ?_, fun a ha => ?_⟩
  · rw [State.reg_setReg, stage_fld]; rfl
  · rw [State.reg_setReg_ne _ _ ha]
    exact State.reg_setReg_ne _ _ ha

/-- A failed start of the ROM: STAGE with bit 7, FAIL, and WAIT. -/
theorem fails_rom (u : State) : u.bootFails.rst = u.failIfStarting.rst ∧ u.bootFails.mx = { u.mx with boot := .over } ∧
    (u.bootFails.bay 256).pipe.waiting = true ∧ (∀ k, k ≠ 256 → u.bootFails.bay k = u.bay k) ∧ u.bootFails.sec = u.sec ∧ u.bootFails.out = u.out ∧
    fld (u.bootFails.reg 0xA0104) 8 8 = 128 + fld (u.reg 0xA0104) 8 7 ∧ ∀ a, a ≠ 0xA0104 → u.bootFails.reg a = u.reg a := by
  obtain ⟨n, hn⟩ : ∃ n, n = fld (u.reg 0xA0104) 8 7 := ⟨_, rfl⟩
  have n1 : n < 128 := by rw [hn]; exact Nat.mod_lt _ (by decide)
  have v1 : bitAt (wd ((n + 128) * 256 + 2)) 1 = true ∧ bitAt (wd ((n + 128) * 256 + 2)) 0 = false ∧ fld (wd ((n + 128) * 256 + 2)) 8 8 = 128 + n := by
    have : ∀ n : Fin 128, bitAt (wd ((n.1 + 128) * 256 + 2)) 1 = true ∧ bitAt (wd ((n.1 + 128) * 256 + 2)) 0 = false ∧
        fld (wd ((n.1 + 128) * 256 + 2)) 8 8 = 128 + n.1 := by decide
    exact this ⟨n, n1⟩
  have e : u.mxBoot .sill (wd ((n + 128) * 256 + 2)) = ({ u with rst := u.failIfStarting.rst } : State).setReg 0xA0104
      (stageWord (u.reg 0xA0104) (wd ((n + 128) * 256 + 2))) := by
    unfold State.mxBoot
    rw [if_neg (by decide), v1.1, v1.2.1]
    dsimp only
    rw [if_pos (show true = true from rfl), if_neg (show ¬ false = true by decide)]
    by_cases c : (u.rst.bootOk || u.rst.failDue) = true
    · have e1 : u.failIfStarting = u := if_pos c
      have e2 : (u.writeRw 0xA0104 0xFF00 (wd ((n + 128) * 256 + 2))).failIfStarting = u.writeRw 0xA0104 0xFF00 (wd ((n + 128) * 256 + 2)) := if_pos c
      rw [e1, e2]; rfl
    · have e1 : u.failIfStarting = u.startFails := if_neg c
      have e2 : (u.writeRw 0xA0104 0xFF00 (wd ((n + 128) * 256 + 2))).failIfStarting = (u.writeRw 0xA0104 0xFF00 (wd ((n + 128) * 256 + 2))).startFails := if_neg c
      rw [e1, e2]; rfl
  have e2 : u.bootFails = ((u.mxBoot .sill (wd ((n + 128) * 256 + 2))).bootAt .over).onBay 256 fun b =>
    { b with pipe := { b.pipe with waiting := true } } := by
    rw [hn]; rfl
  rw [e2, e]
  refine ⟨rfl, rfl, ?_, fun k hk => State.bay_onBay_ne _ _ hk, rfl, rfl, ?_, fun a ha => State.reg_setReg_ne _ _ ha⟩
  · rw [State.bay_onBay]
  · refine (congrArg (fld · 8 8) (State.reg_setReg _ _ _)).trans ?_
    beta_reduce
    rw [stage_fld, v1.2.2, hn]

end Sys2Proof.Laws.Rom
end

