-- ==== Sys2Proof/Laws/Episode.lean ====
section
/-!
SUPPORT. What the release and exit of resets, trims, watchdog and copies do to a state.
-/
namespace Sys2Proof.Laws.Episode
open Sys2Proof Sys2Proof.Machine

theorem row_of {a : Nat} (h : ((regRow a).any fun r => decide (r.kind ≠ .sq)) = true) : ∃ r, regRow a = some r ∧ r.kind ≠ .sq := by
  rw [Option.any_eq_true] at h
  obtain ⟨r, h1, h2⟩ := h
  exact ⟨r, h1, of_decide_eq_true h2⟩

theorem rst_go (u : State) (ag : Agent) (a : Nat) (v : Word) (h : u.reachable a = true) (ha : a = 0x10028 ∨ a = 0x10030 ∨ a = 0x10034) :
    u.regWrite ag a v = u.rstWrite ag a v := by
  have hrow : ((regRow a).any fun r => decide (r.kind ≠ .sq)) = true := by rcases ha with rfl | rfl | rfl <;> decide
  obtain ⟨r, hr, hk⟩ := row_of hrow
  exact u.regWrite_rst ag v h hr hk (by omega) (by omega)

/-- Between u and v only registers and the count of free values differ. -/
def RegRest (u v : State) : Prop := ∃ W f, v = { u with regs := { u.regs with words := W }, free := f }

theorem RegRest.refl (u : State) : RegRest u u := ⟨_, _, rfl⟩

theorem RegRest.trans {u v w : State} (h : RegRest u v) (g : RegRest v w) : RegRest u w := by
  obtain ⟨_, _, rfl⟩ := h
  obtain ⟨_, _, rfl⟩ := g
  exact ⟨_, _, rfl⟩

theorem RegRest.setReg (u : State) (a : Nat) (v : Word) : RegRest u (u.setReg a v) := ⟨_, _, rfl⟩

theorem caps_rest : ∀ (l : List CapEnt) (u : State) (e : Nat), RegRest u (u.writeCaps e l)
  | [], u, e => RegRest.refl _
  | c :: l, u, e => by
    unfold State.writeCaps
    exact ((((RegRest.setReg _ _ _).trans (RegRest.setReg _ _ _)).trans (RegRest.setReg _ _ _)).trans (RegRest.setReg _ _ _)).trans (caps_rest l _ _)

theorem copyTemp_rest (u : State) (n : Nat) : RegRest u (u.copyTemp n) ∧ ∀ a, a ≠ 0x10080 + 4 * n → (u.copyTemp n).reg a = u.reg a := by
  unfold State.copyTemp
  dsimp only
  split
  · exact ⟨⟨_, _, rfl⟩, fun a ha => State.reg_setReg_ne _ _ ha⟩
  · exact ⟨⟨_, _, rfl⟩, fun a ha => State.reg_setReg_ne _ _ ha⟩

theorem temps_rest : ∀ (l : List Nat) (u : State), RegRest u (l.foldl State.copyTemp u) ∧
    ∀ a, (∀ n ∈ l, a ≠ 0x10080 + 4 * n) → (l.foldl State.copyTemp u).reg a = u.reg a
  | [], u => ⟨RegRest.refl _, fun _ _ => rfl⟩
  | n :: l, u => by
    obtain ⟨h1, h2⟩ := copyTemp_rest u n
    obtain ⟨g1, g2⟩ := temps_rest l (u.copyTemp n)
    exact ⟨h1.trans g1, fun a ha => (g2 a fun m hm => ha m (List.mem_cons_of_mem _ hm)).trans (h2 a (ha n (List.mem_cons_self ..)))⟩

def tempOk (t : Option Int) : Prop := t = none ∨ ∃ v, t = some v ∧ -128 ≤ v ∧ v ≤ 127

theorem tempByte_eq {t : Option Int} (h : tempOk t) (f g : Word) : tempByte t f = tempByte t g := by
  rcases h with rfl | ⟨v, rfl, h1, h2⟩
  · rfl
  · unfold tempByte
    dsimp only
    rw [if_pos ⟨h1, h2⟩, if_pos ⟨h1, h2⟩]

theorem copyTemp_val (u : State) (n : Nat) (h : ∀ i, tempOk (tgetD none u.rst.temp i)) : (u.copyTemp n).reg (0x10080 + 4 * n) =
    wd (tempByte (tgetD none u.rst.temp (4 * n)) 0#32 + tempByte (tgetD none u.rst.temp (4 * n + 1)) 0#32 * 2 ^ 8 +
          tempByte (tgetD none u.rst.temp (4 * n + 2)) 0#32 * 2 ^ 16 + tempByte (tgetD none u.rst.temp (4 * n + 3)) 0#32 * 2 ^ 24) := by
  have odd : ∀ i, (match tgetD none u.rst.temp (4 * n + i) with | some v => decide (127 < v) || decide (v < -128) | none => false) = false := by
    intro i
    rcases h (4 * n + i) with c | ⟨v, c, h1, h2⟩
    · rw [c]
    · rw [c]
      dsimp only
      rw [decide_eq_false (by omega : ¬ 127 < v), decide_eq_false (by omega : ¬ v < -128)]
      decide
  unfold State.copyTemp
  dsimp only
  split
  · rename_i c
    exfalso
    obtain ⟨i, _, hi⟩ := List.any_eq_true.1 c
    exact absurd (hi.symm.trans (odd i)) (by decide)
  · rw [State.reg_setReg, tempByte_eq (h _) _ 0#32, tempByte_eq (h (4 * n + 1)) _ 0#32, tempByte_eq (h (4 * n + 2)) _ 0#32, tempByte_eq (h (4 * n + 3)) _ 0#32]
    rfl

theorem temps_val (r : Rst) (h : ∀ i, tempOk (tgetD none r.temp i)) : ∀ (l : List Nat) (u : State), u.rst = r → ∀ n ∈ l,
    (l.foldl State.copyTemp u).reg (0x10080 + 4 * n) =
    wd (tempByte (tgetD none r.temp (4 * n)) 0#32 + tempByte (tgetD none r.temp (4 * n + 1)) 0#32 * 2 ^ 8 +
          tempByte (tgetD none r.temp (4 * n + 2)) 0#32 * 2 ^ 16 + tempByte (tgetD none r.temp (4 * n + 3)) 0#32 * 2 ^ 24)
  | [], u, _, n, hn => absurd hn (by simp)
  | m :: l, u, hu, n, hn => by
    rw [List.foldl_cons]
    have hm : (u.copyTemp m).rst = r := by
      obtain ⟨_, _, e⟩ := (copyTemp_rest u m).1
      rw [e]; exact hu
    by_cases c : n ∈ l
    · exact temps_val r h l _ hm n c
    · have e : n = m := by rcases List.mem_cons.1 hn with e | e; exact e; exact absurd e c
      subst e
      rw [(temps_rest l _).2 _ (fun k hk e => c (by have : n = k := by omega
                                                    rw [this]; exact hk)), copyTemp_val u n (by rw [hu]; exact h), hu]

theorem ac_rest (u : State) : RegRest u u.acRefresh := by
  unfold State.acRefresh
  exact (((((((RegRest.setReg _ _ _).trans (RegRest.setReg _ _ _)).trans (RegRest.setReg _ _ _)).trans (RegRest.setReg _ _ _)).trans (RegRest.setReg _ _ _)).trans (RegRest.setReg _ _ _)).trans
    (temps_rest _ _).1).trans ((RegRest.setReg _ _ _).trans (RegRest.setReg _ _ _))

theorem core_eq (u : State) : u.scrambleCore.rst = u.rst ∧ (u.scrambleCore.bay 256).state = 3 ∧ (u.scrambleCore.bay 256).pipe.pc = 0 ∧
    (∀ k, k ≠ 256 → u.scrambleCore.bay k = u.bay k) ∧ u.scrambleCore.sec = u.sec ∧ u.scrambleCore.ddr = u.ddr ∧ u.scrambleCore.mx = u.mx := by
  unfold State.scrambleCore
  dsimp only
  refine ⟨rfl, ?_, ?_, fun k hk => ?_, rfl, rfl, rfl⟩
  · rw [State.bay_onBay]
  · rw [State.bay_onBay]
  · rw [State.bay_onBay_ne _ _ hk]
    rfl

theorem wideExit_eq (u : State) : u.wideExit.rst.src = u.rst.src ∧ u.wideExit.rst.reach = u.rst.reach ∧ u.wideExit.rst.shored = u.rst.shoring ∧
    u.wideExit.rst.window = !u.rst.shoring ∧ (∀ d, d = 16 ∨ d = 20 ∨ d = 21 ∨ d = 22 → u.wideExit.dom d = 1) ∧ (u.wideExit.bay 256).state = 3 ∧
    (u.wideExit.bay 256).pipe.pc = 0 ∧ (∀ k, k ≠ 256 → u.wideExit.bay k = u.bay k) ∧ u.wideExit.sec = u.sec ∧ u.wideExit.ddr = u.ddr ∧
    u.wideExit.mx = u.mx ∧ u.wideExit.rst.loading = u.rst.loading := by
  obtain ⟨D, hD, hd⟩ : ∃ D : Tab Nat, (((u.setDom 16 1).setDom 20 1).setDom 21 1).setDom 22 1 = { u with rst := { u.rst with dom := D } } ∧
      ∀ d, d = 16 ∨ d = 20 ∨ d = 21 ∨ d = 22 → tgetD 0 D d = 1 := by
    refine ⟨_, rfl, fun d hd => ?_⟩
    show tgetD 0 (tsetD 0 (tsetD 0 (tsetD 0 (tsetD 0 u.rst.dom 16 1) 20 1) 21 1) 22 1) d = 1
    rcases hd with rfl | rfl | rfl | rfl
    · rw [tgetD_tsetD_ne _ _ _ (by decide), tgetD_tsetD_ne _ _ _ (by decide), tgetD_tsetD_ne _ _ _ (by decide), tgetD_tsetD_same]
    · rw [tgetD_tsetD_ne _ _ _ (by decide), tgetD_tsetD_ne _ _ _ (by decide), tgetD_tsetD_same]
    · rw [tgetD_tsetD_ne _ _ _ (by decide), tgetD_tsetD_same]
    · rw [tgetD_tsetD_same]
  obtain ⟨v, hv⟩ : ∃ v : State, v = { u with rst := { u.rst with dom := D } } := ⟨_, rfl⟩
  have v1 : v.rst = { u.rst with dom := D } ∧ (∀ k, v.bay k = u.bay k) ∧ v.sec = u.sec ∧ v.ddr = u.ddr ∧ v.mx = u.mx := by
    rw [hv]; exact ⟨rfl, fun _ => rfl, rfl, rfl, rfl⟩
  obtain ⟨c1, c2, c3, c4, c5, c6, c7⟩ := core_eq v
  obtain ⟨x, hx⟩ : ∃ x : State, x = v.scrambleCore := ⟨_, rfl⟩
  rw [← hx] at c1 c2 c3 c4 c5 c6 c7
  rw [v1.1] at c1
  rw [v1.2.2.1] at c5
  rw [v1.2.2.2.1] at c6
  rw [v1.2.2.2.2] at c7
  obtain ⟨y, hy⟩ : ∃ y : State, y = { x with rst := { x.rst with shored := x.rst.shoring, window := !x.rst.shoring } } := ⟨_, rfl⟩
  have y1 : y.rst = { u.rst with dom := D, shored := u.rst.shoring, window := !u.rst.shoring } := by rw [hy, c1]
  have yb (k : Nat) : y.bay k = x.bay k := by rw [hy]; rfl
  have y2 : y.sec = u.sec ∧ y.ddr = u.ddr ∧ y.mx = u.mx := by rw [hy]; exact ⟨c5, c6, c7⟩
  obtain ⟨z, hz⟩ : ∃ z : State, z = if y.rst.src / 8 % 2 = 1 then y.event 0x100B0 2 else y := ⟨_, rfl⟩
  have z1 : z.rst = y.rst ∧ z.sec = y.sec ∧ z.ddr = y.ddr ∧ (∀ k, z.bay k = y.bay k) ∧ z.mx = y.mx := by
    rw [hz]
    split
    · exact ⟨rfl, rfl, rfl, fun _ => rfl, rfl⟩
    · exact ⟨rfl, rfl, rfl, fun _ => rfl, rfl⟩
  have ez : u.wideExit = z.buildCaps := by
    rw [hz, hy, hx, hv]
    unfold State.wideExit
    rw [hD]
  rw [ez]
  obtain ⟨W, f, e⟩ := caps_rest z.hw.caps z 0x100
  have q : z.buildCaps.rst = z.rst ∧ z.buildCaps.sec = z.sec ∧ z.buildCaps.ddr = z.ddr ∧ (∀ k, z.buildCaps.bay k = z.bay k) ∧ z.buildCaps.mx = z.mx := by
    unfold State.buildCaps
    rw [e]
    exact ⟨rfl, rfl, rfl, fun _ => rfl, rfl⟩
  obtain ⟨q1, q2, q3, q4, q5⟩ := q
  unfold State.dom
  rw [q1, z1.1, y1, q4, z1.2.2.2.1, yb, q2, z1.2.1, q3, z1.2.2.1, q5, z1.2.2.2.2]
  exact ⟨rfl, rfl, rfl, rfl, hd, c2, c3, fun k hk => by rw [q4, z1.2.2.2.1, yb, c4 k hk, v1.2.1], y2.1, y2.2.1, y2.2.2, rfl⟩

theorem ac_eq (s : State) :
      s.acRefresh.reg 0x10000 = wd (s.rst.src % 2048 * 256 + nbit (decide (s.rst.reach ≠ 0)) * 8 + s.rst.reach) ∧
      s.acRefresh.reg 0x10004 = wd (s.rst.lastSrc % 2048 * 256 + s.rst.lastReach) ∧
      s.acRefresh.reg 0x10024 = wd (nbit s.rst.bootOk * 2 ^ 10 + s.rst.trimFails % 4 * 2 ^ 8 + nbit s.rst.shoring * 16 + s.rst.count % 16) ∧
      s.acRefresh.reg 0x1002C = wd (nbit s.rst.loading * 4 + nbit s.rst.trimSafe * 2 + nbit s.rst.trimValid) ∧
      s.acRefresh.reg 0x10038 = wd (ceilDiv s.rst.wdgLeft 1000 % 65536) ∧ s.acRefresh.reg 0x20040 = wd (s.sec.tlog % 8) ∧
      s.acRefresh.reg 0x100A0 = s.dutyWord 0 ∧ s.acRefresh.reg 0x100A4 = s.dutyWord 8 ∧ s.acRefresh.rst = s.rst ∧ s.acRefresh.bays = s.bays ∧
      ((∀ i, tgetD none s.rst.temp i = none ∨ ∃ v, tgetD none s.rst.temp i = some v ∧ -128 ≤ v ∧ v ≤ 127) → ∀ n, n < 6 →
        s.acRefresh.reg (0x10080 + 4 * n) = wd (tempByte (tgetD none s.rst.temp (4 * n)) 0#32 + tempByte (tgetD none s.rst.temp (4 * n + 1)) 0#32 * 2 ^ 8 +
          tempByte (tgetD none s.rst.temp (4 * n + 2)) 0#32 * 2 ^ 16 + tempByte (tgetD none s.rst.temp (4 * n + 3)) 0#32 * 2 ^ 24)) := by
  obtain ⟨u, hu, e⟩ : ∃ u : State, u = ((((((s.setReg 0x10000 (latchWord s.rst.src s.rst.reach (decide (s.rst.reach ≠ 0)))).setReg 0x10004
      (latchWord s.rst.lastSrc s.rst.lastReach false)).setReg 0x10024
      (wd (nbit s.rst.bootOk * 2 ^ 10 + s.rst.trimFails % 4 * 2 ^ 8 + nbit s.rst.shoring * 16 + s.rst.count % 16))).setReg 0x1002C
      (wd (nbit s.rst.loading * 4 + nbit s.rst.trimSafe * 2 + nbit s.rst.trimValid))).setReg 0x10038
      (wd (ceilDiv s.rst.wdgLeft 1000 % 65536))).setReg 0x20040 (wd (s.sec.tlog % 8))) ∧
      s.acRefresh = (((List.range 6).foldl State.copyTemp u).setReg 0x100A0 (((List.range 6).foldl State.copyTemp u).dutyWord 0)).setReg 0x100A4 (((List.range 6).foldl State.copyTemp u).dutyWord 8) :=
    ⟨_, rfl, rfl⟩
  rw [e]
  have ur (a : Nat) (ha : ∀ n ∈ List.range 6, a ≠ 0x10080 + 4 * n) := (temps_rest (List.range 6) u).2 a ha
  have uw : u.rst = s.rst ∧ u.bays = s.bays := by
    have q : RegRest s u := by
      rw [hu]
      exact (((((RegRest.setReg _ _ _).trans (RegRest.setReg _ _ _)).trans (RegRest.setReg _ _ _)).trans (RegRest.setReg _ _ _)).trans (RegRest.setReg _ _ _)).trans (RegRest.setReg _ _ _)
    obtain ⟨_, _, q⟩ := q
    rw [q]
    exact ⟨rfl, rfl⟩
  obtain ⟨W, f, rr⟩ := (temps_rest (List.range 6) u).1
  have rd (a : Nat) (ha : a < 0x10080 ∨ 0x100B0 ≤ a) (d e : Word) :
      (((((List.range 6).foldl State.copyTemp u).setReg 0x100A0 d).setReg 0x100A4 e).reg a) = u.reg a :=
    (State.reg_setReg_ne _ _ (by omega)).trans ((State.reg_setReg_ne _ _ (by omega)).trans (ur a fun n hn => by have := List.mem_range.1 hn; omega))
  have du (n : Nat) : ((List.range 6).foldl State.copyTemp u).dutyWord n = s.dutyWord n := by
    unfold State.dutyWord
    rw [rr]
    show wd (List.foldl _ _ (List.map (fun i => tgetD 0 u.rst.duty (n + i) % 8 * 2 ^ (4 * i)) _)) = _
    rw [uw.1]
  have tv := fun (hT : ∀ i, tempOk (tgetD none s.rst.temp i)) (n : Nat) (hn : n < 6) => temps_val s.rst hT (List.range 6) u uw.1 n (List.mem_range.2 hn)
  generalize (List.range 6).foldl State.copyTemp u = x at rd du rr tv ⊢
  have xw : x.rst = s.rst ∧ x.bays = s.bays := by
    rw [rr]
    exact ⟨uw.1, uw.2⟩
  have ds (y : State) (a n : Nat) (v : Word) : (y.setReg a v).dutyWord n = y.dutyWord n := rfl
  refine ⟨?_, ?_, ?_, ?_, ?_, ?_, ?_, ?_, (by rw [State.setReg_rst, State.setReg_rst]; exact xw.1), (by rw [State.setReg_bays, State.setReg_bays]; exact xw.2), fun hT n hn => ?_⟩
  · rw [rd _ (by decide), hu]
    rw [State.reg_setReg_ne _ _ (by decide), State.reg_setReg_ne _ _ (by decide), State.reg_setReg_ne _ _ (by decide), State.reg_setReg_ne _ _ (by decide), State.reg_setReg_ne _ _ (by decide), State.reg_setReg]
    rfl
  · rw [rd _ (by decide), hu]
    rw [State.reg_setReg_ne _ _ (by decide), State.reg_setReg_ne _ _ (by decide), State.reg_setReg_ne _ _ (by decide), State.reg_setReg_ne _ _ (by decide), State.reg_setReg]
    show latchWord s.rst.lastSrc s.rst.lastReach false = _
    unfold latchWord nbit
    rw [if_neg (by decide), Nat.zero_mul, Nat.add_zero]
  · rw [rd _ (by decide), hu]
    rw [State.reg_setReg_ne _ _ (by decide), State.reg_setReg_ne _ _ (by decide), State.reg_setReg_ne _ _ (by decide), State.reg_setReg]
  · rw [rd _ (by decide), hu]
    rw [State.reg_setReg_ne _ _ (by decide), State.reg_setReg_ne _ _ (by decide), State.reg_setReg]
  · rw [rd _ (by decide), hu]
    rw [State.reg_setReg_ne _ _ (by decide), State.reg_setReg]
  · rw [rd _ (by decide), hu, State.reg_setReg]
  · rw [State.reg_setReg_ne _ _ (by decide), State.reg_setReg, du]
  · rw [State.reg_setReg]
    exact du 8
  · rw [State.reg_setReg_ne _ _ (by omega), State.reg_setReg_ne _ _ (by omega)]
    exact tv hT n hn

theorem span_max (m : Nat) : (if m = 0 then 1 else m) * 1000 = 1000 * max 1 m := by
  split
  · rename_i h; subst h; rfl
  · rw [Nat.max_eq_right (by omega), Nat.mul_comm]

theorem low16 (r v : Word) : fld ((r &&& ~~~ 0x1FFFF#32) ||| ((v ||| 0x10000#32) &&& 0x1FFFF#32)) 0 16 = fld v 0 16 := by
  unfold fld
  refine Nat.eq_of_testBit_eq fun j => ?_
  rw [Nat.testBit_mod_two_pow, Nat.testBit_mod_two_pow]
  by_cases c : j < 16
  · rw [Nat.pow_zero, Nat.div_one, Nat.div_one]
    have : ∀ j, j < 16 → ((r &&& ~~~ 0x1FFFF#32) ||| ((v ||| 0x10000#32) &&& 0x1FFFF#32)).getLsbD j = v.getLsbD j := by
      intro j hj
      have m : (0x1FFFF#32).getLsbD j = true := by
        have : ∀ j : Fin 16, (0x1FFFF#32).getLsbD j.1 = true := by decide
        exact this ⟨j, hj⟩
      have m2 : (0x10000#32).getLsbD j = false := by
        have : ∀ j : Fin 16, (0x10000#32).getLsbD j.1 = false := by decide
        exact this ⟨j, hj⟩
      rw [BitVec.getLsbD_or, BitVec.getLsbD_and, BitVec.getLsbD_and, BitVec.getLsbD_not, BitVec.getLsbD_or, m, m2]
      simp
    exact congrArg (fun b => decide (j < 16) && b) (this j c)
  · simp [c]

theorem trim_bad (u : State) (h1 : u.rst.loading = true) : (u.trimDone false).rst.loading = false ∧ (u.trimDone false).rst.trimFails = min 3 (u.rst.trimFails + 1) ∧
        (u.trimDone false).rst.trimValid = u.rst.trimValid ∧ (u.trimDone false).bays = u.bays ∧
        (u.trimDone false).rst.count = (if 2 ≤ u.rst.trimFails ∧ u.rst.bootOk = false ∧ u.rst.failDue = false then min 15 (u.rst.count + 1) else u.rst.count) ∧
        (u.trimDone false).mx = u.mx ∧ (u.trimDone false).rst.shored = u.rst.shored ∧ (u.trimDone false).regs.words = u.regs.words ∧
        (2 ≤ u.rst.trimFails → ((u.trimDone false).rst.bootOk || (u.trimDone false).rst.failDue) = true) := by
  have e : satAdd 3 u.rst.trimFails 1 = min 3 (u.rst.trimFails + 1) := by
    unfold satAdd
    split <;> omega
  have e2 : satAdd 15 u.rst.count 1 = min 15 (u.rst.count + 1) := by
    unfold satAdd
    split <;> omega
  unfold State.trimDone
  rw [if_neg (by rw [h1]; decide), if_neg (by decide)]
  dsimp only
  rw [e]
  by_cases c : 2 ≤ u.rst.trimFails
  · rw [if_pos (by omega)]
    unfold State.failIfStarting
    dsimp only
    by_cases d : u.rst.bootOk = false ∧ u.rst.failDue = false
    · rw [if_neg (by rw [d.1, d.2]; decide), if_pos ⟨c, d⟩]
      refine ⟨rfl, rfl, rfl, rfl, ?_, rfl, rfl, rfl, fun _ => Bool.or_true _⟩
      show satAdd 15 u.rst.count 1 = _
      exact e2
    · have d' : (u.rst.bootOk || u.rst.failDue) = true := by cases h : u.rst.bootOk <;> cases g : u.rst.failDue <;> simp_all
      rw [if_pos (by cases h : u.rst.bootOk <;> cases g : u.rst.failDue <;> simp_all), if_neg (fun x => d x.2)]
      exact ⟨rfl, rfl, rfl, rfl, rfl, rfl, rfl, rfl, fun _ => d'⟩
  · rw [if_neg (by omega), if_neg (fun x => c x.1)]
    exact ⟨rfl, rfl, rfl, rfl, rfl, rfl, rfl, rfl, fun d => absurd d c⟩

end Sys2Proof.Laws.Episode
end

