-- ==== Sys2Proof/Laws/Links.lean ====
section
/-!
SUPPORT. What a scarf port's transmitter and receiver do to the rest of the device.
-/
namespace Sys2Proof.Machine

theorem LinkRest.refl (u : State) : LinkRest u u := ⟨u.scf.ports, u.regs.cnts, u.out, rfl⟩

theorem LinkRest.trans {u v w : State} (h : LinkRest u v) (k : LinkRest v w) : LinkRest u w := by
  obtain ⟨P, g, o, rfl⟩ := h
  obtain ⟨Q, r, x, rfl⟩ := k
  exact ⟨Q, r, x, rfl⟩

theorem LinkRest.setPort (u : State) (p : Nat) (x : Port_) : LinkRest u (u.setPort p x) := ⟨_, u.regs.cnts, u.out, rfl⟩

theorem LinkRest.bump (u : State) (a : Nat) : LinkRest u (u.bump a) := ⟨u.scf.ports, _, u.out, rfl⟩

theorem LinkRest.emit (u : State) (o : Out) : LinkRest u (u.emit o) := ⟨u.scf.ports, u.regs.cnts, _, rfl⟩

@[simp] theorem State.port_setPort (u : State) (p : Nat) (x : Port_) : (u.setPort p x).port p = x := tgetD_tsetD_same _ _ _ _

theorem State.port_setPort_ne (u : State) {p q : Nat} (x : Port_) (h : q ≠ p) : (u.setPort p x).port q = u.port q :=
  tgetD_tsetD_ne _ _ _ h

theorem State.sendOne_rest (u : State) (p c : Nat) : LinkRest u (u.sendOne p c) := by
  unfold State.sendOne
  dsimp only
  split
  · exact LinkRest.refl u
  · exact ((LinkRest.setPort _ _ _).trans (LinkRest.emit _ _)).trans (LinkRest.bump _ _)

theorem State.sendNull_rest (p : Nat) : ∀ (n : Nat) (u : State), LinkRest u (u.sendNull p n)
  | 0, u => LinkRest.refl u
  | n + 1, u => by
    unfold State.sendNull
    dsimp only
    split
    · exact ((LinkRest.setPort _ _ _).trans (LinkRest.emit _ _)).trans (State.sendNull_rest p n _)
    · exact LinkRest.refl u

theorem State.pumpN_rest (p : Nat) : ∀ (n : Nat) (u : State), LinkRest u (u.pumpN p n)
  | 0, u => LinkRest.refl u
  | n + 1, u => by
    unfold State.pumpN
    split
    · exact (u.sendOne_rest p _).trans (State.pumpN_rest p n _)
    · exact LinkRest.refl u

/-- The transmitter changes ports and counters, and sends. -/
theorem State.pump_rest (u : State) (p : Nat) : LinkRest u (u.pump p) := by
  unfold State.pump
  split
  · exact (State.pumpN_rest p _ u).trans (State.sendNull_rest p _ _)
  · exact LinkRest.refl u

theorem State.enqueue_rest (u : State) (p c : Nat) (t : TxFlit) : LinkRest u (u.enqueue p c t) :=
  (LinkRest.setPort _ _ _).trans (State.pump_rest _ _)

theorem State.lstateOn_rest (dev port st gen : Nat) : ∀ (l : List Nat) (u : State), LinkRest u (u.lstateOn l dev port st gen)
  | [], u => LinkRest.refl u
  | _ :: l, u => (u.enqueue_rest _ _ _).trans (State.lstateOn_rest dev port st gen l _)

/-- Nothing is sent by a port that has nothing to send and nothing due. -/
theorem State.pump_idle (u : State) (p : Nat) (h0 : (u.port p).qFwd = []) (h1 : (u.port p).qCmp = []) (h2 : (u.port p).qCtl = [])
    (h3 : (u.port p).owed = []) (h4 : (u.port p).nak = false)
    (h5 : (u.port p).ackDue = false) : u.pump p = u := by
  unfold State.pump
  split
  · dsimp only
    rw [h0, h1, h2]
    show State.sendNull (State.pumpN u p 0) p ((State.port (State.pumpN u p 0) p).owed.length + 1) = u
    rw [State.pumpN, h3]
    show State.sendNull u p 1 = u
    unfold State.sendNull
    dsimp only
    rw [h3, h4, h5]
    rfl
  · rfl

theorem LinkRest.event {u v : State} (h : LinkRest u v) (a i : Nat) : LinkRest (u.event a i) (v.event a i) := by
  obtain ⟨P, g, o, rfl⟩ := h
  exact ⟨_, _, _, rfl⟩

/-- What the receiver of a port knows. -/
def Port_.rx (x : Port_) : Nat × Bool × Bool × Nat × Nat × Nat × Nat × Nat × Nat :=
  (x.rxNext, x.gap, x.retry, x.state, x.dcause, x.peerDev, x.peerPort, x.lanes, x.width)

theorem Port_.setCredit_rx (x : Port_) (c n : Nat) : (x.setCredit c n).rx = x.rx := by
  unfold Port_.setCredit
  split
  · rfl
  · split <;> rfl

theorem Port_.setQueue_rx (x : Port_) (c : Nat) (l : List TxFlit) : (x.setQueue c l).rx = x.rx := by
  unfold Port_.setQueue
  split
  · rfl
  · split <;> rfl

theorem State.sendOne_rx (u : State) (p c q : Nat) : ((u.sendOne p c).port q).rx = (u.port q).rx := by
  unfold State.sendOne
  dsimp only
  split
  · rfl
  · show ((u.setPort p _).port q).rx = _
    by_cases h : q = p
    · subst h
      rw [State.port_setPort]
      exact (Port_.setCredit_rx _ _ _).trans (Port_.setQueue_rx _ _ _)
    · rw [State.port_setPort_ne _ _ h]

theorem State.sendNull_rx (p q : Nat) : ∀ (n : Nat) (u : State), ((u.sendNull p n).port q).rx = (u.port q).rx
  | 0, _ => rfl
  | n + 1, u => by
    unfold State.sendNull
    dsimp only
    split
    · rw [State.sendNull_rx p q n]
      show ((u.setPort p _).port q).rx = _
      by_cases h : q = p
      · subst h; rw [State.port_setPort]; rfl
      · rw [State.port_setPort_ne _ _ h]
    · rfl

theorem State.pumpN_rx (p q : Nat) : ∀ (n : Nat) (u : State), ((u.pumpN p n).port q).rx = (u.port q).rx
  | 0, _ => rfl
  | n + 1, u => by
    unfold State.pumpN
    split
    · rw [State.pumpN_rx p q n, State.sendOne_rx]
    · rfl

/-- The transmitter leaves every receiver alone. -/
theorem State.pump_rx (u : State) (p q : Nat) : ((u.pump p).port q).rx = (u.port q).rx := by
  unfold State.pump
  split
  · dsimp only
    rw [State.sendNull_rx, State.pumpN_rx]
  · rfl

theorem State.enqueue_rx (u : State) (p c q : Nat) (t : TxFlit) : ((u.enqueue p c t).port q).rx = (u.port q).rx := by
  unfold State.enqueue
  rw [State.pump_rx]
  by_cases h : q = p
  · subst h
    rw [State.port_setPort]
    exact Port_.setQueue_rx _ _ _
  · rw [State.port_setPort_ne _ _ h]

theorem State.lstateOn_rx (dev port st gen q : Nat) : ∀ (l : List Nat) (u : State),
    ((u.lstateOn l dev port st gen).port q).rx = (u.port q).rx
  | [], _ => rfl
  | _ :: l, u => (State.lstateOn_rx dev port st gen q l _).trans (State.enqueue_rx _ _ _ _ _)

/-- Retransmission leaves every receiver alone. -/
theorem State.resend_rx (u : State) (p q : Nat) : ((u.resend p).port q).rx = (u.port q).rx := by
  unfold State.resend
  refine foldl_keeps (fun t : State => (t.port q).rx) _ (fun t e => ?_) _ _
  show ((t.setPort p _).port q).rx = _
  by_cases h : q = p
  · subst h; rw [State.port_setPort]; rfl
  · rw [State.port_setPort_ne _ _ h]

theorem State.resend_rest (u : State) (p : Nat) : LinkRest u (u.resend p) := by
  unfold State.resend
  generalize (u.port p).replay = l
  induction l generalizing u with
  | nil => exact LinkRest.refl u
  | cons e l ih =>
    rw [List.foldl_cons]
    exact ((LinkRest.setPort _ _ _).trans (LinkRest.emit _ _)).trans (ih _)

/-- A flood changes the view of the links, ports, counters and what is sent. -/
theorem State.flood_rest (u : State) (p st : Nat) :
    ∃ v, LinkRest { u with scf := { u.scf with view := v } } (u.flood p st) := by
  unfold State.flood
  dsimp only
  refine ⟨tsetD none u.scf.view (u.devId * 8 + p) (some (st, ((u.port p).gen + 1) % 256)), ?_⟩
  refine LinkRest.trans ?_ (State.lstateOn_rest _ _ _ _ _ _)
  exact ⟨_, u.regs.cnts, u.out, rfl⟩

theorem State.flood_rx (u : State) (p st q : Nat) : ((u.flood p st).port q).rx = (u.port q).rx := by
  unfold State.flood
  dsimp only
  rw [State.lstateOn_rx]
  show ((u.setPort p _).port q).rx = _
  by_cases h : q = p
  · subst h; rw [State.port_setPort]; rfl
  · rw [State.port_setPort_ne _ _ h]

/-- One completion that waits alone, with a credit for it, is sent, and carries what is due. -/
theorem State.pump_one (u : State) (p : Nat) (t : TxFlit) (hu : u.portUp p = true) (h0 : (u.port p).qFwd = [])
    (h1 : (u.port p).qCmp = [t]) (h2 : (u.port p).qCtl = []) (h3 : (u.port p).cCmp ≠ 0) (h4 : (u.port p).replay.length < 256)
    (h5' : ∃ c, (u.port p).owed = [c]) :
    (u.pump p).out = u.out ++ [.flit p t.flit ((u.port p).link (u.port p).txSeq)] ∧ ((u.pump p).port p).qFwd = [] ∧
    ((u.pump p).port p).qCmp = [] ∧ ((u.pump p).port p).qCtl = [] ∧ ((u.pump p).port p).owed = [] ∧
    ((u.pump p).port p).nak = false ∧ ((u.pump p).port p).ackDue = false := by
  have h5 : (u.port p).linked.owed = [] := by
    obtain ⟨c, h5⟩ := h5'
    simp [h5, Port_.linked, Port_.link, dropCredits]
  have hr : (u.port p).ready = some 1 := by
    unfold Port_.ready
    rw [if_neg (by omega)]
    simp [Port_.queue, Port_.credit, h1, h2, h3]
  generalize hz : ((u.port p).linked.setQueue 1 []).setCredit 1 ((u.port p).credit 1 - 1) = z at *
  have hs : u.sendOne p 1 = ((u.setPort p { z with txSeq := ((u.port p).txSeq + 1) % 4096, replay := (u.port p).replay ++ [{ t with seq := (u.port p).txSeq }] }).emit
      (.flit p t.flit ((u.port p).link (u.port p).txSeq))).bump (scfBase p + 0x40) := by
    unfold State.sendOne
    dsimp only
    have : (u.port p).queue 1 = [t] := h1
    rw [this]
    dsimp only
    rw [hz]
  have hp : u.pump p = u.sendOne p 1 := by
    unfold State.pump
    rw [if_pos hu]
    dsimp only
    rw [h0, h1, h2]
    have hpn : u.pumpN p (([] : List TxFlit).length + [t].length + ([] : List TxFlit).length) = u.sendOne p 1 := by
      show State.pumpN u p 1 = _
      rw [State.pumpN, hr]
      rfl
    rw [hpn]
    have ho : (State.port (u.sendOne p 1) p).owed = [] ∧ (State.port (u.sendOne p 1) p).nak = false ∧
        (State.port (u.sendOne p 1) p).ackDue = false := by
      rw [hs]
      show (State.port (u.setPort p _) p).owed = [] ∧ (State.port (u.setPort p _) p).nak = false ∧
        (State.port (u.setPort p _) p).ackDue = false
      rw [State.port_setPort, ← hz]
      exact ⟨h5, rfl, rfl⟩
    rw [ho.1]
    show State.sendNull (u.sendOne p 1) p 1 = _
    unfold State.sendNull
    dsimp only
    rw [ho.1, ho.2.1, ho.2.2]
    rfl
  have hport : ((u.pump p).port p) = { z with txSeq := ((u.port p).txSeq + 1) % 4096, replay := (u.port p).replay ++ [{ t with seq := (u.port p).txSeq }] } := by
    rw [hp, hs]
    show (State.port (u.setPort p _) p) = _
    rw [State.port_setPort]
  refine ⟨by rw [hp, hs]; rfl, ?_, ?_, ?_, ?_, ?_, ?_⟩
  · rw [hport, ← hz]; exact h0
  · rw [hport, ← hz]; rfl
  · rw [hport, ← hz]; exact h2
  · rw [hport, ← hz]; exact h5
  · rw [hport, ← hz]; rfl
  · rw [hport, ← hz]; rfl

/-! ## The receiver -/

theorem ackList_none (l : List TxFlit) (a : Nat) (h : ∀ t ∈ l, t.seq ≠ a) : ackList l a = l := by
  unfold ackList
  rw [if_neg]
  simp only [List.any_eq_true, decide_eq_true_eq, not_exists, not_and]
  exact fun t ht => h t ht

theorem Port_.setCredit_same (x : Port_) (c : Nat) : x.setCredit c (x.credit c) = x := by
  unfold Port_.setCredit Port_.credit
  split
  · rfl
  · split <;> rfl

/-- The credits and acknowledgement of a link word that carries neither. -/
theorem State.linkWord_plain (u : State) (p : Nat) (l : LinkWord) (h1 : l.nak = false) (h2 : l.ccount = 0)
    (h3 : ∀ t ∈ (u.port p).replay, t.seq ≠ l.ackseq) : u.linkWord p l = u.setPort p (u.port p) := by
  unfold State.linkWord
  dsimp only
  rw [ackList_none _ _ h3, h1, h2]
  have e : ({ u.port p with replay := (u.port p).replay } : Port_) = u.port p := rfl
  rw [e, Nat.add_zero, Port_.setCredit_same]
  simp

/-- What an expected flit leaves before it is handled. -/
theorem State.receive_next (u : State) (p c : Nat) (l : LinkWord) (handle : State → State) (hu : u.portUp p = true)
    (hl : plainLink l (u.port p)) (hg : (u.port p).gap = false) :
    ∃ b, LinkRest u b ∧ u.receive p c l handle = (handle b).pump p ∧ b.out = u.out ∧
      b.port p = { u.port p with
        rxNext := ((u.port p).rxNext + 1) % 4096, owed := if c = 3 then (u.port p).owed else (u.port p).owed ++ [c],
        ackDue := true } ∧
      ∀ q, q ≠ p → b.port q = u.port q := by
  obtain ⟨h0, h1, h2, h3⟩ := hl
  refine ⟨((u.setPort p (u.port p)).setPort p { u.port p with
      rxNext := ((u.port p).rxNext + 1) % 4096, owed := if c = 3 then (u.port p).owed else (u.port p).owed ++ [c],
      ackDue := true }).bump (scfBase p + 0x48), ?_, ?_, rfl, ?_, ?_⟩
  · exact ((LinkRest.setPort _ _ _).trans (LinkRest.setPort _ _ _)).trans (LinkRest.bump _ _)
  · unfold State.receive
    rw [if_neg (by simp [hu])]
    dsimp only
    have up : (u.setPort p (u.port p)).portUp p = true := by
      unfold State.portUp at hu ⊢
      rw [State.port_setPort]
      exact hu
    rw [State.linkWord_plain u p l h1 h2 h3, if_neg (by simp [up]), State.port_setPort, if_pos (by omega), hg]
    have e : ∀ n, (if (u.port p).retry = true then (u.port p).rmax else (u.port p).longest n) = (u.port p).rmax := by
      intro n
      unfold Port_.longest
      rw [hg]
      cases (u.port p).retry <;> simp
    rw [e]
    have d : ∀ (rn ow ak), ({ u.port p with rxNext := rn, gap := false, owed := ow, rmax := (u.port p).rmax, ackDue := ak } : Port_) =
        { u.port p with rxNext := rn, owed := ow, ackDue := ak } := by
      intro rn ow ak
      rw [← hg]
    simp only [Bool.false_eq_true, if_false, Bool.false_and, d]
  · show ((u.setPort p (u.port p)).setPort p _).port p = _
    rw [State.port_setPort]
  · intro q hq
    show ((u.setPort p (u.port p)).setPort p _).port q = _
    rw [State.port_setPort_ne _ _ hq, State.port_setPort_ne _ _ hq]

end Sys2Proof.Machine
end

