-- ==== Sys2Proof/Laws/Frames.lean ====
section
/-!
SUPPORT. What Ethernet frames do to a state.
-/
namespace Sys2Proof.Laws.Frames
open Sys2Proof Sys2Proof.Machine

/-- The choice of `nextToSend`, one queue after another. -/
def pickSend (m : Nat) (best : Option (Nat × Msg × Nat)) (e : Nat × Queue) : Option (Nat × Msg × Nat) :=
  let x : Queue := e.2
  match x.msgs.head? with
  | some g =>
    if x.state = 1 ∧ x.bind = 3 ∧ x.target / 8 = m then
      (match best with
       | none => some (e.1, g, x.target % 8)
       | some (j, h, c) =>
         if c < x.target % 8 ∨ (c = x.target % 8 ∧ g.commit < h.commit) then some (e.1, g, x.target % 8)
         else some (j, h, c))
    else best
  | none => best

def Sendable (m : Nat) (e : Nat × Queue) (g : Msg) : Prop :=
  e.2.msgs.head? = some g ∧ e.2.state = 1 ∧ e.2.bind = 3 ∧ e.2.target / 8 = m

def Best (m : Nat) (l : List (Nat × Queue)) : Option (Nat × Msg × Nat) → Prop
  | none => ∀ e ∈ l, ∀ h, ¬ Sendable m e h
  | some (q, g, c) => (∃ e ∈ l, e.1 = q ∧ Sendable m e g ∧ e.2.target % 8 = c) ∧
    ∀ e ∈ l, ∀ h, Sendable m e h → e.2.target % 8 < c ∨ (e.2.target % 8 = c ∧ g.commit ≤ h.commit)

theorem pick_best (m : Nat) (l : List (Nat × Queue)) (b : Option (Nat × Msg × Nat)) (hb : Best m l b) (e : Nat × Queue) :
    Best m (l ++ [e]) (pickSend m b e) := by
  have skip (h : ∀ g, ¬ Sendable m e g) : Best m (l ++ [e]) b := by
    match b with
    | none =>
      intro x hx g
      rcases List.mem_append.1 hx with hx | hx
      · exact hb x hx g
      · rw [List.mem_singleton.1 hx]; exact h g
    | some (q, g, c) =>
      obtain ⟨⟨x, x1, x2⟩, y⟩ := hb
      refine ⟨⟨x, List.mem_append_left _ x1, x2⟩, fun z hz k hk => ?_⟩
      rcases List.mem_append.1 hz with hz | hz
      · exact y z hz k hk
      · rw [List.mem_singleton.1 hz] at hk; exact absurd hk (h k)
  unfold pickSend
  dsimp only
  split
  · rename_i g hg
    split
    · rename_i hc
      have se : Sendable m e g := ⟨hg, hc.1, hc.2.1, hc.2.2⟩
      have un (k : Msg) (hk : Sendable m e k) : k = g := Option.some.inj (hk.1.symm.trans hg)
      match b with
      | none =>
        refine ⟨⟨e, List.mem_append_right _ (List.mem_singleton.2 rfl), rfl, se, rfl⟩, fun z hz k hk => ?_⟩
        rcases List.mem_append.1 hz with hz | hz
        · exact absurd hk (hb z hz k)
        · rw [List.mem_singleton.1 hz] at hk ⊢
          rw [un k hk]; exact Or.inr ⟨rfl, Nat.le_refl _⟩
      | some (q, h, c) =>
        obtain ⟨⟨x, x1, x2⟩, y⟩ := hb
        dsimp only
        split
        · rename_i hl
          refine ⟨⟨e, List.mem_append_right _ (List.mem_singleton.2 rfl), rfl, se, rfl⟩, fun z hz k hk => ?_⟩
          rcases List.mem_append.1 hz with hz | hz
          · have := y z hz k hk
            omega
          · rw [List.mem_singleton.1 hz] at hk ⊢
            rw [un k hk]; exact Or.inr ⟨rfl, Nat.le_refl _⟩
        · rename_i hl
          refine ⟨⟨x, List.mem_append_left _ x1, x2⟩, fun z hz k hk => ?_⟩
          rcases List.mem_append.1 hz with hz | hz
          · exact y z hz k hk
          · rw [List.mem_singleton.1 hz] at hk ⊢
            rw [un k hk]
            omega
    · rename_i hc
      exact skip fun k hk => hc ⟨hk.2.1, hk.2.2.1, hk.2.2.2⟩
  · rename_i hg
    exact skip fun k hk => absurd (hk.1.symm.trans hg) (by simp)

theorem fold_best (m : Nat) : ∀ (l l' : List (Nat × Queue)) (b : Option (Nat × Msg × Nat)), Best m l b → Best m (l ++ l') (l'.foldl (pickSend m) b)
  | l, [], b, h => by rw [List.append_nil]; exact h
  | l, e :: l', b, h => by
    rw [List.foldl_cons, show l ++ e :: l' = (l ++ [e]) ++ l' from by simp]
    exact fold_best m _ l' _ (pick_best m l b h e)

theorem next_best (u : State) (m : Nat) : Best m u.qm.queues (u.nextToSend m) :=
  fold_best m [] u.qm.queues none (fun e he => absurd he (by simp))

theorem find_lowest (p : Nat → Bool) (n k : Nat) (hn : n < k) (h : p n = true) (h' : ∀ j, j < n → p j = false) :
    (List.range k).find? p = some n := by
  rw [List.find?_range_eq_some]
  exact ⟨h, List.mem_range.2 hn, fun j hj => by rw [h' j hj]; rfl⟩

theorem wordsOf_length : ∀ (n : Nat) (l : List Byte), l.length = 4 * n → (wordsOf l).length = n
  | 0, l, h => by
    have : l = [] := List.length_eq_zero_iff.mp (by omega)
    subst this; rfl
  | n + 1, l, h => by
    match l, h with
    | a :: b :: c :: d :: t, h =>
      have := wordsOf_length n t (by simp at h; omega)
      simp [wordsOf, this]

theorem frame_length (st : Nat) (f : List Byte) : (frameWords st f).length = 16 * ceilDiv (16 + min f.length 240) 64 := by
  unfold frameWords padCells stampHead
  have a : ∀ (n v : Nat), (toBytes n v).length = n := fun n => by
    induction n with
    | zero => intro v; rfl
    | succ n ih => intro v; exact congrArg (· + 1) (ih _)
  have e : (toBytes 8 (st / 65536) ++ (toBytes 2 f.length ++ [if 240 < f.length then 1#8 else 0#8, 0#8]) ++ toBytes 2 (st % 65536) ++
      zeros 2 ++ List.take 240 f).length = 16 + min f.length 240 := by
    simp [a, zeros]
    omega
  rw [wordsOf_length (16 * ceilDiv (16 + min f.length 240) 64)]
  rw [List.length_append, e]
  simp [zeros, ceilDiv]
  omega

theorem row_of {a : Nat} (h : ((regRow a).any fun r => decide (r.kind ≠ .sq)) = true) : ∃ r, regRow a = some r ∧ r.kind ≠ .sq := by
  rw [Option.any_eq_true] at h
  obtain ⟨r, h1, h2⟩ := h
  exact ⟨r, h1, of_decide_eq_true h2⟩

theorem find_none (p : Nat → Bool) (k : Nat) (h : ∀ j, j < k → p j = false) : (List.range k).find? p = none :=
  List.find?_eq_none.2 fun j hj => by rw [h j (List.mem_range.1 hj)]; decide

theorem bindingFor_chosen (u : State) (m : Nat) (f : List Byte) (n q : Nat) (strict : Bool) (h : chosen u m f n q strict) :
    u.bindingFor m (frameType f) = some (n, q, strict) := by
  unfold State.bindingFor
  rcases h with ⟨h1, h2, h3, rfl, rfl⟩ | ⟨rfl, h2, h3, rfl, rfl⟩
  · rw [find_lowest (fun n => u.bindingTakes m n (frameType f)) n 63 h1 h2 h3]
  · rw [find_none (fun n => u.bindingTakes m n (frameType f)) 63 h2]
    dsimp only
    rw [if_pos h3]

theorem bindingFor_none (u : State) (m : Nat) (f : List Byte) (h : ∀ k, k < 63 → u.bindingTakes m k (frameType f) = false)
    (h2 : bitAt (u.reg (ethBase m + 0x10)) 31 = false) : u.bindingFor m (frameType f) = none := by
  unfold State.bindingFor
  rw [find_none (fun n => u.bindingTakes m n (frameType f)) 63 h]
  dsimp only
  rw [h2, if_neg (by decide)]

/-- A frame at a MAC that is up. -/
theorem frameIn_eq (u : State) (m : Nat) (f : List Byte) (good : Bool) (t : Nat) (h : u.macHere m = true) (h2 : (u.mac m).state = 2) :
    u.frameIn m f good t = if good = true ∧ 60 ≤ f.length ∧ f.length ≤ 9212 then
      match u.bindingFor m (frameType f) with
      | none => u.rxDrop m
      | some (n, q, strict) =>
        if strict && decide (240 < f.length) then u.rxDrop m
        else if (u.commitNow q (.eth (64 * m + n)) (frameWords (stampWith (u.stamp t) (s16 (u.reg (ethBase m + 0x14)) 0)) f)).2 = 0 then
          (u.commitNow q (.eth (64 * m + n)) (frameWords (stampWith (u.stamp t) (s16 (u.reg (ethBase m + 0x14)) 0)) f)).1.bump (ethBase m + 0x40)
        else (u.commitNow q (.eth (64 * m + n)) (frameWords (stampWith (u.stamp t) (s16 (u.reg (ethBase m + 0x14)) 0)) f)).1.rxDrop m
    else u.rxDrop m := by
  unfold State.frameIn
  rw [h, if_neg (by rw [decide_eq_false (show ¬ (u.mac m).state ≠ 2 from fun c => c h2)]; decide)]
  by_cases c : good = true ∧ 60 ≤ f.length ∧ f.length ≤ 9212
  · rw [if_pos c, if_neg (by rw [c.1, decide_eq_false (by omega : ¬ f.length < 60), decide_eq_false (by omega : ¬ 9212 < f.length)]; decide)]
    try rfl
  · rw [if_neg c, if_pos]
    rw [Bool.or_eq_true, Bool.or_eq_true, decide_eq_true_eq, decide_eq_true_eq]
    cases good with
    | false => exact .inl (.inl rfl)
    | true =>
      have : ¬ (60 ≤ f.length ∧ f.length ≤ 9212) := fun d => c ⟨rfl, d⟩
      by_cases e : f.length < 60
      · exact .inl (.inr e)
      · exact .inr (by omega)

/-- A MAC that is up and free takes a message. -/
theorem take_eq (u : State) (m q c : Nat) (g : Msg) (h : u.macHere m = true) (h2 : (u.mac m).state = 2) (h3 : (u.mac m).tx = none)
    (h4 : u.qmRuns = true) (hn : u.nextToSend m = some (q, g, c)) :
    u.ethTake m = if sendOk g then (u.setQueue q { u.queue q with msgs := (u.queue q).msgs.tail, away := (u.queue q).away + g.cells }).setMac m
        { u.mac m with tx := some { queue := q, msg := g, cls := c } }
      else (u.setQueue q { u.queue q with msgs := (u.queue q).msgs.tail, away := (u.queue q).away + g.cells }).txBad m q g := by
  unfold State.ethTake
  rw [h, h4, h3, if_neg (by rw [decide_eq_false (show ¬ (u.mac m).state ≠ 2 from fun c => c h2)]; decide), hn]

theorem take_idle (u : State) (m : Nat) (h : u.macHere m = false ∨ (u.mac m).state ≠ 2 ∨ (u.mac m).tx ≠ none ∨ u.qmRuns = false ∨ u.nextToSend m = none) :
    u.ethTake m = u := by
  unfold State.ethTake
  by_cases c : (!u.macHere m || decide ((u.mac m).state ≠ 2) || (u.mac m).tx.isSome || !u.qmRuns) = true
  · rw [if_pos c]
  · rw [if_neg c]
    simp only [Bool.or_eq_true, not_or, Bool.not_eq_true', decide_eq_true_eq, Bool.not_eq_false, Bool.not_eq_true, Option.isSome_eq_false_iff,
      Option.isNone_iff_eq_none] at c
    obtain ⟨⟨⟨c1, c2⟩, c3⟩, c4⟩ := c
    rcases h with h | h | h | h | h
    · rw [h] at c1; cases c1
    · exact absurd h c2
    · exact absurd c3 h
    · rw [h] at c4; cases c4
    · rw [h]

theorem sent_eq (u : State) (m t : Nat) (x : Sending) (h : (u.mac m).tx = some x) :
    u.ethSent m t = ((((u.setMac m { u.mac m with tx := none }).emit (.frame m (wireFrame (((bytesOf x.msg.words).drop 16).take (sendLength x.msg))))).freeAway
      x.queue x.msg).bump (ethBase m + 0x50)).txReport m x t := by
  unfold State.ethSent
  rw [h]

theorem report_none (u : State) (m t : Nat) (x : Sending) (h : bitAt (x.msg.words.getD 0 0#32) 16 = false ∨ bitAt (u.reg (ethBase m + 0x5F8)) 31 = false) :
    u.txReport m x t = u := by
  unfold State.txReport
  dsimp only
  rw [if_neg]
  rw [Bool.and_eq_true]
  rintro ⟨c1, c2⟩
  rcases h with h | h
  · exact absurd (h.symm.trans c1) (by decide)
  · exact absurd (h.symm.trans c2) (by decide)

theorem report_some (u : State) (m t : Nat) (x : Sending) (h : bitAt (x.msg.words.getD 0 0#32) 16 = true) (h2 : bitAt (u.reg (ethBase m + 0x5F8)) 31 = true) :
    u.txReport m x t = (u.commitNow (fld (u.reg (ethBase m + 0x5FC)) 0 16) (.eth (64 * m + 63))
      (wordsOf (padCells (stampHead (stampWith (u.stamp t) (s16 (u.reg (ethBase m + 0x14)) 16)) (toBytes 1 (fld (x.msg.words.getD 0 0#32) 24 8) ++
        toBytes 1 x.cls ++ toBytes 2 (sendLength x.msg)))))).1 := by
  unfold State.txReport
  dsimp only
  rw [if_pos]
  rw [h, show bitAt (u.reg (ethBase m + 0x400 + 8 * 63)) 31 = true from h2]; rfl

theorem cut_facts (u : State) (m : Nat) : ((u.txCut m).mac m).tx = none ∧ (u.txCut m).bays = u.bays ∧ (u.txCut m).scr = u.scr ∧
    (u.txCut m).sq (ethBase m + 0x20) = if (u.mac m).tx = none then u.sq (ethBase m + 0x20) else (u.sq (ethBase m + 0x20)).event 3 := by
  unfold State.txCut
  split
  · rename_i h
    exact ⟨h, rfl, rfl, by rw [if_pos h]⟩
  · rename_i x h
    have f : ∀ (w : State) (q : Nat) (g : Msg), (w.freeAway q g).mac m = w.mac m ∧ (w.freeAway q g).bays = w.bays ∧ (w.freeAway q g).scr = w.scr ∧
        ∀ a, (w.freeAway q g).sq a = w.sq a := by
      intro w q g
      exact ⟨rfl, rfl, rfl, fun _ => rfl⟩
    unfold State.txBad
    obtain ⟨f1, f2, f3, f4⟩ := f (u.setMac m { u.mac m with tx := none }) x.queue x.msg
    refine ⟨?_, f2, f3, ?_⟩
    rotate_left
    · rw [if_neg (by rw [h]; simp)]
      generalize (u.setMac m { u.mac m with tx := none }).freeAway x.queue x.msg = w at f4 ⊢
      exact (State.sq_event (w.bump (ethBase m + 0x58)) (ethBase m + 0x20) 3).trans (congrArg (fun z : Sq => z.event 3) (f4 _))
    show (((u.setMac m { u.mac m with tx := none }).freeAway x.queue x.msg).mac m).tx = none
    rw [f1]
    show (tgetD ({} : Mac) (tsetD {} u.macs m { u.mac m with tx := none }) m).tx = none
    rw [tgetD_tsetD_same]

/-- A MAC leaves UP. -/
theorem leave_facts (u : State) (m st : Nat) (h : (u.mac m).state = 2) :
    ((u.ethLeave m st).mac m).state = st ∧ ((u.ethLeave m st).mac m).tx = none ∧ (u.ethLeave m st).bays = u.bays ∧ (u.ethLeave m st).scr = u.scr ∧
    (u.ethLeave m st).sq (ethBase m + 0x20) = if (u.mac m).tx = none then (u.sq (ethBase m + 0x20)).event 1 else ((u.sq (ethBase m + 0x20)).event 3).event 1 := by
  unfold State.ethLeave
  rw [if_pos h]
  dsimp only
  obtain ⟨e1, e2, e3, e4⟩ := cut_facts u m
  have g : ∀ (w : State), ((w.setMac m { w.mac m with state := st }).event (ethBase m + 0x20) 1).mac m = { w.mac m with state := st } :=
    fun w => by
      show tgetD ({} : Mac) (tsetD {} w.macs m { w.mac m with state := st }) m = _
      rw [tgetD_tsetD_same]
  rw [g]
  refine ⟨rfl, e1, e2, e3, ?_⟩
  rw [State.sq_event]
  show ((u.txCut m).sq (ethBase m + 0x20)).event 1 = _
  rw [e4]
  split <;> rfl

end Sys2Proof.Laws.Frames
end

