-- ==== Sys2Proof/Laws/Scribe.lean ====
section
/-!
SUPPORT. What the scribe's operations do: the decision log, slots, the steps of page and task moves.
-/
namespace Sys2Proof.Machine

theorem log_off (u : State) (r : LogRec) (h : bitAt (u.reg 0x400C0) 31 = false) : u.log r = u := by
  unfold State.log
  dsimp only
  rw [h]
  rfl

theorem setQueue_fold_rest (f : State → Nat → State) (hf : ∀ u q, ∃ x, f u q = { u with qm := x }) :
    ∀ (l : List Nat) (u : State), ∃ x, l.foldl f u = { u with qm := x }
  | [], u => ⟨u.qm, rfl⟩
  | q :: l, u => by
    obtain ⟨x, e⟩ := hf u q
    obtain ⟨y, e2⟩ := setQueue_fold_rest f hf l (f u q)
    rw [List.foldl_cons, e2, e]
    exact ⟨y, rfl⟩

theorem thaw_rest (u : State) (l : List Nat) : ∃ x, u.thaw l = { u with qm := x } := by
  refine setQueue_fold_rest _ (fun w q => ?_) l u
  split
  · exact ⟨_, rfl⟩
  · exact ⟨w.qm, rfl⟩

theorem rehome_rest (u : State) (t n : Nat) : ∃ x, u.rehome t n = { u with qm := x } :=
  setQueue_fold_rest _ (fun w q => ⟨_, rfl⟩) _ u

theorem copyTask_rest (u : State) (t a b : Nat) : ∃ x, u.copyTask t a b = { u with bays := x } := by
  unfold State.copyTask
  generalize u.regions t = l
  induction l generalizing u with
  | nil => exact ⟨u.bays, rfl⟩
  | cons r l ih =>
    rw [List.foldl_cons]
    have : ∃ y, (if r.1 < r.2 then u.copyRegion a b r else u) = { u with bays := y } := by
      split
      · exact ⟨_, rfl⟩
      · exact ⟨u.bays, rfl⟩
    obtain ⟨y, e⟩ := this
    obtain ⟨x, e2⟩ := ih (if r.1 < r.2 then u.copyRegion a b r else u)
    rw [e2, e]
    exact ⟨x, rfl⟩

def slotIn (i : Nat) (sl : Slot) (x : Bay) : Bay :=
  ({ x with qio := { x.qio with slots := tsetD none x.qio.slots i (some sl) } } : Bay).placement 2 i

theorem enterSlot_facts (u : State) (k d i : Nat) :
    (u.enterSlot k d i).taskWord k 0 = (u.taskWord k 0 &&& 0xE000FFFF#32) ||| wd (2 ^ 28 + i % 16 * 2 ^ 24 + d % 256 * 2 ^ 16) ∧
    tgetD none ((u.enterSlot k d i).bay d).qio.slots i = some (u.slotFor k) ∧ (u.enterSlot k d i).regs = u.regs ∧
    (u.enterSlot k d i).ddr = u.ddr ∧ (u.enterSlot k d i).stg = u.stg ∧
    (u.enterSlot k d i).scr.taskMoves = u.scr.taskMoves := by
  have e0 : u.enterSlot k d i =
      { ((u.setTaskWord k 0 (u.taskWord k 0 &&& 0xE000FFFF#32 ||| wd (2 ^ 28 + i % 16 * 2 ^ 24 + d % 256 * 2 ^ 16))).onBay d (slotIn i (u.slotFor k))).rehome k (d / 16) with
        scr := { (((u.setTaskWord k 0 (u.taskWord k 0 &&& 0xE000FFFF#32 ||| wd (2 ^ 28 + i % 16 * 2 ^ 24 + d % 256 * 2 ^ 16))).onBay d (slotIn i (u.slotFor k))).rehome k (d / 16)).scr with
          homeless := u.scr.homeless.filter (· ≠ k) } } := rfl
  rw [e0]
  generalize hw : (u.setTaskWord k 0 (u.taskWord k 0 &&& 0xE000FFFF#32 ||| wd (2 ^ 28 + i % 16 * 2 ^ 24 + d % 256 * 2 ^ 16))) = w
  generalize hz : slotIn i (u.slotFor k) = z
  obtain ⟨x, e⟩ := rehome_rest (w.onBay d z) k (d / 16)
  rw [e]
  refine ⟨?_, ?_, ?_, ?_, ?_, ?_⟩
  · show w.taskWord k 0 = _
    rw [← hw]
    exact tgetD_tsetD_same _ _ _ _
  · show tgetD none ((w.onBay d z).bay d).qio.slots i = _
    rw [State.bay_onBay, ← hz]
    exact tgetD_tsetD_same none (w.bay d).qio.slots i (some (u.slotFor k))
  · rw [← hw]; rfl
  · rw [← hw]; rfl
  · rw [← hw]; rfl
  · rw [← hw]; rfl

theorem taskOver_abandon (u : State) (m : TaskMove) (h2 : m.command = false) (h3 : m.evac = false)
    (h4 : bitAt (u.reg 0x400C0) 31 = false) :
    u.taskMoveOver m 2 = (({ u with scr := { u.scr with taskMoves := u.scr.taskMoves.filter fun x => decide (x.task ≠ m.task) } } : State).bump 0x40110).event 0x40020 0 := by
  unfold State.taskMoveOver
  generalize hv : ({ u with scr := { u.scr with taskMoves := u.scr.taskMoves.filter fun x => decide (x.task ≠ m.task) } } : State) = v
  have h : bitAt (v.reg 0x400C0) 31 = false := by rw [← hv]; exact h4
  extract_lets s0 s1 s2 s3
  have e1 : s1 = v := log_off v _ h
  have e2 : s2 = (v.bump 0x40110).event 0x40020 0 := by rw [← e1]; rfl
  have e3 : s3 = s2 := if_neg (by simp [h2])
  rw [e3, e2, h3]
  cases ((v.bump 0x40110).event 0x40020 0).scr.evac <;> rfl

theorem drained_copies (u : State) (k d : Nat) (m : TaskMove) (h : u.taskMove k = some m) (hd : m.dst = some d) (h0 : m.phase = 4)
    (h1 : (u.bay m.src).running k = false) (h2 : (u.bay m.src).sending k = false) :
    u.drained k = { u with scr := { u.scr with taskMoves := u.scr.taskMoves.map fun x =>
        if x.task = k then { x with phase := 6 } else x } } := by
  unfold State.drained
  rw [h]
  dsimp only
  rw [if_neg (by simp [h0, h1, h2]), if_neg (by simp [hd])]

/-- What the decisions of an epoch keep. -/
def heatView (u : State) : Tab Nat × Nat × Tab Nat × Tab PageEnt := (u.regs.cnts, u.scr.us, u.scr.counts, u.scr.pages)

/-- A write of whole words merges nothing: only the bank changes. -/
theorem stgPut_whole (u : State) (n a : Nat) (data : List Byte) (bad : List Nat) (ha : a % 4 = 0)
    (hl : data.length % 4 = 0) : ∃ x, u.stgPut n a data bad = { u with stg := x } := by
  have e : (wordSpan a data.length).filter (fun w => !wholeWord a data.length w) = [] := by
    rw [List.filter_eq_nil_iff]
    intro w hw
    unfold wordSpan at hw
    rw [List.mem_map] at hw
    obtain ⟨i, hi, rfl⟩ := hw
    rw [List.mem_range] at hi
    simp only [wholeWord, Bool.not_eq_true', Bool.and_eq_false_iff, decide_eq_false_iff_not, not_or, not_not]
    omega
  unfold State.stgPut
  dsimp only
  rw [e]
  exact ⟨_, rfl⟩

/-- A log record changes the log's bank, its head and the registers that tell a refusal. -/
theorem log_rest (u : State) (r : LogRec) : ∃ S W Q h, u.log r =
    { u with stg := S, regs := { u.regs with words := W, sqs := Q }, scr := { u.scr with logHead := h } } := by
  have h : ∀ (a b : Nat) (ws : List Word), ∃ S W Q, (u.stgWrite .scribe (a * 0x40000 + b * 32) (bytesOf ws) []).1 =
      { u with stg := S, regs := { u.regs with words := W, sqs := Q } } := by
    intro a b ws
    have hl : (bytesOf ws).length % 4 = 0 := by
      induction ws with
      | nil => rfl
      | cons w t ih => simp only [bytesOf, List.flatMap_cons, List.length_append, toBytes_length] at ih ⊢; omega
    unfold State.stgWrite
    dsimp only
    split
    · exact ⟨_, _, _, rfl⟩
    · split
      · rename_i e _
        cases e <;> exact ⟨_, _, _, rfl⟩
      · obtain ⟨x, e⟩ := stgPut_whole u ((a * 0x40000 + b * 32) / 0x40000) ((a * 0x40000 + b * 32) % 0x40000) (bytesOf ws) []
          (by omega) hl
        dsimp only
        rw [e]
        exact ⟨_, _, _, rfl⟩
  unfold State.log
  dsimp only
  split
  · exact ⟨_, _, _, _, rfl⟩
  · split
    · exact ⟨_, _, _, _, rfl⟩
    · split
      · rename_i hx _ _
        obtain ⟨S, W, Q, q⟩ := h (fld (u.reg 0x400C0) 0 8) u.scr.logHead _
        rw [q]
        exact ⟨_, _, _, _, rfl⟩
      · obtain ⟨S, W, Q, q⟩ := h (fld (u.reg 0x400C0) 0 8) u.scr.logHead _
        rw [q]
        exact ⟨_, _, _, _, rfl⟩

theorem log_view (u : State) (r : LogRec) : heatView (u.log r) = heatView u := by
  obtain ⟨S, W, Q, h, e⟩ := log_rest u r
  rw [e]
  rfl

theorem restorePin_view (u : State) (k : Nat) : heatView (u.restorePin k) = heatView u := by
  have p : ∀ r o, heatView (u.pinBlocked k r o) = heatView u := fun r o => (log_view _ _).trans rfl
  unfold State.restorePin
  dsimp only
  split
  · rfl
  · split
    · rfl
    · split
      · exact p _ _
      · split
        · split <;> rfl
        · exact p _ _

theorem promote_rest (u : State) (k : Nat) : ∃ d, u.promote k = { u with scr := { u.scr with decided := d } } := by
  unfold State.promote
  split
  · exact ⟨_, rfl⟩
  · split
    · exact ⟨_, rfl⟩
    · split
      · exact ⟨_, rfl⟩
      · split
        · exact ⟨_, rfl⟩
        · dsimp only
          split
          · split
            · exact ⟨_, rfl⟩
            · exact ⟨_, rfl⟩
          · exact ⟨_, rfl⟩

theorem balanceBay_view (u : State) (p : State × Tab Nat) (b : Nat) : heatView (u.balanceBay p b).1 = heatView p.1 := by
  unfold State.balanceBay
  dsimp only
  split
  · rfl
  · split <;> rfl

theorem balance_view (u : State) : heatView u.balance = heatView u := by
  unfold State.balance
  dsimp only
  exact foldl_keeps (fun p : State × Tab Nat => heatView p.1) _ (fun p b => balanceBay_view u p b) _ _

theorem busyTasks_view (u : State) : heatView u.busyTasks = heatView u ∧ u.busyTasks.scr.decided = u.scr.decided ∧
    u.busyTasks.scr.decidedTasks = u.scr.decidedTasks := by
  have h := foldl_keeps (fun u : State => (heatView u, u.scr.decided, u.scr.decidedTasks)) (fun x t =>
    let b := u.taskBay t
    let i := u.taskSlot t
    match tgetD none (x.bay b).qio.slots i with
    | some sl =>
      (x.setTaskWord t 7 (wd (if sl.cycles < 2 ^ 32 then sl.cycles else 2 ^ 32 - 1))).onBay b fun y =>
        { y with qio := { y.qio with slots := tsetD none y.qio.slots i (some { sl with cycles := 0 }) } }
    | none => x) (by intro x k; dsimp only; split <;> rfl) (u.taskList.filter fun t => u.taskPlaced t) u
  simp only [Prod.mk.injEq] at h
  exact h

theorem epochEnd_view (u : State) (h1 : u.stgOn = true) (h2 : u.rsu.raised = true) :
    heatView u.epochEnd = heatView ({ u.bump 0x40010 with scr := { u.scr with us := (u.scr.us / 1000 + 1) * 1000, decided := [], decidedTasks := [] } } : State).heatPages ∧
    (bitAt (u.reg 0x40000) 0 = false → u.epochEnd.scr.decided = [] ∧ u.epochEnd.scr.decidedTasks = []) := by
  unfold State.epochEnd
  rw [if_neg (by simp [h1, h2])]
  dsimp only
  obtain ⟨v1, v2, v3⟩ := busyTasks_view ({ u.bump 0x40010 with scr := { u.scr with us := (u.scr.us / 1000 + 1) * 1000, decided := [], decidedTasks := [] } } : State).heatPages
  have hb : bitAt (({ u.bump 0x40010 with scr := { u.scr with us := (u.scr.us / 1000 + 1) * 1000, decided := [], decidedTasks := [] } } : State).heatPages.busyTasks.reg 0x40000) 0 = bitAt (u.reg 0x40000) 0 := by
    have : ∀ w : State, w.busyTasks.reg 0x40000 = w.reg 0x40000 := by
      intro w
      exact foldl_keeps (fun x : State => x.reg 0x40000) _ (by intro x k; dsimp only; split <;> rfl) _ _
    rw [this]; rfl
  split
  · rename_i hc
    refine ⟨?_, fun h => absurd (hb.symm.trans hc) (by simp [h])⟩
    rw [foldl_keeps heatView _ (fun x k => by obtain ⟨d, e⟩ := promote_rest x k; rw [e]; rfl), balance_view,
      foldl_keeps heatView _ restorePin_view]
    exact v1
  · exact ⟨v1, fun _ => ⟨v2, v3⟩⟩

/-- A pass that nothing keeps. -/
theorem copyPass_eq (u : State) (k : Nat) (m : PageMove) (r : Bool) (h : u.moveOf k = some m) (h0 : m.phase = 0)
    (hr : r = true → tierOf m.dst ≠ 3) (hc : u.copying k = false) (hs : u.placeWaits m.src = false)
    (ht : u.placeWaits m.dst = false) :
    u.copyPass k r = (let s1 := u.onMove k fun x => { x with passes := m.passes + 1 }
      if m.dirty.length ≤ fld (u.reg 0x40004) 12 6 + 1 then s1.setFence k
      else if 8 ≤ m.passes + 1 then s1.abandon { m with passes := m.passes + 1 } 1
      else (s1.copyLines k m.dirty).onMove k fun x => { x with dirty := [] }) := by
  unfold State.copyPass
  rw [h]
  dsimp only
  rw [if_neg (by simp [h0]), if_neg (by cases r <;> simp_all), if_neg (by simp [hc, hs, ht])]
  rfl

theorem copyPass_fence (u : State) (k : Nat) (m : PageMove) (r : Bool) (h : u.moveOf k = some m) (h0 : m.phase = 0)
    (hr : r = true → tierOf m.dst ≠ 3) (hd : m.dirty.length ≤ fld (u.reg 0x40004) 12 6 + 1) (hc : u.copying k = false)
    (hs : u.placeWaits m.src = false) (ht : u.placeWaits m.dst = false) :
    u.copyPass k r = (u.onMove k fun x => { x with passes := m.passes + 1 }).setFence k := by
  rw [copyPass_eq u k m r h h0 hr hc hs ht]
  exact if_pos hd

theorem copyPass_again (u : State) (k : Nat) (m : PageMove) (r : Bool) (h : u.moveOf k = some m) (h0 : m.phase = 0)
    (hr : r = true → tierOf m.dst ≠ 3) (hd : fld (u.reg 0x40004) 12 6 + 1 < m.dirty.length) (hp : m.passes + 1 < 8)
    (hc : u.copying k = false) (hs : u.placeWaits m.src = false) (ht : u.placeWaits m.dst = false) :
    u.copyPass k r = ((u.onMove k fun x => { x with passes := m.passes + 1 }).copyLines k m.dirty).onMove k
      fun x => { x with dirty := [] } := by
  rw [copyPass_eq u k m r h h0 hr hc hs ht]
  dsimp only
  rw [if_neg (by omega), if_neg (by omega)]

theorem copyPass_eighth (u : State) (k : Nat) (m : PageMove) (r : Bool) (h : u.moveOf k = some m) (h0 : m.phase = 0)
    (hr : r = true → tierOf m.dst ≠ 3) (hd : fld (u.reg 0x40004) 12 6 + 1 < m.dirty.length) (hp : 8 ≤ m.passes + 1)
    (hc : u.copying k = false) (hs : u.placeWaits m.src = false) (ht : u.placeWaits m.dst = false) :
    u.copyPass k r = (u.onMove k fun x => { x with passes := m.passes + 1 }).abandon { m with passes := m.passes + 1 } 1 := by
  rw [copyPass_eq u k m r h h0 hr hc hs ht]
  dsimp only
  rw [if_neg (by omega), if_pos hp]

theorem filter_map_key (l : List PageMove) (k : Nat) (f : PageMove → PageMove) (h : ∀ x, (f x).key = x.key) :
    (l.map fun m => if m.key = k then f m else m).filter (fun x => decide (x.key ≠ k)) =
      l.filter fun x => decide (x.key ≠ k) := by
  induction l with
  | nil => rfl
  | cons x t ih =>
    rw [List.map_cons, List.filter_cons, List.filter_cons, ih]
    by_cases hx : x.key = k
    · simp [hx, h]
    · simp [hx]

/-- The move of a page after a change of it. -/
theorem onMove_of (u : State) (k : Nat) (m : PageMove) (f : PageMove → PageMove) (h : u.moveOf k = some m)
    (hf : ∀ x, (f x).key = x.key) : (u.onMove k f).moveOf k = some (f m) := by
  unfold State.moveOf at h ⊢
  show (u.scr.moves.map fun m => if m.key = k then f m else m).find? _ = _
  generalize u.scr.moves = l at h
  induction l with
  | nil => cases h
  | cons x t ih =>
    rw [List.map_cons, List.find?_cons]
    rw [List.find?_cons] at h
    by_cases hx : x.key = k
    · simp only [hx, if_true, hf, decide_true] at h ⊢
      cases h; rfl
    · simp only [hx, if_false, decide_false] at h ⊢
      exact ih h

theorem taskMove_key (u : State) (k : Nat) (m : TaskMove) (h : u.taskMove k = some m) : m.task = k := by
  have := List.find?_some h
  simpa using this

theorem onMove_moves (u : State) (k : Nat) (f : PageMove → PageMove) :
    (u.onMove k f).scr.moves = u.scr.moves.map fun m => if m.key = k then f m else m := rfl

theorem map_twice (l : List PageMove) (k : Nat) (f g : PageMove → PageMove) (h : ∀ x, x.key = k → (f x).key = k) :
    (l.map fun m => if m.key = k then f m else m).map (fun m => if m.key = k then g m else m) =
      l.map fun m => if m.key = k then g (f m) else m := by
  rw [List.map_map]
  apply List.map_congr_left
  intro x _
  dsimp only [Function.comp]
  by_cases hx : x.key = k
  · simp [hx, h x hx]
  · simp [hx]

/-! ## The copy -/

theorem timed_rest (c : Nat) : ∀ (n : Nat) (u : State), ∃ f r, u.timed c n = { u with free := f, regs := r }
  | 0, u => ⟨u.free, u.regs, rfl⟩
  | n + 1, u => by
    have e : ∃ r, u.draw.1.channelTime c (u.draw.2.toNat % 1024) = { u.draw.1 with regs := r } := by
      unfold State.channelTime
      dsimp only
      repeat' (first | exact ⟨_, rfl⟩ | split)
    obtain ⟨r, e⟩ := e
    obtain ⟨f', r', e'⟩ := timed_rest c n (u.draw.1.channelTime c (u.draw.2.toNat % 1024))
    refine ⟨f', r', ?_⟩
    show ((u.draw.1.channelTime c (u.draw.2.toNat % 1024)).timed c n) = _
    rw [e', e]
    rfl

theorem claimPort_rest (b : Bay) (n : Nat) (w : Bool) : ∃ p, b.claimPort n w = { b with pipe := p } := by
  unfold Bay.claimPort
  split
  · exact ⟨_, rfl⟩
  · exact ⟨b.pipe, rfl⟩

/-- Between u and v only free values, registers and what the bays have in progress differ. -/
def CopyRest (u v : State) : Prop :=
  ∃ f r B, v = { u with free := f, regs := r, bays := B } ∧ ∀ b, ∃ p, v.bay b = { u.bay b with pipe := p }

theorem CopyRest.trans {u v w : State} (h : CopyRest u v) (k : CopyRest v w) : CopyRest u w := by
  obtain ⟨f, r, B, rfl, h⟩ := h
  obtain ⟨f', r', B', rfl, k⟩ := k
  refine ⟨f', r', B', rfl, fun b => ?_⟩
  obtain ⟨p, e⟩ := h b
  obtain ⟨q, e'⟩ := k b
  exact ⟨q, by rw [e', e]⟩

theorem claimLines_rest (u : State) (w : Word) (n : Nat) : CopyRest u (u.claimLines w n) := by
  unfold State.claimLines
  split
  · refine ⟨u.free, u.regs, _, rfl, fun b => ?_⟩
    by_cases h : b = fld w 0 8
    · subst h
      rw [State.bay_onBay]
      exact claimPort_rest _ _ _
    · exact ⟨(u.bay b).pipe, State.bay_onBay_ne _ _ h⟩
  · exact ⟨_, _, _, rfl, fun b => ⟨_, rfl⟩⟩

theorem timeLines_rest (u : State) (w : Word) (n : Nat) : CopyRest u (u.timeLines w n) := by
  unfold State.timeLines
  split
  · obtain ⟨f, r, e⟩ := timed_rest (fld w 0 26 / 2 ^ 23) n u
    rw [e]
    exact ⟨f, r, u.bays, rfl, fun b => ⟨_, rfl⟩⟩
  · exact ⟨_, _, _, rfl, fun b => ⟨_, rfl⟩⟩

/-- Lines of a page that moves within the device: ports are taken and channels measured, and no page moves. -/
theorem copyLines_local (u : State) (k : Nat) (m : PageMove) (ls : List Nat) (h : u.moveOf k = some m)
    (hs : tierOf m.src ≠ 3) (hd : tierOf m.dst ≠ 3) : CopyRest u (u.copyLines k ls) := by
  unfold State.copyLines
  rw [h]
  dsimp only
  rw [if_neg hs, if_neg hd]
  exact (((claimLines_rest _ _ _).trans (claimLines_rest _ _ _)).trans (timeLines_rest _ _ _)).trans (timeLines_rest _ _ _)

/-- What a page is read as is what its place holds. -/
theorem readPage_byte (u : State) (w : Word) (rem : List Byte) (bad : List Nat) (h : tierOf w ≠ 3) (i : Nat) :
    (u.readPage w rem bad).2.byte i = u.placeByte w i := by
  have ht : tierOf w < 4 := Nat.mod_lt _ (by decide)
  unfold State.readPage State.placeByte
  dsimp only
  generalize tierOf w = n at *
  obtain rfl | rfl | rfl : n = 0 ∨ n = 1 ∨ n = 2 := by omega
  all_goals rfl

theorem queued_page (q : List WLine) (base l : Nat) (h : base ≤ l ∧ l < base + 1024) :
    (q.filter fun e => !(decide (base ≤ e.line) && decide (e.line < base + 1024))).find? (fun e => decide (e.line = l)) = none := by
  rw [List.find?_eq_none]
  intro e he
  rw [List.mem_filter] at he
  have := he.2
  simp only [Bool.not_eq_true', Bool.and_eq_false_iff, decide_eq_false_iff_not] at this
  simp only [decide_eq_true_eq]
  omega

/-- A page that has been written reads as the data. -/
theorem writePage_byte (u : State) (w : Word) (d : PageData) (h : tierOf w ≠ 3) (i : Nat) (hi : i < 65536) :
    (u.writePage w d).placeByte w i = d.byte i := by
  have ht : tierOf w < 4 := Nat.mod_lt _ (by decide)
  unfold State.writePage State.placeByte
  dsimp only
  generalize tierOf w = n at *
  obtain rfl | rfl | rfl : n = 0 ∨ n = 1 ∨ n = 2 := by omega
  · show (State.bay (State.onBay _ _ _) _).scratch.byte _ = _
    rw [State.bay_onBay]
    show (Mem.splice _ _ _ _).byte _ = _
    rw [Mem.byte_splice, if_pos (by omega)]
    congr 1
    omega
  · show (State.bank (State.setBank _ _ _) _).mem.byte _ = _
    rw [State.bank_setBank]
    show (Mem.splice _ _ _ _).byte _ = _
    rw [Mem.byte_splice, if_pos (by omega)]
    congr 1
    omega
  · show Chan.see (State.chan (State.setChan _ _ _) _) _ = _
    rw [State.chan_setChan]
    unfold Chan.see Chan.queued
    dsimp only
    have e : fld w 0 26 * 65536 / 64 = fld w 0 26 * 1024 := by omega
    rw [e, queued_page _ _ _ (by omega)]
    dsimp only
    rw [Mem.byte_splice, if_pos (by omega)]
    congr 1
    omega

/-- What the end of a move that nothing keeps does. -/
theorem completeMove_eq (u : State) (k ns : Nat) (rem : List Byte) (m : PageMove) (h : u.moveOf k = some m) (hk : m.key = k)
    (h0 : m.phase = 2) (hc : u.copying k = false)
    (hs : u.placeWaits m.src = false) (hd : u.placeWaits m.dst = false) (t : State)
    (ht : t = (u.readPage m.src (m.image rem) m.imageBad).1.writePage m.dst (u.readPage m.src (m.image rem) m.imageBad).2)
    (hr : bitAt (t.reg 0x400C0) 31 = false) :
    let v := ((t.setPage k { t.page k with w0 := placeOf m.dst }).dropMove k).bump 0x40100
    let w := if m.command then v.endPageCmd 0 else v
    u.completeMove k ns rem = if tierOf m.src < tierOf m.dst then w.tellSlower k (tierOf m.dst) else w := by
  have e : ∀ x : State, bitAt (x.reg 0x400C0) 31 = false → x.moveOver m 0 ns =
      if m.command then ((x.dropMove k).bump 0x40100).endPageCmd 0 else (x.dropMove k).bump 0x40100 := by
    intro x hx
    unfold State.moveOver
    dsimp only
    rw [hk, log_off _ _ (show bitAt ((x.dropMove k).reg 0x400C0) 31 = false from hx)]
    rfl
  unfold State.completeMove
  rw [h]
  dsimp only
  rw [if_neg (by simp [h0, hc, hs, hd]), ← ht, e (t.setPage k { t.page k with w0 := placeOf m.dst }) hr]

/-- The end of a page move drops it, counts and logs; with the log off nothing of staging changes. -/
theorem moveOver_rest (u : State) (m : PageMove) (n ns : Nat) : ∃ S R h b p,
    u.moveOver m n ns = { u.dropMove m.key with
      stg := S, regs := R, scr := { (u.dropMove m.key).scr with logHead := h, pbusy := b, pres := p } } ∧
    (bitAt (u.reg 0x400C0) 31 = false → S = u.stg) := by
  unfold State.moveOver
  dsimp only
  generalize hr : (LogRec.mk _ _ _ _ _ _ _ _ _ _ _) = r
  obtain ⟨S, W, Q, h, e⟩ := log_rest (u.dropMove m.key) r
  have o : bitAt (u.reg 0x400C0) 31 = false → S = u.stg := fun hb => by
    have l := log_off (u.dropMove m.key) r hb
    rw [e] at l
    exact congrArg State.stg l
  rw [e]
  split <;> split <;> exact ⟨_, _, _, _, _, rfl, o⟩

/-- What the end of a move that nothing keeps does, with the log on or off. -/
theorem completeMove_rest (u : State) (k ns : Nat) (rem : List Byte) (m : PageMove) (h : u.moveOf k = some m) (hk : m.key = k)
    (h0 : m.phase = 2) (hc : u.copying k = false) (hs : u.placeWaits m.src = false) (hd : u.placeWaits m.dst = false) (t : State)
    (ht : t = (u.readPage m.src (m.image rem) m.imageBad).1.writePage m.dst (u.readPage m.src (m.image rem) m.imageBad).2) :
    ∃ v : State, v = (t.setPage k { t.page k with w0 := placeOf m.dst }).moveOver m 0 ns ∧
      u.completeMove k ns rem = if tierOf m.src < tierOf m.dst then v.tellSlower k (tierOf m.dst) else v := by
  refine ⟨_, rfl, ?_⟩
  unfold State.completeMove
  rw [h]
  dsimp only
  rw [if_neg (by simp [h0, hc, hs, hd]), ← ht]

/-- Bays told of a slower place change only what the notice says. -/
theorem tellSlower_rest (u : State) (k tier : Nat) : ∃ B, u.tellSlower k tier = { u with bays := B } ∧
    ∀ b, ((u.tellSlower k tier).bay b).scratch = (u.bay b).scratch ∧ ((u.tellSlower k tier).bay b).smarks = (u.bay b).smarks ∧
      ((u.tellSlower k tier).bay b).state = (u.bay b).state ∧ ((u.tellSlower k tier).bay b).gp = (u.bay b).gp := by
  have f : ∀ (l : List (Nat × Nat)) (w : State) (g : State → Nat × Nat → State),
      (∀ x m, (∃ h : Bay → Bay, g x m = x.onBay m.1 h ∧
        ∀ y, (h y).scratch = y.scratch ∧ (h y).smarks = y.smarks ∧ (h y).state = y.state ∧ (h y).gp = y.gp) ∨ g x m = x) →
      ∃ B, l.foldl g w = { w with bays := B } ∧ ∀ b, ((l.foldl g w).bay b).scratch = (w.bay b).scratch ∧
        ((l.foldl g w).bay b).smarks = (w.bay b).smarks ∧ ((l.foldl g w).bay b).state = (w.bay b).state ∧
        ((l.foldl g w).bay b).gp = (w.bay b).gp := by
    intro l
    induction l with
    | nil => exact fun w g _ => ⟨_, rfl, fun b => ⟨rfl, rfl, rfl, rfl⟩⟩
    | cons m t ih =>
      intro w g hg
      obtain ⟨B, e, p⟩ := ih (g w m) g hg
      rcases hg w m with ⟨h, h2, h1⟩ | h2
      case inr => rw [List.foldl_cons]; rw [h2] at e p ⊢; exact ⟨B, e, p⟩
      refine ⟨B, ?_, fun b => ?_⟩
      · rw [List.foldl_cons, e, h2]; rfl
      · rw [List.foldl_cons]
        obtain ⟨p1, p2, p3, p4⟩ := p b
        rw [p1, p2, p3, p4, h2]
        by_cases hb : b = m.1
        · subst hb; rw [State.bay_onBay]; exact h1 _
        · rw [State.bay_onBay_ne _ _ hb]; exact ⟨rfl, rfl, rfl, rfl⟩
  unfold State.tellSlower
  refine f _ u _ fun x m => ?_
  by_cases hc : u.winClass m < tier ∧ k % 4096 ≤ fld ((u.bay m.1).winA m.2) 0 12
  · rw [if_pos hc]
    exact Or.inl ⟨_, rfl, fun y => ⟨rfl, rfl, rfl, rfl⟩⟩
  · rw [if_neg hc]
    exact Or.inr rfl

/-- The end of a task move that completes: it is dropped, counted and logged. -/
theorem taskOver_rest (u : State) (m : TaskMove) : ∃ S R h b p, u.taskMoveOver m 0 = { u with
    stg := S, regs := R, scr := { u.scr with
      taskMoves := u.scr.taskMoves.filter (fun x => decide (x.task ≠ m.task)), logHead := h, tbusy := b, tres := p } } := by
  unfold State.taskMoveOver
  dsimp only
  generalize hr : (LogRec.mk _ _ _ _ _ _ _ _ _ _ _) = r
  generalize hv : ({ u with scr := { u.scr with taskMoves := u.scr.taskMoves.filter fun x => decide (x.task ≠ m.task) } } : State) = v
  obtain ⟨S, W, Q, h, e⟩ := log_rest v r
  rw [if_pos rfl, e]
  generalize m.command = c
  generalize m.dst.isSome = d
  subst hv
  cases c <;> cases d <;> exact ⟨_, _, _, _, _, rfl⟩

theorem completeTask_facts (u : State) (k d : Nat) (m : TaskMove) (h : u.taskMove k = some m) (hd : m.dst = some d) (hk : m.task = k)
    (h0 : m.phase = 6) (h4 : (u.bay m.src).march = false) (h5 : (u.bay d).march = false)
    (h6 : (u.bay m.src).state = 3 → ((u.copyTask k m.src d).bay m.src).state = 3) :
    (u.completeTask k).scr.taskMoves = u.scr.taskMoves.filter (fun x => decide (x.task ≠ k)) ∧
    (u.completeTask k).taskWord k 0 = (u.taskWord k 0 &&& 0xE000FFFF#32) ||| wd (2 ^ 28 + m.slot % 16 * 2 ^ 24 + d % 256 * 2 ^ 16) ∧
    tgetD none ((u.completeTask k).bay d).qio.slots m.slot = some (u.slotFor k) ∧ (u.completeTask k).ddr = u.ddr := by
  obtain ⟨x, e⟩ := copyTask_rest u k m.src d
  generalize hv : (({ u with bays := x } : State).leaveSlot k) = v
  have v0 : v.taskWord k 0 = u.taskWord k 0 &&& 0xE000FFFF#32 := by rw [← hv]; exact tgetD_tsetD_same _ _ _ _
  have vn : ∀ n, n ≠ 0 → v.taskWord k n = u.taskWord k n := fun n hn => by rw [← hv]; exact tgetD_tsetD_ne _ _ _ (by omega)
  have vs : v.slotFor k = u.slotFor k := by
    unfold State.slotFor
    rw [vn 2 (by decide), vn 3 (by decide), vn 4 (by decide)]
  obtain ⟨f1, f2, f3, f4, f5, f6⟩ := enterSlot_facts v k d m.slot
  generalize hw : v.enterSlot k d m.slot = w at f1 f2 f3 f4 f5 f6
  obtain ⟨q, eq⟩ := thaw_rest w m.frozen
  obtain ⟨S, R, lh, tb, tr, eo⟩ := taskOver_rest ({ w with qm := q } : State) m
  have e2 : u.completeTask k = ({ w with qm := q } : State).taskMoveOver m 0 := by
    unfold State.completeTask
    rw [h]
    dsimp only
    rw [h0, hd]
    show (if ((u.bay m.src).march || (u.bay d).march) = true then u
      else if (u.bay m.src).state = 3 ∧ ((u.copyTask k m.src d).bay m.src).state ≠ 3 then u.copyTask k m.src d
      else _) = _
    rw [if_neg (by simp [h4, h5]), if_neg (by rintro ⟨a, b⟩; exact b (h6 a))]
    show ((((u.copyTask k m.src d).leaveSlot k).enterSlot k d m.slot).thaw m.frozen).taskMoveOver m 0 = _
    rw [e, hv, hw, eq]
  rw [e2, eo]
  refine ⟨?_, ?_, ?_, ?_⟩
  · show w.scr.taskMoves.filter _ = _
    rw [f6, hk, ← hv]; rfl
  · show w.taskWord k 0 = _
    rw [f1, v0]
    congr 1
    rw [BitVec.and_assoc]; rfl
  · show tgetD none (w.bay d).qio.slots m.slot = _
    rw [f2, vs]
  · show w.ddr = _
    rw [f4, ← hv]; rfl

theorem moveOf_key (u : State) (k : Nat) (m : PageMove) (h : u.moveOf k = some m) : m.key = k := by
  have := List.find?_some h
  simpa using this

end Sys2Proof.Machine
end

