-- ==== Sys2Proof/Laws/Guests.lean ====
section
/-!
SUPPORT. What guest accesses, fences and route commands do to a state.
-/
namespace Sys2Proof.Laws.Guests
open Sys2Proof Sys2Proof.Machine Sys2Proof.Laws.Channels

theorem link_view {u v : State} (h : LinkRest u v) : v.qm = u.qm ∧ v.bays = u.bays ∧ v.ddr = u.ddr ∧ v.scr = u.scr ∧
    v.regs.sqs = u.regs.sqs ∧ v.scf.reqs = u.scf.reqs ∧ v.scf.routes = u.scf.routes ∧ v.scf.upd = u.scf.upd ∧
    v.scf.fences = u.scf.fences ∧ v.scf.rtres = u.scf.rtres := by
  obtain ⟨P, g, o, rfl⟩ := h
  exact ⟨rfl, rfl, rfl, rfl, rfl, rfl, rfl, rfl, rfl, rfl⟩

theorem row_of {a : Nat} (h : ((regRow a).any fun r => decide (r.kind ≠ .sq)) = true) : ∃ r, regRow a = some r ∧ r.kind ≠ .sq := by
  rw [Option.any_eq_true] at h
  obtain ⟨r, h1, h2⟩ := h
  exact ⟨r, h1, of_decide_eq_true h2⟩

theorem rt_go (u : State) (v : Word) (h : u.reachable 0x78018 = true) (h1 : u.scf.upd = none) :
    u.regWrite .host 0x78018 v = match fld v 0 2 with | 1 => u.rtRead | 2 => u.rtWrite | 3 => u.rtUpdate | _ => u := by
  obtain ⟨r, hr, hk⟩ := row_of (a := 0x78018) (by decide)
  rw [u.regWrite_scf .host v h hr hk (by decide) (by decide)]
  unfold State.scfWrite
  rw [if_neg (by decide), if_neg (by decide), if_neg (by decide), if_pos rfl, if_neg (by simp [h1])]
  all_goals rfl

theorem rt_busy (u : State) (v : Word) (h : u.reachable 0x78018 = true) (h1 : u.scf.upd.isSome = true) :
    u.regWrite .host 0x78018 v = u := by
  obtain ⟨r, hr, hk⟩ := row_of (a := 0x78018) (by decide)
  rw [u.regWrite_scf .host v h hr hk (by decide) (by decide)]
  unfold State.scfWrite
  rw [if_neg (by decide), if_neg (by decide), if_neg (by decide), if_pos rfl, if_pos h1]

theorem forMe_here (u b : State) (c : Nat) (f : Flit) (h : State → State) (br : LinkRest u b) (hd : f.dst % 4096 = u.devId) :
    b.forMe c f h = h b := by
  obtain ⟨P, g, o, rfl⟩ := br
  exact if_pos hd

theorem reply_out (b : State) (p : Nat) (f : Flit) (hu : b.portUp p = true) (h : b.scf.upd = none) (hr : b.route f.dst = p + 1)
    (h0 : (b.port p).qFwd = []) (h1 : (b.port p).qCmp = []) (h2 : (b.port p).qCtl = []) (h3 : (b.port p).cCmp ≠ 0)
    (h4 : (b.port p).replay.length < 256) (h5 : ∃ c, (b.port p).owed = [c]) :
    LinkRest b ((b.sendCmp f).pump p) ∧ ∃ w, ((b.sendCmp f).pump p).out = b.out ++ [.flit p f w] := by
  have e : b.sendCmp f = b.enqueue p 1 { flit := f } := by
    unfold State.sendCmp
    rw [h, hr]
    dsimp only
    rw [if_neg (by omega), if_pos (by simpa using hu)]
    rfl
  generalize hm : ({ flit := f, ord := (b.port p).ord } : TxFlit) = m
  rw [e]
  refine ⟨(State.enqueue_rest _ _ _ _).trans (State.pump_rest _ _), ?_⟩
  obtain ⟨v, hv⟩ : ∃ v, v = b.setPort p { b.port p with qCmp := [m], ord := (b.port p).ord + 1 } := ⟨_, rfl⟩
  have ee : b.enqueue p 1 { flit := f } = v.pump p := by
    rw [hv, ← hm]
    show (b.setPort p { b.port p with qCmp := (b.port p).qCmp ++ [{ flit := f, ord := (b.port p).ord }], ord := (b.port p).ord + 1 }).pump p = _
    rw [h1]
    rfl
  have hp : v.port p = { b.port p with qCmp := [m], ord := (b.port p).ord + 1 } := by rw [hv, State.port_setPort]
  have up : v.portUp p = true := by
    unfold State.portUp at hu ⊢
    rw [hp, hv]
    exact hu
  have ho : v.out = b.out := by rw [hv]; rfl
  obtain ⟨o, q0, q1, q2, q3, q4⟩ := State.pump_one v p m up
    (by rw [hp]; exact h0) (by rw [hp]) (by rw [hp]; exact h2) (by rw [hp]; exact h3) (by rw [hp]; exact h4) (by rw [hp]; exact h5)
  rw [ee, State.pump_idle _ p q0 q1 q2 q3 q4.1 q4.2, o, ho, ← hm]
  exact ⟨_, rfl⟩

theorem ddrRead_clean (u : State) (a n : Nat) (he : u.ddrErr a = none) (hd : (u.chan (chanOf a)).wild = false) (hw : (u.chan (chanOf a)).wq = []) (hm : (u.chan (chanOf a)).marks = []) :
    u.ddrRead a n = (u, { data := (List.range n).map fun i => (u.chan (chanOf a)).mem.byte (a + i) }) := by
  have rl : ∀ (l : List Nat) (u : State), (u.chan (chanOf a)).wq = [] → (u.chan (chanOf a)).marks = [] →
      u.readLines (chanOf a) a l = (u, []) := by
    intro l
    induction l with
    | nil => intro u _ _; rfl
    | cons x t ih =>
      intro u h1 h2
      have : u.lineRead (chanOf a) x = (u, false) := by
        unfold State.lineRead Chan.queued
        rw [h1]
        simp only [List.find?_nil]
        unfold State.lineCheck
        dsimp only
        rw [h2]
        rfl
      rw [State.readLines, this, ih u h1 h2]
      rfl
  unfold State.ddrRead
  rw [he]
  dsimp only
  rw [if_neg (by simp [hd]), rl _ u hw hm]
  have old : ∀ x, (u.chan (chanOf a)).see x = (u.chan (chanOf a)).mem.byte x := by
    intro x; unfold Chan.see Chan.queued
    rw [hw]; rfl
  simp only [old, List.not_mem_nil, decide_false, List.filter_false]

theorem putFold (be : Nat → Bool) (d : Nat → Byte) (o j : Nat) : ∀ (l : List Nat) (t : Tab (Option Byte)),
    tgetD none ((l.filterMap fun i => if be i then some (o + i, d i) else none).foldl (fun t b => tsetD none t b.1 (some b.2)) t) j =
      if o ≤ j ∧ j - o ∈ l ∧ be (j - o) = true then some (d (j - o)) else tgetD none t j
  | [], t => by simp
  | i :: l, t => by
    by_cases hb : be i = true
    · rw [List.filterMap_cons_some (b := (o + i, d i)) (by simp [hb]), List.foldl_cons, putFold be d o j l]
      by_cases hj : j = o + i
      · subst hj
        rw [tgetD_tsetD_same, show o + i - o = i from by omega]
        simp [hb]
      · rw [tgetD_tsetD_ne _ _ _ hj]
        by_cases ho : o ≤ j
        · have : j - o ≠ i := by omega
          simp [this]
        · simp [ho]
    · rw [List.filterMap_cons_none (by simp [hb]), putFold be d o j l]
      by_cases hi : j - o = i
      · rw [hi]; simp [hb]
      · simp [hi]

theorem guestWrite_eq (b : State) (f : Flit) (g a : Nat) (ht : f.typ = 3) (h1 : b.guestPage f.src (flitPage f).1 = some g)
    (ha : a = g * 65536 + (flitPage f).2) (he : b.ddrErr a = none) (hw : (b.chan (chanOf a)).wq = []) :
    ∃ v, b.guestRun f = ((b.timed (chanOf a) 1).setChan (chanOf a) v, {}) ∧ ∀ x, v.see x =
      if x / 64 = a / 64 ∧ a % 64 ≤ x % 64 ∧ x % 64 < a % 64 + 32 ∧ bitAt (f.payload.getD 2 0#32) (x % 64 - a % 64) = true then
        (bytesOf ((List.range 8).map fun i => f.payload.getD (8 + i) 0#32)).getD (x % 64 - a % 64) 0#8
      else (b.chan (chanOf a)).see x := by
  generalize hd : (bytesOf ((List.range 8).map fun i => f.payload.getD (8 + i) 0#32)) = d
  have fd := putFold (bitAt (f.payload.getD 2 0#32)) (fun i => d.getD i 0#8) (a % 64)
  generalize hbs : ((List.range 32).filterMap fun i => if bitAt (f.payload.getD 2 0#32) i then some (a % 64 + i, d.getD i 0#8) else none) = bs
  refine ⟨{ b.chan (chanOf a) with wq := [{ line := a / 64, bytes := bs.foldl (fun t b => tsetD none t b.1 (some b.2)) [], poison := f.poison }] }, ?_, fun x => ?_⟩
  · unfold State.guestRun
    dsimp only
    rw [h1]
    dsimp only
    rw [if_neg (by rw [ht]; decide), ← ha, he, hd, hbs]
    dsimp only
    obtain ⟨fr, rg, et⟩ := timed_rest (chanOf a) 1 b
    have ec : (b.timed (chanOf a) 1).chan (chanOf a) = b.chan (chanOf a) := by rw [et]; rfl
    unfold State.lineWrite
    dsimp only
    rw [ec]
    have q : (b.chan (chanOf a)).queued (a / 64) = none := by unfold Chan.queued; rw [hw]; rfl
    rw [q, hw]
    dsimp only
    rw [ec, hw]
    rfl
  · have old : (b.chan (chanOf a)).see x = (b.chan (chanOf a)).mem.byte x := by
      unfold Chan.see Chan.queued; rw [hw]; rfl
    rw [old]
    unfold Chan.see Chan.queued
    by_cases h : x / 64 = a / 64
    · simp only [List.find?_cons, h, decide_true, true_and]
      show (tgetD none (bs.foldl (fun t b => tsetD none t b.1 (some b.2)) []) (x % 64)).getD _ = _
      rw [← hbs, fd]
      simp only [List.mem_range]
      by_cases h2 : a % 64 ≤ x % 64 ∧ x % 64 - a % 64 < 32 ∧ bitAt (f.payload.getD 2 0#32) (x % 64 - a % 64) = true
      · rw [if_pos h2, if_pos ⟨h2.1, by omega, h2.2.2⟩]; rfl
      · rw [if_neg h2, if_neg (fun c => h2 ⟨c.1, by omega, c.2.2⟩)]; rfl
    · simp only [List.find?_cons, List.find?_nil, show decide (a / 64 = x / 64) = false from by simp; omega, h, false_and, if_false]

/-- A guest access that need not wait is served. -/
theorem takeGuest_go (b : State) (p : Nat) (f : Flit) (g : Nat) (h1 : b.guestWaits f = false)
    (h2 : (b.scf.guestq.any fun e => decide (e.2.1.src = f.src ∧ (flitPage e.2.1).1 = (flitPage f).1)) = false) :
    b.takeGuest p f g = b.guestServe p f g := by
  unfold State.takeGuest
  rw [h1, h2]
  rfl

theorem takeGuest_waits (b : State) (p : Nat) (f : Flit) (g : Nat) (h : b.guestWaits f = true ∨
    (b.scf.guestq.any fun e => decide (e.2.1.src = f.src ∧ (flitPage e.2.1).1 = (flitPage f).1)) = true) :
    b.takeGuest p f g = { b with scf := { b.scf with guestq := b.scf.guestq ++ [(p, f, g)] } } := by
  unfold State.takeGuest
  rw [if_pos]
  rcases h with h | h
  · rw [h]; rfl
  · rw [h, Bool.or_true]

/-- The answer to a request whose page is no guest here, or lies where no access is served. -/
theorem guestServe_err (b : State) (p : Nat) (f : Flit) (e : Err) (h : b.guestRun f = (b, { err := some e }) ∨
    b.guestRun f = (b, { data := zeros 32, err := some e })) :
    b.guestServe p f 0 = b.sendCmp { typ := 5, dst := f.src, src := b.devId, tag := f.tag, index := errCode e } := by
  unfold State.guestServe
  dsimp only
  rw [if_neg (by decide), if_neg (by decide)]
  rcases h with h | h <;> rw [h] <;> rfl

theorem guestRun_none (b : State) (f : Flit) (h : b.guestPage f.src (flitPage f).1 = none) :
    b.guestRun f = (b, { err := some .unmapped }) := by
  unfold State.guestRun
  dsimp only
  rw [h]

theorem guestRun_off (b : State) (f : Flit) (g : Nat) (e : Err) (h : b.guestPage f.src (flitPage f).1 = some g)
    (he : b.ddrErr (g * 65536 + (flitPage f).2) = some e) :
    b.guestRun f = (b, { err := some .isolated }) ∨ b.guestRun f = (b, { data := zeros 32, err := some .isolated }) := by
  unfold State.guestRun
  dsimp only
  rw [h]
  dsimp only
  by_cases ht : f.typ = 2
  · right
    rw [if_pos ht]
    unfold State.ddrRead
    rw [he]
    rfl
  · left
    rw [if_neg ht, he]

/-- A read of a held page. -/
theorem guestRun_read (b : State) (f : Flit) (g a : Nat) (ht : f.typ = 2) (h : b.guestPage f.src (flitPage f).1 = some g)
    (ha : a = g * 65536 + (flitPage f).2) (he : b.ddrErr a = none) :
    b.guestRun f = ((b.ddrRead a 32).1.timed (chanOf a) 1, (b.ddrRead a 32).2) := by
  have hn : (b.ddrRead a 32).2.err = none := by
    unfold State.ddrRead
    rw [he]
    dsimp only
    split <;> rfl
  unfold State.guestRun
  dsimp only
  rw [h]
  dsimp only
  rw [if_pos ht, ← ha, hn]
  have e : ∀ r : Resp, r.err = none → ({ r with err := (none : Option Err).map fun _ => Err.isolated } : Resp) = r := by
    rintro ⟨d, b, e⟩ h
    cases h
    rfl
  rw [e _ hn]
  rfl

theorem guestRun_write (b : State) (f : Flit) (g a : Nat) (ht : f.typ ≠ 2) (h : b.guestPage f.src (flitPage f).1 = some g)
    (ha : a = g * 65536 + (flitPage f).2) (he : b.ddrErr a = none) :
    b.guestRun f = ((b.timed (chanOf a) 1).lineWrite (chanOf a) (a / 64)
      ((List.range 32).filterMap fun i => if bitAt (f.payload.getD 2 0#32) i then
        some (a % 64 + i, (bytesOf ((List.range 8).map fun i => f.payload.getD (8 + i) 0#32)).getD i 0#8) else none) f.poison, {}) := by
  unfold State.guestRun
  dsimp only
  rw [h]
  dsimp only
  rw [if_neg ht, ← ha, he]

theorem timed_chans {C : Nat → Prop} (c : Nat) : ∀ (n : Nat) (u : State), ChanRest C u (u.timed c n)
  | 0, u => ChanRest.refl u
  | n + 1, u => by
    have d : ChanRest C u u.draw.1 := ⟨_, _, _, _, _, rfl, fun _ _ => rfl, fun _ _ => rfl, fun _ => Chan.Same.refl _⟩
    exact (d.trans (channelTime_chans _ _ _).1).trans (timed_chans c n _)

/-- Accesses of the channels leave the device identifier. -/
theorem devId_rest {C : Nat → Prop} {u v : State} (h : ChanRest C u v) : v.devId = u.devId := by
  have e : v.reg 0x78000 = u.reg 0x78000 := h.reg (by rintro ⟨k, h⟩; unfold memBase at h; omega)
  unfold State.devId
  rw [e]

theorem guestServe_read (b : State) (p : Nat) (f : Flit) (g a d : Nat) (ht : f.typ = 2) (h : b.guestPage f.src (flitPage f).1 = some g)
    (ha : a = g * 65536 + (flitPage f).2) (he : b.ddrErr a = none) (hd : b.devId = d) :
    b.guestServe p f 0 = ((b.ddrRead a 32).1.timed (chanOf a) 1).sendCmp {
      typ := 4, dst := f.src, src := d, tag := f.tag,
      payload := wordsOf (b.ddrRead a 32).2.data ++ (if (b.ddrRead a 32).2.data = [] then []
        else [wd (((b.ddrRead a 32).2.bad.map fun i => 2 ^ i).foldl (· + ·) 0)]) } := by
  have hn : (b.ddrRead a 32).2.err = none := by
    unfold State.ddrRead
    rw [he]
    dsimp only
    split <;> rfl
  have hdv : ((b.ddrRead a 32).1.timed (chanOf a) 1).devId = d := by
    have r := (ddrRead_rest b a 32 (C := fun _ => True) trivial).trans (timed_chans (chanOf a) 1 _)
    exact (devId_rest r).trans hd
  unfold State.guestServe
  dsimp only
  rw [if_neg (by decide), if_neg (by decide), guestRun_read b f g a ht h ha he]
  unfold State.guestReply
  dsimp only
  rw [hn, hdv]

theorem guestServe_write (b : State) (p : Nat) (f : Flit) (g a d : Nat) (ht : f.typ ≠ 2) (h : b.guestPage f.src (flitPage f).1 = some g)
    (ha : a = g * 65536 + (flitPage f).2) (he : b.ddrErr a = none) (hd : b.devId = d) :
    b.guestServe p f 0 = ((b.timed (chanOf a) 1).lineWrite (chanOf a) (a / 64)
      ((List.range 32).filterMap fun i => if bitAt (f.payload.getD 2 0#32) i then
        some (a % 64 + i, (bytesOf ((List.range 8).map fun i => f.payload.getD (8 + i) 0#32)).getD i 0#8) else none)
      f.poison).sendCmp { typ := 4, dst := f.src, src := d, tag := f.tag } := by
  unfold State.guestServe
  dsimp only
  rw [if_neg (by decide), if_neg (by decide), guestRun_write b f g a ht h ha he]
  generalize hw : State.lineWrite _ _ _ _ _ = w
  have hdv : w.devId = d := by
    rw [← hw]
    exact (devId_rest ((timed_chans (C := fun _ => True) (chanOf a) 1 b).trans (lineWrite_rest _ _ _ _ _ trivial).1)).trans hd
  unfold State.guestReply
  dsimp only
  rw [hdv]
  rfl

theorem pump_guestq (u : State) (p : Nat) : (u.pump p).scf.guestq = u.scf.guestq := by
  obtain ⟨P, g, o, e⟩ := State.pump_rest u p
  rw [e]

theorem complete_none (b : State) (p tag : Nat) (a : Resp) (n : Nat)
    (h : b.scf.reqs.find? (fun r => decide (r.tag = tag ∧ r.port = p)) = none) : b.complete p tag a n = b := by
  unfold State.complete
  rw [h]

theorem complete_some (b : State) (p tag : Nat) (a : Resp) (n : Nat) (r : Remote)
    (h : b.scf.reqs.find? (fun r => decide (r.tag = tag ∧ r.port = p)) = some r) : b.complete p tag a n =
      ({ b with scf := { b.scf with reqs := b.scf.reqs.filter fun q => decide (q.tag ≠ tag) } } : State).remoteAnswer r a n := by
  unfold State.complete
  rw [h]

/-- The second FENCE of an update is answered. -/
theorem takeFence_both (b : State) (f : Flit) (fw : Bool) (e : FenceSeen)
    (h : b.scf.fences.find? (fun e => decide (e.src = f.src ∧ e.num = f.tag)) = some e) (h1 : (e.fwd || fw) = true)
    (h2 : (e.cmp || !fw) = true) : b.takeFence f fw = ({ b with
      scf := { b.scf with fences := b.scf.fences.filter fun e => !decide (e.src = f.src ∧ e.num = f.tag) } } : State).sendCmp {
        typ := 7, dst := f.src, src := b.devId, tag := f.tag } := by
  unfold State.takeFence
  rw [h]
  dsimp only [Option.getD]
  rw [h1, h2]
  rfl

/-- What a FENCE_ACK for this device does. -/
def takeAck (u : State) (f : Flit) : State :=
  match u.scf.upd with
  | some d => if d.num = f.tag ∧ d.dev = f.src then u.updateEnds false else u
  | none => u

theorem takeAck_some (b : State) (f : Flit) (u : RouteUpdate) (h : b.scf.upd = some u) (h1 : u.num = f.tag) (h2 : u.dev = f.src) :
    takeAck b f = b.updateEnds false := by
  unfold takeAck
  rw [h]
  exact if_pos ⟨h1, h2⟩

theorem takeAck_none (b : State) (f : Flit) (h : ∀ u, b.scf.upd = some u → ¬ (u.num = f.tag ∧ u.dev = f.src)) :
    takeAck b f = b := by
  unfold takeAck
  split
  · rename_i u hu
    exact if_neg (h u hu)
  · rfl

theorem comp_facts (b w : State) (p tag n : Nat) (r : Remote) (a : Resp) (s : State) (br : LinkRest s b) {c : Nat} {l : LinkWord} {h : State → State}
    (be : s.receive p c l h = w.pump p) (hw : w = b.complete p tag a n)
    (hr : s.scf.reqs.find? (fun r => decide (r.tag = tag ∧ r.port = p)) = some r) {X : Bay}
    (go : ∀ v : State, v = { b with scf := { b.scf with reqs := b.scf.reqs.filter fun q => decide (q.tag ≠ tag) } } →
      (v.remoteAnswer r a n).bay r.bay = X ∧ (∀ k, k ≠ r.bay → (v.remoteAnswer r a n).bay k = s.bay k) ∧
      (v.remoteAnswer r a n).scf.reqs = v.scf.reqs ∧ (v.remoteAnswer r a n).ddr = v.ddr ∧ (v.remoteAnswer r a n).qm = v.qm) :
    (s.receive p c l h).scf.reqs = s.scf.reqs.filter (fun q => decide (q.tag ≠ tag)) ∧ (s.receive p c l h).bay r.bay = X ∧
      (∀ k, k ≠ r.bay → (s.receive p c l h).bay k = s.bay k) ∧ (s.receive p c l h).ddr = s.ddr ∧ (s.receive p c l h).qm = s.qm := by
  have bv := link_view br
  obtain ⟨g1, g2, g3, g4, g5⟩ := go _ rfl
  have e : w = ({ b with scf := { b.scf with reqs := b.scf.reqs.filter fun q => decide (q.tag ≠ tag) } } : State).remoteAnswer r a n := by
    rw [hw]
    unfold State.complete
    rw [bv.2.2.2.2.2.1, hr]
  rw [← e] at g1 g2 g3 g4 g5
  rw [be]
  have zv := link_view (State.pump_rest w p)
  refine ⟨?_, ?_, ?_, ?_, ?_⟩
  · rw [zv.2.2.2.2.2.1, g3]
    show b.scf.reqs.filter _ = _
    rw [bv.2.2.2.2.2.1]
  · rw [← g1]
    unfold State.bay
    rw [zv.2.1]
  · intro k hk
    rw [← g2 k hk]
    unfold State.bay
    rw [zv.2.1]
  · rw [zv.2.2.1, g4]; exact bv.2.2.1
  · rw [zv.1, g5]; exact bv.1

end Sys2Proof.Laws.Guests
end

