-- ==== Sys2Proof/Laws/HostOps.lean ====
section
/-!
SUPPORT. What requests and events of the host endpoint do to a state.
-/
namespace Sys2Proof.Laws.HostOps
open Sys2Proof Sys2Proof.Machine

theorem words_fold : ∀ (data : List Word) (u : State) (off n i fbe lbe : Nat), off + 4 * (i + data.length) ≤ 0x4000000 →
    u.bar0Words off n fbe lbe i data = (List.range data.length).foldl (fun t j => if enables (i + j) n fbe lbe = 15 then
      t.regWrite .host (off + 4 * (i + j)) (data.getD j 0#32) else t.narrowWrite (off + 4 * (i + j))) u
  | [], u, off, n, i, fbe, lbe, _ => rfl
  | w :: l, u, off, n, i, fbe, lbe, h3 => by
    rw [List.length_cons] at h3
    unfold State.bar0Words
    dsimp only
    rw [words_fold l _ off n (i + 1) fbe lbe (by omega), List.length_cons, List.range_succ_eq_map, List.foldl_cons,
      List.foldl_map, Nat.mod_eq_of_lt (by omega : off + 4 * i < 0x4000000)]
    refine congrArg₂ (fun f x => List.foldl f x (List.range l.length)) ?_ rfl
    funext t j
    rw [show i + 1 + j = i + (j + 1) from by omega]
    rfl

/-- A read of dwords, one after another: `T i` is the state before dword i. -/
theorem words_read (T : Nat → State) (off n fbe lbe : Nat) (hT : ∀ i, T (i + 1) = if enables i n fbe lbe = 15 then
      ((T i).regRead .host (off + 4 * i)).1 else T i) : ∀ (k i : Nat), off + 4 * (i + k) ≤ 0x4000000 →
    (T i).bar0Read off n fbe lbe i k = (T (i + k), (List.range k).map fun j => if enables (i + j) n fbe lbe = 15 then
      ((T (i + j)).regRead .host (off + 4 * (i + j))).2 else enabled (enables (i + j) n fbe lbe) ((T (i + j)).regPeek .host (off + 4 * (i + j))))
  | 0, i, _ => rfl
  | k + 1, i, h => by
    have st : ∀ x : State × Word, x = (if enables i n fbe lbe = 15 then (T i).regRead .host (off + 4 * i)
        else (T i, enabled (enables i n fbe lbe) ((T i).regPeek .host (off + 4 * i)))) → x.1 = T (i + 1) := by
      intro x hx
      rw [hx, hT i]
      split <;> rfl
    unfold State.bar0Read
    dsimp only
    rw [Nat.mod_eq_of_lt (by omega : off + 4 * i < 0x4000000), st _ rfl, words_read T off n fbe lbe hT k (i + 1) (by omega),
      show i + 1 + k = i + (k + 1) from by omega, List.range_succ_eq_map, List.map_cons, List.map_map]
    refine congrArg (Prod.mk _) (congrArg₂ List.cons ?_ (List.map_congr_left fun j _ => ?_))
    · rw [Nat.add_zero]
      split <;> rfl
    · rw [Function.comp_apply, show i + 1 + j = i + (j + 1) from by omega]

theorem mps_min (h : Hb) : 128 ≤ h.mps := by
  unfold Hb.mps
  have := Nat.one_le_two_pow (n := min 2 (fld (h.pci 0x78) 5 3))
  omega

theorem tlp_ok {off n : Nat} (h2 : off % 4096 + n ≤ 4096) : tlpBad off n = false := by
  unfold tlpBad
  exact decide_eq_false (by omega)

theorem bar0_go (u : State) (w : Bool) (off n fbe lbe : Nat) (data : List Word) (p : Bool) (hw : u.wideHeld = false) (hu : u.hb.up = true)
    (hd : u.hb.d3 = false) (h1 : off % 4 = 0) (h2 : 0 < n) (h3 : off % 4096 + 4 * n ≤ 4096) (h4 : w = true → 4 * n ≤ u.hb.mps) :
    u.bar0Request w off n fbe lbe data p =
      if 16 < n then ((if w && p then u.bar0Error 7 w off n fbe lbe p else u).event 0x84020 2).bar0Refused w off n fbe lbe p
      else if w && p then u.bar0Error 7 w off n fbe lbe p
      else if w then u.bar0Words off n fbe lbe 0 (data.take n)
      else (u.bar0Read off n fbe lbe 0 n).1.emit (.completion 0 (bytesOf (u.bar0Read off n fbe lbe 0 n).2) []) := by
  have wb : (w && decide (u.hb.mps < 4 * n)) = false := by
    cases w with
    | false => rfl
    | true => rw [Bool.true_and, decide_eq_false (by have := h4 rfl; omega)]
  unfold State.bar0Request
  rw [hw, hu, hd, tlp_ok h3, decide_eq_false (by omega : ¬ off % 4 ≠ 0), decide_eq_false (by omega : ¬ n = 0), wb,
    if_neg (by decide), if_neg (by decide), if_neg (by decide)]

theorem bar_read (u : State) (b : Bool) (off n : Nat) (hu : u.hb.up = true) (hd : u.hb.d3 = false) (h3 : off % 4096 + n ≤ 4096) :
    u.hostRead b off n = u.outerAdd { master := 0, tgt := if b then .doorbell (off % 2 ^ 28) else u.bar4Target off, addr := off, write := false, len := n } := by
  unfold State.hostRead
  dsimp only
  rw [hu, hd, tlp_ok h3, if_neg (by decide), if_neg (by decide), if_neg (by decide)]

theorem write_ok (u : State) {off n : Nat} (h2 : 0 < n) (h3 : off % 4096 + n ≤ 4096) (h4 : n ≤ u.hb.mps) : u.writeBad off n = false := by
  unfold State.writeBad
  rw [tlp_ok h3, decide_eq_false (by omega : ¬ n = 0), decide_eq_false (by omega : ¬ u.hb.mps < n)]
  rfl

theorem bar4_put (u : State) (off : Nat) (data : List Byte) (p : Bool) (r : Word) (hu : u.hb.up = true) (hd : u.hb.d3 = false) (h2 : 0 < data.length)
    (h3 : off % 4096 + data.length ≤ 4096) (h4 : data.length ≤ u.hb.mps) : ∀ x, x = (if p then u.aerRequest 7 4 true off data.length true (some r) else u) →
    u.bar4Write off data p r = x.outerAdd { master := 0, tgt := x.bar4Target off, addr := off, write := true, len := data.length, data := data, poison := p } := by
  intro x hx
  unfold State.bar4Write
  rw [hu, hd, write_ok u h2 h3 h4, if_neg (by decide), if_neg (by decide), if_neg (by decide), ← hx]

theorem target_of (u : State) (off : Nat) (w : Word) (t : Nat) (hw : w = u.reg (0x84100 + 4 * (off / 2 ^ 28 % 64))) (ht : t = fld w 0 20)
    (tgt : Target) (h : (fld w 30 2 = 1 ∧ t * 2 ^ 28 + off % 2 ^ 28 < u.scr.hostRange.2 * 65536 ∧
            tgt = .memory (u.scr.hostRange.1 * 65536 + t * 2 ^ 28 + off % 2 ^ 28)) ∨
          (fld w 30 2 = 2 ∧ tgt = .table t (off % 2 ^ 28)) ∨
          (fld w 30 2 = 3 ∧ off % 2 ^ 28 < 0x3000000 ∧ tgt = .staging (off % 2 ^ 28)) ∨
          (tgt = .unmapped ∧ (fld w 30 2 = 0 ∨ (fld w 30 2 = 3 ∧ 0x3000000 ≤ off % 2 ^ 28) ∨
            (fld w 30 2 = 1 ∧ u.scr.hostRange.2 * 65536 ≤ t * 2 ^ 28 + off % 2 ^ 28)))) : u.bar4Target off = tgt := by
  unfold State.bar4Target
  dsimp only
  rw [← hw, ← ht]
  generalize fld w 30 2 = m at h
  generalize off % 2 ^ 28 = o at h
  split
  · rcases h with ⟨a, b, rfl⟩ | ⟨a, rfl⟩ | ⟨a, b, rfl⟩ | ⟨rfl, a | ⟨a, b⟩ | ⟨a, b⟩⟩
    · rw [if_pos b]
    · omega
    · omega
    · omega
    · omega
    · rw [if_neg (by omega)]
  · rcases h with ⟨a, b, rfl⟩ | ⟨a, rfl⟩ | ⟨a, b, rfl⟩ | ⟨rfl, a | ⟨a, b⟩ | ⟨a, b⟩⟩ <;> first | rfl | omega
  · rcases h with ⟨a, b, rfl⟩ | ⟨a, rfl⟩ | ⟨a, b, rfl⟩ | ⟨rfl, a | ⟨a, b⟩ | ⟨a, b⟩⟩
    · omega
    · omega
    · rw [if_pos b]
    · omega
    · rw [if_neg (by omega)]
    · omega
  · rename_i n1 n2 n3
    rcases h with ⟨a, b, rfl⟩ | ⟨a, rfl⟩ | ⟨a, b, rfl⟩ | ⟨rfl, a⟩
    · exact (n1 a).elim
    · exact (n2 a).elim
    · exact (n3 a).elim
    · rfl

theorem emit_or (u : State) (c : Bool) (k : Nat) :
    ∃ m, (if c then u else u.emit (.errorMessage k)) = { u with out := u.out ++ m } ∧ ∀ o ∈ m, ∃ c, o = Out.errorMessage c := by
  cases c with
  | true => exact ⟨[], by rw [List.append_nil]; rfl, fun o h => by cases h⟩
  | false => exact ⟨[_], rfl, fun o h => ⟨_, List.mem_singleton.1 h⟩⟩

/-- What AER's message leaves. -/
theorem message_eq (u : State) (k : Nat) : ∃ m, u.aerMessage k = { u with out := u.out ++ m } ∧ ∀ o ∈ m, ∃ c, o = Out.errorMessage c := by
  exact emit_or u _ _

theorem RecRest.reads {u v : State} (h : RecRest u v) : v.hb = u.hb ∧ v.scr = u.scr ∧ v.bays = u.bays ∧ v.regs.words = u.regs.words ∧ v.out = u.out := by
  obtain ⟨B, c, q, rfl, _⟩ := h
  exact ⟨rfl, rfl, rfl, rfl, rfl⟩

theorem aer_facts (u : State) (k : Nat) (hdr : List Word) :
    (k ≠ 16 → State.reported k u (u.aer k hdr)) ∧ (∀ j, j ∈ (u.aer k hdr).hb.aer ↔ j = k ∨ j ∈ u.hb.aer) ∧
    (u.aer k hdr).sq 0x84020 = (u.sq 0x84020).event 3 ∧ (u.aer k hdr).scr = u.scr ∧ (8 ≤ k → k ≠ 16 → (u.aer k hdr).bg = u.bg) ∧
    (u.aer k hdr).hb.d3 = u.hb.d3 ∧ (u.aer k hdr).hb.up = u.hb.up ∧
    ((k < 8 ∨ k = 16) → u.bg.lost = 0 → u.bg.held.length < 64 → fld (u.reg 0x90000) 0 8 = 0 →
      (u.aer k hdr).bg.held.length = u.bg.held.length + 1 ∧
      (u.aer k hdr).sq 0x90010 = (u.sq 0x90010).event (if k < 7 then 0 else if k = 7 then 1 else 3)) := by
  obtain ⟨h, h1, h2, h3, e⟩ : ∃ h : Hb, (∀ j, j ∈ h.aer ↔ j = k ∨ j ∈ u.hb.aer) ∧ h.d3 = u.hb.d3 ∧ h.up = u.hb.up ∧ ∀ w, w = (State.event { u with hb := h } 0x84020 3).aerMessage k →
      u.aer k hdr = if k < 7 then w.err 1 5 0 0 (w.sq 0x84020).read else if k = 7 then w.err 2 5 0 0 (w.sq 0x84020).read
        else if k = 16 then w.fatal 5 0 0 (w.sq 0x84020).read else w := by
    refine ⟨_, ?_, ?_, ?_, fun w hw => by rw [hw]; rfl⟩
    · intro j
      show j ∈ (if u.hb.aer.contains k then u.hb.aer else u.hb.aer ++ [k]) ↔ _
      split
      · rename_i hc
        have := List.contains_iff_mem.1 hc
        exact ⟨Or.inr, fun c => c.elim (fun c => c ▸ this) id⟩
      · rw [List.mem_append, List.mem_singleton, or_comm]
    · rfl
    · rfl
  obtain ⟨m, hm, mo⟩ := message_eq (State.event { u with hb := h } 0x84020 3) k
  have q : (State.event { u with hb := h } 0x84020 3).sq 0x84020 = (u.sq 0x84020).event 3 := by rw [State.sq_event]; rfl
  have q2 : (State.event { u with hb := h } 0x84020 3).sq 0x90010 = u.sq 0x90010 := tgetD_tsetD_ne _ _ _ (by decide)
  have base : ∃ w, w = (State.event { u with hb := h } 0x84020 3).aerMessage k ∧ w.hb = h ∧ w.scr = u.scr ∧ w.bays = u.bays ∧ w.bg = u.bg ∧
      w.reg 0x90000 = u.reg 0x90000 ∧ w.regs.words = u.regs.words ∧ w.sq 0x84020 = (u.sq 0x84020).event 3 ∧ w.sq 0x90010 = u.sq 0x90010 ∧ w.out = u.out ++ m := by
    refine ⟨_, rfl, ?_⟩
    rw [hm]
    exact ⟨rfl, rfl, rfl, rfl, rfl, rfl, q, q2, rfl⟩
  obtain ⟨w, hw, w1, w2, w3, w4, w5, w6, w7, w8, w9⟩ := base
  rw [e w hw]
  clear e hm q q2 hw
  have rep (v : State) (hv : v.hb = w.hb ∧ v.scr = w.scr ∧ v.bays = w.bays ∧ v.regs.words = w.regs.words ∧ v.out = w.out) (hq : v.sq 0x84020 = w.sq 0x84020) :
      State.reported k u v := by
    obtain ⟨v1, v2, v3, v4, v5⟩ := hv
    exact ⟨fun j => by rw [v1, w1]; exact h1 j, hq.trans w7, v2.trans w2, v3.trans w3, v4.trans w6, m, v5.trans w9, mo⟩
  by_cases c1 : k < 7
  · rw [if_pos c1]
    have r := State.err_rest w 1 5 0 0 (w.sq 0x84020).read
    have rr := RecRest.reads r
    obtain ⟨p1, p2, p3, p4, p5, p6⟩ := rep _ rr (r.sq (by decide))
    refine ⟨fun _ => ⟨p1, p2, p3, p4, p5, p6⟩, p1, p2, p3, fun _ _ => by omega, by rw [rr.1, w1, h2], by rw [rr.1, w1, h3], fun _ a b d => ?_⟩
    obtain ⟨g1, _, g2⟩ := State.record_room w { cls := 1, block := 5, inst := 0, addr := 0, w8 := (w.sq 0x84020).read } rfl
      (by rw [w4]; exact a) (by rw [w4]; exact b) (Or.inr (by rw [w5]; exact d))
    rw [if_pos c1]
    exact ⟨g1.trans (by rw [w4]), g2.trans (by rw [w8]; rfl)⟩
  · rw [if_neg c1]
    by_cases c2 : k = 7
    · rw [if_pos c2]
      have r := State.err_rest w 2 5 0 0 (w.sq 0x84020).read
      have rr := RecRest.reads r
      obtain ⟨p1, p2, p3, p4, p5, p6⟩ := rep _ rr (r.sq (by decide))
      refine ⟨fun _ => ⟨p1, p2, p3, p4, p5, p6⟩, p1, p2, p3, fun _ _ => by omega, by rw [rr.1, w1, h2], by rw [rr.1, w1, h3], fun _ a b d => ?_⟩
      obtain ⟨g1, _, g2⟩ := State.record_room w { cls := 2, block := 5, inst := 0, addr := 0, w8 := (w.sq 0x84020).read } rfl
        (by rw [w4]; exact a) (by rw [w4]; exact b) (Or.inl (show (_ : Nat) ≠ 1 by simp))
      rw [if_neg c1, if_pos c2]
      exact ⟨g1.trans (by rw [w4]), g2.trans (by rw [w8]; rfl)⟩
    · rw [if_neg c2]
      by_cases c3 : k = 16
      · rw [if_pos c3]
        unfold State.fatal
        dsimp only
        obtain ⟨x, hx, x1, x2, x3, x4, x5⟩ : ∃ x : State, x = { w with bays := w.bays.map (fun (e : Nat × Bay) => if e.1 = 256 then e else (e.1, e.2.halt)), qm := { w.qm with stopped := true }, rst := { w.rst with fatal := true } } ∧ x.hb = w.hb ∧ x.scr = w.scr ∧ x.bg = w.bg ∧ x.sq 0x84020 = w.sq 0x84020 ∧
              x.sq 0x90010 = w.sq 0x90010 := ⟨_, rfl, rfl, rfl, rfl, rfl, rfl⟩
        rw [← hx]
        have r := State.err_rest x 4 5 0 0 (w.sq 0x84020).read
        obtain ⟨r1, r2, r3, r4, r5⟩ := RecRest.reads r
        refine ⟨fun c => absurd c3 c, fun j => by rw [r1, x1, w1]; exact h1 j, ((r.sq (by decide)).trans x4).trans w7, (r2.trans x2).trans w2,
          fun _ c => absurd c3 c, by rw [r1, x1, w1, h2], by rw [r1, x1, w1, h3], fun _ a b d => ?_⟩
        obtain ⟨g1, _, g2⟩ := State.record_room x { cls := 4, block := 5, inst := 0, addr := 0, w8 := (w.sq 0x84020).read } rfl
          (by rw [x3, w4]; exact a) (by rw [x3, w4]; exact b) (Or.inl (show (_ : Nat) ≠ 1 by simp))
        rw [if_neg c1, if_neg c2]
        exact ⟨g1.trans (by rw [x3, w4]), g2.trans (by rw [x5, w8]; rfl)⟩
      · rw [if_neg c3]
        obtain ⟨p1, p2, p3, p4, p5, p6⟩ := rep w ⟨rfl, rfl, rfl, rfl, rfl⟩ rfl
        exact ⟨fun _ => ⟨p1, p2, p3, p4, p5, p6⟩, p1, p2, p3, fun _ _ => w4, by rw [w1, h2], by rw [w1, h3], fun c => by omega⟩

/-- Drawing the fields that a header leaves open changes nothing else. -/
theorem tlp_eq (u : State) (bar : Nat) (w : Bool) (off n fbe lbe : Nat) (p : Bool) (r : Option Word) :
    (u.tlp bar w off n fbe lbe p r).1 = { u with free := u.free + 2 } := rfl

theorem reported_draw {k : Nat} {u v : State} (f : Nat) (h : State.reported k { u with free := f } v) : State.reported k u v := h

/-- A request to BAR0 that is reported in AER. -/
theorem bar0Error_eq (u : State) (k : Nat) (w : Bool) (off n fbe lbe : Nat) (p : Bool) (hk : k ≠ 16) :
    State.reported k u (u.bar0Error k w off n fbe lbe p) :=
  reported_draw _ ((aer_facts { u with free := u.free + 2 } k _).1 hk)

theorem aerRequest_eq (u : State) (k bar : Nat) (w : Bool) (off n : Nat) (p : Bool) (r : Option Word) (hk : k ≠ 16) :
    State.reported k u (u.aerRequest k bar w off n p r) :=
  reported_draw _ ((aer_facts { u with free := u.free + 2 } k _).1 hk)

theorem refused_write (u : State) (off n fbe lbe : Nat) (p : Bool) :
    u.bar0Refused true off n fbe lbe p = u.bar0Error 15 true off n fbe lbe p := by
  unfold State.bar0Refused
  dsimp only
  exact if_pos rfl

theorem unsupported_write (u : State) (bar off n : Nat) (r : Option Word) :
    u.unsupported bar true off n r = u.aerRequest 15 bar true off n false r := by
  unfold State.unsupported
  dsimp only
  exact if_pos rfl

/-- A read that is Unsupported. -/
theorem refusedRead (u v : State) (h : State.reported 15 u v) :
    ∀ t, t = (v.event 0x84020 1).emit (.completion 1 [] []) → (∀ j, j ∈ t.hb.aer ↔ j = 15 ∨ j ∈ u.hb.aer) ∧
      t.sq 0x84020 = ((u.sq 0x84020).event 3).event 1 ∧ t.scr = u.scr ∧ t.bays = u.bays ∧ t.regs.words = u.regs.words ∧
      ∃ m, t.out = u.out ++ m ++ [.completion 1 [] []] ∧ ∀ o ∈ m, ∃ c, o = .errorMessage c := by
  rintro t rfl
  obtain ⟨h1, h2, h3, h4, h5, m, h6, h7⟩ := h
  refine ⟨h1, ?_, h3, h4, h5, m, ?_, h7⟩
  · show (v.event 0x84020 1).sq 0x84020 = _
    rw [State.sq_event, h2]
  · show v.out ++ _ = _
    rw [h6]

theorem no_row {a : Nat} (h1 : 0x88000 ≤ a) (h2 : a < 0x90000) : regRow a = none := by
  have d : ∀ r ∈ rowsHb, 0 < r.stride ∧ r.base + r.stride * r.count ≤ 0x88000 := by decide
  unfold regRow rowsAt
  rw [show a / 0x10000 = 8 from by omega]
  refine List.find?_eq_none.2 fun r hr => ?_
  obtain ⟨d1, d2⟩ := d r hr
  unfold RegRow.covers
  have : ¬ (a - r.base) / r.stride < r.count := by
    rw [Nat.div_lt_iff_lt_mul d1, Nat.mul_comm]
    omega
  rw [decide_eq_false this, Bool.and_false]
  decide

theorem ring_fold (v : Nat) : ∀ (l : List Nat) (x : State), l.Nodup →
    ∃ R, l.foldl (fun t n => if (t.ring n).masked && decide (fld (t.hrCfg n) 12 11 = v) then
        t.setRing n { t.ring n with masked := false, window := decide (fld (t.hrCfg n) 24 8 ≠ 0) } else t) x = { x with qm := { x.qm with rings := R } } ∧
      ∀ n, tgetD {} R n = if n ∈ l ∧ (x.ring n).masked = true ∧ fld (x.hrCfg n) 12 11 = v then
        { x.ring n with masked := false, window := decide (fld (x.hrCfg n) 24 8 ≠ 0) } else x.ring n
  | [], x, _ => ⟨x.qm.rings, rfl, fun n => by simp; rfl⟩
  | k :: l, x, h => by
    rw [List.nodup_cons] at h
    rw [List.foldl_cons]
    by_cases c : ((x.ring k).masked && decide (fld (x.hrCfg k) 12 11 = v)) = true
    · rw [if_pos c]
      obtain ⟨R, e, g⟩ := ring_fold v l (x.setRing k { x.ring k with masked := false, window := decide (fld (x.hrCfg k) 24 8 ≠ 0) }) h.2
      refine ⟨R, e, fun n => ?_⟩
      rw [g]
      rw [Bool.and_eq_true, decide_eq_true_eq] at c
      by_cases hn : n = k
      · subst hn
        rw [if_neg (fun d => h.1 d.1), if_pos ⟨List.mem_cons_self, c⟩]
        exact tgetD_tsetD_same _ _ _ _
      · have r : (x.setRing k { x.ring k with masked := false, window := decide (fld (x.hrCfg k) 24 8 ≠ 0) }).ring n = x.ring n := tgetD_tsetD_ne _ _ _ hn
        rw [r]
        simp only [List.mem_cons, hn, false_or]
        rfl
    · rw [if_neg c]
      obtain ⟨R, e, g⟩ := ring_fold v l x h.2
      refine ⟨R, e, fun n => ?_⟩
      rw [g]
      by_cases hn : n = k
      · subst hn
        rw [Bool.and_eq_true, decide_eq_true_eq] at c
        rw [if_neg (fun d => h.1 d.1), if_neg (fun d => c d.2)]
      · simp only [List.mem_cons, hn, false_or]

theorem signal_sends (u : State) (v : Nat) (h1 : u.hb.msixOn = true) (h2 : u.hb.maskedV v = false) :
    u.signal v = u.emit (.msix v ((u.hb.entry (4 * v)).toNat + (u.hb.entry (4 * v + 1)).toNat * 2 ^ 32) (u.hb.entry (4 * v + 2))) := by
  unfold State.signal
  rw [if_neg (by rw [h1]; decide), if_neg (by rw [h2]; decide)]

theorem signal_keeps (u : State) (v : Nat) (h1 : u.hb.msixOn = true) (h2 : u.hb.maskedV v = true) :
    u.signal v = { u with hb := { u.hb with pba := tsetD false u.hb.pba v true } } := by
  unfold State.signal
  rw [if_neg (by rw [h1]; decide), if_pos h2]

theorem request (u : State) (o : Nat) (v : Word) (h : u.hb.up = true) : u.pciRequest true o v = u.pciWrite (o / 4 * 4) v := by
  unfold State.pciRequest
  rw [h, if_neg (by decide), if_pos rfl]

theorem clear_mem (u : State) (unc : Bool) (v : Word) (j : Nat) :
    j ∈ (u.aerClear unc v).hb.aer ↔ j ∈ u.hb.aer ∧ ¬ ((7 ≤ j ↔ unc = true) ∧ bitAt v (aerBit j) = true) := by
  have go : j ∈ (u.aerClear unc v).hb.aer ↔ j ∈ u.hb.aer ∧ (!(decide (decide (7 ≤ j) = unc) && bitAt v (aerBit j))) = true :=
    List.mem_filter
  rw [go, Bool.not_eq_true', Bool.and_eq_false_iff]
  refine and_congr_right fun _ => ?_
  rw [decide_eq_false_iff_not]
  cases unc <;> by_cases h : 7 ≤ j <;> simp [h]

/-- What a due message changes. -/
theorem signal_view (u : State) (v : Nat) : (u.signal v).regs = u.regs ∧ (u.signal v).hb.msixOn = u.hb.msixOn ∧
    (∀ w, (u.signal v).hb.maskedV w = u.hb.maskedV w) ∧
    (u.hb.msixOn = true → (∀ w, tgetD false u.hb.pba w = true → u.hb.maskedV w = true) →
      ∀ w, tgetD false (u.signal v).hb.pba w = true → u.hb.maskedV w = true) := by
  unfold State.signal
  split
  · exact ⟨rfl, rfl, fun _ => rfl, fun _ h => h⟩
  · split
    · next c =>
      refine ⟨rfl, rfl, fun _ => rfl, fun _ h w hw => ?_⟩
      by_cases e : w = v
      · exact e ▸ c
      · exact h w ((tgetD_tsetD_ne false u.hb.pba true e).symm.trans hw)
    · exact ⟨rfl, rfl, fun _ => rfl, fun _ h => h⟩

theorem signals_masked : ∀ (l : List Nat) (u : State), u.hb.msixOn = true →
    (∀ w, tgetD false u.hb.pba w = true → u.hb.maskedV w = true) →
    ∀ w, tgetD false (l.foldl State.signal u).hb.pba w = true → (l.foldl State.signal u).hb.maskedV w = true
  | [], u, _, h => h
  | v :: l, u, h1, h => by
    obtain ⟨_, a2, a3, a4⟩ := signal_view u v
    rw [List.foldl_cons]
    exact signals_masked l _ (a2.trans h1) fun w hw => (a3 w).trans (a4 h1 h w hw)

theorem unmasked_none (x : State) (h : ∀ w, tgetD false x.hb.pba w = true → x.hb.maskedV w = true) : ∀ l : List Nat,
    l.foldl State.unmasked x = x
  | [] => rfl
  | v :: l => by
    have e : x.unmasked v = x := by
      unfold State.unmasked
      rw [if_neg]
      rw [Bool.and_eq_true]
      rintro ⟨a, b⟩
      rw [h v a] at b
      cases b
    rw [List.foldl_cons, e]
    exact unmasked_none x h l

/-- The sources that are asserted and enabled send, in order. -/
theorem sources_fold (u : State) : ∀ (l : List Nat) (x : State), x.regs = u.regs →
    l.foldl (fun x i => if x.sourceOut i then x.sourceSend i else x) x =
      ((l.filter u.sourceOut).filterMap u.sourceVec).foldl State.signal x
  | [], _, _ => rfl
  | i :: l, x, h => by
    have so : x.sourceOut i = u.sourceOut i := by
      unfold State.sourceOut State.sq
      rw [h]
    have sv : x.sourceVec i = u.sourceVec i := by
      unfold State.sourceVec State.reg
      rw [h]
    rw [List.foldl_cons, so]
    cases ho : u.sourceOut i with
    | false =>
      rw [if_neg (by decide), List.filter_cons_of_neg (by rw [ho]; decide)]
      exact sources_fold u l x h
    | true =>
      rw [if_pos rfl, List.filter_cons_of_pos ho]
      unfold State.sourceSend
      rw [sv]
      cases hv : u.sourceVec i with
      | none =>
        rw [List.filterMap_cons_none hv]
        exact sources_fold u l x h
      | some v =>
        rw [List.filterMap_cons_some hv, List.foldl_cons]
        exact sources_fold u l _ ((signal_view x v).1.trans h)

theorem control_on (s : State) (mask : Bool) (u : State) (hu : u = { s with hb := { s.hb with msixOn := true, fmask := mask } }) :
    s.msixControl true mask = (if s.hb.msixOn = true then u else (([0, 1, 2, 3].filter s.sourceOut).filterMap s.sourceVec).foldl State.signal u).hb.pendingV.foldl
      State.unmasked (if s.hb.msixOn = true then u else (([0, 1, 2, 3].filter s.sourceOut).filterMap s.sourceVec).foldl State.signal u) := by
  unfold State.msixControl
  dsimp only
  rw [if_pos rfl, ← hu, sources_fold s [0, 1, 2, 3] u (by rw [hu])]
  cases s.hb.msixOn <;> rfl

/-- With MSI-X Enable 0 an unmask loses what is pending. -/
theorem unmask_off (u : State) (v : Nat) (h : u.hb.msixOn = false) :
    ∃ (R : Tab Ring) (P : Tab Bool), u.msixWrite (4 * v + 3) 0#32 = { u with hb := { u.hb with table := tset msixReset u.hb.table (4 * v + 3) 0#32, pba := P }, qm := { u.qm with rings := R } } := by
  unfold State.msixWrite
  dsimp only
  rw [if_neg (by omega), if_pos (by omega), show 0#32 &&& 1#32 = 0#32 from rfl]
  unfold State.unmasked
  split
  · dsimp only
    have e : ∀ x : State, x.hb.msixOn = false → ∀ w, x.signal w = x := by
      intro x hx w
      unfold State.signal
      rw [if_pos (by rw [hx]; rfl)]
    rw [e ({ u with hb := { u.hb with table := tset msixReset u.hb.table (4 * v + 3) 0#32, pba := tsetD false u.hb.pba ((4 * v + 3) / 4) false } } : State) h]
    obtain ⟨R, r, _⟩ := ring_fold ((4 * v + 3) / 4) (List.range 256) ({ u with hb := { u.hb with table := tset msixReset u.hb.table (4 * v + 3) 0#32, pba := tsetD false u.hb.pba ((4 * v + 3) / 4) false } } : State) List.nodup_range
    exact ⟨R, _, r⟩
  · exact ⟨u.qm.rings, u.hb.pba, rfl⟩

theorem unmask_eq (u : State) (v : Nat) :
    ∃ h : Hb, h = { u.hb with table := tset msixReset u.hb.table (4 * v + 3) 0#32 } ∧
      (u.hb.d3 = true ∨ u.hb.fmask = true ∨ tgetD false u.hb.pba v = false → u.msixWrite (4 * v + 3) 0#32 = { u with hb := h }) ∧
      (u.hb.d3 = false → u.hb.fmask = false → tgetD false u.hb.pba v = true → u.hb.msixOn = true →
        ∃ R, u.msixWrite (4 * v + 3) 0#32 = { u with hb := { h with pba := tsetD false u.hb.pba v false }, qm := { u.qm with rings := R }, out := u.out ++ [.msix v ((u.hb.entry (4 * v)).toNat + (u.hb.entry (4 * v + 1)).toNat * 2 ^ 32) (u.hb.entry (4 * v + 2))] } ∧
          ∀ n, n < 256 → tgetD {} R n = if (u.ring n).masked = true ∧ fld (u.hrCfg n) 12 11 = v then
            { u.ring n with masked := false, window := decide (fld (u.hrCfg n) 24 8 ≠ 0) } else u.ring n) := by
  refine ⟨_, rfl, ?_⟩
  unfold State.msixWrite
  dsimp only
  rw [if_neg (by omega), if_pos (by omega), show (4 * v + 3) / 4 = v from by omega, show 0#32 &&& 1#32 = 0#32 from rfl]
  generalize hT : tset msixReset u.hb.table (4 * v + 3) 0#32 = T
  have t3 : tget msixReset T (4 * v + 3) = 0#32 := by rw [← hT]; exact tget_tset_same _ _ _ _
  have t (i : Nat) (hi : i ≠ 4 * v + 3) : tget msixReset T i = u.hb.entry i := by rw [← hT]; exact tget_tset_ne _ _ _ hi
  have m (P : Tab Bool) : ({ u.hb with table := T, pba := P } : Hb).maskedV v = (u.hb.d3 || u.hb.fmask) := by
    unfold Hb.maskedV
    show (u.hb.d3 || u.hb.fmask || bitAt (tget msixReset T (4 * v + 3)) 0) = _
    rw [t3]
    exact Bool.or_false _
  unfold State.unmasked
  refine ⟨fun c => ?_, fun d f p on => ?_⟩
  · rw [if_neg]
    show ¬ (tgetD false u.hb.pba v && !({ u.hb with table := T, pba := u.hb.pba } : Hb).maskedV v) = true
    rw [m]
    rcases c with c | c | c <;> rw [c] <;> simp
  · rw [if_pos (by
      show (tgetD false u.hb.pba v && !({ u.hb with table := T, pba := u.hb.pba } : Hb).maskedV v) = true
      rw [m, d, f, p]; rfl)]
    dsimp only
    rw [signal_sends _ v (show ({ u with hb := { u.hb with table := T, pba := tsetD false u.hb.pba v false } } : State).hb.msixOn = true from on)
      ((m _).trans (by rw [d, f]; rfl))]
    obtain ⟨R, e, g⟩ := ring_fold v (List.range 256) (State.emit ({ u with hb := { u.hb with table := T, pba := tsetD false u.hb.pba v false } } : State) (.msix v ((tget msixReset T (4 * v)).toNat + (tget msixReset T (4 * v + 1)).toNat * 2 ^ 32) (tget msixReset T (4 * v + 2)))) List.nodup_range
    refine ⟨R, e.trans ?_, fun n hn => (g n).trans ?_⟩
    · rw [t (4 * v) (by omega), t (4 * v + 1) (by omega), t (4 * v + 2) (by omega)]
      rfl
    · simp only [List.mem_range, hn, true_and]
      rfl

end Sys2Proof.Laws.HostOps
end

