-- ==== Sys2Proof/Laws/Mailbox.lean ====
section
/-!
SUPPORT. What the host mailbox and its services do to a state.
-/
namespace Sys2Proof.Laws.Mailbox
open Sys2Proof Sys2Proof.Machine

theorem row_of {a : Nat} (h : ((regRow a).any fun r => decide (r.kind ≠ .sq)) = true) : ∃ r, regRow a = some r ∧ r.kind ≠ .sq := by
  rw [Option.any_eq_true] at h
  obtain ⟨r, h1, h2⟩ := h
  exact ⟨r, h1, of_decide_eq_true h2⟩

theorem regs_fold : ∀ (l : List Word) (k : Nat) (u : State),
    ∃ R, (l.zip ((List.range l.length).map (k + ·))).foldl (fun t (e : Word × Nat) => t.setReg (0xA0040 + 4 * e.2) e.1) u = { u with regs := { u.regs with words := R } } ∧
      (∀ i, i < l.length → tget regReset R (0xA0040 + 4 * (k + i)) = l.getD i 0#32) ∧
      ∀ a, (∀ i, i < l.length → a ≠ 0xA0040 + 4 * (k + i)) → tget regReset R a = u.reg a
  | [], k, u => ⟨_, rfl, fun i hi => absurd hi (by simp), fun _ _ => rfl⟩
  | w :: l, k, u => by
    obtain ⟨R, r1, r2, r3⟩ := regs_fold l (k + 1) (u.setReg (0xA0040 + 4 * k) w)
    refine ⟨R, ?_, fun i hi => ?_, fun a ha => ?_⟩
    · rw [List.length_cons, List.range_succ_eq_map, List.map_cons, List.zip_cons_cons, List.foldl_cons, List.map_map, Nat.add_zero]
      rw [show ((fun x => k + x) ∘ Nat.succ) = (fun x => k + 1 + x) from by funext x; simp only [Function.comp]; omega]
      exact r1
    · match i with
      | 0 =>
        rw [r3 _ (fun j _ => by omega)]
        exact State.reg_setReg _ _ _
      | i + 1 =>
        rw [show k + (i + 1) = k + 1 + i from by omega, r2 i (by simp at hi; omega)]
        rfl
    · rw [r3 a (fun i hi => by have := ha (i + 1) (by simp; omega); omega)]
      exact State.reg_setReg_ne _ _ (by have := ha 0 (by simp); omega)

theorem answer_eq (u : State) (st : Nat) (rs : List Word) (hb : u.mx.mxh.busy = true) (hc : u.mx.mxh.cseq < 256) (hr : rs.length < 16) :
    u.answered (u.mxhAnswer st rs) st rs ∧ (u.mxhAnswer st rs).rst = u.rst ∧ (u.mxhAnswer st rs).mx.flash = u.mx.flash := by
  unfold State.mxhAnswer
  dsimp only
  generalize hw : wd (fld (u.mxhArg 0) 24 8 * 2 ^ 24 + rs.length % 256 * 2 ^ 16 + st * 256 + fld (u.mxhArg 0) 0 8) = w0
  obtain ⟨R, r1, r2, r3⟩ := regs_fold (w0 :: rs) 0 u
  have z : (w0 :: rs).zip (List.range 16) = (w0 :: rs).zip ((List.range (w0 :: rs).length).map (0 + ·)) := by
    rw [show ((0 : Nat) + ·) = id from by funext x; simp, List.map_id]
    refine List.ext_getElem (by simp; omega) fun i h1 h2 => by simp
  rw [z, r1]
  have sq : fld (wd u.mx.mxh.cseq) 0 8 = u.mx.mxh.cseq := by
    simp [fld, wd]
    omega
  unfold State.mxhDone
  rw [if_pos (by
    show (decide (Agent.sill = .sill) && u.mx.mxh.busy && decide (fld (wd u.mx.mxh.cseq) 0 8 = u.mx.mxh.cseq)) = true
    rw [sq, hb]; simp)]
  refine ⟨⟨rfl, ?_, ?_, ?_, fun i hi => ?_, rfl, rfl⟩, rfl, rfl⟩
  · exact sq
  · rw [State.sq_event]; rfl
  · refine (r2 0 (by simp)).trans ?_
    rw [← Nat.mod_eq_of_lt (show rs.length < 256 by omega)]
    exact hw.symm
  · have := r2 (i + 1) (by simp; omega)
    rw [show 0xA0040 + 4 * (0 + (i + 1)) = 0xA0044 + 4 * i from by omega] at this
    exact this

theorem mx_go (u : State) (ag : Agent) (a : Nat) (v : Word) (h : u.reachable a = true) (ha : a = 0xA0080 ∨ a = 0xA0088 ∨ a = 0xA0100 ∨ a = 0xA0104) :
    u.regWrite ag a v = u.mxWrite ag a v := by
  have hrow : ((regRow a).any fun r => decide (r.kind ≠ .sq)) = true := by rcases ha with rfl | rfl | rfl | rfl <;> decide
  obtain ⟨r, hr, hk⟩ := row_of hrow
  exact u.regWrite_mx ag v h hr hk (by omega) (by omega)

theorem words_bound (n : Nat) (l : List Byte) (h : l.length = n) (hn : n ≤ 56) : (wordsOf l).length < 16 := by
  have : ∀ (k : Nat) (l : List Byte), l.length ≤ 4 * k → (wordsOf l).length ≤ k := by
    intro k
    induction k with
    | zero => intro l hl; have : l = [] := List.length_eq_zero_iff.mp (by omega); subst this; exact Nat.le_refl _
    | succ k ih =>
      intro l hl
      match l with
      | [] => exact Nat.zero_le _
      | [a] => simp [wordsOf]
      | [a, b] => simp [wordsOf]
      | [a, b, c] => simp [wordsOf]
      | a :: b :: c :: d :: t =>
        have := ih t (by simp at hl; omega)
        simp [wordsOf]; omega
  have := this 14 l (by omega)
  omega

theorem answered_of {u v w : State} {st : Nat} {rs : List Word} (h : v.answered w st rs) (h1 : v.mx.mxh = u.mx.mxh) (h2 : v.regs = u.regs)
    (h3 : v.bays = u.bays) (h4 : v.scr = u.scr) : u.answered w st rs := by
  unfold State.answered State.reg State.sq at *
  rw [h1, h2, h3, h4] at h
  exact h

theorem bytes_len (m : Mem) : ∀ (n a : Nat), (m.bytes a n).length = n
  | 0, _ => rfl
  | n + 1, a => congrArg (· + 1) (bytes_len m n (a + 1))

end Sys2Proof.Laws.Mailbox
end

