-- ==== Sys2Proof/Laws/Messaging.lean ====
section
/-!
SUPPORT. What departure, commit, waiting and landing of messages do to a state.
-/
namespace Sys2Proof.Laws.Messaging
open Sys2Proof Sys2Proof.Machine


end Sys2Proof.Laws.Messaging
end

