-- ==== Sys2Proof/Laws/MoveSteps.lean ====
section
/-!
SUPPORT. What an epoch and the steps of page and task moves do to a state.
-/
namespace Sys2Proof.Laws.MoveSteps
open Sys2Proof Sys2Proof.Machine Sys2Proof.Laws.Channels

/-- Between u and v the scribe's records and its log's configuration do not differ. -/
def ScrSame (u v : State) : Prop := v.scr = u.scr ∧ v.reg 0x400C0 = u.reg 0x400C0

theorem ScrSame.trans {u v w : State} (h : ScrSame u v) (g : ScrSame v w) : ScrSame u w := ⟨g.1.trans h.1, g.2.trans h.2⟩

theorem ScrSame.record (u : State) (e : Event) : ScrSame u (u.record e) := by
  obtain ⟨B, c, q, h, _⟩ := u.record_rest e
  rw [h]
  exact ⟨rfl, rfl⟩

theorem ScrSame.chan {C : Nat → Prop} {u v : State} (h : ChanRest C u v) : ScrSame u v := by
  refine ⟨?_, h.reg ?_⟩
  · obtain ⟨_, _, _, _, _, rfl, _⟩ := h; rfl
  · rintro ⟨k, h⟩
    unfold memBase at h
    omega

theorem stgWord_scr (u : State) (n w : Nat) : ScrSame u (u.stgWord n w).1 := by
  have e : ∀ (v : State) i, ScrSame v (v.stgEvent i n) := fun v i => ⟨rfl, State.reg_setReg_ne _ _ (by decide)⟩
  have b : ∀ (v : State) x, ScrSame v (v.setBank n x) := fun _ _ => ⟨rfl, rfl⟩
  unfold State.stgWord
  dsimp only
  split
  · exact ⟨rfl, rfl⟩
  · exact ((b _ _).trans (e _ _)).trans (ScrSame.record _ _)
  · exact ((b _ _).trans (e _ _)).trans (ScrSame.record _ _)
  · exact ⟨rfl, rfl⟩

theorem stgWords_scr (n base : Nat) : ∀ (l : List Nat) (u : State), ScrSame u (u.stgWords n base l).1
  | [], _ => ⟨rfl, rfl⟩
  | w :: t, u => (stgWord_scr u n w).trans (stgWords_scr n base t _)

/-- Reading a page touches no record of the scribe. -/
theorem readPage_scr (u : State) (w : Word) (rem : List Byte) (bad : List Nat) : ScrSame u (u.readPage w rem bad).1 := by
  unfold State.readPage
  dsimp only
  split
  · exact ⟨rfl, rfl⟩
  · exact stgWords_scr _ _ _ _
  · exact ScrSame.chan (readLines_rest (C := fun _ => True) _ _ trivial _ _).1
  · exact ⟨rfl, rfl⟩

/-- Nor does writing one. -/
theorem writePage_scr (u : State) (w : Word) (d : PageData) : ScrSame u (u.writePage w d) := by
  unfold State.writePage
  dsimp only
  split <;> exact ⟨rfl, rfl⟩

/-- The end of a task move that is lost drops it and leaves every task and bay as it was. -/
theorem taskOver_lost (u : State) (m : TaskMove) (n : Nat) (hn : n ≠ 0) :
    (u.taskMoveOver m n).scr.taskMoves = u.scr.taskMoves.filter (fun x => decide (x.task ≠ m.task)) ∧
    (u.taskMoveOver m n).scr.tasks = u.scr.tasks ∧ (u.taskMoveOver m n).bays = u.bays ∧ (u.taskMoveOver m n).ddr = u.ddr := by
  unfold State.taskMoveOver
  dsimp only
  generalize hr : (LogRec.mk _ _ _ _ _ _ _ _ _ _ _) = r
  generalize hv : ({ u with scr := { u.scr with taskMoves := u.scr.taskMoves.filter fun x => decide (x.task ≠ m.task) } } : State) = v
  obtain ⟨S, W, Q, h, e⟩ := log_rest v r
  rw [if_neg hn, e]
  generalize hw : (if m.command = true then State.endTaskCmd _ _ else _) = w
  have k : ∀ x : State, x.scr.taskMoves = v.scr.taskMoves ∧ x.scr.tasks = v.scr.tasks ∧ x.bays = v.bays ∧ x.ddr = v.ddr →
      x.scr.taskMoves = u.scr.taskMoves.filter (fun x => decide (x.task ≠ m.task)) ∧ x.scr.tasks = u.scr.tasks ∧ x.bays = u.bays ∧
        x.ddr = u.ddr := by
    rintro x ⟨h1, h2, h3, h4⟩
    rw [h1, h2, h3, h4, ← hv]
    exact ⟨rfl, rfl, rfl, rfl⟩
  have kw : w.scr.taskMoves = v.scr.taskMoves ∧ w.scr.tasks = v.scr.tasks ∧ w.bays = v.bays ∧ w.ddr = v.ddr := by
    rw [← hw]; split <;> exact ⟨rfl, rfl, rfl, rfl⟩
  split
  · exact k _ kw
  · refine k _ ?_
    rename_i ev _
    unfold State.endEvac
    dsimp only
    have lg : ∀ (x : State) rr, (x.log rr).scr.taskMoves = x.scr.taskMoves ∧ (x.log rr).scr.tasks = x.scr.tasks ∧
        (x.log rr).bays = x.bays ∧ (x.log rr).ddr = x.ddr := by
      intro x rr
      obtain ⟨_, _, _, _, q⟩ := log_rest x rr
      rw [q]
      exact ⟨rfl, rfl, rfl, rfl⟩
    have ow : ∀ (x : State) a b, (x.evacOwner a b).scr = x.scr ∧ (x.evacOwner a b).bays = x.bays ∧ (x.evacOwner a b).ddr = x.ddr := by
      intro x a b
      unfold State.evacOwner
      split
      · exact ⟨rfl, rfl, rfl⟩
      · split
        · split
          · split <;> exact ⟨rfl, rfl, rfl⟩
          · exact ⟨rfl, rfl, rfl⟩
        · exact ⟨rfl, rfl, rfl⟩
    rw [(ow _ _ _).1, (ow _ _ _).2.1, (ow _ _ _).2.2, (lg _ _).1, (lg _ _).2.1, (lg _ _).2.2.1, (lg _ _).2.2.2, if_neg hn]
    exact kw
  · exact k _ kw

theorem taskOver_quiet (u : State) (m : TaskMove) (n : Nat) (hn : n ≠ 0) (he : m.evac = false)
    (hl : bitAt (u.reg 0x400C0) 31 = false) :
    (u.taskMoveOver m n).sq 0x40020 = (u.sq 0x40020).event 0 ∧ (u.taskMoveOver m n).stg = u.stg := by
  unfold State.taskMoveOver
  dsimp only
  generalize hr : (LogRec.mk _ _ _ _ _ _ _ _ _ _ _) = r
  generalize hv : ({ u with scr := { u.scr with taskMoves := u.scr.taskMoves.filter fun x => decide (x.task ≠ m.task) } } : State) = v
  have hb : bitAt (v.reg 0x400C0) 31 = false := by rw [← hv]; exact hl
  rw [if_neg hn, log_off v r hb]
  generalize hw : (if m.command = true then State.endTaskCmd _ _ else _) = w
  have q1 : w.sq 0x40020 = (u.sq 0x40020).event 0 ∧ w.stg = u.stg := by
    rw [← hw, ← hv]
    split
    · exact ⟨State.sq_event _ _ _, rfl⟩
    · exact ⟨State.sq_event _ _ _, rfl⟩
  split
  · exact q1
  · rename_i hf _; rw [he] at hf; cases hf
  · exact q1

end Sys2Proof.Laws.MoveSteps
end

