-- ==== Sys2Proof/Laws/PerInstr.lean ====
section
/-!
SUPPORT. Statements made of each constructor of `Instr` in turn.
-/
namespace Sys2Proof.Laws.Admits

/-- The row of the command table that i stands for has a well-formed command: its operands can keep to their ranges. -/
def Statement (i : Instr) : Prop := ∃ j : Instr, j.ctorIdx = i.ctorIdx ∧ j.WellFormed

theorem registerWrite x0 x1 x2 x3 : Statement (.registerWrite x0 x1 x2 x3) := ⟨.registerWrite .host 0 4 0#32, rfl, by decide⟩
theorem pgShadowWrite x0 x1 x2 : Statement (.pgShadowWrite x0 x1 x2) := ⟨.pgShadowWrite .host 0 0#32, rfl, by decide⟩
theorem mwWrite x0 x1 x2 : Statement (.mwWrite x0 x1 x2) := ⟨.mwWrite .host 0 0#32, rfl, by decide⟩
theorem sqClearWrite x0 x1 x2 : Statement (.sqClearWrite x0 x1 x2) := ⟨.sqClearWrite .host 0 0#32, rfl, by decide⟩
theorem devPeg x0 : Statement (.devPeg x0) := ⟨.devPeg 0#32, rfl, by decide⟩
theorem pegDeferredAccept : Statement (.pegDeferredAccept) := ⟨.pegDeferredAccept, rfl, by decide⟩
theorem pegApplied : Statement (.pegApplied) := ⟨.pegApplied, rfl, by decide⟩
theorem cfgCrcPass : Statement (.cfgCrcPass) := ⟨.cfgCrcPass, rfl, by decide⟩
theorem bundleIssue x0 x1 : Statement (.bundleIssue x0 x1) := ⟨.bundleIssue 0 [], rfl, by decide⟩
theorem resultArrival x0 x1 x2 : Statement (.resultArrival x0 x1 x2) := ⟨.resultArrival 0 0 0, rfl, by decide⟩
theorem windowResponse x0 x1 x2 : Statement (.windowResponse x0 x1 x2) := ⟨.windowResponse 0 0 0, rfl, by decide⟩
theorem faultEntry x0 : Statement (.faultEntry x0) := ⟨.faultEntry 0, rfl, by decide⟩
theorem eventEntry x0 : Statement (.eventEntry x0) := ⟨.eventEntry 0, rfl, by decide⟩
theorem dispatchEntry x0 : Statement (.dispatchEntry x0) := ⟨.dispatchEntry 0, rfl, by decide⟩
theorem bayPrivWrite x0 x1 : Statement (.bayPrivWrite x0 x1) := ⟨.bayPrivWrite 0 0#32, rfl, by decide⟩
theorem bayMaskWrite x0 x1 : Statement (.bayMaskWrite x0 x1) := ⟨.bayMaskWrite 0 0#32, rfl, by decide⟩
theorem bayGcfgWrite x0 x1 : Statement (.bayGcfgWrite x0 x1) := ⟨.bayGcfgWrite 0 0#32, rfl, by decide⟩
theorem modeChangeEffect x0 : Statement (.modeChangeEffect x0) := ⟨.modeChangeEffect 0, rfl, by decide⟩
theorem structWrite x0 x1 x2 x3 : Statement (.structWrite x0 x1 x2 x3) := ⟨.structWrite .host 0 0 0#32, rfl, by decide⟩
theorem iwrDataWrite x0 x1 : Statement (.iwrDataWrite x0 x1) := ⟨.iwrDataWrite 0 0#32, rfl, by decide⟩
theorem plbDrop x0 : Statement (.plbDrop x0) := ⟨.plbDrop 0, rfl, by decide⟩
theorem plbFill x0 x1 : Statement (.plbFill x0 x1) := ⟨.plbFill 0 0#32, rfl, by decide⟩
theorem timerExpiry x0 x1 : Statement (.timerExpiry x0 x1) := ⟨.timerExpiry 0 0, rfl, by decide⟩
theorem mbxPost x0 x1 x2 : Statement (.mbxPost x0 x1 x2) := ⟨.mbxPost 0 0 0#32, rfl, by decide⟩
theorem mbxLoRead x0 x1 x2 : Statement (.mbxLoRead x0 x1 x2) := ⟨.mbxLoRead .host 0 0, rfl, by decide⟩
theorem mbxHiRead x0 x1 x2 : Statement (.mbxHiRead x0 x1 x2) := ⟨.mbxHiRead .host 0 0, rfl, by decide⟩
theorem mbxAck x0 x1 x2 x3 : Statement (.mbxAck x0 x1 x2 x3) := ⟨.mbxAck .host 0 0 0#32, rfl, by decide⟩
theorem traceEnable x0 x1 x2 : Statement (.traceEnable x0 x1 x2) := ⟨.traceEnable .host 0 0#32, rfl, by decide⟩
theorem step x0 x1 : Statement (.step x0 x1) := ⟨.step .host 0, rfl, by decide⟩
theorem enter x0 x1 : Statement (.enter x0 x1) := ⟨.enter .host 0, rfl, by decide⟩
theorem exit x0 x1 : Statement (.exit x0 x1) := ⟨.exit .host 0, rfl, by decide⟩
theorem testEntryStop x0 : Statement (.testEntryStop x0) := ⟨.testEntryStop 0, rfl, by decide⟩
theorem ledgerClear x0 : Statement (.ledgerClear x0) := ⟨.ledgerClear 0, rfl, by decide⟩
theorem throttlePeriod x0 : Statement (.throttlePeriod x0) := ⟨.throttlePeriod 0, rfl, by decide⟩
theorem throttleAdjust : Statement (.throttleAdjust) := ⟨.throttleAdjust, rfl, by decide⟩
theorem sendQueueDepart x0 : Statement (.sendQueueDepart x0) := ⟨.sendQueueDepart 0, rfl, by decide⟩
theorem messageCommit x0 : Statement (.messageCommit x0) := ⟨.messageCommit 0, rfl, by decide⟩
theorem waitExpired x0 : Statement (.waitExpired x0) := ⟨.waitExpired 0, rfl, by decide⟩
theorem roomCommit x0 : Statement (.roomCommit x0) := ⟨.roomCommit 0, rfl, by decide⟩
theorem messageLanded x0 x1 : Statement (.messageLanded x0 x1) := ⟨.messageLanded 0 [], rfl, by decide⟩
theorem queueTimeout x0 : Statement (.queueTimeout x0) := ⟨.queueTimeout 0, rfl, by decide⟩
theorem dbMsg x0 x1 x2 x3 : Statement (.dbMsg x0 x1 x2 x3) := ⟨.dbMsg 0 0 [0#8] false, rfl, by decide⟩
theorem dbWord x0 x1 x2 : Statement (.dbWord x0 x1 x2) := ⟨.dbWord 0 [0#8] false, rfl, by decide⟩
theorem dbHead x0 x1 x2 : Statement (.dbHead x0 x1 x2) := ⟨.dbHead 0 0#32 false, rfl, by decide⟩
theorem hostRingWrite x0 : Statement (.hostRingWrite x0) := ⟨.hostRingWrite 0, rfl, by decide⟩
theorem msixModerationExpiry x0 : Statement (.msixModerationExpiry x0) := ⟨.msixModerationExpiry 0, rfl, by decide⟩
theorem hrEnSet x0 x1 : Statement (.hrEnSet x0 x1) := ⟨.hrEnSet 0 0#32, rfl, by decide⟩
theorem hrEnClear x0 x1 : Statement (.hrEnClear x0 x1) := ⟨.hrEnClear 0 0#32, rfl, by decide⟩
theorem qmRead : Statement (.qmRead) := ⟨.qmRead, rfl, by decide⟩
theorem qmWrite : Statement (.qmWrite) := ⟨.qmWrite, rfl, by decide⟩
theorem writep : Statement (.writep) := ⟨.writep, rfl, by decide⟩
theorem outsideWordAccess x0 x1 x2 x3 x4 x5 x6 : Statement (.outsideWordAccess x0 x1 x2 x3 x4 x5 x6) := ⟨.outsideWordAccess 0 0 false 0#32 false false [], rfl, by decide⟩
theorem bayScrubRead x0 x1 : Statement (.bayScrubRead x0 x1) := ⟨.bayScrubRead 0 [], rfl, by decide⟩
theorem ceWriteback x0 x1 x2 : Statement (.ceWriteback x0 x1 x2) := ⟨.ceWriteback 0 0 0, rfl, by decide⟩
theorem stagingAccess x0 x1 x2 x3 x4 x5 x6 x7 : Statement (.stagingAccess x0 x1 x2 x3 x4 x5 x6 x7) := ⟨.stagingAccess .host 0 false [] [] 0 [] false, rfl, by decide⟩
theorem stagingScrubRead x0 x1 : Statement (.stagingScrubRead x0 x1) := ⟨.stagingScrubRead 0 [], rfl, by decide⟩
theorem stgOwnWrite x0 x1 : Statement (.stgOwnWrite x0 x1) := ⟨.stgOwnWrite 0 0#32, rfl, by decide⟩
theorem stgOwnApply x0 : Statement (.stgOwnApply x0) := ⟨.stgOwnApply 0, rfl, by decide⟩
theorem bankWake x0 : Statement (.bankWake x0) := ⟨.bankWake 0, rfl, by decide⟩
theorem stagingMarchStart x0 x1 : Statement (.stagingMarchStart x0 x1) := ⟨.stagingMarchStart 0 0#32, rfl, by decide⟩
theorem stagingMarchDone x0 x1 x2 : Statement (.stagingMarchDone x0 x1 x2) := ⟨.stagingMarchDone 0 0 [], rfl, by decide⟩
theorem bayMarchStart x0 x1 : Statement (.bayMarchStart x0 x1) := ⟨.bayMarchStart 0 0#32, rfl, by decide⟩
theorem bayMarchDone x0 x1 x2 x3 x4 : Statement (.bayMarchDone x0 x1 x2 x3 x4) := ⟨.bayMarchDone 0 0 [] [] false, rfl, by decide⟩
theorem init x0 x1 : Statement (.init x0 x1) := ⟨.init 0 0#32, rfl, by decide⟩
theorem trainingComplete x0 x1 x2 x3 : Statement (.trainingComplete x0 x1 x2 x3) := ⟨.trainingComplete 0 0 0 0, rfl, by decide⟩
theorem srEnter x0 x1 : Statement (.srEnter x0 x1) := ⟨.srEnter 0 0#32, rfl, by decide⟩
theorem selfrefEntered x0 : Statement (.selfrefEntered x0) := ⟨.selfrefEntered 0, rfl, by decide⟩
theorem srExit x0 x1 : Statement (.srExit x0 x1) := ⟨.srExit 0 0#32, rfl, by decide⟩
theorem selfrefExited x0 : Statement (.selfrefExited x0) := ⟨.selfrefExited 0, rfl, by decide⟩
theorem clrmax x0 x1 : Statement (.clrmax x0 x1) := ⟨.clrmax 0 0#32, rfl, by decide⟩
theorem ddr4Request x0 x1 x2 x3 x4 x5 x6 x7 : Statement (.ddr4Request x0 x1 x2 x3 x4 x5 x6 x7) := ⟨.ddr4Request 0 false 0 [] false 0 [] false, rfl, by decide⟩
theorem refreshEpisode x0 x1 : Statement (.refreshEpisode x0 x1) := ⟨.refreshEpisode 0 0, rfl, by decide⟩
theorem refreshEnd x0 x1 x2 : Statement (.refreshEnd x0 x1 x2) := ⟨.refreshEnd 0 0 [], rfl, by decide⟩
theorem zqcs x0 x1 : Statement (.zqcs x0 x1) := ⟨.zqcs 0 0, rfl, by decide⟩
theorem caParityAlert x0 : Statement (.caParityAlert x0) := ⟨.caParityAlert 0, rfl, by decide⟩
theorem dimmTempPoll x0 x1 x2 : Statement (.dimmTempPoll x0 x1 x2) := ⟨.dimmTempPoll 0 0 0, rfl, by decide⟩
theorem retrainSlice x0 x1 : Statement (.retrainSlice x0 x1) := ⟨.retrainSlice 0 false, rfl, by decide⟩
theorem epochBoundary : Statement (.epochBoundary) := ⟨.epochBoundary, rfl, by decide⟩
theorem pageCopyPassDone x0 x1 x2 : Statement (.pageCopyPassDone x0 x1 x2) := ⟨.pageCopyPassDone 0 0 false, rfl, by decide⟩
theorem fenceAcknowledged x0 x1 : Statement (.fenceAcknowledged x0 x1) := ⟨.fenceAcknowledged 0 0, rfl, by decide⟩
theorem pageMoveComplete x0 x1 x2 x3 : Statement (.pageMoveComplete x0 x1 x2 x3) := ⟨.pageMoveComplete 0 0 0 [], rfl, by decide⟩
theorem taskMoveDrained x0 : Statement (.taskMoveDrained x0) := ⟨.taskMoveDrained 0, rfl, by decide⟩
theorem taskMoveComplete x0 : Statement (.taskMoveComplete x0) := ⟨.taskMoveComplete 0, rfl, by decide⟩
theorem migwaitExpiry x0 : Statement (.migwaitExpiry x0) := ⟨.migwaitExpiry 0, rfl, by decide⟩
theorem tcmdRead : Statement (.tcmdRead) := ⟨.tcmdRead, rfl, by decide⟩
theorem tcmdWrite : Statement (.tcmdWrite) := ⟨.tcmdWrite, rfl, by decide⟩
theorem place : Statement (.place) := ⟨.place, rfl, by decide⟩
theorem tcmdMove : Statement (.tcmdMove) := ⟨.tcmdMove, rfl, by decide⟩
theorem unplace : Statement (.unplace) := ⟨.unplace, rfl, by decide⟩
theorem pcmdRead : Statement (.pcmdRead) := ⟨.pcmdRead, rfl, by decide⟩
theorem pcmdMove : Statement (.pcmdMove) := ⟨.pcmdMove, rfl, by decide⟩
theorem twrite : Statement (.twrite) := ⟨.twrite, rfl, by decide⟩
theorem scrEvac x0 : Statement (.scrEvac x0) := ⟨.scrEvac 0#32, rfl, by decide⟩
theorem scrEvbay x0 : Statement (.scrEvbay x0) := ⟨.scrEvbay 0#32, rfl, by decide⟩
theorem scrBankrel x0 : Statement (.scrBankrel x0) := ⟨.scrBankrel 0#32, rfl, by decide⟩
theorem raise : Statement (.raise) := ⟨.raise, rfl, by decide⟩
theorem rebent : Statement (.rebent) := ⟨.rebent, rfl, by decide⟩
theorem rebay : Statement (.rebay) := ⟨.rebay, rfl, by decide⟩
theorem abort : Statement (.abort) := ⟨.abort, rfl, by decide⟩
theorem raiseStepComplete x0 : Statement (.raiseStepComplete x0) := ⟨.raiseStepComplete 0, rfl, by decide⟩
theorem bayEnterRun x0 : Statement (.bayEnterRun x0) := ⟨.bayEnterRun 0, rfl, by decide⟩
theorem portEnable x0 x1 : Statement (.portEnable x0 x1) := ⟨.portEnable 0 0#32, rfl, by decide⟩
theorem portDisable x0 x1 : Statement (.portDisable x0 x1) := ⟨.portDisable 0 0#32, rfl, by decide⟩
theorem linkTrainingDone x0 x1 x2 x3 x4 x5 : Statement (.linkTrainingDone x0 x1 x2 x3 x4 x5) := ⟨.linkTrainingDone 0 0 0 0 0 0, rfl, by decide⟩
theorem trainingRetry x0 : Statement (.trainingRetry x0) := ⟨.trainingRetry 0, rfl, by decide⟩
theorem null x0 x1 : Statement (.null x0 x1) := ⟨.null 0 {}, rfl, by decide⟩
theorem qcell x0 x1 x2 : Statement (.qcell x0 x1 x2) := ⟨.qcell 0 {} { payload := List.replicate 16 0#32 }, rfl, by decide⟩
theorem pread x0 x1 x2 x3 : Statement (.pread x0 x1 x2 x3) := ⟨.pread 0 {} { payload := List.replicate 16 0#32 } 0, rfl, by decide⟩
theorem pwrite x0 x1 x2 x3 : Statement (.pwrite x0 x1 x2 x3) := ⟨.pwrite 0 {} { payload := List.replicate 16 0#32 } 0, rfl, by decide⟩
theorem pcomp x0 x1 x2 x3 : Statement (.pcomp x0 x1 x2 x3) := ⟨.pcomp 0 {} { payload := List.replicate 16 0#32 } 0, rfl, by decide⟩
theorem perr x0 x1 x2 x3 : Statement (.perr x0 x1 x2 x3) := ⟨.perr 0 {} { payload := List.replicate 16 0#32 } 0, rfl, by decide⟩
theorem fence x0 x1 x2 x3 : Statement (.fence x0 x1 x2 x3) := ⟨.fence 0 {} { payload := List.replicate 16 0#32 } false, rfl, by decide⟩
theorem fenceAck x0 x1 x2 : Statement (.fenceAck x0 x1 x2) := ⟨.fenceAck 0 {} { payload := List.replicate 16 0#32 }, rfl, by decide⟩
theorem qrefuse x0 x1 x2 : Statement (.qrefuse x0 x1 x2) := ⟨.qrefuse 0 {} { payload := List.replicate 16 0#32 }, rfl, by decide⟩
theorem lstate x0 x1 x2 : Statement (.lstate x0 x1 x2) := ⟨.lstate 0 {} { payload := List.replicate 16 0#32 }, rfl, by decide⟩
theorem tsyncReq x0 x1 x2 x3 : Statement (.tsyncReq x0 x1 x2 x3) := ⟨.tsyncReq 0 {} 0 0, rfl, by decide⟩
theorem tsyncRsp x0 x1 x2 x3 x4 : Statement (.tsyncRsp x0 x1 x2 x3 x4) := ⟨.tsyncRsp 0 {} 0 0 0, rfl, by decide⟩
theorem reservedFlit x0 x1 : Statement (.reservedFlit x0 x1) := ⟨.reservedFlit 0 {}, rfl, by decide⟩
theorem replayTimeout x0 : Statement (.replayTimeout x0) := ⟨.replayTimeout 0, rfl, by decide⟩
theorem creditStall x0 : Statement (.creditStall x0) := ⟨.creditStall 0, rfl, by decide⟩
theorem lossOfSignal x0 : Statement (.lossOfSignal x0) := ⟨.lossOfSignal 0, rfl, by decide⟩
theorem rtRead : Statement (.rtRead) := ⟨.rtRead, rfl, by decide⟩
theorem rtWrite : Statement (.rtWrite) := ⟨.rtWrite, rfl, by decide⟩
theorem update : Statement (.update) := ⟨.update, rfl, by decide⟩
theorem updateForced : Statement (.updateForced) := ⟨.updateForced, rfl, by decide⟩
theorem pwRead : Statement (.pwRead) := ⟨.pwRead, rfl, by decide⟩
theorem pwWrite : Statement (.pwWrite) := ⟨.pwWrite, rfl, by decide⟩
theorem scfDevidWrite x0 : Statement (.scfDevidWrite x0) := ⟨.scfDevidWrite 0#32, rfl, by decide⟩
theorem scfTset x0 : Statement (.scfTset x0) := ⟨.scfTset 0#32, rfl, by decide⟩
theorem tsyncExchange x0 : Statement (.tsyncExchange x0) := ⟨.tsyncExchange 0, rfl, by decide⟩
theorem adaptSlice x0 : Statement (.adaptSlice x0) := ⟨.adaptSlice 0, rfl, by decide⟩
theorem bar0Request x0 x1 x2 x3 x4 x5 x6 : Statement (.bar0Request x0 x1 x2 x3 x4 x5 x6) := ⟨.bar0Request false 0 0 0 0 [] false, rfl, by decide⟩
theorem bar4Read x0 x1 : Statement (.bar4Read x0 x1) := ⟨.bar4Read ⟨false, 0⟩ 0, rfl, by decide⟩
theorem bar4Write x0 x1 x2 x3 : Statement (.bar4Write x0 x1 x2 x3) := ⟨.bar4Write 0 [0#8] false 0#32, rfl, by decide⟩
theorem malformedTlp x0 : Statement (.malformedTlp x0) := ⟨.malformedTlp [], rfl, by decide⟩
theorem msixEnable x0 x1 : Statement (.msixEnable x0 x1) := ⟨.msixEnable false false, rfl, by decide⟩
theorem msixUnmask x0 : Statement (.msixUnmask x0) := ⟨.msixUnmask 0, rfl, by decide⟩
theorem pcieLinkUp x0 x1 : Statement (.pcieLinkUp x0 x1) := ⟨.pcieLinkUp 0 0, rfl, by decide⟩
theorem ethFrameReceive x0 x1 x2 x3 : Statement (.ethFrameReceive x0 x1 x2 x3) := ⟨.ethFrameReceive 0 [] false 0, rfl, by decide⟩
theorem ethTransmit x0 : Statement (.ethTransmit x0) := ⟨.ethTransmit 0, rfl, by decide⟩
theorem ethTransmitDone x0 x1 : Statement (.ethTransmitDone x0 x1) := ⟨.ethTransmitDone 0 0, rfl, by decide⟩
theorem ethLinkUp x0 : Statement (.ethLinkUp x0) := ⟨.ethLinkUp 0, rfl, by decide⟩
theorem ethLinkDown x0 : Statement (.ethLinkDown x0) := ⟨.ethLinkDown 0, rfl, by decide⟩
theorem ethEnable x0 x1 : Statement (.ethEnable x0 x1) := ⟨.ethEnable 0 0#32, rfl, by decide⟩
theorem crossbarBurst x0 x1 x2 x3 : Statement (.crossbarBurst x0 x1 x2 x3) := ⟨.crossbarBurst 2 0 false [0#32], rfl, by decide⟩
theorem remap x0 : Statement (.remap x0) := ⟨.remap 0#32, rfl, by decide⟩
theorem bootOk : Statement (.bootOk) := ⟨.bootOk, rfl, by decide⟩
theorem bootFail : Statement (.bootFail) := ⟨.bootFail, rfl, by decide⟩
theorem bootWindowExpiry : Statement (.bootWindowExpiry) := ⟨.bootWindowExpiry, rfl, by decide⟩
theorem mxhPost x0 : Statement (.mxhPost x0) := ⟨.mxhPost 0#32, rfl, by decide⟩
theorem mxhDone x0 : Statement (.mxhDone x0) := ⟨.mxhDone 0#32, rfl, by decide⟩
theorem mxhStatus : Statement (.mxhStatus) := ⟨.mxhStatus, rfl, by decide⟩
theorem flashRead x0 : Statement (.flashRead x0) := ⟨.flashRead false, rfl, by decide⟩
theorem flashWrite x0 : Statement (.flashWrite x0) := ⟨.flashWrite false, rfl, by decide⟩
theorem flashErase x0 : Statement (.flashErase x0) := ⟨.flashErase false, rfl, by decide⟩
theorem leaveShoring : Statement (.leaveShoring) := ⟨.leaveShoring, rfl, by decide⟩
theorem romRaise x0 : Statement (.romRaise x0) := ⟨.romRaise 0, rfl, by decide⟩
theorem xspiGo x0 : Statement (.xspiGo x0) := ⟨.xspiGo 0#32, rfl, by decide⟩
theorem xspiCmdDone x0 x1 x2 : Statement (.xspiCmdDone x0 x1 x2) := ⟨.xspiCmdDone [] 0 [], rfl, by decide⟩
theorem xspiDataRead : Statement (.xspiDataRead) := ⟨.xspiDataRead, rfl, by decide⟩
theorem smbGo x0 : Statement (.smbGo x0) := ⟨.smbGo 0#32, rfl, by decide⟩
theorem smbXferDone x0 x1 x2 : Statement (.smbXferDone x0 x1 x2) := ⟨.smbXferDone false false [], rfl, by decide⟩
theorem smbTargetRx x0 x1 : Statement (.smbTargetRx x0 x1) := ⟨.smbTargetRx false [], rfl, by decide⟩
theorem smbDataRead : Statement (.smbDataRead) := ⟨.smbDataRead, rfl, by decide⟩
theorem uartDataRead : Statement (.uartDataRead) := ⟨.uartDataRead, rfl, by decide⟩
theorem uartRxByte x0 x1 : Statement (.uartRxByte x0 x1) := ⟨.uartRxByte 0#8 false, rfl, by decide⟩
theorem gpioEdge x0 : Statement (.gpioEdge x0) := ⟨.gpioEdge ⟨0#32, false⟩, rfl, by decide⟩
theorem por : Statement (.por) := ⟨.por, rfl, by decide⟩
theorem tamper : Statement (.tamper) := ⟨.tamper, rfl, by decide⟩
theorem coldpin : Statement (.coldpin) := ⟨.coldpin, rfl, by decide⟩
theorem rail : Statement (.rail) := ⟨.rail, rfl, by decide⟩
theorem wdog : Statement (.wdog) := ⟨.wdog, rfl, by decide⟩
theorem swrst x0 x1 : Statement (.swrst x0 x1) := ⟨.swrst .host 0#32, rfl, by decide⟩
theorem rstSwCold x0 x1 : Statement (.rstSwCold x0 x1) := ⟨.rstSwCold .host 0#32, rfl, by decide⟩
theorem failstart : Statement (.failstart) := ⟨.failstart, rfl, by decide⟩
theorem perst : Statement (.perst) := ⟨.perst, rfl, by decide⟩
theorem hotrst : Statement (.hotrst) := ⟨.hotrst, rfl, by decide⟩
theorem dldown : Statement (.dldown) := ⟨.dldown, rfl, by decide⟩
theorem rstBent x0 : Statement (.rstBent x0) := ⟨.rstBent 0#32, rfl, by decide⟩
theorem rstBay x0 : Statement (.rstBay x0) := ⟨.rstBay 0#32, rfl, by decide⟩
theorem rstBlock x0 : Statement (.rstBlock x0) := ⟨.rstBlock 0#32, rfl, by decide⟩
theorem resetSourceRelease x0 : Statement (.resetSourceRelease x0) := ⟨.resetSourceRelease 0, rfl, by decide⟩
theorem exitSequenceDone x0 : Statement (.exitSequenceDone x0) := ⟨.exitSequenceDone 0, rfl, by decide⟩
theorem wrapperDrained : Statement (.wrapperDrained) := ⟨.wrapperDrained, rfl, by decide⟩
theorem trimStart x0 : Statement (.trimStart x0) := ⟨.trimStart 0#32, rfl, by decide⟩
theorem trimLoadDone x0 : Statement (.trimLoadDone x0) := ⟨.trimLoadDone false, rfl, by decide⟩
theorem wdgEnable x0 : Statement (.wdgEnable x0) := ⟨.wdgEnable 0#32, rfl, by decide⟩
theorem wdgKick x0 : Statement (.wdgKick x0) := ⟨.wdgKick 0#32, rfl, by decide⟩
theorem pwrCtlWrite x0 : Statement (.pwrCtlWrite x0) := ⟨.pwrCtlWrite 0#32, rfl, by decide⟩
theorem pwrRetWrite x0 : Statement (.pwrRetWrite x0) := ⟨.pwrRetWrite 0#32, rfl, by decide⟩
theorem domainTransitionDone x0 : Statement (.domainTransitionDone x0) := ⟨.domainTransitionDone 0, rfl, by decide⟩
theorem pllLossOfLock x0 : Statement (.pllLossOfLock x0) := ⟨.pllLossOfLock 0, rfl, by decide⟩
theorem thermalSample x0 : Statement (.thermalSample x0) := ⟨.thermalSample (List.replicate 24 0), rfl, by decide⟩
theorem secPost x0 x1 : Statement (.secPost x0 x1) := ⟨.secPost false 0#32, rfl, by decide⟩
theorem secStatus x0 : Statement (.secStatus x0) := ⟨.secStatus false, rfl, by decide⟩
theorem selftest x0 : Statement (.selftest x0) := ⟨.selftest false, rfl, by decide⟩
theorem selftestComplete x0 : Statement (.selftestComplete x0) := ⟨.selftestComplete false, rfl, by decide⟩
theorem zeroise x0 : Statement (.zeroise x0) := ⟨.zeroise false, rfl, by decide⟩
theorem zeroisationComplete : Statement (.zeroisationComplete) := ⟨.zeroisationComplete, rfl, by decide⟩
theorem getnonce x0 : Statement (.getnonce x0) := ⟨.getnonce false, rfl, by decide⟩
theorem auth x0 x1 x2 x3 : Statement (.auth x0 x1 x2 x3) := ⟨.auth false 1 0 [], rfl, by decide⟩
theorem logout x0 : Statement (.logout x0) := ⟨.logout false, rfl, by decide⟩
theorem unlock x0 : Statement (.unlock x0) := ⟨.unlock false, rfl, by decide⟩
theorem secHash x0 x1 x2 x3 : Statement (.secHash x0 x1 x2 x3) := ⟨.secHash false 0 0 0, rfl, by decide⟩
theorem hmac x0 x1 x2 x3 x4 : Statement (.hmac x0 x1 x2 x3 x4) := ⟨.hmac false 0 0 0 0, rfl, by decide⟩
theorem gcmEnc x0 x1 x2 x3 x4 x5 : Statement (.gcmEnc x0 x1 x2 x3 x4 x5) := ⟨.gcmEnc false 0 [] 0 0 0, rfl, by decide⟩
theorem gcmDec x0 x1 x2 x3 x4 x5 x6 x7 : Statement (.gcmDec x0 x1 x2 x3 x4 x5 x6 x7) := ⟨.gcmDec false 0 [] [] [] 0 0 0, rfl, by decide⟩
theorem xtsEnc x0 x1 x2 x3 x4 x5 x6 : Statement (.xtsEnc x0 x1 x2 x3 x4 x5 x6) := ⟨.xtsEnc false 0 0 0 0 0 0, rfl, by decide⟩
theorem xtsDec x0 x1 x2 x3 x4 x5 x6 : Statement (.xtsDec x0 x1 x2 x3 x4 x5 x6) := ⟨.xtsDec false 0 0 0 0 0 0, rfl, by decide⟩
theorem sign x0 x1 x2 x3 : Statement (.sign x0 x1 x2 x3) := ⟨.sign false 0 0 0, rfl, by decide⟩
theorem verify x0 x1 x2 x3 x4 : Statement (.verify x0 x1 x2 x3 x4) := ⟨.verify false [] [] 0 0, rfl, by decide⟩
theorem ecdh x0 x1 x2 : Statement (.ecdh x0 x1 x2) := ⟨.ecdh false 0 [], rfl, by decide⟩
theorem keygen x0 x1 x2 x3 : Statement (.keygen x0 x1 x2 x3) := ⟨.keygen false 0 1 false, rfl, by decide⟩
theorem wrap x0 x1 x2 : Statement (.wrap x0 x1 x2) := ⟨.wrap false 0 0, rfl, by decide⟩
theorem unwrap x0 x1 x2 x3 x4 : Statement (.unwrap x0 x1 x2 x3 x4) := ⟨.unwrap false 0 0 1 [], rfl, by decide⟩
theorem keydel x0 x1 : Statement (.keydel x0 x1) := ⟨.keydel false 0, rfl, by decide⟩
theorem random x0 x1 x2 : Statement (.random x0 x1 x2) := ⟨.random false 0 0, rfl, by decide⟩
theorem attest x0 x1 : Statement (.attest x0 x1) := ⟨.attest false [], rfl, by decide⟩
theorem otpKey x0 x1 x2 x3 x4 : Statement (.otpKey x0 x1 x2 x3 x4) := ⟨.otpKey false 0 0 0 [], rfl, by decide⟩
theorem otpRevoke x0 x1 : Statement (.otpRevoke x0 x1) := ⟨.otpRevoke false 0, rfl, by decide⟩
theorem floor x0 x1 x2 x3 : Statement (.floor x0 x1 x2 x3) := ⟨.floor false 0 0#32 0#32, rfl, by decide⟩
theorem otpConfig x0 x1 : Statement (.otpConfig x0 x1) := ⟨.otpConfig false 0#32, rfl, by decide⟩
theorem destroy x0 : Statement (.destroy x0) := ⟨.destroy false, rfl, by decide⟩
theorem entropyHealthFail : Statement (.entropyHealthFail) := ⟨.entropyHealthFail, rfl, by decide⟩
theorem tamperMonitorTrip x0 : Statement (.tamperMonitorTrip x0) := ⟨.tamperMonitorTrip 1, rfl, by decide⟩
theorem debugRelock : Statement (.debugRelock) := ⟨.debugRelock, rfl, by decide⟩
theorem recordPost : Statement (.recordPost) := ⟨.recordPost, rfl, by decide⟩
theorem periodic : Statement (.periodic) := ⟨.periodic, rfl, by decide⟩
theorem bgRetire x0 : Statement (.bgRetire x0) := ⟨.bgRetire 0#32, rfl, by decide⟩
theorem retirementFinish : Statement (.retirementFinish) := ⟨.retirementFinish, rfl, by decide⟩
theorem journalPatrol : Statement (.journalPatrol) := ⟨.journalPatrol, rfl, by decide⟩
theorem journalPatrolEnd : Statement (.journalPatrolEnd) := ⟨.journalPatrolEnd, rfl, by decide⟩
theorem acRefresh : Statement (.acRefresh) := ⟨.acRefresh, rfl, by decide⟩
theorem flitCrcFailure x0 : Statement (.flitCrcFailure x0) := ⟨.flitCrcFailure 0, rfl, by decide⟩
theorem retryWindow x0 : Statement (.retryWindow x0) := ⟨.retryWindow 0, rfl, by decide⟩
theorem throttleHoldEnd x0 : Statement (.throttleHoldEnd x0) := ⟨.throttleHoldEnd 0, rfl, by decide⟩
theorem vddqLoss x0 x1 : Statement (.vddqLoss x0 x1) := ⟨.vddqLoss 0 false, rfl, by decide⟩
theorem rtcCrystalInUse : Statement (.rtcCrystalInUse) := ⟨.rtcCrystalInUse, rfl, by decide⟩
theorem uartTxByte : Statement .uartTxByte := ⟨.uartTxByte, rfl, by decide⟩
theorem aerError x0 x1 : Statement (.aerError x0 x1) := ⟨.aerError 0 [], rfl, by decide⟩
theorem d3hotTransition x0 : Statement (.d3hotTransition x0) := ⟨.d3hotTransition ⟨false, 0, 0#32⟩, rfl, by decide⟩

end Sys2Proof.Laws.Admits
end

