-- ==== Sys2Proof/Laws/PortOps.lean ====
section
/-!
SUPPORT. What training, errors and time exchange of a scarf port do to a state.
-/
namespace Sys2Proof.Laws.PortOps
open Sys2Proof Sys2Proof.Machine

theorem link_view {u v : State} (h : LinkRest u v) : v.qm = u.qm ∧ v.bays = u.bays ∧ v.ddr = u.ddr ∧ v.scr = u.scr ∧
    v.regs.sqs = u.regs.sqs ∧ v.regs.words = u.regs.words ∧ v.scf.routes = u.scf.routes ∧ v.scf.upd = u.scf.upd := by
  obtain ⟨P, g, o, rfl⟩ := h
  exact ⟨rfl, rfl, rfl, rfl, rfl, rfl, rfl, rfl⟩

theorem row_of {a : Nat} (h : ((regRow a).any fun r => decide (r.kind ≠ .sq)) = true) : ∃ r, regRow a = some r ∧ r.kind ≠ .sq := by
  rw [Option.any_eq_true] at h
  obtain ⟨r, h1, h2⟩ := h
  exact ⟨r, h1, of_decide_eq_true h2⟩

/-- What answers to a dead port leave alone. -/
def deadView (u : State) : Qm × Tab Bay × Ddr := (u.qm, u.bays, u.ddr)

theorem sendCmp_view (u : State) (f : Flit) : deadView (u.sendCmp f) = deadView u ∧ ∀ q, ((u.sendCmp f).port q).rx = (u.port q).rx := by
  have go : deadView (if u.route f.dst = 0 then (u.event 0x78070 0).bump 0x78078
      else if u.portUp (u.route f.dst - 1) then u.enqueue (u.route f.dst - 1) 1 { flit := f } else u) = deadView u ∧
      ∀ q, ((if u.route f.dst = 0 then (u.event 0x78070 0).bump 0x78078
      else if u.portUp (u.route f.dst - 1) then u.enqueue (u.route f.dst - 1) 1 { flit := f } else u).port q).rx = (u.port q).rx := by
    split
    · exact ⟨rfl, fun _ => rfl⟩
    · split
      · have v := link_view (State.enqueue_rest u (u.route f.dst - 1) 1 { flit := f })
        refine ⟨?_, fun q => State.enqueue_rx _ _ _ _ _⟩
        unfold deadView
        rw [v.1, v.2.1, v.2.2.1]
      · exact ⟨rfl, fun _ => rfl⟩
  unfold State.sendCmp
  dsimp only
  split
  · split
    · exact ⟨rfl, fun _ => rfl⟩
    · exact go
  · exact go

theorem deadFlit_view (u : State) (t : TxFlit) (r : Nat) (i : Bool) :
    deadView (u.deadFlit t r i) = deadView u ∧ ∀ q, ((u.deadFlit t r i).port q).rx = (u.port q).rx := by
  unfold State.deadFlit
  dsimp only
  split
  · split
    · exact ⟨rfl, fun _ => rfl⟩
    · split
      · split
        · exact ⟨rfl, fun _ => rfl⟩
        · exact sendCmp_view _ _
      · split
        · split
          · exact ⟨rfl, fun _ => rfl⟩
          · exact ⟨rfl, fun _ => rfl⟩
        · exact ⟨rfl, fun _ => rfl⟩
  · split
    · split
      · exact sendCmp_view _ _
      · split
        · exact ⟨rfl, fun _ => rfl⟩
        · exact ⟨rfl, fun _ => rfl⟩
    · exact ⟨rfl, fun _ => rfl⟩

theorem dropPort_view (u : State) (p st cause reason : Nat) (i : Bool) : deadView (u.dropPort p st cause reason i) = deadView u ∧
    ((u.dropPort p st cause reason i).port p).state = st ∧ ((u.dropPort p st cause reason i).port p).dcause = cause := by
  unfold State.dropPort
  dsimp only
  have k1 : ∀ (l : List TxFlit) (z : State), deadView (l.foldl (fun t f => t.deadFlit f reason i) z) = deadView z ∧
      ((l.foldl (fun t f => t.deadFlit f reason i) z).port p).rx = (z.port p).rx := fun l z =>
    ⟨foldl_keeps deadView _ (fun a b => (deadFlit_view a b reason i).1) l z,
     foldl_keeps (fun a : State => (a.port p).rx) _ (fun a b => (deadFlit_view a b reason i).2 p) l z⟩
  have k2 : ∀ (l : List Remote) (z : State), deadView (l.foldl (fun t r => t.todo (.lost r i)) z) = deadView z ∧
      ((l.foldl (fun t r => t.todo (.lost r i)) z).port p).rx = (z.port p).rx := fun l z =>
    ⟨foldl_keeps deadView (fun (t : State) r => t.todo (.lost r i)) (fun a b => rfl) l z,
     foldl_keeps (fun a : State => (a.port p).rx) (fun (t : State) r => t.todo (.lost r i)) (fun a b => rfl) l z⟩
  have r : ∀ (z : State) (l : List Remote) (m : List TxFlit),
      ((m.foldl (fun t f => t.deadFlit f reason i) (l.foldl (fun t r => t.todo (.lost r i)) z)).port p).rx = (z.port p).rx :=
    fun z l m => (k1 m _).2.trans (k2 l z).2
  have pp : ∀ (x : Port_) (R : List Remote),
      (State.port { (u.setPort p x) with scf := { (u.setPort p x).scf with reqs := R } } p).rx = x.rx := fun x R =>
    congrArg Port_.rx (State.port_setPort u p x)
  have r' := fun x R l m => (r _ l m).trans (pp x R)
  refine ⟨?_, congrArg (fun x => x.2.2.2.1) (r' _ _ _ _), congrArg (fun x => x.2.2.2.2.1) (r' _ _ _ _)⟩
  rw [(k1 _ _).1, (k2 _ _).1]
  rfl

/-- Status registers but those of refused routes and of the queue manager, which an answer to a dead port leaves alone. -/
theorem sendCmp_sq (u : State) (f : Flit) {a : Nat} (h : a ≠ 0x78070) : (u.sendCmp f).sq a = u.sq a := by
  have go : (if u.route f.dst = 0 then (u.event 0x78070 0).bump 0x78078
      else if u.portUp (u.route f.dst - 1) then u.enqueue (u.route f.dst - 1) 1 { flit := f } else u).sq a = u.sq a := by
    split
    · exact State.sq_setSq_ne u _ h
    · split
      · have v := link_view (State.enqueue_rest u (u.route f.dst - 1) 1 { flit := f })
        unfold State.sq
        rw [v.2.2.2.2.1]
      · rfl
  unfold State.sendCmp
  dsimp only
  split
  · split
    · rfl
    · exact go
  · exact go

theorem deadFlit_sq (u : State) (t : TxFlit) (r : Nat) (i : Bool) {a : Nat} (h : a ≠ 0x78070) (k : a ≠ 0x30040) :
    (u.deadFlit t r i).sq a = u.sq a := by
  unfold State.deadFlit
  dsimp only
  split
  · split
    · rfl
    · split
      · split
        · exact State.sq_setSq_ne u _ k
        · exact sendCmp_sq _ _ h
      · split
        · split
          · exact State.sq_setSq_ne u _ k
          · rfl
        · rfl
  · split
    · split
      · exact sendCmp_sq _ _ h
      · split <;> rfl
    · rfl

theorem dropPort_sq (u : State) (p st cause reason : Nat) (i : Bool) {a : Nat} (h : a ≠ 0x78070) (k : a ≠ 0x30040) :
    (u.dropPort p st cause reason i).sq a = u.sq a := by
  unfold State.dropPort
  dsimp only
  rw [foldl_keeps (fun t : State => t.sq a) _ (fun t f => deadFlit_sq t f reason i h k)]
  exact foldl_keeps (fun t : State => t.sq a) (fun (t : State) r => t.todo (.lost r i)) (fun _ _ => rfl) _ _

theorem declareDown_view (u : State) (p cause : Nat) : deadView (u.declareDown p cause) = deadView u ∧
    ((u.declareDown p cause).port p).state = 3 ∧ ((u.declareDown p cause).port p).dcause = cause ∧
    (u.declareDown p cause).sq (scfBase p + 0x20) = (u.sq (scfBase p + 0x20)).event 1 := by
  unfold State.declareDown
  obtain ⟨d1, d2, d3⟩ := dropPort_view u p 3 cause 3 (decide (cause = 8))
  have d4 : (u.dropPort p 3 cause 3 (decide (cause = 8))).sq (scfBase p + 0x20) = u.sq (scfBase p + 0x20) :=
    dropPort_sq u p 3 cause 3 _ (by unfold scfBase; omega) (by unfold scfBase; omega)
  generalize u.dropPort p 3 cause 3 (decide (cause = 8)) = w at *
  have f1 := State.flood_rx (w.event (scfBase p + 0x20) 1) p 2 p
  obtain ⟨v, f2⟩ := State.flood_rest (w.event (scfBase p + 0x20) 1) p 2
  have lv := link_view f2
  refine ⟨?_, ?_, ?_, ?_⟩
  · rw [← d1]
    show ((State.flood _ _ _).qm, (State.flood _ _ _).bays, (State.flood _ _ _).ddr) = _
    rw [lv.1, lv.2.1, lv.2.2.1]
    rfl
  · exact (congrArg (fun x => x.2.2.2.1) f1).trans d2
  · exact (congrArg (fun x => x.2.2.2.2.1) f1).trans d3
  · rw [← d4]
    show tgetD _ (State.flood _ _ _).regs.sqs _ = _
    rw [lv.2.2.2.2.1]
    exact State.sq_event _ _ _

theorem joinTag_twice (o t : Nat) : joinTag (joinTag o t) t = joinTag o t := by
  unfold joinTag
  split
  · rfl
  · split
    · rfl
    · exact ite_eq_right_iff.2 fun h => h.symm

/-- What a delay through port p does to a state: the flights of the accesses that it delays take its tag. -/
theorem delayFold (tag : Nat) : ∀ (l : List Remote) (s : State),
    ∃ B, l.foldl (fun (t : State) r => t.onBay r.bay fun b => b.served r.fid fun o => { o with tag := joinTag o.tag tag }) s =
        { s with bays := B } ∧
      ∀ k, (tget Bay.fresh B k).pipe.flights = (s.bay k).pipe.flights.map fun f =>
        if (l.any fun r => decide (r.bay = k) && decide (r.fid = f.id)) = true then
          { f with out := f.out.map fun o => { o with tag := joinTag o.tag tag } } else f
  | [], s => ⟨s.bays, rfl, fun k => by simp; rfl⟩
  | r :: l, s => by
    obtain ⟨B, e, h⟩ := delayFold tag l (s.onBay r.bay fun b => b.served r.fid fun o => { o with tag := joinTag o.tag tag })
    refine ⟨B, e, fun k => (h k).trans ?_⟩
    by_cases hk : k = r.bay
    · subst hk
      rw [State.bay_onBay]
      show ((s.bay r.bay).pipe.flights.map _).map _ = _
      rw [List.map_map]
      refine List.map_congr_left fun f _ => ?_
      rw [Function.comp_apply, List.any_cons, decide_eq_true (rfl : r.bay = r.bay), Bool.true_and]
      by_cases hf : f.id = r.fid
      · rw [if_pos hf, decide_eq_true hf.symm, Bool.true_or, if_pos rfl]
        split
        · dsimp only
          cases f.out with
          | none => rfl
          | some o => simp only [Option.map_some, joinTag_twice]
        · rfl
      · rw [if_neg hf, decide_eq_false (Ne.symm hf), Bool.false_or]
    · rw [State.bay_onBay_ne _ _ hk]
      refine List.map_congr_left fun f _ => ?_
      rw [List.any_cons, decide_eq_false (Ne.symm hk), Bool.false_and, Bool.false_or]

theorem delayRemote_eq (s : State) (p tag : Nat) : ∃ B, s.delayRemote p tag = { s with bays := B } ∧
    ∀ k, (tget Bay.fresh B k).pipe.flights = (s.bay k).pipe.flights.map (tagged s k p tag) := by
  obtain ⟨B, e, h⟩ := delayFold tag (s.scf.reqs.filter fun r => decide (r.port = p)) s
  refine ⟨B, e, fun k => (h k).trans (List.map_congr_left fun f _ => ?_)⟩
  unfold tagged
  rw [List.any_filter]
  simp only [Bool.and_assoc]

theorem delayRemote_none (s : State) (p tag : Nat) (h : ∀ r ∈ s.scf.reqs, r.port ≠ p) : s.delayRemote p tag = s := by
  unfold State.delayRemote
  rw [List.filter_eq_nil_iff.2 fun r hr => by simpa using h r hr]
  rfl

/-- A retry that meets port p marks flights and skips a time exchange. -/
theorem meets_eq (s : State) (p : Nat) : ∃ B f, s.meetsRetry p = { s with bays := B, scf := f } ∧ f.ports = s.scf.ports ∧
    f.reqs = s.scf.reqs ∧ f.view = s.scf.view ∧
    (∀ k, (tget Bay.fresh B k).pipe.flights = (s.bay k).pipe.flights.map (tagged s k p 12)) ∧
    ((∀ r ∈ s.scf.reqs, r.port ≠ p) → B = s.bays) ∧ (p = fld (s.reg 0x78020) 4 3 → f.t1 = none) := by
  obtain ⟨B, e, h⟩ := delayRemote_eq s p 12
  have hn : (∀ r ∈ s.scf.reqs, r.port ≠ p) → B = s.bays := fun c =>
    congrArg State.bays (e.symm.trans (delayRemote_none s p 12 c))
  unfold State.meetsRetry
  dsimp only
  rw [e]
  split
  · exact ⟨B, _, rfl, rfl, rfl, rfl, h, hn, fun _ => rfl⟩
  · next c =>
    refine ⟨B, s.scf, rfl, rfl, rfl, rfl, h, hn, fun hp => ?_⟩
    cases ht : s.scf.t1 with
    | none => rfl
    | some x => exact absurd (by rw [show ({ s with bays := B } : State).scf.t1 = some x from ht, hp, decide_eq_true]; rfl; rfl) c

/-- An opened gap. -/
theorem openGap_view (s : State) (p : Nat) :
    ((s.openGap p).port p).gap = true ∧ ((s.openGap p).port p).rxNext = (s.port p).rxNext ∧
    ((s.openGap p).port p).state = (s.port p).state ∧ (s.openGap p).ddr = s.ddr ∧ (s.openGap p).qm = s.qm ∧
    ((s.port p).gap = true ∨ (∀ r ∈ s.scf.reqs, r.port ≠ p) → (s.openGap p).bays = s.bays) := by
  unfold State.openGap
  dsimp only
  cases hg : (s.port p).gap with
  | true => rw [if_pos rfl]; exact ⟨hg, rfl, rfl, rfl, rfl, fun _ => rfl⟩
  | false =>
    rw [if_neg (by decide)]
    obtain ⟨x, hx, x1, x2, x3⟩ : ∃ x, x = ({ s.port p with gap := true, nak := true, since := if (s.port p).retry then (s.port p).since else s.qm.us } : Port_) ∧
      x.gap = true ∧ x.rxNext = (s.port p).rxNext ∧ x.state = (s.port p).state := ⟨_, rfl, rfl, rfl, rfl⟩
    rw [← hx]
    obtain ⟨B, f, e, f1, _, _, _, hb, _⟩ := meets_eq (s.setPort p x) p
    rw [e]
    have pp : State.port { s.setPort p x with bays := B, scf := f } p = x := by
      show tgetD {} f.ports p = x
      rw [f1]
      exact State.port_setPort _ _ _
    have hb' : (∀ r ∈ s.scf.reqs, r.port ≠ p) → B = s.bays := hb
    split
    · rw [pp]
      exact ⟨x1, x2, x3, rfl, rfl, fun c => c.elim (fun c => absurd c (by decide)) hb'⟩
    · have fx := State.flood_rx { s.setPort p x with bays := B, scf := f } p 1 p
      obtain ⟨v, fr⟩ := State.flood_rest { s.setPort p x with bays := B, scf := f } p 1
      have lv := link_view fr
      rw [pp] at fx
      refine ⟨(congrArg (fun x => x.2.1) fx).trans x1, (congrArg (fun x => x.1) fx).trans x2,
        (congrArg (fun x => x.2.2.2.1) fx).trans x3, lv.2.2.1, lv.1, fun c => ?_⟩
      rw [lv.2.1]
      exact c.elim (fun c => absurd c (by decide)) hb'

/-- A replay timeout or a NAK while flits wait for acknowledgement, below the sixteenth failure in a row. -/
theorem retryStart_view (s : State) (p : Nat) (hu : s.portUp p = true) (h1 : (s.port p).replay ≠ [])
    (h2 : (s.port p).retry = false ∨ (s.port p).fails < 15) :
    ((s.retryStart p).port p).retry = true ∧ ((s.retryStart p).port p).state = (s.port p).state ∧
    (s.retryStart p).sq (scfBase p + 0x20) = (s.sq (scfBase p + 0x20)).event 2 ∧ (s.retryStart p).ddr = s.ddr ∧
    (s.retryStart p).qm = s.qm ∧
    (∀ k, ((s.retryStart p).bay k).pipe.flights = (s.bay k).pipe.flights.map (tagged s k p 12)) ∧
    (p = fld (s.reg 0x78020) 4 3 → (s.retryStart p).scf.t1 = none) := by
  obtain ⟨B, f, e, f1, _, _, fk, _, ft⟩ := meets_eq s p
  have pp : (s.meetsRetry p).port p = s.port p := by
    rw [e]
    show tgetD {} f.ports p = _
    rw [f1]; rfl
  -- what the replay of a port that has been set leaves
  have key : ∀ (x : Port_) (u : State), x.retry = true → x.state = (s.port p).state →
      (u = (s.meetsRetry p).setPort p x ∨ u = ((s.meetsRetry p).setPort p x).bump (scfBase p + 0x60)) →
      ∀ w, w = (u.replayStarts p).resend p →
        (w.port p).retry = true ∧ (w.port p).state = (s.port p).state ∧
        w.sq (scfBase p + 0x20) = (s.sq (scfBase p + 0x20)).event 2 ∧ w.ddr = s.ddr ∧ w.qm = s.qm ∧
        (∀ k, (w.bay k).pipe.flights = (s.bay k).pipe.flights.map (tagged s k p 12)) ∧
        (p = fld (s.reg 0x78020) 4 3 → w.scf.t1 = none) := by
    intro x u hx1 hx2 hu w hw
    have u1 : u.port p = x ∧ u.bays = B ∧ u.ddr = s.ddr ∧ u.qm = s.qm ∧ u.scf.t1 = f.t1 ∧
        u.sq (scfBase p + 0x20) = s.sq (scfBase p + 0x20) := by
      rcases hu with rfl | rfl <;>
      · refine ⟨State.port_setPort _ _ _, ?_, ?_, ?_, ?_, ?_⟩ <;> rw [e] <;> rfl
    obtain ⟨u2, u3, u4, u5, u6, u7⟩ := u1
    have rr := State.resend_rest (u.replayStarts p) p
    have rx := State.resend_rx (u.replayStarts p) p p
    have lv := link_view rr
    obtain ⟨C, c, q, re, rq⟩ := State.err_rest ((u.bump (scfBase p + 0x58)).event (scfBase p + 0x20) 2) 1 4 p 0
      (((u.bump (scfBase p + 0x58)).event (scfBase p + 0x20) 2).sq (scfBase p + 0x20)).read
    have rs : u.replayStarts p = { (u.bump (scfBase p + 0x58)).event (scfBase p + 0x20) 2 with bg := C, regs := { ((u.bump (scfBase p + 0x58)).event (scfBase p + 0x20) 2).regs with cnts := c, sqs := q } } := re
    have rp : ((u.replayStarts p).port p).rx = x.rx := by rw [rs]; exact congrArg Port_.rx u2
    rw [hw]
    refine ⟨(congrArg (fun x => x.2.2.1) (rx.trans rp)).trans hx1, (congrArg (fun x => x.2.2.2.1) (rx.trans rp)).trans hx2, ?_,
      ?_, ?_, fun k => ?_, fun hp => ?_⟩
    · unfold State.sq
      rw [lv.2.2.2.2.1, rs]
      refine (rq _ (by unfold scfBase; omega)).trans ?_
      show State.sq ((u.bump (scfBase p + 0x58)).event (scfBase p + 0x20) 2) _ = _
      rw [State.sq_event]
      exact congrArg (fun z : Sq => z.event 2) u7
    · rw [lv.2.2.1, rs]; exact u4
    · rw [lv.1, rs]; exact u5
    · unfold State.bay
      rw [lv.2.1, rs]
      show (tget Bay.fresh u.bays k).pipe.flights = _
      rw [u3]
      exact fk k
    · obtain ⟨P, g, o, rw'⟩ := rr
      rw [rw', rs]
      exact u6.trans (ft hp)
  have emp : (s.port p).replay.isEmpty = false := by simpa using h1
  unfold State.retryStart
  dsimp only
  rw [pp, hu, emp, if_neg (by decide)]
  by_cases hr : (s.port p).retry = true
  · have h3 : (s.port p).fails < 15 := h2.elim (fun c => absurd (hr.symm.trans c) (by decide)) id
    rw [if_pos hr, if_neg (show ¬ 16 ≤ (s.port p).fails + 1 by omega)]
    exact key { s.port p with fails := (s.port p).fails + 1 } _ hr rfl (.inr rfl) _ rfl
  · rw [if_neg hr]
    generalize hx : ({ s.port p with retry := true, fails := 0, since := if (s.port p).gap then (s.port p).since else (s.meetsRetry p).qm.us } : Port_) = x
    have x1 : x.retry = true ∧ x.state = (s.port p).state := by rw [← hx]; exact ⟨rfl, rfl⟩
    obtain ⟨w1, w2, w3, w4, w5, w6, w7⟩ := key x _ x1.1 x1.2 (.inl rfl) _ rfl
    split
    · exact ⟨w1, w2, w3, w4, w5, w6, w7⟩
    · generalize ((State.setPort (s.meetsRetry p) p x).replayStarts p).resend p = w at *
      obtain ⟨v, fr⟩ := State.flood_rest w p 1
      have fx := State.flood_rx w p 1 p
      have fv := link_view fr
      refine ⟨(congrArg (fun x => x.2.2.1) fx).trans w1, (congrArg (fun x => x.2.2.2.1) fx).trans w2, ?_, fv.2.2.1.trans w4,
        fv.1.trans w5, fun k => ?_, fun hp => ?_⟩
      · unfold State.sq
        rw [fv.2.2.2.2.1]
        exact w3
      · unfold State.bay
        rw [fv.2.1]
        exact w6 k
      · obtain ⟨P, g, o, rw'⟩ := fr
        rw [rw']
        exact w7 hp

/-- The sixteenth failure in a row. -/
theorem retryStart_last (s : State) (p : Nat) (hu : s.portUp p = true) (h1 : (s.port p).replay ≠ []) (h2 : (s.port p).retry = true)
    (h3 : 15 ≤ (s.port p).fails) :
    ∃ u : State, s.retryStart p = u.declareDown p 1 ∧ u.ddr = s.ddr ∧ u.qm = s.qm ∧
      u.sq (scfBase p + 0x20) = s.sq (scfBase p + 0x20) := by
  obtain ⟨B, f, e, f1, _, _, fk, _, ft⟩ := meets_eq s p
  have pp : (s.meetsRetry p).port p = s.port p := by
    rw [e]
    show tgetD {} f.ports p = _
    rw [f1]; rfl
  have emp : (s.port p).replay.isEmpty = false := by simpa using h1
  unfold State.retryStart
  dsimp only
  rw [pp, hu, emp, if_neg (by decide), h2, if_pos rfl, if_pos (show 16 ≤ (s.port p).fails + 1 by omega), e]
  exact ⟨_, rfl, rfl, rfl, rfl⟩

/-- The first element of an ordered list that a test admits precedes every other that it admits. -/
theorem find_first {α : Type} {R : α → α → Prop} (P : α → Bool) : ∀ (l : List α), l.Pairwise R → ∀ b, l.find? P = some b →
    b ∈ l ∧ P b = true ∧ ∀ e ∈ l, P e = true → e = b ∨ R b e
  | [], _, b, h => by cases h
  | a :: l, hl, b, h => by
    rw [List.pairwise_cons] at hl
    rw [List.find?_cons] at h
    cases ha : P a with
    | true =>
      rw [ha] at h
      cases h
      exact ⟨List.mem_cons_self, ha, fun e he _ => (List.mem_cons.1 he).elim .inl fun c => .inr (hl.1 e c)⟩
    | false =>
      rw [ha] at h
      obtain ⟨b1, b2, b3⟩ := find_first P l hl.2 b h
      refine ⟨List.mem_cons_of_mem _ b1, b2, fun e he hp => ?_⟩
      rcases List.mem_cons.1 he with rfl | c
      · rw [ha] at hp; cases hp
      · exact b3 e c hp

/-- The set of lanes that a training attempt settles on. -/
theorem linkSet_some (s : State) (p lanes width : Nat) (fits : Nat × Nat → Prop)
    (hf : ∀ e, fits e ↔ e ∈ laneSets ∧ fld (s.reg (scfBase p)) 4 2 + 1 ≤ e.1 ∧ width % 4 ≤ e.1 ∧
      e.2 &&& ((lanes % 16) &&& fld (s.reg (scfBase p)) 8 4) = e.2) :
    (∀ b, s.linkSet p lanes width = some b → fits b ∧ b.1 ≠ 0 ∧ b.1 < 4 ∧ b.2 < 16 ∧
      ∀ e, fits e → b.1 < e.1 ∨ b.1 = e.1 ∧ b.2 ≤ e.2) ∧
    (s.linkSet p lanes width = none ↔ ∀ e, ¬ fits e) := by
  have pw : laneSets.Pairwise fun a b => a.1 < b.1 ∨ a.1 = b.1 ∧ a.2 ≤ b.2 := by unfold laneSets; decide
  have ran : ∀ e ∈ laneSets, e.1 ≠ 0 ∧ e.1 < 4 ∧ e.2 < 16 := by unfold laneSets; decide
  have tst : ∀ e : Nat × Nat, (decide (fld (s.reg (scfBase p)) 4 2 + 1 ≤ e.1) && decide (width % 4 ≤ e.1) &&
      decide (e.2 &&& ((lanes % 16) &&& fld (s.reg (scfBase p)) 8 4) = e.2)) = true ↔
      fld (s.reg (scfBase p)) 4 2 + 1 ≤ e.1 ∧ width % 4 ≤ e.1 ∧ e.2 &&& ((lanes % 16) &&& fld (s.reg (scfBase p)) 8 4) = e.2 := by
    intro e
    rw [Bool.and_eq_true, Bool.and_eq_true, decide_eq_true_eq, decide_eq_true_eq, decide_eq_true_eq, and_assoc]
  unfold State.linkSet
  dsimp only
  constructor
  · intro b hb
    obtain ⟨b1, b2, b3⟩ := find_first _ laneSets pw b hb
    obtain ⟨r1, r2, r3⟩ := ran b b1
    refine ⟨(hf b).2 ⟨b1, (tst b).1 b2⟩, r1, r2, r3, fun e he => ?_⟩
    obtain ⟨e1, e2⟩ := (hf e).1 he
    rcases b3 e e1 ((tst e).2 e2) with rfl | c
    · exact .inr ⟨rfl, le_rfl⟩
    · exact c
  · rw [List.find?_eq_none]
    exact ⟨fun h e he => h e ((hf e).1 he).1 ((tst e).2 ((hf e).1 he).2), fun h e he c => h e ((hf e).2 ⟨he, (tst e).1 c⟩)⟩

theorem ctl_go (u : State) (p : Nat) (v : Word) (hp : p < 8) (h : u.reachable (scfBase p) = true) :
    u.regWrite .host (scfBase p) v = u.portCtl p v := by
  have rows : ∀ n : Fin 8, ((regRow (scfBase n.val)).any fun r => decide (r.kind ≠ .sq)) = true := by decide
  obtain ⟨r, hr, hk⟩ := row_of (rows ⟨p, hp⟩)
  rw [u.regWrite_scf .host v h hr hk (by unfold scfBase; omega) (by unfold scfBase; omega)]
  unfold State.scfWrite
  rw [if_pos (by unfold scfBase; omega), if_pos (by unfold scfBase; omega)]
  congr 1
  unfold scfBase
  omega

theorem put_bit0 (w : Word) : bitAt (putBit w 0 true) 0 = true := by
  unfold bitAt putBit putFld
  rw [BitVec.getLsbD_or, show (wd (nbit true % 2 ^ 1 * 2 ^ 0)).getLsbD 0 = true from rfl, Bool.or_true]

theorem portCtl_enable (u : State) (p : Nat) (v : Word) (h1 : bitAt (u.reg (scfBase p)) 0 = false) (h2 : bitAt v 0 = true) (h3 : (u.port p).state = 0) :
    ∃ w, u.portCtl p v = ((u.setReg (scfBase p) w).setReg (scfBase p) (putBit w 0 true)).setPort p { u.port p with state := 1, attempt := true } := by
  unfold State.portCtl
  dsimp only
  rw [h1, h2, if_neg (by decide), if_pos rfl]
  refine ⟨putBit (if fld v 4 2 = 3 then putFld (v &&& 0x1F31#32) 4 2 (fld (u.reg (scfBase p)) 4 2) else v &&& 0x1F31#32) 0 false, ?_⟩
  · unfold State.portEnable
    dsimp only
    rw [State.reg_setReg, if_pos (show (State.port (State.setReg u (scfBase p) _) p).state = 0 from h3)]
    rfl

theorem portCtl_disable (u : State) (p : Nat) (v : Word) (h1 : bitAt (u.reg (scfBase p)) 0 = true) (h2 : bitAt v 0 = false) (h3 : (u.port p).state ≠ 0) :
    ∃ w : State, u.portCtl p v = w.dropPort p 0 (u.port p).dcause 3 false ∧ w.bays = u.bays ∧ w.ddr = u.ddr ∧ w.qm = u.qm := by
  unfold State.portCtl
  dsimp only
  rw [h1, h2, if_neg (by decide), if_neg (by decide)]
  unfold State.portDisable
  dsimp only
  rw [if_neg (show ¬ (State.port (State.setReg u (scfBase p) _) p).state = 0 from h3)]
  exact ⟨_, rfl, rfl, rfl, rfl⟩

theorem scf_go (u : State) (a : Nat) (v : Word) (h : u.reachable a = true) (ha : a = 0x78034 ∨ a = 0x78000 ∨ a = 0x78068) :
    u.regWrite .host a v = if a = 0x78034 then u.timeSet true v else if a = 0x78000 then u.devIdWrite v else
      match fld v 0 2 with | 1 => u.pwRead | 2 => u.pwWrite | _ => u := by
  have hrow : ((regRow a).any fun r => decide (r.kind ≠ .sq)) = true := by rcases ha with rfl | rfl | rfl <;> decide
  obtain ⟨r, hr, hk⟩ := row_of hrow
  rw [u.regWrite_scf .host v h hr hk (by omega) (by omega)]
  unfold State.scfWrite
  rcases ha with rfl | rfl | rfl
  · rw [if_neg (by decide), if_neg (by decide), if_neg (by decide), if_neg (by decide), if_neg (by decide), if_pos rfl, if_pos rfl]
  · rw [if_neg (by decide), if_pos rfl, if_neg (by decide), if_pos rfl]
  · rw [if_neg (by decide), if_neg (by decide), if_neg (by decide), if_neg (by decide), if_neg (by decide), if_neg (by decide), if_pos rfl, if_neg (by decide), if_neg (by decide)]
    all_goals rfl

theorem pwReadFold (e : Nat) : ∀ (l : List Nat) (x : State),
    ∃ g, l.foldl (fun (t : State) i => t.setReg (0x78044 + 4 * i) (tgetD 0#32 t.scf.watch (e * 9 + i))) x = { x with regs := g } ∧
      ∀ j, (tget regReset g.words (0x78044 + 4 * j)) = if j ∈ l then tgetD 0#32 x.scf.watch (e * 9 + j) else x.reg (0x78044 + 4 * j)
  | [], x => ⟨x.regs, rfl, fun j => by simp; rfl⟩
  | i :: l, x => by
    obtain ⟨g, g1, g2⟩ := pwReadFold e l (x.setReg (0x78044 + 4 * i) (tgetD 0#32 x.scf.watch (e * 9 + i)))
    rw [List.foldl_cons]
    refine ⟨g, g1, fun j => ?_⟩
    rw [g2]
    by_cases hj : j ∈ l
    · rw [if_pos hj, if_pos (by simp [hj])]; rfl
    · rw [if_neg hj]
      by_cases hi : j = i
      · subst hi
        rw [if_pos (by simp), State.reg_setReg]
      · rw [if_neg (by simp [hi, hj]), State.reg_setReg_ne _ _ (by omega)]

theorem pwWriteFold (e : Nat) : ∀ (l : List Nat) (x : State),
    ∃ g, l.foldl (fun (t : State) i =>
      { t with scf := { t.scf with watch := tsetD 0#32 t.scf.watch (e * 9 + i) (t.reg (0x78044 + 4 * i)) } }) x = { x with scf := { x.scf with watch := g } } ∧
      ∀ k, tgetD 0#32 g k = if e * 9 ≤ k ∧ k - e * 9 ∈ l then x.reg (0x78044 + 4 * (k - e * 9)) else tgetD 0#32 x.scf.watch k
  | [], x => ⟨x.scf.watch, rfl, fun j => by simp⟩
  | i :: l, x => by
    obtain ⟨g, g1, g2⟩ := pwWriteFold e l { x with scf := { x.scf with watch := tsetD 0#32 x.scf.watch (e * 9 + i) (x.reg (0x78044 + 4 * i)) } }
    rw [List.foldl_cons]
    refine ⟨g, g1, fun k => ?_⟩
    rw [g2]
    by_cases hj : e * 9 ≤ k ∧ k - e * 9 ∈ l
    · rw [if_pos hj, if_pos ⟨hj.1, by simp [hj.2]⟩]; rfl
    · rw [if_neg hj]
      by_cases hi : k = e * 9 + i
      · subst hi
        rw [if_pos ⟨by omega, by simp⟩, show e * 9 + i - e * 9 = i from by omega]
        exact tgetD_tsetD_same _ _ _ _
      · rw [if_neg]
        · exact tgetD_tsetD_ne _ _ _ hi
        · rintro ⟨c1, c2⟩
          rcases List.mem_cons.1 c2 with c | c
          · omega
          · exact hj ⟨c1, c⟩

/-- A follower's exchange, after an earlier one without an answer. -/
theorem tsyncStart_eq (s u : State) (sub : Nat) (h3 : s.on 19 = true) (h2 : fld (s.reg 0x78020) 0 2 = 2)
    (hu : u = if s.scf.t1 = none then s else s.tsyncSkip) :
    s.tsyncStart sub = if u.portUp (fld (s.reg 0x78020) 4 3) && !(u.port (fld (s.reg 0x78020) 4 3)).retry && !(u.port (fld (s.reg 0x78020) 4 3)).gap then
        ({ u with scf := { u.scf with t1 := some (u.stamp sub) } } : State).emit
        (.flit (fld (s.reg 0x78020) 4 3) { typ := 10, dst := (u.port (fld (s.reg 0x78020) 4 3)).peerDev, src := u.devId } ((u.port (fld (s.reg 0x78020) 4 3)).link 0)) else u.tsyncSkip := by
  unfold State.tsyncStart
  dsimp only
  rw [if_neg (show ¬ (fld (s.reg 0x78020) 0 2 ≠ 2 ∨ (!s.on 19) = true) by rw [h3]; rintro (c | c); exact c h2; exact absurd c (by decide)), hu]
  cases ht : s.scf.t1 with
  | none => rfl
  | some x => rw [if_neg (show ¬ some x = none by simp)]; rfl

/-- The part of an exchange that moves the time, read off `tsyncRsp`. -/
def timed (s2 : State) (off : Int) : State :=
  let big := decide (off < -65536000 ∨ 65536000 < off)
  let near := decide (-524288 ≤ off ∧ off ≤ 524288)
  let slew : Int := if off < -819200 then -819200 else if 819200 < off then 819200 else off
  let good := if big then 0 else if near then s2.scf.good + 1 else 0
  let f := s2.scf.moveTime (if big then off else slew)
  let s3 := { s2 with scf := { f with t1 := none, skipped := 0, good := good,
                                      locked := !big && (f.locked || decide (8 ≤ good)), offset := sat16s (off / 65536) } }
  if big then s3.event 0x78070 2 else s3

theorem timed_eq (u : State) (off : Int) : (timed u off).scf.t1 = none ∧ (timed u off).scf.skipped = 0 ∧ (timed u off).bays = u.bays ∧
    ((off < -65536000 ∨ 65536000 < off) → (timed u off).scf.time = ((Int.ofNat u.scf.time + off) % (2 ^ 80 : Int)).toNat ∧
      (timed u off).scf.locked = false ∧ (timed u off).sq 0x78070 = (u.sq 0x78070).event 2) ∧
    (-819200 ≤ off → off ≤ 819200 → (timed u off).scf.time = ((Int.ofNat u.scf.time + off) % (2 ^ 80 : Int)).toNat) ∧
    (-65536000 ≤ off → off < -819200 → (timed u off).scf.time = ((Int.ofNat u.scf.time - 819200) % (2 ^ 80 : Int)).toNat) ∧
    (819200 < off → off ≤ 65536000 → (timed u off).scf.time = ((Int.ofNat u.scf.time + 819200) % (2 ^ 80 : Int)).toNat) ∧
    (-524288 ≤ off → off ≤ 524288 → (timed u off).scf.good = u.scf.good + 1 ∧
      (timed u off).scf.locked = (u.scf.locked || decide (8 ≤ u.scf.good + 1))) ∧
    (∀ p, (timed u off).port p = u.port p) := by
  unfold timed
  dsimp only
  by_cases hb : off < -65536000 ∨ 65536000 < off
  · rw [if_pos (decide_eq_true hb)]
    refine ⟨rfl, rfl, rfl, fun _ => ⟨?_, ?_, ?_⟩, fun c1 c2 => by omega, fun c1 c2 => by omega, fun c1 c2 => by omega,
      fun c1 c2 => by omega, fun _ => rfl⟩
    · show ((Int.ofNat u.scf.time + if decide (off < -65536000 ∨ 65536000 < off) = true then off else _) % (2 ^ 80 : Int)).toNat = _
      rw [if_pos (decide_eq_true hb)]
    · show (!decide (off < -65536000 ∨ 65536000 < off) && _) = false
      rw [decide_eq_true hb]; rfl
    · rw [State.sq_event]; rfl
  · rw [if_neg (by rw [decide_eq_true_eq]; exact hb)]
    have tm : ∀ x : Int, (if off < -819200 then -819200 else if 819200 < off then 819200 else off) = x →
        ((Int.ofNat u.scf.time + if decide (off < -65536000 ∨ 65536000 < off) = true then off else
          if off < -819200 then -819200 else if 819200 < off then 819200 else off) % (2 ^ 80 : Int)).toNat =
          ((Int.ofNat u.scf.time + x) % (2 ^ 80 : Int)).toNat := fun x hx => by
      rw [if_neg (by rw [decide_eq_true_eq]; exact hb), hx]
    refine ⟨rfl, rfl, rfl, fun c => absurd c hb, fun c1 c2 => tm off (by rw [if_neg (by omega), if_neg (by omega)]),
      fun c1 c2 => (tm (-819200) (by rw [if_pos c2])).trans (by rw [Int.sub_eq_add_neg]), fun c1 c2 => tm 819200 (by rw [if_neg (by omega), if_pos c1]), fun c1 c2 => ?_, fun _ => rfl⟩
    show (if decide (off < -65536000 ∨ 65536000 < off) = true then 0 else if decide (-524288 ≤ off ∧ off ≤ 524288) = true then u.scf.good + 1 else 0) = _ ∧
      (!decide (off < -65536000 ∨ 65536000 < off) && (u.scf.locked || decide (8 ≤ (if decide (off < -65536000 ∨ 65536000 < off) = true then 0 else if decide (-524288 ≤ off ∧ off ≤ 524288) = true then u.scf.good + 1 else 0)))) = _
    rw [decide_eq_false hb, decide_eq_true (show -524288 ≤ off ∧ off ≤ 524288 from ⟨c1, c2⟩)]
    exact ⟨rfl, rfl⟩

end Sys2Proof.Laws.PortOps
end

