-- ==== Sys2Proof/Laws/Pulses.lean ====
section
/-!
SUPPORT. What a pulse of one bay or block and the hold of a bent do to a state.
-/
namespace Sys2Proof.Laws.Pulses
open Sys2Proof Sys2Proof.Machine

theorem row_of {a : Nat} (h : ((regRow a).any fun r => decide (r.kind ≠ .sq)) = true) : ∃ r, regRow a = some r ∧ r.kind ≠ .sq := by
  rw [Option.any_eq_true] at h
  obtain ⟨r, h1, h2⟩ := h
  exact ⟨r, h1, of_decide_eq_true h2⟩

theorem fld_hi (v : Word) (i n : Nat) (h : i + n ≤ 31) : fld (v ||| 0x80000000#32) i n = fld v i n := by
  unfold fld
  refine Nat.eq_of_testBit_eq fun j => ?_
  rw [Nat.testBit_mod_two_pow, Nat.testBit_mod_two_pow]
  by_cases c : j < n
  · rw [Nat.testBit_div_two_pow, Nat.testBit_div_two_pow, BitVec.toNat_or, Nat.testBit_or]
    have : (0x80000000#32).toNat.testBit (i + j) = false := by
      show (2 ^ 31).testBit (i + j) = false
      rw [Nat.testBit_two_pow]
      simp; omega
    rw [Nat.add_comm j i, this, Bool.or_false]
  · simp [c]

theorem low_or31 (v : Word) (n : Nat) (h : n ≤ 31) : fld (v ||| 0x80000000#32) 0 n = fld v 0 n := fld_hi v 0 n (by omega)

theorem rst_go (u : State) (ag : Agent) (a : Nat) (v : Word) (h : u.reachable a = true) (ha : a = 0x10014 ∨ a = 0x10018 ∨ a = 0x1001C) :
    u.regWrite ag a v = u.rstWrite ag a v := by
  have hrow : ((regRow a).any fun r => decide (r.kind ≠ .sq)) = true := by rcases ha with rfl | rfl | rfl <;> decide
  obtain ⟨r, hr, hk⟩ := row_of hrow
  exact u.regWrite_rst ag v h hr hk (by omega) (by omega)

/-- What the reset of a bay touches when it has no task and no message, the bays apart. -/
def DropRest (u v : State) : Prop :=
  ∃ B S Q R P X, v = { u with bays := B, stg := S, qm := Q, rsu := R, scr := { u.scr with parked := P }, scf := X }

theorem DropRest.refl (u : State) : DropRest u u := ⟨_, _, _, _, _, _, rfl⟩

theorem DropRest.trans {u v w : State} (h : DropRest u v) (g : DropRest v w) : DropRest u w := by
  obtain ⟨_, _, _, _, _, _, rfl⟩ := h
  obtain ⟨_, _, _, _, _, _, rfl⟩ := g
  exact ⟨_, _, _, _, _, _, rfl⟩

def Quiet (u : State) (b : Nat) : Prop :=
  u.tasksOn b = [] ∧ (u.bay b).qio.sendq = [] ∧ (u.bay b).qio.landing = [] ∧ (u.bay b).qio.cur = none

theorem messages_eq (u : State) (b : Nat) (h1 : (u.bay b).qio.sendq = []) (h2 : (u.bay b).qio.landing = []) (h3 : (u.bay b).qio.cur = none) :
    ∃ Q, u.bayMessages b = { (u.setBay b { u.bay b with qio := { (u.bay b).qio with sendq := [], landing := [], cur := none } }) with qm := Q } := by
  unfold State.bayMessages
  dsimp only
  rw [h1, h2, h3]
  exact ⟨_, rfl⟩

theorem messages_quiet (u : State) (b : Nat) (h1 : (u.bay b).qio.sendq = []) (h2 : (u.bay b).qio.landing = []) (h3 : (u.bay b).qio.cur = none) :
    DropRest u (u.bayMessages b) ∧ (∀ k, k ≠ b → (u.bayMessages b).bay k = u.bay k) ∧ ((u.bayMessages b).bay b).scratch = (u.bay b).scratch ∧
    ((u.bayMessages b).bay b).istore = (u.bay b).istore := by
  obtain ⟨Q, e⟩ := messages_eq u b h1 h2 h3
  obtain ⟨y, hy⟩ : ∃ y : Bay, y = { u.bay b with qio := { (u.bay b).qio with sendq := [], landing := [], cur := none } } := ⟨_, rfl⟩
  rw [← hy] at e
  have eb (k : Nat) : State.bay { u.setBay b y with qm := Q } k = (u.setBay b y).bay k := rfl
  rw [e]
  refine ⟨⟨_, _, _, _, _, _, rfl⟩, fun k hk => ?_, ?_, ?_⟩
  · rw [eb, State.bay_setBay_ne _ _ hk]
  · rw [eb, State.bay_setBay, hy]
  · rw [eb, State.bay_setBay, hy]

/-- A bay after reset. -/
def BayCleared (x y : Bay) : Prop :=
  y.state = 0 ∧ y.gp = [] ∧ y.pipe.flights = [] ∧ y.guards = [] ∧ y.scratch = x.scratch ∧ y.istore = x.istore

/-- A hold in progress is charged to the ledger, and to nothing else. -/
theorem charge_led (x : Bay) : ∃ l p, x.chargeHold = { x with led := l, pipe := p } := by
  exact ⟨_, _, rfl⟩

theorem reset_cleared (x : Bay) (hx : x.id ≠ 256) : BayCleared x (x.reset 0) := by
  obtain ⟨l, p, e⟩ := charge_led x
  unfold Bay.reset
  rw [e]
  unfold Bay.fresh
  dsimp only
  rw [if_neg hx]
  exact ⟨rfl, rfl, rfl, rfl, rfl, rfl⟩

theorem resetD_cleared (x : Bay) (b : Nat) (hb : b ≠ 256) : BayCleared x (({ x with id := b } : Bay).reset 0) :=
  reset_cleared { x with id := b } hb

theorem dropBay_any (u : State) (b : Nat) (hb : b ≠ 256) : ((u.dropBay b).bay b).state = 0 ∧ ((u.dropBay b).bay b).gp = [] ∧
    ((u.dropBay b).bay b).pipe.flights = [] ∧ ((u.dropBay b).bay b).guards = [] := by
  unfold State.dropBay
  dsimp only
  rw [State.bay_onBay]
  generalize State.bay _ b = x
  obtain ⟨a1, a2, a3, a4, _⟩ := resetD_cleared x b hb
  exact ⟨a1, a2, a3, a4⟩

theorem dropBay_quiet (u : State) (b : Nat) (hb : b ≠ 256) (h : Quiet u b) : DropRest u (u.dropBay b) ∧ (∀ k, k ≠ b → (u.dropBay b).bay k = u.bay k) ∧
    BayCleared (u.bay b) ((u.dropBay b).bay b) := by
  obtain ⟨h0, h1, h2, h3⟩ := h
  obtain ⟨wr, wb, wc⟩ := messages_quiet u b h1 h2 h3
  have wt : (u.bayMessages b).tasksOn b = [] := by
    obtain ⟨_, _, _, _, _, _, e⟩ := wr
    rw [e]
    exact h0
  unfold State.dropBay
  dsimp only
  generalize u.bayMessages b = w at wr wb wc wt ⊢
  have r : w.replaceAll b = w := by
    unfold State.replaceAll
    rw [wt]
    rfl
  rw [r]
  refine ⟨wr.trans ⟨_, _, _, _, _, _, rfl⟩, fun k hk => ?_, ?_⟩
  · rw [State.bay_onBay_ne _ _ hk]
    exact wb k hk
  · rw [State.bay_onBay]
    obtain ⟨a1, a2, a3, a4, a5, a6⟩ := reset_cleared { w.bay b with id := b } hb
    exact ⟨a1, a2, a3, a4, a5.trans wc.1, a6.trans wc.2⟩

theorem disturb_rest (u : State) (b : Nat) : ∃ R, u.disturb b = { u with rsu := R } := by
  unfold State.disturb
  split
  · exact ⟨_, rfl⟩
  · exact ⟨_, rfl⟩

theorem DropRest.tasks {u v : State} (h : DropRest u v) (b : Nat) : v.tasksOn b = u.tasksOn b := by
  obtain ⟨_, _, _, _, _, _, rfl⟩ := h
  rfl

/-- The bays of a list are put in reset one after another. -/
theorem drop_all : ∀ (l : List Nat) (u : State), l.Nodup → (∀ b ∈ l, b ≠ 256 ∧ Quiet u b) →
    DropRest u (l.foldl (fun t b => (t.disturb b).dropBay b) u) ∧ (∀ k, k ∉ l → (l.foldl (fun t b => (t.disturb b).dropBay b) u).bay k = u.bay k) ∧
    ∀ b ∈ l, BayCleared (u.bay b) ((l.foldl (fun t b => (t.disturb b).dropBay b) u).bay b)
  | [], u, _, _ => ⟨DropRest.refl _, fun _ _ => rfl, fun b hb => absurd hb (by simp)⟩
  | b :: l, u, hn, h => by
    obtain ⟨n1, n2⟩ := List.nodup_cons.1 hn
    obtain ⟨hb, hq⟩ := h b (List.mem_cons_self ..)
    obtain ⟨R, er⟩ := disturb_rest u b
    have q' : Quiet (u.disturb b) b := by rw [er]; exact hq
    obtain ⟨d1, d2, d3⟩ := dropBay_quiet (u.disturb b) b hb q'
    have bk (k : Nat) : (u.disturb b).bay k = u.bay k := by rw [er]; rfl
    have dr : DropRest u ((u.disturb b).dropBay b) := DropRest.trans (by rw [er]; exact ⟨_, _, _, _, _, _, rfl⟩) d1
    rw [List.foldl_cons]
    obtain ⟨e1, e2, e3⟩ := drop_all l ((u.disturb b).dropBay b) n2 fun k hk => by
      obtain ⟨k1, k2, k3, k4, k5⟩ := h k (List.mem_cons_of_mem _ hk)
      have kb : k ≠ b := fun c => n1 (c ▸ hk)
      refine ⟨k1, (dr.tasks k).trans k2, ?_⟩
      rw [d2 k kb, bk]
      exact ⟨k3, k4, k5⟩
    refine ⟨dr.trans e1, fun k hk => ?_, fun k hk => ?_⟩
    · rw [List.mem_cons, not_or] at hk
      rw [e2 k hk.2, d2 k hk.1, bk]
    · by_cases c : k = b
      · subst c
        rw [e2 k n1]
        rw [bk] at d3
        exact d3
      · rcases List.mem_cons.1 hk with hk | hk
        · exact absurd hk c
        · have := e3 k hk
          rw [d2 k c, bk] at this
          exact this

theorem pulse_bay (u : State) (v : Word) (b : Nat) (hb : b = fld v 0 8) (h1 : u.rst.pulse = none) (h2 : u.bentHere (b / 16) = true) (h3 : u.on (b / 16) = true) :
    u.rstBay (v ||| 0x80000000#32) = { ((u.disturb b).dropBay b) with
      rst := { ((u.disturb b).dropBay b).rst with pulse := some { block := false, target := b } } } := by
  unfold State.rstBay
  dsimp only
  rw [show fld (v ||| 0x80000000#32) 0 8 = b from by rw [hb]; exact low_or31 v 8 (by decide)]
  rw [show bitAt (v ||| 0x80000000#32) 31 = true from by
    show (v ||| 0x80000000#32).getLsbD 31 = true
    rw [BitVec.getLsbD_or, show (0x80000000#32).getLsbD 31 = true from rfl, Bool.or_true]]
  rw [h1, h2, h3]
  rfl

theorem chan_pulse (u : State) (c : Nat) : ((u.chanBlock c).chan c).state = 5 ∧ ((u.chan c).wq = [] → ((u.chanBlock c).chan c).release =
    some (if (u.chan c).state = 2 ∨ (u.chan c).state = 4 then 4 else 0)) := by
  obtain ⟨y, hy⟩ : ∃ y : State, y = (if (u.chan c).state = 2 then u.drainQueue c else u) := ⟨_, rfl⟩
  have ys : (u.chan c).wq = [] → (y.chan c).state = (u.chan c).state := by
    intro hw
    rw [hy]
    split
    · unfold State.drainQueue
      dsimp only
      rw [hw]
      show ((u.setChan c _).chan c).state = _
      rw [State.chan_setChan]
    · rfl
  unfold State.chanBlock
  dsimp only
  rw [← hy]
  split
  · rename_i h
    rw [State.chan_setChan]
    refine ⟨rfl, fun hw => ?_⟩
    rw [← ys hw, if_pos (by simpa using h)]
  · rename_i h
    rw [State.chan_setChan]
    refine ⟨rfl, fun hw => ?_⟩
    rw [← ys hw, if_neg (by simpa using h)]

theorem port_pulse (u : State) (p : Nat) : ((u.portBlock p).port p).state = 0 ∧ ((u.portBlock p).port p).dcause = 8 := by
  unfold State.portBlock
  dsimp only
  rw [State.port_setPort]
  exact ⟨rfl, rfl⟩

theorem mac_same (u : State) (m : Nat) (x : Mac) : (u.setMac m x).mac m = x := tgetD_tsetD_same _ _ _ _

theorem event_mac (u : State) (a i m : Nat) : (u.event a i).mac m = u.mac m := by
  show tgetD _ (u.event a i).macs m = _
  rw [State.event_macs]
  rfl

theorem mac_pulse (u : State) (m : Nat) : ((u.macBlock m).mac m).state = 0 ∧ ((u.mac m).tx = none → ((u.macBlock m).mac m).tx = none) := by
  unfold State.macBlock
  dsimp only
  obtain ⟨w, hw⟩ : ∃ w : State, w = { u with regs := { u.regs with words := tclear u.regs.words (ethBase m) 0x2000, sqs := tclear u.regs.sqs (ethBase m) 0x2000, cnts := tclear u.regs.cnts (ethBase m) 0x2000 } } := ⟨_, rfl⟩
  have wm : w.mac m = u.mac m := by rw [hw]; rfl
  rw [← hw, ← wm]
  unfold State.ethLeave
  split
  · dsimp only
    rw [event_mac, mac_same]
    refine ⟨rfl, fun h => ?_⟩
    unfold State.txCut
    rw [h]
    exact h
  · rw [mac_same]
    exact ⟨rfl, fun h => h⟩

theorem pulse_block (u : State) (v : Word) (k : Nat) (hk : k = fld v 0 5) (h1 : u.rst.pulse = none) (h2 : u.blockThere k = true) :
    (∃ t, u.rstBlock (v ||| 0x80000000#32) = t ∧ t.rst.pulse = some { block := true, target := k } ∧
          (k < 8 → (t.chan k).state = 5 ∧ ((u.chan k).wq = [] →
            (t.chan k).release = some (if (u.chan k).state = 2 ∨ (u.chan k).state = 4 then 4 else 0))) ∧
          (8 ≤ k → k < 16 → (t.port (k - 8)).state = 0 ∧ (t.port (k - 8)).dcause = 8) ∧
          (16 ≤ k → (t.mac (k - 16)).state = 0 ∧ ((u.mac (k - 16)).tx = none → (t.mac (k - 16)).tx = none))) := by
  unfold State.rstBlock
  dsimp only
  rw [show fld (v ||| 0x80000000#32) 0 5 = k from by rw [hk]; exact low_or31 v 5 (by decide)]
  rw [show bitAt (v ||| 0x80000000#32) 31 = true from by
    show (v ||| 0x80000000#32).getLsbD 31 = true
    rw [BitVec.getLsbD_or, show (0x80000000#32).getLsbD 31 = true from rfl, Bool.or_true]]
  rw [h1, h2]
  rw [if_neg (by decide)]
  refine ⟨_, rfl, rfl, fun c => ?_, fun c1 c2 => ?_, fun c => ?_⟩
  · rw [if_pos c]
    exact chan_pulse u k
  · rw [if_neg (by omega), if_pos c2]
    exact port_pulse u (k - 8)
  · rw [if_neg (by omega), if_neg (by omega)]
    exact mac_pulse u (k - 16)

theorem pulse_skip_bay (u : State) (v : Word) (b : Nat) (hb : b = fld v 0 8) (h : u.rst.pulse.isSome = true ∨ u.bentHere (b / 16) = false ∨ u.on (b / 16) = false) :
    u.rstBay (v ||| 0x80000000#32) = u := by
  unfold State.rstBay
  dsimp only
  rw [show fld (v ||| 0x80000000#32) 0 8 = b from by rw [hb]; exact low_or31 v 8 (by decide)]
  rw [if_pos]
  rcases h with h | h | h <;> rw [h] <;> simp

theorem pulse_skip_block (u : State) (v : Word) (k : Nat) (hk : k = fld v 0 5) (h : u.rst.pulse.isSome = true ∨ u.blockThere k = false) :
    u.rstBlock (v ||| 0x80000000#32) = u := by
  unfold State.rstBlock
  dsimp only
  rw [show fld (v ||| 0x80000000#32) 0 5 = k from by rw [hk]; exact low_or31 v 5 (by decide)]
  rw [if_pos]
  rcases h with h | h <;> rw [h] <;> simp

/-- Where a bay is released, it is in PLAN. -/
theorem release_bay (u : State) (b : Nat) : u.bayRelease b =
    if (!u.rst.fatal && u.on (b / 16) && !u.bentHeld (b / 16)) = true ∧ (u.bay b).retired = false then u.setBay b { u.bay b with id := b, state := 1 } else u := by
  unfold State.bayRelease
  by_cases c : (!u.rst.fatal && u.on (b / 16) && !u.bentHeld (b / 16)) = true ∧ (u.bay b).retired = false
  · rw [if_pos c, if_pos (by rw [c.1, c.2]; rfl)]
    rfl
  · rw [if_neg c, if_neg]
    intro d
    rw [Bool.and_eq_true, Bool.not_eq_true'] at d
    exact c d

theorem mask_other : ∀ n < 16, ∀ m < 16, m ≠ n → (mask32 n 1).getLsbD m = false := by decide

theorem mask_same : ∀ n < 16, (mask32 n 1).getLsbD n = true := by decide

theorem putBit_eq (w : Word) (i : Nat) (b : Bool) : putBit w i b = (w &&& ~~~ mask32 i 1) ||| (if b then mask32 i 1 else 0#32) := by
  cases b <;> simp [putBit, putFld, nbit, mask32, wd]

theorem bit_other (w : Word) {n m : Nat} (b : Bool) (hn : n < 16) (hm : m < 16) (h : m ≠ n) : bitAt (putBit w n b) m = bitAt w m := by
  rw [putBit_eq]
  have k := mask_other n hn m hm h
  unfold bitAt
  cases b <;> simp [k] <;> omega

/-- The bents of a write to RST_BENT, one after another, when only bent n's bit changes. -/
theorem hold_none : ∀ (l : List Nat) (u : State) (v : Word), (∀ m ∈ l, bitAt v m = bitAt (u.reg 0x10014) m) → l.foldl (fun t n => t.holdBit v n) u = u
  | [], _, _, _ => rfl
  | m :: l, u, v, h => by
    rw [List.foldl_cons, show u.holdBit v m = u from by
      unfold State.holdBit
      rw [if_pos]
      rw [h m (List.mem_cons_self ..)]
      simp]
    exact hold_none l u v fun k hk => h k (List.mem_cons_of_mem _ hk)

theorem hold_one : ∀ (l : List Nat) (u : State) (v : Word) (n : Nat), n ∈ l → l.Nodup → n < 16 → (∀ m ∈ l, m < 16) →
    (∀ m, m < 16 → m ≠ n → bitAt v m = bitAt (u.reg 0x10014) m) → (∀ m, m < 16 → m ≠ n → bitAt v m = bitAt ((u.holdBit v n).reg 0x10014) m) →
    l.foldl (fun t n => t.holdBit v n) u = u.holdBit v n
  | [], _, _, _, h, _, _, _, _, _ => absurd h (by simp)
  | m :: l, u, v, n, hin, hn, hl, hb, h, g => by
    obtain ⟨n1, n2⟩ := List.nodup_cons.1 hn
    rw [List.foldl_cons]
    by_cases c : m = n
    · subst c
      exact hold_none l _ v fun k hk => g k (hb k (List.mem_cons_of_mem _ hk)) (fun e => n1 (e ▸ hk))
    · rw [show u.holdBit v m = u from by
        unfold State.holdBit
        rw [if_pos]
        rw [h m (hb m (List.mem_cons_self ..)) c]
        simp]
      exact hold_one l u v n ((List.mem_cons.1 hin).resolve_left (fun e => c e.symm)) n2 hl (fun k hk => hb k (List.mem_cons_of_mem _ hk)) h g

theorem bents_nodup (n : Nat) : (bentBays n).Nodup := by
  unfold bentBays
  rw [List.nodup_map_iff_inj_on (List.nodup_range)]
  intro a _ b _ h
  omega

theorem mem_bents (n b : Nat) : b ∈ bentBays n ↔ b / 16 = n := by
  unfold bentBays
  rw [List.mem_map]
  refine ⟨fun ⟨k, hk, e⟩ => ?_, fun h => ⟨b % 16, ?_, by omega⟩⟩
  · rw [List.mem_range] at hk
    omega
  · rw [List.mem_range]
    omega

/-- A HOLD bit that is set: a retained bent is woken, and the bent goes into reset. -/
theorem hold_set (u : State) (v : Word) (n : Nat) (h1 : u.bentHere n = true) (h2 : u.dom n = 1 ∨ u.dom n = 2) (h3 : bitAt v n = true) (h4 : bitAt (u.reg 0x10014) n = false) :
    ∃ w, (∃ R W, w = { u with rst := R, regs := { u.regs with words := W } }) ∧ u.holdBit v n = w.bentReset n false ∧
      w.reg 0x10014 = putBit (u.reg 0x10014) n true ∧ w.dom n = 1 ∧ (u.dom n = 2 → w.reg 0x10044 = putBit (u.reg 0x10044) n false) ∧
      (∀ a, a ≠ 0x10014 → a ≠ 0x10044 ∨ u.dom n = 1 → w.reg a = u.reg a) := by
  obtain ⟨x, hx⟩ : ∃ x : State, x = (u.setReg 0x10014 (putBit (u.reg 0x10014) n true)).bentWake n := ⟨_, rfl⟩
  have e : u.holdBit v n = ({ x with rst := { x.rst with bentExit := x.rst.bentExit.filter fun k => decide (k ≠ n) } } : State).bentReset n false := by
    unfold State.holdBit
    rw [h1, h3, h4, if_neg (by rcases h2 with h2 | h2 <;> rw [h2] <;> decide), hx]
    dsimp only
    rw [if_pos rfl]
  refine ⟨_, ?_, e, ?_⟩
  · rw [hx]
    unfold State.bentWake
    split
    · exact ⟨_, _, rfl⟩
    · exact ⟨_, _, rfl⟩
  · rcases h2 with h2 | h2
    · have ex : x = u.setReg 0x10014 (putBit (u.reg 0x10014) n true) := by
        rw [hx]
        unfold State.bentWake
        refine if_neg ?_
        show ¬ u.dom n = 2
        rw [h2]; decide
      rw [ex]
      exact ⟨State.reg_setReg _ _ _, h2, fun d => by rw [h2] at d; exact absurd d (by decide), fun a ha _ => State.reg_setReg_ne _ _ ha⟩
    · have ex : x = ((u.setReg 0x10014 (putBit (u.reg 0x10014) n true)).setReg 0x10044 (putBit (u.reg 0x10044) n false)).setDom n 1 := by
        rw [hx]
        unfold State.bentWake
        refine (if_pos (show u.dom n = 2 from h2)).trans ?_
        rw [State.reg_setReg_ne _ _ (by decide)]
      rw [ex]
      refine ⟨(State.reg_setReg_ne _ _ (by decide)).trans (State.reg_setReg _ _ _), by show tgetD 0 (tsetD 0 _ n 1) n = 1; rw [tgetD_tsetD_same], fun _ => State.reg_setReg _ _ _, fun a ha hb => ?_⟩
      have hb := hb.resolve_right (by rw [h2]; decide)
      exact (State.reg_setReg_ne _ _ hb).trans (State.reg_setReg_ne _ _ ha)

theorem hold_clear (u : State) (v : Word) (n : Nat) (h1 : u.bentHere n = true) (h2 : u.dom n = 1 ∨ u.dom n = 2) (h3 : bitAt v n = false) (h4 : bitAt (u.reg 0x10014) n = true) :
    u.holdBit v n = { u.setReg 0x10014 (putBit (u.reg 0x10014) n false) with
      rst := { u.rst with bentExit := u.rst.bentExit ++ [n] } } := by
  unfold State.holdBit
  rw [h1, h3, h4, if_neg (by rcases h2 with h2 | h2 <;> rw [h2] <;> decide)]
  dsimp only
  rw [if_neg (by decide)]
  rfl

/-- The bit of an absent or gated bent, or one that keeps its value, is ignored. -/
theorem hold_skip (u : State) (v : Word) (h : ∀ n, n < 16 → u.bentHere n = false ∨ u.dom n = 0 ∨ u.dom n = 3 ∨ bitAt v n = bitAt (u.reg 0x10014) n) :
    u.rstBent v = u := by
  have one (n : Nat) (hn : n < 16) : u.holdBit v n = u := by
    unfold State.holdBit
    refine if_pos ?_
    rcases h n hn with c | c | c | c <;> rw [c] <;> simp
  have all : ∀ l : List Nat, (∀ n ∈ l, n < 16) → l.foldl (fun t n => t.holdBit v n) u = u := by
    intro l
    induction l with
    | nil => exact fun _ => rfl
    | cons n l ih =>
      intro hl
      rw [List.foldl_cons, one n (hl n (List.mem_cons_self ..))]
      exact ih fun k hk => hl k (List.mem_cons_of_mem _ hk)
  exact all _ fun n hn => List.mem_range.1 hn

theorem rst_bent (u : State) (v : Word) (n : Nat) (hn : n < 16) (h : ∀ m, m < 16 → m ≠ n → bitAt v m = bitAt (u.reg 0x10014) m)
    (g : ∀ m, m < 16 → m ≠ n → bitAt v m = bitAt ((u.holdBit v n).reg 0x10014) m) : u.rstBent v = u.holdBit v n :=
  hold_one _ u v n (List.mem_range.2 hn) List.nodup_range hn (fun m hm => List.mem_range.1 hm) h g

theorem release_on (n : Nat) (ok : Bool) : ∀ (l : List Nat) (u : State), l.Nodup → (∀ b ∈ l, b / 16 = n) →
    (!u.rst.fatal && u.on n && !u.bentHeld n) = ok →
    (∃ B, l.foldl State.bayRelease u = { u with bays := B }) ∧
    ∀ b, (l.foldl State.bayRelease u).bay b = if b ∈ l ∧ ok = true ∧ (u.bay b).retired = false then { u.bay b with id := b, state := 1 } else u.bay b
  | [], u, _, _, _ => ⟨⟨_, rfl⟩, fun b => by rw [if_neg (by simp)]; rfl⟩
  | k :: l, u, hn, hl, hu => by
    obtain ⟨n1, n2⟩ := List.nodup_cons.1 hn
    have kn := hl k (List.mem_cons_self ..)
    have one : (∃ B, u.bayRelease k = { u with bays := B }) ∧
        ∀ b, (u.bayRelease k).bay b = if b = k ∧ ok = true ∧ (u.bay b).retired = false then { u.bay b with id := b, state := 1 } else u.bay b := by
      rw [release_bay u k, kn, hu]
      by_cases c : ok = true ∧ (u.bay k).retired = false
      · rw [if_pos c]
        refine ⟨⟨_, rfl⟩, fun b => ?_⟩
        by_cases d : b = k
        · subst d
          rw [State.bay_setBay, if_pos ⟨rfl, c⟩]
        · rw [State.bay_setBay_ne _ _ d, if_neg (fun x => d x.1)]
      · rw [if_neg c]
        refine ⟨⟨_, rfl⟩, fun b => ?_⟩
        rw [if_neg]
        rintro ⟨rfl, d⟩
        exact c d
    obtain ⟨⟨B, e⟩, f⟩ := one
    rw [List.foldl_cons]
    obtain ⟨⟨B', e'⟩, f'⟩ := release_on n ok l (u.bayRelease k) n2 (fun b hb => hl b (List.mem_cons_of_mem _ hb)) (by rw [e]; exact hu)
    refine ⟨⟨B', by rw [e', e]⟩, fun b => ?_⟩
    rw [f', f]
    by_cases d : b = k
    · subst d
      rw [if_neg (fun x => n1 x.1)]
      simp
    · rw [if_neg (show ¬ (b = k ∧ _) from fun x => d x.1)]
      simp [d]

end Sys2Proof.Laws.Pulses
end

