-- ==== Sys2Proof/Laws/Resets.lean ====
section
/-!
SUPPORT. What the reset sources, pulses and bent resets do to a state.
-/
namespace Sys2Proof.Laws.Resets
open Sys2Proof Sys2Proof.Machine

theorem row_of {a : Nat} (h : ((regRow a).any fun r => decide (r.kind ≠ .sq)) = true) : ∃ r, regRow a = some r ∧ r.kind ≠ .sq := by
  rw [Option.any_eq_true] at h
  obtain ⟨r, h1, h2⟩ := h
  exact ⟨r, h1, of_decide_eq_true h2⟩

theorem fresh_facts (k : Nat) : (Bay.fresh k).pipe.flights = [] ∧ (k ≠ 256 → (Bay.fresh k).state = 0 ∧ (Bay.fresh k).gp = []) := by
  unfold Bay.fresh
  split
  · rename_i h
    exact ⟨rfl, fun c => absurd h c⟩
  · exact ⟨rfl, fun _ => ⟨rfl, rfl⟩⟩

theorem tget_mem {α : Type} (d : Nat → α) (k : Nat) : ∀ l : Tab α, tget d l k = d k ∨ ∃ e ∈ l, e.1 = k ∧ tget d l k = e.2
  | [] => Or.inl rfl
  | (j, v) :: l => by
    unfold tget
    split
    · rename_i h
      exact Or.inr ⟨(j, v), List.mem_cons_self .., h, rfl⟩
    · rcases tget_mem d k l with h | ⟨e, h1, h2, h3⟩
      · exact Or.inl h
      · exact Or.inr ⟨e, List.mem_cons_of_mem _ h1, h2, h3⟩

theorem bay_tmap (f : Nat → Bay → Bay) (P : Nat → Bay → Prop) (hd : ∀ k, P k (Bay.fresh k)) (hf : ∀ k b, P k (f k b)) (k : Nat) (l : Tab Bay) :
    P k (tget Bay.fresh (tmap Bay.fresh f l) k) := by
  rcases tget_mem Bay.fresh k (tmap Bay.fresh f l) with h | ⟨e, h1, h2, h3⟩
  · rw [h]; exact hd k
  · rw [h3]
    unfold tmap at h1
    have := List.mem_map.1 (List.mem_of_mem_filter h1)
    obtain ⟨x, _, rfl⟩ := this
    rw [← h2]
    exact hf _ _

theorem tclear_get {α : Type} (d : Nat → α) (l : Tab α) (lo n k : Nat) : tget d (tclear l lo n) k = if lo ≤ k ∧ k < lo + n then d k else tget d l k := by
  unfold tclear
  split
  · rename_i h
    rcases tget_mem d k (l.filter fun e => decide (e.1 < lo) || decide (lo + n ≤ e.1)) with g | ⟨e, h1, h2, h3⟩
    · exact g
    · have := (List.mem_filter.1 h1).2
      rw [Bool.or_eq_true, decide_eq_true_eq, decide_eq_true_eq] at this
      omega
  · rename_i h
    exact tget_filter d (fun j => decide (j < lo) || decide (lo + n ≤ j)) k (by rw [Bool.or_eq_true, decide_eq_true_eq, decide_eq_true_eq]; omega) l

theorem low_get {α : Type} (d : Nat → α) (l : Tab α) (m k : Nat) : tget d (l.filter fun e => decide (e.1 < m)) k = if k < m then tget d l k else d k := by
  split
  · rename_i h
    exact tget_filter d (fun j => decide (j < m)) k (decide_eq_true h) l
  · rename_i h
    rcases tget_mem d k (l.filter fun e => decide (e.1 < m)) with g | ⟨e, h1, h2, h3⟩
    · exact g
    · have := (List.mem_filter.1 h1).2
      rw [decide_eq_true_eq] at this
      omega

theorem warm_words (r : RegFile) (a : Nat) :
    (0x20000 ≤ a → tget regReset r.warm.words a = regReset a) ∧
    (a < 0x20000 → a < 0x10040 ∨ 0x10048 ≤ a → a < 0x10014 ∨ 0x10018 ≤ a → a ≠ 0x10030 → tget regReset r.warm.words a = tget regReset r.words a) := by
  unfold RegFile.warm
  dsimp only
  refine ⟨fun h => ?_, fun h1 h2 h3 h4 => ?_⟩
  · rw [tget_tset_ne _ _ _ (by omega), tclear_get, if_neg (by omega), tclear_get, if_neg (by omega), low_get, if_neg (by omega)]
  · rw [tget_tset_ne _ _ _ h4, tclear_get, if_neg (by omega), tclear_get, if_neg (by omega), low_get, if_pos h1]

theorem assert_wide (u : State) (src r : Nat) (hr : reachOf src = r) (h4 : 4 ≤ max u.rst.reach r) : u.joins src r (u.assertReset src) := by
  have m : (if u.rst.reach < r then r else u.rst.reach) = max u.rst.reach r := by
    split
    · rw [Nat.max_eq_right (by omega)]
    · rw [Nat.max_eq_left (by omega)]
  have e : u.assertReset src = ({ u with rst := { u.rst with
    asserted := u.rst.asserted ||| 2 ^ src, src := u.rst.src ||| 2 ^ src, reach := max u.rst.reach r } }.wideReset (max u.rst.reach r)).onBay 256 fun b => { b with state := 0 } := by
    unfold State.assertReset
    dsimp only
    rw [hr, m, if_pos h4, if_neg (show ¬ (u.rst.reach < 3 ∧ r = 3) by omega)]
  rw [e]
  generalize hv : ({ u with rst := { u.rst with asserted := u.rst.asserted ||| 2 ^ src, src := u.rst.src ||| 2 ^ src, reach := max u.rst.reach r } } : State) = v
  have vr : v.rst = { u.rst with asserted := u.rst.asserted ||| 2 ^ src, src := u.rst.src ||| 2 ^ src, reach := max u.rst.reach r } := by rw [← hv]
  have w7 (x : Rst) (q : Nat) : (x.warm q).reach = x.reach ∧ (x.warm q).asserted = x.asserted ∧ (x.warm q).src = x.src ∧ (x.warm q).dom = [] ∧ (x.warm q).wdg = false ∧
      (x.warm q).window = false ∧ (x.warm q).pulse = none ∧ (q ≠ 7 → (x.warm q).count = x.count ∧ (x.warm q).shoring = x.shoring) ∧
      (q = 7 → (x.warm q).count = 0 ∧ (x.warm q).shoring = false) ∧ (x.warm q).fatal = (x.fatal && decide (q = 4)) := by
    unfold Rst.warm
    split
    · rename_i h
      refine ⟨rfl, rfl, rfl, rfl, rfl, rfl, rfl, fun c => absurd h c, fun _ => ⟨rfl, rfl⟩, ?_⟩
      rw [h, decide_eq_false (by decide), Bool.and_false]
    · rename_i h
      exact ⟨rfl, rfl, rfl, rfl, rfl, rfl, rfl, fun _ => ⟨rfl, rfl⟩, fun c => absurd c h, rfl⟩
  obtain ⟨w1, w2, w3, w4, w5, w6, w8, w9, w10, w11⟩ := w7 v.rst (max u.rst.reach r)
  rw [vr] at w1 w2 w3 w9 w10
  have rs : ((v.wideReset (max u.rst.reach r)).onBay 256 fun b => { b with state := 0 }).rst = v.rst.warm (max u.rst.reach r) := rfl
  unfold State.joins State.cleared
  rw [rs, vr]
  refine ⟨w1, w2, w3, ⟨?_, ?_, ?_, ?_, ?_⟩, ⟨rfl, rfl, ?_, rfl, rfl, rfl, rfl, rfl, rfl⟩, fun k => ?_, fun a ha => ?_, fun hq a a1 a2 a3 a4 => ?_, ⟨?_, ?_, ?_, ?_, ?_⟩, w9, w10⟩
  · rw [← hv]; rfl
  · rw [← hv]; rfl
  · show (if max u.rst.reach r = 7 then { v.sec.warm with tlog := 0 } else v.sec.warm).otp = _
    have : v.sec.warm.otp = u.sec.otp := by
      rw [← hv]
      unfold Sec.warm
      dsimp only
      split <;> rfl
    split
    · exact this
    · exact this
  · rw [← hv]; rfl
  · rw [← hv]; rfl
  · rw [← hv]; rfl
  · by_cases c : k = 256
    · subst c
      rw [State.bay_onBay]
      have := bay_tmap (fun k b => { Bay.fresh k with free := b.free, state := 0 }) (fun _ b => b.pipe.flights = []) (fun k => (fresh_facts k).1) (fun k b => (fresh_facts k).1) 256 v.bays
      exact ⟨rfl, this, fun c => absurd rfl c⟩
    · rw [State.bay_onBay_ne _ _ c]
      have := bay_tmap (fun k b => { Bay.fresh k with free := b.free, state := 0 }) (fun k b => b.pipe.flights = [] ∧ (k ≠ 256 → b.state = 0 ∧ b.gp = []))
        (fun k => fresh_facts k) (fun k b => ⟨(fresh_facts k).1, fun c => ⟨rfl, ((fresh_facts k).2 c).2⟩⟩) k v.bays
      exact ⟨(this.2 c).1, this.1, fun c => (this.2 c).2⟩
  · show tget regReset (if max u.rst.reach r = 7 then ({} : RegFile) else v.regs.warm).words a = regReset a
    split
    · rfl
    · rename_i h
      exact (warm_words v.regs a).1 (by omega)
  · show tget regReset (if max u.rst.reach r = 7 then ({} : RegFile) else v.regs.warm).words a = _
    rw [if_neg hq, (warm_words v.regs a).2 a1 a2 a3 a4, ← hv]
    rfl
  all_goals rw [← vr]
  · exact w11.trans (by rw [vr])
  · exact w4
  · exact w5
  · exact w6
  · exact w8

theorem fld_or (v w : Word) (i n : Nat) (h : w.toNat < 2 ^ i) : fld (v ||| w) i n = fld v i n := by
  unfold fld
  refine congrArg (· % 2 ^ n) ?_
  rw [BitVec.toNat_or]
  refine Nat.eq_of_testBit_eq fun j => ?_
  rw [Nat.testBit_div_two_pow, Nat.testBit_div_two_pow, Nat.testBit_or]
  rw [Nat.testBit_lt_two_pow (x := w.toNat) (Nat.lt_of_lt_of_le h (Nat.pow_le_pow_right (by decide) (by omega))), Bool.or_false]

theorem sw_go (u : State) (ag : Agent) (v : Word) (h : u.reachable 0x10010 = true) : u.regWrite ag 0x10010 v = u.rstSw ag v := by
  have hrow : ((regRow 0x10010).any fun r => decide (r.kind ≠ .sq)) = true := by decide
  obtain ⟨r, hr, hk⟩ := row_of hrow
  rw [u.regWrite_rst ag v h hr hk (by omega) (by omega)]
  rfl

theorem host_eq (u : State) (src : Nat) (hr : reachOf src = 3) (h0 : u.rst.reach < 3) :
    (u.assertReset src).rst = { u.rst with asserted := u.rst.asserted ||| 2 ^ src, src := u.rst.src ||| 2 ^ src, reach := 3 } ∧
      (u.assertReset src).hb = { outs := u.hb.outs } ∧ (∀ a, 0x84000 ≤ a → a < 0x84200 → (u.assertReset src).reg a = regReset a) ∧
      (∀ a, a < 0x84000 ∨ 0x84200 ≤ a → (u.assertReset src).reg a = u.reg a) ∧ (u.assertReset src).bays = u.bays ∧ (u.assertReset src).ddr = u.ddr ∧
      (u.assertReset src).stg = u.stg ∧ (u.assertReset src).scf = u.scf ∧ (u.assertReset src).macs = u.macs ∧ (u.assertReset src).sec = u.sec ∧
      (u.assertReset src).mx = u.mx ∧ (u.assertReset src).rsu = u.rsu ∧ (u.assertReset src).out = u.out ∧
      (u.assertReset src).scr = { u.scr with outer := u.scr.outer.filter fun o => decide (o.master ≠ 0) } := by
  have e : u.assertReset src = ({ u with rst := { u.rst with asserted := u.rst.asserted ||| 2 ^ src, src := u.rst.src ||| 2 ^ src, reach := 3 } } : State).hostReset := by
    unfold State.assertReset
    dsimp only
    rw [hr, if_pos h0, if_pos (show u.rst.reach < 3 ∧ 3 = 3 from ⟨h0, rfl⟩), if_neg (show ¬ 4 ≤ 3 by decide)]
  rw [e]
  refine ⟨rfl, rfl, fun a a1 a2 => ?_, fun a ha => ?_, rfl, rfl, rfl, rfl, rfl, rfl, rfl, rfl, rfl, rfl⟩
  · show tget regReset (tclear u.regs.words 0x84000 0x200) a = _
    rw [tclear_get, if_pos (by omega)]
  · show tget regReset (tclear u.regs.words 0x84000 0x200) a = _
    rw [tclear_get, if_neg (by omega)]
    rfl

/-- A further source of HOST reach only joins the episode. -/
theorem host_joins (u : State) (src : Nat) (hr : reachOf src = 3) (h0 : u.rst.reach = 3) :
    u.assertReset src = { u with rst := { u.rst with asserted := u.rst.asserted ||| 2 ^ src, src := u.rst.src ||| 2 ^ src } } := by
  unfold State.assertReset
  dsimp only
  rw [hr, if_neg (show ¬ (u.rst.reach < 3 ∧ 3 = 3) by omega), if_neg (show ¬ u.rst.reach < 3 by omega), if_neg (show ¬ 4 ≤ u.rst.reach by omega)]

theorem host_all (u : State) (src : Nat) (hr : reachOf src = 3) : u.hostJoins src (u.assertReset src) :=
  ⟨host_eq u src hr, host_joins u src hr, fun h => assert_wide u src 3 hr (Nat.le_trans h (Nat.le_max_left _ _))⟩

end Sys2Proof.Laws.Resets
end

