-- ==== Sys2Proof/Laws/Power.lean ====
section
/-!
SUPPORT. What writes to PWR_CTL, transitions, PLLs and the thermal monitor do to a state.
-/
namespace Sys2Proof.Laws.Power
open Sys2Proof Sys2Proof.Machine

open Sys2Proof.Laws.Pulses

theorem named_bit (m : Word) (n : Nat) (h : n < 16) : decide (fld m 0 16 / 2 ^ n % 2 = 1) = bitAt m n := by
  unfold fld bitAt
  rw [← Nat.testBit_eq_decide_div_mod_eq, Nat.testBit_mod_two_pow]
  simp [h, BitVec.getLsbD]

theorem only_one (p : Nat → Bool) (d : Nat) : ∀ l : List Nat, l.Nodup → d ∈ l → p d = true → (∀ k ∈ l, k ≠ d → p k = false) → l.filter p = [d]
  | [], _, h, _, _ => absurd h (by simp)
  | k :: l, hn, hin, hd, h => by
    obtain ⟨n1, n2⟩ := List.nodup_cons.1 hn
    by_cases c : k = d
    · subst c
      rw [List.filter_cons_of_pos hd, List.filter_eq_nil_iff.2]
      intro j hj e
      rw [h j (List.mem_cons_of_mem _ hj) (fun x => n1 (x ▸ hj))] at e
      cases e
    · rw [List.filter_cons_of_neg (by rw [h k (List.mem_cons_self ..) c]; decide)]
      exact only_one p d l n2 ((List.mem_cons.1 hin).resolve_left (fun e => c e.symm)) hd (fun j hj => h j (List.mem_cons_of_mem _ hj))

theorem sw_nodup : swDoms.Nodup := by decide

theorem named_none (u : State) (m : Word) (h : ∀ n, n < 16 → bitAt m n = true → u.bentHere n = true) :
    ((List.range 16).any fun n => decide (fld m 0 16 / 2 ^ n % 2 = 1) && !u.bentHere n) = false := by
  rw [List.any_eq_false]
  intro n hn
  rw [List.mem_range] at hn
  rw [named_bit m n hn]
  cases c : bitAt m n with
  | false => simp
  | true => simp [h n hn c]

theorem leave_ok (u : State) (d : Nat) (hd : d ∈ swDoms) (h1 : d < 16 → ∀ b, b / 16 = d → (u.bay b).state ≠ 3 ∧ u.tasksOn b = [])
    (h2 : d = 19 → ∀ p, p < 8 → (u.port p).state = 0 ∨ (u.port p).state = 3)
    (h3 : d = 17 ∨ d = 18 → ∀ c, c < 8 → chanDom c = d → u.hw.chanHere c = true → (u.chan c).state = 0 ∨ (u.chan c).state = 4) : u.mayLeave d = true := by
  unfold State.mayLeave
  split
  · rename_i h
    rw [List.all_eq_true]
    intro b hb
    obtain ⟨a1, a2⟩ := h1 h b ((mem_bents d b).1 hb)
    rw [a2]
    simp [a1]
  · split
    · rename_i h
      rw [List.all_eq_true]
      intro p hp
      have := h2 h p (List.mem_range.1 hp)
      rcases this with e | e <;> simp [e]
    · rename_i n1 n2
      have hd' : d = 17 ∨ d = 18 := by
        unfold swDoms at hd
        simp at hd
        omega
      rw [List.all_eq_true]
      intro c hc
      by_cases e : chanDom c = d ∧ u.hw.chanHere c = true
      · rcases h3 hd' c (List.mem_range.1 hc) e.1 e.2 with g | g <;> simp [g]
      · by_cases e1 : chanDom c = d
        · have : u.hw.chanHere c = false := by cases x : u.hw.chanHere c; rfl; exact absurd ⟨e1, x⟩ e
          simp [this]
        · simp [e1]

theorem leave_no (u : State) (d : Nat) (h : u.staysOn d) : u.mayLeave d = false := by
  unfold State.mayLeave
  rcases h with ⟨h1, b, hb, h2⟩ | ⟨h1, p, hp, h2, h3⟩ | ⟨h1, c, hc, h2, h3, h4, h5⟩
  · rw [if_pos h1, List.all_eq_false]
    refine ⟨b, (mem_bents d b).2 hb, ?_⟩
    rcases h2 with h2 | h2
    · simp [h2]
    · have : (u.tasksOn b).isEmpty = false := by
        cases e : u.tasksOn b with
        | nil => exact absurd e h2
        | cons _ _ => rfl
      simp [this]
  · rw [if_neg (by omega), if_pos h1, List.all_eq_false]
    exact ⟨p, List.mem_range.2 hp, by simp [h2, h3]⟩
  · rw [if_neg (by omega), if_neg (by omega), List.all_eq_false]
    exact ⟨c, List.mem_range.2 hc, by simp [h2, h3, h4, h5]⟩

theorem scramble_facts (n : Nat) : ∀ (l : List Nat) (u : State), (∀ b ∈ l, b / 16 = n) →
    (∃ B G, (l.foldl (fun t b =>
      let g := t.newGen
      let h := g.1.newGen
      h.1.onBay b fun x => { x with id := b, scratch := Mem.scrambled g.2, istore := Mem.scrambled h.2, smarks := [], imarks := [] }) u) = { u with bays := B, gens := G }) ∧
    (∀ b, b / 16 ≠ n → (l.foldl (fun t b =>
      let g := t.newGen
      let h := g.1.newGen
      h.1.onBay b fun x => { x with id := b, scratch := Mem.scrambled g.2, istore := Mem.scrambled h.2, smarks := [], imarks := [] }) u).bay b = u.bay b)
  | [], u, _ => ⟨⟨_, _, rfl⟩, fun _ _ => rfl⟩
  | k :: l, u, h => by
    rw [List.foldl_cons]
    dsimp only
    obtain ⟨w, hw⟩ : ∃ w : State, w = (u.newGen.1.newGen.1.onBay k fun x => { x with id := k, scratch := Mem.scrambled u.newGen.2, istore := Mem.scrambled u.newGen.1.newGen.2, smarks := [], imarks := [] }) := ⟨_, rfl⟩
    rw [← hw]
    obtain ⟨⟨B, G, e⟩, f⟩ := scramble_facts n l w (fun b hb => h b (List.mem_cons_of_mem _ hb))
    have wu : ∃ B G, w = { u with bays := B, gens := G } := ⟨_, _, hw⟩
    have wb : ∀ b, b / 16 ≠ n → w.bay b = u.bay b := by
      intro b hb
      have kb : b ≠ k := fun c => hb (by rw [c]; exact h k (List.mem_cons_self ..))
      rw [hw, State.bay_onBay_ne _ _ kb]
      rfl
    obtain ⟨B', G', wu⟩ := wu
    exact ⟨⟨B, G, by rw [e, wu]⟩, fun b hb => (f b hb).trans (wb b hb)⟩

theorem isolate_rest (u : State) (hit : Outside → Bool) : ∃ B, u.isolate hit = { u with bays := B } := by
  unfold State.isolate
  have : ∀ (l : List Nat) (w : State), ∃ B, l.foldl (fun t k => t.onBay k fun b =>
    (b.pipe.flights.filter fun f => match f.out with
      | some o => o.readable.isNone && !o.parked && o.remote.isNone && hit o
      | none => false).foldl Bay.isolateFlight b) w = { w with bays := B } := by
    intro l
    induction l with
    | nil => exact fun w => ⟨_, rfl⟩
    | cons k l ih =>
      intro w
      rw [List.foldl_cons]
      obtain ⟨B, e⟩ := ih (w.onBay k fun b =>
        (b.pipe.flights.filter fun f => match f.out with
          | some o => o.readable.isNone && !o.parked && o.remote.isNone && hit o
          | none => false).foldl Bay.isolateFlight b)
      exact ⟨B, by rw [e]; rfl⟩
  exact this _ u

theorem isolate_keeps (u : State) (hit : Outside → Bool) : (u.isolate hit).rst = u.rst ∧ (u.isolate hit).regs = u.regs := by
  obtain ⟨B, e⟩ := isolate_rest u hit
  rw [e]
  exact ⟨rfl, rfl⟩

/-- A bay with nothing outstanding does not see the isolation of a block. -/
theorem isolate_bay (u : State) (hit : Outside → Bool) (b : Nat) (h : (u.bay b).pipe.flights = []) : (u.isolate hit).bay b = u.bay b := by
  unfold State.isolate
  have : ∀ (l : List Nat) (w : State), (w.bay b).pipe.flights = [] → (l.foldl (fun t k => t.onBay k fun b =>
    (b.pipe.flights.filter fun f => match f.out with
      | some o => o.readable.isNone && !o.parked && o.remote.isNone && hit o
      | none => false).foldl Bay.isolateFlight b) w).bay b = w.bay b := by
    intro l
    induction l with
    | nil => exact fun _ _ => rfl
    | cons k l ih =>
      intro w hw
      rw [List.foldl_cons]
      have e : (w.onBay k fun b =>
        (b.pipe.flights.filter fun f => match f.out with
          | some o => o.readable.isNone && !o.parked && o.remote.isNone && hit o
          | none => false).foldl Bay.isolateFlight b).bay b = w.bay b := by
        by_cases c : b = k
        · subst c
          rw [State.bay_onBay, hw]
          rfl
        · exact State.bay_onBay_ne _ _ c
      rw [ih _ (by rw [e]; exact hw), e]
  exact this _ u h

theorem begin_facts (u : State) (d g : Nat) (h : u.dom d ≠ 0 → d < 16 → ∀ b, b / 16 = d → Quiet u b) :
    ∃ w : State, u.domBegin d g = { w.setDom d 3 with
      rst := { (w.setDom d 3).rst with goal := tsetD 0 w.rst.goal d g } } ∧ w.rst = u.rst ∧ w.regs = u.regs ∧
      (d < 16 → ∀ b, w.tasksOn b = u.tasksOn b) ∧
      (∀ b, b / 16 ≠ d → d < 16 ∨ d = 19 ∨ (u.bay b).pipe.flights = [] → w.bay b = u.bay b) ∧
      (∀ b, b / 16 = d → d < 16 → u.dom d ≠ 0 → BayCleared (u.bay b) (w.bay b)) := by
  unfold State.domBegin
  dsimp only
  split
  · rename_i c
    obtain ⟨⟨B, G, e⟩, f⟩ := scramble_facts d (bentBays d) u (fun b hb => (mem_bents d b).1 hb)
    refine ⟨_, rfl, ?_, ?_, fun _ b => ?_, fun b hb _ => f b hb, fun b _ _ k => absurd c.2 k⟩
    · unfold State.scrambleBent
      rw [e]
    · unfold State.scrambleBent
      rw [e]
    · unfold State.scrambleBent
      rw [e]; rfl
  · rename_i c
    split
    · rename_i c2
      have c0 : u.dom d ≠ 0 := fun x => c ⟨c2, x⟩
      obtain ⟨d1, d2, d3⟩ := drop_all (bentBays d) u (bents_nodup d) (fun b hb => by
        rw [mem_bents] at hb
        exact ⟨by omega, h c0 c2 b hb⟩)
      refine ⟨_, rfl, ?_, ?_, fun _ b => d1.tasks b, fun b hb _ => d2 b (fun x => hb ((mem_bents d b).1 x)), fun b hb _ _ => d3 b ((mem_bents d b).2 hb)⟩
      · obtain ⟨_, _, _, _, _, _, e⟩ := d1
        rw [e]
      · obtain ⟨_, _, _, _, _, _, e⟩ := d1
        rw [e]
    · rename_i c2
      split
      · exact ⟨_, rfl, rfl, rfl, fun k => absurd k c2, fun b _ _ => rfl, fun b _ k => absurd k c2⟩
      · rename_i c3
        refine ⟨_, rfl, (isolate_keeps u _).1, (isolate_keeps u _).2, fun k => absurd k c2, fun b _ k => ?_, fun b _ k => absurd k c2⟩
        rcases k with k | k | k
        · exact absurd k c2
        · exact absurd k c3
        · exact isolate_bay u _ b k

/-- The domains that a write changes begin their transitions one after another. -/
theorem begin_all (T : Nat → Nat) : ∀ (l : List Nat) (x : State), l.Pairwise (· < ·) →
    (∀ d ∈ l, x.dom d ≠ 0 → d < 16 → ∀ b, b / 16 = d → Quiet x b) →
    ∃ y, l.foldl (fun t d => t.domBegin d (T d)) x = y ∧ y.regs = x.regs ∧ y.rst.writes = x.rst.writes ∧
      (∀ d, y.dom d = if d ∈ l then 3 else x.dom d) ∧ (∀ d, tgetD 0 y.rst.goal d = if d ∈ l then T d else tgetD 0 x.rst.goal d) ∧
      (∀ b, b / 16 ∉ l → (∀ d ∈ l, d < 16 ∨ d = 19) ∨ (x.bay b).pipe.flights = [] → y.bay b = x.bay b) ∧
      (∀ b, b / 16 ∈ l → b / 16 < 16 → x.dom (b / 16) ≠ 0 → BayCleared (x.bay b) (y.bay b))
  | [], x, _, _ => ⟨x, rfl, rfl, rfl, fun _ => by rw [if_neg (by simp)], fun _ => by rw [if_neg (by simp)], fun _ _ _ => rfl, fun _ h => absurd h (by simp)⟩
  | d :: l, x, hp, hq => by
    obtain ⟨p1, p2⟩ := List.pairwise_cons.1 hp
    have n1 : d ∉ l := fun c => absurd (p1 d c) (Nat.lt_irrefl _)
    obtain ⟨w, e, wr, wg, wt, wb, wc⟩ := begin_facts x d (T d) (hq d (List.mem_cons_self ..))
    obtain ⟨z, hz⟩ : ∃ z, z = x.domBegin d (T d) := ⟨_, rfl⟩
    have zb (b : Nat) : z.bay b = w.bay b := by rw [hz, e]; rfl
    have zr : z.rst.writes = x.rst.writes := by rw [hz, e, ← wr]; rfl
    have zd (k : Nat) : z.dom k = if k = d then 3 else x.dom k := by
      rw [hz, e]
      show tgetD 0 (tsetD 0 w.rst.dom d 3) k = _
      by_cases c : k = d
      · subst c
        rw [if_pos rfl, tgetD_tsetD_same]
      · rw [if_neg c, tgetD_tsetD_ne _ _ _ c, wr]; rfl
    have zo (k : Nat) : tgetD 0 z.rst.goal k = if k = d then T d else tgetD 0 x.rst.goal k := by
      rw [hz, e]
      show tgetD 0 (tsetD 0 w.rst.goal d (T d)) k = _
      by_cases c : k = d
      · subst c
        rw [if_pos rfl, tgetD_tsetD_same]
      · rw [if_neg c, tgetD_tsetD_ne _ _ _ c, wr]
    have zt : d < 16 → ∀ b, z.tasksOn b = x.tasksOn b := fun h b => by
      rw [hz, e]; exact wt h b
    obtain ⟨y, ey, y1, y2, y3, y4, y5, y6⟩ := begin_all T l z p2 (fun k hk k0 k16 b hb => by
      have dk := p1 k hk
      have kd : k ≠ d := fun c => n1 (c ▸ hk)
      rw [zd, if_neg kd] at k0
      obtain ⟨q1, q2, q3, q4⟩ := hq k (List.mem_cons_of_mem _ hk) k0 k16 b hb
      have bb : z.bay b = x.bay b := (zb b).trans (wb b (by omega) (Or.inl (by omega)))
      refine ⟨(zt (by omega) b).trans q1, ?_⟩
      rw [bb]
      exact ⟨q2, q3, q4⟩)
    refine ⟨y, by rw [List.foldl_cons, ← hz]; exact ey, ?_, y2.trans zr, fun k => ?_, fun k => ?_, fun b hb ho => ?_, fun b hb h16 h0 => ?_⟩
    · rw [y1, hz, e, ← wg]; rfl
    · rw [y3, zd]
      by_cases c : k = d
      · subst c
        rw [if_neg n1, if_pos rfl, if_pos (List.mem_cons_self ..)]
      · rw [if_neg c]
        by_cases c2 : k ∈ l
        · rw [if_pos c2, if_pos (List.mem_cons_of_mem _ c2)]
        · rw [if_neg c2, if_neg (by rw [List.mem_cons]; exact fun x => x.elim c c2)]
    · rw [y4, zo]
      by_cases c : k = d
      · subst c
        rw [if_neg n1, if_pos rfl, if_pos (List.mem_cons_self ..)]
      · rw [if_neg c]
        by_cases c2 : k ∈ l
        · rw [if_pos c2, if_pos (List.mem_cons_of_mem _ c2)]
        · rw [if_neg c2, if_neg (by rw [List.mem_cons]; exact fun x => x.elim c c2)]
    · rw [List.mem_cons, not_or] at hb
      have zx : z.bay b = x.bay b := by
        refine (zb b).trans (wb b hb.1 ?_)
        rcases ho with ho | ho
        · rcases ho d (List.mem_cons_self ..) with o | o
          · exact Or.inl o
          · exact Or.inr (Or.inl o)
        · exact Or.inr (Or.inr ho)
      rw [y5 b hb.2, zx]
      rw [zx]
      exact ho.imp (fun o k hk => o k (List.mem_cons_of_mem _ hk)) id
    · by_cases c : b / 16 = d
      · have f := wc b c (by omega) (by rw [← c]; exact h0)
        rw [← zb] at f
        rw [y5 b (by rw [c]; exact n1) (Or.inr f.2.2.1)]
        exact f
      · have hl := (List.mem_cons.1 hb).resolve_left c
        have dk := p1 _ hl
        have zx : z.bay b = x.bay b := (zb b).trans (wb b c (Or.inl (by omega)))
        have := y6 b hl h16 (by rw [zd, if_neg c]; exact h0)
        rw [zx] at this
        exact this

theorem dom_set (u : State) (r : Rst) (k : Nat) : State.dom { u with rst := r } k = tgetD 0 r.dom k := rfl

theorem not_refused (u : State) (ctl ret m : Word) (ch : List Nat)
    (hch : ch = swDoms.filter fun d => decide (domTarget ctl ret d ≠ domTarget (u.reg 0x10040) (u.reg 0x10044) d)) (hs : u.rst.shored = false)
    (h3 : ∀ d ∈ ch, u.dom d ≠ 3 ∧ (u.dom d = 1 → ¬ u.staysOn d)) (hm : ∀ n, n < 16 → bitAt m n = true → u.bentHere n = true) :
    u.pwrRefused ctl ret (fld m 0 16) = false := by
  unfold State.pwrRefused
  dsimp only
  rw [← hch, named_none u m hm, hs]
  have a1 : (ch.any fun d => decide (u.dom d = 3)) = false := by
    rw [List.any_eq_false]
    intro d hd x
    exact (h3 d hd).1 (of_decide_eq_true x)
  have a2 : (ch.any fun d => u.on d && !u.mayLeave d) = false := by
    rw [List.any_eq_false]
    intro d hd x
    rw [Bool.and_eq_true] at x
    have c1 : u.dom d = 1 := of_decide_eq_true x.1
    have st := (h3 d hd).2 c1
    have sw : d ∈ swDoms := by rw [hch] at hd; exact (List.mem_filter.1 hd).1
    rw [leave_ok u d sw (fun k b hb => ?_) (fun k p hp => ?_) (fun k c hc c1 c2 => ?_)] at x
    · exact absurd x.2 (by decide)
    · refine ⟨fun c => st (Or.inl ⟨k, b, hb, Or.inl c⟩), ?_⟩
      by_contra c
      exact st (Or.inl ⟨k, b, hb, Or.inr c⟩)
    · by_contra c
      rw [not_or] at c
      exact st (Or.inr (Or.inl ⟨k, p, hp, c⟩))
    · by_contra e
      rw [not_or] at e
      exact st (Or.inr (Or.inr ⟨k, c, hc, c1, c2, e⟩))
  rw [a1, a2]
  simp

theorem sw_pairs : swDoms.Pairwise (· < ·) := by decide

/-- A write that changes domains and is not refused begins all their transitions. -/
theorem write_many (u : State) (ctl ret m : Word) (al : Bool) (ch : List Nat)
    (hch : ch = swDoms.filter fun d => decide (domTarget ctl ret d ≠ domTarget (u.reg 0x10040) (u.reg 0x10044) d)) (hne : ch ≠ [])
    (hs : u.rst.shored = false) (h3 : ∀ d ∈ ch, u.dom d ≠ 3 ∧ (u.dom d = 1 → ¬ u.staysOn d))
    (hm : ∀ n, n < 16 → bitAt m n = true → u.bentHere n = true) (hq : ∀ d ∈ ch, u.dom d ≠ 0 → d < 16 → ∀ b, b / 16 = d → Quiet u b) :
    ∃ t, u.pwrWrite ctl ret (fld m 0 16) al = t ∧ t.reg 0x10040 = ctl ∧ t.reg 0x10044 = ret ∧ (∀ a, a ≠ 0x10040 → a ≠ 0x10044 → t.reg a = u.reg a) ∧
      t.rst.writes = u.rst.writes ++ [ch] ∧
      (∀ d, t.dom d = if d ∈ ch then 3 else u.dom d) ∧ (∀ d ∈ ch, tgetD 0 t.rst.goal d = domTarget ctl ret d) ∧
      (∀ b, b / 16 ∉ ch → (∀ d ∈ ch, d < 16 ∨ d = 19) ∨ (u.bay b).pipe.flights = [] → t.bay b = u.bay b) ∧
      (∀ b, b / 16 ∈ ch → b / 16 < 16 → u.dom (b / 16) ≠ 0 → BayCleared (u.bay b) (t.bay b)) := by
  have nr := not_refused u ctl ret m ch hch hs h3 hm
  have e : u.pwrWrite ctl ret (fld m 0 16) al = { (ch.foldl (fun t d => t.domBegin d (domTarget ctl ret d)) ((u.setReg 0x10040 ctl).setReg 0x10044 ret)) with
      rst := { (ch.foldl (fun t d => t.domBegin d (domTarget ctl ret d)) ((u.setReg 0x10040 ctl).setReg 0x10044 ret)).rst with
        writes := (ch.foldl (fun t d => t.domBegin d (domTarget ctl ret d)) ((u.setReg 0x10040 ctl).setReg 0x10044 ret)).rst.writes ++ [ch] } } := by
    unfold State.pwrWrite
    dsimp only
    rw [nr, hs, ← hch, if_neg (by simp), if_neg hne]
  obtain ⟨x, hx⟩ : ∃ x : State, x = (u.setReg 0x10040 ctl).setReg 0x10044 ret := ⟨_, rfl⟩
  rw [← hx] at e
  have xq : ∀ d ∈ ch, x.dom d ≠ 0 → d < 16 → ∀ b, b / 16 = d → Quiet x b := by
    rw [hx]; exact hq
  obtain ⟨y, ey, y1, y2, y3, y4, y5, y6⟩ := begin_all (domTarget ctl ret) ch x (by rw [hch]; exact sw_pairs.filter _) xq
  rw [ey] at e
  have xb (b : Nat) : x.bay b = u.bay b := by rw [hx]; rfl
  have xd (d : Nat) : x.dom d = u.dom d := by rw [hx]; rfl
  have yr (a : Nat) : y.reg a = x.reg a := by show tget regReset y.regs.words a = _; rw [y1]; rfl
  refine ⟨_, e, (yr _).trans ?_, (yr _).trans ?_, fun a a1 a2 => (yr _).trans ?_, ?_, fun d => ?_, fun d hd => ?_, fun b hb ho => ?_, fun b hb h16 h0 => ?_⟩
  · rw [hx, State.reg_setReg_ne _ _ (by decide), State.reg_setReg]
  · rw [hx, State.reg_setReg]
  · rw [hx, State.reg_setReg_ne _ _ a2, State.reg_setReg_ne _ _ a1]
  · show y.rst.writes ++ [ch] = _
    rw [y2, hx]; rfl
  · exact (y3 d).trans (by rw [xd])
  · exact (y4 d).trans (if_pos hd)
  · have := y5 b hb (by rw [xb]; exact ho)
    rw [xb] at this
    exact this
  · have := y6 b hb h16 (by rw [xd]; exact h0)
    rw [xb] at this
    exact this

theorem write_none (u : State) (ctl ret m : Word) (al : Bool) (hk : ∀ d, d ∈ swDoms → domTarget ctl ret d = domTarget (u.reg 0x10040) (u.reg 0x10044) d)
    (hs : u.rst.shored = false ∨ al = false) (hm : ∀ n, n < 16 → bitAt m n = true → u.bentHere n = true) :
    u.pwrWrite ctl ret (fld m 0 16) al = ((u.setReg 0x10040 ctl).setReg 0x10044 ret).event 0x10050 0 := by
  have ch : (swDoms.filter fun d => decide (domTarget ctl ret d ≠ domTarget (u.reg 0x10040) (u.reg 0x10044) d)) = [] :=
    List.filter_eq_nil_iff.2 fun k h x => of_decide_eq_true x (hk k h)
  unfold State.pwrWrite State.pwrRefused
  dsimp only
  rw [ch, named_none u m hm]
  rcases hs with hs | hs <;> rw [hs] <;> simp

theorem write_refused (u : State) (ctl ret m : Word) (al : Bool)
    (h : (∃ n, n < 16 ∧ bitAt m n = true ∧ u.bentHere n = false) ∨ (u.rst.shored = true ∧ al = true) ∨
      (∃ d, d ∈ swDoms ∧ (u.dom d = 3 ∨ (u.dom d = 1 ∧ u.staysOn d) ∨ u.rst.shored = true) ∧
        domTarget ctl ret d ≠ domTarget (u.reg 0x10040) (u.reg 0x10044) d)) :
    u.pwrWrite ctl ret (fld m 0 16) al = u.event 0x10050 1 := by
  unfold State.pwrWrite
  dsimp only
  rw [if_pos]
  rcases h with ⟨n, h1, h2, h3⟩ | ⟨h1, h2⟩ | ⟨d, h1, h2, h3⟩
  · rw [show u.pwrRefused ctl ret (fld m 0 16) = true from by
      unfold State.pwrRefused
      dsimp only
      rw [show ((List.range 16).any fun n => decide (fld m 0 16 / 2 ^ n % 2 = 1) && !u.bentHere n) = true from
        List.any_eq_true.2 ⟨n, List.mem_range.2 h1, by rw [named_bit m n h1, h2, h3]; rfl⟩]
      rfl]
    rfl
  · rw [h1, h2]
    simp
  · have hc : d ∈ swDoms.filter fun d => decide (domTarget ctl ret d ≠ domTarget (u.reg 0x10040) (u.reg 0x10044) d) :=
      List.mem_filter.2 ⟨h1, decide_eq_true h3⟩
    rw [show u.pwrRefused ctl ret (fld m 0 16) = true from by
      unfold State.pwrRefused
      dsimp only
      generalize (swDoms.filter fun d => decide (domTarget ctl ret d ≠ domTarget (u.reg 0x10040) (u.reg 0x10044) d)) = ch at hc
      rcases h2 with h2 | ⟨h2, h4⟩ | h2
      · rw [show (ch.any fun d => decide (u.dom d = 3)) = true from List.any_eq_true.2 ⟨d, hc, decide_eq_true h2⟩]
        simp
      · rw [show (ch.any fun d => u.on d && !u.mayLeave d) = true from List.any_eq_true.2 ⟨d, hc, by
          rw [leave_no u d h4, show u.on d = true from decide_eq_true h2]; rfl⟩]
        simp
      · rw [h2]
        cases ch with
        | nil => exact absurd hc (by simp)
        | cons _ _ => simp]
    rfl

theorem pwr_go (u : State) (a : Nat) (v : Word) (h : u.reachable a = true) (ha : a = 0x10040 ∨ a = 0x10044) :
    u.regWrite .host a v = u.rstWrite .host a v := by
  have hrow : ((regRow a).any fun r => decide (r.kind ≠ .sq)) = true := by rcases ha with rfl | rfl <;> decide
  obtain ⟨r, hr, hk⟩ := row_of hrow
  exact u.regWrite_rst .host v h hr hk (by omega) (by omega)

theorem clear_others {α : Type} (l : List α) : l.filter (fun _ => true) = l := List.filter_eq_self.2 fun _ _ => rfl

/-- The writes whose last change a transition was are done. -/
theorem writes_eq (u : State) (d : Nat) : ∃ q, u.writesDone d = { u with
      rst := { u.rst with writes := (u.rst.writes.map fun l => l.filter fun k => decide (k ≠ d)).filter fun l => !l.isEmpty },
      regs := { u.regs with sqs := q } } ∧
    (u.writesDone d).sq 0x10050 = ((u.rst.writes.map fun l => l.filter fun k => decide (k ≠ d)).filter List.isEmpty).foldl (fun q _ => q.event 0) (u.sq 0x10050) := by
  have all : ∀ (l : List (List Nat)) (x : State), ∃ q, l.foldl (fun (t : State) _ => t.event 0x10050 0) x = { x with regs := { x.regs with sqs := q } } ∧
      (l.foldl (fun (t : State) _ => t.event 0x10050 0) x).sq 0x10050 = l.foldl (fun q _ => q.event 0) (x.sq 0x10050) := by
    intro l
    induction l with
    | nil => exact fun x => ⟨_, rfl, rfl⟩
    | cons e l ih =>
      intro x
      obtain ⟨q, h1, h2⟩ := ih (x.event 0x10050 0)
      refine ⟨q, h1, ?_⟩
      rw [List.foldl_cons, h2, State.sq_event]
      rfl
  obtain ⟨q, h1, h2⟩ := all _ { u with rst := { u.rst with writes := (u.rst.writes.map fun l => l.filter fun k => decide (k ≠ d)).filter fun l => !l.isEmpty } }
  exact ⟨q, h1, h2⟩

theorem power_up_one (u : State) (k : Nat) :
    (∀ c, c ≠ k → (u.memPowerUp k).chan c = u.chan c) ∧ (u.memPowerUp k).rst = u.rst ∧ (u.memPowerUp k).sq 0x10050 = u.sq 0x10050 ∧
    ((u.chan k).state = 4 → (u.chan k).vddqLost = false → ((u.memPowerUp k).chan k).state = 4 ∧ ((u.memPowerUp k).chan k).mem = (u.chan k).mem) ∧
    ((u.chan k).state ≠ 4 ∨ (u.chan k).vddqLost = true → ((u.memPowerUp k).chan k).state = 0) := by
  have sq : tgetD ({} : Sq) (tclear u.regs.sqs (memBase k) 0x2000) 0x10050 = u.sq 0x10050 := by
    show tget _ (tclear u.regs.sqs (memBase k) 0x2000) 0x10050 = _
    rw [Sys2Proof.Laws.Resets.tclear_get, if_neg (by unfold memBase; omega)]
    rfl
  unfold State.memPowerUp
  dsimp only
  split
  · rename_i h
    have h2 : (u.chan k).vddqLost = false := by
      have := h.2
      simpa using this
    refine ⟨fun c hc => ?_, rfl, sq, fun _ _ => ?_, fun x => ?_⟩
    · rw [State.chan_setChan_ne _ _ hc]
      rfl
    · rw [State.chan_setChan]
      exact ⟨h.1, rfl⟩
    · rcases x with x | x
      · exact absurd h.1 x
      · rw [h2] at x
        cases x
  · rename_i h
    refine ⟨fun c hc => ?_, rfl, sq, fun a b => absurd ⟨a, by rw [b]; rfl⟩ h, fun _ => ?_⟩
    · rw [State.chan_setChan_ne _ _ hc]
      rfl
    · rw [State.chan_setChan]

theorem power_up_all : ∀ (l : List Nat) (u : State), l.Nodup →
    (∀ c, c ∉ l → (l.foldl State.memPowerUp u).chan c = u.chan c) ∧
    (l.foldl State.memPowerUp u).rst = u.rst ∧ (l.foldl State.memPowerUp u).sq 0x10050 = u.sq 0x10050 ∧
    (∀ c ∈ l, ((u.chan c).state = 4 → (u.chan c).vddqLost = false → ((l.foldl State.memPowerUp u).chan c).state = 4 ∧ ((l.foldl State.memPowerUp u).chan c).mem = (u.chan c).mem) ∧
          ((u.chan c).state ≠ 4 ∨ (u.chan c).vddqLost = true → ((l.foldl State.memPowerUp u).chan c).state = 0))
  | [], u, _ => ⟨fun _ _ => rfl, rfl, rfl, fun c hc => absurd hc (by simp)⟩
  | k :: l, u, hn => by
    obtain ⟨n1, n2⟩ := List.nodup_cons.1 hn
    obtain ⟨a1, a2, a3, a4, a5⟩ := power_up_one u k
    obtain ⟨b1, b2, b3, b4⟩ := power_up_all l (u.memPowerUp k) n2
    rw [List.foldl_cons]
    refine ⟨fun c hc => ?_, b2.trans a2, b3.trans a3, fun c hc => ?_⟩
    · rw [List.mem_cons, not_or] at hc
      rw [b1 c hc.2, a1 c hc.1]
    · by_cases e : c = k
      · subst e
        rw [b1 c n1]
        exact ⟨a4, a5⟩
      · have := b4 c ((List.mem_cons.1 hc).resolve_left e)
        rw [a1 c e] at this
        exact this

theorem power_up_bays : ∀ (l : List Nat) (u : State), (l.foldl State.memPowerUp u).bays = u.bays
  | [], _ => rfl
  | k :: l, u => by
    rw [List.foldl_cons, power_up_bays l]
    unfold State.memPowerUp
    dsimp only
    split <;> rfl

theorem dom_on (v : State) (d : Nat) (h : v.dom d = 1) :
    (v.domOn d).rst.dom = v.rst.dom ∧ (v.domOn d).rst.writes = v.rst.writes ∧ (v.domOn d).sq 0x10050 = v.sq 0x10050 ∧
    (d < 16 → (∀ b, (v.domOn d).bay b = if b / 16 = d ∧ (v.rst.fatal = false ∧ v.bentHeld d = false) ∧ (v.bay b).retired = false
        then { v.bay b with id := b, state := 1 } else v.bay b) ∧
      (v.domOn d).rst.unlocked = v.rst.unlocked.filter fun k => decide (k ≠ 16 + d)) ∧
    (16 ≤ d → (v.domOn d).bays = v.bays) ∧
    (d = 19 → (v.domOn d).scf = {}) ∧
    (d = 17 ∨ d = 18 → (v.domOn d).rst.unlocked = (v.rst.unlocked.filter fun k => decide (k ≠ d - 15)) ∧
      ∀ c, c < 8 → chanDom c = d → v.hw.chanHere c = true →
      ((v.chan c).state = 4 → (v.chan c).vddqLost = false → ((v.domOn d).chan c).state = 4 ∧ ((v.domOn d).chan c).mem = (v.chan c).mem) ∧
      ((v.chan c).state ≠ 4 ∨ (v.chan c).vddqLost = true → ((v.domOn d).chan c).state = 0)) := by
  unfold State.domOn
  dsimp only
  obtain ⟨w, ew⟩ : ∃ w : State, w = { v with rst := { v.rst with unlocked := v.rst.unlocked.filter fun k => decide (k ≠ 16 + d) || decide (16 ≤ d) } } := ⟨_, rfl⟩
  rw [← ew]
  have wd1 : w.on d = true := by rw [ew]; exact decide_eq_true h
  have wb (b : Nat) : w.bay b = v.bay b := by rw [ew]; rfl
  have wh : w.bentHeld d = v.bentHeld d := by rw [ew]; rfl
  have wf : w.rst.fatal = v.rst.fatal := by rw [ew]
  have wr : w.rst.dom = v.rst.dom ∧ w.rst.writes = v.rst.writes := by rw [ew]; exact ⟨rfl, rfl⟩
  have wq : w.sq 0x10050 = v.sq 0x10050 := by rw [ew]; rfl
  split
  · rename_i h16
    obtain ⟨⟨B, e⟩, f⟩ := release_on d _ (bentBays d) w (bents_nodup d) (fun b hb => (mem_bents d b).1 hb) rfl
    refine ⟨by rw [e]; exact wr.1, by rw [e]; exact wr.2, by rw [e]; exact wq, fun _ => ⟨fun b => ?_, ?_⟩, fun x => by omega, fun x => by omega, fun x => by omega⟩
    · rw [f, wb, wd1, wh, wf]
      by_cases c : b / 16 = d ∧ (v.rst.fatal = false ∧ v.bentHeld d = false) ∧ (v.bay b).retired = false
      · rw [if_pos c, if_pos ⟨(mem_bents d b).2 c.1, by rw [c.2.1.1, c.2.1.2]; rfl, c.2.2⟩]
      · rw [if_neg c, if_neg]
        rintro ⟨x, y, z⟩
        apply c
        rw [Bool.and_eq_true, Bool.and_eq_true, Bool.not_eq_true', Bool.not_eq_true'] at y
        exact ⟨(mem_bents d b).1 x, ⟨y.1.1, y.2⟩, z⟩
    · rw [e, ew]
      refine List.filter_congr fun k _ => ?_
      rw [decide_eq_false (by omega : ¬ 16 ≤ d), Bool.or_false]
  · rename_i h16
    split
    · rename_i h19
      refine ⟨wr.1, wr.2, ?_, fun x => absurd x h16, fun _ => by rw [ew]; rfl, fun _ => rfl, fun x => by omega⟩
      rw [← wq]
      show tget _ (tclear w.regs.sqs 0x70000 0x10000) 0x10050 = _
      rw [Sys2Proof.Laws.Resets.tclear_get, if_neg (by omega)]
      rfl
    · rename_i h19
      obtain ⟨y, ey⟩ : ∃ y : State, y = { v with rst := { v.rst with unlocked := (v.rst.unlocked.filter fun k => decide (k ≠ 16 + d) || decide (16 ≤ d)).filter fun k => decide (k ≠ d - 15) } } := ⟨_, rfl⟩
      rw [← ey]
      have nd : ((List.range 8).filter fun c => decide (chanDom c = d) && v.hw.chanHere c).Nodup := List.nodup_range.filter _
      obtain ⟨b1, b2, b3, b4⟩ := power_up_all _ y nd
      have yc (c : Nat) : y.chan c = v.chan c := by rw [ey]; rfl
      refine ⟨by rw [b2, ey], by rw [b2, ey], by rw [b3, ey]; rfl, fun x => absurd x h16, fun _ => by rw [power_up_bays, ey], fun x => absurd x h19, fun _ => ⟨?_, fun c h8 hc hh => ?_⟩⟩
      · rw [b2, ey]
        have : (v.rst.unlocked.filter fun k => decide (k ≠ 16 + d) || decide (16 ≤ d)) = v.rst.unlocked :=
          List.filter_eq_self.2 fun k _ => by rw [decide_eq_true (by omega : 16 ≤ d), Bool.or_true]
        exact congrArg (List.filter fun k => decide (k ≠ d - 15)) this
      · have := b4 c (List.mem_filter.2 ⟨List.mem_range.2 h8, by rw [hh, hc]; simp⟩)
        rw [yc] at this
        exact this

theorem pll_once (u : State) (k : Nat) (hk : k < 6 ∨ (16 ≤ k ∧ k < 32)) (h : u.rst.unlocked.contains k = false) :
    (u.pllLoss k).rst = { u.rst with unlocked := u.rst.unlocked ++ [k], fatal := true } ∧ (u.pllLoss k).qm.stopped = true ∧
    (k ≠ 2 → k ≠ 3 → (u.pllLoss k).bays = u.bays.map (fun e => if e.1 = 256 then e else (e.1, e.2.halt)) ∧ (u.pllLoss k).ddr = u.ddr ∧
      (u.pllLoss k).stg = u.stg ∧ (u.bg.lost = 0 → u.bg.held.length < 64 → (u.pllLoss k).bg.held.length = u.bg.held.length + 1)) := by
  unfold State.pllLoss
  rw [h]
  rw [if_neg (by
    rw [Bool.or_eq_true, Bool.or_eq_true, Bool.and_eq_true, decide_eq_true_eq, decide_eq_true_eq, decide_eq_true_eq]
    rintro ((a | a) | a)
    · cases a
    · omega
    · omega)]
  dsimp only
  obtain ⟨w, hw⟩ : ∃ w : State, w = { u with rst := { u.rst with unlocked := u.rst.unlocked ++ [k] } } := ⟨_, rfl⟩
  rw [← hw]
  have fat : ∀ (x : State) (c : Word), (x.fatal 13 0 0 c).rst = { x.rst with fatal := true } ∧ (x.fatal 13 0 0 c).qm.stopped = true ∧
      (x.fatal 13 0 0 c).bays = x.bays.map (fun e => if e.1 = 256 then e else (e.1, e.2.halt)) ∧ (x.fatal 13 0 0 c).ddr = x.ddr ∧
      (x.fatal 13 0 0 c).stg = x.stg ∧ (x.bg.lost = 0 → x.bg.held.length < 64 → (x.fatal 13 0 0 c).bg.held.length = x.bg.held.length + 1) := by
    intro x c
    unfold State.fatal
    dsimp only
    obtain ⟨y, hy⟩ : ∃ y : State, y = { x with
       bays := x.bays.map (fun (e : Nat × Bay) => if e.1 = 256 then e else (e.1, e.2.halt)), qm := { x.qm with stopped := true },
       rst := { x.rst with fatal := true } } := ⟨_, rfl⟩
    rw [← hy]
    have r := y.err_rest 4 13 0 0 c
    have l : y.bg.lost = 0 → y.bg.held.length < 64 → (y.err 4 13 0 0 c).bg.held.length = y.bg.held.length + 1 := by
      intro h1 h2
      exact (y.record_room _ rfl h1 h2 (Or.inl (show (4 : Nat) ≠ 1 by decide))).1
    have e2 : y.bg = x.bg := by rw [hy]
    rw [e2] at l
    obtain ⟨_, _, _, e, _⟩ := r
    refine ⟨?_, ?_, ?_, ?_, ?_, l⟩ <;> rw [e, hy]
  have w1 : ({ w.rst with fatal := true } : Rst) = { u.rst with unlocked := u.rst.unlocked ++ [k], fatal := true } := by rw [hw]
  split
  · rename_i c
    obtain ⟨B, e⟩ := isolate_rest w (fun o => match o.ddr with | some a => decide (chanDom (chanOf a) = k + 15) | none => false)
    refine ⟨?_, (fat _ _).2.1, fun n2 n3 => by omega⟩
    rw [(fat _ _).1, (isolate_keeps w _).1]
    exact w1
  · obtain ⟨f1, f2, f3, f4, f5, f6⟩ := fat w w.clkStat
    refine ⟨by rw [f1]; exact w1, f2, fun _ _ => ⟨?_, ?_, ?_, ?_⟩⟩
    · rw [f3, hw]
    · rw [f4, hw]
    · rw [f5, hw]
    · rw [hw] at f6 ⊢
      exact f6

theorem fold_get (f : Nat → Int) (i : Nat) : ∀ (l : List Nat) (T : Tab (Option Int)),
    tgetD none (l.foldl (fun t i => tsetD none t i (some (f i))) T) i = if i ∈ l then some (f i) else tgetD none T i
  | [], T => by simp
  | k :: l, T => by
    rw [List.foldl_cons, fold_get f i l]
    by_cases c : i ∈ l
    · simp [c]
    · by_cases d : i = k
      · subst d
        simp [c, tgetD_tsetD_same]
      · simp [c, d, tgetD_tsetD_ne _ _ _ d]

/-- The readings of a sample. -/
theorem reads_at (u : State) (temps : List Int) (r : Nat → Int) (hr : ∀ i, r i = if i = 23 ∨ u.dom i = 1 then temps.getD i 0 else -128) (i : Nat) (h : i < 24) :
    ((List.range 24).map fun i => u.reading i (temps.getD i 0)).getD i 0 = r i := by
  rw [List.getD_eq_getElem?_getD, List.getElem?_map, List.getElem?_range h, hr]
  show u.reading i (temps.getD i 0) = _
  unfold State.reading State.sensorOn State.on
  by_cases c : i = 23 ∨ u.dom i = 1
  · rw [if_pos c, if_pos]
    rcases c with c | c <;> simp [c]
  · rw [if_neg c, if_neg]
    intro x
    rw [Bool.or_eq_true, decide_eq_true_eq, decide_eq_true_eq] at x
    exact c x

theorem temp_at (rs : List Int) (r : Nat → Int) (e : ∀ i, i < 24 → rs.getD i 0 = r i) (T T' : Tab (Option Int))
    (ft : T' = (List.range 24).foldl (fun t i => tsetD none t i (some (rs.getD i 0))) T) (i : Nat) (hi : i < 24) : tgetD none T' i = some (r i) := by
  rw [ft, fold_get (fun i => rs.getD i 0) i (List.range 24), if_pos (List.mem_range.2 hi), e i hi]

theorem sample_fields (a b : State) (H A : List Nat) (T : Tab (Option Int)) (h : b = { a with rst := { a.rst with hot := H, alarmed := A, temp := T } }) :
    b.rst.hot = H ∧ b.rst.alarmed = A ∧ b.rst.temp = T ∧ b.bays = a.bays ∧ b.ddr = a.ddr ∧ b.regs = a.regs ∧ b.rst.reach = a.rst.reach ∧ b.rst.asserted = a.rst.asserted ∧ b.out = a.out ∧
    b.rst.src = a.rst.src := by
  subst h
  exact ⟨rfl, rfl, rfl, rfl, rfl, rfl, rfl, rfl, rfl, rfl⟩

theorem thermal_split (u : State) (temps : List Int) : ∃ (rs : List Int) (s1 s2 : State), rs = (List.range 24).map (fun i => u.reading i (temps.getD i 0)) ∧
    s1 = (if (List.range 24).any (fun i => u.alarms i (rs.getD i 0)) then u.event 0x100B0 0 else u) ∧
    s2 = { s1 with rst := { s1.rst with
      hot := (List.range 24).filter fun i => decide (135 ≤ rs.getD i 0), alarmed := (List.range 24).filter fun i => decide (u.alarmAt ≤ rs.getD i 0),
      temp := (List.range 24).foldl (fun t i => tsetD none t i (some (rs.getD i 0))) s1.rst.temp } } ∧
    u.thermalSample temps = if ((List.range 24).filter fun i => decide (135 ≤ rs.getD i 0)).any (fun i => u.rst.hot.contains i) then s2.assertReset 3
        else if s2.rst.asserted / 8 % 2 = 1 then s2.releaseReset 3 else s2 := by
  refine ⟨_, _, _, rfl, rfl, rfl, ?_⟩
  unfold State.thermalSample
  have k : (State.alarmAt (if (List.range 24).any (fun i => u.alarms i (((List.range 24).map fun i => u.reading i (temps.getD i 0)).getD i 0)) then u.event 0x100B0 0 else u)) = u.alarmAt := by
    split <;> rfl
  rfl

/-- A sample, its trip apart. -/
theorem sample_eq (u : State) (temps : List Int) (r : Nat → Int) (hr : ∀ i, r i = if i = 23 ∨ u.dom i = 1 then temps.getD i 0 else -128) :
    ∃ s1 s2 : State, s1 = (if (List.range 24).any (fun i => u.alarms i (r i)) then u.event 0x100B0 0 else u) ∧
      s2.rst.hot = (List.range 24).filter (fun i => decide (135 ≤ r i)) ∧
      s2.rst.alarmed = (List.range 24).filter (fun i => decide (u.alarmAt ≤ r i)) ∧
      (∀ i, i < 24 → tgetD none s2.rst.temp i = some (r i)) ∧
      (s2.bays = s1.bays ∧ s2.ddr = s1.ddr ∧ s2.regs = s1.regs ∧ s2.rst.reach = s1.rst.reach ∧ s2.rst.asserted = s1.rst.asserted ∧ s2.out = s1.out ∧
        s2.rst.src = s1.rst.src) ∧
      u.thermalSample temps = if ((List.range 24).filter fun i => decide (135 ≤ r i)).any (fun i => u.rst.hot.contains i) then s2.assertReset 3
        else if s2.rst.asserted / 8 % 2 = 1 then s2.releaseReset 3 else s2 := by
  obtain ⟨rs, s1, s2, hrs, hs1, hs2, et⟩ := thermal_split u temps
  have e (i : Nat) (h : i < 24) : rs.getD i 0 = r i := by
    rw [hrs]
    exact reads_at u temps r hr i h
  have e1 : (List.range 24).filter (fun i => decide (135 ≤ rs.getD i 0)) = (List.range 24).filter (fun i => decide (135 ≤ r i)) :=
    List.filter_congr fun i hi => by rw [e i (List.mem_range.1 hi)]
  have e2 : (List.range 24).filter (fun i => decide (u.alarmAt ≤ rs.getD i 0)) = (List.range 24).filter (fun i => decide (u.alarmAt ≤ r i)) :=
    List.filter_congr fun i hi => by rw [e i (List.mem_range.1 hi)]
  have e3 : (List.range 24).any (fun i => u.alarms i (rs.getD i 0)) = (List.range 24).any (fun i => u.alarms i (r i)) := by
    rw [Bool.eq_iff_iff, List.any_eq_true, List.any_eq_true]
    constructor
    · rintro ⟨i, hi, x⟩
      exact ⟨i, hi, by rw [← e i (List.mem_range.1 hi)]; exact x⟩
    · rintro ⟨i, hi, x⟩
      exact ⟨i, hi, by rw [e i (List.mem_range.1 hi)]; exact x⟩
  rw [e3] at hs1
  rw [e1] at et
  obtain ⟨f1, f2, f3, f4⟩ := sample_fields s1 s2 _ _ _ hs2
  exact ⟨s1, s2, hs1, f1.trans e1, f2.trans e2, temp_at rs r e s1.rst.temp s2.rst.temp f3, f4, et⟩

end Sys2Proof.Laws.Power
end

