-- ==== Sys2Proof/Laws/RaiseOps.lean ====
section
/-!
SUPPORT. What raise commands and the steps of a raise do to a state.
-/
namespace Sys2Proof.Laws.RaiseOps
open Sys2Proof Sys2Proof.Machine

theorem row_of {a : Nat} (h : ((regRow a).any fun r => decide (r.kind ≠ .sq)) = true) : ∃ r, regRow a = some r ∧ r.kind ≠ .sq := by
  rw [Option.any_eq_true] at h
  obtain ⟨r, h1, h2⟩ := h
  exact ⟨r, h1, of_decide_eq_true h2⟩

theorem rsuGo (u : State) (v : Word) (h : u.reachable 0x5000C = true) : u.regWrite .host 0x5000C v = u.rsuCmd (fld v 0 3) := by
  obtain ⟨r, hr, hk⟩ := row_of (a := 0x5000C) (by decide)
  rw [u.regWrite_rsu .host v h hr hk (by decide) (by decide), if_pos rfl]

theorem rsu_accept (u : State) (op : Nat) (h : u.stgOn = true) (h1 : u.rsu.busy = false) (h2 : u.raiseOk op = true) (h3 : op = 1 ∨ op = 2 ∨ op = 3) :
    u.rsuCmd op = u.onRsu fun r => { r with
      busy := true, step := 1, result := 0, reason := 0, skipped := 0, op := op, src := (u.reg 0x50000).toNat,
      len := (u.reg 0x50004).toNat, target := u.reg 0x50008, bents := 0, elapsed := 0, plain := false, quiesce := 0,
      disturbed := false, placed := [] } := by
  unfold State.rsuCmd
  rw [if_neg (by simp [h]), if_neg (by omega), if_neg (by simp [h1]), if_neg (by omega), if_neg (by simp [h2])]

theorem rsu_refuse (u : State) (op : Nat) (h : u.stgOn = true) (h1 : u.rsu.busy = false) (h2 : u.raiseOk op = false) (h3 : op = 1 ∨ op = 2 ∨ op = 3) :
    u.rsuCmd op = (u.onRsu fun r => { r with result := 3, reason := 0x24, step := 0 }).event 0x50014 1 := by
  unfold State.rsuCmd
  rw [if_neg (by simp [h]), if_neg (by omega), if_neg (by simp [h1]), if_neg (by omega), if_pos (by simp [h2])]

theorem rsu_lost (u : State) (op : Nat) (h : u.stgOn = true) (h1 : u.rsu.busy = true) (h3 : op ≠ 4) :
    u.rsuCmd op = u.event 0x50014 2 := by
  unfold State.rsuCmd
  rw [if_neg (by simp [h]), if_neg h3, if_pos h1]

/-- While PD_STG is off RSU_CMD does not answer. -/
theorem rsu_closed (u : State) (v : Word) (h : u.stgOn = false) : u.regWrite .host 0x5000C v = u := by
  have hd : u.regDown 0x5000C = true := by
    unfold State.regDown State.blockLive
    rw [if_pos (by decide), h, Bool.and_false]
    rfl
  unfold State.regWrite
  rw [if_neg (by decide : ¬((0x1000000 : Nat) ≤ 0x5000C ∧ (0x5000C : Nat) < 0x2000000)),
    if_neg (by decide : ¬((0x48000000 : Nat) ≤ 0x5000C ∧ (0x5000C : Nat) < 0x48010000)),
    if_neg (by decide : ¬((0x60000000 : Nat) ≤ 0x5000C))]
  unfold State.regAct
  rw [if_pos hd, ite_self]

theorem rsu_abort (u : State) (h : u.stgOn = true) :
    u.rsuCmd 4 = if !u.rsu.busy then u else if u.rsu.step ≤ 4 then u.raiseEnd 4 0 else u.event 0x50014 2 := by
  unfold State.rsuCmd
  rw [if_neg (by simp [h]), if_pos rfl]

theorem raise_run (s : State) (h : s.reachable 0x5000C = true) : exec .raise s = .next (s.finish (s.start.rsuCmd 1)) ∧
    exec .rebent s = .next (s.finish (s.start.rsuCmd 2)) ∧ exec .rebay s = .next (s.finish (s.start.rsuCmd 3)) ∧
    exec .abort s = .next (s.finish (s.start.rsuCmd 4)) := by
  refine ⟨?_, ?_, ?_, ?_⟩
  · exact congrArg (fun x => Host.Outcome.next (s.finish x)) (rsuGo s.start 1#32 h)
  · exact congrArg (fun x => Host.Outcome.next (s.finish x)) (rsuGo s.start 2#32 h)
  · exact congrArg (fun x => Host.Outcome.next (s.finish x)) (rsuGo s.start 3#32 h)
  · exact congrArg (fun x => Host.Outcome.next (s.finish x)) (rsuGo s.start 4#32 h)

theorem foldl_rest {α : Type} (f : State → α → State) (h : ∀ u a, StgRest u (f u a)) : ∀ (l : List α) (u : State), StgRest u (l.foldl f u)
  | [], u => StgRest.refl u
  | a :: l, u => (h u a).trans (foldl_rest f h l (f u a))

theorem planRead_eq (u : State) (a n : Nat) : u.planRead a n =
    (let r := u.parts (fun t x k _ => t.stgRead .raisingUnit x k) (u.rsu.src + a) [] (pieces 0x40000 (u.rsu.src + a) n)
     (r.1, r.2.err.isNone && r.2.bad.isEmpty)) := rfl

/-- Reading the plan changes staging, records and registers at most. -/
theorem planRead_rest (u : State) (a n : Nat) : StgRest u (u.planRead a n).1 := by
  have h : ∀ r : State × Resp, StgRest u r.1 → StgRest u (let q := r; (q.1, q.2.err.isNone && q.2.bad.isEmpty)).1 := fun _ h => h
  rw [planRead_eq]
  exact h _ (parts_rest _ (fun v x k _ => stgRead_rest v .raisingUnit x k) _ _ u [])

theorem wipePlan_rest (u : State) : StgRest u u.wipePlan := by
  unfold State.wipePlan
  split
  · exact StgRest.refl u
  · exact foldl_rest _ (fun v e => parts_rest _ (fun w x k _ => stgWrite_rest w .raisingUnit x (zeros k) []) _ _ v _) _ _

theorem raiseEnd_facts (u : State) (n k : Nat) : ∃ S B R, u.raiseEnd n k = { u with
    stg := S, bg := B, regs := R, rsu := { u.rsu with
      busy := false, plain := false, quiesce := 0, disturbed := false, placed := [], result := n, reason := k } } ∧
    (u.rsu.plain = false → S = u.stg) := by
  obtain ⟨S, B, R, e⟩ := wipePlan_rest u
  have hp : u.rsu.plain = false → u.wipePlan = u := fun h => by
    unfold State.wipePlan
    rw [if_pos (by simp [h])]
  unfold State.raiseEnd
  dsimp only
  rw [e]
  exact ⟨S, B, _, rfl, fun h => ((congrArg State.stg e).symm.trans (congrArg State.stg (hp h)))⟩

/-- A raise that fails before step 5 ends with the reason and changes no bay. -/
theorem raiseFail_early (u : State) (n : Nat) (h : u.rsu.step < 5) : u.raiseFail n = u.raiseEnd 2 n := by
  unfold State.raiseFail
  dsimp only
  have h5 : decide (u.rsu.step = 5) = false := decide_eq_false (by omega)
  rw [h5, Bool.and_false, if_neg Bool.false_ne_true, if_pos (show u.rsu.step < 6 by omega)]

theorem reads_rest : ∀ (l : List (Nat × Nat)) (p : State × Bool), StgRest p.1 (l.foldl (fun (x : State × Bool) g =>
    ((x.1.planRead g.1 g.2).1, x.2 && (x.1.planRead g.1 g.2).2)) p).1
  | [], p => StgRest.refl p.1
  | g :: l, p => by
    have h : ∀ y : State × Bool, StgRest p.1 y.1 → StgRest p.1 (l.foldl (fun (x : State × Bool) g =>
        ((x.1.planRead g.1 g.2).1, x.2 && (x.1.planRead g.1 g.2).2)) (y.1, p.2 && y.2)).1 := fun y hy => hy.trans (reads_rest l (y.1, p.2 && y.2))
    rw [List.foldl_cons]
    exact h _ (planRead_rest p.1 g.1 g.2)

theorem putPayloads_rest : ∀ (l : List Section_) (u : State) (d : List Byte), StgRest u (u.putPayloads d l)
  | [], u, _ => StgRest.refl u
  | e :: l, u, d => by
    have h : ∀ v, StgRest u v → StgRest u (v.putPayloads (d.drop e.len) l) := fun v hv => hv.trans (putPayloads_rest l v _)
    rw [State.putPayloads]
    exact h _ (parts_rest _ (fun w x _ b => stgWrite_rest w .raisingUnit x b []) _ _ u _)

/-- The ways that step 3 ends. -/
theorem decrypt_facts (u : State) (q : State × Bool) (hq : q = u.planRead 0 u.plan.total) (h : u.rsu.step < 5) :
    (u.raiseDecrypt.rsu = { u.rsu with plain := true, step := 4 } ∨
      u.raiseDecrypt.rsu.busy = false ∧ u.raiseDecrypt.rsu.result = 2 ∧ (u.raiseDecrypt.rsu.reason = 0xC ∨ u.raiseDecrypt.rsu.reason = 0xD)) ∧
    u.raiseDecrypt.bays = u.bays ∧ u.raiseDecrypt.scr = u.scr ∧ u.raiseDecrypt.qm = u.qm := by
  have f : ∀ n, n = 0xC ∨ n = 0xD → ∀ v, StgRest u v → ((v.raiseFail n).rsu = { u.rsu with plain := true, step := 4 } ∨
      (v.raiseFail n).rsu.busy = false ∧ (v.raiseFail n).rsu.result = 2 ∧ ((v.raiseFail n).rsu.reason = 0xC ∨ (v.raiseFail n).rsu.reason = 0xD)) ∧
      (v.raiseFail n).bays = u.bays ∧ (v.raiseFail n).scr = u.scr ∧ (v.raiseFail n).qm = u.qm := by
    rintro n hn v ⟨S, B, R, rfl⟩
    rw [raiseFail_early ({ u with stg := S, bg := B, regs := R } : State) n h]
    obtain ⟨S', B', R', e', -⟩ := raiseEnd_facts ({ u with stg := S, bg := B, regs := R } : State) 2 n
    rw [e']
    exact ⟨Or.inr ⟨rfl, rfl, hn⟩, rfl, rfl, rfl⟩
  have g : ∀ (d : List Byte) (l : List Section_) (y w : State), StgRest u y →
      w = ((y.putPayloads d l).onRsu fun x => { x with plain := true }).raiseTo 4 → (w.rsu = { u.rsu with plain := true, step := 4 } ∨
        w.rsu.busy = false ∧ w.rsu.result = 2 ∧ (w.rsu.reason = 0xC ∨ w.rsu.reason = 0xD)) ∧
      w.bays = u.bays ∧ w.scr = u.scr ∧ w.qm = u.qm := by
    intro d l y w hy hw
    have k := hy.trans (putPayloads_rest l y d)
    generalize y.putPayloads d l = v at k hw
    obtain ⟨S, B, R, rfl⟩ := k
    rw [hw]
    exact ⟨Or.inl rfl, rfl, rfl, rfl⟩
  have r : StgRest u q.1 := hq ▸ planRead_rest u 0 u.plan.total
  unfold State.raiseDecrypt
  dsimp only
  rw [← hq]
  clear hq
  split
  · exact f _ (Or.inr rfl) _ r
  · split
    · exact f _ (Or.inl rfl) _ r
    · split
      · exact f _ (Or.inl rfl) _ r
      · exact g _ _ _ _ r rfl

/-! ## The steps one by one -/

theorem fetch_unread (u : State) (h : (u.planRead 0 64).2 = false) : u.raiseFetch = (u.planRead 0 64).1.raiseFail 0xD := by
  unfold State.raiseFetch
  dsimp only
  generalize u.planRead 0 64 = q at h ⊢
  rw [h]
  exact if_pos (show (!false) = true from rfl)

theorem fetch_header (u : State) (n : Nat) (h : (u.planRead 0 64).2 = true)
    (hn : n = u.plan.headerReason u.rsu.op u.rsu.len u.hw.part u.raiseBent) (h0 : n ≠ 0) :
    u.raiseFetch = (u.planRead 0 64).1.raiseFail n := by
  unfold State.raiseFetch
  dsimp only
  generalize u.planRead 0 64 = q at h ⊢
  rw [h, if_neg (by simp), ← hn, if_pos h0]

/-- Step 1 goes on to step 2. -/
theorem fetch_next (u : State) (p : Plan) (hp : p = u.plan) (q q' w : State × Bool) (hq : q = u.planRead 0 64)
    (hq' : q' = q.1.planRead 64 (16 * p.nsect))
    (hw : w = (gapsFrom (64 + 16 * p.nsect) p.entries).foldl (fun (x : State × Bool) g =>
      ((x.1.planRead g.1 g.2).1, x.2 && (x.1.planRead g.1 g.2).2)) (q'.1, true)) (h : q.2 = true)
    (h1 : p.headerReason u.rsu.op u.rsu.len u.hw.part u.raiseBent = 0) (h2 : 3 ≤ p.nsect) (h3 : p.nsect ≤ 8)
    (h4 : p.directoryReason u.rsu.op = 0) (h5 : q'.2 = true) (h6 : w.2 = true)
    (h7 : w.1.bentsReady p.bents (decide (u.rsu.op = 1)) = true) :
    u.raiseFetch = (w.1.onRsu fun x => { x with bents := p.bents }).raiseTo 2 := by
  unfold State.raiseFetch
  dsimp only
  rw [← hp, ← hq, h, if_neg (by simp), h1, if_neg (by simp), if_neg (by omega), ← hq', h5, if_neg (by simp), h4,
    if_neg (by decide), ← hw, if_neg (by simp), h6, if_neg (by simp), h7, if_neg (by simp)]

theorem fetch_rest (u : State) (n : Nat) (l : List (Nat × Nat)) (q q' w : State × Bool) (hq : q = u.planRead 0 64)
    (hq' : q' = q.1.planRead 64 n) (hw : w = l.foldl (fun (x : State × Bool) g =>
      ((x.1.planRead g.1 g.2).1, x.2 && (x.1.planRead g.1 g.2).2)) (q'.1, true)) : StgRest u w.1 := by
  have a : StgRest u q.1 := hq ▸ planRead_rest u 0 64
  have b : StgRest q.1 q'.1 := hq' ▸ planRead_rest q.1 64 n
  have c : StgRest q'.1 w.1 := hw ▸ reads_rest l (q'.1, true)
  exact (a.trans b).trans c

/-- How step 2 ends. -/
theorem auth_go (u : State) (p : Plan) (hp : p = u.plan) (q : State × Bool) (hq : q = u.planRead 0 p.total) (h : q.2 = true) (n : Nat)
    (hn : n = if p.crcsOk then u.authReason p else 7) :
    u.raiseAuth = if n = 0 then q.1.raiseTo (if p.enc then 3 else 4) else q.1.raiseFail n := by
  unfold State.raiseAuth
  dsimp only
  rw [← hp, ← hq, h, if_neg (by simp), hn]
  cases p.crcsOk with
  | false => rfl
  | true =>
    by_cases h0 : u.authReason p = 0
    · rw [if_neg (by simp), if_neg (by simp [h0]), if_pos rfl, if_pos h0]
    · rw [if_neg (by simp), if_pos h0, if_pos rfl, if_neg h0]

/-- How step 4 ends. -/
theorem validate_eq (u : State) (p : Plan) (hp : p = u.plan) (r : State × Bool) (hr : r = u.planRead 0 p.total) :
    u.raiseValidate = if r.2 = false then r.1.raiseFail 0xD
      else if r.1.planReason p ≠ 0 then r.1.raiseFail (r.1.planReason p)
      else if u.rsu.op = 2 then (r.1.raiseTo 5).quiesceStart else r.1.raiseTo 5 := by
  unfold State.raiseValidate
  dsimp only
  rw [← hp, ← hr]
  cases r.2 <;> rfl

/-- How step 5 ends. -/
theorem quiesce_eq (u : State) : u.raiseQuiesce =
    if u.rsu.op = 1 then
      if u.bentsReady u.rsu.bents true = false then u.raiseFail 5
      else if u.channelsReady u.plan = false then u.raiseFail 0x17 else u.raiseTo 6
    else if u.rsu.op = 3 then
      if u.raiseTargets.all (fun b => u.bayLive b && decide ((u.bay b).state = 1)) then u.raiseTo 6 else u.raiseFail 5
    else if u.rsu.quiesce = 4 then (u.bentFree u.raiseBent).raiseTo 6 else u := by
  unfold State.raiseQuiesce
  cases u.bentsReady u.rsu.bents true <;> cases u.channelsReady u.plan <;> rfl

/-- What steps 6–9 meet first. -/
theorem withPlan_eq (u : State) (go : State → Plan → State) (r : State × Bool) (hr : r = u.planRead 0 u.plan.total) :
    (r.2 = true → u.rsu.op ≠ 1 ∨ u.channelsReady u.plan = true → u.withPlan go = go r.1 u.plan) ∧
    (r.2 = false → u.withPlan go = r.1.raiseFail 0xD) ∧
    (r.2 = true → u.rsu.op = 1 → u.channelsReady u.plan = false → u.withPlan go = r.1.raiseFail 0x17) := by
  unfold State.withPlan
  dsimp only
  rw [← hr]
  refine ⟨fun h1 h2 => ?_, fun h => ?_, fun h1 h2 h3 => ?_⟩
  · rw [h1, if_neg (by simp), if_neg]
    rcases h2 with h2 | h2 <;> simp [h2]
  · rw [h]
    exact if_pos (show (!false) = true from rfl)
  · rw [h1, if_neg (by simp), if_pos (by simp [h2, h3])]

theorem raiseStep_disturbed (v : State) (us : Nat) (u : State) (hb : v.rsu.busy = true)
    (hu : u = { v with rsu := { v.rsu with elapsed := v.rsu.elapsed + us } }) (ho : v.rsu.op ≠ 1) (hd : v.rsu.disturbed = true) :
    v.raiseStep us = u.raiseFail 0x22 := by
  unfold State.raiseStep
  rw [if_neg (by simp [hb])]
  dsimp only
  have e : v.onRsu (fun r => { r with elapsed := r.elapsed + us }) = u := hu.symm
  rw [e, if_pos (by rw [hu]; exact ⟨ho, hd⟩)]

/-- What the step in progress does. -/
theorem raiseStep_go (v : State) (us : Nat) (u : State) (hb : v.rsu.busy = true)
    (hu : u = { v with rsu := { v.rsu with elapsed := v.rsu.elapsed + us } }) (hd : v.rsu.op = 1 ∨ v.rsu.disturbed = false) :
    (v.rsu.step = 1 → v.raiseStep us = u.raiseFetch) ∧
    (v.rsu.step = 2 → v.raiseStep us = u.raiseAuth) ∧
    (v.rsu.step = 3 → v.raiseStep us = u.raiseDecrypt) ∧
    (v.rsu.step = 4 → v.raiseStep us = u.raiseValidate) ∧
    (v.rsu.step = 5 → v.raiseStep us = u.raiseQuiesce) ∧
    (v.rsu.step = 6 → v.raiseStep us = u.raiseBays) ∧
    (v.rsu.step = 7 → v.raiseStep us = u.raiseFabric) ∧
    (v.rsu.step = 8 → v.raiseStep us = u.raiseQueues) ∧
    (v.rsu.step = 9 → v.raiseStep us = u.raiseScribe) ∧
    (v.rsu.step = 10 → v.raiseStep us = u.raiseCommit) := by
  unfold State.raiseStep
  rw [if_neg (by simp [hb])]
  dsimp only
  have e : v.onRsu (fun r => { r with elapsed := r.elapsed + us }) = u := hu.symm
  have n : ¬ (u.rsu.op ≠ 1 ∧ u.rsu.disturbed = true) := by
    rw [hu]
    rintro ⟨h1, h2⟩
    rcases hd with hd | hd
    · exact h1 hd
    · exact absurd (h2.symm.trans hd) (by decide)
  have st : u.rsu.step = v.rsu.step := by rw [hu]
  rw [e, if_neg n, st]
  refine ⟨fun h => ?_, fun h => ?_, fun h => ?_, fun h => ?_, fun h => ?_, fun h => ?_, fun h => ?_, fun h => ?_, fun h => ?_, fun h => ?_⟩ <;> simp only [h]

theorem quiesce_full (u : State) (h1 : u.rsu.op = 1) (h2 : u.bentsReady u.rsu.bents true = true) (h3 : u.channelsReady u.plan = true) :
    u.raiseQuiesce = u.raiseTo 6 := by
  unfold State.raiseQuiesce
  rw [if_pos h1, if_neg (by simp [h2]), if_neg (by simp [h3])]

/-- What the commit of a raise leaves alone. -/
def commitView (u : State) : Tab Bay × Staging × Rsu := (u.bays, u.stg, u.rsu)

theorem commit_end (s4 u : State) (v : Word) (sg : Bool) (bs : List Nat) (f1 : s4.bays = u.bays) (f2 : s4.stg = u.stg)
    (f3 : s4.rsu = u.rsu) (h2 : u.rsu.plain = false) (e5 : s4.reg 0x5001C = v) (w : State)
    (hw : w = (s4.onRsu fun r => { r with raised := true, signed := sg, starting := r.starting ++ bs }).raiseEnd 1 0) :
    w.bays = u.bays ∧ w.stg = u.stg ∧ w.rsu.raised = true ∧ w.rsu.busy = false ∧ w.rsu.result = 1 ∧
    w.rsu.starting = u.rsu.starting ++ bs ∧ w.reg 0x5001C = v := by
  subst hw
  generalize hx : (s4.onRsu fun r => { r with raised := true, signed := sg, starting := r.starting ++ bs }) = x
  have hp : x.wipePlan = x := by
    unfold State.wipePlan
    rw [if_pos]
    rw [← hx]
    show (!s4.rsu.plain) = true
    rw [f3, h2]
    rfl
  unfold State.raiseEnd
  dsimp only
  rw [hp]
  refine ⟨?_, ?_, ?_, rfl, rfl, ?_, ?_⟩
  · rw [← f1, ← hx]; rfl
  · rw [← f2, ← hx]; rfl
  · rw [← hx]; rfl
  · rw [← f3, ← hx]; rfl
  · rw [State.reg_of_event, State.reg_setReg_ne _ _ (by decide), ← hx]
    exact e5

/-- Storing PLAN_ID and setting the epoch count to 0 leave bays, staging and the raising unit alone. -/
theorem commit_count (x : State) (v : Word) :
    ((x.setReg 0x50018 v).setCount 0x40010 0).bays = x.bays ∧ ((x.setReg 0x50018 v).setCount 0x40010 0).stg = x.stg ∧
      ((x.setReg 0x50018 v).setCount 0x40010 0).rsu = x.rsu := ⟨rfl, rfl, rfl⟩

theorem commit_full (u : State) (h1 : u.rsu.op = 1) (h2 : u.rsu.plain = false) :
    u.raiseCommit.bays = u.bays ∧ u.raiseCommit.stg = u.stg ∧ u.raiseCommit.rsu.raised = true ∧
    u.raiseCommit.rsu.busy = false ∧ u.raiseCommit.rsu.result = 1 ∧
    u.raiseCommit.rsu.starting = u.rsu.starting ++ (u.raiseTargets.filter u.bayLive).filter (fun b => decide (u.plan.assign b ≠ 0xFF)) ∧
    u.raiseCommit.reg 0x5001C = u.plan.seqno := by
  unfold State.raiseCommit
  extract_lets p op s1 q1 q2 q3 s2 s3 s4 bs
  have e1 : commitView s1 = commitView u := by simp only [s1]; split <;> rfl
  clear_value s1
  have e2 : commitView s2 = commitView u := by
    rw [← e1]
    have a : q1.bays = s1.bays ∧ q1.stg = s1.stg ∧ q1.rsu = s1.rsu := commit_count s1 p.id
    clear_value q1 q2 q3
    have ho : op = 1 := h1
    simp only [s2, if_pos ho, commitView]
    rw [a.1, a.2.1, a.2.2]
  have e3 : commitView s3 = commitView u := by
    rw [← e2]
    simp only [s3]
    split
    · rfl
    · exact foldl_keeps commitView _ (fun w n => by split <;> rfl) _ _
  clear_value s3
  have e4 : commitView s4 = commitView u := by
    rw [← e3]
    simp only [s4, commitView, State.setReg_bays, State.setReg_stg, State.setReg_rsu]
  have e5 : s4.reg 0x5001C = p.seqno := State.reg_setReg _ _ _
  clear_value s4
  simp only [commitView, Prod.mk.injEq] at e4
  obtain ⟨f1, f2, f3⟩ := e4
  exact commit_end s4 u p.seqno _ bs f1 f2 f3 h2 e5 _ rfl

end Sys2Proof.Laws.RaiseOps
end

