-- ==== Sys2Proof/Laws/Receive.lean ====
section
/-!
SUPPORT. What a port does with the flits it receives.
-/
namespace Sys2Proof.Laws.Receive
open Sys2Proof Sys2Proof.Machine

theorem link_view {u v : State} (h : LinkRest u v) : v.qm = u.qm ∧ v.bays = u.bays ∧ v.ddr = u.ddr ∧ v.scr = u.scr ∧
    v.regs.sqs = u.regs.sqs ∧ v.scf.view = u.scf.view ∧ v.hw = u.hw ∧ v.regs.words = u.regs.words ∧ v.stg = u.stg ∧ v.rst = u.rst ∧ v.scf.reqs = u.scf.reqs ∧
    v.scf.asm = u.scf.asm ∧ v.scf.routes = u.scf.routes ∧ v.scf.upd = u.scf.upd ∧ v.scf.fences = u.scf.fences := by
  obtain ⟨P, g, o, rfl⟩ := h
  exact ⟨rfl, rfl, rfl, rfl, rfl, rfl, rfl, rfl, rfl, rfl, rfl, rfl, rfl, rfl, rfl⟩

theorem takeCell_one (b : State) (f : Flit) (ovf : Bool) (h1 : f.cell = 0) (h2 : f.ncell = 0) (h3 : f.rt = true → f.index < 2 ^ 13)
    (h4 : b.qmRuns = true) (h5 : (b.queue f.tag).state ≠ 0) (h6 : (b.queue f.tag).state ≠ 3)
    (h7 : b.fullFor (b.queue f.tag) 1 false = false) (h8 : b.place (b.queue f.tag) 1 false = some ovf) :
    (b.takeCell f).queue f.tag = { b.queue f.tag with
        msgs := (b.queue f.tag).msgs ++
          [{ words := (List.range 16).map fun i => f.payload.getD i 0#32, cells := 1, pkind := if f.rt then 5 else 4,
             dev := f.src, index := if f.rt then f.index % 256 else f.index, bad := if f.poison then List.range 16 else [],
             commit := b.qm.commits, inOvf := ovf, agent := (b.queue f.tag).home }],
        inOvf := (b.queue f.tag).inOvf + nbit ovf, silent := (b.queue f.tag).silent && false } ∧
      (∀ j, j ≠ f.tag → (b.takeCell f).queue j = b.queue j) ∧ (b.takeCell f).bays = b.bays ∧ (b.takeCell f).ddr = b.ddr ∧
      (b.takeCell f).scf.ports = b.scf.ports := by
  generalize hw : ({ b with scf := { b.scf with asm := b.scf.asm.filter fun x => !x.of f } } : State) = w
  generalize hm : (Producer.remote f.src f.rt (if f.rt then f.index % 256 else f.index)).message f.src (b.withCell f).words (b.withCell f).bad = m
  have ha : (b.withCell f).words = (List.range 16).map (fun i => f.payload.getD i 0#32) ∧
      (b.withCell f).bad = if f.poison then List.range 16 else [] := by
    unfold State.withCell
    rw [if_pos h1]
    dsimp only
    refine ⟨by simp, ?_⟩
    split <;> simp
  have hm2 : m = { words := (List.range 16).map fun i => f.payload.getD i 0#32, cells := 1, pkind := if f.rt then 5 else 4,
                   dev := f.src, index := if f.rt then f.index % 256 else f.index, bad := if f.poison then List.range 16 else [] } := by
    rw [← hm]
    unfold Producer.message Producer.meta
    dsimp only
    rw [ha.1, ha.2]
    by_cases hr : f.rt = true
    · simp [hr]
    · simp [hr]
  have e : b.takeCell f = w.enter f.tag m ovf := by
    unfold State.takeCell
    dsimp only
    rw [h1, h2, if_pos rfl, hw]
    unfold State.remoteCommit
    rw [if_neg (fun h => absurd (h3 h.1) (by omega))]
    dsimp only
    rw [hm, State.takeIn_ok w f.tag m ovf (by rw [← hw]; exact h4) (by rw [← hw]; exact h5) (by rw [← hw]; exact h6)
      (by rw [← hw, hm2]; exact h7) (by rw [← hw, hm2]; exact h8), if_pos rfl]
  obtain ⟨e1, e2, e3, e4, e5⟩ := State.enter_eq w f.tag m ovf
  have er : ∃ q r, w.enter f.tag m ovf = { w with qm := q, regs := r } := by
    unfold State.enter
    dsimp only
    obtain ⟨r, hr⟩ := State.fillEvent_rest ({ w.setQueue f.tag { w.queue f.tag with
      msgs := (w.queue f.tag).msgs ++ [{ m with commit := w.qm.commits, inOvf := ovf, agent := (w.queue f.tag).home }], inOvf := (w.queue f.tag).inOvf + nbit ovf, silent := (w.queue f.tag).silent && m.notice } with qm := { ((w.setQueue f.tag { w.queue f.tag with
      msgs := (w.queue f.tag).msgs ++ [{ m with commit := w.qm.commits, inOvf := ovf, agent := (w.queue f.tag).home }], inOvf := (w.queue f.tag).inOvf + nbit ovf, silent := (w.queue f.tag).silent && m.notice }).qm.take (w.queue f.tag).home ovf m.cells) with commits := (w.setQueue f.tag { w.queue f.tag with
      msgs := (w.queue f.tag).msgs ++ [{ m with commit := w.qm.commits, inOvf := ovf, agent := (w.queue f.tag).home }], inOvf := (w.queue f.tag).inOvf + nbit ovf, silent := (w.queue f.tag).silent && m.notice }).qm.commits + 1 } } : State) (w.queue f.tag).home ovf
    rw [hr]
    exact ⟨_, _, rfl⟩
  obtain ⟨q, r, er⟩ := er
  rw [e]
  refine ⟨?_, ?_, ?_, ?_, ?_⟩
  · rw [e1, hm2, ← hw]; rfl
  · intro j hj; rw [e2 j hj, ← hw]; rfl
  · rw [e3, ← hw]
  · rw [er, ← hw]
  · rw [er, ← hw]

theorem takeLstate_eq (b : State) (p : Nat) (f : Flit) (dev port st gen : Nat) (h1 : dev = fld (f.payload.getD 0 0#32) 0 12)
    (h2 : port = fld (f.payload.getD 0 0#32) 12 3) (h3 : st = fld (f.payload.getD 0 0#32) 16 2) (h4 : gen = fld (f.payload.getD 1 0#32) 0 8)
    (h5 : dev ≠ b.devId)
    (h6 : ∀ v, tgetD none b.scf.view (dev * 8 + port) = some v → 1 ≤ (gen + 256 - v.2) % 256 ∧ (gen + 256 - v.2) % 256 ≤ 127) :
    ∃ v w, LinkRest { b with scf := { b.scf with view := tsetD none b.scf.view (dev * 8 + port) (some (st, gen)) } } v ∧
      b.takeLstate p f = { v with work := w } ∧ (v.port p).rx = (b.port p).rx := by
  unfold State.takeLstate
  dsimp only
  rw [← h1, ← h2, ← h3, ← h4, if_pos]
  · split
    · exact ⟨_, _, State.lstateOn_rest dev port st gen _ _, rfl, State.lstateOn_rx dev port st gen p _ _⟩
    · exact ⟨_, _, State.lstateOn_rest dev port st gen _ _, rfl, State.lstateOn_rx dev port st gen p _ _⟩
  · split
    · rename_i v hv
      obtain ⟨g1, g2⟩ := h6 v hv
      simp [h5, g1, g2]
    · simp [h5]

theorem rx_next (x y : Port_) (h : x.rx = y.rx) : x.rxNext = y.rxNext := congrArg (·.1) h

end Sys2Proof.Laws.Receive
end

