-- ==== Sys2Proof/Laws/Recording.lean ====
section
/-!
SUPPORT. What records, retirement and the journal patrol do to a state.
-/
namespace Sys2Proof.Laws.Recording
open Sys2Proof Sys2Proof.Machine

open Sys2Proof.Laws.Pulses

theorem last_rec : ∀ (l : List Nat) (u : State) (ws : List Word), l.Nodup →
    (∃ R, (l.foldl (fun t n => t.setReg (0x90080 + 4 * n) (ws.getD n 0#32)) u) = { u with regs := { u.regs with words := R } }) ∧
    (∀ n ∈ l, (l.foldl (fun t n => t.setReg (0x90080 + 4 * n) (ws.getD n 0#32)) u).reg (0x90080 + 4 * n) = ws.getD n 0#32) ∧
    (∀ a, (∀ n ∈ l, a ≠ 0x90080 + 4 * n) → (l.foldl (fun t n => t.setReg (0x90080 + 4 * n) (ws.getD n 0#32)) u).reg a = u.reg a)
  | [], u, ws, _ => ⟨⟨_, rfl⟩, fun n hn => absurd hn (by simp), fun _ _ => rfl⟩
  | k :: l, u, ws, hn => by
    obtain ⟨n1, n2⟩ := List.nodup_cons.1 hn
    rw [List.foldl_cons]
    obtain ⟨⟨R, e⟩, f, g⟩ := last_rec l (u.setReg (0x90080 + 4 * k) (ws.getD k 0#32)) ws n2
    refine ⟨⟨R, by rw [e]; rfl⟩, fun n hn => ?_, fun a ha => ?_⟩
    · by_cases c : n ∈ l
      · exact f n c
      · have : n = k := (List.mem_cons.1 hn).resolve_right c
        rw [this, g _ (fun m hm h => n1 (by rw [show k = m by omega]; exact hm)), State.reg_setReg]
    · rw [g a (fun m hm => ha m (List.mem_cons_of_mem _ hm)), State.reg_setReg_ne _ _ (ha k (List.mem_cons_self ..))]

/-- A record leaves the serialiser. -/
theorem post_split (u : State) (ws : List Word) (r : List (List Word)) (h : u.bg.held = ws :: r) :
    ∃ R, (∀ n, n < 16 → tget regReset R (0x90080 + 4 * n) = ws.getD n 0#32) ∧ (∀ a, a < 0x90080 ∨ 0x900C0 ≤ a → tget regReset R a = u.reg a) ∧
      ∀ v : State, v = { u with bg := { u.bg with held := r }, regs := { u.regs with words := R } } →
      u.recordPost = if bitAt (u.reg 0x90008) 31 then
          (if (v.postLocal (fld (u.reg 0x90008) 0 16) v.devId ws).2 then (v.postLocal (fld (u.reg 0x90008) 0 16) v.devId ws).1
           else (v.postLocal (fld (u.reg 0x90008) 0 16) v.devId ws).1.bump 0x90018)
        else v.bump 0x90018 := by
  obtain ⟨⟨R, e⟩, f, g⟩ := last_rec (List.range 16) { u with bg := { u.bg with held := r } } ws List.nodup_range
  rw [e] at f g
  refine ⟨R, fun n hn => f n (List.mem_range.2 hn), fun a ha => g a (fun n hn => ?_), fun v hv => ?_⟩
  · have := List.mem_range.1 hn
    omega
  · unfold State.recordPost
    rw [h]
    dsimp only
    have e2 : State.lastRec { u with bg := { u.bg with held := r } } ws = v := by
      rw [hv]
      exact e
    rw [e2]

theorem retire_go (u : State) (v : Word) (h : u.reachable 0x90120 = true) : u.regWrite .sill 0x90120 v = u.bgRetire .sill v := by
  obtain ⟨_, hd, e⟩ := u.regWrite_block .sill v h (by omega)
  have hrow : ((regRow 0x90120).any fun r => decide (r.kind ≠ .sq)) = true := by decide
  obtain ⟨r, hr, hk⟩ := row_of hrow
  rw [e]
  unfold State.regAct
  rw [if_neg (by simp [hd]), hr]
  simp only [hk, false_and, or_self, if_false, show 0x90120 / 0x10000 = 9 from rfl]
  rw [if_neg (by omega)]
  exact if_pos trivial

theorem retire_hi (u : State) (v : Word) (b : Nat) (hb : b = fld v 0 8) : u.bgRetire .sill (v ||| 0x80000000#32) =
    if u.retireReason b = 0 then (u.retireGo b (bitAt v 30) false).writeRw 0x90120 0x400000FF (v ||| 0x80000000#32) else u.retireGo b (bitAt v 30) false := by
  unfold State.bgRetire
  dsimp only
  rw [show fld (v ||| 0x80000000#32) 0 8 = b from by rw [hb]; exact low_or31 v 8 (by decide)]
  rw [if_neg (by simp)]
  rw [show bitAt (v ||| 0x80000000#32) 31 = true from by
    show (v ||| 0x80000000#32).getLsbD 31 = true
    rw [BitVec.getLsbD_or, show (0x80000000#32).getLsbD 31 = true from rfl, Bool.or_true]]
  rw [show bitAt (v ||| 0x80000000#32) 30 = bitAt v 30 from by
    show (v ||| 0x80000000#32).getLsbD 30 = v.getLsbD 30
    rw [BitVec.getLsbD_or, show (0x80000000#32).getLsbD 30 = false from rfl, Bool.or_false]]
  rw [if_pos rfl]

theorem retire_refused (u : State) (b : Nat) (d a : Bool) (r : Nat) (h : u.retireReason b = r) (hr : r ≠ 0) :
    u.retireGo b d a = { u with bg := { u.bg with rres := 3, rreason := r } } := by
  unfold State.retireGo
  dsimp only
  rw [h, if_pos hr]

theorem reason_busy (u : State) (b : Nat) (h : u.bg.retiring.isSome = true) : u.retireReason b = 4 := by
  unfold State.retireReason
  rw [h]
  rfl

theorem reason_taken (u : State) (b : Nat) (h : u.bg.retiring.isSome = true ∨ u.scr.evac.isSome = true ∨ (u.rsu.busy = true ∧ u.rsu.op ≠ 1)) :
    u.retireReason b = 4 := by
  refine if_pos ?_
  rcases h with h | h | ⟨h, g⟩
  · rw [h]; rfl
  · rw [h, Bool.or_true]; rfl
  · rw [h, decide_eq_true g, Bool.true_and, Bool.or_true]

theorem reason_rest (u : State) (b : Nat) (h1 : u.bg.retiring = none) (h2 : u.scr.evac = none) (h3 : u.rsu.busy = false ∨ u.rsu.op = 1) :
    u.retireReason b = if !u.bentHere (b / 16) || u.bg.retired.contains b then 1
      else if (List.range 192).any fun n => decide ((u.bank n).kind = 3) && decide ((u.bank n).bay = b) then 2 else 0 := by
  unfold State.retireReason
  rw [h1, h2, show (u.rsu.busy && decide (u.rsu.op ≠ 1)) = false from by rcases h3 with h3 | h3 <;> simp [h3]]
  rfl

theorem takeIn_no (u : State) (q : Nat) (m : Msg) (h : u.qmRuns = false ∨ (u.queue q).state = 0 ∨ (u.queue q).state = 3 ∨
    u.fullFor (u.queue q) m.cells m.notice = true ∨ u.place (u.queue q) m.cells m.notice = none) : (u.takeIn q m).2 ≠ 0 := by
  unfold State.takeIn
  dsimp only
  by_cases c : (!u.qmRuns || decide ((u.queue q).state = 0) || decide ((u.queue q).state = 3)) = true
  · rw [if_pos c]; exact Nat.succ_ne_zero _
  · rw [if_neg c]
    by_cases d : u.fullFor (u.queue q) m.cells m.notice = true
    · rw [if_pos d]; exact Nat.succ_ne_zero _
    · rw [if_neg d]
      have : u.place (u.queue q) m.cells m.notice = none := by
        rcases h with h | h | h | h | h
        · exact absurd (by rw [h]; rfl) c
        · exact absurd (by rw [h]; simp) c
        · exact absurd (by rw [h]; simp) c
        · exact absurd h d
        · exact h
      rw [this]
      exact Nat.succ_ne_zero _

theorem finish_eq (u : State) (b : Nat) (d a : Bool) (h : u.bg.retiring = some (b, d, a)) (he : ∀ e, u.scr.evac = some e → e.owner ≠ 1) :
    ∃ v w : State, v = (u.dropBay b).onBay b (fun x => { x with retired := true }) ∧
      w = State.setReg { v with bg := { v.bg with
        retiring := none, rres := 1, rreason := 0, retired := v.bg.retired ++ [b] } } (0x40400 + 4 * b) 0#32 ∧
      u.retireFinish = w.record { rtype := 6, block := 1, inst := b, w8 := w.retireStat } := by
  refine ⟨_, _, rfl, rfl, ?_⟩
  unfold State.retireFinish
  rw [h]
  dsimp only
  rw [if_neg]
  cases c : u.scr.evac with
  | none => exact fun x => by cases x
  | some e => exact fun x => he e c (of_decide_eq_true x)

def Calm (u : State) (i : Nat) : Prop := u.slotSound i = false ∨ (u.slotGood i = true ∧ (u.flashWord (slotBase i + 4)).toNat < fld (u.reg 0x90140) 8 16 * 1000)

theorem patrol_calm (u : State) (i : Nat) (h : Calm u i) : u.patrolSlot i = u := by
  unfold State.patrolSlot
  rcases h with h | ⟨h1, h2⟩
  · rw [h]
    exact if_pos rfl
  · rw [h1]
    dsimp only
    split
    · rfl
    · rw [if_neg (Nat.not_le.2 h2), if_pos rfl]

theorem journal_facts (u : State) (i bit : Nat) (w : Word) :
    (u.journal i bit w).sq 0x90144 = (u.sq 0x90144).event bit ∧ (u.journal i bit w).bg.patrol = u.bg.patrol ∧
    (u.journal i bit w).mx = u.mx ∧ (u.journal i bit w).bays = u.bays ∧ (u.journal i bit w).reg 0x90140 = u.reg 0x90140 ∧
    (u.bg.lost = 0 → u.bg.held.length < 64 → (u.journal i bit w).bg.held.length = u.bg.held.length + 1 ∧ (u.journal i bit w).bg.lost = 0) := by
  unfold State.journal
  dsimp only
  obtain ⟨e, he⟩ : ∃ e : Event, e = { rtype := 8, block := 14, addr := slotBase i, w8 := ((u.event 0x90144 bit).sq 0x90144).read, w9 := w } := ⟨_, rfl⟩
  rw [← he]
  have ty : e.rtype ≠ 1 := by rw [he]; exact show (8 : Nat) ≠ 1 by decide
  have rr := (u.event 0x90144 bit).record_rest e
  have rq := rr.sq (a := 0x90144) (by decide)
  have mk := (u.event 0x90144 bit).record_marks e
  rw [rq]
  refine ⟨?_, congrArg (·.2.2.2.2) mk, ?_, ?_, ?_, fun hl hh => (u.event 0x90144 bit).record_other e ty hl hh⟩
  · show (u.setSq 0x90144 _).sq 0x90144 = _
    rw [State.sq_setSq]
  all_goals
    obtain ⟨_, _, _, er, _⟩ := rr
    rw [er]
    rfl

theorem findings_eq {u v : State} (hm : v.mx = u.mx) (hr : v.reg 0x90140 = u.reg 0x90140) (i : Nat) : v.findings i = u.findings i := by
  unfold State.findings State.slotSound State.slotState State.slotGood State.flashWord
  rw [hm, hr]

/-- What the patrol of one slot does. -/
theorem slot_facts (u : State) (i : Nat) :
    (u.patrolSlot i).sq 0x90144 = (u.findings i).foldl Sq.event (u.sq 0x90144) ∧ (u.patrolSlot i).bg.patrol = u.bg.patrol ∧
    (u.patrolSlot i).mx = u.mx ∧ (u.patrolSlot i).bays = u.bays ∧ (u.patrolSlot i).reg 0x90140 = u.reg 0x90140 ∧
    (u.bg.lost = 0 → u.bg.held.length + (u.findings i).length ≤ 64 →
      (u.patrolSlot i).bg.held.length = u.bg.held.length + (u.findings i).length ∧ (u.patrolSlot i).bg.lost = 0) := by
  unfold State.patrolSlot State.findings
  by_cases c : (!u.slotSound i || !(decide (u.slotState i = 0x7F) || decide (u.slotState i = 0x3F) || decide (u.slotState i = 0x1F))) = true
  · rw [if_pos c, if_pos c]
    exact ⟨rfl, rfl, rfl, rfl, rfl, fun h _ => ⟨rfl, h⟩⟩
  · rw [if_neg c, if_neg c]
    dsimp only
    obtain ⟨w, l, hw, hl, k⟩ : ∃ w l, (if u.slotGood i then u else u.journal i i 0#32) = w ∧ (if u.slotGood i then [] else [i]) = l ∧
        w.sq 0x90144 = l.foldl Sq.event (u.sq 0x90144) ∧ w.bg.patrol = u.bg.patrol ∧ w.mx = u.mx ∧ w.bays = u.bays ∧ w.reg 0x90140 = u.reg 0x90140 ∧
        (u.bg.lost = 0 → u.bg.held.length + l.length ≤ 64 → w.bg.held.length = u.bg.held.length + l.length ∧ w.bg.lost = 0) := by
      refine ⟨_, _, rfl, rfl, ?_⟩
      split
      · exact ⟨rfl, rfl, rfl, rfl, rfl, fun h _ => ⟨rfl, h⟩⟩
      · obtain ⟨a1, a2, a3, a4, a5, a6⟩ := journal_facts u i i 0#32
        exact ⟨a1, a2, a3, a4, a5, fun h1 h2 => a6 h1 h2⟩
    rw [hw, hl]
    obtain ⟨k1, k2, k3, k4, k5, k6⟩ := k
    by_cases d : fld (u.reg 0x90140) 8 16 * 1000 ≤ (u.flashWord (slotBase i + 4)).toNat
    · rw [if_pos d, if_pos d]
      obtain ⟨a1, a2, a3, a4, a5, a6⟩ := journal_facts w i (2 + i) (u.flashWord (slotBase i + 4))
      refine ⟨?_, a2.trans k2, a3.trans k3, a4.trans k4, a5.trans k5, fun h1 h2 => ?_⟩
      · rw [a1, k1, List.foldl_append]; rfl
      · rw [List.length_append, List.length_singleton] at h2 ⊢
        obtain ⟨m1, m2⟩ := k6 h1 (by omega)
        obtain ⟨n1, n2⟩ := a6 m2 (by omega)
        exact ⟨by omega, n2⟩
    · rw [if_neg d, if_neg d, List.append_nil]
      exact ⟨k1, k2, k3, k4, k5, k6⟩

end Sys2Proof.Laws.Recording
end

