-- ==== Sys2Proof/Laws/RegOps.lean ====
section
/-!
SUPPORT. What the peg, the masked and narrow writes and the CRC walk do to a state.
-/
namespace Sys2Proof.Laws.RegOps
open Sys2Proof Sys2Proof.Machine

theorem pg_place {a : Nat} {r : RegRow} (hr : regRow a = some r) (hk : r.kind = .pg) :
    a = 0x30030 ∨ a = 0x40004 ∨ a = 0x40008 ∨ (0x80000 ≤ a ∧ a < 0x84000 ∧ a % 0x2000 ≠ 0) := by
  have hm := mem_rowsAt hr
  have hc := covers_of_regRow hr
  have key : ∀ l : List RegRow, (l.all fun x => decide (x.kind ≠ .pg)) = true → r ∉ l := by
    intro l hl hx
    have := List.all_eq_true.1 hl r hx
    simp [hk] at this
  unfold rowsAt at hm
  split at hm
  any_goals first | exact absurd hm (key _ (by decide)) | skip
  · have : r ∈ rowsQm.filter fun x => decide (x.kind = .pg) := by simp [hm, hk]
    have e : (rowsQm.filter fun x => decide (x.kind = .pg)) = [⟨0x30030, 4, 1, .pg, 0xffffffff, 0, true⟩] := by decide
    rw [e, List.mem_singleton] at this
    subst this
    simp [RegRow.covers] at hc
    omega
  · have : r ∈ rowsScr.filter fun x => decide (x.kind = .pg) := by simp [hm, hk]
    have e : (rowsScr.filter fun x => decide (x.kind = .pg)) =
      [⟨0x40004, 4, 1, .pg, 0xffffffc0, 0xf440, true⟩, ⟨0x40008, 4, 1, .pg, 0xffffffff, 0x645a32, true⟩] := by decide
    rw [e] at this
    simp at this
    rcases this with rfl | rfl <;> simp [RegRow.covers] at hc <;> omega
  · have : r ∈ rowsHb.filter fun x => decide (x.kind = .pg) := by simp [hm, hk]
    have e : (rowsHb.filter fun x => decide (x.kind = .pg)) =
      [⟨0x80010, 0x2000, 2, .pg, 0x8000ffff, 0, true⟩, ⟨0x80400, 8, 64, .pg, 0xefffffff, 0, true⟩,
       ⟨0x80404, 8, 64, .pg, 0xffff, 0, true⟩, ⟨0x82400, 8, 64, .pg, 0xefffffff, 0, true⟩,
       ⟨0x82404, 8, 64, .pg, 0xffff, 0, true⟩] := by decide
    rw [e] at this
    simp at this
    rcases this with rfl | rfl | rfl | rfl | rfl <;> simp [RegRow.covers] at hc <;> omega

/-- A write of a register that answers and does no more than its access type says, where no command of its group runs. -/
theorem regWrite_plain (s : State) (ag : Agent) {a : Nat} (v : Word) {r : RegRow} (hr : regRow a = some r)
    (hk : r.kind ≠ .sq) (ha : actsAlone a = false) (h : s.reachable a = true) (hl : s.raiseLocks = false)
    (ht : s.scr.tbusy = false) (hp : s.scr.pbusy = false) (hu : s.scf.upd = none) :
    s.regWrite ag a v = s.writeKind a v := by
  have hlt : a / 0x10000 < 12 := by
    by_contra hn
    have h0 : ∀ k, k < 12 → a / 0x10000 ≠ k := by omega
    unfold actsAlone at ha
    split at ha
    all_goals first | exact absurd ‹a / 0x10000 = _› (h0 _ (by decide)) | cases ha
  obtain ⟨hh, hd, e⟩ := s.regWrite_block ag v h (by omega)
  rw [e]
  unfold State.regAct
  rw [if_neg (by simp [hd]), hr]
  simp only [hk, false_and, or_self, if_false]
  unfold actsAlone at ha
  split at ha
  case h_13 => cases ha
  all_goals rename_i d; try simp only [d]
  all_goals simp at ha
  · unfold State.devWrite; rw [if_neg ha.1, if_neg ha.2]
  · unfold State.rstWrite
    obtain ⟨h1, h2, h3, h4, h5, h6, h7, h8, h9, h10⟩ := ha
    simp only [h1, h2, h3, h4, h5, h6, h7, h8, h9, h10, if_false]
  · rw [if_neg (by omega)]
    unfold State.secWrite32
    rw [if_neg (by omega), if_neg (by omega), if_pos (by omega)]
    rw [show 0x20000 + (a - 0x20000) = a by omega]
  · unfold State.qmWrite
    rw [if_neg (by simp [hl]), if_neg ha.1, if_neg (by omega)]
  · unfold State.scrWrite
    obtain ⟨h1, h2, h3, h4, h5⟩ := ha
    simp [hl, ht, hp, h1, h2, h3, h4, h5]
  · rw [if_neg ha]
  · rw [if_neg ha]
  · unfold State.scfWrite
    obtain ⟨h0, h1, h2, h3, h4, h5⟩ := ha
    by_cases hx : a < 0x78000
    · rw [if_pos hx, if_neg (h0 hx)]
    · simp [hx, hu, h1, h2, h3, h4, h5]
  · rw [if_neg (by omega)]
  · rw [if_neg (by omega), if_neg ha.2.1, if_neg ha.2.2]
  · unfold State.mxWrite
    rw [if_neg (by omega), if_neg (by omega), if_neg ha.2.1, if_neg ha.2.2.1, if_neg ha.2.2.2]
  · unfold State.stgWrite32
    rw [if_neg (by omega), if_neg (by omega), if_neg (by omega)]

end Sys2Proof.Laws.RegOps
end

