-- ==== Sys2Proof/Laws/Run.lean ====
section
/-!
SUPPORT. Every command is an effect on the state without the queue: `exec` is `State.run` of some function of the state, the
same for every state and queue.
-/
namespace Sys2Proof.Machine

theorem exec_run_registerWrite x0 x1 x2 x3 : ∃ f : State → State, ∀ s, exec (.registerWrite x0 x1 x2 x3) s = s.run f :=
  ⟨_, fun s => show Sys2Proof.Machine.execRegisterWrite x0 x1 x2 x3 s = _ from rfl⟩

theorem exec_run_pgShadowWrite x0 x1 x2 : ∃ f : State → State, ∀ s, exec (.pgShadowWrite x0 x1 x2) s = s.run f :=
  ⟨_, fun s => show Sys2Proof.Machine.execPgShadowWrite x0 x1 x2 s = _ from rfl⟩

theorem exec_run_mwWrite x0 x1 x2 : ∃ f : State → State, ∀ s, exec (.mwWrite x0 x1 x2) s = s.run f :=
  ⟨_, fun s => show Sys2Proof.Machine.execMwWrite x0 x1 x2 s = _ from rfl⟩

theorem exec_run_sqClearWrite x0 x1 x2 : ∃ f : State → State, ∀ s, exec (.sqClearWrite x0 x1 x2) s = s.run f :=
  ⟨_, fun s => show Sys2Proof.Machine.execSqClearWrite x0 x1 x2 s = _ from rfl⟩

theorem exec_run_devPeg x0 : ∃ f : State → State, ∀ s, exec (.devPeg x0) s = s.run f :=
  ⟨_, fun s => show Sys2Proof.Machine.execDevPeg x0 s = _ from rfl⟩

theorem exec_run_pegDeferredAccept : ∃ f : State → State, ∀ s, exec (.pegDeferredAccept) s = s.run f :=
  ⟨_, fun s => show Sys2Proof.Machine.execPegDeferredAccept s = _ from rfl⟩

theorem exec_run_pegApplied : ∃ f : State → State, ∀ s, exec (.pegApplied) s = s.run f :=
  ⟨_, fun s => show Sys2Proof.Machine.execPegApplied s = _ from rfl⟩

theorem exec_run_cfgCrcPass : ∃ f : State → State, ∀ s, exec (.cfgCrcPass) s = s.run f :=
  ⟨_, fun s => show Sys2Proof.Machine.execCfgCrcPass s = _ from rfl⟩

theorem exec_run_bundleIssue x0 x1 : ∃ f : State → State, ∀ s, exec (.bundleIssue x0 x1) s = s.run f :=
  ⟨_, fun s => show Sys2Proof.Machine.execBundleIssue x0 x1 s = _ from rfl⟩

theorem exec_run_resultArrival x0 x1 x2 : ∃ f : State → State, ∀ s, exec (.resultArrival x0 x1 x2) s = s.run f :=
  ⟨_, fun s => show Sys2Proof.Machine.execResultArrival x0 x1 x2 s = _ from rfl⟩

theorem exec_run_windowResponse x0 x1 x2 : ∃ f : State → State, ∀ s, exec (.windowResponse x0 x1 x2) s = s.run f :=
  ⟨_, fun s => show Sys2Proof.Machine.execWindowResponse x0 x1 x2 s = _ from rfl⟩

theorem exec_run_faultEntry x0 : ∃ f : State → State, ∀ s, exec (.faultEntry x0) s = s.run f :=
  ⟨_, fun s => show Sys2Proof.Machine.execFaultEntry x0 s = _ from rfl⟩

theorem exec_run_eventEntry x0 : ∃ f : State → State, ∀ s, exec (.eventEntry x0) s = s.run f :=
  ⟨_, fun s => show Sys2Proof.Machine.execEventEntry x0 s = _ from rfl⟩

theorem exec_run_dispatchEntry x0 : ∃ f : State → State, ∀ s, exec (.dispatchEntry x0) s = s.run f :=
  ⟨_, fun s => show Sys2Proof.Machine.execDispatchEntry x0 s = _ from rfl⟩

theorem exec_run_bayPrivWrite x0 x1 : ∃ f : State → State, ∀ s, exec (.bayPrivWrite x0 x1) s = s.run f :=
  ⟨_, fun s => show Sys2Proof.Machine.execBayPrivWrite x0 x1 s = _ from rfl⟩

theorem exec_run_bayMaskWrite x0 x1 : ∃ f : State → State, ∀ s, exec (.bayMaskWrite x0 x1) s = s.run f :=
  ⟨_, fun s => show Sys2Proof.Machine.execBayMaskWrite x0 x1 s = _ from rfl⟩

theorem exec_run_bayGcfgWrite x0 x1 : ∃ f : State → State, ∀ s, exec (.bayGcfgWrite x0 x1) s = s.run f :=
  ⟨_, fun s => show Sys2Proof.Machine.execBayGcfgWrite x0 x1 s = _ from rfl⟩

theorem exec_run_modeChangeEffect x0 : ∃ f : State → State, ∀ s, exec (.modeChangeEffect x0) s = s.run f :=
  ⟨_, fun s => show Sys2Proof.Machine.execModeChangeEffect x0 s = _ from rfl⟩

theorem exec_run_structWrite x0 x1 x2 x3 : ∃ f : State → State, ∀ s, exec (.structWrite x0 x1 x2 x3) s = s.run f :=
  ⟨_, fun s => show Sys2Proof.Machine.execStructWrite x0 x1 x2 x3 s = _ from rfl⟩

theorem exec_run_iwrDataWrite x0 x1 : ∃ f : State → State, ∀ s, exec (.iwrDataWrite x0 x1) s = s.run f :=
  ⟨_, fun s => show Sys2Proof.Machine.execIwrDataWrite x0 x1 s = _ from rfl⟩

theorem exec_run_plbDrop x0 : ∃ f : State → State, ∀ s, exec (.plbDrop x0) s = s.run f :=
  ⟨_, fun s => show Sys2Proof.Machine.execPlbDrop x0 s = _ from rfl⟩

theorem exec_run_plbFill x0 x1 : ∃ f : State → State, ∀ s, exec (.plbFill x0 x1) s = s.run f :=
  ⟨_, fun s => show Sys2Proof.Machine.execPlbFill x0 x1 s = _ from rfl⟩

theorem exec_run_timerExpiry x0 x1 : ∃ f : State → State, ∀ s, exec (.timerExpiry x0 x1) s = s.run f :=
  ⟨_, fun s => show Sys2Proof.Machine.execTimerExpiry x0 x1 s = _ from rfl⟩

theorem exec_run_mbxPost x0 x1 x2 : ∃ f : State → State, ∀ s, exec (.mbxPost x0 x1 x2) s = s.run f :=
  ⟨_, fun s => show Sys2Proof.Machine.execMbxPost x0 x1 x2 s = _ from rfl⟩

theorem exec_run_mbxLoRead x0 x1 x2 : ∃ f : State → State, ∀ s, exec (.mbxLoRead x0 x1 x2) s = s.run f :=
  ⟨_, fun s => show Sys2Proof.Machine.execMbxLoRead x0 x1 x2 s = _ from rfl⟩

theorem exec_run_mbxHiRead x0 x1 x2 : ∃ f : State → State, ∀ s, exec (.mbxHiRead x0 x1 x2) s = s.run f :=
  ⟨_, fun s => show Sys2Proof.Machine.execMbxHiRead x0 x1 x2 s = _ from rfl⟩

theorem exec_run_mbxAck x0 x1 x2 x3 : ∃ f : State → State, ∀ s, exec (.mbxAck x0 x1 x2 x3) s = s.run f :=
  ⟨_, fun s => show Sys2Proof.Machine.execMbxAck x0 x1 x2 x3 s = _ from rfl⟩

theorem exec_run_traceEnable x0 x1 x2 : ∃ f : State → State, ∀ s, exec (.traceEnable x0 x1 x2) s = s.run f :=
  ⟨_, fun s => show Sys2Proof.Machine.execTraceEnable x0 x1 x2 s = _ from rfl⟩

theorem exec_run_step x0 x1 : ∃ f : State → State, ∀ s, exec (.step x0 x1) s = s.run f :=
  ⟨_, fun s => show Sys2Proof.Machine.execStep x0 x1 s = _ from rfl⟩

theorem exec_run_enter x0 x1 : ∃ f : State → State, ∀ s, exec (.enter x0 x1) s = s.run f :=
  ⟨_, fun s => show Sys2Proof.Machine.execEnter x0 x1 s = _ from rfl⟩

theorem exec_run_exit x0 x1 : ∃ f : State → State, ∀ s, exec (.exit x0 x1) s = s.run f :=
  ⟨_, fun s => show Sys2Proof.Machine.execExit x0 x1 s = _ from rfl⟩

theorem exec_run_testEntryStop x0 : ∃ f : State → State, ∀ s, exec (.testEntryStop x0) s = s.run f :=
  ⟨_, fun s => show Sys2Proof.Machine.execTestEntryStop x0 s = _ from rfl⟩

theorem exec_run_ledgerClear x0 : ∃ f : State → State, ∀ s, exec (.ledgerClear x0) s = s.run f :=
  ⟨_, fun s => show Sys2Proof.Machine.execLedgerClear x0 s = _ from rfl⟩

theorem exec_run_throttlePeriod x0 : ∃ f : State → State, ∀ s, exec (.throttlePeriod x0) s = s.run f :=
  ⟨_, fun s => show Sys2Proof.Machine.execThrottlePeriod x0 s = _ from rfl⟩

theorem exec_run_throttleAdjust : ∃ f : State → State, ∀ s, exec (.throttleAdjust) s = s.run f :=
  ⟨_, fun s => show Sys2Proof.Machine.execThrottleAdjust s = _ from rfl⟩

theorem exec_run_sendQueueDepart x0 : ∃ f : State → State, ∀ s, exec (.sendQueueDepart x0) s = s.run f :=
  ⟨_, fun s => show Sys2Proof.Machine.execSendQueueDepart x0 s = _ from rfl⟩

theorem exec_run_messageCommit x0 : ∃ f : State → State, ∀ s, exec (.messageCommit x0) s = s.run f :=
  ⟨_, fun s => show Sys2Proof.Machine.execMessageCommit x0 s = _ from rfl⟩

theorem exec_run_waitExpired x0 : ∃ f : State → State, ∀ s, exec (.waitExpired x0) s = s.run f :=
  ⟨_, fun s => show Sys2Proof.Machine.execWaitExpired x0 s = _ from rfl⟩

theorem exec_run_roomCommit x0 : ∃ f : State → State, ∀ s, exec (.roomCommit x0) s = s.run f :=
  ⟨_, fun s => show Sys2Proof.Machine.execRoomCommit x0 s = _ from rfl⟩

theorem exec_run_messageLanded x0 x1 : ∃ f : State → State, ∀ s, exec (.messageLanded x0 x1) s = s.run f :=
  ⟨_, fun s => show Sys2Proof.Machine.execMessageLanded x0 x1 s = _ from rfl⟩

theorem exec_run_queueTimeout x0 : ∃ f : State → State, ∀ s, exec (.queueTimeout x0) s = s.run f :=
  ⟨_, fun s => show Sys2Proof.Machine.execQueueTimeout x0 s = _ from rfl⟩

theorem exec_run_dbMsg x0 x1 x2 x3 : ∃ f : State → State, ∀ s, exec (.dbMsg x0 x1 x2 x3) s = s.run f :=
  ⟨_, fun s => show Sys2Proof.Machine.execDbMsg x0 x1 x2 x3 s = _ from rfl⟩

theorem exec_run_dbWord x0 x1 x2 : ∃ f : State → State, ∀ s, exec (.dbWord x0 x1 x2) s = s.run f :=
  ⟨_, fun s => show Sys2Proof.Machine.execDbWord x0 x1 x2 s = _ from rfl⟩

theorem exec_run_dbHead x0 x1 x2 : ∃ f : State → State, ∀ s, exec (.dbHead x0 x1 x2) s = s.run f :=
  ⟨_, fun s => show Sys2Proof.Machine.execDbHead x0 x1 x2 s = _ from rfl⟩

theorem exec_run_hostRingWrite x0 : ∃ f : State → State, ∀ s, exec (.hostRingWrite x0) s = s.run f :=
  ⟨_, fun s => show Sys2Proof.Machine.execHostRingWrite x0 s = _ from rfl⟩

theorem exec_run_msixModerationExpiry x0 : ∃ f : State → State, ∀ s, exec (.msixModerationExpiry x0) s = s.run f :=
  ⟨_, fun s => show Sys2Proof.Machine.execMsixModerationExpiry x0 s = _ from rfl⟩

theorem exec_run_hrEnSet x0 x1 : ∃ f : State → State, ∀ s, exec (.hrEnSet x0 x1) s = s.run f :=
  ⟨_, fun s => show Sys2Proof.Machine.execHrEnSet x0 x1 s = _ from rfl⟩

theorem exec_run_hrEnClear x0 x1 : ∃ f : State → State, ∀ s, exec (.hrEnClear x0 x1) s = s.run f :=
  ⟨_, fun s => show Sys2Proof.Machine.execHrEnClear x0 x1 s = _ from rfl⟩

theorem exec_run_qmRead : ∃ f : State → State, ∀ s, exec (.qmRead) s = s.run f :=
  ⟨_, fun s => show Sys2Proof.Machine.execQmRead s = _ from rfl⟩

theorem exec_run_qmWrite : ∃ f : State → State, ∀ s, exec (.qmWrite) s = s.run f :=
  ⟨_, fun s => show Sys2Proof.Machine.execQmWrite s = _ from rfl⟩

theorem exec_run_writep : ∃ f : State → State, ∀ s, exec (.writep) s = s.run f :=
  ⟨_, fun s => show Sys2Proof.Machine.execWritep s = _ from rfl⟩

theorem exec_run_outsideWordAccess x0 x1 x2 x3 x4 x5 x6 : ∃ f : State → State, ∀ s, exec (.outsideWordAccess x0 x1 x2 x3 x4 x5 x6) s = s.run f :=
  ⟨_, fun s => show Sys2Proof.Machine.execOutsideWordAccess x0 x1 x2 x3 x4 x5 x6 s = _ from rfl⟩

theorem exec_run_bayScrubRead x0 x1 : ∃ f : State → State, ∀ s, exec (.bayScrubRead x0 x1) s = s.run f :=
  ⟨_, fun s => show Sys2Proof.Machine.execBayScrubRead x0 x1 s = _ from rfl⟩

theorem exec_run_ceWriteback x0 x1 x2 : ∃ f : State → State, ∀ s, exec (.ceWriteback x0 x1 x2) s = s.run f :=
  ⟨_, fun s => show Sys2Proof.Machine.execCeWriteback x0 x1 x2 s = _ from rfl⟩

theorem exec_run_stagingAccess x0 x1 x2 x3 x4 x5 x6 x7 : ∃ f : State → State, ∀ s, exec (.stagingAccess x0 x1 x2 x3 x4 x5 x6 x7) s = s.run f :=
  ⟨_, fun s => show Sys2Proof.Machine.execStagingAccess x0 x1 x2 x3 x4 x5 x6 x7 s = _ from rfl⟩

theorem exec_run_stagingScrubRead x0 x1 : ∃ f : State → State, ∀ s, exec (.stagingScrubRead x0 x1) s = s.run f :=
  ⟨_, fun s => show Sys2Proof.Machine.execStagingScrubRead x0 x1 s = _ from rfl⟩

theorem exec_run_stgOwnWrite x0 x1 : ∃ f : State → State, ∀ s, exec (.stgOwnWrite x0 x1) s = s.run f :=
  ⟨_, fun s => show Sys2Proof.Machine.execStgOwnWrite x0 x1 s = _ from rfl⟩

theorem exec_run_stgOwnApply x0 : ∃ f : State → State, ∀ s, exec (.stgOwnApply x0) s = s.run f :=
  ⟨_, fun s => show Sys2Proof.Machine.execStgOwnApply x0 s = _ from rfl⟩

theorem exec_run_bankWake x0 : ∃ f : State → State, ∀ s, exec (.bankWake x0) s = s.run f :=
  ⟨_, fun s => show Sys2Proof.Machine.execBankWake x0 s = _ from rfl⟩

theorem exec_run_stagingMarchStart x0 x1 : ∃ f : State → State, ∀ s, exec (.stagingMarchStart x0 x1) s = s.run f :=
  ⟨_, fun s => show Sys2Proof.Machine.execStagingMarchStart x0 x1 s = _ from rfl⟩

theorem exec_run_stagingMarchDone x0 x1 x2 : ∃ f : State → State, ∀ s, exec (.stagingMarchDone x0 x1 x2) s = s.run f :=
  ⟨_, fun s => show Sys2Proof.Machine.execStagingMarchDone x0 x1 x2 s = _ from rfl⟩

theorem exec_run_bayMarchStart x0 x1 : ∃ f : State → State, ∀ s, exec (.bayMarchStart x0 x1) s = s.run f :=
  ⟨_, fun s => show Sys2Proof.Machine.execBayMarchStart x0 x1 s = _ from rfl⟩

theorem exec_run_bayMarchDone x0 x1 x2 x3 x4 : ∃ f : State → State, ∀ s, exec (.bayMarchDone x0 x1 x2 x3 x4) s = s.run f :=
  ⟨_, fun s => show Sys2Proof.Machine.execBayMarchDone x0 x1 x2 x3 x4 s = _ from rfl⟩

theorem exec_run_init x0 x1 : ∃ f : State → State, ∀ s, exec (.init x0 x1) s = s.run f :=
  ⟨_, fun s => show Sys2Proof.Machine.execInit x0 x1 s = _ from rfl⟩

theorem exec_run_trainingComplete x0 x1 x2 x3 : ∃ f : State → State, ∀ s, exec (.trainingComplete x0 x1 x2 x3) s = s.run f :=
  ⟨_, fun s => show Sys2Proof.Machine.execTrainingComplete x0 x1 x2 x3 s = _ from rfl⟩

theorem exec_run_srEnter x0 x1 : ∃ f : State → State, ∀ s, exec (.srEnter x0 x1) s = s.run f :=
  ⟨_, fun s => show Sys2Proof.Machine.execSrEnter x0 x1 s = _ from rfl⟩

theorem exec_run_selfrefEntered x0 : ∃ f : State → State, ∀ s, exec (.selfrefEntered x0) s = s.run f :=
  ⟨_, fun s => show Sys2Proof.Machine.execSelfrefEntered x0 s = _ from rfl⟩

theorem exec_run_srExit x0 x1 : ∃ f : State → State, ∀ s, exec (.srExit x0 x1) s = s.run f :=
  ⟨_, fun s => show Sys2Proof.Machine.execSrExit x0 x1 s = _ from rfl⟩

theorem exec_run_selfrefExited x0 : ∃ f : State → State, ∀ s, exec (.selfrefExited x0) s = s.run f :=
  ⟨_, fun s => show Sys2Proof.Machine.execSelfrefExited x0 s = _ from rfl⟩

theorem exec_run_clrmax x0 x1 : ∃ f : State → State, ∀ s, exec (.clrmax x0 x1) s = s.run f :=
  ⟨_, fun s => show Sys2Proof.Machine.execClrmax x0 x1 s = _ from rfl⟩

theorem exec_run_ddr4Request x0 x1 x2 x3 x4 x5 x6 x7 : ∃ f : State → State, ∀ s, exec (.ddr4Request x0 x1 x2 x3 x4 x5 x6 x7) s = s.run f :=
  ⟨_, fun s => show Sys2Proof.Machine.execDdr4Request x0 x1 x2 x3 x4 x5 x6 x7 s = _ from rfl⟩

theorem exec_run_refreshEpisode x0 x1 : ∃ f : State → State, ∀ s, exec (.refreshEpisode x0 x1) s = s.run f :=
  ⟨_, fun s => show Sys2Proof.Machine.execRefreshEpisode x0 x1 s = _ from rfl⟩

theorem exec_run_refreshEnd x0 x1 x2 : ∃ f : State → State, ∀ s, exec (.refreshEnd x0 x1 x2) s = s.run f :=
  ⟨_, fun s => show Sys2Proof.Machine.execRefreshEnd x0 x1 x2 s = _ from rfl⟩

theorem exec_run_zqcs x0 x1 : ∃ f : State → State, ∀ s, exec (.zqcs x0 x1) s = s.run f :=
  ⟨_, fun s => show Sys2Proof.Machine.execZqcs x0 x1 s = _ from rfl⟩

theorem exec_run_caParityAlert x0 : ∃ f : State → State, ∀ s, exec (.caParityAlert x0) s = s.run f :=
  ⟨_, fun s => show Sys2Proof.Machine.execCaParityAlert x0 s = _ from rfl⟩

theorem exec_run_dimmTempPoll x0 x1 x2 : ∃ f : State → State, ∀ s, exec (.dimmTempPoll x0 x1 x2) s = s.run f :=
  ⟨_, fun s => show Sys2Proof.Machine.execDimmTempPoll x0 x1 x2 s = _ from rfl⟩

theorem exec_run_retrainSlice x0 x1 : ∃ f : State → State, ∀ s, exec (.retrainSlice x0 x1) s = s.run f :=
  ⟨_, fun s => show Sys2Proof.Machine.execRetrainSlice x0 x1 s = _ from rfl⟩

theorem exec_run_epochBoundary : ∃ f : State → State, ∀ s, exec (.epochBoundary) s = s.run f :=
  ⟨_, fun s => show Sys2Proof.Machine.execEpochBoundary s = _ from rfl⟩

theorem exec_run_pageCopyPassDone x0 x1 x2 : ∃ f : State → State, ∀ s, exec (.pageCopyPassDone x0 x1 x2) s = s.run f :=
  ⟨_, fun s => show Sys2Proof.Machine.execPageCopyPassDone x0 x1 x2 s = _ from rfl⟩

theorem exec_run_fenceAcknowledged x0 x1 : ∃ f : State → State, ∀ s, exec (.fenceAcknowledged x0 x1) s = s.run f :=
  ⟨_, fun s => show Sys2Proof.Machine.execFenceAcknowledged x0 x1 s = _ from rfl⟩

theorem exec_run_pageMoveComplete x0 x1 x2 x3 : ∃ f : State → State, ∀ s, exec (.pageMoveComplete x0 x1 x2 x3) s = s.run f :=
  ⟨_, fun s => show Sys2Proof.Machine.execPageMoveComplete x0 x1 x2 x3 s = _ from rfl⟩

theorem exec_run_taskMoveDrained x0 : ∃ f : State → State, ∀ s, exec (.taskMoveDrained x0) s = s.run f :=
  ⟨_, fun s => show Sys2Proof.Machine.execTaskMoveDrained x0 s = _ from rfl⟩

theorem exec_run_taskMoveComplete x0 : ∃ f : State → State, ∀ s, exec (.taskMoveComplete x0) s = s.run f :=
  ⟨_, fun s => show Sys2Proof.Machine.execTaskMoveComplete x0 s = _ from rfl⟩

theorem exec_run_migwaitExpiry x0 : ∃ f : State → State, ∀ s, exec (.migwaitExpiry x0) s = s.run f :=
  ⟨_, fun s => show Sys2Proof.Machine.execMigwaitExpiry x0 s = _ from rfl⟩

theorem exec_run_tcmdRead : ∃ f : State → State, ∀ s, exec (.tcmdRead) s = s.run f :=
  ⟨_, fun s => show Sys2Proof.Machine.execTcmdRead s = _ from rfl⟩

theorem exec_run_tcmdWrite : ∃ f : State → State, ∀ s, exec (.tcmdWrite) s = s.run f :=
  ⟨_, fun s => show Sys2Proof.Machine.execTcmdWrite s = _ from rfl⟩

theorem exec_run_place : ∃ f : State → State, ∀ s, exec (.place) s = s.run f :=
  ⟨_, fun s => show Sys2Proof.Machine.execPlace s = _ from rfl⟩

theorem exec_run_tcmdMove : ∃ f : State → State, ∀ s, exec (.tcmdMove) s = s.run f :=
  ⟨_, fun s => show Sys2Proof.Machine.execTcmdMove s = _ from rfl⟩

theorem exec_run_unplace : ∃ f : State → State, ∀ s, exec (.unplace) s = s.run f :=
  ⟨_, fun s => show Sys2Proof.Machine.execUnplace s = _ from rfl⟩

theorem exec_run_pcmdRead : ∃ f : State → State, ∀ s, exec (.pcmdRead) s = s.run f :=
  ⟨_, fun s => show Sys2Proof.Machine.execPcmdRead s = _ from rfl⟩

theorem exec_run_pcmdMove : ∃ f : State → State, ∀ s, exec (.pcmdMove) s = s.run f :=
  ⟨_, fun s => show Sys2Proof.Machine.execPcmdMove s = _ from rfl⟩

theorem exec_run_twrite : ∃ f : State → State, ∀ s, exec (.twrite) s = s.run f :=
  ⟨_, fun s => show Sys2Proof.Machine.execTwrite s = _ from rfl⟩

theorem exec_run_scrEvac x0 : ∃ f : State → State, ∀ s, exec (.scrEvac x0) s = s.run f :=
  ⟨_, fun s => show Sys2Proof.Machine.execScrEvac x0 s = _ from rfl⟩

theorem exec_run_scrEvbay x0 : ∃ f : State → State, ∀ s, exec (.scrEvbay x0) s = s.run f :=
  ⟨_, fun s => show Sys2Proof.Machine.execScrEvbay x0 s = _ from rfl⟩

theorem exec_run_scrBankrel x0 : ∃ f : State → State, ∀ s, exec (.scrBankrel x0) s = s.run f :=
  ⟨_, fun s => show Sys2Proof.Machine.execScrBankrel x0 s = _ from rfl⟩

theorem exec_run_raise : ∃ f : State → State, ∀ s, exec (.raise) s = s.run f :=
  ⟨_, fun s => show Sys2Proof.Machine.execRaise s = _ from rfl⟩

theorem exec_run_rebent : ∃ f : State → State, ∀ s, exec (.rebent) s = s.run f :=
  ⟨_, fun s => show Sys2Proof.Machine.execRebent s = _ from rfl⟩

theorem exec_run_rebay : ∃ f : State → State, ∀ s, exec (.rebay) s = s.run f :=
  ⟨_, fun s => show Sys2Proof.Machine.execRebay s = _ from rfl⟩

theorem exec_run_abort : ∃ f : State → State, ∀ s, exec (.abort) s = s.run f :=
  ⟨_, fun s => show Sys2Proof.Machine.execAbort s = _ from rfl⟩

theorem exec_run_raiseStepComplete x0 : ∃ f : State → State, ∀ s, exec (.raiseStepComplete x0) s = s.run f :=
  ⟨_, fun s => show Sys2Proof.Machine.execRaiseStepComplete x0 s = _ from rfl⟩

theorem exec_run_bayEnterRun x0 : ∃ f : State → State, ∀ s, exec (.bayEnterRun x0) s = s.run f :=
  ⟨_, fun s => show Sys2Proof.Machine.execBayEnterRun x0 s = _ from rfl⟩

theorem exec_run_portEnable x0 x1 : ∃ f : State → State, ∀ s, exec (.portEnable x0 x1) s = s.run f :=
  ⟨_, fun s => show Sys2Proof.Machine.execPortEnable x0 x1 s = _ from rfl⟩

theorem exec_run_portDisable x0 x1 : ∃ f : State → State, ∀ s, exec (.portDisable x0 x1) s = s.run f :=
  ⟨_, fun s => show Sys2Proof.Machine.execPortDisable x0 x1 s = _ from rfl⟩

theorem exec_run_linkTrainingDone x0 x1 x2 x3 x4 x5 : ∃ f : State → State, ∀ s, exec (.linkTrainingDone x0 x1 x2 x3 x4 x5) s = s.run f :=
  ⟨_, fun s => show Sys2Proof.Machine.execLinkTrainingDone x0 x1 x2 x3 x4 x5 s = _ from rfl⟩

theorem exec_run_trainingRetry x0 : ∃ f : State → State, ∀ s, exec (.trainingRetry x0) s = s.run f :=
  ⟨_, fun s => show Sys2Proof.Machine.execTrainingRetry x0 s = _ from rfl⟩

theorem exec_run_null x0 x1 : ∃ f : State → State, ∀ s, exec (.null x0 x1) s = s.run f :=
  ⟨_, fun s => show Sys2Proof.Machine.execNull x0 x1 s = _ from rfl⟩

theorem exec_run_qcell x0 x1 x2 : ∃ f : State → State, ∀ s, exec (.qcell x0 x1 x2) s = s.run f :=
  ⟨_, fun s => show Sys2Proof.Machine.execQcell x0 x1 x2 s = _ from rfl⟩

theorem exec_run_pread x0 x1 x2 x3 : ∃ f : State → State, ∀ s, exec (.pread x0 x1 x2 x3) s = s.run f :=
  ⟨_, fun s => show Sys2Proof.Machine.execPread x0 x1 x2 x3 s = _ from rfl⟩

theorem exec_run_pwrite x0 x1 x2 x3 : ∃ f : State → State, ∀ s, exec (.pwrite x0 x1 x2 x3) s = s.run f :=
  ⟨_, fun s => show Sys2Proof.Machine.execPwrite x0 x1 x2 x3 s = _ from rfl⟩

theorem exec_run_pcomp x0 x1 x2 x3 : ∃ f : State → State, ∀ s, exec (.pcomp x0 x1 x2 x3) s = s.run f :=
  ⟨_, fun s => show Sys2Proof.Machine.execPcomp x0 x1 x2 x3 s = _ from rfl⟩

theorem exec_run_perr x0 x1 x2 x3 : ∃ f : State → State, ∀ s, exec (.perr x0 x1 x2 x3) s = s.run f :=
  ⟨_, fun s => show Sys2Proof.Machine.execPerr x0 x1 x2 x3 s = _ from rfl⟩

theorem exec_run_fence x0 x1 x2 x3 : ∃ f : State → State, ∀ s, exec (.fence x0 x1 x2 x3) s = s.run f :=
  ⟨_, fun s => show Sys2Proof.Machine.execFence x0 x1 x2 x3 s = _ from rfl⟩

theorem exec_run_fenceAck x0 x1 x2 : ∃ f : State → State, ∀ s, exec (.fenceAck x0 x1 x2) s = s.run f :=
  ⟨_, fun s => show Sys2Proof.Machine.execFenceAck x0 x1 x2 s = _ from rfl⟩

theorem exec_run_qrefuse x0 x1 x2 : ∃ f : State → State, ∀ s, exec (.qrefuse x0 x1 x2) s = s.run f :=
  ⟨_, fun s => show Sys2Proof.Machine.execQrefuse x0 x1 x2 s = _ from rfl⟩

theorem exec_run_lstate x0 x1 x2 : ∃ f : State → State, ∀ s, exec (.lstate x0 x1 x2) s = s.run f :=
  ⟨_, fun s => show Sys2Proof.Machine.execLstate x0 x1 x2 s = _ from rfl⟩

theorem exec_run_tsyncReq x0 x1 x2 x3 : ∃ f : State → State, ∀ s, exec (.tsyncReq x0 x1 x2 x3) s = s.run f :=
  ⟨_, fun s => show Sys2Proof.Machine.execTsyncReq x0 x1 x2 x3 s = _ from rfl⟩

theorem exec_run_tsyncRsp x0 x1 x2 x3 x4 : ∃ f : State → State, ∀ s, exec (.tsyncRsp x0 x1 x2 x3 x4) s = s.run f :=
  ⟨_, fun s => show Sys2Proof.Machine.execTsyncRsp x0 x1 x2 x3 x4 s = _ from rfl⟩

theorem exec_run_reservedFlit x0 x1 : ∃ f : State → State, ∀ s, exec (.reservedFlit x0 x1) s = s.run f :=
  ⟨_, fun s => show Sys2Proof.Machine.execReservedFlit x0 x1 s = _ from rfl⟩

theorem exec_run_replayTimeout x0 : ∃ f : State → State, ∀ s, exec (.replayTimeout x0) s = s.run f :=
  ⟨_, fun s => show Sys2Proof.Machine.execReplayTimeout x0 s = _ from rfl⟩

theorem exec_run_creditStall x0 : ∃ f : State → State, ∀ s, exec (.creditStall x0) s = s.run f :=
  ⟨_, fun s => show Sys2Proof.Machine.execCreditStall x0 s = _ from rfl⟩

theorem exec_run_lossOfSignal x0 : ∃ f : State → State, ∀ s, exec (.lossOfSignal x0) s = s.run f :=
  ⟨_, fun s => show Sys2Proof.Machine.execLossOfSignal x0 s = _ from rfl⟩

theorem exec_run_rtRead : ∃ f : State → State, ∀ s, exec (.rtRead) s = s.run f :=
  ⟨_, fun s => show Sys2Proof.Machine.execRtRead s = _ from rfl⟩

theorem exec_run_rtWrite : ∃ f : State → State, ∀ s, exec (.rtWrite) s = s.run f :=
  ⟨_, fun s => show Sys2Proof.Machine.execRtWrite s = _ from rfl⟩

theorem exec_run_update : ∃ f : State → State, ∀ s, exec (.update) s = s.run f :=
  ⟨_, fun s => show Sys2Proof.Machine.execUpdate s = _ from rfl⟩

theorem exec_run_updateForced : ∃ f : State → State, ∀ s, exec (.updateForced) s = s.run f :=
  ⟨_, fun s => show Sys2Proof.Machine.execUpdateForced s = _ from rfl⟩

theorem exec_run_pwRead : ∃ f : State → State, ∀ s, exec (.pwRead) s = s.run f :=
  ⟨_, fun s => show Sys2Proof.Machine.execPwRead s = _ from rfl⟩

theorem exec_run_pwWrite : ∃ f : State → State, ∀ s, exec (.pwWrite) s = s.run f :=
  ⟨_, fun s => show Sys2Proof.Machine.execPwWrite s = _ from rfl⟩

theorem exec_run_scfDevidWrite x0 : ∃ f : State → State, ∀ s, exec (.scfDevidWrite x0) s = s.run f :=
  ⟨_, fun s => show Sys2Proof.Machine.execScfDevidWrite x0 s = _ from rfl⟩

theorem exec_run_scfTset x0 : ∃ f : State → State, ∀ s, exec (.scfTset x0) s = s.run f :=
  ⟨_, fun s => show Sys2Proof.Machine.execScfTset x0 s = _ from rfl⟩

theorem exec_run_tsyncExchange x0 : ∃ f : State → State, ∀ s, exec (.tsyncExchange x0) s = s.run f :=
  ⟨_, fun s => show Sys2Proof.Machine.execTsyncExchange x0 s = _ from rfl⟩

theorem exec_run_adaptSlice x0 : ∃ f : State → State, ∀ s, exec (.adaptSlice x0) s = s.run f :=
  ⟨_, fun s => show Sys2Proof.Machine.execAdaptSlice x0 s = _ from rfl⟩

theorem exec_run_bar0Request x0 x1 x2 x3 x4 x5 x6 : ∃ f : State → State, ∀ s, exec (.bar0Request x0 x1 x2 x3 x4 x5 x6) s = s.run f :=
  ⟨_, fun s => show Sys2Proof.Machine.execBar0Request x0 x1 x2 x3 x4 x5 x6 s = _ from rfl⟩

theorem exec_run_bar4Read x0 x1 : ∃ f : State → State, ∀ s, exec (.bar4Read x0 x1) s = s.run f :=
  ⟨_, fun s => show Sys2Proof.Machine.execBar4Read x0 x1 s = _ from rfl⟩

theorem exec_run_bar4Write x0 x1 x2 x3 : ∃ f : State → State, ∀ s, exec (.bar4Write x0 x1 x2 x3) s = s.run f :=
  ⟨_, fun s => show Sys2Proof.Machine.execBar4Write x0 x1 x2 x3 s = _ from rfl⟩

theorem exec_run_malformedTlp x0 : ∃ f : State → State, ∀ s, exec (.malformedTlp x0) s = s.run f :=
  ⟨_, fun s => show Sys2Proof.Machine.execMalformedTlp x0 s = _ from rfl⟩

theorem exec_run_msixEnable x0 x1 : ∃ f : State → State, ∀ s, exec (.msixEnable x0 x1) s = s.run f :=
  ⟨_, fun s => show Sys2Proof.Machine.execMsixEnable x0 x1 s = _ from rfl⟩

theorem exec_run_msixUnmask x0 : ∃ f : State → State, ∀ s, exec (.msixUnmask x0) s = s.run f :=
  ⟨_, fun s => show Sys2Proof.Machine.execMsixUnmask x0 s = _ from rfl⟩

theorem exec_run_pcieLinkUp x0 x1 : ∃ f : State → State, ∀ s, exec (.pcieLinkUp x0 x1) s = s.run f :=
  ⟨_, fun s => show Sys2Proof.Machine.execPcieLinkUp x0 x1 s = _ from rfl⟩

theorem exec_run_ethFrameReceive x0 x1 x2 x3 : ∃ f : State → State, ∀ s, exec (.ethFrameReceive x0 x1 x2 x3) s = s.run f :=
  ⟨_, fun s => show Sys2Proof.Machine.execEthFrameReceive x0 x1 x2 x3 s = _ from rfl⟩

theorem exec_run_ethTransmit x0 : ∃ f : State → State, ∀ s, exec (.ethTransmit x0) s = s.run f :=
  ⟨_, fun s => show Sys2Proof.Machine.execEthTransmit x0 s = _ from rfl⟩

theorem exec_run_ethTransmitDone x0 x1 : ∃ f : State → State, ∀ s, exec (.ethTransmitDone x0 x1) s = s.run f :=
  ⟨_, fun s => show Sys2Proof.Machine.execEthTransmitDone x0 x1 s = _ from rfl⟩

theorem exec_run_ethLinkUp x0 : ∃ f : State → State, ∀ s, exec (.ethLinkUp x0) s = s.run f :=
  ⟨_, fun s => show Sys2Proof.Machine.execEthLinkUp x0 s = _ from rfl⟩

theorem exec_run_ethLinkDown x0 : ∃ f : State → State, ∀ s, exec (.ethLinkDown x0) s = s.run f :=
  ⟨_, fun s => show Sys2Proof.Machine.execEthLinkDown x0 s = _ from rfl⟩

theorem exec_run_ethEnable x0 x1 : ∃ f : State → State, ∀ s, exec (.ethEnable x0 x1) s = s.run f :=
  ⟨_, fun s => show Sys2Proof.Machine.execEthEnable x0 x1 s = _ from rfl⟩

theorem exec_run_crossbarBurst x0 x1 x2 x3 : ∃ f : State → State, ∀ s, exec (.crossbarBurst x0 x1 x2 x3) s = s.run f :=
  ⟨_, fun s => show Sys2Proof.Machine.execCrossbarBurst x0 x1 x2 x3 s = _ from rfl⟩

theorem exec_run_remap x0 : ∃ f : State → State, ∀ s, exec (.remap x0) s = s.run f :=
  ⟨_, fun s => show Sys2Proof.Machine.execRemap x0 s = _ from rfl⟩

theorem exec_run_bootOk : ∃ f : State → State, ∀ s, exec (.bootOk) s = s.run f :=
  ⟨_, fun s => show Sys2Proof.Machine.execBootOk s = _ from rfl⟩

theorem exec_run_bootFail : ∃ f : State → State, ∀ s, exec (.bootFail) s = s.run f :=
  ⟨_, fun s => show Sys2Proof.Machine.execBootFail s = _ from rfl⟩

theorem exec_run_bootWindowExpiry : ∃ f : State → State, ∀ s, exec (.bootWindowExpiry) s = s.run f :=
  ⟨_, fun s => show Sys2Proof.Machine.execBootWindowExpiry s = _ from rfl⟩

theorem exec_run_mxhPost x0 : ∃ f : State → State, ∀ s, exec (.mxhPost x0) s = s.run f :=
  ⟨_, fun s => show Sys2Proof.Machine.execMxhPost x0 s = _ from rfl⟩

theorem exec_run_mxhDone x0 : ∃ f : State → State, ∀ s, exec (.mxhDone x0) s = s.run f :=
  ⟨_, fun s => show Sys2Proof.Machine.execMxhDone x0 s = _ from rfl⟩

theorem exec_run_mxhStatus : ∃ f : State → State, ∀ s, exec (.mxhStatus) s = s.run f :=
  ⟨_, fun s => show Sys2Proof.Machine.execMxhStatus s = _ from rfl⟩

theorem exec_run_flashRead x0 : ∃ f : State → State, ∀ s, exec (.flashRead x0) s = s.run f :=
  ⟨_, fun s => show Sys2Proof.Machine.execFlashRead x0 s = _ from rfl⟩

theorem exec_run_flashWrite x0 : ∃ f : State → State, ∀ s, exec (.flashWrite x0) s = s.run f :=
  ⟨_, fun s => show Sys2Proof.Machine.execFlashWrite x0 s = _ from rfl⟩

theorem exec_run_flashErase x0 : ∃ f : State → State, ∀ s, exec (.flashErase x0) s = s.run f :=
  ⟨_, fun s => show Sys2Proof.Machine.execFlashErase x0 s = _ from rfl⟩

theorem exec_run_leaveShoring : ∃ f : State → State, ∀ s, exec (.leaveShoring) s = s.run f :=
  ⟨_, fun s => show Sys2Proof.Machine.execLeaveShoring s = _ from rfl⟩

theorem exec_run_romRaise x0 : ∃ f : State → State, ∀ s, exec (.romRaise x0) s = s.run f :=
  ⟨_, fun s => show Sys2Proof.Machine.execRomRaise x0 s = _ from rfl⟩

theorem exec_run_xspiGo x0 : ∃ f : State → State, ∀ s, exec (.xspiGo x0) s = s.run f :=
  ⟨_, fun s => show Sys2Proof.Machine.execXspiGo x0 s = _ from rfl⟩

theorem exec_run_xspiCmdDone x0 x1 x2 : ∃ f : State → State, ∀ s, exec (.xspiCmdDone x0 x1 x2) s = s.run f :=
  ⟨_, fun s => show Sys2Proof.Machine.execXspiCmdDone x0 x1 x2 s = _ from rfl⟩

theorem exec_run_xspiDataRead : ∃ f : State → State, ∀ s, exec (.xspiDataRead) s = s.run f :=
  ⟨_, fun s => show Sys2Proof.Machine.execXspiDataRead s = _ from rfl⟩

theorem exec_run_smbGo x0 : ∃ f : State → State, ∀ s, exec (.smbGo x0) s = s.run f :=
  ⟨_, fun s => show Sys2Proof.Machine.execSmbGo x0 s = _ from rfl⟩

theorem exec_run_smbXferDone x0 x1 x2 : ∃ f : State → State, ∀ s, exec (.smbXferDone x0 x1 x2) s = s.run f :=
  ⟨_, fun s => show Sys2Proof.Machine.execSmbXferDone x0 x1 x2 s = _ from rfl⟩

theorem exec_run_smbTargetRx x0 x1 : ∃ f : State → State, ∀ s, exec (.smbTargetRx x0 x1) s = s.run f :=
  ⟨_, fun s => show Sys2Proof.Machine.execSmbTargetRx x0 x1 s = _ from rfl⟩

theorem exec_run_smbDataRead : ∃ f : State → State, ∀ s, exec (.smbDataRead) s = s.run f :=
  ⟨_, fun s => show Sys2Proof.Machine.execSmbDataRead s = _ from rfl⟩

theorem exec_run_uartDataRead : ∃ f : State → State, ∀ s, exec (.uartDataRead) s = s.run f :=
  ⟨_, fun s => show Sys2Proof.Machine.execUartDataRead s = _ from rfl⟩

theorem exec_run_uartRxByte x0 x1 : ∃ f : State → State, ∀ s, exec (.uartRxByte x0 x1) s = s.run f :=
  ⟨_, fun s => show Sys2Proof.Machine.execUartRxByte x0 x1 s = _ from rfl⟩

theorem exec_run_gpioEdge x0 : ∃ f : State → State, ∀ s, exec (.gpioEdge x0) s = s.run f :=
  ⟨_, fun s => show Sys2Proof.Machine.execGpioEdge x0 s = _ from rfl⟩

theorem exec_run_por : ∃ f : State → State, ∀ s, exec (.por) s = s.run f :=
  ⟨_, fun s => show Sys2Proof.Machine.execPor s = _ from rfl⟩

theorem exec_run_tamper : ∃ f : State → State, ∀ s, exec (.tamper) s = s.run f :=
  ⟨_, fun s => show Sys2Proof.Machine.execTamper s = _ from rfl⟩

theorem exec_run_coldpin : ∃ f : State → State, ∀ s, exec (.coldpin) s = s.run f :=
  ⟨_, fun s => show Sys2Proof.Machine.execColdpin s = _ from rfl⟩

theorem exec_run_rail : ∃ f : State → State, ∀ s, exec (.rail) s = s.run f :=
  ⟨_, fun s => show Sys2Proof.Machine.execRail s = _ from rfl⟩

theorem exec_run_wdog : ∃ f : State → State, ∀ s, exec (.wdog) s = s.run f :=
  ⟨_, fun s => show Sys2Proof.Machine.execWdog s = _ from rfl⟩

theorem exec_run_swrst x0 x1 : ∃ f : State → State, ∀ s, exec (.swrst x0 x1) s = s.run f :=
  ⟨_, fun s => show Sys2Proof.Machine.execSwrst x0 x1 s = _ from rfl⟩

theorem exec_run_rstSwCold x0 x1 : ∃ f : State → State, ∀ s, exec (.rstSwCold x0 x1) s = s.run f :=
  ⟨_, fun s => show Sys2Proof.Machine.execRstSwCold x0 x1 s = _ from rfl⟩

theorem exec_run_failstart : ∃ f : State → State, ∀ s, exec (.failstart) s = s.run f :=
  ⟨_, fun s => show Sys2Proof.Machine.execFailstart s = _ from rfl⟩

theorem exec_run_perst : ∃ f : State → State, ∀ s, exec (.perst) s = s.run f :=
  ⟨_, fun s => show Sys2Proof.Machine.execPerst s = _ from rfl⟩

theorem exec_run_hotrst : ∃ f : State → State, ∀ s, exec (.hotrst) s = s.run f :=
  ⟨_, fun s => show Sys2Proof.Machine.execHotrst s = _ from rfl⟩

theorem exec_run_dldown : ∃ f : State → State, ∀ s, exec (.dldown) s = s.run f :=
  ⟨_, fun s => show Sys2Proof.Machine.execDldown s = _ from rfl⟩

theorem exec_run_rstBent x0 : ∃ f : State → State, ∀ s, exec (.rstBent x0) s = s.run f :=
  ⟨_, fun s => show Sys2Proof.Machine.execRstBent x0 s = _ from rfl⟩

theorem exec_run_rstBay x0 : ∃ f : State → State, ∀ s, exec (.rstBay x0) s = s.run f :=
  ⟨_, fun s => show Sys2Proof.Machine.execRstBay x0 s = _ from rfl⟩

theorem exec_run_rstBlock x0 : ∃ f : State → State, ∀ s, exec (.rstBlock x0) s = s.run f :=
  ⟨_, fun s => show Sys2Proof.Machine.execRstBlock x0 s = _ from rfl⟩

theorem exec_run_resetSourceRelease x0 : ∃ f : State → State, ∀ s, exec (.resetSourceRelease x0) s = s.run f :=
  ⟨_, fun s => show Sys2Proof.Machine.execResetSourceRelease x0 s = _ from rfl⟩

theorem exec_run_exitSequenceDone x0 : ∃ f : State → State, ∀ s, exec (.exitSequenceDone x0) s = s.run f :=
  ⟨_, fun s => show Sys2Proof.Machine.execExitSequenceDone x0 s = _ from rfl⟩

theorem exec_run_wrapperDrained : ∃ f : State → State, ∀ s, exec (.wrapperDrained) s = s.run f :=
  ⟨_, fun s => show Sys2Proof.Machine.execWrapperDrained s = _ from rfl⟩

theorem exec_run_trimStart x0 : ∃ f : State → State, ∀ s, exec (.trimStart x0) s = s.run f :=
  ⟨_, fun s => show Sys2Proof.Machine.execTrimStart x0 s = _ from rfl⟩

theorem exec_run_trimLoadDone x0 : ∃ f : State → State, ∀ s, exec (.trimLoadDone x0) s = s.run f :=
  ⟨_, fun s => show Sys2Proof.Machine.execTrimLoadDone x0 s = _ from rfl⟩

theorem exec_run_wdgEnable x0 : ∃ f : State → State, ∀ s, exec (.wdgEnable x0) s = s.run f :=
  ⟨_, fun s => show Sys2Proof.Machine.execWdgEnable x0 s = _ from rfl⟩

theorem exec_run_wdgKick x0 : ∃ f : State → State, ∀ s, exec (.wdgKick x0) s = s.run f :=
  ⟨_, fun s => show Sys2Proof.Machine.execWdgKick x0 s = _ from rfl⟩

theorem exec_run_pwrCtlWrite x0 : ∃ f : State → State, ∀ s, exec (.pwrCtlWrite x0) s = s.run f :=
  ⟨_, fun s => show Sys2Proof.Machine.execPwrCtlWrite x0 s = _ from rfl⟩

theorem exec_run_pwrRetWrite x0 : ∃ f : State → State, ∀ s, exec (.pwrRetWrite x0) s = s.run f :=
  ⟨_, fun s => show Sys2Proof.Machine.execPwrRetWrite x0 s = _ from rfl⟩

theorem exec_run_domainTransitionDone x0 : ∃ f : State → State, ∀ s, exec (.domainTransitionDone x0) s = s.run f :=
  ⟨_, fun s => show Sys2Proof.Machine.execDomainTransitionDone x0 s = _ from rfl⟩

theorem exec_run_pllLossOfLock x0 : ∃ f : State → State, ∀ s, exec (.pllLossOfLock x0) s = s.run f :=
  ⟨_, fun s => show Sys2Proof.Machine.execPllLossOfLock x0 s = _ from rfl⟩

theorem exec_run_thermalSample x0 : ∃ f : State → State, ∀ s, exec (.thermalSample x0) s = s.run f :=
  ⟨_, fun s => show Sys2Proof.Machine.execThermalSample x0 s = _ from rfl⟩

theorem exec_run_secPost x0 x1 : ∃ f : State → State, ∀ s, exec (.secPost x0 x1) s = s.run f :=
  ⟨_, fun s => show Sys2Proof.Machine.execSecPost x0 x1 s = _ from rfl⟩

theorem exec_run_secStatus x0 : ∃ f : State → State, ∀ s, exec (.secStatus x0) s = s.run f :=
  ⟨_, fun s => show Sys2Proof.Machine.execSecStatus x0 s = _ from rfl⟩

theorem exec_run_selftest x0 : ∃ f : State → State, ∀ s, exec (.selftest x0) s = s.run f :=
  ⟨_, fun s => show Sys2Proof.Machine.execSelftest x0 s = _ from rfl⟩

theorem exec_run_selftestComplete x0 : ∃ f : State → State, ∀ s, exec (.selftestComplete x0) s = s.run f :=
  ⟨_, fun s => show Sys2Proof.Machine.execSelftestComplete x0 s = _ from rfl⟩

theorem exec_run_zeroise x0 : ∃ f : State → State, ∀ s, exec (.zeroise x0) s = s.run f :=
  ⟨_, fun s => show Sys2Proof.Machine.execZeroise x0 s = _ from rfl⟩

theorem exec_run_zeroisationComplete : ∃ f : State → State, ∀ s, exec (.zeroisationComplete) s = s.run f :=
  ⟨_, fun s => show Sys2Proof.Machine.execZeroisationComplete s = _ from rfl⟩

theorem exec_run_getnonce x0 : ∃ f : State → State, ∀ s, exec (.getnonce x0) s = s.run f :=
  ⟨_, fun s => show Sys2Proof.Machine.execGetnonce x0 s = _ from rfl⟩

theorem exec_run_auth x0 x1 x2 x3 : ∃ f : State → State, ∀ s, exec (.auth x0 x1 x2 x3) s = s.run f :=
  ⟨_, fun s => show Sys2Proof.Machine.execAuth x0 x1 x2 x3 s = _ from rfl⟩

theorem exec_run_logout x0 : ∃ f : State → State, ∀ s, exec (.logout x0) s = s.run f :=
  ⟨_, fun s => show Sys2Proof.Machine.execLogout x0 s = _ from rfl⟩

theorem exec_run_unlock x0 : ∃ f : State → State, ∀ s, exec (.unlock x0) s = s.run f :=
  ⟨_, fun s => show Sys2Proof.Machine.execUnlock x0 s = _ from rfl⟩

theorem exec_run_secHash x0 x1 x2 x3 : ∃ f : State → State, ∀ s, exec (.secHash x0 x1 x2 x3) s = s.run f :=
  ⟨_, fun s => show Sys2Proof.Machine.execSecHash x0 x1 x2 x3 s = _ from rfl⟩

theorem exec_run_hmac x0 x1 x2 x3 x4 : ∃ f : State → State, ∀ s, exec (.hmac x0 x1 x2 x3 x4) s = s.run f :=
  ⟨_, fun s => show Sys2Proof.Machine.execHmac x0 x1 x2 x3 x4 s = _ from rfl⟩

theorem exec_run_gcmEnc x0 x1 x2 x3 x4 x5 : ∃ f : State → State, ∀ s, exec (.gcmEnc x0 x1 x2 x3 x4 x5) s = s.run f :=
  ⟨_, fun s => show Sys2Proof.Machine.execGcmEnc x0 x1 x2 x3 x4 x5 s = _ from rfl⟩

theorem exec_run_gcmDec x0 x1 x2 x3 x4 x5 x6 x7 : ∃ f : State → State, ∀ s, exec (.gcmDec x0 x1 x2 x3 x4 x5 x6 x7) s = s.run f :=
  ⟨_, fun s => show Sys2Proof.Machine.execGcmDec x0 x1 x2 x3 x4 x5 x6 x7 s = _ from rfl⟩

theorem exec_run_xtsEnc x0 x1 x2 x3 x4 x5 x6 : ∃ f : State → State, ∀ s, exec (.xtsEnc x0 x1 x2 x3 x4 x5 x6) s = s.run f :=
  ⟨_, fun s => show Sys2Proof.Machine.execXtsEnc x0 x1 x2 x3 x4 x5 x6 s = _ from rfl⟩

theorem exec_run_xtsDec x0 x1 x2 x3 x4 x5 x6 : ∃ f : State → State, ∀ s, exec (.xtsDec x0 x1 x2 x3 x4 x5 x6) s = s.run f :=
  ⟨_, fun s => show Sys2Proof.Machine.execXtsDec x0 x1 x2 x3 x4 x5 x6 s = _ from rfl⟩

theorem exec_run_sign x0 x1 x2 x3 : ∃ f : State → State, ∀ s, exec (.sign x0 x1 x2 x3) s = s.run f :=
  ⟨_, fun s => show Sys2Proof.Machine.execSign x0 x1 x2 x3 s = _ from rfl⟩

theorem exec_run_verify x0 x1 x2 x3 x4 : ∃ f : State → State, ∀ s, exec (.verify x0 x1 x2 x3 x4) s = s.run f :=
  ⟨_, fun s => show Sys2Proof.Machine.execVerify x0 x1 x2 x3 x4 s = _ from rfl⟩

theorem exec_run_ecdh x0 x1 x2 : ∃ f : State → State, ∀ s, exec (.ecdh x0 x1 x2) s = s.run f :=
  ⟨_, fun s => show Sys2Proof.Machine.execEcdh x0 x1 x2 s = _ from rfl⟩

theorem exec_run_keygen x0 x1 x2 x3 : ∃ f : State → State, ∀ s, exec (.keygen x0 x1 x2 x3) s = s.run f :=
  ⟨_, fun s => show Sys2Proof.Machine.execKeygen x0 x1 x2 x3 s = _ from rfl⟩

theorem exec_run_wrap x0 x1 x2 : ∃ f : State → State, ∀ s, exec (.wrap x0 x1 x2) s = s.run f :=
  ⟨_, fun s => show Sys2Proof.Machine.execWrap x0 x1 x2 s = _ from rfl⟩

theorem exec_run_unwrap x0 x1 x2 x3 x4 : ∃ f : State → State, ∀ s, exec (.unwrap x0 x1 x2 x3 x4) s = s.run f :=
  ⟨_, fun s => show Sys2Proof.Machine.execUnwrap x0 x1 x2 x3 x4 s = _ from rfl⟩

theorem exec_run_keydel x0 x1 : ∃ f : State → State, ∀ s, exec (.keydel x0 x1) s = s.run f :=
  ⟨_, fun s => show Sys2Proof.Machine.execKeydel x0 x1 s = _ from rfl⟩

theorem exec_run_random x0 x1 x2 : ∃ f : State → State, ∀ s, exec (.random x0 x1 x2) s = s.run f :=
  ⟨_, fun s => show Sys2Proof.Machine.execRandom x0 x1 x2 s = _ from rfl⟩

theorem exec_run_attest x0 x1 : ∃ f : State → State, ∀ s, exec (.attest x0 x1) s = s.run f :=
  ⟨_, fun s => show Sys2Proof.Machine.execAttest x0 x1 s = _ from rfl⟩

theorem exec_run_otpKey x0 x1 x2 x3 x4 : ∃ f : State → State, ∀ s, exec (.otpKey x0 x1 x2 x3 x4) s = s.run f :=
  ⟨_, fun s => show Sys2Proof.Machine.execOtpKey x0 x1 x2 x3 x4 s = _ from rfl⟩

theorem exec_run_otpRevoke x0 x1 : ∃ f : State → State, ∀ s, exec (.otpRevoke x0 x1) s = s.run f :=
  ⟨_, fun s => show Sys2Proof.Machine.execOtpRevoke x0 x1 s = _ from rfl⟩

theorem exec_run_floor x0 x1 x2 x3 : ∃ f : State → State, ∀ s, exec (.floor x0 x1 x2 x3) s = s.run f :=
  ⟨_, fun s => show Sys2Proof.Machine.execFloor x0 x1 x2 x3 s = _ from rfl⟩

theorem exec_run_otpConfig x0 x1 : ∃ f : State → State, ∀ s, exec (.otpConfig x0 x1) s = s.run f :=
  ⟨_, fun s => show Sys2Proof.Machine.execOtpConfig x0 x1 s = _ from rfl⟩

theorem exec_run_destroy x0 : ∃ f : State → State, ∀ s, exec (.destroy x0) s = s.run f :=
  ⟨_, fun s => show Sys2Proof.Machine.execDestroy x0 s = _ from rfl⟩

theorem exec_run_entropyHealthFail : ∃ f : State → State, ∀ s, exec (.entropyHealthFail) s = s.run f :=
  ⟨_, fun s => show Sys2Proof.Machine.execEntropyHealthFail s = _ from rfl⟩

theorem exec_run_tamperMonitorTrip x0 : ∃ f : State → State, ∀ s, exec (.tamperMonitorTrip x0) s = s.run f :=
  ⟨_, fun s => show Sys2Proof.Machine.execTamperMonitorTrip x0 s = _ from rfl⟩

theorem exec_run_debugRelock : ∃ f : State → State, ∀ s, exec (.debugRelock) s = s.run f :=
  ⟨_, fun s => show Sys2Proof.Machine.execDebugRelock s = _ from rfl⟩

theorem exec_run_recordPost : ∃ f : State → State, ∀ s, exec (.recordPost) s = s.run f :=
  ⟨_, fun s => show Sys2Proof.Machine.execRecordPost s = _ from rfl⟩

theorem exec_run_periodic : ∃ f : State → State, ∀ s, exec (.periodic) s = s.run f :=
  ⟨_, fun s => show Sys2Proof.Machine.execPeriodic s = _ from rfl⟩

theorem exec_run_bgRetire x0 : ∃ f : State → State, ∀ s, exec (.bgRetire x0) s = s.run f :=
  ⟨_, fun s => show Sys2Proof.Machine.execBgRetire x0 s = _ from rfl⟩

theorem exec_run_retirementFinish : ∃ f : State → State, ∀ s, exec (.retirementFinish) s = s.run f :=
  ⟨_, fun s => show Sys2Proof.Machine.execRetirementFinish s = _ from rfl⟩

theorem exec_run_journalPatrol : ∃ f : State → State, ∀ s, exec (.journalPatrol) s = s.run f :=
  ⟨_, fun s => show Sys2Proof.Machine.execJournalPatrol s = _ from rfl⟩

theorem exec_run_journalPatrolEnd : ∃ f : State → State, ∀ s, exec (.journalPatrolEnd) s = s.run f :=
  ⟨_, fun s => show Sys2Proof.Machine.execJournalPatrolEnd s = _ from rfl⟩

theorem exec_run_acRefresh : ∃ f : State → State, ∀ s, exec (.acRefresh) s = s.run f :=
  ⟨_, fun s => show Sys2Proof.Machine.execAcRefresh s = _ from rfl⟩

theorem exec_run_flitCrcFailure x0 : ∃ f : State → State, ∀ s, exec (.flitCrcFailure x0) s = s.run f :=
  ⟨_, fun s => show Sys2Proof.Machine.execFlitCrcFailure x0 s = _ from rfl⟩

theorem exec_run_retryWindow x0 : ∃ f : State → State, ∀ s, exec (.retryWindow x0) s = s.run f :=
  ⟨_, fun s => show Sys2Proof.Machine.execRetryWindow x0 s = _ from rfl⟩

theorem exec_run_throttleHoldEnd x0 : ∃ f : State → State, ∀ s, exec (.throttleHoldEnd x0) s = s.run f :=
  ⟨_, fun s => show Sys2Proof.Machine.execThrottleHoldEnd x0 s = _ from rfl⟩

theorem exec_run_vddqLoss x0 x1 : ∃ f : State → State, ∀ s, exec (.vddqLoss x0 x1) s = s.run f :=
  ⟨_, fun s => show Sys2Proof.Machine.execVddqLoss x0 x1 s = _ from rfl⟩

theorem exec_run_rtcCrystalInUse : ∃ f : State → State, ∀ s, exec (.rtcCrystalInUse) s = s.run f :=
  ⟨_, fun s => show Sys2Proof.Machine.execRtcCrystalInUse s = _ from rfl⟩

theorem exec_run_uartTxByte : ∃ f : State → State, ∀ s, exec .uartTxByte s = s.run f :=
  ⟨_, fun s => show Sys2Proof.Machine.execUartTxByte s = _ from rfl⟩

theorem exec_run_aerError x0 x1 : ∃ f : State → State, ∀ s, exec (.aerError x0 x1) s = s.run f :=
  ⟨_, fun s => show Sys2Proof.Machine.execAerError x0 x1 s = _ from rfl⟩

theorem exec_run_d3hotTransition x0 : ∃ f : State → State, ∀ s, exec (.d3hotTransition x0) s = s.run f :=
  ⟨_, fun s => show Sys2Proof.Machine.execD3hotTransition x0 s = _ from rfl⟩

/-- Whatever the command, what it does is one function of the state with its queue set aside. -/
theorem exec_ran : ∀ c : Instr, ∃ f : State → State, ∀ s, exec c s = s.run f
  | .registerWrite x0 x1 x2 x3 => exec_run_registerWrite x0 x1 x2 x3
  | .pgShadowWrite x0 x1 x2 => exec_run_pgShadowWrite x0 x1 x2
  | .mwWrite x0 x1 x2 => exec_run_mwWrite x0 x1 x2
  | .sqClearWrite x0 x1 x2 => exec_run_sqClearWrite x0 x1 x2
  | .devPeg x0 => exec_run_devPeg x0
  | .pegDeferredAccept => exec_run_pegDeferredAccept
  | .pegApplied => exec_run_pegApplied
  | .cfgCrcPass => exec_run_cfgCrcPass
  | .bundleIssue x0 x1 => exec_run_bundleIssue x0 x1
  | .resultArrival x0 x1 x2 => exec_run_resultArrival x0 x1 x2
  | .windowResponse x0 x1 x2 => exec_run_windowResponse x0 x1 x2
  | .faultEntry x0 => exec_run_faultEntry x0
  | .eventEntry x0 => exec_run_eventEntry x0
  | .dispatchEntry x0 => exec_run_dispatchEntry x0
  | .bayPrivWrite x0 x1 => exec_run_bayPrivWrite x0 x1
  | .bayMaskWrite x0 x1 => exec_run_bayMaskWrite x0 x1
  | .bayGcfgWrite x0 x1 => exec_run_bayGcfgWrite x0 x1
  | .modeChangeEffect x0 => exec_run_modeChangeEffect x0
  | .structWrite x0 x1 x2 x3 => exec_run_structWrite x0 x1 x2 x3
  | .iwrDataWrite x0 x1 => exec_run_iwrDataWrite x0 x1
  | .plbDrop x0 => exec_run_plbDrop x0
  | .plbFill x0 x1 => exec_run_plbFill x0 x1
  | .timerExpiry x0 x1 => exec_run_timerExpiry x0 x1
  | .mbxPost x0 x1 x2 => exec_run_mbxPost x0 x1 x2
  | .mbxLoRead x0 x1 x2 => exec_run_mbxLoRead x0 x1 x2
  | .mbxHiRead x0 x1 x2 => exec_run_mbxHiRead x0 x1 x2
  | .mbxAck x0 x1 x2 x3 => exec_run_mbxAck x0 x1 x2 x3
  | .traceEnable x0 x1 x2 => exec_run_traceEnable x0 x1 x2
  | .step x0 x1 => exec_run_step x0 x1
  | .enter x0 x1 => exec_run_enter x0 x1
  | .exit x0 x1 => exec_run_exit x0 x1
  | .testEntryStop x0 => exec_run_testEntryStop x0
  | .ledgerClear x0 => exec_run_ledgerClear x0
  | .throttlePeriod x0 => exec_run_throttlePeriod x0
  | .throttleAdjust => exec_run_throttleAdjust
  | .sendQueueDepart x0 => exec_run_sendQueueDepart x0
  | .messageCommit x0 => exec_run_messageCommit x0
  | .waitExpired x0 => exec_run_waitExpired x0
  | .roomCommit x0 => exec_run_roomCommit x0
  | .messageLanded x0 x1 => exec_run_messageLanded x0 x1
  | .queueTimeout x0 => exec_run_queueTimeout x0
  | .dbMsg x0 x1 x2 x3 => exec_run_dbMsg x0 x1 x2 x3
  | .dbWord x0 x1 x2 => exec_run_dbWord x0 x1 x2
  | .dbHead x0 x1 x2 => exec_run_dbHead x0 x1 x2
  | .hostRingWrite x0 => exec_run_hostRingWrite x0
  | .msixModerationExpiry x0 => exec_run_msixModerationExpiry x0
  | .hrEnSet x0 x1 => exec_run_hrEnSet x0 x1
  | .hrEnClear x0 x1 => exec_run_hrEnClear x0 x1
  | .qmRead => exec_run_qmRead
  | .qmWrite => exec_run_qmWrite
  | .writep => exec_run_writep
  | .outsideWordAccess x0 x1 x2 x3 x4 x5 x6 => exec_run_outsideWordAccess x0 x1 x2 x3 x4 x5 x6
  | .bayScrubRead x0 x1 => exec_run_bayScrubRead x0 x1
  | .ceWriteback x0 x1 x2 => exec_run_ceWriteback x0 x1 x2
  | .stagingAccess x0 x1 x2 x3 x4 x5 x6 x7 => exec_run_stagingAccess x0 x1 x2 x3 x4 x5 x6 x7
  | .stagingScrubRead x0 x1 => exec_run_stagingScrubRead x0 x1
  | .stgOwnWrite x0 x1 => exec_run_stgOwnWrite x0 x1
  | .stgOwnApply x0 => exec_run_stgOwnApply x0
  | .bankWake x0 => exec_run_bankWake x0
  | .stagingMarchStart x0 x1 => exec_run_stagingMarchStart x0 x1
  | .stagingMarchDone x0 x1 x2 => exec_run_stagingMarchDone x0 x1 x2
  | .bayMarchStart x0 x1 => exec_run_bayMarchStart x0 x1
  | .bayMarchDone x0 x1 x2 x3 x4 => exec_run_bayMarchDone x0 x1 x2 x3 x4
  | .init x0 x1 => exec_run_init x0 x1
  | .trainingComplete x0 x1 x2 x3 => exec_run_trainingComplete x0 x1 x2 x3
  | .srEnter x0 x1 => exec_run_srEnter x0 x1
  | .selfrefEntered x0 => exec_run_selfrefEntered x0
  | .srExit x0 x1 => exec_run_srExit x0 x1
  | .selfrefExited x0 => exec_run_selfrefExited x0
  | .clrmax x0 x1 => exec_run_clrmax x0 x1
  | .ddr4Request x0 x1 x2 x3 x4 x5 x6 x7 => exec_run_ddr4Request x0 x1 x2 x3 x4 x5 x6 x7
  | .refreshEpisode x0 x1 => exec_run_refreshEpisode x0 x1
  | .refreshEnd x0 x1 x2 => exec_run_refreshEnd x0 x1 x2
  | .zqcs x0 x1 => exec_run_zqcs x0 x1
  | .caParityAlert x0 => exec_run_caParityAlert x0
  | .dimmTempPoll x0 x1 x2 => exec_run_dimmTempPoll x0 x1 x2
  | .retrainSlice x0 x1 => exec_run_retrainSlice x0 x1
  | .epochBoundary => exec_run_epochBoundary
  | .pageCopyPassDone x0 x1 x2 => exec_run_pageCopyPassDone x0 x1 x2
  | .fenceAcknowledged x0 x1 => exec_run_fenceAcknowledged x0 x1
  | .pageMoveComplete x0 x1 x2 x3 => exec_run_pageMoveComplete x0 x1 x2 x3
  | .taskMoveDrained x0 => exec_run_taskMoveDrained x0
  | .taskMoveComplete x0 => exec_run_taskMoveComplete x0
  | .migwaitExpiry x0 => exec_run_migwaitExpiry x0
  | .tcmdRead => exec_run_tcmdRead
  | .tcmdWrite => exec_run_tcmdWrite
  | .place => exec_run_place
  | .tcmdMove => exec_run_tcmdMove
  | .unplace => exec_run_unplace
  | .pcmdRead => exec_run_pcmdRead
  | .pcmdMove => exec_run_pcmdMove
  | .twrite => exec_run_twrite
  | .scrEvac x0 => exec_run_scrEvac x0
  | .scrEvbay x0 => exec_run_scrEvbay x0
  | .scrBankrel x0 => exec_run_scrBankrel x0
  | .raise => exec_run_raise
  | .rebent => exec_run_rebent
  | .rebay => exec_run_rebay
  | .abort => exec_run_abort
  | .raiseStepComplete x0 => exec_run_raiseStepComplete x0
  | .bayEnterRun x0 => exec_run_bayEnterRun x0
  | .portEnable x0 x1 => exec_run_portEnable x0 x1
  | .portDisable x0 x1 => exec_run_portDisable x0 x1
  | .linkTrainingDone x0 x1 x2 x3 x4 x5 => exec_run_linkTrainingDone x0 x1 x2 x3 x4 x5
  | .trainingRetry x0 => exec_run_trainingRetry x0
  | .null x0 x1 => exec_run_null x0 x1
  | .qcell x0 x1 x2 => exec_run_qcell x0 x1 x2
  | .pread x0 x1 x2 x3 => exec_run_pread x0 x1 x2 x3
  | .pwrite x0 x1 x2 x3 => exec_run_pwrite x0 x1 x2 x3
  | .pcomp x0 x1 x2 x3 => exec_run_pcomp x0 x1 x2 x3
  | .perr x0 x1 x2 x3 => exec_run_perr x0 x1 x2 x3
  | .fence x0 x1 x2 x3 => exec_run_fence x0 x1 x2 x3
  | .fenceAck x0 x1 x2 => exec_run_fenceAck x0 x1 x2
  | .qrefuse x0 x1 x2 => exec_run_qrefuse x0 x1 x2
  | .lstate x0 x1 x2 => exec_run_lstate x0 x1 x2
  | .tsyncReq x0 x1 x2 x3 => exec_run_tsyncReq x0 x1 x2 x3
  | .tsyncRsp x0 x1 x2 x3 x4 => exec_run_tsyncRsp x0 x1 x2 x3 x4
  | .reservedFlit x0 x1 => exec_run_reservedFlit x0 x1
  | .replayTimeout x0 => exec_run_replayTimeout x0
  | .creditStall x0 => exec_run_creditStall x0
  | .lossOfSignal x0 => exec_run_lossOfSignal x0
  | .rtRead => exec_run_rtRead
  | .rtWrite => exec_run_rtWrite
  | .update => exec_run_update
  | .updateForced => exec_run_updateForced
  | .pwRead => exec_run_pwRead
  | .pwWrite => exec_run_pwWrite
  | .scfDevidWrite x0 => exec_run_scfDevidWrite x0
  | .scfTset x0 => exec_run_scfTset x0
  | .tsyncExchange x0 => exec_run_tsyncExchange x0
  | .adaptSlice x0 => exec_run_adaptSlice x0
  | .bar0Request x0 x1 x2 x3 x4 x5 x6 => exec_run_bar0Request x0 x1 x2 x3 x4 x5 x6
  | .bar4Read x0 x1 => exec_run_bar4Read x0 x1
  | .bar4Write x0 x1 x2 x3 => exec_run_bar4Write x0 x1 x2 x3
  | .malformedTlp x0 => exec_run_malformedTlp x0
  | .msixEnable x0 x1 => exec_run_msixEnable x0 x1
  | .msixUnmask x0 => exec_run_msixUnmask x0
  | .pcieLinkUp x0 x1 => exec_run_pcieLinkUp x0 x1
  | .ethFrameReceive x0 x1 x2 x3 => exec_run_ethFrameReceive x0 x1 x2 x3
  | .ethTransmit x0 => exec_run_ethTransmit x0
  | .ethTransmitDone x0 x1 => exec_run_ethTransmitDone x0 x1
  | .ethLinkUp x0 => exec_run_ethLinkUp x0
  | .ethLinkDown x0 => exec_run_ethLinkDown x0
  | .ethEnable x0 x1 => exec_run_ethEnable x0 x1
  | .crossbarBurst x0 x1 x2 x3 => exec_run_crossbarBurst x0 x1 x2 x3
  | .remap x0 => exec_run_remap x0
  | .bootOk => exec_run_bootOk
  | .bootFail => exec_run_bootFail
  | .bootWindowExpiry => exec_run_bootWindowExpiry
  | .mxhPost x0 => exec_run_mxhPost x0
  | .mxhDone x0 => exec_run_mxhDone x0
  | .mxhStatus => exec_run_mxhStatus
  | .flashRead x0 => exec_run_flashRead x0
  | .flashWrite x0 => exec_run_flashWrite x0
  | .flashErase x0 => exec_run_flashErase x0
  | .leaveShoring => exec_run_leaveShoring
  | .romRaise x0 => exec_run_romRaise x0
  | .xspiGo x0 => exec_run_xspiGo x0
  | .xspiCmdDone x0 x1 x2 => exec_run_xspiCmdDone x0 x1 x2
  | .xspiDataRead => exec_run_xspiDataRead
  | .smbGo x0 => exec_run_smbGo x0
  | .smbXferDone x0 x1 x2 => exec_run_smbXferDone x0 x1 x2
  | .smbTargetRx x0 x1 => exec_run_smbTargetRx x0 x1
  | .smbDataRead => exec_run_smbDataRead
  | .uartDataRead => exec_run_uartDataRead
  | .uartRxByte x0 x1 => exec_run_uartRxByte x0 x1
  | .gpioEdge x0 => exec_run_gpioEdge x0
  | .por => exec_run_por
  | .tamper => exec_run_tamper
  | .coldpin => exec_run_coldpin
  | .rail => exec_run_rail
  | .wdog => exec_run_wdog
  | .swrst x0 x1 => exec_run_swrst x0 x1
  | .rstSwCold x0 x1 => exec_run_rstSwCold x0 x1
  | .failstart => exec_run_failstart
  | .perst => exec_run_perst
  | .hotrst => exec_run_hotrst
  | .dldown => exec_run_dldown
  | .rstBent x0 => exec_run_rstBent x0
  | .rstBay x0 => exec_run_rstBay x0
  | .rstBlock x0 => exec_run_rstBlock x0
  | .resetSourceRelease x0 => exec_run_resetSourceRelease x0
  | .exitSequenceDone x0 => exec_run_exitSequenceDone x0
  | .wrapperDrained => exec_run_wrapperDrained
  | .trimStart x0 => exec_run_trimStart x0
  | .trimLoadDone x0 => exec_run_trimLoadDone x0
  | .wdgEnable x0 => exec_run_wdgEnable x0
  | .wdgKick x0 => exec_run_wdgKick x0
  | .pwrCtlWrite x0 => exec_run_pwrCtlWrite x0
  | .pwrRetWrite x0 => exec_run_pwrRetWrite x0
  | .domainTransitionDone x0 => exec_run_domainTransitionDone x0
  | .pllLossOfLock x0 => exec_run_pllLossOfLock x0
  | .thermalSample x0 => exec_run_thermalSample x0
  | .secPost x0 x1 => exec_run_secPost x0 x1
  | .secStatus x0 => exec_run_secStatus x0
  | .selftest x0 => exec_run_selftest x0
  | .selftestComplete x0 => exec_run_selftestComplete x0
  | .zeroise x0 => exec_run_zeroise x0
  | .zeroisationComplete => exec_run_zeroisationComplete
  | .getnonce x0 => exec_run_getnonce x0
  | .auth x0 x1 x2 x3 => exec_run_auth x0 x1 x2 x3
  | .logout x0 => exec_run_logout x0
  | .unlock x0 => exec_run_unlock x0
  | .secHash x0 x1 x2 x3 => exec_run_secHash x0 x1 x2 x3
  | .hmac x0 x1 x2 x3 x4 => exec_run_hmac x0 x1 x2 x3 x4
  | .gcmEnc x0 x1 x2 x3 x4 x5 => exec_run_gcmEnc x0 x1 x2 x3 x4 x5
  | .gcmDec x0 x1 x2 x3 x4 x5 x6 x7 => exec_run_gcmDec x0 x1 x2 x3 x4 x5 x6 x7
  | .xtsEnc x0 x1 x2 x3 x4 x5 x6 => exec_run_xtsEnc x0 x1 x2 x3 x4 x5 x6
  | .xtsDec x0 x1 x2 x3 x4 x5 x6 => exec_run_xtsDec x0 x1 x2 x3 x4 x5 x6
  | .sign x0 x1 x2 x3 => exec_run_sign x0 x1 x2 x3
  | .verify x0 x1 x2 x3 x4 => exec_run_verify x0 x1 x2 x3 x4
  | .ecdh x0 x1 x2 => exec_run_ecdh x0 x1 x2
  | .keygen x0 x1 x2 x3 => exec_run_keygen x0 x1 x2 x3
  | .wrap x0 x1 x2 => exec_run_wrap x0 x1 x2
  | .unwrap x0 x1 x2 x3 x4 => exec_run_unwrap x0 x1 x2 x3 x4
  | .keydel x0 x1 => exec_run_keydel x0 x1
  | .random x0 x1 x2 => exec_run_random x0 x1 x2
  | .attest x0 x1 => exec_run_attest x0 x1
  | .otpKey x0 x1 x2 x3 x4 => exec_run_otpKey x0 x1 x2 x3 x4
  | .otpRevoke x0 x1 => exec_run_otpRevoke x0 x1
  | .floor x0 x1 x2 x3 => exec_run_floor x0 x1 x2 x3
  | .otpConfig x0 x1 => exec_run_otpConfig x0 x1
  | .destroy x0 => exec_run_destroy x0
  | .entropyHealthFail => exec_run_entropyHealthFail
  | .tamperMonitorTrip x0 => exec_run_tamperMonitorTrip x0
  | .debugRelock => exec_run_debugRelock
  | .recordPost => exec_run_recordPost
  | .periodic => exec_run_periodic
  | .bgRetire x0 => exec_run_bgRetire x0
  | .retirementFinish => exec_run_retirementFinish
  | .journalPatrol => exec_run_journalPatrol
  | .journalPatrolEnd => exec_run_journalPatrolEnd
  | .acRefresh => exec_run_acRefresh
  | .flitCrcFailure x0 => exec_run_flitCrcFailure x0
  | .retryWindow x0 => exec_run_retryWindow x0
  | .throttleHoldEnd x0 => exec_run_throttleHoldEnd x0
  | .vddqLoss x0 x1 => exec_run_vddqLoss x0 x1
  | .rtcCrystalInUse => exec_run_rtcCrystalInUse
  | .uartTxByte => exec_run_uartTxByte
  | .aerError x0 x1 => exec_run_aerError x0 x1
  | .d3hotTransition x0 => exec_run_d3hotTransition x0

/-- A command answers a next state with the queue it found, and the queue behind it makes no difference to it. -/
theorem exec_queue (c : Instr) (s : State) (q : List Instr) : ∃ t, exec c s = .next t ∧ t.pending = s.pending ∧
    exec c { s with pending := q } = .next { t with pending := q } := by
  obtain ⟨f, e⟩ := exec_ran c
  rw [e, e]
  exact ⟨_, rfl, rfl, rfl⟩

end Sys2Proof.Machine
end

