-- ==== Sys2Proof/Laws/RunBay.lean ====
section
/-!
SUPPORT. What a clock of a bay, an arrival and an entry do to a bay.
-/
namespace Sys2Proof.Machine

/-- With no mode change waiting none takes effect at an entry. -/
theorem Ctx.modesAll_nil (c : Ctx) (h : c.modes = []) : c.modesAll = c := by
  obtain ⟨⟩ := c
  simp only at h
  subst h
  rfl

end Sys2Proof.Machine

namespace Sys2Proof.Laws.RunBay
open Sys2Proof Sys2Proof.Machine

theorem reachGuard_same (s : State) (b : Nat) (x : Struct) (h : (s.bay b).str = x) : s.reachGuard b x = s := by
  unfold State.reachGuard
  rw [if_pos (by left; rw [h]; exact ⟨rfl, rfl⟩)]

/-- What the reach limits take back is in no register, port or store of the bay, and no other bay changes. -/
theorem reachGuard_core (s : State) (b : Nat) (x : Struct) :
    SameCore (s.bay b) ((s.reachGuard b x).bay b) ∧ ∀ k, k ≠ b → (s.reachGuard b x).bay k = s.bay k := by
  unfold State.reachGuard
  dsimp only
  split
  · exact ⟨⟨rfl, rfl, rfl, rfl, rfl, rfl, rfl, rfl⟩, fun k _ => rfl⟩
  · have ev : ∀ (u : State) a i k, (State.event u a i).bay k = u.bay k := fun _ _ _ _ => rfl
    refine ⟨?_, fun k hk => (ev _ _ _ _).trans (State.bay_onBay_ne _ _ hk)⟩
    rw [ev, State.bay_onBay]
    exact ⟨rfl, rfl, rfl, rfl, rfl, rfl, rfl, rfl⟩

/-- Every result of an operation reaches its own port. -/
theorem port_receiveAll (unit inst : Nat) (x : Option Word) : ∀ (l : List (Nat × Word)) (b : Bay) (p : Nat) (v : Word),
    (l.map Prod.fst).Nodup → (p, v) ∈ l →
      (b.receiveAll unit inst x l).port unit inst p = { val := v, recvAt := b.pipe.serial, poison := x }
  | [], _, _, _, _, h => by cases h
  | (q, w) :: t, b, p, v, hn, h => by
    rw [List.map_cons, List.nodup_cons] at hn
    rcases List.mem_cons.1 h with h | h
    · have e : ∀ (k : Nat) (l : List (Nat × Word)) (c : Bay), k ∉ l.map Prod.fst →
          (c.receiveAll unit inst x l).port unit inst k = c.port unit inst k := by
        intro k l
        induction l with
        | nil => intro c _; rfl
        | cons y l ih =>
          intro c hp
          obtain ⟨j, z⟩ := y
          rw [List.map_cons, List.mem_cons, not_or] at hp
          rw [Bay.receiveAll, ih _ hp.2]
          exact tgetD_tsetD_ne _ _ _ (by unfold portKey; omega)
      rw [Prod.mk.injEq] at h
      rw [h.1, h.2, Bay.receiveAll, e q t _ hn.1]
      exact Bay.port_receive _ _ _ _ _ _
    · rw [Bay.receiveAll]
      exact port_receiveAll unit inst x t _ p v hn.2 h

theorem quiet_locked {c : Bay} {id : Nat} {l : Bool} (h : c.quiet) : ({ c with id := id, dbg := { c.dbg with locked := l } } : Bay).quiet := h

/-- Any change of the synchronised bay, seen from outside. -/
theorem sync_on (s : State) (b : Nat) (f : Bay → Bay) (hb : b < 256) :
    ((s.start.syncBay b).onBay b f).bay b =
        f { s.bay b with id := b, dbg := { (s.bay b).dbg with locked := s.start.debugLocked 1 } } ∧
      ∀ k, k ≠ b → ((s.start.syncBay b).onBay b f).bay k = s.bay k := by
  refine ⟨?_, fun k hk => ?_⟩
  · rw [State.bay_onBay, State.syncBay_bay, if_neg (by omega)]; rfl
  · rw [State.bay_onBay_ne _ _ hk]
    exact (State.bay_onBay_ne _ _ hk).trans rfl

end Sys2Proof.Laws.RunBay
end

