-- ==== Sys2Proof/Laws/ScribeOps.lean ====
section
/-!
SUPPORT. What the commands of the scribe do to a state.
-/
namespace Sys2Proof.Laws.ScribeOps
open Sys2Proof Sys2Proof.Machine

theorem scrW (u : State) (a : Nat) (v : Word) (r : RegRow) (h : u.reachable a = true) (hr : regRow a = some r) (hk : r.kind ≠ .sq)
    (h1 : 0x40000 ≤ a) (h2 : a < 0x50000) : u.regWrite .host a v = u.scrWrite a v := u.regWrite_scr .host v h hr hk h1 h2

theorem row_of {a : Nat} (h : ((regRow a).any fun r => decide (r.kind ≠ .sq)) = true) : ∃ r, regRow a = some r ∧ r.kind ≠ .sq := by
  rw [Option.any_eq_true] at h
  obtain ⟨r, h1, h2⟩ := h
  exact ⟨r, h1, of_decide_eq_true h2⟩

theorem tcmd_go (u : State) (v : Word) (h : u.reachable 0x40068 = true) (hl : u.raiseLocks = false) :
    u.regWrite .host 0x40068 v = u.tcmd (fld v 0 3) := by
  obtain ⟨r, hr, hk⟩ := row_of (a := 0x40068) (by decide)
  rw [scrW u _ v r h hr hk (by decide) (by decide)]
  unfold State.scrWrite
  rw [if_neg (by simp [hl]), if_neg (by decide), if_pos rfl]

theorem pcmd_go (u : State) (v : Word) (h : u.reachable 0x40090 = true) (hl : u.raiseLocks = false) :
    u.regWrite .host 0x40090 v = u.pcmd (fld v 0 2) := by
  obtain ⟨r, hr, hk⟩ := row_of (a := 0x40090) (by decide)
  rw [scrW u _ v r h hr hk (by decide) (by decide)]
  unfold State.scrWrite
  rw [if_neg (by simp [hl]), if_neg (by decide), if_neg (by decide), if_neg (by decide), if_pos rfl]

theorem readFold (k : Nat) : ∀ (l : List Nat) (x : State), x.scr.lost = false →
    ∃ g, l.foldl (fun x i => let r := x.recordWord (x.taskWord k i); r.1.setReg (0x40044 + 4 * i) r.2) x = { x with regs := g } ∧
      ∀ j, (tget regReset g.words (0x40044 + 4 * j)) = if j ∈ l then x.taskWord k j else x.reg (0x40044 + 4 * j)
  | [], x, _ => ⟨x.regs, rfl, fun j => by simp; rfl⟩
  | i :: l, x, h => by
    have e : (let r := x.recordWord (x.taskWord k i); r.1.setReg (0x40044 + 4 * i) r.2) = x.setReg (0x40044 + 4 * i) (x.taskWord k i) := by
      unfold State.recordWord
      rw [h]
      rfl
    obtain ⟨g, g1, g2⟩ := readFold k l (x.setReg (0x40044 + 4 * i) (x.taskWord k i)) h
    rw [List.foldl_cons, e]
    refine ⟨g, g1, fun j => ?_⟩
    rw [g2]
    by_cases hj : j ∈ l
    · rw [if_pos hj, if_pos (by simp [hj])]; rfl
    · rw [if_neg hj]
      by_cases hi : j = i
      · subst hi
        rw [if_pos (by simp), State.reg_setReg]
      · rw [if_neg (by simp [hi, hj]), State.reg_setReg_ne _ _ (by omega)]

theorem tcmdRead_eq (u : State) (h : u.tOpen = true) (hl : u.scr.lost = false) :
    ∃ g, u.tcmdRead = { u with regs := g, scr := { u.scr with tbusy := false, tres := 0 } } ∧
      ∀ i, i < 8 → tget regReset g.words (0x40044 + 4 * i) = u.taskWord u.tsel i := by
  obtain ⟨g, g1, g2⟩ := readFold u.tsel (List.range 8) u hl
  refine ⟨g, ?_, fun i hi => by rw [g2, if_pos (List.mem_range.2 hi)]⟩
  unfold State.tcmdRead
  rw [h]
  dsimp only [Bool.not_true, Bool.false_eq_true, if_false]
  show State.endTaskCmd (List.foldl _ _ _) 0 = _
  rw [g1]
  rfl

/-- One word of a descriptor is merged. -/
def putTask (k : Nat) (d : Nat → Word) (x : State) (n : Nat) : State :=
  x.setTaskWord k n ((x.taskWord k n &&& ~~~ taskMask n) ||| (d n &&& taskMask n))

theorem putFold (k : Nat) (d : Nat → Word) : ∀ (l : List Nat) (x : State), l.Nodup → (∀ n, n ∈ l → n < 8) →
    ∃ g, l.foldl (putTask k d) x = { x with scr := { x.scr with tasks := g } } ∧
      (∀ n, n < 8 → tgetD 0#32 g (k * 8 + n) = if n ∈ l then (x.taskWord k n &&& ~~~ taskMask n) ||| (d n &&& taskMask n) else x.taskWord k n) ∧
      (∀ j n, n < 8 → j ≠ k → tgetD 0#32 g (j * 8 + n) = x.taskWord j n)
  | [], x, _, _ => ⟨x.scr.tasks, rfl, fun n _ => by simp; rfl, fun j n _ _ => rfl⟩
  | i :: l, x, hn, hb => by
    have hn' := List.nodup_cons.1 hn
    obtain ⟨g, g1, g2, g3⟩ := putFold k d l (putTask k d x i) hn'.2 (fun n h => hb n (by simp [h]))
    rw [List.foldl_cons]
    refine ⟨g, g1, fun n h => ?_, fun j n h hj => ?_⟩
    · rw [g2 n h]
      have ne : n ≠ i → (putTask k d x i).taskWord k n = x.taskWord k n := fun h => tgetD_tsetD_ne _ _ _ (by omega)
      by_cases hl : n ∈ l
      · have : n ≠ i := fun h => hn'.1 (h ▸ hl)
        rw [if_pos hl, if_pos (by simp [hl]), ne this]
      · rw [if_neg hl]
        by_cases hi : n = i
        · subst hi
          rw [if_pos (by simp)]
          exact tgetD_tsetD_same _ _ _ _
        · rw [if_neg (by simp [hi, hl]), ne hi]
    · rw [g3 j n h hj]
      have := hb i (by simp)
      exact tgetD_tsetD_ne _ _ _ (by omega)

theorem tcmdRead_lost (u : State) (h : u.tOpen = true) (hl : u.scr.lost = true) :
    ∃ g n, u.tcmdRead = { u with regs := g, free := n, scr := { u.scr with tbusy := false, tres := 0 } } := by
  have f : ∀ (l : List Nat) (x : State), ∃ g n,
      l.foldl (fun x i => let r := x.recordWord (x.taskWord u.tsel i); r.1.setReg (0x40044 + 4 * i) r.2) x =
        { x with regs := g, free := n } := by
    intro l
    induction l with
    | nil => exact fun x => ⟨x.regs, x.free, rfl⟩
    | cons i l ih =>
      intro x
      rw [List.foldl_cons]
      have e : ∃ g n, (let r := x.recordWord (x.taskWord u.tsel i); r.1.setReg (0x40044 + 4 * i) r.2) = { x with regs := g, free := n } := by
        unfold State.recordWord
        split <;> exact ⟨_, _, rfl⟩
      obtain ⟨g, n, e⟩ := e
      obtain ⟨g', n', e'⟩ := ih { x with regs := g, free := n }
      rw [e, e']
      exact ⟨_, _, rfl⟩
  obtain ⟨g, n, e⟩ := f (List.range 8) u
  unfold State.tcmdRead
  rw [h]
  dsimp only [Bool.not_true, Bool.false_eq_true, if_false]
  show ∃ g n, State.endTaskCmd (List.foldl _ _ _) 0 = _
  rw [e]
  exact ⟨g, n, rfl⟩

theorem tcmdWrite_eq (u : State) (h : u.tOpen = true) (h1 : policyOf (u.reg 0x40044) ≠ 3) :
    u.tcmdWrite = ((if u.taskPlaced u.tsel then [0] else [0, 1, 2, 3, 4, 5, 6]).foldl
      (putTask u.tsel fun n => u.reg (0x40044 + 4 * n)) u).endTaskCmd 0 := by
  unfold State.tcmdWrite
  rw [h]
  dsimp only [Bool.not_true, Bool.false_eq_true, if_false]
  rw [if_neg (by simp), if_neg h1]
  rfl

theorem giveBack_scr (u : State) (q : Nat) (ls : List Landed) (r : Bool) : (u.giveBack q ls r).scr = u.scr := rfl

theorem unland_scr (u : State) (q : Nat) : (u.unland q).scr = u.scr := by
  unfold State.unland
  refine foldl_keeps State.scr _ (fun x k => ?_) _ _
  dsimp only
  split
  · rfl
  · rfl

theorem freeze_scr (u : State) (k : Nat) : (u.freeze k).1.scr = u.scr ∧
    (u.freeze k).2 = (u.boundTo k).filter (fun q => decide ((u.queue q).state = 1)) := by
  refine ⟨?_, rfl⟩
  unfold State.freeze
  dsimp only
  exact foldl_keeps State.scr (fun (x : State) q => (x.setQueue q ((x.queue q).setState 2)).unland q) (fun x q => unland_scr _ _) _ _

theorem tcmdPlace_eq (u : State) (i : Nat) (h : u.tOpen = true) (h1 : u.taskValid u.tsel = true) (h2 : u.taskPlaced u.tsel = false)
    (h3 : u.admissible u.tsel u.tdest = true) (h4 : u.freeSlot u.tdest = some i) :
    u.tcmdPlace = ((u.enterSlot u.tsel u.tdest i).thaw (u.boundTo u.tsel)).endTaskCmd 0 := by
  unfold State.tcmdPlace
  rw [h]
  dsimp only
  rw [if_neg (by simp), if_neg (by simp [h1]), if_neg (by simp [h2]), if_neg (by simp [h2, h3])]
  unfold State.placeTask
  rw [h4]

theorem taskMoveTry_go (u : State) (hv : u.taskValid u.tsel = true) (h1 : policyOf (u.taskWord u.tsel 0) ≠ 0)
    (h2 : u.taskMove u.tsel = none) (h3 : u.taskPlaced u.tsel = true) (h4 : u.admissible u.tsel u.tdest = true) :
    u.taskMoveTry = u.taskGo u.tsel (some u.tdest) := by
  unfold State.taskMoveTry
  dsimp only
  rw [if_neg (by simp [hv]), if_neg h1, if_neg (by simp [h2]), if_neg (by simp [h3, h4])]

theorem taskUnplaceTry_go (u : State) (hv : u.taskValid u.tsel = true) (h2 : u.taskMove u.tsel = none)
    (h3 : u.taskPlaced u.tsel = true) : u.taskUnplaceTry = u.taskGo u.tsel none := by
  unfold State.taskUnplaceTry
  dsimp only
  rw [if_neg (by simp [hv]), if_neg (by simp [h2]), if_neg (by simp [h3])]

theorem startTask_facts (v : State) (k : Nat) (d : Option Nat) :
    (v.startTaskMove k d 1 true false).scr.taskMoves = v.scr.taskMoves ++
      [{ task := k, src := v.taskBay k, dst := d, slot := (d.bind v.freeSlot).getD 0,
         frozen := (v.boundTo k).filter (fun q => decide ((v.queue q).state = 1)), origin := 1, command := true,
         epoch := v.epoch }] ∧ (v.startTaskMove k d 1 true false).scr.tasks = v.scr.tasks := by
  obtain ⟨f1, f2⟩ := freeze_scr v k
  unfold State.startTaskMove
  dsimp only
  rw [f1, f2]
  exact ⟨rfl, rfl⟩

/-- A commanded task move begins, or waits while four run. -/
theorem taskGo_facts (s v : State) (k : Nat) (d : Option Nat) (h1 : v.scr.taskMoves = s.scr.taskMoves)
    (h2 : v.scr.tasks = s.scr.tasks) (h3 : v.bays = s.bays) (h4 : v.qm = s.qm) :
    (v.taskGo k d).scr.tbusy = true ∧ (v.taskGo k d).scr.tasks = s.scr.tasks ∧
    (4 ≤ s.scr.taskMoves.length → (v.taskGo k d).scr.taskMoves = s.scr.taskMoves ∧
      (v.taskGo k d).scr.taskWait = (if d.isSome then 4 else 5) ∧ (v.taskGo k d).bays = s.bays ∧ (v.taskGo k d).qm = s.qm) ∧
    (s.scr.taskMoves.length < 4 → (v.taskGo k d).scr.taskMoves = s.scr.taskMoves ++
      [{ task := k, src := v.taskBay k, dst := d, slot := (d.bind v.freeSlot).getD 0,
         frozen := (v.boundTo k).filter (fun q => decide ((v.queue q).state = 1)), origin := 1, command := true,
         epoch := v.epoch }]) := by
  obtain ⟨f1, f2⟩ := startTask_facts v k d
  unfold State.taskGo
  by_cases h : 4 ≤ v.scr.taskMoves.length
  · rw [if_pos h, ← h1]
    exact ⟨rfl, h2, fun _ => ⟨rfl, rfl, h3, h4⟩, fun hx => absurd h (by omega)⟩
  · rw [if_neg h, ← h1]
    exact ⟨rfl, f2.trans h2, fun hx => absurd hx h, fun _ => f1⟩

theorem scrGo (u : State) (a : Nat) (v : Word) (h : u.reachable a = true) (hl : u.raiseLocks = false)
    (hr : ((regRow a).any fun r => decide (r.kind ≠ .sq)) = true) (ha : a = 0x400A0 ∨ a = 0x400A4 ∨ a = 0x400B0) :
    u.regWrite .host a v = if a = 0x400A0 then u.scrEvac v else if a = 0x400A4 then u.scrEvbay v else u.scrBankrel v := by
  obtain ⟨r, hr, hk⟩ := row_of hr
  rw [scrW u _ v r h hr hk (by omega) (by omega)]
  unfold State.scrWrite
  rw [if_neg (by simp [hl]), if_neg (by omega), if_neg (by omega), if_neg (by omega), if_neg (by omega)]
  rcases ha with rfl | rfl | rfl <;> rfl

theorem pOpen_scribe (u : State) (h : u.pOpen = true) : u.scribeOpen = true := by
  unfold State.pOpen at h
  simp only [Bool.and_eq_true] at h
  exact h.1

theorem pcmdRead_eq (u : State) (h : u.pOpen = true) (h1 : u.scr.lost = false) (h2 : (u.page u.psel).live = true) :
    u.pcmdRead = (((u.setReg 0x4008C (u.table (u.psel / 4096))).setReg 0x40084 (u.page u.psel).w0).setReg 0x40088
      (wd ((u.page u.psel).heat % 2 ^ 24 * 256))).endPageCmd 0 := by
  have e : ∀ w, u.recordWord w = (u, w) := by
    intro w; unfold State.recordWord; rw [h1]; rfl
  have h1' : ¬ ((u.setReg 0x4008C (u.table (u.psel / 4096))).scr.lost = true) := by
    rw [show (u.setReg 0x4008C (u.table (u.psel / 4096))).scr = u.scr from rfl, h1]; simp
  unfold State.pcmdRead
  dsimp only
  rw [h, e]
  dsimp only
  rw [if_neg (by simp), if_neg h1', if_pos (show ((u.setReg 0x4008C (u.table (u.psel / 4096))).page u.psel).live = true from h2)]
  rfl

theorem pcmdRead_dead (u : State) (h : u.pOpen = true) (h1 : u.scr.lost = false) (h2 : (u.page u.psel).live = false) :
    u.pcmdRead = (u.setReg 0x4008C (u.table (u.psel / 4096))).endPageCmd 5 := by
  have e : ∀ w, u.recordWord w = (u, w) := by
    intro w; unfold State.recordWord; rw [h1]; rfl
  have h1' : ¬ ((u.setReg 0x4008C (u.table (u.psel / 4096))).scr.lost = true) := by
    rw [show (u.setReg 0x4008C (u.table (u.psel / 4096))).scr = u.scr from rfl, h1]; simp
  unfold State.pcmdRead
  dsimp only
  rw [h, e]
  dsimp only
  rw [if_neg (by simp), if_neg h1', if_neg]
  show ¬ (u.page u.psel).live = true
  rw [h2]; simp

theorem pcmdRead_lost (u : State) (h : u.pOpen = true) (h1 : u.scr.lost = true) :
    ∃ g n, u.pcmdRead = { u with regs := g, free := n, scr := { u.scr with pbusy := false, pres := 0 } } := by
  unfold State.pcmdRead
  dsimp only
  rw [h, if_neg (by simp)]
  have e : ∃ n x, u.recordWord (u.table (u.psel / 4096)) = ({ u with free := n }, x) := by
    unfold State.recordWord
    rw [if_pos h1]
    exact ⟨_, _, rfl⟩
  obtain ⟨n, x, e⟩ := e
  rw [e]
  dsimp only
  split
  · exact ⟨_, _, rfl⟩
  · rename_i hh
    exact absurd h1 hh

theorem freePage_pres (u : State) (hi : Nat) : ∀ n lo, ({ u with pending := [], out := [], scr := { u.scr with pres := 0 } } : State).freePage lo hi n = u.freePage lo hi n
  | 0, _ => rfl
  | n + 1, lo => by
    rw [State.freePage, State.freePage, freePage_pres u hi n (lo + 1)]
    rfl

/-- The lowest free page, by a search `fp` of one range. -/
def freeInOf (fp : Nat → Nat → Nat → Option Nat) (rs : List ((Nat × Nat) × (Nat × Nat))) (n : Nat) : Option Nat :=
  rs.foldl (fun (m : Option Nat) e =>
    let lo := if e.1.1 < e.2.1 then e.2.1 else e.1.1
    let hi := if e.2.2 < e.1.1 + e.1.2 then e.2.2 else e.1.1 + e.1.2
    match fp lo hi n, m with
    | some x, some y => some (if x < y then x else y)
    | some x, none => some x
    | none, y => y) none

theorem freeIn_of (u : State) (c : Nat) :
    u.freeIn c = freeInOf u.freePage (u.scr.ranges.flatMap fun r => (u.slotPages c).map fun q => (r, q))
      (u.scr.pages.length + u.scr.moves.length + u.scr.decided.length + 1) := by
  unfold State.freeIn freeInOf
  rfl

theorem freeIn_pres (u : State) (c : Nat) : ({ u with pending := [], out := [], scr := { u.scr with pres := 0 } } : State).freeIn c = u.freeIn c := by
  have h : ({ u with pending := [], out := [], scr := { u.scr with pres := 0 } } : State).freePage = u.freePage := by
    funext lo hi n
    exact freePage_pres u hi n lo
  rw [freeIn_of, freeIn_of, h]
  rfl

theorem pickL2_pres (u : State) (d : Word) : ({ u with pending := [], out := [], scr := { u.scr with pres := 0 } } : State).pickL2 d = u.pickL2 d := by
  unfold State.pickL2
  simp only [freeIn_pres]
  rfl

theorem pickIn_pres (u : State) (k t : Nat) : ({ u with pending := [], out := [], scr := { u.scr with pres := 0 } } : State).pickIn k t = u.pickIn k t := by
  have e1 : ({ u with pending := [], out := [], scr := { u.scr with pres := 0 } } : State).table k = u.table k := rfl
  have e2 : ({ u with pending := [], out := [], scr := { u.scr with pres := 0 } } : State).mapBays k = u.mapBays k := rfl
  have e3 : ({ u with pending := [], out := [], scr := { u.scr with pres := 0 } } : State).pinClass k = u.pinClass k := rfl
  have e4 : ∀ d t, ({ u with pending := [], out := [], scr := { u.scr with pres := 0 } } : State).tierAllowed d t = u.tierAllowed d t := fun _ _ => rfl
  have e5 : ∀ b, ({ u with pending := [], out := [], scr := { u.scr with pres := 0 } } : State).pickL0 b = u.pickL0 b := fun _ => rfl
  have e6 : ∀ b, ({ u with pending := [], out := [], scr := { u.scr with pres := 0 } } : State).pickL1 b = u.pickL1 b := fun _ => rfl
  have e7 : ({ u with pending := [], out := [], scr := { u.scr with pres := 0 } } : State).pickL3 = u.pickL3 := rfl
  unfold State.pickIn
  dsimp only
  rw [e1, e2, e3, e4, e5, e6, e7, pickL2_pres]

theorem placeOk_pres (u : State) (k : Nat) (w : Word) : ({ u with pending := [], out := [], scr := { u.scr with pres := 0 } } : State).placeOk k w = u.placeOk k w := rfl

theorem movePlace_pres (u : State) (k : Nat) (w : Word) : ({ u with pending := [], out := [], scr := { u.scr with pres := 0 } } : State).movePlace k w = u.movePlace k w := by
  unfold State.movePlace
  rw [pickIn_pres, placeOk_pres]

theorem pageMoveTry_none (u : State) (h1 : u.mayMove u.psel = true) (h2 : policyOf (u.table (u.psel / 4096)) ≠ 0)
    (h3 : u.movePlace u.psel (u.reg 0x40084) = none) : u.pageMoveTry = u.endPageCmd 2 := by
  have hl : (u.page u.psel).live = true := by
    unfold State.mayMove at h1
    simp only [Bool.and_eq_true] at h1
    exact h1.1.1
  unfold State.pageMoveTry
  dsimp only
  rw [if_neg (by simp [hl]), if_neg h2, if_neg (by simp [h1]), h3]

theorem pageMoveTry_some (u : State) (w : Word) (h1 : u.mayMove u.psel = true) (h2 : policyOf (u.table (u.psel / 4096)) ≠ 0)
    (h3 : u.movePlace u.psel (u.reg 0x40084) = some w) : u.pageMoveTry =
      if 8 ≤ u.scr.moves.length then { u with scr := { u.scr with pbusy := true, pageWait := true } }
      else { u.startMove u.psel w 1 true false false with scr := { (u.startMove u.psel w 1 true false false).scr with pbusy := true } } := by
  have hl : (u.page u.psel).live = true := by
    unfold State.mayMove at h1
    simp only [Bool.and_eq_true] at h1
    exact h1.1.1
  unfold State.pageMoveTry
  dsimp only
  rw [if_neg (by simp [hl]), if_neg h2, if_neg (by simp [h1]), h3]

/-- A move between places of the device starts: beside its record and MOVING only free values, registers and what the bays
have in progress change. -/
theorem startMove_facts (u : State) (k : Nat) (w : Word) (o : Nat) (c e r : Bool) (hs : tierOf (placeOf (u.page k).w0) ≠ 3)
    (hd : tierOf (placeOf w) ≠ 3) (hn : u.moveOf k = none) (v : State)
    (hv : v = u.setPage k { u.page k with w0 := (u.page k).w0 ||| 0x10000000#32 }) :
    CopyRest ({ v with scr := { v.scr with moves := u.scr.moves ++
        [{ key := k, src := placeOf (u.page k).w0, dst := placeOf w, origin := o, command := c, evac := e, rel := r,
           epoch := u.epoch }] } } : State) (u.startMove k w o c e r) := by
  subst hv
  refine copyLines_local _ k (PageMove.mk k (placeOf (u.page k).w0) (placeOf w) 0 [] 0 o c e r u.epoch 0 []) _ ?_ hs hd
  unfold State.moveOf at hn ⊢
  show (u.scr.moves ++ _).find? _ = _
  rw [List.find?_append, hn]
  simp

theorem fld_top (v : Word) (lo n : Nat) (h : lo + n ≤ 31) : fld (v ||| 0x80000000#32) lo n = fld v lo n := by
  unfold fld
  have e : (v ||| 0x80000000#32).toNat = v.toNat ||| 2 ^ 31 := by simp
  rw [e, ← Nat.shiftRight_eq_div_pow, ← Nat.shiftRight_eq_div_pow, Nat.shiftRight_or_distrib, ← Nat.and_two_pow_sub_one_eq_mod,
    ← Nat.and_two_pow_sub_one_eq_mod, Nat.and_or_distrib_right]
  have : (2 ^ 31 >>> lo) &&& (2 ^ n - 1) = 0 := by
    rw [Nat.and_two_pow_sub_one_eq_mod, Nat.shiftRight_eq_div_pow, Nat.pow_div (by omega) (by decide)]
    have : 31 - lo = n + (31 - lo - n) := by omega
    rw [this, Nat.pow_add]
    exact Nat.mul_mod_right _ _
  rw [this, Nat.or_zero]

theorem evac_eq (u : State) (v : Word) (h : u.scribeOpen = true) (h1 : u.scr.evac = none) :
    (u.scrEvac (v ||| 0x80000000#32)).scr.evac = some
          { bays := (maskBays (fld v 0 16)).filter fun b => u.bentHere (b / 16), drop := bitAt v 30, byBay := false,
            subject := fld v 0 16, epoch := u.epoch } ∧
    (u.scrEvac (v ||| 0x80000000#32)).scr.evRes = 0 ∧ (u.scrEvac (v ||| 0x80000000#32)).bays = u.bays := by
  have b31 : bitAt (v ||| 0x80000000#32) 31 = true := by simp [bitAt]
  have b30 : bitAt (v ||| 0x80000000#32) 30 = bitAt v 30 := by simp [bitAt]
  have f16 : fld (v ||| 0x80000000#32) 0 16 = fld v 0 16 := fld_top v 0 16 (by decide)
  unfold State.scrEvac
  rw [h]
  dsimp only [Bool.not_true, Bool.false_eq_true]
  rw [if_neg (by simp), if_pos b31, b30, f16]
  unfold State.evacStart
  rw [if_neg (by show ¬ u.scr.evac.isSome = true; simp [h1])]
  exact ⟨rfl, rfl, rfl⟩

theorem evbay_eq (u : State) (v : Word) (h : u.scribeOpen = true) (h1 : u.scr.evac = none) :
    (u.scrEvbay (v ||| 0x80000000#32)).scr.evac = some
          { bays := [fld v 0 8], drop := bitAt v 30, byBay := true, subject := fld v 0 8, epoch := u.epoch } ∧
    (u.scrEvbay (v ||| 0x80000000#32)).scr.evRes = 0 ∧ (u.scrEvbay (v ||| 0x80000000#32)).bays = u.bays := by
  have b31 : bitAt (v ||| 0x80000000#32) 31 = true := by simp [bitAt]
  have b30 : bitAt (v ||| 0x80000000#32) 30 = bitAt v 30 := by simp [bitAt]
  have f8 : fld (v ||| 0x80000000#32) 0 8 = fld v 0 8 := fld_top v 0 8 (by decide)
  unfold State.scrEvbay
  rw [h]
  dsimp only [Bool.not_true, Bool.false_eq_true]
  rw [if_neg (by simp), if_pos b31, b30, f8]
  unfold State.evacStart
  rw [if_neg (by show ¬ u.scr.evac.isSome = true; simp [h1])]
  exact ⟨rfl, rfl, rfl⟩

theorem evac_busy (u : State) (v : Word) (h : u.scribeOpen = true) (h1 : u.scr.evac.isSome = true) :
    u.scrEvac (v ||| 0x80000000#32) =
      ({ u.writeRw 0x400A0 0x4000FFFF (v ||| 0x80000000#32) with scr := { u.scr with evRes := 3 } } : State) := by
  have b31 : bitAt (v ||| 0x80000000#32) 31 = true := by simp [bitAt]
  unfold State.scrEvac
  rw [h]
  dsimp only [Bool.not_true, Bool.false_eq_true]
  rw [if_neg (by simp), if_pos b31]
  unfold State.evacStart
  exact if_pos h1

theorem evbay_busy (u : State) (v : Word) (h : u.scribeOpen = true) (h1 : u.scr.evac.isSome = true) :
    u.scrEvbay (v ||| 0x80000000#32) =
      ({ u.writeRw 0x400A4 0x400000FF (v ||| 0x80000000#32) with scr := { u.scr with evRes := 3 } } : State) := by
  have b31 : bitAt (v ||| 0x80000000#32) 31 = true := by simp [bitAt]
  unfold State.scrEvbay
  rw [h]
  dsimp only [Bool.not_true, Bool.false_eq_true]
  rw [if_neg (by simp), if_pos b31]
  unfold State.evacStart
  exact if_pos h1

/-- START of SCR_BANKREL begins a release of the bank or is turned away. -/
theorem bankrel_eq (u : State) (v : Word) (h : u.scribeOpen = true) :
    u.scrBankrel (v ||| 0x80000000#32) =
      (u.writeRw 0x400B0 0xFF (v ||| 0x80000000#32)).releaseStart (fld v 0 8) := by
  have b31 : bitAt (v ||| 0x80000000#32) 31 = true := by simp [bitAt]
  have f8 : fld (v ||| 0x80000000#32) 0 8 = fld v 0 8 := fld_top v 0 8 (by decide)
  unfold State.scrBankrel
  rw [h]
  dsimp only [Bool.not_true, Bool.false_eq_true]
  rw [if_neg (by simp), if_pos b31, f8]

/-- R346: why a release of bank n would be turned away. -/
theorem release_go (w : State) (n : Nat) (h1 : w.scr.rel = none) (h2 : (w.bank n).kind = 2)
    (h3 : ∀ k, k ∈ w.pagesIn n → policyOf (w.table (k / 4096)) ≠ 0 ∧
      ({ w with scr := { w.scr with rel := some { bank := n, epoch := w.epoch } } } : State).elsewhere (k / 4096) = true) :
    w.releaseStart n =
      ({ w with scr := { w.scr with rel := some { bank := n, epoch := w.epoch }, relRes := 0 } } : State) := by
  unfold State.releaseStart
  dsimp only
  rw [if_neg (by simp [h1]), if_neg (by simp [h2]), if_neg, if_neg]
  · rfl
  · simp only [List.any_eq_true, Bool.not_eq_true', not_exists, not_and]
    intro k hk
    rw [(h3 k hk).2]; simp
  · simp only [List.any_eq_true, decide_eq_true_eq, not_exists, not_and]
    intro k hk
    exact (h3 k hk).1

theorem release_bad (w : State) (n : Nat) (h1 : w.scr.rel = none)
    (h2 : (w.bank n).kind ≠ 2 ∨ ∃ k, k ∈ w.pagesIn n ∧ (policyOf (w.table (k / 4096)) = 0 ∨
      ({ w with scr := { w.scr with rel := some { bank := n, epoch := w.epoch } } } : State).elsewhere (k / 4096) = false)) :
    (w.releaseStart n).scr.rel = none ∧ (w.releaseStart n).scr.relRes = 2 ∧ (w.releaseStart n).scr.moves = w.scr.moves ∧
      (w.releaseStart n).scr.pages = w.scr.pages := by
  have l : ∀ r, ((w.relResult 2).log r).scr.rel = none ∧ ((w.relResult 2).log r).scr.relRes = 2 ∧
      ((w.relResult 2).log r).scr.moves = w.scr.moves ∧ ((w.relResult 2).log r).scr.pages = w.scr.pages := by
    intro r
    obtain ⟨S, W, Q, h, e⟩ := log_rest (w.relResult 2) r
    rw [e]
    exact ⟨h1, rfl, rfl, rfl⟩
  unfold State.releaseStart
  dsimp only
  rw [if_neg (by simp [h1])]
  by_cases c1 : (w.bank n).kind ≠ 2
  · rw [if_pos c1]; exact l _
  rw [if_neg c1]
  split
  · exact l _
  · rename_i c2
    rw [if_pos]
    · exact l _
    rcases h2 with h2 | ⟨k, hk, h2 | h2⟩
    · exact absurd h2 c1
    · refine absurd (List.any_eq_true.2 ⟨k, hk, decide_eq_true h2⟩) c2
    · refine List.any_eq_true.2 ⟨k, hk, ?_⟩
      rw [h2]; rfl

/-! ## TWRITE -/

theorem page_setPage (u : State) (k : Nat) (e : PageEnt) : (u.setPage k e).page k = e := tgetD_tsetD_same _ _ _ _

theorem page_setPage_ne (u : State) {j k : Nat} (e : PageEnt) (h : j ≠ k) : (u.setPage k e).page j = u.page j :=
  tgetD_tsetD_ne _ _ _ h

/-- Pages that a table gains enter the map; nothing else changes. -/
theorem addPages_rest (T : Nat) : ∀ (l : List Nat) (u v : State), u.addPages T l = some v →
    ∃ g, v = { u with scr := { u.scr with pages := g } } ∧
      (∀ j, j ∉ l.map (pageKey T) → v.page j = u.page j) ∧ (∀ j, j ∈ l.map (pageKey T) → (v.page j).live = true)
  | [], u, v, h => by
    cases h
    exact ⟨u.scr.pages, rfl, fun _ _ => rfl, fun j hj => by cases hj⟩
  | i :: r, u, v, h => by
    rw [State.addPages] at h
    split at h
    · rename_i w hw
      obtain ⟨g, e, p, q⟩ := addPages_rest T r _ v h
      refine ⟨g, e, fun j hj => ?_, fun j hj => ?_⟩
      · rw [List.map_cons, List.mem_cons, not_or] at hj
        rw [p j hj.2]
        exact page_setPage_ne u _ hj.1
      · by_cases hr : j ∈ r.map (pageKey T)
        · exact q j hr
        · rw [List.map_cons, List.mem_cons] at hj
          obtain rfl := hj.resolve_right hr
          rw [p _ hr]
          rw [page_setPage]
    · cases h

theorem abandon_rest (u : State) (m : PageMove) (n : Nat) : ∃ S R F c, u.abandon m n = { u with stg := S, regs := R, scf := F, scr := c } ∧
    c.tables = u.scr.tables ∧ c.tasks = u.scr.tasks ∧ ∀ j, j ≠ m.key → (u.abandon m n).page j = u.page j := by
  obtain ⟨S, R, h, b, p, e, -⟩ := moveOver_rest
    (u.setPage m.key { u.page m.key with w0 := placeOf (u.page m.key).w0 }) m n (u.fenceNs m)
  have ea : u.abandon m n = _ := e
  refine ⟨S, R, _, (u.abandon m n).scr, by rw [ea]; rfl, by rw [ea]; rfl, by rw [ea]; rfl, fun j hj => ?_⟩
  rw [ea]
  exact page_setPage_ne u _ hj

theorem freePageEnt_rest (u : State) (k : Nat) : ∃ S R F c, u.freePageEnt k = { u with stg := S, regs := R, scf := F, scr := c } ∧
    c.tables = u.scr.tables ∧ c.tasks = u.scr.tasks ∧ ∀ j, (u.freePageEnt k).page j = if j = k then {} else u.page j := by
  have g : ∀ v : State, ∀ x : List (Nat × Word), ∀ j,
      ({ v.setPage k {} with scr := { (v.setPage k {}).scr with decided := x } } : State).page j =
        if j = k then {} else v.page j := fun v x j => by
    by_cases hj : j = k
    · subst hj; rw [if_pos rfl]; exact page_setPage v j {}
    · rw [if_neg hj]; exact page_setPage_ne v {} hj
  unfold State.freePageEnt
  cases hm : u.moveOf k with
  | none => exact ⟨_, _, _, _, rfl, rfl, rfl, fun j => g u _ j⟩
  | some m =>
    have hk : m.key = k := moveOf_key u k m hm
    obtain ⟨S, R, F, c, e, t1, t2, p⟩ := abandon_rest u m 10
    dsimp only
    generalize u.abandon m 10 = w at e p
    refine ⟨S, R, F, { (w.setPage k {}).scr with decided := w.scr.decided.filter fun e => decide (e.1 ≠ k) }, by rw [e]; rfl,
      by rw [e]; exact t1, by rw [e]; exact t2, fun j => (g w _ j).trans ?_⟩
    by_cases hj : j = k
    · rw [if_pos hj, if_pos hj]
    · rw [if_neg hj, if_neg hj, p j (by omega)]

theorem freePages_rest : ∀ (l : List Nat) (u : State), ∃ S R F c, l.foldl State.freePageEnt u = { u with stg := S, regs := R, scf := F, scr := c } ∧
    c.tables = u.scr.tables ∧ c.tasks = u.scr.tasks ∧ ∀ j, (l.foldl State.freePageEnt u).page j = if j ∈ l then {} else u.page j
  | [], u => ⟨_, _, _, _, rfl, rfl, rfl, fun j => by simp⟩
  | k :: r, u => by
    obtain ⟨S, R, F, c, e, t1, t2, p⟩ := freePageEnt_rest u k
    obtain ⟨S', R', F', c', e', t1', t2', p'⟩ := freePages_rest r (u.freePageEnt k)
    rw [List.foldl_cons]
    refine ⟨S', R', F', c', by rw [e', e], t1'.trans (by rw [e]; exact t1), t2'.trans (by rw [e]; exact t2), fun j => ?_⟩
    rw [p']
    by_cases hr : j ∈ r
    · rw [if_pos hr, if_pos (by simp [hr])]
    · rw [if_neg hr, p]
      by_cases hj : j = k
      · rw [if_pos hj, if_pos (by simp [hj])]
      · rw [if_neg hj, if_neg (by simp [hj, hr])]

theorem twrite_go (u : State) (d : Word) (s1 : State) (h : u.pOpen = true) (hd : d = u.reg 0x4008C &&& 0xFFFF0FFF#32)
    (h1 : policyOf d ≠ 3) (h2 : u.twriteBad (u.psel / 4096) d = false)
    (h3 : s1 = { u with scr := { u.scr with tables := tsetD 0#32 u.scr.tables (u.psel / 4096) d } }) :
    u.pcmdTwrite = match s1.addPages (u.psel / 4096)
        ((List.range ((if bitAt d 31 then fld d 0 12 + 1 else 0) -
          (if bitAt (u.table (u.psel / 4096)) 31 then fld (u.table (u.psel / 4096)) 0 12 + 1 else 0))).map
          ((if bitAt (u.table (u.psel / 4096)) 31 then fld (u.table (u.psel / 4096)) 0 12 + 1 else 0) + ·)) with
      | none => u.endPageCmd 2
      | some s2 => (((s2.pagesOf (u.psel / 4096)).filter fun k =>
          decide ((if bitAt d 31 then fld d 0 12 + 1 else 0) ≤ k % 4096)).foldl State.freePageEnt s2).endPageCmd 0 := by
  unfold State.pcmdTwrite
  rw [h]
  dsimp only [Bool.not_true, Bool.false_eq_true]
  rw [if_neg (by simp), ← hd, if_neg (by rw [h2]; simpa using h1), ← h3]
  try (split <;> rename_i e <;> rw [e])

end Sys2Proof.Laws.ScribeOps
end

