-- ==== Sys2Proof/Laws/Security.lean ====
section
/-!
SUPPORT. What the security module's answers, services and events do to a state.
-/
namespace Sys2Proof.Laws.Security
open Sys2Proof Sys2Proof.Machine

open Sys2Proof.Laws.Boot (row_of)

theorem port_set (x : Sec) (p : Bool) (y : SecPort) : (x.setPort p y).port p = y := by
  cases p <;> rfl

theorem waits_set (x : Sec) (p : Bool) (y : SecPort) : (x.setPort p y).waits = x.waits := by
  cases p <;> rfl

theorem rsp_fold : ∀ (l : List Word) (k : Nat) (t : Tab Word),
    (∀ i, i < l.length → tgetD 0#32 ((l.zip ((List.range l.length).map (k + ·))).foldl (fun (t : Tab Word) e => tsetD 0#32 t e.2 e.1) t) (k + i) = l.getD i 0#32) ∧
    (∀ j, j < k → tgetD 0#32 ((l.zip ((List.range l.length).map (k + ·))).foldl (fun (t : Tab Word) e => tsetD 0#32 t e.2 e.1) t) j = tgetD 0#32 t j)
  | [], k, t => ⟨fun i h => absurd h (by simp), fun _ _ => rfl⟩
  | w :: l, k, t => by
    obtain ⟨r2, r3⟩ := rsp_fold l (k + 1) (tsetD 0#32 t k w)
    have e : (w :: l).zip ((List.range (w :: l).length).map (k + ·)) = (w, k) :: l.zip ((List.range l.length).map (k + 1 + ·)) := by
      rw [List.length_cons, List.range_succ_eq_map, List.map_cons, List.zip_cons_cons, List.map_map, Nat.add_zero]
      refine congrArg _ (congrArg _ (List.map_congr_left fun a _ => ?_))
      show k + (a + 1) = k + 1 + a
      omega
    rw [e, List.foldl_cons]
    dsimp only
    refine ⟨fun i hi => ?_, fun j hj => ?_⟩
    · cases i with
      | zero => exact (r3 k (by omega)).trans (tgetD_tsetD_same _ _ _ _)
      | succ i =>
        have := r2 i (by rw [List.length_cons] at hi; omega)
        rw [show k + (i + 1) = k + 1 + i from by omega, this]
        rfl
    · rw [r3 j (by omega)]
      exact tgetD_tsetD_ne _ _ _ (by omega)

theorem rsp_take (l : List Word) (n : Nat) (h : l.length ≤ n) : l.zip (List.range n) = l.zip ((List.range l.length).map (0 + ·)) := by
  have : (List.range l.length).map (0 + ·) = (List.range n).take l.length := by
    rw [List.take_range, Nat.min_eq_left h]
    simp
  rw [this, List.zip_eq_zip_take_min]
  rw [List.length_range, Nat.min_eq_left h, List.take_length]

theorem take_getD : ∀ (l : List Word) (n i : Nat), i < n → (l.take n).getD i 0#32 = l.getD i 0#32
  | [], n, i, _ => by simp
  | w :: l, 0, i, h => by omega
  | w :: l, n + 1, 0, _ => rfl
  | w :: l, n + 1, i + 1, h => by
    rw [List.take_succ_cons]
    exact take_getD l n i (by omega)

theorem answer_replied (x : Sec) (p : Bool) (st : Nat) (rs : List Word) (hw : x.waits = [p]) : x.replied (x.answer p st rs) p st rs := by
  unfold Sec.answer
  dsimp only
  have w0 : (x.waits.filter fun q => decide (q ≠ p)) = [] := by
    rw [hw]
    simp
  rw [w0]
  generalize hw0 : wd (fld (tgetD 0#32 (x.port p).req 0) 24 8 * 2 ^ 24 + (rs.length + 1) % 256 * 2 ^ 16 + st * 256 + fld (tgetD 0#32 (x.port p).req 0) 0 8) = c0
  obtain ⟨l, hl⟩ : ∃ l, l = (c0 :: wbit x.approved :: rs).take 48 := ⟨_, rfl⟩
  rw [← hl]
  have ll : l.length ≤ 48 := by rw [hl, List.length_take]; omega
  rw [rsp_take l 48 ll]
  obtain ⟨r1, _⟩ := rsp_fold l 0 (x.port p).rsp
  have len (i : Nat) (h : i < 48) (h2 : i < rs.length + 2) : i < l.length := by
    rw [hl, List.length_take, List.length_cons, List.length_cons]
    omega
  have get (i : Nat) (h : i < 48) : l.getD i 0#32 = (c0 :: wbit x.approved :: rs).getD i 0#32 := by
    rw [hl]
    exact take_getD _ _ _ h
  unfold Sec.replied
  refine ⟨_, _, rfl, rfl, rfl, ?_, ?_, fun i h1 h2 => ?_⟩
  · have := r1 0 (len 0 (by omega) (by omega))
    rw [get 0 (by omega)] at this
    rw [hw0]
    exact this
  · have := r1 1 (len 1 (by omega) (by omega))
    rw [get 1 (by omega)] at this
    exact this
  · have := r1 (i + 2) (len (i + 2) (by omega) (by omega))
    rw [get (i + 2) (by omega), Nat.zero_add] at this
    exact this

theorem clear_nil (x : Sec) (n : Nat) (h : x.waits = []) : x.clear n = x := by
  cases n with
  | zero => rfl
  | succ n => unfold Sec.clear; rw [h]

theorem answer_waits (x : Sec) (p : Bool) (st : Nat) (rs : List Word) (hw : x.waits = [p]) : (x.answer p st rs).waits = [] := by
  obtain ⟨_, _, e, _⟩ := answer_replied x p st rs hw
  rw [e]

/-- The one waiting service ends. -/
theorem end_one (u : State) (x : Sec) (p : Bool) (st : Nat) (rs : List Word) (hw : x.waits = [p]) :
    ∃ y, u.setSec (x.answer p st rs) = { u with sec := y } ∧ x.replied y p st rs := by
  refine ⟨x.answer p st rs, ?_, answer_replied x p st rs hw⟩
  unfold State.setSec
  rw [clear_nil _ _ (answer_waits x p st rs hw)]

theorem runs_of (u : State) (p : Bool) (op role : Nat) (h : u.serves p op role) : u.secRuns p op = true := by
  obtain ⟨h1, h2, h3, h4, h5, h6⟩ := h
  unfold State.secRuns
  rw [h1, h2, h3, h4, h5]
  simp

theorem serve_one (u : State) (p : Bool) (op role : Nat) (run : State → State) (h : u.serves p op role) : u.service p op role run = run u := by
  unfold State.service
  rw [runs_of u p op role h, if_neg (by decide), if_neg (by obtain ⟨_, _, _, _, _, h6⟩ := h; omega)]

theorem clear_keeps (g : Sec → Prop) (h : ∀ x p st, g x → g (x.answer p st [])) : ∀ (n : Nat) (x : Sec), g x → g (x.clear n)
  | 0, _, hx => hx
  | n + 1, x, hx => by
    unfold Sec.clear
    split
    · split
      · exact clear_keeps g h n _ (h _ _ _ hx)
      · exact hx
    · exact hx

theorem answer_rest (x : Sec) (p : Bool) (st : Nat) : (x.answer p st []).state = x.state ∧ (x.answer p st []).approved = x.approved ∧
    (x.answer p st []).otp = x.otp ∧ (x.answer p st []).handles = x.handles := by
  unfold Sec.answer
  cases p <;> exact ⟨rfl, rfl, rfl, rfl⟩

theorem clear_rest (x : Sec) (n : Nat) : (x.clear n).state = x.state ∧ (x.clear n).approved = x.approved ∧ (x.clear n).otp = x.otp ∧ (x.clear n).handles = x.handles :=
  clear_keeps (fun y => y.state = x.state ∧ y.approved = x.approved ∧ y.otp = x.otp ∧ y.handles = x.handles)
    (fun y p st ⟨a, b, c, d⟩ => by
      obtain ⟨e, f, g, h⟩ := answer_rest y p st
      exact ⟨e.trans a, f.trans b, g.trans c, h.trans d⟩) n x ⟨rfl, rfl, rfl, rfl⟩

theorem post_go (u : State) (p : Bool) (v : Word) (h : if p then u.wideHeld = false else u.reachable 0x20300 = true) : u.secPostAt p v = u.secPost p v := by
  unfold State.secPostAt
  cases p with
  | true =>
    have h' : u.wideHeld = false := h
    unfold State.regWrite
    rw [h', if_pos rfl, if_neg (by decide), if_neg (by omega), if_neg (by omega), if_pos (by omega), if_neg (by decide), if_neg (by omega)]
    rfl
  | false =>
    have h' : u.reachable 0x20300 = true := h
    rw [if_neg (by decide)]
    obtain ⟨_, hd, e⟩ := u.regWrite_block .host v h' (by omega)
    have hrow : ((regRow 0x20300).any fun r => decide (r.kind ≠ .sq)) = true := by decide
    obtain ⟨r, hr, hk⟩ := row_of hrow
    rw [e]
    unfold State.regAct
    rw [if_neg (by simp [hd]), hr]
    simp only [hk, false_and, or_self, if_false, show 0x20300 / 0x10000 = 2 from rfl]
    rw [if_neg (by simp)]
    rfl

theorem port_post (u : State) (p : Bool) (v : Word) (x : Sec) (hx : x = u.sec.setPort p { u.sec.port p with
        post := { (u.sec.port p).post with cseq := fld v 0 8, busy := true } }) (h1 : u.on 21 = true) (h2 : (u.sec.port p).post.busy = false)
    (h3 : u.sec.waits = []) : u.secPost p v = u.setSec { x with waits := [p] } := by
  unfold State.secPost
  dsimp only
  rw [h1, h2, if_neg (by decide), ← hx]
  have : x.waits = [] := by rw [hx, waits_set, h3]
  rw [this]
  rfl

theorem post_behind (u : State) (p q : Bool) (v : Word) (x : Sec) (hx : x = u.sec.setPort p { u.sec.port p with
        post := { (u.sec.port p).post with cseq := fld v 0 8, busy := true } }) (h1 : u.on 21 = true) (h2 : (u.sec.port p).post.busy = false)
    (h3 : u.sec.waits = [q]) (hq : x.turnsAway q = none) : u.secPost p v = { u with sec := { x with waits := [q, p] } } := by
  unfold State.secPost
  dsimp only
  rw [h1, h2, if_neg (by decide), ← hx]
  have : x.waits = [q] := by rw [hx, waits_set, h3]
  rw [this]
  have e : ({ x with waits := [q, p] } : Sec).turnsAway q = none := by
    rw [← hq]; cases q <;> rfl
  have c : ({ x with waits := [q, p] } : Sec).clear 4 = { x with waits := [q, p] } := by
    unfold Sec.clear
    dsimp only
    rw [e]
  show ({ u with sec := ({ x with waits := [q, p] } : Sec).clear 4 } : State) = _
  rw [c]

theorem fail_rst {u v : State} (h : u.rst = v.rst) : u.failIfStarting.rst = v.failIfStarting.rst := by
  unfold State.failIfStarting State.startFails
  rw [h]
  by_cases c : (v.rst.bootOk || v.rst.failDue) = true
  · rw [if_pos c, if_pos c, h]
  · rw [if_neg c, if_neg c]

theorem clear_one (x : Sec) (p : Bool) (hw : x.waits = [p]) : x.clear 4 = match x.turnsAway p with | some st => x.answer p st [] | none => x := by
  show (match x.waits with | p :: _ => (match x.turnsAway p with | some st => (x.answer p st []).clear 3 | none => x) | [] => x) = _
  rw [hw]
  dsimp only
  cases x.turnsAway p with
  | none => rfl
  | some st => exact clear_nil _ _ (answer_waits x p st [] hw)

theorem op_set (x : Sec) (p : Bool) (z : SecPort) (w : List Bool) : (({ x.setPort p z with waits := w } : Sec).port p).op = z.op := by
  cases p <;> rfl

theorem turned (x : Sec) (p : Bool) (h : x.zeroing = false) : x.turnsAway p = if x.state = 0 then none else if !secOps.contains (x.port p).op then some 1
    else if x.state ≠ 1 ∧ (x.port p).op ≠ 1 then some 5 else none := by
  unfold Sec.turnsAway
  dsimp only
  rw [h, if_neg (by decide)]

theorem replied_waits {x y : Sec} {p : Bool} {st : Nat} {rs : List Word} {w : List Bool} (h : ({ x with waits := w } : Sec).replied y p st rs) : x.replied y p st rs := by
  have e : ({ x with waits := w } : Sec).port p = x.port p := by cases p <;> rfl
  obtain ⟨post, rsp, h1, h2⟩ := h
  rw [e] at h1 h2
  refine ⟨post, rsp, ?_, h2⟩
  rw [h1]
  cases p <;> rfl

theorem onPort_waits (x : Sec) (p : Bool) (f : SecPort → SecPort) : (x.onPort p f).waits = x.waits := waits_set _ _ _

/-- A channel's accesses end in errors, and nothing else of the state changes. -/
theorem isolated_eq (u : State) (c : Nat) : ∃ O, u.ddrIsolated c = { u.setChan c { u.chan c with waits := [] } with out := O } := by
  have fold : ∀ {α : Type} (l : List α) (v : State), ∃ O, l.foldl (fun (t : State) _ => t.emit (.answer { err := some .isolated })) v = { v with out := O } := by
    intro α l
    induction l with
    | nil => exact fun v => ⟨v.out, rfl⟩
    | cons x l ih =>
      intro v
      obtain ⟨O, e⟩ := ih (v.emit (.answer { err := some .isolated }))
      exact ⟨O, e⟩
  exact fold _ _

/-- What a zeroisation does to one channel. -/
def eraseOne (t : State) (c : Nat) : State :=
  if t.hw.chanHere c then
    let g := (t.ddrIsolated c).newGen
    g.1.setChan c { ((t.ddrIsolated c).chan c) with
      state := 0, fstep := 0, erased := true, key := none, wq := [], episodes := [], back := [],
      retrain := 0, srMove := false, mem := Mem.scrambled g.2, marks := [] }
  else t

theorem erase_one (u : State) (k : Nat) :
    (∃ D G O, eraseOne u k = { u with ddr := D, gens := G, out := O }) ∧ (∀ c, c ≠ k → (eraseOne u k).chan c = u.chan c) ∧
    (u.hw.chanHere k = true → ((eraseOne u k).chan k).state = 0 ∧ ((eraseOne u k).chan k).erased = true ∧ ((eraseOne u k).chan k).key = none) := by
  cases h : u.hw.chanHere k with
  | true =>
    obtain ⟨O, e⟩ := isolated_eq u k
    unfold eraseOne
    rw [h, if_pos rfl, e]
    refine ⟨⟨_, _, O, rfl⟩, fun c hc => ?_, fun _ => ?_⟩
    · rw [State.chan_setChan_ne _ _ hc]
      exact State.chan_setChan_ne _ _ hc
    · rw [State.chan_setChan]
      exact ⟨rfl, rfl, rfl⟩
  | false =>
    unfold eraseOne
    rw [h, if_neg (by decide)]
    exact ⟨⟨_, _, _, rfl⟩, fun _ _ => rfl, fun x => by cases x⟩

theorem erase_facts : ∀ (l : List Nat) (u : State), l.Nodup →
    (∃ D G O, l.foldl eraseOne u = { u with ddr := D, gens := G, out := O }) ∧
    (∀ c, c ∉ l → (l.foldl eraseOne u).chan c = u.chan c) ∧
    (∀ c ∈ l, u.hw.chanHere c = true → ((l.foldl eraseOne u).chan c).state = 0 ∧ ((l.foldl eraseOne u).chan c).erased = true ∧
      ((l.foldl eraseOne u).chan c).key = none)
  | [], u, _ => ⟨⟨_, _, _, rfl⟩, fun _ _ => rfl, fun c hc => absurd hc (by simp)⟩
  | k :: l, u, hn => by
    obtain ⟨n1, n2⟩ := List.nodup_cons.1 hn
    rw [List.foldl_cons]
    obtain ⟨⟨D, G, O, e⟩, a2, a3⟩ := erase_one u k
    obtain ⟨⟨D', G', O', e'⟩, b2, b3⟩ := erase_facts l (eraseOne u k) n2
    refine ⟨⟨D', G', O', by rw [e', e]⟩, fun c hc => ?_, fun c hc hh => ?_⟩
    · rw [List.mem_cons, not_or] at hc
      rw [b2 c hc.2, a2 c hc.1]
    · by_cases x : c = k
      · subst x
        rw [b2 c n1]
        exact a3 hh
      · exact b3 c ((List.mem_cons.1 hc).resolve_left x) (by rw [e]; exact hh)

/-- The module while a zeroisation runs. -/
def zeroing (y : Sec) : Sec := { y with zeroing := true, approved := false, handles := [], keyRam := [], h := { y.h with role := 0, nonce := none }, s := { y.s with role := 0, nonce := none } }

theorem zeroise_eq (u w : State) (p : Bool) (hw : (u.isolate fun o => o.ddr.isSome).memErase = w) (h : u.sec.zeroing = false)
    (hs : w.sec = u.sec) (h3 : u.sec.waits = [p]) (h5 : u.sec.state = 1) : u.zeroise = w.setSec (zeroing u.sec) := by
  unfold State.zeroise
  rw [h, if_neg (by decide)]
  dsimp only
  rw [hw, hs]
  unfold zeroing
  rw [h3, h5]
  rfl

theorem zero_fields (y : Sec) :
    (zeroing y).zeroing = true ∧ (zeroing y).approved = false ∧ (zeroing y).handles = [] ∧ (zeroing y).keyRam = [] ∧
    (∀ q, ((zeroing y).port q).role = 0 ∧ ((zeroing y).port q).nonce = none ∧ ((zeroing y).port q).op = (y.port q).op) ∧
    (zeroing y).otp = y.otp ∧ (zeroing y).waits = y.waits ∧ (zeroing y).state = y.state :=
  ⟨rfl, rfl, rfl, rfl, fun q => by cases q <;> exact ⟨rfl, rfl, rfl⟩, rfl, rfl, rfl⟩

theorem zero_facts (u : State) (p : Bool) (h2 : u.sec.zeroing = false) (h3 : u.sec.waits = [p]) (h4 : (u.sec.port p).op = 3 ∨ (u.sec.port p).op = 0x24) (h5 : u.sec.state = 1) :
    (u.zeroise).sec.zeroing = true ∧ u.zeroise.sec.approved = false ∧ u.zeroise.sec.handles = [] ∧ u.zeroise.sec.keyRam = [] ∧
        (∀ q, (u.zeroise.sec.port q).role = 0 ∧ (u.zeroise.sec.port q).nonce = none) ∧ u.zeroise.sec.otp = u.sec.otp ∧ u.zeroise.sec.waits = [p] ∧
        (∀ c, c < 8 → u.hw.chanHere c = true → (u.zeroise.chan c).state = 0 ∧ (u.zeroise.chan c).erased = true ∧ (u.zeroise.chan c).key = none) ∧ u.zeroise.mx = u.mx ∧
        u.zeroise.stg = u.stg ∧ u.zeroise.rst = u.rst := by
  obtain ⟨w, hw⟩ : ∃ w, (u.isolate fun o => o.ddr.isSome).memErase = w := ⟨_, rfl⟩
  obtain ⟨B, eB⟩ := Sys2Proof.Laws.Power.isolate_rest u (fun o => o.ddr.isSome)
  obtain ⟨⟨D, G, O, eD⟩, _, ch⟩ := erase_facts (List.range 8) (u.isolate fun o => o.ddr.isSome) List.nodup_range
  have ew : w = { u with bays := B, ddr := D, gens := G, out := O } := by
    rw [← hw]
    show List.foldl eraseOne (u.isolate fun o => o.ddr.isSome) (List.range 8) = _
    rw [eD, eB]
  have cw : ∀ c, c < 8 → u.hw.chanHere c = true → (w.chan c).state = 0 ∧ (w.chan c).erased = true ∧ (w.chan c).key = none := by
    intro c hc hh
    rw [← hw]
    exact ch c (List.mem_range.2 hc) (by rw [eB]; exact hh)
  have wr : w.sec = u.sec ∧ w.mx = u.mx ∧ w.stg = u.stg ∧ w.rst = u.rst := by
    rw [ew]
    exact ⟨rfl, rfl, rfl, rfl⟩
  obtain ⟨f1, f2, f3, f4, f5, f6, f7, f8⟩ := zero_fields u.sec
  have e := zeroise_eq u w p hw h2 wr.1 h3 h5
  obtain ⟨x, hx⟩ : ∃ x, x = zeroing u.sec := ⟨_, rfl⟩
  rw [← hx] at f1 f2 f3 f4 f5 f6 f7 f8 e
  have xw : x.waits = [p] := f7.trans h3
  have e2 : u.zeroise = { w with sec := x } := by
    rw [e]
    unfold State.setSec
    rw [clear_one x p xw]
    have : x.turnsAway p = none := by
      unfold Sec.turnsAway
      dsimp only
      rw [f1, if_pos rfl, (f5 p).2.2, if_pos h4]
    rw [this]
  rw [e2]
  exact ⟨f1, f2, f3, f4, fun q => ⟨(f5 q).1, (f5 q).2.1⟩, f6, xw, cw, wr.2.1, wr.2.2.1, wr.2.2.2⟩

theorem selftest_split (u : State) (pass ok : Bool) (h1 : u.on 21 = true) (h2 : u.sec.state = 0) (h3 : u.sec.zeroing = false) (hok : ok = (pass && decide (u.sec.config / 32 % 2 = 0))) :
    ∃ x : Sec, x = { u.sec with
        state := if ok then 1 else 2, started := u.sec.started || ok,
        approved := ok && (u.sec.approved || (!u.sec.started && decide (u.sec.config % 2 = 1) && decide (u.sec.scope = 0))) } ∧
      u.selftestDone pass = (if ok then u else u.event 0x20030 0).setSec (match x.waits with
      | p :: _ => if (x.port p).op = 2 ∧ u.sec.started then x.answer p (if ok then 0 else 3) [] else x
      | [] => x) := by
  refine ⟨_, rfl, ?_⟩
  unfold State.selftestDone
  rw [h1, h2, h3, if_neg (by decide), hok]
  all_goals rfl

theorem zeroised_none (u : State) (h1 : u.sec.zeroing = true) (h2 : u.rst.reach < 4) (h3 : u.sec.waits = []) :
    u.zeroised = State.event { u with sec := { u.sec with zeroing := false, state := 3 } } 0x20030 1 := by
  unfold State.zeroised
  rw [h1, if_neg (by decide)]
  dsimp only
  rw [if_neg (show ¬ 4 ≤ u.rst.reach by omega)]
  unfold State.setSec
  rw [h3]
  dsimp only
  rw [clear_nil _ 4 rfl]

theorem zeroised_reset (u : State) (h1 : u.sec.zeroing = true) (h2 : 4 ≤ u.rst.reach) (h3 : u.sec.waits = []) :
    u.zeroised = State.releaseReset { u with sec := ({ u.sec with zeroing := false, state := 3 } : Sec).warm } 1 := by
  unfold State.zeroised
  rw [h1, if_neg (by decide)]
  dsimp only
  rw [if_pos h2]
  rw [h3]

theorem zeroised_one (u : State) (p : Bool) (h1 : u.sec.zeroing = true) (h2 : u.rst.reach < 4) (h3 : u.sec.waits = [p]) (h4 : (u.sec.port p).op = 3 ∨ (u.sec.port p).op = 0x24) :
    ∃ y, u.zeroised = State.event { u with sec := y } 0x20030 1 ∧ Sec.replied { u.sec with zeroing := false, state := 3 } y p 0 [] := by
  obtain ⟨x, hx⟩ : ∃ x, x = { u.sec with zeroing := false, state := 3 } := ⟨_, rfl⟩
  have xw : x.waits = [p] := by rw [hx]; exact h3
  have xo : (x.port p).op = (u.sec.port p).op := by rw [hx]; cases p <;> rfl
  obtain ⟨y, e, r⟩ := end_one u x p 0 [] xw
  rw [← hx]
  refine ⟨y, ?_, r⟩
  rw [← e]
  unfold State.zeroised
  rw [h1, if_neg (by decide)]
  dsimp only
  rw [if_neg (show ¬ 4 ≤ u.rst.reach by omega), ← hx]
  rw [h3]
  dsimp only
  rw [xo, if_pos h4]

theorem health_eq (u : State) (h1 : u.on 21 = true) (h2 : u.sec.state ≤ 1) (h3 : u.sec.zeroing = false) :
    u.healthFail = (u.event 0x20030 2).setSec { u.sec with state := 2, approved := false } := by
  unfold State.healthFail
  rw [h1, h3, if_neg]
  rw [show decide (1 < u.sec.state) = false from decide_eq_false (by omega)]
  decide

theorem trip_record (u : State) (code : Nat) (c1 : 1 ≤ code) (c2 : code ≤ 6)
    (hr : 1 = (if code ≤ 4 then 3 else if code = 5 then u.sec.config / 2 % 4 else u.sec.config / 8 % 4)) :
    ∃ v : State, v = State.event { u with sec := { u.sec with tlog := code } } 0x20030 3 ∧
      u.tamperTrip code = v.record { rtype := 4, block := 10, w8 := (v.sq 0x20030).read } := by
  refine ⟨_, rfl, ?_⟩
  unfold State.tamperTrip
  dsimp only
  rw [← hr, if_neg (by omega), if_neg (by decide), if_pos rfl]

theorem trip_full (u : State) (code : Nat) (c1 : 1 ≤ code) (c2 : code ≤ 6)
    (hr : 3 = (if code ≤ 4 then 3 else if code = 5 then u.sec.config / 2 % 4 else u.sec.config / 8 % 4)) :
    u.tamperTrip code = (State.zeroise { u with sec := { u.sec with tlog := code } }).assertReset 1 := by
  unfold State.tamperTrip
  dsimp only
  rw [← hr, if_neg (by omega), if_pos rfl]
  rfl

theorem trip_none (u : State) (code : Nat)
    (hr : (if code ≤ 4 then 3 else if code = 5 then u.sec.config / 2 % 4 else u.sec.config / 8 % 4) = 0 ∨
      (if code ≤ 4 then 3 else if code = 5 then u.sec.config / 2 % 4 else u.sec.config / 8 % 4) = 2) :
    u.tamperTrip code = u := by
  unfold State.tamperTrip
  dsimp only
  by_cases c : code = 0 ∨ 6 < code
  · rw [if_pos c]
  · rw [if_neg c, if_neg (by omega), if_neg (by omega)]

end Sys2Proof.Laws.Security
end

