-- ==== Sys2Proof/Laws/SecurityData.lean ====
section
/-!
SUPPORT. What the security module's accesses to staging and its answers do to a state.
-/
namespace Sys2Proof.Laws.SecurityData
open Sys2Proof Sys2Proof.Machine

open Sys2Proof.Laws.Boot Sys2Proof.Laws.Security

theorem rest_sec {u v : State} (h : StgRest u v) : v.sec = u.sec := by
  obtain ⟨_, _, _, e⟩ := h
  rw [e]

theorem parts_sec (a : Nat) (l : List (Nat × Nat)) (u : State) (d : List Byte) : (u.parts (fun t x k _ => t.stgRead .sill x k) a d l).1.sec = u.sec :=
  rest_sec (parts_rest _ (fun u a n _ => stgRead_rest u .sill a n) a l u d)

theorem parts_sec' (a : Nat) (l : List (Nat × Nat)) (u : State) (d : List Byte) : (u.parts (fun t x _ d => t.stgWrite .sill x d []) a d l).1.sec = u.sec :=
  rest_sec (parts_rest _ (fun u a _ d => stgWrite_rest u .sill a d []) a l u d)

theorem secRead_eq (u : State) (a n : Nat) : u.secRead a n = ((u.parts (fun t x k _ => t.stgRead .sill x k) a [] (pieces 0x40000 a n)).1,
  if (u.parts (fun t x k _ => t.stgRead .sill x k) a [] (pieces 0x40000 a n)).2.err.isSome then none
  else some (u.parts (fun t x k _ => t.stgRead .sill x k) a [] (pieces 0x40000 a n)).2.data) := rfl

theorem secWrite_eq (u : State) (a : Nat) (d : List Byte) : u.secWrite a d = ((u.parts (fun t x _ d => t.stgWrite .sill x d []) a d (pieces 0x40000 a d.length)).1,
  (u.parts (fun t x _ d => t.stgWrite .sill x d []) a d (pieces 0x40000 a d.length)).2.err.isNone) := rfl

theorem secRead_sec (u v : State) (a n : Nat) (o : Option (List Byte)) (h : u.secRead a n = (v, o)) : v.sec = u.sec := by
  rw [secRead_eq] at h
  obtain ⟨h1, _⟩ := Prod.mk.inj h
  rw [← h1]
  exact parts_sec _ _ _ _

theorem secWrite_sec (u v : State) (a : Nat) (d : List Byte) (o : Bool) (h : u.secWrite a d = (v, o)) : v.sec = u.sec := by
  rw [secWrite_eq] at h
  obtain ⟨h1, _⟩ := Prod.mk.inj h
  rw [← h1]
  exact parts_sec' _ _ _ _

theorem in_ok (t u : State) (p : Bool) (a n : Nat) (d : List Byte) (go : State → List Byte → State) (h : n ≤ 0x100000) (e : t.secRead a n = (u, some d)) :
    t.withInput p a n go = go u d := by
  unfold State.withInput
  refine (if_neg (Nat.not_lt.2 h)).trans ?_
  rw [e]

theorem in_bad (t u : State) (p : Bool) (a n : Nat) (go : State → List Byte → State) (h : n ≤ 0x100000) (e : t.secRead a n = (u, none)) :
    t.withInput p a n go = u.secEnd p 3 [] := by
  unfold State.withInput
  refine (if_neg (Nat.not_lt.2 h)).trans ?_
  rw [e]

theorem in_long (t : State) (p : Bool) (a n : Nat) (go : State → List Byte → State) (h : 0x100000 < n) : t.withInput p a n go = t.secEnd p 2 [] := by
  unfold State.withInput
  exact if_pos h

theorem out_end (u w : State) (p : Bool) (a : Nat) (d : List Byte) {ok : Bool} (st : Nat) (rs : List Word) (e : u.secWrite a d = (w, ok))
    (hw : u.sec.waits = [p]) :
    ∃ y, u.outputEnd p a d st rs = { w with sec := y } ∧ u.sec.replied y p (if ok then st else 3) (if ok then rs else []) := by
  have ws : w.sec = u.sec := secWrite_sec u w a d ok e
  have e2 : u.outputEnd p a d st rs = w.secEnd p (if ok then st else 3) (if ok then rs else []) := by
    unfold State.outputEnd
    rw [e]
  obtain ⟨y, ey, r⟩ := end_one w u.sec p (if ok then st else 3) (if ok then rs else []) hw
  refine ⟨y, ?_, r⟩
  rw [e2, ← ey]
  unfold State.secEnd
  rw [ws]

theorem out_nil (u w : State) (p : Bool) (a : Nat) (d : List Byte) {ok : Bool} (st : Nat) (e : u.secWrite a d = (w, ok)) (hw : u.sec.waits = [p]) :
    ∃ y, u.outputEnd p a d st [] = { w with sec := y } ∧ u.sec.replied y p (if ok then st else 3) [] := by
  obtain ⟨y, ey, r⟩ := out_end u w p a d st [] e hw
  rw [ite_self] at r
  exact ⟨y, ey, r⟩

theorem with_key (t : State) (p : Bool) (i kind : Nat) (k : List Byte) (go : List Byte → State) (h : t.handle p i kind = some k) : t.withHandle p i kind go = go k := by
  unfold State.withHandle
  rw [h]

theorem no_key (t : State) (p : Bool) (i kind : Nat) (go : List Byte → State) (h : t.handle p i kind = none) : t.withHandle p i kind go = t.secEnd p 2 [] := by
  unfold State.withHandle
  rw [h]

/-- A bulk service whose handle holds no key of its kind. -/
theorem bulk_bare (s : State) (p : Bool) (src len : Nat) (i : Instr)
    (h : (∃ alg h, i = .hmac p alg h src len ∧ s.serves p 0x11 1 ∧ s.handle p h 1 = none) ∨
        (∃ h aad dst, i = .gcmEnc p h aad src len dst ∧ s.serves p 0x12 1 ∧ s.handle p h 1 = none) ∨
        (∃ h iv tag aad dst, i = .gcmDec p h iv tag aad src len dst ∧ s.serves p 0x13 1 ∧ s.handle p h 1 = none) ∨
        (∃ h1 h2 tw dst, i = .xtsEnc p h1 h2 tw src len dst ∧ s.serves p 0x14 1 ∧ (s.handle p h1 1 = none ∨ s.handle p h2 1 = none)) ∨
        (∃ h1 h2 tw dst, i = .xtsDec p h1 h2 tw src len dst ∧ s.serves p 0x15 1 ∧ (s.handle p h1 1 = none ∨ s.handle p h2 1 = none)) ∨
        (∃ h, i = .sign p h src len ∧ s.serves p 0x16 1 ∧ s.handle p h 2 = none)) :
    s.sec.waits = [p] ∧ exec i s = .next (s.finish (s.start.secEnd p 2 [])) := by
  have pair (a b : Nat) (go : List Byte → List Byte → State) (h : s.handle p a 1 = none ∨ s.handle p b 1 = none) :
      (s.start.withHandle p a 1 fun k => s.start.withHandle p b 1 fun l => go k l) = s.start.secEnd p 2 [] := by
    cases c : s.handle p a 1 with
    | none => exact no_key s.start p a 1 _ c
    | some k =>
      rw [with_key s.start p a 1 k _ c]
      exact no_key s.start p b 1 _ (h.resolve_left (by rw [c]; exact fun x => by cases x))
  rcases h with ⟨alg, h, rfl, h1, h2⟩ | ⟨h, aad, dst, rfl, h1, h2⟩ | ⟨h, iv, tag, aad, dst, rfl, h1, h2⟩ |
    ⟨x, y, tw, dst, rfl, h1, h2⟩ | ⟨x, y, tw, dst, rfl, h1, h2⟩ | ⟨h, rfl, h1, h2⟩
  · refine ⟨h1.2.2.1, ?_⟩
    rw [exec, execHmac, State.run_next, show s.start.svcHmac p alg h src len = _ from (serve_one s.start p _ _ _ h1).trans (no_key s.start p h 1 _ h2)]
  · refine ⟨h1.2.2.1, ?_⟩
    rw [exec, execGcmEnc, State.run_next, show s.start.svcGcmEnc p h aad src len dst = _ from (serve_one s.start p _ _ _ h1).trans (no_key s.start p h 1 _ h2)]
  · refine ⟨h1.2.2.1, ?_⟩
    rw [exec, execGcmDec, State.run_next, show s.start.svcGcmDec p h iv tag aad src len dst = _ from (serve_one s.start p _ _ _ h1).trans (no_key s.start p h 1 _ h2)]
  · refine ⟨h1.2.2.1, ?_⟩
    rw [exec, execXtsEnc, State.run_next, show s.start.svcXts p true x y tw src len dst = _ from (serve_one s.start p _ _ _ h1).trans (pair x y _ h2)]
  · refine ⟨h1.2.2.1, ?_⟩
    rw [exec, execXtsDec, State.run_next, show s.start.svcXts p false x y tw src len dst = _ from (serve_one s.start p _ _ _ h1).trans (pair x y _ h2)]
  · refine ⟨h1.2.2.1, ?_⟩
    rw [exec, execSign, State.run_next, show s.start.svcSign p h src len = _ from (serve_one s.start p _ _ _ h1).trans (no_key s.start p h 2 _ h2)]

theorem wrap_bad (t : State) (p : Bool) (h under : Nat) (e : t.anyHandle p h = none ∨ t.handle p under 1 = none) :
    (match t.anyHandle p h, t.handle p under 1 with
    | some x, some k => t.secEnd p 0 (wordsOf (firstBytes (x.key.length + 8) (Config.wrapByte true k x.key)))
    | _, _ => t.secEnd p 2 []) = t.secEnd p 2 [] := by
  rcases e with e | e <;> rw [e]
  cases t.anyHandle p h <;> rfl

theorem unwrap_bad (t : State) (p : Bool) (h under kind : Nat) (w : List Byte)
    (e : t.handle p under 1 = none ∨ 32 ≤ h ∨ (kind ≠ 1 ∧ kind ≠ 2) ∨ w.length ≠ (if kind = 1 then 32 else 48) + 8) :
    (match t.handle p under 1 with
    | none => t.secEnd p 2 []
    | some k =>
      let n := if kind = 1 then 32 else 48
      if 32 ≤ h ∨ (kind ≠ 1 ∧ kind ≠ 2) ∨ w.length ≠ n + 8 then t.secEnd p 2 []
      else if Config.unwrapOk k w then
        (t.setHandle h (some { kind := kind, key := firstBytes n (Config.wrapByte false k w), portS := p })).secEnd p 0 []
      else t.secEnd p 6 []) = t.secEnd p 2 [] := by
  cases c : t.handle p under 1 with
  | none => rfl
  | some k => exact if_pos (e.resolve_left (by rw [c]; exact fun x => by cases x))

/-- Every bulk service over a readable input is one function of the state and the data. -/
theorem bulk_shape (s : State) (p : Bool) (src len : Nat) (i : Instr)
    (h : (∃ alg, i = .secHash p alg src len ∧ s.serves p 0x10 1) ∨
        (∃ alg h k, i = .hmac p alg h src len ∧ s.serves p 0x11 1 ∧ s.handle p h 1 = some k) ∨
        (∃ h aad dst k, i = .gcmEnc p h aad src len dst ∧ s.serves p 0x12 1 ∧ s.handle p h 1 = some k) ∨
        (∃ h iv tag aad dst k, i = .gcmDec p h iv tag aad src len dst ∧ s.serves p 0x13 1 ∧ s.handle p h 1 = some k) ∨
        (∃ h1 h2 tw dst k l, i = .xtsEnc p h1 h2 tw src len dst ∧ s.serves p 0x14 1 ∧ s.handle p h1 1 = some k ∧ s.handle p h2 1 = some l) ∨
        (∃ h1 h2 tw dst k l, i = .xtsDec p h1 h2 tw src len dst ∧ s.serves p 0x15 1 ∧ s.handle p h1 1 = some k ∧ s.handle p h2 1 = some l) ∨
        (∃ h k, i = .sign p h src len ∧ s.serves p 0x16 1 ∧ s.handle p h 2 = some k) ∨
        (∃ pub sig, i = .verify p pub sig src len ∧ s.serves p 0x17 1)) :
    s.sec.waits = [p] ∧ ∃ go, exec i s = .next (s.finish (s.start.withInput p src len go)) := by
  rcases h with ⟨alg, rfl, h1⟩ | ⟨alg, h, k, rfl, h1, h2⟩ | ⟨h, aad, dst, k, rfl, h1, h2⟩ | ⟨h, iv, tag, aad, dst, k, rfl, h1, h2⟩ |
    ⟨x, y, tw, dst, k, l, rfl, h1, h2, h3⟩ | ⟨x, y, tw, dst, k, l, rfl, h1, h2, h3⟩ | ⟨h, k, rfl, h1, h2⟩ | ⟨pub, sig, rfl, h1⟩
  · refine ⟨h1.2.2.1, fun u d => u.secEnd p 0 (wordsOf (firstBytes (digestLen alg) (Config.hashByte alg d))), ?_⟩
    rw [exec, execSecHash, State.run_next, show s.start.svcHash p alg src len = _ from serve_one s.start p _ _ _ h1]
  · refine ⟨h1.2.2.1, fun u d => u.secEnd p 0 (wordsOf (firstBytes (digestLen alg) (Config.hmacByte alg k d))), ?_⟩
    rw [exec, execHmac, State.run_next, show s.start.svcHmac p alg h src len = _ from (serve_one s.start p _ _ _ h1).trans (with_key s.start p h 1 k _ h2)]
  · refine ⟨h1.2.2.1, fun u d => (u.random 12).1.outputEnd p dst (firstBytes d.length (Config.gcmByte true k (u.random 12).2 aad d)) 0 (wordsOf ((u.random 12).2 ++ firstBytes 16 (Config.gcmTagByte k (u.random 12).2 aad (firstBytes d.length (Config.gcmByte true k (u.random 12).2 aad d))))), ?_⟩
    rw [exec, execGcmEnc, State.run_next, show s.start.svcGcmEnc p h aad src len dst = _ from (serve_one s.start p _ _ _ h1).trans (with_key s.start p h 1 k _ h2)]
  · refine ⟨h1.2.2.1, fun u d => if tag = firstBytes 16 (Config.gcmTagByte k iv aad d) then u.outputEnd p dst (firstBytes d.length (Config.gcmByte false k iv aad d)) 0 [] else u.outputEnd p dst (zeros d.length) 6 [], ?_⟩
    rw [exec, execGcmDec, State.run_next, show s.start.svcGcmDec p h iv tag aad src len dst = _ from (serve_one s.start p _ _ _ h1).trans (with_key s.start p h 1 k _ h2)]
  · refine ⟨h1.2.2.1, fun u d => u.outputEnd p dst (firstBytes d.length (Config.xtsByte true k l tw d)) 0 [], ?_⟩
    rw [exec, execXtsEnc, State.run_next, show s.start.svcXts p true x y tw src len dst = _ from ((serve_one s.start p _ _ _ h1).trans (with_key s.start p x 1 k _ h2)).trans (with_key s.start p y 1 l _ h3)]
  · refine ⟨h1.2.2.1, fun u d => u.outputEnd p dst (firstBytes d.length (Config.xtsByte false k l tw d)) 0 [], ?_⟩
    rw [exec, execXtsDec, State.run_next, show s.start.svcXts p false x y tw src len dst = _ from ((serve_one s.start p _ _ _ h1).trans (with_key s.start p x 1 k _ h2)).trans (with_key s.start p y 1 l _ h3)]
  · refine ⟨h1.2.2.1, fun u d => (u.random 0).1.secEnd p 0 (wordsOf (firstBytes 96 (Config.ecdsaByte k d u.sec.drbg))), ?_⟩
    rw [exec, execSign, State.run_next, show s.start.svcSign p h src len = _ from (serve_one s.start p _ _ _ h1).trans (with_key s.start p h 2 k _ h2)]
  · refine ⟨h1.2.2.1, fun u d => u.secEnd p (if Config.ecdsaOk pub d sig then 0 else 6) [], ?_⟩
    rw [exec, execVerify, State.run_next, show s.start.svcVerify p pub sig src len = _ from serve_one s.start p _ _ _ h1]

/-- Sending an answer that rests on the module as the input left it. -/
theorem sec_end (s u : State) (p : Bool) (st : Nat) (rs : List Word) (hs : u.sec = s.sec) (hw : s.sec.waits = [p]) :
    ∃ y, u.secEnd p st rs = { u with sec := y } ∧ s.sec.replied y p st rs := by
  obtain ⟨y, e, r⟩ := end_one u s.sec p st rs hw
  refine ⟨y, ?_, r⟩
  rw [← e]
  unfold State.secEnd
  rw [hs]

end Sys2Proof.Laws.SecurityData
end

