-- ==== Sys2Proof/Laws/Services.lean ====
section
/-!
SUPPORT. What OTP services and UNLOCK do to a state.
-/
namespace Sys2Proof.Laws.Services
open Sys2Proof Sys2Proof.Machine

open Sys2Proof.Laws.Security Sys2Proof.Laws.SecurityData

theorem deny_one (u : State) (p : Bool) (op role : Nat) (run : State → State) (h : u.serves p op 0) (hr : (u.sec.port p).role < role) :
    ∃ y, u.service p op role run = { u with sec := y } ∧ u.sec.replied y p 4 [] := by
  obtain ⟨y, e, r⟩ := end_one u u.sec p 4 [] h.2.2.1
  refine ⟨y, ?_, r⟩
  unfold State.service
  rw [runs_of u p op 0 h, if_neg (by decide), if_pos hr, e]

theorem idle_one (u : State) (p : Bool) (op role : Nat) (run : State → State) (h : u.secRuns p op = false) : u.service p op role run = u := by
  unfold State.service
  rw [h, if_pos (by decide)]

/-- Every row of serviceOf is that service. -/
theorem service_row (i : Instr) (p : Bool) (op role : Nat) (h : serviceOf i = some (p, op, role)) (s : State) :
    ∃ run, exec i s = .next (s.finish (s.start.service p op role run)) := by
  cases i <;> cases h <;> exact ⟨_, rfl⟩

theorem fin_sec (s b : State) {p : Bool} {x : Sec} {st : Nat} {rs : List Word} (h : x.waits = [p]) :
    ∃ y, Host.Outcome.next (s.finish (b.setSec (x.answer p st rs))) = (.next (s.finish { b with sec := y }) : Host.Outcome State Fault Refusal) ∧ x.replied y p st rs := by
  obtain ⟨y, e, r⟩ := end_one b x p st rs h
  exact ⟨y, by rw [e], r⟩

theorem program_waits (x : Sec) (a : Nat) (d : List Byte) : (x.program a d).waits = x.waits := rfl

theorem fin_end (s u : State) {p : Bool} {st : Nat} {rs : List Word} (X : Sec) (h : X.waits = [p]) :
    ∃ y, Host.Outcome.next (s.finish (State.secEnd { u with sec := X } p st rs)) = (.next (s.finish { u with sec := y }) : Host.Outcome State Fault Refusal) ∧ X.replied y p st rs := by
  obtain ⟨y, e, r⟩ := end_one { u with sec := X } X p st rs h
  exact ⟨y, congrArg _ (congrArg _ e), r⟩

theorem otp_one (u : State) (p : Bool) (op : Nat) (run : State → State) (h : u.serves p op 2) (h4 : u.sec.anyHolds 4 = true) : u.otpService p op run = run u := by
  unfold State.otpService
  rw [serve_one u p op 2 _ h, if_pos h4]

theorem otp_none (u : State) (p : Bool) (op : Nat) (run : State → State) (h : u.serves p op 2) (h4 : u.sec.anyHolds 4 = false) :
    u.otpService p op run = u.secEnd p 4 [] := by
  unfold State.otpService
  rw [serve_one u p op 2 _ h, if_neg (by rw [h4]; decide)]

/-- OTP_KEY with arguments that do not fit. -/
theorem otpKey_bad (u : State) (p : Bool) (slot use h : Nat) (pub : List Byte) (h1 : u.sec.anyHolds 4 = true ∨ use = 4)
    (h2 : u.sec.anyHolds 4 = true → u.serves p 0x20 2) (h3 : u.sec.anyHolds 4 = false → u.serves p 0x20 0)
    (h4 : u.sec.slotEmpty slot = false ∨ 12 ≤ slot ∨ (slot < 8 ∧ (use = 0 ∨ 5 < use ∨ pub.length ≠ 49)) ∨
      (8 ≤ slot ∧ (use ≠ 6 ∨ u.handle p h 1 = none))) :
    u.svcOtpKey p slot use h pub = u.secEnd p 2 [] := by
  unfold State.svcOtpKey
  dsimp only
  have sv : u.serves p 0x20 (if (!u.sec.anyHolds 4 && decide (use = 4)) = true then 0 else 2) := by
    cases c : u.sec.anyHolds 4 with
    | true => exact h2 c
    | false =>
      rw [show (!false && decide (use = 4)) = true from by rw [decide_eq_true (h1.resolve_left (by rw [c]; decide))]; rfl, if_pos rfl]
      exact h3 c
  rw [serve_one u p 0x20 _ _ sv, if_neg]
  · by_cases c : (!u.sec.slotEmpty slot || decide (12 ≤ slot)) = true
    · rw [if_pos c]
    · rw [if_neg c]
      rw [Bool.or_eq_true, not_or, decide_eq_true_eq] at c
      have c1 : u.sec.slotEmpty slot = true := by
        cases d : u.sec.slotEmpty slot with
        | true => rfl
        | false => exact absurd (by rw [d]; rfl) c.1
      rcases h4 with h4 | h4 | h4 | h4
      · rw [c1] at h4; cases h4
      · exact absurd h4 c.2
      · rw [if_pos h4.1, if_pos h4.2]
      · rw [if_neg (by omega)]
        cases d : u.handle p h 1 with
        | none => rfl
        | some k => exact if_pos (h4.2.resolve_right (by rw [d]; exact fun x => by cases x))
  · rintro ⟨a, b⟩
    rcases h1 with h1 | h1
    · rw [h1] at a; cases a
    · exact b h1

/-- What a good token leaves of the module. -/
theorem unlock_now (u : State) (p : Bool) (t : List Byte) (x0 z : Sec) (hw : u.sec.waits = [p])
    (h0 : x0 = if u.sec.approved then u.sec.program (0x3D0 + u.sec.departs / 8) [BitVec.ofNat 8 (2 ^ (u.sec.departs % 8))] else u.sec)
    (hz : z = { x0 with
      handles := [], h := { x0.h with role := 0, nonce := none }, s := { x0.s with role := 0, nonce := none }, drbg := x0.drbg + 1,
      approved := false, left := x0.left || u.sec.approved, scope := ofBytes (tokenField t 4 4), dbgLeft := ofBytes (tokenField t 0x30 4) }) :
    z.replied (u.unlockNow p t).sec p 0 [] ∧ (u.unlockNow p t).bays = u.bays ∧
      (u.unlockNow p t).sq 0x20030 = (if u.sec.approved then (u.sq 0x20030).event 4 else u.sq 0x20030) := by
  have zw : z.waits = [p] := by
    rw [hz, h0]
    show (if u.sec.approved = true then _ else u.sec).waits = [p]
    split
    · exact hw
    · exact hw
  obtain ⟨v, hv⟩ : ∃ v : State, v = { u with sec := z } := ⟨_, rfl⟩
  have e : u.unlockNow p t = (if u.sec.approved then (v.event 0x20030 4).record { rtype := 3, block := 10, w8 := ((v.event 0x20030 4).sq 0x20030).read } else v).secEnd p 0 [] := by
    rw [hv, hz, h0]
    rfl
  obtain ⟨w, hw'⟩ : ∃ w : State, w = (if u.sec.approved then (v.event 0x20030 4).record { rtype := 3, block := 10, w8 := ((v.event 0x20030 4).sq 0x20030).read } else v) := ⟨_, rfl⟩
  rw [e, ← hw']
  have f : w.sec = z ∧ w.bays = u.bays ∧ w.sq 0x20030 = (if u.sec.approved then (u.sq 0x20030).event 4 else u.sq 0x20030) := by
    rw [hw']
    cases u.sec.approved with
    | false =>
      rw [if_neg (by decide), if_neg (by decide), hv]
      exact ⟨rfl, rfl, rfl⟩
    | true =>
      rw [if_pos rfl, if_pos rfl]
      obtain ⟨a, ha⟩ : ∃ a, a = v.event 0x20030 4 := ⟨_, rfl⟩
      rw [← ha]
      have rr := a.record_rest { rtype := 3, block := 10, w8 := (a.sq 0x20030).read }
      have rq := rr.sq (a := 0x20030) (by decide)
      rw [rq]
      obtain ⟨_, _, _, er, _⟩ := rr
      rw [er, ha, hv]
      refine ⟨rfl, rfl, ?_⟩
      show (State.setSq _ 0x20030 _).sq 0x20030 = _
      rw [State.sq_setSq]
      rfl
  obtain ⟨y, ey, r⟩ := end_one w z p 0 [] zw
  have e3 : w.secEnd p 0 [] = { w with sec := y } := by
    rw [← ey]
    unfold State.secEnd
    rw [f.1]
  rw [e3]
  exact ⟨r, f.2.1, f.2.2⟩

end Sys2Proof.Laws.Services
end

