-- ==== Sys2Proof/Laws/SlowPorts.lean ====
section
/-!
SUPPORT. What the xSPI, SMBus, UART and pin commands do to a state.
-/
namespace Sys2Proof.Laws.SlowPorts
open Sys2Proof Sys2Proof.Machine

theorem row_of {a : Nat} (h : ((regRow a).any fun r => decide (r.kind ≠ .sq)) = true) : ∃ r, regRow a = some r ∧ r.kind ≠ .sq := by
  rw [Option.any_eq_true] at h
  obtain ⟨r, h1, h2⟩ := h
  exact ⟨r, h1, of_decide_eq_true h2⟩

theorem slow_go (u : State) (a : Nat) (v : Word) (h : u.wideHeld = false) (ha : a = 0x48000004 ∨ a = 0x48001004) :
    u.regWrite .sill a v = u.slowWrite a v := by
  have hrow : ((regRow a).any fun r => decide (r.kind ≠ .sq)) = true := by rcases ha with rfl | rfl <;> decide
  obtain ⟨r, hr, hk⟩ := row_of hrow
  rw [u.regWrite_slow v h (by omega) (by omega) hr, if_neg hk]

theorem xspi_eq (u : State) (v : Word) (hv : bitAt v 31 = true) (h : u.mx.xBusy = false) (n k : Nat) (hn : n = fld (u.reg 0x4800000C) 0 9)
    (hk : k = (if bitAt v 18 then ceilDiv (min 256 n) 4 else 0)) :
    (u.xspiCmd v).reg 0x48000004 = ((u.reg 0x48000004 &&& ~~~ 0x7F0FF#32) ||| (v &&& 0x7F0FF#32)) ∧
          (u.xspiCmd v).mx = { u.mx with xBusy := true, xDone := false, xTx := u.mx.xTx.drop k } ∧
          (u.xspiCmd v).out = u.out ++ [.xspi (v &&& 0x7FFFFFFF#32) (u.reg 0x48000008) (wd n) (u.mx.xTx.take k)] ∧ (u.xspiCmd v).bays = u.bays := by
  have e : (if 256 < n then 256 else n) = min 256 n := by split <;> omega
  unfold State.xspiCmd
  rw [h, hv, if_neg (by decide), if_neg (by decide)]
  dsimp only
  rw [← hn, e, ← hk]
  exact ⟨State.reg_setReg _ _ _, rfl, rfl, rfl⟩

theorem gpio_fold (m : Nat → Nat) (old g : Word) : ∀ (l : List Nat) (x : State), (∀ n, x.gpioMode n = m n) → x.gpioIn = g →
    ∃ q, l.foldl (fun (t : State) n =>
      if (t.gpioMode n = 1 ∧ bitAt old n = false ∧ bitAt t.gpioIn n = true) ∨ (t.gpioMode n = 2 ∧ bitAt old n = true ∧ bitAt t.gpioIn n = false) then t.event 0x48003014 n
      else t) x = { x with regs := { x.regs with sqs := q } } ∧ (∀ a, a ≠ 0x48003014 → tgetD ({} : Sq) q a = x.sq a) ∧
      tgetD ({} : Sq) q 0x48003014 = (l.filter fun n => (decide (m n = 1) && !bitAt old n && bitAt g n) ||
          (decide (m n = 2) && bitAt old n && !bitAt g n)).foldl Sq.event (x.sq 0x48003014)
  | [], x, _, _ => ⟨x.regs.sqs, rfl, fun _ _ => rfl, rfl⟩
  | n :: l, x, hm, hg => by
    rw [List.foldl_cons, List.filter_cons, hm n, hg]
    by_cases c : (m n = 1 ∧ bitAt old n = false ∧ bitAt g n = true) ∨ (m n = 2 ∧ bitAt old n = true ∧ bitAt g n = false)
    · rw [if_pos c, if_pos (by rcases c with ⟨c1, c2, c3⟩ | ⟨c1, c2, c3⟩ <;> rw [c1, c2, c3] <;> rfl)]
      obtain ⟨q, q1, q2, q3⟩ := gpio_fold m old g l (x.event 0x48003014 n) hm hg
      refine ⟨q, q1, fun a ha => (q2 a ha).trans (tgetD_tsetD_ne _ _ _ ha), ?_⟩
      rw [q3, State.sq_event]
      rfl
    · rw [if_neg c, if_neg]
      · exact gpio_fold m old g l x hm hg
      · intro d
        apply c
        cases h1 : bitAt old n <;> cases h2 : bitAt g n <;> simp [h1, h2] at d ⊢ <;> exact d

theorem fld_hi (v : Word) (i n : Nat) (h : i + n ≤ 31) : fld (v ||| 0x80000000#32) i n = fld v i n := by
  unfold fld
  refine Nat.eq_of_testBit_eq fun j => ?_
  rw [Nat.testBit_mod_two_pow, Nat.testBit_mod_two_pow]
  by_cases c : j < n
  · rw [Nat.testBit_div_two_pow, Nat.testBit_div_two_pow, BitVec.toNat_or, Nat.testBit_or]
    have : (0x80000000#32).toNat.testBit (i + j) = false := by
      show (2 ^ 31).testBit (i + j) = false
      rw [Nat.testBit_two_pow]
      simp; omega
    rw [Nat.add_comm j i, this, Bool.or_false]
  · simp [c]

theorem smbXfer_eq (u : State) (v : Word) (hv : bitAt v 31 = true) (h1 : u.mx.smbBusy = false) (h2 : bitAt (u.reg 0x48001000) 4 = true) :
    (u.smbXfer v).mx = { u.mx with smbBusy := true, sTx := u.mx.sTx.drop (min 32 (fld v 8 8)) } ∧
    (u.smbXfer v).out = u.out ++ [.smbus (fld v 1 7) (fld v 16 8) (u.mx.sTx.take (min 32 (fld v 8 8)))] ∧ (u.smbXfer v).bays = u.bays ∧
    (u.smbXfer v).reg 0x48001004 = ((u.reg 0x48001004 &&& ~~~ 0xFFFFFE#32) ||| (v &&& 0xFFFFFE#32)) := by
  have e : (if 32 < fld v 8 8 then 32 else fld v 8 8) = min 32 (fld v 8 8) := by split <;> omega
  unfold State.smbXfer
  dsimp only
  rw [hv, h1, h2, if_neg (by decide), e]
  exact ⟨rfl, rfl, rfl, State.reg_setReg _ _ _⟩

/-- GO while a transfer runs, or with the interface disabled, only writes the register's fields. -/
theorem smbXfer_stay (u : State) (v : Word) (h : u.mx.smbBusy = true ∨ bitAt (u.reg 0x48001000) 4 = false) :
    (u.smbXfer v).mx = u.mx ∧ (u.smbXfer v).out = u.out ∧ (u.smbXfer v).bays = u.bays ∧
    (u.smbXfer v).reg 0x48001004 = ((u.reg 0x48001004 &&& ~~~ 0xFFFFFE#32) ||| (v &&& 0xFFFFFE#32)) := by
  have e : u.smbXfer v = u.writeRw 0x48001004 0xFFFFFE v := by
    unfold State.smbXfer
    dsimp only
    rw [if_pos]
    rcases h with h | h <;> rw [h] <;> simp
  rw [e]
  exact ⟨rfl, rfl, rfl, State.reg_setReg _ _ _⟩

/-- GO is none of the bits SMB_XFER keeps. -/
theorem xfer_mask (v : Word) : (v ||| 0x80000000#32) &&& 0xFFFFFE#32 = v &&& 0xFFFFFE#32 := by
  rw [BitVec.and_comm, BitVec.and_or_distrib_left, show 0xFFFFFE#32 &&& 0x80000000#32 = 0#32 from rfl, BitVec.or_zero, BitVec.and_comm]

theorem opt_event (c : Prop) [Decidable c] (x y : State) (a i : Nat) (h : y = if c then x.event a i else x) :
    y.mx = x.mx ∧ y.bays = x.bays ∧ y.regs.words = x.regs.words ∧ y.sq a = if c then (x.sq a).event i else x.sq a := by
  subst h
  split
  · exact ⟨rfl, rfl, rfl, State.sq_event _ _ _⟩
  · exact ⟨rfl, rfl, rfl, rfl⟩

theorem smbDone_eq (u : State) (ack pec : Bool) (data : List Byte) (h : u.mx.smbBusy = true) :
    (u.smbDone ack pec data).mx = { u.mx with smbBusy := false, sRx := (u.mx.sRx ++ (if ack then data else [])).take 32 } ∧
    (u.smbDone ack pec data).sq 0x4800100C = ((if bitAt (u.reg 0x48001000) 2 && !pec then
      (if ack then u.sq 0x4800100C else (u.sq 0x4800100C).event 1).event 2 else (if ack then u.sq 0x4800100C else (u.sq 0x4800100C).event 1)).event 0) ∧
    (u.smbDone ack pec data).bays = u.bays := by
  obtain ⟨x, hx⟩ : ∃ x : State, x = { u with mx := { u.mx with smbBusy := false, sRx := fifoPush 32 u.mx.sRx (if ack then data else []) } } := ⟨_, rfl⟩
  obtain ⟨y, hy⟩ : ∃ y : State, y = if ¬ (ack = true) then x.event 0x4800100C 1 else x := ⟨_, rfl⟩
  obtain ⟨z, hz⟩ : ∃ z : State, z = if (bitAt (u.reg 0x48001000) 2 && !pec) = true then y.event 0x4800100C 2 else y := ⟨_, rfl⟩
  have e : u.smbDone ack pec data = z.event 0x4800100C 0 := by
    unfold State.smbDone
    rw [if_neg (by rw [h]; decide)]
    dsimp only
    rw [hz, hy, ite_not, hx]
  obtain ⟨z1, z2, z3, z4⟩ := opt_event _ y z _ _ hz
  obtain ⟨y1, y2, y3, y4⟩ := opt_event _ x y _ _ hy
  rw [e]
  refine ⟨?_, ?_, ?_⟩
  · show z.mx = _
    rw [z1, y1, hx]; rfl
  · rw [State.sq_event, z4, y4, ite_not, hx]; rfl
  · show z.bays = _
    rw [z2, y2, hx]

theorem smbTarget_eq (u : State) (pec : Bool) (data : List Byte) (h1 : bitAt (u.reg 0x48001000) 4 = true) (h2 : bitAt (u.reg 0x48001000) 3 = true) :
    (u.smbTarget pec data).mx = { u.mx with sRx := (u.mx.sRx ++ data).take 32 } ∧
    (u.smbTarget pec data).sq 0x4800100C = ((if bitAt (u.reg 0x48001000) 2 && !pec then (u.sq 0x4800100C).event 2 else u.sq 0x4800100C).event 3) ∧
    (u.smbTarget pec data).bays = u.bays := by
  unfold State.smbTarget
  dsimp only
  rw [h1, h2, if_neg (by decide), State.sq_event]
  by_cases c : (bitAt (u.reg 0x48001000) 2 && !pec) = true
  · rw [if_pos c, if_pos c, State.sq_event]
    exact ⟨rfl, rfl, rfl⟩
  · rw [if_neg c, if_neg c]
    exact ⟨rfl, rfl, rfl⟩

end Sys2Proof.Laws.SlowPorts
end

