-- ==== Sys2Proof/Laws/Stores.lean ====
section
/-!
SUPPORT. What outside words, staging accesses, ownership and March tests do to a state.
-/
namespace Sys2Proof.Laws.Stores
open Sys2Proof Sys2Proof.Machine

/-- What an outside word needs of the port: while the bay runs and is not held, one more word waits for it (R275). -/
theorem claimPort_one (c : Bay) (waited : Bool) :
    ∃ p, c.claimPort 1 waited = { c with pipe := p } ∧ p.pc = c.pipe.pc ∧ p.flights = c.pipe.flights ∧
      p.words = c.pipe.words + nbit (decide (c.state = 3) && !c.held) := by
  unfold Bay.claimPort
  by_cases h : c.state = 3 ∧ (!c.held) = true
  · rw [if_pos h]
    exact ⟨_, rfl, rfl, rfl, by simp [h.1, h.2, nbit]⟩
  · rw [if_neg h]
    refine ⟨c.pipe, rfl, rfl, rfl, ?_⟩
    have : (decide (c.state = 3) && !c.held) = false := by
      by_cases h3 : c.state = 3
      · have : c.held = true := by by_contra hn; exact h ⟨h3, by simpa using hn⟩
        simp [this]
      · simp [h3]
    rw [this]; rfl

/-- Upsets of a bay's stores change marks alone. -/
theorem upset_rest : ∀ (u : List (Nat × Nat × Nat)) (c : Bay), ∃ x y, c.upset u = { c with smarks := x, imarks := y }
  | [], c => ⟨_, _, rfl⟩
  | e :: t, c => by
    by_cases h : e.1 = 0
    · obtain ⟨x, y, ih⟩ := upset_rest t { c with smarks := setMark c.smarks (e.2.1 % 98304) (e.2.2 % 3) }
      refine ⟨x, y, ?_⟩
      have : c.upset (e :: t) = Bay.upset { c with smarks := setMark c.smarks (e.2.1 % 98304) (e.2.2 % 3) } t := by
        unfold Bay.upset; rw [List.foldl_cons, if_pos h]
      rw [this, ih]
    · obtain ⟨x, y, ih⟩ := upset_rest t { c with imarks := setMark c.imarks (e.2.1 % 16384) (e.2.2 % 3) }
      refine ⟨x, y, ?_⟩
      have : c.upset (e :: t) = Bay.upset { c with imarks := setMark c.imarks (e.2.1 % 16384) (e.2.2 % 3) } t := by
        unfold Bay.upset; rw [List.foldl_cons, if_neg h]
      rw [this, ih]

/-- An outside word reaches a bay in which no March test runs. -/
theorem outside_eq (s : State) (b a : Nat) (write : Bool) (v : Word) (poison waited : Bool) (u : List (Nat × Nat × Nat))
    (hb : b < 256) (hr : s.bayReached b = true) (hm : (s.bay b).march = false) :
    s.outsideWord b a write v poison waited u = (s.onBay b fun c => (c.upset u).claimPort 1 waited).outWord b
      { addr := a / 4 * 4, write := write, val := v, poison := poison } := by
  unfold State.outsideWord
  dsimp only
  rw [if_neg (by simp [hr]; omega), if_neg (by simp [hm])]

/-- A word of scratch that the scrubber, or an outside reader, finds free of uncorrectable errors keeps its data. -/
theorem scrRead_keeps (c : Bay) (k : Nat) (f : Bool) (h : markOf c.smarks (k / 4) ≠ 2) :
    (c.scrRead k f).ue = false ∧ (c.scrRead k f).val = c.scrWord k ∧
      (c.scrRead k f).poison = decide (2 ≤ markOf c.smarks (k / 4)) ∧ (c.scrRead k f).bay.gp = c.gp ∧
      (c.scrRead k f).bay.scratch = c.scratch ∧ (c.scrRead k f).bay.istore = c.istore ∧ (c.scrRead k f).bay.pipe = c.pipe ∧
      (c.scrRead k f).bay.smarks = c.smarks ∧ (c.scrRead k f).bay.state = c.state := by
  unfold Bay.scrRead
  dsimp only
  split
  · rename_i e; rw [e]; exact ⟨rfl, rfl, rfl, rfl, rfl, rfl, rfl, rfl, rfl⟩
  · rename_i e; rw [e]; exact ⟨rfl, rfl, rfl, rfl, rfl, rfl, rfl, rfl, rfl⟩
  · rename_i e; exact absurd e h
  · rename_i h0 h1 h2
    refine ⟨rfl, rfl, ?_, rfl, rfl, rfl, rfl, rfl, rfl⟩
    have n0 : markOf c.smarks (k / 4) ≠ 0 := h0
    have n1 : markOf c.smarks (k / 4) ≠ 1 := h1
    have : 2 ≤ markOf c.smarks (k / 4) := by omega
    simp [this]

/-- A scrub read of a word without an uncorrectable error changes no data. -/
theorem scrub_keeps (c : Bay) (p : Nat) (h1 : p < 98304 → markOf c.smarks p ≠ 2) (h2 : markOf c.imarks (p - 98304) ≠ 2 ∨ p < 98304) :
    (c.scrub p).gp = c.gp ∧ (c.scrub p).scratch = c.scratch ∧ (c.scrub p).istore = c.istore ∧ (c.scrub p).pipe = c.pipe ∧
      (c.scrub p).state = c.state := by
  unfold Bay.scrub
  by_cases hp : p < 98304
  · rw [if_pos hp]
    have d : 4 * p / 4 = p := by omega
    obtain ⟨e1, -, -, e4, e5, e6, e7, -, e9⟩ := scrRead_keeps c (4 * p) (c.inFrame (4 * p)) (by rw [d]; exact h1 hp)
    dsimp only
    rw [if_neg (by simp [e1])]
    exact ⟨e4, e5, e6, e7, e9⟩
  · rw [if_neg hp]
    split
    · exact ⟨rfl, rfl, rfl, rfl, rfl⟩
    · rename_i e; exact absurd e (by rcases h2 with h | h; exact h; exact absurd h hp)
    · exact ⟨rfl, rfl, rfl, rfl, rfl⟩

theorem bay_setBay_self (u : State) (b k : Nat) : (u.setBay b (u.bay b)).bay k = u.bay k := by
  by_cases h : k = b
  · subst h; exact State.bay_setBay _ _ _
  · exact State.bay_setBay_ne _ _ h

/-- A record leaves the place of the staging scrubber. -/
theorem record_scrub (u : State) (e : Event) : (u.record e).bg.stgScrub = u.bg.stgScrub := by
  have t : u.ceTick.bg.stgScrub = u.bg.stgScrub := by unfold State.ceTick; split <;> rfl
  have a : ∀ ws ty cls, (u.ceTick.accept ws ty cls).bg.stgScrub = u.bg.stgScrub := by
    intro ws ty cls
    rw [← t]
    unfold State.accept
    dsimp only
    repeat' split
    all_goals rfl
  unfold State.record
  dsimp only
  split
  · split
    · exact t
    · exact a _ _ _
  · exact a _ _ _

/-- A word of a bank is read: it is poisoned when its mark says so; nothing but marks, records and registers changes. -/
theorem stgWord_eq (u : State) (n w : Nat) :
    (u.stgWord n w).2 = decide (2 ≤ markOf (u.bank n).marks w) ∧
      (∃ m, (u.stgWord n w).1.bank n = { u.bank n with marks := m } ∧ ∀ k, k ≠ w → markOf m k = markOf (u.bank n).marks k) ∧
      (∀ k, k ≠ n → (u.stgWord n w).1.bank k = u.bank k) ∧ (u.stgWord n w).1.bays = u.bays ∧
      (u.stgWord n w).1.out = u.out ∧ (u.stgWord n w).1.bg.stgScrub = u.bg.stgScrub := by
  have mk : ∀ (m : Marks) x k, k ≠ w → markOf (setMark m w x) k = markOf m k := fun m x k h => tgetD_tsetD_ne _ _ _ h
  have eb : ∀ (x : State) c a b d e k, (x.err c a b d e).bank k = x.bank k := by
    intro x c a b d e k
    obtain ⟨B, cs, q, h, -⟩ := x.err_rest c a b d e
    rw [h]; rfl
  have ex : ∀ (x : State) c a b d e, (x.err c a b d e).bays = x.bays ∧ (x.err c a b d e).out = x.out ∧
      (x.err c a b d e).bg.stgScrub = x.bg.stgScrub := by
    intro x c a b d e
    obtain ⟨B, cs, q, h, -⟩ := x.err_rest c a b d e
    exact ⟨by rw [h], by rw [h], record_scrub _ _⟩
  unfold State.stgWord
  dsimp only
  split
  · rename_i e
    rw [e]
    exact ⟨rfl, ⟨_, rfl, fun k _ => rfl⟩, fun k _ => rfl, rfl, rfl, rfl⟩
  · rename_i e
    rw [e]
    refine ⟨rfl, ⟨_, (eb _ _ _ _ _ _ _).trans (State.bank_setBank _ _ _), fun k hk => mk _ _ k hk⟩,
      fun k hk => (eb _ _ _ _ _ _ _).trans (State.bank_setBank_ne _ _ hk), ?_, ?_, ?_⟩
    · exact (ex _ _ _ _ _ _).1
    · exact (ex _ _ _ _ _ _).2.1
    · exact (ex _ _ _ _ _ _).2.2
  · rename_i e
    rw [e]
    refine ⟨rfl, ⟨_, (eb _ _ _ _ _ _ _).trans (State.bank_setBank _ _ _), fun k hk => mk _ _ k hk⟩,
      fun k hk => (eb _ _ _ _ _ _ _).trans (State.bank_setBank_ne _ _ hk), ?_, ?_, ?_⟩
    · exact (ex _ _ _ _ _ _).1
    · exact (ex _ _ _ _ _ _).2.1
    · exact (ex _ _ _ _ _ _).2.2
  · rename_i h0 h1 h2
    have n0 : markOf (u.bank n).marks w ≠ 0 := h0
    have n1 : markOf (u.bank n).marks w ≠ 1 := h1
    refine ⟨?_, ⟨_, rfl, fun k _ => rfl⟩, fun k _ => rfl, rfl, rfl, rfl⟩
    have : 2 ≤ markOf (u.bank n).marks w := by omega
    simp [this]

/-- Words of a bank are read: the poisoned ones are those whose marks say so, and no byte of any bank changes. -/
theorem stgWords_eq (n base : Nat) : ∀ (l : List Nat) (u : State), l.Nodup →
    (u.stgWords n base l).2 = (l.filter fun w => decide (2 ≤ markOf (u.bank n).marks w)).map (· - base) ∧
      (∃ m, (u.stgWords n base l).1.bank n = { u.bank n with marks := m } ∧
        ∀ k, k ∉ l → markOf m k = markOf (u.bank n).marks k) ∧
      (∀ k, k ≠ n → (u.stgWords n base l).1.bank k = u.bank k) ∧ (u.stgWords n base l).1.bays = u.bays ∧
      (u.stgWords n base l).1.out = u.out ∧ (u.stgWords n base l).1.bg.stgScrub = u.bg.stgScrub
  | [], u, _ => ⟨rfl, ⟨_, rfl, fun k _ => rfl⟩, fun k _ => rfl, rfl, rfl, rfl⟩
  | w :: t, u, h => by
    rw [List.nodup_cons] at h
    obtain ⟨e1, ⟨m, e2, e3⟩, e4, e5, e6, e7⟩ := stgWord_eq u n w
    obtain ⟨i1, ⟨m', i2, i3⟩, i4, i5, i6, i7⟩ := stgWords_eq n base t (u.stgWord n w).1 h.2
    rw [State.stgWords]
    dsimp only
    refine ⟨?_, ⟨m', ?_, fun k hk => ?_⟩, fun k hk => (i4 k hk).trans (e4 k hk), i5.trans e5, i6.trans e6, i7.trans e7⟩
    · rw [i1, e1, e2]
      have : t.filter (fun x => decide (2 ≤ markOf m x)) = t.filter (fun x => decide (2 ≤ markOf (u.bank n).marks x)) := by
        apply List.filter_congr
        intro x hx
        rw [e3 x (by rintro rfl; exact h.1 hx)]
      rw [this, List.filter_cons]
      split <;> simp_all
    · rw [i2, e2]
    · rw [List.mem_cons, not_or] at hk
      rw [i3 k hk.2, e2, e3 k hk.1]

theorem wordSpan_nodup (a n : Nat) : (wordSpan a n).Nodup := by
  unfold wordSpan
  exact List.Nodup.map (fun x y h => by simpa using h) List.nodup_range

theorem bank_setBank_self (u : State) (n k : Nat) : (u.setBank n (u.bank n)).bank k = u.bank k := by
  by_cases h : k = n
  · subst h; exact State.bank_setBank _ _ _
  · exact State.bank_setBank_ne _ _ h

/-- Upsets of a bank change its marks alone. -/
theorem stgUpset_eq (u : State) (n : Nat) (l : List (Nat × Nat)) :
    ∃ m, (u.stgUpset n l).bank n = { u.bank n with marks := m } ∧ (∀ k, k ≠ n → (u.stgUpset n l).bank k = u.bank k) ∧
      u.stgUpset n l = u.setBank n { u.bank n with marks := m } :=
  ⟨_, State.bank_setBank _ _ _, fun _ hk => State.bank_setBank_ne _ _ hk, rfl⟩

theorem refuses_none (u : State) (n : Nat) (ag : Agent) (w : Bool) (h1 : (u.bank n).awake = true)
    (h2 : w = true → ag ≠ .raisingUnit → u.planLocks n = false)
    (h3 : ownerAllows n (u.bank n).ownKind (u.bank n).ownBay (u.logBank n) ag w = true) : u.stgRefuses n ag w = none := by
  unfold State.stgRefuses
  dsimp only
  rw [if_neg (by simp [h1]), if_neg (by cases w <;> by_cases h : ag = .raisingUnit <;> simp_all), if_pos h3]

theorem refuses_owner (u : State) (n : Nat) (ag : Agent) (w : Bool) (h1 : (u.bank n).awake = true)
    (h3 : ownerAllows n (u.bank n).ownKind (u.bank n).ownBay (u.logBank n) ag w = false) :
    u.stgRefuses n ag w = some .notOwner := by
  unfold State.stgRefuses
  dsimp only
  rw [if_neg (by simp [h1])]
  split
  · rfl
  · rw [if_neg (by simp [h3])]

theorem refuses_retained (u : State) (n : Nat) (ag : Agent) (w : Bool) (h1 : (u.bank n).awake = false) :
    u.stgRefuses n ag w = some .retained := by
  unfold State.stgRefuses
  dsimp only
  rw [if_pos (by simp [h1])]

/-- Scrambling draws free values, and changes nothing of the device. -/
theorem scramble_rest (codes : Nat) : ∀ (l : List Nat) (s : State) (m : Mem) (k : Marks),
    ∃ f, (s.scrambleWords codes m k l).1 = { s with free := f }
  | [], s, _, _ => ⟨s.free, rfl⟩
  | w :: t, s, m, k => by
    obtain ⟨f, h⟩ := scramble_rest codes t s.draw.1.draw.1 (m.putWord (4 * w) s.draw.2)
      (setMark k w (s.draw.1.draw.2.toNat % codes))
    refine ⟨f, ?_⟩
    rw [State.scrambleWords]
    exact h

theorem serveWaiting_none (s : State) (b : Nat) (h : (s.bay b).outq = []) :
    s.serveWaiting b = s.onBay b fun c => { c with outq := [] } := by
  unfold State.serveWaiting
  rw [h]
  rfl

theorem writeRw_rest (u : State) (a m : Nat) (v : Word) : ∃ w, u.writeRw a m v = u.setReg a w := ⟨_, rfl⟩

theorem marchStart_ok (u : State) (g : Nat) (v : Word) (hg : g < 16) (h1 : tgetD none u.stg.tests g = none) (h2 : fld v 4 4 < 12)
    (h3 : (u.bank (12 * g + fld v 4 4)).ownKind = 5) (h4 : (u.bank (12 * g + fld v 4 4)).awake = true)
    (h5 : u.bankBusy (12 * g + fld v 4 4) = false) (hv : bitAt v 0 = true) :
    ∃ w, u.marchWrite g v = { (((u.setReg (0xB0400 + 0x10 * g) w).setReg (0xB0408 + 0x10 * g) 0#32).setReg (0xB0404 + 0x10 * g) 0#32) with
      stg := { u.stg with tests := tsetD none u.stg.tests g (some { bank := fld v 4 4, preserve := bitAt v 8 }) } } := by
  obtain ⟨w, e⟩ := writeRw_rest u (0xB0400 + 0x10 * g) 0x1F0 v
  refine ⟨w, ?_⟩
  unfold State.marchWrite
  rw [if_neg (by omega), e]
  dsimp only
  have h1' : tgetD none (u.setReg (0xB0400 + 0x10 * g) w).stg.tests g = none := h1
  have h3' : ((u.setReg (0xB0400 + 0x10 * g) w).bank (12 * g + fld v 4 4)).ownKind = 5 := h3
  have h4' : ((u.setReg (0xB0400 + 0x10 * g) w).bank (12 * g + fld v 4 4)).awake = true := h4
  have h5' : (u.setReg (0xB0400 + 0x10 * g) w).bankBusy (12 * g + fld v 4 4) = false := h5
  rw [if_neg (by rw [hv, h1]; simp), if_pos (by rw [h3', h4', h5']; simp [h2])]
  rfl

theorem bayMarchStart_ok (u : State) (b : Nat) (v : Word) (h1 : tgetD none u.stg.bayTests b = none) (h2 : fld v 4 2 ≠ 3)
    (h3 : (u.bay b).state = 2) (hv : bitAt v 0 = true) :
    ∃ w, u.bayMarchWrite b v = ({ (((u.setReg (0xB1000 + 0x10 * b) w).setReg (0xB1000 + 0x10 * b + 8) 0#32).setReg (0xB1000 + 0x10 * b + 4) 0#32) with
      stg := { u.stg with bayTests := tsetD none u.stg.bayTests b (some { bank := fld v 4 2, preserve := bitAt v 8 }) } } : State).onBay b
        fun c => { c with march := true } := by
  obtain ⟨w, e⟩ := writeRw_rest u (0xB1000 + 0x10 * b) 0x130 v
  refine ⟨w, ?_⟩
  unfold State.bayMarchWrite
  dsimp only
  rw [e]
  have h1' : tgetD none (u.setReg (0xB1000 + 0x10 * b) w).stg.bayTests b = none := h1
  have h3' : ((u.setReg (0xB1000 + 0x10 * b) w).bay b).state = 2 := h3
  rw [if_neg (by rw [hv, h1]; simp), if_pos ⟨h2, h3'⟩]
  rfl

theorem fld_or1 (v : Word) (lo n : Nat) (h : lo + n ≤ 32) (h1 : 1 ≤ lo) : fld (v ||| 1#32) lo n = fld v lo n := by
  unfold fld
  have e : (v ||| 1#32).toNat = v.toNat ||| 1 := by simp
  rw [e]
  have : (v.toNat ||| 1) / 2 ^ lo = v.toNat / 2 ^ lo := by
    rw [← Nat.shiftRight_eq_div_pow, ← Nat.shiftRight_eq_div_pow, Nat.shiftRight_or_distrib]
    have : 1 >>> lo = 0 := by
      rw [Nat.shiftRight_eq_div_pow]
      exact Nat.div_eq_of_lt (by have := Nat.pow_lt_pow_right (a := 2) (by decide) h1; omega)
    rw [this, Nat.or_zero]
  rw [this]

theorem bit_or1 (v : Word) (i : Nat) (h : 1 ≤ i) : bitAt (v ||| 1#32) i = bitAt v i := by
  unfold bitAt
  simp
  omega

end Sys2Proof.Laws.Stores
end

