-- ==== Sys2Proof/Laws/TestAndTimers.lean ====
section
/-!
SUPPORT. What TEST, timers, the trace, the ledger and throttling do to a state.
-/
namespace Sys2Proof.Laws.TestAndTimers
open Sys2Proof Sys2Proof.Machine

/-- What the adjustment of the bents of a list does. -/
theorem adj_list (l : List Nat) (hl : l.Nodup) : ∀ (s : State),
    let t := l.foldl (fun t n =>
      if !t.bentHere n then t
      else
        let d := t.nextDuty n
        let u := { t with rst := { t.rst with duty := tsetD 0 t.rst.duty n d } }
        if tgetD 0 t.rst.duty n = 0 ∧ d ≠ 0 then u.event 0x100B0 1 else u) s
    (∀ k, tgetD 0 t.rst.duty k = if k ∈ l ∧ s.bentHere k = true then s.nextDuty k else tgetD 0 s.rst.duty k) ∧
      t.bays = s.bays := by
  induction l with
  | nil => intro s; simp
  | cons n l ih =>
    intro s
    rw [List.nodup_cons] at hl
    rw [List.foldl_cons]
    by_cases hn : s.bentHere n = true
    · simp only [hn, Bool.not_true, Bool.false_eq_true, if_false]
      generalize hu : (if tgetD 0 s.rst.duty n = 0 ∧ s.nextDuty n ≠ 0 then
          ({ s with rst := { s.rst with duty := tsetD 0 s.rst.duty n (s.nextDuty n) } } : State).event 0x100B0 1
        else { s with rst := { s.rst with duty := tsetD 0 s.rst.duty n (s.nextDuty n) } }) = u
      have e1 : u.rst.duty = tsetD 0 s.rst.duty n (s.nextDuty n) := by rw [← hu]; split <;> rfl
      have e2 : u.bays = s.bays := by rw [← hu]; split <;> rfl
      have e3 : ∀ k, u.bentHere k = s.bentHere k := by intro k; rw [← hu]; split <;> rfl
      have e4 : u.reg 0x10070 = s.reg 0x10070 := by rw [← hu]; split <;> rfl
      have e5 : u.rst.temp = s.rst.temp := by rw [← hu]; split <;> rfl
      have i := ih hl.2 u
      dsimp only at i ⊢
      refine ⟨fun k => ?_, by rw [i.2, e2]⟩
      rw [i.1 k, e3]
      by_cases hk : k = n
      · subst hk
        rw [if_neg (by simp [hl.1]), if_pos (by simp [hn]), e1, tgetD_tsetD_same]
      · have : u.nextDuty k = s.nextDuty k := by
          unfold State.nextDuty
          rw [e4, e5, e1, tgetD_tsetD_ne _ _ _ hk]
        rw [this, e1, tgetD_tsetD_ne _ _ _ hk]
        simp [hk]
    · have hn' : s.bentHere n = false := by simpa using hn
      simp only [hn', Bool.not_false, if_true]
      have i := ih hl.2 s
      dsimp only at i ⊢
      refine ⟨fun k => ?_, i.2⟩
      rw [i.1 k]
      by_cases hk : k = n
      · subst hk; simp [hn', hl.1]
      · simp [hk]

end Sys2Proof.Laws.TestAndTimers
end

