-- ==== Sys2Proof/Laws/Training.lean ====
section
/-!
SUPPORT. What training and self-refresh of a channel do to a state.
-/
namespace Sys2Proof.Laws.Training
open Sys2Proof Sys2Proof.Machine Sys2Proof.Laws.Channels

theorem mask_bits : mask32 1 1 = 2#32 ∧ mask32 2 1 = 4#32 ∧ mask32 3 1 = 8#32 := by decide

theorem putBit_eq (w : Word) (i : Nat) (b : Bool) : putBit w i b = (w &&& ~~~ mask32 i 1) ||| (if b then mask32 i 1 else 0#32) := by
  cases b <;> simp [putBit, putFld, nbit, mask32, wd]

theorem bit_put3 (w : Word) (b : Bool) : bitAt (putBit w 3 b) 1 = bitAt w 1 ∧ bitAt (putBit w 3 b) 2 = bitAt w 2 := by
  rw [putBit_eq, mask_bits.2.2]
  cases b <;> simp [bitAt]

theorem bit_put2 (w : Word) (b : Bool) : bitAt (putBit w 2 b) 1 = bitAt w 1 ∧ bitAt (putBit w 2 b) 2 = b := by
  rw [putBit_eq, mask_bits.2.1]
  cases b <;> simp [bitAt]

theorem bit_put1 (w : Word) (b : Bool) : bitAt (putBit w 1 b) 1 = b ∧ bitAt (putBit w 1 b) 2 = bitAt w 2 := by
  rw [putBit_eq, mask_bits.1]
  cases b <;> simp [bitAt]

/-- R322: MEMc_CTL.ENC after a write of v: it changes only while the channel is OFF. -/
def encAfter (u : State) (c : Nat) (v : Word) : Bool :=
  if (u.chan c).state = 0 ∧ u.hw.full = true then bitAt v 2 else bitAt (u.reg (memBase c + 4)) 2

/-- The first three fields of a write to MEMc_CTL: only registers change, and bits 1 and 2 as the fields say. -/
theorem memFields_eq (u : State) (c : Nat) (v : Word) :
    ∃ r, u.memFields c v = { u with regs := r } ∧
      (∀ k, ({ u with regs := r } : State).memCfg k = u.memCfg k) ∧
      bitAt (({ u with regs := r } : State).reg (memBase c + 4)) 1 = bitAt (u.reg (memBase c + 4)) 1 ∧
      bitAt (({ u with regs := r } : State).reg (memBase c + 4)) 2 = encAfter u c v ∧
      (bitAt v 4 = true → ({ u with regs := r } : State).reg (memBase c + 0x14) = 0#32) := by
  have ne : ∀ k, memBase k ≠ memBase c + 4 := by intro k; unfold memBase; omega
  have nt : memBase c + 0x14 ≠ memBase c + 4 := by omega
  unfold State.memFields
  dsimp only
  generalize hs1 : (if bitAt v 4 = true then u.clrMax c else u) = s1
  have r1 : s1 = { u with regs := s1.regs } := by rw [← hs1]; split <;> rfl
  have m1 : ∀ k, s1.reg (memBase k) = u.reg (memBase k) := by
    intro k; rw [← hs1]; split
    · exact State.reg_setReg_ne _ _ (by unfold memBase; omega)
    · rfl
  have e1 : s1.reg (memBase c + 4) = u.reg (memBase c + 4) := by
    rw [← hs1]; split
    · exact State.reg_setReg_ne _ _ (by omega)
    · rfl
  have x1 : bitAt v 4 = true → s1.reg (memBase c + 0x14) = 0#32 := by
    intro h; rw [← hs1, if_pos h]; exact State.reg_setReg _ _ _
  clear hs1
  generalize hs2 : s1.setReg (memBase c + 4) (putBit (s1.reg (memBase c + 4)) 3 (bitAt v 3)) = s2
  have e2 : s2.reg (memBase c + 4) = putBit (u.reg (memBase c + 4)) 3 (bitAt v 3) := by rw [← hs2, State.reg_setReg, e1]
  have r2 : s2 = { u with regs := s2.regs } := by rw [← hs2, r1]; rfl
  have m2 : ∀ k, s2.reg (memBase k) = u.reg (memBase k) := fun k => by rw [← hs2, State.reg_setReg_ne _ _ (ne k), m1]
  have x2 : bitAt v 4 = true → s2.reg (memBase c + 0x14) = 0#32 := by
    intro h; rw [← hs2, State.reg_setReg_ne _ _ nt]; exact x1 h
  clear hs2
  have q2 : s2.chan c = u.chan c ∧ s2.hw = u.hw := by rw [r2]; exact ⟨rfl, rfl⟩
  unfold encAfter
  rw [q2.1, q2.2]
  split
  · rename_i hif
    generalize hs3 : s2.setReg (memBase c + 4) (putBit (s2.reg (memBase c + 4)) 2 (bitAt v 2)) = s3
    have e3 : s3.reg (memBase c + 4) = putBit (s2.reg (memBase c + 4)) 2 (bitAt v 2) := by rw [← hs3, State.reg_setReg]
    have r3 : s3 = { u with regs := s3.regs } := by rw [← hs3, r2]; rfl
    have m3 : ∀ k, s3.reg (memBase k) = u.reg (memBase k) := fun k => by rw [← hs3, State.reg_setReg_ne _ _ (ne k), m2]
    have x3 : bitAt v 4 = true → s3.reg (memBase c + 0x14) = 0#32 := by
      intro h; rw [← hs3, State.reg_setReg_ne _ _ nt]; exact x2 h
    refine ⟨s3.regs, r3, ?_, ?_, ?_, ?_⟩
    · rw [← r3]; exact m3
    · rw [← r3, e3, (bit_put2 _ _).1, e2, (bit_put3 _ _).1]
    · rw [← r3, e3, (bit_put2 _ _).2]
    · rw [← r3]; exact x3
  · refine ⟨s2.regs, r2, ?_, ?_, ?_, ?_⟩
    · rw [← r2]; exact m2
    · rw [← r2, e2, (bit_put3 _ _).1]
    · rw [← r2, e2, (bit_put3 _ _).2]
    · rw [← r2]; exact x2

set_option maxRecDepth 100000 in

theorem memRow {c : Nat} (hc : c < 8) : ∃ r, regRow (memBase c + 4) = some r ∧ r.kind ≠ .sq := by
  have k : ∀ n : Fin 8, ∃ r, regRow (memBase n.val + 4) = some r ∧ r.kind ≠ .sq := by decide
  exact k ⟨c, hc⟩

theorem memWrite (u : State) {c : Nat} (hc : c < 8) (v : Word) (h : u.reachable (memBase c + 4) = true) :
    u.regWrite .host (0x60004 + 0x2000 * c) v = u.memCtl c v := by
  obtain ⟨r, hr, hk⟩ := memRow hc
  have e : memBase c + 4 = 0x60004 + 0x2000 * c := by unfold memBase; omega
  rw [e] at h hr
  rw [State.regWrite_mem u _ _ h hr hk (by omega) (by omega), if_pos (by omega)]
  have d : (0x60004 + 0x2000 * c - 0x60000) / 0x2000 = c := by omega
  rw [d]

theorem chan_setChan_ne' (u : State) {c k : Nat} (x : Chan) (h : k ≠ c) : (u.setChan c x).chan k = u.chan k :=
  State.chan_setChan_ne u x h

theorem bit_put1_ne (w : Word) (b : Bool) : bitAt (putBit w 1 b) 2 = bitAt w 2 := (bit_put1 w b).2

/-- A write of SR changes registers alone in a channel that is neither READY nor in SELFREF. -/
theorem memSr_off (u : State) (c : Nat) (v : Word) (h2 : (u.chan c).state ≠ 2) (h4 : (u.chan c).state ≠ 4) :
    u.memSr c v = u.setReg (memBase c + 4) (putBit (u.reg (memBase c + 4)) 1 (bitAt v 1)) := by
  have g2 : ∀ a w, ((u.setReg a w).chan c).state ≠ 2 := fun _ _ => h2
  have g4 : ∀ a w, ((u.setReg a w).chan c).state ≠ 4 := fun _ _ => h4
  unfold State.memSr
  by_cases h : bitAt v 1 = true
  · rw [if_pos h]
    unfold State.srEnter
    dsimp only
    rw [if_neg (g2 _ _), if_neg (g4 _ _), h]
  · rw [if_neg h]
    unfold State.srExit
    dsimp only
    rw [if_neg (g4 _ _), if_neg (g2 _ _), Bool.eq_false_iff.mpr h]

/-- INIT runs over registers whose configuration stands and whose ENC is as the write left it. -/
theorem init_eq (u : State) (c : Nat) (v : Word) (h0 : bitAt v 0 = true) (h2 : (u.chan c).state ≠ 2) (h4 : (u.chan c).state ≠ 4) :
    ∃ r, (∀ k, ({ u with regs := r } : State).memCfg k = u.memCfg k) ∧
      bitAt (({ u with regs := r } : State).reg (memBase c + 4)) 2 = encAfter u c v ∧
      u.memCtl c v = ({ u with regs := r } : State).memInit c := by
  obtain ⟨r, e, m, b1, b2, _⟩ := memFields_eq u c v
  have q := memSr_off ({ u with regs := r } : State) c v h2 h4
  refine ⟨(({ u with regs := r } : State).setReg (memBase c + 4)
    (putBit (({ u with regs := r } : State).reg (memBase c + 4)) 1 (bitAt v 1))).regs, fun k => ?_, ?_, ?_⟩
  · exact (State.reg_setReg_ne ({ u with regs := r } : State) _ (by unfold memBase; omega)).trans (m k)
  · exact (congrArg (bitAt · 2) (State.reg_setReg ({ u with regs := r } : State) _ _)).trans ((bit_put1_ne _ _).trans b2)
  · unfold State.memCtl
    rw [if_pos h0, e, q]
    rfl

theorem otherSpeed_regs (u : State) (r : RegFile) (n : Nat) (m : ∀ k, ({ u with regs := r } : State).memCfg k = u.memCfg k) :
    ({ u with regs := r } : State).otherSpeed n = u.otherSpeed n := by
  unfold State.otherSpeed
  congr 1
  funext k
  rw [m]
  rfl

theorem anyDpc2_regs (u : State) (r : RegFile) (m : ∀ k, ({ u with regs := r } : State).memCfg k = u.memCfg k) :
    ({ u with regs := r } : State).anyDpc2 = u.anyDpc2 := by
  unfold State.anyDpc2
  congr 1
  funext k
  rw [m]
  rfl

/-- INIT has no effect on a channel that is neither OFF nor FAILED. -/
theorem memInit_none (u : State) (c : Nat) (h0 : (u.chan c).state ≠ 0) (h3 : (u.chan c).state ≠ 3) : u.memInit c = u := by
  unfold State.memInit
  dsimp only
  rw [if_pos (by simp [h0, h3])]

/-- R324: SR = 1 on a READY channel: waiting requests are served, the queue drains, and the entry begins. -/
theorem srEnter_rest (u : State) (c : Nat) (h : (u.chan c).state = 2) : ∃ v : State, u.srEnter c = v ∧
    (v.chan c).state = 2 ∧ (v.chan c).srMove = true ∧ (v.chan c).wq = [] ∧ (v.chan c).waits = [] ∧
    bitAt (v.reg (memBase c + 4)) 1 = true ∧ (∀ k, (v.chan k).state = (u.chan k).state) ∧ v.bays = u.bays ∧
    ((u.chan c).waits = [] → ∀ k, k ≠ c → v.chan k = u.chan k) := by
  generalize hw : u.setReg (memBase c + 4) (putBit (u.reg (memBase c + 4)) 1 true) = w
  have wc : ∀ k, w.chan k = u.chan k := fun k => by rw [← hw]; rfl
  have wr : bitAt (w.reg (memBase c + 4)) 1 = true := by rw [← hw, State.reg_setReg]; exact (bit_put1 _ _).1
  have wb : w.bays = u.bays := by rw [← hw]; rfl
  have e : u.srEnter c = ((w.ddrResume c fun _ => true).drainQueue c).setChan c
      { ((w.ddrResume c fun _ => true).drainQueue c).chan c with srMove := true } := by
    unfold State.srEnter
    dsimp only
    rw [hw, if_pos (by rw [wc]; exact h)]
  have f0 : ∀ l : List DdrReq, (l.filter fun _ => !true) = [] := fun l => by simp
  have e0 : w.setChan c { w.chan c with waits := (w.chan c).waits.filter fun q => !(fun _ : DdrReq => true) q } =
      w.setChan c { w.chan c with waits := [] } := by
    rw [show ((w.chan c).waits.filter fun q => !(fun _ : DdrReq => true) q) = [] from f0 _]
  have g1 := ddrResume_rest (C := fun _ => True) w c (fun _ => true) fun _ _ => trivial
  rw [e0] at g1
  obtain ⟨d1, d2, d3⟩ := drainQueue_rest (C := fun k => k = c) (w.ddrResume c fun _ => true) c rfl
  have clean : (u.chan c).waits = [] → w.ddrResume c (fun _ => true) = w.setChan c { w.chan c with waits := [] } := by
    intro hn
    unfold State.ddrResume
    dsimp only
    rw [wc, hn]
    rfl
  generalize w.ddrResume c (fun _ => true) = x at *
  generalize x.drainQueue c = y at *
  refine ⟨_, e, ?_, ?_, ?_, ?_, ?_, fun k => ?_, ?_, fun hn k hk => ?_⟩
  · obtain ⟨_, _, _, _, a⟩ := d1.same c
    obtain ⟨_, _, _, _, b⟩ := g1.same c
    rw [State.chan_setChan, a, b, State.chan_setChan, wc]; exact h
  · rw [State.chan_setChan]
  · rw [State.chan_setChan]; exact d2
  · obtain ⟨_, _, _, _, b⟩ := g1.same c
    rw [State.chan_setChan]
    dsimp only
    rw [d3, b, State.chan_setChan]
  · show bitAt (y.reg (memBase c + 4)) 1 = true
    rw [d1.reg (not_errReg (by omega)), g1.reg (not_errReg (by omega))]; exact wr
  · obtain ⟨_, _, _, _, a⟩ := d1.same k
    obtain ⟨_, _, _, _, b⟩ := g1.same k
    by_cases hk : k = c
    · subst hk
      rw [State.chan_setChan, a, b, State.chan_setChan, wc]
    · rw [State.chan_setChan_ne _ _ hk, a, b, State.chan_setChan_ne _ _ hk, wc]
  · show y.bays = _
    rw [d1.bays, g1.bays]; exact wb
  · rw [State.chan_setChan_ne _ _ hk, d1.chan hk, clean hn, State.chan_setChan_ne _ _ hk, wc]

end Sys2Proof.Laws.Training
end

