-- ==== Sys2Proof/Laws/Whole.lean ====
section
/-!
SUPPORT. What the idle step does, and when two memories are the same data.
-/
namespace Sys2Proof.Laws.Whole
open Sys2Proof Sys2Proof.Machine

theorem run_queue (cs rest : List Instr) : ∀ s : State, ∃ t, core.run cs.length { s with pending := cs } = .next t ∧ t.pending = [] ∧
    core.run cs.length { s with pending := cs ++ rest } = .next { t with pending := rest } := by
  induction cs with
  | nil => exact fun s => ⟨_, rfl, rfl, rfl⟩
  | cons c cs ih =>
    intro s
    obtain ⟨t, e, _, e2⟩ := exec_queue c s cs
    obtain ⟨t3, e3, _, e4⟩ := exec_queue c s (cs ++ rest)
    rw [e] at e3
    cases e3
    obtain ⟨u, f, p, g⟩ := ih t
    refine ⟨u, ?_, p, ?_⟩
    · have e5 : core.step { s with pending := c :: cs } = .next { t with pending := cs } := e2
      simp only [List.length_cons, Host.Core.run]
      rw [e5]
      exact f
    · have e5 : core.step { s with pending := c :: cs ++ rest } = .next { t with pending := cs ++ rest } := e4
      simp only [List.length_cons, Host.Core.run]
      rw [e5]
      exact g

theorem step_next (s : State) : ∃ t, step s = .next t := by
  unfold step
  split
  · exact ⟨_, rfl⟩
  · rename_i i r _
    obtain ⟨t, e, _⟩ := exec_queue i { s with pending := r } r
    exact ⟨t, e⟩

theorem runsFor (n : Nat) : ∀ s, RunsFor n s := by
  induction n with
  | zero => exact fun s => ⟨s, rfl⟩
  | succ n ih =>
    intro s
    obtain ⟨t, e⟩ := step_next s
    obtain ⟨u, f⟩ := ih t
    refine ⟨u, ?_⟩
    have e5 : core.step s = .next t := e
    simp only [Host.Core.run]
    rw [e5]
    exact f

theorem microsecond_split (s : State) : ∃ u v : State, u = (if s.stgOn then { s with
      qm := { s.qm with us := s.qm.us + 1 }, scr := { s.scr with us := if s.scr.us % 1000 = 999 then s.scr.us else s.scr.us + 1 } } else s) ∧
    v = (if u.on 19 then { u with scf := u.scf.moveTime 65536000 } else u) ∧ s.microsecond = v.wdgTick := ⟨_, _, rfl, rfl, rfl⟩

theorem microsecond_eq (s : State) (h : s.rst.wdg = true → 1 < s.rst.wdgLeft) :
    let t := s.microsecond
    t.out = s.out ∧ t.bays = s.bays ∧ t.regs = s.regs ∧ t.stg = s.stg ∧ t.ddr = s.ddr ∧
      t.qm = { s.qm with us := if s.stgOn then s.qm.us + 1 else s.qm.us } ∧
      t.scr = { s.scr with us := if s.stgOn = true ∧ s.scr.us % 1000 ≠ 999 then s.scr.us + 1 else s.scr.us } ∧
      t.scf = { s.scf with time := if s.on 19 then ((Int.ofNat s.scf.time + 65536000) % (2 ^ 80 : Int)).toNat else s.scf.time } ∧
      t.rst = { s.rst with wdgLeft := if s.rst.wdg then s.rst.wdgLeft - 1 else s.rst.wdgLeft } := by
  intro t
  have et : t = s.microsecond := rfl
  clear_value t
  subst et
  have k : ∀ u : State, u.rst = s.rst → u.wdgTick = { u with rst := { s.rst with
      wdgLeft := if s.rst.wdg then s.rst.wdgLeft - 1 else s.rst.wdgLeft } } := by
    intro u e
    unfold State.wdgTick
    rw [e]
    by_cases w : s.rst.wdg = true
    · simp [w, Nat.not_le.mpr (h w)]
    · have w2 : s.rst.wdg = false := by simpa using w
      have k0 : { s.rst with wdgLeft := if s.rst.wdg then s.rst.wdgLeft - 1 else s.rst.wdgLeft } = s.rst := by rw [if_neg w]
      rw [k0]
      simp only [w2, Bool.not_false, if_true]
      rw [← e]
  have k2 : ∀ u : State, u.on 19 = s.on 19 → (if u.on 19 then { u with scf := u.scf.moveTime 65536000 } else u) = { u with
      scf := { u.scf with time := if s.on 19 then ((Int.ofNat u.scf.time + 65536000) % (2 ^ 80 : Int)).toNat else u.scf.time } } := by
    intro u e
    rw [e]
    split <;> rfl
  have k3 : (if s.stgOn then { s with
      qm := { s.qm with us := s.qm.us + 1 }, scr := { s.scr with us := if s.scr.us % 1000 = 999 then s.scr.us else s.scr.us + 1 } } else s) =
      ({ s with
        qm := { s.qm with us := if s.stgOn then s.qm.us + 1 else s.qm.us },
        scr := { s.scr with us := if s.stgOn = true ∧ s.scr.us % 1000 ≠ 999 then s.scr.us + 1 else s.scr.us } } : State) := by
    by_cases g : s.stgOn = true
    · by_cases m : s.scr.us % 1000 = 999 <;> simp [g, m]
    · simp [g]
  obtain ⟨u, v, hu, hv, e⟩ := microsecond_split s
  rw [k3] at hu
  rw [k2 u (by rw [hu]; rfl)] at hv
  have hr : v.rst = s.rst := by rw [hv, hu]
  rw [e, k v hr, hv, hu]
  exact ⟨rfl, rfl, rfl, rfl, rfl, rfl, rfl, rfl, rfl⟩

theorem tget_above {α : Type} (d : Nat → α) (t : Tab α) (k : Nat) (h : ∀ e ∈ t, e.1 ≠ k) : tget d t k = d k := by
  induction t with
  | nil => rfl
  | cons x t ih =>
    obtain ⟨j, v⟩ := x
    rw [tget, if_neg (h (j, v) (by simp))]
    exact ih fun e he => h e (by simp [he])

theorem tab_ext {α : Type} (d : Nat → α) : ∀ (t u : Tab α), TabOk d t → TabOk d u → (∀ k, tget d t k = tget d u k) → t = u
  | [], [], _, _, _ => rfl
  | [], (k, v) :: u, _, hu, h => by
    have := h k
    simp only [tget_nil, tget, if_true] at this
    exact absurd this.symm (hu.2 (k, v) (by simp))
  | (k, v) :: t, [], ht, _, h => by
    have := h k
    simp only [tget_nil, tget, if_true] at this
    exact absurd this (ht.2 (k, v) (by simp))
  | (j, v) :: t, (k, w) :: u, ht, hu, h => by
    have aj : ∀ e ∈ t, j < e.1 := (List.pairwise_cons.mp ht.1).1
    have ak : ∀ e ∈ u, k < e.1 := (List.pairwise_cons.mp hu.1).1
    have hj := h j
    have hk := h k
    simp only [tget, if_true] at hj hk
    rcases Nat.lt_trichotomy j k with c | c | c
    · rw [if_neg (by omega), tget_above d u j fun e he => by have := ak e he; omega] at hj
      exact absurd hj (ht.2 (j, v) (by simp))
    · subst c
      simp only [if_true] at hj
      have e : t = u := by
        refine tab_ext d t u ⟨(List.pairwise_cons.mp ht.1).2, fun e he => ht.2 e (by simp [he])⟩
          ⟨(List.pairwise_cons.mp hu.1).2, fun e he => hu.2 e (by simp [he])⟩ fun n => ?_
        by_cases hn : j = n
        · subst hn
          rw [tget_above d t j fun e he => by have := aj e he; omega, tget_above d u j fun e he => by have := ak e he; omega]
        · have := h n
          simpa only [tget, if_neg hn] using this
      rw [hj, e]
    · rw [if_neg (by omega), tget_above d t k fun e he => by have := aj e he; omega] at hk
      exact absurd hk.symm (hu.2 (k, w) (by simp))

end Sys2Proof.Laws.Whole
end

