-- ==== Sys2Proof/Tests/Slice0.lean ====
section
/-!
SUPPORT. Tests. First, for each well-formedness check a command that it refuses; then concrete states that meet the
hypotheses of the statements, clause by clause; then a few steps on small states, with the results that the rules give.
-/
namespace Sys2Proof.Tests
open Sys2Proof Sys2Proof.Machine

/-! ## Well-formedness: each check refuses a command -/

theorem test_wf_bay : ¬ (Instr.mbxPost 256 0 0#32).WellFormed := by decide
theorem test_wf_core : ¬ (Instr.bundleIssue 257 []).WellFormed := by decide
theorem test_wf_bent : ¬ (Instr.throttlePeriod 16).WellFormed := by decide
theorem test_wf_bank : ¬ (Instr.bankWake 192).WellFormed := by decide
theorem test_wf_group : ¬ (Instr.stagingMarchStart 16 0#32).WellFormed := by decide
theorem test_wf_channel : ¬ (Instr.init 8 0#32).WellFormed := by decide
theorem test_wf_rank : ¬ (Instr.zqcs 0 64).WellFormed := by decide
theorem test_wf_port : ¬ (Instr.adaptSlice 8).WellFormed := by decide
theorem test_wf_queue : ¬ (Instr.queueTimeout 65536).WellFormed := by decide
theorem test_wf_ring : ¬ (Instr.hostRingWrite 256).WellFormed := by decide
theorem test_wf_vector : ¬ (Instr.msixUnmask 2048).WellFormed := by decide
theorem test_wf_mac : ¬ (Instr.ethTransmit 2).WellFormed := by decide
theorem test_wf_mailbox : ¬ (Instr.mbxPost 0 4 0#32).WellFormed := by decide
theorem test_wf_timer : ¬ (Instr.timerExpiry 0 4).WellFormed := by decide
theorem test_wf_domain : ¬ (Instr.domainTransitionDone 23).WellFormed := by decide
theorem test_wf_task : ¬ (Instr.taskMoveDrained 16384).WellFormed := by decide
theorem test_wf_table : ¬ (Instr.fenceAcknowledged 1048576 0).WellFormed := by decide
theorem test_wf_page : ¬ (Instr.fenceAcknowledged 0 4096).WellFormed := by decide
theorem test_wf_pll : ¬ (Instr.pllLossOfLock 6).WellFormed := by decide
theorem test_wf_aer : ¬ (Instr.aerError 17 []).WellFormed := by decide
theorem test_wf_source : ¬ (Instr.resetSourceRelease 11).WellFormed := by decide
theorem test_wf_exit : ¬ (Instr.exitSequenceDone 18).WellFormed := by decide
theorem test_wf_handle : ¬ (Instr.keydel true 32).WellFormed := by decide
theorem test_wf_slot : ¬ (Instr.otpRevoke true 12).WellFormed := by decide
theorem test_wf_monitor : ¬ (Instr.tamperMonitorTrip 0).WellFormed := by decide
theorem test_wf_master : ¬ (Instr.crossbarBurst 1 0 false [0#32]).WellFormed := by decide
theorem test_wf_size : ¬ (Instr.registerWrite .host 0 3 0#32).WellFormed := by decide
theorem test_wf_enables : ¬ (Instr.bar0Request false 0 1 16 0 [] false).WellFormed := by decide
theorem test_wf_word : ¬ (Instr.mwWrite .sill 0x48003002 0#32).WellFormed := by decide
theorem test_wf_temp : ¬ (Instr.dimmTempPoll 0 256 0).WellFormed := by decide
theorem test_wf_step : ¬ (Instr.linkTrainingDone 0 6 0 0 0 0).WellFormed := by decide
theorem test_wf_train : ¬ (Instr.trainingComplete 0 14 0 0).WellFormed := by decide
theorem test_wf_lanes : ¬ (Instr.linkTrainingDone 0 0 0 0 16 0).WellFormed := by decide
theorem test_wf_width : ¬ (Instr.linkTrainingDone 0 0 0 0 0 4).WellFormed := by decide
theorem test_wf_device : ¬ (Instr.linkTrainingDone 0 0 4096 0 0 0).WellFormed := by decide
theorem test_wf_array : ¬ (Instr.ceWriteback 0 2 0).WellFormed := by decide
theorem test_wf_guest : ¬ (Instr.pread 0 {} { payload := (List.replicate 16 0#32) } 3).WellFormed := by decide
theorem test_wf_intr : ¬ (Instr.pcomp 0 {} { payload := (List.replicate 16 0#32) } 1).WellFormed := by decide
theorem test_wf_role : ¬ (Instr.auth true 0 0 []).WellFormed := by decide
theorem test_wf_digest : ¬ (Instr.secHash true 2 0 0).WellFormed := by decide
theorem test_wf_key_kind : ¬ (Instr.keygen true 0 0 true).WellFormed := by decide
theorem test_wf_floor : ¬ (Instr.floor true 2 0#32 0#32).WellFormed := by decide
theorem test_wf_stamp : ¬ (Instr.tsyncExchange (2 ^ 80)).WellFormed := by decide
theorem test_wf_sensors : ¬ (Instr.thermalSample [25]).WellFormed := by decide
theorem test_wf_header : ¬ (Instr.malformedTlp [0#32, 0#32, 0#32, 0#32, 0#32]).WellFormed := by decide
theorem test_wf_write : ¬ (Instr.bar4Write 0 [] false 0#32).WellFormed := by decide
theorem test_wf_cells : ¬ (Instr.dbMsg 0 0 [] false).WellFormed := by decide
theorem test_wf_line : ¬ (Instr.pageMoveComplete 0 0 0 (List.replicate 65537 0#8)).WellFormed := by
  rintro ⟨-, -, h⟩
  rw [okLine, List.length_replicate] at h
  omega
theorem test_wf_burst : ¬ (Instr.crossbarBurst 2 0 false []).WellFormed := by decide
theorem test_wf_strikes : ¬ (Instr.refreshEnd 0 0 [(0, 4096)]).WellFormed := by decide
theorem test_wf_upsets : ¬ (Instr.bundleIssue 0 [(0, 0, 3)]).WellFormed := by decide
theorem test_wf_flit : ¬ (Instr.qcell 0 {} {}).WellFormed := by decide
theorem test_wf_link : ¬ (Instr.null 0 { seq := 4096 }).WellFormed := by decide
theorem test_wf_agent : ¬ (Instr.step (.bay 256) 0).WellFormed := by decide
/-- And a command within its bounds passes, at the largest value of each. -/
theorem test_wf_passes : (Instr.mbxPost 255 3 0#32).WellFormed ∧ (Instr.zqcs 7 63).WellFormed ∧
    (Instr.domainTransitionDone 22).WellFormed ∧ (Instr.null 7 { seq := 4095, ackseq := 4095, cclass := 2, ccount := 15 }).WellFormed := by decide


/-! ## States that meet the hypotheses of the statements -/

/-- After reset, with every domain switched on. -/
def powered : State := { State.reset with rst := { State.reset.rst with dom := (List.range 23).map fun d => (d, 1) } }

/-- Powered, with one bay of the given contents. -/
def withBay (b : Nat) (x : Bay) : State := { powered with bays := [(b, { x with id := b })] }

/-- A state and operands that meet a condition. -/
def Met (p : State → Prop) : Prop := ∃ s, p s

theorem test_queue_front : Met fun s => ∃ c rest, s.pending = c :: rest :=
  ⟨{ State.reset with pending := [.perst] }, .perst, [], rfl⟩

theorem test_calm_reset : State.reset.calm = true := by decide

theorem test_idle_hypotheses : State.reset.pending = [] ∧ (State.reset.rst.wdg = true → 1 < State.reset.rst.wdgLeft) := by decide

theorem test_memory_hypotheses : Mem.wf { gen := 0, cells := [(0, 1#8), (4294967295, 255#8)] } = true ∧
    Mem.wf { gen := 0 } = true := by decide

/-- A programmed bit, kept; and a step from that state. -/
theorem test_fuses_hypotheses : Met fun s => s.keepsFuses {} { cells := [(0, 1#8)] } ∧ s.pending = [] :=
  ⟨{ State.reset with sec := { otp := { cells := [(0, 1#8)] } } }, ⟨rfl, fun _ _ h => h⟩, rfl⟩

theorem test_pegs_written : State.reset.wideHeld = false ∧ fld 0xFFFF0000#32 0 16 = 0 ∧ fld 0xFFFF#32 0 16 ≠ 0 ∧
    State.reset.regs.busy = false ∧ State.reset.regs.held = [] ∧ State.reset.regs.skips State.reset.regDown (fld 0xFFFF#32 0 16) = false := by decide

/-- A peg in progress; and a written shadow of a MAC register of a part in shoring mode, which does not answer. -/
theorem test_pegs_busy_and_skipped :
    (Met fun s => s.wideHeld = false ∧ s.regs.busy = true ∧ s.qm.pegPend = 0) ∧
    (Met fun s => s.wideHeld = false ∧ s.regs.busy = false ∧ s.regs.held = [] ∧ s.regs.skips s.regDown (fld 1#32 0 16) = true) ∧
    (Met fun s => ∃ g rest, s.regs.busy = false ∧ s.regs.held = g :: rest ∧ fld g 0 16 ≠ 0 ∧
      s.regs.skips s.regDown (fld g 0 16) = false) :=
  ⟨⟨{ State.reset with regs := { State.reset.regs with busy := true } }, by decide⟩,
    ⟨{ State.reset with regs := { State.reset.regs with shadow := [(0x80400, some 1#32)] }, rst := { State.reset.rst with shored := true } },
      by decide⟩,
    ⟨{ State.reset with regs := { State.reset.regs with held := [0x8000#32] } }, 0x8000#32, [], by decide⟩⟩

theorem test_pg_shadow : ∃ r, regRow 0x30030 = some r ∧ r.kind = .pg ∧ State.reset.reachable 0x30030 = true ∧
    State.reset.raiseLocks = false := ⟨_, rfl, rfl, by decide, by decide⟩

theorem test_sq_clear : ∃ r, regRow 0x30040 = some r ∧ r.kind = .sq ∧ 0x30040 < 0x1000000 ∧ sourceOf 0x30040 = none ∧
    State.reset.reachable 0x30040 = true ∧ State.reset.raiseLocks = false := ⟨_, rfl, rfl, by decide, rfl, by decide, by decide⟩

theorem test_register_writes : State.reset.wideHeld = false ∧ State.reset.answers (0x24 / 4 * 4) = true ∧
    State.reset.answers (0x60002 / 4 * 4) = false ∧ State.reset.raiseLocks = false ∧ State.reset.scr.tbusy = false ∧
    State.reset.scr.pbusy = false ∧ State.reset.scf.upd = none ∧
    (∃ r, regRow 0x24 = some r ∧ r.kind = .rw ∧ actsAlone 0x24 = false ∧ State.reset.reachable 0x24 = true) ∧
    (∃ r, regRow 0x20 = some r ∧ r.kind = .ro ∧ actsAlone 0x20 = false) ∧
    (∃ r, regRow 0x90018 = some r ∧ r.kind = .cnt ∧ actsAlone 0x90018 = false ∧ State.reset.reachable 0x90018 = true) ∧
    regRow 0xFFFFFC = none :=
  ⟨by decide, by decide, by decide, by decide, rfl, rfl, rfl, ⟨_, rfl, rfl, rfl, by decide⟩, ⟨_, rfl, rfl, rfl⟩,
    ⟨_, rfl, rfl, rfl, by decide⟩, rfl⟩

/-- A state whose configuration CRC is compared with v, after n mismatches. -/
def crcState (v : Word) (n : Nat) : State := { State.reset with regs := { words := [(0x24, v), (0x28, 1#32)], mism := n } }

/-- The comparison off; on, against any value v, after n mismatches. -/
theorem test_cfg_crc (v : Word) (n : Nat) : State.reset.wideHeld = false ∧ bitAt (State.reset.reg 0x28) 0 = false ∧
    (crcState v n).wideHeld = false ∧ bitAt ((crcState v n).reg 0x28) 0 = true ∧ (crcState v n).reg 0x24 = v ∧
    (crcState v n).regs.mism = n ∧ (crcState v n).regs.drifted = false := by
  refine ⟨by decide, by decide, rfl, ?_, rfl, rfl, rfl⟩
  simp [crcState, State.reg, tget]
  decide

/-- Bay code in RUN; a change that waits; at the largest values each register takes. -/
theorem test_mode_changes :
    (Met fun s => s.codeRuns 255 = true ∧ 1 ≤ (s.bay 255).ctx.priv ∧ (s.bay 255).sill = false ∧ (s.bay 255).ctx.check = false ∧
      fld 2#32 0 2 ≤ (s.bay 255).ctx.priv ∧ fld 2#32 0 2 ≠ 3) ∧
    (Met fun s => s.codeRuns 0 = true ∧ 1 ≤ (s.bay 0).ctx.priv ∧ (s.bay 0).ctx.modes = [⟨0, 0, 2#32⟩]) ∧
    (Met fun s => s.codeRuns 0 = true ∧ 1 ≤ (s.bay 0).ctx.priv ∧ (s.bay 0).ctx.modes = [⟨0, 1, 7#32⟩]) ∧
    (Met fun s => s.codeRuns 0 = true ∧ 1 ≤ (s.bay 0).ctx.priv ∧ (s.bay 0).ctx.modes = [⟨0, 2, 15#32⟩]) :=
  ⟨⟨withBay 255 { state := 3, ctx := { priv := 2 } }, by decide⟩,
    ⟨withBay 0 { state := 3, ctx := { modes := [⟨0, 0, 2#32⟩] } }, by decide⟩,
    ⟨withBay 0 { state := 3, ctx := { modes := [⟨0, 1, 7#32⟩] } }, by decide⟩,
    ⟨withBay 0 { state := 3, ctx := { modes := [⟨0, 2, 15#32⟩] } }, by decide⟩⟩

theorem test_stage_plumb :
    (Met fun s => s.codeRuns 0 = true ∧ 1 ≤ (s.bay 0).ctx.priv ∧ (s.bay 0).iwrStage.length < 64 ∧ (s.bay 0).ctx.plumb.length < 512) ∧
    (Met fun s => s.codeRuns 0 = true ∧ 1 ≤ (s.bay 0).ctx.priv ∧ 64 ≤ (s.bay 0).iwrStage.length ∧ (s.bay 0).ctx.plumb ≠ []) :=
  ⟨⟨withBay 0 { state := 3 }, by decide⟩,
    ⟨withBay 0 { state := 3, iwrStage := List.replicate 64 (0, 0#32), ctx := { plumb := [4] } }, by decide⟩⟩

theorem test_struct_write : structAddr 0x4008 = true ∧ structAddr 0x4084 = true ∧
    (Met fun s => s.coreHere 0 = true ∧ 2 ≤ (s.bay 0).ctx.priv ∧ (s.bay 0).state = 2 ∧ s.wideHeld = false ∧
      s.bentHere (0 / 16) = true ∧ s.beingRaised 0 = false) ∧
    (Met fun s => s.coreHere 0 = true ∧ 2 ≤ (s.bay 0).ctx.priv ∧ (s.bay 0).state = 3 ∧ (s.bay 0).ctx.check = true) ∧
    (Met fun s => s.coreHere 255 = true ∧ 2 ≤ (s.bay 255).ctx.priv ∧ (s.bay 255).state = 3 ∧ (s.bay 255).ctx.check = false) :=
  ⟨by decide, by decide, ⟨withBay 0 { state := 2, ctx := { priv := 2 } }, by decide⟩,
    ⟨withBay 0 { state := 3, ctx := { priv := 2, check := true } }, by decide⟩,
    ⟨withBay 255 { state := 3, ctx := { priv := 2 } }, by decide⟩⟩

/-- A running bay; and one whose host has seen posting 255, the last before SEQ wraps. -/
theorem test_mailboxes :
    (Met fun s => s.bentHere (255 / 16) = true ∧ s.codeRuns 255 = true) ∧
    (Met fun s => s.wideHeld = false ∧ s.bentHere 0 = true ∧ (s.bay 0).state ≠ 0 ∧ fld 0xFF#32 0 8 = ((s.bay 0).mailbox 3).seq ∧
      ((s.bay 0).mailbox 3).valid = true ∧ ((s.bay 0).mailbox 3).seen = true) :=
  ⟨⟨withBay 255 { state := 3 }, by decide⟩,
    ⟨withBay 0 { state := 3, mbx := [(3, { seq := 255, valid := true, seen := true })] }, by decide⟩⟩

/-- A repeat of which an element has just completed. -/
def aRepeat : Rep := { count := 1, bundle := 8, boundary := true }

theorem test_test_mode :
    (Met fun s => s.bentHere 0 = true ∧ s.wideHeld = false ∧ (s.bay 0).state = 1) ∧
    (Met fun s => s.bentHere 0 = true ∧ s.wideHeld = false ∧ (s.bay 0).state = 3 ∧ s.debugLocked 1 = false ∧
      (s.bay 0).dbg.testReq = true ∧ (s.bay 0).held = false ∧ (s.bay 0).pipe.idle = 0 ∧ (s.bay 0).pipe.fault = none ∧
      (s.bay 0).pipe.ret = none ∧ (s.bay 0).pipe.svcNow = none ∧ (s.bay 0).ctx.check = false ∧
      (s.bay 0).pipe.rep = none ∧ (s.bay 0).pipe.redirects = []) ∧
    (Met fun s => s.bentHere 0 = true ∧ s.wideHeld = false ∧ (s.bay 0).state = 3 ∧ (s.bay 0).dbg.testReq = true ∧
      (s.bay 0).held = false ∧ ∃ r, (s.bay 0).pipe.rep = some r ∧ r.boundary = true) ∧
    (Met fun s => s.bentHere 0 = true ∧ s.wideHeld = false ∧ (s.bay 0).state = 2 ∧ (s.bay 0).march = false ∧
      (s.bay 0).dbg.fromRun = false) ∧
    (Met fun s => s.bentHere 0 = true ∧ s.wideHeld = false ∧ (s.bay 0).state = 2 ∧ (s.bay 0).march = false ∧
      (s.bay 0).dbg.fromRun = true ∧ (s.bay 0).str.stored ≠ []) ∧
    (Met fun s => s.bentHere 15 = true ∧ s.wideHeld = false ∧ (s.bay 255).state ≠ 1 ∧ (s.bay 255).state ≠ 3 ∧ (s.bay 255).state ≠ 2) :=
  ⟨⟨withBay 0 { state := 1 }, by decide⟩, ⟨withBay 0 { state := 3, dbg := { testReq := true } }, by decide⟩,
    ⟨withBay 0 { state := 3, dbg := { testReq := true }, pipe := { rep := some aRepeat } }, rfl, rfl, rfl, rfl, rfl, _, rfl, rfl⟩,
    ⟨withBay 0 { state := 2 }, by decide⟩,
    ⟨withBay 0 { state := 2, dbg := { fromRun := true }, str := { stored := [(0x4008, 0#32)] } }, by decide⟩, ⟨powered, by decide⟩⟩

theorem test_timers_trace :
    (Met fun s => s.bentHere 0 = true ∧ (s.bay 0).state = 3 ∧ (s.bay 0).held = false ∧ bitAt (s.bay 0).tmr.ctl 3 = true ∧
      (s.bay 0).tmr.count 3 = 1#32) ∧
    (Met fun s => s.bentHere 0 = true ∧ s.wideHeld = false ∧ (s.bay 0).state ≠ 0 ∧ s.debugLocked 1 = false ∧
      fld (0xBF00#32 ||| 1#32) 8 8 < 192) :=
  ⟨⟨withBay 0 { state := 3, tmr := { ctl := 8#32, cnt := [(3, 1#32)] } }, by decide⟩, ⟨withBay 0 { state := 1 }, by decide⟩⟩

theorem test_throttling : Met fun s => s.on 15 = true ∧ tgetD 0 s.rst.duty 15 ≠ 0 ∧ s.wideHeld = false ∧ s.bentHere 15 = true :=
  ⟨{ powered with rst := { powered.rst with duty := [(15, 1)] } }, by decide⟩

/-- The long bundle of GP1 → GP2, GP2 → GP1 and a NULL move: bit 0, then 17 bits for each move from bits 5, 22 and 39, source
code in bits 7:0, destination code in bits 14:8 (R114, R116, R119, R120, R122). -/
def swapBundle : Nat := 1 + (1 + 2 * 256) * 2 ^ 5 + (2 + 1 * 256) * 2 ^ 22 + 0x7F00 * 2 ^ 39

def swapBay (n : Nat) : Bay := { state := n, istore := ({} : Mem).putBytes 0 (toBytes 8 swapBundle), gp := [(1, 5#32), (2, 6#32)] }

def swapOps : List Op := [⟨0, .gp 1, .gp 2, true, 0x204#32⟩, ⟨1, .gp 2, .gp 1, true, 0x105#32⟩]

theorem test_decode_swap : (swapBay 3).bundleAt swapOps 8 ∧ (swapBay 2).bundleAt swapOps 8 :=
  ⟨⟨by decide, by decide⟩, ⟨by decide, by decide⟩⟩

/-- A bay stands before that bundle with nothing in progress, in RUN or in TEST. -/
theorem test_move_bundles (n : Nat) (hn : n = 3 ∨ n = 2) :
    Met fun s => s.bentHere 0 = true ∧ (s.bay 0).quiet ∧ (s.bay 0).bundleAt swapOps 8 ∧ regMoves swapOps ∧ (s.bay 0).state = n ∧
      s.wideHeld = false ∧ s.debugLocked 1 = false ∧ (s.bay 0).march = false ∧ (s.bay 0).str.stored = [] := by
  have h : regMoves swapOps := by unfold swapOps regMoves; simp
  obtain rfl | rfl := hn
  · exact ⟨withBay 0 (swapBay 3), rfl, ⟨rfl, rfl, rfl, rfl, rfl, by decide, rfl, rfl, rfl, rfl, rfl, rfl, rfl⟩, test_decode_swap.1,
      h, rfl, rfl, rfl, rfl, rfl⟩
  · exact ⟨withBay 0 (swapBay 2), rfl, ⟨rfl, rfl, rfl, rfl, rfl, by decide, rfl, rfl, rfl, rfl, rfl, rfl, rfl⟩, test_decode_swap.2,
      h, rfl, rfl, rfl, rfl, rfl⟩

/-- The bundle goes in the clock of a running bay: nothing stands before it, its sources are ready, it triggers nothing. -/
theorem test_bundle_goes : Met fun s => s.coreHere 0 = true ∧
    ∃ x, x = ((s.start.onBay 0 fun y => y.upset []).syncBay 0).bay 0 ∧ x.state = 3 ∧ x.pipe.hold = none ∧ x.pipe.throttled = false ∧
      x.poised.issues ∧ ∃ c, x.poised.goes swapOps 8 c :=
  ⟨withBay 0 (swapBay 3), rfl, _, rfl, rfl, rfl, rfl, ⟨rfl, rfl, rfl, rfl, rfl, rfl, fun _ => ⟨rfl, by decide⟩⟩,
    _, ⟨⟨_, _, rfl, rfl, by decide, by decide⟩, by decide, by decide, by decide, by decide⟩⟩

/-- And in a step of a bay in TEST, after which no return, repeat or hold stands. -/
theorem test_step_goes : Met fun s => s.bentHere 0 = true ∧ s.wideHeld = false ∧ s.debugLocked 1 = false ∧
    ∃ x, x = (s.start.syncBay 0).bay 0 ∧ x.state = 2 ∧ x.march = false ∧ x.stepPoised.pipe.fault = none ∧ x.stepPoised.pipe.svcNow = none ∧
      x.stepPoised.pipe.waiting = false ∧ ∃ c e, x.stepPoised.goes swapOps 8 c ∧
        c.effect (c.moved swapOps) 8 (c.values swapOps) x.stepPoised.tmr.wall = e ∧ e.pipe.ret = none ∧ e.pipe.rep = none ∧
        e.pipe.hold = none :=
  ⟨withBay 0 (swapBay 2), rfl, rfl, rfl, _, rfl, rfl, rfl, rfl, rfl, rfl,
    _, _, ⟨⟨_, _, rfl, rfl, by decide, by decide⟩, by decide, by decide, by decide, by decide⟩, rfl, rfl, rfl, rfl⟩


def arrivingBay : Bay := { state := 3, pipe := { flights := [⟨0, 1, 0, 1, 1, [(0, 5#32)], none, 0, false, none, none⟩] } }

def answeredBay : Bay := { state := 3, pipe := { flights := [⟨0, 14, 0, 1, 1, [], none, 0, false, some {}, none⟩] } }

theorem test_arrivals :
    (Met fun s => ∃ f p v, (s.bay 255).pipe.flights = [] ++ f :: [] ∧ s.codeRuns 255 = true ∧ (s.bay 255).held = false ∧ f.out = none ∧
      f.left ≤ 1 ∧ f.late = none ∧ (f.res.map Prod.fst).Nodup ∧ (p, v) ∈ f.res) ∧
    (Met fun s => ∃ f o, (s.bay 0).pipe.flights = [] ++ f :: [] ∧ (s.bay 0).state ≠ 2 ∧ f.out = some o ∧ o.parked = false ∧
      o.remote = none ∧ o.readable = none) :=
  ⟨⟨withBay 255 arrivingBay, _, 0, 5#32, rfl, by decide, rfl, rfl, Nat.le_refl _, rfl, by decide, .head _⟩,
    ⟨withBay 0 answeredBay, _, _, rfl, by decide, rfl, rfl, rfl, rfl⟩⟩

/-- Bay 255 as an entry finds it. -/
def entering (s : State) : Bay := (s.start.syncBay 255).bay 255

/-- What every clause of the entry statement asks of the bay. -/
def EntryReady (s : State) : Prop :=
  s.coreHere 255 = true ∧ (entering s).state = 3 ∧ (entering s).held = false ∧ (entering s).pipe.idle = 0 ∧
    (entering s).ctx.modes = [] ∧ (entering s).ctx.check = false ∧ (entering s).pushOk = true

def faultBay (o m : Nat) : Bay :=
  { state := 3, pipe := { fault := some ⟨1, 0#32, o, 0, false, 0⟩ }, ctx := { mask := m }, gp := [(63, 0x5FFC0#32)] }

theorem test_fault_entries :
    (Met fun s => EntryReady s ∧ ∃ f, (entering s).pipe.fault = some f ∧ (entering s).pendingTransfers < 2 ∧ f.origin = 0 ∧
      (entering s).ctx.mask ≤ 5) ∧
    (Met fun s => EntryReady s ∧ ∃ f, (entering s).pipe.fault = some f ∧ (entering s).pendingTransfers < 2 ∧ f.origin = 1 ∧
      (entering s).ctx.mask ≤ 6 ∧ f.code ≠ 0x12) :=
  ⟨⟨withBay 255 (faultBay 0 5), ⟨rfl, rfl, rfl, rfl, rfl, rfl, by decide⟩, _, rfl, by decide, rfl, by decide⟩,
    ⟨withBay 255 (faultBay 1 6), ⟨rfl, rfl, rfl, rfl, rfl, rfl, by decide⟩, _, rfl, by decide, rfl, by decide, by decide⟩⟩

/-- Timer 0 has expired and its event is enabled, before a bundle, in a WAIT, or after an element of a repeat; an SVC has run
at the bundle before; a message has landed for the task of slot 15. -/
def eventBay (p : Pipe) : Bay :=
  { state := 3, gp := [(63, 0x5FFC0#32)], ctx := { mask := 0, gcfg := 0xF#32 }, pipe := p,
    tmr := { ctl := 0x100#32, stat := { ev := [(0, 0)] } } }

def svcBay : Bay :=
  { state := 3, gp := [(63, 0x5FFC0#32)], ctx := { mask := 0, gcfg := 0xF#32, svc := some 5 }, pipe := { svcNow := some ⟨5, 1, 0⟩ } }

def landedBay : Bay :=
  { state := 3, gp := [(63, 0x5FFC0#32)], ctx := { mask := 0, gcfg := 0xF#32 }, pipe := { waiting := true },
    qio := { landing := [⟨0, 16383, 3, {}⟩], slots := [(15, some ⟨16383, 64, 0x5FFC0#32, 0#32, 0⟩)] } }

theorem test_event_entries :
    (Met fun s => EntryReady s ∧ (entering s).pipe.fault = none ∧ (entering s).pipe.ret = none ∧ (entering s).pipe.svcNow = none ∧
      (entering s).dbg.testReq = false ∧ (entering s).pipe.rep = none ∧ (entering s).pipe.redirects = [] ∧
      (entering s).pickAt (entering s).ctx.mask (entering s).pipe.waiting = some 2) ∧
    (Met fun s => EntryReady s ∧ (entering s).pipe.rep = none ∧ (entering s).pipe.waiting = true ∧
      (entering s).pickAt (entering s).ctx.mask true = some 2) ∧
    (Met fun s => EntryReady s ∧ ∃ r, (entering s).pipe.rep = some r ∧ r.boundary = true ∧
      (entering s).pickAt (entering s).ctx.mask false = some 2) ∧
    (Met fun s => EntryReady s ∧ ∃ q, (entering s).pipe.fault = none ∧ (entering s).pipe.ret = none ∧ (entering s).pipe.svcNow = some q ∧
      (entering s).ctx.mask < (entering s).levelAt 1 ∧ (entering s).pickAt (entering s).ctx.mask false = some 1) ∧
    (Met fun s => EntryReady s ∧ (entering s).pipe.fault = none ∧ (entering s).pipe.ret = none ∧ (entering s).pipe.svcNow = none ∧
      (entering s).pipe.rep = none ∧ (entering s).sill = false ∧ (entering s).pipe.waiting = true ∧ (entering s).dbg.testReq = false ∧
      (entering s).pickAt (entering s).ctx.mask true = some 0 ∧
      ∃ l slot sl, (entering s).qio.next = some l ∧ (entering s).qio.slotOf l.task = some (slot, sl)) :=
  ⟨⟨withBay 255 (eventBay {}), ⟨rfl, rfl, rfl, rfl, rfl, rfl, by decide⟩, rfl, rfl, rfl, rfl, rfl, rfl, by decide⟩,
    ⟨withBay 255 (eventBay { waiting := true }), ⟨rfl, rfl, rfl, rfl, rfl, rfl, by decide⟩, rfl, rfl, by decide⟩,
    ⟨withBay 255 (eventBay { rep := some aRepeat }), ⟨rfl, rfl, rfl, rfl, rfl, rfl, by decide⟩, _, rfl, rfl, by decide⟩,
    ⟨withBay 255 svcBay, ⟨rfl, rfl, rfl, rfl, rfl, rfl, by decide⟩, _, rfl, rfl, rfl, by decide, by decide⟩,
    ⟨withBay 255 landedBay, ⟨rfl, rfl, rfl, rfl, rfl, rfl, by decide⟩, rfl, rfl, rfl, rfl, rfl, rfl, rfl, by decide, _, 15, _, rfl, rfl⟩⟩

/-- Queue 65,535 with descriptor word 0 = w, room for n cells, and a message of bay 0 or of a doorbell under way. -/
def queueState (w : Word) (n : Nat) (t : List Transit) (b : Bay) : State :=
  { withBay 0 b with qm := { queues := [(65535, { w0 := w })], transit := t, cap := [(0, n)] } }

def aMessage : SendMsg := ⟨0xFFFF#32, [], false, 0, 0#32, 0, true, true⟩

theorem test_messages :
    (Met fun s => s.qmRuns = true ∧ ∃ m rest, (s.bay 0).qio.sendq = m :: rest ∧ m.out = false ∧
      (s.bay 0).storesBefore m.gate = false ∧ fld m.trig 0 28 / 65536 = s.devId) ∧
    (Met fun s => s.qmRuns = true ∧ ∃ t, s.qm.transit[0]? = some t ∧ s.qm.behind 0 t = false ∧ t.bay = none ∧
      (s.queue t.queue).state ≠ 0 ∧ (s.queue t.queue).state ≠ 3 ∧ s.fullFor (s.queue t.queue) t.msg.cells t.msg.notice = false ∧
      s.place (s.queue t.queue) t.msg.cells t.msg.notice = some false) ∧
    (Met fun s => s.qmRuns = true ∧ ∃ t m rest, s.qm.transitOf 0 = some (0, t) ∧ t.bay = some 0 ∧ (s.bay 0).qio.sendq = m :: rest ∧
      m.waiting = true ∧ (s.queue t.queue).state ≠ 0 ∧ (s.queue t.queue).state ≠ 3 ∧
      s.fullFor (s.queue t.queue) t.msg.cells t.msg.notice = false ∧
      s.place (s.queue t.queue) t.msg.cells t.msg.notice = some false) ∧
    (Met fun s => s.qmRuns = true ∧ ∃ t m rest, s.qm.transitOf 0 = some (0, t) ∧ t.bay = some 0 ∧ (s.bay 0).qio.sendq = m :: rest ∧
      m.waiting = true ∧ (s.queue t.queue).state ≠ 0 ∧ (s.queue t.queue).state ≠ 3 ∧
      s.fullFor (s.queue t.queue) t.msg.cells t.msg.notice = true ∧ (s.queue t.queue).waits = true ∧ bitAt t.notq 31 = false) :=
  ⟨⟨queueState 0x40000000#32 1 [] { state := 3, qio := { sendq := [{ aMessage with out := false }] } }, by decide, _, _, rfl, rfl,
      by decide, by decide⟩,
    ⟨queueState 0x40000000#32 1 [{ queue := 65535, prod := .doorbell, msg := {} }] {}, by decide, _, rfl, by decide, rfl, by decide,
      by decide, by decide, by decide⟩,
    ⟨queueState 0x42000000#32 1 [{ queue := 65535, prod := .task 0, msg := {}, bay := some 0 }]
        { state := 3, qio := { sendq := [aMessage] } }, by decide, _, _, _, rfl, rfl, rfl, rfl, by decide, by decide, by decide, by decide⟩,
    ⟨queueState 0x42000000#32 0 [{ queue := 65535, prod := .task 0, msg := {}, bay := some 0 }]
        { state := 3, qio := { sendq := [aMessage] } }, by decide, _, _, _, rfl, rfl, rfl, rfl, by decide, by decide, by decide, by decide,
      by decide⟩⟩

/-- A message of one cell for a task on the bay, whose landing holds the other 15. -/
theorem test_message_landed : Met fun s => s.qmRuns = true ∧ (s.bay 0).state = 3 ∧ (s.bay 0).sill = false ∧
    ∃ m, s.nextToLand (s.bay 0) = some (65535, m) ∧ (s.bay 0).qio.landed + m.cells = 16 :=
  ⟨{ withBay 0 { state := 3, qio := { landing := List.replicate 15 ⟨0, 1, 0, {}⟩, slots := [(0, some ⟨16383, 0, 0#32, 0#32, 0⟩)] } } with
      qm := { queues := [(65535, { w0 := 0x50003FFF#32, msgs := [{}] })] } }, by decide, rfl, rfl, {}, by decide, by decide⟩

theorem test_doorbells :
    (Met fun s => s.hb.up = true ∧ s.hb.d3 = false ∧ s.qmRuns = true ∧ s.outerHead 0 = none ∧ 64 ≤ s.hb.mps ∧
      s.writeBad (65535 * 0x1000 + 0xFC) 4 = false ∧ (s.queue 65535).state ≠ 0 ∧ (s.queue 65535).state ≠ 3 ∧
      s.fullFor (s.queue 65535) 1 false = false ∧ s.place (s.queue 65535) 1 false = some false) ∧
    (List.replicate 64 0#8).length = 64 ∧ (List.replicate 260 0#8).length % 64 ≠ 0 ∧
    (Met fun s => s.hb.up = true ∧ s.hb.d3 = false ∧ (∃ o, s.outerHead 0 = some o) ∧ s.writeBad (65535 * 0x1000) 64 = false) ∧
    (Met fun s => s.hb.up = true ∧ s.hb.d3 = false ∧ s.qmRuns = true ∧ (s.queue 65535).bind = 2 ∧ (s.queue 65535).target % 256 = 255 ∧
      (fld 65535#32 0 16 + 65536 - (s.ring 255).head) % 65536 ≤ ((s.ring 255).tail + 65536 - (s.ring 255).head) % 65536 ∧
      ¬ (fld 1#32 0 16 + 65536 - (s.ring 255).head) % 65536 ≤ ((s.ring 255).tail + 65536 - (s.ring 255).head) % 65536) :=
  ⟨⟨{ queueState 0x40000000#32 1 [] {} with hb := { up := true } }, by decide⟩, List.length_replicate, by rw [List.length_replicate]; decide,
    ⟨{ powered with hb := { up := true }, scr := { outer := [{ master := 0, tgt := .memory 0, write := true, len := 4 }] } },
      rfl, rfl, ⟨_, rfl⟩, by decide⟩,
    ⟨{ powered with hb := { up := true }, qm := { queues := [(65535, { w0 := 0x600000FF#32 })], rings := [(255, { head := 65534, tail := 0 })] } },
      by decide⟩⟩

theorem test_rings :
    (Met fun s => s.qmRuns = true ∧ bitAt (s.hrCfg 255) 8 = true ∧ s.hb.up = true ∧ s.hb.d3 = false ∧ s.hb.msixOn = false ∧
      ((s.ring 255).tail + 65536 - (s.ring 255).head) % 65536 < 2 ^ fld (s.hrCfg 255) 0 4 ∧
      ∃ q m rest, s.ringQueue 255 = some q ∧ (s.queue q).msgs = m :: rest ∧ (s.queue q).state = 1 ∧ (s.ring 255).window = false) ∧
    (Met fun s => (s.ring 255).waits = false ∧ (s.ring 255).window = true) ∧ (Met fun s => (s.ring 255).waits = true) ∧
    (Met fun s => s.reachable (0x31010 + 0x20 * 255) = true ∧ s.raiseLocks = false ∧ bitAt (s.hrCfg 255) 8 = false ∧ 4 ≤ fld 4#32 0 4) ∧
    (Met fun s => s.reachable 0x31010 = true ∧ s.raiseLocks = false ∧ bitAt (s.hrCfg 0) 8 = true) :=
  ⟨⟨{ powered with
      hb := { up := true }, regs := { powered.regs with words := [(0x31010 + 0x20 * 255, 0x104#32)] },
      qm := { queues := [(65535, { w0 := 0x600000FF#32, msgs := [{}] })], rings := [(255, { head := 65535, tail := 14 })] } },
      by decide, by decide, rfl, rfl, rfl, by decide, 65535, {}, [], by decide, rfl, by decide, rfl⟩,
    ⟨{ powered with qm := { rings := [(255, { window := true })] } }, by decide⟩,
    ⟨{ powered with qm := { rings := [(255, { waits := true })] } }, rfl⟩, ⟨powered, by decide⟩,
    ⟨{ powered with regs := { powered.regs with words := [(0x31010, 0x104#32)] } }, by decide⟩⟩

theorem test_descriptors :
    (Met fun s => s.reachable 0x30024 = true ∧ s.raiseLocks = false ∧ s.qmRuns = true ∧
      s.descCheck (fld (s.reg 0x30010) 0 16) s.descData = 0 ∧ s.qm.pend.length < 16 ∧ (s.queue (fld (s.reg 0x30010) 0 16)).state = 0) ∧
    (Met fun s => s.reachable 0x30024 = true ∧ s.raiseLocks = false ∧ s.qmRuns = true ∧
      s.descCheck (fld (s.reg 0x30010) 0 16) s.descData = 0 + 1) ∧
    (Met fun s => s.qmRuns = true ∧ s.rsu.raised = true ∧ (s.queue 65535).tmo ≠ 0 ∧ (s.queue 65535).silent = false ∧
      (s.queue 65535).state = 1 ∧ s.pathRetry (s.queue 65535) = false ∧ s.fullFor (s.queue 65535) 1 true = false ∧
      s.place (s.queue 65535) 1 true = some true) :=
  ⟨⟨powered, by decide⟩, ⟨{ powered with regs := { powered.regs with words := [(0x30014, 0xC0000000#32)] } }, by decide⟩,
    ⟨{ powered with
        rsu := { raised := true }, qm := { queues := [(65535, { w0 := 0x40000000#32, w2 := 0x10000#32 })], ovfSize := 1 } }, by decide⟩⟩

/-- Below the fault cell and at it; a word that reads with an error, or becomes one; a bay under test; the scrubber's place. -/
theorem test_outside_words :
    (Met fun s => s.bentHere (255 / 16) = true ∧ (s.bay 255).state ≠ 0 ∧ (s.bay 255).march = false ∧ (s.bay 255).state ≠ 2 ∧
      (s.bay 255).smarks = [] ∧ (s.bay 255).imarks = [] ∧ 0x5FFBF / 4 * 4 < 0x5FFC0 ∧ 0x5FFC0 ≤ 0x5FFC0 / 4 * 4 ∧
      markOf ((s.bay 255).upset [(0, 0, 1)]).smarks 0 ≠ 2 ∧ tgetD 0 s.bg.bayScrub 255 < 98304) ∧
    (Met fun s => s.bentHere 0 = true ∧ (s.bay 0).state ≠ 0 ∧ (s.bay 0).march = false ∧ markOf (s.bay 0).smarks 0 = 1 ∧
      markOf (s.bay 0).smarks (4 / 4) = 0) ∧
    (Met fun s => s.bentHere 0 = true ∧ (s.bay 0).state ≠ 0 ∧ (s.bay 0).march = true) ∧
    (Met fun s => s.bentHere 0 = true ∧ (s.bay 0).state = 3 ∧ markOf (s.bay 0).imarks 0 = 1 ∧
      98304 ≤ tgetD 0 s.bg.bayScrub 0 ∧ markOf ((s.bay 0).upset []).imarks (tgetD 0 s.bg.bayScrub 0 - 98304) ≠ 2) :=
  ⟨⟨withBay 255 { state := 1 }, by decide⟩, ⟨withBay 0 { state := 1, smarks := [(0, 1)] }, by decide⟩,
    ⟨withBay 0 { state := 2, march := true }, by decide⟩,
    ⟨{ withBay 0 { state := 3, imarks := [(0, 1)] } with bg := { bayScrub := [(0, 114687)] } }, by decide⟩⟩

/-- Whether the bank's owner lets an agent read or write. -/
def allowed (s : State) (n : Nat) (ag : Agent) (write : Bool) : Bool :=
  ownerAllows n (s.bank n).ownKind (s.bank n).ownBay (s.logBank n) ag write

/-- The last bank, of the scribe; in retention; and in a test of another bank of its group. -/
theorem test_staging :
    (Met fun s => 191 * 0x40000 / 0x40000 < 192 ∧ s.stgOn = true ∧ (s.bank 191).awake = true ∧ (s.bank 191).marks = [] ∧
      allowed s 191 .scribe false = true ∧ allowed s 191 .scribe true = true ∧ allowed s 191 .queueManager false = false ∧
      allowed s 191 .queueManager true = false ∧ s.planLocks 191 = false ∧ 191 * 0x40000 % 4 = 0 ∧
      tgetD none s.stg.tests (191 / 12) = none) ∧
    (Met fun s => s.stgOn = true ∧ (s.bank 191).awake = false) ∧
    (Met fun s => s.stgOn = true ∧ (s.bank 191).awake = true ∧
      ∀ m, tgetD none s.stg.tests (191 / 12) = some m → 191 / 12 * 12 + m.bank ≠ 191) :=
  ⟨⟨{ powered with stg := { banks := [(191, { ownKind := 2 })] } }, by decide⟩,
    ⟨{ powered with stg := { banks := [(191, { awake := false })] } }, by decide⟩,
    ⟨{ powered with stg := { tests := [(15, some ⟨0, false⟩)] } }, by decide, by decide,
      fun m h => by obtain rfl := Option.some.inj h; decide⟩⟩

theorem test_bank_ownership :
    (Met fun s => s.reachable (0xB0000 + 4 * 191) = true ∧ s.raiseLocks = false ∧ s.ownRefused 191 0x300FF#32 = false ∧
      s.ownRefused 191 0x60000#32 = true) ∧
    (Met fun s => (s.bank 191).pending = true) ∧ (Met fun s => (s.bank 0).waking = true ∧ (s.bank 0).retain = false) :=
  ⟨⟨powered, by decide⟩, ⟨{ powered with stg := { banks := [(191, { pending := true })] } }, by decide⟩,
    ⟨{ powered with stg := { banks := [(0, { waking := true, awake := false })] } }, by decide⟩⟩

theorem test_march :
    (Met fun s => s.reachable (0xB0400 + 0x10 * 15) = true ∧ tgetD none s.stg.tests 15 = none ∧ fld 0xB1#32 4 4 < 12 ∧
      (s.bank (12 * 15 + fld 0xB1#32 4 4)).ownKind = 5 ∧ (s.bank (12 * 15 + fld 0xB1#32 4 4)).awake = true ∧
      s.bankBusy (12 * 15 + fld 0xB1#32 4 4) = false) ∧
    (∀ preserve, Met fun s => ∃ t, tgetD none s.stg.tests 15 = some t ∧ t.preserve = preserve) ∧
    (Met fun s => s.reachable (0xB1000 + 0x10 * 255) = true ∧ tgetD none s.stg.bayTests 255 = none ∧ fld 0x21#32 4 2 ≠ 3 ∧
      (s.bay 255).state = 2) ∧
    (∀ preserve, Met fun s => ∃ t, tgetD none s.stg.bayTests 255 = some t ∧ t.preserve = preserve ∧ t.bank = 2 ∧ (s.bay 255).outq = []) :=
  ⟨⟨{ powered with stg := { banks := [(191, { ownKind := 5 })] } }, by decide⟩,
    fun preserve => ⟨{ powered with stg := { tests := [(15, some ⟨11, preserve⟩)] } }, _, rfl, rfl⟩,
    ⟨withBay 255 { state := 2 }, by decide⟩,
    fun preserve => ⟨{ withBay 255 { state := 2, march := true } with stg := { bayTests := [(255, some ⟨2, preserve⟩)] } },
      _, rfl, rfl, rfl, rfl⟩⟩

/-- MEMc_CFG of a channel of one DIMM: 2933 MT/s, x4, one rank, 17 row bits. -/
def oneDimm : Word := 0x10100000#32

/-- Channel 7 with its control register and contents. -/
def withChan (ctl : Word) (x : Chan) : State :=
  { powered with regs := { words := [(memBase 7, oneDimm), (memBase 7 + 4, ctl)] }, ddr := { chans := [(7, x)] } }

/-- What INIT of channel 7 asks of the state before it. -/
def initReady (s : State) : Bool :=
  s.reachable (memBase 7 + 4) && (decide ((s.chan 7).state = 0) || decide ((s.chan 7).state = 3)) && s.ddr.rails &&
    decide (s.hw.dimms / 2 ^ 7 % 2 = 1)

/-- Excluded fields; another speed than channel 0's; training without encryption, and with it. -/
theorem test_init :
    (Met fun s => initReady s = true ∧ cfgExcluded (s.memCfg 7) = true) ∧
    (Met fun s => initReady s = true ∧ cfgExcluded (s.memCfg 7) = false ∧ fld (s.memCfg 7) 28 2 = 1 ∧ s.sec.approved = false ∧
      s.otherSpeed 1 = true) ∧
    (Met fun s => initReady s = true ∧ (s.chan 7).state = 3 ∧ bitAt (s.reg (memBase 7 + 4)) 2 = false ∧
      cfgExcluded (s.memCfg 7) = false ∧ fld (s.memCfg 7) 28 2 = 1 ∧ s.sec.approved = false ∧ s.otherSpeed 1 = false) ∧
    (Met fun s => initReady s = true ∧ (s.chan 7).state = 0 ∧ s.hw.full = true ∧ bitAt 5#32 2 = true ∧
      cfgExcluded (s.memCfg 7) = false ∧ fld (s.memCfg 7) 28 2 = 1 ∧ s.otherSpeed 1 = false ∧ (s.chan 7).keygen = 255) :=
  ⟨⟨{ powered with regs := { words := [(memBase 7, 0x30000000#32)] } }, by decide⟩,
    ⟨{ powered with
        regs := { words := [(memBase 0, 0x00100000#32), (memBase 7, oneDimm)] }, ddr := { chans := [(0, { state := 2 })] } }, by decide⟩,
    ⟨withChan 0#32 { state := 3 }, by decide⟩, ⟨withChan 0#32 { keygen := 255 }, by decide⟩⟩

theorem test_training_done : Met fun s => (s.chan 7).state = 1 ∧ stepOf (s.memCfg 7) 7 = true ∧ stepOf (s.memCfg 7) 8 = false :=
  ⟨withChan 0#32 { state := 1 }, by decide⟩

theorem test_self_refresh :
    (Met fun s => s.reachable (memBase 7 + 4) = true ∧ (s.chan 7).state = 2 ∧ (s.chan 7).waits = [] ∧
      bitAt 0#32 0 = false ∧ bitAt 0#32 1 = false) ∧
    (Met fun s => (s.chan 7).state = 2 ∧ (s.chan 7).srMove = true ∧ bitAt (s.reg (memBase 7 + 4)) 1 = true ∧ (s.chan 7).waits = [] ∧
      (s.chan 7).wq = []) ∧
    (Met fun s => s.reachable (memBase 7 + 4) = true ∧ (s.chan 7).state = 4) ∧
    (∀ lost, Met fun s => (s.chan 7).state = 4 ∧ (s.chan 7).srMove = true ∧ bitAt (s.reg (memBase 7 + 4)) 1 = false ∧
      (s.chan 7).vddqLost = lost) ∧
    (Met fun s => s.on (chanDom 7) = false) ∧ (Met fun s => (s.chan 7).state ≠ 4 ∧ s.on (chanDom 7) = true) :=
  ⟨⟨withChan 0#32 { state := 2 }, by decide⟩, ⟨withChan 2#32 { state := 2, srMove := true }, by decide⟩,
    ⟨withChan 2#32 { state := 4 }, by decide⟩, fun lost => ⟨withChan 0#32 { state := 4, srMove := true, vddqLost := lost }, rfl, rfl, by cases lost <;> decide, rfl⟩,
    ⟨State.reset, by decide⟩, ⟨withChan 0#32 { state := 2 }, by decide⟩⟩

/-- The last line of channel 7's DIMM, its rank out of or in its refresh episode; and an address that no DIMM serves. -/
theorem test_ddr_requests :
    (∀ wild, Met fun s => ∃ a, chanOf a = 7 ∧ s.ddrErr a = none ∧ s.rankOf a ∉ (s.chan (chanOf a)).episodes ∧
      (s.chan (chanOf a)).wild = wild ∧ (s.chan (chanOf a)).wq.length + (lineSpan a 64).length ≤ 64) ∧
    (Met fun s => ∃ a, s.ddrErr a = none ∧ s.rankOf a ∈ (s.chan (chanOf a)).episodes) ∧
    (Met fun s => s.ddrErr (2 ^ 43 - 1) = some .unmapped) :=
  ⟨fun wild => ⟨withChan 0#32 { state := 2, wild := wild }, 7 * 2 ^ 39 + dimmBytes oneDimm - 64, by cases wild <;> decide⟩,
    ⟨withChan 0#32 { state := 2, episodes := [0] }, 7 * 2 ^ 39 + dimmBytes oneDimm - 64, by decide⟩,
    ⟨withChan 0#32 { state := 2 }, by decide⟩⟩

/-- A rank at rest and one in its episode, with a line to write back or with the patrol on; retraining at its first and at its
last slice. -/
theorem test_refresh :
    (Met fun s => (s.chan 7).state = 2 ∧ 0 ∈ cfgRanks (s.memCfg 7) ∧ 0 ∉ (s.chan 7).episodes) ∧
    (Met fun s => 0 ∈ (s.chan 7).episodes ∧ (s.chan 7).back = [] ∧ (s.chan 7).waits = [] ∧
      bitAt (s.reg (memBase 7 + 4)) 3 = true ∧ tgetD 0 (s.chan 7).scrub 0 + 1 = 2 ^ (cfgRow (s.memCfg 7) + 11)) ∧
    (Met fun s => 0 ∈ (s.chan 7).episodes ∧ (s.chan 7).waits = [] ∧
      (s.chan 7).back.find? (fun l => decide (s.rankOf (l * 64) = 0)) = some (7 * 2 ^ 33) ∧
      markOf ((s.start.ddrUpset []).chan 7).marks (7 * 2 ^ 33) % 4 = 1) ∧
    (∀ n, n = 1 ∨ n = 64 → Met fun s => (s.chan 7).state = 2 ∧ (s.chan 7).retrain ≠ 0 ∧ (s.chan 7).retrain = n) :=
  ⟨⟨withChan 0#32 { state := 2 }, by decide⟩,
    ⟨withChan 8#32 { state := 2, episodes := [0], scrub := [(0, 2 ^ 28 - 1)] }, by decide⟩,
    ⟨withChan 0#32 { state := 2, episodes := [0], back := [7 * 2 ^ 33], marks := [(7 * 2 ^ 33, 1)] }, by decide⟩,
    fun n h => ⟨withChan 0#32 { state := 2, retrain := n }, rfl, by obtain rfl | rfl := h <;> decide, rfl⟩⟩

theorem test_epochs : Met fun s => s.stgOn = true ∧ s.rsu.raised = true ∧ bitAt (s.reg 0x40000) 0 = false :=
  ⟨{ powered with rsu := { raised := true } }, by decide⟩

/-- A move of the last page of the last table, from channel 0 to channel 7. -/
def aMove (phase passes : Nat) (dirty : List Nat) : PageMove :=
  { key := 2 ^ 32 - 1, src := 0x80000000#32, dst := 0x83FFFFFF#32, phase := phase, passes := passes, dirty := dirty }

def moving (m : PageMove) : State := { powered with scr := { moves := [m] } }

/-- Nothing keeps the move back: no request to a peer, no March test, no refresh episode. -/
def freeMove (s : State) (m : PageMove) : Bool := !s.copying m.key && !s.placeWaits m.src && !s.placeWaits m.dst

theorem test_page_moves :
    (Met fun s => ∃ m, m = aMove 0 0 [] ∧ s.moveOf (pageKey 1048575 4095) = some m ∧ freeMove s m = true ∧
      m.dirty.length ≤ fld (s.reg 0x40004) 12 6 + 1) ∧
    (∀ n, n = 6 ∨ n = 7 → Met fun s => ∃ m, m = aMove 0 n (List.replicate 65 0) ∧ s.moveOf (pageKey 1048575 4095) = some m ∧
      freeMove s m = true ∧ fld (s.reg 0x40004) 12 6 + 1 < m.dirty.length) ∧
    (Met fun s => s.moveOf (pageKey 1048575 4095) = some (aMove 1 0 []) ∧ s.accessing (pageKey 1048575 4095) = false) ∧
    (Met fun s => ∃ m, m = aMove 2 0 [] ∧ s.moveOf (pageKey 1048575 4095) = some m ∧ freeMove s m = true ∧
      bitAt (s.reg 0x400C0) 31 = false ∧ tierOf m.src ≠ 3 ∧ tierOf m.dst ≠ 3) :=
  ⟨⟨moving (aMove 0 0 []), aMove 0 0 [], by decide⟩,
    fun n h => ⟨moving (aMove 0 n (List.replicate 65 0)), aMove 0 n (List.replicate 65 0), by obtain rfl | rfl := h <;> decide⟩,
    ⟨moving (aMove 1 0 []), by decide⟩, ⟨moving (aMove 2 0 []), aMove 2 0 [], by decide⟩⟩

/-- A move of the last task from bay 0 to bay 255, or away. -/
def taskMoving (phase : Nat) (dst : Option Nat) (b : Bay) : State :=
  { withBay 0 b with scr := { taskMoves := [{ task := 16383, src := 0, dst := dst, slot := 15, phase := phase }] } }

theorem test_task_moves :
    (∀ dst, dst = none ∨ dst = some 255 → Met fun s => ∃ m, s.taskMove 16383 = some m ∧ m.dst = dst ∧ m.phase = 4 ∧
      (s.bay m.src).running 16383 = false ∧ (s.bay m.src).sending 16383 = false) ∧
    (Met fun s => ∃ m, s.taskMove 16383 = some m ∧ m.dst = some 255 ∧ m.phase = 6 ∧ (s.bay m.src).march = false ∧
      (s.bay 255).march = false ∧ ((s.bay m.src).state = 3 → ((s.start.copyTask 16383 m.src 255).bay m.src).state = 3)) ∧
    (Met fun s => ∃ m, s.taskMove 16383 = some m ∧ m.phase = 4 ∧ (s.bay m.src).running 16383 = true ∧ m.evac = false ∧
      bitAt (s.reg 0x400C0) 31 = false) :=
  ⟨fun dst h => ⟨taskMoving 4 dst { state := 3 }, _, rfl, rfl, rfl, by obtain rfl | rfl := h <;> decide, by obtain rfl | rfl := h <;> decide⟩,
    ⟨taskMoving 6 (some 255) { state := 3 }, _, rfl, rfl, rfl, by decide, by decide, fun _ => by decide⟩,
    ⟨taskMoving 4 (some 255) { state := 3, qio := { cur := some ⟨0, 16383, 0, {}⟩ } }, _, rfl, rfl, by decide, rfl, by decide⟩⟩

/-- The scribe with the last task selected, its descriptor word 0 = w, and bay 0 in RUN. -/
def scribeState (w : Word) : State :=
  { withBay 0 { state := 3 } with
    regs := { powered.regs with words := [(0x40040, 16383#32)] }, scr := { tasks := [(16383 * 8, w)] } }

/-- The selected task placed in bay 0, while tasks n to n + 3 move. -/
def moreMoves (n : Nat) : State :=
  { scribeState 0xB0000001#32 with
    scr := { tasks := [(16383 * 8, 0xB0000001#32)], taskMoves := (List.range 4).map fun i => { task := n + i, src := 0, dst := none } } }

/-- A task that is not valid; FIXED; placed; free to be placed; free to be moved; and one that four others make wait. -/
theorem test_task_commands :
    (∀ w ∈ [0#32, 0x80000000#32, 0x80FF0001#32, 0xB0FF0001#32], Met fun s => s.reachable 0x40068 = true ∧ s.raiseLocks = false ∧
      s.tOpen = true ∧ s.tsel = 16383 ∧ s.scr.lost = false ∧ s.taskWord s.tsel 0 = w ∧ s.taskMove s.tsel = none) ∧
    ((scribeState 0#32).taskValid 16383 = false ∧ (scribeState 0#32).taskPlaced 16383 = false ∧ policyOf ((scribeState 0#32).reg 0x40044) ≠ 3) ∧
    (Met fun s => policyOf (s.reg 0x40044) = 3 ∧ s.tOpen = true) ∧
    ((scribeState 0x80000000#32).taskValid 16383 = true ∧ (scribeState 0x80000000#32).taskPlaced 16383 = false ∧
      policyOf 0x80000000#32 = 0 ∧ (scribeState 0x80000000#32).admissible 16383 (scribeState 0x80000000#32).tdest = true ∧
      (scribeState 0x80000000#32).freeSlot (scribeState 0x80000000#32).tdest = some 0) ∧
    ((scribeState 0xB0FF0001#32).taskValid 16383 = true ∧ (scribeState 0xB0FF0001#32).taskPlaced 16383 = true ∧ policyOf 0xB0FF0001#32 ≠ 0 ∧
      (scribeState 0xB0FF0001#32).admissible 16383 (scribeState 0xB0FF0001#32).tdest = true) ∧
    (Met fun s => s.taskValid s.tsel = true ∧ policyOf (s.taskWord s.tsel 0) ≠ 0 ∧ s.taskPlaced s.tsel = true ∧ s.taskMove s.tsel = none ∧
      4 ≤ s.scr.taskMoves.length ∧ s.tOpen = true) ∧
    (Met fun s => s.taskValid s.tsel = true ∧ (s.taskMove s.tsel).isSome = true ∧ policyOf (s.taskWord s.tsel 0) ≠ 0 ∧ s.tOpen = true) ∧
    (Met fun s => s.taskValid s.tsel = true ∧ s.taskPlaced s.tsel = false ∧ s.admissible s.tsel s.tdest = false ∧ s.tOpen = true) := by
  refine ⟨?_, by decide, ⟨{ powered with regs := { words := [(0x40044, 0x60000000#32)] } }, by decide⟩, by decide, by decide,
    ⟨moreMoves 0, by decide⟩, ⟨moreMoves 16380, by decide⟩, ⟨{ scribeState 0x80000000#32 with bays := [] }, by decide⟩⟩
  intro w hw
  simp only [List.mem_cons, List.not_mem_nil, or_false] at hw
  exact ⟨scribeState w, by obtain rfl | rfl | rfl | rfl := hw <;> decide⟩

/-- The scribe with the last page selected, live, of a table that may live in DDR4; channel 7 is READY. -/
def pageState (l1 : List (Nat × Bank)) : State :=
  { withChan 0#32 { state := 2 } with
    regs := { words := [(memBase 7, oneDimm), (0x40080, 0xFFFFFFFF#32), (0x40084, 0x8383FFFF#32)] },
    scr := { tables := [(1048575, 0xA4800000#32)], pages := [(2 ^ 32 - 1, { live := true, w0 := 0x83800000#32 })],
             ranges := [(0x3800000, 0x800000)] },
    stg := { banks := l1 } }

/-- The selected page with another map entry, or its table with another descriptor. -/
def pageLike (e : PageEnt) (t w : Word) (moves : List PageMove) : State :=
  { pageState [] with
    regs := { words := [(memBase 7, oneDimm), (0x40080, 0xFFFFFFFF#32), (0x40084, w), (0x4008C, 0x60000000#32)] },
    scr := { tables := [(1048575, t)], pages := [(2 ^ 32 - 1, e)], ranges := [(0x3800000, 0x800000)], moves := moves } }

theorem test_page_commands :
    (Met fun s => s.raiseLocks = false ∧ s.pOpen = true ∧ s.reachable 0x40090 = true ∧ s.scr.lost = false ∧ (s.page s.psel).live = true ∧
      s.mayMove s.psel = true ∧ policyOf (s.table (s.psel / 4096)) ≠ 0 ∧
      s.movePlace s.psel (s.reg 0x40084) = some 0x8383FFFF#32 ∧ tierOf (placeOf 0x8383FFFF#32) ≠ 3 ∧
      tierOf (placeOf (s.page s.psel).w0) ≠ 3 ∧ s.scr.moves.length < 8) ∧
    (Met fun s => s.pOpen = true ∧ (s.page s.psel).live = false ∧ policyOf (s.reg 0x4008C &&& 0xFFFF0FFF#32) = 3) ∧
    (Met fun s => s.pOpen = true ∧ (s.page s.psel).live = true ∧ policyOf (s.table (s.psel / 4096)) = 0) ∧
    (Met fun s => s.pOpen = true ∧ (s.page s.psel).live = true ∧ policyOf (s.table (s.psel / 4096)) ≠ 0 ∧ s.mayMove s.psel = false) ∧
    (Met fun s => s.pOpen = true ∧ s.mayMove s.psel = true ∧ policyOf (s.table (s.psel / 4096)) ≠ 0 ∧
      s.movePlace s.psel (s.reg 0x40084) = none) ∧
    (Met fun s => s.pOpen = true ∧ s.mayMove s.psel = true ∧ 8 ≤ s.scr.moves.length ∧
      (s.movePlace s.psel (s.reg 0x40084)).isSome = true) :=
  ⟨⟨pageState [], by decide⟩, ⟨pageLike {} 0xA4800000#32 0#32 [], by decide⟩,
    ⟨pageLike { live := true, w0 := 0x83800000#32 } 0x84800000#32 0#32 [], by decide⟩,
    ⟨pageLike { live := true, w0 := 0x83800000#32, fenced := 1 } 0xA4800000#32 0#32 [], by decide⟩,
    ⟨pageLike { live := true, w0 := 0x83800000#32 } 0xA4800000#32 0x83880000#32 [], by decide⟩,
    ⟨pageLike { live := true, w0 := 0x83800000#32 } 0xA4800000#32 0x8383FFFF#32
      ((List.range 8).map fun i => { key := i, src := 0x83800001#32, dst := 0x83800002#32 }), by decide⟩⟩

/-- TWRITE of a table without pages, and of one that gains a page; a table whose descriptor cannot be met. -/
theorem test_table_commands :
    (Met fun s => s.raiseLocks = false ∧ s.pOpen = true ∧ s.reachable 0x40090 = true ∧ policyOf (s.reg 0x4008C &&& 0xFFFF0FFF#32) ≠ 3 ∧
      s.twriteBad (s.psel / 4096) (s.reg 0x4008C &&& 0xFFFF0FFF#32) = false ∧ bitAt (s.reg 0x4008C &&& 0xFFFF0FFF#32) 31 = false) ∧
    (Met fun s => s.pOpen = true ∧ s.psel / 4096 = 1048574 ∧ s.reg 0x4008C &&& 0xFFFF0FFF#32 = 0xA4800000#32 ∧
      s.twriteBad 1048574 0xA4800000#32 = false ∧
      (({ s.start with scr := { s.scr with tables := tsetD 0#32 s.scr.tables 1048574 0xA4800000#32 } } : State).addPages 1048574
        [0]).isSome = true) ∧
    (Met fun s => s.pOpen = true ∧ s.twriteBad 1048574 0xA4800000#32 = false ∧
      ({ s.start with scr := { s.scr with tables := tsetD 0#32 s.scr.tables 1048574 0xA4800000#32 } } : State).addPages 1048574
        [0] = none) :=
  ⟨⟨powered, by decide⟩,
    ⟨{ pageState [] with
        regs := { words := [(memBase 7, oneDimm), (0x40080, 0xFFFFE000#32), (0x4008C, 0xA4800000#32)] } }, by decide⟩,
    ⟨{ powered with regs := { words := [(0x40080, 0xFFFFE000#32), (0x4008C, 0xA4800000#32)] } }, by decide⟩⟩

/-- An evacuation and a release start; meet one that runs; and a release of a bank of another kind, or with a FIXED page. -/
theorem test_evacuations :
    (Met fun s => s.raiseLocks = false ∧ s.scribeOpen = true ∧ s.scr.evac = none ∧ s.reachable 0x400A0 = true ∧ s.reachable 0x400A4 = true ∧
      s.scr.rel = none ∧ s.reachable 0x400B0 = true ∧ (s.bank (fld 191#32 0 8)).kind = 2 ∧ s.pagesIn (fld 191#32 0 8) = []) ∧
    (Met fun s => s.scribeOpen = true ∧ s.scr.evac.isSome = true ∧ s.scr.rel.isSome = true) ∧
    (Met fun s => s.scribeOpen = true ∧ s.scr.rel = none ∧ (s.bank (fld 191#32 0 8)).kind ≠ 2) ∧
    (Met fun s => s.scribeOpen = true ∧ s.scr.rel = none ∧ (s.bank 0).kind = 2 ∧
      ∃ k, k ∈ s.pagesIn 0 ∧ policyOf (s.table (k / 4096)) = 0) :=
  ⟨⟨pageState [(191, { kind := 2, ownKind := 2 })], by decide⟩,
    ⟨{ powered with scr := { evac := some { bays := [0], drop := false, byBay := true }, rel := some { bank := 0 } } }, by decide⟩,
    ⟨powered, by decide⟩,
    ⟨{ powered with
        scr := { tables := [(0, 0x82000000#32)], pages := [(0, { live := true, w0 := 0x40000000#32 })] },
        stg := { banks := [(0, { kind := 2, ownKind := 2 })] } }, by decide, by decide, by decide, 0, by decide, by decide⟩⟩

/-- A raise of bent 0 in progress at a step; the plan lies in bank 0. -/
def raising (op step : Nat) (b : Bay) : State :=
  { withBay 0 b with rsu := { busy := true, op := op, step := step, bents := 1 } }

theorem test_raise_commands :
    (Met fun s => s.reachable 0x5000C = true ∧ s.stgOn = true ∧ s.rsu.busy = false ∧ s.raiseOk 1 = true ∧ s.raiseOk 2 = false) ∧
    (Met fun s => s.reachable 0x5000C = true ∧ s.stgOn = true ∧ s.rsu.busy = true ∧ s.rsu.plain = false ∧ s.rsu.step ≤ 4) ∧
    (Met fun s => s.reachable 0x5000C = true ∧ s.stgOn = true ∧ s.rsu.busy = true ∧ 4 < s.rsu.step) ∧
    (Met fun s => s.stgOn = false) :=
  ⟨⟨powered, by decide⟩, ⟨raising 1 4 {}, by decide⟩, ⟨raising 1 5 {}, by decide⟩,
    ⟨{ powered with rst := { powered.rst with dom := (List.range 23).map fun d => (d, if d = 16 then 0 else 1) } }, by decide⟩⟩

/-- The last steps of a raise of bent 0, of a re-raise that was disturbed, and of one whose bent is quiet; a bay that starts,
one that was retired meanwhile, one that does not start. -/
theorem test_raise_steps :
    (∀ step, Met fun s => s.rsu.busy = true ∧ s.rsu.op = 1 ∧ s.rsu.step = step ∧ s.rsu.plain = false) ∧
    (Met fun s => s.rsu.busy = true ∧ s.rsu.op ≠ 1 ∧ s.rsu.disturbed = true) ∧
    (Met fun s => s.rsu.busy = true ∧ s.rsu.op = 2 ∧ s.rsu.disturbed = false ∧ s.rsu.step = 5 ∧ s.rsu.quiesce = 4) ∧
    (Met fun s => s.rsu.busy = true ∧ s.rsu.op = 3 ∧ s.rsu.disturbed = false ∧ s.rsu.step = 5) ∧
    (Met fun s => 255 ∈ s.rsu.starting ∧ (s.bay 255).state = 1 ∧ (s.bay 255).retired = false) ∧
    (Met fun s => 255 ∈ s.rsu.starting ∧ (s.bay 255).state = 1 ∧ (s.bay 255).retired = true) ∧
    (Met fun s => s.rsu.starting.contains 255 = false) :=
  ⟨fun step => ⟨raising 1 step { state := 1 }, rfl, rfl, rfl, rfl⟩,
    ⟨{ powered with rsu := { busy := true, op := 2, disturbed := true } }, by decide⟩,
    ⟨{ powered with rsu := { busy := true, op := 2, step := 5, quiesce := 4 } }, by decide⟩, ⟨raising 3 5 {}, by decide⟩,
    ⟨{ withBay 255 { state := 1 } with rsu := { starting := [255] } }, by decide⟩,
    ⟨{ withBay 255 { state := 1, retired := true } with rsu := { starting := [255] } }, by decide⟩, ⟨powered, by decide⟩⟩

theorem test_raise_ready : Met fun s => s.rsu.busy = true ∧ s.rsu.op = 1 ∧ s.rsu.step = 5 ∧ s.bentsReady s.rsu.bents true = true ∧
    s.channelsReady s.plan = true :=
  ⟨{ powered with bays := (List.range 16).map fun b => (b, { id := b, state := 1 }),
                  stg := { banks := [(0, { mem := { gen := 0 } })] },
                  rsu := { busy := true, op := 1, step := 5, bents := 1 } }, by decide⟩

/-- The least plan that the first two steps of a REBAY of bay 0 take: a header, three sections, the last an absent signature
(R354–R356, R373, R380). -/
def aPlan : List Byte :=
  [0x53#8, 0x4B#8, 0x46#8, 0x50#8, 1#8, 0#8] ++ toBytes 2 64 ++ toBytes 4 224 ++ toBytes 2 0 ++ toBytes 2 2 ++ zeros 8 ++ toBytes 2 1 ++
    toBytes 2 3 ++ toBytes 4 64 ++ zeros 32 ++
    toBytes 4 1 ++ toBytes 4 112 ++ toBytes 4 0 ++ toBytes 4 (crc32c []).toNat ++
    toBytes 4 2 ++ toBytes 4 112 ++ toBytes 4 0 ++ toBytes 4 (crc32c []).toNat ++
    toBytes 4 0xFF ++ toBytes 4 112 ++ toBytes 4 112 ++ toBytes 4 (crc32c (zeros 112)).toNat

def planned (op step : Nat) : State :=
  { powered with
    stg := { banks := [(0, { ownKind := 4, mem := ({ gen := 0 } : Mem).putBytes 0 aPlan })] },
    rsu := { busy := true, op := op, step := step, len := 224 } }

set_option maxRecDepth 200000 in
/-- It passes step 1 and step 2 of a REBAY, and the header check fails for a RAISE. -/
theorem test_plan_steps :
    ((planned 3 1).plan.headerReason 3 224 (planned 3 1).hw.part (planned 3 1).raiseBent = 0 ∧ (planned 3 1).plan.nsect = 3 ∧
      (planned 3 1).plan.directoryReason 3 = 0 ∧ ((planned 3 1).planRead 0 64).2 = true ∧
      ((((planned 3 1).planRead 0 64).1.planRead 64 48)).2 = true ∧ (planned 3 1).bentsReady 1 false = true ∧
      (planned 1 1).plan.headerReason 1 224 (planned 1 1).hw.part (planned 1 1).raiseBent = 4) ∧
    ((planned 3 2).plan.total = 224 ∧ ((planned 3 2).planRead 0 224).2 = true ∧ (planned 3 2).plan.crcsOk = true ∧
      (planned 3 2).authReason (planned 3 2).plan = 0) ∧
    ((planned 1 9).channelsReady (planned 1 9).plan = true ∧ ((planned 1 9).loadScribe (planned 1 9).plan false).isSome = true) ∧
    (({ planned 3 1 with stg := {} } : State).planRead 0 64).2 = false := by
  refine ⟨⟨?_, ?_, ?_, ?_, ?_, ?_, ?_⟩, ⟨?_, ?_, ?_, ?_⟩, ⟨?_, ?_⟩, ?_⟩ <;> rfl

/-- Port 7 of a powered device, UP, with the rest of its contents. -/
def withPort (x : Port_) : State := { powered with scf := { ports := [(7, { x with state := 2 })] } }

/-- The receiver's number stands at its last value before it wraps. -/
theorem test_plain_link : plainLink { seq := 4095 } { rxNext := 4095 } ∧ plainLink {} {} :=
  ⟨⟨rfl, rfl, rfl, by intro t h; cases h⟩, rfl, rfl, rfl, by intro t h; cases h⟩

theorem test_flits :
    (Met fun s => s.portUp 7 = true ∧ (s.port 7).rxNext = 4095 ∧ (s.port 7).replay = [] ∧ (s.port 7).gap = false ∧ 0 % 4096 = s.devId ∧
      s.qmRuns = true ∧ (s.queue 65535).state ≠ 0 ∧ (s.queue 65535).state ≠ 3 ∧ s.fullFor (s.queue 65535) 1 false = false ∧
      s.place (s.queue 65535) 1 false = some false ∧ bitAt (s.taskWord 16383 4) 31 = false ∧ 4095 ≠ s.devId ∧
      tgetD none s.scf.view (4095 * 8 + 7) = none ∧ (s.port 7).retry = false ∧ (s.port 7).qFwd = [] ∧ (s.port 7).qCmp = [] ∧
      (s.port 7).qCtl = [] ∧ (s.port 7).owed = [] ∧ (s.port 7).nak = false ∧ (s.port 7).ackDue = false) ∧
    (Met fun s => s.portUp 7 = true ∧ 4095 ≠ s.devId ∧ tgetD none s.scf.view (4095 * 8 + 7) = some (2, 129) ∧
      1 ≤ (0 + 256 - 129) % 256 ∧ (0 + 256 - 129) % 256 ≤ 127) ∧
    (1 ≤ 2047 ∧ 1 ≤ (0 + 256 - 255) % 256) :=
  ⟨⟨{ withPort { rxNext := 4095 } with qm := { queues := [(65535, { w0 := 0x40000000#32 })], cap := [(0, 1)] } }, by decide⟩,
    ⟨{ powered with scf := { ports := [(7, { state := 2 })], view := [(4095 * 8 + 7, some (2, 129))] } }, by decide⟩, by decide⟩

/-- A flit of device 4,095 about its page 0. -/
def aRequest : Flit := { src := 4095 }

/-- A peer's page held in the guest area of channel 7, and the peer's route by port 7. -/
def guestState (x : Chan) (port : Port_) : State :=
  { withChan 0#32 x with
      scr := { guests := [(guestKey 4095 0, 7 * 2 ^ 23)] },
      scf := { ports := [(7, { port with state := 2 })], routes := [(4095, 15)] } }

/-- No such guest; one that waits for its rank's episode, or behind another; one whose channel is not READY; one that is served. -/
theorem test_guest_access :
    (Met fun s => s.portUp 7 = true ∧ s.guestWaits aRequest = false ∧ s.scf.guestq = [] ∧
      s.guestPage aRequest.src (flitPage aRequest).1 = none) ∧
    (Met fun s => s.portUp 7 = true ∧ s.guestWaits aRequest = true) ∧
    (Met fun s => s.portUp 7 = true ∧ s.guestWaits aRequest = false ∧ (s.scf.guestq.any fun e => decide (e.2.1.src = aRequest.src ∧
      (flitPage e.2.1).1 = (flitPage aRequest).1)) = true) ∧
    (Met fun s => s.portUp 7 = true ∧ s.guestWaits aRequest = false ∧ s.scf.guestq = [] ∧
      s.guestPage aRequest.src (flitPage aRequest).1 = some (7 * 2 ^ 23) ∧ (s.ddrErr (7 * 2 ^ 23 * 65536)).isSome = true) ∧
    (Met fun s => s.portUp 7 = true ∧ s.guestWaits aRequest = false ∧ s.scf.guestq = [] ∧
      s.guestPage aRequest.src (flitPage aRequest).1 = some (7 * 2 ^ 23) ∧
      ∃ a, a = 7 * 2 ^ 23 * 65536 + (flitPage aRequest).2 ∧ s.ddrErr a = none ∧ (s.chan (chanOf a)).wq = [] ∧
        (s.chan (chanOf a)).marks = [] ∧ (s.chan (chanOf a)).wild = false ∧ s.scf.upd = none ∧ s.route aRequest.src = 7 + 1 ∧
        (s.port 7).qFwd = [] ∧ (s.port 7).qCmp = [] ∧ (s.port 7).qCtl = [] ∧ (s.port 7).owed = [] ∧ (s.port 7).nak = false ∧
        (s.port 7).cCmp ≠ 0 ∧ (s.port 7).replay.length < 256) :=
  ⟨⟨withPort {}, by decide⟩, ⟨guestState { state := 2, episodes := [0] } {}, by decide⟩,
    ⟨{ withPort {} with scf := { ports := [(7, { state := 2 })], guestq := [(7, { typ := 2, src := 4095 }, 0)] } }, by decide⟩,
    ⟨guestState {} {}, by decide⟩,
    ⟨guestState { state := 2 } { cCmp := 1 }, by decide, by decide, rfl, by decide, _, rfl, by decide⟩⟩

theorem test_answers :
    (Met fun s => s.portUp 7 = true ∧ (s.port 7).gap = false ∧ s.scf.reqs = []) ∧
    (Met fun s => s.portUp 7 = true ∧ (s.port 7).gap = false ∧
      s.scf.reqs.find? (fun r => decide (r.tag = 65535 ∧ r.port = 7)) = some ⟨65535, 7, 255, 0, .load 124 4 false 0#32⟩) ∧
    (Met fun s => s.portUp 7 = true ∧ s.scf.reqs.find? (fun r => decide (r.tag = 0 ∧ r.port = 7)) = some ⟨0, 7, 0, 0, .store 0#32⟩) :=
  ⟨⟨withPort {}, by decide⟩,
    ⟨{ powered with scf := { ports := [(7, { state := 2 })], reqs := [⟨65535, 7, 255, 0, .load 124 4 false 0#32⟩] } }, by decide⟩,
    ⟨{ powered with scf := { ports := [(7, { state := 2 })], reqs := [⟨0, 7, 0, 0, .store 0#32⟩] } }, by decide⟩⟩

theorem test_fences :
    (Met fun s => s.portUp 7 = true ∧ s.scf.fences.find? (fun e => decide (e.src = 4095 ∧ e.num = 65535)) = none) ∧
    (Met fun s => s.portUp 7 = true ∧ ∃ e, s.scf.fences.find? (fun e => decide (e.src = 4095 ∧ e.num = 65535)) = some e ∧
      (e.fwd || true) = true ∧ (e.cmp || !true) = true) ∧
    (Met fun s => s.portUp 7 = true ∧ ∃ u, s.scf.upd = some u ∧ u.num = 65535 ∧ u.dev = 4095 ∧ u.held = []) ∧
    (Met fun s => s.portUp 7 = true ∧ ∀ u, s.scf.upd = some u → ¬ (u.num = 65535 ∧ u.dev = 4095)) :=
  ⟨⟨withPort {}, by decide⟩,
    ⟨{ powered with scf := { ports := [(7, { state := 2 })], fences := [{ src := 4095, num := 65535, cmp := true }] } }, by decide,
      _, rfl, rfl, rfl⟩,
    ⟨{ powered with scf := { ports := [(7, { state := 2 })], upd := some ⟨4095, 7, 0, 65535, []⟩ } }, by decide, _, rfl, rfl, rfl, rfl⟩,
    ⟨withPort {}, by decide, fun u h => by cases h⟩⟩

/-- Device 4,095 selected, SCF_RTDATA = w, its entry e, with a page of this device kept there or none. -/
def routing (w : Word) (e : Nat) (kept : Bool) : State :=
  { powered with
    regs := { words := [(0x78010, 4095#32), (0x78014, w)] }, scf := { routes := [(4095, e)] },
    scr := { pages := if kept then [(0, { live := true, w0 := 0xC0000FFF#32 })] else [] } }

/-- A change from and to an entry that is not valid, of a valid route, one refused for the pages kept there; an update runs. -/
theorem test_routes :
    (Met fun s => s.reachable 0x78018 = true ∧ s.scf.upd.isSome = true ∧ ∃ u, s.scf.upd = some u ∧ u.held = []) ∧
    (Met fun s => s.reachable 0x78018 = true ∧ s.scf.upd = none ∧ fld (s.reg 0x78010) 0 12 = 4095 ∧
      tgetD 0 s.scf.routes 4095 = 7 ∧ s.rtEntry = 15 ∧ s.guestsWith 4095 = false) ∧
    (Met fun s => s.reachable 0x78018 = true ∧ s.scf.upd = none ∧ tgetD 0 s.scf.routes 4095 = 8 ∧ s.rtEntry = 15 ∧
      s.guestsWith 4095 = false) ∧
    (Met fun s => s.reachable 0x78018 = true ∧ s.scf.upd = none ∧ tgetD 0 s.scf.routes 4095 = 8 ∧ s.rtEntry = 7 ∧
      s.guestsWith 4095 = true) :=
  ⟨⟨{ powered with scf := { upd := some ⟨4095, 7, 0, 65535, []⟩ } }, by decide, rfl, _, rfl, rfl⟩,
    ⟨routing 0x80000007#32 7 false, by decide⟩, ⟨routing 0x80000007#32 8 false, by decide⟩, ⟨routing 7#32 8 true, by decide⟩⟩

/-- Port 7 in training; every width allowed (SCFp_CTL bits 5:4 = 0) and every lane. -/
def training (attempt : Bool) : State :=
  { powered with
    regs := { words := [(scfBase 7, 0xF00#32)] }, scf := { ports := [(7, { state := 1, attempt := attempt })] } }

/-- The widest set and the last of single lanes fit; with no lane nothing does. -/
theorem test_port_training :
    (Met fun s => s.reachable (scfBase 7) = true ∧ bitAt (s.reg (scfBase 7)) 0 = false ∧ (s.port 7).state = 0) ∧
    (Met fun s => s.reachable (scfBase 7) = true ∧ bitAt (s.reg (scfBase 7)) 0 = true ∧ (s.port 7).state ≠ 0) ∧
    (Met fun s => (s.hw.portHere 7 && s.on 19) = true ∧ (s.port 7).state = 1 ∧ (s.port 7).attempt = true ∧ 4095 % 4096 ≠ s.devId ∧
      0 % 4096 = s.devId ∧ fld (s.reg (scfBase 7)) 8 4 ≠ 0 ∧
      (∀ e ∈ [((1, 15), 15, 0), ((3, 8), 8, 3)], e.1 ∈ [(1, 15), (2, 3), (2, 12), (3, 1), (3, 2), (3, 4), (3, 8)] ∧
        fld (s.reg (scfBase 7)) 4 2 + 1 ≤ e.1.1 ∧ e.2.2 % 4 ≤ e.1.1 ∧ e.1.2 &&& ((e.2.1 % 16) &&& fld (s.reg (scfBase 7)) 8 4) = e.1.2) ∧
      ∀ e ∈ [(1, 15), (2, 3), (2, 12), (3, 1), (3, 2), (3, 4), (3, 8)], e.2 &&& ((0 % 16) &&& fld (s.reg (scfBase 7)) 8 4) ≠ e.2) ∧
    (Met fun s => (s.hw.portHere 7 && s.on 19) = true ∧ (s.port 7).state = 1 ∧ (s.port 7).attempt = true ∧
      fld (s.reg (scfBase 7)) 8 4 = 0) ∧
    (Met fun s => (s.port 7).state = 1 ∧ (s.port 7).attempt = false) :=
  ⟨⟨powered, by decide⟩, ⟨{ withPort {} with regs := { words := [(scfBase 7, 1#32)] } }, by decide⟩, ⟨training true, by decide⟩,
    ⟨{ training true with regs := { words := [(scfBase 7, 1#32)] } }, by decide⟩, ⟨training false, by decide⟩⟩

theorem test_port_errors :
    (Met fun s => s.portUp 7 = true ∧ (s.port 7).queue 2 ≠ [] ∧ (s.port 7).credit 2 = 0 ∧ (s.port 7).gap = false ∧
      (s.port 7).replay ≠ [] ∧ (s.port 7).retry = false ∧ (∀ r ∈ s.scf.reqs, r.port ≠ 7)) ∧
    (Met fun s => s.portUp 7 = true ∧ (s.port 7).gap = true) ∧
    (∀ n, n = 14 ∨ n = 15 → Met fun s => s.portUp 7 = true ∧ (s.port 7).replay ≠ [] ∧ (s.port 7).retry = true ∧ (s.port 7).fails = n) ∧
    (Met fun s => s.portUp 7 = true ∧ (s.port 7).replay = [] ∧ bitAt (s.reg (scfBase 7)) 12 = false) ∧
    (Met fun s => s.portUp 7 = true ∧ bitAt (s.reg (scfBase 7)) 12 = true ∧ s.scf.reqs = []) ∧ (Met fun s => s.portUp 7 = false) :=
  ⟨⟨withPort { qCtl := [{ flit := {} }], replay := [{ flit := {} }] }, by decide⟩, ⟨withPort { gap := true }, by decide⟩,
    fun n h => ⟨withPort { replay := [{ flit := {} }], retry := true, fails := n }, by obtain rfl | rfl := h <;> decide⟩,
    ⟨{ withPort {} with regs := { words := [(scfBase 7, 1#32)] } }, by decide⟩,
    ⟨{ withPort {} with regs := { words := [(scfBase 7, 0x1000#32)] } }, by decide⟩, ⟨powered, by decide⟩⟩

/-- A follower of port 7, an exchange under way from t1 or none. -/
def following (port : Port_) (t1 : Option Nat) : State :=
  { powered with regs := { words := [(0x78020, 0x72#32)] }, scf := { ports := [(7, { port with state := 2 })], t1 := t1 } }

theorem test_device_time :
    (Met fun s => s.reachable 0x78034 = true ∧ fld (s.reg 0x78020) 0 2 = 1) ∧
    (Met fun s => s.reachable 0x78000 = true ∧ s.reachable 0x78068 = true ∧ ∀ p, p < 8 → (s.port p).state = 0 ∨ (s.port p).state = 3) ∧
    (Met fun s => s.reachable 0x78000 = true ∧ (s.port 7).state = 2) ∧
    (∀ t1, t1 = none ∨ t1 = some 0 → Met fun s => 7 = fld (s.reg 0x78020) 4 3 ∧ fld (s.reg 0x78020) 0 2 = 2 ∧ s.on 19 = true ∧ s.portUp 7 = true ∧
      (s.port 7).retry = false ∧ (s.port 7).gap = false ∧ s.scf.t1 = t1 ∧ plainLink {} (s.port 7)) ∧
    (Met fun s => 7 = fld (s.reg 0x78020) 4 3 ∧ fld (s.reg 0x78020) 0 2 = 2 ∧ s.on 19 = true ∧ (s.port 7).gap = true) ∧
    (Met fun s => fld (s.reg 0x78020) 0 2 ≠ 2 ∧ s.portUp 7 = false) :=
  ⟨⟨{ powered with regs := { words := [(0x78020, 1#32)] } }, by decide⟩, ⟨powered, by decide, by decide, by decide⟩,
    ⟨withPort {}, by decide⟩,
    fun t1 h => ⟨following {} t1, by obtain rfl | rfl := h <;> decide, by obtain rfl | rfl := h <;> decide, rfl,
      by obtain rfl | rfl := h <;> decide, rfl, rfl, rfl, rfl, rfl, rfl, fun t h => by cases h⟩,
    ⟨following { gap := true } none, by decide⟩, ⟨powered, by decide⟩⟩

/-- Stamps of an exchange whose offset lies just beyond a microsecond, at it, at the slew limit and at the lock limit. -/
theorem test_time_offsets : ∀ o : Nat, o = 65536001 ∨ o = 65536000 ∨ o = 819200 ∨ o = 524288 →
    ((Int.ofNat 0 - Int.ofNat 0) - (Int.ofNat o - Int.ofNat o)) / 2 = 0 ∧ Int.ofNat o - Int.ofNat 0 - 0 = o := by
  rintro o (rfl | rfl | rfl | rfl) <;> decide

/-- A device whose PCIe link is up, in D0 or in D3hot. -/
def linked (d3 : Bool) : State := { powered with hb := { up := true, d3 := d3 } }

theorem test_bar_requests :
    ((linked false).hb.up = true ∧ (linked false).wideHeld = false ∧ (linked false).hb.d3 = false ∧ (linked true).hb.d3 = true ∧
      (linked false).hb.mps = 128 ∧ 16 < 17 ∧ 4 * 17 ≤ 128 ∧ 0xF80 + 128 ≤ 4096 ∧ 0xF7F + 129 ≤ 4096) ∧
    (0x3FFFFC0 % 4 = 0 ∧ 0 < 16 ∧ 0x3FFFFC0 % 4096 + 4 * 16 ≤ 4096 ∧ 0x3FFFFC0 + 4 * 16 ≤ 0x4000000) ∧
    (Met fun s => s.hb.d3 = false ∧ fld (s.reg (0x84100 + 4 * (0 / 2 ^ 28 % 64))) 30 2 = 1 ∧
      fld (s.reg (0x84100 + 4 * (0 / 2 ^ 28 % 64))) 0 20 * 2 ^ 28 + 0 % 2 ^ 28 < s.scr.hostRange.2 * 65536) ∧
    (Met fun s => s.hb.d3 = false ∧ fld (s.reg 0x84100) 30 2 = 2) ∧
    (Met fun s => s.hb.d3 = false ∧ fld (s.reg 0x84100) 30 2 = 3 ∧ 0x2FFFFFF % 2 ^ 28 < 0x3000000 ∧ 0x3000000 ≤ 0x3000000 % 2 ^ 28) ∧
    (Met fun s => s.hb.d3 = false ∧ fld (s.reg 0x84100) 30 2 = 0) :=
  ⟨by decide, by decide,
    ⟨{ linked false with regs := { words := [(0x84100, 0x40000000#32)] }, scr := { hostRange := (0, 1) } }, by decide⟩,
    ⟨{ linked false with regs := { words := [(0x84100, 0x80000000#32)] } }, by decide⟩,
    ⟨{ linked false with regs := { words := [(0x84100, 0xC0000000#32)] } }, by decide⟩,
    ⟨{ linked false with regs := { words := [(0x84100, 0#32)] } }, by decide⟩⟩

theorem test_host_events :
    (powered.on 20 = true ∧ powered.rst.reach < 3 ∧ powered.hb.up = false ∧ powered.bg.lost = 0 ∧ powered.bg.held.length < 64) ∧
    (Met fun s => s.on 20 = true ∧ s.rst.reach < 3 ∧ s.bg.lost = 0 ∧ s.bg.held.length = 63 ∧ fld (s.reg 0x90000) 0 8 = 0) ∧
    (Met fun s => s.hb.up = true ∧ s.hb.d3 = true ∧ s.hb.msixOn = true) ∧
    (Met fun s => s.hb.up = true ∧ s.hb.msixOn = false ∧ s.hb.pba = []) ∧
    (Met fun s => s.hb.msixOn = true ∧ (s.hb.d3 || s.hb.fmask || bitAt (s.hb.entry (4 * 2047 + 3)) 0) = false) ∧
    (Met fun s => s.reachable (0x8800C + 16 * 2047) = true ∧ tgetD false s.hb.pba 2047 = false) ∧
    (Met fun s => s.reachable (0x8800C + 16 * 2047) = true ∧ s.hb.d3 = false ∧ s.hb.msixOn = true ∧ s.hb.fmask = false ∧
      tgetD false s.hb.pba 2047 = true) :=
  ⟨by decide,
    ⟨{ powered with regs := { words := [(0x90000, 0#32)] }, bg := { held := List.replicate 63 [] } }, by decide⟩,
    ⟨{ powered with hb := { up := true, d3 := true, msixOn := true } }, by decide⟩, ⟨linked false, by decide⟩,
    ⟨{ powered with hb := { up := true, msixOn := true, table := [(4 * 2047 + 3, 0#32)] } }, by decide⟩, ⟨linked false, by decide⟩,
    ⟨{ powered with hb := { up := true, msixOn := true, pba := [(2047, true)] } }, by decide⟩⟩

/-- MAC 1, UP, with the last binding taking IPv4 frames; a frame of 60 bytes. -/
def macState (w : Word) (x : Mac) (q : Qm) : State :=
  { powered with regs := { words := [(0x82000 + 0x400 + 8 * 62, w)] }, macs := [(1, x)], qm := q }

def ipFrame : List Byte := List.replicate 12 0#8 ++ [8#8, 0#8] ++ List.replicate 46 0#8

/-- A message of c cells with the head word w at the front of class 7's queue of MAC 1. -/
def sending (w : Word) (c : Nat) : State :=
  macState 0#32 { state := 2 } { queues := [(65535, { w0 := 0x7000000F#32, msgs := [{ words := [w], cells := c }] })] }

theorem test_eth :
    (Met fun s => s.macHere 1 = true ∧ (s.mac 1).state = 2 ∧ ipFrame.length = 60 ∧ s.bindingTakes 1 62 (frameType ipFrame) = true ∧
      (∀ k, k < 62 → s.bindingTakes 1 k (frameType ipFrame) = false) ∧ ipFrame.length ≤ 240) ∧
    (Met fun s => s.macHere 1 = true ∧ (s.mac 1).state = 2 ∧ (∀ k, k < 63 → s.bindingTakes 1 k (frameType ipFrame) = false) ∧
      bitAt (s.reg (ethBase 1 + 0x10)) 31 = false) ∧
    (∀ n, n = 14 ∨ n = 240 → Met fun s => s.macHere 1 = true ∧ (s.mac 1).state = 2 ∧ s.qmRuns = true ∧ (s.mac 1).tx = none ∧
      ∃ q g c, s.nextToSend 1 = some (q, g, c) ∧ sendLength g = n ∧ ceilDiv (16 + sendLength g) 64 ≤ g.cells) ∧
    (Met fun s => s.macHere 1 = true ∧ (s.mac 1).state = 2 ∧ s.qmRuns = true ∧ (s.mac 1).tx = none ∧
      ∃ q g c, s.nextToSend 1 = some (q, g, c) ∧ ¬ (14 ≤ sendLength g ∧ sendLength g ≤ 240 ∧ ceilDiv (16 + sendLength g) 64 ≤ g.cells)) ∧
    (Met fun s => s.macHere 1 = true ∧ ∃ x, (s.mac 1).tx = some x ∧ bitAt (x.msg.words.getD 0 0#32) 16 = false) ∧
    (Met fun s => s.macHere 1 = true ∧ ∃ x, (s.mac 1).tx = some x ∧ bitAt (x.msg.words.getD 0 0#32) 16 = true ∧
      bitAt (s.reg (ethBase 1 + 0x5F8)) 31 = true) ∧
    (Met fun s => s.macHere 1 = true ∧ (s.mac 1).state = 1) ∧
    (Met fun s => s.macHere 1 = true ∧ s.reachable (ethBase 1) = true ∧ (s.mac 1).state = 0) :=
  ⟨⟨macState 0x80000800#32 { state := 2 } {}, by decide⟩, ⟨macState 0#32 { state := 2 } {}, by decide⟩, fun n h => by
      obtain rfl | rfl := h
      · exact ⟨sending 14#32 1, by decide, by decide, by decide, rfl, 65535, { words := [14#32] }, 7, by decide, by decide, by decide⟩
      · exact ⟨sending 240#32 4, by decide, by decide, by decide, rfl, 65535, { words := [240#32], cells := 4 }, 7, by decide, by decide, by decide⟩,
    ⟨sending 13#32 1, by decide, by decide, by decide, rfl, 65535, { words := [13#32] }, 7, by decide, by decide⟩,
    ⟨macState 0#32 { state := 2, tx := some ⟨65535, { words := [48#32] }, 7⟩ } {}, by decide, ⟨65535, { words := [48#32] }, 7⟩, by decide, by decide⟩,
    ⟨{ powered with
        regs := { words := [(ethBase 1 + 0x5F8, 0x80000000#32)] }, macs := [(1, { state := 2, tx := some ⟨65535, { words := [0x10030#32] }, 7⟩ })] },
      by decide, ⟨65535, { words := [0x10030#32] }, 7⟩, by decide, by decide, by decide⟩,
    ⟨macState 0#32 { state := 1 } {}, by decide⟩, ⟨powered, by decide⟩⟩

/-- The host mailbox holds a service's OP, address and length. -/
def mailing (op a n : Word) : State :=
  { powered with regs := { words := [(0xA0000, op), (0xA0004, a), (0xA0008, n)] }, mx := { mxh := { cseq := 255, busy := true } } }

theorem test_host_mailbox :
    (powered.reachable 0xA0080 = true ∧ powered.mx.mxh.busy = false ∧ powered.reachable 0xA0088 = true) ∧
    ((mailing 0x02000000#32 0x03FFFFC8#32 56#32).mx.mxh.busy = true ∧ (mailing 0x02000000#32 0x03FFFFC8#32 56#32).mx.mxh.cseq = 255 ∧
      fld 255#32 0 8 = 255 ∧ fld ((mailing 0x02000000#32 0x03FFFFC8#32 56#32).reg 0xA0000) 24 8 = 2 ∧
      ((mailing 0x02000000#32 0x03FFFFC8#32 56#32).reg 0xA0004).toNat + ((mailing 0x02000000#32 0x03FFFFC8#32 56#32).reg 0xA0008).toNat =
        powered.hw.flash) ∧
    (fld ((mailing 0x03000000#32 0x03FFFFCC#32 52#32).reg 0xA0000) 24 8 = 3 ∧
      ((mailing 0x03000000#32 0x03FFFFCC#32 52#32).reg 0xA0004).toNat + ((mailing 0x03000000#32 0x03FFFFCC#32 52#32).reg 0xA0008).toNat =
        powered.hw.flash) ∧
    (fld ((mailing 0x04000000#32 0x03FF0000#32 0#32).reg 0xA0000) 24 8 = 4 ∧
      ((mailing 0x04000000#32 0x03FF0000#32 0#32).reg 0xA0004).toNat + 65536 = powered.hw.flash) ∧
    (fld ((mailing 0x01000000#32 0#32 0#32).reg 0xA0000) 24 8 = 1 ∧ fld ((mailing 0x05000000#32 0#32 0#32).reg 0xA0000) 24 8 = 5) := by decide

theorem test_boot :
    (powered.reachable 0xA0100 = true ∧ powered.reachable 0xA0104 = true ∧ bitAt (powered.reg 0xA0104) 1 = false ∧
      bitAt (powered.reg 0xA0104) 0 = false ∧ powered.rst.window = true ∧ powered.rst.bootOk = false ∧ powered.rst.failDue = false) ∧
    (Met fun s => s.rst.window = false) ∧ (Met fun s => s.reachable 0xA0104 = true ∧ bitAt (s.reg 0xA0104) 0 = false ∧ s.rst.count = 2 ∧
      s.rst.bootOk = false ∧ s.rst.failDue = false) ∧
    (Met fun s => s.stgOn = true ∧ s.rsu.busy = false ∧ s.rsu.rom = none ∧ s.slotSound 0 = false ∧ s.slotSound 1 = false ∧
      s.rst.bootOk = false ∧ s.rst.failDue = false) :=
  ⟨by decide, ⟨{ powered with rst := { powered.rst with window := false } }, rfl⟩,
    ⟨{ powered with rst := { powered.rst with count := 2 } }, by decide⟩, { powered with mx := { flash := { gen := 0 } } }, by decide⟩

/-- The header of a journal slot of generation g whose plan of length 0 has the CRC c, and its state byte (R454). -/
def slotHeader (g c st : Nat) : List Byte :=
  let h := [0x53#8, 0x4B#8, 0x4A#8, 0x52#8] ++ toBytes 4 g ++ toBytes 4 0 ++ toBytes 4 c
  h ++ toBytes 4 (crc32c h).toNat ++ [BitVec.ofNat 8 st]

/-- The boot flash with one sound slot. -/
def flashWith (i g c st : Nat) : State :=
  { powered with
    regs := { words := [(0x90140, 0x80000100#32)] }, bg := { patrol := true },
    mx := { flash := ({ gen := 0 } : Mem).putBytes (slotBase i) (slotHeader g c st) } }

set_option maxRecDepth 20000 in
/-- A slot GOOD, the only candidate; and one TRIED. -/
theorem test_rom_raise :
    ((flashWith 1 0 (crc32c []).toNat 0x1F).slotSound 1 = true ∧ (flashWith 1 0 (crc32c []).toNat 0x1F).slotSound 0 = false ∧
      (flashWith 1 0 (crc32c []).toNat 0x1F).slotState 1 = 0x1F ∧ (flashWith 1 0 (crc32c []).toNat 0x1F).slotGood 1 = true ∧
      (flashWith 1 0 (crc32c []).toNat 0x1F).rsu.raised = false ∧ (flashWith 1 0 (crc32c []).toNat 0x1F).stgOn = true) ∧
    ((flashWith 0 0 0 0x3F).slotSound 0 = true ∧ (flashWith 0 0 0 0x3F).slotState 0 = 0x3F ∧ (flashWith 0 0 0 0x3F).rsu.busy = false) := by
  decide

set_option maxRecDepth 20000 in
/-- A sound slot below the wear threshold; one whose plan does not match its CRC; one at the threshold. -/
theorem test_patrol :
    (Met fun s => s.rst.bootOk = true ∧ s.rst.shored = false ∧ bitAt (s.reg 0x90140) 31 = true) ∧
    (Met fun s => s.bg.patrol = true ∧ s.slotSound 0 = false ∧ s.slotGood 1 = true ∧
      (s.flashWord (slotBase 1 + 4)).toNat < fld (s.reg 0x90140) 8 16 * 1000) ∧
    (Met fun s => s.bg.patrol = true ∧ s.slotSound 1 = true ∧ s.slotState 1 = 0x7F ∧ s.slotGood 1 = false ∧
      (s.flashWord (slotBase 1 + 4)).toNat < fld (s.reg 0x90140) 8 16 * 1000 ∧ s.slotSound 0 = false ∧ s.bg.lost = 0 ∧ s.bg.held.length < 64) ∧
    (Met fun s => s.bg.patrol = true ∧ s.slotSound 0 = true ∧ s.slotState 0 = 0x3F ∧ s.slotGood 0 = true ∧
      fld (s.reg 0x90140) 8 16 * 1000 ≤ (s.flashWord (slotBase 0 + 4)).toNat ∧ s.slotSound 1 = false) :=
  ⟨⟨{ flashWith 0 0 0 0 with rst := { powered.rst with bootOk := true } }, by decide⟩,
    ⟨flashWith 1 999 (crc32c []).toNat 0x1F, by decide⟩, ⟨flashWith 1 999 ((crc32c []).toNat + 1) 0x7F, by decide⟩,
    ⟨flashWith 0 1000 (crc32c []).toNat 0x3F, by decide⟩⟩

/-- A burst that ends at the end of the SRAM, and one that crosses from the ROM's place into nothing. -/
theorem test_bursts : powered.debugLocked 0 = false ∧ 0x2007FFF8 % 4 = 0 ∧ 0x20000000 ≤ 0x2007FFF8 ∧ 0x2007FFF8 + 4 * 2 ≤ 0x20080000 ∧
    powered.busTarget (0x1FFFC + 4 * 1) ≠ powered.busTarget 0x1FFFC ∧
    (Met fun s => s.debugLocked 0 = true) :=
  ⟨by decide, by decide, by decide, by decide, by decide, { powered with sec := { approved := true } }, by decide⟩

theorem test_slow_interfaces :
    (Met fun s => s.wideHeld = false ∧ s.mx.xBusy = false ∧ s.mx.smbBusy = false ∧ bitAt (s.reg 0x48001000) 4 = true ∧
      bitAt (s.reg 0x48001000) 3 = true ∧ (∃ w l, s.mx.xRx = w :: l) ∧ ∃ b l, s.mx.sRx = b :: l) ∧
    (Met fun s => s.wideHeld = false ∧ s.mx.xBusy = true ∧ s.mx.smbBusy = true ∧ s.mx.xRx = []) ∧
    (Met fun s => s.wideHeld = false ∧ bitAt (s.reg 0x48002000) 30 = true ∧ s.mx.uRx.length = 63 ∧ (∃ b l, s.mx.uTx = b :: l) ∧
      ∃ b l, s.mx.uRx = b :: l) ∧
    (Met fun s => s.wideHeld = false ∧ bitAt (s.reg 0x48002000) 30 = true ∧ 64 ≤ s.mx.uRx.length) ∧
    (Met fun s => s.wideHeld = false ∧ bitAt (s.reg 0x48002000) 30 = true ∧ bitAt (s.reg 0x48002000) 31 = true ∧ s.mx.cts = false ∧
      ∃ b l, s.mx.uTx = b :: l) :=
  ⟨⟨{ powered with regs := { words := [(0x48001000, 0x18#32)] }, mx := { xRx := [1#32], sRx := [2#8] } }, rfl, rfl, rfl, by decide,
      by decide, ⟨_, _, rfl⟩, _, _, rfl⟩,
    ⟨{ powered with mx := { xBusy := true, smbBusy := true } }, by decide⟩,
    ⟨{ powered with regs := { words := [(0x48002000, 0x40000000#32)] }, mx := { uRx := List.replicate 63 0#8, uTx := [1#8] } }, rfl, by decide,
      by decide, ⟨_, _, rfl⟩, _, _, rfl⟩,
    ⟨{ powered with regs := { words := [(0x48002000, 0x40000000#32)] }, mx := { uRx := List.replicate 64 0#8 } }, by decide⟩,
    ⟨{ powered with regs := { words := [(0x48002000, 0xC0000000#32)] }, mx := { uTx := [1#8] } }, rfl, by decide, by decide, rfl, _, _, rfl⟩⟩

theorem test_reset_sources :
    (powered.reachable 0x10010 = true ∧ fld 0xA502#32 8 8 = 0xA5 ∧ bitAt 0xA502#32 0 = false ∧ bitAt 0xA502#32 1 = true ∧
      bitAt 0xA501#32 1 = false ∧ bitAt 0xA501#32 0 = true ∧ fld 0xA4FF#32 8 8 ≠ 0xA5 ∧ powered.rst.reach = 0) ∧
    (Met fun s => s.rst.wdg = true ∧ s.rst.failDue = true ∧ s.hb.up = true) ∧
    (Met fun s => s.rst.wdg = false ∧ s.rst.failDue = false ∧ s.hb.up = false) :=
  ⟨by decide, ⟨{ powered with rst := { powered.rst with wdg := true, failDue := true }, hb := { up := true } }, by decide⟩,
    powered, by decide⟩

/-- The exit after HOST reach, after each wider reach with its least and its greatest value, and while it may not end. -/
theorem test_episode :
    (Met fun s => s.rst.asserted / 2 ^ 10 % 2 = 1 ∧ s.mayRelease 10 = true) ∧ (Met fun s => s.rst.asserted / 2 ^ 4 % 2 = 1) ∧
    (Met fun s => s.rst.asserted = 0 ∧ s.rst.reach = 3) ∧
    (∀ n, n = 4 ∨ n = 7 → Met fun s => s.rst.asserted = 0 ∧ s.rst.reach = n ∧ s.sec.zeroing = false ∧ s.rst.shoring = false ∧
      s.rst.loading = false) ∧
    (Met fun s => s.rst.asserted = 0 ∧ s.rst.reach = 4 ∧ s.sec.zeroing = false ∧ s.rst.shoring = true ∧ s.sec.state = 0 ∧
      s.mx.boot = .reset ∧ s.rst.loading = false) ∧
    (Met fun s => s.rst.reach = 4 ∧ s.sec.zeroing = true) ∧ (Met fun s => ∃ p, s.rst.pulse = some p) :=
  ⟨⟨{ powered with rst := { asserted := 1024 } }, by decide⟩, ⟨{ powered with rst := { asserted := 16, railOut := true } }, by decide⟩,
    ⟨{ powered with rst := { reach := 3 } }, by decide⟩, fun n h => ⟨{ powered with rst := { reach := n } }, rfl, rfl, rfl, rfl, rfl⟩,
    ⟨{ powered with rst := { reach := 4, shoring := true }, mx := { boot := .reset } }, by decide⟩,
    ⟨{ powered with rst := { reach := 4 }, sec := { zeroing := true } }, by decide⟩,
    { powered with rst := { pulse := some ⟨false, 0, false⟩ } }, _, rfl⟩

/-- The boot ROM before, at, and beyond its TRIM step; the third failure in a row. -/
theorem test_trims :
    (powered.reachable 0x10028 = true) ∧
    (∀ b : Boot, b = .reset ∨ b = .trim ∨ b = .over → Met fun s => s.reachable 0x10028 = true ∧ s.mx.boot = b ∧ s.rst.reach = 0 ∧
      s.rst.shored = false ∧ s.rst.loading = true ∧ s.sec.state = 0) ∧
    (Met fun s => s.rst.loading = true ∧ s.mx.boot = .trim ∧ s.rst.trimValid = false ∧ s.rst.shored = false ∧ s.rst.trimFails = 2) ∧
    (Met fun s => s.rst.loading = false ∧ s.mx.boot = .trim ∧ s.rst.trimValid = false ∧ s.rst.shored = false ∧ s.rst.trimFails ≠ 3) :=
  ⟨by decide,
    fun b h => ⟨{ powered with rst := { powered.rst with loading := true }, mx := { boot := b } },
      by obtain rfl | rfl | rfl := h <;> decide, rfl, rfl, rfl, rfl, rfl⟩,
    ⟨{ powered with rst := { powered.rst with loading := true, trimFails := 2, trimValid := false }, mx := { boot := .trim } }, by decide⟩,
    { powered with rst := { powered.rst with trimValid := false }, mx := { boot := .trim } }, by decide⟩

theorem test_watchdog :
    (powered.reachable 0x10030 = true ∧ powered.reachable 0x10034 = true ∧ bitAt (powered.reg 0x10030) 16 = false ∧
      powered.rst.shored = false ∧ fld 0x16B3D#32 0 16 = 0x6B3D) ∧
    (Met fun s => s.reachable 0x10034 = true ∧ s.rst.wdg = true ∧ s.reachable 0x10030 = true ∧ bitAt (s.reg 0x10030) 16 = true ∧
      ∀ i, tgetD none s.rst.temp i = none) :=
  ⟨by decide,
    { powered with rst := { powered.rst with wdg := true }, regs := { words := [(0x10030, 0x10000#32)] } }, by decide, rfl, by decide,
      by decide, fun _ => rfl⟩

/-- A pulse on bay 255, and on channel 7, whose wrapper has drained. -/
theorem test_narrow_resets :
    (powered.reachable 0x10018 = true ∧ powered.rst.pulse = none ∧ powered.bentHere (255 / 16) = true ∧ powered.on (255 / 16) = true ∧
      powered.tasksOn 255 = [] ∧ (powered.bay 255).qio.sendq = [] ∧ (powered.bay 255).qio.landing = [] ∧ (powered.bay 255).qio.cur = none) ∧
    (powered.reachable 0x1001C = true ∧ powered.blockThere 7 = true ∧ powered.blockThere 15 = true ∧ powered.blockThere 17 = true ∧
      powered.blockThere 18 = false) ∧
    (Met fun s => ∃ p, s.rst.pulse = some p ∧ p.drained = true ∧ p.block = false ∧ s.on (p.target / 16) = true ∧
      s.bentHeld (p.target / 16) = false ∧ (s.bay p.target).retired = false) ∧
    (∀ k, k = 15 ∨ k = 17 → Met fun s => s.rst.pulse = some ⟨true, k, true⟩) ∧ (Met fun s => s.rst.pulse = some ⟨true, 17, false⟩) ∧
    (Met fun s => ∃ p, s.rst.pulse = some p ∧ p.drained = true ∧ p.block = true ∧ p.target < 8 ∧
      (s.chan p.target).release = some 4) :=
  ⟨by decide, by decide,
    ⟨{ powered with rst := { powered.rst with pulse := some ⟨false, 255, true⟩ } }, ⟨false, 255, true⟩, by decide⟩,
    fun k _ => ⟨{ powered with rst := { powered.rst with pulse := some ⟨true, k, true⟩ } }, rfl⟩,
    ⟨{ powered with rst := { powered.rst with pulse := some ⟨true, 17, false⟩ } }, rfl⟩,
    ⟨{ powered with rst := { powered.rst with pulse := some ⟨true, 7, true⟩ }, ddr := { chans := [(7, { state := 5, release := some 4 })] } },
      ⟨true, 7, true⟩, by decide⟩⟩

theorem fresh_qio (b : Nat) : (Bay.fresh b).qio = {} := by
  unfold Bay.fresh
  split <;> rfl

theorem test_bent_resets :
    (powered.bentHere 15 = true ∧ powered.dom 15 = 1 ∧ powered.reachable 0x10014 = true ∧ bitAt 0x8000#32 15 = true ∧
      bitAt (powered.reg 0x10014) 15 = false ∧ (∀ m, m < 16 → m ≠ 15 → bitAt 0x8000#32 m = bitAt (powered.reg 0x10014) m)) ∧
    (∀ b, b / 16 = 15 → powered.tasksOn b = [] ∧ (powered.bay b).qio.sendq = [] ∧ (powered.bay b).qio.landing = [] ∧
      (powered.bay b).qio.cur = none) ∧
    (Met fun s => s.bentHere 15 = true ∧ s.dom 15 = 2 ∧ s.reachable 0x10014 = true ∧ bitAt (s.reg 0x10014) 15 = false) ∧
    (Met fun s => s.reachable 0x10014 = true ∧ s.dom 15 = 3 ∧ ∀ n, n < 15 → bitAt 0x8000#32 n = bitAt (s.reg 0x10014) n) ∧
    (Met fun s => s.bentHere 15 = true ∧ s.dom 15 = 1 ∧ bitAt 0#32 15 = false ∧ bitAt (s.reg 0x10014) 15 = true ∧
      ∀ m, m < 16 → m ≠ 15 → bitAt 0#32 m = bitAt (s.reg 0x10014) m) ∧
    (Met fun s => s.bentHere 15 = true ∧ s.dom 15 = 1 ∧ s.rst.bentExit.contains 15 = true ∧ bitAt (s.reg 0x10014) 15 = false ∧
      s.rst.raiseHold / 2 ^ 15 % 2 = 0) :=
  ⟨by decide, fun b _ => ⟨rfl, congrArg (·.sendq) (fresh_qio b), congrArg (·.landing) (fresh_qio b), congrArg (·.cur) (fresh_qio b)⟩,
    ⟨{ powered with rst := { powered.rst with dom := [(15, 2)] } }, by decide⟩,
    ⟨{ powered with rst := { powered.rst with dom := [(15, 3)] } }, by decide⟩,
    ⟨{ powered with regs := { words := [(0x10014, 0x8000#32)] } }, by decide⟩,
    ⟨{ powered with rst := { powered.rst with bentExit := [15] } }, by decide⟩⟩

/-- Switching the last bent on; retaining a bent that is on; a write that changes nothing; one that names an absent bent. -/
theorem test_power_writes :
    (State.reset.reachable 0x10040 = true ∧ 15 ∈ swDoms ∧ domTarget 0x8000#32 0#32 15 ≠ domTarget 0#32 0#32 15 ∧
      (∀ k ∈ swDoms, k ≠ 15 → domTarget 0x8000#32 0#32 k = domTarget 0#32 0#32 k) ∧ State.reset.reg 0x10040 = 0#32 ∧
      State.reset.reg 0x10044 = 0#32 ∧ State.reset.rst.shored = false ∧ State.reset.dom 15 = 0 ∧
      (∀ n, n < 16 → bitAt 0x8000#32 n = true → State.reset.bentHere n = true)) ∧
    (Met fun s => s.reachable 0x10044 = true ∧ s.reg 0x10040 = 0x8000#32 ∧ s.reg 0x10044 = 0#32 ∧ s.dom 15 = 1 ∧ s.rst.shored = false ∧
      domTarget 0x8000#32 0x8000#32 15 ≠ domTarget 0x8000#32 0#32 15 ∧
      (∀ k ∈ swDoms, k ≠ 15 → domTarget 0x8000#32 0x8000#32 k = domTarget 0x8000#32 0#32 k) ∧
      ∀ b, b / 16 = 15 → (s.bay b).state ≠ 3 ∧ s.tasksOn b = [] ∧ (s.bay b).qio.sendq = [] ∧ (s.bay b).qio.landing = [] ∧
        (s.bay b).qio.cur = none) ∧
    (∀ d ∈ swDoms, domTarget 0#32 0#32 d = domTarget (State.reset.reg 0x10040) (State.reset.reg 0x10044) d) ∧
    (Met fun s => bitAt 0x8000#32 15 = true ∧ s.bentHere 15 = false) ∧ (Met fun s => s.rst.shored = true) := by
  refine ⟨by decide, ⟨{ powered with regs := { words := [(0x10040, 0x8000#32)] } }, by decide, by decide, by decide, by decide, by decide,
    by decide, by decide, fun b hb => ⟨?_, rfl, congrArg (·.sendq) (fresh_qio b), congrArg (·.landing) (fresh_qio b),
      congrArg (·.cur) (fresh_qio b)⟩⟩, by decide, ⟨{ powered with hw := { bents := 0x7FFF } }, by decide⟩,
    { powered with rst := { shored := true } }, rfl⟩
  show (Bay.fresh b).state ≠ 3
  have : b ≠ 256 := by omega
  simp [Bay.fresh, this]

/-- A domain that the write would change is still in transition. -/
theorem test_power_refused : Met fun s => s.dom 15 = 3 ∧ s.rst.shored = false ∧
    domTarget 0#32 0#32 15 ≠ domTarget (s.reg 0x10040) (s.reg 0x10044) 15 :=
  ⟨{ powered with rst := { powered.rst with dom := [(15, 3)] }, regs := { words := [(0x10040, 0x8000#32)] } }, by decide⟩

theorem test_domain_done :
    (∀ fatal, Met fun s => tgetD 0 s.rst.goal 15 = 1 ∧ s.dom 15 = 3 ∧ s.rst.writes = [[15]] ∧ s.bentHeld 15 = false ∧ s.rst.fatal = fatal) ∧
    (∀ lost, Met fun s => tgetD 0 s.rst.goal 18 = 1 ∧ s.dom 18 = 3 ∧ s.rst.writes = [[18]] ∧ chanDom 7 = 18 ∧ s.hw.chanHere 7 = true ∧
      (s.chan 7).state = 4 ∧ (s.chan 7).vddqLost = lost) ∧
    (Met fun s => tgetD 0 s.rst.goal 19 = 1 ∧ s.dom 19 = 3) ∧
    (Met fun s => tgetD 0 s.rst.goal 0 ≠ 1 ∧ s.dom 0 = 3 ∧ s.rst.writes = [[0]]) ∧ State.reset.dom 22 ≠ 3 :=
  ⟨fun fatal => ⟨{ State.reset with rst := { dom := [(15, 3)], goal := [(15, 1)], writes := [[15]], fatal := fatal } }, rfl, rfl, rfl, by cases fatal <;> decide, rfl⟩,
    fun lost => ⟨{ State.reset with
        rst := { dom := [(18, 3)], goal := [(18, 1)], writes := [[18]] }, ddr := { chans := [(7, { state := 4, vddqLost := lost })] } },
      rfl, rfl, rfl, rfl, rfl, rfl, rfl⟩,
    ⟨{ State.reset with rst := { dom := [(19, 3)], goal := [(19, 1)] } }, by decide⟩,
    ⟨{ State.reset with rst := { dom := [(0, 3)], writes := [[0]] } }, by decide⟩, by decide⟩

theorem test_clocks : powered.rst.unlocked.contains 31 = false ∧ powered.rst.unlocked.contains 2 = false ∧ powered.bg.lost = 0 ∧
    powered.bg.held.length < 64 ∧ (Met fun s => s.rst.unlocked.contains 5 = true) :=
  ⟨rfl, rfl, rfl, by decide, { powered with rst := { unlocked := [5] } }, rfl⟩

/-- The readings of a list of temperatures while every domain is on. -/
def readings (temps : List Int) (i : Nat) : Int := if i = 23 ∨ powered.dom i = 1 then temps.getD i 0 else -128

theorem test_heat :
    (powered.rst.asserted / 8 % 2 = 0 ∧ (∀ i, i < 24 → readings (List.replicate 24 25) i < Int.ofNat (fld (powered.reg 0x10070) 16 8)) ∧
      ∀ i, i < 24 → readings (List.replicate 24 25) i < 135) ∧
    (Int.ofNat (fld (powered.reg 0x10070) 16 8) ≤ readings (List.replicate 24 134) 23 ∧ powered.rst.alarmed.contains 23 = false ∧
      ∀ i, i < 24 → readings (List.replicate 24 134) i < 135) ∧
    (135 ≤ readings (List.replicate 24 135) 23 ∧ Met fun s => s.rst.hot.contains 23 = true) :=
  ⟨by decide, by decide, by decide, { powered with rst := { hot := [23] } }, rfl⟩

/-- A READY security module whose port p alone has posted a service of this OP, with a role. -/
def serving (p : Bool) (op role : Nat) (x : Sec) : State :=
  let y : SecPort := { req := [(0, wd (op * 2 ^ 24))], role := role, nonce := some [] }
  { powered with sec := { x with state := 1, waits := [p], h := y, s := y } }

theorem test_serves (p : Bool) : ∀ e ∈ [(1, 0), (2, 0), (3, 0), (4, 0), (5, 0), (6, 1), (7, 0), (0x10, 1), (0x11, 1), (0x12, 1), (0x13, 1),
    (0x14, 1), (0x15, 1), (0x16, 1), (0x17, 1), (0x18, 1), (0x19, 1), (0x1A, 1), (0x1B, 1), (0x1C, 1), (0x1D, 1), (0x1E, 1), (0x20, 0),
    (0x20, 2), (0x21, 2), (0x22, 2), (0x23, 2), (0x24, 2)], (serving p e.1 e.2 {}).serves p e.1 e.2 := by
  unfold State.serves
  cases p <;> decide

/-- A service that needs the CO role, from a port of role USER. -/
theorem test_service_roles : serviceOf (.destroy true) = some (true, 0x24, 2) ∧ (serving true 0x24 1 {}).serves true 0x24 0 ∧
    ((serving true 0x24 1 {}).sec.port true).role < 2 ∧ (serving true 0x24 1 {}).secRuns true 0x23 = false :=
  ⟨rfl, by unfold State.serves; decide, by decide, by decide⟩

theorem test_security_posts :
    (powered.reachable 0x20300 = true ∧ powered.wideHeld = false ∧ powered.on 21 = true ∧ (powered.sec.port false).post.busy = false ∧
      powered.sec.waits = [] ∧ powered.sec.zeroing = false ∧ powered.sec.state = 0) ∧
    (Met fun s => s.sec.state = 1 ∧ (s.sec.port false).op ∈ secOps ∧ (s.sec.port true).op ∉ secOps) ∧
    (Met fun s => 2 ≤ s.sec.state ∧ (s.sec.port true).op ∈ secOps ∧ (s.sec.port true).op ≠ 1) ∧
    (Met fun s => s.sec.waits = [] ∧ s.sec.zeroing = true ∧ (s.sec.port false).op ≠ 3 ∧ (s.sec.port false).op ≠ 0x24) ∧
    (Met fun s => s.sec.waits = [true] ∧ (s.sec.port false).post.busy = false ∧
      (s.sec.setPort false { s.sec.port false with post := { (s.sec.port false).post with cseq := fld 255#32 0 8, busy := true } }).turnsAway true =
        none) ∧
    (Met fun s => s.reachable 0x20300 = true ∧ s.on 21 = false) :=
  ⟨by decide, ⟨{ powered with sec := { state := 1, h := { req := [(0, 0x24000000#32)] } } }, by decide⟩,
    ⟨{ powered with sec := { state := 3, s := { req := [(0, 0x24000000#32)] } } }, by decide⟩,
    ⟨{ powered with sec := { zeroing := true } }, by decide⟩,
    ⟨{ powered with sec := { state := 1, waits := [true], s := { req := [(0, 0x10000000#32)] } } }, by decide⟩,
    ⟨{ powered with rst := { powered.rst with dom := [(21, 0)] } }, by decide⟩⟩

/-- An OTP whose slot 7 holds a key of one use, where the module finds its point valid (Config.pointOk, log entry 8). -/
def keyed (use : Nat) : Sec := { otp := { cells := [(attrAddr 7, BitVec.ofNat 8 use)] } }

theorem test_slot_holds (use : Nat) (h1 : use = 3 ∨ use = 4 ∨ use = 5) (hp : Config.pointOk ((keyed use).slotKey 7) = true) :
    (keyed use).slotHolds 7 use = true ∧ (keyed use).anyHolds use = true ∧ (serving true 5 0 (keyed use)).sec.slotHolds 7 use = true := by
  have h : (keyed use).slotHolds 7 use = true := by
    unfold Sec.slotHolds
    rw [hp]
    obtain rfl | rfl | rfl := h1 <;> decide
  refine ⟨h, ?_, h⟩
  unfold Sec.anyHolds
  rw [List.any_eq_true]
  exact ⟨7, by decide, h⟩

theorem test_nonces : ((serving true 5 0 {}).sec.port true).nonce = some [] ∧
    (Met fun s => s.serves true 5 0 ∧ (s.sec.port true).nonce = none) :=
  ⟨rfl, { powered with sec := { state := 1, waits := [true], s := { req := [(0, 0x05000000#32)] } } }, by unfold State.serves; decide, rfl⟩

theorem test_security_events :
    (powered.on 21 = true ∧ powered.sec.state = 0 ∧ powered.sec.zeroing = false ∧ powered.sec.waits = [] ∧ powered.mx.boot ≠ .selftest ∧
      (true && decide (powered.sec.config / 32 % 2 = 0)) = true ∧ powered.sec.state ≤ 1) ∧
    (Met fun s => s.on 21 = true ∧ s.sec.state = 0 ∧ s.sec.waits = [true] ∧ (s.sec.port true).op = 2 ∧ s.sec.started = true ∧
      s.mx.boot ≠ .selftest) ∧
    (Met fun s => s.on 21 = true ∧ s.sec.state = 0 ∧ s.sec.zeroing = false ∧ s.mx.boot = .selftest ∧ s.sec.waits = []) ∧
    (Met fun s => s.mx.boot ≠ .selftest ∧ s.sec.state ≠ 0 ∧ 1 < s.sec.state) ∧
    (∀ op, op = 3 ∨ op = 0x24 → Met fun s => s.sec.zeroing = true ∧ s.rst.reach < 4 ∧ s.sec.waits = [false] ∧ (s.sec.port false).op = op) ∧
    (Met fun s => s.sec.zeroing = true ∧ 4 ≤ s.rst.reach ∧ s.sec.waits = []) ∧
    (Met fun s => s.sec.zeroing = true ∧ s.rst.reach < 4 ∧ s.sec.waits = []) ∧
    (powered.sec.config / 2 % 4 = 0 ∧ (Met fun s => s.sec.config / 8 % 4 = 1) ∧ (Met fun s => s.sec.config / 8 % 4 = 3) ∧
      (Met fun s => s.sec.scope ≠ 0 ∧ s.sec.dbgLeft ≠ 0)) :=
  ⟨by decide, ⟨{ powered with sec := { waits := [true], started := true, s := { req := [(0, 0x02000000#32)] } } }, by decide⟩,
    ⟨{ powered with mx := { boot := .selftest } }, by decide⟩, ⟨{ powered with sec := { state := 2 } }, by decide⟩,
    fun op h => ⟨{ powered with sec := { zeroing := true, waits := [false], h := { req := [(0, wd (op * 2 ^ 24))] } } },
      by obtain rfl | rfl := h <;> decide⟩,
    ⟨{ powered with sec := { zeroing := true }, rst := { reach := 4 } }, by decide⟩, ⟨{ powered with sec := { zeroing := true } }, by decide⟩,
    by decide, ⟨{ powered with sec := { otp := { cells := [(0, 8#8)] } } }, by decide⟩,
    ⟨{ powered with sec := { otp := { cells := [(0, 24#8)] } } }, by decide⟩, ⟨{ powered with sec := { scope := 7, dbgLeft := 1 } }, by decide⟩⟩

/-- The module with an AES key in handle 31 and a pair in handle 0, both of port S; bank 0 belongs to software. -/
def bulk (op kind : Nat) : State :=
  { serving true op 1 { handles := [(0, some ⟨2, [1#8], true⟩), (31, some ⟨1, [2#8], true⟩)] } with
      stg := { banks := [(0, { ownKind := kind, mem := { gen := 0 } })] } }

theorem test_bulk :
    ((bulk 0x12 4).handle true 31 1 = some [2#8] ∧ (bulk 0x16 4).handle true 0 2 = some [1#8] ∧
      (bulk 0x1A 4).anyHandle true 0 = some ⟨2, [1#8], true⟩ ∧ (bulk 0x1C 4).anyHandle true 1 = none) ∧
    (∃ u, (bulk 0x10 4).start.secRead 0 4 = (u, some [0#8, 0#8, 0#8, 0#8]) ∧ (∃ w, u.secWrite 0 [0#8, 0#8, 0#8, 0#8] = (w, true))) ∧
    (∃ u, (bulk 0x10 1).start.secRead 0 4 = (u, none)) :=
  ⟨by decide, ⟨_, rfl, _, rfl⟩, _, rfl⟩

/-- Arguments beyond their range, or handles without a key of the kind. -/
theorem test_bad_services :
    ((bulk 0x11 4).handle true 30 1 = none ∧ (bulk 0x16 4).handle true 31 2 = none ∧ (bulk 0x1A 4).anyHandle true 30 = none) ∧
    (0x100000 < 0x100001 ∧ 256 < 257) ∧ ((serving true 0x20 2 (keyed 4)).sec.slotEmpty 7 = false ∧ (keyed 4).slotEmpty 11 = true) := by decide

set_option maxRecDepth 20000 in
/-- The module whose floor table of the plan is full; and one that a token takes out of approved mode, or cannot any more. -/
theorem test_full_tables :
    (({ otp := { cells := (List.range 64).map fun i => (0x390 + i, 1#8) } } : Sec).floorUsed 1 = 8) ∧
    (Met fun s => s.sec.approved = true ∧ s.sec.departs = 0) ∧ (Met fun s => s.sec.approved = true ∧ s.sec.departs = 256) :=
  ⟨by decide, ⟨{ powered with sec := { approved := true } }, by decide⟩,
    ⟨{ powered with sec := { approved := true, otp := { cells := (List.range 32).map fun i => (0x3D0 + i, 0xFF#8) } } }, by decide⟩⟩

theorem test_otp_services :
    ((serving true 0x20 0 {}).sec.slotEmpty 7 = true ∧ (serving true 0x20 2 {}).sec.slotEmpty 11 = true ∧
      (serving true 0x20 0 {}).sec.anyHolds 4 = false ∧ (List.replicate 49 2#8).length = 49) ∧
    ((keyed 4).slotEmpty 0 = true ∧ (keyed 4).slotEmpty 11 = true ∧ (keyed 4).floorUsed 1 < 8 ∧
      ((keyed 4).floor 0).toNat ≤ (5#32).toNat ∧ (5#32).toNat ≤ (6#32).toNat ∧ (6#32).toNat < (7#32).toNat) ∧
    ((keyed 4).configOk (wd (keyed 4).config ||| (2#32 &&& 0x8000001F#32)).toNat = true ∧
      (keyed 4).configOk (wd (keyed 4).config ||| (3#32 &&& 0x8000001F#32)).toNat = false) := by decide

/-- A debug token for this device and the nonce of zeros, scope 7, signed with the key of slot 7 (R505). -/
def aToken : List Byte :=
  [0x53#8, 0x4B#8, 0x44#8, 0x54#8] ++ toBytes 4 7 ++
    ((List.range 8).map (Config.hashByte 1 ((List.range 49).map (Config.publicByte identKey)))) ++ List.replicate 32 0#8 ++ toBytes 4 60 ++ toBytes 4 0 ++
    [7#8, 1#8] ++ List.replicate 14 0#8 ++ List.replicate 96 0#8

theorem test_tokens : tokenOk aToken (some (List.replicate 32 0#8)) = true ∧ tokenOk aToken none = false ∧
    (Config.pointOk ((keyed 3).slotKey 7) = true →
      Config.ecdsaOk ((keyed 3).slotKey 7) (tokenField aToken 0 0x48) (tokenField aToken 0x48 96) = true → (keyed 3).tokenSigned aToken = true) := by
  have hu : ofBytes (tokenField aToken 8 8) = secUid := rfl
  refine ⟨by unfold tokenOk; rw [decide_eq_true hu]; decide, by unfold tokenOk; rw [decide_eq_true hu]; decide, fun hp he => ?_⟩
  have hs : ofBytes (tokenField aToken 0x38 1) = 7 := by decide
  unfold Sec.tokenSigned
  simp only [hs]
  rw [(test_slot_holds 3 (.inl rfl) hp).1, he]
  decide

theorem test_records :
    (Met fun s => (∃ ws r, s.bg.held = ws :: r) ∧ bitAt (s.reg 0x90008) 31 = true ∧ fld (s.reg 0x90008) 0 16 = 65535 ∧ s.qmRuns = true ∧
      (s.queue 65535).state ≠ 0 ∧ (s.queue 65535).state ≠ 3 ∧ s.fullFor (s.queue 65535) 1 true = false ∧
      s.place (s.queue 65535) 1 true = some false) ∧
    (Met fun s => (∃ ws r, s.bg.held = ws :: r) ∧ bitAt (s.reg 0x90008) 31 = false) ∧
    (Met fun s => (∃ ws r, s.bg.held = ws :: r) ∧ bitAt (s.reg 0x90008) 31 = true ∧ (s.queue (fld (s.reg 0x90008) 0 16)).state = 0) ∧
    (Met fun s => fld (s.reg 0x9000C) 0 16 ≠ 0 ∧ s.bg.lost = 0 ∧ s.bg.held.length = 63) ∧
    (powered.bg.held = [] ∧ fld (powered.reg 0x9000C) 0 16 = 0) :=
  ⟨⟨{ queueState 0x40000000#32 1 [] {} with regs := { words := [(0x90008, 0x8000FFFF#32)] }, bg := { held := [[1#32]] } }, ⟨_, _, rfl⟩,
      by decide⟩,
    ⟨{ powered with regs := { words := [(0x90008, 0#32)] }, bg := { held := [[1#32]] } }, ⟨_, _, rfl⟩, by decide⟩,
    ⟨{ powered with regs := { words := [(0x90008, 0x80000000#32)] }, bg := { held := [[1#32]] } }, ⟨_, _, rfl⟩, by decide⟩,
    ⟨{ powered with regs := { words := [(0x9000C, 1#32)] }, bg := { held := List.replicate 63 [] } }, by decide⟩, by decide⟩

set_option maxRecDepth 20000 in
theorem test_retirement :
    (powered.reachable 0x90120 = true ∧ powered.bg.retiring = none ∧ powered.scr.evac = none ∧ powered.rsu.busy = false ∧
      powered.bentHere (255 / 16) = true ∧ powered.bg.retired.contains 255 = false ∧
      (∀ n, n < 192 → (powered.bank n).kind ≠ 3 ∨ (powered.bank n).bay ≠ 255)) ∧
    (Met fun s => s.bg.retiring.isSome = true) ∧
    (Met fun s => s.bg.retired.contains 255 = true ∧ 191 < 192 ∧ (s.bank 191).kind = 3 ∧ (s.bank 191).bay = 254) ∧
    (Met fun s => s.bg.retiring = some (255, false, false) ∧ (∃ e, s.scr.evac = some e ∧ e.owner = 1)) ∧
    (Met fun s => s.bg.retiring = some (255, false, false) ∧ s.scr.evac = none ∧ s.tasksOn 255 = [] ∧ (s.bay 255).qio.sendq = [] ∧
      (s.bay 255).qio.landing = [] ∧ (s.bay 255).qio.cur = none ∧ s.bg.lost = 0 ∧ s.bg.held.length < 64) :=
  ⟨by decide, ⟨{ powered with bg := { retiring := some (0, false, false) } }, rfl⟩,
    ⟨{ powered with bg := { retired := [255] }, stg := { banks := [(191, { kind := 3, bay := 254 })] } }, by decide⟩,
    ⟨{ powered with bg := { retiring := some (255, false, false) }, scr := { evac := some { bays := [255], drop := false, byBay := true, owner := 1 } } },
      rfl, _, rfl, rfl⟩,
    ⟨{ powered with bg := { retiring := some (255, false, false) } }, by decide⟩⟩

/-! ## A few steps, with the results the rules give -/

/-- The state after one command, taken from the queue. -/
def after (c : Instr) (s : State) : State :=
  match Machine.step { s with pending := [c] } with
  | .next t => t
  | _ => s

/-- R442, R463: with flow control a byte leaves once UART_CTS_N goes low, and not before. -/
theorem test_uart_cts :
    let s : State := { powered with regs := { words := [(0x48002000, 0xC0000000#32)] }, mx := { uTx := [1#8] } }
    (after .uartTxByte s).mx.uTx = [1#8] ∧ (after .uartTxByte { s with mx := { s.mx with cts := true } }).mx.uTx = [] := by decide

/-- R463: the UART stores the byte and raises RX. -/
theorem test_uart_rx :
    let s := { powered with regs := { words := [(0x48002000, 0x40000000#32)] } }
    (after (.uartRxByte 0x41#8 true) s).mx.uRx = [0x41#8] ∧ ((after (.uartRxByte 0x41#8 true) s).sq 0x4800200C).ev = [(0, 1)] := by decide

/-- R488: right after a power-on reset the clock edge shows the source and the reach in RST_LAST. -/
theorem test_rst_last : (after .acRefresh State.reset).reg 0x10004 = 0x107#32 := by decide

/-- R107: the 256th posting wraps SEQ and loses the one before it. -/
theorem test_mailbox_wraps :
    let t := ((after (.mbxPost 0 3 7#32) (withBay 0 { state := 3, mbx := [(3, { seq := 255, valid := true })] })).bay 0).mailbox 3
    t.seq = 0 ∧ t.lost = true ∧ t.data = 7#32 := by decide

/-- R73: the two moves of one bundle read before either writes. -/
theorem test_swap : ((after (.bundleIssue 0 []) (withBay 0 (swapBay 3))).bay 0).gp = [(1, 6#32), (2, 5#32)] := by decide

/-- R462: programming clears bits and sets none. -/
theorem test_flash_programs :
    let s := { mailing 0x03000000#32 0#32 1#32 with mx := { mxh := { busy := true }, flash := { gen := 0, cells := [(0, 0xF0#8)] } } }
    (after (.flashWrite true) { s with regs := { words := [(0xA0000, 0x03000000#32), (0xA0008, 1#32), (0xA000C, 0x3C#32)] } }).mx.flash.byte 0 =
      0x30#8 := by decide
end Sys2Proof.Tests
end

/-!
Register conventions (R37–R54): what the commands of the peg, of PG registers and of sequence-clear registers do.
-/
namespace Sys2Proof.Proofs.Registers
open Sys2Proof Sys2Proof.Machine

/-! ## What each command runs -/

/-- DEV_PEG is a register write at its offset (R43). -/
theorem exec_devPeg (v : Word) (s : State) :
    exec (.devPeg v) s = s.run fun t => t.regWrite .host 0x10 v := rfl

theorem exec_pegApplied (s : State) : exec .pegApplied s = s.run State.pegApplied := rfl

theorem exec_pegDeferredAccept (s : State) :
    exec .pegDeferredAccept s = s.run fun t => t.pegDeferred t.regDown := rfl

theorem exec_pgShadowWrite (ag : Agent) (a : Nat) (v : Word) (s : State) :
    exec (.pgShadowWrite ag a v) s = s.run fun t => t.regWrite ag a v := rfl

theorem exec_sqClearWrite (ag : Agent) (a : Nat) (v : Word) (s : State) :
    exec (.sqClearWrite ag a v) s = s.run fun t => t.regWrite ag a v := rfl

/-! ## The peg (R43–R49) -/

/-- R43: a write of DEV_PEG is the peg of the groups that bits 15:0 name. -/
theorem regWrite_devPeg (s : State) (v : Word) (h : s.wideHeld = false) :
    s.regWrite .host 0x10 v = s.peg s.regDown (fld v 0 16) := by
  have hr : regRow 0x10 = some ⟨0x10, 4, 1, .ro, 0, 0, true⟩ := by decide
  have hd : s.reachable 0x10 = true := (s.reachable_iff 0x10).2 ⟨h, s.regDown_dev (by decide)⟩
  rw [s.regWrite_dev .host v hd hr (by decide) (by decide) (by decide)]
  exact if_pos rfl

/-- The command DEV_PEG runs to the peg of the state it starts from. -/
theorem devPeg_runs {s t : State} {v : Word} (h : s.wideHeld = false)
    (ht : s.start.peg s.regDown (fld v 0 16) = t) : exec (.devPeg v) s = .next (s.finish t) := by
  rw [exec_devPeg]
  exact ran ((regWrite_devPeg s.start v h).trans ht)

/-- R271: a peg that captured no descriptor write applies none. -/
theorem applyPending_none (s : State) (h : s.qm.pegPend = 0) : s.applyPending = s := by
  have hq : { s.qm with pegPend := 0 } = s.qm := by rw [← h]
  simp only [State.applyPending, h, List.take_zero, List.drop_zero, List.foldl_nil, hq]

/-- R45, R48: with no descriptor write captured, what the peg applies is its captured words. -/
theorem pegApplied_words (s : State) (hb : s.regs.busy = true) (hp : s.qm.pegPend = 0) :
    s.pegApplied = s.pegWords s.regDown := by
  rw [State.pegApplied, if_pos hb]
  exact applyPending_none _ hp

/-- R48: whether a shadow is lost does not depend on the writes held. -/
theorem skips_held (r : RegFile) (l : List Word) (down : Nat → Bool) (g : Nat) :
    { r with held := l }.skips down g = r.skips down g := rfl

/-- R45, R47, R48: with nothing in progress the oldest held write is accepted: its groups are captured, with PEGSKIP
exactly where a shadow is skipped. -/
theorem pegDeferred_cons (s : State) (down : Nat → Bool) {g : Word} {rest : List Word}
    (hb : s.regs.busy = false) (hh : s.regs.held = g :: rest) :
    s.pegDeferred down =
      let t := if s.regs.skips down (fld g 0 16) then s.event 0x34 1 else s
      { t with
        regs := { t.regs with held := rest }.capture down (fld g 0 16),
        qm := { s.qm with
          pegPend := if s.regs.named (fld g 0 16) 0x30030 && !down 0x30030 then s.qm.pend.length else 0 } } := by
  have taken : s.pegDeferred down =
      { s with regs := { s.regs with held := rest } }.pegTaken down (fld g 0 16) := by
    simp [State.pegDeferred, hb, hh]
  rw [taken, State.pegTaken, skips_held]
  split <;> rfl

/-- R47: while BUSY, or with no write held, nothing is accepted. -/
theorem pegDeferred_idle (s : State) (down : Nat → Bool) (h : s.regs.busy = true ∨ s.regs.held = []) :
    s.pegDeferred down = s := by
  rcases h with h | h <;> simp [State.pegDeferred, h]

/-- R37, R44: a write of a PG register that answers goes to its shadow, in whatever block it lies. -/
theorem regWrite_pg (s : State) (ag : Agent) {a : Nat} (v : Word) {r : RegRow} (hr : regRow a = some r)
    (hk : r.kind = .pg) (h : s.reachable a = true) (hl : s.raiseLocks = false) :
    s.regWrite ag a v = s.writePg a r.mask v := by
  have hn : r.kind ≠ .sq := by simp [hk]
  have hw : s.writeKind a v = s.writePg a r.mask v := by simp only [State.writeKind, hr, hk]
  rw [← hw]
  rcases Laws.RegOps.pg_place hr hk with rfl | rfl | rfl | ⟨h1, h2, h3⟩
  · rw [s.regWrite_qm ag v h hr hn (by decide) (by decide)]
    simp [State.qmWrite, hl]
  · rw [s.regWrite_scr ag v h hr hn (by decide) (by decide)]
    simp [State.scrWrite, hl]
  · rw [s.regWrite_scr ag v h hr hn (by decide) (by decide)]
    simp [State.scrWrite, hl]
  · rw [s.regWrite_eth ag v h hr hn (by omega) (by omega), if_neg (by omega)]

/-- Settles O10: a DEV_PEG write by the four cases of `State.peg`, the peg's application and the acceptance of held
writes by theirs, and a PG write by the block its register lies in. -/
theorem pegs : Obligations.Pegs := by
  unfold Obligations.Pegs
  refine ⟨fun s v hw => ⟨fun h0 => ?_, fun h0 hb => ?_, fun h0 hb hh hk => ?_, fun h0 hb hh hk => ?_⟩,
    ⟨fun s hb hp => ?_, fun s g rest hb hh => ?_, fun s h => ?_⟩, fun s ag a v r hr hk h hl => ?_⟩
  · exact devPeg_runs hw (by rw [h0, State.peg_zero])
  · exact devPeg_runs hw (s.start.peg_busy s.regDown h0 hb)
  · exact devPeg_runs hw (s.start.peg_accepts s.regDown h0 hb hh hk)
  · exact devPeg_runs hw (s.start.peg_skips s.regDown h0 hb hh hk)
  · rw [exec_pegApplied]
    exact ran (pegApplied_words s.start hb hp)
  · rw [exec_pegDeferredAccept]
    exact ran (pegDeferred_cons s.start s.regDown hb hh)
  · rw [exec_pegDeferredAccept]
    exact ran (pegDeferred_idle s.start s.regDown h)
  · rw [exec_pgShadowWrite]
    exact ran (regWrite_pg s.start ag v hr hk h hl)

/-! ## Sequence-clear registers (R53, R54) -/

/-- R53: a write of a sequence-clear register outside the ledgers is its clearing write. -/
theorem regWrite_sq (s : State) (ag : Agent) {a : Nat} (v : Word) {r : RegRow} (hr : regRow a = some r)
    (hk : r.kind = .sq) (ha : a < 0x1000000) (hp : a < 0x93000 ∨ 0xA0000 ≤ a) (h : s.reachable a = true)
    (hl : s.raiseLocks = false) : s.regWrite ag a v = s.sqClear a v := by
  obtain ⟨_, hd, e⟩ := s.regWrite_block ag v h ha
  rw [e, State.regAct, if_neg (by simp [hd]), hr]
  simp only [hk, true_and, if_pos hp, hl, Bool.false_and, Bool.false_eq_true, if_false]

/-- Settles O11: the write is `State.sqClear`, whose two parts, `Sq.write` and the source's message, are by definition
the two that the statement writes out. -/
theorem sequenceClear : Obligations.SequenceClear := by
  intro s ag a v r hr hk ha hp h hl
  rw [exec_sqClearWrite]
  exact ran ((regWrite_sq s.start ag v hr hk ha hp h hl).trans rfl)

end Sys2Proof.Proofs.Registers

/-!
Host mailboxes of a bay (R106–R110): what a posting, a read and an acknowledgement do.
-/
namespace Sys2Proof.Proofs.BayMailboxes
open Sys2Proof Sys2Proof.Machine

/-! ## What each command runs -/

theorem exec_mbxPost (b m : Nat) (v : Word) (s : State) :
    exec (.mbxPost b m v) s = s.run fun t => t.mailboxPost b m v := rfl

theorem exec_mbxLoRead (ag : Agent) (b m : Nat) (s : State) :
    exec (.mbxLoRead ag b m) s = s.run fun t => t.regAnswer ag (mailboxAddr b m) := rfl

theorem exec_mbxHiRead (ag : Agent) (b m : Nat) (s : State) :
    exec (.mbxHiRead ag b m) s = s.run fun t => t.regAnswer ag (mailboxAddr b m + 4) := rfl

theorem exec_mbxAck (ag : Agent) (b m : Nat) (v : Word) (s : State) :
    exec (.mbxAck ag b m v) s = s.run fun t => t.regWrite ag (mailboxAddr b m + 8) v := rfl

/-! ## The way of an access through the bay window (R104, R106) -/

/-- A register read in the window of bay b. -/
theorem regRead_window (s : State) (ag : Agent) {b o : Nat} (h : s.wideHeld = false) (hb : b < 256)
    (ho : o < 0x10000) : s.regRead ag (bayWindow b + o) = s.bayRead ag b o := by
  have hi : 0x1000000 ≤ bayWindow b + o ∧ bayWindow b + o < 0x2000000 := by unfold bayWindow; omega
  have hd : (bayWindow b + o - 0x1000000) / 0x10000 = b := by unfold bayWindow; omega
  have hm : (bayWindow b + o) % 0x10000 = o := by unfold bayWindow; omega
  rw [State.regRead, if_neg (by simp [h]), if_pos hi, hd, hm]

/-- The register at offset k of mailbox m, by its offset in the window. -/
theorem mailboxAddr_add (b m k : Nat) : mailboxAddr b m + k = bayWindow b + (0x2000 + 16 * m + k) := by
  unfold mailboxAddr; omega

section
variable {s : State} {b m : Nat} (hm : m < 4) (hr : s.bayReached b = true)
include hm hr

theorem bayRead_mbxLo (ag : Agent) : s.bayRead ag b (0x2000 + 16 * m) = s.mailboxRead ag b m false := by
  have hi : 0x2000 ≤ 0x2000 + 16 * m ∧ 0x2000 + 16 * m < 0x2040 := by omega
  have hd : (0x2000 + 16 * m - 0x2000) / 16 = m := by omega
  rw [State.bayRead, if_neg (by simp [hr]), if_pos hi, if_pos (by omega), hd]

theorem bayRead_mbxHi (ag : Agent) : s.bayRead ag b (0x2000 + 16 * m + 4) = s.mailboxRead ag b m true := by
  have hi : 0x2000 ≤ 0x2000 + 16 * m + 4 ∧ 0x2000 + 16 * m + 4 < 0x2040 := by omega
  have hd : (0x2000 + 16 * m + 4 - 0x2000) / 16 = m := by omega
  rw [State.bayRead, if_neg (by simp [hr]), if_pos hi, if_neg (by omega), if_pos (by omega), hd]

theorem bayWrite_mbxAck (ag : Agent) (v : Word) :
    s.bayWrite ag b (0x2000 + 16 * m + 8) v = s.mailboxAck ag b m v := by
  have hi : 0x2000 ≤ 0x2000 + 16 * m + 8 ∧ 0x2000 + 16 * m + 8 < 0x2040 ∧ (0x2000 + 16 * m + 8) % 16 = 8 := by omega
  have hd : (0x2000 + 16 * m + 8 - 0x2000) / 16 = m := by omega
  rw [State.bayWrite, if_neg (by simp [hr]), if_pos hi, hd]

variable (hb : b < 256) (hw : s.wideHeld = false)
include hb hw

/-- R108: MBX_LO answers the mailbox's read of the state it finds. -/
theorem regAnswer_mbxLo (ag : Agent) : s.regAnswer ag (mailboxAddr b m) =
    (s.mailboxRead ag b m false).1.emit (.answer { data := toBytes 4 (s.mailboxRead ag b m false).2.toNat }) := by
  rw [State.regAnswer, ← Nat.add_zero (mailboxAddr b m), mailboxAddr_add, regRead_window s ag hw hb (by omega),
    Nat.add_zero, bayRead_mbxLo hm hr]

/-- R108: so does MBX_HI. -/
theorem regAnswer_mbxHi (ag : Agent) : s.regAnswer ag (mailboxAddr b m + 4) =
    (s.mailboxRead ag b m true).1.emit (.answer { data := toBytes 4 (s.mailboxRead ag b m true).2.toNat }) := by
  rw [State.regAnswer, mailboxAddr_add, regRead_window s ag hw hb (by omega), bayRead_mbxHi hm hr]

/-- R109: a write of MBX_ACK is the agent's acknowledgement. -/
theorem regWrite_mbxAck (ag : Agent) (v : Word) :
    s.regWrite ag (mailboxAddr b m + 8) v = s.mailboxAck ag b m v := by
  rw [mailboxAddr_add, s.regWrite_window ag v hw hb (by omega), bayWrite_mbxAck hm hr]

end

/-! ## What a mailbox does (R107–R109) -/

/-- R107: a posting of running code. `codeRuns` holds only in a bent that is there. -/
theorem mailboxPost_eq {s : State} {b m : Nat} (v : Word) (hb : b < 256) (hm : m < 4) (h : s.codeRuns b = true) :
    s.mailboxPost b m v = s.onBay b fun c => c.mbxPost m v :=
  if_pos (by simp [hb, hm, h])

/-- R108: a host read of MBX_LO. -/
theorem mailboxRead_lo_host (s : State) (b m : Nat) : s.mailboxRead .host b m false =
    (s.onBay b fun c => c.setMailbox m { c.mailbox m with snapHost := (c.mailbox m).data, seen := true },
      ((s.bay b).mailbox m).lo) := rfl

/-- R108: a host read of MBX_HI. -/
theorem mailboxRead_hi_host (s : State) (b m : Nat) : s.mailboxRead .host b m true =
    (s.onBay b fun c => c.setMailbox m { c.mailbox m with seen := true }, ((s.bay b).mailbox m).snapHost) := rfl

/-- R108: a read of MBX_LO by the sill core. -/
theorem mailboxRead_lo_sill (s : State) (b m : Nat) : s.mailboxRead .sill b m false =
    (s.onBay b fun c => c.setMailbox m { c.mailbox m with snapSill := (c.mailbox m).data },
      ((s.bay b).mailbox m).lo) := rfl

/-- R108: a read of MBX_HI by the sill core. -/
theorem mailboxRead_hi_sill (s : State) (b m : Nat) : s.mailboxRead .sill b m true =
    (s.onBay b fun c => c.setMailbox m (c.mailbox m), ((s.bay b).mailbox m).snapSill) := rfl

/-- R109: an acknowledgement of the posting that was seen. -/
theorem ack_seen {x : Mailbox} {n : Nat} (hv : x.valid = true) (hn : n = x.seq) (hs : x.seen = true) :
    x.ack n = { x with valid := false } := if_pos ⟨hv, hn, hs⟩

/-- R109: the host acknowledges the posting it has seen. -/
theorem mailboxAck_seen {s : State} {b m : Nat} {v : Word} (hn : fld v 0 8 = ((s.bay b).mailbox m).seq)
    (hv : ((s.bay b).mailbox m).valid = true) (hs : ((s.bay b).mailbox m).seen = true) :
    s.mailboxAck .host b m v = s.onBay b fun c => c.setMailbox m { c.mailbox m with valid := false } := by
  rw [State.mailboxAck, if_pos rfl]
  exact State.onBay_congr (congrArg _ (ack_seen hv hn hs))

/-- R109: only the host's acknowledgement counts. -/
theorem mailboxAck_sill (s : State) (b m : Nat) (v : Word) : s.mailboxAck .sill b m v = s := rfl

/-- Settles O16: each access reaches mailbox m through the bay window, where it is the mailbox's own operation. -/
theorem mailboxes : Obligations.Mailboxes := by
  intro s b m hb hm hp
  refine ⟨fun v hc => ?_, fun hw h0 => ?_⟩
  · rw [exec_mbxPost]
    exact ran (mailboxPost_eq (s := s.start) v hb hm hc)
  have hr : s.start.bayReached b = true := State.bayReached_of s.start hp h0
  refine ⟨?_, ?_, ?_, ?_, fun v hn hv hs => ?_, fun v => ?_⟩
  · rw [exec_mbxLoRead]
    exact ran ((regAnswer_mbxLo hm hr hb hw .host).trans (by rw [mailboxRead_lo_host, State.bay_of_start]))
  · rw [exec_mbxHiRead]
    exact ran ((regAnswer_mbxHi hm hr hb hw .host).trans (by rw [mailboxRead_hi_host, State.bay_of_start]))
  · rw [exec_mbxLoRead]
    exact ran ((regAnswer_mbxLo hm hr hb hw .sill).trans (by rw [mailboxRead_lo_sill, State.bay_of_start]))
  · rw [exec_mbxHiRead]
    exact ran ((regAnswer_mbxHi hm hr hb hw .sill).trans (by rw [mailboxRead_hi_sill, State.bay_of_start]))
  · rw [exec_mbxAck]
    exact ran ((regWrite_mbxAck hm hr hb hw .host v).trans (mailboxAck_seen hn hv hs))
  · rw [exec_mbxAck]
    exact ran ((regWrite_mbxAck hm hr hb hw .sill v).trans (mailboxAck_sill s.start b m v))

end Sys2Proof.Proofs.BayMailboxes

/-!
The host mailbox (R460–R462): what a post, the sill core's DONE and each service do.
-/
namespace Sys2Proof.Proofs.HostMailbox
open Sys2Proof Sys2Proof.Machine Sys2Proof.Laws.Mailbox

/-! ## What each command runs -/

theorem exec_mxhPost (v : Word) (s : State) : exec (.mxhPost v) s = s.run fun t => t.regWrite .host 0xA0080 v := rfl

theorem exec_mxhDone (v : Word) (s : State) : exec (.mxhDone v) s = s.run fun t => t.regWrite .sill 0xA0088 v := rfl

theorem exec_mxhStatus (s : State) : exec .mxhStatus s = s.run State.svcStatus := rfl

theorem exec_flashRead (ok : Bool) (s : State) : exec (.flashRead ok) s = s.run fun t => t.svcFlashRead ok := rfl

theorem exec_flashWrite (ok : Bool) (s : State) : exec (.flashWrite ok) s = s.run fun t => t.svcFlashWrite ok := rfl

theorem exec_flashErase (ok : Bool) (s : State) : exec (.flashErase ok) s = s.run fun t => t.svcFlashErase ok := rfl

theorem exec_leaveShoring (s : State) : exec .leaveShoring s = s.run State.svcLeaveShoring := rfl

/-! ## Posting and DONE (R460, R461) -/

theorem regWrite_mxhPost {s : State} (ag : Agent) (v : Word) (h : s.reachable 0xA0080 = true) :
    s.regWrite ag 0xA0080 v = s.mxhPost v := mx_go s ag _ v h (by decide)

theorem regWrite_mxhDone {s : State} (ag : Agent) (v : Word) (h : s.reachable 0xA0088 = true) :
    s.regWrite ag 0xA0088 v = s.mxhDone ag v := mx_go s ag _ v h (by decide)

theorem mxhPost_free {s : State} (v : Word) (h : s.mx.mxh.busy = false) :
    s.mxhPost v = { s with mx := { s.mx with mxh := { s.mx.mxh with cseq := fld v 0 8, busy := true } } } :=
  if_neg (by simp [h])

theorem mxhPost_busy {s : State} (v : Word) (h : s.mx.mxh.busy = true) : s.mxhPost v = s.event 0xA008C 1 := if_pos h

theorem mxhDone_answers {s : State} {v : Word} (hb : s.mx.mxh.busy = true) (hv : fld v 0 8 = s.mx.mxh.cseq) :
    s.mxhDone .sill v =
      { s with mx := { s.mx with mxh := { s.mx.mxh with rseq := fld v 0 8, busy := false } } }.event 0xA008C 0 :=
  if_pos (by simp [hb, hv])

theorem mxhDone_ignored {s : State} (ag : Agent) {v : Word} (h : s.mx.mxh.busy = false ∨ fld v 0 8 ≠ s.mx.mxh.cseq) :
    s.mxhDone ag v = s := if_neg (by rcases h with h | h <;> simp [h])

/-! ## The command that waits (R462) -/

theorem mxhIs_iff (s : State) (op : Nat) :
    s.mxhIs op = true ↔ s.mx.mxh.busy = true ∧ fld (s.reg 0xA0000) 24 8 = op := by
  simp [State.mxhIs, State.mxhArg]

theorem mxhIs_false {s : State} {op : Nat} (h : s.mx.mxh.busy = false ∨ fld (s.reg 0xA0000) 24 8 ≠ op) :
    s.mxhIs op = false := by
  rw [Bool.eq_false_iff, ne_eq, mxhIs_iff]
  rcases h with h | h <;> simp [h]

/-- A service answers the command that waited in `s` from any state that holds the same mailbox, registers, bays and
scribe. -/
theorem answered_from {s u : State} {status : Nat} {rs : List Word} (hb : s.mx.mxh.busy = true)
    (hc : s.mx.mxh.cseq < 256) (hr : rs.length < 16) (hm : u.mx.mxh = s.mx.mxh) (hg : u.regs = s.regs)
    (hy : u.bays = s.bays) (hs : u.scr = s.scr) :
    s.answered (u.mxhAnswer status rs) status rs ∧ (u.mxhAnswer status rs).rst = u.rst ∧
      (u.mxhAnswer status rs).mx.flash = u.mx.flash := by
  obtain ⟨ha, hrst, hf⟩ := answer_eq u status rs (by rw [hm, hb]) (by rw [hm]; exact hc) hr
  exact ⟨answered_of ha hm hg hy hs, hrst, hf⟩

/-! ## The flash services (R462) -/

/-- The shape that the three flash services share: nothing unless the command waits, status 2 for bad arguments, status
3 for a flash that does not answer, and otherwise what the service does. -/
def flashService (s : State) (op : Nat) (bad : Prop) [Decidable bad] (ok : Bool) (done : State) : State :=
  if !s.mxhIs op then s else if bad then s.mxhAnswer 2 [] else if !ok then s.mxhAnswer 3 [] else done

/-- The bytes that FLASH_WRITE programs: as many as argument word 2 says, from word 3 on. -/
def writeBytes (s : State) : List Byte :=
  (bytesOf ((List.range 13).map fun i => s.reg (0xA000C + 4 * i))).take (s.reg 0xA0008).toNat

/-- The same bytes as the model takes them, from the argument words by number. -/
theorem writeBytes_args (s : State) :
    writeBytes s = (bytesOf ((List.range 13).map fun i => s.mxhArg (3 + i))).take (s.mxhArg 2).toNat := by
  have h : (fun i => s.mxhArg (3 + i)) = fun i => s.reg (0xA000C + 4 * i) := by
    funext i
    exact congrArg s.reg (by omega)
  rw [h]
  rfl

theorem svcFlashRead_eq (s : State) (ok : Bool) : s.svcFlashRead ok =
    flashService s 2 (56 < (s.reg 0xA0008).toNat ∨ s.hw.flash < (s.reg 0xA0004).toNat + (s.reg 0xA0008).toNat) ok
      (s.mxhAnswer 0 (wordsOf (s.mx.flash.bytes (s.reg 0xA0004).toNat (s.reg 0xA0008).toNat))) := rfl

theorem svcFlashWrite_eq (s : State) (ok : Bool) : s.svcFlashWrite ok =
    flashService s 3 (52 < (s.reg 0xA0008).toNat ∨ s.hw.flash < (s.reg 0xA0004).toNat + (s.reg 0xA0008).toNat) ok
      ((s.flashProgram (s.reg 0xA0004).toNat (writeBytes s)).mxhAnswer 0 []) := by
  rw [writeBytes_args]
  rfl

theorem svcFlashErase_eq (s : State) (ok : Bool) : s.svcFlashErase ok =
    flashService s 4 ((s.reg 0xA0004).toNat % 65536 ≠ 0 ∨ s.hw.flash < (s.reg 0xA0004).toNat + 65536) ok
      ({ s with mx := { s.mx with
          flash := s.mx.flash.splice (s.reg 0xA0004).toNat 65536 fun _ => 0xFF#8 } }.mxhAnswer 0 []) := rfl

section
variable {s : State} {op : Nat} {bad : Prop} [Decidable bad] {ok : Bool} {done : State}

theorem flashService_idle (h : s.mxhIs op = false) : flashService s op bad ok done = s := if_pos (by simp [h])

theorem flashService_bad (h : s.mxhIs op = true) (hb : bad) : flashService s op bad ok done = s.mxhAnswer 2 [] := by
  simp [flashService, h, hb]

theorem flashService_fails (h : s.mxhIs op = true) (hb : ¬ bad) (hk : ok = false) :
    flashService s op bad ok done = s.mxhAnswer 3 [] := by
  simp [flashService, h, hb, hk]

theorem flashService_done (h : s.mxhIs op = true) (hb : ¬ bad) : flashService s op bad true done = done := by
  simp [flashService, h, hb]

/-- How a flash service refuses the command that waits: the flash keeps its bytes. -/
theorem flashService_refuses {f : State → State} (hf : f s.start = flashService s.start op bad ok done)
    (h : s.mxhIs op = true) (hc : s.mx.mxh.cseq < 256) :
    (bad → ∃ t, s.run f = .next (s.finish t) ∧ s.answered t 2 [] ∧ t.mx.flash = s.mx.flash) ∧
      (¬ bad → ok = false → ∃ t, s.run f = .next (s.finish t) ∧ s.answered t 3 [] ∧ t.mx.flash = s.mx.flash) := by
  have hb : s.mx.mxh.busy = true := ((mxhIs_iff s op).1 h).1
  have answers (status : Nat) : s.answered (s.start.mxhAnswer status []) status [] ∧
      (s.start.mxhAnswer status []).mx.flash = s.mx.flash := by
    obtain ⟨ha, _, hm⟩ := answered_from (u := s.start) (status := status) hb hc (rs := []) (by simp) rfl rfl rfl rfl
    exact ⟨ha, hm⟩
  exact ⟨fun hbad => ⟨_, ran (hf.trans (flashService_bad h hbad)), answers 2⟩,
    fun hbad hk => ⟨_, ran (hf.trans (flashService_fails h hbad hk)), answers 3⟩⟩

end

/-! ## Programming and erasing (R462) -/

theorem bytesOf_length (l : List Word) : (bytesOf l).length = 4 * l.length := by
  simp [bytesOf, List.length_flatMap, toBytes_length, Nat.mul_comm]

theorem writeBytes_length {s : State} (h : (s.reg 0xA0008).toNat ≤ 52) :
    (writeBytes s).length = (s.reg 0xA0008).toNat := by
  simp [writeBytes, bytesOf_length, h]

/-- The bytes programmed are ANDed into those the flash held. -/
theorem flashProgram_bytes (s : State) (a : Nat) (d : List Byte) :
    (s.flashProgram a d).mx.flash.bytes a d.length =
      (d.zip (s.mx.flash.bytes a d.length)).map fun (e : Byte × Byte) => e.1 &&& e.2 := by
  have h := Mem.bytes_putBytes ((d.zip (s.mx.flash.bytes a d.length)).map fun (e : Byte × Byte) => e.1 &&& e.2)
    s.mx.flash a
  rw [List.length_map, List.length_zip, bytes_len, Nat.min_self] at h
  exact h

theorem flashProgram_byte_out (s : State) {a k : Nat} {d : List Byte} (h : k < a ∨ a + d.length ≤ k) :
    (s.flashProgram a d).mx.flash.byte k = s.mx.flash.byte k :=
  Mem.byte_putBytes_out _ _ _ _ (by simpa [bytes_len] using h)

/-! ## The services that answer (R462) -/

section
variable {s : State} (hb : s.mx.mxh.busy = true) (hc : s.mx.mxh.cseq < 256)
include hb hc

theorem status_answers (hop : fld (s.reg 0xA0000) 24 8 = 1) : ∃ t, exec .mxhStatus s = .next (s.finish t) ∧
    s.answered t 0 [wd (s.hw.part * 2 ^ 16 + s.hw.stepping * 2 ^ 8), s.reg 0xA0104, wd s.rst.count] ∧
    t.mx.flash = s.mx.flash ∧ t.rst = s.rst := by
  have run : s.start.svcStatus = s.start.mxhAnswer 0 [s.devIdent, s.reg 0xA0104, wd s.rst.count] :=
    if_pos ((mxhIs_iff s 1).2 ⟨hb, hop⟩)
  obtain ⟨ha, hr, hf⟩ := answered_from (u := s.start) (status := 0)
    (rs := [s.devIdent, s.reg 0xA0104, wd s.rst.count]) hb hc (by simp) rfl rfl rfl rfl
  exact ⟨_, (exec_mxhStatus s).trans (ran run), ha, hf, hr⟩

theorem flashRead_answers (hop : fld (s.reg 0xA0000) 24 8 = 2) (hn : (s.reg 0xA0008).toNat ≤ 56)
    (hl : (s.reg 0xA0004).toNat + (s.reg 0xA0008).toNat ≤ s.hw.flash) :
    ∃ t, exec (.flashRead true) s = .next (s.finish t) ∧
      s.answered t 0 (wordsOf (s.mx.flash.bytes (s.reg 0xA0004).toNat (s.reg 0xA0008).toNat)) ∧
      t.mx.flash = s.mx.flash := by
  have run : s.start.svcFlashRead true = s.start.mxhAnswer 0
      (wordsOf (s.mx.flash.bytes (s.reg 0xA0004).toNat (s.reg 0xA0008).toNat)) := by
    rw [svcFlashRead_eq]
    exact flashService_done ((mxhIs_iff s 2).2 ⟨hb, hop⟩) (not_or.2 ⟨Nat.not_lt.2 hn, Nat.not_lt.2 hl⟩)
  obtain ⟨ha, _, hf⟩ := answered_from (u := s.start) (status := 0) hb hc
    (words_bound _ _ (bytes_len s.mx.flash _ (s.reg 0xA0004).toNat) hn) rfl rfl rfl rfl
  exact ⟨_, (exec_flashRead true s).trans (ran run), ha, hf⟩

theorem flashWrite_answers (hop : fld (s.reg 0xA0000) 24 8 = 3) (hn : (s.reg 0xA0008).toNat ≤ 52)
    (hl : (s.reg 0xA0004).toNat + (s.reg 0xA0008).toNat ≤ s.hw.flash) :
    ∃ t, exec (.flashWrite true) s = .next (s.finish t) ∧ s.answered t 0 [] ∧
      t.mx.flash = (s.flashProgram (s.reg 0xA0004).toNat (writeBytes s)).mx.flash := by
  have run : s.start.svcFlashWrite true =
      (s.start.flashProgram (s.reg 0xA0004).toNat (writeBytes s)).mxhAnswer 0 [] := by
    rw [svcFlashWrite_eq]
    exact flashService_done ((mxhIs_iff s 3).2 ⟨hb, hop⟩) (not_or.2 ⟨Nat.not_lt.2 hn, Nat.not_lt.2 hl⟩)
  obtain ⟨ha, _, hf⟩ := answered_from (u := s.start.flashProgram (s.reg 0xA0004).toNat (writeBytes s)) (status := 0)
    (rs := []) hb hc (by simp) rfl rfl rfl rfl
  exact ⟨_, (exec_flashWrite true s).trans (ran run), ha, hf⟩

theorem flashErase_answers (hop : fld (s.reg 0xA0000) 24 8 = 4) (ha : (s.reg 0xA0004).toNat % 65536 = 0)
    (hl : (s.reg 0xA0004).toNat + 65536 ≤ s.hw.flash) :
    ∃ t, exec (.flashErase true) s = .next (s.finish t) ∧ s.answered t 0 [] ∧
      t.mx.flash = s.mx.flash.splice (s.reg 0xA0004).toNat 65536 fun _ => 0xFF#8 := by
  have run : s.start.svcFlashErase true = { s.start with mx := { s.mx with
      flash := s.mx.flash.splice (s.reg 0xA0004).toNat 65536 fun _ => 0xFF#8 } }.mxhAnswer 0 [] := by
    rw [svcFlashErase_eq]
    exact flashService_done ((mxhIs_iff s 4).2 ⟨hb, hop⟩) (not_or.2 ⟨not_not.2 ha, Nat.not_lt.2 hl⟩)
  obtain ⟨hans, _, hf⟩ := answered_from (u := { s.start with mx := { s.mx with
      flash := s.mx.flash.splice (s.reg 0xA0004).toNat 65536 fun _ => 0xFF#8 } }) (status := 0)
    (rs := []) hb hc (by simp) rfl rfl rfl rfl
  exact ⟨_, (exec_flashErase true s).trans (ran run), hans, hf⟩

/-- R462, R477: the answer comes first, then the reset of COLD reach. -/
theorem leaveShoring_answers (hop : fld (s.reg 0xA0000) 24 8 = 5) : ∃ u, exec .leaveShoring s =
      .next (s.finish ({ u with rst := { s.rst with shoring := false, count := 0 } }.assertReset 2)) ∧
    s.answered u 0 [] ∧ u.rst = s.rst := by
  obtain ⟨ha, hr, _⟩ := answered_from (u := s.start) (status := 0) (rs := []) hb hc (by simp) rfl rfl rfl rfl
  have run : s.start.svcLeaveShoring = (s.start.mxhAnswer 0 []).rstSwCold := if_pos ((mxhIs_iff s 5).2 ⟨hb, hop⟩)
  rw [State.rstSwCold, hr] at run
  exact ⟨_, (exec_leaveShoring s).trans (ran run), ha, hr⟩

end

/-! ## A service that is not the command waiting -/

theorem svcStatus_idle {s : State} (h : s.mxhIs 1 = false) : s.svcStatus = s := if_neg (by simp [h])

theorem svcLeaveShoring_idle {s : State} (h : s.mxhIs 5 = false) : s.svcLeaveShoring = s := if_neg (by simp [h])

/-- Settles O44: the post and DONE are register writes of the complex, the three flash services refuse in one shape, and
each service answers through `answered_from`. -/
theorem hostMailbox : Obligations.HostMailbox := by
  intro s
  refine ⟨fun v h hb => ?_, fun v h hb => ?_, fun hb v h hv => ?_, fun v h hn => ?_, ?_, ?_⟩
  · rw [exec_mxhPost]
    exact ran ((regWrite_mxhPost (s := s.start) .host v h).trans (mxhPost_free v hb))
  · rw [exec_mxhPost]
    exact ran ((regWrite_mxhPost (s := s.start) .host v h).trans (mxhPost_busy v hb))
  · rw [exec_mxhDone]
    exact ran ((regWrite_mxhDone (s := s.start) .sill v h).trans (mxhDone_answers hb hv))
  · rw [exec_mxhDone]
    exact ran ((regWrite_mxhDone (s := s.start) .sill v h).trans (mxhDone_ignored .sill hn))
  · rintro hb hc op a n rfl rfl rfl
    refine ⟨status_answers hb hc, flashRead_answers hb hc, ?_, fun hop hn hl => ?_, fun hop ha hl => ?_,
      leaveShoring_answers hb hc⟩
    · rintro i bad ok (⟨rfl, hop, rfl⟩ | ⟨rfl, hop, rfl⟩ | ⟨rfl, hop, rfl⟩)
      · rw [exec_flashRead]
        exact flashService_refuses (svcFlashRead_eq s.start ok) ((mxhIs_iff s 2).2 ⟨hb, hop⟩) hc
      · rw [exec_flashWrite]
        exact flashService_refuses (svcFlashWrite_eq s.start ok) ((mxhIs_iff s 3).2 ⟨hb, hop⟩) hc
      · rw [exec_flashErase]
        exact flashService_refuses (svcFlashErase_eq s.start ok) ((mxhIs_iff s 4).2 ⟨hb, hop⟩) hc
    · obtain ⟨t, he, ha, hf⟩ := flashWrite_answers hb hc hop hn hl
      have hlen := writeBytes_length hn
      refine ⟨t, he, ha, ?_, fun k hk => ?_⟩
      · have := flashProgram_bytes s (s.reg 0xA0004).toNat (writeBytes s)
        rwa [hlen, ← hf] at this
      · rw [hf, flashProgram_byte_out s (by rwa [hlen])]
    · obtain ⟨t, he, hans, hf⟩ := flashErase_answers hb hc hop ha hl
      exact ⟨t, he, hans, fun k => by rw [hf, Mem.byte_splice]⟩
  · intro i op ok hi hn
    have idle : s.start.mxhIs op = false := mxhIs_false hn
    rcases hi with ⟨rfl, rfl⟩ | ⟨rfl, rfl⟩ | ⟨rfl, rfl⟩ | ⟨rfl, rfl⟩ | ⟨rfl, rfl⟩
    · exact (exec_mxhStatus s).trans (ran (svcStatus_idle idle))
    · exact (exec_flashRead ok s).trans (ran ((svcFlashRead_eq s.start ok).trans (flashService_idle idle)))
    · exact (exec_flashWrite ok s).trans (ran ((svcFlashWrite_eq s.start ok).trans (flashService_idle idle)))
    · exact (exec_flashErase ok s).trans (ran ((svcFlashErase_eq s.start ok).trans (flashService_idle idle)))
    · exact (exec_leaveShoring s).trans (ran (svcLeaveShoring_idle idle))

end Sys2Proof.Proofs.HostMailbox


namespace Sys2Proof.Proofs.Running
open Sys2Proof Sys2Proof.Machine

/-- A command that runs `f` leaves what `f` makes of the state it starts from. -/
theorem runs {c : Instr} {s t : State} {f : State → State} (hc : exec c s = s.run f) (h : f s.start = t) :
    exec c s = .next (s.finish t) := hc.trans (ran h)

end Sys2Proof.Proofs.Running

namespace Sys2Proof.Proofs.Memory
open Sys2Proof Sys2Proof.Machine

/-- The bytes of a word written, least significant first. -/
theorem putWord_eq (m : Mem) (a : Nat) (v : Word) : m.putWord a v = m.putBytes a (toBytes 4 v.toNat) := rfl

/-- Byte i of the four of a word. -/
theorem byte_putWord (m : Mem) (a i : Nat) (v : Word) (h : i < 4) :
    (m.putWord a v).byte (a + i) = (toBytes 4 v.toNat)[i]'(by rw [toBytes_length]; exact h) := by
  rw [putWord_eq]
  exact Mem.byte_putBytes_in _ m a i _

/-- Memories of one generation, in canonical form, that read alike are the same data. -/
theorem eq_of_byte {m n : Mem} (hm : m.wf = true) (hn : n.wf = true) (hg : n.gen = m.gen)
    (h : ∀ b, n.byte b = m.byte b) : n = m := by
  obtain ⟨g, l⟩ := m
  obtain ⟨g', k⟩ := n
  subst hg
  rw [Laws.Whole.tab_ext (memDefault g') k l ((twf_iff _ _).1 hn) ((twf_iff _ _).1 hm) h]

/-- Settles O6: reads after writes are `Mem.byte_putByte`, `Mem.bytes_putBytes` and `Mem.word_putWord`; canonical forms
that read alike are equal by `eq_of_byte`. -/
theorem memoryReadsBack : Obligations.MemoryReadsBack := by
  intro m a hw
  refine ⟨fun v => ⟨Mem.wf_putByte a v hw, fun b => m.byte_putByte a b v⟩,
    fun l => ⟨Mem.wf_putBytes l a hw, Mem.bytes_putBytes l m a, Mem.byte_putBytes_out l m a⟩,
    fun v => ⟨m.word_putWord a v, ?_, ?_⟩, fun n hn hg h => eq_of_byte hw hn hg h⟩
  · refine (byte_putWord m a 0 v (by omega)).trans (BitVec.eq_of_toNat_eq ?_)
    simp [toBytes]
  · refine (byte_putWord m a 3 v (by omega)).trans (BitVec.eq_of_toNat_eq ?_)
    simp [toBytes, Nat.div_div_eq_div_mul]

end Sys2Proof.Proofs.Memory

namespace Sys2Proof.Proofs.Rows
open Sys2Proof Sys2Proof.Machine Laws.Admits

/-- Settles O7, row by row: each constructor has a well-formed command under `Laws.Admits`. -/
theorem everyRowAdmitted : Obligations.EveryRowAdmitted
  | .registerWrite x0 x1 x2 x3 => registerWrite x0 x1 x2 x3
  | .pgShadowWrite x0 x1 x2 => pgShadowWrite x0 x1 x2
  | .mwWrite x0 x1 x2 => mwWrite x0 x1 x2
  | .sqClearWrite x0 x1 x2 => sqClearWrite x0 x1 x2
  | .devPeg x0 => devPeg x0
  | .pegDeferredAccept => pegDeferredAccept
  | .pegApplied => pegApplied
  | .cfgCrcPass => cfgCrcPass
  | .bundleIssue x0 x1 => bundleIssue x0 x1
  | .resultArrival x0 x1 x2 => resultArrival x0 x1 x2
  | .windowResponse x0 x1 x2 => windowResponse x0 x1 x2
  | .faultEntry x0 => faultEntry x0
  | .eventEntry x0 => eventEntry x0
  | .dispatchEntry x0 => dispatchEntry x0
  | .bayPrivWrite x0 x1 => bayPrivWrite x0 x1
  | .bayMaskWrite x0 x1 => bayMaskWrite x0 x1
  | .bayGcfgWrite x0 x1 => bayGcfgWrite x0 x1
  | .modeChangeEffect x0 => modeChangeEffect x0
  | .structWrite x0 x1 x2 x3 => structWrite x0 x1 x2 x3
  | .iwrDataWrite x0 x1 => iwrDataWrite x0 x1
  | .plbDrop x0 => plbDrop x0
  | .plbFill x0 x1 => plbFill x0 x1
  | .timerExpiry x0 x1 => timerExpiry x0 x1
  | .mbxPost x0 x1 x2 => mbxPost x0 x1 x2
  | .mbxLoRead x0 x1 x2 => mbxLoRead x0 x1 x2
  | .mbxHiRead x0 x1 x2 => mbxHiRead x0 x1 x2
  | .mbxAck x0 x1 x2 x3 => mbxAck x0 x1 x2 x3
  | .traceEnable x0 x1 x2 => traceEnable x0 x1 x2
  | .step x0 x1 => step x0 x1
  | .enter x0 x1 => enter x0 x1
  | .exit x0 x1 => exit x0 x1
  | .testEntryStop x0 => testEntryStop x0
  | .ledgerClear x0 => ledgerClear x0
  | .throttlePeriod x0 => throttlePeriod x0
  | .throttleAdjust => throttleAdjust
  | .sendQueueDepart x0 => sendQueueDepart x0
  | .messageCommit x0 => messageCommit x0
  | .waitExpired x0 => waitExpired x0
  | .roomCommit x0 => roomCommit x0
  | .messageLanded x0 x1 => messageLanded x0 x1
  | .queueTimeout x0 => queueTimeout x0
  | .dbMsg x0 x1 x2 x3 => dbMsg x0 x1 x2 x3
  | .dbWord x0 x1 x2 => dbWord x0 x1 x2
  | .dbHead x0 x1 x2 => dbHead x0 x1 x2
  | .hostRingWrite x0 => hostRingWrite x0
  | .msixModerationExpiry x0 => msixModerationExpiry x0
  | .hrEnSet x0 x1 => hrEnSet x0 x1
  | .hrEnClear x0 x1 => hrEnClear x0 x1
  | .qmRead => qmRead
  | .qmWrite => qmWrite
  | .writep => writep
  | .outsideWordAccess x0 x1 x2 x3 x4 x5 x6 => outsideWordAccess x0 x1 x2 x3 x4 x5 x6
  | .bayScrubRead x0 x1 => bayScrubRead x0 x1
  | .ceWriteback x0 x1 x2 => ceWriteback x0 x1 x2
  | .stagingAccess x0 x1 x2 x3 x4 x5 x6 x7 => stagingAccess x0 x1 x2 x3 x4 x5 x6 x7
  | .stagingScrubRead x0 x1 => stagingScrubRead x0 x1
  | .stgOwnWrite x0 x1 => stgOwnWrite x0 x1
  | .stgOwnApply x0 => stgOwnApply x0
  | .bankWake x0 => bankWake x0
  | .stagingMarchStart x0 x1 => stagingMarchStart x0 x1
  | .stagingMarchDone x0 x1 x2 => stagingMarchDone x0 x1 x2
  | .bayMarchStart x0 x1 => bayMarchStart x0 x1
  | .bayMarchDone x0 x1 x2 x3 x4 => bayMarchDone x0 x1 x2 x3 x4
  | .init x0 x1 => init x0 x1
  | .trainingComplete x0 x1 x2 x3 => trainingComplete x0 x1 x2 x3
  | .srEnter x0 x1 => srEnter x0 x1
  | .selfrefEntered x0 => selfrefEntered x0
  | .srExit x0 x1 => srExit x0 x1
  | .selfrefExited x0 => selfrefExited x0
  | .clrmax x0 x1 => clrmax x0 x1
  | .ddr4Request x0 x1 x2 x3 x4 x5 x6 x7 => ddr4Request x0 x1 x2 x3 x4 x5 x6 x7
  | .refreshEpisode x0 x1 => refreshEpisode x0 x1
  | .refreshEnd x0 x1 x2 => refreshEnd x0 x1 x2
  | .zqcs x0 x1 => zqcs x0 x1
  | .caParityAlert x0 => caParityAlert x0
  | .dimmTempPoll x0 x1 x2 => dimmTempPoll x0 x1 x2
  | .retrainSlice x0 x1 => retrainSlice x0 x1
  | .epochBoundary => epochBoundary
  | .pageCopyPassDone x0 x1 x2 => pageCopyPassDone x0 x1 x2
  | .fenceAcknowledged x0 x1 => fenceAcknowledged x0 x1
  | .pageMoveComplete x0 x1 x2 x3 => pageMoveComplete x0 x1 x2 x3
  | .taskMoveDrained x0 => taskMoveDrained x0
  | .taskMoveComplete x0 => taskMoveComplete x0
  | .migwaitExpiry x0 => migwaitExpiry x0
  | .tcmdRead => tcmdRead
  | .tcmdWrite => tcmdWrite
  | .place => place
  | .tcmdMove => tcmdMove
  | .unplace => unplace
  | .pcmdRead => pcmdRead
  | .pcmdMove => pcmdMove
  | .twrite => twrite
  | .scrEvac x0 => scrEvac x0
  | .scrEvbay x0 => scrEvbay x0
  | .scrBankrel x0 => scrBankrel x0
  | .raise => raise
  | .rebent => rebent
  | .rebay => rebay
  | .abort => abort
  | .raiseStepComplete x0 => raiseStepComplete x0
  | .bayEnterRun x0 => bayEnterRun x0
  | .portEnable x0 x1 => portEnable x0 x1
  | .portDisable x0 x1 => portDisable x0 x1
  | .linkTrainingDone x0 x1 x2 x3 x4 x5 => linkTrainingDone x0 x1 x2 x3 x4 x5
  | .trainingRetry x0 => trainingRetry x0
  | .null x0 x1 => null x0 x1
  | .qcell x0 x1 x2 => qcell x0 x1 x2
  | .pread x0 x1 x2 x3 => pread x0 x1 x2 x3
  | .pwrite x0 x1 x2 x3 => pwrite x0 x1 x2 x3
  | .pcomp x0 x1 x2 x3 => pcomp x0 x1 x2 x3
  | .perr x0 x1 x2 x3 => perr x0 x1 x2 x3
  | .fence x0 x1 x2 x3 => fence x0 x1 x2 x3
  | .fenceAck x0 x1 x2 => fenceAck x0 x1 x2
  | .qrefuse x0 x1 x2 => qrefuse x0 x1 x2
  | .lstate x0 x1 x2 => lstate x0 x1 x2
  | .tsyncReq x0 x1 x2 x3 => tsyncReq x0 x1 x2 x3
  | .tsyncRsp x0 x1 x2 x3 x4 => tsyncRsp x0 x1 x2 x3 x4
  | .reservedFlit x0 x1 => reservedFlit x0 x1
  | .replayTimeout x0 => replayTimeout x0
  | .creditStall x0 => creditStall x0
  | .lossOfSignal x0 => lossOfSignal x0
  | .rtRead => rtRead
  | .rtWrite => rtWrite
  | .update => update
  | .updateForced => updateForced
  | .pwRead => pwRead
  | .pwWrite => pwWrite
  | .scfDevidWrite x0 => scfDevidWrite x0
  | .scfTset x0 => scfTset x0
  | .tsyncExchange x0 => tsyncExchange x0
  | .adaptSlice x0 => adaptSlice x0
  | .bar0Request x0 x1 x2 x3 x4 x5 x6 => bar0Request x0 x1 x2 x3 x4 x5 x6
  | .bar4Read x0 x1 => bar4Read x0 x1
  | .bar4Write x0 x1 x2 x3 => bar4Write x0 x1 x2 x3
  | .malformedTlp x0 => malformedTlp x0
  | .msixEnable x0 x1 => msixEnable x0 x1
  | .msixUnmask x0 => msixUnmask x0
  | .pcieLinkUp x0 x1 => pcieLinkUp x0 x1
  | .ethFrameReceive x0 x1 x2 x3 => ethFrameReceive x0 x1 x2 x3
  | .ethTransmit x0 => ethTransmit x0
  | .ethTransmitDone x0 x1 => ethTransmitDone x0 x1
  | .ethLinkUp x0 => ethLinkUp x0
  | .ethLinkDown x0 => ethLinkDown x0
  | .ethEnable x0 x1 => ethEnable x0 x1
  | .crossbarBurst x0 x1 x2 x3 => crossbarBurst x0 x1 x2 x3
  | .remap x0 => remap x0
  | .bootOk => bootOk
  | .bootFail => bootFail
  | .bootWindowExpiry => bootWindowExpiry
  | .mxhPost x0 => mxhPost x0
  | .mxhDone x0 => mxhDone x0
  | .mxhStatus => mxhStatus
  | .flashRead x0 => flashRead x0
  | .flashWrite x0 => flashWrite x0
  | .flashErase x0 => flashErase x0
  | .leaveShoring => leaveShoring
  | .romRaise x0 => romRaise x0
  | .xspiGo x0 => xspiGo x0
  | .xspiCmdDone x0 x1 x2 => xspiCmdDone x0 x1 x2
  | .xspiDataRead => xspiDataRead
  | .smbGo x0 => smbGo x0
  | .smbXferDone x0 x1 x2 => smbXferDone x0 x1 x2
  | .smbTargetRx x0 x1 => smbTargetRx x0 x1
  | .smbDataRead => smbDataRead
  | .uartDataRead => uartDataRead
  | .uartRxByte x0 x1 => uartRxByte x0 x1
  | .gpioEdge x0 => gpioEdge x0
  | .por => por
  | .tamper => tamper
  | .coldpin => coldpin
  | .rail => rail
  | .wdog => wdog
  | .swrst x0 x1 => swrst x0 x1
  | .rstSwCold x0 x1 => rstSwCold x0 x1
  | .failstart => failstart
  | .perst => perst
  | .hotrst => hotrst
  | .dldown => dldown
  | .rstBent x0 => rstBent x0
  | .rstBay x0 => rstBay x0
  | .rstBlock x0 => rstBlock x0
  | .resetSourceRelease x0 => resetSourceRelease x0
  | .exitSequenceDone x0 => exitSequenceDone x0
  | .wrapperDrained => wrapperDrained
  | .trimStart x0 => trimStart x0
  | .trimLoadDone x0 => trimLoadDone x0
  | .wdgEnable x0 => wdgEnable x0
  | .wdgKick x0 => wdgKick x0
  | .pwrCtlWrite x0 => pwrCtlWrite x0
  | .pwrRetWrite x0 => pwrRetWrite x0
  | .domainTransitionDone x0 => domainTransitionDone x0
  | .pllLossOfLock x0 => pllLossOfLock x0
  | .thermalSample x0 => thermalSample x0
  | .secPost x0 x1 => secPost x0 x1
  | .secStatus x0 => secStatus x0
  | .selftest x0 => selftest x0
  | .selftestComplete x0 => selftestComplete x0
  | .zeroise x0 => zeroise x0
  | .zeroisationComplete => zeroisationComplete
  | .getnonce x0 => getnonce x0
  | .auth x0 x1 x2 x3 => auth x0 x1 x2 x3
  | .logout x0 => logout x0
  | .unlock x0 => unlock x0
  | .secHash x0 x1 x2 x3 => secHash x0 x1 x2 x3
  | .hmac x0 x1 x2 x3 x4 => hmac x0 x1 x2 x3 x4
  | .gcmEnc x0 x1 x2 x3 x4 x5 => gcmEnc x0 x1 x2 x3 x4 x5
  | .gcmDec x0 x1 x2 x3 x4 x5 x6 x7 => gcmDec x0 x1 x2 x3 x4 x5 x6 x7
  | .xtsEnc x0 x1 x2 x3 x4 x5 x6 => xtsEnc x0 x1 x2 x3 x4 x5 x6
  | .xtsDec x0 x1 x2 x3 x4 x5 x6 => xtsDec x0 x1 x2 x3 x4 x5 x6
  | .sign x0 x1 x2 x3 => sign x0 x1 x2 x3
  | .verify x0 x1 x2 x3 x4 => verify x0 x1 x2 x3 x4
  | .ecdh x0 x1 x2 => ecdh x0 x1 x2
  | .keygen x0 x1 x2 x3 => keygen x0 x1 x2 x3
  | .wrap x0 x1 x2 => wrap x0 x1 x2
  | .unwrap x0 x1 x2 x3 x4 => unwrap x0 x1 x2 x3 x4
  | .keydel x0 x1 => keydel x0 x1
  | .random x0 x1 x2 => random x0 x1 x2
  | .attest x0 x1 => attest x0 x1
  | .otpKey x0 x1 x2 x3 x4 => otpKey x0 x1 x2 x3 x4
  | .otpRevoke x0 x1 => otpRevoke x0 x1
  | .floor x0 x1 x2 x3 => floor x0 x1 x2 x3
  | .otpConfig x0 x1 => otpConfig x0 x1
  | .destroy x0 => destroy x0
  | .entropyHealthFail => entropyHealthFail
  | .tamperMonitorTrip x0 => tamperMonitorTrip x0
  | .debugRelock => debugRelock
  | .recordPost => recordPost
  | .periodic => periodic
  | .bgRetire x0 => bgRetire x0
  | .retirementFinish => retirementFinish
  | .journalPatrol => journalPatrol
  | .journalPatrolEnd => journalPatrolEnd
  | .acRefresh => acRefresh
  | .flitCrcFailure x0 => flitCrcFailure x0
  | .retryWindow x0 => retryWindow x0
  | .throttleHoldEnd x0 => throttleHoldEnd x0
  | .vddqLoss x0 x1 => vddqLoss x0 x1
  | .rtcCrystalInUse => rtcCrystalInUse
  | .uartTxByte => uartTxByte
  | .aerError x0 x1 => aerError x0 x1
  | .d3hotTransition x0 => d3hotTransition x0
end Sys2Proof.Proofs.Rows

namespace Sys2Proof.Proofs.Fuses
open Sys2Proof Sys2Proof.Machine

/-- Settles O9: at reset the hardware is the one the log describes, and the empty OTP holds no bit. -/
theorem resetFuses : Obligations.ResetFuses := by
  have empty : ∀ a, ({} : Mem).byte a = 0#8 := fun _ => rfl
  refine ⟨⟨rfl, fun a i h => ?_⟩, empty⟩
  simp [empty] at h

end Sys2Proof.Proofs.Fuses

/-!
The configuration CRC (R61–R63), and what bay code writes in its own registers (R141, R205–R234).
-/
namespace Sys2Proof.Proofs.BayCode
open Sys2Proof Sys2Proof.Machine Running

/-- With no wide reset a completed pass acts at once. -/
theorem cfgCrcPass_runs {s t : State} (h : s.wideHeld = false) (ht : s.start.crcPass = t) :
    exec .cfgCrcPass s = .next (s.finish t) := by
  have hs : s.start.wideHeld = false := h
  exact runs (f := fun t => if t.wideHeld then t else t.crcPass) rfl ((if_neg (by simp [hs])).trans ht)

/-- Settles O13: the four outcomes of `State.crcPass_result`. -/
theorem cfgCrcPass : Obligations.CfgCrcPass := by
  intro s hw v hv
  have e := s.start.crcPass_result hv
  rw [s.reg_of_start, s.reg_of_start, s.reg_of_start] at e
  refine ⟨fun h0 => ?_, fun h1 heq => ?_, fun h1 hne hm => ?_, fun h1 hne hm hd => ?_⟩
  · refine cfgCrcPass_runs hw (e.trans (if_pos ?_))
    simp [h0]
  · refine cfgCrcPass_runs hw (e.trans ((if_neg ?_).trans (if_pos heq)))
    simp [h1]
  · have hm' : s.start.regs.mism = 0 := hm
    refine cfgCrcPass_runs hw (e.trans ((if_neg ?_).trans ((if_neg hne).trans ?_)))
    · simp [h1]
    · rw [hm']
      rfl
  · have hm' : s.start.regs.mism = 1 := hm
    have hd' : s.start.regs.drifted = false := hd
    refine cfgCrcPass_runs hw (e.trans ((if_neg ?_).trans ((if_neg hne).trans ?_)))
    · simp [h1]
    · rw [hm', hd']
      rfl

/-- A write by code of bay b, privileged for the register, is the bay's own. -/
theorem bayIo_runs {c : Instr} {s : State} {b a : Nat} {v : Word} {f : Bay → Bay}
    (hc : exec c s = s.run fun t => t.bayIo b a v) (h : s.codeRuns b = true) (hp : ioPriv a ≤ (s.bay b).ctx.priv)
    (hf : ((s.start.syncBay b).bay b).ioWrite a v = f ((s.start.syncBay b).bay b)) :
    exec c s = .next (s.finish ((s.start.syncBay b).onBay b f)) :=
  runs hc ((State.bayIo_eq (s := s.start) h hp).trans (State.onBay_congr hf))

/-- An entry-level register's write (R205–R234). -/
theorem ioWrite_ev (b : Bay) {a : Nat} (v : Word) (h : 0x3010 ≤ a ∧ a < 0x3100) : b.ioWrite a v = b.evWrite a v := by
  rw [Bay.ioWrite, if_neg (by omega), if_neg (by omega), if_neg (by omega), if_neg (by omega), if_pos h]

/-- IWR_DATA (R141). -/
theorem ioWrite_iwrData (b : Bay) (v : Word) : b.ioWrite 0x3104 v = b.iwrData v := rfl

theorem writePriv_lower {b : Bay} {v : Word} (h1 : b.sill = false) (h2 : b.ctx.check = false)
    (h3 : fld v 0 2 ≤ b.ctx.priv) (h4 : fld v 0 2 ≠ 3) :
    b.writePriv v = { b with ctx := b.ctx.later 0 (wd (fld v 0 2)) } :=
  if_neg (by simp [h1, h2, h3, h4])

theorem writeMask_eq {b : Bay} {v : Word} (h : b.ctx.check = false) :
    b.writeMask v = { b with ctx := b.ctx.later 1 (wd (fld v 0 3)) } :=
  if_neg (by simp [h])

/-- Due mode changes act in a bay whose code runs. -/
theorem modesTake_runs {s : State} {b : Nat} {f : Bay → Bay} (h : s.codeRuns b = true)
    (hf : ({ s.bay b with ctx := (s.bay b).ctx.modesDue } : Bay) = f (s.bay b)) :
    exec (.modeChangeEffect b) s = .next (s.finish (s.start.onBay b f)) :=
  runs rfl ((if_pos h).trans (State.onBay_congr (s := s.start) hf))

/-- A single change whose three bundles have run is applied, and none waits. -/
theorem modesDue_single {c : Ctx} {m : ModeChange} (h : c.modes = [m]) (h0 : m.count = 0) :
    c.modesDue = { c.applyMode m with modes := [] } := by
  simp [Ctx.modesDue, h, h0]

/-- Settles O14: the three writes join the changes that wait; one whose bundles have run is applied. -/
theorem modeChanges : Obligations.ModeChanges := by
  intro s b hr hp
  have ev {a : Nat} (ha : 0x3010 ≤ a ∧ a < 0x3060) : ioPriv a ≤ (s.bay b).ctx.priv := by
    refine le_trans (le_of_eq ?_) hp
    rw [ioPriv, if_neg (by omega), if_neg (by omega), if_pos (by omega)]
  refine ⟨fun v h1 h2 h3 h4 => ?_, fun v h1 => ?_, fun v => ?_, fun v h => ?_, fun v h => ?_, fun v h => ?_⟩
  · refine bayIo_runs rfl hr (ev (by omega)) ((ioWrite_ev _ v (by omega)).trans (writePriv_lower ?_ ?_ ?_ h4))
    · simpa using h1
    · simpa using h2
    · simpa using h3
  · refine bayIo_runs rfl hr (ev (by omega)) ((ioWrite_ev _ v (by omega)).trans (writeMask_eq ?_))
    simpa using h1
  · exact bayIo_runs rfl hr (ev (by omega)) (ioWrite_ev _ v (by omega))
  · exact modesTake_runs hr (by rw [modesDue_single h rfl, Ctx.applyMode, ← Nat.min_def]; rfl)
  · exact modesTake_runs hr (by rw [modesDue_single h rfl]; rfl)
  · exact modesTake_runs hr (by rw [modesDue_single h rfl]; rfl)

theorem plbDrop_cons {c : Ctx} (h : c.plumb ≠ []) :
    c.plbDrop = { c with plumb := c.plumb.dropLast, spilled := satAdd 0xFFFF c.spilled 1 } := if_neg h

theorem plbFill_room {c : Ctx} {v : Word} (h : c.plumb.length < 512) :
    c.plbFill v = { c with plumb := c.plumb ++ [fld v 2 14 * 4], spilled := c.spilled - 1 } := if_neg (by omega)

/-- A structural register's write by code of its own bay (R234). -/
theorem ioWrite_struct (b : Bay) {o : Nat} (v : Word) (h : structAddr o = true) :
    b.ioWrite o v = { b with str := { b.str with own := b.str.own ++ [(o, v)] } } := by
  obtain ⟨h1, h2⟩ := Laws.BayCode.struct_range h
  rw [Bay.ioWrite, if_neg (by omega), if_neg (by omega), if_neg (by omega), if_neg (by omega), if_neg (by omega),
    if_neg (by omega), if_pos h]

/-- A host or sill write of a structural register in the window of a reached bay (R100). -/
theorem bayWrite_struct {s : State} (ag : Agent) {b o : Nat} (v : Word) (hr : s.bayReached b = true)
    (h : structAddr o = true) : s.bayWrite ag b o v = s.structWrite b o v := by
  obtain ⟨h1, h2⟩ := Laws.BayCode.struct_range h
  rw [State.bayWrite, if_neg (by simp [hr]), if_neg (by omega), if_pos (by omega)]

theorem structWrite_open {s : State} {b o : Nat} (v : Word) (h : structAddr o = true) (ho : s.structOpen b = true) :
    s.structWrite b o v = s.onBay b fun c => { c with str := { c.str with stored := c.str.stored ++ [(o, v)] } } :=
  if_pos (by simp [h, ho])

/-- R234: code of bay b, machine privileged, writes a structural register of its own. -/
theorem structural_own {s : State} {b o : Nat} {v : Word} (h : structAddr o = true) (hr : s.codeRuns b = true)
    (hp : 2 ≤ (s.bay b).ctx.priv) :
    s.structural (.bay b) b o v =
      if (s.bay b).state = 3 ∧ !(s.bay b).ctx.check ∧ b ≠ 256 then s.onBay b fun c => c.faultHere 0x05 (wd o)
      else s.onBay b fun c => c.ioWrite o v := by
  simp [State.structural, h, hr, hp]

theorem start_beingRaised (s : State) (b : Nat) : s.start.beingRaised b = s.beingRaised b := rfl

theorem structOpen_of {s : State} {b : Nat} (h : (s.bay b).state = 1 ∨ (s.bay b).state = 2)
    (hn : s.beingRaised b = false) : s.structOpen b = true := by
  simp [State.structOpen, h, hn]

theorem codeRuns_of {s : State} {b : Nat} (h : s.coreHere b = true) (hs : (s.bay b).state = 3 ∨ (s.bay b).state = 2) :
    s.codeRuns b = true := by
  simp [State.codeRuns, h, hs]

/-- R100: the host's or the sill core's write goes through the bay's window. -/
theorem structural_window {s : State} {ag : Agent} {b o : Nat} {v : Word} (ha : ag = .host ∨ ag = .sill)
    (h : structAddr o = true) (hw : s.wideHeld = false) (hb : b < 256) (hr : s.bayReached b = true) :
    s.structural ag b o v = s.structWrite b o v := by
  obtain ⟨-, ho⟩ := Laws.BayCode.struct_range h
  rw [← bayWrite_struct ag v hr h, ← s.regWrite_window ag v hw hb (by omega)]
  rcases ha with rfl | rfl <;> exact if_pos h

/-- Settles O15: staging and the plumb stack are `Bay.ioWrite` at their registers; a structural write is stored or faults
by the three branches of `State.structural`. -/
theorem structureStagePlumb : Obligations.StructureStagePlumb := by
  refine ⟨fun s b hr hp => ⟨fun v h => ?_, fun v h => ?_, fun h => ?_, fun v h => ?_⟩, fun s b o v hs => ⟨?_, ?_, ?_⟩⟩
  · refine bayIo_runs rfl hr hp ((ioWrite_iwrData _ v).trans (if_neg ?_))
    simpa using h
  · refine bayIo_runs rfl hr hp ((ioWrite_iwrData _ v).trans (if_pos ?_))
    simpa using h
  · have hc : ((s.start.syncBay b).bay b).ctx.plumb ≠ [] := by simpa using h
    exact bayIo_runs rfl hr hp (congrArg (fun x => { (s.start.syncBay b).bay b with ctx := x }) (plbDrop_cons hc))
  · have hc : ((s.start.syncBay b).bay b).ctx.plumb.length < 512 := by simpa using h
    exact bayIo_runs rfl hr hp (congrArg (fun x => { (s.start.syncBay b).bay b with ctx := x }) (plbFill_room hc))
  · intro hh hp hm
    have hr : s.start.codeRuns b = true := codeRuns_of (s := s.start) hh (by
      rcases hm with h | ⟨h, -⟩
      · exact .inr h
      · exact .inl h)
    refine runs rfl ((structural_own hs hr hp).trans ((if_neg ?_).trans (State.onBay_congr (ioWrite_struct _ v hs))))
    rintro ⟨h3, hc, hb⟩
    rcases hm with h | ⟨-, h | h⟩ <;> simp_all
  · intro ag ha hw hb hh hst hn
    have hr : s.start.bayReached b = true := s.start.bayReached_of hh (by
      show (s.bay b).state ≠ 0
      omega)
    have ho : s.start.structOpen b = true := structOpen_of (by simpa using hst) ((start_beingRaised s b).trans hn)
    have hw' : s.start.wideHeld = false := hw
    exact runs (f := fun t => t.structural ag b o v) rfl ((structural_window ha hs hw' hb hr).trans (structWrite_open v hs ho))
  · intro hh hb hp h3 hc
    have hr : s.start.codeRuns b = true := codeRuns_of (s := s.start) hh (.inl h3)
    exact runs rfl ((structural_own hs hr hp).trans (if_pos ⟨h3, by simp [hc], hb⟩))

end Sys2Proof.Proofs.BayCode
namespace Sys2Proof.Proofs.Queue
open Sys2Proof Sys2Proof.Machine

/-- A step with a command at the front of the queue runs that command. -/
theorem step_front {c : Instr} {rest : List Instr} {s : State} (h : s.pending = c :: rest) :
    step s = exec c { s with pending := rest } := by
  simp only [step, h]

/-- With no command waiting a step is the idle microsecond. -/
theorem step_idle {s : State} (h : s.pending = []) : step s = s.run State.microsecond := by
  simp only [step, h]

/-- Settles O1: `exec_queue` says that a command leaves the queue as it finds it. -/
theorem stepRunsFrontCommand : Obligations.StepRunsFrontCommand := by
  intro c rest s h
  obtain ⟨t, ht, hq, -⟩ := exec_queue c { s with pending := rest } []
  exact ⟨step_front h, t, (step_front h).trans ht, hq⟩

/-- Settles O2: one command by `exec_queue`, the queue by induction over it, and any number of steps since every step
answers a next state. -/
theorem queueRunsInOrder : Obligations.QueueRunsInOrder := by
  refine ⟨fun c s q => ?_, fun cs rest s => Laws.Whole.run_queue cs rest s, Laws.Whole.runsFor⟩
  obtain ⟨t, ht, -, hq⟩ := exec_queue c s q
  exact ⟨t, ht, hq⟩

/-- Settles O3: the closing rounds leave a calm state alone. -/
theorem calmStateStays : Obligations.CalmStateStays := fun s _ h => s.finish_of_calm h

/-- Settles O4: the microsecond runs from a state that has sent nothing out. -/
theorem idleMicrosecond : Obligations.IdleMicrosecond := by
  intro s hp hw
  exact ⟨_, (step_idle hp).trans (ran rfl), Laws.Whole.microsecond_eq s.start hw⟩

end Sys2Proof.Proofs.Queue


/-!
Timers, traces, ledgers and throttling of bays (R111, R171, R186, R193, R486).
-/
namespace Sys2Proof.Proofs.BayUnits
open Sys2Proof Sys2Proof.Machine Running

/-- R171: an enabled timer at 1 expires in a bay that runs and is not held. -/
theorem timerExpires_eq {s : State} {b n : Nat} (hc : s.coreHere b = true) (hst : (s.bay b).state = 3)
    (hh : (s.bay b).held = false) (hn : n < 4) (he : (s.bay b).tmr.counts n = true)
    (h1 : (s.bay b).tmr.count n = 1#32) :
    s.timerExpires b n = s.onBay b fun c => { c with tmr := (c.tmr.dec n).expire n } :=
  if_pos (by simp [hc, hst, hh, hn, he, h1])

/-- A timer that counts from 1 takes its reload value, or stops at 0. -/
theorem count_dec_one {t : Tmr} {n : Nat} (hc : t.counts n = true) (h1 : t.count n = 1#32) :
    (t.dec n).count n = if bitAt t.ctl (4 + n) then tgetD 0#32 t.rld n else 0#32 := by
  rw [Tmr.dec, if_pos hc, h1]
  exact tgetD_tsetD_same _ _ _ _

theorem stat_dec (t : Tmr) (n : Nat) : (t.dec n).stat = t.stat := by
  unfold Tmr.dec
  split <;> rfl

theorem coreHere_of {s : State} {b : Nat} (hb : b < 256) (h : s.bentHere (b / 16) = true) : s.coreHere b = true := by
  simp [State.coreHere, hb, h]

set_option maxRecDepth 4000 in
/-- LEDGER_CTL of every bay has a row, of a kind that is not SQ (R191). -/
theorem ledgerRows : ∀ n : Fin 256, ∃ r, regRow (0x9403C + 0x40 * n.val) = some r ∧ r.kind ≠ .sq := by decide

/-- R193: LEDGER_CTL.CLEAR of bay b. -/
theorem regWrite_ledgerClear {s : State} {b : Nat} (ag : Agent) (hb : b < 256) (h : s.bentHere (b / 16) = true)
    (hr : s.reachable (0x9403C + 0x40 * b) = true) :
    s.regWrite ag (0x9403C + 0x40 * b) 1#32 = s.onBay b Bay.ledgerClear := by
  obtain ⟨r, hrow, hk⟩ := ledgerRows ⟨b, hb⟩
  have place : (0x9403C + 0x40 * b - 0x94000) / 0x40 = b := by omega
  rw [s.regWrite_err ag _ hr hrow hk (by omega) (by omega), if_pos (by omega), State.ledgerWrite, if_neg (by omega),
    if_pos (by omega), place]
  exact if_pos (by simp [h, bitAt])

/-- R191: the ledger of a bent that is there answers whenever no wide reset runs. -/
theorem reachable_ledger {s : State} {b : Nat} (hb : b < 256) (h : s.bentHere (b / 16) = true)
    (hw : s.wideHeld = false) : s.reachable (0x9403C + 0x40 * b) = true := by
  have bent : (0x9403C + 0x40 * b - 0x94000) / 0x400 = b / 16 := by omega
  have here : s.unitHere (0x9403C + 0x40 * b) = true := by
    rw [State.unitHere, if_neg (by omega), if_neg (by omega), if_neg (by omega), if_neg (by omega), if_pos (by omega),
      bent, h]
  have live : s.blockLive (0x9403C + 0x40 * b) = true := by
    rw [State.blockLive, here, if_neg (by omega), if_neg (by omega), if_neg (by omega), if_neg (by omega),
      if_neg (by omega)]
    rfl
  have block : blockOf (0x9403C + 0x40 * b) = none := by
    rw [blockOf, if_neg (by omega), if_neg (by omega), if_neg (by omega)]
  have quiet : s.pulsed (0x9403C + 0x40 * b) = false := by
    unfold State.pulsed
    split <;> simp [block]
  exact (s.reachable_iff _).2 ⟨hw, by rw [State.regDown, live, quiet]; rfl⟩

/-- R111: a trace control write by the host or the sill core, debug unlocked. -/
theorem bayRegister_trace {s : State} {ag : Agent} {b : Nat} (v : Word) (ha : ag = .host ∨ ag = .sill)
    (hw : s.wideHeld = false) (hb : b < 256) (hr : s.bayReached b = true) (hd : s.debugLocked 1 = false) :
    s.bayRegister ag b 0x5000 v = s.traceCtl b v := by
  have h : s.bayWrite ag b 0x5000 v = s.traceCtl b v := by simp [State.bayWrite, hr, hd]
  rw [← h, ← s.regWrite_window ag v hw hb (by omega)]
  rcases ha with rfl | rfl <;> rfl

/-- R111: an enable takes the bank it names, and starts at its first place with nothing dropped. -/
theorem traceCtl_enable {d : Dbg} {v : Word} (hv : bitAt v 0 = true) (hl : d.locked = false) (hb : fld v 8 8 < 192) :
    d.traceCtl v = { d with trcBank := fld v 8 8, trcOn := true, trcPtr := 0, trcDrop := 0 } := by
  simp [Dbg.traceCtl, hv, hl, hb]

theorem syncBay_locked {s : State} {b : Nat} : ((s.syncBay b).bay b).dbg.locked = s.debugLocked 1 := by
  rw [s.syncBay_bay b]
  split <;> rfl

/-- Settles O18: an expiry is `Tmr.dec` and `Tmr.expire`, a trace enable `Dbg.traceCtl` through the window, the clear
`Bay.ledgerClear` at LEDGER_CTL. -/
theorem bayTimersTraceLedger : Obligations.BayTimersTraceLedger := by
  intro s b hb hh
  refine ⟨fun n hn hst hheld he h1 => ?_, fun ag v ha hw hst hd hv => ?_, fun hw => ?_⟩
  · have hc : (s.bay b).tmr.counts n = true := by simp [Tmr.counts, he, h1]
    refine ⟨_, runs (f := fun t => t.timerExpires b n) rfl
      (timerExpires_eq (s := s.start) (coreHere_of hb hh) hst hheld hn hc h1), ?_⟩
    refine ⟨?_, ?_, ?_, fun k hk => s.start.bay_onBay_ne _ hk, rfl⟩
    · rw [State.bay_onBay]
      exact congrArg (·.event n) (stat_dec _ n)
    · rw [State.bay_onBay]
      exact count_dec_one hc h1
    · rw [State.bay_onBay]
      rfl
  · have hr : s.start.bayReached b = true := s.start.bayReached_of hh hst
    refine runs (f := fun t => t.bayRegister ag b 0x5000 (v ||| 1#32)) rfl ((bayRegister_trace (s := s.start) _ ha hw hb hr hd).trans ?_)
    refine State.onBay_congr (congrArg (fun d => { (s.start.syncBay b).bay b with dbg := d }) ?_)
    refine traceCtl_enable ?_ (syncBay_locked.trans hd) hv
    simp [bitAt]
  · exact runs (f := fun t => t.regWrite .host (0x9403C + 0x40 * b) 1#32) rfl
      (regWrite_ledgerClear .host hb hh (reachable_ledger (s := s.start) hb hh hw))

/-- Settles O19: a period's start and end act on each bay of the bent, and the adjustment on each present bent. -/
theorem throttling : Obligations.Throttling := by
  intro s n
  have folded (f : Bay → Bay) (hf : ∀ x, f (f x) = f x) (k : Nat) :
      ((bentBays n).foldl (fun t b => t.onBay b f) s.start).bay k = if k / 16 = n then f (s.bay k) else s.bay k := by
    simp only [State.bay_foldl_onBay f hf, mem_bentBays, State.bay_of_start]
  refine ⟨fun ho hd => ?_, ⟨_, runs (f := fun t => t.throttleEnd n) rfl rfl, folded _ fun _ => rfl⟩, fun hw => ?_⟩
  · have hs : (s.start.on n && decide (tgetD 0 s.start.rst.duty n ≠ 0)) = true :=
      Bool.and_eq_true_iff.2 ⟨ho, decide_eq_true hd⟩
    exact ⟨_, runs (f := fun t => t.throttlePeriod n) rfl (if_pos hs), folded _ fun _ => rfl⟩
  obtain ⟨hduty, hbays⟩ := Laws.TestAndTimers.adj_list (List.range 16) List.nodup_range s.start
  have hw' : s.start.wideHeld = false := hw
  refine ⟨_, runs (f := fun t => if t.wideHeld then t else t.throttleAdjust) rfl (if_neg (by simp [hw'])), ?_, ?_, hbays⟩
  · intro k hk hh
    exact (hduty k).trans (if_pos ⟨List.mem_range.2 hk, hh⟩)
  · intro k hh
    refine (hduty k).trans (if_neg ?_)
    rintro ⟨-, h⟩
    exact absurd (hh.symm.trans h) (by simp)

end Sys2Proof.Proofs.BayUnits


/-!
Clocks, steps, arrivals and entries of a bay (R73–R92, R112, R172–R190, R206–R253).
-/
namespace Sys2Proof.Proofs.BayClock
open Sys2Proof Sys2Proof.Machine Running Laws.RunBay

/-- What `State.bundle` does where there is a core: its clock, then the check of its reach. -/
theorem bundle_eq {s : State} {b : Nat} (u : List (Nat × Nat × Nat)) (h : s.coreHere b = true) :
    s.bundle b u = (((if b < 256 then s.onBay b fun c => c.upset u else s).syncBay b).onBay b Bay.tick).reachGuard b
      (s.bay b).str := if_pos h

/-- One change of bay b and the check of its reach: the bay's core is what the change made, and no other bay changes. -/
theorem guarded_core (s u : State) {b : Nat} (f : Bay → Bay) (x : Struct) (hu : ∀ k, k ≠ b → u.bay k = s.bay k) :
    SameCore (f (u.bay b)) (((u.onBay b f).reachGuard b x).bay b) ∧
      ∀ k, k ≠ b → ((u.onBay b f).reachGuard b x).bay k = s.bay k := by
  obtain ⟨hc, hk⟩ := reachGuard_core (u.onBay b f) b x
  rw [State.bay_onBay] at hc
  exact ⟨hc, fun k h => ((hk k h).trans (State.bay_onBay_ne u f h)).trans (hu k h)⟩

theorem bay_syncBay_ne (s : State) {k j : Nat} (h : j ≠ k) : (s.syncBay k).bay j = s.bay j := State.bay_onBay_ne s _ h

/-- A step written in the window of a reached bay in TEST, debug unlocked (R112). -/
theorem regWrite_step {s : State} (ag : Agent) {b : Nat} (hb : b < 256) (hw : s.wideHeld = false)
    (hr : s.bayReached b = true) (hd : s.debugLocked 1 = false) (hst : (s.bay b).state = 2) :
    s.regWrite ag (bayWindow b + 0x5010) 1#32 = ((s.syncBay b).onBay b Bay.step).reachGuard b (s.bay b).str := by
  have h : s.bayStep b = ((s.syncBay b).onBay b Bay.step).reachGuard b (s.bay b).str := by simp [State.bayStep, hst, hd]
  rw [s.regWrite_window ag _ hw hb (by omega), ← h]
  simp [State.bayWrite, hr, hd, bitAt]

/-- A bay as its clock or step finds it, brought up to date with the device. -/
theorem syncBay_bay_lt (s : State) {b : Nat} (hb : b < 256) :
    (s.syncBay b).bay b = { s.bay b with id := b, dbg := { (s.bay b).dbg with locked := s.debugLocked 1 } } := by
  rw [s.syncBay_bay b, if_neg (by omega)]

section
variable {s : State} {b : Nat} (hb : b < 256) (hh : s.bentHere (b / 16) = true) {ops : List Op} {n : Nat}
  (hq : (s.bay b).quiet) (hops : (s.bay b).bundleAt ops n) (hr : regMoves ops)
include hb hh hq hops hr

/-- One clock of a quiet bay before a bundle of register moves (R73, R84, R85). -/
theorem bundle_moves (hst : (s.bay b).state = 3) :
    ∃ t, exec (.bundleIssue b []) s = .next (s.finish t) ∧ (t.bay b).gp = gpAfter (s.bay b).gp (s.bay b).gpr ops ∧
      (t.bay b).pipe.pc = (s.bay b).advance (s.bay b).pipe.pc n ∧
      (t.bay b).tmr.cyc = ((s.bay b).tmr.cyc + 1) % 2 ^ 64 ∧ (t.bay b).guards = (s.bay b).guards ∧
      (t.bay b).scratch = (s.bay b).scratch ∧ (t.bay b).istore = (s.bay b).istore ∧ (t.bay b).state = 3 ∧
      (∀ k, k ≠ b → t.bay k = s.bay k) ∧ t.regs = s.regs := by
  have hc : s.start.coreHere b = true := BayUnits.coreHere_of hb hh
  have found := syncBay_bay_lt (s.start.onBay b fun c => c.upset []) hb
  rw [State.bay_onBay] at found
  obtain ⟨hgp, hpc, hcyc, hg, hs, hi, h3, -, hstr⟩ := Bay.tick_regMoves _ (quiet_locked hq (id := b)
    (l := (s.start.onBay b fun c => c.upset []).debugLocked 1)) hst ops n hops hr
  have e := bundle_eq [] hc
  rw [if_pos hb, reachGuard_same] at e
  · refine ⟨_, runs (f := fun t => t.bundle b []) rfl e, ?_⟩
    rw [State.bay_onBay, found]
    exact ⟨hgp, hpc, hcyc, hg, hs, hi, h3,
      fun k hk => ((State.bay_onBay_ne _ _ hk).trans (bay_syncBay_ne _ hk)).trans (State.bay_onBay_ne _ _ hk), rfl⟩
  · rw [State.bay_onBay, found]
    exact hstr

/-- One step of a quiet bay in TEST before a bundle of register moves (R112). -/
theorem step_moves (ag : Agent) (hst : (s.bay b).state = 2) (hw : s.wideHeld = false) (hd : s.debugLocked 1 = false)
    (hm : (s.bay b).march = false) (hs : (s.bay b).str.stored = []) :
    ∃ t, exec (.step ag b) s = .next (s.finish t) ∧ (t.bay b).gp = gpAfter (s.bay b).gp (s.bay b).gpr ops ∧
      (t.bay b).pipe.pc = (s.bay b).advance (s.bay b).pipe.pc n ∧ (t.bay b).tmr.cyc = (s.bay b).tmr.cyc ∧
      (t.bay b).guards = (s.bay b).guards ∧ (t.bay b).scratch = (s.bay b).scratch ∧
      (t.bay b).istore = (s.bay b).istore ∧ (t.bay b).state = 2 ∧ (∀ k, k ≠ b → t.bay k = s.bay k) ∧
      t.regs = s.regs := by
  have hr' : s.start.bayReached b = true := s.start.bayReached_of hh (by simp [hst])
  have found := syncBay_bay_lt s.start hb
  obtain ⟨hgp, hpc, hg, hsc, hi, h2, hstr, hcyc⟩ := Bay.step_regMoves _ (quiet_locked hq (id := b)
    (l := s.start.debugLocked 1)) hst hm hs ops n hops hr
  have e := regWrite_step (s := s.start) ag hb hw hr' hd hst
  rw [reachGuard_same] at e
  · refine ⟨_, runs (f := fun t => t.regWrite ag (bayWindow b + 0x5010) 1#32) rfl e, ?_⟩
    rw [State.bay_onBay, found]
    exact ⟨hgp, hpc, hcyc, hg, hsc, hi, h2, fun k hk => (State.bay_onBay_ne _ _ hk).trans (bay_syncBay_ne _ hk), rfl⟩
  · rw [State.bay_onBay, found]
    exact hstr

end

/-- Settles O20: a bundle that goes by `Bay.tick_goes` and `Bay.step_goes`, register moves by `Bay.tick_regMoves` and
`Bay.step_regMoves`; the check of the bay's reach keeps its core. -/
theorem moveBundles : Obligations.MoveBundles := by
  refine ⟨?_, ?_, fun s b ops n hb hh hq hops hr =>
    ⟨bundle_moves hb hh hq hops hr, fun ag => step_moves hb hh hq hops hr ag⟩⟩
  · intro s b u ops n c hc x hst hh ht hi hg
    have frame : ∀ k, k ≠ b →
        ((if b < 256 then s.start.onBay b fun y => y.upset u else s.start).syncBay b).bay k = s.bay k := by
      intro k hk
      rw [bay_syncBay_ne _ hk]
      split
      · exact State.bay_onBay_ne _ _ hk
      · rfl
    obtain ⟨hcore, hk⟩ := guarded_core s _ Bay.tick (s.start.bay b).str frame
    exact ⟨_, runs (f := fun t => t.bundle b u) rfl (bundle_eq (s := s.start) u hc),
      (Bay.tick_goes x c ops n hst hh ht hi hg).toSameCore.trans hcore, hk⟩
  · intro s ag b ops n c e hb hhere hw hd x hst hm h1 h2 h3 hg he e1 e2 e3
    have hst' : (s.start.bay b).state = 2 := (s.start.syncBay_state b).symm.trans hst
    have hr : s.start.bayReached b = true := s.start.bayReached_of hhere (by omega)
    obtain ⟨hcore, hk⟩ := guarded_core s (s.start.syncBay b) Bay.step (s.start.bay b).str fun k => bay_syncBay_ne _
    obtain ⟨hgp, hgu, hop, hsc, his, hstate, hpc, -, -⟩ := Bay.step_goes x c ops n hst hm h1 h2 h3 hg e he e1 e2 e3
    exact ⟨_, runs (f := fun t => t.regWrite ag (bayWindow b + 0x5010) 1#32) rfl
      (regWrite_step (s := s.start) ag hb hw hr hd hst'), hcore.gp.trans hgp, hcore.guards.trans hgu,
      hcore.opnds.trans hop, hcore.scratch.trans hsc, hcore.istore.trans his, hcore.state.trans hstate,
      hcore.pc.trans hpc, hk⟩

end Sys2Proof.Proofs.BayClock

/-!
Arrivals (R75, R89, R172, R183, R190): a due result, and a response to an outside access.
-/
namespace Sys2Proof.Proofs.BayArrivals
open Sys2Proof Sys2Proof.Machine Running

/-- A flight that alone is due is delivered: it leaves the list, and its ports take its result. -/
theorem resultArrives_due {b : Bay} {f : Flight} {l1 l2 : List Flight} (hl : b.pipe.flights = l1 ++ f :: l2)
    (hh : b.held = false) (ho : f.out = none) (hd : f.left ≤ 1 ∨ b.state = 2)
    (hg : ∀ g ∈ l1 ++ l2, g.ready = false ∧ b.resultDue f.unit f.inst g = false) :
    b.resultArrives f.unit f.inst =
      ({ b with pipe := { b.pipe with flights := l1 ++ l2 } } : Bay).finish { f with left := 0 } := by
  have due : b.resultDue f.unit f.inst f = true := by simp [Bay.resultDue, ho, hd]
  have done : ({ f with left := 0 } : Flight).ready = true := by simp [Flight.ready, ho]
  have others : ∀ l ⊆ l1 ++ l2,
      l.map (fun g : Flight => if b.resultDue f.unit f.inst g then { g with left := 0 } else g) = l := fun l h =>
    (List.map_congr_left (g := id) fun g hm => if_neg (by simp [(hg g (h hm)).2])).trans l.map_id
  have waits : ∀ l ⊆ l1 ++ l2, l.filter Flight.ready = [] := fun l h =>
    List.filter_eq_nil_iff.2 fun g hm => by simp [(hg g (h hm)).1]
  have stays : ∀ l ⊆ l1 ++ l2, (l.filter fun g => !g.ready) = l := fun l h =>
    List.filter_eq_self.2 fun g hm => by simp [(hg g (h hm)).1]
  have s1 : l1 ⊆ l1 ++ l2 := List.subset_append_left l1 l2
  have s2 : l2 ⊆ l1 ++ l2 := List.subset_append_right l1 l2
  have moves : b.movesOn f.unit f.inst = true := by simp [Bay.movesOn, hh]
  rw [Bay.resultArrives, if_pos moves, hl, List.map_append, List.map_cons, others l1 s1, others l2 s2, if_pos due]
  simp only [Bay.deliver, List.filter_append, List.filter_cons, waits l1 s1, waits l2 s2, stays l1 s1, stays l2 s2, done]
  rfl

/-- The response to an outside access of flight f, found by its serial number. -/
theorem find_flight {f : Flight} {l1 l2 : List Flight} (h : ∀ g ∈ l1 ++ l2, g.id ≠ f.id) :
    (l1 ++ f :: l2).find? (fun g => decide (g.id = f.id)) = some f := by
  have none1 : l1.find? (fun g => decide (g.id = f.id)) = none :=
    List.find?_eq_none.2 fun g hm => by simpa using h g (List.mem_append_left _ hm)
  simp [List.find?_append, none1]

/-- R89, R183: a response counted off an access that is not yet readable. -/
theorem arrive_eq {o : Outside} (h : o.readable = none) (wall tag : Nat) :
    o.arrive wall tag = { o with
      pending := o.pending - 1, tag := joinTag o.tag tag, bank := o.leaf, leaf := none,
      readable := if o.pending - 1 = 0 then some (wall + 1) else none } := by
  by_cases h0 : o.pending - 1 = 0 <;> simp [Outside.arrive, h, h0]

/-- A change of the one flight with f's serial number. -/
theorem map_flight {f : Flight} {l1 l2 : List Flight} (g : Flight → Flight) (h : ∀ x ∈ l1 ++ l2, x.id ≠ f.id) :
    (l1 ++ f :: l2).map (fun x => if x.id = f.id then g x else x) = l1 ++ g f :: l2 := by
  have same : ∀ l ⊆ l1 ++ l2, l.map (fun x : Flight => if x.id = f.id then g x else x) = l := fun l hl =>
    (List.map_congr_left (g := id) fun x hm => if_neg (h x (hl hm))).trans l.map_id
  rw [List.map_append, List.map_cons, if_pos rfl, same l1 (List.subset_append_left l1 l2),
    same l2 (List.subset_append_right l1 l2)]

/-- R312: channel time touches no bay. -/
theorem channelTime_bays (s : State) (c ns : Nat) : (s.channelTime c ns).bays = s.bays :=
  (Laws.Channels.channelTime_chans (C := fun _ => True) s c ns).1.bays

/-- R89: a response to an access that is not parked, not sent to a peer and not yet readable reaches its bay. -/
theorem windowResponse_bays {s : State} {b ns : Nat} {f : Flight} {o : Outside}
    (hf : (s.bay b).pipe.flights.find? (fun g => decide (g.id = f.id)) = some f) (ho : f.out = some o)
    (hp : o.parked = false) (hr : o.remote = none) (hn : o.readable = none) (hst : (s.bay b).state ≠ 2) :
    (s.windowResponse b f.id ns).bays = (s.onBay b fun x => x.arrive f.id 0).bays := by
  have running : s.onBay b (fun x =>
      if (x.arrive f.id 0).state = 2 then (x.arrive f.id 0).deliver else x.arrive f.id 0) =
      s.onBay b fun x => x.arrive f.id 0 := State.onBay_congr (if_neg hst)
  simp only [State.windowResponse, hf, ho, hp, hr, hn, Option.isSome_none, Bool.or_self, Bool.false_eq_true, if_false]
  rw [running]
  split
  · exact channelTime_bays _ _ _
  · rfl

/-- Settles O21: an arriving result is the delivery of its flight, a response the change of the one flight it answers. -/
theorem arrivals : Obligations.Arrivals := by
  intro s b f l1 l2 hl
  refine ⟨fun hr hh ho hd hg => ?_, fun o ns hid hst ho hp hrem hn => ?_⟩
  · have e := resultArrives_due hl hh ho hd hg
    obtain ⟨x, hx⟩ := Bay.finish_rest { s.bay b with pipe := { (s.bay b).pipe with flights := l1 ++ l2 } }
      { f with left := 0 }
    refine ⟨_, runs (f := fun t => t.resultArrives b f.unit f.inst) rfl (if_pos (c := s.start.codeRuns b = true) hr), ?_⟩
    rw [State.bay_onBay, State.bay_of_start, e]
    refine ⟨fun hlate hnd p v hv => ?_, fun op hlate => ?_, ?_, ?_, ?_, fun k hk => State.bay_onBay_ne _ _ hk⟩
    · rw [Bay.finish, hlate]
      exact Laws.RunBay.port_receiveAll f.unit f.inst f.poison f.res _ p v hnd hv
    · rw [Bay.finish, hlate]
      exact Bay.port_receive _ _ _ _ _ _
    all_goals rw [hx]
  · have hf : (s.start.bay b).pipe.flights.find? (fun g => decide (g.id = f.id)) = some f := by
      rw [State.bay_of_start, hl]
      exact find_flight hid
    have hb := windowResponse_bays (ns := ns) hf ho hp hrem hn hst
    have at_ (k : Nat) : (s.start.windowResponse b f.id ns).bay k = (s.start.onBay b fun x => x.arrive f.id 0).bay k := by
      rw [State.bay, hb]
      rfl
    refine ⟨_, runs (f := fun t => t.windowResponse b f.id ns) rfl rfl, ?_⟩
    rw [at_, State.bay_onBay, State.bay_of_start]
    refine ⟨?_, rfl, rfl, fun k hk => (at_ k).trans (State.bay_onBay_ne _ _ hk)⟩
    have h := map_flight (fun g => { g with out := g.out.map fun o => o.arrive (s.bay b).tmr.wall 0 }) hid
    rw [← hl, ho, Option.map_some, arrive_eq hn] at h
    exact h

end Sys2Proof.Proofs.BayArrivals

/-!
Entries (R206–R222, R252, R253): a fault, an event and a dispatch make their frame and take their vector.
-/
namespace Sys2Proof.Proofs.BayEntries
open Sys2Proof Sys2Proof.Machine Running

/-- A change of bay b that a command makes at its boundary: that bay is what the change makes it, no other changes. -/
theorem boundary_runs {c : Instr} {s : State} {b : Nat} {g : State → State} {f : Bay → Bay} (hc : exec c s = s.run g)
    (hg : g s.start = (s.start.syncBay b).onBay b f) {y : Bay} (hy : f ((s.start.syncBay b).bay b) = y) :
    ∃ t, exec c s = .next (s.finish t) ∧ t.bay b = y ∧ ∀ k, k ≠ b → t.bay k = s.bay k :=
  ⟨_, runs hc hg, (State.bay_onBay _ _ _).trans hy,
    fun _ hk => (State.bay_onBay_ne _ _ hk).trans (BayClock.bay_syncBay_ne _ hk)⟩

/-- With no mode change waiting, the boundary finds the context as it is. -/
theorem ctx_modesDue {x : Bay} (h : x.ctx.modes = []) : ({ x with ctx := x.ctx.modesDue } : Bay) = x := by
  rw [(Ctx.modes_nil x.ctx h).1]

theorem ctx_modesAll {x : Bay} (h : x.ctx.modes = []) : ({ x with ctx := x.ctx.modesAll } : Bay) = x := by
  rw [Ctx.modesAll_nil x.ctx h]

/-- A running bay that nothing holds stands at a boundary, unless a return drains with no fault detected. -/
theorem atRest_of {x : Bay} (h3 : x.state = 3) (hh : x.held = false) (hi : x.pipe.idle = 0)
    (hr : x.pipe.ret = none ∨ x.pipe.fault.isSome = true) : x.atRest = true := by
  rcases hr with h | h <;> simp [Bay.atRest, h3, hh, hi, h]

section
variable {x : Bay} (hm : x.ctx.modes = [])
include hm

/-- R213, R218: a user fault is entered at vector 1, supervisor privilege. -/
theorem takeFault_user {f : FaultReq} {idle : Nat} (hc : x.ctx.check = false) (ht : x.pendingTransfers < 2)
    (ho : f.origin = 0) (h5 : x.ctx.mask ≤ 5) :
    x.takeFault f idle = x.enter ⟨1, f.code, 6, 1, 6, f.info, x.vectorAt 1⟩ f.ret f.repu idle := by
  unfold Bay.takeFault
  rw [ctx_modesAll hm, if_neg (by simp [hc]), if_neg (by omega), if_pos ho, if_pos h5]

/-- R213, R219: a supervisor fault is entered at vector 2, machine privilege. -/
theorem takeFault_supervisor {f : FaultReq} {idle : Nat} (hc : x.ctx.check = false) (ht : x.pendingTransfers < 2)
    (ho : f.origin = 1) (h6 : x.ctx.mask ≤ 6) (hcode : f.code ≠ 0x12) :
    x.takeFault f idle = x.enter ⟨2, f.code, 7, 2, 7, f.info, x.vectorAt 2⟩ f.ret f.repu idle := by
  unfold Bay.takeFault
  rw [ctx_modesAll hm, if_neg (by simp [hc]), if_neg (by omega), if_neg (by omega), if_pos ho, if_pos h6, if_neg hcode]

/-- R208, R220: an event that is not a dispatch is entered at its vector and level. -/
theorem takeEvent_eq {n idle : Nat} {repu : Bool} (hn : n ≠ 0 ∨ x.sill = true) :
    x.takeEvent n repu idle = (x.enter (x.eventEntry n (x.levelAt n)) x.pipe.pc repu idle).consume n := by
  unfold Bay.takeEvent
  rw [if_neg (by rcases hn with h | h <;> simp [h]), ctx_modesAll hm]

/-- R252, R253: a dispatch starts the run of the next message at its slot's entry. -/
theorem dispatch_eq {idle : Nat} {l : Landed} {slot : Nat} {sl : Slot} (hp : x.pushOk = true)
    (hl : x.qio.next = some l) (hs : x.qio.slotOf l.task = some (slot, sl)) :
    x.dispatch idle = ((x.enter ⟨0xFF, 0, x.levelAt 0, 0, x.levelAt 0, l.msgWord, sl.entry⟩ x.pipe.pc false
      idle).beginRun l slot (x.gpr 63 - 16#32).toNat).setGpr 63 sl.stack := by
  unfold Bay.dispatch
  rw [ctx_modesAll hm]
  simp only [hl, hs, hp, if_true]

theorem takesFault_eq {f : FaultReq} (hr : x.atRest = true) (hf : x.pipe.fault = some f) :
    x.takesFault = x.takeFault { f with repu := f.repu || x.pipe.rep.isSome } 6 := by
  unfold Bay.takesFault
  rw [if_pos hr, hf, ctx_modesDue hm]
  rfl

end

/-- Consuming an event touches at most the SVC that raised it. -/
theorem consume_eq (x : Bay) (n : Nat) :
    x.consume n = { x with ctx := { x.ctx with svc := if n = 1 then none else x.ctx.svc } } := by
  unfold Bay.consume
  split <;> rfl

theorem gpr_consume (x : Bay) (n k : Nat) : (x.consume n).gpr k = x.gpr k := by
  rw [consume_eq]
  rfl

theorem entered_consume {x y : Bay} {e : Entry} {ret : Nat} {repu : Bool} (n : Nat) (h : x.entered e ret repu y) :
    x.entered e ret repu (y.consume n) := by
  rw [consume_eq]
  exact h

/-- The start of a run replaces no register but GP63. -/
theorem entered_beginRun {x y : Bay} {e : Entry} {ret : Nat} {repu : Bool} (l : Landed) (slot frame : Nat) (v : Word)
    (h : x.entered e ret repu y) : x.entered e ret repu ((y.beginRun l slot frame).setGpr 63 v) := by
  obtain ⟨h0, h1, h2, h3, h4, h5, h6, h7, h8, hgpr, h10, h11, h12⟩ := h
  exact ⟨h0, h1, h2, h3, h4, h5, h6, h7, h8, fun n hn => (Bay.gpr_setGpr_ne _ v hn).trans (hgpr n hn), h10, h11, h12⟩

section
variable {x : Bay} (h3 : x.state = 3) (hh : x.held = false) (hi : x.pipe.idle = 0) (hm : x.ctx.modes = [])
  (hc : x.ctx.check = false) (hf : x.pipe.fault = none) (hr : x.pipe.ret = none)
include h3 hh hi hm hc hf hr

/-- R208: between bundles, in a WAIT, or after an element of a repeat, the picked event is taken. -/
theorem takesEvent_picked {n : Nat} (hv : x.pipe.svcNow = none) (ht : x.dbg.testReq = false)
    (hn : n ≠ 0 ∨ x.sill = true)
    (hp : match x.pipe.rep with
      | some r => r.boundary = true ∧ x.pickAt x.ctx.mask false = some n
      | none => (x.pipe.waiting = true ∨ x.pipe.redirects = []) ∧ x.pickAt x.ctx.mask x.pipe.waiting = some n) :
    x.takesEvent = x.takeEvent n x.pipe.rep.isSome 6 := by
  have go (repu : Bool) : (if n = 0 ∧ (!x.sill) = true then x else x.takeEvent n repu 6) = x.takeEvent n repu 6 :=
    if_neg (by rcases hn with h | h <;> simp [h])
  unfold Bay.takesEvent
  rw [ctx_modesDue hm, if_neg (by simp [atRest_of h3 hh hi (.inl hr), hf, hc])]
  cases hrep : x.pipe.rep with
  | some r =>
    rw [hrep] at hp
    obtain ⟨hb, hpick⟩ := hp
    simp only [hv, hb, ht, hpick, go]
    rfl
  | none =>
    rw [hrep] at hp
    obtain ⟨hb, hpick⟩ := hp
    cases hw : x.pipe.waiting with
    | true =>
      rw [hw] at hpick
      simp only [hv, ht, hpick, go]
      rfl
    | false =>
      rw [hw] at hpick hb
      have hbound : x.boundary = true := by simpa [Bay.boundary, hc] using hb
      simp only [hv, ht, hbound, hpick, go]
      rfl

/-- R216: behind the SVC that raised it, event 1 is taken. -/
theorem takesEvent_svc {q : SvcReq} (hv : x.pipe.svcNow = some q) (hl : x.ctx.mask < x.levelAt 1)
    (hp : x.pipe.redirects = [] → x.pipe.rep = none → x.pickAt x.ctx.mask false = some 1) :
    x.takesEvent = ({ x with pipe := { x.pipe with svcNow := none } } : Bay).takeEvent 1 x.pipe.rep.isSome 6 := by
  unfold Bay.takesEvent
  rw [ctx_modesDue hm, if_neg (by simp [atRest_of h3 hh hi (.inl hr), hf, hc])]
  simp only [hv]
  unfold Bay.svcBoundary
  dsimp only
  rw [if_pos (by simp [hc]; exact hl)]
  split
  · next s hs =>
    split at hs
    · next hb =>
      have : x.pipe.redirects = [] ∧ x.pipe.rep = none := by simpa [Bay.boundary, hc] using hb
      obtain rfl : s = 1 := Option.some.inj (hs.symm.trans (hp this.1 this.2))
      rfl
    · cases hs
  · rfl

/-- R252: at a WAIT boundary where the dispatch is picked, it is taken. -/
theorem takesDispatch_picked (hv : x.pipe.svcNow = none) (hrep : x.pipe.rep = none) (hs : x.sill = false)
    (hw : x.pipe.waiting = true) (ht : x.dbg.testReq = false) (hp : x.pickAt x.ctx.mask true = some 0) :
    x.takesDispatch = x.dispatch 6 := by
  unfold Bay.takesDispatch
  rw [ctx_modesDue hm]
  exact if_pos (by simp [atRest_of h3 hh hi (.inl hr), hf, hv, hrep, hc, hw, ht, hs, hp])

end

/-- Settles O22: each entry is the one push of `Bay.enter_entered`, reached by the fault, event or dispatch that the
boundary takes. -/
theorem entries : Obligations.Entries := by
  intro s b hcore x h3 hh hi hm hc hpush
  have faults {y : Bay} := boundary_runs (c := .faultEntry b) (g := fun t => t.takesFault b) (y := y) rfl
    (if_pos (c := s.start.coreHere b = true) hcore)
  have events {y : Bay} := boundary_runs (c := .eventEntry b) (g := fun t => t.takesEvent b) (y := y) rfl
    (if_pos (c := s.start.coreHere b = true) hcore)
  refine ⟨fun f hf ht ho h5 => ?_, fun f hf ht ho h6 hcode => ?_, fun n hf hr hv ht hn hp => ?_,
    fun q hf hr hv hl hp => ?_, fun l slot sl hf hr hv hrep hs hw ht hp hnext hslot => ?_⟩
  · have e := (takesFault_eq hm (atRest_of h3 hh hi (.inr (by simp [hf]))) hf).trans (takeFault_user hm hc ht ho h5)
    obtain ⟨hent, hsp, -, hfault, -⟩ := x.enter_entered ⟨1, f.code, 6, 1, 6, f.info, x.vectorAt 1⟩ f.ret
      (f.repu || x.pipe.rep.isSome) 6 hpush
    obtain ⟨t, hrun, hb, hk⟩ := faults e
    rw [← hb] at hent hsp hfault
    exact ⟨t, hrun, hent, hsp, hfault, hk⟩
  · have e := (takesFault_eq hm (atRest_of h3 hh hi (.inr (by simp [hf]))) hf).trans
      (takeFault_supervisor hm hc ht ho h6 hcode)
    obtain ⟨hent, hsp, -, hfault, -⟩ := x.enter_entered ⟨2, f.code, 7, 2, 7, f.info, x.vectorAt 2⟩ f.ret
      (f.repu || x.pipe.rep.isSome) 6 hpush
    obtain ⟨t, hrun, hb, hk⟩ := faults e
    rw [← hb] at hent hsp hfault
    exact ⟨t, hrun, hent, hsp, hfault, hk⟩
  · have e := (takesEvent_picked h3 hh hi hm hc hf hr hv ht hn hp).trans (takeEvent_eq hm hn)
    obtain ⟨hent, hsp, -⟩ := x.enter_entered (x.eventEntry n (x.levelAt n)) x.pipe.pc x.pipe.rep.isSome 6 hpush
    obtain ⟨t, hrun, hb, hk⟩ := events e
    have hsp' := (gpr_consume _ n 63).trans hsp
    have hent' := entered_consume n hent
    rw [← hb] at hent' hsp'
    exact ⟨t, hrun, hent', hsp', hk⟩
  · let y : Bay := { x with pipe := { x.pipe with svcNow := none } }
    have e := (takesEvent_svc h3 hh hi hm hc hf hr hv hl hp).trans (takeEvent_eq (x := y) hm (.inl (by decide)))
    obtain ⟨hent, hsp, -⟩ := y.enter_entered (y.eventEntry 1 (y.levelAt 1)) y.pipe.pc x.pipe.rep.isSome 6 hpush
    obtain ⟨t, hrun, hb, hk⟩ := events e
    have hsp' := (gpr_consume _ 1 63).trans hsp
    have hent' := entered_consume 1 hent
    rw [← hb] at hent' hsp'
    exact ⟨t, hrun, hent', by rw [hb]; rfl, hsp', hk⟩
  · have e := (takesDispatch_picked h3 hh hi hm hc hf hr hv hrep hs hw ht hp).trans
      (dispatch_eq hm hpush hnext hslot)
    obtain ⟨hent, -, -, -, hqio, -⟩ := x.enter_entered
      ⟨0xFF, 0, x.levelAt 0, 0, x.levelAt 0, l.msgWord, sl.entry⟩ x.pipe.pc false 6 hpush
    obtain ⟨t, hrun, hb, hk⟩ := boundary_runs (c := .dispatchEntry b) (g := fun t => t.takesDispatch b) rfl
      (if_pos (c := s.start.coreHere b = true) hcore) e
    have hent' := entered_beginRun l slot (x.gpr 63 - 16#32).toNat sl.stack hent
    rw [← hb] at hent'
    exact ⟨t, hrun, hent', by rw [hb]; exact Bay.gpr_setGpr _ _ _, by rw [hb]; rfl, by rw [hb]; rfl,
      by rw [hb]; exact congrArg (·.landing.erase l) hqio, hk⟩

end Sys2Proof.Proofs.BayEntries


/-!
Messages (R27, R32, R34, R236, R241, R246–R250): departure, commit, waiting, refusal and landing.
-/
namespace Sys2Proof.Proofs.Messages
open Sys2Proof Sys2Proof.Machine Running

/-- R246, R247: the head message leaves for a queue of this device. -/
theorem depart_local {s : State} {b : Nat} {m : SendMsg} {rest : List SendMsg} (hq : s.qmRuns = true)
    (h : (s.bay b).qio.sendq = m :: rest) (ho : m.out = false) (hs : (s.bay b).storesBefore m.gate = false)
    (hd : fld m.trig 0 28 / 65536 = s.devId) :
    s.depart b = { s.onBay b fun c => c.onHead fun x => { x with out := true } with
      qm := { s.qm with transit := s.qm.transit ++
        [{ queue := fld m.trig 0 28 % 65536, prod := m.producer b, msg := (m.producer b).message s.devId m.words [],
           bay := some b, trig := m.trig, notq := m.notq }] } } := by
  unfold State.depart
  simp only [h, ho, hs, hq, hd]
  rfl

theorem bay_withQm (s : State) (m : Qm) (k : Nat) : ({ s with qm := m } : State).bay k = s.bay k := rfl

theorem onHead_cons {b : Bay} {m : SendMsg} {rest : List SendMsg} (g : SendMsg → SendMsg)
    (h : b.qio.sendq = m :: rest) : (b.onHead g).qio.sendq = g m :: rest := by
  simp [Bay.onHead, h]

/-- R34: a message for which there is room is committed and settled. -/
theorem commitTransit_ok {s : State} {i : Nat} {t : Transit} {ovf : Bool} (expired : Bool) (h : s.qmRuns = true)
    (h0 : (s.queue t.queue).state ≠ 0) (h3 : (s.queue t.queue).state ≠ 3)
    (hf : s.fullFor (s.queue t.queue) t.msg.cells t.msg.notice = false)
    (hp : s.place (s.queue t.queue) t.msg.cells t.msg.notice = some ovf) :
    s.commitTransit i t expired = (s.enter t.queue t.msg ovf).settleTransit i t := by
  unfold State.commitTransit
  rw [s.takeIn_ok t.queue t.msg ovf h h0 h3 hf hp]
  rfl

/-- R250: one whose wait at its full queue has passed is settled and refused with reason 4. -/
theorem commitTransit_expired {s : State} {i b : Nat} {t : Transit} (h : s.qmRuns = true) (hb : t.bay = some b)
    (h0 : (s.queue t.queue).state ≠ 0) (h3 : (s.queue t.queue).state ≠ 3)
    (hf : s.fullFor (s.queue t.queue) t.msg.cells t.msg.notice = true) (hw : (s.queue t.queue).waits = true) :
    s.commitTransit i t true = (s.settleTransit i t).refused t.notq t.trig 4 := by
  unfold State.commitTransit
  rw [s.takeIn_full t.queue t.msg h h0 h3 hf]
  simp [hw, hb]

/-- R27: the message under way at place i commits when none of its producer stands before it. -/
theorem commitAt_free {s : State} {i : Nat} {t : Transit} (h : s.qmRuns = true) (hi : s.qm.transit[i]? = some t)
    (hb : s.qm.behind i t = false) (hn : t.bay = none) : s.commitAt i = s.commitTransit i t false := by
  unfold State.commitAt
  simp only [hi, hn, hb, h]
  rfl

theorem waiterAgain_eq {s : State} {b i : Nat} {t : Transit} {m : SendMsg} {rest : List SendMsg} (expired : Bool)
    (h : s.qmRuns = true) (ht : s.qm.transitOf b = some (i, t)) (hm : (s.bay b).qio.sendq = m :: rest)
    (hw : m.waiting = true) : s.waiterAgain b expired = s.commitTransit i t expired := by
  unfold State.waiterAgain
  simp only [ht]
  exact if_pos (by simp [h, hm, hw])

/-- R249: with no notice queue a refusal counts and is an event. -/
theorem refused_silent (s : State) {notq : Word} (trig : Word) (reason : Nat) (h : bitAt notq 31 = false) :
    s.refused notq trig reason = (s.bump 0x30068).event 0x30040 1 := if_neg (by simp [h])

/-- R32, R241: the next message joins the landing of a running bay that has room for all of it. -/
theorem land_next {s : State} {b q : Nat} {m : Msg} (h : s.qmRuns = true) (h3 : (s.bay b).state = 3)
    (hs : (s.bay b).sill = false) (hn : s.nextToLand (s.bay b) = some (q, m)) (hr : (s.bay b).qio.landed + m.cells ≤ 16) :
    s.land b [] = (s.setQueue q { s.queue q with
        msgs := (s.queue q).msgs.tail, away := (s.queue q).away + m.cells }).onBay b fun c =>
      { c with qio := { c.qio with
        landing := c.qio.landing ++ [⟨q, (s.queue q).target, (s.queue q).prio, m⟩] } } := by
  unfold State.land
  dsimp only
  rw [if_neg (by simp [h3, hs, h])]
  simp only [hn]
  rw [if_neg (by omega)]
  simp

/-- Settles O23: a departure by `depart_local`, commits and refusals by `State.commitTransit` through the room that
`State.takeIn` finds, landings by `land_next`. -/
theorem messages : Obligations.Messages := by
  refine ⟨fun s hq => ⟨fun b m rest hm ho hs hd => ?_, fun i t ovf hi hb hn h0 h3 hf hp => ?_,
    fun b i t ovf m rest ht hb hm hw h0 h3 hf hp => ?_, fun b i t m rest ht hb hm hw h0 h3 hf hwt hnot => ?_⟩,
    fun s b q m hq h3 hs hn hr => ?_⟩
  · refine ⟨_, runs (f := fun t => t.depart b) rfl (depart_local (s := s.start) hq hm ho hs hd), rfl, ?_, rfl,
      fun k hk => (bay_withQm _ _ k).trans (State.bay_onBay_ne s.start _ hk), rfl⟩
    rw [bay_withQm, State.bay_onBay]
    exact onHead_cons _ hm
  · have e := (commitAt_free (s := s.start) hq hi hb hn).trans
      ((commitTransit_ok (s := s.start) false hq h0 h3 hf hp).trans (State.settle_none _ i t hn))
    obtain ⟨hqueue, hne, hbays, hcom, htr⟩ := s.start.enter_eq t.queue t.msg ovf
    exact ⟨_, runs (f := fun t => t.commitAt i) rfl e, congrArg (·.msgs) hqueue, congrArg (·.eraseIdx i) htr, hcom, hne,
      hbays⟩
  · have e := (waiterAgain_eq (s := s.start) false hq ht hm hw).trans
      ((commitTransit_ok (s := s.start) false hq h0 h3 hf hp).trans (State.settle_some _ i b t hb))
    obtain ⟨hqueue, hne, hbays, hcom, htr⟩ := s.start.enter_eq t.queue t.msg ovf
    have at_ (k : Nat) : (s.start.enter t.queue t.msg ovf).bay k = s.bay k := congrArg (fun l => State.bay { s with bays := l } k) hbays
    refine ⟨_, runs (f := fun t => t.waiterAgain b false) rfl e, congrArg (·.msgs) hqueue, congrArg (·.eraseIdx i) htr, ?_,
      fun k hk => (State.bay_onBay_ne _ _ hk).trans (at_ k)⟩
    rw [State.bay_onBay]
    exact (congrArg (·.qio.sendq.tail) (at_ b)).trans (by rw [hm])
  · have e := (waiterAgain_eq (s := s.start) true hq ht hm hw).trans
      ((commitTransit_expired (s := s.start) hq hb h0 h3 hf hwt).trans
        ((refused_silent _ t.trig 4 hnot).trans (congrArg (fun u => (State.bump u 0x30068).event 0x30040 1)
          (State.settle_some s.start i b t hb))))
    refine ⟨_, runs (f := fun t => t.waiterAgain b true) rfl e, rfl, rfl, ?_, ?_, ?_, fun k hk => State.bay_onBay_ne s.start _ hk⟩
    · rw [State.bay_of_event, State.bay_of_bump, State.bay_onBay]
      exact congrArg List.tail hm
    · exact State.count_setCount _ _ _
    · exact State.sq_event _ _ _
  · refine ⟨_, runs (f := fun t => t.land b []) rfl (land_next (s := s.start) hq h3 hs hn hr), ?_, ?_, ?_,
      fun j hj => State.queue_setQueue_ne _ _ hj, fun k hk => State.bay_onBay_ne _ _ hk, ?_⟩
    · rw [State.bay_onBay]; rfl
    · rw [State.queue_of_onBay, State.queue_setQueue]; rfl
    · rw [State.queue_of_onBay, State.queue_setQueue]; rfl
    · rw [State.bay_onBay]; rfl

end Sys2Proof.Proofs.Messages

/-!
Doorbells, host rings and queue descriptors (R258, R260–R265, R270–R272, R424–R428).
-/
namespace Sys2Proof.Proofs.QueueAgents
open Sys2Proof Sys2Proof.Machine Running Laws.Doorbells

/-- R424: the largest payload is never below 128 bytes. -/
theorem mps_ge (h : Hb) : 128 ≤ h.mps := Nat.le_mul_of_pos_right 128 (Nat.two_pow_pos _)

/-! ## The doorbell pages (R261, R263) -/

/-- The message of a doorbell page: as many cells as its words fill. -/
theorem doorbell_message {ws : List Word} {k : Nat} (dev : Nat) (h : ws.length = 16 * k) :
    Producer.doorbell.message dev ws [] = { words := ws, cells := k, pkind := 1, dev := dev, index := 0 } := by
  have hk : ws.length / 16 = k := by omega
  rw [Producer.message, hk]
  rfl

section
variable {s : State} {q : Nat} (hq : q < 65536) (hup : s.hb.up = true) (h3 : s.hb.d3 = false)
  (hr : s.qmRuns = true) (ho : s.outerHead 0 = none)

/-- A write at offset o of a doorbell page. -/
theorem bar2Put_page {o : Nat} (data : List Byte) (hlt : o < 0x1000) :
    s.bar2Put (q * 0x1000 + o) data =
      if o < 0x100 then s.doorbell q o data
      else if o = 0x100 then s.doorbellWord q data
      else if o = 0x180 ∧ data.length = 4 then s.doorbellHead q ((wordsOf data).headD 0#32)
      else if o < 0x200 ∧ s.qmRuns then s.hostBad
      else s := by
  have page : (q * 0x1000 + o) / 0x1000 = q := by omega
  have place : (q * 0x1000 + o) % 0x1000 = o := by omega
  unfold State.bar2Put
  simp only [page, place]

include hup h3 ho

/-- A write of a doorbell page that is well formed and waits for nothing is carried out. -/
theorem bar2Write_page {o : Nat} (data : List Byte) (hb : s.writeBad (q * 0x1000 + o) data.length = false) :
    s.bar2Write (q * 0x1000 + o) data false = s.bar2Put (q * 0x1000 + o) data := bar2_go s _ data hup h3 hb ho

include hq hr

/-- DB_MSG: one to four cells are a message. -/
theorem dbMsg_eq {data : List Byte} {k : Nat} {ovf : Bool} (hl : data.length = 64 * k) (h1 : 1 ≤ k) (h4 : k ≤ 4)
    (hm : data.length ≤ s.hb.mps) (h0 : (s.queue q).state ≠ 0) (h3q : (s.queue q).state ≠ 3)
    (hf : s.fullFor (s.queue q) k false = false) (hp : s.place (s.queue q) k false = some ovf) :
    s.bar2Write (q * 0x1000 + 0) data false = s.enter q { words := wordsOf data, cells := k, pkind := 1, dev := s.devId, index := 0 } ovf := by
  have hw := wordsOf_length (16 * k) data (by omega)
  have hn : data ≠ [] := by rintro rfl; simp at hl; omega
  have hmod : q % 65536 = q := by omega
  rw [bar2Write_page hup h3 ho data (writeBad_page s q 0 _ (by omega) (by omega) hm), bar2Put_page data (by omega),
    if_pos (by omega), State.doorbell, if_neg (by simp [hr]), if_pos ⟨rfl, by omega, hn, by omega⟩, hmod,
    commitNow_ok s q k .doorbell _ ovf hr hw h0 h3q hf hp, doorbell_message _ hw]

/-- DB_WORD: four or eight bytes, filled up to a cell, are a message. -/
theorem dbWord_eq {data : List Byte} {ovf : Bool} (hl : data.length = 4 ∨ data.length = 8)
    (h0 : (s.queue q).state ≠ 0) (h3q : (s.queue q).state ≠ 3) (hf : s.fullFor (s.queue q) 1 false = false)
    (hp : s.place (s.queue q) 1 false = some ovf) :
    s.bar2Write (q * 0x1000 + 0x100) data false =
      s.enter q { words := wordsOf (data ++ zeros (64 - data.length)), cells := 1, pkind := 1, dev := s.devId, index := 0 }
        ovf := by
  have hmps := mps_ge s.hb
  have hmod : q % 65536 = q := by omega
  have hlen : (data ++ zeros (64 - data.length)).length = 4 * (16 * 1) := by
    rw [List.length_append, zeros, List.length_replicate]
    omega
  rw [bar2Write_page hup h3 ho data (writeBad_page s q 0x100 _ (by omega) (by omega) (by omega)),
    bar2Put_page data (by omega), if_neg (by omega), if_pos rfl, State.doorbellWord, if_neg (by simp [hr]), if_pos hl,
    hmod, commitNow_ok s q 1 .doorbell _ ovf hr (wordsOf_length _ _ hlen) h0 h3q hf hp,
    doorbell_message _ (wordsOf_length _ _ hlen)]

omit hq in
/-- Any other size or offset below 0x100 is HOSTBAD. -/
theorem dbMsg_bad {data : List Byte} {off : Nat} (hoff : off < 0x100)
    (hb : s.writeBad (q * 0x1000 + off) data.length = false)
    (h : off ≠ 0 ∨ data.length % 64 ≠ 0 ∨ 256 < data.length) :
    s.bar2Write (q * 0x1000 + off) data false = s.event 0x30040 0 := by
  rw [bar2Write_page hup h3 ho data hb, bar2Put_page data (by omega), if_pos hoff, State.doorbell,
    if_neg (by simp [hr]), if_neg (by rintro ⟨h0, h1, -, h2⟩; omega)]
  rfl

omit hq hr in
/-- DB_HEAD is the head of the queue's ring. -/
theorem dbHead_eq (v : Word) :
    s.bar2Write (q * 0x1000 + 0x180) (toBytes 4 v.toNat) false = s.doorbellHead q v := by
  have hmps := mps_ge s.hb
  have hlen : (toBytes 4 v.toNat).length = 4 := toBytes_length 4 _
  rw [bar2Write_page hup h3 ho _ (by rw [hlen]; exact writeBad_page s q 0x180 4 (by omega) (by omega) (by omega)),
    bar2Put_page _ (by omega), if_neg (by omega), if_neg (by omega), if_pos ⟨rfl, hlen⟩, headD_bytes]

end

/-- R428: a write behind accesses through BAR4 waits its turn. -/
theorem bar2Write_waits {s : State} {q o : Nat} {data : List Byte} {x : Outer} (hup : s.hb.up = true)
    (h3 : s.hb.d3 = false) (ho : s.outerHead 0 = some x) (hb : s.writeBad (q * 0x1000 + o) data.length = false) :
    s.bar2Write (q * 0x1000 + o) data false = s.outerAdd
      { master := 0, tgt := .doorbell (q * 0x1000 + o), addr := q * 0x1000 + o, write := true, len := data.length,
        data := data } := by
  simp [State.bar2Write, hup, h3, hb, ho]

/-! ## Host rings (R262–R265, R272) -/

set_option maxRecDepth 4000 in
/-- HR_CFG of every ring has a row, of a kind that is not SQ. -/
theorem ringRows : ∀ n : Fin 256, ∃ r, regRow (0x31010 + 0x20 * n.val) = some r ∧ r.kind ≠ .sq := by decide

/-- R264: a write of HR_CFG that answers. -/
theorem regWrite_ringCfg {s : State} (ag : Agent) {n : Nat} (v : Word) (hn : n < 256)
    (h : s.reachable (0x31010 + 0x20 * n) = true) (hl : s.raiseLocks = false) :
    s.regWrite ag (0x31010 + 0x20 * n) v = s.ringCfg n v := by
  obtain ⟨r, hr, hk⟩ := ringRows ⟨n, hn⟩
  have place : (0x31010 + 0x20 * n - 0x31000) / 0x20 = n := by omega
  rw [s.regWrite_qm ag v h hr hk (by omega) (by omega), State.qmWrite, if_neg (by simp [hl]), if_neg (by omega),
    if_pos (by omega)]
  dsimp only
  rw [place, if_neg (by omega), if_pos (by omega)]

theorem ringWindowEnd_idle {s : State} {n : Nat} (h : (s.ring n).waits = false) :
    s.ringWindowEnd n = s.setRing n { s.ring n with window := false } := if_neg (by simp [h])

theorem ringWindowEnd_waits {s : State} {n : Nat} (h : (s.ring n).waits = true) :
    s.ringWindowEnd n = s.ringSend n := if_pos h

/-- Settles O24: the doorbell pages by the branches of `State.bar2Put`, a ring's write by `ringWrite_ok`, its window by
`ringSend_eq`, its configuration by `ringCfg_set` and `ringCfg_clear`. -/
theorem doorbellsAndRings : Obligations.DoorbellsAndRings := by
  refine ⟨fun s q hq hup h3 => ⟨fun hr ho => ⟨?_, ?_, ?_, ?_⟩, fun o off data ho hb => ?_⟩,
    fun s n hn => ⟨?_, fun h => ?_, fun h => ?_, fun v h hl hb h4 => ?_, fun v h hl hb => ?_⟩⟩
  · intro data k ovf hl h1 h4 hm h0 h3q hf hp
    have e := dbMsg_eq (s := s.start) hq hup h3 hr ho hl h1 h4 hm h0 h3q hf hp
    obtain ⟨hqueue, hne, hbays, -, -⟩ := s.start.enter_eq q
      { words := wordsOf data, cells := k, pkind := 1, dev := s.devId, index := 0 } ovf
    exact ⟨_, runs (f := fun t => t.bar2Write (q * 0x1000 + 0) data false) rfl e, congrArg (·.msgs) hqueue, hne, hbays⟩
  · intro data ovf hl h0 h3q hf hp
    have e := dbWord_eq (s := s.start) hq hup h3 hr ho hl h0 h3q hf hp
    obtain ⟨hqueue, hne, hbays, -, -⟩ := s.start.enter_eq q
      { words := wordsOf (data ++ zeros (64 - data.length)), cells := 1, pkind := 1, dev := s.devId, index := 0 } ovf
    exact ⟨_, runs (f := fun t => t.bar2Write (q * 0x1000 + 0x100) data false) rfl e, congrArg (·.msgs) hqueue, hne,
      hbays⟩
  · intro off data hoff hb h
    exact runs (f := fun t => t.bar2Write (q * 0x1000 + off) data false) rfl
      (dbMsg_bad (s := s.start) hup h3 hr ho hoff hb h)
  · intro v hbind
    exact ⟨fun h => runs (f := fun t => t.bar2Write (q * 0x1000 + 0x180) (toBytes 4 v.toNat) false) rfl
        ((dbHead_eq (s := s.start) hup h3 ho v).trans (head_in s.start q v hq hr hbind h)),
      fun h => runs (f := fun t => t.bar2Write (q * 0x1000 + 0x180) (toBytes 4 v.toNat) false) rfl
        ((dbHead_eq (s := s.start) hup h3 ho v).trans (head_out s.start q v hq hr hbind h))⟩
  · exact runs (f := fun t => t.bar2Write (q * 0x1000 + off) data false) rfl
      (bar2Write_waits (s := s.start) hup h3 ho hb)
  · intro q m rest h1 h2 hup h3 h5 h6 h7 h8
    obtain ⟨hout, hmsgs, hne, hbays, hregs, hseq, htail, hhead⟩ := ringWrite_ok s.start n q m rest h1 h2 hup h3 h5 h6 h7 h8
    exact ⟨_, runs (f := fun t => t.ringWrite n) rfl rfl, hout, hmsgs, hseq, htail, hhead, hne, hbays, hregs⟩
  · exact runs (f := fun t => t.ringWindowEnd n) rfl (ringWindowEnd_idle (s := s.start) h)
  · obtain ⟨hout, hqueues, hbays, hregs, hring⟩ := ringSend_eq s.start n
    refine ⟨_, runs (f := fun t => t.ringWindowEnd n) rfl (ringWindowEnd_waits (s := s.start) h), hout, by rw [hring],
      ?_, hqueues, hbays, hregs⟩
    rw [hring]
    show (!(s.hb.msixOn && s.hb.maskedV (fld (s.hrCfg n) 12 11)) && s.hb.msixOn && decide (fld (s.hrCfg n) 24 8 ≠ 0)) = _
    cases s.hb.msixOn <;> simp
  · exact runs (f := fun t => t.regWrite .host (0x31010 + 0x20 * n) (v ||| 0x100#32)) rfl
      ((regWrite_ringCfg (s := s.start) .host _ hn h hl).trans (ringCfg_set s.start n v hb h4))
  · exact runs (f := fun t => t.regWrite .host (0x31010 + 0x20 * n) (v &&& 0xFFFFFEFF#32)) rfl
      ((regWrite_ringCfg (s := s.start) .host _ hn h hl).trans (ringCfg_clear s.start n v hb))

/-! ## Queue descriptors (R258, R260, R270, R271) -/

/-- What a write of QM_DCMD asks of the queue manager (R270, R271). -/
def dcmd (s : State) (v : Word) : State :=
  match fld v 0 2 with
  | 1 => s.descRead
  | 2 => s.descWrite
  | 3 => s.descWritep
  | _ => s

/-- A write of QM_DCMD that answers, with no raise that locks. -/
theorem regWrite_dcmd {s : State} (ag : Agent) (v : Word) (h : s.reachable 0x30024 = true) (hl : s.raiseLocks = false) :
    s.regWrite ag 0x30024 v = dcmd s v := by
  obtain ⟨r, hr, hk⟩ : ∃ r, regRow 0x30024 = some r ∧ r.kind ≠ .sq := Laws.Mailbox.row_of (by decide)
  rw [s.regWrite_qm ag v h hr hk (by omega) (by omega), State.qmWrite, if_neg (by simp [hl]), if_pos rfl]
  rfl

/-- Settles O25: the three commands by `descRead_ok`, `descWrite_ok`, `descWrite_no` and `descWritep_ok`, a timeout by
`timeout_ok`. -/
theorem queueDescriptors : Obligations.QueueDescriptors := by
  refine ⟨fun s h hl hr => ⟨?_, fun hc => ⟨?_, fun hp => ?_⟩, fun n hc => ?_⟩, fun s q ovf h1 h2 h3 h4 h5 h6 h7 h8 => ?_⟩
  · refine ⟨_, runs (f := fun t => t.regWrite .host 0x30024 1#32) rfl
      ((regWrite_dcmd (s := s.start) .host _ h hl).trans (descRead_ok s.start hr hl _ rfl)), ?_, ?_, ?_, ?_, rfl, rfl, rfl, rfl⟩
    all_goals rw [reg_qm]
    · rw [State.reg_setReg_ne _ _ (by decide), State.reg_setReg_ne _ _ (by decide), State.reg_setReg_ne _ _ (by decide),
        State.reg_setReg]
      rfl
    · rw [State.reg_setReg_ne _ _ (by decide), State.reg_setReg_ne _ _ (by decide), State.reg_setReg]
      rfl
    · rw [State.reg_setReg_ne _ _ (by decide), State.reg_setReg]
      rfl
    · rw [State.reg_setReg]
      rfl
  · refine ⟨_, runs (f := fun t => t.regWrite .host 0x30024 2#32) rfl
      ((regWrite_dcmd (s := s.start) .host _ h hl).trans (descWrite_ok s.start hr hl hc)), rfl, fun hs => ?_⟩
    exact descApply_stays s.start _ _ hs
  · exact runs (f := fun t => t.regWrite .host 0x30024 3#32) rfl
      ((regWrite_dcmd (s := s.start) .host _ h hl).trans (descWritep_ok s.start hr hl hc hp))
  · exact runs (f := fun t => t.regWrite .host 0x30024 2#32) rfl
      ((regWrite_dcmd (s := s.start) .host _ h hl).trans (descWrite_no s.start n hr hl hc))
  · obtain ⟨hqueue, hne, hbays, -, -⟩ := s.start.enter_eq q
      (noticeMsg s.devId (noticeCell 1 (s.globalOf q) 0 0#32 s.qm.us)) ovf
    exact ⟨_, runs (f := fun t => t.queueTimeout q) rfl (timeout_ok s.start q ovf h1 h2 h3 h4 h5 h6 h7 h8),
      congrArg (·.msgs) hqueue, hne, hbays⟩

end Sys2Proof.Proofs.QueueAgents



/-!
Scratch and staging (R275–R300): outside words, scrubbers, staging accesses, ownership, March tests.
-/
namespace Sys2Proof.Proofs.Stores
open Sys2Proof Sys2Proof.Machine Running Laws.Stores

theorem markOf_setMark (t : Marks) (w m : Nat) : markOf (setMark t w m) w = m := tgetD_tsetD_same _ _ _ _

/-! ## Outside words (R275, R280, R554) -/

/-- A whole word written from outside is stored with fresh check bits, or with the poison code. -/
theorem outWrite_word (b : Bay) (a : Nat) (v : Word) (poison : Bool) :
    b.outWrite a 4 v poison = { b with
      scratch := b.scratch.putWord a v, smarks := setMark b.smarks (a / 4) (if poison then 3 else 0) } := by
  cases poison <;> rfl

section
variable (c : Bay) (a : Nat) (v : Word) (poison : Bool)

/-- What a write from outside makes of a bay: only below the fault cell is it stored. -/
def written : Bay :=
  if a < fcBase then { c with
    scratch := c.scratch.putWord a v, smarks := setMark c.smarks (a / 4) (if poison then 3 else 0) } else c

theorem outWord_write (s : State) (b : Nat) :
    s.outWord b { addr := a, write := true, val := v, poison := poison } = s.setBay b (written (s.bay b) a v poison) := by
  have e : (s.bay b).outWord { addr := a, write := true, val := v, poison := poison } =
      (written (s.bay b) a v poison, none) := by
    rw [Bay.outWord, if_pos rfl, outWrite_word]
    rfl
  rw [State.outWord, e]

/-- A read from outside of a word with no uncorrectable error answers it, marked when it is poisoned. -/
theorem outWord_read {s : State} {b : Nat} (ha : a % 4 = 0) (h : markOf (s.bay b).smarks (a / 4) ≠ 2) :
    ∃ x : Bay, s.outWord b { addr := a, write := false, val := v, poison := poison } =
        (s.setBay b x).emit (.answer { data := toBytes 4 ((s.bay b).scrWord a).toNat,
                                       bad := if 2 ≤ markOf (s.bay b).smarks (a / 4) then [0] else [] }) ∧
      x.scratch = (s.bay b).scratch ∧ x.smarks = (s.bay b).smarks ∧ x.gp = (s.bay b).gp := by
  have word : a / 4 * 4 = a := by omega
  obtain ⟨hue, hval, hpoison, hgp, hscr, -, -, hmarks, -⟩ :=
    scrRead_keeps (s.bay b) a ((s.bay b).inFrame a) h
  refine ⟨((s.bay b).scrRead a ((s.bay b).inFrame a)).bay, ?_, hscr, hmarks, hgp⟩
  have e : (s.bay b).outRead a = (((s.bay b).scrRead a ((s.bay b).inFrame a)).bay, (s.bay b).scrWord a,
      decide (2 ≤ markOf (s.bay b).smarks (a / 4))) := by
    rw [Bay.outRead, word, hue, if_neg (by simp), hval, hpoison]
  rw [State.outWord, Bay.outWord, if_neg (by simp), e]
  simp

end

/-- The bay that an access from outside finds: errors struck, its word counted, the port claimed. -/
theorem claimed_eq (x : Bay) (u : List (Nat × Nat × Nat)) (waited : Bool) :
    ∃ p y, (x.upset u).claimPort 1 waited = { x with pipe := p, smarks := (x.upset u).smarks, imarks := y } ∧
      p.pc = x.pipe.pc ∧ p.words = x.pipe.words + nbit (decide (x.state = 3) && !x.held) := by
  obtain ⟨p, hp, hpc, -, hwords⟩ := claimPort_one (x.upset u) waited
  obtain ⟨m, y, hx⟩ := upset_rest u x
  have hpipe : (x.upset u).pipe = x.pipe := by rw [hx]
  have hstate : (x.upset u).state = x.state := by rw [hx]
  have hheld : (x.upset u).held = x.held := by rw [hx]; rfl
  rw [hpipe] at hpc
  rw [hpipe, hstate, hheld] at hwords
  rw [hp, hx]
  exact ⟨p, y, rfl, hpc, hwords⟩

section
variable {s : State} {b : Nat} (hb : b < 256) (hr : s.bayReached b = true)
include hb hr

/-- While a March test runs in the bay an outside word waits (R298). -/
theorem outsideWord_march {a : Nat} {w : Bool} {v : Word} {poison waited : Bool} {u : List (Nat × Nat × Nat)}
    (hm : (s.bay b).march = true) :
    s.outsideWord b a w v poison waited u = s.onBay b fun c => { (c.upset u) with
      outq := c.outq ++ [{ addr := a / 4 * 4, write := w, val := v, poison := poison }] } := by
  rw [State.outsideWord, if_neg (by simp [hr, hb]), if_pos hm]

/-- An outside write changes its bay to `written`. -/
theorem outsideWord_write {a : Nat} {v : Word} {poison waited : Bool} {u : List (Nat × Nat × Nat)}
    (hm : (s.bay b).march = false) :
    ∃ t, s.outsideWord b a true v poison waited u = t ∧
      t.bay b = written (((s.bay b).upset u).claimPort 1 waited) (a / 4 * 4) v poison ∧ ∀ k, k ≠ b → t.bay k = s.bay k := by
  refine ⟨_, outside_eq s b a true v poison waited u hb hr hm, ?_, fun k hk => ?_⟩
  · rw [outWord_write, State.bay_setBay, State.bay_onBay]
  · rw [outWord_write, State.bay_setBay_ne _ _ hk, State.bay_onBay_ne _ _ hk]

/-- An outside read answers and keeps the bay's data. -/
theorem outsideWord_read {a : Nat} {v : Word} {poison waited : Bool} {u : List (Nat × Nat × Nat)}
    (hm : (s.bay b).march = false) (ho : s.out = [])
    (h : markOf ((s.bay b).upset u).smarks (a / 4 * 4 / 4) ≠ 2) :
    ∃ t, s.outsideWord b a false v poison waited u = t ∧
      t.out = [.answer { data := toBytes 4 ((s.bay b).scrWord (a / 4 * 4)).toNat,
                         bad := if 2 ≤ markOf ((s.bay b).upset u).smarks (a / 4 * 4 / 4) then [0] else [] }] ∧
      (t.bay b).scratch = (s.bay b).scratch ∧ (t.bay b).smarks = ((s.bay b).upset u).smarks ∧
      (t.bay b).gp = (s.bay b).gp ∧ ∀ k, k ≠ b → t.bay k = s.bay k := by
  obtain ⟨p, y, hc, -, -⟩ := claimed_eq (s.bay b) u waited
  obtain ⟨x, e, hscr, hmarks, hgp⟩ := outWord_read (a / 4 * 4) v poison
    (s := s.onBay b fun c => (c.upset u).claimPort 1 waited) (b := b) (by omega) (by rw [State.bay_onBay, hc]; exact h)
  rw [State.bay_onBay, hc] at e hscr hmarks hgp
  refine ⟨_, (outside_eq s b a false v poison waited u hb hr hm).trans e, ?_, ?_, ?_, ?_, fun k hk => ?_⟩
  · rw [State.emit_out, State.setBay_out, State.onBay_out, ho]
    rfl
  · rw [State.bay_of_emit, State.bay_setBay, hscr]
  · rw [State.bay_of_emit, State.bay_setBay, hmarks]
  · rw [State.bay_of_emit, State.bay_setBay, hgp]
  · rw [State.bay_of_emit, State.bay_setBay_ne _ _ hk, State.bay_onBay_ne _ _ hk]

end

/-- The scrubber of a bay that is not in TEST or off moves on by one word (R276). -/
theorem bayScrub_eq {s : State} {b : Nat} (u : List (Nat × Nat × Nat)) (h0 : (s.bay b).state ≠ 0) (h2 : (s.bay b).state ≠ 2) :
    s.bayScrub b u = { s.setBay b (((s.bay b).upset u).scrub (tgetD 0 s.bg.bayScrub b)) with
      bg := { s.bg with bayScrub := tsetD 0 s.bg.bayScrub b ((tgetD 0 s.bg.bayScrub b + 1) % 114688) } } :=
  if_neg (by rintro (h | h); exacts [h0 h, h2 h])

/-- Settles O26: outside words through `State.outWord`, the scrubber through `Bay.scrub`, a write-back by its mark. -/
theorem outsideWords : Obligations.OutsideWords := by
  intro s b hb hh h0
  have hr : s.start.bayReached b = true := s.start.bayReached_of hh h0
  refine ⟨?_, fun u a w v poison waited hm => ?_, fun u h2 h1 hi => ?_, fun w h => ?_, fun n w hn h => ?_⟩
  · intro u waited hm x
    obtain ⟨p, y, hc, hpc, hwords⟩ := claimed_eq (s.bay b) u waited
    refine ⟨fun a v poison ha => ?_, fun a v poison ha => ?_, fun a v poison h => ?_⟩
    · obtain ⟨t, e, ht, hk⟩ := outsideWord_write (s := s.start) (a := a) (v := v) (poison := poison) (waited := waited)
        (u := u) hb hr hm
      rw [State.bay_of_start, hc, written, if_pos (show a / 4 * 4 < fcBase from ha)] at ht
      refine ⟨t, runs (f := fun t => t.outsideWord b a true v poison waited u) rfl e, ?_⟩
      rw [ht]
      exact ⟨Mem.word_putWord _ _ _, markOf_setMark _ _ _, fun k => Mem.byte_putWord_out _ _ _ _, rfl, hpc, hwords, hk⟩
    · obtain ⟨t, e, ht, hk⟩ := outsideWord_write (s := s.start) (a := a) (v := v) (poison := poison) (waited := waited)
        (u := u) hb hr hm
      rw [State.bay_of_start, hc, written, if_neg (show ¬ a / 4 * 4 < fcBase from Nat.not_lt.2 ha)] at ht
      refine ⟨t, runs (f := fun t => t.outsideWord b a true v poison waited u) rfl e, ?_⟩
      rw [ht]
      exact ⟨rfl, rfl, rfl, hk⟩
    · obtain ⟨t, e, h⟩ := outsideWord_read (s := s.start) (a := a) (v := v) (poison := poison) (waited := waited)
        (u := u) hb hr hm rfl h
      exact ⟨t, runs (f := fun t => t.outsideWord b a false v poison waited u) rfl e, h⟩
  · exact runs (f := fun t => t.outsideWord b a w v poison waited u) rfl (outsideWord_march (s := s.start) hb hr hm)
  · obtain ⟨m, y, hx⟩ := upset_rest u (s.bay b)
    obtain ⟨hgp, hscr, hist, hpipe, hstate⟩ := scrub_keeps ((s.bay b).upset u) (tgetD 0 s.bg.bayScrub b) h1 (by
      by_cases hp : tgetD 0 s.bg.bayScrub b < 98304
      · exact .inr hp
      · exact .inl (hi (by omega)))
    refine ⟨_, runs (f := fun t => if t.bentHere (b / 16) then t.bayScrub b u else t) rfl
      ((if_pos (c := s.start.bentHere (b / 16) = true) hh).trans (bayScrub_eq (s := s.start) u h0 h2)),
      tgetD_tsetD_same _ _ _ _, ?_⟩
    have at_ (k : Nat) : ({ s.start.setBay b (((s.start.bay b).upset u).scrub (tgetD 0 s.start.bg.bayScrub b)) with
        bg := { s.start.bg with bayScrub := tsetD 0 s.start.bg.bayScrub b ((tgetD 0 s.start.bg.bayScrub b + 1) % 114688) } } :
        State).bay k = (s.start.setBay b (((s.bay b).upset u).scrub (tgetD 0 s.bg.bayScrub b))).bay k := rfl
    rw [at_, State.bay_setBay]
    refine ⟨hgp.trans ?_, hscr.trans ?_, hist.trans ?_, hpipe.trans ?_, hstate.trans ?_,
      fun k hk => (at_ k).trans (State.bay_setBay_ne _ _ hk)⟩
    all_goals rw [hx]
  · refine runs (f := fun t => if t.bayReached b then t.onBay b fun c => c.writeBack 0 w else t) rfl
      ((if_pos hr).trans (State.onBay_congr (s := s.start) ?_))
    rw [Bay.writeBack, if_pos rfl, show markOf (s.start.bay b).smarks w = 1 from h]
    rfl
  · refine runs (f := fun t => if t.bayReached b then t.onBay b fun c => c.writeBack n w else t) rfl
      ((if_pos hr).trans (State.onBay_congr (s := s.start) ?_))
    rw [Bay.writeBack, if_neg hn, show markOf (s.start.bay b).imarks w = 1 from h]
    rfl

end Sys2Proof.Proofs.Stores


/-!
Staging: accesses by the owner, ownership, March tests (R283–R300).
-/
namespace Sys2Proof.Proofs.StagingBanks
open Sys2Proof Sys2Proof.Machine Running Laws.Stores

/-! ## Accesses (R287, R292–R294) -/

/-- Upsets change no owner and no power state, so the bank refuses as before. -/
theorem stgRefuses_upset (s : State) (n : Nat) (l : List (Nat × Nat)) (ag : Agent) (w : Bool) :
    (s.stgUpset n l).stgRefuses n ag w = s.stgRefuses n ag w := by
  obtain ⟨m, hn, -, e⟩ := stgUpset_eq s n l
  rw [State.stgRefuses, hn, e]
  rfl

/-- Upsets change no bank but for the marks of the one they strike. -/
theorem bank_stgUpset (s : State) (n : Nat) (l : List (Nat × Nat)) (k : Nat) :
    ∃ m, (s.stgUpset n l).bank k = { s.bank k with marks := m } := by
  obtain ⟨m, hn, hk, -⟩ := stgUpset_eq s n l
  by_cases h : k = n
  · exact ⟨m, h ▸ hn⟩
  · exact ⟨(s.bank k).marks, hk k h⟩

section
variable {s : State} {ag : Agent} {a : Nat} (u : List (Nat × Nat)) (ha : a / 0x40000 < 192) (hs : s.stgOn = true)
include ha hs

theorem mapped_upset : ¬ (192 ≤ a / 0x40000 ∨ (!(s.stgUpset (a / 0x40000) u).stgOn) = true) := by
  obtain ⟨m, -, -, e⟩ := stgUpset_eq s (a / 0x40000) u
  have h : (s.stgUpset (a / 0x40000) u).stgOn = s.stgOn := by
    rw [e]
    rfl
  rw [h, hs]
  simp only [Bool.not_true, Bool.false_eq_true, or_false]
  omega

omit ha in
/-- A read at a bank whose domain is on is a read of what the upsets leave. -/
theorem stagingAccess_false (data : List Byte) (bad : List Nat) (len : Nat) :
    s.stagingAccess ag a false data bad len u false = ((s.stgUpset (a / 0x40000) u).stgRead ag a len).1.emit
      (.answer ((s.stgUpset (a / 0x40000) u).stgRead ag a len).2) := by
  rw [State.stagingAccess, if_neg (by simp [hs]), if_neg (by simp)]
  rfl

omit ha in
/-- A write at a bank whose domain is on is a write to what the upsets leave. -/
theorem stagingAccess_true (data : List Byte) (bad : List Nat) (len : Nat) :
    s.stagingAccess ag a true data bad len u false = ((s.stgUpset (a / 0x40000) u).stgWrite ag a data bad).1.emit
      (.answer ((s.stgUpset (a / 0x40000) u).stgWrite ag a data bad).2) := by
  rw [State.stagingAccess, if_neg (by simp [hs]), if_neg (by simp)]
  rfl

theorem stagingAccess_read (data : List Byte) (bad : List Nat) (len : Nat)
    (h : s.stgRefuses (a / 0x40000) ag false = none) :
    s.stagingAccess ag a false data bad len u false =
      ((s.stgUpset (a / 0x40000) u).stgGet (a / 0x40000) (a % 0x40000) len).1.emit
        (.answer ((s.stgUpset (a / 0x40000) u).stgGet (a / 0x40000) (a % 0x40000) len).2) := by
  rw [stagingAccess_false u hs]
  unfold State.stgRead
  rw [if_neg (mapped_upset u ha hs), stgRefuses_upset, h]

theorem stagingAccess_write (data : List Byte) (bad : List Nat) (len : Nat)
    (h : s.stgRefuses (a / 0x40000) ag true = none) :
    s.stagingAccess ag a true data bad len u false =
      ((s.stgUpset (a / 0x40000) u).stgPut (a / 0x40000) (a % 0x40000) data bad).emit (.answer {}) := by
  rw [stagingAccess_true u hs]
  unfold State.stgWrite
  rw [if_neg (mapped_upset u ha hs), stgRefuses_upset, h]

/-- A refused access changes no bank and raises the event of its reason. -/
theorem stagingAccess_refused (write : Bool) (data : List Byte) (bad : List Nat) (len : Nat) {e : Err}
    (h : s.stgRefuses (a / 0x40000) ag write = some e) :
    s.stagingAccess ag a write data bad len u false = ((s.stgUpset (a / 0x40000) u).stgRefused (a / 0x40000) e).emit
      (.answer { data := if write then [] else zeros len, err := some e }) := by
  cases write
  · rw [stagingAccess_false u hs]
    unfold State.stgRead
    rw [if_neg (mapped_upset u ha hs), stgRefuses_upset, h]
    rfl
  · rw [stagingAccess_true u hs]
    unfold State.stgWrite
    rw [if_neg (mapped_upset u ha hs), stgRefuses_upset, h]
    rfl

end

/-- Reading words of a bank names the poisoned ones and changes marks alone. -/
theorem stgGet_eq (s : State) (n a len : Nat) :
    (s.stgGet n a len).2 = { data := (s.bank n).mem.bytes a len,
                             bad := ((wordSpan a len).filter fun w => decide (2 ≤ markOf (s.bank n).marks w)).map (· - a / 4) } ∧
      (∀ k, ∃ m, (s.stgGet n a len).1.bank k = { s.bank k with marks := m }) ∧
      (s.stgGet n a len).1.bays = s.bays ∧ (s.stgGet n a len).1.out = s.out := by
  obtain ⟨hbad, ⟨m, hn, -⟩, hk, hbays, hout, -⟩ := stgWords_eq n (a / 4) (wordSpan a len) s (wordSpan_nodup a len)
  refine ⟨by rw [State.stgGet, hbad], fun k => ?_, hbays, hout⟩
  by_cases h : k = n
  · exact ⟨m, h ▸ hn⟩
  · exact ⟨(s.bank k).marks, hk k h⟩

/-- Writing a bank changes no other bank, and of its memory the bytes written. -/
theorem stgPut_eq (s : State) (n a : Nat) (data : List Byte) (bad : List Nat) :
    ((s.stgPut n a data bad).bank n).mem = (s.bank n).mem.putBytes a data ∧
      (∀ k, k ≠ n → (s.stgPut n a data bad).bank k = s.bank k) ∧
      (s.stgPut n a data bad).bays = s.bays ∧ (s.stgPut n a data bad).out = s.out := by
  obtain ⟨-, ⟨m, hn, -⟩, hk, hbays, hout, -⟩ := stgWords_eq n 0
    ((wordSpan a data.length).filter fun w => !wholeWord a data.length w) s ((wordSpan_nodup a data.length).filter _)
  refine ⟨?_, fun k h => (State.bank_setBank_ne _ _ h).trans (hk k h), hbays, hout⟩
  rw [State.stgPut, State.bank_setBank, hn]

/-- The scrubber of an awake bank under no March test reads the words of its line and moves on (R293, R509). -/
theorem stgScrub_eq {s : State} {n : Nat} (u : List (Nat × Nat)) (hn : n < 192) (ha : (s.bank n).awake = true)
    (ht : ∀ m, tgetD none s.stg.tests (n / 12) = some m → n / 12 * 12 + m.bank ≠ n) :
    ∃ t : State, s.stgScrub n u = { t with bg := { t.bg with
        stgScrub := tsetD 0 t.bg.stgScrub n ((tgetD 0 s.bg.stgScrub n + 1) % 8192) } } ∧
      (∀ k, (t.bank k).mem = (s.bank k).mem) ∧ t.bays = s.bays := by
  obtain ⟨-, ⟨m, hm, -⟩, hk, hbays, -, -⟩ := stgWords_eq n 0
    ((List.range 8).map fun i => 8 * tgetD 0 s.bg.stgScrub n + i) (s.stgUpset n u)
    (List.nodup_range.map fun i j h => Nat.add_left_cancel h)
  obtain ⟨m', hm', hk', eu⟩ := stgUpset_eq s n u
  refine ⟨_, if_neg ?_, fun k => ?_, hbays.trans (by rw [eu]; rfl)⟩
  · cases h : tgetD none s.stg.tests (n / 12) with
    | none => simp [ha, hn]
    | some m => simp [ha, hn, ht m h]
  · by_cases h : k = n
    · subst h
      rw [hm, hm']
    · exact congrArg Bank.mem ((hk k h).trans (hk' k h))

/-- A bank that differs in its marks alone holds the same data for the same owner. -/
theorem kept_of_marks {x y : Bank} (h : ∃ m, x = { y with marks := m }) : x.mem = y.mem ∧ x.ownKind = y.ownKind := by
  obtain ⟨m, rfl⟩ := h
  exact ⟨rfl, rfl⟩

theorem sq_stgEvent (s : State) (i n : Nat) (p : Resp) :
    ((s.stgEvent i n).emit (.answer p)).sq 0xB0300 = (s.sq 0xB0300).event i := by
  rw [State.sq_of_emit, State.stgEvent, State.sq_of_setReg, State.sq_event]

theorem reg_stgEvent (s : State) (i n : Nat) (p : Resp) :
    ((s.stgEvent i n).emit (.answer p)).reg 0xB0304 = wd (n % 256 * 65536 + (i + 1)) := by
  rw [State.reg_of_emit, State.stgEvent, State.reg_setReg]

/-- A refusal is an event of the staging unit that names the bank (R287, R294). -/
theorem answered_stgRefused (s : State) (n : Nat) (p : Resp) :
    (((s.stgRefused n .notOwner).emit (.answer p)).sq 0xB0300 = (s.sq 0xB0300).event 1 ∧
      ((s.stgRefused n .notOwner).emit (.answer p)).reg 0xB0304 = wd (n % 256 * 65536 + 2)) ∧
    ((s.stgRefused n .retained).emit (.answer p)).sq 0xB0300 = (s.sq 0xB0300).event 2 ∧
      ((s.stgRefused n .retained).emit (.answer p)).reg 0xB0304 = wd (n % 256 * 65536 + 3) :=
  ⟨⟨sq_stgEvent s 1 n p, reg_stgEvent s 1 n p⟩, sq_stgEvent s 2 n p, reg_stgEvent s 2 n p⟩

/-- Settles O27: the bank that the upsets leave is read by `State.stgGet`, written by `State.stgPut`, or refuses. -/
theorem stagingAccesses : Obligations.StagingAccesses := by
  intro s ag a u ha hs n x
  obtain ⟨m0, hm0, hk0, eu⟩ := stgUpset_eq s.start n u
  have bays : (s.start.stgUpset n u).bays = s.bays := by
    rw [eu]
    rfl
  have sq : (s.start.stgUpset n u).sq 0xB0300 = s.sq 0xB0300 := by
    rw [eu]
    rfl
  have out : (s.start.stgUpset n u).out = [] := by
    rw [eu]
    rfl
  have refused (p : Resp) := answered_stgRefused (s.start.stgUpset n u) n p
  rw [sq] at refused
  refine ⟨fun hw => ⟨fun data bad len ho => ?_, fun data bad len ho => ?_, fun data bad len hp ho => ?_,
    fun data bad len ho => ?_, fun ht => ?_⟩, fun hw write data bad len => ?_⟩
  · obtain ⟨hr, hk, hb, hout⟩ := stgGet_eq (s.start.stgUpset n u) n (a % 0x40000) len
    have mem : ((s.start.stgUpset n u).bank n).mem = (s.bank n).mem := by
      rw [hm0]
      rfl
    refine ⟨_, runs (f := fun t => t.stagingAccess ag a false data bad len u false) rfl
      (stagingAccess_read (s := s.start) u ha hs data bad len
        (refuses_none s.start n ag false hw (by simp) ho)), ?_, fun k => ?_, hb.trans bays⟩
    · rw [State.emit_out, hout, out, hr, mem]
      rfl
    · obtain ⟨m, hm⟩ := hk k
      obtain ⟨m', hm'⟩ := bank_stgUpset s.start n u k
      rw [State.bank_of_emit, hm, hm']
      exact ⟨rfl, rfl⟩
  · exact ⟨_, runs (f := fun t => t.stagingAccess ag a false data bad len u false) rfl
      (stagingAccess_refused (s := s.start) u ha hs false data bad len (refuses_owner s.start n ag false hw ho)),
      congrArg (· ++ _) out, (refused _).1.1, (refused _).1.2, fun k => kept_of_marks (bank_stgUpset s.start n u k), bays⟩
  · obtain ⟨hm, hk, hb, hout⟩ := stgPut_eq (s.start.stgUpset n u) n (a % 0x40000) data bad
    have mem : ((s.start.stgUpset n u).bank n).mem = (s.bank n).mem := by
      rw [hm0]
      rfl
    rw [mem] at hm
    refine ⟨_, runs (f := fun t => t.stagingAccess ag a true data bad len u false) rfl
      (stagingAccess_write (s := s.start) u ha hs data bad len (refuses_none s.start n ag true hw (fun _ => hp) ho)),
      congrArg (· ++ _) (hout.trans out), ?_, fun y hy => ?_, fun k hkn => (hk k hkn).trans (hk0 k hkn), hb.trans bays⟩
    · rw [State.bank_of_emit, hm, Mem.bytes_putBytes]
    · rw [State.bank_of_emit, hm, Mem.byte_putBytes_out _ _ _ _ hy]
  · exact ⟨_, runs (f := fun t => t.stagingAccess ag a true data bad len u false) rfl
      (stagingAccess_refused (s := s.start) u ha hs true data bad len (refuses_owner s.start n ag true hw ho)),
      congrArg (· ++ _) out, (refused _).1.1, fun k => kept_of_marks (bank_stgUpset s.start n u k), bays⟩
  · obtain ⟨t, e, hmem, hb⟩ := stgScrub_eq (s := s.start) u ha hw ht
    have on : (if s.start.stgOn then s.start.stgScrub n u else s.start) = _ := (if_pos hs).trans e
    refine ⟨_, runs (f := fun t => if t.stgOn then t.stgScrub n u else t) rfl on, ?_, hmem, hb⟩
    exact tgetD_tsetD_same _ _ _ _
  · exact ⟨_, runs (f := fun t => t.stagingAccess ag a write data bad len u false) rfl
      (stagingAccess_refused (s := s.start) u ha hs write data bad len (refuses_retained s.start n ag write hw)),
      congrArg (· ++ _) out, (refused _).2.1, (refused _).2.2,
      fun k => (kept_of_marks (bank_stgUpset s.start n u k)).1, bays⟩

/-! ## Ownership (R288–R290, R294) -/

set_option maxRecDepth 4000 in
theorem ownRows : ∀ n : Fin 192, ∃ r, regRow (0xB0000 + 4 * n.val) = some r ∧ r.kind ≠ .sq := by decide

/-- A write to STG_OWNn outside a raise goes to the ownership of its bank. -/
theorem regWrite_own (s : State) {n : Nat} (v : Word) (hn : n < 192) (h : s.reachable (0xB0000 + 4 * n) = true)
    (hl : s.raiseLocks = false) : s.regWrite .host (0xB0000 + 4 * n) v = s.ownWrite n v := by
  obtain ⟨r, hr, hk⟩ := ownRows ⟨n, hn⟩
  rw [s.regWrite_stg .host v h hr hk (by omega) (by omega), State.stgWrite32, if_pos (by omega), if_neg (by simp [hl]),
    show (0xB0000 + 4 * n - 0xB0000) / 4 = n by omega]

/-- Settles O28: `State.ownWrite`, `State.ownApply` and `State.bankWake` under the guards of the statement. -/
theorem bankOwnership : Obligations.BankOwnership := by
  refine fun s n hn => ⟨fun v h hl hr => ?_, fun v h hl hr => ?_, fun hp => ?_, fun hw hr => ?_⟩
  · refine runs (f := fun t => t.regWrite .host (0xB0000 + 4 * n) v) rfl ((regWrite_own s.start v hn h hl).trans ?_)
    have hr : s.start.ownRefused n v = false := hr
    rw [State.ownWrite, if_neg (by omega), hr, if_neg (by simp)]
    rfl
  · refine runs (f := fun t => t.regWrite .host (0xB0000 + 4 * n) v) rfl ((regWrite_own s.start v hn h hl).trans ?_)
    have hr : s.start.ownRefused n v = true := hr
    rw [State.ownWrite, if_neg (by omega), hr, if_pos rfl]
  · exact runs (f := fun t => t.ownApply n) rfl (if_pos hp)
  · exact runs (f := fun t => t.bankWake n) rfl (if_pos (show ((s.bank n).waking && !(s.bank n).retain) = true by rw [hw, hr]; rfl))

/-! ## March tests (R295–R300) -/

set_option maxRecDepth 4000 in
theorem marchRows : ∀ g : Fin 16, ∃ r, regRow (0xB0400 + 0x10 * g.val) = some r ∧ r.kind ≠ .sq := by decide

set_option maxRecDepth 4000 in
theorem bayMarchRows : ∀ b : Fin 256, ∃ r, regRow (0xB1000 + 0x10 * b.val) = some r ∧ r.kind ≠ .sq := by decide

theorem regWrite_march (s : State) {g : Nat} (v : Word) (hg : g < 16) (h : s.reachable (0xB0400 + 0x10 * g) = true) :
    s.regWrite .host (0xB0400 + 0x10 * g) v = s.marchWrite g v := by
  obtain ⟨r, hr, hk⟩ := marchRows ⟨g, hg⟩
  rw [s.regWrite_stg .host v h hr hk (by omega) (by omega), State.stgWrite32, if_neg (by omega), if_pos (by omega),
    show (0xB0400 + 0x10 * g - 0xB0400) / 16 = g by omega]

theorem regWrite_bayMarch (s : State) {b : Nat} (v : Word) (hb : b < 256) (h : s.reachable (0xB1000 + 0x10 * b) = true) :
    s.regWrite .host (0xB1000 + 0x10 * b) v = s.bayMarchWrite b v := by
  obtain ⟨r, hr, hk⟩ := bayMarchRows ⟨b, hb⟩
  rw [s.regWrite_stg .host v h hr hk (by omega) (by omega), State.stgWrite32, if_neg (by omega), if_neg (by omega),
    if_pos (by omega), show (0xB1000 + 0x10 * b - 0xB1000) / 16 = b by omega]

theorem bit0_or1 (v : Word) : bitAt (v ||| 1#32) 0 = true := by
  simp [bitAt]

theorem bay_withStg (s : State) (x : Staging) (k : Nat) : ({ s with stg := x } : State).bay k = s.bay k := rfl

theorem reg_withStg (s : State) (x : Staging) (a : Nat) : ({ s with stg := x } : State).reg a = s.reg a := rfl

section
variable {s : State} {g : Nat} {t : BankTest} (fails : Nat) (lines : List Nat) (ht : tgetD none s.stg.tests g = some t)
include ht

/-- A destructive test of a bank ends: the array is zero, its result and the first failing line are recorded (R296). -/
theorem marchDone_destructive (hp : t.preserve = false) :
    ∃ u, s.marchDone g fails lines = u ∧ tgetD none u.stg.tests g = none ∧
      (u.bank (12 * g + t.bank)).mem = {} ∧ (u.bank (12 * g + t.bank)).marks = [] ∧
      u.reg (0xB0404 + 0x10 * g) = wd ((if fails = 0 then 1 else 2) * 65536 + min 65535 fails) ∧
      (∀ l r, fails ≠ 0 → lines = l :: r → u.reg (0xB0408 + 0x10 * g) = wd (2 ^ 31 + l % 8192 * 32)) ∧
      (∀ n, n ≠ 12 * g + t.bank → u.bank n = s.bank n) ∧ u.bays = s.bays := by
  let s1 : State := { s with stg := { s.stg with tests := tsetD none s.stg.tests g none } }
  let s2 := (s1.setBank (12 * g + t.bank) { s.bank (12 * g + t.bank) with mem := {}, marks := [] }).setReg
    (0xB0404 + 0x10 * g) (wd ((if fails = 0 then 1 else 2) * 65536 + min 65535 fails))
  have e : s.marchDone g fails lines = match lines with
      | l :: _ => if fails = 0 then s2 else s2.setReg (0xB0408 + 0x10 * g) (wd (2 ^ 31 + l % 8192 * 32))
      | [] => s2 := by
    rw [State.marchDone, ht]
    dsimp only
    rw [hp]
    rfl
  have test : tgetD none s2.stg.tests g = none := tgetD_tsetD_same none s.stg.tests g none
  have bank : s2.bank (12 * g + t.bank) = { s.bank (12 * g + t.bank) with mem := {}, marks := [] } :=
    State.bank_setBank s1 _ _
  have other (n : Nat) (h : n ≠ 12 * g + t.bank) : s2.bank n = s.bank n := State.bank_setBank_ne s1 _ h
  have result : s2.reg (0xB0404 + 0x10 * g) = wd ((if fails = 0 then 1 else 2) * 65536 + min 65535 fails) :=
    State.reg_setReg _ _ _
  have mem := congrArg Bank.mem bank
  have marks := congrArg Bank.marks bank
  by_cases hf : fails = 0
  · refine ⟨s2, e.trans ?_, test, mem, marks, result, fun l r h => absurd hf h, other, rfl⟩
    cases lines with
    | nil => rfl
    | cons l r => exact if_pos hf
  · cases lines with
    | nil => exact ⟨s2, e, test, mem, marks, result, fun l r h hl => absurd hl (by simp), other, rfl⟩
    | cons l r =>
      refine ⟨_, e.trans (if_neg hf), test, mem, marks, (State.reg_setReg_ne _ _ (by omega)).trans result,
        fun l' r' _ hl => ?_, other, rfl⟩
      rw [State.reg_setReg, (List.cons.inj hl).1]

/-- A preserving test of a bank ends: without a failure every byte stays (R296). -/
theorem marchDone_preserving (hp : t.preserve = true) :
    ∃ u, s.marchDone g fails lines = u ∧ tgetD none u.stg.tests g = none ∧
      u.reg (0xB0404 + 0x10 * g) = wd ((if fails = 0 then 1 else 2) * 65536) ∧
      (fails = 0 → u.bank (12 * g + t.bank) = s.bank (12 * g + t.bank)) ∧
      (∀ n, n ≠ 12 * g + t.bank → u.bank n = s.bank n) ∧ u.bays = s.bays := by
  let s1 : State := { s with stg := { s.stg with tests := tsetD none s.stg.tests g none } }
  let x := s.bank (12 * g + t.bank)
  let d := s1.scrambleWords 4 x.mem x.marks
    (if fails = 0 then [] else lines.flatMap fun l => (List.range 8).map fun i => 8 * (l % 8192) + i)
  have e : s.marchDone g fails lines = (d.1.setBank (12 * g + t.bank) { x with mem := d.2.1, marks := d.2.2 }).setReg
      (0xB0404 + 0x10 * g) (wd ((if fails = 0 then 1 else 2) * 65536)) := by
    rw [State.marchDone, ht]
    dsimp only
    rw [hp]
    rfl
  obtain ⟨f, hd⟩ : ∃ f, d.1 = { s1 with free := f } := scramble_rest 4 _ s1 x.mem x.marks
  refine ⟨_, e, ?_, State.reg_setReg _ _ _, fun h => ?_, fun n hn => ?_, ?_⟩
  · rw [show (State.setReg (d.1.setBank (12 * g + t.bank) { x with mem := d.2.1, marks := d.2.2 }) (0xB0404 + 0x10 * g)
      (wd ((if fails = 0 then 1 else 2) * 65536))).stg.tests = d.1.stg.tests from rfl, hd]
    exact tgetD_tsetD_same none s.stg.tests g none
  · have hd2 : d.2 = (x.mem, x.marks) := by
      simp only [d, if_pos h]
      rfl
    rw [State.bank_of_setReg, State.bank_setBank, hd2]
  · rw [State.bank_of_setReg, State.bank_setBank_ne _ _ hn, hd]
    rfl
  · rw [State.setReg_bays, State.setBank_bays, hd]

end

/-- A March test of a bay in TEST starts (R298, R300). -/
theorem bayMarchWrite_starts {s : State} {b : Nat} {v : Word} (ht : tgetD none s.stg.bayTests b = none) (hk : fld v 4 2 ≠ 3)
    (hs : (s.bay b).state = 2) :
    ∃ t, s.bayMarchWrite b (v ||| 1#32) = t ∧
      tgetD none t.stg.bayTests b = some { bank := fld v 4 2, preserve := bitAt v 8 } ∧
      t.bay b = { s.bay b with march := true } ∧ t.reg (0xB1004 + 0x10 * b) = 0#32 ∧ ∀ k, k ≠ b → t.bay k = s.bay k := by
  have f : fld (v ||| 1#32) 4 2 = fld v 4 2 := fld_or1 v 4 2 (by omega) (by omega)
  obtain ⟨w, e⟩ := bayMarchStart_ok s b (v ||| 1#32) ht (by rw [f]; exact hk) hs (bit0_or1 v)
  rw [f, bit_or1 v 8 (by omega)] at e
  refine ⟨_, e, ?_, ?_, ?_, fun k hk => ?_⟩
  · exact tgetD_tsetD_same none s.stg.bayTests b (some { bank := fld v 4 2, preserve := bitAt v 8 })
  · rw [State.bay_onBay, bay_withStg, State.bay_of_setReg, State.bay_of_setReg, State.bay_of_setReg]
  · rw [State.reg_of_onBay, show 0xB1004 + 0x10 * b = 0xB1000 + 0x10 * b + 4 by omega]
    rw [reg_withStg, State.reg_setReg]
  · rw [State.bay_onBay_ne _ _ hk, bay_withStg, State.bay_of_setReg, State.bay_of_setReg, State.bay_of_setReg]

/-- The end of the test of bay `b`: its test and MARCH gone, the bay then changed by `f`, and word `r` as the result. -/
def bayTested (s : State) (b : Nat) (f : Bay → Bay) (r : Word) : State :=
  (((({ s with stg := { s.stg with bayTests := tsetD none s.stg.bayTests b none } } : State).onBay b fun c =>
    { c with march := false }).onBay b f).setReg (0xB1000 + 0x10 * b + 4) r)

theorem bayTested_tests (s : State) (b : Nat) (f : Bay → Bay) (r : Word) : tgetD none (bayTested s b f r).stg.bayTests b = none :=
  tgetD_tsetD_same none s.stg.bayTests b none

theorem bayTested_bay (s : State) (b : Nat) (f : Bay → Bay) (r : Word) :
    (bayTested s b f r).bay b = f { s.bay b with march := false } := by
  rw [bayTested, State.bay_of_setReg, State.bay_onBay, State.bay_onBay]
  rfl

theorem bayTested_bay_ne (s : State) {b k : Nat} (f : Bay → Bay) (r : Word) (h : k ≠ b) :
    (bayTested s b f r).bay k = s.bay k := by
  rw [bayTested, State.bay_of_setReg, State.bay_onBay_ne _ _ h, State.bay_onBay_ne _ _ h]
  rfl

theorem bayTested_reg (s : State) (b : Nat) (f : Bay → Bay) (r : Word) : (bayTested s b f r).reg (0xB1004 + 0x10 * b) = r := by
  rw [bayTested, show 0xB1004 + 0x10 * b = 0xB1000 + 0x10 * b + 4 by omega, State.reg_setReg]

/-- A March test leaves an array that it does not test as it was: its result is 0. -/
theorem marchResult (k m x : Nat) : (if (!decide (k ≠ m)) = true then 0 else x) = if k = m then 0 else x := by
  by_cases h : k = m <;> simp [h]

/-- The arrays that a destructive test covers are zero. -/
def wiped (arrays : Nat) (c : Bay) : Bay :=
  let c1 := if decide (arrays ≠ 2) then { c with scratch := Mem.allZero, smarks := [] } else c
  if decide (arrays ≠ 1) then { c1 with istore := Mem.allZero, imarks := [] } else c1

theorem wiped_eq (arrays : Nat) (c : Bay) : wiped arrays c = { c with
    scratch := if arrays = 2 then c.scratch else {}, istore := if arrays = 1 then c.istore else {}
    smarks := if arrays = 2 then c.smarks else [], imarks := if arrays = 1 then c.imarks else [] } := by
  by_cases h1 : arrays = 1
  · subst h1
    rfl
  · by_cases h2 : arrays = 2
    · subst h2
      rfl
    · simp only [wiped, h1, h2, ne_eq, not_false_eq_true, decide_true, if_true, if_false]
      rfl

section
variable {s : State} {b : Nat} {t : BankTest} (ht : tgetD none s.stg.bayTests b = some t)
include ht

/-- A preserving test of a bay without a failure ends: the bay keeps all it has (R296, R300). -/
theorem bayMarchDone_preserving (fails : Nat) (f : Bool) (hp : t.preserve = true) (hq : (s.bay b).outq = []) :
    ∃ u, s.bayMarchDone b fails [] [] f = u ∧ tgetD none u.stg.bayTests b = none ∧
      u.bay b = { s.bay b with march := false } ∧
      u.reg (0xB1004 + 0x10 * b) = wd ((if t.bank = 2 then 0 else 1) * 65536 + (if t.bank = 1 then 0 else 1) * 262144) ∧
      ∀ k, k ≠ b → u.bay k = s.bay k := by
  have e : s.bayMarchDone b fails [] [] f = (bayTested s b (fun c => { c with
      scratch := (s.bay b).scratch, smarks := (s.bay b).smarks, istore := (s.bay b).istore, imarks := (s.bay b).imarks })
      (wd ((if t.bank = 2 then 0 else 1) * 65536 + (if t.bank = 1 then 0 else 1) * 262144))).serveWaiting b := by
    rw [State.bayMarchDone, ht]
    dsimp only
    rw [hp, if_pos rfl]
    simp only [List.map_nil, List.flatMap_nil, ite_self, State.scrambleWords, marchResult, if_true, State.bay_onBay]
    rfl
  rw [serveWaiting_none _ _ (by rw [bayTested_bay]; exact hq)] at e
  refine ⟨_, e, ?_, ?_, ?_, fun k hk => ?_⟩
  · rw [State.onBay_stg, bayTested_tests]
  · rw [State.bay_onBay, bayTested_bay]
    exact congrArg (fun q => ({ s.bay b with march := false, outq := q } : Bay)) hq.symm
  · rw [State.reg_of_onBay, bayTested_reg]
  · rw [State.bay_onBay_ne _ _ hk, bayTested_bay_ne _ _ _ hk]

/-- A destructive test of a bay ends: the arrays tested are zero, and its result is recorded (R296, R300). -/
theorem bayMarchDone_destructive (fails : Nat) (sw il : List Nat) (f : Bool) (hp : t.preserve = false)
    (hq : (s.bay b).outq = []) :
    ∃ u, s.bayMarchDone b fails sw il f = u ∧ tgetD none u.stg.bayTests b = none ∧
      (u.bay b).scratch = (if t.bank = 2 then (s.bay b).scratch else {}) ∧
      (u.bay b).istore = (if t.bank = 1 then (s.bay b).istore else {}) ∧
      (u.bay b).smarks = (if t.bank = 2 then (s.bay b).smarks else []) ∧
      (u.bay b).imarks = (if t.bank = 1 then (s.bay b).imarks else []) ∧
      (u.bay b).march = false ∧ (u.bay b).gp = (s.bay b).gp ∧
      u.reg (0xB1004 + 0x10 * b) = wd ((if t.bank = 2 then 0 else if sw = [] then 1 else 2) * 65536 +
        (if t.bank = 1 then 0 else if il = [] then 1 else 2) * 262144 + min 65535 fails) ∧
      ∀ k, k ≠ b → u.bay k = s.bay k := by
  let r := wd ((if t.bank = 2 then 0 else if sw = [] then 1 else 2) * 65536 +
    (if t.bank = 1 then 0 else if il = [] then 1 else 2) * 262144 + min 65535 fails)
  have e : ∃ v : State, s.bayMarchDone b fails sw il f = v.serveWaiting b ∧
      (v = bayTested s b (wiped t.bank) r ∨ ∃ x, v = (bayTested s b (wiped t.bank) r).setReg (0xB1000 + 0x10 * b + 8) x) := by
    rw [State.bayMarchDone, ht]
    dsimp only
    rw [hp, if_neg (by simp)]
    simp only [marchResult]
    split
    · exact ⟨_, rfl, .inr ⟨_, rfl⟩⟩
    · exact ⟨_, rfl, .inl rfl⟩
  obtain ⟨v, e, hv⟩ := e
  have bay (k : Nat) : v.bay k = (bayTested s b (wiped t.bank) r).bay k := by
    obtain rfl | ⟨x, rfl⟩ := hv
    · rfl
    · exact State.bay_of_setReg _ _ _ _
  have test : tgetD none v.stg.bayTests b = none := by
    obtain rfl | ⟨x, rfl⟩ := hv
    · exact bayTested_tests s b _ _
    · rw [State.setReg_stg, bayTested_tests]
  have result : v.reg (0xB1004 + 0x10 * b) = r := by
    obtain rfl | ⟨x, rfl⟩ := hv
    · exact bayTested_reg s b _ _
    · exact (State.reg_setReg_ne _ _ (by omega)).trans (bayTested_reg s b _ _)
  have own := (bay b).trans ((bayTested_bay s b _ _).trans (wiped_eq _ _))
  rw [serveWaiting_none _ _ (by rw [own]; exact hq)] at e
  refine ⟨_, e, test, ?_, ?_, ?_, ?_, ?_, ?_, result, fun k hk => ?_⟩
  case refine_7 => rw [State.bay_onBay_ne _ _ hk, bay, bayTested_bay_ne _ _ _ hk]
  all_goals rw [State.bay_onBay, own]

end

/-- Settles O29: the starts are the writes of the control registers, the ends what the tested arrays are left as. -/
theorem marchTests : Obligations.MarchTests := by
  refine fun s => ⟨fun g v hg h ht hk ho ha hb => ?_, fun g t fails lines ht hp => ?_, fun g t fails lines ht hp => ?_,
    fun b v hb h ht hk hs => ?_, fun b t fails sw il f ht hp hq => ?_, fun b t fails f ht hp hq => ?_⟩
  · have k : fld (v ||| 1#32) 4 4 = fld v 4 4 := fld_or1 v 4 4 (by omega) (by omega)
    obtain ⟨w, e⟩ := marchStart_ok s.start g (v ||| 1#32) hg ht (by rw [k]; exact hk) (by rw [k]; exact ho)
      (by rw [k]; exact ha) (by rw [k]; exact hb) (bit0_or1 v)
    rw [k, bit_or1 v 8 (by omega)] at e
    refine ⟨_, runs (f := fun t => t.regWrite .host (0xB0400 + 0x10 * g) (v ||| 1#32)) rfl
      ((regWrite_march s.start _ hg h).trans e), ?_, State.reg_setReg _ _ _,
      (State.reg_setReg_ne _ _ (by omega)).trans (State.reg_setReg _ _ _), fun n => rfl, rfl⟩
    exact tgetD_tsetD_same none s.stg.tests g (some { bank := fld v 4 4, preserve := bitAt v 8 })
  · exact (marchDone_destructive (s := s.start) fails lines ht hp).imp fun u h =>
      ⟨runs (f := fun t => t.marchDone g fails lines) rfl h.1, h.2⟩
  · exact (marchDone_preserving (s := s.start) fails lines ht hp).imp fun u h =>
      ⟨runs (f := fun t => t.marchDone g fails lines) rfl h.1, h.2⟩
  · exact (bayMarchWrite_starts (s := s.start) ht hk hs).imp fun u e =>
      ⟨runs (f := fun t => t.regWrite .host (0xB1000 + 0x10 * b) (v ||| 1#32)) rfl
        ((regWrite_bayMarch s.start _ hb h).trans e.1), e.2⟩
  · exact (bayMarchDone_destructive (s := s.start) ht fails sw il f hp hq).imp fun u e =>
      ⟨runs (f := fun t => t.bayMarchDone b fails sw il f) rfl e.1, e.2⟩
  · exact (bayMarchDone_preserving (s := s.start) ht fails f hp hq).imp fun u e =>
      ⟨runs (f := fun t => t.bayMarchDone b fails [] [] f) rfl e.1, e.2⟩

end Sys2Proof.Proofs.StagingBanks



/-!
DDR4 channels: training, self-refresh, requests, refresh and calibration (R302–R326).
-/
namespace Sys2Proof.Proofs.Channels
open Sys2Proof Sys2Proof.Machine Running Laws.Channels Laws.Training

/-! ## Training (R302–R304, R322, R323) -/

/-- The fields of a channel's configuration are refused (R302, R492). -/
def fieldsRefused (u : State) (c : Nat) : Bool :=
  cfgExcluded (u.memCfg c) || (decide (fld (u.memCfg c) 28 2 = 0) && u.anyDpc2) ||
    (u.sec.approved && u.hw.full && !bitAt (u.reg (memBase c + 4)) 2)

section
variable {u : State} {c : Nat} (hs : (u.chan c).state = 0 ∨ (u.chan c).state = 3) (hr : u.ddr.rails = true)
  (hd : u.hw.dimms / 2 ^ c % 2 = 1)
include hs hr hd

theorem memInit_open : ¬ (!(decide ((u.chan c).state = 0) || decide ((u.chan c).state = 3)) || !u.ddr.rails ||
    decide (u.hw.dimms / 2 ^ c % 2 = 0)) = true := by
  rcases hs with h | h <;> simp [h, hr, hd]

theorem memInit_refused (hf : fieldsRefused u c = true) :
    u.memInit c = u.setChan c { u.chan c with state := 3, fstep := 14 } :=
  (if_neg (memInit_open hs hr hd)).trans (if_pos hf)

theorem memInit_otherSpeed (hf : fieldsRefused u c = false) (ho : u.otherSpeed (fld (u.memCfg c) 28 2) = true) :
    u.memInit c = u.setChan c { u.chan c with state := 3, fstep := 15 } :=
  (if_neg (memInit_open hs hr hd)).trans ((if_neg (Bool.eq_false_iff.1 hf)).trans (if_pos ho))

variable (hf : fieldsRefused u c = false) (ho : u.otherSpeed (fld (u.memCfg c) 28 2) = false)
include hf ho

theorem memInit_plain (he : (bitAt (u.reg (memBase c + 4)) 2 && u.hw.full) = false) :
    u.memInit c = u.setChan c { u.chan c with state := 1, fstep := 0, erased := false, driven := true, key := none } :=
  (if_neg (memInit_open hs hr hd)).trans ((if_neg (Bool.eq_false_iff.1 hf)).trans
    ((if_neg (Bool.eq_false_iff.1 ho)).trans (if_neg (Bool.eq_false_iff.1 he))))

theorem memInit_encrypted (he : (bitAt (u.reg (memBase c + 4)) 2 && u.hw.full) = true) :
    u.memInit c = { u.setChan c { u.chan c with
        state := 1, fstep := 0, erased := false, driven := true, keygen := ((u.chan c).keygen + 1) % 256,
        key := some (((u.chan c).keygen + 1) % 256 + 1) } with
      sec := { u.sec with keyRam := tsetD 0 u.sec.keyRam c (((u.chan c).keygen + 1) % 256 + 1) } } :=
  (if_neg (memInit_open hs hr hd)).trans ((if_neg (Bool.eq_false_iff.1 hf)).trans
    ((if_neg (Bool.eq_false_iff.1 ho)).trans (if_pos he)))

/-- An encrypted channel trains under a fresh key pair, which the key RAM takes (R322). -/
theorem memInit_freshKey (he : (bitAt (u.reg (memBase c + 4)) 2 && u.hw.full) = true) :
    (u.memInit c).chan c = { u.chan c with
        state := 1, fstep := 0, erased := false, driven := true, keygen := ((u.chan c).keygen + 1) % 256,
        key := some (((u.chan c).keygen + 1) % 256 + 1) } ∧
      tgetD 0 (u.memInit c).sec.keyRam c = ((u.chan c).keygen + 1) % 256 + 1 := by
  rw [memInit_encrypted hs hr hd hf ho he]
  exact ⟨State.chan_setChan u c _, tgetD_tsetD_same 0 u.sec.keyRam c (((u.chan c).keygen + 1) % 256 + 1)⟩

end

/-- INIT changes no other channel and no bay. -/
theorem memInit_frame (u : State) (c : Nat) : (∀ k, k ≠ c → (u.memInit c).chan k = u.chan k) ∧ (u.memInit c).bays = u.bays := by
  have set (x : Chan) : (∀ k, k ≠ c → (u.setChan c x).chan k = u.chan k) ∧ (u.setChan c x).bays = u.bays :=
    ⟨fun k hk => State.chan_setChan_ne _ _ hk, rfl⟩
  unfold State.memInit
  dsimp only
  split_ifs
  · exact ⟨fun _ _ => rfl, rfl⟩
  · exact set _
  · exact set _
  · exact set _
  · exact set _

/-- Training that fails leaves its step and raises TRAINFAIL (R304). -/
theorem trained_failed {s : State} {c step : Nat} (t0 t1 : Nat) (h1 : (s.chan c).state = 1) (hz : step ≠ 0)
    (hs : stepOf (s.memCfg c) step = true) :
    s.trained c step t0 t1 = (s.setChan c { s.chan c with state := 3, fstep := step }).event (memBase c + 0x20) 6 := by
  unfold State.trained
  rw [if_neg (by simp [h1, hs]), if_neg hz]

/-- Training that succeeds leaves the channel READY with fresh contents (R303). -/
theorem trained_ready {s : State} {c : Nat} (t0 t1 : Nat) (h1 : (s.chan c).state = 1) :
    s.trained c 0 t0 t1 = s.newGen.1.setChan c { s.chan c with
      state := 2, fstep := 0, t0 := t0 % 256, t1 := if bitAt (s.memCfg c) 25 then t1 % 256 else 0,
      ttrain := hotter (s.memCfg c) t0 t1, mem := Mem.scrambled s.newGen.2, marks := [], wq := [],
      episodes := [], scrub := [], scrubbed := [], back := [], retrain := 0, wild := s.misfit c } := by
  unfold State.trained
  rw [if_neg (by simp [h1, stepOf]), if_pos rfl]

/-- INIT and what training leaves. -/
theorem initAndTraining (s : State) (c : Nat) (hc : c < 8) :
    (∀ v, s.reachable (memBase c + 4) = true → (s.chan c).state = 0 ∨ (s.chan c).state = 3 → s.ddr.rails = true →
      s.hw.dimms / 2 ^ c % 2 = 1 →
      let w := s.memCfg c
      let enc := if (s.chan c).state = 0 ∧ s.hw.full = true then bitAt v 2 else bitAt (s.reg (memBase c + 4)) 2
      let bad := cfgExcluded w || (decide (fld w 28 2 = 0) && s.anyDpc2) || (s.sec.approved && s.hw.full && !enc)
      ∃ t, exec (.init c v) s = .next (s.finish t) ∧ (∀ k, k ≠ c → t.chan k = s.chan k) ∧ t.bays = s.bays ∧
        (bad = true → t.chan c = { s.chan c with state := 3, fstep := 14 } ∧ t.sec = s.sec) ∧
        (bad = false → s.otherSpeed (fld w 28 2) = true →
          t.chan c = { s.chan c with state := 3, fstep := 15 } ∧ t.sec = s.sec) ∧
        (bad = false → s.otherSpeed (fld w 28 2) = false → (enc && s.hw.full) = false →
          t.chan c = { s.chan c with state := 1, fstep := 0, erased := false, driven := true, key := none } ∧
          t.sec = s.sec) ∧
        (bad = false → s.otherSpeed (fld w 28 2) = false → (enc && s.hw.full) = true →
          let g := ((s.chan c).keygen + 1) % 256
          t.chan c = { s.chan c with
            state := 1, fstep := 0, erased := false, driven := true, keygen := g, key := some (g + 1) } ∧
          tgetD 0 t.sec.keyRam c = g + 1)) := by
  intro v hreach hs hr hd w enc bad
  obtain ⟨r, cfg, hbit, e⟩ := init_eq s.start c (v ||| 1#32) (by simp [bitAt]) (by
    rcases hs with h | h <;> exact fun k => absurd (h.symm.trans k) (by decide)) (by
    rcases hs with h | h <;> exact fun k => absurd (h.symm.trans k) (by decide))
  have enc_eq : bitAt (({ s.start with regs := r } : State).reg (memBase c + 4)) 2 = enc := by
    rw [hbit, encAfter, Laws.Stores.bit_or1 v 2 (by omega)]
    rfl
  have bad_eq : fieldsRefused { s.start with regs := r } c = bad := by
    rw [fieldsRefused, enc_eq, cfg, anyDpc2_regs s.start r cfg]
    rfl
  have speed (n : Nat) : ({ s.start with regs := r } : State).otherSpeed n = s.otherSpeed n := otherSpeed_regs s.start r n cfg
  have w_eq : ({ s.start with regs := r } : State).memCfg c = w := cfg c
  obtain ⟨other, bays⟩ := memInit_frame { s.start with regs := r } c
  refine ⟨_, runs (f := fun t => t.regWrite .host (0x60004 + 0x2000 * c) (v ||| 1#32)) rfl
    ((memWrite s.start hc _ hreach).trans e), other, bays, fun hb => ?_, fun hb ho => ?_, fun hb ho he => ?_,
    fun hb ho he => ?_⟩
  · rw [memInit_refused (u := { s.start with regs := r }) hs hr hd (bad_eq.trans hb), State.chan_setChan]
    exact ⟨rfl, rfl⟩
  · rw [memInit_otherSpeed (u := { s.start with regs := r }) hs hr hd (bad_eq.trans hb) (by rw [speed, w_eq, ho]), State.chan_setChan]
    exact ⟨rfl, rfl⟩
  · rw [memInit_plain (u := { s.start with regs := r }) hs hr hd (bad_eq.trans hb) (by rw [speed, w_eq, ho]) (by rw [enc_eq]; exact he), State.chan_setChan]
    exact ⟨rfl, rfl⟩
  · exact memInit_freshKey (u := { s.start with regs := r }) hs hr hd (bad_eq.trans hb) (by rw [speed, w_eq, ho])
      (by rw [enc_eq]; exact he)

/-- A successful training: the channel is READY with an empty write queue. -/
theorem trainingReady (s : State) (c t0 t1 : Nat) (h : (s.chan c).state = 1) :
    ∃ t, exec (.trainingComplete c 0 t0 t1) s = .next (s.finish t) ∧ (t.chan c).state = 2 ∧
      (t.chan c).ttrain = hotter (s.memCfg c) t0 t1 ∧ (t.chan c).wq = [] ∧ (t.chan c).episodes = [] ∧
      (t.chan c).key = (s.chan c).key ∧ (∀ k, k ≠ c → t.chan k = s.chan k) ∧ t.bays = s.bays := by
  refine ⟨_, runs (f := fun t => t.trained c 0 t0 t1) rfl (trained_ready (s := s.start) t0 t1 h), ?_, ?_, ?_, ?_, ?_,
    fun k hk => State.chan_setChan_ne _ _ hk, rfl⟩
  all_goals rw [State.chan_setChan]
  all_goals rfl

theorem trainingFailed (s : State) (c step t0 t1 : Nat) (h : (s.chan c).state = 1) (hz : step ≠ 0)
    (hs : stepOf (s.memCfg c) step = true) :
    ∃ t, exec (.trainingComplete c step t0 t1) s = .next (s.finish t) ∧
      t.chan c = { s.chan c with state := 3, fstep := step } ∧
      t.sq (memBase c + 0x20) = (s.sq (memBase c + 0x20)).event 6 ∧ (∀ k, k ≠ c → t.chan k = s.chan k) ∧ t.bays = s.bays := by
  refine ⟨_, runs (f := fun t => t.trained c step t0 t1) rfl (trained_failed (s := s.start) t0 t1 h hz hs), ?_, ?_,
    fun k hk => ?_, rfl⟩
  · rw [State.chan_of_event, State.chan_setChan]
    rfl
  · rw [State.sq_event, State.sq_of_setChan]
    rfl
  · rw [State.chan_of_event, State.chan_setChan_ne _ _ hk]
    rfl

/-! ## Self-refresh (R313, R316, R324, R326) -/

theorem bit1_or2 (v : Word) : bitAt (v ||| 2#32) 1 = true := by
  simp [bitAt]

theorem bit1_and (v : Word) : bitAt (v &&& 0xFFFFFFFD#32) 1 = false := by
  simp [bitAt]

theorem bits_or16 (v : Word) : bitAt (v ||| 16#32) 0 = bitAt v 0 ∧ bitAt (v ||| 16#32) 1 = bitAt v 1 ∧
    bitAt (v ||| 16#32) 4 = true := by
  simp [bitAt]

/-- A write to the control register of a channel that can not train is its fields and its self-refresh bit. -/
theorem memCtl_trained {u : State} {c : Nat} (v : Word) (h0 : ((u.memFields c v).memSr c v |>.chan c).state ≠ 0)
    (h3 : ((u.memFields c v).memSr c v |>.chan c).state ≠ 3) : u.memCtl c v = (u.memFields c v).memSr c v := by
  unfold State.memCtl
  split
  · exact memInit_none _ c h0 h3
  · rfl

theorem srEnter (s : State) (c : Nat) (hc : c < 8) (v : Word) (hr : s.reachable (memBase c + 4) = true)
    (h : (s.chan c).state = 2) :
    ∃ t, exec (.srEnter c v) s = .next (s.finish t) ∧ (t.chan c).state = 2 ∧ (t.chan c).srMove = true ∧
      (t.chan c).wq = [] ∧ (t.chan c).waits = [] ∧ bitAt (t.reg (memBase c + 4)) 1 = true ∧
      (∀ k, (t.chan k).state = (s.chan k).state) ∧ t.bays = s.bays ∧
      ((s.chan c).waits = [] → ∀ k, k ≠ c → t.chan k = s.chan k) := by
  obtain ⟨r, e, -⟩ := memFields_eq s.start c (v ||| 2#32)
  obtain ⟨t, et, h2, hrest⟩ := srEnter_rest { s.start with regs := r } c h
  have es : (s.start.memFields c (v ||| 2#32)).memSr c (v ||| 2#32) = t := by
    rw [e, State.memSr, bit1_or2, if_pos rfl, et]
  refine ⟨t, runs (f := fun t => t.regWrite .host (0x60004 + 0x2000 * c) (v ||| 2#32)) rfl
    ((memWrite s.start hc _ hr).trans ((memCtl_trained _ ?_ ?_).trans es)), h2, hrest⟩
  all_goals rw [es, h2]; decide

theorem srExit (s : State) (c : Nat) (hc : c < 8) (v : Word) (hr : s.reachable (memBase c + 4) = true)
    (h : (s.chan c).state = 4) :
    ∃ t, exec (.srExit c v) s = .next (s.finish t) ∧ t.chan c = { s.chan c with srMove := true } ∧
      bitAt (t.reg (memBase c + 4)) 1 = false ∧ (∀ k, k ≠ c → t.chan k = s.chan k) ∧ t.bays = s.bays := by
  obtain ⟨r, e, -⟩ := memFields_eq s.start c (v &&& 0xFFFFFFFD#32)
  let w : State := ({ s.start with regs := r } : State).setReg (memBase c + 4)
    (putBit (({ s.start with regs := r } : State).reg (memBase c + 4)) 1 false)
  have es : (s.start.memFields c (v &&& 0xFFFFFFFD#32)).memSr c (v &&& 0xFFFFFFFD#32) =
      w.setChan c { s.chan c with srMove := true } := by
    rw [e, State.memSr, bit1_and, if_neg (by simp)]
    exact if_pos h
  have hch : (w.setChan c { s.chan c with srMove := true }).chan c = { s.chan c with srMove := true } :=
    State.chan_setChan _ _ _
  refine ⟨_, runs (f := fun t => t.regWrite .host (0x60004 + 0x2000 * c) (v &&& 0xFFFFFFFD#32)) rfl
    ((memWrite s.start hc _ hr).trans ((memCtl_trained _ ?_ ?_).trans es)), hch, ?_,
    fun k hk => State.chan_setChan_ne _ _ hk, rfl⟩
  · rw [es, hch]
    exact fun k => absurd (h.symm.trans k) (by decide)
  · rw [es, hch]
    exact fun k => absurd (h.symm.trans k) (by decide)
  · rw [State.reg_of_setChan, State.reg_setReg]
    exact (bit_put1 _ _).1

theorem drainQueue_nil {u : State} {c : Nat} (h : (u.chan c).wq = []) :
    u.drainQueue c = u.setChan c { u.chan c with wq := [] } := by
  rw [State.drainQueue, h]
  rfl

/-- The entry to self-refresh ends: what waits is served, the write queue drains, and the channel stands in SELFREF. -/
theorem srEntered_rest {u : State} {c : Nat} (h : (u.chan c).state = 2) (hm : (u.chan c).srMove = true)
    (hb : bitAt (u.reg (memBase c + 4)) 1 = true) :
    ∃ t, u.srEntered c = t ∧ (t.chan c).state = 4 ∧ (t.chan c).srMove = false ∧
      (t.chan c).wq = [] ∧ (t.chan c).waits = [] ∧ (t.chan c).episodes = [] ∧
      (∀ k, k ≠ c → (t.chan k).state = (u.chan k).state) ∧ t.bays = u.bays ∧
      ((u.chan c).waits = [] → (∀ k, k ≠ c → t.chan k = u.chan k) ∧
        ((u.chan c).wq = [] → (t.chan c).mem = (u.chan c).mem ∧ t.regs = u.regs)) := by
  obtain ⟨d1, d2, d3⟩ := drainQueue_rest (C := fun k => k = c) (u.ddrResume c fun _ => true) c rfl
  have g := ddrResume_rest (C := fun _ => True) u c (fun _ => true) fun _ _ => trivial
  have gs (k : Nat) : ((u.ddrResume c fun _ => true).chan k).state = (u.chan k).state ∧
      (k = c → ((u.ddrResume c fun _ => true).chan k).waits = []) := by
    obtain ⟨_, _, _, _, b⟩ := g.same k
    by_cases hk : k = c
    · subst hk
      rw [b, State.chan_setChan]
      exact ⟨rfl, fun _ => by simp⟩
    · rw [b, State.chan_setChan_ne _ _ hk]
      exact ⟨rfl, fun h => absurd h hk⟩
  have clean (hn : (u.chan c).waits = []) : u.ddrResume c (fun _ => true) = u.setChan c { u.chan c with waits := [] } := by
    rw [State.ddrResume, hn]
    rfl
  refine ⟨_, if_pos ⟨h, hm, hb⟩, ?_, ?_, ?_, ?_, ?_, fun k hk => ?_, ?_, fun hn => ⟨fun k hk => ?_, fun hq => ⟨?_, ?_⟩⟩⟩
  · rw [State.chan_setChan]
  · rw [State.chan_setChan]
  · rw [State.chan_setChan]
    exact d2
  · rw [State.chan_setChan]
    exact d3.trans ((gs c).2 rfl)
  · rw [State.chan_setChan]
  · obtain ⟨_, _, _, _, a⟩ := d1.same k
    rw [State.chan_setChan_ne _ _ hk, a]
    exact (gs k).1
  · exact d1.bays.trans g.bays
  · rw [State.chan_setChan_ne _ _ hk, d1.chan hk, clean hn, State.chan_setChan_ne _ _ hk]
  · rw [State.chan_setChan, clean hn, drainQueue_nil (by rw [State.chan_setChan]; exact hq), State.chan_setChan,
      State.chan_setChan]
  · rw [State.setChan_regs, clean hn, drainQueue_nil (by rw [State.chan_setChan]; exact hq), State.setChan_regs,
      State.setChan_regs]

/-- A channel that comes back without VDDQ is OFF (R324). -/
theorem memPowerUp_lost {u : State} {c : Nat} (h : (u.chan c).vddqLost = true) :
    ((u.memPowerUp c).chan c).state = 0 ∧ ((u.memPowerUp c).chan c).srMove = false ∧
      (∀ k, k ≠ c → (u.memPowerUp c).chan k = u.chan k) ∧ (u.memPowerUp c).bays = u.bays := by
  obtain ⟨other, -, -, -, off⟩ := Laws.Power.power_up_one u c
  refine ⟨off (.inr h), ?_, other, Laws.Power.power_up_bays [c] u⟩
  rw [State.memPowerUp, if_neg (by simp [h]), State.chan_setChan]

/-- The loss of VDDQ of a channel in self-refresh or with its domain gated is remembered, its contents lost (R326). -/
theorem vddqLoss_lost {u : State} {c : Nat} (back : Bool) (h : (u.chan c).state = 4 ∨ u.on (chanDom c) = false) :
    ∃ t, u.vddqLoss c back = t ∧ (t.chan c).vddqLost = true ∧ t.ddr.rails = back ∧
      (t.chan c).state = (u.chan c).state ∧ (∀ k, k ≠ c → t.chan k = u.chan k) ∧ t.bays = u.bays := by
  let w : State := { u with ddr := { u.ddr with rails := back } }
  have chan (k : Nat) : w.newGen.1.chan k = u.chan k := rfl
  have e : u.vddqLoss c back = w.newGen.1.setChan c { w.newGen.1.chan c with
      waits := [], vddqLost := true, mem := Mem.scrambled w.newGen.2, marks := [], back := [] } := by
    rw [State.vddqLoss]
    refine if_pos (h.imp_right fun h => ?_)
    rw [Bool.not_eq_true']
    exact h
  refine ⟨_, e, ?_, rfl, ?_, fun k hk => (State.chan_setChan_ne _ _ hk).trans (chan k), rfl⟩
  · rw [State.chan_setChan]
  · rw [State.chan_setChan, chan]

theorem selfRefresh (s : State) (c : Nat) :
    ((s.chan c).state = 2 → (s.chan c).srMove = true → bitAt (s.reg (memBase c + 4)) 1 = true →
      ∃ t, exec (.selfrefEntered c) s = .next (s.finish t) ∧ (t.chan c).state = 4 ∧ (t.chan c).srMove = false ∧
        (t.chan c).wq = [] ∧ (t.chan c).waits = [] ∧ (t.chan c).episodes = [] ∧
        (∀ k, k ≠ c → (t.chan k).state = (s.chan k).state) ∧ t.bays = s.bays ∧
        ((s.chan c).waits = [] → (∀ k, k ≠ c → t.chan k = s.chan k) ∧
          ((s.chan c).wq = [] → (t.chan c).mem = (s.chan c).mem ∧ t.regs = s.regs))) ∧
    ((s.chan c).state = 4 → (s.chan c).srMove = true → bitAt (s.reg (memBase c + 4)) 1 = false →
      ((s.chan c).vddqLost = false →
        exec (.selfrefExited c) s = .next (s.finish (s.start.setChan c { s.chan c with state := 2, srMove := false }))) ∧
      ((s.chan c).vddqLost = true →
        ∃ t, exec (.selfrefExited c) s = .next (s.finish t) ∧ (t.chan c).state = 0 ∧ (t.chan c).srMove = false ∧
          (∀ k, k ≠ c → t.chan k = s.chan k) ∧ t.bays = s.bays)) := by
  refine ⟨fun h hm hb => ?_, fun h hm hb => ?_⟩
  · obtain ⟨t, e, rest⟩ := srEntered_rest (u := s.start) h hm hb
    exact ⟨t, runs (f := fun t => t.srEntered c) rfl e, rest⟩
  · have go : s.start.srExited c =
        if (s.chan c).vddqLost then s.start.memPowerUp c else s.start.setChan c { s.chan c with state := 2, srMove := false } :=
      if_pos ⟨h, hm, hb⟩
    refine ⟨fun hv => runs (f := fun t => t.srExited c) rfl (go.trans (if_neg (by simp [hv]))), fun hv => ?_⟩
    exact ⟨_, runs (f := fun t => t.srExited c) rfl (go.trans (if_pos hv)), memPowerUp_lost (u := s.start) hv⟩

/-- CLRMAX clears MEMc_TMAX and moves no channel (R326). -/
theorem clrmax (s : State) (c : Nat) (hc : c < 8) (v : Word) (hr : s.reachable (memBase c + 4) = true)
    (h0 : bitAt v 0 = false) (h1 : bitAt v 1 = false) :
    ∃ t, exec (.clrmax c v) s = .next (s.finish t) ∧ t.reg (memBase c + 0x14) = 0#32 ∧
      (∀ k, (t.chan k).state = (s.chan k).state ∧ (t.chan k).mem = (s.chan k).mem) ∧ t.bays = s.bays := by
  obtain ⟨r, e, -, -, -, hmax⟩ := memFields_eq s.start c (v ||| 16#32)
  obtain ⟨b0, b1, b4⟩ := bits_or16 v
  let w : State := ({ s.start with regs := r } : State).setReg (memBase c + 4)
    (putBit (({ s.start with regs := r } : State).reg (memBase c + 4)) 1 false)
  have es : s.start.memCtl c (v ||| 16#32) = if (s.chan c).state = 4 then w.setChan c { s.chan c with srMove := true }
      else if (s.chan c).state = 2 then w.setChan c { s.chan c with srMove := false } else w := by
    unfold State.memCtl
    rw [b0, h0, if_neg (by simp), e, State.memSr, b1, h1, if_neg (by simp)]
    rfl
  have hw : w.reg (memBase c + 0x14) = 0#32 := (State.reg_setReg_ne _ _ (by omega)).trans (hmax b4)
  have set (m : Bool) (k : Nat) : ((w.setChan c { s.chan c with srMove := m }).chan k).state = (s.chan k).state ∧
      ((w.setChan c { s.chan c with srMove := m }).chan k).mem = (s.chan k).mem := by
    by_cases hk : k = c
    · subst hk
      rw [State.chan_setChan]
      exact ⟨rfl, rfl⟩
    · rw [State.chan_setChan_ne _ _ hk]
      exact ⟨rfl, rfl⟩
  refine ⟨_, runs (f := fun t => t.regWrite .host (0x60004 + 0x2000 * c) (v ||| 16#32)) rfl
    ((memWrite s.start hc _ hr).trans es), ?_⟩
  split_ifs
  · exact ⟨hw, set true, rfl⟩
  · exact ⟨hw, set false, rfl⟩
  · exact ⟨hw, fun _ => ⟨rfl, rfl⟩, rfl⟩

/-- Settles O30: INIT and training, and the steps into and out of self-refresh, by the lemmas above. -/
theorem channelTraining : Obligations.ChannelTraining := by
  refine ⟨fun s c hc => ⟨initAndTraining s c hc, fun t0 t1 => trainingReady s c t0 t1,
    fun step t0 t1 => trainingFailed s c step t0 t1⟩, fun s c hc => ⟨srEnter s c hc, (selfRefresh s c).1, srExit s c hc,
    (selfRefresh s c).2, fun back h => ?_, fun back h hon => ?_, clrmax s c hc⟩⟩
  · obtain ⟨t, e, rest⟩ := vddqLoss_lost (u := s.start) back h
    exact ⟨t, runs (f := fun t => t.vddqLoss c back) rfl e, rest⟩
  · refine runs (f := fun t => t.vddqLoss c back) rfl (if_neg ?_)
    rintro (k | k)
    · exact h k
    · rw [Bool.not_eq_true'] at k
      exact Bool.false_ne_true (k.symm.trans hon)

end Sys2Proof.Proofs.Channels


/-!
DDR4 requests, refresh and calibration (R306–R321).
-/
namespace Sys2Proof.Proofs.Requests
open Sys2Proof Sys2Proof.Machine Running Laws.Channels

/-! ## Upsets change marks alone -/

section
variable (s : State) (u : List (Nat × Nat))

theorem chan_ddrUpset (k : Nat) : ∃ m, (s.ddrUpset u).chan k = { s.chan k with marks := m } := by
  obtain ⟨D, -, -, h⟩ := ddrUpset_rest u s
  exact h k

theorem ddrErr_ddrUpset (a : Nat) : (s.ddrUpset u).ddrErr a = s.ddrErr a := by
  obtain ⟨D, e, -, -⟩ := ddrUpset_rest u s
  obtain ⟨m, hm⟩ := chan_ddrUpset s u (chanOf a)
  rw [State.ddrErr, hm, e]
  rfl

theorem rankOf_ddrUpset (a : Nat) : (s.ddrUpset u).rankOf a = s.rankOf a := by
  obtain ⟨D, e, -, -⟩ := ddrUpset_rest u s
  rw [e]
  rfl

theorem inEpisode_ddrUpset (a : Nat) :
    (s.ddrUpset u).inEpisode a = ((s.ddrErr a).isNone && decide (s.rankOf a ∈ (s.chan (chanOf a)).episodes)) := by
  obtain ⟨m, hm⟩ := chan_ddrUpset s u (chanOf a)
  rw [State.inEpisode, ddrErr_ddrUpset, rankOf_ddrUpset, hm]

theorem bays_ddrUpset : (s.ddrUpset u).bays = s.bays := by
  obtain ⟨D, e, -, -⟩ := ddrUpset_rest u s
  rw [e]

theorem out_ddrUpset : (s.ddrUpset u).out = s.out := by
  obtain ⟨D, e, -, -⟩ := ddrUpset_rest u s
  rw [e]

end

/-! ## Requests (R306, R307, R309, R319, R320) -/

/-- A request with no uncorrectable error in the channel's control is a request of what the upsets leave. -/
theorem ddrAccess_eq (s : State) (a : Nat) (write : Bool) (n : Nat) (data : List Byte) (poison : Bool) (ns : Nat)
    (u : List (Nat × Nat)) : s.ddrAccess a write n data poison ns u false =
      s.ddrRequest { addr := a, write := write, len := n, data := data, poison := poison, ns := ns } u := by
  rw [State.ddrAccess, if_neg (by simp)]

/-- What the write of `data` at `a` makes of the state, with its time counted. -/
def wrote (s : State) (a : Nat) (data : List Byte) (poison : Bool) (ns : Nat) : State :=
  (((lineSpan a data.length).foldl (fun t l => t.lineWrite (chanOf a) l (lineBytes a l data) poison) s).channelTime (chanOf a) ns)

theorem ddrAnswer_write {s : State} {a : Nat} (he : s.ddrErr a = none) (n : Nat) (data : List Byte) (poison : Bool) (ns : Nat) :
    s.ddrAnswer { addr := a, write := true, len := n, data := data, poison := poison, ns := ns } =
      (wrote s a data poison ns).emit (.answer {}) := by
  have e : s.ddrWrite a data poison =
      ((lineSpan a data.length).foldl (fun t l => t.lineWrite (chanOf a) l (lineBytes a l data) poison) s, {}) := by
    rw [State.ddrWrite, he]
  rw [State.ddrAnswer, State.ddrRun, if_pos rfl, e]
  rfl

/-- A read is answered with what the channel shows, and its time is counted. -/
theorem ddrAnswer_read {s : State} {a : Nat} (n : Nat) (data : List Byte) (poison : Bool) (ns : Nat) (h : (s.ddrRead a n).2.err = none) :
    s.ddrAnswer { addr := a, write := false, len := n, data := data, poison := poison, ns := ns } =
      ((s.ddrRead a n).1.channelTime (chanOf a) ns).emit (.answer (s.ddrRead a n).2) := by
  rw [State.ddrAnswer, State.ddrRun, if_neg (by simp), h]

/-- A write changes its own channel, of which it keeps the state and the waiting requests, and is seen where it wrote. -/
theorem wrote_rest (s : State) (a : Nat) (data : List Byte) (poison : Bool) (ns : Nat) (he : s.ddrErr a = none) :
    (wrote s a data poison ns).out = s.out ∧ (wrote s a data poison ns).bays = s.bays ∧
      (∀ k, k ≠ chanOf a → (wrote s a data poison ns).chan k = s.chan k) ∧
      ((wrote s a data poison ns).chan (chanOf a)).state = (s.chan (chanOf a)).state ∧
      ((wrote s a data poison ns).chan (chanOf a)).waits = (s.chan (chanOf a)).waits ∧
      ((s.chan (chanOf a)).wq.length + (lineSpan a data.length).length ≤ 64 → ∀ y,
        ((wrote s a data poison ns).chan (chanOf a)).see y =
          if a ≤ y ∧ y < a + data.length then data.getD (y - a) 0#8 else (s.chan (chanOf a)).see y) := by
  obtain ⟨rest, waits⟩ := ddrWrite_rest (C := (· = chanOf a)) s a data poison rfl
  have e : s.ddrWrite a data poison =
      ((lineSpan a data.length).foldl (fun t l => t.lineWrite (chanOf a) l (lineBytes a l data) poison) s, {}) := by
    rw [State.ddrWrite, he]
  rw [e] at rest waits
  obtain ⟨time, chans⟩ := channelTime_chans (C := (· = chanOf a))
    ((lineSpan a data.length).foldl (fun t l => t.lineWrite (chanOf a) l (lineBytes a l data) poison) s) (chanOf a) ns
  refine ⟨(channelTime_out _ _ _).trans (linesWrite_out _ _ _ _ _ _), time.bays.trans rest.bays, fun k hk => ?_, ?_, ?_,
    fun hq y => ?_⟩
  · rw [wrote, chans, rest.chan hk]
  · obtain ⟨_, _, _, _, same⟩ := rest.same (chanOf a)
    rw [wrote, chans, same]
  · rw [wrote, chans, waits]
  · rw [wrote, chans, linesWrite_see (chanOf a) a data poison _ s hq y]
    refine if_congr ⟨fun h => h.2, fun h => ⟨mem_lineSpan a _ y h.1 h.2, h⟩⟩ rfl rfl

/-- A read of a channel whose contents are known answers what the channel shows, and names the poisoned words. -/
theorem ddrRead_known {s : State} {a : Nat} (n : Nat) (he : s.ddrErr a = none) (hw : (s.chan (chanOf a)).wild = false) :
    (s.ddrRead a n).2 = { data := (List.range n).map fun i => (s.chan (chanOf a)).see (a + i)
                          bad := (List.range ((n + 3) / 4)).filter fun w =>
                            decide ((a + 4 * w) / 64 ∈ (lineSpan a n).filter (s.chan (chanOf a)).poisoned) } ∧
      ∃ b, (s.ddrRead a n).1.chan (chanOf a) = { s.chan (chanOf a) with back := b } := by
  obtain ⟨-, bad, b, back⟩ := readLines_rest (C := (· = chanOf a)) (chanOf a) a rfl (lineSpan a n) s
  have e : s.ddrRead a n = ((s.readLines (chanOf a) a (lineSpan a n)).1,
      { data := (List.range n).map fun i => ((s.readLines (chanOf a) a (lineSpan a n)).1.chan (chanOf a)).see (a + i),
        bad := (List.range ((n + 3) / 4)).filter fun w =>
          decide ((a + 4 * w) / 64 ∈ (s.readLines (chanOf a) a (lineSpan a n)).2) }) := by
    rw [State.ddrRead, he]
    exact if_neg (by simp [hw])
  rw [e, bad]
  refine ⟨?_, b, back⟩
  rw [back]
  rfl

theorem ddrRead_out {s : State} {a : Nat} (n : Nat) (he : s.ddrErr a = none) : (s.ddrRead a n).1.out = s.out := by
  rw [State.ddrRead, he]
  dsimp only
  split
  · exact wildRead_out s a n
  · exact readLines_out _ _ _ _

theorem ddrRead_wild {s : State} {a : Nat} (n : Nat) (he : s.ddrErr a = none) (hw : (s.chan (chanOf a)).wild = true) :
    (s.ddrRead a n).2.err = none := by
  rw [State.ddrRead, he]
  dsimp only
  rw [if_pos hw]
  exact (wildRead_rest (C := fun _ => True) s a n).2

/-- What a read that is served leaves: its answer, the other channels and all bays as they were. -/
theorem ddrRead_frame {s : State} {a : Nat} (n ns : Nat) (he : s.ddrErr a = none) (p : Resp) :
    let t := ((s.ddrRead a n).1.channelTime (chanOf a) ns).emit (.answer p)
    t.out = s.out ++ [.answer p] ∧ t.bays = s.bays ∧ (∀ k, k ≠ chanOf a → t.chan k = s.chan k) ∧
      (∀ k, (t.chan k).state = (s.chan k).state) ∧ t.chan (chanOf a) = (s.ddrRead a n).1.chan (chanOf a) := by
  intro t
  have rest := ddrRead_rest (C := (· = chanOf a)) s a n rfl
  obtain ⟨time, chans⟩ := channelTime_chans (C := (· = chanOf a)) (s.ddrRead a n).1 (chanOf a) ns
  refine ⟨?_, time.bays.trans rest.bays, fun k hk => (chans k).trans (rest.chan hk), fun k => ?_, chans _⟩
  · rw [State.emit_out, channelTime_out, ddrRead_out n he]
  · obtain ⟨_, _, _, _, same⟩ := rest.same k
    rw [State.chan_of_emit, chans, same]

/-- Settles O31: the request runs on what the upsets leave of the state, whose marks alone may differ. -/
theorem ddrRequests : Obligations.DdrRequests := by
  intro s a n ns data poison u x c
  have he (e : Option Err) (h : s.ddrErr a = e) : x.ddrErr a = e := (ddrErr_ddrUpset s.start u a).trans h
  obtain ⟨m, hm⟩ := chan_ddrUpset s.start u c
  have hm' : x.chan (chanOf a) = { s.chan c with marks := m } := hm
  have hin := inEpisode_ddrUpset s.start u a
  have hx : x.out = [] := out_ddrUpset s.start u
  have go (write : Bool) : s.start.ddrAccess a write n data poison ns u false =
      if x.inEpisode a then x.setChan c { x.chan c with waits := (x.chan c).waits ++
          [{ addr := a, write := write, len := n, data := data, poison := poison, ns := ns }] }
      else x.ddrAnswer { addr := a, write := write, len := n, data := data, poison := poison, ns := ns } :=
    (ddrAccess_eq s.start a write n data poison ns u).trans rfl
  refine ⟨fun h hr => ?_, fun write h hr => ?_, fun write e h => ?_⟩
  · have out : x.inEpisode a = false := hin.trans (by
      rw [Bool.and_eq_false_iff]
      exact .inr (decide_eq_false hr))
    have run (write : Bool) := (go write).trans (if_neg (Bool.eq_false_iff.1 out))
    refine ⟨?_, fun hw => ?_, fun hw => ?_⟩
    · obtain ⟨hout, hbays, other, state, waits, see⟩ := wrote_rest x a data poison ns (he _ h)
      refine ⟨_, runs (f := fun t => t.ddrAccess a true n data poison ns u false) rfl
        ((run true).trans (ddrAnswer_write (he _ h) n data poison ns)), ?_, other, ?_, ?_,
        hbays.trans (bays_ddrUpset s.start u), fun hq y => ?_⟩
      · rw [State.emit_out, hout, hx]
        rfl
      · rw [State.chan_of_emit, state, hm']
      · rw [State.chan_of_emit, waits, hm']
      · refine (see ?_ y).trans ?_
        · rw [hm']
          exact hq
        · rw [hm']
          rfl
    · have hw' : (x.chan (chanOf a)).wild = false := by
        rw [hm']
        exact hw
      obtain ⟨answer, b, back⟩ := ddrRead_known n (he _ h) hw'
      obtain ⟨hout, hbays, other, -, own⟩ := ddrRead_frame n ns (he _ h) (x.ddrRead a n).2
      rw [back] at own
      have see (y : Nat) : (x.chan (chanOf a)).see y = (s.chan c).see y := by
        rw [hm']
        rfl
      refine ⟨_, runs (f := fun t => t.ddrAccess a false n data poison ns u false) rfl
        ((run false).trans (ddrAnswer_read n data poison ns (by rw [answer]))), ?_, other, fun y => ?_, ?_,
        hbays.trans (bays_ddrUpset s.start u)⟩
      · rw [hout, hx, answer]
        simp only [see]
        rfl
      · rw [own]
        exact see y
      · rw [own]
    · have hw' : (x.chan (chanOf a)).wild = true := by
        rw [hm']
        exact hw
      obtain ⟨hout, hbays, -, state, -⟩ := ddrRead_frame n ns (he _ h) (x.ddrRead a n).2
      refine ⟨_, (x.ddrRead a n).2, runs (f := fun t => t.ddrAccess a false n data poison ns u false) rfl
        ((run false).trans (ddrAnswer_read n data poison ns (ddrRead_wild n (he _ h) hw'))), ?_,
        ddrRead_wild n (he _ h) hw', fun k => ?_, hbays.trans (bays_ddrUpset s.start u)⟩
      · rw [hout, hx]
        rfl
      · obtain ⟨m, hk⟩ := chan_ddrUpset s.start u k
        rw [state, hk]
        rfl
  · refine runs (f := fun t => t.ddrAccess a write n data poison ns u false) rfl ((go write).trans (if_pos ?_))
    rw [hin, show s.start.ddrErr a = none from h]
    exact decide_eq_true hr
  · refine runs (f := fun t => t.ddrAccess a write n data poison ns u false) rfl ((go write).trans ((if_neg ?_).trans ?_))
    · rw [hin, show s.start.ddrErr a = some e from h]
      simp
    · cases write
      · have r : x.ddrRead a n = (x, { data := zeros n, err := some e }) := by
          rw [State.ddrRead, he _ h]
        rw [State.ddrAnswer, State.ddrRun, if_neg (by simp), r]
        rfl
      · have r : x.ddrWrite a data poison = (x, { err := some e }) := by
          rw [State.ddrWrite, he _ h]
        rw [State.ddrAnswer, State.ddrRun, if_pos rfl, r]
        rfl

end Sys2Proof.Proofs.Requests


/-!
Refresh episodes, calibration, temperature (R314–R321).
-/
namespace Sys2Proof.Proofs.Refresh
open Sys2Proof Sys2Proof.Machine Running Laws.Channels Requests

/-! ## Refresh episodes (R314, R315) -/

/-- Requests that resume change no channel but for the data, the marks, the write queue and the lines to write back. -/
theorem ddrResume_same (u : State) (c : Nat) (go : DdrReq → Bool) :
    (u.ddrResume c go).bays = u.bays ∧
      (∀ k, ((u.ddrResume c go).chan k).state = (u.chan k).state) ∧
      ((u.ddrResume c go).chan c).episodes = (u.chan c).episodes ∧ ((u.ddrResume c go).chan c).scrub = (u.chan c).scrub := by
  have g := ddrResume_rest (C := fun _ => True) u c go fun _ _ => trivial
  obtain ⟨_, _, _, _, own⟩ := g.same c
  refine ⟨g.bays, fun k => ?_, ?_, ?_⟩
  · obtain ⟨_, _, _, _, same⟩ := g.same k
    by_cases hk : k = c
    · subst hk
      rw [same, State.chan_setChan]
    · rw [same, State.chan_setChan_ne _ _ hk]
  · rw [own, State.chan_setChan]
  · rw [own, State.chan_setChan]

theorem ddrResume_none {u : State} {c : Nat} (go : DdrReq → Bool) (h : (u.chan c).waits = []) :
    u.ddrResume c go = u.setChan c { u.chan c with waits := [] } := by
  rw [State.ddrResume, h]
  rfl

/-- The end of a refresh episode on what the upsets leave. -/
theorem refreshEnd_eq {s : State} {c r : Nat} (u : List (Nat × Nat)) (h : r ∈ (s.chan c).episodes) :
    s.refreshEnd c r u = ((s.ddrUpset u).refreshScrub c r).ddrResume c fun q =>
      decide (((s.ddrUpset u).refreshScrub c r).rankOf q.addr = r) :=
  if_neg (fun k => k h)

theorem refreshEnds (s : State) (c r : Nat) (u : List (Nat × Nat)) (h : r ∈ (s.chan c).episodes) :
    let x := s.ddrUpset u
    ∃ t, s.refreshEnd c r u = t ∧ (t.chan c).episodes = (s.chan c).episodes.filter (· ≠ r) ∧
      (∀ k, (t.chan k).state = (s.chan k).state) ∧ t.bays = s.bays ∧
      ((∀ l ∈ (s.chan c).back, s.rankOf (l * 64) ≠ r) → bitAt (s.reg (memBase c + 4)) 3 = true →
        tgetD 0 (t.chan c).scrub r = if tgetD 0 (s.chan c).scrub r + 1 < 2 ^ (cfgRow (s.memCfg c) + 11) then
          tgetD 0 (s.chan c).scrub r + 1 else 0) ∧
      ((s.chan c).waits = [] → (t.chan c).mem = (s.chan c).mem ∧ (t.chan c).wq = (s.chan c).wq ∧
        (∀ k, k ≠ c → t.chan k = x.chan k) ∧
        ∀ l, (s.chan c).back.find? (fun l => decide (s.rankOf (l * 64) = r)) = some l →
          (t.chan c).back = (s.chan c).back.filter (· ≠ l) ∧
          (markOf (x.chan c).marks l % 4 = 1 → markOf (t.chan c).marks l = 0)) := by
  intro x
  obtain ⟨y, hy, other, bays, -, ep, st, mem, waits, wq⟩ := refreshScrub_rest x c r
  obtain ⟨rbays, rstate, rep, rscrub⟩ := ddrResume_same (x.refreshScrub c r) c fun q => decide ((x.refreshScrub c r).rankOf q.addr = r)
  obtain ⟨m, hm⟩ := chan_ddrUpset s u c
  have hx : x.chan c = { s.chan c with marks := m } := hm
  have regs : x.reg (memBase c + 4) = s.reg (memBase c + 4) ∧ x.memCfg c = s.memCfg c := by
    obtain ⟨D, e, -, -⟩ := ddrUpset_rest u s
    rw [show x = _ from e]
    exact ⟨rfl, rfl⟩
  have find : ((x.chan c).back.find? fun l => decide (x.rankOf (l * 64) = r)) =
      (s.chan c).back.find? fun l => decide (s.rankOf (l * 64) = r) := by
    rw [hx]
    simp only [x, rankOf_ddrUpset]
  refine ⟨_, refreshEnd_eq u h, ?_, fun k => ?_, ?_, fun hb h3 => ?_, fun hw => ?_⟩
  · rw [rep, hy, ep, hx]
  · obtain ⟨m, hk⟩ := chan_ddrUpset s u k
    rw [rstate]
    by_cases hkc : k = c
    · subst hkc
      rw [hy, st, hx]
    · rw [other k hkc, show x.chan k = _ from hk]
  · rw [rbays, bays]
    exact bays_ddrUpset s u
  · rw [rscrub, refreshScrub_patrol x c r (find.trans (List.find?_eq_none.2 fun l hl => by simpa using hb l hl))
      (by rw [regs.1]; exact h3), patrolNext, regs.2, hx]
  · have hw' : ((x.refreshScrub c r).chan c).waits = [] := by rw [hy, waits, hx]; exact hw
    rw [ddrResume_none _ hw']
    refine ⟨?_, ?_, fun k hk => ?_, fun l hl => ?_⟩
    · rw [State.chan_setChan, hy, mem, hx]
    · rw [State.chan_setChan, hy, wq, hx]
    · rw [State.chan_setChan_ne _ _ hk, other k hk]
    · obtain ⟨hback, hmark⟩ := refreshScrub_back x c r l (find.trans hl)
      rw [State.chan_setChan]
      refine ⟨hback.trans (by rw [hx]), hmark⟩

/-! ## Temperature (R317, R318, R321) -/

/-- A poll stores the readings and judges ALARM, doubled refresh and retraining. -/
theorem tempPolls (s : State) (c t0 t1 : Nat) :
    ∃ t, s.tempPoll c t0 t1 = t ∧
      let h := sbyte (hotter (s.memCfg c) t0 t1)
      (t.chan c).t0 = t0 % 256 ∧ (t.chan c).t1 = (if bitAt (s.memCfg c) 25 then t1 % 256 else 0) ∧
      ((t.chan c).alarm = true ↔ 95 ≤ h) ∧
      ((t.chan c).fast = true ↔ 83 < h ∨ (80 < h ∧ (s.chan c).fast = true)) ∧
      ((t.chan c).retrain = if (s.chan c).state = 2 ∧ (s.chan c).retrain = 0 ∧
        (10 ≤ h - sbyte (s.chan c).ttrain ∨ h - sbyte (s.chan c).ttrain ≤ -10) then 1 else (s.chan c).retrain) ∧
      (95 ≤ h → (s.chan c).alarm = false → t.sq (memBase c + 0x20) = (s.sq (memBase c + 0x20)).event 5) ∧
      (¬(95 ≤ h ∧ (s.chan c).alarm = false) → t.regs = s.regs) ∧
      (t.chan c).mem = (s.chan c).mem ∧ (∀ k, k ≠ c → t.chan k = s.chan k) ∧ t.bays = s.bays := by
  let h := sbyte (hotter (s.memCfg c) t0 t1)
  let y : Chan := { s.chan c with
    t0 := t0 % 256, t1 := if bitAt (s.memCfg c) 25 then t1 % 256 else 0
    fast := if 83 < h then true else if h ≤ 80 then false else (s.chan c).fast
    alarm := decide (95 ≤ h)
    retrain := if (s.chan c).state = 2 ∧ (s.chan c).retrain = 0 ∧
      (10 ≤ h - sbyte (s.chan c).ttrain ∨ h - sbyte (s.chan c).ttrain ≤ -10) then 1 else (s.chan c).retrain }
  have e : s.tempPoll c t0 t1 = if 95 ≤ h ∧ (s.chan c).alarm = false then (s.setChan c y).event (memBase c + 0x20) 5
      else s.setChan c y := tempPoll_eq s c t0 t1
  have fast : y.fast = true ↔ 83 < h ∨ (80 < h ∧ (s.chan c).fast = true) := by
    show (if 83 < h then true else if h ≤ 80 then false else (s.chan c).fast) = true ↔ _
    split_ifs <;> simp_all
  have alarm : y.alarm = true ↔ 95 ≤ h := decide_eq_true_iff
  by_cases ha : 95 ≤ h ∧ (s.chan c).alarm = false
  · rw [if_pos ha] at e
    refine ⟨_, e, ?_⟩
    dsimp only
    rw [State.chan_of_event, State.chan_setChan]
    exact ⟨rfl, rfl, alarm, fast, rfl, fun _ _ => State.sq_event _ _ _, fun k => absurd ha k, rfl,
      fun k hk => (State.chan_of_event _ _ _ _).trans (State.chan_setChan_ne _ _ hk), rfl⟩
  · rw [if_neg ha] at e
    refine ⟨_, e, ?_⟩
    dsimp only
    rw [State.chan_setChan]
    exact ⟨rfl, rfl, alarm, fast, rfl, fun h1 h2 => absurd ⟨h1, h2⟩ ha, fun _ => rfl, rfl,
      fun k hk => State.chan_setChan_ne _ _ hk, rfl⟩

/-- Settles O32: each event at a READY channel runs its own function; the end of an episode by `refreshEnds`. -/
theorem refreshAndCalibration : Obligations.RefreshAndCalibration := by
  refine fun s c => ⟨fun r h hr he => ?_, fun r u h => ?_, fun r h => ?_, fun h => ⟨_, rfl, ?_⟩, fun t0 t1 => ?_,
    fun last h hr => ?_⟩
  · exact runs (f := fun t => t.refreshStart c r) rfl (if_pos ⟨h, hr, he⟩)
  · obtain ⟨t, e, rest⟩ := refreshEnds s.start c r u h
    exact ⟨t, runs (f := fun t => t.refreshEnd c r u) rfl e, rest⟩
  · exact runs (f := fun t => t.zqcs c r) rfl (if_pos h)
  · exact runs (f := fun t => t.caParity c) rfl (if_pos h)
  · obtain ⟨t, e, rest⟩ := tempPolls s.start c t0 t1
    exact ⟨t, runs (f := fun t => t.tempPoll c t0 t1) rfl e, rest⟩
  · refine runs (f := fun t => t.retrainSlice c last) rfl ((if_pos ⟨h, hr⟩).trans ?_)
    by_cases hl : last = true ∨ 64 ≤ (s.chan c).retrain
    · rw [if_pos hl]
      exact if_pos (Bool.or_eq_true_iff.2 (hl.imp_right decide_eq_true))
    · rw [if_neg hl]
      exact if_neg fun k => hl ((Bool.or_eq_true_iff.1 k).imp_right of_decide_eq_true)

end Sys2Proof.Proofs.Refresh



/-!
The scribe: epochs, page moves and task moves (R335–R343).
-/
namespace Sys2Proof.Proofs.Moves
open Sys2Proof Sys2Proof.Machine Running Laws.MoveSteps Laws.ScribeOps

/-! ## Epochs (R335, R336) -/

theorem epochEnd_keeps {s : State} {d : Nat} (h1 : s.stgOn = true) (h2 : s.rsu.raised = true)
    (hd : d = if fld (s.reg 0x40004) 9 3 = 0 then 1 else fld (s.reg 0x40004) 9 3) :
    s.epochEnd.count 0x40010 = (s.count 0x40010 + 1) % 2 ^ 64 ∧
      s.epochEnd.scr.us = (s.scr.us / 1000 + 1) * 1000 ∧ s.epochEnd.scr.counts = [] ∧
      s.epochEnd.scr.pages = s.scr.pages.map (fun e =>
        (e.1, { e.2 with heat := satAdd (2 ^ 24 - 1) (e.2.heat - e.2.heat / 2 ^ d) (s.pageCount e.1) })) := by
  have e := (epochEnd_view s h1 h2).1
  refine ⟨?_, congrArg (·.2.1) e, congrArg (·.2.2.1) e, ?_⟩
  · exact (congrArg (fun v : Tab Nat × Nat × Tab Nat × Tab PageEnt => tgetD 0 v.1 0x40010) e).trans
      (State.count_setCount s 0x40010 (s.count 0x40010 + 1))
  · rw [hd]
    exact congrArg (·.2.2.2) e

/-- Settles O33, by the part of the scribe that heat reads (`epochEnd_view`). -/
theorem epochs : Obligations.Epochs := by
  intro s d h1 h2 hd
  obtain ⟨hcount, hus, hcounts, hpages⟩ := epochEnd_keeps (s := s.start) h1 h2 hd
  exact ⟨_, runs (f := fun t => if t.stgOn then t.epochEnd else t) rfl (if_pos h1), hcount, hus, hcounts, hpages,
    (epochEnd_view s.start h1 h2).2⟩

/-! ## Page moves (R338) -/

theorem abandon_keeps (u : State) (m : PageMove) (n : Nat) :
    (u.abandon m n).scr.moves = u.scr.moves.filter (fun x => decide (x.key ≠ m.key)) ∧
      (u.abandon m n).page m.key = { u.page m.key with w0 := placeOf (u.page m.key).w0 } ∧
      (∀ j, j ≠ m.key → (u.abandon m n).page j = u.page j) ∧ (u.abandon m n).bays = u.bays ∧ (u.abandon m n).ddr = u.ddr := by
  let w := u.setPage m.key { u.page m.key with w0 := placeOf (u.page m.key).w0 }
  obtain ⟨S, R, h, b, p, e, -⟩ := moveOver_rest w m n (u.fenceNs m)
  have e' : u.abandon m n = _ := e
  rw [e']
  exact ⟨rfl, page_setPage u m.key _, fun j hj => page_setPage_ne u _ hj, rfl, rfl⟩

theorem pages_onMove (s : State) (k : Nat) (f : PageMove → PageMove) : (s.onMove k f).scr.pages = s.scr.pages := rfl

theorem page_onMove (s : State) (k j : Nat) (f : PageMove → PageMove) : (s.onMove k f).page j = s.page j := rfl

/-- A fence marks the entry and starts phase 1 of the move. -/
theorem setFence_keeps (u : State) (k : Nat) :
    (u.setFence k).page k = { u.page k with w0 := (u.page k).w0 ||| 0x20000000#32, fenced := u.epoch + 1 } ∧
      (u.setFence k).scr.moves = u.scr.moves.map (fun m => if m.key = k then { m with phase := 1, fenceAt := u.scr.us } else m) ∧
      (∀ j, j ≠ k → (u.setFence k).page j = u.page j) := by
  refine ⟨?_, rfl, fun j hj => ?_⟩
  · rw [State.setFence, page_onMove, page_setPage]
  · rw [State.setFence, page_onMove, page_setPage_ne _ _ hj]

/-- What a place of this device holds rests on bays, staging and channels. -/
theorem placeByte_congr {u v : State} (w : Word) (i : Nat) (hb : ∀ b, (v.bay b).scratch = (u.bay b).scratch)
    (hs : v.stg = u.stg) (hd : v.ddr = u.ddr) : v.placeByte w i = u.placeByte w i := by
  have bank (n : Nat) : v.bank n = u.bank n := by rw [State.bank, State.bank, hs]
  have chan (n : Nat) : v.chan n = u.chan n := by rw [State.chan, State.chan, hd]
  unfold State.placeByte
  simp only [hb, bank, chan]

/-- Copying lines between places of this device changes ports of bays and nothing else that the scribe keeps. -/
theorem copyRest_keeps {u v : State} (h : CopyRest u v) :
    v.scr = u.scr ∧ v.ddr = u.ddr ∧ v.stg = u.stg ∧ ∀ b, ∃ p, v.bay b = { u.bay b with pipe := p } := by
  obtain ⟨f, r, B, rfl, bay⟩ := h
  exact ⟨rfl, rfl, rfl, bay⟩

section
variable {s : State} {k : Nat} {m : PageMove} (hm : s.moveOf k = some m)
include hm

/-- A pass that leaves few enough dirty lines sets the fence. -/
theorem copyPass_fences (refused : Bool) (h0 : m.phase = 0) (hr : refused = true → tierOf m.dst ≠ 3)
    (hf : s.copying k = false ∧ s.placeWaits m.src = false ∧ s.placeWaits m.dst = false)
    (hd : m.dirty.length ≤ fld (s.reg 0x40004) 12 6 + 1) :
    ∃ t, s.copyPass k refused = t ∧
      t.page k = { s.page k with w0 := (s.page k).w0 ||| 0x20000000#32, fenced := s.epoch + 1 } ∧
      t.scr.moves = s.scr.moves.map (fun x => if x.key = k then
        { x with passes := m.passes + 1, phase := 1, fenceAt := s.scr.us } else x) ∧
      (∀ j, j ≠ k → t.page j = s.page j) ∧ t.bays = s.bays ∧ t.ddr = s.ddr ∧ t.stg = s.stg := by
  obtain ⟨own, moves, other⟩ := setFence_keeps (s.onMove k fun x => { x with passes := m.passes + 1 }) k
  refine ⟨_, copyPass_fence s k m refused hm h0 hr hd hf.1 hf.2.1 hf.2.2, own, ?_, other, rfl, rfl, rfl⟩
  exact moves.trans (map_twice s.scr.moves k (fun x => { x with passes := m.passes + 1 })
    (fun x => { x with phase := 1, fenceAt := s.scr.us }) fun _ h => h)

/-- A pass that leaves more dirty lines copies them; between places of this device it changes nothing but ports. -/
theorem copyPass_copies (refused : Bool) (h0 : m.phase = 0) (hr : refused = true → tierOf m.dst ≠ 3)
    (hf : s.copying k = false ∧ s.placeWaits m.src = false ∧ s.placeWaits m.dst = false)
    (hd : fld (s.reg 0x40004) 12 6 + 1 < m.dirty.length) (hp : m.passes + 1 < 8) :
    ∃ t, s.copyPass k refused = t ∧
      t = (((s.onMove k fun x => { x with passes := m.passes + 1 }).copyLines k m.dirty).onMove k
        fun x => { x with dirty := [] }) ∧
      (tierOf m.src ≠ 3 ∧ tierOf m.dst ≠ 3 → t.scr.moves = s.scr.moves.map (fun x => if x.key = k then
          { x with passes := m.passes + 1, dirty := [] } else x) ∧
        t.scr.pages = s.scr.pages ∧ t.ddr = s.ddr ∧ t.stg = s.stg ∧ ∀ b, ∃ p, t.bay b = { s.bay b with pipe := p }) := by
  refine ⟨_, copyPass_again s k m refused hm h0 hr hd hp hf.1 hf.2.1 hf.2.2, rfl, fun home => ?_⟩
  obtain ⟨scr, ddr, stg, bay⟩ := copyRest_keeps (copyLines_local (s.onMove k fun x => { x with passes := m.passes + 1 }) k
    { m with passes := m.passes + 1 } m.dirty (onMove_of s k m _ hm fun _ => rfl) home.1 home.2)
  refine ⟨?_, ?_, ddr, stg, bay⟩
  case refine_2 => rw [pages_onMove, scr, pages_onMove]
  rw [onMove_moves, scr]
  exact map_twice s.scr.moves k (fun x => { x with passes := m.passes + 1 }) (fun x => { x with dirty := [] }) fun _ h => h

/-- The eighth pass that leaves too many dirty lines abandons the move. -/
theorem copyPass_abandons (refused : Bool) (h0 : m.phase = 0) (hr : refused = true → tierOf m.dst ≠ 3)
    (hf : s.copying k = false ∧ s.placeWaits m.src = false ∧ s.placeWaits m.dst = false)
    (hd : fld (s.reg 0x40004) 12 6 + 1 < m.dirty.length) (hp : 8 ≤ m.passes + 1) :
    ∃ t, s.copyPass k refused = t ∧
      t.scr.moves = s.scr.moves.filter (fun x => decide (x.key ≠ k)) ∧
      t.page k = { s.page k with w0 := placeOf (s.page k).w0 } ∧
      (∀ j, j ≠ k → t.page j = s.page j) ∧ t.bays = s.bays ∧ t.ddr = s.ddr := by
  obtain rfl := moveOf_key s k m hm
  obtain ⟨moves, own, other, bays, ddr⟩ := abandon_keeps (s.onMove m.key fun x => { x with passes := m.passes + 1 })
    { m with passes := m.passes + 1 } 1
  refine ⟨_, copyPass_eighth s m.key m refused hm h0 hr hd hp hf.1 hf.2.1 hf.2.2, ?_, own, other, bays, ddr⟩
  rw [moves, onMove_moves]
  exact filter_map_key s.scr.moves m.key (fun x => { x with passes := m.passes + 1 }) fun _ => rfl

/-- The acknowledged fence has the last dirty lines copied. -/
theorem fenceAck_copies (h1 : m.phase = 1) (ha : s.accessing k = false) :
    ∃ t, s.fenceAck k = t ∧
      t = ((s.copyLines k m.dirty).onMove k fun x => { x with phase := 2, dirty := [] }) ∧
      (tierOf m.src ≠ 3 ∧ tierOf m.dst ≠ 3 →
        t.scr.moves = s.scr.moves.map (fun x => if x.key = k then { x with phase := 2, dirty := [] } else x) ∧
        t.scr.pages = s.scr.pages ∧ t.ddr = s.ddr ∧ t.stg = s.stg ∧ ∀ b, ∃ p, t.bay b = { s.bay b with pipe := p }) := by
  have go : s.fenceAck k = (s.copyLines k m.dirty).onMove k fun x => { x with phase := 2, dirty := [] } := by
    rw [State.fenceAck, hm]
    exact if_pos (by simp [h1, ha])
  refine ⟨_, go, rfl, fun home => ?_⟩
  obtain ⟨scr, ddr, stg, bay⟩ := copyRest_keeps (copyLines_local s k m m.dirty hm home.1 home.2)
  refine ⟨?_, ?_, ddr, stg, bay⟩
  · rw [onMove_moves, scr]
  · rw [pages_onMove, scr]

/-- The end of a page move copies the page, gives the entry its new place and drops the move. -/
theorem completeMove_ends (ns : Nat) (remote : List Byte) (h2 : m.phase = 2)
    (hf : s.copying k = false ∧ s.placeWaits m.src = false ∧ s.placeWaits m.dst = false)
    (home : tierOf m.src ≠ 3 ∧ tierOf m.dst ≠ 3) :
    ∃ t, s.completeMove k ns remote = t ∧
      (t.page k).w0 = placeOf m.dst ∧ (∀ j, j ≠ k → t.page j = s.page j) ∧
      t.scr.moves = s.scr.moves.filter (fun x => decide (x.key ≠ k)) ∧
      (bitAt (s.reg 0x400C0) 31 = false → ∀ i, i < 65536 → t.placeByte m.dst i = s.placeByte m.src i) := by
  have key : m.key = k := moveOf_key s k m hm
  let r := s.readPage m.src (m.image remote) m.imageBad
  let w := r.1.writePage m.dst r.2
  obtain ⟨scr, cfg⟩ : ScrSame s w := (readPage_scr s m.src (m.image remote) m.imageBad).trans (writePage_scr r.1 m.dst r.2)
  obtain ⟨v, hv, e⟩ := completeMove_rest s k ns remote m hm key h2 hf.1 hf.2.1 hf.2.2 w rfl
  obtain ⟨S, R, h, b, p, ev, quiet⟩ := moveOver_rest (w.setPage k { w.page k with w0 := placeOf m.dst }) m 0 ns
  rw [key] at ev
  have hv' := hv.trans ev
  have page (j : Nat) : v.page j = (w.setPage k { w.page k with w0 := placeOf m.dst }).page j := by
    rw [hv']
    rfl
  have same (j : Nat) : w.page j = s.page j := by rw [State.page, State.page, scr]
  have moves : v.scr.moves = s.scr.moves.filter (fun x => decide (x.key ≠ k)) := by
    rw [hv']
    exact congrArg (fun x : Scribe => x.moves.filter fun m => decide (m.key ≠ k)) scr
  have byte (hl : bitAt (s.reg 0x400C0) 31 = false) (i : Nat) (hi : i < 65536) : v.placeByte m.dst i = s.placeByte m.src i := by
    have stg : S = w.stg := quiet (by rw [← hl, ← cfg]; rfl)
    rw [placeByte_congr (u := w) m.dst i (fun b => by rw [hv']; rfl) (by rw [hv', stg]) (by rw [hv']; rfl),
      writePage_byte r.1 m.dst r.2 home.2 i hi]
    exact readPage_byte s m.src _ _ home.1 i
  have own : (v.page k).w0 = placeOf m.dst := by rw [page, page_setPage]
  have other (j : Nat) (hj : j ≠ k) : v.page j = s.page j := by rw [page, page_setPage_ne _ _ hj, same]
  by_cases ht : tierOf m.src < tierOf m.dst
  · rw [if_pos ht] at e
    obtain ⟨B, et, bays⟩ := tellSlower_rest v k (tierOf m.dst)
    refine ⟨_, e, ?_, fun j hj => ?_, ?_, fun hl i hi => ?_⟩
    · rw [et]
      exact own
    · rw [et]
      exact other j hj
    · rw [et]
      exact moves
    · rw [placeByte_congr (u := v) m.dst i (fun b => (bays b).1) (by rw [et]) (by rw [et])]
      exact byte hl i hi
  · rw [if_neg ht] at e
    exact ⟨_, e, own, other, moves, byte⟩

end

/-! ## Task moves (R342, R343) -/

/-- Leaving its slot clears the placement of a task, and no other bay. -/
theorem leaveSlot_keeps (u : State) (k : Nat) :
    (u.leaveSlot k).taskWord k 0 = u.taskWord k 0 &&& 0xE000FFFF#32 ∧
      tgetD none ((u.leaveSlot k).bay (u.taskBay k)).qio.slots (u.taskSlot k) = none ∧
      (∀ b, b ≠ u.taskBay k → (u.leaveSlot k).bay b = u.bay b) ∧ (u.leaveSlot k).qm = u.qm ∧ (u.leaveSlot k).ddr = u.ddr ∧
      (u.leaveSlot k).scr.taskMoves = u.scr.taskMoves := by
  refine ⟨tgetD_tsetD_same 0#32 u.scr.tasks (k * 8) _, ?_, fun b hb => State.bay_onBay_ne _ _ hb, rfl, rfl, rfl⟩
  rw [State.leaveSlot, State.bay_onBay]
  exact tgetD_tsetD_same none _ (u.taskSlot k) none

section
variable {s : State} {k : Nat} {m : TaskMove} (hm : s.taskMove k = some m)
include hm

/-- An UNPLACE ends when the run of its task has ended: the slot is clear. -/
theorem drained_unplaces (h4 : m.phase = 4) (h1 : (s.bay m.src).running k = false) (h2 : (s.bay m.src).sending k = false)
    (hd : m.dst = none) :
    ∃ t, s.drained k = t ∧
      t.scr.taskMoves = s.scr.taskMoves.filter (fun x => decide (x.task ≠ k)) ∧
      t.taskWord k 0 = s.taskWord k 0 &&& 0xE000FFFF#32 ∧
      tgetD none (t.bay (s.taskBay k)).qio.slots (s.taskSlot k) = none ∧
      (∀ b, b ≠ s.taskBay k → t.bay b = s.bay b) ∧ t.qm = s.qm ∧ t.ddr = s.ddr := by
  obtain rfl := taskMove_key s k m hm
  have go : s.drained m.task = s.unplaced m := by
    rw [State.drained, hm]
    dsimp only
    rw [if_neg (by simp [h4, h1, h2]), if_pos (by simp [hd])]
  obtain ⟨S, R, h, b, p, e⟩ := taskOver_rest (s.leaveSlot m.task) m
  obtain ⟨word, slot, other, qm, ddr, moves⟩ := leaveSlot_keeps s m.task
  refine ⟨_, go, ?_⟩
  rw [State.unplaced, e]
  split_ifs <;> exact ⟨congrArg _ moves, word, slot, other, qm, ddr⟩

/-- A run that outlasts MIGWAIT ends the move with the task where it was. -/
theorem migwait_ends (h4 : m.phase = 4) (h1 : (s.bay m.src).running k = true) :
    ∃ t, s.migwait k = t ∧
      t.scr.taskMoves = s.scr.taskMoves.filter (fun x => decide (x.task ≠ k)) ∧ t.scr.tasks = s.scr.tasks ∧
      t.bays = s.bays ∧ t.ddr = s.ddr ∧
      (bitAt (s.reg 0x400C0) 31 = false → m.evac = false → t.sq 0x40020 = (s.sq 0x40020).event 0 ∧ t.stg = s.stg) := by
  obtain rfl := taskMove_key s k m hm
  have go : s.migwait m.task = s.abandonTask m 2 := by
    rw [State.migwait, hm]
    exact if_pos (by simp [h4, h1])
  obtain ⟨x, e⟩ := thaw_rest s m.frozen
  obtain ⟨moves, tasks, bays, ddr⟩ := taskOver_lost (s.thaw m.frozen) m 2 (by decide)
  have quiet := taskOver_quiet (s.thaw m.frozen) m 2 (by decide)
  refine ⟨_, go, ?_, ?_, ?_, ?_, fun hl he => ?_⟩
  · rw [State.abandonTask, moves, e]
  · rw [State.abandonTask, tasks, e]
  · rw [State.abandonTask, bays, e]
  · rw [State.abandonTask, ddr, e]
  · obtain ⟨sq, stg⟩ := quiet he (by rw [e]; exact hl)
    rw [State.abandonTask, sq, stg, e]
    exact ⟨rfl, rfl⟩

end

/-- Settles O34: each step of a move by its own lemma above. -/
theorem moves : Obligations.Moves := by
  refine ⟨fun s tb pg m hm => ?_, fun s k m hm => ⟨fun d h4 h1 h2 hd => ?_, fun h4 h1 h2 hd => ?_,
    fun d h6 hd hs hb hr => ?_, fun h4 h1 => ?_⟩⟩
  · intro k free home
    refine ⟨fun refused h0 hr hf => ⟨fun hd => ?_, fun hd hp => ?_, fun hd hp => ?_⟩, fun h1 ha => ?_,
      fun ns remote h2 hf hh => ?_⟩
    · exact (copyPass_fences (s := s.start) hm refused h0 hr hf hd).imp fun t h =>
        ⟨runs (f := fun t => t.copyPass (pageKey tb pg) refused) rfl h.1, h.2⟩
    · exact (copyPass_copies (s := s.start) hm refused h0 hr hf hd hp).imp fun t h =>
        ⟨runs (f := fun t => t.copyPass (pageKey tb pg) refused) rfl h.1, h.2⟩
    · exact (copyPass_abandons (s := s.start) hm refused h0 hr hf hd hp).imp fun t h =>
        ⟨runs (f := fun t => t.copyPass (pageKey tb pg) refused) rfl h.1, h.2⟩
    · exact (fenceAck_copies (s := s.start) hm h1 ha).imp fun t h =>
        ⟨runs (f := fun t => t.fenceAck (pageKey tb pg)) rfl h.1, h.2⟩
    · exact (completeMove_ends (s := s.start) hm ns remote h2 hf hh).imp fun t h =>
        ⟨runs (f := fun t => t.completeMove (pageKey tb pg) ns remote) rfl h.1, h.2⟩
  · exact ⟨_, runs (f := fun t => t.drained k) rfl (drained_copies s.start k d m hm hd h4 h1 h2), rfl, rfl, rfl, rfl⟩
  · exact (drained_unplaces (s := s.start) hm h4 h1 h2 hd).imp fun t h =>
      ⟨runs (f := fun t => t.drained k) rfl h.1, h.2⟩
  · exact ⟨_, runs (f := fun t => t.completeTask k) rfl rfl, completeTask_facts s.start k d m hm hd
      (taskMove_key s k m hm) h6 hs hb hr⟩
  · exact (migwait_ends (s := s.start) hm h4 h1).imp fun t h =>
      ⟨runs (f := fun t => t.migwait k) rfl h.1, h.2⟩

end Sys2Proof.Proofs.Moves


/-!
Commands of the scribe on tasks, pages, tables, evacuations and releases (R331, R342–R352).
-/
namespace Sys2Proof.Proofs.ScribeCommands
open Sys2Proof Sys2Proof.Machine Running Laws.ScribeOps

/-! ## Task commands (R331, R342, R351) -/

/-- SCR_TRES of a command that starts is 0 until it ends. -/
def taskPending (s : State) : State := { s with scr := { s.scr with tres := 0 } }

section
variable {s : State} (ho : s.tOpen = true)
include ho

theorem tcmdMove_eq : s.tcmdMove = (taskPending s).taskMoveTry := by
  rw [State.tcmdMove, ho]
  rfl

theorem tcmdUnplace_eq : s.tcmdUnplace = (taskPending s).taskUnplaceTry := by
  rw [State.tcmdUnplace, ho]
  rfl

/-- READ copies the descriptor of the selected task, whose values are unspecified after a failed raise. -/
theorem tcmdRead_copies :
    ∃ t, s.tcmdRead = t ∧ t.scr = { s.scr with tbusy := false, tres := 0 } ∧
      (s.scr.lost = false → ∀ i, i < 8 → t.reg (0x40044 + 4 * i) = s.taskWord s.tsel i) ∧ t.bays = s.bays ∧ t.qm = s.qm := by
  cases hl : s.scr.lost
  · obtain ⟨g, e, words⟩ := tcmdRead_eq s ho hl
    exact ⟨_, e, rfl, fun _ => words, rfl, rfl⟩
  · obtain ⟨g, n, e⟩ := tcmdRead_lost s ho hl
    exact ⟨_, e, rfl, fun h => absurd h (by simp), rfl, rfl⟩

/-- WRITE changes the writable bits of the selected task, of word 0 alone while the task is placed. -/
theorem tcmdWrite_changes (h3 : policyOf (s.reg 0x40044) ≠ 3) :
    ∃ t, s.tcmdWrite = t ∧
      (∀ n, n < 7 → t.taskWord s.tsel n = if s.taskPlaced s.tsel = true ∧ n ≠ 0 then s.taskWord s.tsel n
        else (s.taskWord s.tsel n &&& ~~~ taskMask n) ||| (s.reg (0x40044 + 4 * n) &&& taskMask n)) ∧
      (∀ j n, n < 8 → (j ≠ s.tsel ∨ n = 7) → t.taskWord j n = s.taskWord j n) ∧ t.scr.tres = 0 ∧ t.bays = s.bays ∧
        t.qm = s.qm := by
  have written (n : Nat) (hn : n < 7) : (n ∈ if s.taskPlaced s.tsel then [0] else [0, 1, 2, 3, 4, 5, 6]) ↔
      ¬ (s.taskPlaced s.tsel = true ∧ n ≠ 0) := by
    cases s.taskPlaced s.tsel
    · simp
      omega
    · simp
  have le (n : Nat) (h : n ∈ if s.taskPlaced s.tsel then [0] else [0, 1, 2, 3, 4, 5, 6]) : n < 7 := by
    split at h <;> simp at h <;> omega
  have nodup : (if s.taskPlaced s.tsel then [0] else [0, 1, 2, 3, 4, 5, 6]).Nodup := by
    split <;> decide
  obtain ⟨g, e, own, other⟩ := putFold s.tsel (fun n => s.reg (0x40044 + 4 * n)) _ s nodup fun n h => by
    have := le n h
    omega
  have go := (tcmdWrite_eq s ho h3).trans (congrArg (State.endTaskCmd · 0) e)
  refine ⟨_, go, fun n hn => ?_, fun j n hn h => ?_, rfl, rfl, rfl⟩
  · refine (own n (by omega)).trans ?_
    by_cases hw : s.taskPlaced s.tsel = true ∧ n ≠ 0
    · rw [if_pos hw, if_neg fun k => (written n hn).1 k hw]
    · rw [if_neg hw, if_pos ((written n hn).2 hw)]
  · by_cases hj : j = s.tsel
    · obtain rfl : n = 7 := h.resolve_left fun k => k hj
      subst hj
      exact (own 7 hn).trans (if_neg fun k => absurd (le 7 k) (by decide))
    · exact other j n hn hj

/-- PLACE enters the task in the lowest free slot of the chosen bay. -/
theorem tcmdPlace_enters {i : Nat} (hv : s.taskValid s.tsel = true) (hp : s.taskPlaced s.tsel = false)
    (ha : s.admissible s.tsel s.tdest = true) (hi : s.freeSlot s.tdest = some i) :
    ∃ t, s.tcmdPlace = t ∧ t.scr.tres = 0 ∧ t.scr.tbusy = false ∧
      t.taskWord s.tsel 0 = (s.taskWord s.tsel 0 &&& 0xE000FFFF#32) ||| wd (2 ^ 28 + i % 16 * 2 ^ 24 + s.tdest % 256 * 2 ^ 16) ∧
      tgetD none (t.bay s.tdest).qio.slots i = some (s.slotFor s.tsel) := by
  obtain ⟨word, slot, -, -, -, -⟩ := enterSlot_facts s s.tsel s.tdest i
  obtain ⟨x, e⟩ := thaw_rest (s.enterSlot s.tsel s.tdest i) (s.boundTo s.tsel)
  refine ⟨_, (tcmdPlace_eq s i ho hv hp ha hi).trans (congrArg (State.endTaskCmd · 0) e), rfl, rfl, word, slot⟩

/-- A command on a task that is not valid ends with RESULT 5. -/
theorem invalid (hv : s.taskValid s.tsel = false) :
    s.tcmdPlace = s.endTaskCmd 5 ∧ s.tcmdMove = s.endTaskCmd 5 ∧ s.tcmdUnplace = s.endTaskCmd 5 := by
  refine ⟨?_, ?_, ?_⟩
  · rw [State.tcmdPlace, if_neg (by simp [ho])]
    exact if_pos (by simp [hv])
  · rw [tcmdMove_eq ho]
    exact if_pos (by rw [Bool.not_eq_true']; exact hv)
  · rw [tcmdUnplace_eq ho]
    exact if_pos (by rw [Bool.not_eq_true']; exact hv)

end

/-- Writing SCR_TCMD outside a raise runs the command. -/
theorem runs_tcmd {s : State} (hr : s.reachable 0x40068 = true) (hl : s.raiseLocks = false) {i : Instr} {v : Word} {t : State}
    (h : exec i s = s.run fun t => t.regWrite .host 0x40068 v) (e : s.start.tcmd (fld v 0 3) = t) :
    exec i s = .next (s.finish t) :=
  runs (f := fun t => t.regWrite .host 0x40068 v) h ((tcmd_go s.start v hr hl).trans e)

theorem taskCommands (s : State) (hr : s.reachable 0x40068 = true) (hl : s.raiseLocks = false) (ho : s.tOpen = true) :
    (∃ t, exec .tcmdRead s = .next (s.finish t) ∧ t.scr = { s.scr with tbusy := false, tres := 0 } ∧
      (s.scr.lost = false → ∀ i, i < 8 → t.reg (0x40044 + 4 * i) = s.taskWord s.tsel i) ∧ t.bays = s.bays ∧ t.qm = s.qm) ∧
    (policyOf (s.reg 0x40044) = 3 → exec .tcmdWrite s = .next (s.finish (s.start.endTaskCmd 2))) ∧
    (policyOf (s.reg 0x40044) ≠ 3 →
      ∃ t, exec .tcmdWrite s = .next (s.finish t) ∧
        (∀ n, n < 7 → t.taskWord s.tsel n = if s.taskPlaced s.tsel = true ∧ n ≠ 0 then s.taskWord s.tsel n
          else (s.taskWord s.tsel n &&& ~~~ taskMask n) ||| (s.reg (0x40044 + 4 * n) &&& taskMask n)) ∧
        (∀ j n, n < 8 → (j ≠ s.tsel ∨ n = 7) → t.taskWord j n = s.taskWord j n) ∧ t.scr.tres = 0 ∧ t.bays = s.bays ∧
          t.qm = s.qm) ∧
    (s.taskValid s.tsel = false → ∀ i, i = .place ∨ i = .tcmdMove ∨ i = .unplace →
      exec i s = .next (s.finish (s.start.endTaskCmd 5))) := by
  refine ⟨?_, fun h3 => ?_, fun h3 => ?_, fun hv => ?_⟩
  · exact (tcmdRead_copies (s := s.start) ho).imp fun t h => ⟨runs_tcmd hr hl rfl h.1, h.2⟩
  · refine runs_tcmd hr hl rfl ?_
    show s.start.tcmdWrite = _
    rw [State.tcmdWrite, if_neg (by rw [show s.start.tOpen = true from ho]; simp)]
    exact if_pos h3
  · exact (tcmdWrite_changes (s := s.start) ho h3).imp fun t h => ⟨runs_tcmd hr hl rfl h.1, h.2⟩
  · obtain ⟨place, move, unplace⟩ := invalid (s := s.start) ho hv
    rintro i (rfl | rfl | rfl)
    · exact runs_tcmd hr hl rfl place
    · exact runs_tcmd hr hl rfl move
    · exact runs_tcmd hr hl rfl unplace

section
variable {s : State} (ho : s.tOpen = true) (hv : s.taskValid s.tsel = true)
include ho hv

theorem tcmdPlace_placed (hp : s.taskPlaced s.tsel = true) :
    s.tcmdPlace = s.endTaskCmd (if policyOf (s.taskWord s.tsel 0) = 0 then 1 else 2) := by
  rw [State.tcmdPlace, if_neg (by simp [ho])]
  dsimp only
  rw [if_neg (by simp [hv]), hp]
  by_cases h : policyOf (s.taskWord s.tsel 0) = 0
  · rw [if_pos (by simp [h]), if_pos h]
  · rw [if_neg (by simp [h]), if_pos (by simp), if_neg h]

theorem tcmdPlace_inadmissible (hp : s.taskPlaced s.tsel = false) (ha : s.admissible s.tsel s.tdest = false) :
    s.tcmdPlace = s.endTaskCmd 2 := by
  rw [State.tcmdPlace, if_neg (by simp [ho])]
  dsimp only
  rw [if_neg (by simp [hv]), if_neg (by simp [hp]), if_pos (by simp [ha])]

omit ho in
theorem taskMoveTry_fixed (h0 : policyOf (s.taskWord s.tsel 0) = 0) : s.taskMoveTry = s.endTaskCmd 1 := by
  rw [State.taskMoveTry, if_neg (by simp [hv]), if_pos h0]

omit ho in
theorem taskMoveTry_moving (h0 : policyOf (s.taskWord s.tsel 0) ≠ 0) (hm : (s.taskMove s.tsel).isSome = true) :
    s.taskMoveTry = s.endTaskCmd 3 := by
  rw [State.taskMoveTry, if_neg (by simp [hv]), if_neg h0, if_pos hm]

omit ho in
theorem taskMoveTry_nowhere (h0 : policyOf (s.taskWord s.tsel 0) ≠ 0) (hm : s.taskMove s.tsel = none)
    (ha : s.taskPlaced s.tsel = false ∨ s.admissible s.tsel s.tdest = false) : s.taskMoveTry = s.endTaskCmd 2 := by
  rw [State.taskMoveTry, if_neg (by simp [hv]), if_neg h0, if_neg (by simp [hm]), if_pos (by simpa using ha)]

omit ho in
theorem taskUnplaceTry_moving (hm : (s.taskMove s.tsel).isSome = true) : s.taskUnplaceTry = s.endTaskCmd 3 := by
  rw [State.taskUnplaceTry, if_neg (by simp [hv]), if_pos hm]

omit ho in
theorem taskUnplaceTry_unplaced (hm : s.taskMove s.tsel = none) (hp : s.taskPlaced s.tsel = false) :
    s.taskUnplaceTry = s.endTaskCmd 2 := by
  rw [State.taskUnplaceTry, if_neg (by simp [hv]), if_neg (by simp [hm]), if_pos (by simp [hp])]

end

theorem placeCommands (s : State) (hr : s.reachable 0x40068 = true) (hl : s.raiseLocks = false) (ho : s.tOpen = true)
    (hv : s.taskValid s.tsel = true) :
    (s.taskPlaced s.tsel = true → exec .place s =
      .next (s.finish (s.start.endTaskCmd (if policyOf (s.taskWord s.tsel 0) = 0 then 1 else 2)))) ∧
    (s.taskPlaced s.tsel = false → s.admissible s.tsel s.tdest = false →
      exec .place s = .next (s.finish (s.start.endTaskCmd 2))) ∧
    (∀ i, s.taskPlaced s.tsel = false → s.admissible s.tsel s.tdest = true → s.freeSlot s.tdest = some i →
      ∃ t, exec .place s = .next (s.finish t) ∧ t.scr.tres = 0 ∧ t.scr.tbusy = false ∧
        t.taskWord s.tsel 0 =
          (s.taskWord s.tsel 0 &&& 0xE000FFFF#32) ||| wd (2 ^ 28 + i % 16 * 2 ^ 24 + s.tdest % 256 * 2 ^ 16) ∧
        tgetD none (t.bay s.tdest).qio.slots i = some (s.slotFor s.tsel)) := by
  refine ⟨fun hp => ?_, fun hp ha => ?_, fun i hp ha hi => ?_⟩
  · exact runs_tcmd hr hl rfl (tcmdPlace_placed (s := s.start) ho hv hp)
  · exact runs_tcmd hr hl rfl (tcmdPlace_inadmissible (s := s.start) ho hv hp ha)
  · exact (tcmdPlace_enters (s := s.start) ho hv hp ha hi).imp fun t h => ⟨runs_tcmd hr hl rfl h.1, h.2⟩

theorem moveCommands (s : State) (hr : s.reachable 0x40068 = true) (hl : s.raiseLocks = false) (ho : s.tOpen = true)
    (hv : s.taskValid s.tsel = true) :
    (policyOf (s.taskWord s.tsel 0) = 0 → exec .tcmdMove s = .next (s.finish (s.start.endTaskCmd 1))) ∧
    (policyOf (s.taskWord s.tsel 0) ≠ 0 → (s.taskMove s.tsel).isSome = true →
      exec .tcmdMove s = .next (s.finish (s.start.endTaskCmd 3))) ∧
    (policyOf (s.taskWord s.tsel 0) ≠ 0 → s.taskMove s.tsel = none → s.taskPlaced s.tsel = false ∨ s.admissible s.tsel s.tdest = false →
      exec .tcmdMove s = .next (s.finish (s.start.endTaskCmd 2))) ∧
    (policyOf (s.taskWord s.tsel 0) ≠ 0 → s.taskMove s.tsel = none → s.taskPlaced s.tsel = true → s.admissible s.tsel s.tdest = true →
      ∃ t, exec .tcmdMove s = .next (s.finish t) ∧ t.scr.tbusy = true ∧ t.scr.tasks = s.scr.tasks ∧
        (4 ≤ s.scr.taskMoves.length → t.scr.taskMoves = s.scr.taskMoves ∧ t.scr.taskWait = 4 ∧ t.bays = s.bays ∧
          t.qm = s.qm) ∧
        (s.scr.taskMoves.length < 4 → t.scr.taskMoves = s.scr.taskMoves ++
          [{ task := s.tsel, src := s.taskBay s.tsel, dst := some s.tdest, slot := (s.freeSlot s.tdest).getD 0,
             frozen := (s.boundTo s.tsel).filter (fun q => decide ((s.queue q).state = 1)), origin := 1, command := true,
             epoch := s.epoch }])) := by
  have run {t : State} (e : (taskPending s.start).taskMoveTry = t) : exec .tcmdMove s = .next (s.finish t) :=
    runs_tcmd hr hl rfl ((tcmdMove_eq (s := s.start) ho).trans e)
  refine ⟨fun h0 => ?_, fun h0 hm => ?_, fun h0 hm ha => ?_, fun h0 hm hp ha => ?_⟩
  · exact run (taskMoveTry_fixed (s := taskPending s.start) hv h0)
  · exact run (taskMoveTry_moving (s := taskPending s.start) hv h0 hm)
  · exact run (taskMoveTry_nowhere (s := taskPending s.start) hv h0 hm ha)
  · exact ⟨_, run (taskMoveTry_go (taskPending s.start) hv h0 hm hp ha),
      taskGo_facts s (taskPending s.start) s.tsel (some s.tdest) rfl rfl rfl rfl⟩

theorem unplaceCommands (s : State) (hr : s.reachable 0x40068 = true) (hl : s.raiseLocks = false) (ho : s.tOpen = true)
    (hv : s.taskValid s.tsel = true) :
    ((s.taskMove s.tsel).isSome = true → exec .unplace s = .next (s.finish (s.start.endTaskCmd 3))) ∧
    (s.taskMove s.tsel = none → s.taskPlaced s.tsel = false → exec .unplace s = .next (s.finish (s.start.endTaskCmd 2))) ∧
    (s.taskMove s.tsel = none → s.taskPlaced s.tsel = true →
      ∃ t, exec .unplace s = .next (s.finish t) ∧ t.scr.tbusy = true ∧ t.scr.tasks = s.scr.tasks ∧
        (4 ≤ s.scr.taskMoves.length → t.scr.taskMoves = s.scr.taskMoves ∧ t.scr.taskWait = 5 ∧ t.bays = s.bays ∧
          t.qm = s.qm) ∧
        (s.scr.taskMoves.length < 4 → t.scr.taskMoves = s.scr.taskMoves ++
          [{ task := s.tsel, src := s.taskBay s.tsel, dst := none,
             frozen := (s.boundTo s.tsel).filter (fun q => decide ((s.queue q).state = 1)), origin := 1, command := true,
             epoch := s.epoch }])) := by
  have run {t : State} (e : (taskPending s.start).taskUnplaceTry = t) : exec .unplace s = .next (s.finish t) :=
    runs_tcmd hr hl rfl ((tcmdUnplace_eq (s := s.start) ho).trans e)
  refine ⟨fun hm => ?_, fun hm hp => ?_, fun hm hp => ?_⟩
  · exact run (taskUnplaceTry_moving (s := taskPending s.start) hv hm)
  · exact run (taskUnplaceTry_unplaced (s := taskPending s.start) hv hm hp)
  · exact ⟨_, run (taskUnplaceTry_go (taskPending s.start) hv hm hp),
      taskGo_facts s (taskPending s.start) s.tsel none rfl rfl rfl rfl⟩

/-! ## Page and table commands (R344, R351, R352) -/

/-- Writing SCR_PCMD outside a raise runs the command. -/
theorem runs_pcmd {s : State} (hr : s.reachable 0x40090 = true) (hl : s.raiseLocks = false) {i : Instr} {v : Word} {t : State}
    (h : exec i s = s.run fun t => t.regWrite .host 0x40090 v) (e : s.start.pcmd (fld v 0 2) = t) :
    exec i s = .next (s.finish t) :=
  runs (f := fun t => t.regWrite .host 0x40090 v) h ((pcmd_go s.start v hr hl).trans e)

/-- SCR_PRES of a command that starts is 0 until it ends. -/
def pagePending (s : State) : State := { s with pending := [], out := [], scr := { s.scr with pres := 0 } }

section
variable {s : State} (ho : s.pOpen = true)
include ho

theorem pcmdMove_eq : s.start.pcmdMove = (pagePending s).pageMoveTry := by
  rw [State.pcmdMove, show s.start.pOpen = true from ho]
  rfl

/-- READ copies the selected table's descriptor and page map entry, unspecified after a failed raise. -/
theorem pcmdRead_copies :
    ∃ t, s.pcmdRead = t ∧ t.bays = s.bays ∧ t.qm = s.qm ∧
      (s.scr.lost = true → t.scr = { s.scr with pbusy := false, pres := 0 }) ∧
      (s.scr.lost = false → t.reg 0x4008C = s.table (s.psel / 4096)) ∧
      (s.scr.lost = false → (s.page s.psel).live = false → t.scr = { s.scr with pbusy := false, pres := 5 }) ∧
      (s.scr.lost = false → (s.page s.psel).live = true → t.scr = { s.scr with pbusy := false, pres := 0 } ∧
        t.reg 0x40084 = (s.page s.psel).w0 ∧ t.reg 0x40088 = wd ((s.page s.psel).heat % 2 ^ 24 * 256)) := by
  cases hl : s.scr.lost
  · cases hp : (s.page s.psel).live
    · refine ⟨_, pcmdRead_dead s ho hl hp, rfl, rfl, fun h => absurd h (by simp), fun _ => ?_, fun _ _ => rfl,
        fun _ h => absurd h (by simp)⟩
      exact State.reg_setReg s 0x4008C _
    · refine ⟨_, pcmdRead_eq s ho hl hp, rfl, rfl, fun h => absurd h (by simp), fun _ => ?_, fun _ h => absurd h (by simp),
        fun _ _ => ⟨rfl, ?_, ?_⟩⟩
      · exact (State.reg_setReg_ne _ _ (by decide)).trans ((State.reg_setReg_ne _ _ (by decide)).trans (State.reg_setReg _ _ _))
      · exact (State.reg_setReg_ne _ _ (by decide)).trans (State.reg_setReg _ _ _)
      · exact State.reg_setReg _ 0x40088 _
  · obtain ⟨g, n, e⟩ := pcmdRead_lost s ho hl
    exact ⟨_, e, rfl, rfl, fun _ => rfl, fun h => absurd h (by simp), fun h => absurd h (by simp), fun h => absurd h (by simp)⟩

end

theorem pageMoveTry_dead {s : State} (h : (s.page s.psel).live = false) : s.pageMoveTry = s.endPageCmd 5 := by
  unfold State.pageMoveTry
  exact if_pos (by rw [h]; rfl)

theorem pageMoveTry_fixed {s : State} (h : (s.page s.psel).live = true) (h0 : policyOf (s.table (s.psel / 4096)) = 0) :
    s.pageMoveTry = s.endPageCmd 1 := by
  unfold State.pageMoveTry
  exact (if_neg (by simp [h])).trans (if_pos h0)

theorem pageMoveTry_moving {s : State} (h : (s.page s.psel).live = true) (h0 : policyOf (s.table (s.psel / 4096)) ≠ 0)
    (hm : s.mayMove s.psel = false) : s.pageMoveTry = s.endPageCmd 3 := by
  unfold State.pageMoveTry
  exact (if_neg (by simp [h])).trans ((if_neg h0).trans (if_pos (by rw [hm]; rfl)))

/-- A page move that starts marks the entry; between places of this device it changes nothing else but ports. -/
theorem startMove_keeps {u : State} {k : Nat} {w : Word} (hs : tierOf (placeOf (u.page k).w0) ≠ 3) (hd : tierOf (placeOf w) ≠ 3)
    (hn : u.moveOf k = none) :
    (u.startMove k w 1 true false false).scr.moves = u.scr.moves ++
        [{ key := k, src := placeOf (u.page k).w0, dst := placeOf w, origin := 1, command := true, epoch := u.epoch }] ∧
      (u.startMove k w 1 true false false).page k = { u.page k with w0 := (u.page k).w0 ||| 0x10000000#32 } ∧
      (∀ j, j ≠ k → (u.startMove k w 1 true false false).page j = u.page j) ∧
      ∀ b, ∃ p, (u.startMove k w 1 true false false).bay b = { u.bay b with pipe := p } := by
  obtain ⟨scr, -, -, bay⟩ := Moves.copyRest_keeps (startMove_facts u k w 1 true false false hs hd hn _ rfl)
  have page (j : Nat) : (u.startMove k w 1 true false false).page j =
      (u.setPage k { u.page k with w0 := (u.page k).w0 ||| 0x10000000#32 }).page j := by
    rw [State.page, scr]
    rfl
  refine ⟨by rw [scr], ?_, fun j hj => ?_, bay⟩
  · rw [page, page_setPage]
  · rw [page, page_setPage_ne _ _ hj]

/-- MOVE of a page to a permitted place starts a page move, or waits while eight run. -/
theorem pageMoveTry_starts {s : State} {w : Word} (hm : s.mayMove s.psel = true)
    (h0 : policyOf (s.table (s.psel / 4096)) ≠ 0) (hw : s.movePlace s.psel (s.reg 0x40084) = some w) :
    ∃ t, s.pageMoveTry = t ∧ t.scr.pbusy = true ∧
      (8 ≤ s.scr.moves.length → t.scr.moves = s.scr.moves ∧ t.scr.pageWait = true ∧ t.bays = s.bays) ∧
      (s.scr.moves.length < 8 → tierOf (placeOf (s.page s.psel).w0) ≠ 3 → tierOf (placeOf w) ≠ 3 →
        s.moveOf s.psel = none →
        t.scr.moves = s.scr.moves ++
          [{ key := s.psel, src := placeOf (s.page s.psel).w0, dst := placeOf w, origin := 1, command := true,
             epoch := s.epoch }] ∧
        t.page s.psel = { s.page s.psel with w0 := (s.page s.psel).w0 ||| 0x10000000#32 } ∧
        (∀ j, j ≠ s.psel → t.page j = s.page j) ∧ ∀ b, ∃ p, t.bay b = { s.bay b with pipe := p }) := by
  have e := pageMoveTry_some s w hm h0 hw
  by_cases h8 : 8 ≤ s.scr.moves.length
  · exact ⟨_, e.trans (if_pos h8), rfl, fun _ => ⟨rfl, rfl, rfl⟩, fun h => absurd h8 (by omega)⟩
  · exact ⟨_, e.trans (if_neg h8), rfl, fun h => absurd h h8, fun _ hs hd hn => startMove_keeps hs hd hn⟩

theorem pageCommands (s : State) (hl : s.raiseLocks = false) (ho : s.pOpen = true) (hr : s.reachable 0x40090 = true) :
    ((s.page s.psel).live = false → exec .pcmdMove s = .next (s.finish (s.start.endPageCmd 5))) ∧
    ((s.page s.psel).live = true → policyOf (s.table (s.psel / 4096)) = 0 →
      exec .pcmdMove s = .next (s.finish (s.start.endPageCmd 1))) ∧
    ((s.page s.psel).live = true → policyOf (s.table (s.psel / 4096)) ≠ 0 → s.mayMove s.psel = false →
      exec .pcmdMove s = .next (s.finish (s.start.endPageCmd 3))) ∧
    (s.mayMove s.psel = true → policyOf (s.table (s.psel / 4096)) ≠ 0 → s.movePlace s.psel (s.reg 0x40084) = none →
      exec .pcmdMove s = .next (s.finish (s.start.endPageCmd 2))) ∧
    (∀ w, s.mayMove s.psel = true → policyOf (s.table (s.psel / 4096)) ≠ 0 →
      s.movePlace s.psel (s.reg 0x40084) = some w →
      ∃ t, exec .pcmdMove s = .next (s.finish t) ∧ t.scr.pbusy = true ∧
        (8 ≤ s.scr.moves.length → t.scr.moves = s.scr.moves ∧ t.scr.pageWait = true ∧ t.bays = s.bays) ∧
        (s.scr.moves.length < 8 → tierOf (placeOf (s.page s.psel).w0) ≠ 3 → tierOf (placeOf w) ≠ 3 →
          s.moveOf s.psel = none →
          t.scr.moves = s.scr.moves ++
            [{ key := s.psel, src := placeOf (s.page s.psel).w0, dst := placeOf w, origin := 1, command := true,
               epoch := s.epoch }] ∧
          t.page s.psel = { s.page s.psel with w0 := (s.page s.psel).w0 ||| 0x10000000#32 } ∧
          (∀ j, j ≠ s.psel → t.page j = s.page j) ∧ ∀ b, ∃ p, t.bay b = { s.bay b with pipe := p })) := by
  have run {t : State} (e : (pagePending s).pageMoveTry = t) : exec .pcmdMove s = .next (s.finish t) :=
    runs_pcmd hr hl rfl ((pcmdMove_eq ho).trans e)
  have place (w : Word) : (pagePending s).movePlace s.psel w = s.movePlace s.psel w := movePlace_pres s s.psel w
  refine ⟨fun h => ?_, fun h h0 => ?_, fun h h0 hm => ?_, fun hm h0 hw => ?_, fun w hm h0 hw => ?_⟩
  · exact run (pageMoveTry_dead (s := pagePending s) h)
  · exact run (pageMoveTry_fixed (s := pagePending s) h h0)
  · exact run (pageMoveTry_moving (s := pagePending s) h h0 hm)
  · exact run (pageMoveTry_none (pagePending s) hm h0 ((place _).trans hw))
  · exact (pageMoveTry_starts (s := pagePending s) hm h0 ((place _).trans hw)).imp fun t h => ⟨run h.1, h.2⟩

/-- TWRITE of a descriptor that R352 forbids ends with RESULT 2. -/
theorem pcmdTwrite_bad {s : State} (ho : s.pOpen = true) (h : policyOf (s.reg 0x4008C &&& 0xFFFF0FFF#32) = 3 ∨
    s.twriteBad (s.psel / 4096) (s.reg 0x4008C &&& 0xFFFF0FFF#32) = true) : s.pcmdTwrite = s.endPageCmd 2 := by
  unfold State.pcmdTwrite
  exact (if_neg (by simp [ho])).trans (if_pos h)

/-- TWRITE whose pages find no place ends with RESULT 2. -/
theorem pcmdTwrite_full {s s1 : State} {d : Word} {keep had : Nat} (ho : s.pOpen = true)
    (hd : d = s.reg 0x4008C &&& 0xFFFF0FFF#32) (h3 : policyOf d ≠ 3) (hb : s.twriteBad (s.psel / 4096) d = false)
    (h1 : s1 = { s with scr := { s.scr with tables := tsetD 0#32 s.scr.tables (s.psel / 4096) d } })
    (hkeep : keep = if bitAt d 31 then fld d 0 12 + 1 else 0)
    (hhad : had = if bitAt (s.table (s.psel / 4096)) 31 then fld (s.table (s.psel / 4096)) 0 12 + 1 else 0)
    (h2 : s1.addPages (s.psel / 4096) ((List.range (keep - had)).map (had + ·)) = none) : s.pcmdTwrite = s.endPageCmd 2 := by
  have go := twrite_go s d s1 ho hd h3 hb h1
  rw [← hkeep, ← hhad, h2] at go
  exact go

/-- TWRITE replaces the descriptor, adds the pages that the table gains and frees those beyond its length. -/
theorem pcmdTwrite_replaces {s s1 s2 : State} {d : Word} {keep had : Nat} (ho : s.pOpen = true)
    (hd : d = s.reg 0x4008C &&& 0xFFFF0FFF#32) (h3 : policyOf d ≠ 3) (hb : s.twriteBad (s.psel / 4096) d = false)
    (h1 : s1 = { s with scr := { s.scr with tables := tsetD 0#32 s.scr.tables (s.psel / 4096) d } })
    (hkeep : keep = if bitAt d 31 then fld d 0 12 + 1 else 0)
    (hhad : had = if bitAt (s.table (s.psel / 4096)) 31 then fld (s.table (s.psel / 4096)) 0 12 + 1 else 0)
    (h2 : s1.addPages (s.psel / 4096) ((List.range (keep - had)).map (had + ·)) = some s2) :
    ∃ t, s.pcmdTwrite = t ∧ t.scr.pres = 0 ∧ t.scr.pbusy = false ∧
      t.table (s.psel / 4096) = d ∧ (∀ j, j ≠ s.psel / 4096 → t.table j = s.table j) ∧
      (∀ j, t.page j = if j ∈ (s2.pagesOf (s.psel / 4096)).filter (fun k => decide (keep ≤ k % 4096)) then {} else s2.page j) ∧
      (∀ j, j ∉ ((List.range (keep - had)).map (had + ·)).map (pageKey (s.psel / 4096)) → s2.page j = s.page j) ∧
      (∀ j, j ∈ ((List.range (keep - had)).map (had + ·)).map (pageKey (s.psel / 4096)) → (s2.page j).live = true) ∧
      t.bays = s.bays ∧ t.ddr = s.ddr ∧ t.qm = s.qm ∧ t.scr.tasks = s.scr.tasks := by
  have go := twrite_go s d s1 ho hd h3 hb h1
  rw [← hkeep, ← hhad, h2] at go
  dsimp only at go
  obtain ⟨g, e2, kept, added⟩ := addPages_rest _ _ _ _ h2
  obtain ⟨S, R, F, c, ef, tables, tasks, pages⟩ :=
    freePages_rest ((s2.pagesOf (s.psel / 4096)).filter fun k => decide (keep ≤ k % 4096)) s2
  have table (j : Nat) : tgetD 0#32 c.tables j = tgetD 0#32 (tsetD 0#32 s.scr.tables (s.psel / 4096) d) j := by
    rw [tables, e2, h1]
  have ended (j : Nat) : (((s2.pagesOf (s.psel / 4096)).filter fun k => decide (keep ≤ k % 4096)).foldl State.freePageEnt s2
      |>.endPageCmd 0).table j = tgetD 0#32 c.tables j := by
    rw [ef]
    rfl
  have same : s2.bays = s.bays ∧ s2.ddr = s.ddr ∧ s2.qm = s.qm ∧ s2.scr.tasks = s.scr.tasks := by
    rw [e2, h1]
    exact ⟨rfl, rfl, rfl, rfl⟩
  obtain ⟨bays, ddr, qm, stasks⟩ := same
  refine ⟨_, go, rfl, rfl, ?_, fun j hj => ?_, pages, fun j hj => ?_, added, ?_, ?_, ?_, ?_⟩
  · rw [ended, table, tgetD_tsetD_same]
  · rw [ended, table, tgetD_tsetD_ne _ _ _ hj]
    rfl
  · rw [kept j hj, h1]
    rfl
  all_goals rw [ef]
  · exact bays
  · exact ddr
  · exact qm
  · exact tasks.trans stasks

/-! ## Evacuations and releases (R346, R350, R351) -/

/-- While a raise locks the scribe it is closed. -/
theorem unlocked {s : State} (h : s.raiseLocks = false) {a : Nat} {v : Word} (hr : s.reachable a = true)
    (hrow : ((regRow a).any fun r => decide (r.kind ≠ .sq)) = true) (ha : a = 0x400A0 ∨ a = 0x400A4 ∨ a = 0x400B0) :
    s.start.regWrite .host a v =
      if a = 0x400A0 then s.start.scrEvac v else if a = 0x400A4 then s.start.scrEvbay v else s.start.scrBankrel v :=
  scrGo s.start a v hr h hrow ha

section
variable {s : State} (hl : s.raiseLocks = false) (ho : s.scribeOpen = true) (v : Word)
include hl

theorem runs_scrEvac (hr : s.reachable 0x400A0 = true) {t : State} (e : s.start.scrEvac (v ||| 0x80000000#32) = t) :
    exec (.scrEvac v) s = .next (s.finish t) :=
  runs (f := fun t => t.regWrite .host 0x400A0 (v ||| 0x80000000#32)) rfl
    ((unlocked hl hr (by decide) (.inl rfl)).trans e)

theorem runs_scrEvbay (hr : s.reachable 0x400A4 = true) {t : State} (e : s.start.scrEvbay (v ||| 0x80000000#32) = t) :
    exec (.scrEvbay v) s = .next (s.finish t) :=
  runs (f := fun t => t.regWrite .host 0x400A4 (v ||| 0x80000000#32)) rfl
    ((unlocked hl hr (by decide) (.inr (.inl rfl))).trans e)

theorem runs_scrBankrel (hr : s.reachable 0x400B0 = true) {t : State} (e : s.start.scrBankrel (v ||| 0x80000000#32) = t) :
    exec (.scrBankrel v) s = .next (s.finish t) :=
  runs (f := fun t => t.regWrite .host 0x400B0 (v ||| 0x80000000#32)) rfl
    ((unlocked hl hr (by decide) (.inr (.inr rfl))).trans e)

include ho

theorem evacuations (hr : s.reachable 0x400A0 = true) (hb : s.reachable 0x400A4 = true) :
    (s.scr.evac.isSome = true →
      exec (.scrEvac v) s = .next (s.finish { s.start.writeRw 0x400A0 0x4000FFFF (v ||| 0x80000000#32) with scr := { s.scr with evRes := 3 } }) ∧
      exec (.scrEvbay v) s = .next (s.finish { s.start.writeRw 0x400A4 0x400000FF (v ||| 0x80000000#32) with scr := { s.scr with evRes := 3 } })) ∧
    (s.scr.evac = none → ∃ t, exec (.scrEvac v) s = .next (s.finish t) ∧
      t.scr.evac = some
        { bays := (maskBays (fld v 0 16)).filter fun b => s.bentHere (b / 16), drop := bitAt v 30, byBay := false,
          subject := fld v 0 16, epoch := s.epoch } ∧ t.scr.evRes = 0 ∧ t.bays = s.bays) ∧
    (s.scr.evac = none → ∃ t, exec (.scrEvbay v) s = .next (s.finish t) ∧
      t.scr.evac = some
        { bays := [fld v 0 8], drop := bitAt v 30, byBay := true, subject := fld v 0 8, epoch := s.epoch } ∧
      t.scr.evRes = 0 ∧ t.bays = s.bays) := by
  refine ⟨fun h => ⟨?_, ?_⟩, fun h => ?_, fun h => ?_⟩
  · exact runs_scrEvac hl v hr (evac_busy s.start v ho h)
  · exact runs_scrEvbay hl v hb (evbay_busy s.start v ho h)
  · exact ⟨_, runs_scrEvac hl v hr rfl, evac_eq s.start v ho h⟩
  · exact ⟨_, runs_scrEvbay hl v hb rfl, evbay_eq s.start v ho h⟩

theorem releases {w : State} (hr : s.reachable 0x400B0 = true) (hw : w = s.start.writeRw 0x400B0 0xFF (v ||| 0x80000000#32)) :
    (s.scr.rel.isSome = true → exec (.scrBankrel v) s = .next (s.finish w)) ∧
    (s.scr.rel = none → (s.bank (fld v 0 8)).kind = 2 →
      (∀ k, k ∈ s.pagesIn (fld v 0 8) → policyOf (s.table (k / 4096)) ≠ 0 ∧
        ({ w with scr := { w.scr with rel := some { bank := fld v 0 8, epoch := s.epoch } } } : State).elsewhere (k / 4096) = true) →
      exec (.scrBankrel v) s =
        .next (s.finish { w with scr := { s.scr with rel := some { bank := fld v 0 8, epoch := s.epoch }, relRes := 0 } })) ∧
    (s.scr.rel = none → ((s.bank (fld v 0 8)).kind ≠ 2 ∨ ∃ k, k ∈ s.pagesIn (fld v 0 8) ∧
        (policyOf (s.table (k / 4096)) = 0 ∨ ({ w with scr := { w.scr with
          rel := some { bank := fld v 0 8, epoch := s.epoch } } } : State).elsewhere (k / 4096) = false)) →
      ∃ t, exec (.scrBankrel v) s = .next (s.finish t) ∧ t.scr.rel = none ∧ t.scr.relRes = 2 ∧
        t.scr.moves = s.scr.moves ∧ t.scr.pages = s.scr.pages) := by
  have go : s.start.scrBankrel (v ||| 0x80000000#32) = w.releaseStart (fld v 0 8) := hw ▸ bankrel_eq s.start v ho
  have scr : w.scr = s.scr := by
    rw [hw]
    rfl
  have rel : w.scr.rel = s.scr.rel := by rw [scr]
  have bank : w.bank (fld v 0 8) = s.bank (fld v 0 8) := by
    rw [hw]
    rfl
  have pages : w.pagesIn (fld v 0 8) = s.pagesIn (fld v 0 8) := by
    rw [State.pagesIn, State.pagesIn, scr]
  have table (k : Nat) : w.table k = s.table k := by
    rw [State.table, State.table, scr]
  have epoch : w.epoch = s.epoch := by
    rw [hw]
    rfl
  refine ⟨fun h => runs_scrBankrel hl v hr (go.trans ?_), fun h hk hp => ?_, fun h hbad => ?_⟩
  · rw [State.releaseStart, rel, if_pos h]
  · have e := release_go w (fld v 0 8) (rel.trans h) (by rw [bank]; exact hk) (by
      rw [pages]
      intro k hk
      rw [table, epoch]
      exact hp k hk)
    rw [epoch, scr] at e
    exact runs_scrBankrel hl v hr (go.trans e)
  · have e := release_bad w (fld v 0 8) (rel.trans h) (by
      rw [pages, bank, epoch]
      simp only [table]
      exact hbad)
    rw [scr] at e
    exact ⟨_, runs_scrBankrel hl v hr go, e⟩

end

/-- Settles O35: the write of the command register runs the command, whose outcomes are the lemmas above. -/
theorem scribeCommands : Obligations.ScribeCommands := by
  refine ⟨fun s k hr hl ho hk => ?_, fun s hl => ⟨fun ho hr => ?_, fun v ho hr hb => evacuations hl ho v hr hb,
    fun v w ho hr hw => releases hl ho v hr hw⟩⟩
  · subst hk
    obtain ⟨read, bad, write, invalid⟩ := taskCommands s hr hl ho
    refine ⟨read, bad, write, invalid, fun hv => ?_⟩
    obtain ⟨p1, p2, p3⟩ := placeCommands s hr hl ho hv
    obtain ⟨m1, m2, m3, m4⟩ := moveCommands s hr hl ho hv
    obtain ⟨u1, u2, u3⟩ := unplaceCommands s hr hl ho hv
    exact ⟨p1, p2, p3, m1, m2, m3, m4, u1, u2, u3⟩
  · obtain ⟨p1, p2, p3, p4, p5⟩ := pageCommands s hl ho hr
    refine ⟨?_, p1, p2, p3, p4, p5, fun d hd h => ?_, fun d s1 keep had hd h3 hb h1 hk hh => ⟨fun h => ?_, fun s2 h => ?_⟩⟩
    · exact (pcmdRead_copies (s := s.start) ho).imp fun t h => ⟨runs_pcmd hr hl rfl h.1, h.2⟩
    · subst hd
      exact runs_pcmd hr hl rfl (pcmdTwrite_bad (s := s.start) ho h)
    · exact runs_pcmd hr hl rfl (pcmdTwrite_full (s := s.start) ho hd h3 hb h1 hk hh h)
    · exact (pcmdTwrite_replaces (s := s.start) ho hd h3 hb h1 hk hh h).imp fun t h => ⟨runs_pcmd hr hl rfl h.1, h.2⟩

end Sys2Proof.Proofs.ScribeCommands



/-!
Raises: commands, the ten steps, and entry to RUN (R375–R383).
-/
namespace Sys2Proof.Proofs.Raises
open Sys2Proof Sys2Proof.Machine Running Laws.RaiseOps

/-! ## Commands (R375, R382) -/

section
variable {u : State} (hs : u.stgOn = true)
include hs

theorem rsuCmd_abort (hb : u.rsu.busy = true) (h4 : u.rsu.step ≤ 4) : u.rsuCmd 4 = u.raiseEnd 4 0 := by
  rw [rsu_abort u hs, if_neg (by simp [hb]), if_pos h4]

theorem rsuCmd_abort_late (hb : u.rsu.busy = true) (h4 : 4 < u.rsu.step) : u.rsuCmd 4 = u.event 0x50014 2 := by
  rw [rsu_abort u hs, if_neg (by simp [hb]), if_neg (by omega)]

theorem rsuCmd_abort_idle (hb : u.rsu.busy = false) : u.rsuCmd 4 = u := by
  rw [rsu_abort u hs, if_pos (by simp [hb])]

end

section
variable {s : State} (h : s.reachable 0x5000C = true) (hs : s.stgOn = true)
include h

/-- The three raise commands run one after the other's operation number. -/
theorem raise_commands {op : Nat} {t : State} (e : s.start.rsuCmd op = t) :
    (op = 1 → exec .raise s = .next (s.finish t)) ∧ (op = 2 → exec .rebent s = .next (s.finish t)) ∧
      (op = 3 → exec .rebay s = .next (s.finish t)) := by
  obtain ⟨h1, h2, h3, -⟩ := raise_run s h
  subst e
  refine ⟨?_, ?_, ?_⟩ <;> rintro rfl
  · exact h1
  · exact h2
  · exact h3

include hs

/-- A command during a raise is lost, whatever its operation but ABORT. -/
theorem lost_commands (hb : s.rsu.busy = true) :
    exec .raise s = .next (s.finish (s.start.event 0x50014 2)) ∧
      exec .rebent s = .next (s.finish (s.start.event 0x50014 2)) ∧
      exec .rebay s = .next (s.finish (s.start.event 0x50014 2)) ∧
      ∀ v, fld v 0 3 ≠ 4 → exec (.registerWrite .host 0x5000C 4 v) s = .next (s.finish (s.start.event 0x50014 2)) := by
  have lost (op : Nat) (h4 : op ≠ 4) : s.start.rsuCmd op = s.start.event 0x50014 2 := rsu_lost s.start op hs hb h4
  refine ⟨(raise_commands h (lost 1 (by decide))).1 rfl, (raise_commands h (lost 2 (by decide))).2.1 rfl,
    (raise_commands h (lost 3 (by decide))).2.2 rfl, fun v h4 => ?_⟩
  refine runs (f := fun t => t.registerWrite .host 0x5000C 4 v) rfl ((if_pos ⟨rfl, rfl⟩).trans ?_)
  exact (rsuGo s.start v h).trans (lost _ h4)

/-- ABORT ends a raise that has not passed step 4. -/
theorem abort_early (hb : s.rsu.busy = true) (h4 : s.rsu.step ≤ 4) :
    ∃ t, exec .abort s = .next (s.finish t) ∧ t.rsu.busy = false ∧ t.rsu.result = 4 ∧ t.rsu.raised = s.rsu.raised ∧
      t.bays = s.bays ∧ t.scr = s.scr ∧ t.qm = s.qm ∧ (s.rsu.plain = false → t.stg = s.stg) := by
  obtain ⟨-, -, -, run⟩ := raise_run s h
  obtain ⟨S, B, R, e, stg⟩ := raiseEnd_facts s.start 4 0
  rw [rsuCmd_abort (u := s.start) hs hb h4, e] at run
  exact ⟨_, run, rfl, rfl, rfl, rfl, rfl, rfl, stg⟩

/-- ABORT is lost from step 5 on, and does nothing outside a raise. -/
theorem abort_late : (s.rsu.busy = true → 4 < s.rsu.step → exec .abort s = .next (s.finish (s.start.event 0x50014 2))) ∧
    (s.rsu.busy = false → exec .abort s = .next (s.finish s.start)) := by
  obtain ⟨-, -, -, run⟩ := raise_run s h
  refine ⟨fun hb h4 => ?_, fun hb => ?_⟩
  · rwa [rsuCmd_abort_late (u := s.start) hs hb h4] at run
  · rwa [rsuCmd_abort_idle (u := s.start) hs hb] at run

end

theorem one_to_three {op : Nat} (h1 : 1 ≤ op) (h3 : op ≤ 3) : op = 1 ∨ op = 2 ∨ op = 3 := by omega

/-- Without PD_STG the command register takes no command. -/
theorem closed_commands {s : State} (hs : s.stgOn = false) {i : Instr} (hi : i = .raise ∨ i = .rebent ∨ i = .rebay ∨ i = .abort) :
    exec i s = .next (s.finish s.start) := by
  rcases hi with rfl | rfl | rfl | rfl
  · exact runs (f := fun t => t.regWrite .host 0x5000C 1#32) rfl (rsu_closed s.start _ hs)
  · exact runs (f := fun t => t.regWrite .host 0x5000C 2#32) rfl (rsu_closed s.start _ hs)
  · exact runs (f := fun t => t.regWrite .host 0x5000C 3#32) rfl (rsu_closed s.start _ hs)
  · exact runs (f := fun t => t.regWrite .host 0x5000C 4#32) rfl (rsu_closed s.start _ hs)

/-! ## Steps (R376–R383) -/

theorem raiseStep_runs {s t : State} {us : Nat} (e : s.start.raiseStep us = t) :
    exec (.raiseStepComplete us) s = .next (s.finish t) :=
  runs (f := fun t => t.raiseStep us) rfl e

/-- A raise that fails before step 5 leaves bays, scribe and queues alone. -/
theorem raiseFail_keeps {u : State} (n : Nat) (h : u.rsu.step < 5) :
    (u.raiseFail n).rsu.busy = false ∧ (u.raiseFail n).rsu.result = 2 ∧ (u.raiseFail n).rsu.reason = n ∧
      (u.raiseFail n).bays = u.bays ∧ (u.raiseFail n).scr = u.scr ∧ (u.raiseFail n).qm = u.qm := by
  obtain ⟨S, B, R, e, -⟩ := raiseEnd_facts u 2 n
  rw [raiseFail_early u n h, e]
  exact ⟨rfl, rfl, rfl, rfl, rfl, rfl⟩

/-- Reads of the plan change staging, its scrubber and registers alone. -/
theorem stgRest_keeps {u v : State} (h : StgRest u v) : v.rsu = u.rsu ∧ v.bays = u.bays ∧ v.scr = u.scr ∧ v.qm = u.qm := by
  obtain ⟨S, B, R, rfl⟩ := h
  exact ⟨rfl, rfl, rfl, rfl⟩

section
variable {u : State}

/-- Step 1 goes on when the plan's header, its directory and the bents are in order. -/
theorem raiseFetch_next {p : Plan} (hp : p = u.plan) (h : (u.planRead 0 64).2 = true)
    (h1 : p.headerReason u.rsu.op u.rsu.len u.hw.part u.raiseBent = 0) (h2 : 3 ≤ p.nsect) (h3 : p.nsect ≤ 8)
    (h4 : p.directoryReason u.rsu.op = 0) (h5 : ((u.planRead 0 64).1.planRead 64 (16 * p.nsect)).2 = true) {w : State × Bool}
    (hw : w = (gapsFrom (64 + 16 * p.nsect) p.entries).foldl (fun (x : State × Bool) g =>
      ((x.1.planRead g.1 g.2).1, x.2 && (x.1.planRead g.1 g.2).2)) (((u.planRead 0 64).1.planRead 64 (16 * p.nsect)).1, true))
    (h6 : w.2 = true) (h7 : w.1.bentsReady p.bents (decide (u.rsu.op = 1)) = true) :
    ∃ t, u.raiseFetch = t ∧ t.rsu = { u.rsu with bents := p.bents, step := 2 } ∧ t.bays = u.bays ∧ t.scr = u.scr ∧
      t.qm = u.qm := by
  obtain ⟨rsu, bays, scr, qm⟩ := stgRest_keeps (fetch_rest u _ _ _ _ w rfl rfl hw)
  refine ⟨_, fetch_next u p hp _ _ w rfl rfl hw h h1 h2 h3 h4 h5 h6 h7, ?_, bays, scr, qm⟩
  exact congrArg (fun r : Rsu => { r with bents := p.bents, step := 2 }) rsu

theorem raiseTo_keeps (u : State) (n : Nat) : (u.raiseTo n).rsu = { u.rsu with step := n } ∧ (u.raiseTo n).bays = u.bays ∧
    (u.raiseTo n).scr = u.scr ∧ (u.raiseTo n).qm = u.qm := ⟨rfl, rfl, rfl, rfl⟩

/-- Step 2 goes on when the CRCs and the signature hold. -/
theorem raiseAuth_next (h : (u.planRead 0 u.plan.total).2 = true) (hc : u.plan.crcsOk = true) (ha : u.authReason u.plan = 0) :
    ∃ t, u.raiseAuth = t ∧ t.rsu = { u.rsu with step := if u.plan.enc then 3 else 4 } ∧ t.bays = u.bays ∧ t.scr = u.scr ∧
      t.qm = u.qm := by
  obtain ⟨rsu, bays, scr, qm⟩ := stgRest_keeps (planRead_rest u 0 u.plan.total)
  have go := auth_go u u.plan rfl _ rfl h 0 (by rw [if_pos hc, ha])
  rw [if_pos rfl] at go
  obtain ⟨trsu, tbays, tscr, tqm⟩ := raiseTo_keeps (u.planRead 0 u.plan.total).1 (if u.plan.enc then 3 else 4)
  rw [rsu] at trsu
  exact ⟨_, go, trsu, tbays.trans bays, tscr.trans scr, tqm.trans qm⟩

/-- Step 2 fails with the reason that the CRCs or the signature give. -/
theorem raiseAuth_fails (h5 : u.rsu.step < 5) (h : (u.planRead 0 u.plan.total).2 = true) {n : Nat} (h0 : n ≠ 0)
    (hn : n = if u.plan.crcsOk then u.authReason u.plan else 7) :
    ∃ t, u.raiseAuth = t ∧ t.rsu.busy = false ∧ t.rsu.result = 2 ∧ t.rsu.reason = n ∧ t.bays = u.bays ∧ t.scr = u.scr ∧
      t.qm = u.qm := by
  obtain ⟨rsu, bays, scr, qm⟩ := stgRest_keeps (planRead_rest u 0 u.plan.total)
  obtain ⟨busy, result, reason, fbays, fscr, fqm⟩ := raiseFail_keeps (u := (u.planRead 0 u.plan.total).1) n (by rw [rsu]; exact h5)
  exact ⟨_, (auth_go u u.plan rfl _ rfl h n hn).trans (if_neg h0), busy, result, reason, fbays.trans bays, fscr.trans scr,
    fqm.trans qm⟩

/-- A step from 6 on runs on the plan as read when the plan can be read and the channels are ready. -/
theorem withPlan_runs (go : State → Plan → State) (h : (u.planRead 0 u.plan.total).2 = true)
    (hc : u.rsu.op ≠ 1 ∨ u.channelsReady u.plan = true) : u.withPlan go = go (u.planRead 0 u.plan.total).1 u.plan :=
  (withPlan_eq u go _ rfl).1 h hc

/-- Steps 6 to 9 are what they do with the plan. -/
theorem laterStep_eq {us : Nat} {v : State} (hb : v.rsu.busy = true) (hu : u = { v with rsu := { v.rsu with elapsed := v.rsu.elapsed + us } })
    (hd : v.rsu.op = 1 ∨ v.rsu.disturbed = false) (h6 : 6 ≤ v.rsu.step) (h9 : v.rsu.step ≤ 9) :
    ∃ go, v.raiseStep us = u.withPlan go := by
  obtain ⟨-, -, -, -, -, s6, s7, s8, s9, -⟩ := raiseStep_go v us u hb hu hd
  obtain h | h | h | h : v.rsu.step = 6 ∨ v.rsu.step = 7 ∨ v.rsu.step = 8 ∨ v.rsu.step = 9 := by omega
  · exact ⟨_, s6 h⟩
  · exact ⟨_, s7 h⟩
  · exact ⟨_, s8 h⟩
  · exact ⟨_, s9 h⟩

end

/-- A bay that starts enters RUN with its start words and every other register zero (R383). -/
theorem bayEnterRun_starts {s : State} {b : Nat} (hb : b ∈ s.rsu.starting) (h1 : (s.bay b).state = 1)
    (hr : (s.bay b).retired = false) :
    ∃ t, s.bayEnterRun b = t ∧ (t.bay b).state = 3 ∧ (t.bay b).pipe.pc = (s.bay b).str.start ∧
      (t.bay b).ctx.priv = 1 ∧ (t.bay b).ctx.mask = 7 ∧ (t.bay b).ports = [] ∧ (t.bay b).crcs = [] ∧ (t.bay b).tmr = {} ∧
      (∀ r, tgetD 0#32 (t.bay b).gp r = if r = 63 then (s.bay b).str.startSp else 0#32) ∧
      (t.bay b).istore = (s.bay b).istore ∧ (∀ k, k ≠ b → t.bay k = s.bay k) ∧ t.regs = s.regs ∧ t.stg = s.stg := by
  let w := s.onRsu fun r => { r with starting := r.starting.filter fun k => decide (k ≠ b) }
  have go : s.bayEnterRun b = w.onBay b fun x => { x with id := b }.enterRun := by
    rw [State.bayEnterRun, if_neg (by simp [hb])]
    exact if_pos ⟨h1, hr⟩
  have own : (w.onBay b fun x => { x with id := b }.enterRun).bay b = ({ s.bay b with id := b } : Bay).enterRun :=
    State.bay_onBay _ _ _
  refine ⟨_, go, ?_⟩
  rw [own]
  refine ⟨rfl, rfl, rfl, rfl, rfl, rfl, rfl, fun r => ?_, rfl, fun k hk => State.bay_onBay_ne _ _ hk, rfl, rfl⟩
  show tgetD 0#32 (tsetD 0#32 [] 63 (s.bay b).str.startSp) r = _
  by_cases h : r = 63
  · rw [h, tgetD_tsetD_same, if_pos rfl]
  · rw [tgetD_tsetD_ne _ _ _ h, if_neg h]
    rfl

theorem entriesToRun (s : State) (b : Nat) :
    (s.rsu.starting.contains b = false → exec (.bayEnterRun b) s = .next (s.finish s.start)) ∧
    (b ∈ s.rsu.starting → ((s.bay b).state ≠ 1 ∨ (s.bay b).retired = true) →
      exec (.bayEnterRun b) s = .next (s.finish { s.start with
        rsu := { s.rsu with starting := s.rsu.starting.filter fun k => decide (k ≠ b) } })) := by
  refine ⟨fun h => ?_, fun hb h => ?_⟩
  · exact runs (f := fun t => t.bayEnterRun b) rfl (if_pos (by rw [Bool.not_eq_true']; exact h))
  · refine runs (f := fun t => t.bayEnterRun b) rfl ((if_neg ?_).trans (if_neg ?_))
    · rw [show s.start.rsu.starting.contains b = true from List.contains_iff_mem.2 hb]
      simp
    · rintro ⟨h1, h2⟩
      rcases h with h | h
      · exact h h1
      · exact absurd (h.symm.trans h2) (by decide)

theorem raiseCommands (s : State) (h : s.reachable 0x5000C = true) :
    (s.stgOn = true → s.rsu.busy = false → ∀ op t, 1 ≤ op → op ≤ 3 → s.raiseOk op = true →
      t = { s.start with rsu := { s.rsu with
        busy := true, step := 1, result := 0, reason := 0, skipped := 0, op := op, src := (s.reg 0x50000).toNat,
        len := (s.reg 0x50004).toNat, target := s.reg 0x50008, bents := 0, elapsed := 0, plain := false, quiesce := 0,
        disturbed := false, placed := [] } } →
      (op = 1 → exec .raise s = .next (s.finish t)) ∧ (op = 2 → exec .rebent s = .next (s.finish t)) ∧
      (op = 3 → exec .rebay s = .next (s.finish t))) ∧
    (s.stgOn = true → s.rsu.busy = false → ∀ op t, 1 ≤ op → op ≤ 3 → s.raiseOk op = false →
      t = ({ s.start with rsu := { s.rsu with result := 3, reason := 0x24, step := 0 } } : State).event 0x50014 1 →
      (op = 1 → exec .raise s = .next (s.finish t)) ∧ (op = 2 → exec .rebent s = .next (s.finish t)) ∧
      (op = 3 → exec .rebay s = .next (s.finish t))) := by
  refine ⟨fun hs hb op t h1 h3 hok ht => ?_, fun hs hb op t h1 h3 hok ht => ?_⟩
  · subst ht
    exact raise_commands h (rsu_accept s.start op hs hb hok (one_to_three h1 h3))
  · subst ht
    exact raise_commands h (rsu_refuse s.start op hs hb hok (one_to_three h1 h3))

/-- Steps 6 to 8 load bays, fabric and queues from the plan. -/
theorem laterSteps_run {u : State} (h : (u.planRead 0 u.plan.total).2 = true)
    (hc : u.rsu.op ≠ 1 ∨ u.channelsReady u.plan = true) :
    u.raiseBays = (((u.planRead 0 u.plan.total).1.raiseTargets.filter (u.planRead 0 u.plan.total).1.bayLive).foldl
        (fun x b => x.loadBay u.plan b) (u.planRead 0 u.plan.total).1).raiseTo (if u.rsu.op = 1 then 7 else 9) ∧
      u.raiseFabric = (({ (u.planRead 0 u.plan.total).1 with rsu := { (u.planRead 0 u.plan.total).1.rsu with
        routes := u.plan.bytes (u.plan.off 3) 96 } } : State).loadBanks u.plan).raiseTo 8 ∧
      u.raiseQueues = ((u.planRead 0 u.plan.total).1.loadQueues u.plan).raiseTo 9 :=
  ⟨withPlan_runs _ h hc, withPlan_runs _ h hc, withPlan_runs _ h hc⟩

/-- Step 9 of a raise loads the scribe's records, that of a re-raise the tasks alone. -/
theorem raiseScribe_runs {u : State} (h : (u.planRead 0 u.plan.total).2 = true)
    (hc : u.rsu.op ≠ 1 ∨ u.channelsReady u.plan = true) :
    (u.rsu.op ≠ 1 → u.raiseScribe = ((u.planRead 0 u.plan.total).1.reloadTasks u.plan).raiseTo 10) ∧
    (u.rsu.op = 1 → ∀ x, (u.planRead 0 u.plan.total).1.loadScribe u.plan false = some x →
      u.raiseScribe = (x.loadTasks u.plan).raiseTo 10) := by
  refine ⟨fun h1 => (withPlan_runs _ h hc).trans (if_neg h1), fun h1 x hx => (withPlan_runs _ h hc).trans ((if_pos h1).trans ?_)⟩
  rw [hx]

/-- Settles O36: commands, the steps one by one (`raiseStep_go` and the lemma of each), and entry to RUN. -/
theorem raising : Obligations.Raising := by
  refine ⟨⟨fun s h => ?_, fun s hs i hi => closed_commands hs hi⟩, fun s us => ⟨fun hb => ?_, fun u hb hu => ⟨fun ho hd => ?_,
    fun hd => ?_⟩, fun b => (entriesToRun s b).1, fun b => (entriesToRun s b).2, fun b hb h1 hr => ?_⟩⟩
  · obtain ⟨accept, refuse⟩ := raiseCommands s h
    exact ⟨accept, refuse, fun hs hb => lost_commands h hs hb, fun hs hb h4 => abort_early h hs hb h4,
      fun hs => (abort_late h hs).1, fun hs => (abort_late h hs).2⟩
  · exact raiseStep_runs (if_pos (show (!s.rsu.busy) = true by rw [hb]; rfl))
  · exact raiseStep_runs (raiseStep_disturbed s.start us u hb hu ho hd)
  · obtain ⟨s1, s2, s3, s4, s5, s6, s7, s8, s9, s10⟩ := raiseStep_go s.start us u hb hu hd
    have later := laterStep_eq (u := u) (v := s.start) hb hu hd
    have op : u.rsu.op = s.rsu.op := by rw [hu]
    have step : u.rsu.step = s.rsu.step := by rw [hu]
    have len : u.rsu.len = s.rsu.len := by rw [hu]
    have hw : u.hw = s.hw := by rw [hu]; rfl
    have bent : u.raiseBent = s.raiseBent := by rw [hu]; rfl
    have plan : u.plan = s.plan := by rw [hu]; rfl
    have ready : u.channelsReady s.plan = s.channelsReady s.plan := by rw [hu]; rfl
    have bays : u.bays = s.bays := by rw [hu]; rfl
    have scr : u.scr = s.scr := by rw [hu]; rfl
    have qm : u.qm = s.qm := by rw [hu]; rfl
    have stg : u.stg = s.stg := by rw [hu]; rfl
    have plain : u.rsu.plain = s.rsu.plain := by rw [hu]
    have quiesce : u.rsu.quiesce = s.rsu.quiesce := by rw [hu]
    have bents : u.rsu.bents = s.rsu.bents := by rw [hu]
    have targets : u.raiseTargets = s.raiseTargets := by rw [hu]; rfl
    have planned : (fun b => u.bayLive b && decide ((u.bay b).state = 1)) = fun b => s.bayLive b && decide ((s.bay b).state = 1) := by
      rw [hu]
      rfl
    have ready5 (n : Nat) : u.bentsReady n true = s.bentsReady n true := by rw [hu]; rfl
    refine ⟨fun h1 hr => ?_, fun h1 hr h hh h0 => ?_, fun h1 hr hh n3 n8 hdir hr' w hw hw2 hbents => ?_,
      fun h2 hr hc ha => ?_, fun h2 hr n h0 hn => ?_, fun h3 => ?_, fun h4 r hr => ?_, fun h5 ho => ?_, fun h5 ho => ?_,
      fun h5 ho => ?_, fun h6 h9 r hr hr2 hc => ?_, fun h6 h9 r hr => ?_, fun h10 ho hp => ?_, fun h10 => ?_⟩
    · exact raiseStep_runs ((s1 h1).trans (fetch_unread u hr))
    · exact raiseStep_runs ((s1 h1).trans (fetch_header u h hr (by rw [plan, op, len, hw, bent]; exact hh) h0))
    · obtain ⟨t, e, rsu, tbays, tscr, tqm⟩ := raiseFetch_next plan.symm hr (by rw [op, len, ‹u.hw = s.hw›, bent]; exact hh) n3 n8
        (by rw [op]; exact hdir) hr' hw hw2 (by rw [op]; exact hbents)
      exact ⟨t, raiseStep_runs ((s1 h1).trans e), rsu, tbays.trans bays, tscr.trans scr, tqm.trans qm⟩
    · obtain ⟨t, e, rsu, tbays, tscr, tqm⟩ := raiseAuth_next (u := u) (by rw [plan]; exact hr) (by rw [plan]; exact hc)
        (by rw [plan]; exact ha)
      rw [plan] at rsu
      exact ⟨t, raiseStep_runs ((s2 h2).trans e), rsu, tbays.trans bays, tscr.trans scr, tqm.trans qm⟩
    · obtain ⟨t, e, busy, result, reason, tbays, tscr, tqm⟩ := raiseAuth_fails (u := u) (by rw [step, h2]; decide)
        (by rw [plan]; exact hr) h0 (by rw [plan]; exact hn)
      exact ⟨t, raiseStep_runs ((s2 h2).trans e), busy, result, reason, tbays.trans bays, tscr.trans scr, tqm.trans qm⟩
    · obtain ⟨outcome, tbays, tscr, tqm⟩ := decrypt_facts u _ rfl (by rw [step, h3]; decide)
      exact ⟨_, raiseStep_runs (s3 h3), outcome, tbays.trans bays, tscr.trans scr, tqm.trans qm⟩
    · have e := validate_eq u s.plan plan.symm r hr
      rw [op] at e
      exact raiseStep_runs ((s4 h4).trans e)
    · have e := (quiesce_eq u).trans (if_pos (op.trans ho))
      rw [ready5, bents, plan, ready] at e
      exact raiseStep_runs ((s5 h5).trans e)
    · have e := (quiesce_eq u).trans ((if_neg (by rw [op, ho]; decide)).trans (if_pos (op.trans ho)))
      rw [targets, planned] at e
      exact raiseStep_runs ((s5 h5).trans e)
    · have e := (quiesce_eq u).trans ((if_neg (by rw [op, ho]; decide)).trans (if_neg (by rw [op, ho]; decide)))
      rw [quiesce, bent] at e
      exact raiseStep_runs ((s5 h5).trans e)
    · have hr' : r = u.planRead 0 u.plan.total := by rw [plan]; exact hr
      have h : (u.planRead 0 u.plan.total).2 = true := by rw [← hr']; exact hr2
      have hc' : u.rsu.op ≠ 1 ∨ u.channelsReady u.plan = true := by rw [op, plan, ready]; exact hc
      obtain ⟨scribe, scribe1⟩ := raiseScribe_runs h hc'
      obtain ⟨bays6, fabric, queues⟩ := laterSteps_run h hc'
      rw [← hr', plan] at scribe scribe1 bays6 fabric queues
      refine ⟨fun h6 => ?_, fun h7 => ?_, fun h8 => ?_, fun h9 ho => ?_, fun h9 ho x hx => ?_⟩
      · rw [op] at bays6
        exact raiseStep_runs ((s6 h6).trans bays6)
      · exact raiseStep_runs ((s7 h7).trans fabric)
      · exact raiseStep_runs ((s8 h8).trans queues)
      · exact raiseStep_runs ((s9 h9).trans (scribe (by rw [op]; exact ho)))
      · exact raiseStep_runs ((s9 h9).trans (scribe1 (by rw [op]; exact ho) x hx))
    · have hr' : r = u.planRead 0 u.plan.total := by rw [plan]; exact hr
      obtain ⟨go, e⟩ := later h6 h9
      obtain ⟨-, unread, unready⟩ := withPlan_eq u go r hr'
      rw [op, plan, ready] at unready
      exact ⟨fun h => raiseStep_runs (e.trans (unread h)), fun h ho hc => raiseStep_runs (e.trans (unready h ho hc))⟩
    · obtain ⟨cbays, cstg, raised, busy, result, starting, seqno⟩ := commit_full u (op.trans ho) (plain.trans hp)
      rw [plan] at starting seqno
      refine ⟨_, raiseStep_runs (s10 h10), raised, busy, result, ?_, seqno, cbays.trans bays, cstg.trans stg⟩
      rw [starting, ← targets, hu]
      rfl
    · exact raiseStep_runs (s10 h10)
  · exact (bayEnterRun_starts (s := s.start) hb h1 hr).imp fun t e => ⟨runs (f := fun t => t.bayEnterRun b) rfl e.1, e.2⟩

end Sys2Proof.Proofs.Raises



/-!
Guest accesses over scarf links, fences, and the route table (R397–R412).
-/
namespace Sys2Proof.Proofs.Peers
open Sys2Proof Sys2Proof.Machine Running Laws.Guests Laws.Channels

/-! ## A flit for this device -/

/-- What a link's own state leaves of the rest: all that a guest access reads. -/
theorem link_same {u b : State} (h : LinkRest u b) :
    (∀ f, b.guestWaits f = u.guestWaits f) ∧ b.scf.guestq = u.scf.guestq ∧ (∀ d k, b.guestPage d k = u.guestPage d k) ∧
      (∀ a, b.ddrErr a = u.ddrErr a) ∧ (∀ c, b.chan c = u.chan c) ∧ b.devId = u.devId ∧ (∀ d, b.route d = u.route d) := by
  obtain ⟨P, g, o, rfl⟩ := h
  exact ⟨fun _ => rfl, rfl, fun _ _ => rfl, fun _ => rfl, fun _ => rfl, rfl, fun _ => rfl⟩

/-- A completion to the sender of a flit goes out at once where nothing waits at the port. -/
theorem reply_at_once {u b v : State} {p dst : Nat} (hu : u.portUp p = true) (br : LinkRest u b) (out : b.out = u.out) (own : b.port p = { u.port p with
        rxNext := ((u.port p).rxNext + 1) % 4096, owed := (u.port p).owed ++ [0], ackDue := true })
    (hv : ∃ F R D, v = { b with free := F, regs := R, ddr := D }) (m : Flit) (hm : m.dst = dst)
    (hup : u.scf.upd = none) (hr : u.route dst = p + 1) (h0 : (u.port p).qFwd = []) (h1 : (u.port p).qCmp = [])
    (h2 : (u.port p).qCtl = []) (h3 : (u.port p).owed = []) (h5 : (u.port p).cCmp ≠ 0)
    (h6 : (u.port p).replay.length < 256) :
    (∃ w, ((v.sendCmp m).pump p).out = u.out ++ [.flit p m w]) ∧ ((v.sendCmp m).pump p).ddr = v.ddr ∧
      ((v.sendCmp m).pump p).bays = u.bays ∧ ((v.sendCmp m).pump p).qm = u.qm := by
  obtain ⟨F, R, D, rfl⟩ := hv
  obtain ⟨bqm, bbays, -, -, -, -, -, bupd, -, -⟩ := link_view br
  obtain ⟨-, -, -, -, -, -, route⟩ := link_same br
  have up : b.portUp p = true := by
    unfold State.portUp at hu ⊢
    rw [own]
    obtain ⟨P, g, o, rfl⟩ := br
    exact hu
  have port : ({ b with free := F, regs := R, ddr := D } : State).port p = b.port p := rfl
  obtain ⟨rest, w, sent⟩ := reply_out { b with free := F, regs := R, ddr := D } p m up (bupd.trans hup)
    (by rw [hm]; exact (route _).trans hr) ((congrArg Port_.qFwd own).trans h0) ((congrArg Port_.qCmp own).trans h1)
    ((congrArg Port_.qCtl own).trans h2) (by rw [port, own]; exact h5)
    (by rw [port, own]; exact h6) ⟨0, by rw [port, own, h3]; rfl⟩
  obtain ⟨qm, bays, ddr, -⟩ := link_view rest
  exact ⟨⟨w, sent.trans (congrArg (· ++ _) out)⟩, ddr, bays.trans bbays, qm.trans bqm⟩

section
variable {u : State} {p : Nat} {l : LinkWord} {f : Flit} (hu : u.portUp p = true) (hl : plainLink l (u.port p))
  (hg : (u.port p).gap = false) (hd : f.dst % 4096 = u.devId)
include hu hl hg hd

/-- A flit for this device that comes next on its link is handled, and the port sends what is due. -/
theorem received (c : Nat) (h : State → State) :
    ∃ b, LinkRest u b ∧ (u.receive p c l fun t => t.forMe c f h) = (h b).pump p ∧ b.out = u.out ∧
      b.port p = { u.port p with
        rxNext := ((u.port p).rxNext + 1) % 4096, owed := if c = 3 then (u.port p).owed else (u.port p).owed ++ [c],
        ackDue := true } ∧ ∀ q, q ≠ p → b.port q = u.port q := by
  obtain ⟨b, br, e, out, own, other⟩ := u.receive_next p c l (fun t => t.forMe c f h) hu hl hg
  exact ⟨b, br, e.trans (congrArg (State.pump · p) (forMe_here u b c f h br hd)), out, own, other⟩

/-- A guest access that has to wait is kept, and nothing else but its link changes. -/
theorem rxGuest_waits (gn : Nat) (hw : u.guestWaits f = true ∨ (u.scf.guestq.any fun e => decide (e.2.1.src = f.src ∧
      (flitPage e.2.1).1 = (flitPage f).1)) = true) :
    ∃ t, u.rxGuest p l f gn = t ∧ t.scf.guestq = u.scf.guestq ++ [(p, f, gn)] ∧
      t.bays = u.bays ∧ t.ddr = u.ddr ∧ t.qm = u.qm ∧ t.scr = u.scr := by
  obtain ⟨b, br, e, -, -, -⟩ := received hu hl hg hd 0 fun v => v.takeGuest p f gn
  obtain ⟨waits, queue, -, -, -, -, -⟩ := link_same br
  rw [takeGuest_waits b p f gn (by rw [waits, queue]; exact hw)] at e
  obtain ⟨qm, bays, ddr, scr, -, -, -, -, -, -⟩ :=
    link_view (State.pump_rest { b with scf := { b.scf with guestq := b.scf.guestq ++ [(p, f, gn)] } } p)
  obtain ⟨bqm, bbays, bddr, bscr, -, -, -, -, -, -⟩ := link_view br
  refine ⟨_, e, ?_, bays.trans bbays, ddr.trans bddr, qm.trans bqm, scr.trans bscr⟩
  rw [pump_guestq, queue]

/-- A guest access that need not wait is served. -/
theorem rxGuest_serves (hw : u.guestWaits f = false) (hq : (u.scf.guestq.any fun e => decide (e.2.1.src = f.src ∧
      (flitPage e.2.1).1 = (flitPage f).1)) = false) :
    ∃ b, LinkRest u b ∧ u.rxGuest p l f 0 = (b.guestServe p f 0).pump p ∧ b.out = u.out ∧
      b.port p = { u.port p with
        rxNext := ((u.port p).rxNext + 1) % 4096, owed := (u.port p).owed ++ [0], ackDue := true } := by
  obtain ⟨b, br, e, out, own, -⟩ := received hu hl hg hd 0 fun v => v.takeGuest p f 0
  obtain ⟨waits, queue, -, -, -, -, -⟩ := link_same br
  exact ⟨b, br, e.trans (congrArg (State.pump · p) (takeGuest_go b p f 0 (by rw [waits]; exact hw) (by rw [queue]; exact hq))),
    out, own⟩

variable (hw : u.guestWaits f = false) (hq : (u.scf.guestq.any fun e => decide (e.2.1.src = f.src ∧
      (flitPage e.2.1).1 = (flitPage f).1)) = false)
include hw hq

/-- An access to a page that is no guest here is answered by PERR code 2. -/
theorem rxGuest_noGuest (h : u.guestPage f.src (flitPage f).1 = none) :
    ∃ b, LinkRest u b ∧ u.rxGuest p l f 0 =
      (b.sendCmp { typ := 5, dst := f.src, src := u.devId, tag := f.tag, index := 2 }).pump p := by
  obtain ⟨b, br, e, -, -⟩ := rxGuest_serves hu hl hg hd hw hq
  obtain ⟨-, -, page, -, -, dev, -⟩ := link_same br
  rw [guestServe_err b p f .unmapped (.inl (guestRun_none b f (by rw [page]; exact h))), dev] at e
  exact ⟨b, br, e⟩

/-- An access to a page whose channel does not serve it is answered by PERR code 3. -/
theorem rxGuest_notReady {g : Nat} {err : Err} (h : u.guestPage f.src (flitPage f).1 = some g)
    (he : u.ddrErr (g * 65536 + (flitPage f).2) = some err) :
    ∃ b, LinkRest u b ∧ u.rxGuest p l f 0 =
      (b.sendCmp { typ := 5, dst := f.src, src := u.devId, tag := f.tag, index := 3 }).pump p := by
  obtain ⟨b, br, e, -, -⟩ := rxGuest_serves hu hl hg hd hw hq
  obtain ⟨-, -, page, ddrErr, -, dev, -⟩ := link_same br
  rw [guestServe_err b p f .isolated (guestRun_off b f g err (by rw [page]; exact h) (by rw [ddrErr]; exact he)), dev] at e
  exact ⟨b, br, e⟩

section
variable {g a : Nat} (h : u.guestPage f.src (flitPage f).1 = some g) (ha : a = g * 65536 + (flitPage f).2)
  (he : u.ddrErr a = none)
include h ha he

theorem rxGuest_reads (ht : f.typ = 2) :
    ∃ b, LinkRest u b ∧ u.rxGuest p l f 0 = (((b.ddrRead a 32).1.timed (chanOf a) 1).sendCmp {
      typ := 4, dst := f.src, src := u.devId, tag := f.tag,
      payload := wordsOf (b.ddrRead a 32).2.data ++ (if (b.ddrRead a 32).2.data = [] then []
        else [wd (((b.ddrRead a 32).2.bad.map fun i => 2 ^ i).foldl (· + ·) 0)]) }).pump p := by
  obtain ⟨b, br, e, -, -⟩ := rxGuest_serves hu hl hg hd hw hq
  obtain ⟨-, -, page, ddrErr, -, dev, -⟩ := link_same br
  rw [guestServe_read b p f g a u.devId ht (by rw [page]; exact h) ha (by rw [ddrErr]; exact he) dev] at e
  exact ⟨b, br, e⟩

theorem rxGuest_writes (ht : f.typ ≠ 2) :
    ∃ b, LinkRest u b ∧ u.rxGuest p l f 0 = (((b.timed (chanOf a) 1).lineWrite (chanOf a) (a / 64)
      ((List.range 32).filterMap fun i => if bitAt (f.payload.getD 2 0#32) i then
        some (a % 64 + i, (bytesOf ((List.range 8).map fun i => f.payload.getD (8 + i) 0#32)).getD i 0#8) else none)
      f.poison).sendCmp { typ := 4, dst := f.src, src := u.devId, tag := f.tag }).pump p := by
  obtain ⟨b, br, e, -, -⟩ := rxGuest_serves hu hl hg hd hw hq
  obtain ⟨-, -, page, ddrErr, -, dev, -⟩ := link_same br
  rw [guestServe_write b p f g a u.devId ht (by rw [page]; exact h) ha (by rw [ddrErr]; exact he) dev] at e
  exact ⟨b, br, e⟩


/-! ### An access that is answered at once -/

section
variable (hup : u.scf.upd = none) (hr : u.route f.src = p + 1) (h0 : (u.port p).qFwd = []) (h1 : (u.port p).qCmp = [])
  (h2 : (u.port p).qCtl = []) (h3 : (u.port p).owed = []) (h5 : (u.port p).cCmp ≠ 0) (h6 : (u.port p).replay.length < 256)
  (hwq : (u.chan (chanOf a)).wq = [])
include hup hr h0 h1 h2 h3 h5 h6 hwq

/-- A read of a page whose line is clean answers the line and marks none of its words. -/
theorem rxGuest_read_now (ht : f.typ = 2) {ws : List Word} (hm : (u.chan (chanOf a)).marks = [])
    (hn : (u.chan (chanOf a)).wild = false)
    (hws : ws = wordsOf ((List.range 32).map fun i => (u.chan (chanOf a)).mem.byte (a + i)) ++ [0#32]) :
    ∃ t, u.rxGuest p l f 0 = t ∧
      (∃ w, t.out = u.out ++ [.flit p { typ := 4, dst := f.src, src := u.devId, tag := f.tag, payload := ws } w]) ∧
      t.ddr = u.ddr ∧ t.bays = u.bays ∧ t.qm = u.qm := by
  obtain ⟨b, br, e, out, own⟩ := rxGuest_serves hu hl hg hd hw hq
  obtain ⟨-, -, page, ddrErr, chan, dev, -⟩ := link_same br
  rw [guestServe_read b p f g a u.devId ht (by rw [page]; exact h) ha (by rw [ddrErr]; exact he) dev,
    ddrRead_clean b a 32 (by rw [ddrErr]; exact he) (by rw [chan]; exact hn) (by rw [chan]; exact hwq)
      (by rw [chan]; exact hm), chan] at e
  obtain ⟨F, R, time⟩ := timed_rest (chanOf a) 1 b
  obtain ⟨sent, ddr, bays, qm⟩ := reply_at_once hu br out own ⟨F, R, b.ddr, time⟩
    { typ := 4, dst := f.src, src := u.devId, tag := f.tag, payload := ws } rfl hup hr h0 h1 h2 h3 h5 h6
  have full : (List.range 32).map (fun i => (u.chan (chanOf a)).mem.byte (a + i)) ≠ [] := by simp
  obtain ⟨-, -, bddr, -⟩ := link_view br
  dsimp only at e
  rw [if_neg full, show [wd ((([] : List Nat).map fun i => 2 ^ i).foldl (· + ·) 0)] = [0#32] from rfl, ← hws] at e
  exact ⟨_, e, sent, ddr.trans ((congrArg State.ddr time).trans bddr), bays, qm⟩

/-- A write changes the bytes that it enables, and is acknowledged. -/
theorem rxGuest_write_now (ht : f.typ = 3) :
    ∃ t, u.rxGuest p l f 0 = t ∧
      (∃ w, t.out = u.out ++ [.flit p { typ := 4, dst := f.src, src := u.devId, tag := f.tag } w]) ∧
      (∀ x, (t.chan (chanOf a)).see x =
        if x / 64 = a / 64 ∧ a % 64 ≤ x % 64 ∧ x % 64 < a % 64 + 32 ∧
          bitAt (f.payload.getD 2 0#32) (x % 64 - a % 64) = true then
          (bytesOf ((List.range 8).map fun i => f.payload.getD (8 + i) 0#32)).getD (x % 64 - a % 64) 0#8
        else (u.chan (chanOf a)).see x) ∧
      (∀ c, c ≠ chanOf a → t.chan c = u.chan c) ∧ t.bays = u.bays ∧ t.qm = u.qm := by
  obtain ⟨b, br, e, out, own⟩ := rxGuest_serves hu hl hg hd hw hq
  obtain ⟨-, -, page, ddrErr, chan, dev, -⟩ := link_same br
  obtain ⟨v, run, see⟩ := guestWrite_eq b f g a ht (by rw [page]; exact h) ha (by rw [ddrErr]; exact he)
    (by rw [chan]; exact hwq)
  have serve : b.guestServe p f 0 = ((b.timed (chanOf a) 1).setChan (chanOf a) v).sendCmp
      { typ := 4, dst := f.src, src := u.devId, tag := f.tag } := by
    have page' := (page f.src (flitPage f).1).trans h
    have he' := (ddrErr a).trans he
    have typ : f.typ ≠ 2 := by rw [ht]; decide
    exact (guestServe_write b p f g a u.devId typ page' ha he' dev).trans
      (congrArg (fun r : State × Resp => r.1.sendCmp { typ := 4, dst := f.src, src := u.devId, tag := f.tag })
        ((guestRun_write b f g a typ page' ha he').symm.trans run))
  obtain ⟨F, R, time⟩ := timed_rest (chanOf a) 1 b
  rw [serve] at e
  obtain ⟨sent, ddr, bays, qm⟩ := reply_at_once hu br out own (v := (b.timed (chanOf a) 1).setChan (chanOf a) v)
    ⟨F, R, _, by rw [time]; rfl⟩
    { typ := 4, dst := f.src, src := u.devId, tag := f.tag } rfl hup hr h0 h1 h2 h3 h5 h6
  have chans : ∀ c, (u.rxGuest p l f 0).chan c = ((b.timed (chanOf a) 1).setChan (chanOf a) v).chan c := fun c => by
    rw [e]; unfold State.chan; rw [ddr]
  refine ⟨_, e, sent, fun x => ?_, fun c hc => ?_, bays, qm⟩
  · rw [← e, chans, State.chan_setChan, see, chan]
  · rw [← e, chans, State.chan_setChan_ne _ _ hc, time]
    exact chan c

end

end

end

/-! ## Completions -/

/-- A state that differs from another in one bay alone, and how. -/
def OnlyBay (k : Nat) (g : Bay → Bay) (u v : State) : Prop :=
  (∃ B, v = { u with bays := B }) ∧ v.bay k = g (u.bay k) ∧ ∀ j, j ≠ k → v.bay j = u.bay j

theorem OnlyBay.first (u : State) (k : Nat) (g : Bay → Bay) : OnlyBay k g u (u.onBay k g) :=
  ⟨⟨_, rfl⟩, State.bay_onBay _ _ _, fun _ hj => State.bay_onBay_ne _ _ hj⟩

theorem OnlyBay.andThen {u v : State} {k : Nat} {g : Bay → Bay} (h : OnlyBay k g u v) (f : Bay → Bay) :
    OnlyBay k (fun c => f (g c)) u (v.onBay k f) := by
  obtain ⟨⟨B, rfl⟩, own, other⟩ := h
  exact ⟨⟨_, rfl⟩, (State.bay_onBay _ _ _).trans (congrArg f own),
    fun j hj => (State.bay_onBay_ne _ _ hj).trans (other j hj)⟩

/-- The answer to a load gives its result to the bay that waits. -/
theorem remoteAnswer_load (v : State) {r : Remote} {off size : Nat} {sg : Bool} {ea : Word}
    (h : r.kind = .load off size sg ea) (a : Resp) (n : Nat) :
    OnlyBay r.bay (fun c => ((c.served r.fid Outside.home).answerWith r.fid { a with bad := a.bad.filter (· = off % 32 / 4) }
      (loadValue size sg (a.data.drop (off % 32))) ea).arrive r.fid n) v (v.remoteAnswer r a n) := by
  unfold State.remoteAnswer
  rw [h]
  exact ((OnlyBay.first _ _ _).andThen _).andThen _

/-- The error answer to a store is an error of its bay. -/
theorem remoteAnswer_storeError (v : State) {r : Remote} {ea : Word} (h : r.kind = .store ea) (a : Resp)
    (ha : a.err.isSome = true) (n : Nat) :
    OnlyBay r.bay (fun c => ((c.served r.fid Outside.home).storeError ea).arrive r.fid n) v (v.remoteAnswer r a n) := by
  unfold State.remoteAnswer
  rw [h]
  dsimp only
  rw [if_pos ha]
  exact ((OnlyBay.first _ _ _).andThen _).andThen _

section
variable {u : State} {p : Nat} {l : LinkWord} {f : Flit} (hu : u.portUp p = true) (hl : plainLink l (u.port p))
  (hg : (u.port p).gap = false) (hd : f.dst % 4096 = u.devId)
include hu hl hg hd

/-- A completion of no request of this device changes nothing but its link. -/
theorem receive_complete_none (a : Resp) (n : Nat)
    (h : u.scf.reqs.find? (fun r => decide (r.tag = f.tag ∧ r.port = p)) = none) :
    ∃ t, (u.receive p 1 l fun t => t.forMe 1 f fun v => v.complete p f.tag a n) = t ∧ LinkRest u t := by
  obtain ⟨b, br, e, -, -, -⟩ := received hu hl hg hd 1 fun v => v.complete p f.tag a n
  obtain ⟨-, -, -, -, -, breqs, -⟩ := link_view br
  rw [complete_none b p f.tag a n (by rw [breqs]; exact h)] at e
  exact ⟨_, e, br.trans (State.pump_rest _ _)⟩

section
variable {r : Remote} (h : u.scf.reqs.find? (fun r => decide (r.tag = f.tag ∧ r.port = p)) = some r)
include h

/-- A completion of a request ends it and answers what waits for it. -/
theorem receive_complete (a : Resp) (n : Nat) :
    ∃ b, LinkRest u b ∧ (u.receive p 1 l fun t => t.forMe 1 f fun v => v.complete p f.tag a n) = (({ b with
      scf := { b.scf with reqs := u.scf.reqs.filter fun q => decide (q.tag ≠ f.tag) } } : State).remoteAnswer r a n).pump p := by
  obtain ⟨b, br, e, -, -, -⟩ := received hu hl hg hd 1 fun v => v.complete p f.tag a n
  obtain ⟨-, -, -, -, -, breqs, -⟩ := link_view br
  rw [complete_some b p f.tag a n r (by rw [breqs]; exact h), breqs] at e
  exact ⟨b, br, e⟩

/-- A completion whose answer concerns one bay alone changes that bay and ends its request. -/
theorem receive_complete_bay (a : Resp) (n : Nat) {g : Bay → Bay}
    (go : ∀ v : State, OnlyBay r.bay g v (v.remoteAnswer r a n)) :
    ∃ t, (u.receive p 1 l fun t => t.forMe 1 f fun v => v.complete p f.tag a n) = t ∧
      t.scf.reqs = u.scf.reqs.filter (fun q => decide (q.tag ≠ f.tag)) ∧ t.bay r.bay = g (u.bay r.bay) ∧
      (∀ k, k ≠ r.bay → t.bay k = u.bay k) ∧ t.ddr = u.ddr ∧ t.qm = u.qm := by
  obtain ⟨b, br, e⟩ := receive_complete hu hl hg hd h a n
  obtain ⟨bqm, bbays, bddr, -⟩ := link_view br
  obtain ⟨⟨B, only⟩, own, other⟩ := go { b with
    scf := { b.scf with reqs := u.scf.reqs.filter fun q => decide (q.tag ≠ f.tag) } }
  rw [only] at e own other
  obtain ⟨qm, bays, ddr, -, -, reqs, -⟩ := link_view (State.pump_rest { b with
    scf := { b.scf with reqs := u.scf.reqs.filter fun q => decide (q.tag ≠ f.tag) }, bays := B } p)
  have same : ∀ k, b.bay k = u.bay k := fun k => by unfold State.bay; rw [bbays]
  refine ⟨_, e, reqs, ?_, fun k hk => ?_, ddr.trans bddr, qm.trans bqm⟩
  · rw [← same r.bay]; unfold State.bay; rw [bays]; exact own
  · rw [← same k]; unfold State.bay; rw [bays]; exact other k hk

end

/-! ## Fences -/

theorem rxFence_first (fw : Bool) (h : u.scf.fences.find? (fun e => decide (e.src = f.src ∧ e.num = f.tag)) = none) :
    ∃ t, u.rxFence p l f fw = t ∧
      t.scf.fences = u.scf.fences.filter (fun e => !decide (e.src = f.src ∧ e.num = f.tag)) ++
        [{ src := f.src, num := f.tag, fwd := fw, cmp := !fw }] ∧ t.bays = u.bays ∧ t.ddr = u.ddr ∧ t.qm = u.qm := by
  obtain ⟨b, br, e, -, -, -⟩ := received hu hl hg hd (if fw then 0 else 1) fun v => v.takeFence f fw
  obtain ⟨bqm, bbays, bddr, -, -, -, -, -, bfences, -⟩ := link_view br
  have first : b.takeFence f fw = { b with
      scf := { b.scf with fences := u.scf.fences.filter (fun e => !decide (e.src = f.src ∧ e.num = f.tag)) ++
        [{ src := f.src, num := f.tag, fwd := fw, cmp := !fw }] } } := by
    unfold State.takeFence
    rw [bfences, h]
    cases fw <;> rfl
  rw [first] at e
  obtain ⟨qm, bays, ddr, -, -, -, -, -, fences, -⟩ := link_view (State.pump_rest { b with
      scf := { b.scf with fences := u.scf.fences.filter (fun e => !decide (e.src = f.src ∧ e.num = f.tag)) ++
        [{ src := f.src, num := f.tag, fwd := fw, cmp := !fw }] } } p)
  exact ⟨_, e, fences, bays.trans bbays, ddr.trans bddr, qm.trans bqm⟩

theorem rxFence_second (fw : Bool) {d : FenceSeen} (h : u.scf.fences.find? (fun e => decide (e.src = f.src ∧ e.num = f.tag)) = some d)
    (h1 : (d.fwd || fw) = true) (h2 : (d.cmp || !fw) = true) :
    ∃ b, LinkRest u b ∧ u.rxFence p l f fw = (({ b with
      scf := { b.scf with fences := u.scf.fences.filter fun e => !decide (e.src = f.src ∧ e.num = f.tag) } } : State).sendCmp {
        typ := 7, dst := f.src, src := u.devId, tag := f.tag }).pump p := by
  obtain ⟨b, br, e, -, -, -⟩ := received hu hl hg hd (if fw then 0 else 1) fun v => v.takeFence f fw
  obtain ⟨-, -, -, -, -, -, -, -, bfences, -⟩ := link_view br
  obtain ⟨-, -, -, -, -, dev, -⟩ := link_same br
  rw [takeFence_both b f fw d (by rw [bfences]; exact h) h1 h2, bfences, dev] at e
  exact ⟨b, br, e⟩

/-! ## Route updates -/

theorem rxFenceAck_none (h : ∀ d, u.scf.upd = some d → ¬ (d.num = f.tag ∧ d.dev = f.src)) :
    ∃ t, u.rxFenceAck p l f = t ∧ LinkRest u t := by
  obtain ⟨b, br, e, -, -, -⟩ := received hu hl hg hd 1 fun v => takeAck v f
  obtain ⟨-, -, -, -, -, -, -, bupd, -⟩ := link_view br
  rw [takeAck_none b f (by rw [bupd]; exact h)] at e
  exact ⟨_, e, br.trans (State.pump_rest _ _)⟩

theorem rxFenceAck_ends {d : RouteUpdate} (h : u.scf.upd = some d) (hn : d.num = f.tag) (hs : d.dev = f.src) :
    ∃ b, LinkRest u b ∧ u.rxFenceAck p l f = (b.updateEnds false).pump p := by
  obtain ⟨b, br, e, -, -, -⟩ := received hu hl hg hd 1 fun v => takeAck v f
  obtain ⟨-, -, -, -, -, -, -, bupd, -⟩ := link_view br
  rw [takeAck_some b f d (by rw [bupd]; exact h) hn hs] at e
  exact ⟨b, br, e⟩

end

/-- The end of an update that holds no flit puts the new entry in place. -/
theorem updateDone_empty (u : State) (n : Nat) {d : RouteUpdate} (h : u.scf.upd = some d) (hh : d.held = []) :
    u.updateDone n = { u with scf := { u.scf with
      upd := none, routes := tsetD 0 u.scf.routes d.dev (d.port + 8), rtres := n } } := by
  unfold State.updateDone
  rw [h]
  dsimp only
  rw [hh]
  rfl

theorem updateEnds_acknowledged (u : State) {d : RouteUpdate} (h : u.scf.upd = some d) :
    u.updateEnds false = (u.updateDone 0).pathRestored d.dev := by
  unfold State.updateEnds
  rw [h]
  rfl

theorem updateEnds_forced (u : State) {d : RouteUpdate} (h : u.scf.upd = some d) :
    u.updateEnds true = u.updateForced.pathRestored d.dev := by
  unfold State.updateEnds
  rw [h]
  rfl

theorem updateEnds_none (u : State) (c : Bool) (h : u.scf.upd = none) : u.updateEnds c = u := by
  unfold State.updateEnds
  rw [h]

/-- A FENCE_ACK of an update that holds no flit leaves bays and memory alone. -/
theorem rxFenceAck_empty {u : State} {p : Nat} {l : LinkWord} {f : Flit} (hu : u.portUp p = true)
    (hl : plainLink l (u.port p)) (hg : (u.port p).gap = false) (hd : f.dst % 4096 = u.devId) {d : RouteUpdate}
    (h : u.scf.upd = some d) (hn : d.num = f.tag) (hs : d.dev = f.src) (hh : d.held = []) :
    ∃ t, u.rxFenceAck p l f = t ∧ t.scf.upd = none ∧ t.scf.rtres = 0 ∧
      t.scf.routes = tsetD 0 u.scf.routes d.dev (d.port + 8) ∧ t.bays = u.bays ∧ t.ddr = u.ddr := by
  obtain ⟨b, br, e⟩ := rxFenceAck_ends hu hl hg hd h hn hs
  obtain ⟨-, bbays, bddr, -, -, -, broutes, bupd, -, -⟩ := link_view br
  have hb : b.scf.upd = some d := bupd.trans h
  rw [updateEnds_acknowledged b hb, updateDone_empty b 0 hb hh, broutes] at e
  obtain ⟨-, bays, ddr, -, -, -, routes, upd, -, res⟩ := link_view (State.pump_rest (State.pathRestored { b with
    scf := { b.scf with upd := none, routes := tsetD 0 u.scf.routes d.dev (d.port + 8), rtres := 0 } } d.dev) p)
  exact ⟨_, e, upd, res, routes, bays.trans bbays, ddr.trans bddr⟩

/-- An update that is forced to its end and holds no flit raises the event of a forced update. -/
theorem updateForced_empty (u : State) {d : RouteUpdate} (h : u.scf.upd = some d) (hh : d.held = []) :
    ∃ t, u.updateEnds true = t ∧ t.scf.upd = none ∧ t.scf.rtres = 2 ∧
      t.scf.routes = tsetD 0 u.scf.routes d.dev (d.port + 8) ∧ t.sq 0x78070 = (u.sq 0x78070).event 1 ∧ t.bays = u.bays := by
  refine ⟨_, updateEnds_forced u h, ?_⟩
  unfold State.updateForced
  rw [if_pos (by rw [h]; rfl), updateDone_empty u 2 h hh]
  exact ⟨rfl, rfl, rfl, State.sq_setSq _ _ _, rfl⟩

/-! ## The route table -/

/-- The two FENCEs of an update change the links alone. -/
theorem fences_sent (u : State) (p : Nat) (m : TxFlit) :
    LinkRest u (if u.portUp p then (u.enqueue p 0 m).enqueue p 1 m else u) := by
  split
  · exact (State.enqueue_rest _ _ _ _).trans (State.enqueue_rest _ _ _ _)
  · exact LinkRest.refl _

theorem idle_isSome {u : State} (h : u.scf.upd = none) : ¬ u.scf.upd.isSome = true := by rw [h]; decide

theorem rtRead_idle (u : State) (h : u.scf.upd = none) : u.rtRead =
    (u.setReg 0x78014 (wd (tgetD 0 u.scf.routes (fld (u.reg 0x78010) 0 12) / 8 * 2 ^ 31 +
      tgetD 0 u.scf.routes (fld (u.reg 0x78010) 0 12) % 8))).rtResult 0 := if_neg (idle_isSome h)

theorem rtResult_frame (u : State) (n : Nat) : (u.rtResult n).scf = { u.scf with rtres := n } ∧
    (∀ a, (u.rtResult n).reg a = u.reg a) ∧ (u.rtResult n).bays = u.bays := ⟨rfl, fun _ => rfl, rfl⟩

section
variable {u : State} {d old : Nat} (hd : d = fld (u.reg 0x78010) 0 12) (ho : old = tgetD 0 u.scf.routes d)
  (h : u.scf.upd = none)
include hd ho h

theorem rtRead_entry : ∃ t, u.rtRead = t ∧ t.scf = { u.scf with rtres := 0 } ∧
    t.reg 0x78014 = wd (old / 8 * 2 ^ 31 + old % 8) ∧ t.bays = u.bays := by
  have e := rtRead_idle u h
  rw [← hd, ← ho] at e
  obtain ⟨scf, reg, bays⟩ := rtResult_frame (u.setReg 0x78014 (wd (old / 8 * 2 ^ 31 + old % 8))) 0
  rw [State.setReg_scf] at scf
  exact ⟨_, e, scf, (reg _).trans (State.reg_setReg _ _ _), bays.trans (State.setReg_bays _ _ _)⟩

theorem rtWrite_sets (h1 : old < 8 ∨ u.rtEntry < 8) (h2 : old = u.rtEntry ∨ u.guestsWith d = false) :
    u.rtWrite = { u with scf := { u.scf with routes := tsetD 0 u.scf.routes d u.rtEntry, rtres := 0 } } := by
  subst ho hd
  have kept : ¬ (tgetD 0 u.scf.routes (fld (u.reg 0x78010) 0 12) ≠ u.rtEntry ∧
      u.guestsWith (fld (u.reg 0x78010) 0 12) = true) := fun c =>
    h2.elim c.1 fun g => by rw [g] at c; exact absurd c.2 (by decide)
  exact ((if_neg (idle_isSome h)).trans (if_neg (by omega))).trans (if_neg kept)

theorem rtWrite_refused (h1 : (8 ≤ old ∧ 8 ≤ u.rtEntry) ∨ (old ≠ u.rtEntry ∧ u.guestsWith d = true)) :
    u.rtWrite = { u with scf := { u.scf with rtres := 1 } } := by
  subst ho hd
  refine (if_neg (idle_isSome h)).trans ?_
  by_cases both : 8 ≤ tgetD 0 u.scf.routes (fld (u.reg 0x78010) 0 12) ∧ 8 ≤ u.rtEntry
  · exact if_pos both
  · exact (if_neg both).trans (if_pos (h1.resolve_left both))

theorem rtUpdate_begins (h1 : 8 ≤ old) (h2 : 8 ≤ u.rtEntry) (h3 : old = u.rtEntry ∨ u.guestsWith d = false) :
    ∃ t, u.rtUpdate = t ∧ t.scf.upd = some ⟨d, u.rtEntry - 8, old - 8, (u.scf.fenceNum + 1) % 65536, []⟩ ∧
      t.scf.routes = u.scf.routes ∧ t.bays = u.bays ∧ t.qm = u.qm := by
  subst hd
  have route : u.route (fld (u.reg 0x78010) 0 12) = old - 7 := by rw [ho]; exact if_pos (by omega)
  have goes : ¬ (u.route (fld (u.reg 0x78010) 0 12) = 0 ∨ u.rtEntry < 8 ∨
      (u.route (fld (u.reg 0x78010) 0 12) ≠ u.rtEntry - 7 ∧ u.guestsWith (fld (u.reg 0x78010) 0 12) = true)) := by
    rw [route]
    rintro (c | c | ⟨c, g⟩)
    · omega
    · omega
    · exact h3.elim (fun e => c (by rw [e])) fun k => by rw [k] at g; exact absurd g (by decide)
  have begun := (if_neg (idle_isSome h)).trans (if_neg goes) (a := u.rtUpdate)
  rw [route, show old - 7 - 1 = old - 8 by omega] at begun
  obtain ⟨qm, bays, -, -, -, -, routes, upd, -, -⟩ := link_view (fences_sent
    { u with scf := { u.scf with
      fenceNum := (u.scf.fenceNum + 1) % 65536,
      upd := some ⟨fld (u.reg 0x78010) 0 12, u.rtEntry - 8, old - 8, (u.scf.fenceNum + 1) % 65536, []⟩ } }
    (old - 8) { flit := { typ := 6, dst := fld (u.reg 0x78010) 0 12, src := u.devId, tag := (u.scf.fenceNum + 1) % 65536 } })
  exact ⟨_, begun, upd, routes, bays, qm⟩

theorem rtUpdate_refused (h1 : old < 8 ∨ u.rtEntry < 8 ∨ (old ≠ u.rtEntry ∧ u.guestsWith d = true)) :
    u.rtUpdate = { u with scf := { u.scf with rtres := 1 } } := by
  subst ho hd
  refine (if_neg (idle_isSome h)).trans (if_pos ?_)
  unfold State.route
  by_cases valid : 8 ≤ tgetD 0 u.scf.routes (fld (u.reg 0x78010) 0 12)
  · rw [if_pos valid]
    rcases h1 with c | c | ⟨c, g⟩
    · omega
    · exact .inr (.inl c)
    · by_cases small : u.rtEntry < 8
      · exact .inr (.inl small)
      · exact .inr (.inr ⟨by omega, g⟩)
  · exact .inl (if_neg valid)

end

/-! ## The statement -/

/-- A write of a command to an idle route table carries it out. -/
theorem routeCommand {s : State} (hr : s.reachable 0x78018 = true) (h : s.scf.upd = none) :
    exec .rtRead s = .next (s.finish s.start.rtRead) ∧ exec .rtWrite s = .next (s.finish s.start.rtWrite) ∧
      exec .update s = .next (s.finish s.start.rtUpdate) :=
  ⟨runs (f := fun t => t.regWrite .host 0x78018 1#32) rfl (rt_go s.start _ hr h),
    runs (f := fun t => t.regWrite .host 0x78018 2#32) rfl (rt_go s.start _ hr h),
    runs (f := fun t => t.regWrite .host 0x78018 3#32) rfl (rt_go s.start _ hr h)⟩

theorem routeCommand_busy {s : State} (hr : s.reachable 0x78018 = true) (h : s.scf.upd.isSome = true) (i : Instr)
    (hi : i = .rtRead ∨ i = .rtWrite ∨ i = .update) : exec i s = .next (s.finish s.start) := by
  rcases hi with rfl | rfl | rfl
  · exact runs (f := fun t => t.regWrite .host 0x78018 1#32) rfl (rt_busy s.start _ hr h)
  · exact runs (f := fun t => t.regWrite .host 0x78018 2#32) rfl (rt_busy s.start _ hr h)
  · exact runs (f := fun t => t.regWrite .host 0x78018 3#32) rfl (rt_busy s.start _ hr h)

/-- Settles O38. -/
theorem guestsAndRoutes : Obligations.GuestsAndRoutes := by
  refine ⟨fun s p l f hu hl hg hd => ⟨?waits, fun hw hq => ⟨fun h => ⟨?_, ?_⟩, fun g e h he => ⟨?_, ?_⟩,
    fun g a h ha he => ⟨?_, ?_⟩, fun g a h ha he hwq hup hr h0 h1 h2 h3 _ h5 h6 => ⟨fun ws hm hn hws => ?_, ?_⟩⟩,
    fun n h => ⟨?_, ?_⟩, fun r n h => ⟨?_, ?_, fun off size sg ea hk => ?_, fun ea hk => ?_⟩,
    fun fw h => ?_, fun fw e h h1 h2 => ?_, fun d h hn hs => ⟨?_, fun hh => ?_⟩, fun h => ?_⟩,
    fun s d old hd ho => ⟨routeCommand_busy, fun hr h => ⟨?_, fun h1 h2 => ?_, fun h1 => ?_, fun h1 h2 h3 => ?_, fun h1 => ?_⟩,
      fun u h => ⟨?_, fun hh => ?_⟩, fun h => ?_⟩⟩
  case waits =>
    rintro gn i typ (⟨rfl, rfl⟩ | ⟨rfl, rfl⟩) hw
    · exact (rxGuest_waits (u := s.start) (f := { f with typ := 2 }) hu hl hg hd gn hw).imp fun t h =>
        ⟨runs (f := fun t => t.rxGuest p l { f with typ := 2 } gn) rfl h.1, h.2⟩
    · exact (rxGuest_waits (u := s.start) (f := { f with typ := 3 }) hu hl hg hd gn hw).imp fun t h =>
        ⟨runs (f := fun t => t.rxGuest p l { f with typ := 3 } gn) rfl h.1, h.2⟩
  · exact (rxGuest_noGuest (u := s.start) (f := { f with typ := 2 }) hu hl hg hd hw hq h).imp fun b h =>
      ⟨h.1, runs (f := fun t => t.rxGuest p l { f with typ := 2 } 0) rfl h.2⟩
  · exact (rxGuest_noGuest (u := s.start) (f := { f with typ := 3 }) hu hl hg hd hw hq h).imp fun b h =>
      ⟨h.1, runs (f := fun t => t.rxGuest p l { f with typ := 3 } 0) rfl h.2⟩
  · exact (rxGuest_notReady (u := s.start) (f := { f with typ := 2 }) hu hl hg hd hw hq h he).imp fun b h =>
      ⟨h.1, runs (f := fun t => t.rxGuest p l { f with typ := 2 } 0) rfl h.2⟩
  · exact (rxGuest_notReady (u := s.start) (f := { f with typ := 3 }) hu hl hg hd hw hq h he).imp fun b h =>
      ⟨h.1, runs (f := fun t => t.rxGuest p l { f with typ := 3 } 0) rfl h.2⟩
  · exact (rxGuest_reads (u := s.start) (f := { f with typ := 2 }) hu hl hg hd hw hq h ha he rfl).imp fun b h =>
      ⟨h.1, runs (f := fun t => t.rxGuest p l { f with typ := 2 } 0) rfl h.2⟩
  · exact (rxGuest_writes (u := s.start) (f := { f with typ := 3 }) hu hl hg hd hw hq h ha he (show (3 : Nat) ≠ 2 by decide)).imp fun b h =>
      ⟨h.1, runs (f := fun t => t.rxGuest p l { f with typ := 3 } 0) rfl h.2⟩
  · exact (rxGuest_read_now (u := s.start) (f := { f with typ := 2 }) hu hl hg hd hw hq h ha he hup hr h0 h1 h2 h3 h5 h6
      hwq rfl hm hn hws).imp fun t h => ⟨runs (f := fun t => t.rxGuest p l { f with typ := 2 } 0) rfl h.1, h.2⟩
  · exact (rxGuest_write_now (u := s.start) (f := { f with typ := 3 }) hu hl hg hd hw hq h ha he hup hr h0 h1 h2 h3 h5 h6
      hwq rfl).imp fun t h => ⟨runs (f := fun t => t.rxGuest p l { f with typ := 3 } 0) rfl h.1, h.2⟩
  · exact (receive_complete_none (u := s.start) (f := { f with typ := 4 }) hu hl hg hd _ n h).imp fun t h =>
      ⟨runs (f := fun t => t.rxComp p l { f with typ := 4 } n) rfl h.1, h.2⟩
  · exact (receive_complete_none (u := s.start) (f := { f with typ := 5 }) hu hl hg hd _ n h).imp fun t h =>
      ⟨runs (f := fun t => t.rxErr p l { f with typ := 5 } n) rfl h.1, h.2⟩
  · exact (receive_complete (u := s.start) (f := { f with typ := 4 }) hu hl hg hd h _ n).imp fun b h =>
      ⟨h.1, runs (f := fun t => t.rxComp p l { f with typ := 4 } n) rfl h.2⟩
  · exact (receive_complete (u := s.start) (f := { f with typ := 5 }) hu hl hg hd h _ n).imp fun b h =>
      ⟨h.1, runs (f := fun t => t.rxErr p l { f with typ := 5 } n) rfl h.2⟩
  · exact (receive_complete_bay (u := s.start) (f := { f with typ := 4 }) hu hl hg hd h _ n fun v =>
      remoteAnswer_load v hk _ n).imp fun t h => ⟨runs (f := fun t => t.rxComp p l { f with typ := 4 } n) rfl h.1, h.2⟩
  · exact (receive_complete_bay (u := s.start) (f := { f with typ := 5 }) hu hl hg hd h _ n fun v =>
      remoteAnswer_storeError v hk _ rfl n).imp fun t h => ⟨runs (f := fun t => t.rxErr p l { f with typ := 5 } n) rfl h.1, h.2⟩
  · exact (rxFence_first (u := s.start) (f := { f with typ := 6 }) hu hl hg hd fw h).imp fun t h =>
      ⟨runs (f := fun t => t.rxFence p l { f with typ := 6 } fw) rfl h.1, h.2⟩
  · exact (rxFence_second (u := s.start) (f := { f with typ := 6 }) hu hl hg hd fw h h1 h2).imp fun b h =>
      ⟨h.1, runs (f := fun t => t.rxFence p l { f with typ := 6 } fw) rfl h.2⟩
  · exact (rxFenceAck_ends (u := s.start) (f := { f with typ := 7 }) hu hl hg hd h hn hs).imp fun b h =>
      ⟨h.1, runs (f := fun t => t.rxFenceAck p l { f with typ := 7 }) rfl h.2⟩
  · exact (rxFenceAck_empty (u := s.start) (f := { f with typ := 7 }) hu hl hg hd h hn hs hh).imp fun t h =>
      ⟨runs (f := fun t => t.rxFenceAck p l { f with typ := 7 }) rfl h.1, h.2⟩
  · exact (rxFenceAck_none (u := s.start) (f := { f with typ := 7 }) hu hl hg hd h).imp fun t h =>
      ⟨runs (f := fun t => t.rxFenceAck p l { f with typ := 7 }) rfl h.1, h.2⟩
  · obtain ⟨t, e, facts⟩ := rtRead_entry (u := s.start) hd ho h
    exact ⟨t, e ▸ (routeCommand hr h).1, facts⟩
  · exact (rtWrite_sets (u := s.start) hd ho h h1 h2) ▸ (routeCommand hr h).2.1
  · exact (rtWrite_refused (u := s.start) hd ho h h1) ▸ (routeCommand hr h).2.1
  · obtain ⟨t, e, facts⟩ := rtUpdate_begins (u := s.start) hd ho h h1 h2 h3
    exact ⟨t, e ▸ (routeCommand hr h).2.2, facts⟩
  · exact (rtUpdate_refused (u := s.start) hd ho h h1) ▸ (routeCommand hr h).2.2
  · exact runs (f := fun t => t.updateEnds true) rfl (updateEnds_forced s.start h)
  · exact (updateForced_empty s.start h hh).imp fun t h => ⟨runs (f := fun t => t.updateEnds true) rfl h.1, h.2⟩
  · exact runs (f := fun t => t.updateEnds true) rfl (updateEnds_none s.start true h)

end Sys2Proof.Proofs.Peers



/-!
Training of the scarf ports (R389–R392).
-/
namespace Sys2Proof.Proofs.PortTraining
open Sys2Proof Sys2Proof.Machine Running Laws.PortOps

/-- Bit 0 of what SCFp_CTL is written to enable and to disable a port. -/
theorem enable_bit (v : Word) : bitAt (v ||| 1#32) 0 = true ∧ bitAt (v &&& 0xFFFFFFFE#32) 0 = false := by
  simp [bitAt]

theorem portCtl_enables (u : State) (p : Nat) (v : Word) (h1 : bitAt (u.reg (scfBase p)) 0 = false) (h2 : bitAt v 0 = true)
    (h3 : (u.port p).state = 0) :
    ∃ t, u.portCtl p v = t ∧ t.port p = { u.port p with state := 1, attempt := true } ∧
      bitAt (t.reg (scfBase p)) 0 = true ∧ (∀ q, q ≠ p → t.port q = u.port q) ∧ t.bays = u.bays := by
  obtain ⟨w, e⟩ := portCtl_enable u p v h1 h2 h3
  refine ⟨_, e, State.port_setPort _ _ _, ?_, fun q hq => State.port_setPort_ne _ _ hq, rfl⟩
  exact (congrArg (bitAt · 0) (State.reg_setReg _ _ _)).trans (put_bit0 w)

theorem portCtl_disables (u : State) (p : Nat) (v : Word) (h1 : bitAt (u.reg (scfBase p)) 0 = true) (h2 : bitAt v 0 = false)
    (h3 : (u.port p).state ≠ 0) :
    ∃ t, u.portCtl p v = t ∧ (t.port p).state = 0 ∧ (t.port p).dcause = (u.port p).dcause ∧
      t.bays = u.bays ∧ t.ddr = u.ddr ∧ t.qm = u.qm := by
  obtain ⟨w, e, bays, ddr, qm⟩ := portCtl_disable u p v h1 h2 h3
  obtain ⟨view, state, cause⟩ := dropPort_view w p 0 (u.port p).dcause 3 false
  exact ⟨_, e, state, cause, (congrArg (·.2.1) view).trans bays, (congrArg (·.2.2) view).trans ddr,
    (congrArg (·.1) view).trans qm⟩

section
variable {u : State} {p n dev port lanes width : Nat}

/-- A report of training where none is attempted does nothing. -/
theorem trained_idle (h : ¬ ((u.hw.portHere p && u.on 19) = true ∧ (u.port p).state = 1 ∧ (u.port p).attempt = true)) :
    u.trained_ p n dev port lanes width = u := by
  refine if_pos ?_
  by_contra c
  simp only [Bool.or_eq_true, Bool.not_eq_true', decide_eq_true_eq, not_or, Bool.not_eq_false, not_not] at c
  exact h ⟨c.1.1, c.1.2, c.2⟩

section
variable (h0 : (u.hw.portHere p && u.on 19) = true) (h1 : (u.port p).state = 1) (h2 : (u.port p).attempt = true)
include h0 h1 h2

theorem training : ¬ ((!(u.hw.portHere p && u.on 19) || decide ((u.port p).state ≠ 1) || !(u.port p).attempt) = true) := by
  rw [h0, h1, h2]; decide

/-- The training step at which a report ends the attempt: 0 where it succeeds. -/
theorem trained_step {st : Nat} (hs : (if fld (u.reg (scfBase p)) 8 4 = 0 then 1 else if n ≠ 0 then n
      else if ((u.linkSet p lanes width).getD (0, 0)).1 = 0 then 4 else if dev % 4096 = u.devId then 5 else 0) = st) :
    (st ≠ 0 → u.trained_ p n dev port lanes width = u.setPort p { u.port p with attempt := false, dcause := trainCause st }) ∧
    (st = 0 → u.trained_ p n dev port lanes width = ((u.setPort p { ({} : Port_) with
      state := 2, dcause := (u.port p).dcause, lanes := ((u.linkSet p lanes width).getD (0, 0)).2,
      width := ((u.linkSet p lanes width).getD (0, 0)).1, peerDev := dev % 4096, peerPort := port % 8,
      flight := (u.port p).flight, rmax := (u.port p).rmax, cFwd := 64, cCmp := 64, cCtl := 16,
      gen := (u.port p).gen }).event (scfBase p + 0x20) 0).flood p 0) := by
  subst hs
  exact ⟨fun h => (if_neg (training h0 h1 h2)).trans (if_pos h),
    fun h => (if_neg (training h0 h1 h2)).trans (if_neg (not_not.2 h))⟩

variable {fits : Nat × Nat → Prop} (hf : ∀ e, fits e ↔ e ∈ [(1, 15), (2, 3), (2, 12), (3, 1), (3, 2), (3, 4), (3, 8)] ∧
  fld (u.reg (scfBase p)) 4 2 + 1 ≤ e.1 ∧ width % 4 ≤ e.1 ∧ e.2 &&& ((lanes % 16) &&& fld (u.reg (scfBase p)) 8 4) = e.2)
include hf

theorem trained_fails {k : Nat} (h : (k = 7 ∧ fld (u.reg (scfBase p)) 8 4 = 0) ∨
      (fld (u.reg (scfBase p)) 8 4 ≠ 0 ∧ n ≠ 0 ∧ k = if n = 1 then 7 else if n = 5 then 4 else 3) ∨
      (fld (u.reg (scfBase p)) 8 4 ≠ 0 ∧ n = 0 ∧ (∀ e, ¬ fits e) ∧ k = 3) ∨
      (fld (u.reg (scfBase p)) 8 4 ≠ 0 ∧ n = 0 ∧ (∃ e, fits e) ∧ dev % 4096 = u.devId ∧ k = 4)) :
    u.trained_ p n dev port lanes width = u.setPort p { u.port p with attempt := false, dcause := k } := by
  obtain ⟨some_fits, none_iff⟩ := linkSet_some u p lanes width fits hf
  have ends : ∀ {st}, _ = st → st ≠ 0 → trainCause st = k → _ := fun hs h0' hk =>
    hk ▸ (trained_step (n := n) (dev := dev) (port := port) (lanes := lanes) (width := width) h0 h1 h2 hs).1 h0'
  obtain ⟨rfl, off⟩ | ⟨on, hn, rfl⟩ | ⟨on, hn, no, rfl⟩ | ⟨on, hn, ⟨e, he⟩, clash, rfl⟩ := h
  · exact ends (if_pos off) (by decide) rfl
  · exact ends ((if_neg on).trans (if_pos hn)) hn rfl
  · refine ends ((if_neg on).trans ((if_neg (not_not.2 hn)).trans (if_pos ?_))) (by decide) rfl
    rw [none_iff.2 no]; rfl
  · refine ends ((if_neg on).trans ((if_neg (not_not.2 hn)).trans ((if_neg ?_).trans (if_pos clash)))) (by decide) rfl
    obtain ⟨b, hb⟩ := Option.ne_none_iff_exists'.1 fun c => none_iff.1 c e he
    rw [hb]
    exact (some_fits b hb).2.1

theorem trained_up (h3 : fld (u.reg (scfBase p)) 8 4 ≠ 0) (h4 : n = 0) (h5 : ∃ e, fits e) (h6 : dev % 4096 ≠ u.devId) :
    ∃ t, u.trained_ p n dev port lanes width = t ∧ (t.port p).state = 2 ∧
      (t.port p).peerDev = dev % 4096 ∧ (t.port p).peerPort = port % 8 ∧ (t.port p).rxNext = 0 ∧
      fits ((t.port p).width, (t.port p).lanes) ∧
      (∀ e, fits e → (t.port p).width < e.1 ∨ (t.port p).width = e.1 ∧ (t.port p).lanes ≤ e.2) ∧
      t.sq (scfBase p + 0x20) = (u.sq (scfBase p + 0x20)).event 0 ∧ t.bays = u.bays := by
  obtain ⟨some_fits, none_iff⟩ := linkSet_some u p lanes width fits hf
  obtain ⟨e, he⟩ := h5
  obtain ⟨b, hb⟩ := Option.ne_none_iff_exists'.1 fun c => none_iff.1 c e he
  obtain ⟨bfits, wide, -, -, least⟩ := some_fits b hb
  have up := (trained_step (n := n) (dev := dev) (port := port) (lanes := lanes) (width := width) h0 h1 h2
    ((if_neg h3).trans ((if_neg (not_not.2 h4)).trans ((if_neg (by rw [hb]; exact wide)).trans (if_neg h6))))).2 rfl
  rw [hb] at up
  generalize hv : State.event _ _ _ = v at up
  have own : v.port p = { ({} : Port_) with
      state := 2, dcause := (u.port p).dcause, lanes := b.2, width := b.1, peerDev := dev % 4096, peerPort := port % 8,
      flight := (u.port p).flight, rmax := (u.port p).rmax, cFwd := 64, cCmp := 64, cCtl := 16, gen := (u.port p).gen } := by
    rw [← hv]; exact State.port_setPort _ _ _
  obtain ⟨w, rest⟩ := State.flood_rest v p 0
  obtain ⟨-, bays, -, -, sqs, -⟩ := link_view rest
  have rx := State.flood_rx v p 0 p
  rw [own] at rx
  simp only [Port_.rx, Prod.mk.injEq] at rx
  obtain ⟨next, -, -, state, -, dev', port', lanes', width'⟩ := rx
  refine ⟨_, up, state, dev', port', next, ?_, ?_, ?_, bays.trans (by rw [← hv]; rfl)⟩
  · rw [lanes', width']; exact bfits
  · rw [lanes', width']; exact least
  · unfold State.sq
    rw [sqs, ← hv]
    exact State.sq_setSq _ _ _

end
end

theorem trainRetry_go {u : State} {p : Nat} (h1 : (u.port p).state = 1) (h2 : (u.port p).attempt = false) :
    u.trainRetry p = u.setPort p { u.port p with attempt := true } := if_pos ⟨h1, by rw [h2]; rfl⟩

theorem trainRetry_idle {u : State} {p : Nat} (h : ¬ ((u.port p).state = 1 ∧ (u.port p).attempt = false)) :
    u.trainRetry p = u := if_neg fun c => h ⟨c.1, by simpa using c.2⟩

/-- Settles O39. -/
theorem portTraining : Obligations.PortTraining := by
  refine fun s p hp => ⟨fun v hr h1 h2 => ?_, fun v hr h1 h2 => ?_, fun n dev port lanes width fits hf => ⟨fun h0 h1 h2 =>
    ⟨fun k hk => ?_, fun h3 h4 h5 h6 => ?_⟩, fun h => ?_⟩, fun h1 h2 => ?_, fun h => ?_⟩
  · exact (portCtl_enables s.start p _ h1 (enable_bit v).1 h2).imp fun t h =>
      ⟨runs (f := fun t => t.regWrite .host (scfBase p) (v ||| 1#32)) rfl ((ctl_go s.start p _ hp hr).trans h.1), h.2⟩
  · exact (portCtl_disables s.start p _ h1 (enable_bit v).2 h2).imp fun t h =>
      ⟨runs (f := fun t => t.regWrite .host (scfBase p) (v &&& 0xFFFFFFFE#32)) rfl ((ctl_go s.start p _ hp hr).trans h.1), h.2⟩
  · exact runs (f := fun t => t.trained_ p n dev port lanes width) rfl (trained_fails (u := s.start) h0 h1 h2 hf hk)
  · exact (trained_up (u := s.start) h0 h1 h2 hf h3 h4 h5 h6).imp fun t h =>
      ⟨runs (f := fun t => t.trained_ p n dev port lanes width) rfl h.1, h.2⟩
  · exact runs (f := fun t => t.trained_ p n dev port lanes width) rfl (trained_idle (u := s.start) h)
  · exact runs (f := fun t => t.trainRetry p) rfl (trainRetry_go (u := s.start) h1 h2)
  · exact runs (f := fun t => t.trainRetry p) rfl (trainRetry_idle (u := s.start) h)

end Sys2Proof.Proofs.PortTraining


/-!
Link errors, retry and adaptation of a scarf port (R400–R406, R414).
-/
namespace Sys2Proof.Proofs.PortErrors
open Sys2Proof Sys2Proof.Machine Running Laws.PortOps

variable {u : State} {p : Nat}

/-- A port that is declared down. -/
theorem declareDown_facts (u : State) (p n : Nat) : ((u.declareDown p n).port p).state = 3 ∧
    ((u.declareDown p n).port p).dcause = n ∧ (u.declareDown p n).sq (scfBase p + 0x20) = (u.sq (scfBase p + 0x20)).event 1 ∧
    (u.declareDown p n).bays = u.bays ∧ (u.declareDown p n).ddr = u.ddr ∧ (u.declareDown p n).qm = u.qm := by
  obtain ⟨view, state, cause, sq⟩ := declareDown_view u p n
  simp only [deadView, Prod.mk.injEq] at view
  obtain ⟨qm, bays, ddr⟩ := view
  exact ⟨state, cause, sq, bays, ddr, qm⟩

theorem portUp_state (h : u.portUp p = true) : (u.port p).state = 2 := by
  unfold State.portUp at h
  exact of_decide_eq_true (Bool.and_eq_true_iff.1 h).2

/-- A port that holds nothing for replay has no timeout. -/
theorem retryStart_empty (h : (u.port p).replay = []) : u.retryStart p = u := by
  obtain ⟨B, f, e, ports, -⟩ := meets_eq u p
  have same : ((u.meetsRetry p).port p).replay = [] := by rw [e]; unfold State.port; rw [ports]; exact h
  exact if_pos (by rw [same]; simp)

section
variable (hu : u.portUp p = true)
include hu

theorem creditStall_down (h : ∃ c, c < 3 ∧ (u.port p).queue c ≠ [] ∧ (u.port p).credit c = 0) :
    u.creditStall p = u.declareDown p 5 := by
  obtain ⟨c, hc, waits, none⟩ := h
  refine if_pos (Bool.and_eq_true_iff.2 ⟨hu, List.any_eq_true.2 ⟨c, ?_, ?_⟩⟩)
  · interval_cases c <;> decide
  · rw [decide_eq_true waits, decide_eq_true none]; rfl

theorem retryWindow_down (h : (u.port p).retry = true ∨ (u.port p).gap = true) : u.retryWindow p = u.declareDown p 2 :=
  if_pos (by rw [hu]; simpa using h)

theorem crcFail_gap : ∃ t, u.crcFail p = t ∧ (t.port p).gap = true ∧ (t.port p).rxNext = (u.port p).rxNext ∧
    (t.port p).state = 2 ∧ t.ddr = u.ddr ∧ t.qm = u.qm ∧
    ((u.port p).gap = true ∨ (∀ r ∈ u.scf.reqs, r.port ≠ p) → t.bays = u.bays) := by
  obtain ⟨gap, next, state, ddr, qm, bays⟩ := openGap_view (u.bump (scfBase p + 0x50)) p
  obtain ⟨pqm, pbays, pddr, -⟩ := link_view (State.pump_rest ((u.bump (scfBase p + 0x50)).openGap p) p)
  have rx := State.pump_rx ((u.bump (scfBase p + 0x50)).openGap p) p p
  simp only [Port_.rx, Prod.mk.injEq] at rx
  obtain ⟨next', gap', -, state', -⟩ := rx
  exact ⟨_, if_pos hu, gap'.trans gap, next'.trans next, state'.trans (state.trans (portUp_state hu)), pddr.trans ddr,
    pqm.trans qm, fun h => pbays.trans (bays h)⟩

theorem adaptSlice_delays (h : bitAt (u.reg (scfBase p)) 12 = true) : ∃ t, u.adaptSlice p = t ∧
    t = { u.event (scfBase p + 0x20) 3 with bays := t.bays } ∧
    (∀ k, (t.bay k).pipe.flights = (u.bay k).pipe.flights.map (tagged u k p 13)) ∧
    ((∀ r ∈ u.scf.reqs, r.port ≠ p) → t.bays = u.bays) := by
  obtain ⟨B, e, flights⟩ := delayRemote_eq (u.event (scfBase p + 0x20) 3) p 13
  refine ⟨_, if_pos (by rw [hu, h]; rfl), by rw [e], fun k => ?_, fun none => ?_⟩
  · rw [e]; exact flights k
  · exact (congrArg State.bays (delayRemote_none (u.event (scfBase p + 0x20) 3) p 13 none)).trans (State.event_bays _ _ _)

end

/-- Settles O40. -/
theorem portErrors : Obligations.PortErrors := by
  refine fun s p => ⟨fun hu => ⟨?_, fun h => ?_, fun h => ?_, fun u n => declareDown_facts u p n, ?_, fun h1 h2 => ?_, fun h1 h2 h3 => ?_,
    fun h => ?_, fun h => ?_, fun h => ?_⟩, fun hu => ?_⟩
  · exact runs (f := fun t => t.signalLoss p) rfl (if_pos hu)
  · exact runs (f := fun t => t.creditStall p) rfl (creditStall_down (u := s.start) hu h)
  · exact runs (f := fun t => t.retryWindow p) rfl (retryWindow_down (u := s.start) hu h)
  · exact (crcFail_gap (u := s.start) hu).imp fun t h => ⟨runs (f := fun t => t.crcFail p) rfl h.1, h.2⟩
  · obtain ⟨retry, state, sq, ddr, qm, flights, -⟩ := retryStart_view s.start p hu h1 h2
    exact ⟨_, runs (f := fun t => t.retryStart p) rfl rfl, retry, state.trans (portUp_state hu), sq, ddr, qm, flights⟩
  · obtain ⟨v, e, vddr, vqm, vsq⟩ := retryStart_last s.start p hu h1 h2 h3
    obtain ⟨state, cause, sq, -, ddr, qm⟩ := declareDown_facts v p 1
    exact ⟨_, runs (f := fun t => t.retryStart p) rfl e, state, cause, sq.trans (congrArg (Sq.event · 1) vsq),
      ddr.trans vddr, qm.trans vqm⟩
  · refine runs (f := fun t => t.retryStart p) rfl (retryStart_empty h)
  · exact (adaptSlice_delays (u := s.start) hu h).imp fun t h => ⟨runs (f := fun t => t.adaptSlice p) rfl h.1, h.2⟩
  · exact runs (f := fun t => t.adaptSlice p) rfl (if_neg (by simp [h]))
  · have off : ¬ s.start.portUp p = true := Bool.eq_false_iff.1 hu
    have offAnd : ∀ c, ¬ (s.start.portUp p && c) = true := fun c h => off (Bool.and_eq_true_iff.1 h).1
    exact ⟨runs (f := fun t => t.signalLoss p) rfl (if_neg off), runs (f := fun t => t.creditStall p) rfl (if_neg (offAnd _)),
      runs (f := fun t => t.retryWindow p) rfl (if_neg (offAnd _)), runs (f := fun t => t.crcFail p) rfl (if_neg off),
      runs (f := fun t => t.retryStart p) rfl (if_pos (by rw [Bool.eq_false_iff.2 off]; rfl)),
      runs (f := fun t => t.adaptSlice p) rfl (if_neg (offAnd _))⟩

end Sys2Proof.Proofs.PortErrors


/-!
Device time, its exchange, the device identifier and the path watch entries (R393, R416–R421).
-/
namespace Sys2Proof.Proofs.DeviceTime
open Sys2Proof Sys2Proof.Machine Running Laws.PortOps

/-! ## Device time and identifier as written -/

theorem timeSet_hi (u : State) (v : Word) : u.timeSet true v = if fld (u.reg 0x78020) 0 2 = 1 then
    { u with scf := { u.scf with time := (v.toNat * 2 ^ 32 + u.scf.tsetLo.toNat) * 65536 } } else u := rfl

theorem devIdWrite_free (u : State) (v : Word) (h : ∀ p, p < 8 → (u.port p).state = 0 ∨ (u.port p).state = 3) :
    u.devIdWrite v = u.setReg 0x78000 ((u.reg 0x78000 &&& 0xFFFFF000#32) ||| (v &&& 0xFFF#32)) := by
  refine if_pos (List.all_eq_true.2 fun p hp => ?_)
  simpa using h p (List.mem_range.1 hp)

theorem devIdWrite_held (u : State) (v : Word) {p : Nat} (hp : p < 8) (h : (u.port p).state = 1 ∨ (u.port p).state = 2) :
    u.devIdWrite v = u := by
  refine if_neg fun c => ?_
  have free := List.all_eq_true.1 c p (List.mem_range.2 hp)
  simp only [Bool.or_eq_true, decide_eq_true_eq] at free
  omega

/-! ## The exchange of device time -/

/-- What an exchange finds: an earlier one without an answer counts as skipped. -/
theorem exchange_same {s u : State} (hu : u = if s.scf.t1 = none then s else s.tsyncSkip) :
    (∀ p, u.portUp p = s.portUp p) ∧ (∀ p, u.port p = s.port p) ∧ u.devId = s.devId ∧ (∀ k, u.stamp k = s.stamp k) := by
  rw [hu]
  split
  · exact ⟨fun _ => rfl, fun _ => rfl, rfl, fun _ => rfl⟩
  · exact ⟨fun _ => rfl, fun _ => rfl, rfl, fun _ => rfl⟩

section
variable {s u : State} {p : Nat} (sub : Nat) (hp : p = fld (s.reg 0x78020) 4 3) (h2 : fld (s.reg 0x78020) 0 2 = 2)
  (h3 : s.on 19 = true) (hu : u = if s.scf.t1 = none then s else s.tsyncSkip)
include hp h2 h3 hu

theorem tsyncStart_sends (h : s.portUp p = true) (hr : (s.port p).retry = false) (hg : (s.port p).gap = false) :
    s.tsyncStart sub = ({ u with scf := { u.scf with t1 := some ((s.scf.time + sub % 65536000) % 2 ^ 80) } } : State).emit
      (.flit p { typ := 10, dst := (s.port p).peerDev, src := s.devId } ((s.port p).link 0)) := by
  obtain ⟨up, port, dev, stamp⟩ := exchange_same hu
  have e := tsyncStart_eq s u sub h3 h2 hu
  rw [← hp, up, port, dev, stamp, if_pos (by rw [h, hr, hg]; rfl)] at e
  exact e

theorem tsyncStart_skips (h : s.portUp p = false ∨ (s.port p).retry = true ∨ (s.port p).gap = true) :
    s.tsyncStart sub = u.tsyncSkip := by
  obtain ⟨up, port, -, -⟩ := exchange_same hu
  have e := tsyncStart_eq s u sub h3 h2 hu
  rw [← hp, up, port, if_neg (by rcases h with h | h | h <;> simp [h])] at e
  exact e

end

/-- The upstream device answers a request with its stamps. -/
theorem tsyncReq_answers (u : State) (p : Nat) (l : LinkWord) (sub2 turn t2 t3 : Nat) (hu : u.portUp p = true)
    (hl : plainLink l (u.port p)) (h2 : t2 = (u.scf.time + sub2 % 65536000) % 2 ^ 80) (h3 : t3 = (t2 + turn) % 2 ^ 80) :
    ∃ t, u.tsyncReq p l sub2 turn = t ∧ LinkRest u t ∧
      ∃ w, t.out = u.out ++ [.flit p { typ := 11, dst := (u.port p).peerDev, src := u.devId, payload :=
        [wd t2, wd (t2 / 2 ^ 32), wd (t2 / 2 ^ 64), wd t3, wd (t3 / 2 ^ 32), wd (t3 / 2 ^ 64)] } w] := by
  obtain ⟨-, nak, credit, acked⟩ := hl
  have plain := State.linkWord_plain u p l nak credit acked
  have stamp : (u.linkWord p l).stamp sub2 = t2 := by rw [plain, h2]; rfl
  have port : (u.linkWord p l).port p = u.port p := by rw [plain]; exact State.port_setPort _ _ _
  have e : u.tsyncReq p l sub2 turn = _ := if_pos hu
  dsimp only at e
  rw [stamp, port, ← h3, plain] at e
  exact ⟨_, e, (LinkRest.setPort u p _).trans (LinkRest.emit _ _), _, rfl⟩

section
variable {u v : State} {p : Nat} {l : LinkWord} (t2 t3 sub4 : Nat) (hu : u.portUp p = true) (hv : v = u.linkWord p l)
include hu hv

/-- The follower's time after an answer that its exchange waits for. -/
theorem tsyncRsp_moves {t1 t4 : Nat} {delay off : Int} (h1 : v.scf.t1 = some t1) (hp : p = fld (v.reg 0x78020) 4 3)
    (hm : fld (v.reg 0x78020) 0 2 = 2) (h4 : t4 = (v.scf.time + sub4 % 65536000) % 2 ^ 80)
    (hd : delay = ((Int.ofNat t4 - Int.ofNat t1) - (Int.ofNat t3 - Int.ofNat t2)) / 2)
    (ho : off = Int.ofNat t2 - Int.ofNat t1 - delay) :
    u.tsyncRsp p l t2 t3 sub4 = timed (v.setPort p { v.port p with
      flight := if (delay - 50 * 65536) / 4096 < 0 then 0 else ((delay - 50 * 65536) / 4096).toNat % 65536 }) off := by
  have e : u.tsyncRsp p l t2 t3 sub4 = _ := if_neg (by rw [hu]; decide)
  dsimp only at e
  rw [← hv, h1] at e
  dsimp only at e
  rw [if_neg (by rintro (c | c) <;> contradiction), show v.stamp sub4 = t4 from h4.symm, ← hd, ← ho] at e
  exact e

theorem tsyncRsp_stray (h : v.scf.t1 = none ∨ p ≠ fld (v.reg 0x78020) 4 3 ∨ fld (v.reg 0x78020) 0 2 ≠ 2) :
    u.tsyncRsp p l t2 t3 sub4 = v := by
  have e : u.tsyncRsp p l t2 t3 sub4 = _ := if_neg (by rw [hu]; decide)
  dsimp only at e
  rw [← hv] at e
  cases ht : v.scf.t1 with
  | none => rw [ht] at e; exact e
  | some t1 =>
    rw [ht] at e
    exact e.trans (if_pos (h.resolve_left (by rw [ht]; exact Option.some_ne_none _)))

end

/-! ## Path watch entries -/

theorem pwRead_entry (u : State) {e : Nat} (he : e = fld (u.reg 0x78040) 0 6) : ∃ t, u.pwRead = t ∧ t.scf = u.scf ∧
    (∀ i, i < 9 → t.reg (0x78044 + 4 * i) = tgetD 0#32 u.scf.watch (e * 9 + i)) ∧ t.bays = u.bays := by
  subst he
  obtain ⟨g, eq, words⟩ := pwReadFold (fld (u.reg 0x78040) 0 6) (List.range 9) u
  exact ⟨_, eq, rfl, fun i hi => (words i).trans (if_pos (List.mem_range.2 hi)), rfl⟩

theorem pwWrite_entry (u : State) {e : Nat} (he : e = fld (u.reg 0x78040) 0 6) : ∃ t, u.pwWrite = t ∧ t.regs = u.regs ∧
    (∀ i, i < 9 → tgetD 0#32 t.scf.watch (e * 9 + i) = u.reg (0x78044 + 4 * i)) ∧
    (∀ j i, j ≠ e → i < 9 → tgetD 0#32 t.scf.watch (j * 9 + i) = tgetD 0#32 u.scf.watch (j * 9 + i)) ∧ t.bays = u.bays := by
  subst he
  obtain ⟨g, eq, words⟩ := pwWriteFold (fld (u.reg 0x78040) 0 6) (List.range 9) u
  refine ⟨_, eq, rfl, fun i hi => (words _).trans ?_, fun j i hj hi => (words _).trans (if_neg fun c => ?_), rfl⟩
  · rw [if_pos ⟨by omega, List.mem_range.2 (by omega)⟩, Nat.add_sub_cancel_left]
  · have := List.mem_range.1 c.2
    omega

/-! ## The statement -/

/-- Settles O41. -/
theorem deviceTime : Obligations.DeviceTime := by
  refine fun s => ⟨fun v hr => ?_, fun v hr => ⟨fun h => ?_, fun p hp h => ?_⟩, fun p sub u hp h2 h3 hu =>
    ⟨fun h hr hg => ?_, fun h => ?_, rfl, rfl, rfl, rfl⟩, fun sub h => ?_, fun p l sub2 turn t2 t3 hu hl h2 h3 => ?_,
    fun p l t1 t2 t3 sub4 t4 u delay off hu hv => ⟨fun h1 hp hm h4 hd ho => ?_, fun h => ?_, fun hl => ?_⟩,
    fun p l t2 t3 sub hu => ⟨?_, ?_⟩, fun e he hr => ⟨?_, ?_⟩⟩
  · exact runs (f := fun t => t.regWrite .host 0x78034 v) rfl ((scf_go s.start _ v hr (.inl rfl)).trans (timeSet_hi s.start v))
  · exact runs (f := fun t => t.regWrite .host 0x78000 v) rfl
      ((scf_go s.start _ v hr (.inr (.inl rfl))).trans (devIdWrite_free s.start v h))
  · exact runs (f := fun t => t.regWrite .host 0x78000 v) rfl
      ((scf_go s.start _ v hr (.inr (.inl rfl))).trans (devIdWrite_held s.start v hp h))
  · exact runs (f := fun t => t.tsyncStart sub) rfl (tsyncStart_sends (s := s.start) sub hp h2 h3 hu h hr hg)
  · exact runs (f := fun t => t.tsyncStart sub) rfl (tsyncStart_skips (s := s.start) sub hp h2 h3 hu h)
  · refine runs (f := fun t => t.tsyncStart sub) rfl (if_pos (h.imp_right fun c => ?_))
    rw [show s.start.on 19 = false from c]; rfl
  · exact (tsyncReq_answers s.start p l sub2 turn t2 t3 hu hl h2 h3).imp fun t h =>
      ⟨runs (f := fun t => t.tsyncReq p l sub2 turn) rfl h.1, h.2⟩
  · have e := tsyncRsp_moves (u := s.start) t2 t3 sub4 hu hv h1 hp hm h4 hd ho
    obtain ⟨none, skipped, bays, far, near, back, ahead, lock, port⟩ := timed_eq (u.setPort p { u.port p with
      flight := if (delay - 50 * 65536) / 4096 < 0 then 0 else ((delay - 50 * 65536) / 4096).toNat % 65536 }) off
    exact ⟨_, runs (f := fun t => t.tsyncRsp p l t2 t3 sub4) rfl e, none, skipped, bays,
      congrArg Port_.flight ((port p).trans (State.port_setPort _ _ _)), far, back, ahead, near, lock⟩
  · exact runs (f := fun t => t.tsyncRsp p l t2 t3 sub4) rfl (tsyncRsp_stray (u := s.start) t2 t3 sub4 hu hv h)
  · obtain ⟨-, nak, credit, acked⟩ := hl
    exact hv.trans (State.linkWord_plain s.start p l nak credit acked)
  · exact runs (f := fun t => t.tsyncRsp p l t2 t3 sub) rfl (if_pos (by rw [show s.start.portUp p = false from hu]; rfl))
  · exact runs (f := fun t => t.tsyncReq p l t2 t3) rfl (if_neg (Bool.eq_false_iff.1 hu))
  · exact (pwRead_entry s.start he).imp fun t h => ⟨runs (f := fun t => t.regWrite .host 0x78068 1#32) rfl
      ((scf_go s.start _ _ hr (.inr (.inr rfl))).trans h.1), h.2⟩
  · exact (pwWrite_entry s.start he).imp fun t h => ⟨runs (f := fun t => t.regWrite .host 0x78068 2#32) rfl
      ((scf_go s.start _ _ hr (.inr (.inr rfl))).trans h.1), h.2⟩

end Sys2Proof.Proofs.DeviceTime



/-!
Requests of the host, and the PCI Express endpoint (R39, R40, R422–R433).
-/
namespace Sys2Proof.Proofs.HostLink
open Sys2Proof Sys2Proof.Machine Running Laws.HostOps

/-! ## Requests of BAR0 -/

section
variable {u : State} {off n fbe lbe : Nat} (hu : u.hb.up = true) (hw : u.wideHeld = false)
include hu hw

section
variable (hd : u.hb.d3 = false) (h1 : off % 4 = 0) (h2 : 0 < n) (h3 : off % 4096 + 4 * n ≤ 4096)
include hd h1 h2 h3

theorem bar0_writes (h4 : off + 4 * n ≤ 0x4000000) (data : List Word) (hn : n ≤ 16) (hl : data.length = n) :
    u.bar0Request true off n fbe lbe data false =
      (List.range n).foldl (fun t i => if (if i = 0 then fbe % 16 else if i + 1 = n then lbe % 16 else 15) = 15 then
        t.regWrite .host (off + 4 * i) (data.getD i 0#32) else t.narrowWrite (off + 4 * i)) u := by
  have small := mps_min u.hb
  have e := bar0_go u true off n fbe lbe data false hw hu hd h1 h2 h3 fun _ => by omega
  rw [if_neg (by omega), List.take_of_length_le (by omega)] at e
  have words := words_fold data u off n 0 fbe lbe (by omega)
  simp only [Nat.zero_add, hl] at words
  exact e.trans words

theorem bar0_reads (h4 : off + 4 * n ≤ 0x4000000) (data : List Word) (p : Bool) (T : Nat → State) (hn : n ≤ 16)
    (h0 : T 0 = u) (hT : ∀ i, T (i + 1) = if enables i n fbe lbe = 15 then ((T i).regRead .host (off + 4 * i)).1 else T i) :
    u.bar0Request false off n fbe lbe data p = (T n).emit (.completion 0 (bytesOf ((List.range n).map
      fun i => if enables i n fbe lbe = 15 then ((T i).regRead .host (off + 4 * i)).2
        else enabled (enables i n fbe lbe) ((T i).regPeek .host (off + 4 * i)))) []) := by
  have e := bar0_go u false off n fbe lbe data p hw hu hd h1 h2 h3 fun c => absurd c (by decide)
  have words := words_read T off n fbe lbe hT n 0 (by omega)
  simp only [Nat.zero_add, h0] at words
  rw [if_neg (by omega), words] at e
  exact e

theorem bar0_long_read (data : List Word) (p : Bool) (hn : 16 < n) :
    ∃ t, u.bar0Request false off n fbe lbe data p = t ∧ (∀ j, j ∈ t.hb.aer ↔ j = 15 ∨ j ∈ u.hb.aer) ∧
      t.sq 0x84020 = (((u.sq 0x84020).event 2).event 3).event 1 ∧
      t.regs.words = u.regs.words ∧ t.bays = u.bays ∧ t.scr = u.scr ∧
      ∃ m, t.out = u.out ++ m ++ [.completion 1 [] []] ∧ ∀ o ∈ m, ∃ c, o = .errorMessage c := by
  have e := bar0_go u false off n fbe lbe data p hw hu hd h1 h2 h3 fun c => absurd c (by decide)
  rw [if_pos hn] at e
  obtain ⟨aer, sq, scr, bays, words, out⟩ := refusedRead (u.event 0x84020 2) _
    (bar0Error_eq (u.event 0x84020 2) 15 false off n fbe lbe p (by decide)) _ rfl
  rw [show (u.event 0x84020 2).sq 0x84020 = (u.sq 0x84020).event 2 from State.sq_setSq _ _ _] at sq
  exact ⟨_, e, aer, sq, words, bays, scr, out⟩

theorem bar0_long_write (data : List Word) (hn : 16 < n) (hm : 4 * n ≤ u.hb.mps) :
    ∃ t, u.bar0Request true off n fbe lbe data false = t ∧ State.reported 15 (u.event 0x84020 2) t := by
  have e := bar0_go u true off n fbe lbe data false hw hu hd h1 h2 h3 fun _ => hm
  rw [if_pos hn, if_neg (show ¬ (true && false) = true by decide), refused_write] at e
  exact ⟨_, e, bar0Error_eq _ 15 true off n fbe lbe false (by decide)⟩

theorem bar0_poisoned_write (data : List Word) (hn : n ≤ 16) :
    ∃ t, u.bar0Request true off n fbe lbe data true = t ∧ State.reported 7 u t := by
  have small := mps_min u.hb
  have e := bar0_go u true off n fbe lbe data true hw hu hd h1 h2 h3 fun _ => by omega
  rw [if_neg (by omega), if_pos (show (true && true) = true by decide)] at e
  exact ⟨_, e, bar0Error_eq u 7 true off n fbe lbe true (by decide)⟩

end

theorem bar0_d3 (hd : u.hb.d3 = true) (data : List Word) (p : Bool) :
    ∃ t, u.bar0Request true off n fbe lbe data p = t ∧ State.reported 15 u t := by
  have e : u.bar0Request true off n fbe lbe data p = _ := (if_neg (by rw [hu, hw]; decide)).trans (if_pos hd)
  exact ⟨_, e.trans (refused_write _ _ _ _ _ _), bar0Error_eq u 15 true off n fbe lbe p (by decide)⟩

end

/-! ## Requests of BAR4 and the doorbell pages -/

section
variable {u : State} (hu : u.hb.up = true)
include hu

theorem hostRead_d3 (hd : u.hb.d3 = true) (b : Bool) (off n : Nat) :
    ∃ t, u.hostRead b off n = t ∧ (∀ j, j ∈ t.hb.aer ↔ j = 15 ∨ j ∈ u.hb.aer) ∧
      t.sq 0x84020 = ((u.sq 0x84020).event 3).event 1 ∧ t.scr = u.scr ∧ t.bays = u.bays ∧ t.regs.words = u.regs.words ∧
      ∃ m, t.out = u.out ++ m ++ [.completion 1 [] []] ∧ ∀ o ∈ m, ∃ c, o = .errorMessage c := by
  have e : u.hostRead b off n = _ := (if_neg (by rw [hu]; decide)).trans (if_pos hd)
  exact ⟨_, e, refusedRead u _ (aerRequest_eq u 15 (if b then 2 else 4) false off n false none (by decide)) _ rfl⟩

theorem bar4Write_d3 (hd : u.hb.d3 = true) (off : Nat) (data : List Byte) (p : Bool) (r : Word) :
    ∃ t, u.bar4Write off data p r = t ∧ State.reported 15 u t := by
  have e : u.bar4Write off data p r = _ := (if_neg (by rw [hu]; decide)).trans (if_pos hd)
  exact ⟨_, e.trans (unsupported_write _ _ _ _ _), aerRequest_eq u 15 4 true off data.length false (some r) (by decide)⟩

section
variable (hd : u.hb.d3 = false) {off n : Nat} {data : List Byte} (r : Word)
include hd

theorem bar4Write_long (hn : u.hb.mps < n) (hl : data.length = n) (p : Bool) :
    ∃ t, u.bar4Write off data p r = t ∧ State.reported 13 u t := by
  have bad : u.writeBad off data.length = true := by
    rw [hl]
    unfold State.writeBad
    rw [decide_eq_true hn, Bool.or_true]
  have e : u.bar4Write off data p r = _ :=
    (if_neg (by rw [hu]; decide)).trans ((if_neg (Bool.eq_false_iff.1 hd)).trans (if_pos bad))
  exact ⟨_, e, aerRequest_eq u 13 4 true off data.length p (some r) (by decide)⟩

variable {tgt : Target} (ht : u.bar4Target off = tgt) (h0 : 0 < n) (h3 : off % 4096 + n ≤ 4096) (hl : data.length = n)
  (hn : n ≤ u.hb.mps)
include ht h0 h3 hl hn

theorem bar4Write_takes : u.bar4Write off data false r = { u with scr := { u.scr with outer := u.scr.outer ++
    [{ master := 0, tgt := tgt, addr := off, write := true, len := n, data := data }] } } := by
  subst hl
  have e := bar4_put u off data false r hu hd h0 h3 hn u rfl
  rw [ht] at e
  exact e

theorem bar4Write_takes_poison : ∃ v, State.reported 7 u v ∧ u.bar4Write off data true r =
    { v with scr := { u.scr with outer := u.scr.outer ++
      [{ master := 0, tgt := tgt, addr := off, write := true, len := n, data := data, poison := true }] } } := by
  subst hl
  have told := aerRequest_eq u 7 4 true off data.length true (some r) (by decide)
  have e := bar4_put u off data true r hu hd h0 h3 hn _ rfl
  rw [if_pos rfl] at e
  obtain ⟨-, -, scr, -, words, -⟩ := told
  have same : (u.aerRequest 7 4 true off data.length true (some r)).bar4Target off = tgt := by
    rw [← ht]
    unfold State.bar4Target State.reg
    rw [scr, words]
  rw [same] at e
  refine ⟨_, aerRequest_eq u 7 4 true off data.length true (some r) (by decide), e.trans ?_⟩
  unfold State.outerAdd
  rw [scr]

end

end

/-! ## The endpoint -/

theorem hostUp_comes {u : State} {gen width : Nat} (h1 : u.on 20 = true) (h2 : u.rst.reach < 3) (h3 : u.hb.up = false)
    {c : Word} (hc : c = u.reg 0x84000) {g w : Nat} (hg : g = if fld c 0 4 = 0 ∨ 5 < fld c 0 4 then 5 else fld c 0 4)
    (hw : w = if fld c 4 3 = 1 then 8 else if fld c 4 3 = 2 then 4 else if fld c 4 3 = 3 then 2 else if fld c 4 3 = 4 then 1 else 16) :
    u.hostUp gen width = { u with hb := { u.hb with
      up := true, gen := if u.rst.shored then 1 else min g gen, width := if u.rst.shored then 1 else min w width } } := by
  have e : u.hostUp gen width = _ := if_neg (by rw [h1, h3, decide_eq_false (by omega)]; decide)
  subst hc hg
  refine e.trans ?_
  rw [hw]
  dsimp only
  generalize fld (u.reg 0x84000) 4 3 = k
  match k with
  | 0 | 1 | 2 | 3 | 4 => rfl
  | k + 5 => rfl

theorem pciRead_request {u : State} (h : u.hb.up = true) (o : Nat) (v : Word) :
    u.pciRequest false o v = u.emit (.completion 0 (bytesOf [u.pciRead (o / 4 * 4)]) []) := if_neg (by rw [h]; decide)

/-- Identity and the MSI-X capability as a configuration read shows them. -/
theorem pciRead_identity (u : State) :
    u.pciRead 0 = wd (u.hw.part * 2 ^ 16 + 0x1F4D) ∧ u.pciRead 8 = wd (0x12000000 + u.hw.stepping % 256) ∧
      u.pciRead 0x50 = wd (0x11 + 0x70 * 2 ^ 8 + 2047 * 2 ^ 16 + nbit u.hb.fmask * 2 ^ 30 + nbit u.hb.msixOn * 2 ^ 31) ∧
      u.pciRead 0x54 = 0x88000#32 ∧ u.pciRead 0x58 = 0x85000#32 := ⟨rfl, rfl, rfl, rfl, rfl⟩

section
variable {u : State} (h : u.hb.up = true) {o : Nat} (v : Word)
include h

theorem pciWrite_d3 (ho : o / 4 * 4 = 0x44) (hv : fld v 0 2 = 3) :
    u.pciRequest true o v = { u with hb := { u.hb with d3 := true } } :=
  (request u o v h).trans ((if_pos ho).trans (if_pos hv))

theorem pciWrite_d0 (ho : o / 4 * 4 = 0x44) (hv : fld v 0 2 = 0) :
    u.pciRequest true o v = if u.hb.d3 = true ∧ u.hb.msixOn = true then
      u.hb.pendingV.foldl State.unmasked { u with hb := { u.hb with d3 := false } }
      else { u with hb := { u.hb with d3 := false } } := by
  have e := (request u o v h).trans ((if_pos ho).trans ((if_neg (by rw [hv]; decide)).trans (if_pos hv)))
  exact e.trans (if_congr Bool.and_eq_true_iff rfl rfl)

theorem pciWrite_aer (ho : o / 4 * 4 = 0x104 ∨ o / 4 * 4 = 0x110) : ∃ t, u.pciRequest true o v = t ∧
    (∀ j, j ∈ t.hb.aer ↔ j ∈ u.hb.aer ∧ ¬ ((7 ≤ j ↔ o / 4 * 4 = 0x104) ∧ bitAt v (aerBit j) = true)) ∧
    t.scr = u.scr ∧ t.regs = u.regs ∧ t.bays = u.bays := by
  rcases ho with ho | ho
  · have e : u.pciRequest true o v = u.aerClear true v := (request u o v h).trans
      ((if_neg (by omega)).trans ((if_neg (by omega)).trans (if_pos ho)))
    exact ⟨_, e, fun j => by simpa [ho] using clear_mem u true v j, rfl, rfl, rfl⟩
  · have e : u.pciRequest true o v = u.aerClear false v := (request u o v h).trans
      ((if_neg (by omega)).trans ((if_neg (by omega)).trans ((if_neg (by omega)).trans (if_pos ho))))
    exact ⟨_, e, fun j => by simpa [ho] using clear_mem u false v j, rfl, rfl, rfl⟩

theorem pciWrite_plain (h1 : o / 4 * 4 ≠ 0x44) (h2 : o / 4 * 4 ≠ 0x50) (h3 : o / 4 * 4 ≠ 0x104) (h4 : o / 4 * 4 ≠ 0x110) :
    ∃ t, u.pciRequest true o v = t ∧ t = { u with hb := { u.hb with cfg := t.hb.cfg } } ∧
      t.hb.pci (o / 4 * 4) = (u.hb.pci (o / 4 * 4) &&& ~~~pciMask (o / 4 * 4)) ||| (v &&& pciMask (o / 4 * 4)) ∧
      ∀ a, a ≠ o / 4 * 4 → t.hb.pci a = u.hb.pci a := by
  have e := (request u o v h).trans ((if_neg h1).trans ((if_neg h2).trans ((if_neg h3).trans (if_neg h4))))
  exact ⟨_, e, rfl, tget_tset_same _ _ _ _, fun a ha => tget_tset_ne _ _ _ ha⟩

end

/-! ## MSI-X -/

theorem msixControl_on {s u x : State} {mask : Bool} (hu : u = { s with hb := { s.hb with msixOn := true, fmask := mask } })
    (hx : x = if s.hb.msixOn = true then u else
      (([0, 1, 2, 3].filter s.sourceOut).filterMap s.sourceVec).foldl State.signal u) :
    s.msixControl true mask = x.hb.pendingV.foldl State.unmasked x := hx ▸ control_on s mask u hu

/-- With nothing kept in the PBA, enabling MSI-X sends nothing further. -/
theorem nothing_pending {s u x : State} {mask : Bool} (hu : u = { s with hb := { s.hb with msixOn := true, fmask := mask } })
    (hx : x = if s.hb.msixOn = true then u else
      (([0, 1, 2, 3].filter s.sourceOut).filterMap s.sourceVec).foldl State.signal u) (hp : s.hb.pba = []) :
    x.hb.pendingV.foldl State.unmasked x = x := by
  refine unmasked_none x ?_ _
  have none : ∀ w, tgetD false u.hb.pba w = true → u.hb.maskedV w = true := fun w c => by
    have empty : u.hb.pba = [] := by rw [hu]; exact hp
    rw [empty] at c
    exact absurd (show false = true from c) (by decide)
  rw [hx]
  split
  · exact none
  · exact signals_masked _ u (by rw [hu]) none

theorem signal_off {u : State} (v : Nat) (h : u.hb.msixOn = false) : u.signal v = u := if_pos (by rw [h]; rfl)

/-- A write of the vector control word of an MSI-X entry. -/
theorem regWrite_msix (u : State) {v : Nat} (hv : v < 2048) (hr : u.reachable (0x8800C + 16 * v) = true) :
    u.regWrite .host (0x8800C + 16 * v) 0#32 = u.msixWrite (4 * v + 3) 0#32 := by
  unfold State.reachable at hr
  simp only [Bool.and_eq_true, Bool.not_eq_true'] at hr
  obtain ⟨hw, hd⟩ := hr
  unfold State.regWrite
  rw [if_neg (Bool.eq_false_iff.1 hw), if_neg (by omega), if_neg (by omega), if_neg (by omega)]
  unfold State.regAct
  rw [if_neg (Bool.eq_false_iff.1 hd), no_row (by omega) (by omega)]
  dsimp only
  rw [if_pos (by omega), show (0x8800C + 16 * v - 0x88000) / 4 = 4 * v + 3 by omega]

theorem entry_withTable (h : Hb) (i j : Nat) (w : Word) (p : Tab Bool) :
    ({ h with table := tset msixReset h.table i w, pba := p } : Hb).entry j = if j = i then w else h.entry j := by
  split
  · next e => subst e; exact tget_tset_same _ _ _ _
  · next e => exact tget_tset_ne _ _ _ e

theorem msixWrite_unmask (u : State) (v : Nat) : ∃ t, u.msixWrite (4 * v + 3) 0#32 = t ∧
    t.hb.entry (4 * v + 3) = 0#32 ∧ (∀ i, i ≠ 4 * v + 3 → t.hb.entry i = u.hb.entry i) ∧
    t.bays = u.bays ∧ t.scr = u.scr ∧ t.regs = u.regs ∧
    (u.hb.d3 = true ∨ u.hb.fmask = true ∨ tgetD false u.hb.pba v = false → t.hb.pba = u.hb.pba ∧ t.out = u.out ∧ t.qm = u.qm) ∧
    (u.hb.d3 = false → u.hb.fmask = false → tgetD false u.hb.pba v = true → u.hb.msixOn = true →
      t.hb.pba = tsetD false u.hb.pba v false ∧
      t.out = u.out ++ [.msix v ((u.hb.entry (4 * v)).toNat + (u.hb.entry (4 * v + 1)).toNat * 2 ^ 32) (u.hb.entry (4 * v + 2))] ∧
      ∀ n, n < 256 → t.ring n = if (u.ring n).masked = true ∧ fld (u.hrCfg n) 12 11 = v then
        { u.ring n with masked := false, window := decide (fld (u.hrCfg n) 24 8 ≠ 0) } else u.ring n) := by
  obtain ⟨h, rfl, stays, sends⟩ := unmask_eq u v
  have table : ∀ p j, ({ u.hb with table := tset msixReset u.hb.table (4 * v + 3) 0#32, pba := p } : Hb).entry j =
    if j = 4 * v + 3 then 0#32 else u.hb.entry j := fun p j => entry_withTable _ _ _ _ _
  have own : ∀ p, ({ u.hb with table := tset msixReset u.hb.table (4 * v + 3) 0#32, pba := p } : Hb).entry (4 * v + 3) = 0#32 :=
    fun p => (table p _).trans (if_pos rfl)
  have other : ∀ p i, i ≠ 4 * v + 3 →
      ({ u.hb with table := tset msixReset u.hb.table (4 * v + 3) 0#32, pba := p } : Hb).entry i = u.hb.entry i :=
    fun p i hi => (table p i).trans (if_neg hi)
  by_cases quiet : u.hb.d3 = true ∨ u.hb.fmask = true ∨ tgetD false u.hb.pba v = false
  · refine ⟨_, stays quiet, own u.hb.pba, other u.hb.pba, rfl, rfl, rfl, fun _ => ⟨rfl, rfl, rfl⟩, fun h1 h2 h3 _ => ?_⟩
    rw [h1, h2, h3] at quiet
    exact absurd quiet (by decide)
  · have h1 : u.hb.d3 = false := Bool.eq_false_iff.2 fun c => quiet (.inl c)
    have h2 : u.hb.fmask = false := Bool.eq_false_iff.2 fun c => quiet (.inr (.inl c))
    have h3 : tgetD false u.hb.pba v = true := by
      by_contra c
      exact quiet (.inr (.inr (Bool.eq_false_iff.2 c)))
    cases on : u.hb.msixOn with
    | true =>
      obtain ⟨R, e, rings⟩ := sends h1 h2 h3 on
      exact ⟨_, e, own _, other _, rfl, rfl, rfl, fun c => absurd c quiet, fun _ _ _ _ => ⟨rfl, rfl, rings⟩⟩
    | false =>
      obtain ⟨R, P, e⟩ := unmask_off u v on
      exact ⟨_, e, own _, other _, rfl, rfl, rfl, fun c => absurd c quiet, fun _ _ _ c => absurd c (by decide)⟩

/-! ## The statement -/

/-- Settles O42. -/
theorem hostLink : Obligations.HostLink := by
  refine ⟨fun s hu => ⟨fun hw hd off n fbe lbe h1 h2 h3 h4 => ⟨fun data hn hl => ?_, fun data p T hn h0 hT => ?_,
    fun data p hn => ?_, fun data hn hm => ?_, fun data hn => ?_⟩, fun hd => ⟨fun b off n => ?_, fun off data p r => ?_,
    fun hw off k fbe lbe data p => ?_⟩, fun hd off n w t hw ht h3 tgt h => ⟨?_, ?_, fun data r hl h0 =>
    ⟨fun hn => ⟨?_, ?_⟩, fun hn p => ?_⟩⟩, fun hdr => ?_⟩, fun s => ⟨fun gen width c h1 h2 h3 hc g w hg hw => ?_,
    fun hu o v => ⟨⟨?_, pciRead_identity s⟩, fun ho hv => ?_, fun ho hv => ?_, fun ho => ?_, fun h1 h2 h3 h4 => ?_⟩,
    fun k hdr hk h1 h2 => ?_, fun hu => ⟨fun mask => ?_, fun mask u x hu' hx => ⟨?_, nothing_pending (s := s.start) hu' hx⟩⟩,
    fun v => ⟨signal_off v, signal_keeps s v, signal_sends s v⟩, fun v hv hr => ?_⟩⟩
  · exact runs (f := fun t => t.bar0Request true off n fbe lbe data false) rfl
      (bar0_writes (u := s.start) hu hw hd h1 h2 h3 h4 data hn hl)
  · exact runs (f := fun t => t.bar0Request false off n fbe lbe data p) rfl
      (bar0_reads (u := s.start) hu hw hd h1 h2 h3 h4 data p T hn h0 hT)
  · exact (bar0_long_read (u := s.start) (fbe := fbe) (lbe := lbe) hu hw hd h1 h2 h3 data p hn).imp fun t h =>
      ⟨runs (f := fun t => t.bar0Request false off n fbe lbe data p) rfl h.1, h.2⟩
  · exact (bar0_long_write (u := s.start) (fbe := fbe) (lbe := lbe) hu hw hd h1 h2 h3 data hn hm).imp fun t h =>
      ⟨runs (f := fun t => t.bar0Request true off n fbe lbe data false) rfl h.1, h.2⟩
  · exact (bar0_poisoned_write (u := s.start) (fbe := fbe) (lbe := lbe) hu hw hd h1 h2 h3 data hn).imp fun t h =>
      ⟨runs (f := fun t => t.bar0Request true off n fbe lbe data true) rfl h.1, h.2⟩
  · exact (hostRead_d3 (u := s.start) hu hd b off n).imp fun t h => ⟨runs (f := fun t => t.hostRead b off n) rfl h.1, h.2⟩
  · exact (bar4Write_d3 (u := s.start) hu hd off data p r).imp fun t h =>
      ⟨runs (f := fun t => t.bar4Write off data p r) rfl h.1, h.2⟩
  · exact (bar0_d3 (u := s.start) (off := off) (n := k) (fbe := fbe) (lbe := lbe) hu hw hd data p).imp fun t h =>
      ⟨runs (f := fun t => t.bar0Request true off k fbe lbe data p) rfl h.1, h.2⟩
  · have e := bar_read s.start false off n hu hd h3
    rw [if_neg (by decide), target_of s.start off w t hw ht tgt h] at e
    exact runs (f := fun t => t.hostRead false off n) rfl e
  · exact runs (f := fun t => t.hostRead true off n) rfl (bar_read s.start true off n hu hd h3)
  · exact runs (f := fun t => t.bar4Write off data false r) rfl
      (bar4Write_takes (u := s.start) hu hd r (target_of s.start off w t hw ht tgt h) h0 h3 hl hn)
  · exact (bar4Write_takes_poison (u := s.start) hu hd r (target_of s.start off w t hw ht tgt h) h0 h3 hl hn).imp
      fun v h => ⟨h.1, runs (f := fun t => t.bar4Write off data true r) rfl h.2⟩
  · exact (bar4Write_long (u := s.start) hu hd r hn hl p).imp fun t h =>
      ⟨runs (f := fun t => t.bar4Write off data p r) rfl h.1, h.2⟩
  · exact ⟨_, runs (f := fun t => t.malformed hdr) rfl (if_pos hu), (aer_facts s.start 13 hdr).1 (by decide)⟩
  · exact runs (f := fun t => t.hostUp gen width) rfl (hostUp_comes (u := s.start) h1 h2 h3 hc hg hw)
  · exact runs (f := fun t => t.pciRequest false o v) rfl (pciRead_request (u := s.start) hu o v)
  · exact runs (f := fun t => t.pciRequest true o v) rfl (pciWrite_d3 (u := s.start) hu v ho hv)
  · exact runs (f := fun t => t.pciRequest true o v) rfl (pciWrite_d0 (u := s.start) hu v ho hv)
  · exact (pciWrite_aer (u := s.start) hu v ho).imp fun t h => ⟨runs (f := fun t => t.pciRequest true o v) rfl h.1, h.2⟩
  · exact (pciWrite_plain (u := s.start) hu v h1 h2 h3 h4).imp fun t h =>
      ⟨runs (f := fun t => t.pciRequest true o v) rfl h.1, h.2⟩
  · obtain ⟨told, aer, sq, scr, bg, -, -, record⟩ := aer_facts s.start k hdr
    exact ⟨_, runs (f := fun t => if t.on 20 && decide (t.rst.reach < 3) then t.aer k hdr else t) rfl
      (if_pos (by rw [show s.start.on 20 = true from h1, decide_eq_true (show s.start.rst.reach < 3 from h2)]; rfl)),
      aer, sq, scr, told, fun k1 k2 => bg k1 (by omega), record⟩
  · exact runs (f := fun t => if t.hb.up then t.msixControl false mask else t) rfl (if_pos hu)
  · exact runs (f := fun t => if t.hb.up then t.msixControl true mask else t) rfl
      ((if_pos hu).trans (msixControl_on (s := s.start) hu' hx))
  · exact (msixWrite_unmask s.start v).imp fun t h => ⟨runs (f := fun t => t.regWrite .host (0x8800C + 16 * v) 0#32) rfl
      ((regWrite_msix s.start hv hr).trans h.1), h.2⟩

end Sys2Proof.Proofs.HostLink



/-!
Ethernet frames in and out (R435–R441).
-/
namespace Sys2Proof.Proofs.Ethernet
open Sys2Proof Sys2Proof.Machine Running Laws.Frames

section
variable {u : State} {m : Nat} (h : u.macHere m = true)
include h

/-! ## Frames in -/

section
variable (h2 : (u.mac m).state = 2) {f : List Byte} {t : Nat}
include h2

theorem frameIn_bad {good : Bool} (hf : good = false ∨ f.length < 60 ∨ 9212 < f.length) :
    u.frameIn m f good t = u.rxDrop m := by
  rw [frameIn_eq u m f good t h h2, if_neg]
  rintro ⟨c, short, long⟩
  rcases hf with hf | hf | hf
  · rw [c] at hf; exact absurd hf (by decide)
  · omega
  · omega

variable (h3 : 60 ≤ f.length) (h4 : f.length ≤ 9212)
include h3 h4

theorem frameIn_bound {n q : Nat} {strict : Bool} (hc : chosen u m f n q strict) (hs : strict = false ∨ f.length ≤ 240)
    {r : State × Nat} (hr : r = u.commitNow q (.eth (64 * m + n))
      (frameWords (stampWith ((u.scf.time + t % 65536000) % 2 ^ 80) (s16 (u.reg (ethBase m + 0x14)) 0)) f)) :
    u.frameIn m f true t = if r.2 = 0 then r.1.bump (ethBase m + 0x40) else r.1.rxDrop m := by
  have fits : ¬ (strict && decide (240 < f.length)) = true := by
    rcases hs with rfl | hs
    · exact Bool.false_ne_true
    · rw [decide_eq_false (by omega), Bool.and_false]; decide
  rw [frameIn_eq u m f true t h h2, if_pos ⟨rfl, h3, h4⟩, bindingFor_chosen u m f n q strict hc]
  exact (if_neg fits).trans (by rw [hr]; rfl)

theorem frameIn_unbound (hc : (∃ n q, chosen u m f n q true ∧ 240 < f.length) ∨
      ((∀ k, k < 63 → u.bindingTakes m k (frameType f) = false) ∧ bitAt (u.reg (ethBase m + 0x10)) 31 = false)) :
    u.frameIn m f true t = u.rxDrop m := by
  rw [frameIn_eq u m f true t h h2, if_pos ⟨rfl, h3, h4⟩]
  rcases hc with ⟨n, q, hc, long⟩ | ⟨none, default⟩
  · rw [bindingFor_chosen u m f n q true hc]
    exact if_pos (by rw [decide_eq_true long]; rfl)
  · rw [bindingFor_none u m f none default]

end

/-! ## Frames out -/

section
variable (h2 : (u.mac m).state = 2) (h3 : (u.mac m).tx = none) (h4 : u.qmRuns = true) {q c : Nat} {g : Msg}
  (hn : u.nextToSend m = some (q, g, c)) {v : State}
  (hv : v = u.setQueue q { u.queue q with msgs := (u.queue q).msgs.tail, away := (u.queue q).away + g.cells })
include h2 h3 h4 hn hv

theorem ethTake_sends (hg : 14 ≤ sendLength g ∧ sendLength g ≤ 240 ∧ ceilDiv (16 + sendLength g) 64 ≤ g.cells) :
    u.ethTake m = v.setMac m { u.mac m with tx := some { queue := q, msg := g, cls := c } } := by
  obtain ⟨g1, g2, g3⟩ := hg
  rw [take_eq u m q c g h h2 h3 h4 hn, ← hv]
  refine if_pos ?_
  unfold sendOk
  simp only [g1, g2, g3, decide_true, Bool.and_self]

theorem ethTake_malformed (hg : ¬ (14 ≤ sendLength g ∧ sendLength g ≤ 240 ∧ ceilDiv (16 + sendLength g) 64 ≤ g.cells)) :
    u.ethTake m = ((v.freeAway q g).bump (ethBase m + 0x58)).event (ethBase m + 0x20) 3 := by
  rw [take_eq u m q c g h h2 h3 h4 hn, ← hv]
  refine if_neg fun ok => hg ?_
  unfold sendOk at ok
  simpa only [Bool.and_eq_true, decide_eq_true_eq, and_assoc] using ok

end

end

/-- The message that a MAC takes is the oldest of the highest class. -/
theorem nextToSend_best {u : State} {m q c : Nat} {g : Msg} (hn : u.nextToSend m = some (q, g, c)) :
    (∃ x, (q, x) ∈ u.qm.queues ∧ x.msgs.head? = some g ∧ x.state = 1 ∧ x.bind = 3 ∧ x.target = 8 * m + c) ∧
      ∀ j y h, (j, y) ∈ u.qm.queues → y.msgs.head? = some h → y.state = 1 → y.bind = 3 → y.target / 8 = m →
        y.target % 8 < c ∨ (y.target % 8 = c ∧ g.commit ≤ h.commit) := by
  have best := next_best u m
  rw [hn] at best
  obtain ⟨⟨⟨j, x⟩, here, rfl, ⟨head, state, bind, mac⟩, cls⟩, least⟩ := best
  refine ⟨⟨x, here, head, state, bind, ?_⟩, fun j y h hj h1 h2 h3 h4 => least (j, y) hj h ⟨h1, h2, h3, h4⟩⟩
  dsimp only at mac cls
  omega

section
variable {u : State} {m t : Nat} {x : Sending} (h : (u.mac m).tx = some x) {f p : List Byte}
  (hf : f = ((bytesOf x.msg.words).drop 16).take (sendLength x.msg)) (hp : p = f ++ zeros (60 - f.length)) {v : State}
  (hv : v = (((u.setMac m { u.mac m with tx := none }).emit (.frame m (p ++ frameFcs p))).freeAway x.queue x.msg).bump (ethBase m + 0x50))
include h hf hp hv

/-- A frame that has been sent frees its message, and may be reported. -/
theorem ethSent_frees : u.ethSent m t = v.txReport m x t := by
  rw [sent_eq u m t x h, hv, hp, hf]
  rfl

theorem ethSent_silent (hr : bitAt (x.msg.words.getD 0 0#32) 16 = false ∨ bitAt (v.reg (ethBase m + 0x5F8)) 31 = false) :
    u.ethSent m t = v := (ethSent_frees h hf hp hv).trans (report_none v m t x hr)

theorem ethSent_reports (h1 : bitAt (x.msg.words.getD 0 0#32) 16 = true) (h2 : bitAt (v.reg (ethBase m + 0x5F8)) 31 = true) :
    u.ethSent m t = (v.commitNow (fld (v.reg (ethBase m + 0x5FC)) 0 16) (.eth (64 * m + 63))
      (wordsOf (padCells (stampHead (stampWith ((v.scf.time + t % 65536000) % 2 ^ 80) (s16 (v.reg (ethBase m + 0x14)) 16))
        (toBytes 1 (fld (x.msg.words.getD 0 0#32) 24 8) ++ toBytes 1 x.cls ++ toBytes 2 (sendLength x.msg)))))).1 :=
  (ethSent_frees h hf hp hv).trans (report_some v m t x h1 h2)

end

/-! ## The link -/

section
variable {u : State} {m : Nat} (h : u.macHere m = true)
include h

theorem ethDown_leaves (h2 : (u.mac m).state = 2) : u.ethDown m = u.ethLeave m 1 :=
  if_pos (by rw [h, decide_eq_true h2]; rfl)

theorem ethUp_comes (h2 : (u.mac m).state = 1) :
    u.ethUp m = (u.setMac m { u.mac m with state := 2 }).event (ethBase m + 0x20) 0 :=
  if_pos (by rw [h, decide_eq_true h2]; rfl)

theorem ethCtl_enables {v : Word} (hv : bitAt v 0 = true) : u.ethCtl m v = if (u.mac m).state = 0 then
    (u.writeRw (ethBase m) 3 v).setMac m { u.mac m with state := 1 } else u.writeRw (ethBase m) 3 v :=
  (if_neg (by rw [h]; decide)).trans (if_pos hv)

theorem ethCtl_disables {v : Word} (hv : bitAt v 0 = false) : ∃ t, u.ethCtl m v = t ∧ (t.mac m).state = 0 ∧
    ((u.mac m).state = 2 → (t.mac m).tx = none) ∧ t.bays = u.bays ∧ t.scr = u.scr ∧
    t.sq (ethBase m + 0x20) = if (u.mac m).state ≠ 2 then u.sq (ethBase m + 0x20) else
      if (u.mac m).tx = none then (u.sq (ethBase m + 0x20)).event 1 else ((u.sq (ethBase m + 0x20)).event 3).event 1 := by
  have e : u.ethCtl m v = _ := (if_neg (by rw [h]; decide)).trans (if_neg (Bool.eq_false_iff.1 hv))
  have mac : (u.writeRw (ethBase m) 3 v).mac m = u.mac m := rfl
  have sq : (u.writeRw (ethBase m) 3 v).sq (ethBase m + 0x20) = u.sq (ethBase m + 0x20) := rfl
  by_cases off : (u.mac m).state = 0
  · refine ⟨_, e.trans (if_pos off), off, fun c => by omega, rfl, rfl, ?_⟩
    rw [if_pos (by omega)]
    exact sq
  · by_cases up : (u.mac m).state = 2
    · obtain ⟨state, tx, bays, scr, events⟩ := leave_facts (u.writeRw (ethBase m) 3 v) m 0 up
      refine ⟨_, e.trans (if_neg off), state, fun _ => tx, bays, scr, ?_⟩
      rw [if_neg (not_not.2 up), events, mac, sq]
    · have idle : (u.writeRw (ethBase m) 3 v).ethLeave m 0 = _ := if_neg up
      refine ⟨_, (e.trans (if_neg off)).trans idle, ?_, fun c => absurd c up, rfl, rfl, ?_⟩
      · exact congrArg Mac.state (tgetD_tsetD_same _ _ _ _)
      · rw [if_pos up]
        exact sq

/-- A write of ETHm_CTL. -/
theorem regWrite_ethCtl (v : Word) (hr : u.reachable (ethBase m) = true) : u.regWrite .host (ethBase m) v = u.ethCtl m v := by
  have rows : ∀ n : Fin 2, ((regRow (ethBase n.val)).any fun r => decide (r.kind ≠ .sq)) = true := by decide
  have hm : m < 2 := by
    unfold State.macHere at h
    simp only [Bool.and_eq_true, decide_eq_true_eq] at h
    obtain ⟨⟨⟨hm, -⟩, -⟩, -⟩ := h
    exact hm
  obtain ⟨r, hr', hk⟩ := row_of (rows ⟨m, hm⟩)
  rw [u.regWrite_eth .host v hr hr' hk (by unfold ethBase; omega) (by unfold ethBase; omega),
    if_pos (by unfold ethBase; omega)]
  congr 1
  unfold ethBase
  omega

end

/-- Settles O43. -/
theorem ethFrames : Obligations.EthFrames := by
  refine fun s m h => ⟨fun h2 => ⟨fun f good t hf => ?_, fun f t h3 h4 => ⟨fun n q strict hc hs r hr => ?_, fun hc => ?_,
    fun st => frame_length st f⟩, fun h4 h3 q g c hn => ⟨fun u hu => ⟨fun hg => ?_, fun hg => ?_⟩, nextToSend_best hn⟩, ?_⟩,
    fun hs => ?_, fun x t f p u hx hf hp hu => ⟨fun hr => ?_, fun h1 h2 => ?_⟩, fun h2 => ?_, fun v hr => ⟨fun hv => ?_,
    fun hv => ?_⟩⟩
  · exact runs (f := fun u => u.frameIn m f good t) rfl (frameIn_bad (u := s.start) h h2 hf)
  · exact runs (f := fun u => u.frameIn m f true t) rfl (frameIn_bound (u := s.start) h h2 h3 h4 hc hs hr)
  · exact runs (f := fun u => u.frameIn m f true t) rfl (frameIn_unbound (u := s.start) h h2 h3 h4 hc)
  · exact runs (f := fun u => u.ethTake m) rfl (ethTake_sends (u := s.start) h h2 h3 h4 hn hu hg)
  · exact runs (f := fun u => u.ethTake m) rfl (ethTake_malformed (u := s.start) h h2 h3 h4 hn hu hg)
  · obtain ⟨state, tx, bays, scr, sq⟩ := leave_facts s.start m 1 h2
    exact ⟨_, runs (f := fun u => u.ethDown m) rfl (ethDown_leaves (u := s.start) h h2), state, tx, bays, scr, sq⟩
  · exact runs (f := fun u => u.ethTake m) rfl (take_idle s.start m (.inr hs))
  · exact runs (f := fun u => u.ethSent m t) rfl (ethSent_silent (u := s.start) hx hf hp hu hr)
  · exact runs (f := fun u => u.ethSent m t) rfl (ethSent_reports (u := s.start) hx hf hp hu h1 h2)
  · exact runs (f := fun u => u.ethUp m) rfl (ethUp_comes (u := s.start) h h2)
  · exact runs (f := fun u => u.regWrite .host (ethBase m) v) rfl
      ((regWrite_ethCtl (u := s.start) h v hr).trans (ethCtl_enables (u := s.start) h hv))
  · exact (ethCtl_disables (u := s.start) h hv).imp fun t k =>
      ⟨runs (f := fun u => u.regWrite .host (ethBase m) v) rfl ((regWrite_ethCtl (u := s.start) h v hr).trans k.1), k.2⟩

end Sys2Proof.Proofs.Ethernet


/-!
REMAP, the outcome of a start, ROM_RAISE and crossbar bursts (R449–R458).
-/
namespace Sys2Proof.Proofs.Boot
open Sys2Proof Sys2Proof.Machine Running Laws.Boot

/-! ## The outcome of a start -/

theorem mxCtl_remaps (u : State) (v : Word) : ∃ t, u.mxCtl .sill v = t ∧ (t.bay 256).remap = bitAt v 0 ∧
    (∀ k, k ≠ 256 → t.bay k = u.bay k) ∧ t.rst = u.rst ∧ t.scr = u.scr := by
  have e : u.mxCtl .sill v = _ := if_neg (not_not.2 rfl)
  refine ⟨_, e, congrArg Bay.remap (State.bay_onBay _ _ _), fun k hk => ?_, rfl, rfl⟩
  exact (State.bay_onBay_ne _ _ hk).trans (State.bay_of_setReg _ _ _ _)

/-- The bits of what MXH_BOOT is written to end a start well and ill. -/
theorem boot_bits (r : Word) : bitAt (r ||| 1#32) 0 = true ∧ bitAt (r ||| 1#32) 1 = bitAt r 1 ∧
    bitAt (r ||| 2#32) 1 = true ∧ bitAt (r ||| 2#32) 0 = bitAt r 0 := by
  simp [bitAt]

theorem mxBoot_ok (u : State) {v : Word} (h0 : bitAt v 0 = true) (h1 : bitAt v 1 = false) :
    ∃ t, u.mxBoot .sill v = t ∧ t.bays = u.bays ∧ t.scr = u.scr ∧ t.rst = if u.rst.window = true then
      { u.rst with bootOk := true, window := false, count := 0, trimFails := 0 } else u.rst := by
  have e : u.mxBoot .sill v = (u.writeRw 0xA0104 0xFF00 v).bootOk :=
    ((if_neg (not_not.2 rfl)).trans (if_pos h0)).trans (congrArg State.bootOk (if_neg (Bool.eq_false_iff.1 h1)))
  refine ⟨_, e, ?_⟩
  unfold State.bootOk
  by_cases w : u.rst.window = true
  · rw [if_pos w, if_pos (show (u.writeRw 0xA0104 0xFF00 v).rst.window = true from w)]
    exact ⟨rfl, rfl, rfl⟩
  · rw [if_neg w, if_neg (show ¬ (u.writeRw 0xA0104 0xFF00 v).rst.window = true from w)]
    exact ⟨rfl, rfl, rfl⟩

section
variable {u : State} {r : Rst} (hr : r = { u.rst with
  count := min 15 (u.rst.count + 1), failDue := true, window := false,
  shoring := u.rst.shoring || decide (3 ≤ min 15 (u.rst.count + 1)) })
include hr

theorem mxBoot_fail {v : Word} (h0 : bitAt v 0 = false) (h1 : bitAt v 1 = true) :
    ∃ t, u.mxBoot .sill v = t ∧ t.bays = u.bays ∧ t.scr = u.scr ∧ t.mx = u.mx ∧
      t.rst = if u.rst.bootOk = true ∨ u.rst.failDue = true then u.rst else r := by
  have e : u.mxBoot .sill v = (u.writeRw 0xA0104 0xFF00 v).failIfStarting :=
    ((if_neg (not_not.2 rfl)).trans (if_neg (Bool.eq_false_iff.1 h0))).trans (if_pos h1)
  have rst : (u.writeRw 0xA0104 0xFF00 v).rst = u.rst := rfl
  refine ⟨_, e, ?_⟩
  unfold State.failIfStarting
  rw [rst]
  by_cases c : u.rst.bootOk = true ∨ u.rst.failDue = true
  · rw [if_pos (Bool.or_eq_true_iff.2 c), if_pos c]
    exact ⟨rfl, rfl, rfl, rfl⟩
  · rw [if_neg (fun k => c (Bool.or_eq_true_iff.1 k)), if_neg c, fails_whole, rst, ← hr]
    exact ⟨rfl, rfl, rfl, rfl⟩

theorem windowExpires_fails (h : u.rst.window = true) : u.windowExpires = { u with rst := r } :=
  (if_pos h).trans ((fails_whole u).trans (by rw [hr]))

end

/-! ## Bursts -/

/-- The shared SRAM is one target. -/
theorem sram_target (u : State) {a n : Nat} (h1 : 0x20000000 ≤ a) (h2 : a + 4 * n ≤ 0x20080000) (k : Nat) (hk : k < n) :
    u.busTarget (a + 4 * k) = u.busTarget a := by
  unfold State.busTarget
  rw [sram_addr u (a + 4 * k) (by omega) (by omega), sram_addr u a h1 (by omega)]

section
variable {u : State} {m a : Nat} {data : List Word} (hm : m = 2 ∨ (m = 3 ∧ u.debugLocked 0 = false)) (ha : a % 4 = 0)
include hm ha

theorem burst_beats (hc : ∀ k, k < data.length → u.busTarget (a + 4 * k) = u.busTarget a) (w : Bool) :
    u.burst m a w data = (List.range data.length).foldl (fun t k =>
      if w then t.busWrite m (a + 4 * k) 4 (data.getD k 0#32) else t.busRead m (a + 4 * k) 4 none false) u := by
  have e := beats_fold m a w data 0 u
  simp only [Nat.zero_add] at e
  exact (burst_go u m a w data hm ha hc).trans e

variable (h1 : 0x20000000 ≤ a) (h2 : a + 4 * data.length ≤ 0x20080000)
include h1 h2

theorem burst_sram_write : ∃ t, u.burst m a true data = t ∧
    (∀ k, k < data.length → (t.bay 256).scratch.num (a - 0x20000000 + 4 * k) 4 = (data.getD k 0#32).toNat) ∧
    (∀ k, k < a - 0x20000000 ∨ a - 0x20000000 + 4 * data.length ≤ k →
      (t.bay 256).scratch.byte k = (u.bay 256).scratch.byte k) ∧
    (∀ k, k ≠ 256 → t.bay k = u.bay k) ∧ t.out = u.out ∧ t.regs = u.regs := by
  have go := burst_go u m a true data hm ha (sram_target u h1 h2)
  obtain ⟨B, e, other, words, rest⟩ := beats_write m a data 0 u h1 (by omega)
  simp only [Nat.zero_add] at words
  have bays : ∀ k, ({ u with bays := B } : State).bay k = tget Bay.fresh B k := fun _ => rfl
  refine ⟨_, go.trans e, fun k hk => ?_, fun k hk => ?_, other, rfl, rfl⟩
  · rw [bays]; exact words k hk
  · rw [bays]; exact rest k (by omega)

theorem burst_sram_read : u.burst m a false data = { u with out := u.out ++ (List.range data.length).map fun k =>
    (Out.answer { data := toBytes 4 (wd ((u.bay 256).scratch.num (a - 0x20000000 + 4 * k) 4)).toNat }) } := by
  have go := burst_go u m a false data hm ha (sram_target u h1 h2)
  have e := beats_read m a (by omega) u data 0 u.out h1 (by omega)
  simp only [Nat.zero_add] at e
  exact go.trans e

end

/-- Settles O45. -/
theorem bootAndCrossbar : Obligations.BootAndCrossbar := by
  refine fun s => ⟨fun v hr => ?_, fun hr h1 => ?_, fun r hr => ⟨fun hr' h0 => ?_, fun h => ?_, fun h => ?_⟩,
    fun a hs hb hrom => ⟨fun i hi h1 h2 h3 => ⟨?_, ?_⟩, fun hm c h0 h1 h2 => ⟨fun hc h3 h4 => ?_,
    fun i tl n w hc h3 h4 hn hw => ?_⟩⟩, fun m w a data hm ha => ⟨fun k hk hb => ⟨?_, ?_⟩, fun hc => ⟨?_, ?_⟩,
    fun h1 h2 => ⟨?_, ?_⟩, fun _ hl => ?_⟩⟩
  · exact (mxCtl_remaps s.start v).imp fun t h => ⟨runs (f := fun t => t.regWrite .sill 0xA0100 v) rfl
      ((mx_go s.start .sill _ v hr (.inr (.inr (.inl rfl)))).trans h.1), h.2⟩
  · obtain ⟨b0, b1, -, -⟩ := boot_bits (s.reg 0xA0104)
    exact (mxBoot_ok s.start b0 (b1.trans h1)).imp fun t h =>
      ⟨runs (f := fun t => t.regWrite .sill 0xA0104 (t.reg 0xA0104 ||| 1#32)) rfl
        ((mx_go s.start .sill _ _ hr (.inr (.inr (.inr rfl)))).trans h.1), h.2⟩
  · obtain ⟨-, -, b1, b0⟩ := boot_bits (s.reg 0xA0104)
    exact (mxBoot_fail (u := s.start) hr (b0.trans h0) b1).imp fun t h =>
      ⟨runs (f := fun t => t.regWrite .sill 0xA0104 (t.reg 0xA0104 ||| 2#32)) rfl
        ((mx_go s.start .sill _ _ hr' (.inr (.inr (.inr rfl)))).trans h.1), h.2⟩
  · exact runs (f := fun t => t.windowExpires) rfl (windowExpires_fails (u := s.start) hr h)
  · exact runs (f := fun t => t.windowExpires) rfl (if_neg (Bool.eq_false_iff.1 h))
  · exact runs (f := fun t => t.romRaise a) rfl (rom_marks s.start a i hi h1 h2 h3 hs hb hrom).1
  · exact (rom_marks s a i hi h1 h2 h3 hs hb hrom).2
  · have hc' := (same_candidates s.start c h0 h1 h2).trans hc
    exact ⟨_, runs (f := fun t => t.romRaise a) rfl rfl, rom_none s.start a hs hb hrom hm hc' h3 h4⟩
  · have hc' := (same_candidates s.start c h0 h1 h2).trans hc
    have facts := rom_good s.start a i n tl hs hb hrom hm hc' h3 h4 hn
    have hw' : w = if s.start.slotState i = 0x7F then s.start.slotMark i 0x3F else s.start := hw
    rw [← hw'] at facts
    exact ⟨_, runs (f := fun t => t.romRaise a) rfl rfl, facts⟩
  · exact runs (f := fun t => t.burst m a true data) rfl (burst_bad s.start m a true data hm ha k hk hb)
  · exact runs (f := fun t => t.burst m a false data) rfl (burst_bad s.start m a false data hm ha k hk hb)
  · exact runs (f := fun t => t.burst m a true data) rfl (burst_beats (u := s.start) hm ha hc true)
  · exact runs (f := fun t => t.burst m a false data) rfl (burst_beats (u := s.start) hm ha hc false)
  · exact (burst_sram_write (u := s.start) hm ha h1 h2).imp fun t h => ⟨runs (f := fun t => t.burst m a true data) rfl h.1, h.2⟩
  · exact runs (f := fun t => t.burst m a false data) rfl (burst_sram_read (u := s.start) hm ha h1 h2)
  · exact runs (f := fun t => t.burst 3 a w data) rfl (if_pos (by rw [show s.start.debugLocked 0 = true from hl]; rfl))

end Sys2Proof.Proofs.Boot



/-!
The xSPI port, SMBus, the UART and the pins (R463, R464).
-/
namespace Sys2Proof.Proofs.SlowPorts
open Sys2Proof Sys2Proof.Machine Running Laws.SlowPorts

/-! ## What GO is written with -/

theorem go_bits (v : Word) : bitAt (v ||| 0x80000000#32) 31 = true ∧ bitAt (v ||| 0x80000000#32) 18 = bitAt v 18 := by
  simp [bitAt]

/-- A mask without bit 31 does not see GO. -/
theorem go_masked (v : Word) {m : Word} (hm : m &&& 0x80000000#32 = 0#32) : (v ||| 0x80000000#32) &&& m = v &&& m := by
  rw [BitVec.and_comm, BitVec.and_or_distrib_left, hm, BitVec.or_zero, BitVec.and_comm]

/-! ## The data registers -/

/-- What an empty data register reads. -/
theorem zero_bytes : toBytes 4 (0#32).toNat = zeros 4 := by decide

theorem slowWrite_smb (u : State) (v : Word) : u.slowWrite 0x48001004 v = u.smbXfer v :=
  (if_neg (by decide)).trans ((if_neg (by decide)).trans (if_pos rfl))

/-- A read answers with what a data register pops. -/
theorem regAnswer_of {u : State} {a : Nat} {r : State × Word} (hr : u.regRead .sill a = r) :
    u.regAnswer .sill a = r.1.emit (.answer { data := toBytes 4 r.2.toNat }) := by
  unfold State.regAnswer
  rw [hr]

section
variable {u : State} (h : u.wideHeld = false)
include h

theorem regRead_data : u.regRead .sill 0x48000010 = u.xspiPop ∧ u.regRead .sill 0x48001008 = u.smbPop ∧
    u.regRead .sill 0x48002004 = u.uartPop := by
  have held := Bool.eq_false_iff.1 h
  refine ⟨?_, ?_, ?_⟩
  · exact (if_neg held).trans ((if_neg (by decide)).trans (if_pos (by decide)))
  · exact (if_neg held).trans ((if_neg (by decide)).trans ((if_neg (by decide)).trans (if_pos (by decide))))
  · exact (if_neg held).trans ((if_neg (by decide)).trans ((if_neg (by decide)).trans ((if_neg (by decide)).trans
      (if_pos (by decide)))))

theorem xspiData_pops {w : Word} {l : List Word} (hx : u.mx.xRx = w :: l) : u.regAnswer .sill 0x48000010 =
    ({ u with mx := { u.mx with xRx := l } } : State).emit (.answer { data := toBytes 4 w.toNat }) :=
  regAnswer_of ((regRead_data h).1.trans (by unfold State.xspiPop; rw [hx]))

theorem xspiData_empty (hx : u.mx.xRx = []) : u.regAnswer .sill 0x48000010 = u.emit (.answer { data := zeros 4 }) := by
  rw [← zero_bytes]
  exact regAnswer_of ((regRead_data h).1.trans (by unfold State.xspiPop; rw [hx]))

theorem smbData_pops {b : Byte} {l : List Byte} (hx : u.mx.sRx = b :: l) : u.regAnswer .sill 0x48001008 =
    ({ u with mx := { u.mx with sRx := l } } : State).emit (.answer { data := toBytes 4 b.toNat }) := by
  rw [← show (b.zeroExtend 32).toNat = b.toNat by simp; omega]
  exact regAnswer_of ((regRead_data h).2.1.trans (by unfold State.smbPop; rw [hx]))

theorem smbData_empty (hx : u.mx.sRx = []) : u.regAnswer .sill 0x48001008 = u.emit (.answer { data := zeros 4 }) := by
  rw [← zero_bytes]
  exact regAnswer_of ((regRead_data h).2.1.trans (by unfold State.smbPop; rw [hx]))

theorem uartData_pops {b : Byte} {l : List Byte} (hx : u.mx.uRx = b :: l) : u.regAnswer .sill 0x48002004 =
    ({ u with mx := { u.mx with uRx := l } } : State).emit (.answer { data := toBytes 4 (wd (256 + b.toNat)).toNat }) :=
  regAnswer_of ((regRead_data h).2.2.trans (by unfold State.uartPop; rw [hx]))

theorem uartData_empty (hx : u.mx.uRx = []) : u.regAnswer .sill 0x48002004 = u.emit (.answer { data := zeros 4 }) := by
  rw [← zero_bytes]
  exact regAnswer_of ((regRead_data h).2.2.trans (by unfold State.uartPop; rw [hx]))

/-! ## xSPI commands and SMBus transfers -/

theorem xspiGo_starts {v : Word} {n k : Nat} (hn : n = fld (u.reg 0x4800000C) 0 9)
    (hk : k = if bitAt v 18 then ceilDiv (min 256 n) 4 else 0) (hb : u.mx.xBusy = false) :
    ∃ t, u.regWrite .sill 0x48000004 (v ||| 0x80000000#32) = t ∧
      t.reg 0x48000004 = ((u.reg 0x48000004 &&& ~~~ 0x7F0FF#32) ||| (v &&& 0x7F0FF#32)) ∧
      t.mx = { u.mx with xBusy := true, xDone := false, xTx := u.mx.xTx.drop k } ∧
      t.out = u.out ++ [.xspi (v &&& 0x7FFFFFFF#32) (u.reg 0x48000008) (wd n) (u.mx.xTx.take k)] ∧ t.bays = u.bays := by
  obtain ⟨go, write⟩ := go_bits v
  have facts := xspi_eq u (v ||| 0x80000000#32) go hb n k hn (by rw [write]; exact hk)
  rw [go_masked v (by decide), go_masked v (by decide)] at facts
  exact ⟨_, (slow_go u _ _ h (.inl rfl)).trans (if_pos rfl), facts⟩

theorem xspiGo_busy {v : Word} (hb : u.mx.xBusy = true) : u.regWrite .sill 0x48000004 (v ||| 0x80000000#32) = u := by
  refine (slow_go u _ _ h (.inl rfl)).trans ((if_pos rfl).trans (if_pos ?_))
  rw [(go_bits v).1, hb]
  rfl

theorem smbGo_starts {v : Word} {k : Nat} (hk : k = min 32 (fld v 8 8)) (h1 : u.mx.smbBusy = false)
    (h2 : bitAt (u.reg 0x48001000) 4 = true) :
    ∃ t, u.regWrite .sill 0x48001004 (v ||| 0x80000000#32) = t ∧
      t.mx = { u.mx with smbBusy := true, sTx := u.mx.sTx.drop k } ∧
      t.out = u.out ++ [.smbus (fld v 1 7) (fld v 16 8) (u.mx.sTx.take k)] ∧ t.bays = u.bays ∧
      t.reg 0x48001004 = ((u.reg 0x48001004 &&& ~~~ 0xFFFFFE#32) ||| (v &&& 0xFFFFFE#32)) := by
  have facts := smbXfer_eq u (v ||| 0x80000000#32) (go_bits v).1 h1 h2
  rw [go_masked v (by decide), fld_hi v 8 8 (by decide), fld_hi v 1 7 (by decide), fld_hi v 16 8 (by decide), ← hk] at facts
  exact ⟨_, (slow_go u _ _ h (.inr rfl)).trans (slowWrite_smb u _), facts⟩

theorem smbGo_stays {v : Word} (hs : u.mx.smbBusy = true ∨ bitAt (u.reg 0x48001000) 4 = false) :
    ∃ t, u.regWrite .sill 0x48001004 (v ||| 0x80000000#32) = t ∧ t.mx = u.mx ∧ t.out = u.out ∧ t.bays = u.bays ∧
      t.reg 0x48001004 = ((u.reg 0x48001004 &&& ~~~ 0xFFFFFE#32) ||| (v &&& 0xFFFFFE#32)) := by
  have facts := smbXfer_stay u (v ||| 0x80000000#32) hs
  rw [go_masked v (by decide)] at facts
  exact ⟨_, (slow_go u _ _ h (.inr rfl)).trans (slowWrite_smb u _), facts⟩

end

theorem xspiDone_ends {u : State} (h : u.mx.xBusy = true) (rx : List Word) (a : Nat) (new : List Byte) :
    u.xspiDone rx a new = { u with mx := { u.mx with
      xBusy := false, xDone := true, xRx := if bitAt (u.reg 0x48000004) 18 then u.mx.xRx else (u.mx.xRx ++ rx).take 64,
      flash := u.mx.flash.putBytes a new } } := if_neg (by rw [h]; decide)

theorem smbTarget_deaf {u : State} (h : bitAt (u.reg 0x48001000) 4 = false ∨ bitAt (u.reg 0x48001000) 3 = false)
    (pec : Bool) (data : List Byte) : u.smbTarget pec data = u :=
  if_pos (by rcases h with h | h <;> simp [h])

/-! ## The UART -/

section
variable {u : State} (h : bitAt (u.reg 0x48002000) 30 = true)
include h

theorem uart_on : ¬ (!bitAt (u.reg 0x48002000) 30) = true := by rw [h]; decide

theorem uartRx_frame (x : Byte) : u.uartRx x false = u.event 0x4800200C 2 := (if_neg (uart_on h)).trans (if_pos rfl)

theorem uartRx_overrun (x : Byte) (hl : 64 ≤ u.mx.uRx.length) : u.uartRx x true = u.event 0x4800200C 1 :=
  (if_neg (uart_on h)).trans ((if_neg (by decide)).trans (if_pos hl))

theorem uartRx_stores (x : Byte) (hl : u.mx.uRx.length < 64) : ∃ t, u.uartRx x true = t ∧
    t.mx = { u.mx with uRx := u.mx.uRx ++ [x] } ∧
    t.sq 0x4800200C = (if u.mx.uRx = [] then (u.sq 0x4800200C).event 0 else u.sq 0x4800200C) ∧ t.bays = u.bays := by
  have e : u.uartRx x true = _ := (if_neg (uart_on h)).trans ((if_neg (by decide)).trans (if_neg (by omega)))
  obtain ⟨mx, bays, -, sq⟩ := opt_event (u.mx.uRx = []) { u with mx := { u.mx with uRx := u.mx.uRx ++ [x] } } _ 0x4800200C 0
    (e.trans (if_congr List.isEmpty_iff rfl rfl))
  exact ⟨_, rfl, mx, sq, bays⟩

theorem uartTx_sends {b : Byte} {l : List Byte} (hx : u.mx.uTx = b :: l)
    (hc : u.mx.cts = true ∨ bitAt (u.reg 0x48002000) 31 = false) :
    u.uartTx = ({ u with mx := { u.mx with uTx := l } } : State).emit (.uart b) := by
  unfold State.uartTx
  rw [hx]
  exact if_pos (by rcases hc with hc | hc <;> simp [h, hc])

end

theorem uartTx_waits {u : State} (hc : u.mx.cts = false) (hf : bitAt (u.reg 0x48002000) 31 = true) : u.uartTx = u := by
  unfold State.uartTx
  split
  · rfl
  · exact if_neg (by simp [hc, hf])

theorem uart_off {u : State} (h : bitAt (u.reg 0x48002000) 30 = false) (x : Byte) (f : Bool) :
    u.uartRx x f = u ∧ u.uartTx = u := by
  refine ⟨if_pos (by rw [h]; rfl), ?_⟩
  unfold State.uartTx
  split
  · rfl
  · exact if_neg (by simp [h])

theorem uartTx_empty {u : State} (h : u.mx.uTx = []) : u.uartTx = u := by
  unfold State.uartTx
  rw [h]

/-! ## The pins -/

theorem gpioPins_edges (s : State) (v : PinLevels) (u : State)
    (hu : u = { s with mx := { s.mx with pins := v.gpio &&& 0xFFFF#32, cts := v.cts } }) :
    ∃ t, s.gpioPins v = t ∧ t.mx = u.mx ∧ t.bays = s.bays ∧ t.regs.words = s.regs.words ∧
      (∀ a, a ≠ 0x48003014 → t.sq a = s.sq a) ∧ t.sq 0x48003014 =
      ((List.range 16).filter fun n => (decide (s.gpioMode n = 1) && !bitAt s.gpioIn n && bitAt u.gpioIn n) ||
        (decide (s.gpioMode n = 2) && bitAt s.gpioIn n && !bitAt u.gpioIn n)).foldl Sq.event (s.sq 0x48003014) := by
  obtain ⟨q, e, other, own⟩ := gpio_fold s.gpioMode s.gpioIn u.gpioIn (List.range 16) u (fun n => by rw [hu]; rfl) rfl
  have sq : ∀ a, u.sq a = s.sq a := fun a => by rw [hu]; rfl
  simp only [sq] at other own
  have go : s.gpioPins v = u.gpioEdges s.gpioIn := by rw [hu]; rfl
  exact ⟨_, go.trans e, rfl, by rw [hu], by rw [hu], other, own⟩

/-- Settles O46. -/
theorem slowInterfaces : Obligations.SlowInterfaces := by
  refine ⟨fun s hw => ⟨fun v n k hn hk => ⟨fun hb => ?_, fun hb => ?_⟩, fun hb rx a new => ?_, fun hb rx a new => ?_,
    fun w l hx => ?_, fun hx => ?_, fun v k hk h1 h2 => ?_, fun v h => ?_, fun ack pec data hb q hq => ?_,
    fun hb ack pec data => ?_, fun h pec data => ?_, fun pec data h1 h2 => ?_, fun b l hx => ?_, fun hx => ?_⟩,
    fun s hw => ⟨fun h x => ⟨?_, fun hl => ?_, fun hl => ?_, fun b l hx => ⟨fun hc => ?_, fun hc hf => ?_⟩⟩,
    fun h x f => ⟨?_, ?_⟩, fun hx => ?_, fun hx => ?_, fun b l hx => ?_, fun v u hu => ?_⟩⟩
  · exact (xspiGo_starts (u := s.start) hw hn hk hb).imp fun t h =>
      ⟨runs (f := fun t => t.regWrite .sill 0x48000004 (v ||| 0x80000000#32)) rfl h.1, h.2⟩
  · exact runs (f := fun t => t.regWrite .sill 0x48000004 (v ||| 0x80000000#32)) rfl (xspiGo_busy (u := s.start) hw hb)
  · exact runs (f := fun t => t.xspiDone rx a new) rfl (xspiDone_ends (u := s.start) hb rx a new)
  · exact runs (f := fun t => t.xspiDone rx a new) rfl (if_pos (by rw [show s.start.mx.xBusy = false from hb]; rfl))
  · exact runs (f := fun t => t.regAnswer .sill 0x48000010) rfl (xspiData_pops (u := s.start) hw hx)
  · exact runs (f := fun t => t.regAnswer .sill 0x48000010) rfl (xspiData_empty (u := s.start) hw hx)
  · exact (smbGo_starts (u := s.start) hw hk h1 h2).imp fun t h =>
      ⟨runs (f := fun t => t.regWrite .sill 0x48001004 (v ||| 0x80000000#32)) rfl h.1, h.2⟩
  · exact (smbGo_stays (u := s.start) hw h).imp fun t h =>
      ⟨runs (f := fun t => t.regWrite .sill 0x48001004 (v ||| 0x80000000#32)) rfl h.1, h.2⟩
  · have facts := smbDone_eq s.start ack pec data hb
    have hq' : q = if ack then s.start.sq 0x4800100C else (s.start.sq 0x4800100C).event 1 := hq
    rw [← hq'] at facts
    exact ⟨_, runs (f := fun t => t.smbDone ack pec data) rfl rfl, facts⟩
  · exact runs (f := fun t => t.smbDone ack pec data) rfl (if_pos (by rw [show s.start.mx.smbBusy = false from hb]; rfl))
  · exact runs (f := fun t => t.smbTarget pec data) rfl (smbTarget_deaf (u := s.start) h pec data)
  · exact ⟨_, runs (f := fun t => t.smbTarget pec data) rfl rfl, smbTarget_eq s.start pec data h1 h2⟩
  · exact runs (f := fun t => t.regAnswer .sill 0x48001008) rfl (smbData_pops (u := s.start) hw hx)
  · exact runs (f := fun t => t.regAnswer .sill 0x48001008) rfl (smbData_empty (u := s.start) hw hx)
  · exact runs (f := fun t => t.uartRx x false) rfl (uartRx_frame (u := s.start) h x)
  · exact runs (f := fun t => t.uartRx x true) rfl (uartRx_overrun (u := s.start) h x hl)
  · exact (uartRx_stores (u := s.start) h x hl).imp fun t h => ⟨runs (f := fun t => t.uartRx x true) rfl h.1, h.2⟩
  · exact runs (f := State.uartTx) rfl (uartTx_sends (u := s.start) h hx hc)
  · exact runs (f := State.uartTx) rfl (uartTx_waits (u := s.start) hc hf)
  · exact runs (f := fun t => t.uartRx x f) rfl (uart_off (u := s.start) h x f).1
  · exact runs (f := State.uartTx) rfl (uart_off (u := s.start) h x f).2
  · exact runs (f := State.uartTx) rfl (uartTx_empty (u := s.start) hx)
  · exact runs (f := fun t => t.regAnswer .sill 0x48002004) rfl (uartData_empty (u := s.start) hw hx)
  · exact runs (f := fun t => t.regAnswer .sill 0x48002004) rfl (uartData_pops (u := s.start) hw hx)
  · exact (gpioPins_edges s.start v u hu).imp fun t h => ⟨runs (f := fun t => t.gpioPins v) rfl h.1, h.2⟩

end Sys2Proof.Proofs.SlowPorts


/-!
The sources of reset and what their reach returns to reset (R465–R469).
-/
namespace Sys2Proof.Proofs.Sources
open Sys2Proof Sys2Proof.Machine Running Laws.Resets

/-- A source whose own reach is WARM or wider joins with that reach. -/
theorem joins_own (u : State) {src r : Nat} (hr : reachOf src = r) (h : 4 ≤ r) : u.joins src r (u.assertReset src) :=
  assert_wide u src r hr (by omega)

/-! ## The software resets -/

/-- The bits of RST_SW as the two software resets write it. -/
theorem software_bits (v : Word) : bitAt (v ||| 1#32) 0 = true ∧ bitAt (v ||| 1#32) 1 = bitAt v 1 ∧
    bitAt (v ||| 2#32) 1 = true ∧ bitAt (v ||| 2#32) 0 = bitAt v 0 := by
  simp [bitAt]

theorem software_key (v : Word) : fld (v ||| 1#32) 8 8 = fld v 8 8 ∧ fld (v ||| 2#32) 8 8 = fld v 8 8 :=
  ⟨fld_or v _ 8 8 (by decide), fld_or v _ 8 8 (by decide)⟩

section
variable (u : State) {ag : Agent} {v : Word}

theorem rstSw_keyless (hk : fld v 8 8 ≠ 0xA5) : u.rstSw ag v = u := if_pos hk

section
variable (hk : fld v 8 8 = 0xA5)
include hk

theorem rstSw_warm (h0 : bitAt v 0 = true) (h1 : ag ≠ .sill ∨ bitAt v 1 = false) : u.rstSw ag v = u.assertReset 6 := by
  have notCold : ¬ (bitAt v 1 && decide (ag = .sill)) = true := by
    rcases h1 with h1 | h1 <;> simp [h1]
  exact ((if_neg (not_not.2 hk)).trans (if_pos h0)).trans (congrArg (State.assertReset · 6) (if_neg notCold))

theorem rstSw_none (h0 : bitAt v 0 = false) (h1 : ag ≠ .sill) : u.rstSw ag v = u :=
  ((if_neg (not_not.2 hk)).trans (if_neg (Bool.eq_false_iff.1 h0))).trans (if_neg (by simp [h1]))

variable (h1 : bitAt v 1 = true)
include h1

theorem rstSw_cold (h0 : bitAt v 0 = false) : u.rstSw .sill v = u.rstSwCold :=
  ((if_neg (not_not.2 hk)).trans (if_neg (Bool.eq_false_iff.1 h0))).trans (if_pos (by rw [h1]; rfl))

theorem rstSw_both (h0 : bitAt v 0 = true) : u.rstSw .sill v = u.rstSwCold.assertReset 6 :=
  ((if_neg (not_not.2 hk)).trans (if_pos h0)).trans (congrArg (State.assertReset · 6) (if_pos (by rw [h1]; rfl)))

end

end

/-- Settles O47. -/
theorem sourcesOfReset : Obligations.SourcesOfReset := by
  refine ⟨fun s => ⟨?_, ?_, ?_, ?_, fun h => ?_, fun h => ?_, fun h => ?_, fun h => ?_, fun hr ag v u hu => ?software⟩,
    fun s => ⟨?_, fun h => ⟨?_, ?_⟩, fun h => ⟨?_, ?_⟩⟩⟩
  · exact ⟨_, runs (f := fun t => t.assertReset 0) rfl rfl, joins_own s.start rfl (by decide)⟩
  · exact ⟨_, runs (f := fun t => t.tamper) rfl rfl, joins_own s.start.zeroise rfl (by decide)⟩
  · exact ⟨_, runs (f := fun t => t.assertReset 2) rfl rfl, joins_own s.start rfl (by decide)⟩
  · exact ⟨_, runs (f := fun t => t.railFails) rfl rfl, joins_own _ rfl (by decide)⟩
  · exact ⟨_, runs (f := fun t => t.wdgExpire) rfl (if_pos h), joins_own _ rfl (by decide)⟩
  · exact runs (f := fun t => t.wdgExpire) rfl (if_neg (Bool.eq_false_iff.1 h))
  · exact ⟨_, runs (f := fun t => t.failstart) rfl (if_pos h), joins_own _ rfl (by decide)⟩
  · exact runs (f := fun t => t.failstart) rfl (if_neg (Bool.eq_false_iff.1 h))
  case software =>
    obtain ⟨w0, w1, c1, c0⟩ := software_bits v
    obtain ⟨wk, ck⟩ := software_key v
    refine ⟨fun hk => ⟨?_, ?_⟩, fun hk => ⟨fun h1 => ?_, fun ha h1 => ?_, fun ha h0 => ?_, fun ha h0 => ?_, fun ha h0 => ?_,
      fun ha h0 => ?_⟩⟩
    · exact runs (f := fun t => t.regWrite ag 0x10010 (v ||| 1#32)) rfl
        ((sw_go s.start ag _ hr).trans (rstSw_keyless _ (by rw [wk]; exact hk)))
    · exact runs (f := fun t => t.regWrite ag 0x10010 (v ||| 2#32)) rfl
        ((sw_go s.start ag _ hr).trans (rstSw_keyless _ (by rw [ck]; exact hk)))
    · exact ⟨_, runs (f := fun t => t.regWrite ag 0x10010 (v ||| 1#32)) rfl ((sw_go s.start ag _ hr).trans
        (rstSw_warm _ (wk.trans hk) w0 (by rw [w1]; exact h1))), joins_own _ rfl (by decide)⟩
    · subst ha hu
      exact ⟨_, _, runs (f := fun t => t.regWrite .sill 0x10010 (v ||| 1#32)) rfl ((sw_go s.start _ _ hr).trans
        (rstSw_both _ (wk.trans hk) (w1.trans h1) w0)), joins_own _ rfl (by decide), joins_own _ rfl (by decide)⟩
    · subst ha hu
      exact ⟨_, runs (f := fun t => t.regWrite .sill 0x10010 (v ||| 2#32)) rfl ((sw_go s.start _ _ hr).trans
        (rstSw_cold _ (ck.trans hk) c1 (c0.trans h0))), joins_own _ rfl (by decide)⟩
    · subst ha hu
      exact ⟨_, _, runs (f := fun t => t.regWrite .sill 0x10010 (v ||| 2#32)) rfl ((sw_go s.start _ _ hr).trans
        (rstSw_both _ (ck.trans hk) c1 (c0.trans h0))), joins_own _ rfl (by decide), joins_own _ rfl (by decide)⟩
    · exact ⟨_, runs (f := fun t => t.regWrite ag 0x10010 (v ||| 2#32)) rfl ((sw_go s.start ag _ hr).trans
        (rstSw_warm _ (ck.trans hk) (c0.trans h0) (.inl ha))), joins_own _ rfl (by decide)⟩
    · exact runs (f := fun t => t.regWrite ag 0x10010 (v ||| 2#32)) rfl ((sw_go s.start ag _ hr).trans
        (rstSw_none _ (ck.trans hk) (c0.trans h0) ha))
  · exact ⟨_, runs (f := fun t => t.assertReset 8) rfl rfl, host_all s.start 8 rfl⟩
  · exact ⟨_, runs (f := fun t => if t.hb.up then t.assertReset 9 else t) rfl (if_pos h), host_all s.start 9 rfl⟩
  · exact ⟨_, runs (f := fun t => if t.hb.up then t.assertReset 10 else t) rfl (if_pos h), host_all s.start 10 rfl⟩
  · exact runs (f := fun t => if t.hb.up then t.assertReset 9 else t) rfl (if_neg (Bool.eq_false_iff.1 h))
  · exact runs (f := fun t => if t.hb.up then t.assertReset 10 else t) rfl (if_neg (Bool.eq_false_iff.1 h))

end Sys2Proof.Proofs.Sources


/-!
Release of the sources of reset and the end of an episode (R456, R468–R470).
-/
namespace Sys2Proof.Proofs.Episode
open Sys2Proof Sys2Proof.Machine Running Laws.Episode Laws.Rom

/-! ## Sources let go -/

theorem releaseReset_goes {u : State} {src : Nat} (h : u.rst.asserted / 2 ^ src % 2 = 1) (hm : u.mayRelease src = true) :
    u.releaseReset src = { u with rst := { u.rst with asserted := u.rst.asserted - 2 ^ src } } := if_pos ⟨h, hm⟩

theorem releaseReset_absent {u : State} {src : Nat} (h : u.rst.asserted / 2 ^ src % 2 = 0) : u.releaseReset src = u :=
  if_neg fun c => by omega

theorem sourceBack_goes (u : State) {src : Nat} (h : u.rst.asserted / 2 ^ src % 2 = 1)
    (hm : src = 4 ∨ u.mayRelease src = true) :
    ∃ t, u.sourceBack src = t ∧ t.rst.asserted = u.rst.asserted - 2 ^ src ∧ t.rst.reach = u.rst.reach ∧
      t.rst.railOut = (u.rst.railOut && decide (src ≠ 4)) ∧ t.ddr.rails = (u.ddr.rails || decide (src = 2)) ∧
      t.bays = u.bays ∧ t.regs = u.regs := by
  by_cases rail : src = 4
  · subst rail
    have e : u.sourceBack 4 = _ :=
      (if_pos rfl).trans (releaseReset_goes (u := { u with rst := { u.rst with railOut := false } }) h rfl)
    exact ⟨_, e, rfl, rfl, (Bool.and_false _).symm, (Bool.or_false _).symm, rfl, rfl⟩
  · have may := hm.resolve_left rail
    by_cases pin : src = 2
    · subst pin
      have e : u.sourceBack 2 = _ := ((if_neg rail).trans (if_pos rfl)).trans
        (releaseReset_goes (u := { u with ddr := { u.ddr with rails := true } }) h rfl)
      exact ⟨_, e, rfl, rfl, (Bool.and_true _).symm, (Bool.or_true _).symm, rfl, rfl⟩
    · have e : u.sourceBack src = _ := ((if_neg rail).trans (if_neg pin)).trans (releaseReset_goes h may)
      refine ⟨_, e, rfl, rfl, ?_, ?_, rfl, rfl⟩
      · rw [decide_eq_true rail, Bool.and_true]
      · rw [decide_eq_false pin, Bool.or_false]

theorem sourceBack_absent (u : State) {src : Nat} (h : u.rst.asserted / 2 ^ src % 2 = 0) :
    ∃ t, u.sourceBack src = t ∧ t.rst.asserted = u.rst.asserted ∧ t.rst.reach = u.rst.reach ∧ t.bays = u.bays ∧
      t.regs = u.regs := by
  by_cases rail : src = 4
  · subst rail
    have e : u.sourceBack 4 = _ :=
      (if_pos rfl).trans (releaseReset_absent (u := { u with rst := { u.rst with railOut := false } }) h)
    exact ⟨_, e, rfl, rfl, rfl, rfl⟩
  · by_cases pin : src = 2
    · subst pin
      have e : u.sourceBack 2 = _ := ((if_neg rail).trans (if_pos rfl)).trans
        (releaseReset_absent (u := { u with ddr := { u.ddr with rails := true } }) h)
      exact ⟨_, e, rfl, rfl, rfl, rfl⟩
    · exact ⟨_, ((if_neg rail).trans (if_neg pin)).trans (releaseReset_absent h), rfl, rfl, rfl, rfl⟩

/-! ## The exit -/

theorem regRest_keeps {u v : State} (h : RegRest u v) :
    v.rst = u.rst ∧ v.bays = u.bays ∧ v.sec = u.sec ∧ v.ddr = u.ddr ∧ v.mx = u.mx := by
  obtain ⟨W, f, rfl⟩ := h
  exact ⟨rfl, rfl, rfl, rfl, rfl⟩

section
variable {u : State}

theorem exitDone_host (h0 : u.rst.asserted = 0) (h3 : u.rst.reach = 3) : u.exitDone = { u with rst :=
    { u.rst with lastSrc := u.rst.src, lastReach := 3, src := 0, reach := 0 } } := by
  have e : u.exitDone = _ := (if_neg (by omega)).trans (if_neg (by omega))
  dsimp only at e
  rw [if_neg (by omega), h3] at e
  exact e

theorem exitDone_waits (h : u.rst.reach = 0 ∨ u.rst.asserted ≠ 0 ∨ (4 ≤ u.rst.reach ∧ u.sec.zeroing = true)) :
    u.exitDone = u := if_pos h

/-- What the exit of a wide episode leaves before the ROM goes on. -/
def Released (u v : State) : Prop :=
  v.rst.reach = 0 ∧ v.rst.src = 0 ∧ v.rst.lastSrc = u.rst.src ∧ v.rst.lastReach = u.rst.reach ∧
    v.rst.shored = u.rst.shoring ∧ (v.rst.window = !u.rst.shoring) ∧ v.rst.loading = u.rst.loading ∧
    v.on 16 = true ∧ v.on 20 = true ∧ v.on 21 = true ∧ v.on 22 = true ∧
    (v.bay 256).state = 3 ∧ (v.bay 256).pipe.pc = 0 ∧ (∀ k, k ≠ 256 → v.bay k = u.bay k) ∧ v.sec = u.sec ∧ v.ddr = u.ddr ∧
    v.mx = u.mx

theorem exitDone_wide (h0 : u.rst.asserted = 0) (h4 : 4 ≤ u.rst.reach) (hz : u.sec.zeroing = false) :
    Released u u.exitDone := by
  obtain ⟨src, reach, shored, window, dom, state, pc, bays, sec, ddr, mx, loading⟩ := wideExit_eq u
  have e : u.exitDone = _ := (if_neg (by rw [hz]; simp; omega)).trans (if_pos h4)
  dsimp only at e
  rw [if_pos h4] at e
  rw [e]
  obtain ⟨rst', bays', sec', ddr', mx'⟩ := regRest_keeps (ac_rest { u.wideExit with rst := { u.wideExit.rst with
    lastSrc := u.wideExit.rst.src, lastReach := u.wideExit.rst.reach, src := 0, reach := 0 } })
  unfold Released State.on State.dom State.bay
  rw [rst', bays', sec', ddr', mx']
  refine ⟨rfl, rfl, src, reach, shored, window, loading, ?_, ?_, ?_, ?_, state, pc, bays, sec, ddr, mx⟩
  · exact decide_eq_true (dom 16 (by decide))
  · exact decide_eq_true (dom 20 (by decide))
  · exact decide_eq_true (dom 21 (by decide))
  · exact decide_eq_true (dom 22 (by decide))

/-- The ROM goes on after the exit of an episode in shoring mode alone. -/
theorem exit_wide (h0 : u.rst.asserted = 0) (h4 : 4 ≤ u.rst.reach) (hz : u.sec.zeroing = false)
    (hs : u.rst.shoring = false ∨ u.sec.state = 0) (hl : u.rst.loading = false) :
    ∃ t, u.exitDone.bootBegins = t ∧ t.rst.reach = 0 ∧ t.rst.src = 0 ∧ t.rst.lastSrc = u.rst.src ∧
      t.rst.lastReach = u.rst.reach ∧ t.rst.shored = u.rst.shoring ∧ (t.rst.window = !u.rst.shoring) ∧
      t.on 16 = true ∧ t.on 20 = true ∧ t.on 21 = true ∧ t.on 22 = true ∧
      (t.bay 256).state = 3 ∧ (t.bay 256).pipe.pc = 0 ∧ (∀ k, k ≠ 256 → t.bay k = u.bay k) ∧ t.sec = u.sec ∧
      t.ddr = u.ddr ∧
      t.mx.boot = (if u.rst.shoring = true ∧ u.mx.boot = .reset then .selftest else u.mx.boot) ∧
      (u.rst.shoring = true → u.mx.boot = .reset → fld (t.reg 0xA0104) 8 8 = 2) := by
  obtain ⟨reach, src, lastSrc, lastReach, shored, window, loading, on16, on20, on21, on22, state, pc, bays, sec, ddr, mx⟩ :=
    exitDone_wide h0 h4 hz
  generalize u.exitDone = v at *
  by_cases goes : u.rst.shoring = true ∧ u.mx.boot = .reset
  · obtain ⟨rst', mx', bays', sec', ddr', stage, -⟩ := begins_shored v (by rw [mx]; exact goes.2) (by omega)
      (shored.trans goes.1) (by rw [sec]; exact hs.resolve_left (by rw [goes.1]; decide))
    refine ⟨_, rfl, ?_⟩
    rw [if_pos goes, mx']
    unfold State.on State.dom State.bay
    rw [rst', bays', sec', ddr']
    exact ⟨reach, src, lastSrc, lastReach, shored, window, on16, on20, on21, on22, state, pc, bays, sec, ddr, rfl,
      fun _ _ => stage⟩
  · have stay : v.bootBegins = v := begins_stay v (by
      rw [mx, loading, shored, hl]
      by_cases c : u.mx.boot = .reset
      · exact .inr ⟨rfl, Bool.eq_false_iff.2 fun k => goes ⟨k, c⟩⟩
      · exact .inl c)
    refine ⟨_, stay, reach, src, lastSrc, lastReach, shored, window, on16, on20, on21, on22, state, pc, bays, sec, ddr, ?_,
      fun h1 h2 => absurd ⟨h1, h2⟩ goes⟩
    rw [if_neg goes, mx]

end

theorem exit_step (s : State) : (∀ t, (4 ≤ s.rst.reach → s.start.exitDone.bootBegins = t) → (s.rst.reach < 4 → s.start.exitDone = t) →
    exec (.exitSequenceDone 17) s = .next (s.finish t)) := by
  intro t wide host
  refine runs (f := fun t => if 17 = 17 ∧ 4 ≤ t.rst.reach then (t.exitOf 17).bootBegins else t.exitOf 17) rfl ?_
  by_cases h : 4 ≤ s.rst.reach
  · exact (if_pos ⟨rfl, h⟩).trans (wide h)
  · exact (if_neg fun c => h c.2).trans (host (by omega))

/-- Settles O48. -/
theorem resetEpisode : Obligations.ResetEpisode := by
  refine fun s => ⟨fun src _ h hm => ?_, fun src h _ => ?_, fun h0 h3 => ?_, fun h => ?_, fun h0 h4 hz hs hl => ?_,
    fun p hp => ?_, fun hp => ?_⟩
  · exact (sourceBack_goes s.start h hm).imp fun t h => ⟨runs (f := fun t => t.sourceBack src) rfl h.1, h.2⟩
  · exact (sourceBack_absent s.start h).imp fun t h => ⟨runs (f := fun t => t.sourceBack src) rfl h.1, h.2⟩
  · exact exit_step s _ (fun h => by omega) fun _ => exitDone_host (u := s.start) h0 h3
  · refine exit_step s _ (fun h4 => ?_) fun _ => exitDone_waits (u := s.start) h
    exact (congrArg State.bootBegins (exitDone_waits (u := s.start) h)).trans (if_pos (.inr (.inl h4)))
  · exact (exit_wide (u := s.start) h0 h4 hz hs hl).imp fun t h => ⟨exit_step s t (fun _ => h.1) fun c => by omega, h.2⟩
  · refine runs (f := fun t => t.wrapperDrained) rfl ?_
    unfold State.wrapperDrained
    rw [show s.start.rst.pulse = some p from hp]
    rfl
  · refine runs (f := fun t => t.wrapperDrained) rfl ?_
    unfold State.wrapperDrained
    rw [show s.start.rst.pulse = none from hp]
    exact congrArg (fun p => ({ s.start with rst := { s.start.rst with pulse := p } } : State)) hp.symm

end Sys2Proof.Proofs.Episode


/-!
Trim loads, the watchdog and the copies of the always-on registers (R59, R473–R475, R483–R489).
-/
namespace Sys2Proof.Proofs.Trims
open Sys2Proof Sys2Proof.Machine Running Laws.Episode Laws.Rom

/-! ## Trim loads -/

/-- What a write of RST_TRIM and a load of the trims make of the reset state. -/
theorem trimStart_go (u : State) (v : Word) : u.trimStart .sill (v ||| 1#32) =
    { u with rst := { u.rst with loading := true, trimValid := false, trimSafe := true } } :=
  if_pos (by simp [bitAt])

section
variable {u v : State} (hv : v = { u with rst := { u.rst with loading := true, trimValid := false, trimSafe := true } })
include hv

theorem trimBegins_stay (h : u.mx.boot ≠ .reset) : v.bootBegins = v := begins_stay v (.inl (by rw [hv]; exact h))

theorem trimBegins_boot (h : u.mx.boot = .reset) (hr : u.rst.reach < 4) (hs : u.rst.shored = false) :
    ∃ t, v.bootBegins = t ∧ t.rst = v.rst ∧ t.mx = { u.mx with boot := .trim } ∧ fld (t.reg 0xA0104) 8 8 = 1 ∧
      t.bays = u.bays := by
  have e := begins_trim v (by rw [hv]; exact h) (by rw [hv]; exact hr) (by rw [hv]) (by rw [hv]) (by rw [hv]; exact hs)
  refine ⟨_, e, rfl, by rw [hv]; rfl, ?_, by rw [hv]; rfl⟩
  rw [State.reg_setReg, stage_fld]
  decide

end

theorem trimDone_goesOn {u v : State} (hv : v = { u with rst := { u.rst with loading := false, trimValid := true, trimSafe := false, trimFails := 0 } })
    (h : u.mx.boot = .trim) (hs : u.sec.state = 0) :
    ∃ t, v.bootTrimmed = t ∧ t.rst = v.rst ∧ t.mx = { u.mx with boot := .selftest } ∧ fld (t.reg 0xA0104) 8 8 = 2 ∧
      t.bays = u.bays := by
  have e := trimmed_on v (by rw [hv]; exact h) (.inl (by rw [hv])) (by rw [hv]; exact hs)
  refine ⟨_, e, rfl, by rw [hv]; rfl, ?_, by rw [hv]; rfl⟩
  rw [State.reg_setReg, stage_fld]
  decide

section
variable {u : State} (hl : u.rst.loading = true)
include hl

theorem trimDone_good : u.trimDone true =
    { u with rst := { u.rst with loading := false, trimValid := true, trimSafe := false, trimFails := 0 } } :=
  (if_neg (by rw [hl]; decide)).trans (if_pos rfl)

/-- A failed load counts; the third in a row is a failed start, which ends the boot ROM's work where it waits for it. -/
theorem trimDone_fails (h : u.mx.boot ≠ .trim ∨ (u.rst.trimValid = false ∧ u.rst.shored = false)) :
    ∃ t, (u.trimDone false).bootTrimmed = t ∧ t.rst.loading = false ∧ t.rst.trimFails = min 3 (u.rst.trimFails + 1) ∧
      t.rst.trimValid = u.rst.trimValid ∧ (∀ k, k ≠ 256 → t.bay k = u.bay k) ∧
      t.rst.count = (if 2 ≤ u.rst.trimFails ∧ u.rst.bootOk = false ∧ u.rst.failDue = false then min 15 (u.rst.count + 1)
        else u.rst.count) ∧
      (u.mx.boot ≠ .trim ∨ u.rst.trimFails < 2 → t.mx = u.mx ∧ t.bays = u.bays) ∧
      (u.mx.boot = .trim → 2 ≤ u.rst.trimFails → t.mx = { u.mx with boot := .over } ∧ (t.bay 256).pipe.waiting = true ∧
        fld (t.reg 0xA0104) 8 8 = 128 + fld (u.reg 0xA0104) 8 7) := by
  obtain ⟨loading, fails, valid, bays, count, mx, shored, words, failed⟩ := trim_bad u hl
  generalize u.trimDone false = v at *
  have bay : ∀ k, v.bay k = u.bay k := fun k => by unfold State.bay; rw [bays]
  by_cases ended : u.mx.boot = .trim ∧ 2 ≤ u.rst.trimFails
  · obtain ⟨boot, many⟩ := ended
    obtain ⟨bad, unshored⟩ := h.resolve_left (not_not.2 boot)
    have e : v.bootTrimmed = v.bootFails := (if_neg (by rw [mx]; exact not_not.2 boot)).trans
      ((if_neg (by rw [valid, shored, bad, unshored]; decide)).trans (if_pos ⟨by omega, by rw [loading]; rfl⟩))
    obtain ⟨rst, mx', waiting, other, -, -, stage, -⟩ := fails_rom v
    have same : v.failIfStarting = v := if_pos (failed many)
    rw [same] at rst
    refine ⟨_, e, by rw [rst]; exact loading, by rw [rst]; exact fails, by rw [rst]; exact valid,
      fun k hk => (other k hk).trans (bay k), by rw [rst]; exact count, fun c => ?_, fun _ _ => ⟨by rw [mx', mx], waiting, ?_⟩⟩
    · rcases c with c | c
      · exact absurd boot c
      · omega
    · rw [stage]; unfold State.reg; rw [words]
  · have e : v.bootTrimmed = v := trimmed_stay v (by
      rw [mx, valid, shored, fails, loading]
      by_cases boot : u.mx.boot = .trim
      · obtain ⟨bad, unshored⟩ := h.resolve_left (not_not.2 boot)
        have few : ¬ 2 ≤ u.rst.trimFails := fun c => ended ⟨boot, c⟩
        exact .inr ⟨bad, unshored, .inl (by omega)⟩
      · exact .inl boot)
    exact ⟨_, e, loading, fails, valid, fun k _ => bay k, count, fun _ => ⟨mx, bays⟩, fun h1 h2 => absurd ⟨h1, h2⟩ ended⟩

end

theorem trimDone_idle {u : State} (hl : u.rst.loading = false)
    (h : u.mx.boot ≠ .trim ∨ (u.rst.trimValid = false ∧ u.rst.shored = false ∧ u.rst.trimFails ≠ 3)) (ok : Bool) :
    (u.trimDone ok).bootTrimmed = u := by
  have e : u.trimDone ok = u := if_pos (by rw [hl]; rfl)
  rw [e]
  exact trimmed_stay u (h.imp_right fun ⟨h1, h2, h3⟩ => ⟨h1, h2, .inl h3⟩)

/-! ## The watchdog -/

theorem wdgCtl_enables {u : State} (v : Word) (h : bitAt (u.reg 0x10030) 16 = false) (hs : u.rst.shored = false) {m : Nat}
    (hm : m = fld v 0 16) :
    ∃ t, u.wdgCtl (v ||| 0x10000#32) = t ∧ t.rst.wdg = true ∧ t.rst.wdgLeft = 1000 * max 1 m ∧
      fld (t.reg 0x10030) 0 16 = m ∧ t.bays = u.bays := by
  have e : u.wdgCtl (v ||| 0x10000#32) = _ :=
    (if_neg (Bool.eq_false_iff.1 h)).trans (if_pos (by rw [State.writeRw_rst, hs]; simp [bitAt]))
  have count : fld ((u.writeRw 0x10030 0x1FFFF (v ||| 0x10000#32)).reg 0x10030) 0 16 = m := by
    unfold State.writeRw
    rw [State.reg_setReg, hm]
    exact low16 _ v
  refine ⟨_, e, rfl, ?_, count, rfl⟩
  rw [← span_max, ← count]
  rfl

theorem wdgKick_loads {u : State} (v : Word) (h : u.rst.wdg = true) (hk : fld v 0 16 = 0x6B3D) :
    u.wdgKick v = { u with rst := { u.rst with wdgLeft := 1000 * max 1 (fld (u.reg 0x10030) 0 16) } } := by
  rw [← span_max]
  exact if_pos ⟨hk, h⟩

theorem wdgKick_none {u : State} (v : Word) (h : u.rst.wdg = false ∨ fld v 0 16 ≠ 0x6B3D) : u.wdgKick v = u := by
  refine if_neg fun c => ?_
  obtain ⟨key, on⟩ := c
  rcases h with h | h
  · exact Bool.eq_false_iff.1 h on
  · exact h key

/-- Settles O49. -/
theorem trimsWatchdogCopies : Obligations.TrimsWatchdogCopies := by
  refine fun s => ⟨fun v u hr hu => ⟨fun h => ?_, fun h h4 hs => ?_⟩, fun hl u hu => ⟨fun h => ?_, fun h hs => ?_⟩,
    fun hl h => ?_, fun hl h ok => ?_, fun v m hr h hs hm => ?_, fun v hr h hk => ?_, fun v hr h => ?_, fun v hr h => ?_, ?_,
    ?_⟩
  · refine runs (f := fun t => t.regWrite .sill 0x10028 (v ||| 1#32)) rfl ((rst_go s.start .sill _ _ hr (.inl rfl)).trans ?_)
    exact (congrArg State.bootBegins ((trimStart_go s.start v).trans hu.symm)).trans (trimBegins_stay (u := s.start) hu h)
  · refine (trimBegins_boot (u := s.start) hu h h4 hs).imp fun t k => ⟨runs
      (f := fun t => t.regWrite .sill 0x10028 (v ||| 1#32)) rfl ((rst_go s.start .sill _ _ hr (.inl rfl)).trans ?_), k.2⟩
    exact (congrArg State.bootBegins ((trimStart_go s.start v).trans hu.symm)).trans k.1
  · refine runs (f := fun t => (t.trimDone true).bootTrimmed) rfl ?_
    rw [trimDone_good (u := s.start) hl]
    exact (congrArg State.bootTrimmed hu.symm).trans (trimmed_stay u (.inl (by rw [hu]; exact h)))
  · refine (trimDone_goesOn (u := s.start) hu h hs).imp fun t k =>
      ⟨runs (f := fun t => (t.trimDone true).bootTrimmed) rfl ?_, k.2⟩
    rw [trimDone_good (u := s.start) hl]
    exact (congrArg State.bootTrimmed hu.symm).trans k.1
  · exact (trimDone_fails (u := s.start) hl h).imp fun t k =>
      ⟨runs (f := fun t => (t.trimDone false).bootTrimmed) rfl k.1, k.2⟩
  · exact runs (f := fun t => (t.trimDone ok).bootTrimmed) rfl (trimDone_idle (u := s.start) hl h ok)
  · exact (wdgCtl_enables (u := s.start) v h hs hm).imp fun t k =>
      ⟨runs (f := fun t => t.regWrite .host 0x10030 (v ||| 0x10000#32)) rfl
        ((rst_go s.start .host _ _ hr (.inr (.inl rfl))).trans k.1), k.2⟩
  · exact runs (f := fun t => t.regWrite .host 0x10034 v) rfl
      ((rst_go s.start .host _ _ hr (.inr (.inr rfl))).trans (wdgKick_loads (u := s.start) v h hk))
  · exact runs (f := fun t => t.regWrite .host 0x10030 (v ||| 0x10000#32)) rfl
      ((rst_go s.start .host _ _ hr (.inr (.inl rfl))).trans (if_pos h))
  · exact runs (f := fun t => t.regWrite .host 0x10034 v) rfl
      ((rst_go s.start .host _ _ hr (.inr (.inr rfl))).trans (wdgKick_none (u := s.start) v h))
  · exact runs (f := fun t => t.crystalRuns) rfl rfl
  · exact ⟨_, runs (f := fun t => t.acRefresh) rfl rfl, ac_eq s.start⟩

end Sys2Proof.Proofs.Trims



/-!
Resets of one bay, one block and one bent (R466, R470–R472).
-/
namespace Sys2Proof.Proofs.Narrow
open Sys2Proof Sys2Proof.Machine Running Laws.Pulses

/-- An exit other than that of the reset episode. -/
theorem exit_narrow (s : State) {n : Nat} (hn : n < 17) {t : State} (h : s.start.exitOf n = t) :
    exec (.exitSequenceDone n) s = .next (s.finish t) :=
  runs (f := fun t => if n = 17 ∧ 4 ≤ t.rst.reach then (t.exitOf n).bootBegins else t.exitOf n) rfl
    ((if_neg fun c => by omega).trans h)

/-! ## A pulse on one bay -/

theorem dropRest_keeps {u v : State} (h : DropRest u v) :
    v.rst = u.rst ∧ v.ddr = u.ddr ∧ v.regs = u.regs ∧ v.mx = u.mx ∧ v.hb = u.hb := by
  obtain ⟨B, S, Q, R, P, X, rfl⟩ := h
  exact ⟨rfl, rfl, rfl, rfl, rfl⟩

/-- What a re-raise notes of a bay changes nothing that a pulse looks at. -/
theorem disturb_same (u : State) (b : Nat) : (∀ k, (u.disturb b).bay k = u.bay k) ∧ (u.disturb b).rst = u.rst ∧
    (u.disturb b).ddr = u.ddr ∧ (u.disturb b).regs = u.regs ∧ (u.disturb b).mx = u.mx ∧ (u.disturb b).hb = u.hb ∧
    (Quiet u b → Quiet (u.disturb b) b) := by
  obtain ⟨R, e⟩ := disturb_rest u b
  rw [e]
  exact ⟨fun _ => rfl, rfl, rfl, rfl, rfl, rfl, fun h => h⟩

theorem dropBay_kept (u : State) {b : Nat} (hb : b ≠ 256) (h : Quiet u b) :
    (∀ k, k ≠ b → ((u.disturb b).dropBay b).bay k = u.bay k) ∧
    (((u.disturb b).dropBay b).bay b).scratch = (u.bay b).scratch ∧
    (((u.disturb b).dropBay b).bay b).istore = (u.bay b).istore ∧ ((u.disturb b).dropBay b).rst = u.rst ∧
    ((u.disturb b).dropBay b).ddr = u.ddr ∧ ((u.disturb b).dropBay b).regs = u.regs ∧
    ((u.disturb b).dropBay b).mx = u.mx ∧ ((u.disturb b).dropBay b).hb = u.hb := by
  obtain ⟨dbay, drst, dddr, dregs, dmx, dhb, quiet⟩ := disturb_same u b
  obtain ⟨rest, other, -, -, -, -, scratch, istore⟩ := dropBay_quiet (u.disturb b) b hb (quiet h)
  obtain ⟨rst, ddr, regs, mx, hb⟩ := dropRest_keeps rest
  exact ⟨fun k hk => (other k hk).trans (dbay k), scratch.trans (congrArg Bay.scratch (dbay b)),
    istore.trans (congrArg Bay.istore (dbay b)), rst.trans drst, ddr.trans dddr, regs.trans dregs, mx.trans dmx, hb.trans dhb⟩

theorem rstBay_pulse (u : State) (v : Word) {b : Nat} (hb : b = fld v 0 8) (h1 : u.rst.pulse = none)
    (h2 : u.bentHere (b / 16) = true) (h3 : u.on (b / 16) = true) :
    ∃ t, u.rstBay (v ||| 0x80000000#32) = t ∧ (t.bay b).state = 0 ∧ (t.bay b).gp = [] ∧ (t.bay b).pipe.flights = [] ∧
      (t.bay b).guards = [] ∧ t.rst.pulse = some { block := false, target := b } ∧
      (u.tasksOn b = [] → (u.bay b).qio.sendq = [] → (u.bay b).qio.landing = [] → (u.bay b).qio.cur = none →
        (∀ k, k ≠ b → t.bay k = u.bay k) ∧ (t.bay b).scratch = (u.bay b).scratch ∧ (t.bay b).istore = (u.bay b).istore ∧
        t.rst = { u.rst with pulse := some { block := false, target := b } } ∧
        t.ddr = u.ddr ∧ t.regs = u.regs ∧ t.mx = u.mx ∧ t.hb = u.hb) := by
  have small : b ≠ 256 := by
    have : fld v 0 8 < 256 := Nat.mod_lt _ (by decide)
    omega
  obtain ⟨state, gp, flights, guards⟩ := dropBay_any (u.disturb b) b small
  have kept := dropBay_kept u small
  have e := pulse_bay u v b hb h1 h2 h3
  generalize (u.disturb b).dropBay b = w at *
  refine ⟨_, e, state, gp, flights, guards, rfl, fun q1 q2 q3 q4 => ?_⟩
  obtain ⟨other, scratch, istore, rst, ddr, regs, mx, hb⟩ := kept ⟨q1, q2, q3, q4⟩
  exact ⟨other, scratch, istore, by rw [rst], ddr, regs, mx, hb⟩

/-! ## The end of a pulse -/

theorem isBlock {p : Pulse} (hb : p.block = true) : ¬ (!p.block) = true := by rw [hb]; decide

section
variable {u : State} {p : Pulse} (h : u.rst.pulse = some p) (hd : p.drained = true)
include h hd

theorem pulseDone_go : u.pulseDone = if !p.block then ({ u with rst := { u.rst with pulse := none } } : State).bayRelease p.target
    else if p.target < 8 then
      match (u.chan p.target).release with
      | some st => ({ u with rst := { u.rst with pulse := none } } : State).setChan p.target
        { u.chan p.target with state := st, release := none }
      | none => { u with rst := { u.rst with pulse := none } }
    else if 16 ≤ p.target then { u with
      rst := { u.rst with pulse := none },
      regs := { u.regs with shadow := tclear u.regs.shadow (ethBase (p.target - 16)) 0x2000 } }
    else { u with rst := { u.rst with pulse := none } } := by
  unfold State.pulseDone
  rw [h]
  exact if_neg (by rw [hd]; decide)

theorem pulseDone_bay (hb : p.block = false) : ∃ t, u.pulseDone = t ∧ t.rst = { u.rst with pulse := none } ∧
    (∀ k, k ≠ p.target → t.bay k = u.bay k) ∧
    t.bay p.target = (if u.rst.fatal = false ∧ u.on (p.target / 16) = true ∧ u.bentHeld (p.target / 16) = false ∧
      (u.bay p.target).retired = false then { u.bay p.target with id := p.target, state := 1 } else u.bay p.target) ∧
    t.regs = u.regs ∧ t.ddr = u.ddr ∧ t.scf = u.scf := by
  have e := (pulseDone_go h hd).trans (if_pos (by rw [hb]; rfl))
  rw [release_bay] at e
  have cond : ((!u.rst.fatal && u.on (p.target / 16) && !u.bentHeld (p.target / 16)) = true ∧ (u.bay p.target).retired = false) ↔
      (u.rst.fatal = false ∧ u.on (p.target / 16) = true ∧ u.bentHeld (p.target / 16) = false ∧
        (u.bay p.target).retired = false) := by
    simp only [Bool.and_eq_true, Bool.not_eq_true', and_assoc]
  by_cases c : u.rst.fatal = false ∧ u.on (p.target / 16) = true ∧ u.bentHeld (p.target / 16) = false ∧
      (u.bay p.target).retired = false
  · refine ⟨_, e.trans (if_pos (cond.2 c)), rfl, fun k hk => State.bay_setBay_ne _ _ hk, ?_, rfl, rfl, rfl⟩
    rw [if_pos c]
    exact State.bay_setBay _ _ _
  · refine ⟨_, e.trans (if_neg fun k => c (cond.1 k)), rfl, fun _ _ => rfl, ?_, rfl, rfl, rfl⟩
    rw [if_neg c]
    rfl

section
variable (hb : p.block = true)
include hb

theorem pulseDone_chan (ht : p.target < 8) : ∃ t, u.pulseDone = t ∧ t.rst = { u.rst with pulse := none } ∧ t.bays = u.bays ∧
    (∀ st, (u.chan p.target).release = some st → t.chan p.target = { u.chan p.target with state := st, release := none }) ∧
    ((u.chan p.target).release = none → t.ddr = u.ddr) ∧ t.regs = u.regs ∧ t.scf = u.scf := by
  have e := ((pulseDone_go h hd).trans (if_neg (isBlock hb))).trans (if_pos ht)
  cases hr : (u.chan p.target).release with
  | some st =>
    rw [hr] at e
    refine ⟨_, e, rfl, rfl, fun st' hs => ?_, fun c => absurd c (Option.some_ne_none _), rfl, rfl⟩
    rw [← Option.some.inj hs]
    exact State.chan_setChan _ _ _
  | none =>
    rw [hr] at e
    exact ⟨_, e, rfl, rfl, fun st' hs => absurd hs.symm (Option.some_ne_none _), fun _ => rfl, rfl, rfl⟩

theorem pulseDone_port (h8 : 8 ≤ p.target) (h16 : p.target < 16) : u.pulseDone = { u with rst := { u.rst with pulse := none } } :=
  (((pulseDone_go h hd).trans (if_neg (isBlock hb))).trans (if_neg (by omega))).trans (if_neg (by omega))

theorem pulseDone_mac (h16 : 16 ≤ p.target) : u.pulseDone = { u with
    rst := { u.rst with pulse := none },
    regs := { u.regs with shadow := tclear u.regs.shadow (ethBase (p.target - 16)) 0x2000 } } :=
  (((pulseDone_go h hd).trans (if_neg (isBlock hb))).trans (if_neg (by omega))).trans (if_pos h16)

end

end

theorem pulseDone_stays {u : State} (h : u.rst.pulse = none ∨ ∃ p, u.rst.pulse = some p ∧ p.drained = false) :
    u.pulseDone = u := by
  unfold State.pulseDone
  rcases h with h | ⟨p, h, hd⟩
  · rw [h]
  · rw [h]
    exact if_pos (by rw [hd]; rfl)

/-! ## HOLD of a bent -/

/-- What a bent's bays hold when its reset loses nothing. -/
def BentQuiet (u : State) (n : Nat) : Prop := ∀ b, b / 16 = n → Quiet u b

theorem bentReset_quiet {u : State} {n : Nat} (hn : n < 16) (h : BentQuiet u n) :
    DropRest u (u.bentReset n false) ∧ (∀ b, b / 16 ≠ n → (u.bentReset n false).bay b = u.bay b) ∧
      ∀ b, b / 16 = n → BayCleared (u.bay b) ((u.bentReset n false).bay b) := by
  obtain ⟨rest, other, own⟩ := drop_all (bentBays n) u (bents_nodup n) fun b hb => by
    have bent := (mem_bents n b).1 hb
    exact ⟨by omega, h b bent⟩
  exact ⟨rest, fun b hb => other b fun c => hb ((mem_bents n b).1 c), fun b hb => own b ((mem_bents n b).2 hb)⟩

theorem reg_withRst (u : State) (r : Rst) (a : Nat) : ({ u with rst := r } : State).reg a = u.reg a := rfl

section
variable {u : State} {v : Word} {n : Nat} (hn : n < 16) (h1 : u.bentHere n = true) (h2 : u.dom n = 1 ∨ u.dom n = 2)
  (hv : ∀ m, m < 16 → m ≠ n → bitAt v m = bitAt (u.reg 0x10014) m)
include hn h1 h2 hv

theorem rstBent_holds (h3 : bitAt v n = true) (h4 : bitAt (u.reg 0x10014) n = false) (hq : BentQuiet u n) :
    ∃ t, u.rstBent v = t ∧ t.reg 0x10014 = putBit (u.reg 0x10014) n true ∧ t.dom n = 1 ∧
      (u.dom n = 2 → t.reg 0x10044 = putBit (u.reg 0x10044) n false) ∧
      (∀ a, a ≠ 0x10014 → a ≠ 0x10044 ∨ u.dom n = 1 → t.reg a = u.reg a) ∧
      (∀ b, b / 16 = n → (t.bay b).state = 0 ∧ (t.bay b).gp = [] ∧ (t.bay b).scratch = (u.bay b).scratch ∧
        (t.bay b).istore = (u.bay b).istore) ∧
      (∀ b, b / 16 ≠ n → t.bay b = u.bay b) ∧ t.ddr = u.ddr ∧ t.hb = u.hb ∧ t.mx = u.mx := by
  obtain ⟨w, ⟨R, W, hw⟩, hold, held, on, woken, others⟩ := hold_set u v n h1 h2 h3 h4
  obtain ⟨rest, other, own⟩ := bentReset_quiet (u := w) hn (by rw [hw]; exact hq)
  obtain ⟨rst, ddr, regs, mx, hb⟩ := dropRest_keeps rest
  have reg : ∀ a, (w.bentReset n false).reg a = w.reg a := fun a => by unfold State.reg; rw [regs]
  have bay : ∀ b, w.bay b = u.bay b := fun b => by rw [hw]; rfl
  have e := rst_bent u v n hn hv fun m hm hne => by
    rw [hold, reg, held, bit_other _ _ hn hm hne]
    exact hv m hm hne
  refine ⟨_, e.trans hold, (reg _).trans held, ?_, fun h => (reg _).trans (woken h), fun a ha ho => (reg a).trans (others a ha ho),
    fun b hb => ?_, fun b hb => (other b hb).trans (bay b), ?_, ?_, ?_⟩
  · unfold State.dom; rw [rst]; exact on
  · obtain ⟨state, gp, -, -, scratch, istore⟩ := own b hb
    exact ⟨state, gp, scratch.trans (congrArg Bay.scratch (bay b)), istore.trans (congrArg Bay.istore (bay b))⟩
  · rw [ddr, hw]
  · rw [hb, hw]
  · rw [mx, hw]

theorem rstBent_releases (h3 : bitAt v n = false) (h4 : bitAt (u.reg 0x10014) n = true) :
    u.rstBent v = { u.setReg 0x10014 (putBit (u.reg 0x10014) n false) with rst :=
      { u.rst with bentExit := u.rst.bentExit ++ [n] } } := by
  have hold := hold_clear u v n h1 h2 h3 h4
  refine (rst_bent u v n hn hv fun m hm hne => ?_).trans hold
  rw [hold, reg_withRst, State.reg_setReg, bit_other _ _ hn hm hne]
  exact hv m hm hne

end

theorem bentDone_none {u : State} {n : Nat} (h : u.rst.bentExit.contains n = false) : u.bentDone n = u :=
  if_neg (Bool.eq_false_iff.1 h)

/-- Once no exit of a bent is under way, HOLD and the raise alone hold it. -/
theorem released_iff (u : State) (n : Nat) (h : u.rst.bentExit.contains n = false) :
    (!u.rst.fatal && u.on n && !u.bentHeld n) = true ↔ u.rst.fatal = false ∧ u.dom n = 1 ∧
      bitAt (u.reg 0x10014) n = false ∧ u.rst.raiseHold / 2 ^ n % 2 ≠ 1 := by
  unfold State.bentHeld State.on
  rw [h]
  simp only [Bool.and_eq_true, Bool.not_eq_true', decide_eq_true_eq, Bool.or_false, Bool.or_eq_false_iff,
    decide_eq_false_iff_not, and_assoc]

theorem bentDone_releases {u : State} {n : Nat} (h : u.rst.bentExit.contains n = true) :
    ∃ t, u.bentDone n = t ∧ t.rst = { u.rst with bentExit := u.rst.bentExit.filter fun k => decide (k ≠ n) } ∧
      (∀ b, t.bay b = if b / 16 = n ∧ (u.rst.fatal = false ∧ u.dom n = 1 ∧ bitAt (u.reg 0x10014) n = false ∧
        u.rst.raiseHold / 2 ^ n % 2 ≠ 1) ∧ (u.bay b).retired = false then { u.bay b with id := b, state := 1 } else u.bay b) ∧
      t.regs = u.regs ∧ t.ddr = u.ddr := by
  have gone : (u.rst.bentExit.filter fun k => decide (k ≠ n)).contains n = false := by simp
  obtain ⟨⟨B, e⟩, bays⟩ := release_on n _ (bentBays n)
    { u with rst := { u.rst with bentExit := u.rst.bentExit.filter fun k => decide (k ≠ n) } } (bents_nodup n)
    (fun b hb => (mem_bents n b).1 hb) rfl
  refine ⟨_, if_pos h, by rw [e], fun b => (bays b).trans (if_congr ?_ rfl rfl), by rw [e], by rw [e]⟩
  rw [mem_bents, released_iff _ n gone]
  rfl

/-! ## The statement -/

/-- Settles O50. -/
theorem narrowResets : Obligations.NarrowResets := by
  refine ⟨fun s => ⟨fun v b hr hb => ⟨fun h1 h2 h3 => ?_, fun h => ?_⟩, fun v k hr hk => ⟨fun h1 h2 => ?_, fun h => ?_⟩,
    fun p hp hd => ⟨fun h => ?_, fun h h8 => ?_, fun h h8 h16 => ?_, fun h h16 => ?_⟩, fun h => ?_⟩,
    fun s n hn => ⟨fun h1 h2 hr v hv => ⟨fun h3 h4 hq => ?_, fun h3 h4 => ?_⟩, fun v hr h => ?_, fun h => ?_, fun h => ?_⟩⟩
  · exact (rstBay_pulse s.start v hb h1 h2 h3).imp fun t k => ⟨runs
      (f := fun t => t.regWrite .host 0x10018 (v ||| 0x80000000#32)) rfl
      ((rst_go s.start .host _ _ hr (.inr (.inl rfl))).trans k.1), k.2⟩
  · exact runs (f := fun t => t.regWrite .host 0x10018 (v ||| 0x80000000#32)) rfl
      ((rst_go s.start .host _ _ hr (.inr (.inl rfl))).trans (pulse_skip_bay s.start v b hb h))
  · exact (pulse_block s.start v k hk h1 h2).imp fun t c => ⟨runs
      (f := fun t => t.regWrite .host 0x1001C (v ||| 0x80000000#32)) rfl
      ((rst_go s.start .host _ _ hr (.inr (.inr rfl))).trans c.1), c.2⟩
  · exact runs (f := fun t => t.regWrite .host 0x1001C (v ||| 0x80000000#32)) rfl
      ((rst_go s.start .host _ _ hr (.inr (.inr rfl))).trans (pulse_skip_block s.start v k hk h))
  · exact (pulseDone_bay (u := s.start) hp hd h).imp fun t c => ⟨exit_narrow s (by decide) c.1, c.2⟩
  · exact (pulseDone_chan (u := s.start) hp hd h h8).imp fun t c => ⟨exit_narrow s (by decide) c.1, c.2⟩
  · exact exit_narrow s (by decide) (pulseDone_port (u := s.start) hp hd h h8 h16)
  · exact exit_narrow s (by decide) (pulseDone_mac (u := s.start) hp hd h h16)
  · exact exit_narrow s (by decide) (pulseDone_stays (u := s.start) h)
  · exact (rstBent_holds (u := s.start) hn h1 h2 hv h3 h4 hq).imp fun t c => ⟨runs
      (f := fun t => t.regWrite .host 0x10014 v) rfl ((rst_go s.start .host _ _ hr (.inl rfl)).trans c.1), c.2⟩
  · exact runs (f := fun t => t.regWrite .host 0x10014 v) rfl
      ((rst_go s.start .host _ _ hr (.inl rfl)).trans (rstBent_releases (u := s.start) hn h1 h2 hv h3 h4))
  · exact runs (f := fun t => t.regWrite .host 0x10014 v) rfl
      ((rst_go s.start .host _ _ hr (.inl rfl)).trans (hold_skip s.start v h))
  · exact (bentDone_releases (u := s.start) h).imp fun t c => ⟨exit_narrow s (by omega) ((if_pos hn).trans c.1), c.2⟩
  · exact exit_narrow s (by omega) ((if_pos hn).trans (bentDone_none (u := s.start) h))

end Sys2Proof.Proofs.Narrow



/-!
The power domains are switched, refused, and complete (R324, R480–R482).
-/
namespace Sys2Proof.Proofs.Power
open Sys2Proof Sys2Proof.Machine Running Laws.Power

/-! ## Writes of PWR_CTL and PWR_RET -/

theorem pwrWrite_powers (u : State) (ctl ret m : Word) (al : Bool) :
    u.powers ctl ret m al (u.pwrWrite ctl ret (fld m 0 16) al) := by
  intro ch hch
  have changed : ∀ d, d ∈ ch ↔ d ∈ swDoms ∧ domTarget ctl ret d ≠ domTarget (u.reg 0x10040) (u.reg 0x10044) d := fun d => by
    rw [hch, List.mem_filter, decide_eq_true_eq]
  refine ⟨fun h => write_refused u ctl ret m al ?_, fun hm => ⟨fun hne hs => ?_, fun hne hs h3 hq => ?_⟩⟩
  · rcases h with absent | ⟨shored, h⟩ | ⟨d, hd, h⟩
    · exact .inl absent
    · rcases h with some | always
      · obtain ⟨d, hd⟩ := List.exists_mem_of_ne_nil ch some
        exact .inr (.inr ⟨d, ((changed d).1 hd).1, .inr (.inr shored), ((changed d).1 hd).2⟩)
      · exact .inr (.inl ⟨shored, always⟩)
    · exact .inr (.inr ⟨d, ((changed d).1 hd).1, h.imp_right .inl, ((changed d).1 hd).2⟩)
  · refine write_none u ctl ret m al (fun d hd => ?_) hs hm
    by_contra c
    have := (changed d).2 ⟨hd, c⟩
    rw [hne] at this
    exact absurd this (List.not_mem_nil)
  · obtain ⟨t, e, r1, r2, rest, writes, dom, goal, other, own⟩ := write_many u ctl ret m al ch hch hne hs h3 hm hq
    rw [e]
    exact ⟨r1, r2, rest, writes, dom, goal, other, own⟩

/-! ## The end of a transition -/

/-- A domain at its goal, before what comes on with it and the writes that it completes. -/
def atGoal (s : State) (d g : Nat) : State :=
  { s.setDom d g with rst := { (s.setDom d g).rst with goal := tsetD 0 (s.setDom d g).rst.goal d 0 } }

theorem dom_atGoal (s : State) (d g : Nat) : (atGoal s d g).dom d = g := tgetD_tsetD_same 0 s.rst.dom d g

theorem dom_atGoal_ne (s : State) {d k : Nat} (g : Nat) (h : k ≠ d) : (atGoal s d g).dom k = s.dom k :=
  tgetD_tsetD_ne 0 s.rst.dom g h

theorem domDone_go {s : State} {d : Nat} (h : s.dom d = 3) : s.domDone d =
    (if tgetD 0 s.rst.goal d = 1 then (atGoal s d (tgetD 0 s.rst.goal d)).domOn d
      else atGoal s d (tgetD 0 s.rst.goal d)).writesDone d := if_neg (not_not.2 h)

/-- The writes that a domain completes are its own, and are done. -/
theorem writesDone_facts (w : State) (d : Nat) {ws : List (List Nat)}
    (hw : ws = w.rst.writes.map fun l => l.filter fun k => decide (k ≠ d)) :
    (∀ k, (w.writesDone d).dom k = w.dom k) ∧ (w.writesDone d).rst.writes = (ws.filter fun l => !l.isEmpty) ∧
    (w.writesDone d).sq 0x10050 = (ws.filter List.isEmpty).foldl (fun q _ => q.event 0) (w.sq 0x10050) ∧
    (w.writesDone d).rst.unlocked = w.rst.unlocked ∧ (w.writesDone d).bays = w.bays ∧ (w.writesDone d).ddr = w.ddr ∧
    (w.writesDone d).scf = w.scf ∧ (w.writesDone d).regs.words = w.regs.words := by
  obtain ⟨q, e, sq⟩ := writes_eq w d
  rw [← hw] at e sq
  rw [e] at sq ⊢
  exact ⟨fun _ => rfl, rfl, sq, rfl, rfl, rfl, rfl, rfl⟩

section
variable {s : State} {d g : Nat} {ws : List (List Nat)} (hg : g = tgetD 0 s.rst.goal d)
  (hw : ws = s.rst.writes.map fun l => l.filter fun k => decide (k ≠ d)) (h : s.dom d = 3)
include hg hw h

theorem domDone_off (hn : g ≠ 1) : ∃ t, s.domDone d = t ∧ t.dom d = g ∧ (∀ k, k ≠ d → t.dom k = s.dom k) ∧
    t.rst.writes = (ws.filter fun l => !l.isEmpty) ∧
    t.sq 0x10050 = (ws.filter List.isEmpty).foldl (fun q _ => q.event 0) (s.sq 0x10050) ∧
    t.bays = s.bays ∧ t.ddr = s.ddr ∧ t.scf = s.scf ∧ t.regs.words = s.regs.words := by
  have e := domDone_go h
  rw [← hg, if_neg hn] at e
  obtain ⟨dom, writes, sq, -, bays, ddr, scf, words⟩ := writesDone_facts (atGoal s d g) d hw
  exact ⟨_, e, (dom d).trans (dom_atGoal s d g), fun k hk => (dom k).trans (dom_atGoal_ne s g hk), writes, sq, bays, ddr, scf,
    words⟩

theorem domDone_on (hn : g = 1) : ∃ t, s.domDone d = t ∧ t.dom d = g ∧ (∀ k, k ≠ d → t.dom k = s.dom k) ∧
    t.rst.writes = (ws.filter fun l => !l.isEmpty) ∧
    t.sq 0x10050 = (ws.filter List.isEmpty).foldl (fun q _ => q.event 0) (s.sq 0x10050) ∧
    (16 ≤ d → t.bays = s.bays) ∧
    (d < 16 → (∀ b, t.bay b = if b / 16 = d ∧ (s.rst.fatal = false ∧ s.bentHeld d = false) ∧ (s.bay b).retired = false
        then { s.bay b with id := b, state := 1 } else s.bay b) ∧
      t.rst.unlocked = s.rst.unlocked.filter fun k => decide (k ≠ 16 + d)) ∧
    (d = 19 → t.scf = {}) ∧
    (d = 17 ∨ d = 18 → t.rst.unlocked = (s.rst.unlocked.filter fun k => decide (k ≠ d - 15)) ∧
      ∀ c, c < 8 → chanDom c = d → s.hw.chanHere c = true →
      ((s.chan c).state = 4 → (s.chan c).vddqLost = false → (t.chan c).state = 4 ∧ (t.chan c).mem = (s.chan c).mem) ∧
      ((s.chan c).state ≠ 4 ∨ (s.chan c).vddqLost = true → (t.chan c).state = 0)) := by
  have e := domDone_go h
  rw [← hg, if_pos hn] at e
  obtain ⟨ondom, onwrites, onsq, bent, onbays, scarf, mem⟩ := dom_on (atGoal s d g) d ((dom_atGoal s d g).trans hn)
  obtain ⟨dom, writes, sq, unlocked, bays, ddr, scf, -⟩ := writesDone_facts ((atGoal s d g).domOn d) d
    (ws := ws) (by rw [onwrites]; exact hw)
  have doms : ∀ k, ((atGoal s d g).domOn d).dom k = (atGoal s d g).dom k := fun k => by unfold State.dom; rw [ondom]
  have bay : ∀ b, (((atGoal s d g).domOn d).writesDone d).bay b = ((atGoal s d g).domOn d).bay b := fun b => by
    unfold State.bay; rw [bays]
  have chan : ∀ c, (((atGoal s d g).domOn d).writesDone d).chan c = ((atGoal s d g).domOn d).chan c := fun c => by
    unfold State.chan; rw [ddr]
  refine ⟨_, e, (dom d).trans ((doms d).trans (dom_atGoal s d g)), fun k hk => (dom k).trans ((doms k).trans
    (dom_atGoal_ne s g hk)), writes, sq.trans (by rw [onsq]; rfl), fun hd => bays.trans (onbays hd), fun hd => ?_,
    fun hd => scf.trans (scarf hd), fun hd => ?_⟩
  · obtain ⟨own, locks⟩ := bent hd
    exact ⟨fun b => (bay b).trans (own b), unlocked.trans locks⟩
  · obtain ⟨locks, chans⟩ := mem hd
    refine ⟨unlocked.trans locks, fun c hc hd' here => ?_⟩
    rw [chan c]
    exact chans c hc hd' here

end

/-- Settles O51. -/
theorem powerSwitching : Obligations.PowerSwitching := by
  refine ⟨fun s v ctl ret => ⟨fun hr hc => ?_, fun hr hc => ?_⟩, fun s d g ws hg hw => ⟨fun h => ?_, fun h => ?_⟩⟩
  · subst hc
    exact ⟨_, runs (f := fun t => t.regWrite .host 0x10040 v) rfl (pwr_go s.start _ v hr (.inl rfl)),
      pwrWrite_powers s.start _ _ _ true⟩
  · subst hc
    exact ⟨_, runs (f := fun t => t.regWrite .host 0x10044 v) rfl (pwr_go s.start _ v hr (.inr rfl)),
      pwrWrite_powers s.start _ _ _ false⟩
  · by_cases on : g = 1
    · obtain ⟨t, e, dom, doms, writes, sq, bays, bent, scarf, mem⟩ := domDone_on (s := s.start) hg hw h on
      exact ⟨t, runs (f := fun t => t.domDone d) rfl e, dom, doms, writes, sq, fun c => bays (c.resolve_right (not_not.2 on)),
        fun c => absurd on c, fun _ => ⟨bent, scarf, mem⟩⟩
    · obtain ⟨t, e, dom, doms, writes, sq, bays, ddr, scf, words⟩ := domDone_off (s := s.start) hg hw h on
      exact ⟨t, runs (f := fun t => t.domDone d) rfl e, dom, doms, writes, sq, fun _ => bays, fun _ => ⟨ddr, scf, words⟩,
        fun c => absurd c on⟩
  · exact runs (f := fun t => t.domDone d) rfl (if_pos h)

end Sys2Proof.Proofs.Power


/-!
Loss of PLL lock and thermal samples (R483–R487).
-/
namespace Sys2Proof.Proofs.Heat
open Sys2Proof Sys2Proof.Machine Running Laws.Power Laws.Resets

theorem pllLoss_idle {u : State} {k : Nat} (h : u.rst.unlocked.contains k = true ∨ (6 ≤ k ∧ k < 16) ∨ 32 ≤ k) :
    u.pllLoss k = u := by
  refine if_pos ?_
  simp only [Bool.or_eq_true, Bool.and_eq_true, decide_eq_true_eq]
  tauto

section
variable {u : State} {r : Nat → Int}

/-- A sample raises the alarm where a sensor crosses the threshold. -/
theorem any_alarm : ((List.range 24).any fun i => u.alarms i (r i)) = true ↔
    ∃ i, i < 24 ∧ Int.ofNat (fld (u.reg 0x10070) 16 8) ≤ r i ∧ u.rst.alarmed.contains i = false := by
  simp only [List.any_eq_true, List.mem_range, State.alarms, Bool.and_eq_true, decide_eq_true_eq, Bool.not_eq_true']
  rfl

/-- The alarm is an event of RST_STAT and changes nothing else. -/
theorem alarm_keeps {s : State} (c : Bool) (h : s = if c then u.event 0x100B0 0 else u) :
    s.rst = u.rst ∧ s.bays = u.bays ∧ s.ddr = u.ddr ∧ s.out = u.out ∧ s.regs.words = u.regs.words ∧
      (∀ a, a ≠ 0x100B0 → s.sq a = u.sq a) ∧ (c = true → s.sq 0x100B0 = (u.sq 0x100B0).event 0) ∧
      (c = false → s.sq 0x100B0 = u.sq 0x100B0) := by
  subst h
  cases c with
  | true =>
    exact ⟨rfl, rfl, rfl, rfl, rfl, fun a ha => State.sq_setSq_ne _ _ ha, fun _ => State.sq_setSq _ _ _,
      fun c => absurd c (by decide)⟩
  | false => exact ⟨rfl, rfl, rfl, rfl, rfl, fun _ _ => rfl, fun c => absurd c (by decide), fun _ => rfl⟩

/-- A sensor trips where it reads the trip temperature twice in a row. -/
theorem any_trip : (((List.range 24).filter fun i => decide (135 ≤ r i)).any fun i => u.rst.hot.contains i) = true ↔
    ∃ i, i < 24 ∧ 135 ≤ r i ∧ u.rst.hot.contains i = true := by
  simp only [List.any_eq_true, List.mem_filter, List.mem_range, decide_eq_true_eq, and_assoc]

/-- THERM may let go once every sensor reads 115 °C or below. -/
theorem mayRelease_therm (h : ∀ i, i < 24 → tgetD none u.rst.temp i = some (r i)) :
    u.mayRelease 3 = true ↔ ∀ i, i < 24 → r i ≤ 115 := by
  have e : u.mayRelease 3 = _ := (if_neg (by decide)).trans (if_pos rfl)
  rw [e, List.all_eq_true]
  refine ⟨fun c i hi => ?_, fun c i hi => ?_⟩
  · have := c i (List.mem_range.2 hi)
    rw [h i hi] at this
    exact of_decide_eq_true this
  · rw [h i (List.mem_range.1 hi)]
    exact decide_eq_true (c i (List.mem_range.1 hi))

/-- THERM lets go of the reset after a sample that is cool enough. -/
theorem therm_release {v : State} (h : ∀ i, i < 24 → tgetD none v.rst.temp i = some (r i)) :
    ∃ a, (if v.rst.asserted / 8 % 2 = 1 then v.releaseReset 3 else v) = { v with rst := { v.rst with asserted := a } } ∧
      ((∀ i, i < 24 → r i ≤ 115) → v.rst.asserted / 8 % 2 = 1 → a = v.rst.asserted - 8) ∧
      ((∃ i, i < 24 ∧ 115 < r i) ∨ v.rst.asserted / 8 % 2 = 0 → a = v.rst.asserted) := by
  by_cases on : v.rst.asserted / 8 % 2 = 1
  · rw [if_pos on]
    by_cases cool : ∀ i, i < 24 → r i ≤ 115
    · refine ⟨_, if_pos ⟨on, (mayRelease_therm h).2 cool⟩, fun _ _ => rfl, fun c => ?_⟩
      rcases c with ⟨i, hi, hot⟩ | c
      · have := cool i hi
        omega
      · omega
    · exact ⟨v.rst.asserted, if_neg fun c => cool ((mayRelease_therm h).1 c.2), fun c => absurd c cool, fun _ => rfl⟩
  · rw [if_neg on]
    exact ⟨v.rst.asserted, rfl, fun _ c => absurd c on, fun _ => rfl⟩

section
variable {temps : List Int} (hr : ∀ i, r i = if i = 23 ∨ u.dom i = 1 then temps.getD i 0 else -128)
include hr

theorem thermalSample_cool (h : ∀ i, i < 24 → 135 ≤ r i → u.rst.hot.contains i = false) :
    ∃ t, u.thermalSample temps = t ∧ (∀ i, i < 24 → tgetD none t.rst.temp i = some (r i)) ∧
      t.rst.hot = ((List.range 24).filter fun i => decide (135 ≤ r i)) ∧
      t.rst.alarmed = ((List.range 24).filter fun i => decide (Int.ofNat (fld (u.reg 0x10070) 16 8) ≤ r i)) ∧
      ((∃ i, i < 24 ∧ Int.ofNat (fld (u.reg 0x10070) 16 8) ≤ r i ∧ u.rst.alarmed.contains i = false) →
        t.sq 0x100B0 = (u.sq 0x100B0).event 0) ∧
      ((∀ i, i < 24 → Int.ofNat (fld (u.reg 0x10070) 16 8) ≤ r i → u.rst.alarmed.contains i = true) →
        t.sq 0x100B0 = u.sq 0x100B0) ∧
      (∀ a, a ≠ 0x100B0 → t.sq a = u.sq a) ∧ t.regs.words = u.regs.words ∧ t.bays = u.bays ∧ t.ddr = u.ddr ∧ t.out = u.out ∧
      t.rst.reach = u.rst.reach ∧ t.rst.src = u.rst.src ∧
      ((∀ i, i < 24 → r i ≤ 115) → u.rst.asserted / 8 % 2 = 1 → t.rst.asserted = u.rst.asserted - 8) ∧
      ((∃ i, i < 24 ∧ 115 < r i) ∨ u.rst.asserted / 8 % 2 = 0 → t.rst.asserted = u.rst.asserted) := by
  obtain ⟨s1, s2, h1, hot, alarmed, temp, ⟨bays, ddr, regs, reach, asserted, out, src⟩, e⟩ := sample_eq u temps r hr
  have calm : ¬ (((List.range 24).filter fun i => decide (135 ≤ r i)).any fun i => u.rst.hot.contains i) = true := fun c => by
    obtain ⟨i, hi, trip, again⟩ := any_trip.1 c
    rw [h i hi trip] at again
    exact absurd again (by decide)
  rw [if_neg calm] at e
  obtain ⟨a, released, lets, keeps⟩ := therm_release temp
  obtain ⟨rst1, bays1, ddr1, out1, words1, other, alarm, quiet⟩ := alarm_keeps _ h1
  have sq : ∀ a, s2.sq a = s1.sq a := fun a => by unfold State.sq; rw [regs]
  rw [asserted, rst1] at lets keeps
  refine ⟨_, e.trans released, temp, hot, alarmed, fun c => (sq _).trans (alarm (any_alarm.2 c)), fun c => (sq _).trans
    (quiet (Bool.eq_false_iff.2 fun k => ?_)), fun a ha => (sq a).trans (other a ha), (congrArg RegFile.words regs).trans words1,
    bays.trans bays1, ddr.trans ddr1, out.trans out1, reach.trans (by rw [rst1]), src.trans (by rw [rst1]), lets, keeps⟩
  obtain ⟨i, hi, crosses, first⟩ := any_alarm.1 k
  rw [c i hi crosses] at first
  exact absurd first (by decide)

theorem thermalSample_trips (h : ∃ i, i < 24 ∧ 135 ≤ r i ∧ u.rst.hot.contains i = true) :
    ∃ v t : State, u.thermalSample temps = t ∧ v.ddr = u.ddr ∧ v.rst.reach = u.rst.reach ∧
      v.rst.asserted = u.rst.asserted ∧ v.rst.src = u.rst.src ∧ (∀ i, i < 24 → tgetD none v.rst.temp i = some (r i)) ∧
      v.joins 3 5 t := by
  obtain ⟨s1, s2, h1, hot, alarmed, temp, ⟨bays, ddr, regs, reach, asserted, out, src⟩, e⟩ := sample_eq u temps r hr
  rw [if_pos (any_trip.2 h)] at e
  obtain ⟨rst1, -, ddr1, -⟩ := alarm_keeps _ h1
  exact ⟨s2, _, e, ddr.trans ddr1, reach.trans (by rw [rst1]), asserted.trans (by rw [rst1]), src.trans (by rw [rst1]), temp,
    assert_wide s2 3 5 rfl (by omega)⟩

end

end

/-- Settles O52. -/
theorem clocksAndHeat : Obligations.ClocksAndHeat := by
  refine fun s => ⟨fun k hk h => ?_, fun k h => ?_, fun temps r hr => ⟨fun h => ?_, fun h => ?_⟩⟩
  · exact ⟨_, runs (f := fun t => t.pllLoss k) rfl rfl, pll_once s.start k hk h⟩
  · exact runs (f := fun t => t.pllLoss k) rfl (pllLoss_idle (u := s.start) h)
  · exact (thermalSample_cool (u := s.start) hr h).imp fun t h => ⟨runs (f := fun t => t.thermalSample temps) rfl h.1, h.2⟩
  · obtain ⟨v, t, e, facts⟩ := thermalSample_trips (u := s.start) hr h
    exact ⟨v, t, runs (f := fun t => t.thermalSample temps) rfl e, facts⟩

end Sys2Proof.Proofs.Heat



/-! O53: posts at the ports of the security module, and its services STATUS, GETNONCE, AUTH and LOGOUT. -/

namespace Sys2Proof.Proofs.SecurityPorts
open Sys2Proof Sys2Proof.Machine Running Laws.Security Laws.SecurityData

section post
variable {u : State} {p : Bool} {v : Word} {x : Sec}
  (hx : x = u.sec.setPort p { u.sec.port p with
    post := { (u.sec.port p).post with cseq := fld v 0 8, busy := true } })

/-- A post changes nothing that the module looks at when it turns a request away. -/
theorem turnsAway_post (hx : x = u.sec.setPort p { u.sec.port p with
    post := { (u.sec.port p).post with cseq := fld v 0 8, busy := true } }) (w : List Bool) :
    ({ x with waits := w } : Sec).turnsAway p = u.sec.turnsAway p := by
  subst hx
  cases p <;> rfl

include hx

theorem post_waits (h1 : u.on 21 = true) (h2 : (u.sec.port p).post.busy = false) (h3 : u.sec.waits = [])
    (ht : u.sec.turnsAway p = none) : u.secPost p v = { u with sec := { x with waits := [p] } } := by
  rw [port_post u p v x hx h1 h2 h3, State.setSec, clear_one _ p rfl, turnsAway_post hx, ht]

theorem post_answered {st : Nat} (h1 : u.on 21 = true) (h2 : (u.sec.port p).post.busy = false) (h3 : u.sec.waits = [])
    (ht : u.sec.turnsAway p = some st) : ∃ y, u.secPost p v = { u with sec := y } ∧ x.replied y p st [] := by
  refine ⟨({ x with waits := [p] } : Sec).answer p st [], ?_, replied_waits (answer_replied _ p st [] rfl)⟩
  rw [port_post u p v x hx h1 h2 h3, State.setSec, clear_one _ p rfl, turnsAway_post hx, ht]

end post

theorem post_ignored {u : State} {p : Bool} (v : Word) (h : u.on 21 = false ∨ (u.sec.port p).post.busy = true) :
    u.secPost p v = u :=
  if_pos (by rcases h with h | h <;> simp [h])

theorem turnsAway_zeroing {x : Sec} {p : Bool} (h : x.zeroing = true) (h3 : (x.port p).op ≠ 3)
    (h24 : (x.port p).op ≠ 0x24) : x.turnsAway p = some 5 :=
  (if_pos h).trans (if_neg (by omega))

theorem turnsAway_selftest {x : Sec} {p : Bool} (hz : x.zeroing = false) (h : x.state = 0) : x.turnsAway p = none :=
  (turned x p hz).trans (if_pos h)

theorem turnsAway_ready {x : Sec} {p : Bool} (hz : x.zeroing = false) (h : x.state = 1) (ho : (x.port p).op ∈ secOps) :
    x.turnsAway p = none :=
  (turned x p hz).trans <| (if_neg (by omega)).trans <| (if_neg (by simp [ho])).trans (if_neg (by simp [h]))

theorem turnsAway_unknown {x : Sec} {p : Bool} (hz : x.zeroing = false) (h : x.state = 1) (ho : (x.port p).op ∉ secOps) :
    x.turnsAway p = some 1 :=
  (turned x p hz).trans <| (if_neg (by omega)).trans (if_pos (by simp [ho]))

theorem turnsAway_notReady {x : Sec} {p : Bool} (hz : x.zeroing = false) (h : 2 ≤ x.state)
    (ho : (x.port p).op ∈ secOps) (h1 : (x.port p).op ≠ 1) : x.turnsAway p = some 5 :=
  (turned x p hz).trans <| (if_neg (by omega)).trans <| (if_neg (by simp [ho])).trans (if_pos ⟨by omega, h1⟩)

section services
variable {u : State} {p : Bool}

theorem status_eq (h : u.serves p 1 0) : ∃ y, u.svcSecStatus p = { u with sec := y } ∧
    u.sec.replied y p 0 [u.sec.stat, wd u.sec.departs, u.sec.floor 0, u.sec.floor 1] := by
  have ⟨_, _, hw, _⟩ := h
  unfold State.svcSecStatus
  rw [serve_one u p 1 0 _ h]
  exact sec_end u u p 0 _ rfl hw

theorem nonce_eq (h : u.serves p 4 0) : ∃ y, u.svcNonce p = { u with sec := y } ∧
    (Sec.onPort { u.sec with drbg := u.sec.drbg + 1 } p fun z =>
      { z with nonce := some ((List.range 32).map (Config.drbgByte u.sec.drbg)) }).replied y p 0
        (wordsOf ((List.range 32).map (Config.drbgByte u.sec.drbg))) := by
  have ⟨_, _, hw, _⟩ := h
  unfold State.svcNonce
  rw [serve_one u p 4 0 _ h]
  exact end_one u _ p 0 _ ((onPort_waits _ p _).trans hw)

theorem auth_none {role slot : Nat} {sig : List Byte} (h : u.serves p 5 0)
    (hn : (u.sec.port p).nonce = none ∨ (role ≠ 1 ∧ role ≠ 2)) :
    ∃ y, u.svcAuth p role slot sig = { u with sec := y } ∧ u.sec.replied y p 2 [] := by
  have ⟨_, _, hw, _⟩ := h
  unfold State.svcAuth
  rw [serve_one u p 5 0 _ h]
  cases hc : (u.sec.port p).nonce with
  | none => exact sec_end u u p 2 _ rfl hw
  | some n =>
    dsimp only
    rw [if_pos (hn.resolve_left (by simp [hc]))]
    exact sec_end u u p 2 _ rfl hw

section nonce
variable {role slot : Nat} {sig n : List Byte} (h : u.serves p 5 0) (hn : (u.sec.port p).nonce = some n)
  (hr : role = 1 ∨ role = 2)
include h hn hr

theorem auth_fails (hf : (u.sec.slotHolds slot (if role = 2 then 4 else 5) &&
      Config.ecdsaOk (u.sec.slotKey slot) (n ++ [BitVec.ofNat 8 (nbit p), BitVec.ofNat 8 role]) sig) = false) :
    ∃ y, u.svcAuth p role slot sig = { u with sec := y } ∧ u.sec.replied y p 6 [] := by
  have ⟨_, _, hw, _⟩ := h
  unfold State.svcAuth
  rw [serve_one u p 5 0 _ h, hn]
  dsimp only
  rw [if_neg (by omega), if_neg (Bool.eq_false_iff.1 hf)]
  exact sec_end u u p 6 _ rfl hw

theorem auth_ok (hs : u.sec.slotHolds slot (if role = 2 then 4 else 5) = true)
    (hk : Config.ecdsaOk (u.sec.slotKey slot) (n ++ [BitVec.ofNat 8 (nbit p), BitVec.ofNat 8 role]) sig = true) :
    ∃ y, u.svcAuth p role slot sig = { u with sec := y } ∧
      (u.sec.onPort p fun z => { z with role := role }).replied y p 0 [] := by
  have ⟨_, _, hw, _⟩ := h
  unfold State.svcAuth
  rw [serve_one u p 5 0 _ h, hn]
  dsimp only
  rw [if_neg (by omega), hs, hk, if_pos (show (true && true) = true from rfl)]
  exact end_one u _ p 0 [] ((onPort_waits _ p _).trans hw)

end nonce

theorem dropHandles_waits (x : Sec) : (x.dropHandles p).waits = x.waits := rfl

theorem logout_eq (h : u.serves p 6 1) : ∃ y, u.svcLogout p = { u with sec := y } ∧
    ((u.sec.onPort p fun z => { z with role := 0 }).dropHandles p).replied y p 0 [] := by
  have ⟨_, _, hw, _⟩ := h
  unfold State.svcLogout
  rw [serve_one u p 6 1 _ h]
  exact end_one u _ p 0 [] ((dropHandles_waits _).trans ((onPort_waits _ p _).trans hw))

end services

/-- The outcome of a post, from what it does once the port's register is reached. -/
theorem post_runs {s : State} {p : Bool} {v : Word} {t : State}
    (hr : if p then s.wideHeld = false else s.reachable 0x20300 = true) (e : s.start.secPost p v = t) :
    exec (.secPost p v) s = .next (s.finish t) :=
  runs (f := fun t => t.secPostAt p v) rfl ((post_go s.start p v hr).trans e)

/-- Settles O53. -/
theorem securityPorts : Obligations.SecurityPorts := by
  intro s p
  refine ⟨fun v hr h1 x hx => ⟨fun hb => post_runs hr (post_ignored v (.inr hb)),
      fun hb hw hz h3 h24 => ?_, fun hb q hw hq => post_runs hr (post_behind s.start p q v x hx h1 hb hw hq),
      fun hb hw hz => ⟨fun h0 => ?_, fun h ho => ?_, fun h ho => ?_, fun h ho hn => ?_⟩⟩,
    fun v hr h1 => post_runs hr (post_ignored v (.inl h1)), fun h => ?_, fun h n hn => ?_, fun role slot sig h =>
      ⟨fun n hn hr hs => ?_, fun n hn hr hs => ⟨fun hk => ?_, fun hk => ?_⟩, fun hn => ?_⟩, fun h => ?_⟩
  · exact (post_answered (u := s.start) hx h1 hb hw (turnsAway_zeroing hz h3 h24)).imp fun y h => ⟨post_runs hr h.1, h.2⟩
  · exact post_runs hr (post_waits (u := s.start) hx h1 hb hw (turnsAway_selftest hz h0))
  · exact post_runs hr (post_waits (u := s.start) hx h1 hb hw (turnsAway_ready hz h ho))
  · exact (post_answered (u := s.start) hx h1 hb hw (turnsAway_unknown hz h ho)).imp fun y h => ⟨post_runs hr h.1, h.2⟩
  · exact (post_answered (u := s.start) hx h1 hb hw (turnsAway_notReady hz h ho hn)).imp fun y h => ⟨post_runs hr h.1, h.2⟩
  · exact (status_eq (u := s.start) h).imp fun y h => ⟨runs (f := fun t => t.svcSecStatus p) rfl h.1, h.2⟩
  · subst hn
    exact (nonce_eq (u := s.start) h).imp fun y h => ⟨runs (f := fun t => t.svcNonce p) rfl h.1, h.2⟩
  · exact (auth_fails (u := s.start) h hn hr (Bool.and_eq_false_iff.2 (.inl hs))).imp fun y h =>
      ⟨runs (f := fun t => t.svcAuth p role slot sig) rfl h.1, h.2⟩
  · exact (auth_ok (u := s.start) h hn hr hs hk).imp fun y h =>
      ⟨runs (f := fun t => t.svcAuth p role slot sig) rfl h.1, h.2⟩
  · exact (auth_fails (u := s.start) h hn hr (Bool.and_eq_false_iff.2 (.inr hk))).imp fun y h =>
      ⟨runs (f := fun t => t.svcAuth p role slot sig) rfl h.1, h.2⟩
  · exact (auth_none (u := s.start) h hn).imp fun y h =>
      ⟨runs (f := fun t => t.svcAuth p role slot sig) rfl h.1, h.2⟩
  · exact (logout_eq (u := s.start) h).imp fun y h => ⟨runs (f := fun t => t.svcLogout p) rfl h.1, h.2⟩

end Sys2Proof.Proofs.SecurityPorts


/-! O54: self-tests, zeroisation, entropy health, tamper monitors and the expiry of the debug scope -/

namespace Sys2Proof.Proofs.SecurityModes
open Sys2Proof Sys2Proof.Machine Running Laws.Security

section selftest
variable {u : State} {pass ok : Bool} {x : Sec} (h1 : u.on 21 = true) (h2 : u.sec.state = 0) (h3 : u.sec.zeroing = false)
  (hok : ok = (pass && decide (u.sec.config / 32 % 2 = 0)))
  (hx : x = { u.sec with
    state := if ok then 1 else 2, started := u.sec.started || ok,
    approved := ok && (u.sec.approved || (!u.sec.started && decide (u.sec.config % 2 = 1) && decide (u.sec.scope = 0))) })
include h1 h2 h3 hok hx

theorem selftestDone_alone (hw : u.sec.waits = []) :
    u.selftestDone pass = { (if ok then u else u.event 0x20030 0) with sec := x } := by
  obtain ⟨x', hx', e⟩ := selftest_split u pass ok h1 h2 h3 hok
  obtain rfl : x' = x := hx'.trans hx.symm
  have w : x'.waits = [] := by rw [hx]; exact hw
  rw [e, w]
  dsimp only
  rw [State.setSec, clear_nil _ _ w]

theorem selftestDone_answers {p : Bool} (hw : u.sec.waits = [p]) (ho : (u.sec.port p).op = 2) (hs : u.sec.started = true) :
    ∃ y, u.selftestDone pass = { (if ok then u else u.event 0x20030 0) with sec := y } ∧
      x.replied y p (if ok then 0 else 3) [] := by
  obtain ⟨x', hx', e⟩ := selftest_split u pass ok h1 h2 h3 hok
  obtain rfl : x' = x := hx'.trans hx.symm
  have w : x'.waits = [p] := by rw [hx]; exact hw
  have o : (x'.port p).op = 2 := by rw [hx]; cases p <;> exact ho
  rw [e, w]
  dsimp only
  rw [if_pos (show (x'.port p).op = 2 ∧ u.sec.started = true from ⟨o, hs⟩)]
  exact end_one _ _ p _ [] w

end selftest

theorem selftestDone_none {u : State} {pass : Bool} (h : u.on 21 = false ∨ u.sec.state ≠ 0 ∨ u.sec.zeroing = true) :
    u.selftestDone pass = u :=
  if_pos (by rcases h with h | h | h <;> simp [h])

theorem bootTested_none {u : State} (h : u.mx.boot ≠ .selftest) : u.bootTested = u := if_pos (.inl h)

theorem bootTested_ready {u : State} (h : u.mx.boot = .selftest) (h1 : u.sec.state = 1) : u.bootTested = u.bootFlash :=
  (if_neg (by simp [h, h1])).trans (if_pos h1)

theorem bootTested_fails {u : State} (h : u.mx.boot = .selftest) (h2 : u.sec.state = 2) : u.bootTested = u.bootFails :=
  (if_neg (by simp [h, h2])).trans (if_neg (by omega))

/-- The outcome of the end of the self-tests, where the boot ROM does not wait for them. -/
theorem complete_runs {s : State} {pass : Bool} {t : State} (e : s.start.selftestDone pass = t)
    (hb : t.mx.boot ≠ .selftest) : exec (.selftestComplete pass) s = .next (s.finish t) :=
  runs (f := fun t => (t.selftestDone pass).bootTested) rfl ((congrArg State.bootTested e).trans (bootTested_none hb))

/-- The state that failed self-tests leave, before the boot ROM sees them, differs in the event and the module alone. -/
theorem failed_tests {s : State} {x : Sec} (hx : x.state = 2) (hb : s.mx.boot = .selftest) :
    ∃ t, (State.bootTested { s.start.event 0x20030 0 with sec := x }) = t ∧ t.sec = x ∧
      t.mx = { s.mx with boot := .over } ∧ t.rst = s.failIfStarting.rst ∧
      fld (t.reg 0xA0104) 8 8 = 128 + fld (s.reg 0xA0104) 8 7 ∧ (t.bay 256).pipe.waiting = true ∧
      ∀ k, k ≠ 256 → t.bay k = s.bay k := by
  let u : State := { s.start.event 0x20030 0 with sec := x }
  obtain ⟨hr, hm, hw, hk, hs, _, hf, _⟩ := Laws.Rom.fails_rom u
  exact ⟨u.bootFails, bootTested_fails (u := u) hb hx, hs, hm, hr.trans (fail_rst rfl), hf, hw, hk⟩

theorem healthFail_facts {u : State} (h1 : u.on 21 = true) (h2 : u.sec.state ≤ 1) (h3 : u.sec.zeroing = false) :
    ∃ t, u.healthFail = t ∧ t.sec.state = 2 ∧ t.sec.approved = false ∧ t.sec.otp = u.sec.otp ∧
      t.sec.handles = u.sec.handles ∧ t.sq 0x20030 = (u.sq 0x20030).event 2 ∧ t.bays = u.bays ∧ t.ddr = u.ddr := by
  obtain ⟨hs, ha, ho, hh⟩ := clear_rest { u.sec with state := 2, approved := false } 4
  exact ⟨_, health_eq u h1 h2 h3, hs, ha, ho, hh, State.sq_event _ _ _, rfl, rfl⟩

theorem healthFail_none {u : State} (h : u.on 21 = false ∨ 1 < u.sec.state ∨ u.sec.zeroing = true) : u.healthFail = u :=
  if_pos (by rcases h with h | h | h <;> simp [h])

theorem tamperTrip_unknown {u : State} {code : Nat} (h : code = 0 ∨ 6 < code) : u.tamperTrip code = u := if_pos h

theorem tamperTrip_recorded {u : State} {code : Nat} (c1 : 1 ≤ code) (c2 : code ≤ 6)
    (hr : 1 = (if code ≤ 4 then 3 else if code = 5 then u.sec.config / 2 % 4 else u.sec.config / 8 % 4)) :
    ∃ t, u.tamperTrip code = t ∧ t.sec = { u.sec with tlog := code } ∧ t.sq 0x20030 = (u.sq 0x20030).event 3 ∧
      t.bays = u.bays ∧ t.rst = u.rst ∧
      (u.bg.lost = 0 → u.bg.held.length < 64 → t.bg.held.length = u.bg.held.length + 1) := by
  obtain ⟨v, hv, e⟩ := trip_record u code c1 c2 hr
  have hb : v.bg = u.bg := by rw [hv]; rfl
  have rest := v.record_rest { rtype := 4, block := 10, w8 := (v.sq 0x20030).read }
  have hq := rest.sq (a := 0x20030) (by omega)
  refine ⟨_, e, ?_, hq.trans ?_, ?_, ?_, fun hl hh => ?_⟩
  · obtain ⟨B, c, q, hw, -⟩ := rest
    rw [hw, hv]; rfl
  · rw [hv]; exact State.sq_event _ _ _
  · obtain ⟨B, c, q, hw, -⟩ := rest
    rw [hw, hv]; rfl
  · obtain ⟨B, c, q, hw, -⟩ := rest
    rw [hw, hv]; rfl
  · rw [← hb] at hl hh ⊢
    exact (v.record_other _ (show (4 : Nat) ≠ 1 by decide) hl hh).1

/-- Settles O54. -/
theorem securityModes : Obligations.SecurityModes := by
  intro s
  refine ⟨fun p h => runs (f := fun t => t.svcSelftest p) rfl (serve_one s.start p 2 0 _ h),
    fun pass ok h1 h2 h3 hok x hx => ⟨fun hb => ⟨fun hw ht => ?_, fun hw ht => ?_, fun p hw ho hs => ?_⟩,
      fun hb hw => ⟨fun ht => ?_, fun ht => ?_⟩⟩,
    fun pass hb h => complete_runs (selftestDone_none (u := s.start) h) hb, fun p h => ?_,
    fun h => runs (f := fun t => t.zeroised) rfl (if_pos (by rw [show s.start.sec.zeroing = false from h]; rfl)),
    fun h hr hw => runs (f := fun t => t.zeroised) rfl (zeroised_reset s.start h hr hw),
    fun h hr => ⟨fun hw => runs (f := fun t => t.zeroised) rfl (zeroised_none s.start h hr hw), fun p hw ho => ?_⟩,
    fun h1 h2 h3 => ?_,
    fun h => runs (f := fun t => t.healthFail) rfl (healthFail_none (u := s.start) h),
    fun code h => runs (f := fun t => t.tamperTrip code) rfl (tamperTrip_unknown h),
    fun code resp c1 c2 hr => ⟨fun h => ?_, fun h => ?_, fun h u hu => ?_⟩,
    runs (f := fun t => t.relock) rfl rfl⟩
  · have e := selftestDone_alone (u := s.start) h1 h2 h3 hok hx hw
    rw [ht, if_pos rfl] at e
    exact complete_runs e hb
  · have e := selftestDone_alone (u := s.start) h1 h2 h3 hok hx hw
    rw [ht, if_neg (by decide)] at e
    exact complete_runs e hb
  · obtain ⟨y, e, hy⟩ := selftestDone_answers (u := s.start) h1 h2 h3 hok hx hw ho hs
    refine ⟨_, complete_runs e ?_, hy, ?_⟩
    all_goals cases ok
    · exact hb
    · exact hb
    · rfl
    · rfl
  · have e := selftestDone_alone (u := s.start) h1 h2 h3 hok hx hw
    rw [ht, if_pos rfl] at e
    exact runs (f := fun t => (t.selftestDone pass).bootTested) rfl
      ((congrArg State.bootTested e).trans (bootTested_ready (u := { s.start with sec := x }) hb (by rw [hx, ht]; rfl)))
  · have e := selftestDone_alone (u := s.start) h1 h2 h3 hok hx hw
    rw [ht, if_neg (by decide)] at e
    exact (failed_tests (x := x) (by rw [hx, ht]; rfl) hb).imp fun t h =>
      ⟨runs (f := fun t => (t.selftestDone pass).bootTested) rfl ((congrArg State.bootTested e).trans h.1), h.2⟩
  · have ⟨_, hz, hw, ho, hs, _⟩ := h
    exact ⟨_, runs (f := fun t => t.svcZeroise p) rfl (serve_one s.start p 3 0 _ h),
      zero_facts s.start p hz hw (.inl ho) hs⟩
  · exact (zeroised_one s.start p h hr hw ho).imp fun y h => ⟨runs (f := fun t => t.zeroised) rfl h.1, h.2⟩
  · exact (healthFail_facts (u := s.start) h1 h2 h3).imp fun t h => ⟨runs (f := fun t => t.healthFail) rfl h.1, h.2⟩
  · exact runs (f := fun t => t.tamperTrip code) rfl (trip_none s.start code (by rw [hr] at h; exact h))
  · exact (tamperTrip_recorded (u := s.start) c1 c2 (h.symm.trans hr)).imp fun t h =>
      ⟨runs (f := fun t => t.tamperTrip code) rfl h.1, h.2⟩
  · exact ⟨u.assertReset 1, runs (f := fun t => t.tamperTrip code) rfl
      ((trip_full s.start code c1 c2 (h.symm.trans hr)).trans (congrArg (State.assertReset · 1) hu.symm)), Sources.joins_own u rfl (by omega)⟩

end Sys2Proof.Proofs.SecurityModes


/-! O55: the bulk services, which read their input from staging and may write their output there. -/

namespace Sys2Proof.Proofs.SecurityBulk
open Sys2Proof Sys2Proof.Machine Running Laws.Security Laws.SecurityData

theorem serves_waits {s : State} {p : Bool} {op role : Nat} (h : s.serves p op role) : s.sec.waits = [p] := by
  obtain ⟨_, _, hw, _⟩ := h
  exact hw

/-- A key of a handle that is there, given to what follows. -/
theorem withHandle_eq {t v : State} {p : Bool} {i kind : Nat} {k : List Byte} {go : List Byte → State}
    (h : t.handle p i kind = some k) (e : go k = v) : t.withHandle p i kind go = v := (with_key t p i kind k go h).trans e

section served
variable {s u : State} {p : Bool} {src len : Nat} {d : List Byte} (hl : len ≤ 0x100000)
  (hr : s.secRead src len = (u, some d))
include hr

theorem waits_read (hw : s.sec.waits = [p]) : u.sec.waits = [p] := by rw [secRead_sec _ _ _ _ _ hr, hw]

/-- A service that answers from its input alone. -/
theorem answers_read (hw : s.sec.waits = [p]) (st : Nat) (rs : List Word) :
    ∃ y, u.secEnd p st rs = { u with sec := y } ∧ s.sec.replied y p st rs :=
  sec_end s u p st rs (secRead_sec _ _ _ _ _ hr) hw

/-- A service that writes its output and answers nothing more. -/
theorem writes_read (hw : s.sec.waits = [p]) {w : State} {dst : Nat} {o : List Byte} {ok : Bool} (st : Nat)
    (e : u.secWrite dst o = (w, ok)) :
    ∃ y, u.outputEnd p dst o st [] = { w with sec := y } ∧ s.sec.replied y p (if ok then st else 3) [] := by
  rw [← secRead_sec _ _ _ _ _ hr]
  exact out_nil u w p dst o st e (waits_read hr hw)

include hl

/-- The input that was read, given to what follows. -/
theorem withInput_eq {v : State} {go : State → List Byte → State} (e : go u d = v) : s.withInput p src len go = v :=
  (in_ok s u p src len d go hl hr).trans e

theorem hash_eq {alg : Nat} (h : s.serves p 0x10 1) : ∃ y, s.svcHash p alg src len = { u with sec := y } ∧
    s.sec.replied y p 0 (wordsOf (firstBytes (digestLen alg) (Config.hashByte alg d))) :=
  (answers_read hr (serves_waits h) 0 _).imp fun _ e => ⟨(serve_one s p _ 1 _ h).trans (withInput_eq hl hr e.1), e.2⟩

theorem hmac_eq {alg i : Nat} {k : List Byte} (h : s.serves p 0x11 1) (hk : s.handle p i 1 = some k) :
    ∃ y, s.svcHmac p alg i src len = { u with sec := y } ∧
      s.sec.replied y p 0 (wordsOf (firstBytes (digestLen alg) (Config.hmacByte alg k d))) :=
  (answers_read hr (serves_waits h) 0 _).imp fun _ e =>
    ⟨(serve_one s p _ 1 _ h).trans (withHandle_eq hk (withInput_eq hl hr e.1)), e.2⟩

theorem gcmEnc_eq {i dst : Nat} {k iv c aad : List Byte} {w : State} {ok : Bool} (h : s.serves p 0x12 1)
    (hk : s.handle p i 1 = some k) (hiv : iv = (List.range 12).map (Config.drbgByte s.sec.drbg))
    (hc : c = firstBytes d.length (Config.gcmByte true k iv aad d))
    (hw : State.secWrite { u with sec := { u.sec with drbg := u.sec.drbg + 1 } } dst c = (w, ok)) :
    ∃ y, s.svcGcmEnc p i aad src len dst = { w with sec := y } ∧
      Sec.replied { s.sec with drbg := s.sec.drbg + 1 } y p (if ok then 0 else 3)
        (if ok then wordsOf (iv ++ firstBytes 16 (Config.gcmTagByte k iv aad c)) else []) := by
  have hs : u.sec = s.sec := secRead_sec _ _ _ _ _ hr
  have ⟨y, e, hy⟩ := out_end _ w p dst c 0 (wordsOf (iv ++ firstBytes 16 (Config.gcmTagByte k iv aad c))) hw
    (waits_read hr (serves_waits h) : u.sec.waits = [p])
  subst hc hiv
  rw [← hs] at e hy ⊢
  exact ⟨y, (serve_one s p _ 1 _ h).trans (withHandle_eq hk (withInput_eq hl hr e)), hy⟩

theorem gcmDec_good {i dst : Nat} {k iv tag aad : List Byte} {w : State} {ok : Bool} (h : s.serves p 0x13 1)
    (hk : s.handle p i 1 = some k) (ht : tag = firstBytes 16 (Config.gcmTagByte k iv aad d))
    (hw : u.secWrite dst (firstBytes d.length (Config.gcmByte false k iv aad d)) = (w, ok)) :
    ∃ y, s.svcGcmDec p i iv tag aad src len dst = { w with sec := y } ∧ s.sec.replied y p (if ok then 0 else 3) [] :=
  (writes_read hr (serves_waits h) 0 hw).imp fun _ e =>
    ⟨(serve_one s p _ 1 _ h).trans (withHandle_eq hk (withInput_eq hl hr ((if_pos ht).trans e.1))), e.2⟩

theorem gcmDec_wrong {i dst : Nat} {k iv tag aad : List Byte} {w : State} {ok : Bool} (h : s.serves p 0x13 1)
    (hk : s.handle p i 1 = some k) (ht : tag ≠ firstBytes 16 (Config.gcmTagByte k iv aad d))
    (hw : u.secWrite dst (zeros d.length) = (w, ok)) :
    ∃ y, s.svcGcmDec p i iv tag aad src len dst = { w with sec := y } ∧ s.sec.replied y p (if ok then 6 else 3) [] :=
  (writes_read hr (serves_waits h) 6 hw).imp fun _ e =>
    ⟨(serve_one s p _ 1 _ h).trans (withHandle_eq hk (withInput_eq hl hr ((if_neg ht).trans e.1))), e.2⟩

theorem xts_eq {enc : Bool} {h1 h2 tweak dst : Nat} {a b : List Byte} {w : State} {ok : Bool}
    (h : s.serves p (if enc then 0x14 else 0x15) 1) (ha : s.handle p h1 1 = some a) (hb : s.handle p h2 1 = some b)
    (hw : u.secWrite dst (firstBytes d.length (Config.xtsByte enc a b tweak d)) = (w, ok)) :
    ∃ y, s.svcXts p enc h1 h2 tweak src len dst = { w with sec := y } ∧ s.sec.replied y p (if ok then 0 else 3) [] :=
  (writes_read hr (serves_waits h) 0 hw).imp fun _ e =>
    ⟨(serve_one s p _ 1 _ h).trans (withHandle_eq ha (withHandle_eq hb (withInput_eq hl hr e.1))), e.2⟩

theorem sign_eq {i : Nat} {k : List Byte} (h : s.serves p 0x16 1) (hk : s.handle p i 2 = some k) :
    ∃ y, s.svcSign p i src len = { u with sec := y } ∧
      Sec.replied { s.sec with drbg := s.sec.drbg + 1 } y p 0 (wordsOf (firstBytes 96 (Config.ecdsaByte k d s.sec.drbg))) := by
  have hs : u.sec = s.sec := secRead_sec _ _ _ _ _ hr
  have ⟨y, e, hy⟩ := end_one u { u.sec with drbg := u.sec.drbg + 1 } p 0
    (wordsOf (firstBytes 96 (Config.ecdsaByte k d u.sec.drbg))) (waits_read hr (serves_waits h) : u.sec.waits = [p])
  rw [← hs]
  exact ⟨y, (serve_one s p _ 1 _ h).trans (withHandle_eq hk (withInput_eq hl hr e)), hy⟩

theorem verify_eq {pub sig : List Byte} (h : s.serves p 0x17 1) : ∃ y, s.svcVerify p pub sig src len = { u with sec := y } ∧
    s.sec.replied y p (if Config.ecdsaOk pub d sig then 0 else 6) [] :=
  (answers_read hr (serves_waits h) _ []).imp fun _ e => ⟨(serve_one s p _ 1 _ h).trans (withInput_eq hl hr e.1), e.2⟩

end served

/-- Settles O55. -/
theorem securityBulk : Obligations.SecurityBulk := by
  intro s p src len
  refine ⟨fun i hi => ?_, fun u d hl hr => ⟨fun alg h => ?_, fun alg i k h hk => ?_, fun i aad dst k iv c w ok h hk hiv hc hw => ?_,
    fun i iv tag aad dst k w ok h hk => ⟨fun ht hw => ?_, fun ht hw => ?_⟩,
    fun h1 h2 tweak dst a b w ok ha hb => ⟨fun h hw => ?_, fun h hw => ?_⟩, fun i k h hk => ?_, fun pub sig h => ?_⟩, fun i hi => ?_⟩
  · obtain ⟨hw, go, e⟩ := bulk_shape s p src len i hi
    refine ⟨fun hl => ?_, fun u hl hr => ?_⟩
    · obtain ⟨y, e', hy⟩ := sec_end s s.start p 2 [] rfl hw
      exact ⟨y, e.trans (by rw [in_long _ _ _ _ _ hl, e']), hy⟩
    · obtain ⟨y, e', hy⟩ := sec_end s u p 3 [] (secRead_sec s.start u src len none hr) hw
      exact ⟨y, e.trans (by rw [in_bad _ _ _ _ _ _ hl hr, e']), hy⟩
  · exact (hash_eq (s := s.start) hl hr h).imp fun y h => ⟨runs (f := fun t => t.svcHash p alg src len) rfl h.1, h.2⟩
  · exact (hmac_eq (s := s.start) hl hr h hk).imp fun y h => ⟨runs (f := fun t => t.svcHmac p alg i src len) rfl h.1, h.2⟩
  · exact (gcmEnc_eq (s := s.start) hl hr h hk hiv hc hw).imp fun y h =>
      ⟨runs (f := fun t => t.svcGcmEnc p i aad src len dst) rfl h.1, h.2⟩
  · exact (gcmDec_good (s := s.start) hl hr h hk ht hw).imp fun y h =>
      ⟨runs (f := fun t => t.svcGcmDec p i iv tag aad src len dst) rfl h.1, h.2⟩
  · exact (gcmDec_wrong (s := s.start) hl hr h hk ht hw).imp fun y h =>
      ⟨runs (f := fun t => t.svcGcmDec p i iv tag aad src len dst) rfl h.1, h.2⟩
  · exact (xts_eq (s := s.start) (enc := true) hl hr h ha hb hw).imp fun y h =>
      ⟨runs (f := fun t => t.svcXts p true h1 h2 tweak src len dst) rfl h.1, h.2⟩
  · exact (xts_eq (s := s.start) (enc := false) hl hr h ha hb hw).imp fun y h =>
      ⟨runs (f := fun t => t.svcXts p false h1 h2 tweak src len dst) rfl h.1, h.2⟩
  · exact (sign_eq (s := s.start) hl hr h hk).imp fun y h => ⟨runs (f := fun t => t.svcSign p i src len) rfl h.1, h.2⟩
  · exact (verify_eq (s := s.start) hl hr h).imp fun y h => ⟨runs (f := fun t => t.svcVerify p pub sig src len) rfl h.1, h.2⟩
  · obtain ⟨hw, e⟩ := bulk_bare s p src len i hi
    obtain ⟨y, e', hy⟩ := sec_end s s.start p 2 [] rfl hw
    exact ⟨y, e.trans (by rw [e']), hy⟩

end Sys2Proof.Proofs.SecurityBulk



/-! O56: the key services, random numbers and attestation. -/

namespace Sys2Proof.Proofs.SecurityKeys
open Sys2Proof Sys2Proof.Machine Running Laws.Security Laws.SecurityData Laws.Services SecurityBulk

section served
variable {u : State} {p : Bool}

/-- A service whose arguments do not fit. -/
theorem badArgs {op h : Nat} {run : State → State} (hs : u.serves p op h) {st : Nat} (e : run u = u.secEnd p st []) :
    ∃ y, u.service p op h run = { u with sec := y } ∧ u.sec.replied y p st [] :=
  (sec_end u u p st [] rfl (serves_waits hs)).imp fun _ h => ⟨(serve_one u p op _ run hs).trans (e.trans h.1), h.2⟩

/-- A service that changes the module and answers. -/
theorem ends {op h : Nat} {run : State → State} (hs : u.serves p op h) (x : Sec) (hw : x.waits = u.sec.waits) {st : Nat}
    {rs : List Word} (e : run u = State.secEnd { u with sec := x } p st rs) :
    ∃ y, u.service p op h run = { u with sec := y } ∧ x.replied y p st rs :=
  (end_one u x p st rs (hw.trans (serves_waits hs))).imp fun _ h => ⟨(serve_one u p op _ run hs).trans (e.trans h.1), h.2⟩

section ecdh
variable {h : Nat} {pub : List Byte} (hs : u.serves p 0x18 1)
include hs

theorem ecdh_ok {e : List Byte} (he : e = (List.range 48).map (Config.drbgByte u.sec.drbg)) (hh : h < 32)
    (hp : Config.pointOk pub = true) : ∃ y, u.svcEcdh p h pub = { u with sec := y } ∧
      Sec.replied { u.sec with
        drbg := u.sec.drbg + 1, handles := tsetD none u.sec.handles h (some { kind := 1, key := firstBytes 32 (Config.agreeByte e pub), portS := p }) }
        y p 0 (wordsOf (firstBytes 49 (Config.publicByte e))) := by
  subst he
  exact ends hs _ (by rfl) (if_neg (by simp [hp, Nat.not_le.2 hh]))

theorem ecdh_bad (h' : 32 ≤ h ∨ Config.pointOk pub = false) : ∃ y, u.svcEcdh p h pub = { u with sec := y } ∧ u.sec.replied y p 2 [] :=
  badArgs hs (if_pos (by simpa using h'))

end ecdh

section keygen
variable {h kind : Nat} {pass : Bool} (hs : u.serves p 0x19 1)
include hs

theorem keygen_ok {k : List Byte} (hh : h < 32) (hk : kind = 1 ∨ kind = 2)
    (hr : k = (List.range (if kind = 1 then 32 else 48)).map (Config.drbgByte u.sec.drbg)) (ht : kind = 1 ∨ pass = true) :
    ∃ y, u.svcKeygen p h kind pass = { u with sec := y } ∧
      Sec.replied { u.sec with
        drbg := u.sec.drbg + 1, handles := tsetD none u.sec.handles h (some { kind := kind, key := k, portS := p }) } y p 0 [] := by
  subst hr
  refine ends hs _ (by rfl) ((if_neg (by omega)).trans (if_neg ?_))
  rcases ht with ht | ht <;> simp [ht]

/-- The consistency test of a pair fails: the answer is taken in, and the module is in ERROR with nothing waiting. -/
theorem keygen_fails (hh : h < 32) (hk : kind = 2) (ht : pass = false) :
    ∃ y, u.svcKeygen p h kind pass = { u.event 0x20030 0 with sec := { y with state := 2, approved := false } } ∧
      u.sec.replied y p 3 [] := by
  have hw := serves_waits hs
  refine ⟨u.sec.answer p 3 [], (serve_one u p _ 1 _ hs).trans ?_, answer_replied _ p 3 [] hw⟩
  refine (if_neg (by omega)).trans ((if_pos (by simp [hk, ht])).trans ?_)
  rw [State.setSec, clear_nil { u.sec.answer p 3 [] with state := 2, approved := false } 4 (answer_waits u.sec p 3 [] hw)]

theorem keygen_bad (h' : 32 ≤ h ∨ (kind ≠ 1 ∧ kind ≠ 2)) :
    ∃ y, u.svcKeygen p h kind pass = { u with sec := y } ∧ u.sec.replied y p 2 [] := badArgs hs (if_pos h')

end keygen

theorem wrap_ok {h under : Nat} {x : Handle} {k : List Byte} (hs : u.serves p 0x1A 1) (hx : u.anyHandle p h = some x)
    (hk : u.handle p under 1 = some k) : ∃ y, u.svcWrap p h under = { u with sec := y } ∧
      u.sec.replied y p 0 (wordsOf (firstBytes (x.key.length + 8) (Config.wrapByte true k x.key))) :=
  ends hs u.sec rfl (by rw [hx, hk])

theorem wrap_none {h under : Nat} (hs : u.serves p 0x1A 1) (e : u.anyHandle p h = none ∨ u.handle p under 1 = none) :
    ∃ y, u.svcWrap p h under = { u with sec := y } ∧ u.sec.replied y p 2 [] := badArgs hs (wrap_bad u p h under e)

section unwrap
variable {h under kind n : Nat} {w k : List Byte} (hs : u.serves p 0x1B 1)

include hs in
theorem unwrap_none (e : u.handle p under 1 = none ∨ 32 ≤ h ∨ (kind ≠ 1 ∧ kind ≠ 2) ∨ w.length ≠ (if kind = 1 then 32 else 48) + 8) :
    ∃ y, u.svcUnwrap p h under kind w = { u with sec := y } ∧ u.sec.replied y p 2 [] :=
  badArgs hs (unwrap_bad u p h under kind w e)

variable (hk : u.handle p under 1 = some k) (hh : h < 32) (hn : (kind = 1 ∧ n = 32) ∨ (kind = 2 ∧ n = 48)) (hw : w.length = n + 8)
include hs hk hh hn hw

theorem unwrap_ok (ho : Config.unwrapOk k w = true) : ∃ y, u.svcUnwrap p h under kind w = { u with sec := y } ∧
    Sec.replied { u.sec with
      handles := tsetD none u.sec.handles h (some { kind := kind, key := firstBytes n (Config.wrapByte false k w), portS := p }) } y p 0 [] := by
  obtain rfl : (if kind = 1 then 32 else 48) = n := by split <;> omega
  refine ends hs _ (by rfl) ?_
  rw [hk]
  exact (if_neg (by omega)).trans (if_pos ho)

theorem unwrap_fails (ho : Config.unwrapOk k w = false) :
    ∃ y, u.svcUnwrap p h under kind w = { u with sec := y } ∧ u.sec.replied y p 6 [] := by
  obtain rfl : (if kind = 1 then 32 else 48) = n := by split <;> omega
  refine badArgs hs ?_
  rw [hk]
  exact (if_neg (by omega)).trans (if_neg (Bool.eq_false_iff.1 ho))

end unwrap

section keydel
variable {h : Nat} (hs : u.serves p 0x1C 1)
include hs

theorem keydel_ok {x : Handle} (hx : u.anyHandle p h = some x) : ∃ y, u.svcKeydel p h = { u with sec := y } ∧
    Sec.replied { u.sec with handles := tsetD none u.sec.handles h none } y p 0 [] :=
  ends hs _ (by rfl) (if_pos (by rw [hx]; rfl))

theorem keydel_none (hx : u.anyHandle p h = none) : ∃ y, u.svcKeydel p h = { u with sec := y } ∧ u.sec.replied y p 2 [] :=
  badArgs hs (if_neg (by rw [hx]; decide))

end keydel

section random
variable {n dst : Nat} (hs : u.serves p 0x1D 1)
include hs

theorem random_long (hn : 256 < n) : ∃ y, u.svcRandom p n dst = { u with sec := y } ∧ u.sec.replied y p 2 [] :=
  badArgs hs (if_pos hn)

theorem random_ok {w : State} {ok : Bool} (hn : n ≤ 256)
    (e : State.secWrite { u with sec := { u.sec with drbg := u.sec.drbg + 1 } } dst ((List.range n).map (Config.drbgByte u.sec.drbg)) = (w, ok)) :
    ∃ y, u.svcRandom p n dst = { w with sec := y } ∧
      Sec.replied { u.sec with drbg := u.sec.drbg + 1 } y p (if ok then 0 else 3) [] :=
  (out_nil _ w p dst _ 0 e (serves_waits hs)).imp fun _ h =>
    ⟨(serve_one u p _ 1 _ hs).trans ((if_neg (Nat.not_lt.2 hn)).trans h.1), h.2⟩

end random

theorem attest_eq {nonce : List Byte} (hs : u.serves p 0x1E 1) : ∃ y, u.svcAttest p nonce = { u with sec := y } ∧
    Sec.replied { u.sec with drbg := u.sec.drbg + 1 } y p 0 (wordsOf (firstBytes 96 (Config.ecdsaByte identKey
      (nonce ++ bytesOf [u.sec.stat, wd u.sec.departs, u.sec.floor 0, u.sec.floor 1]) u.sec.drbg))) :=
  ends hs { u.sec with drbg := u.sec.drbg + 1 } rfl rfl

end served

/-- The outcome of a service on the state a command finds, from what the service makes of it. -/
theorem run_of {s : State} {i : Instr} {f : State → State} {P : Sec → Prop} (hf : exec i s = s.run f)
    (h : ∃ y, f s.start = { s.start with sec := y } ∧ P y) :
    ∃ y, exec i s = .next (s.finish { s.start with sec := y }) ∧ P y :=
  h.imp fun _ h => ⟨runs hf h.1, h.2⟩

/-- Settles O56. -/
theorem securityKeys : Obligations.SecurityKeys := by
  intro s p h
  refine ⟨fun pub e hs he => ⟨fun hh hp => run_of (f := (·.svcEcdh p h pub)) rfl (ecdh_ok (u := s.start) hs he hh hp), fun h' => run_of (f := (·.svcEcdh p h pub)) rfl (ecdh_bad (u := s.start) hs h')⟩,
    fun kind pass k hs hh hk hr => ⟨fun ht => run_of (f := (·.svcKeygen p h kind pass)) rfl (keygen_ok (u := s.start) hs hh hk hr ht), fun hk ht => ?_⟩,
    fun kind pass hs h' => run_of (f := (·.svcKeygen p h kind pass)) rfl (keygen_bad (u := s.start) hs h'),
    fun under x k hs hx hk => run_of (f := (·.svcWrap p h under)) rfl (wrap_ok (u := s.start) hs hx hk),
    fun under hs e => run_of (f := (·.svcWrap p h under)) rfl (wrap_none (u := s.start) hs e),
    fun under kind w hs e => run_of (f := (·.svcUnwrap p h under kind w)) rfl (unwrap_none (u := s.start) hs e),
    fun under kind w k n hs hk hh hn hw => ⟨fun ho => run_of (f := (·.svcUnwrap p h under kind w)) rfl (unwrap_ok (u := s.start) hs hk hh hn hw ho),
      fun ho => run_of (f := (·.svcUnwrap p h under kind w)) rfl (unwrap_fails (u := s.start) hs hk hh hn hw ho)⟩,
    fun hs => ⟨fun x hx => run_of (f := (·.svcKeydel p h)) rfl (keydel_ok (u := s.start) hs hx), fun hx => run_of (f := (·.svcKeydel p h)) rfl (keydel_none (u := s.start) hs hx)⟩,
    fun n dst hs hn => run_of (f := (·.svcRandom p n dst)) rfl (random_long (u := s.start) hs hn), fun n dst w ok hs hn e => ?_,
    fun nonce hs => ?_⟩
  · exact (keygen_fails (u := s.start) hs hh hk ht).imp fun y e => ⟨runs (f := fun t => t.svcKeygen p h kind pass) rfl e.1, e.2⟩
  · exact (random_ok (u := s.start) hs hn e).imp fun y e => ⟨runs (f := fun t => t.svcRandom p n dst) rfl e.1, e.2⟩
  · exact (attest_eq (u := s.start) hs).imp fun y e => ⟨runs (f := fun t => t.svcAttest p nonce) rfl e.1, e.2⟩

end Sys2Proof.Proofs.SecurityKeys

/-! O57: services denied to a role that is too low, and services out of turn. -/

namespace Sys2Proof.Proofs.ServiceRoles
open Sys2Proof Sys2Proof.Machine Laws.Services

/-- Settles O57. -/
theorem serviceRoles : Obligations.ServiceRoles := by
  intro s i p op role hi
  obtain ⟨run, e⟩ := service_row i p op role hi s
  refine ⟨fun h hr => ?_, fun h => ?_⟩
  · obtain ⟨y, e', hy⟩ := deny_one s.start p op role run h hr
    exact ⟨y, e.trans (by rw [e']), hy⟩
  · rw [e, idle_one s.start p op role run h]

end Sys2Proof.Proofs.ServiceRoles



/-! O58: the services that program the OTP, DESTROY, and UNLOCK. -/

namespace Sys2Proof.Proofs.OtpAndDebug
open Sys2Proof Sys2Proof.Machine Running Laws.Security Laws.SecurityData Laws.Services SecurityBulk SecurityKeys

section otp
variable {u : State} {p : Bool}

/-- An OTP service that ends, on a part whose slots hold a CO key. -/
theorem otpEnds {op : Nat} {run : State → State} (hs : u.serves p op 2) (h4 : u.sec.anyHolds 4 = true) (x : Sec)
    (hw : x.waits = u.sec.waits) {st : Nat} {rs : List Word} (e : run u = State.secEnd { u with sec := x } p st rs) :
    ∃ y, u.otpService p op run = { u with sec := y } ∧ x.replied y p st rs :=
  ends hs x hw ((if_pos h4).trans e)

theorem otpDenied {op : Nat} {run : State → State} (hs : u.serves p op 2) (h4 : u.sec.anyHolds 4 = false) :
    ∃ y, u.otpService p op run = { u with sec := y } ∧ u.sec.replied y p 4 [] :=
  badArgs hs (if_neg (Bool.eq_false_iff.1 h4))

section key
variable {slot use h : Nat} {pub : List Byte}

/-- The role that OTP_KEY asks for: none for the first CO key, 2 for any other. -/
theorem otpKey_role (hs : (u.sec.anyHolds 4 = false ∧ use = 4 ∧ u.serves p 0x20 0) ∨
      ((u.sec.anyHolds 4 = true ∨ use ≠ 4) ∧ u.serves p 0x20 2)) :
    u.serves p 0x20 (if !u.sec.anyHolds 4 && decide (use = 4) then 0 else 2) := by
  rcases hs with ⟨h4, hu, hs⟩ | ⟨h4, hs⟩
  · rwa [if_pos (by simp [h4, hu])]
  · rwa [if_neg (by rcases h4 with h | h <;> simp [h])]

theorem otpKey_denied (h4 : u.sec.anyHolds 4 = false) (hs : u.serves p 0x20 2) (hu : use ≠ 4) :
    ∃ y, u.svcOtpKey p slot use h pub = { u with sec := y } ∧ u.sec.replied y p 4 [] := by
  unfold State.svcOtpKey
  exact badArgs (otpKey_role (.inr ⟨.inr hu, hs⟩)) (if_pos ⟨by simp [h4], hu⟩)

section fits
variable (hs : (u.sec.anyHolds 4 = false ∧ use = 4 ∧ u.serves p 0x20 0) ∨ (u.sec.anyHolds 4 = true ∧ u.serves p 0x20 2))
include hs

theorem otpKey_serves : u.serves p 0x20 (if !u.sec.anyHolds 4 && decide (use = 4) then 0 else 2) :=
  otpKey_role (hs.imp id fun h => ⟨.inl h.1, h.2⟩)

theorem otpKey_passes : ¬ ((!u.sec.anyHolds 4) = true ∧ use ≠ 4) := by
  rintro ⟨h4, hu⟩
  rcases hs with ⟨_, h, _⟩ | ⟨h, _⟩
  · exact hu h
  · rw [h] at h4; cases h4

/-- A public key goes into an empty slot with its use. -/
theorem otpKey_public (he : u.sec.slotEmpty slot = true) (hl : slot < 8) (h1 : 1 ≤ use) (h5 : use ≤ 5) (hp : pub.length = 49) :
    ∃ y, u.svcOtpKey p slot use h pub = { u with sec := y } ∧
      ((u.sec.program (0x110 + 52 * slot) pub).program (attrAddr slot) [BitVec.ofNat 8 use]).replied y p 0 [] := by
  unfold State.svcOtpKey
  exact ends (otpKey_serves hs) _ (by rfl) <|
    (if_neg (otpKey_passes hs)).trans <| (if_neg (by simp [he]; omega)).trans <| (if_pos hl).trans <| if_neg (by omega)

/-- A secret key of a handle goes, wrapped, into an empty slot with use 6. -/
theorem otpKey_secret {k : List Byte} (he : u.sec.slotEmpty slot = true) (hl : 8 ≤ slot) (h12 : slot < 12) (hu : use = 6)
    (hk : u.handle p h 1 = some k) :
    ∃ y, u.svcOtpKey p slot use h pub = { u with sec := y } ∧
      ((u.sec.program (0x2B0 + 40 * (slot - 8)) (firstBytes 40 (Config.wrapByte true kek k))).program (attrAddr slot) [6#8]).replied y p 0 [] := by
  unfold State.svcOtpKey
  refine ends (otpKey_serves hs)
    ((u.sec.program (0x2B0 + 40 * (slot - 8)) (firstBytes 40 (Config.wrapByte true kek k))).program (attrAddr slot) [6#8])
    ((program_waits _ _ _).trans (program_waits _ _ _)) ?_
  rw [if_neg (otpKey_passes hs), if_neg (by simp [he]; omega), if_neg (by omega), hk]
  exact if_neg (by omega)

end fits
end key

theorem revoke_ok {slot : Nat} (hs : u.serves p 0x21 2) (h4 : u.sec.anyHolds 4 = true) (hl : slot < 12) :
    ∃ y, u.svcRevoke p slot = { u with sec := y } ∧ (u.sec.program (attrAddr slot) [0x80#8]).replied y p 0 [] :=
  otpEnds hs h4 _ (by rfl) (if_neg (by omega))

theorem revoke_bad {slot : Nat} (hs : u.serves p 0x21 2) (h4 : u.sec.anyHolds 4 = true) (hl : 12 ≤ slot) :
    ∃ y, u.svcRevoke p slot = { u with sec := y } ∧ u.sec.replied y p 2 [] := otpEnds hs h4 u.sec rfl (if_pos hl)

theorem floor_fits {kind : Nat} {v running : Word} (hk : kind < 2) (h1 : (u.sec.floor kind).toNat ≤ v.toNat)
    (h2 : v.toNat ≤ (if kind = 0 then running else u.reg 0x5001C).toNat) :
    ¬ (1 < kind ∨ v.toNat < (u.sec.floor kind).toNat ∨ (if kind = 0 then running else u.reg 0x5001C).toNat < v.toNat) := by
  omega

section floor
variable {kind : Nat} {v running : Word} (hs : u.serves p 0x22 2) (h4 : u.sec.anyHolds 4 = true)
include hs h4

theorem floor_bad (h : 1 < kind ∨ v.toNat < (u.sec.floor kind).toNat ∨ (if kind = 0 then running else u.reg 0x5001C).toNat < v.toNat) :
    ∃ y, u.svcFloor p kind v running = { u with sec := y } ∧ u.sec.replied y p 2 [] := otpEnds hs h4 u.sec rfl (if_pos h)

variable (h : ¬ (1 < kind ∨ v.toNat < (u.sec.floor kind).toNat ∨ (if kind = 0 then running else u.reg 0x5001C).toNat < v.toNat))
include h

theorem floor_full (h8 : 8 ≤ u.sec.floorUsed kind) :
    ∃ y, u.svcFloor p kind v running = { u with sec := y } ∧ u.sec.replied y p 3 [] :=
  otpEnds hs h4 u.sec rfl ((if_neg h).trans (if_pos h8))

theorem floor_ok (h8 : u.sec.floorUsed kind < 8) :
    ∃ y, u.svcFloor p kind v running = { u with sec := y } ∧
      (u.sec.program ((if kind = 0 then 0x350 else 0x390) + 8 * u.sec.floorUsed kind)
        (toBytes 4 v.toNat ++ toBytes 4 (~~~ v).toNat)).replied y p 0 [] :=
  otpEnds hs h4 _ (by rfl) ((if_neg h).trans (if_neg (by omega)))

end floor

section config
variable {bits : Word} (hs : u.serves p 0x23 2) (h4 : u.sec.anyHolds 4 = true)
include hs h4

theorem config_ok (h : u.sec.configOk (wd u.sec.config ||| bits &&& 0x8000001F#32).toNat = true) :
    ∃ y, u.svcConfig p bits = { u with sec := y } ∧
      (u.sec.program 0 (toBytes 4 (bits &&& 0x8000001F#32).toNat)).replied y p 0 [] :=
  otpEnds hs h4 _ (by rfl) (if_pos h)

theorem config_bad (h : u.sec.configOk (wd u.sec.config ||| bits &&& 0x8000001F#32).toNat = false) :
    ∃ y, u.svcConfig p bits = { u with sec := y } ∧ u.sec.replied y p 2 [] :=
  otpEnds hs h4 u.sec rfl (if_neg (Bool.eq_false_iff.1 h))

end config

/-- Programming the OTP changes nothing of a port. -/
theorem program_port (x : Sec) (a : Nat) (d : List Byte) (q : Bool) : (x.program a d).port q = x.port q := by
  cases q <;> rfl

theorem destroy_facts (hs : u.serves p 0x24 2) (h4 : u.sec.anyHolds 4 = true) :
    ∃ t, u.svcDestroy p = t ∧ t.sec.otp = (u.sec.program 0 (toBytes 4 0x20)).otp ∧ t.sec.zeroing = true ∧
      t.sec.approved = false ∧ t.sec.handles = [] ∧ t.sec.keyRam = [] ∧
      (∀ q, (t.sec.port q).role = 0 ∧ (t.sec.port q).nonce = none) ∧ t.sec.waits = [p] ∧
      (∀ c, c < 8 → u.hw.chanHere c = true → (t.chan c).state = 0 ∧ (t.chan c).erased = true ∧ (t.chan c).key = none) ∧
      t.rst = u.rst := by
  have ⟨_, hz, hw, ho, hst, _⟩ := hs
  obtain ⟨z, a, hd, kr, q, ot, wt, ch, _, _, rs⟩ :=
    zero_facts ({ u with sec := u.sec.program 0 (toBytes 4 0x20) } : State) p hz hw (.inr ((congrArg SecPort.op (program_port _ _ _ _)).trans ho)) hst
  exact ⟨_, otp_one u p 0x24 _ hs h4, ot, z, a, hd, kr, q, wt, ch, rs⟩

end otp

section unlock
variable {u : State} {p : Bool} {t : List Byte} {x : Sec} (hs : u.serves p 7 0) (ht : t = (u.sec.port p).token)
  (hx : x = u.sec.setPort p { u.sec.port p with nonce := none })
include hs ht hx

theorem unlock_bad (ho : tokenOk t (u.sec.port p).nonce = false) :
    ∃ y, u.svcUnlock p = { u with sec := y } ∧ x.replied y p 2 [] := by
  subst ht hx
  exact ends hs _ (by exact waits_set _ _ _) (if_pos (by simp [ho]))

variable (ho : tokenOk t (u.sec.port p).nonce = true)
include ho

theorem unlock_unsigned (hg : u.sec.tokenSigned t = false) :
    ∃ y, u.svcUnlock p = { u with sec := y } ∧ x.replied y p 6 [] := by
  have hg' : x.tokenSigned t = false := by rw [← hg, hx]; cases p <;> rfl
  subst ht hx
  exact ends hs _ (by exact waits_set _ _ _) ((if_neg (by simp [ho])).trans (if_pos (by rw [hg']; rfl)))

variable (hg : u.sec.tokenSigned t = true)
include hg

theorem unlock_full (ha : u.sec.approved = true) (hd : u.sec.departs = 256) :
    ∃ y, u.svcUnlock p = { u with sec := y } ∧ x.replied y p 3 [] := by
  have hg' : x.tokenSigned t = true := by rw [← hg, hx]; cases p <;> rfl
  have full : x.approved = true ∧ x.departs = 256 := by rw [hx]; cases p <;> exact ⟨ha, hd⟩
  subst ht hx
  exact ends hs _ (by exact waits_set _ _ _)
    ((if_neg (by simp [ho])).trans ((if_neg (by rw [hg']; decide)).trans (if_pos full)))

theorem unlock_good {x0 z : Sec} (h0 : (u.sec.approved = false ∧ x0 = x) ∨ (u.sec.approved = true ∧ u.sec.departs < 256 ∧
      x0 = x.program (0x3D0 + u.sec.departs / 8) [BitVec.ofNat 8 (2 ^ (u.sec.departs % 8))]))
    (hz : z = { x0 with
      handles := [], h := { x0.h with role := 0, nonce := none }, s := { x0.s with role := 0, nonce := none }, drbg := x0.drbg + 1,
      approved := false, left := x0.left || u.sec.approved, scope := ofBytes (tokenField t 4 4), dbgLeft := ofBytes (tokenField t 0x30 4) }) :
    ∃ r, u.svcUnlock p = r ∧ z.replied r.sec p 0 [] ∧ r.bays = u.bays ∧
      r.sq 0x20030 = (if u.sec.approved then (u.sq 0x20030).event 4 else u.sq 0x20030) := by
  have hw : x.waits = [p] := by rw [hx, waits_set, serves_waits hs]
  have ha : x.approved = u.sec.approved := by rw [hx]; cases p <;> rfl
  have hd : x.departs = u.sec.departs := by rw [hx]; cases p <;> rfl
  have hg' : x.tokenSigned t = true := by rw [← hg, hx]; cases p <;> rfl
  have h0' : x0 = if x.approved then x.program (0x3D0 + x.departs / 8) [BitVec.ofNat 8 (2 ^ (x.departs % 8))] else x := by
    rw [ha, hd]
    rcases h0 with ⟨a, e⟩ | ⟨a, _, e⟩ <;> simp [a, e]
  obtain ⟨hr, hb, hq⟩ := unlock_now { u with sec := x } p t x0 z hw h0' (by rw [hz]; dsimp only; rw [ha])
  refine ⟨_, (serve_one u p 7 0 _ hs).trans ?_, hr, hb, hq.trans (by dsimp only; rw [ha]; rfl)⟩
  subst ht hx
  exact (if_neg (by simp [ho])).trans <| (if_neg (by rw [hg']; decide)).trans <| if_neg <| by
    dsimp only
    rw [ha, hd]
    rcases h0 with ⟨a, _⟩ | ⟨_, d, _⟩
    · simp [a]
    · exact fun h => by omega

end unlock

/-- Settles O58. -/
theorem otpAndDebug : Obligations.OtpAndDebug := by
  refine ⟨fun s p => ⟨fun slot use h pub hl he => ⟨fun h4 hs hl hu hp => ?_, fun h4 hs hu => ?_, fun h4 hs hl h1 h5 hp => ?_,
      fun k h4 hs h8 hu hk => ?_⟩, fun slot use h pub h4 h2 h0 hb => ?_, fun slot hs h4 hl => ?_, fun kind v running hs h4 hk => ?_,
      fun i op hi hs h4 => ?_, fun slot hs h4 hl => ?_, fun kind v running top hs h4 hk ht => ⟨fun hb => ?_, fun h1 h2 => ⟨fun h8 => ?_, fun h8 => ?_⟩⟩,
      fun bits b hs h4 hb => ⟨fun hc => ?_, fun hc => ?_⟩, fun hs h4 => ?_⟩,
    fun s p t x hs ht hx => ⟨fun ho => ?_, fun ho hg => ?_, fun ho hg => ⟨fun ha hd => ?_, fun x0 z h0 hz => ?_⟩⟩⟩
  · subst hu
    exact run_of (f := (·.svcOtpKey p slot 4 h pub)) rfl
      (otpKey_public (u := s.start) (.inl ⟨h4, rfl, hs⟩) he hl (by omega) (by omega) hp)
  · exact run_of (f := (·.svcOtpKey p slot use h pub)) rfl (otpKey_denied (u := s.start) h4 hs hu)
  · exact run_of (f := (·.svcOtpKey p slot use h pub)) rfl (otpKey_public (u := s.start) (.inr ⟨h4, hs⟩) he hl h1 h5 hp)
  · exact run_of (f := (·.svcOtpKey p slot use h pub)) rfl (otpKey_secret (u := s.start) (.inr ⟨h4, hs⟩) he h8 hl hu hk)
  · refine run_of (f := (·.svcOtpKey p slot use h pub)) rfl ?_
    rw [otpKey_bad s.start p slot use h pub h4 h2 h0 hb]
    refine sec_end s s.start p 2 [] rfl ?_
    cases c : s.sec.anyHolds 4 with
    | true => exact serves_waits (h2 c)
    | false => exact serves_waits (h0 c)
  · exact run_of (f := (·.svcRevoke p slot)) rfl (revoke_bad (u := s.start) hs h4 hl)
  · exact run_of (f := (·.svcFloor p kind v running)) rfl (floor_bad (u := s.start) hs h4 (.inl hk))
  · rcases hi with ⟨slot, rfl, rfl⟩ | ⟨k, v, r, rfl, rfl⟩ | ⟨b, rfl, rfl⟩ | ⟨rfl, rfl⟩
    · exact run_of (f := (·.svcRevoke p slot)) rfl (otpDenied (u := s.start) hs h4)
    · exact run_of (f := (·.svcFloor p k v r)) rfl (otpDenied (u := s.start) hs h4)
    · exact run_of (f := (·.svcConfig p b)) rfl (otpDenied (u := s.start) hs h4)
    · exact run_of (f := (·.svcDestroy p)) rfl (otpDenied (u := s.start) hs h4)
  · exact run_of (f := (·.svcRevoke p slot)) rfl (revoke_ok (u := s.start) hs h4 hl)
  · exact run_of (f := (·.svcFloor p kind v running)) rfl (floor_bad (u := s.start) hs h4 (.inr (by rw [ht] at hb; exact hb)))
  · exact run_of (f := (·.svcFloor p kind v running)) rfl
      (floor_full (u := s.start) hs h4 (floor_fits hk h1 (by rw [ht] at h2; exact h2)) h8)
  · exact run_of (f := (·.svcFloor p kind v running)) rfl
      (floor_ok (u := s.start) hs h4 (floor_fits hk h1 (by rw [ht] at h2; exact h2)) h8)
  · subst hb
    exact run_of (f := (·.svcConfig p bits)) rfl (config_ok (u := s.start) hs h4 hc)
  · subst hb
    exact run_of (f := (·.svcConfig p bits)) rfl (config_bad (u := s.start) hs h4 hc)
  · exact (destroy_facts (u := s.start) hs h4).imp fun r h => ⟨runs (f := (·.svcDestroy p)) rfl h.1, h.2⟩
  · exact run_of (f := (·.svcUnlock p)) rfl (unlock_bad (u := s.start) hs ht hx ho)
  · exact run_of (f := (·.svcUnlock p)) rfl (unlock_unsigned (u := s.start) hs ht hx ho hg)
  · exact run_of (f := (·.svcUnlock p)) rfl (unlock_full (u := s.start) hs ht hx ho hg ha hd)
  · exact (unlock_good (u := s.start) hs ht hx ho hg h0 hz).imp fun r h => ⟨runs (f := (·.svcUnlock p)) rfl h.1, h.2⟩

end Sys2Proof.Proofs.OtpAndDebug



/-! O59: the error records leave the serialiser, and bays are retired. -/

namespace Sys2Proof.Proofs.Records
open Sys2Proof Sys2Proof.Machine Running Laws.Recording Laws.Pulses

section post
variable {u : State} {ws : List Word} {r : List (List Word)} (h : u.bg.held = ws :: r)
include h

theorem post_counted (hd : bitAt (u.reg 0x90008) 31 = false) :
    ∃ t, u.recordPost = t ∧ t.bg = { u.bg with held := r } ∧ (∀ n, n < 16 → t.reg (0x90080 + 4 * n) = ws.getD n 0#32) ∧
      t.count 0x90018 = (u.count 0x90018 + 1) % 2 ^ 64 ∧ t.bays = u.bays ∧ t.qm = u.qm := by
  obtain ⟨R, hR, _, e⟩ := post_split u ws r h
  exact ⟨_, (e _ rfl).trans (if_neg (Bool.eq_false_iff.1 hd)), rfl, hR, State.count_setCount _ _ _, rfl, rfl⟩

variable (hd : bitAt (u.reg 0x90008) 31 = true)
include hd

/-- The record goes to the telemetry queue, as one notice that enters it. -/
theorem post_enters {ovf : Bool} (hq : u.qmRuns = true) (h0 : (u.queue (fld (u.reg 0x90008) 0 16)).state ≠ 0)
    (h3 : (u.queue (fld (u.reg 0x90008) 0 16)).state ≠ 3)
    (hf : u.fullFor (u.queue (fld (u.reg 0x90008) 0 16)) 1 true = false)
    (hp : u.place (u.queue (fld (u.reg 0x90008) 0 16)) 1 true = some ovf) :
    ∃ t, u.recordPost = t ∧ (∀ j, j ≠ fld (u.reg 0x90008) 0 16 → t.queue j = u.queue j) ∧ t.bays = u.bays ∧
      (t.queue (fld (u.reg 0x90008) 0 16)).msgs = (u.queue (fld (u.reg 0x90008) 0 16)).msgs ++ [{ noticeMsg u.devId ws with
        commit := u.qm.commits, inOvf := ovf, agent := (u.queue (fld (u.reg 0x90008) 0 16)).home }] := by
  obtain ⟨R, _, hA, e⟩ := post_split u ws r h
  generalize fld (u.reg 0x90008) 0 16 = q at *
  let v : State := { u with bg := { u.bg with held := r }, regs := { u.regs with words := R } }
  have hdev : v.devId = u.devId := by unfold State.devId; rw [show v.reg 0x78000 = u.reg 0x78000 from hA _ (by omega)]
  have htake : v.takeIn q (noticeMsg v.devId ws) = (v.enter q (noticeMsg v.devId ws) ovf, 0) :=
    State.takeIn_ok v q _ ovf hq h0 h3 hf hp
  have hpost : v.postLocal q v.devId ws = (v.enter q (noticeMsg v.devId ws) ovf, true) := by
    unfold State.postLocal
    dsimp only
    rw [htake, if_pos rfl]
  obtain ⟨hself, hne, hbays, -, -⟩ := v.enter_eq q (noticeMsg v.devId ws) ovf
  refine ⟨v.enter q (noticeMsg v.devId ws) ovf, ?_, hne, hbays, ?_⟩
  · rw [e v rfl, if_pos hd, hpost, if_pos rfl]
  · rw [hself, hdev]; rfl

/-- The queue takes no notice: the record counts as not sent, with its event. -/
theorem post_refused (hn : u.qmRuns = false ∨ (u.queue (fld (u.reg 0x90008) 0 16)).state = 0 ∨
      (u.queue (fld (u.reg 0x90008) 0 16)).state = 3 ∨ u.fullFor (u.queue (fld (u.reg 0x90008) 0 16)) 1 true = true ∨
      u.place (u.queue (fld (u.reg 0x90008) 0 16)) 1 true = none) :
    ∃ t, u.recordPost = t ∧ t.bg = { u.bg with held := r } ∧ t.sq 0x30040 = (u.sq 0x30040).event 4 ∧
      t.count 0x90018 = (u.count 0x90018 + 1) % 2 ^ 64 ∧ t.bays = u.bays ∧ t.qm = u.qm := by
  obtain ⟨R, _, _, e⟩ := post_split u ws r h
  generalize fld (u.reg 0x90008) 0 16 = q at *
  let v : State := { u with bg := { u.bg with held := r }, regs := { u.regs with words := R } }
  have hpost : v.postLocal q v.devId ws = (v.event 0x30040 4, false) := if_neg (takeIn_no v q (noticeMsg v.devId ws) hn)
  refine ⟨(v.event 0x30040 4).bump 0x90018, ?_, rfl, State.sq_event v 0x30040 4, State.count_setCount _ _ _, rfl, rfl⟩
  rw [e v rfl, if_pos hd, hpost, if_neg Bool.false_ne_true]

end post

theorem accept_held {u : State} {f : State → List Word} {ty : Nat} (h1 : ty ≠ 1) (hl : u.bg.lost = 0) (hh : u.bg.held.length < 64) :
    (u.accept f ty 0).bg.held.length = u.bg.held.length + 1 := by
  have e : u.accept f ty 0 = u.holdRecord (f u) := by
    unfold State.accept
    rw [if_neg (by rw [if_pos hl]; omega)]
    dsimp only
    rw [if_neg h1, if_pos hl]
  rw [e]
  exact List.length_append

theorem periodic_sent {u : State} (h : fld (u.reg 0x9000C) 0 16 ≠ 0) :
    ∃ t, u.periodic = t ∧ t.bays = u.bays ∧
      (u.bg.lost = 0 → u.bg.held.length < 64 → t.bg.held.length = u.bg.held.length + 1) := by
  obtain ⟨-, -, hbays, -, -⟩ := Laws.HostOps.RecRest.reads (u.accept_rest State.periodicWords 5 0)
  exact ⟨_, if_neg h, hbays, accept_held (by decide)⟩

section retire
variable {u : State} {v : Word} {b : Nat} (hr : u.reachable 0x90120 = true) (hb : b = fld v 0 8)
include hr hb

theorem retire_refuses {r : Nat} (hc : u.retireReason b = r) (h0 : r ≠ 0) :
    u.regWrite .sill 0x90120 (v ||| 0x80000000#32) = { u with bg := { u.bg with rres := 3, rreason := r } } := by
  rw [retire_go _ _ hr, retire_hi u v b hb, if_neg (by omega), retire_refused u b _ _ r hc h0]

theorem retire_begins (hc : u.retireReason b = 0) (he : u.scr.evac = none) :
    ∃ t, u.regWrite .sill 0x90120 (v ||| 0x80000000#32) = t ∧
      t.bg = { u.bg with retiring := some (b, bitAt v 30, false), rres := 0, rreason := 0 } ∧ t.bays = u.bays ∧
      ((u.bay b).state ≠ 3 → t.scr = u.scr) ∧
      ((u.bay b).state = 3 → t.scr = { u.scr with
        evRes := 0, evReason := 0, evac := some { bays := [b], drop := bitAt v 30, byBay := true, owner := 1, subject := b, epoch := u.epoch } }) := by
  rw [retire_go _ _ hr, retire_hi u v b hb, if_pos hc]
  let s1 : State := { u with bg := { u.bg with retiring := some (b, bitAt v 30, false), rres := 0, rreason := 0 } }
  have e : u.retireGo b (bitAt v 30) false = if (u.bay b).state = 3 then s1.evacStart [b] (bitAt v 30) true 1 b else s1 :=
    if_neg (Decidable.not_not.2 hc)
  rw [e]
  by_cases h3 : (u.bay b).state = 3
  · rw [if_pos h3]
    have es : s1.evacStart [b] (bitAt v 30) true 1 b = { s1 with scr := { s1.scr with
        evRes := 0, evReason := 0, evac := some { bays := [b], drop := bitAt v 30, byBay := true, owner := 1, subject := b, epoch := s1.epoch } } } :=
      if_neg (by rw [show s1.scr.evac = none from he]; decide)
    rw [es]
    exact ⟨_, rfl, rfl, rfl, fun h => absurd h3 h, fun _ => rfl⟩
  · rw [if_neg h3]
    exact ⟨_, rfl, rfl, rfl, fun _ => rfl, fun h => absurd h h3⟩

end retire

section reason
variable {u : State} {b : Nat} (h1 : u.bg.retiring = none) (h2 : u.scr.evac = none) (h3 : u.rsu.busy = false ∨ u.rsu.op = 1)
include h1 h2 h3

theorem reason_absent (h : u.bentHere (b / 16) = false ∨ u.bg.retired.contains b = true) : u.retireReason b = 1 :=
  (reason_rest u b h1 h2 h3).trans (if_pos (by rcases h with h | h <;> simp only [h, Bool.not_false, Bool.true_or, Bool.or_true]))

variable (h4 : u.bentHere (b / 16) = true) (h5 : u.bg.retired.contains b = false)
include h4 h5

theorem reason_owned (h : ∃ n, n < 192 ∧ (u.bank n).kind = 3 ∧ (u.bank n).bay = b) : u.retireReason b = 2 := by
  obtain ⟨n, hn, hk, hb⟩ := h
  rw [reason_rest u b h1 h2 h3, h4, h5, if_neg (by decide), if_pos]
  exact List.any_eq_true.2 ⟨n, List.mem_range.2 hn, by rw [hk, hb]; simp⟩

theorem reason_free (h : ∀ n, n < 192 → (u.bank n).kind ≠ 3 ∨ (u.bank n).bay ≠ b) : u.retireReason b = 0 := by
  rw [reason_rest u b h1 h2 h3, h4, h5, if_neg (by decide), if_neg]
  intro hany
  obtain ⟨n, hn, hk⟩ := List.any_eq_true.1 hany
  have hk := Bool.and_eq_true_iff.1 hk
  exact (h n (List.mem_range.1 hn)).elim (fun hne => hne (of_decide_eq_true hk.1)) fun hne => hne (of_decide_eq_true hk.2)

end reason

theorem finish_waits {u : State} {b : Nat} {d a : Bool} (h : u.bg.retiring = some (b, d, a))
    (he : ∃ e, u.scr.evac = some e ∧ e.owner = 1) : u.retireFinish = u := by
  obtain ⟨e, he, ho⟩ := he
  unfold State.retireFinish
  rw [h]
  dsimp only
  rw [he, if_pos (by simp [ho])]

theorem finish_none {u : State} (h : u.bg.retiring = none) : u.retireFinish = u := by
  unfold State.retireFinish
  rw [h]

theorem finish_retired {u : State} {b : Nat} {d a : Bool} (h : u.bg.retiring = some (b, d, a)) (hb : b < 256)
    (he : ∀ e, u.scr.evac = some e → e.owner ≠ 1) (hq : Quiet u b) :
    ∃ t, u.retireFinish = t ∧ (t.bay b).state = 0 ∧ (t.bay b).retired = true ∧ (∀ k, k ≠ b → t.bay k = u.bay k) ∧
      t.bg.retiring = none ∧ t.bg.rres = 1 ∧ t.bg.retired = u.bg.retired ++ [b] ∧ t.reg (0x40400 + 4 * b) = 0#32 ∧
      (u.bg.lost = 0 → u.bg.held.length < 64 → t.bg.held.length = u.bg.held.length + 1) := by
  obtain ⟨v, w, hv, hw, e⟩ := finish_eq u b d a h he
  obtain ⟨rest, other, cleared⟩ := dropBay_quiet u b (by omega) hq
  have hbg : (u.dropBay b).bg = u.bg := by
    obtain ⟨B, S, Q, R, P, X, hd⟩ := rest
    rw [hd]
  have hvbg : v.bg = u.bg := by rw [hv]; exact hbg
  have hwbg : w.bg = { u.bg with retiring := none, rres := 1, rreason := 0, retired := u.bg.retired ++ [b] } := by
    rw [hw, ← hvbg]; rfl
  have hwbay (k : Nat) : w.bay k = v.bay k := by rw [hw]; rfl
  obtain ⟨-, -, hbays, hwords, -⟩ := Laws.HostOps.RecRest.reads (w.record_rest { rtype := 6, block := 1, inst := b, w8 := w.retireStat })
  have hmarks := w.record_marks { rtype := 6, block := 1, inst := b, w8 := w.retireStat }
  have hlen := w.record_other { rtype := 6, block := 1, inst := b, w8 := w.retireStat } (show (6 : Nat) ≠ 1 by decide)
  generalize hr : w.record { rtype := 6, block := 1, inst := b, w8 := w.retireStat } = t at *
  have hbay (k : Nat) : t.bay k = v.bay k := by
    rw [← hwbay]; unfold State.bay; rw [hbays]
  obtain ⟨hret, hres, -, hretd, -⟩ : t.bg.retiring = w.bg.retiring ∧ t.bg.rres = w.bg.rres ∧ t.bg.rreason = w.bg.rreason ∧
      t.bg.retired = w.bg.retired ∧ t.bg.patrol = w.bg.patrol := by
    simpa only [Bg.marks, Prod.mk.injEq] using hmarks
  have hself : v.bay b = { (u.dropBay b).bay b with retired := true } := by rw [hv, State.bay_onBay]
  refine ⟨t, e, ?_, ?_, fun k hk => ?_, ?_, ?_, ?_, ?_, fun hl hh => ?_⟩
  · rw [hbay, hself]; exact cleared.1
  · rw [hbay, hself]
  · rw [hbay, hv, State.bay_onBay_ne _ _ hk, other k hk]
  · rw [hret, hwbg]
  · rw [hres, hwbg]
  · rw [hretd, hwbg]
  · have : t.reg (0x40400 + 4 * b) = w.reg (0x40400 + 4 * b) := congrArg (fun W => tget regReset W (0x40400 + 4 * b)) hwords
    rw [this, hw, State.reg_setReg]
  · rw [hwbg] at hlen
    exact (hlen hl hh).1

/-- Settles O59. -/
theorem recordsAndRetirement : Obligations.RecordsAndRetirement := by
  intro s
  refine ⟨fun h => runs (f := fun t => t.recordPost) rfl ?_, fun ws r h => ⟨fun hd => ?_, fun q ovf hq hd hr h0 h3 hf hp => ?_, fun q hq hd hn => ?_⟩,
    fun h => runs (f := fun t => t.periodic) rfl (if_pos h), fun h => ?_,
    fun v b hr hb => ⟨fun h => runs (f := fun t => t.regWrite .sill 0x90120 (v ||| 0x80000000#32)) rfl
        (retire_refuses (u := s.start) hr hb (reason_taken s.start b h) (by decide)),
      fun h1 h2 h3 => ⟨fun h => runs (f := fun t => t.regWrite .sill 0x90120 (v ||| 0x80000000#32)) rfl
          (retire_refuses (u := s.start) hr hb (reason_absent (u := s.start) h1 h2 h3 h) (by decide)),
        fun h4 h5 => ⟨fun h => runs (f := fun t => t.regWrite .sill 0x90120 (v ||| 0x80000000#32)) rfl
          (retire_refuses (u := s.start) hr hb (reason_owned (u := s.start) h1 h2 h3 h4 h5 h) (by decide)), fun h => ?_⟩⟩⟩,
    fun h => runs (f := fun t => t.retireFinish) rfl (finish_none (u := s.start) h),
    fun b d a h hb => ⟨fun e he ho => runs (f := fun t => t.retireFinish) rfl (finish_waits (u := s.start) h ⟨e, he, ho⟩),
      fun he h1 h2 h3 h4 => ?_⟩⟩
  · unfold State.recordPost
    rw [show s.start.bg.held = [] from h]
  · exact (post_counted (u := s.start) h hd).imp fun t h => ⟨runs (f := fun t => t.recordPost) rfl h.1, h.2⟩
  · subst hq
    exact (post_enters (u := s.start) h hd hr h0 h3 hf hp).imp fun t h => ⟨runs (f := fun t => t.recordPost) rfl h.1, h.2⟩
  · subst hq
    exact (post_refused (u := s.start) h hd hn).imp fun t h => ⟨runs (f := fun t => t.recordPost) rfl h.1, h.2⟩
  · exact (periodic_sent (u := s.start) h).imp fun t h => ⟨runs (f := fun t => t.periodic) rfl h.1, h.2⟩
  · exact (retire_begins (u := s.start) hr hb (reason_free (u := s.start) h1 h2 h3 h4 h5 h) h2).imp fun t h =>
      ⟨runs (f := fun t => t.regWrite .sill 0x90120 (v ||| 0x80000000#32)) rfl h.1, h.2⟩
  · exact (finish_retired (u := s.start) h hb he ⟨h1, h2, h3, h4⟩).imp fun t h =>
      ⟨runs (f := fun t => t.retireFinish) rfl h.1, h.2⟩

end Sys2Proof.Proofs.Records

/-! O60: the patrol of the flash journal. -/

namespace Sys2Proof.Proofs.Journal
open Sys2Proof Sys2Proof.Machine Running Laws.Recording

theorem patrolStart_on {u : State} (h1 : u.rst.bootOk = true) (h2 : u.rst.shored = false) (h3 : bitAt (u.reg 0x90140) 31 = true) :
    u.patrolStart = { u with bg := { u.bg with patrol := true } } := if_pos (by rw [h1, h2, h3]; rfl)

theorem patrolStart_off {u : State} (h : u.rst.bootOk = false ∨ u.rst.shored = true ∨ bitAt (u.reg 0x90140) 31 = false) :
    u.patrolStart = u :=
  if_neg (by rcases h with h | h | h <;> simp only [h, Bool.false_and, Bool.not_true, Bool.and_false, Bool.false_eq_true, not_false_eq_true])

theorem patrolEnd_calm {u : State} (h : u.bg.patrol = true) (h0 : Calm u 0) (h1 : Calm u 1) :
    u.patrolEnd = { u with bg := { u.bg with patrol := false } } := by
  let v : State := { u with bg := { u.bg with patrol := false } }
  have e : u.patrolEnd = (v.patrolSlot 0).patrolSlot 1 := if_pos h
  rw [e, patrol_calm v 0 h0, patrol_calm v 1 h1]

/-- The end of a patrol finds what the two slots show, in their order. -/
theorem patrolEnd_finds {u : State} (h : u.bg.patrol = true) :
    ∃ t, u.patrolEnd = t ∧ t.sq 0x90144 = (u.findings 0 ++ u.findings 1).foldl Sq.event (u.sq 0x90144) ∧
      t.bg.patrol = false ∧ t.mx = u.mx ∧ t.bays = u.bays ∧
      (u.bg.lost = 0 → u.bg.held.length + (u.findings 0 ++ u.findings 1).length ≤ 64 →
        t.bg.held.length = u.bg.held.length + (u.findings 0 ++ u.findings 1).length) := by
  let v : State := { u with bg := { u.bg with patrol := false } }
  obtain ⟨q0, p0, m0, b0, r0, l0⟩ := slot_facts v 0
  obtain ⟨q1, p1, m1, b1, r1, l1⟩ := slot_facts (v.patrolSlot 0) 1
  have f0 : v.findings 0 = u.findings 0 := findings_eq rfl rfl 0
  have f1 : (v.patrolSlot 0).findings 1 = u.findings 1 := findings_eq m0 r0 1
  rw [f0] at q0 l0
  rw [f1] at q1 l1
  refine ⟨_, if_pos h, ?_, p1.trans p0, m1.trans m0, b1.trans b0, fun hl hh => ?_⟩
  · rw [q1, q0, List.foldl_append]; rfl
  · rw [List.length_append] at hh ⊢
    obtain ⟨e, hl'⟩ := l0 hl (show u.bg.held.length + _ ≤ 64 by omega)
    have e : (v.patrolSlot 0).bg.held.length = u.bg.held.length + (u.findings 0).length := e
    rw [(l1 hl' (by omega)).1, e, Nat.add_assoc]

/-- Settles O60. -/
theorem journalPatrol : Obligations.JournalPatrol := by
  intro s
  refine ⟨fun h1 h2 h3 => runs (f := fun t => t.patrolStart) rfl (patrolStart_on (u := s.start) h1 h2 h3),
    fun h => runs (f := fun t => t.patrolStart) rfl (patrolStart_off (u := s.start) h),
    fun h => runs (f := fun t => t.patrolEnd) rfl (if_neg (Bool.eq_false_iff.1 h)), fun h quiet hq => ⟨fun h0 h1 => ?_, ?_⟩⟩
  · exact runs (f := fun t => t.patrolEnd) rfl (patrolEnd_calm (u := s.start) h ((hq 0).1 h0) ((hq 1).1 h1))
  · exact (patrolEnd_finds (u := s.start) h).imp fun t h => ⟨runs (f := fun t => t.patrolEnd) rfl h.1, h.2⟩

end Sys2Proof.Proofs.Journal


/-! O8: the fuses. `State.fuses` is what manufacture and programming fix, the board with its fuses and the OTP; every
function of the model but the services that program the OTP leaves it as it was. -/

namespace Sys2Proof.Machine

/-- What the part was built with, and the OTP. -/
def State.fuses (s : State) : Hw × Mem := (s.hw, s.sec.otp)

/-! ### Reading the fuses off a state

The proofs `(rfl)` keep `simp` from taking these as definitional: the kernel would compare the states whole. -/

@[simp] theorem fuses_pair (s : State) : (s.hw, s.sec.otp) = s.fuses := (rfl)

@[simp] theorem fuses_mk (a b c d e f g h i j k l m n o p q r t u) :
    State.fuses (State.mk a b c d e f g h i j k l m n o p q r t u) = (b, t.otp) := (rfl)

theorem fuses_fst {β : Type} (t : State) (b : β) : (t, b).1.fuses = t.fuses := (rfl)

theorem fuses_of_eq {β : Type} {r : State × β} {t : State} {b : β} (h : r = (t, b)) : t.fuses = r.1.fuses := by rw [h]

@[simp] theorem fuses_ite (c : Prop) [Decidable c] (a b : State) :
    (if c then a else b).fuses = if c then a.fuses else b.fuses := apply_ite ..

@[simp] theorem fuses_ite_fst {β : Type} (c : Prop) [Decidable c] (a b : State × β) :
    (if c then a else b).1.fuses = if c then a.1.fuses else b.1.fuses := by
  split <;> rfl

@[simp] theorem fuses_foldl {α : Type} {g : State → α → State} (h : ∀ t x, (g t x).fuses = t.fuses) (l : List α)
    (u : State) : (l.foldl g u).fuses = u.fuses := by
  induction l generalizing u with
  | nil => rfl
  | cons x l ih => exact (ih _).trans (h u x)

@[simp] theorem fuses_foldl_fst {α β : Type} {g : State × β → α → State × β} (h : ∀ r x, (g r x).1.fuses = r.1.fuses)
    (l : List α) (r : State × β) : (l.foldl g r).1.fuses = r.1.fuses := by
  induction l generalizing r with
  | nil => rfl
  | cons x l ih => exact (ih _).trans (h r x)

theorem fuses_ite_of {c : Prop} [Decidable c] {a b : State} {x : Hw × Mem} (ha : a.fuses = x) (hb : b.fuses = x) :
    (if c then a else b).fuses = x := by
  split
  · exact ha
  · exact hb

theorem fuses_ite_fst_of {β : Type} {c : Prop} [Decidable c] {a b : State × β} {x : Hw × Mem} (ha : a.1.fuses = x)
    (hb : b.1.fuses = x) : (if c then a else b).1.fuses = x := by
  split
  · exact ha
  · exact hb

theorem fuses_tier {β : Type} {k : Nat} {a b c d : State × β} {x : Hw × Mem} (ha : a.1.fuses = x) (hb : b.1.fuses = x)
    (hc : c.1.fuses = x) (hd : d.1.fuses = x) : (match k with | 0 => a | 1 => b | 2 => c | _ => d).1.fuses = x := by
  split <;> assumption


/-! ### Registers -/

@[simp] theorem State.setBay_fuses (s : State) (k : Nat) (b : Bay) : (s.setBay k b).fuses = s.fuses := by
  simp [State.setBay]

@[simp] theorem State.onBay_fuses (s : State) (k : Nat) (f : Bay → Bay) : (s.onBay k f).fuses = s.fuses := by
  simp [State.onBay]

@[simp] theorem State.setBank_fuses (s : State) (n : Nat) (x : Bank) : (s.setBank n x).fuses = s.fuses := by
  simp [State.setBank]

@[simp] theorem State.setChan_fuses (s : State) (c : Nat) (x : Chan) : (s.setChan c x).fuses = s.fuses := by
  simp [State.setChan]

@[simp] theorem State.setQueue_fuses (s : State) (q : Nat) (x : Queue) : (s.setQueue q x).fuses = s.fuses := by
  simp [State.setQueue]

@[simp] theorem State.setDom_fuses (s : State) (d v : Nat) : (s.setDom d v).fuses = s.fuses := by simp [State.setDom]

@[simp] theorem State.draw_fuses (s : State) : s.draw.1.fuses = s.fuses := by simp [State.draw]

@[simp] theorem State.newGen_fuses (s : State) : s.newGen.1.fuses = s.fuses := by simp [State.newGen]

@[simp] theorem State.emit_fuses (s : State) (o : Out) : (s.emit o).fuses = s.fuses := by simp [State.emit]

@[simp] theorem State.setReg_fuses (s : State) (a : Nat) (v : Word) : (s.setReg a v).fuses = s.fuses := by
  simp [State.setReg]

@[simp] theorem State.setSq_fuses (s : State) (a : Nat) (q : Sq) :
    (s.setSq a q).fuses = s.fuses := by simp [State.setSq]

@[simp] theorem State.event_fuses (s : State) (a i : Nat) : (s.event a i).fuses = s.fuses := by simp [State.event]

@[simp] theorem State.setCount_fuses (s : State) (a n : Nat) :
    (s.setCount a n).fuses = s.fuses := by simp [State.setCount]

@[simp] theorem State.bump_fuses (s : State) (a : Nat) : (s.bump a).fuses = s.fuses := by simp [State.bump]

@[simp] theorem State.writeRw_fuses (s : State) (a mask : Nat) (v : Word) : (s.writeRw a mask v).fuses = s.fuses := by
  simp [State.writeRw]

@[simp] theorem State.writeMw_fuses (s : State) (a : Nat) (v : Word) : (s.writeMw a v).fuses = s.fuses := by
  simp [State.writeMw]

@[simp] theorem State.writePg_fuses (s : State) (a mask : Nat) (v : Word) : (s.writePg a mask v).fuses = s.fuses := by
  simp [State.writePg]

@[simp] theorem State.writeSq_fuses (s : State) (a : Nat) (v : Word) : (s.writeSq a v).fuses = s.fuses := by
  simp [State.writeSq]

@[simp] theorem State.writeKind_fuses (s : State) (a : Nat) (v : Word) : (s.writeKind a v).fuses = s.fuses := by
  unfold State.writeKind
  (repeat' split) <;> simp

@[simp] theorem State.pegTaken_fuses (s : State) (down : Nat → Bool) (groups : Nat) :
    (s.pegTaken down groups).fuses = s.fuses := by simp [State.pegTaken]

@[simp] theorem State.peg_fuses (s : State) (down : Nat → Bool) (groups : Nat) :
    (s.peg down groups).fuses = s.fuses := by
  simp [State.peg]

@[simp] theorem State.pegWords_fuses (s : State) (down : Nat → Bool) : (s.pegWords down).fuses = s.fuses := by
  simp [State.pegWords]

@[simp] theorem State.pegDeferred_fuses (s : State) (down : Nat → Bool) : (s.pegDeferred down).fuses = s.fuses := by
  unfold State.pegDeferred
  (repeat' split) <;> simp

/-! ### Error records -/

@[simp] theorem State.holdRecord_fuses (s : State) (ws : List Word) : (s.holdRecord ws).fuses = s.fuses := by
  simp [State.holdRecord]

@[simp] theorem State.loseRecord_fuses (s : State) : s.loseRecord.fuses = s.fuses := by simp [State.loseRecord]

@[simp] theorem State.accept_fuses (s : State) (ws : State → List Word) (rtype cls : Nat) :
    (s.accept ws rtype cls).fuses = s.fuses := by
  simp [State.accept]

@[simp] theorem State.ceTick_fuses (s : State) : s.ceTick.fuses = s.fuses := by simp [State.ceTick]

@[simp] theorem State.record_fuses (s0 : State) (e : Event) : (s0.record e).fuses = s0.fuses := by
  unfold State.record
  dsimp only
  (repeat' split) <;> simp

@[simp] theorem State.err_fuses (s : State) (cls block inst addr : Nat) (w8 : Word) :
    (s.err cls block inst addr w8).fuses = s.fuses := by simp [State.err]

/-! ### The staging banks -/

@[simp] theorem State.stgEvent_fuses (s : State) (i n : Nat) :
    (s.stgEvent i n).fuses = s.fuses := by simp [State.stgEvent]

@[simp] theorem State.stgWord_fuses (s : State) (n w : Nat) : (s.stgWord n w).1.fuses = s.fuses := by
  unfold State.stgWord
  dsimp only
  (repeat' split) <;> simp

@[simp] theorem State.stgWords_fuses (s : State) (n base : Nat) (l : List Nat) :
    (s.stgWords n base l).1.fuses = s.fuses := by
  induction l generalizing s with
  | nil => rfl
  | cons i l ih => simp [State.stgWords, ih]

@[simp] theorem State.stgPut_fuses (s : State) (n a : Nat) (data : List Byte) (bad : List Nat) :
    (s.stgPut n a data bad).fuses = s.fuses := by simp [State.stgPut]

@[simp] theorem State.stgGet_fuses (s : State) (n a len : Nat) : (s.stgGet n a len).1.fuses = s.fuses := by
  simp [State.stgGet]

@[simp] theorem State.stgRefused_fuses (s : State) (n : Nat) (e : Err) : (s.stgRefused n e).fuses = s.fuses := by
  unfold State.stgRefused
  split <;> simp

@[simp] theorem State.stgRead_fuses (s : State) (ag : Agent) (a len : Nat) :
    (s.stgRead ag a len).1.fuses = s.fuses := by
  unfold State.stgRead
  dsimp only
  (repeat' split) <;> simp

@[simp] theorem State.stgWrite_fuses (s : State) (ag : Agent) (a : Nat) (data : List Byte) (bad : List Nat) :
    (s.stgWrite ag a data bad).1.fuses = s.fuses := by
  unfold State.stgWrite
  dsimp only
  (repeat' split) <;> simp

@[simp] theorem State.stgUpset_fuses (s : State) (n : Nat) (u : List (Nat × Nat)) :
    (s.stgUpset n u).fuses = s.fuses := by
  simp [State.stgUpset]

@[simp] theorem State.ownWrite_fuses (s : State) (n : Nat) (v : Word) : (s.ownWrite n v).fuses = s.fuses := by
  simp [State.ownWrite]

@[simp] theorem State.ownApply_fuses (s : State) (n : Nat) : (s.ownApply n).fuses = s.fuses := by simp [State.ownApply]

@[simp] theorem State.bankWake_fuses (s : State) (n : Nat) : (s.bankWake n).fuses = s.fuses := by simp [State.bankWake]

@[simp] theorem State.marchWrite_fuses (s : State) (g : Nat) (v : Word) : (s.marchWrite g v).fuses = s.fuses := by
  simp [State.marchWrite]

@[simp] theorem State.scrambleWords_fuses (s : State) (codes : Nat) (m : Mem) (k : Marks) (l : List Nat) :
    (s.scrambleWords codes m k l).1.fuses = s.fuses := by
  induction l generalizing s m k with
  | nil => rfl
  | cons w l ih => simp [State.scrambleWords, ih]

@[simp] theorem State.marchDone_fuses (s : State) (g fails : Nat) (lines : List Nat) :
    (s.marchDone g fails lines).fuses = s.fuses := by
  unfold State.marchDone
  (repeat' split) <;> simp

@[simp] theorem State.stgScrub_fuses (s : State) (n : Nat) (u : List (Nat × Nat)) :
    (s.stgScrub n u).fuses = s.fuses := by
  simp [State.stgScrub]

@[simp] theorem State.outWord_fuses (s : State) (b : Nat) (w : OutWord) : (s.outWord b w).fuses = s.fuses := by
  unfold State.outWord
  dsimp only
  (repeat' split) <;> simp

@[simp] theorem State.bayScrub_fuses (s : State) (k : Nat) (u : List (Nat × Nat × Nat)) :
    (s.bayScrub k u).fuses = s.fuses := by simp [State.bayScrub]

@[simp] theorem State.bayMarchWrite_fuses (s : State) (b : Nat) (v : Word) : (s.bayMarchWrite b v).fuses = s.fuses := by
  simp [State.bayMarchWrite]

@[simp] theorem State.serveWaiting_fuses (s : State) (b : Nat) : (s.serveWaiting b).fuses = s.fuses := by
  simp [State.serveWaiting]

@[simp] theorem State.bayMarchDone_fuses (s : State) (b fails : Nat) (sw il : List Nat) (firstI : Bool) :
    (s.bayMarchDone b fails sw il firstI).fuses = s.fuses := by
  unfold State.bayMarchDone
  dsimp only
  (repeat' split) <;> simp

@[simp] theorem State.fatal_fuses (s : State) (block inst addr : Nat) (w8 : Word) :
    (s.fatal block inst addr w8).fuses = s.fuses := by simp [State.fatal]

/-! ### The DDR4 channels -/

@[simp] theorem State.ddrError_fuses (s : State) (c l dev : Nat) (ue : Bool) :
    (s.ddrError c l dev ue).fuses = s.fuses := by
  unfold State.ddrError
  exact (State.record_fuses ..).trans ((State.setReg_fuses ..).trans ((State.setReg_fuses ..).trans
    ((State.setReg_fuses ..).trans ((State.event_fuses ..).trans (State.bump_fuses ..)))))

@[simp] theorem State.lineCheck_fuses (s : State) (c l : Nat) : (s.lineCheck c l).1.fuses = s.fuses := by
  unfold State.lineCheck
  dsimp only
  (repeat' split) <;> simp

@[simp] theorem State.queuedPoison_fuses (s : State) (c : Nat) (e : WLine) : (s.queuedPoison c e).fuses = s.fuses := by
  simp [State.queuedPoison]

@[simp] theorem State.lineRead_fuses (s : State) (c l : Nat) : (s.lineRead c l).1.fuses = s.fuses := by
  unfold State.lineRead
  split <;> simp

@[simp] theorem State.drainLine_fuses (s : State) (c : Nat) (e : WLine) : (s.drainLine c e).fuses = s.fuses := by
  simp [State.drainLine]

@[simp] theorem State.drainQueue_fuses (s : State) (c : Nat) : (s.drainQueue c).fuses = s.fuses := by
  simp [State.drainQueue]

@[simp] theorem State.lineWrite_fuses (s : State) (c l : Nat) (bs : List (Nat × Byte)) (poison : Bool) :
    (s.lineWrite c l bs poison).fuses = s.fuses := by
  unfold State.lineWrite
  dsimp only
  (repeat' split) <;> simp

@[simp] theorem State.readLines_fuses (s : State) (c a : Nat) (l : List Nat) :
    (s.readLines c a l).1.fuses = s.fuses := by
  induction l generalizing s with
  | nil => rfl
  | cons i l ih => simp [State.readLines, ih]

@[simp] theorem State.drawWords_fuses (s : State) (n : Nat) : (s.drawWords n).1.fuses = s.fuses := by
  induction n generalizing s with
  | zero => rfl
  | succ n ih => simp [State.drawWords, ih]

@[simp] theorem State.wildRead_fuses (s : State) (a n : Nat) : (s.wildRead a n).1.fuses = s.fuses := by
  unfold State.wildRead
  dsimp only
  (repeat' split) <;> simp

@[simp] theorem State.ddrRead_fuses (s : State) (a n : Nat) : (s.ddrRead a n).1.fuses = s.fuses := by
  unfold State.ddrRead
  split <;> simp

@[simp] theorem State.ddrWrite_fuses (s : State) (a : Nat) (data : List Byte) (poison : Bool) :
    (s.ddrWrite a data poison).1.fuses = s.fuses := by
  unfold State.ddrWrite
  split <;> simp

@[simp] theorem State.channelTime_fuses (s : State) (c ns : Nat) : (s.channelTime c ns).fuses = s.fuses := by
  simp [State.channelTime]

@[simp] theorem State.timed_fuses (s : State) (c : Nat) (n : Nat) : (s.timed c n).fuses = s.fuses := by
  induction n generalizing s with
  | zero => rfl
  | succ n ih => simp [State.timed, ih]

@[simp] theorem State.ddrUpset_fuses (s : State) (u : List (Nat × Nat)) : (s.ddrUpset u).fuses = s.fuses := by
  simp [State.ddrUpset]

@[simp] theorem State.ddrRun_fuses (s : State) (q : DdrReq) : (s.ddrRun q).1.fuses = s.fuses := by
  unfold State.ddrRun
  dsimp only
  (repeat' split) <;> simp

@[simp] theorem State.ddrAnswer_fuses (s : State) (q : DdrReq) : (s.ddrAnswer q).fuses = s.fuses := by
  simp [State.ddrAnswer]

@[simp] theorem State.ddrRequest_fuses (s : State) (q : DdrReq) (u : List (Nat × Nat)) :
    (s.ddrRequest q u).fuses = s.fuses := by simp [State.ddrRequest]

@[simp] theorem State.ddrResume_fuses (s : State) (c : Nat) (go : DdrReq → Bool) :
    (s.ddrResume c go).fuses = s.fuses := by
  simp [State.ddrResume]

@[simp] theorem State.refreshStart_fuses (s : State) (c r : Nat) : (s.refreshStart c r).fuses = s.fuses := by
  simp [State.refreshStart]

@[simp] theorem State.scrubAdvance_fuses (s : State) (c r : Nat) : (s.scrubAdvance c r).fuses = s.fuses := by
  simp [State.scrubAdvance]

@[simp] theorem State.refreshScrub_fuses (s : State) (c r : Nat) : (s.refreshScrub c r).fuses = s.fuses := by
  unfold State.refreshScrub
  dsimp only
  (repeat' split) <;> simp

@[simp] theorem State.refreshEnd_fuses (s : State) (c r : Nat) (u : List (Nat × Nat)) :
    (s.refreshEnd c r u).fuses = s.fuses := by simp [State.refreshEnd]

@[simp] theorem State.tempPoll_fuses (s : State) (c t0 t1 : Nat) : (s.tempPoll c t0 t1).fuses = s.fuses := by
  simp [State.tempPoll]

@[simp] theorem State.delayed_fuses (s : State) (hit : Nat → Bool) : (s.delayed hit).fuses = s.fuses := by
  simp [State.delayed]

@[simp] theorem State.zqcs_fuses (s : State) (c r : Nat) : (s.zqcs c r).fuses = s.fuses := by simp [State.zqcs]

@[simp] theorem State.caParity_fuses (s : State) (c : Nat) : (s.caParity c).fuses = s.fuses := by simp [State.caParity]

@[simp] theorem State.retrainSlice_fuses (s : State) (c : Nat) (last : Bool) :
    (s.retrainSlice c last).fuses = s.fuses := by
  simp [State.retrainSlice]

@[simp] theorem State.memInit_fuses (s : State) (c : Nat) : (s.memInit c).fuses = s.fuses := by simp [State.memInit]

@[simp] theorem State.trained_fuses (s : State) (c step t0 t1 : Nat) : (s.trained c step t0 t1).fuses = s.fuses := by
  simp [State.trained]

@[simp] theorem State.srEnter_fuses (s : State) (c : Nat) : (s.srEnter c).fuses = s.fuses := by
  unfold State.srEnter
  dsimp only
  (repeat' split) <;> simp

@[simp] theorem State.srEntered_fuses (s : State) (c : Nat) :
    (s.srEntered c).fuses = s.fuses := by simp [State.srEntered]

@[simp] theorem State.srExit_fuses (s : State) (c : Nat) : (s.srExit c).fuses = s.fuses := by
  unfold State.srExit
  dsimp only
  (repeat' split) <;> simp

@[simp] theorem State.clrMax_fuses (s : State) (c : Nat) : (s.clrMax c).fuses = s.fuses := by simp [State.clrMax]

@[simp] theorem State.memFields_fuses (s : State) (c : Nat) (v : Word) : (s.memFields c v).fuses = s.fuses := by
  simp [State.memFields]

@[simp] theorem State.memSr_fuses (s : State) (c : Nat) (v : Word) :
    (s.memSr c v).fuses = s.fuses := by simp [State.memSr]

@[simp] theorem State.memCtl_fuses (s : State) (c : Nat) (v : Word) : (s.memCtl c v).fuses = s.fuses := by
  simp [State.memCtl]

@[simp] theorem State.memRegsLost_fuses (s : State) (c : Nat) : (s.memRegsLost c).fuses = s.fuses := by
  simp [State.memRegsLost]

@[simp] theorem State.memRegsReset_fuses (s : State) (c : Nat) : (s.memRegsReset c).fuses = s.fuses := by
  simp [State.memRegsReset]

@[simp] theorem State.memPowerUp_fuses (s : State) (c : Nat) : (s.memPowerUp c).fuses = s.fuses := by
  simp [State.memPowerUp]

@[simp] theorem State.srExited_fuses (s : State) (c : Nat) : (s.srExited c).fuses = s.fuses := by simp [State.srExited]

@[simp] theorem State.vddqLoss_fuses (s : State) (c : Nat) (back : Bool) : (s.vddqLoss c back).fuses = s.fuses := by
  simp [State.vddqLoss]

@[simp] theorem State.ddrIsolated_fuses (s : State) (c : Nat) : (s.ddrIsolated c).fuses = s.fuses := by
  simp [State.ddrIsolated]

@[simp] theorem State.memErase_fuses (s : State) : s.memErase.fuses = s.fuses := by simp [State.memErase]

/-! ### The scarf links -/

@[simp] theorem State.setPort_fuses (s : State) (p : Nat) (x : Port_) : (s.setPort p x).fuses = s.fuses := by
  simp [State.setPort]

@[simp] theorem State.sendOne_fuses (s : State) (p c : Nat) : (s.sendOne p c).fuses = s.fuses := by
  unfold State.sendOne
  dsimp only
  (repeat' split) <;> simp

@[simp] theorem State.sendNull_fuses (s : State) (p : Nat) (n : Nat) : (s.sendNull p n).fuses = s.fuses := by
  induction n generalizing s with
  | zero => rfl
  | succ n ih => unfold State.sendNull; dsimp only; split <;> simp [ih]

@[simp] theorem State.pumpN_fuses (s : State) (p : Nat) (n : Nat) : (s.pumpN p n).fuses = s.fuses := by
  induction n generalizing s with
  | zero => rfl
  | succ n ih => unfold State.pumpN; split <;> simp [ih]

@[simp] theorem State.pump_fuses (s : State) (p : Nat) : (s.pump p).fuses = s.fuses := by simp [State.pump]

@[simp] theorem State.enqueue_fuses (s : State) (p c : Nat) (t : TxFlit) : (s.enqueue p c t).fuses = s.fuses := by
  simp [State.enqueue]

@[simp] theorem State.todo_fuses (s : State) (w : Work) : (s.todo w).fuses = s.fuses := by simp [State.todo]

@[simp] theorem State.sendCmp_fuses (s : State) (f : Flit) : (s.sendCmp f).fuses = s.fuses := by
  unfold State.sendCmp
  split <;> simp

@[simp] theorem State.deadFlit_fuses (s : State) (t : TxFlit) (reason : Nat) (isolated : Bool) :
    (s.deadFlit t reason isolated).fuses = s.fuses := by
  unfold State.deadFlit
  dsimp only
  (repeat' split) <;> simp

@[simp] theorem State.sendTo_fuses (s : State) (c : Nat) (t : TxFlit) : (s.sendTo c t).fuses = s.fuses := by
  unfold State.sendTo
  split <;> simp

@[simp] theorem State.lstateOn_fuses (s : State) (ps : List Nat) (dev port st gen : Nat) :
    (s.lstateOn ps dev port st gen).fuses = s.fuses := by simp [State.lstateOn]

@[simp] theorem State.flood_fuses (s : State) (p st : Nat) : (s.flood p st).fuses = s.fuses := by simp [State.flood]

@[simp] theorem State.dropPort_fuses (s : State) (p st cause reason : Nat) (isolated : Bool) :
    (s.dropPort p st cause reason isolated).fuses = s.fuses := by simp [State.dropPort]

@[simp] theorem State.declareDown_fuses (s : State) (p cause : Nat) : (s.declareDown p cause).fuses = s.fuses := by
  simp [State.declareDown]

@[simp] theorem State.delayRemote_fuses (s : State) (p tag : Nat) : (s.delayRemote p tag).fuses = s.fuses := by
  simp [State.delayRemote]

@[simp] theorem State.tsyncSkip_fuses (s : State) : s.tsyncSkip.fuses = s.fuses := by simp [State.tsyncSkip]

@[simp] theorem State.meetsRetry_fuses (s : State) (p : Nat) : (s.meetsRetry p).fuses = s.fuses := by
  simp [State.meetsRetry]

@[simp] theorem State.replayStarts_fuses (s : State) (p : Nat) : (s.replayStarts p).fuses = s.fuses := by
  simp [State.replayStarts]

@[simp] theorem State.resend_fuses (s : State) (p : Nat) : (s.resend p).fuses = s.fuses := by simp [State.resend]

@[simp] theorem State.retryStart_fuses (s0 : State) (p : Nat) : (s0.retryStart p).fuses = s0.fuses := by
  simp [State.retryStart]

@[simp] theorem State.linkWord_fuses (s : State) (p : Nat) (l : LinkWord) : (s.linkWord p l).fuses = s.fuses := by
  simp [State.linkWord]

@[simp] theorem State.openGap_fuses (s : State) (p : Nat) : (s.openGap p).fuses = s.fuses := by simp [State.openGap]

theorem State.receive_fuses {handle : State → State} (h : ∀ t, (handle t).fuses = t.fuses) (s : State) (p c : Nat)
    (l : LinkWord) :
    (s.receive p c l handle).fuses = s.fuses := by
  unfold State.receive
  dsimp only
  (repeat' split) <;> simp [h]

@[simp] theorem State.rxNull_fuses (s : State) (p : Nat) (l : LinkWord) : (s.rxNull p l).fuses = s.fuses := by
  simp [State.rxNull]

@[simp] theorem State.crcFail_fuses (s : State) (p : Nat) : (s.crcFail p).fuses = s.fuses := by simp [State.crcFail]

@[simp] theorem State.retryWindow_fuses (s : State) (p : Nat) : (s.retryWindow p).fuses = s.fuses := by
  simp [State.retryWindow]

@[simp] theorem State.creditStall_fuses (s : State) (p : Nat) : (s.creditStall p).fuses = s.fuses := by
  simp [State.creditStall]

@[simp] theorem State.signalLoss_fuses (s : State) (p : Nat) : (s.signalLoss p).fuses = s.fuses := by
  simp [State.signalLoss]

@[simp] theorem State.portEnable_fuses (s : State) (p : Nat) : (s.portEnable p).fuses = s.fuses := by
  simp [State.portEnable]

@[simp] theorem State.portDisable_fuses (s : State) (p : Nat) : (s.portDisable p).fuses = s.fuses := by
  simp [State.portDisable]

@[simp] theorem State.portCtl_fuses (s : State) (p : Nat) (v : Word) : (s.portCtl p v).fuses = s.fuses := by
  simp [State.portCtl]

@[simp] theorem State.portTrained_fuses (s : State) (p step dev port lanes width : Nat) :
    (s.trained_ p step dev port lanes width).fuses = s.fuses := by simp [State.trained_]

@[simp] theorem State.trainRetry_fuses (s : State) (p : Nat) : (s.trainRetry p).fuses = s.fuses := by
  simp [State.trainRetry]

@[simp] theorem State.devIdWrite_fuses (s : State) (v : Word) : (s.devIdWrite v).fuses = s.fuses := by
  simp [State.devIdWrite]

@[simp] theorem State.rtResult_fuses (s : State) (n : Nat) : (s.rtResult n).fuses = s.fuses := by simp [State.rtResult]

@[simp] theorem State.rtRead_fuses (s : State) : s.rtRead.fuses = s.fuses := by simp [State.rtRead]

@[simp] theorem State.rtWrite_fuses (s : State) : s.rtWrite.fuses = s.fuses := by simp [State.rtWrite]

@[simp] theorem State.rtUpdate_fuses (s : State) : s.rtUpdate.fuses = s.fuses := by simp [State.rtUpdate]

@[simp] theorem State.updateDone_fuses (s : State) (res : Nat) : (s.updateDone res).fuses = s.fuses := by
  unfold State.updateDone
  split <;> simp

@[simp] theorem State.updateForced_fuses (s : State) : s.updateForced.fuses = s.fuses := by simp [State.updateForced]

@[simp] theorem State.pwRead_fuses (s : State) : s.pwRead.fuses = s.fuses := by simp [State.pwRead]

@[simp] theorem State.pwWrite_fuses (s : State) : s.pwWrite.fuses = s.fuses := by
  unfold State.pwWrite
  exact fuses_foldl (fun _ _ => by simp) _ _

@[simp] theorem State.adaptSlice_fuses (s : State) (p : Nat) : (s.adaptSlice p).fuses = s.fuses := by
  simp [State.adaptSlice]

@[simp] theorem State.tsyncStart_fuses (s : State) (sub : Nat) : (s.tsyncStart sub).fuses = s.fuses := by
  simp [State.tsyncStart]

@[simp] theorem State.tsyncReq_fuses (s : State) (p : Nat) (l : LinkWord) (sub2 turn : Nat) :
    (s.tsyncReq p l sub2 turn).fuses = s.fuses := by simp [State.tsyncReq]

@[simp] theorem State.tsyncRsp_fuses (s : State) (p : Nat) (l : LinkWord) (t2 t3 sub4 : Nat) :
    (s.tsyncRsp p l t2 t3 sub4).fuses = s.fuses := by
  unfold State.tsyncRsp
  dsimp only
  (repeat' split) <;> simp

@[simp] theorem State.timeSet_fuses (s : State) (hi : Bool) (v : Word) : (s.timeSet hi v).fuses = s.fuses := by
  unfold State.timeSet
  (repeat' split) <;> simp

/-! ### The configuration space -/

@[simp] theorem State.aerMessage_fuses (s : State) (i : Nat) : (s.aerMessage i).fuses = s.fuses := by
  simp [State.aerMessage]

@[simp] theorem State.aer_fuses (s : State) (i : Nat) (hdr : List Word) : (s.aer i hdr).fuses = s.fuses := by
  simp [State.aer]

@[simp] theorem State.aerClear_fuses (s : State) (unc : Bool) (v : Word) : (s.aerClear unc v).fuses = s.fuses := by
  simp [State.aerClear]

@[simp] theorem State.tlp_fuses (s : State) (bar : Nat) (write : Bool) (off n fbe lbe : Nat) (poison : Bool)
    (req : Option Word) :
    (s.tlp bar write off n fbe lbe poison req).1.fuses = s.fuses := by
  unfold State.tlp
  simp

@[simp] theorem State.aerRequest_fuses (s : State) (i bar : Nat) (write : Bool) (off n : Nat) (poison : Bool)
    (req : Option Word) :
    (s.aerRequest i bar write off n poison req).fuses = s.fuses := by simp [State.aerRequest]

/-! ### MSI-X -/

@[simp] theorem State.setRing_fuses (s : State) (n : Nat) (r : Ring) : (s.setRing n r).fuses = s.fuses := by
  simp [State.setRing]

@[simp] theorem State.signal_fuses (s : State) (v : Nat) : (s.signal v).fuses = s.fuses := by simp [State.signal]

@[simp] theorem State.ringSend_fuses (s : State) (n : Nat) : (s.ringSend n).fuses = s.fuses := by simp [State.ringSend]

@[simp] theorem State.ringNotify_fuses (s : State) (n : Nat) : (s.ringNotify n).fuses = s.fuses := by
  simp [State.ringNotify]

@[simp] theorem State.ringWindowEnd_fuses (s : State) (n : Nat) : (s.ringWindowEnd n).fuses = s.fuses := by
  simp [State.ringWindowEnd]

@[simp] theorem State.unmasked_fuses (s : State) (v : Nat) : (s.unmasked v).fuses = s.fuses := by simp [State.unmasked]

@[simp] theorem State.msixWrite_fuses (s : State) (i : Nat) (v : Word) : (s.msixWrite i v).fuses = s.fuses := by
  simp [State.msixWrite]

@[simp] theorem State.sourceSend_fuses (s : State) (i : Nat) : (s.sourceSend i).fuses = s.fuses := by
  unfold State.sourceSend
  split <;> simp

@[simp] theorem State.watchSource_fuses (s : State) (i : Nat) : (s.watchSource i).fuses = s.fuses := by
  simp [State.watchSource]

@[simp] theorem State.watchSources_fuses (s : State) : s.watchSources.fuses = s.fuses := by simp [State.watchSources]

@[simp] theorem State.sqClear_fuses (s : State) (a : Nat) (v : Word) : (s.sqClear a v).fuses = s.fuses := by
  unfold State.sqClear
  split <;> simp

@[simp] theorem State.msixControl_fuses (s : State) (on mask : Bool) : (s.msixControl on mask).fuses = s.fuses := by
  simp [State.msixControl]

/-! ### The queue manager -/

@[simp] theorem State.fillEvent_fuses (s : State) (agent : Nat) (ovf : Bool) :
    (s.fillEvent agent ovf).fuses = s.fuses := by
  simp [State.fillEvent]

@[simp] theorem State.enter_fuses (s : State) (q : Nat) (m : Msg) (ovf : Bool) : (s.enter q m ovf).fuses = s.fuses := by
  simp [State.enter]

@[simp] theorem State.takeIn_fuses (s : State) (q : Nat) (m : Msg) : (s.takeIn q m).1.fuses = s.fuses := by
  unfold State.takeIn
  dsimp only
  (repeat' split) <;> simp

@[simp] theorem State.freeMsg_fuses (s : State) (q : Nat) (m : Msg) : (s.freeMsg q m).fuses = s.fuses := by
  simp [State.freeMsg]

@[simp] theorem State.freeAway_fuses (s : State) (q : Nat) (m : Msg) : (s.freeAway q m).fuses = s.fuses := by
  simp [State.freeAway]

@[simp] theorem State.postLocal_fuses (s : State) (q dev : Nat) (ws : List Word) :
    (s.postLocal q dev ws).1.fuses = s.fuses := by simp [State.postLocal]

@[simp] theorem State.postRemote_fuses (s : State) (ga : Nat) (ws : List Word) :
    (s.postRemote ga ws).fuses = s.fuses := by
  simp [State.postRemote]

@[simp] theorem State.postNotice_fuses (s : State) (ga : Nat) (ws : List Word) :
    (s.postNotice ga ws).fuses = s.fuses := by
  simp [State.postNotice]

@[simp] theorem State.refused_fuses (s : State) (notq : Word) (trig : Word) (reason : Nat) :
    (s.refused notq trig reason).fuses = s.fuses := by simp [State.refused]

@[simp] theorem State.commitNow_fuses (s : State) (q : Nat) (p : Producer) (words : List Word) :
    (s.commitNow q p words).1.fuses = s.fuses := by simp [State.commitNow]

@[simp] theorem State.depart_fuses (s : State) (k : Nat) : (s.depart k).fuses = s.fuses := by
  unfold State.depart
  dsimp only
  (repeat' split) <;> simp

@[simp] theorem State.settleTransit_fuses (s : State) (i : Nat) (t : Transit) :
    (s.settleTransit i t).fuses = s.fuses := by
  unfold State.settleTransit
  split <;> simp

@[simp] theorem State.commitTransit_fuses (s : State) (i : Nat) (t : Transit) (expired : Bool) :
    (s.commitTransit i t expired).fuses = s.fuses := by
  unfold State.commitTransit
  split <;> simp

@[simp] theorem State.commitAt_fuses (s : State) (i : Nat) : (s.commitAt i).fuses = s.fuses := by
  unfold State.commitAt
  split <;> simp

@[simp] theorem State.waiterAgain_fuses (s : State) (k : Nat) (expired : Bool) :
    (s.waiterAgain k expired).fuses = s.fuses := by
  unfold State.waiterAgain
  split <;> simp

@[simp] theorem State.land_fuses (s : State) (k : Nat) (bad : List Nat) : (s.land k bad).fuses = s.fuses := by
  unfold State.land
  dsimp only
  (repeat' split) <;> simp

@[simp] theorem State.giveBack_fuses (s : State) (q : Nat) (ls : List Landed) (redelivered : Bool) :
    (s.giveBack q ls redelivered).fuses = s.fuses := by simp [State.giveBack]

@[simp] theorem State.unland_fuses (s : State) (q : Nat) : (s.unland q).fuses = s.fuses := by simp [State.unland]

@[simp] theorem State.bayMessages_fuses (s : State) (k : Nat) : (s.bayMessages k).fuses = s.fuses := by
  simp [State.bayMessages]

@[simp] theorem State.descApply_fuses (s : State) (q : Nat) (ws : List Word) : (s.descApply q ws).fuses = s.fuses := by
  simp [State.descApply]

@[simp] theorem State.dResult_fuses (s : State) (n : Nat) : (s.dResult n).fuses = s.fuses := by simp [State.dResult]

@[simp] theorem State.descRead_fuses (s : State) : s.descRead.fuses = s.fuses := by simp [State.descRead]

@[simp] theorem State.descWrite_fuses (s : State) : s.descWrite.fuses = s.fuses := by
  unfold State.descWrite
  dsimp only
  (repeat' split) <;> simp

@[simp] theorem State.descWritep_fuses (s : State) : s.descWritep.fuses = s.fuses := by
  unfold State.descWritep
  dsimp only
  (repeat' split) <;> simp

@[simp] theorem State.applyPending_fuses (s : State) : s.applyPending.fuses = s.fuses := by simp [State.applyPending]

@[simp] theorem State.hostBad_fuses (s : State) : s.hostBad.fuses = s.fuses := by simp [State.hostBad]

@[simp] theorem State.doorbell_fuses (s : State) (q off : Nat) (data : List Byte) :
    (s.doorbell q off data).fuses = s.fuses := by simp [State.doorbell]

@[simp] theorem State.doorbellWord_fuses (s : State) (q : Nat) (data : List Byte) :
    (s.doorbellWord q data).fuses = s.fuses := by simp [State.doorbellWord]

@[simp] theorem State.doorbellHead_fuses (s : State) (q : Nat) (v : Word) : (s.doorbellHead q v).fuses = s.fuses := by
  simp [State.doorbellHead]

@[simp] theorem State.bar2Put_fuses (s : State) (off : Nat) (data : List Byte) :
    (s.bar2Put off data).fuses = s.fuses := by
  simp [State.bar2Put]

@[simp] theorem State.ringCfg_fuses (s : State) (n : Nat) (v : Word) : (s.ringCfg n v).fuses = s.fuses := by
  simp [State.ringCfg]

@[simp] theorem State.ringBase_fuses (s : State) (n o : Nat) (v : Word) : (s.ringBase n o v).fuses = s.fuses := by
  simp [State.ringBase]

@[simp] theorem State.hostWrites_fuses (s : State) (a : Nat) (data : List Byte) :
    (s.hostWrites a data).fuses = s.fuses := by
  simp [State.hostWrites]

@[simp] theorem State.ringWrite_fuses (s : State) (n : Nat) : (s.ringWrite n).fuses = s.fuses := by
  unfold State.ringWrite
  dsimp only
  (repeat' split) <;> simp

@[simp] theorem State.queueTimeout_fuses (s : State) (q : Nat) : (s.queueTimeout q).fuses = s.fuses := by
  simp [State.queueTimeout]

@[simp] theorem State.pathDown_fuses (s : State) (dev port : Nat) : (s.pathDown dev port).fuses = s.fuses := by
  simp [State.pathDown]

@[simp] theorem State.pathRestored_fuses (s : State) (d : Nat) : (s.pathRestored d).fuses = s.fuses := by
  simp [State.pathRestored]

/-! ### The scribe -/

@[simp] theorem State.setPage_fuses (s : State) (k : Nat) (e : PageEnt) : (s.setPage k e).fuses = s.fuses := by
  simp [State.setPage]

@[simp] theorem State.setTaskWord_fuses (s : State) (t i : Nat) (w : Word) : (s.setTaskWord t i w).fuses = s.fuses := by
  simp [State.setTaskWord]

@[simp] theorem State.readPage_fuses (s : State) (w : Word) (remote : List Byte) (bad : List Nat) :
    (s.readPage w remote bad).1.fuses = s.fuses := by
  unfold State.readPage
  split <;> simp

@[simp] theorem State.writePage_fuses (s : State) (w : Word) (d : PageData) : (s.writePage w d).fuses = s.fuses := by
  unfold State.writePage
  split <;> simp

@[simp] theorem State.log_fuses (s : State) (r : LogRec) : (s.log r).fuses = s.fuses := by
  unfold State.log
  have after (w : State × Resp) (hw : w.1.fuses = s.fuses) (n : Nat) : (match w.2.err with
      | some _ => w.1.event 0x40020 3
      | none => { w.1 with scr := { w.1.scr with logHead := n } } : State).fuses = s.fuses := by
    split <;> simp [hw]
  exact fuses_ite_of rfl (fuses_ite_of (State.event_fuses ..) (after _ (State.stgWrite_fuses ..) _))

@[simp] theorem State.onMove_fuses (s : State) (k : Nat) (f : PageMove → PageMove) :
    (s.onMove k f).fuses = s.fuses := by
  simp [State.onMove]

@[simp] theorem State.dropMove_fuses (s : State) (k : Nat) : (s.dropMove k).fuses = s.fuses := by simp [State.dropMove]

@[simp] theorem State.askDev_fuses (s : State) (dev bay fid k off : Nat) (data : Option (List Byte)) (poison : Bool)
    (kind : RemoteKind) :
    (s.askDev dev bay fid k off data poison kind).1.fuses = s.fuses := by simp [State.askDev]

@[simp] theorem State.claimLines_fuses (s : State) (w : Word) (n : Nat) : (s.claimLines w n).fuses = s.fuses := by
  simp [State.claimLines]

@[simp] theorem State.timeLines_fuses (s : State) (w : Word) (n : Nat) : (s.timeLines w n).fuses = s.fuses := by
  simp [State.timeLines]

@[simp] theorem State.copyLines_fuses (s : State) (k : Nat) (ls : List Nat) : (s.copyLines k ls).fuses = s.fuses := by
  unfold State.copyLines
  split <;> simp

@[simp] theorem State.startMove_fuses (s : State) (k : Nat) (dst : Word) (origin : Nat) (command evac rel : Bool) :
    (s.startMove k dst origin command evac rel).fuses = s.fuses := by simp [State.startMove]

@[simp] theorem State.evacOwner_fuses (s : State) (owner : Nat) (ok : Bool) :
    (s.evacOwner owner ok).fuses = s.fuses := by
  unfold State.evacOwner
  (repeat' split) <;> simp

@[simp] theorem State.endEvac_fuses (s : State) (e : Evac) (reason : Nat) : (s.endEvac e reason).fuses = s.fuses := by
  simp [State.endEvac]

@[simp] theorem State.endPageCmd_fuses (s : State) (res : Nat) : (s.endPageCmd res).fuses = s.fuses := by
  simp [State.endPageCmd]

@[simp] theorem State.moveOver_fuses (s : State) (m : PageMove) (reason fenceNs : Nat) :
    (s.moveOver m reason fenceNs).fuses = s.fuses := by simp [State.moveOver]

@[simp] theorem State.abandon_fuses (s : State) (m : PageMove) (reason : Nat) :
    (s.abandon m reason).fuses = s.fuses := by
  simp [State.abandon]

@[simp] theorem State.setFence_fuses (s : State) (k : Nat) : (s.setFence k).fuses = s.fuses := by simp [State.setFence]

@[simp] theorem State.guestRefused_fuses (s : State) (m : PageMove) : (s.guestRefused m).fuses = s.fuses := by
  simp [State.guestRefused]

@[simp] theorem State.copyPass_fuses (s : State) (k : Nat) (refused : Bool) :
    (s.copyPass k refused).fuses = s.fuses := by
  unfold State.copyPass
  split <;> simp

@[simp] theorem State.fenceAck_fuses (s : State) (k : Nat) : (s.fenceAck k).fuses = s.fuses := by
  unfold State.fenceAck
  split <;> simp

@[simp] theorem State.tellSlower_fuses (s : State) (k tier : Nat) : (s.tellSlower k tier).fuses = s.fuses := by
  simp [State.tellSlower]

@[simp] theorem State.completeMove_fuses (s : State) (k fenceNs : Nat) (remote : List Byte) :
    (s.completeMove k fenceNs remote).fuses = s.fuses := by
  unfold State.completeMove
  split <;> simp

@[simp] theorem State.checkMoves_fuses (s : State) : s.checkMoves.fuses = s.fuses := by
  exact fuses_foldl (fun t m => by (repeat' split) <;> simp) _ _

@[simp] theorem State.moveOut_fuses (s : State) (k : Nat) (origin : Nat) (evac rel : Bool) (tiers : List Nat) :
    (s.moveOut k origin evac rel tiers).1.fuses = s.fuses := by
  unfold State.moveOut
  dsimp only
  (repeat' split) <;> simp

@[simp] theorem State.pinBlocked_fuses (s : State) (k reason : Nat) (origin : Nat) :
    (s.pinBlocked k reason origin).fuses = s.fuses := by simp [State.pinBlocked]

@[simp] theorem State.relResult_fuses (s : State) (n : Nat) :
    (s.relResult n).fuses = s.fuses := by simp [State.relResult]

@[simp] theorem State.releaseStart_fuses (s : State) (n : Nat) : (s.releaseStart n).fuses = s.fuses := by
  simp [State.releaseStart]

@[simp] theorem State.stopInto_fuses (s : State) (n : Nat) : (s.stopInto n).fuses = s.fuses := by simp [State.stopInto]

@[simp] theorem State.releaseStep_fuses (s0 : State) : s0.releaseStep.fuses = s0.fuses := by
  unfold State.releaseStep
  split <;> simp

/-! ### Tasks and task moves -/

@[simp] theorem State.freeze_fuses (s : State) (t : Nat) : (s.freeze t).1.fuses = s.fuses := by simp [State.freeze]

@[simp] theorem State.thaw_fuses (s : State) (qs : List Nat) : (s.thaw qs).fuses = s.fuses := by simp [State.thaw]

@[simp] theorem State.rehome_fuses (s : State) (t n : Nat) : (s.rehome t n).fuses = s.fuses := by simp [State.rehome]

@[simp] theorem State.enterSlot_fuses (s : State) (t b slot : Nat) : (s.enterSlot t b slot).fuses = s.fuses := by
  simp [State.enterSlot]

@[simp] theorem State.leaveSlot_fuses (s : State) (t : Nat) :
    (s.leaveSlot t).fuses = s.fuses := by simp [State.leaveSlot]

@[simp] theorem State.placeTask_fuses (s : State) (t b : Nat) : (s.placeTask t b).fuses = s.fuses := by
  unfold State.placeTask
  split <;> simp

@[simp] theorem State.copyRegion_fuses (s : State) (src dst : Nat) (r : Nat × Nat) :
    (s.copyRegion src dst r).fuses = s.fuses := by simp [State.copyRegion]

@[simp] theorem State.copyTask_fuses (s : State) (t src dst : Nat) : (s.copyTask t src dst).fuses = s.fuses := by
  simp [State.copyTask]

@[simp] theorem State.endTaskCmd_fuses (s : State) (res : Nat) : (s.endTaskCmd res).fuses = s.fuses := by
  simp [State.endTaskCmd]

@[simp] theorem State.startTaskMove_fuses (s : State) (t : Nat) (dst : Option Nat) (origin : Nat)
    (command evac : Bool) :
    (s.startTaskMove t dst origin command evac).fuses = s.fuses := by simp [State.startTaskMove]

@[simp] theorem State.taskMoveOver_fuses (s : State) (m : TaskMove) (reason : Nat) :
    (s.taskMoveOver m reason).fuses = s.fuses := by
  unfold State.taskMoveOver
  dsimp only
  (repeat' split) <;> simp

@[simp] theorem State.abandonTask_fuses (s : State) (m : TaskMove) (reason : Nat) :
    (s.abandonTask m reason).fuses = s.fuses := by simp [State.abandonTask]

@[simp] theorem State.unplaced_fuses (s : State) (m : TaskMove) :
    (s.unplaced m).fuses = s.fuses := by simp [State.unplaced]

@[simp] theorem State.drained_fuses (s : State) (t : Nat) : (s.drained t).fuses = s.fuses := by
  unfold State.drained
  split <;> simp

@[simp] theorem State.completeTask_fuses (s : State) (t : Nat) : (s.completeTask t).fuses = s.fuses := by
  unfold State.completeTask
  (repeat' split) <;> simp

@[simp] theorem State.migwait_fuses (s : State) (t : Nat) : (s.migwait t).fuses = s.fuses := by
  unfold State.migwait
  split <;> simp

@[simp] theorem State.checkTaskMoves_fuses (s : State) : s.checkTaskMoves.fuses = s.fuses := by
  exact fuses_foldl (fun t m => by (repeat' split) <;> simp) _ _

@[simp] theorem State.evacStart_fuses (s : State) (bs : List Nat) (drop byBay : Bool) (owner subject : Nat) :
    (s.evacStart bs drop byBay owner subject).fuses = s.fuses := by simp [State.evacStart]

@[simp] theorem State.evacTask_fuses (s : State) (t : Nat) : (s.evacTask t).fuses = s.fuses := by
  unfold State.evacTask
  (repeat' split) <;> simp

@[simp] theorem State.evacPage_fuses (s : State) (k : Nat) : (s.evacPage k).fuses = s.fuses := by
  unfold State.evacPage
  split <;> simp

@[simp] theorem State.evacStep_fuses (s : State) : s.evacStep.fuses = s.fuses := by
  unfold State.evacStep
  split <;> simp

@[simp] theorem State.replaceTask_fuses (s : State) (b t : Nat) : (s.replaceTask b t).fuses = s.fuses := by
  unfold State.replaceTask
  dsimp only
  (repeat' split) <;> simp

@[simp] theorem State.replaceAll_fuses (s : State) (b : Nat) : (s.replaceAll b).fuses = s.fuses := by
  simp [State.replaceAll]

@[simp] theorem State.rescuePages_fuses (s : State) : s.rescuePages.fuses = s.fuses := by simp [State.rescuePages]

@[simp] theorem State.rehouse_fuses (s : State) : s.rehouse.fuses = s.fuses := by
  exact fuses_foldl (fun t m => by (repeat' split) <;> simp) _ _

@[simp] theorem State.countAccess_fuses (s : State) (b win k : Nat) : (s.countAccess b win k).fuses = s.fuses := by
  simp [State.countAccess]

@[simp] theorem State.heatPages_fuses (s : State) : s.heatPages.fuses = s.fuses := by simp [State.heatPages]

@[simp] theorem State.busyTasks_fuses (s : State) : s.busyTasks.fuses = s.fuses := by
  unfold State.busyTasks
  exact fuses_foldl (fun t k => by dsimp only; split <;> simp) _ _

@[simp] theorem State.decideMoves_fuses (s : State) (k : Nat) (w : Word) : (s.decide_ k w).fuses = s.fuses := by
  simp [State.decide_]

@[simp] theorem State.restorePin_fuses (s : State) (k : Nat) : (s.restorePin k).fuses = s.fuses := by
  unfold State.restorePin
  dsimp only
  (repeat' split) <;> simp

@[simp] theorem State.balanceBay_fuses (s : State) (p : State × Tab Nat) (b : Nat) :
    (s.balanceBay p b).1.fuses = p.1.fuses := by
  unfold State.balanceBay
  dsimp only
  (repeat' split) <;> simp

@[simp] theorem State.balance_fuses (s : State) : s.balance.fuses = s.fuses := by
  unfold State.balance
  exact fuses_foldl_fst (fun r b => State.balanceBay_fuses s r b) _ _

@[simp] theorem State.promote_fuses (s : State) (k : Nat) : (s.promote k).fuses = s.fuses := by
  unfold State.promote
  (repeat' split) <;> simp

@[simp] theorem State.epochEnd_fuses (s0 : State) : s0.epochEnd.fuses = s0.fuses := by
  unfold State.epochEnd
  dsimp only
  (repeat' split) <;> simp

@[simp] theorem State.startDecided_fuses (s : State) (e : Nat × Word) : (s.startDecided e).fuses = s.fuses := by
  simp [State.startDecided]

@[simp] theorem State.startDecidedTask_fuses (s : State) (e : Nat × Nat) : (s.startDecidedTask e).fuses = s.fuses := by
  simp [State.startDecidedTask]

@[simp] theorem State.scribeStep_fuses (s : State) : s.scribeStep.fuses = s.fuses := by simp [State.scribeStep]

/-! ### Accesses through windows -/

@[simp] theorem State.outsideWords_fuses (s : State) (ag : Agent) (b a n : Nat) :
    (s.outsideWords ag b a n).fuses = s.fuses := by
  unfold State.outsideWords
  split <;> simp

@[simp] theorem State.pageRead_fuses (s : State) (ag : Agent) (w : Word) (off n : Nat) :
    (s.pageRead ag w off n).1.fuses = s.fuses := by
  unfold State.pageRead
  exact fuses_tier (fuses_ite_fst_of ((fuses_fst ..).trans ((State.setBay_fuses ..).trans (State.outsideWords_fuses ..))) rfl)
    (State.stgRead_fuses ..) (State.ddrRead_fuses ..) rfl

@[simp] theorem State.pageWrite_fuses (s : State) (ag : Agent) (w : Word) (off : Nat) (data : List Byte)
    (poison : Bool) :
    (s.pageWrite ag w off data poison).1.fuses = s.fuses := by
  unfold State.pageWrite
  exact fuses_tier (fuses_ite_fst_of ((fuses_fst ..).trans ((State.onBay_fuses ..).trans (State.outsideWords_fuses ..))) rfl)
    (State.stgWrite_fuses ..) (State.ddrWrite_fuses ..) rfl

@[simp] theorem State.dirty_fuses (s : State) (k off n : Nat) :
    (s.dirty k off n).fuses = s.fuses := by simp [State.dirty]

@[simp] theorem State.keyWrite_fuses (s : State) (ag : Agent) (k off : Nat) (data : List Byte) (poison : Bool) :
    (s.keyWrite ag k off data poison).1.fuses = s.fuses := by simp [State.keyWrite]

@[simp] theorem State.askPeer_fuses (s : State) (bay fid k off : Nat) (data : Option (List Byte)) (poison : Bool)
    (kind : RemoteKind) :
    (s.askPeer bay fid k off data poison kind).1.fuses = s.fuses := by
  unfold State.askPeer
  split <;> simp

@[simp] theorem State.park_fuses (s : State) (b fid k tag : Nat) (r : Req) :
    (s.park b fid k tag r).fuses = s.fuses := by
  simp [State.park]

@[simp] theorem State.access_fuses (s : State) (b fid k off n : Nat) (data : Option (List Byte)) (lat : Nat → Nat)
    (tag : Nat) (r : Req) (kind : RemoteKind) :
    (s.access b fid k off n data lat tag r kind).1.fuses = s.fuses := by
  unfold State.access
  (repeat' split) <;> simp

@[simp] theorem State.countFirst_fuses (s : State) (first : Bool) (b win k : Nat) :
    (s.countFirst first b win k).fuses = s.fuses := by simp [State.countFirst]

@[simp] theorem State.serveLeaf_fuses (s : State) (b fid win at_ : Nat) (key ea : Word) (bad : Option Word) (first : Bool)
    (tag : Nat) :
    (s.serveLeaf b fid win at_ key ea bad first tag).fuses = s.fuses := by
  unfold State.serveLeaf
  dsimp only
  split
  · rename_i h; simp [fuses_of_eq h]
  · rename_i h; simp [fuses_of_eq h]

@[simp] theorem State.rangeRoot_fuses (s : State) (b fid win base : Nat) (key ea : Word) (p : Resp) :
    (s.rangeRoot b fid win base key ea p).fuses = s.fuses := by simp [State.rangeRoot]

@[simp] theorem State.serve_fuses (s : State) (b : Nat) (r : Req) (first : Bool) (tag : Nat) :
    (s.serve b r first tag).fuses = s.fuses := by
  unfold State.serve
  dsimp only
  split
  case h_5 => exact State.serveLeaf_fuses ..
  case h_6 => rfl
  all_goals
    split
    · rename_i h; simp [fuses_of_eq h]
    · rename_i h; first | (split <;> simp [fuses_of_eq h]) | simp [fuses_of_eq h]

@[simp] theorem State.unpark_fuses (s : State) : s.unpark.fuses = s.fuses := by simp [State.unpark]

@[simp] theorem State.windowResponse_fuses (s : State) (b fid ns : Nat) :
    (s.windowResponse b fid ns).fuses = s.fuses := by
  unfold State.windowResponse
  dsimp only
  (repeat' split) <;> simp

@[simp] theorem State.outerLine_fuses (s : State) (master line : Nat) (p : Resp) :
    (s.outerLine master line p).fuses = s.fuses := by simp [State.outerLine]

@[simp] theorem State.copyAnswer_fuses (s : State) (k line : Nat) (write : Bool) (p : Resp) :
    (s.copyAnswer k line write p).fuses = s.fuses := by
  unfold State.copyAnswer
  (repeat' split) <;> simp

@[simp] theorem State.remoteAnswer_fuses (s : State) (r : Remote) (p : Resp) (tag : Nat) :
    (s.remoteAnswer r p tag).fuses = s.fuses := by
  unfold State.remoteAnswer
  split <;> simp

@[simp] theorem State.lostAnswer_fuses (s : State) (r : Remote) (isolated : Bool) :
    (s.lostAnswer r isolated).fuses = s.fuses := by
  unfold State.lostAnswer
  split <;> simp

@[simp] theorem State.complete_fuses (s : State) (p tag : Nat) (a : Resp) (intr : Nat) :
    (s.complete p tag a intr).fuses = s.fuses := by
  unfold State.complete
  split <;> simp

@[simp] theorem State.busError_fuses (s : State) (master addr : Nat) (write : Bool) (kind : Nat) :
    (s.busError master addr write kind).fuses = s.fuses := by simp [State.busError]

@[simp] theorem State.parts_fuses {go : State → Nat → Nat → List Byte → State × Resp}
    (h : ∀ t a n d, (go t a n d).1.fuses = t.fuses) (s : State) (a : Nat) (d : List Byte) (l : List (Nat × Nat)) :
    (s.parts go a d l).1.fuses = s.fuses := by
  induction l generalizing s d with
  | nil => rfl
  | cons x l ih =>
    obtain ⟨b, n⟩ := x
    exact (ih _ _).trans (h s b n _)

@[simp] theorem State.tablePart_fuses (s : State) (o : Outer) (t off0 a n : Nat) (data : List Byte) :
    (s.tablePart o t off0 a n data).1.fuses = s.fuses := by simp [State.tablePart]

@[simp] theorem State.askLines_fuses (s : State) (o : Outer) (t off : Nat) (ls : List (Nat × Nat)) :
    (s.askLines o t off ls).fuses = s.fuses := by simp [State.askLines]

@[simp] theorem State.countOuter_fuses (s : State) (t off n : Nat) : (s.countOuter t off n).fuses = s.fuses := by
  simp [State.countOuter]

@[simp] theorem State.outerRun_fuses (s : State) (o : Outer) : (s.outerRun o).1.fuses = s.fuses := by
  unfold State.outerRun
  split
  · exact State.parts_fuses (fun t a n d => by dsimp only; split <;> split <;> simp) _ _ _ _
  · exact State.parts_fuses (fun t a n d => by dsimp only; split <;> simp) _ _ _ _
  · exact State.parts_fuses (fun t a n d => by simp) _ _ _ _
  · dsimp only
    (repeat' split) <;> simp
  · split <;> simp
  · rfl
  · rfl

@[simp] theorem State.noBytes_fuses (s : State) (o : Outer) (l : List Byte) : (s.noBytes o l).1.fuses = s.fuses := by
  simp [State.noBytes]

@[simp] theorem State.hostAnswer_fuses (s : State) (o : Outer) (p : Resp) : (s.hostAnswer o p).fuses = s.fuses := by
  unfold State.hostAnswer
  split <;> simp

@[simp] theorem State.busAnswer_fuses (s : State) (o : Outer) (p : Resp) : (s.busAnswer o p).fuses = s.fuses := by
  unfold State.busAnswer
  (repeat' split) <;> simp

@[simp] theorem State.outerPop_fuses (s : State) (m : Nat) : (s.outerPop m).fuses = s.fuses := by simp [State.outerPop]

@[simp] theorem State.outerSet_fuses (s : State) (m : Nat) (f : Outer → Outer) : (s.outerSet m f).fuses = s.fuses := by
  simp [State.outerSet]

@[simp] theorem State.outerServe_fuses (s : State) (m : Nat) (n : Nat) : (s.outerServe m n).fuses = s.fuses := by
  induction n generalizing s with
  | zero => rfl
  | succ n ih => unfold State.outerServe; dsimp only; (repeat' split) <;> simp [ih]

@[simp] theorem State.outerAll_fuses (s : State) : s.outerAll.fuses = s.fuses := by simp [State.outerAll]

@[simp] theorem State.outerAdd_fuses (s : State) (o : Outer) :
    (s.outerAdd o).fuses = s.fuses := by simp [State.outerAdd]

/-! ### What a scarf port receives -/

@[simp] theorem State.passOn_fuses (s : State) (c : Nat) (f : Flit) : (s.passOn c f).fuses = s.fuses := by
  simp [State.passOn]

theorem State.forMe_fuses {handle : State → State} (h : ∀ t, (handle t).fuses = t.fuses) (s : State) (c : Nat)
    (f : Flit) :
    (s.forMe c f handle).fuses = s.fuses := by
  unfold State.forMe
  split <;> simp [h]

@[simp] theorem State.remoteCommit_fuses (s : State) (f : Flit) (a : Partial) :
    (s.remoteCommit f a).fuses = s.fuses := by
  simp [State.remoteCommit]

@[simp] theorem State.takeCell_fuses (s : State) (f : Flit) : (s.takeCell f).fuses = s.fuses := by simp [State.takeCell]

@[simp] theorem State.rxCell_fuses (s : State) (p : Nat) (l : LinkWord) (f : Flit) :
    (s.rxCell p l f).fuses = s.fuses := by
  exact State.receive_fuses (fun t => State.forMe_fuses (fun u => by simp) _ _ _) _ _ _ _

@[simp] theorem State.takeRefuse_fuses (s : State) (f : Flit) : (s.takeRefuse f).fuses = s.fuses := by
  simp [State.takeRefuse]

@[simp] theorem State.rxRefuse_fuses (s : State) (p : Nat) (l : LinkWord) (f : Flit) :
    (s.rxRefuse p l f).fuses = s.fuses := by
  exact State.receive_fuses (fun t => State.forMe_fuses (fun u => by simp) _ _ _) _ _ _ _

@[simp] theorem State.guestAdd_fuses (s : State) (p dev k : Nat) : (s.guestAdd p dev k).fuses = s.fuses := by
  unfold State.guestAdd
  (repeat' split) <;> simp

@[simp] theorem State.guestDrop_fuses (s : State) (dev k : Nat) : (s.guestDrop dev k).fuses = s.fuses := by
  simp [State.guestDrop]

@[simp] theorem State.guestReply_fuses (s : State) (f : Flit) (r : Resp) : (s.guestReply f r).fuses = s.fuses := by
  unfold State.guestReply
  split <;> simp

@[simp] theorem State.guestRun_fuses (s : State) (f : Flit) : (s.guestRun f).1.fuses = s.fuses := by
  unfold State.guestRun
  dsimp only
  (repeat' split) <;> simp

@[simp] theorem State.guestServe_fuses (s : State) (p : Nat) (f : Flit) (guest : Nat) :
    (s.guestServe p f guest).fuses = s.fuses := by simp [State.guestServe]

@[simp] theorem State.takeGuest_fuses (s : State) (p : Nat) (f : Flit) (guest : Nat) :
    (s.takeGuest p f guest).fuses = s.fuses := by simp [State.takeGuest]

@[simp] theorem State.guestResume_fuses (s : State) : s.guestResume.fuses = s.fuses := by simp [State.guestResume]

@[simp] theorem State.rxGuest_fuses (s : State) (p : Nat) (l : LinkWord) (f : Flit) (guest : Nat) :
    (s.rxGuest p l f guest).fuses = s.fuses := by
  exact State.receive_fuses (fun t => State.forMe_fuses (fun u => by simp) _ _ _) _ _ _ _

@[simp] theorem State.rxComp_fuses (s : State) (p : Nat) (l : LinkWord) (f : Flit) (intr : Nat) :
    (s.rxComp p l f intr).fuses = s.fuses := by
  exact State.receive_fuses (fun t => State.forMe_fuses (fun u => by simp) _ _ _) _ _ _ _

@[simp] theorem State.rxErr_fuses (s : State) (p : Nat) (l : LinkWord) (f : Flit) (intr : Nat) :
    (s.rxErr p l f intr).fuses = s.fuses := by
  exact State.receive_fuses (fun t => State.forMe_fuses (fun u => by simp) _ _ _) _ _ _ _

@[simp] theorem State.takeFence_fuses (s : State) (f : Flit) (fwd : Bool) : (s.takeFence f fwd).fuses = s.fuses := by
  simp [State.takeFence]

@[simp] theorem State.rxFence_fuses (s : State) (p : Nat) (l : LinkWord) (f : Flit) (fwd : Bool) :
    (s.rxFence p l f fwd).fuses = s.fuses := by
  exact State.receive_fuses (fun t => State.forMe_fuses (fun u => by simp) _ _ _) _ _ _ _

@[simp] theorem State.updateEnds_fuses (s : State) (forced : Bool) : (s.updateEnds forced).fuses = s.fuses := by
  unfold State.updateEnds
  split <;> simp

@[simp] theorem State.rxFenceAck_fuses (s : State) (p : Nat) (l : LinkWord) (f : Flit) :
    (s.rxFenceAck p l f).fuses = s.fuses := by
  refine State.receive_fuses (fun t => State.forMe_fuses (fun u => ?_) _ _ _) _ _ _ _
  (repeat' split) <;> simp

@[simp] theorem State.takeLstate_fuses (s : State) (p : Nat) (f : Flit) : (s.takeLstate p f).fuses = s.fuses := by
  simp [State.takeLstate]

@[simp] theorem State.rxLstate_fuses (s : State) (p : Nat) (l : LinkWord) (f : Flit) :
    (s.rxLstate p l f).fuses = s.fuses := by exact State.receive_fuses (fun t => by simp) _ _ _ _

@[simp] theorem State.rxReserved_fuses (s : State) (p : Nat) (l : LinkWord) : (s.rxReserved p l).fuses = s.fuses := by
  exact State.receive_fuses (fun t => by simp) _ _ _ _

/-! ### Ethernet -/

@[simp] theorem State.setMac_fuses (s : State) (m : Nat) (x : Mac) : (s.setMac m x).fuses = s.fuses := by
  simp [State.setMac]

@[simp] theorem State.rxDrop_fuses (s : State) (m : Nat) : (s.rxDrop m).fuses = s.fuses := by simp [State.rxDrop]

@[simp] theorem State.frameIn_fuses (s : State) (m : Nat) (f : List Byte) (good : Bool) (t : Nat) :
    (s.frameIn m f good t).fuses = s.fuses := by
  unfold State.frameIn
  (repeat' split) <;> simp

@[simp] theorem State.txBad_fuses (s : State) (m q : Nat) (g : Msg) : (s.txBad m q g).fuses = s.fuses := by
  simp [State.txBad]

@[simp] theorem State.ethTake_fuses (s : State) (m : Nat) : (s.ethTake m).fuses = s.fuses := by
  unfold State.ethTake
  (repeat' split) <;> simp

@[simp] theorem State.txReport_fuses (s : State) (m : Nat) (x : Sending) (t : Nat) :
    (s.txReport m x t).fuses = s.fuses := by
  simp [State.txReport]

@[simp] theorem State.ethSent_fuses (s : State) (m t : Nat) : (s.ethSent m t).fuses = s.fuses := by
  unfold State.ethSent
  split <;> simp

@[simp] theorem State.txCut_fuses (s : State) (m : Nat) : (s.txCut m).fuses = s.fuses := by
  unfold State.txCut
  split <;> simp

@[simp] theorem State.ethUp_fuses (s : State) (m : Nat) : (s.ethUp m).fuses = s.fuses := by simp [State.ethUp]

@[simp] theorem State.ethLeave_fuses (s : State) (m st : Nat) : (s.ethLeave m st).fuses = s.fuses := by
  simp [State.ethLeave]

@[simp] theorem State.ethDown_fuses (s : State) (m : Nat) : (s.ethDown m).fuses = s.fuses := by simp [State.ethDown]

@[simp] theorem State.ethCtl_fuses (s : State) (m : Nat) (v : Word) : (s.ethCtl m v).fuses = s.fuses := by
  simp [State.ethCtl]

/-! ### The host link -/

@[simp] theorem State.unsupported_fuses (s : State) (bar : Nat) (write : Bool) (off n : Nat) (req : Option Word) :
    (s.unsupported bar write off n req).fuses = s.fuses := by simp [State.unsupported]

@[simp] theorem State.malformed_fuses (s : State) (hdr : List Word) : (s.malformed hdr).fuses = s.fuses := by
  simp [State.malformed]

@[simp] theorem State.hostUp_fuses (s : State) (gen width : Nat) : (s.hostUp gen width).fuses = s.fuses := by
  simp [State.hostUp]

@[simp] theorem State.hostRead_fuses (s : State) (bar2 : Bool) (off n : Nat) :
    (s.hostRead bar2 off n).fuses = s.fuses := by
  simp [State.hostRead]

@[simp] theorem State.bar4Write_fuses (s : State) (off : Nat) (data : List Byte) (poison : Bool) (req : Word) :
    (s.bar4Write off data poison req).fuses = s.fuses := by simp [State.bar4Write]

@[simp] theorem State.bar2Write_fuses (s : State) (off : Nat) (data : List Byte) (poison : Bool) :
    (s.bar2Write off data poison).fuses = s.fuses := by simp [State.bar2Write]

@[simp] theorem State.pciWrite_fuses (s : State) (o : Nat) (v : Word) : (s.pciWrite o v).fuses = s.fuses := by
  simp [State.pciWrite]

@[simp] theorem State.pciRequest_fuses (s : State) (write : Bool) (o : Nat) (v : Word) :
    (s.pciRequest write o v).fuses = s.fuses := by simp [State.pciRequest]

@[simp] theorem State.hostReset_fuses (s : State) : s.hostReset.fuses = s.fuses := by simp [State.hostReset]

/-! ### Resets -/

@[simp] theorem State.isolate_fuses (s : State) (hit : Outside → Bool) : (s.isolate hit).fuses = s.fuses := by
  simp [State.isolate]

@[simp] theorem State.dropIssued_fuses (s : State) (b : Nat) : (s.dropIssued b).fuses = s.fuses := by
  simp [State.dropIssued]

@[simp] theorem State.dropBay_fuses (s : State) (b : Nat) : (s.dropBay b).fuses = s.fuses := by simp [State.dropBay]

@[simp] theorem State.disturb_fuses (s : State) (b : Nat) : (s.disturb b).fuses = s.fuses := by simp [State.disturb]

@[simp] theorem State.bayRelease_fuses (s : State) (b : Nat) : (s.bayRelease b).fuses = s.fuses := by
  simp [State.bayRelease]

@[simp] theorem State.bentReset_fuses (s : State) (n : Nat) (byRaise : Bool) :
    (s.bentReset n byRaise).fuses = s.fuses := by
  simp [State.bentReset]

@[simp] theorem State.scrambleBent_fuses (s : State) (n : Nat) : (s.scrambleBent n).fuses = s.fuses := by
  simp [State.scrambleBent]

@[simp] theorem State.bentWake_fuses (s : State) (n : Nat) : (s.bentWake n).fuses = s.fuses := by simp [State.bentWake]

@[simp] theorem State.holdBit_fuses (s : State) (v : Word) (n : Nat) : (s.holdBit v n).fuses = s.fuses := by
  simp [State.holdBit]

@[simp] theorem State.rstBent_fuses (s : State) (v : Word) : (s.rstBent v).fuses = s.fuses := by simp [State.rstBent]

@[simp] theorem State.bentDone_fuses (s : State) (n : Nat) : (s.bentDone n).fuses = s.fuses := by simp [State.bentDone]

@[simp] theorem State.rstBay_fuses (s : State) (v : Word) : (s.rstBay v).fuses = s.fuses := by simp [State.rstBay]

@[simp] theorem State.chanBlock_fuses (s : State) (c : Nat) :
    (s.chanBlock c).fuses = s.fuses := by simp [State.chanBlock]

@[simp] theorem State.portBlock_fuses (s : State) (p : Nat) :
    (s.portBlock p).fuses = s.fuses := by simp [State.portBlock]

@[simp] theorem State.macBlock_fuses (s : State) (m : Nat) : (s.macBlock m).fuses = s.fuses := by simp [State.macBlock]

@[simp] theorem State.rstBlock_fuses (s : State) (v : Word) : (s.rstBlock v).fuses = s.fuses := by simp [State.rstBlock]

@[simp] theorem State.wrapperDrained_fuses (s : State) :
    s.wrapperDrained.fuses = s.fuses := by simp [State.wrapperDrained]

@[simp] theorem State.pulseDone_fuses (s : State) : s.pulseDone.fuses = s.fuses := by
  unfold State.pulseDone
  dsimp only
  (repeat' split) <;> simp

@[simp] theorem State.copyTemp_fuses (s : State) (n : Nat) : (s.copyTemp n).fuses = s.fuses := by simp [State.copyTemp]

@[simp] theorem State.acRefresh_fuses (s : State) : s.acRefresh.fuses = s.fuses := by simp [State.acRefresh]

@[simp] theorem State.writeCaps_fuses (s : State) (e : Nat) (l : List CapEnt) : (s.writeCaps e l).fuses = s.fuses := by
  induction l generalizing s e with
  | nil => rfl
  | cons c l ih => simp [State.writeCaps, ih]

@[simp] theorem State.buildCaps_fuses (s : State) : s.buildCaps.fuses = s.fuses := by simp [State.buildCaps]

theorem warm_otp (x : Sec) : x.warm.otp = x.otp := by
  unfold Sec.warm
  split <;> rfl

@[simp] theorem State.wideReset_fuses (s : State) (reach : Nat) : (s.wideReset reach).fuses = s.fuses := by
  unfold State.wideReset
  rw [fuses_mk]
  split <;> simp [warm_otp]

@[simp] theorem State.assertReset_fuses (s : State) (src : Nat) : (s.assertReset src).fuses = s.fuses := by
  simp [State.assertReset]

@[simp] theorem State.releaseReset_fuses (s : State) (src : Nat) : (s.releaseReset src).fuses = s.fuses := by
  simp [State.releaseReset]

@[simp] theorem State.scrambleCore_fuses (s : State) : s.scrambleCore.fuses = s.fuses := by simp [State.scrambleCore]

@[simp] theorem State.wideExit_fuses (s : State) : s.wideExit.fuses = s.fuses := by simp [State.wideExit]

@[simp] theorem State.exitDone_fuses (s : State) : s.exitDone.fuses = s.fuses := by simp [State.exitDone]

@[simp] theorem State.exitOf_fuses (s : State) (what : Nat) : (s.exitOf what).fuses = s.fuses := by simp [State.exitOf]

@[simp] theorem State.rstSwCold_fuses (s : State) : s.rstSwCold.fuses = s.fuses := by simp [State.rstSwCold]

@[simp] theorem State.rstSw_fuses (s : State) (ag : Agent) (v : Word) : (s.rstSw ag v).fuses = s.fuses := by
  simp [State.rstSw]

@[simp] theorem State.startFails_fuses (s : State) : s.startFails.fuses = s.fuses := by simp [State.startFails]

@[simp] theorem State.failIfStarting_fuses (s : State) :
    s.failIfStarting.fuses = s.fuses := by simp [State.failIfStarting]

@[simp] theorem State.windowExpires_fuses (s : State) : s.windowExpires.fuses = s.fuses := by simp [State.windowExpires]

@[simp] theorem State.failstart_fuses (s : State) : s.failstart.fuses = s.fuses := by simp [State.failstart]

@[simp] theorem State.bootOk_fuses (s : State) : s.bootOk.fuses = s.fuses := by simp [State.bootOk]

@[simp] theorem State.trimStart_fuses (s : State) (ag : Agent) (v : Word) : (s.trimStart ag v).fuses = s.fuses := by
  simp [State.trimStart]

@[simp] theorem State.trimDone_fuses (s : State) (ok : Bool) :
    (s.trimDone ok).fuses = s.fuses := by simp [State.trimDone]

@[simp] theorem State.wdgCtl_fuses (s : State) (v : Word) : (s.wdgCtl v).fuses = s.fuses := by simp [State.wdgCtl]

@[simp] theorem State.wdgKick_fuses (s : State) (v : Word) : (s.wdgKick v).fuses = s.fuses := by simp [State.wdgKick]

@[simp] theorem State.wdgExpire_fuses (s : State) : s.wdgExpire.fuses = s.fuses := by simp [State.wdgExpire]

@[simp] theorem State.wdgTick_fuses (s : State) : s.wdgTick.fuses = s.fuses := by simp [State.wdgTick]

/-! ### Power domains -/

@[simp] theorem State.domBegin_fuses (s : State) (d goal : Nat) : (s.domBegin d goal).fuses = s.fuses := by
  simp [State.domBegin]

@[simp] theorem State.pwrWrite_fuses (s : State) (ctl ret : Word) (named : Nat) (always : Bool) :
    (s.pwrWrite ctl ret named always).fuses = s.fuses := by simp [State.pwrWrite]

@[simp] theorem State.pwrCtl_fuses (s : State) (v : Word) : (s.pwrCtl v).fuses = s.fuses := by simp [State.pwrCtl]

@[simp] theorem State.pwrRet_fuses (s : State) (v : Word) : (s.pwrRet v).fuses = s.fuses := by simp [State.pwrRet]

@[simp] theorem State.scfPowerUp_fuses (s : State) : s.scfPowerUp.fuses = s.fuses := by simp [State.scfPowerUp]

@[simp] theorem State.domOn_fuses (s : State) (d : Nat) : (s.domOn d).fuses = s.fuses := by simp [State.domOn]

@[simp] theorem State.writesDone_fuses (s : State) (d : Nat) : (s.writesDone d).fuses = s.fuses := by
  simp [State.writesDone]

@[simp] theorem State.domDone_fuses (s : State) (d : Nat) : (s.domDone d).fuses = s.fuses := by simp [State.domDone]

@[simp] theorem State.pllLoss_fuses (s : State) (i : Nat) : (s.pllLoss i).fuses = s.fuses := by simp [State.pllLoss]

@[simp] theorem State.thermalSample_fuses (s : State) (temps : List Int) : (s.thermalSample temps).fuses = s.fuses := by
  simp [State.thermalSample]

@[simp] theorem State.throttleAdjust_fuses (s : State) :
    s.throttleAdjust.fuses = s.fuses := by simp [State.throttleAdjust]

@[simp] theorem State.throttlePeriod_fuses (s : State) (n : Nat) : (s.throttlePeriod n).fuses = s.fuses := by
  simp [State.throttlePeriod]

@[simp] theorem State.throttleEnd_fuses (s : State) (n : Nat) : (s.throttleEnd n).fuses = s.fuses := by
  simp [State.throttleEnd]

@[simp] theorem State.thmCtl_fuses (s : State) (v : Word) : (s.thmCtl v).fuses = s.fuses := by simp [State.thmCtl]

/-! ### Background work -/

@[simp] theorem State.lastRec_fuses (s : State) (ws : List Word) :
    (s.lastRec ws).fuses = s.fuses := by simp [State.lastRec]

@[simp] theorem State.recordPost_fuses (s : State) : s.recordPost.fuses = s.fuses := by
  unfold State.recordPost
  split <;> simp

@[simp] theorem State.periodic_fuses (s : State) : s.periodic.fuses = s.fuses := by simp [State.periodic]

@[simp] theorem State.checkRecord_fuses (s : State) (b : Nat) (cause info : Word) :
    (s.checkRecord b cause info).fuses = s.fuses := by simp [State.checkRecord]

@[simp] theorem State.downRecord_fuses (s : State) (b : Nat) (cause : Word) (addr : Nat) :
    (s.downRecord b cause addr).fuses = s.fuses := by simp [State.downRecord]

@[simp] theorem State.retireGo_fuses (s : State) (b : Nat) (drop auto : Bool) :
    (s.retireGo b drop auto).fuses = s.fuses := by
  simp [State.retireGo]

@[simp] theorem State.bgRetire_fuses (s : State) (ag : Agent) (v : Word) : (s.bgRetire ag v).fuses = s.fuses := by
  simp [State.bgRetire]

@[simp] theorem State.retireFinish_fuses (s : State) : s.retireFinish.fuses = s.fuses := by
  unfold State.retireFinish
  split <;> simp

@[simp] theorem State.autoRetire_fuses (s : State) (b : Nat) : (s.autoRetire b).fuses = s.fuses := by
  simp [State.autoRetire]

@[simp] theorem State.journal_fuses (s : State) (i bit : Nat) (w9 : Word) : (s.journal i bit w9).fuses = s.fuses := by
  simp [State.journal]

@[simp] theorem State.patrolSlot_fuses (s : State) (i : Nat) : (s.patrolSlot i).fuses = s.fuses := by
  simp [State.patrolSlot]

@[simp] theorem State.patrolStart_fuses (s : State) : s.patrolStart.fuses = s.fuses := by simp [State.patrolStart]

@[simp] theorem State.patrolEnd_fuses (s : State) : s.patrolEnd.fuses = s.fuses := by simp [State.patrolEnd]

/-! ### Management -/

@[simp] theorem State.mxhPost_fuses (s : State) (v : Word) : (s.mxhPost v).fuses = s.fuses := by simp [State.mxhPost]

@[simp] theorem State.mxhDone_fuses (s : State) (ag : Agent) (v : Word) : (s.mxhDone ag v).fuses = s.fuses := by
  simp [State.mxhDone]

@[simp] theorem State.mxhWord_fuses (s : State) (ag : Agent) (off : Nat) (v : Word) :
    (s.mxhWord ag off v).fuses = s.fuses := by simp [State.mxhWord]

@[simp] theorem State.mxhAnswer_fuses (s : State) (status : Nat) (rs : List Word) :
    (s.mxhAnswer status rs).fuses = s.fuses := by simp [State.mxhAnswer]

@[simp] theorem State.svcStatus_fuses (s : State) : s.svcStatus.fuses = s.fuses := by simp [State.svcStatus]

@[simp] theorem State.svcFlashRead_fuses (s : State) (ok : Bool) : (s.svcFlashRead ok).fuses = s.fuses := by
  simp [State.svcFlashRead]

@[simp] theorem State.flashProgram_fuses (s : State) (a : Nat) (data : List Byte) :
    (s.flashProgram a data).fuses = s.fuses := by simp [State.flashProgram]

@[simp] theorem State.svcFlashWrite_fuses (s : State) (ok : Bool) : (s.svcFlashWrite ok).fuses = s.fuses := by
  simp [State.svcFlashWrite]

@[simp] theorem State.svcFlashErase_fuses (s : State) (ok : Bool) : (s.svcFlashErase ok).fuses = s.fuses := by
  simp [State.svcFlashErase]

@[simp] theorem State.svcLeaveShoring_fuses (s : State) : s.svcLeaveShoring.fuses = s.fuses := by
  simp [State.svcLeaveShoring]

@[simp] theorem State.mxBoot_fuses (s : State) (ag : Agent) (v : Word) : (s.mxBoot ag v).fuses = s.fuses := by
  simp [State.mxBoot]

@[simp] theorem State.mxCtl_fuses (s : State) (ag : Agent) (v : Word) : (s.mxCtl ag v).fuses = s.fuses := by
  simp [State.mxCtl]

@[simp] theorem State.xspiPush_fuses (s : State) (v : Word) : (s.xspiPush v).fuses = s.fuses := by simp [State.xspiPush]

@[simp] theorem State.xspiCmd_fuses (s : State) (v : Word) : (s.xspiCmd v).fuses = s.fuses := by simp [State.xspiCmd]

@[simp] theorem State.xspiDone_fuses (s : State) (rx : List Word) (at_ : Nat) (new : List Byte) :
    (s.xspiDone rx at_ new).fuses = s.fuses := by simp [State.xspiDone]

@[simp] theorem State.xspiPop_fuses (s : State) : s.xspiPop.1.fuses = s.fuses := by
  unfold State.xspiPop
  split <;> simp

@[simp] theorem State.smbXfer_fuses (s : State) (v : Word) : (s.smbXfer v).fuses = s.fuses := by simp [State.smbXfer]

@[simp] theorem State.smbDone_fuses (s : State) (ack pec : Bool) (data : List Byte) :
    (s.smbDone ack pec data).fuses = s.fuses := by simp [State.smbDone]

@[simp] theorem State.smbTarget_fuses (s : State) (pec : Bool) (data : List Byte) :
    (s.smbTarget pec data).fuses = s.fuses := by simp [State.smbTarget]

@[simp] theorem State.smbPop_fuses (s : State) : s.smbPop.1.fuses = s.fuses := by
  unfold State.smbPop
  split <;> simp

@[simp] theorem State.uartRx_fuses (s : State) (b : Byte) (framed : Bool) : (s.uartRx b framed).fuses = s.fuses := by
  simp [State.uartRx]

@[simp] theorem State.uartTx_fuses (s : State) : s.uartTx.fuses = s.fuses := by
  unfold State.uartTx
  split <;> simp

@[simp] theorem State.uartPop_fuses (s : State) : s.uartPop.1.fuses = s.fuses := by
  unfold State.uartPop
  split <;> simp

@[simp] theorem State.gpioEdges_fuses (s : State) (old : Word) : (s.gpioEdges old).fuses = s.fuses := by
  simp [State.gpioEdges]

@[simp] theorem State.gpioPins_fuses (s : State) (v : PinLevels) : (s.gpioPins v).fuses = s.fuses := by
  simp [State.gpioPins]

@[simp] theorem State.gpioWrite_fuses (s : State) (a : Nat) (v : Word) : (s.gpioWrite a v).fuses = s.fuses := by
  simp [State.gpioWrite]

@[simp] theorem State.syncBay_fuses (s : State) (k : Nat) : (s.syncBay k).fuses = s.fuses := by simp [State.syncBay]

/-! ### The security module -/

@[simp] theorem setPort_otp (x : Sec) (p : Bool) (y : SecPort) : (x.setPort p y).otp = x.otp := by cases p <;> rfl
@[simp] theorem onPort_otp (x : Sec) (p : Bool) (f : SecPort → SecPort) :
    (x.onPort p f).otp = x.otp := setPort_otp _ _ _
@[simp] theorem answer_otp (x : Sec) (p : Bool) (st : Nat) (rs : List Word) : (x.answer p st rs).otp = x.otp := by
  cases p <;> rfl
@[simp] theorem clear_otp (n : Nat) (x : Sec) : (x.clear n).otp = x.otp := by
  obtain ⟨-, -, h, -⟩ := Laws.Security.clear_rest x n
  exact h

@[simp] theorem State.setSec_fuses (s : State) (x : Sec) : (s.setSec x).fuses = (s.hw, x.otp) := by
  simp [State.setSec]

@[simp] theorem State.secPost_fuses (s : State) (p : Bool) (v : Word) : (s.secPost p v).fuses = s.fuses := by
  simp [State.secPost]

@[simp] theorem State.secReq_fuses (s : State) (p : Bool) (n : Nat) (v : Word) : (s.secReq p n v).fuses = s.fuses := by
  unfold State.secReq
  split <;> simp [onPort_otp]

@[simp] theorem State.service_fuses {run : State → State} (s : State) (h : (run s).fuses = s.fuses) (p : Bool)
    (op role : Nat) :
    (s.service p op role run).fuses = s.fuses := by
  unfold State.service
  (repeat' split) <;> simp [h]

@[simp] theorem State.secEnd_fuses (s : State) (p : Bool) (status : Nat) (rs : List Word) :
    (s.secEnd p status rs).fuses = s.fuses := by simp [State.secEnd]

@[simp] theorem State.random_fuses (s : State) (n : Nat) : (s.random n).1.fuses = s.fuses := by simp [State.random]

@[simp] theorem State.secRead_fuses (s : State) (a n : Nat) : (s.secRead a n).1.fuses = s.fuses := by
  unfold State.secRead
  exact (fuses_fst ..).trans (State.parts_fuses (fun _ _ _ _ => State.stgRead_fuses ..) _ _ _ _)

@[simp] theorem State.secWrite_fuses (s : State) (a : Nat) (data : List Byte) :
    (s.secWrite a data).1.fuses = s.fuses := by
  unfold State.secWrite
  exact (fuses_fst ..).trans (State.parts_fuses (fun _ _ _ _ => State.stgWrite_fuses ..) _ _ _ _)

theorem State.withInput_fuses {go : State → List Byte → State} (h : ∀ t d, (go t d).fuses = t.fuses) (s : State)
    (p : Bool) (a n : Nat) :
    (s.withInput p a n go).fuses = s.fuses := by
  unfold State.withInput
  split
  · simp
  · split
    · rename_i e
      rw [h, fuses_of_eq e]
      simp
    · rename_i e
      rw [State.secEnd_fuses, fuses_of_eq e]
      simp

@[simp] theorem State.outputEnd_fuses (s : State) (p : Bool) (a : Nat) (data : List Byte) (status : Nat)
    (rs : List Word) :
    (s.outputEnd p a data status rs).fuses = s.fuses := by simp [State.outputEnd]

@[simp] theorem State.setHandle_fuses (s : State) (i : Nat) (h : Option Handle) :
    (s.setHandle i h).fuses = s.fuses := by
  simp [State.setHandle]

theorem State.withHandle_fuses {go : List Byte → State} {s : State} (h : ∀ k, (go k).fuses = s.fuses) (p : Bool)
    (i kind : Nat) :
    (s.withHandle p i kind go).fuses = s.fuses := by
  unfold State.withHandle
  split <;> simp [h]

@[simp] theorem State.svcSecStatus_fuses (s : State) (p : Bool) : (s.svcSecStatus p).fuses = s.fuses := by
  simp [State.svcSecStatus]

@[simp] theorem State.svcSelftest_fuses (s : State) (p : Bool) : (s.svcSelftest p).fuses = s.fuses := by
  simp [State.svcSelftest]

@[simp] theorem State.svcNonce_fuses (s : State) (p : Bool) : (s.svcNonce p).fuses = s.fuses := by simp [State.svcNonce]

@[simp] theorem State.svcAuth_fuses (s : State) (p : Bool) (role slot : Nat) (sig : List Byte) :
    (s.svcAuth p role slot sig).fuses = s.fuses := by
  refine State.service_fuses s ?_ _ _ _
  (repeat' split) <;> simp

theorem dropHandles_otp (x : Sec) (p : Bool) : (x.dropHandles p).otp = x.otp := rfl

@[simp] theorem State.svcLogout_fuses (s : State) (p : Bool) : (s.svcLogout p).fuses = s.fuses := by
  refine State.service_fuses s ?_ _ _ _
  simp [dropHandles_otp]

@[simp] theorem State.svcHash_fuses (s : State) (p : Bool) (alg src len : Nat) :
    (s.svcHash p alg src len).fuses = s.fuses := by
  exact State.service_fuses s (State.withInput_fuses (fun t d => by simp) _ _ _ _) _ _ _

@[simp] theorem State.svcHmac_fuses (s : State) (p : Bool) (alg h src len : Nat) :
    (s.svcHmac p alg h src len).fuses = s.fuses := by
  exact State.service_fuses s (State.withHandle_fuses (fun k =>
    State.withInput_fuses (fun t d => by simp) _ _ _ _) _ _ _) _ _ _

@[simp] theorem State.svcGcmEnc_fuses (s : State) (p : Bool) (h : Nat) (aad : List Byte) (src len dst : Nat) :
    (s.svcGcmEnc p h aad src len dst).fuses = s.fuses := by
  exact State.service_fuses s (State.withHandle_fuses (fun k =>
    State.withInput_fuses (fun t d => by simp) _ _ _ _) _ _ _) _ _ _

@[simp] theorem State.svcGcmDec_fuses (s : State) (p : Bool) (h : Nat) (iv tag aad : List Byte) (src len dst : Nat) :
    (s.svcGcmDec p h iv tag aad src len dst).fuses = s.fuses := by
  exact State.service_fuses s (State.withHandle_fuses (fun k =>
    State.withInput_fuses (fun t d => by split <;> simp) _ _ _ _) _ _ _) _ _ _

@[simp] theorem State.svcXts_fuses (s : State) (p : Bool) (enc : Bool) (h1 h2 tweak src len dst : Nat) :
    (s.svcXts p enc h1 h2 tweak src len dst).fuses = s.fuses := by
  exact State.service_fuses s (State.withHandle_fuses (fun k => State.withHandle_fuses
    (fun l => State.withInput_fuses (fun t d => by simp) _ _ _ _) _ _ _) _ _ _) _ _ _

@[simp] theorem State.svcSign_fuses (s : State) (p : Bool) (h src len : Nat) :
    (s.svcSign p h src len).fuses = s.fuses := by
  exact State.service_fuses s (State.withHandle_fuses (fun k =>
    State.withInput_fuses (fun t d => by simp) _ _ _ _) _ _ _) _ _ _

@[simp] theorem State.svcVerify_fuses (s : State) (p : Bool) (pub sig : List Byte) (src len : Nat) :
    (s.svcVerify p pub sig src len).fuses = s.fuses := by
  exact State.service_fuses s (State.withInput_fuses (fun t d => by simp) _ _ _ _) _ _ _

@[simp] theorem State.svcEcdh_fuses (s : State) (p : Bool) (h : Nat) (pub : List Byte) :
    (s.svcEcdh p h pub).fuses = s.fuses := by
  refine State.service_fuses s ?_ _ _ _
  dsimp only
  (repeat' split) <;> simp

@[simp] theorem State.svcKeygen_fuses (s : State) (p : Bool) (h kind : Nat) (pass : Bool) :
    (s.svcKeygen p h kind pass).fuses = s.fuses := by
  refine State.service_fuses s ?_ _ _ _
  dsimp only
  (repeat' split) <;> simp

@[simp] theorem State.svcWrap_fuses (s : State) (p : Bool) (h under : Nat) : (s.svcWrap p h under).fuses = s.fuses := by
  refine State.service_fuses s ?_ _ _ _
  (repeat' split) <;> simp

@[simp] theorem State.svcUnwrap_fuses (s : State) (p : Bool) (h under kind : Nat) (w : List Byte) :
    (s.svcUnwrap p h under kind w).fuses = s.fuses := by
  refine State.service_fuses s ?_ _ _ _
  dsimp only
  (repeat' split) <;> simp

@[simp] theorem State.svcKeydel_fuses (s : State) (p : Bool) (h : Nat) : (s.svcKeydel p h).fuses = s.fuses := by
  refine State.service_fuses s ?_ _ _ _
  (repeat' split) <;> simp

@[simp] theorem State.svcRandom_fuses (s : State) (p : Bool) (n dst : Nat) : (s.svcRandom p n dst).fuses = s.fuses := by
  refine State.service_fuses s ?_ _ _ _
  dsimp only
  (repeat' split) <;> simp

@[simp] theorem State.svcAttest_fuses (s : State) (p : Bool) (nonce : List Byte) :
    (s.svcAttest p nonce).fuses = s.fuses := by
  simp [State.svcAttest]

@[simp] theorem State.zeroise_fuses (s : State) : s.zeroise.fuses = s.fuses := by
  unfold State.zeroise
  have h : (s.isolate fun o => o.ddr.isSome).memErase.fuses = s.fuses :=
    (State.memErase_fuses ..).trans (State.isolate_fuses ..)
  generalize (s.isolate fun o => o.ddr.isSome).memErase = w at h ⊢
  refine fuses_ite_of rfl ?_
  rw [State.setSec_fuses, ← h]
  split <;> simp

@[simp] theorem State.zeroised_fuses (s : State) : s.zeroised.fuses = s.fuses := by
  unfold State.zeroised
  have after (x : Sec) (hx : x.otp = s.sec.otp) : (if 4 ≤ s.rst.reach then ({ s with sec := x.warm } : State).releaseReset 1
      else (s.setSec x).event 0x20030 1).fuses = s.fuses := by
    split <;> simp [hx, warm_otp]
  exact fuses_ite_of rfl (after _ (by (repeat' split) <;> simp))

@[simp] theorem State.svcZeroise_fuses (s : State) (p : Bool) : (s.svcZeroise p).fuses = s.fuses := by
  simp [State.svcZeroise]

@[simp] theorem State.tamper_fuses (s : State) : s.tamper.fuses = s.fuses := by simp [State.tamper]

@[simp] theorem State.tamperTrip_fuses (s : State) (code : Nat) : (s.tamperTrip code).fuses = s.fuses := by
  simp [State.tamperTrip]

@[simp] theorem State.healthFail_fuses (s : State) : s.healthFail.fuses = s.fuses := by simp [State.healthFail]

@[simp] theorem State.selftestDone_fuses (s : State) (pass : Bool) : (s.selftestDone pass).fuses = s.fuses := by
  unfold State.selftestDone
  dsimp only
  (repeat' split) <;> simp

@[simp] theorem State.relock_fuses (s : State) : s.relock.fuses = s.fuses := by simp [State.relock]

/-! ### Raises -/

@[simp] theorem State.planRead_fuses (s : State) (a n : Nat) : (s.planRead a n).1.fuses = s.fuses := by
  unfold State.planRead
  exact (fuses_fst ..).trans (State.parts_fuses (fun _ _ _ _ => State.stgRead_fuses ..) _ _ _ _)

@[simp] theorem State.onRsu_fuses (s : State) (f : Rsu → Rsu) : (s.onRsu f).fuses = s.fuses := by simp [State.onRsu]

@[simp] theorem State.wipePlan_fuses (s : State) : s.wipePlan.fuses = s.fuses := by
  unfold State.wipePlan
  split
  · rfl
  · exact fuses_foldl (fun t e => State.parts_fuses (fun _ _ _ _ => State.stgWrite_fuses _ _ _ _ _) _ _ _ _) _ _

@[simp] theorem State.raiseEnd_fuses (s : State) (result reason : Nat) :
    (s.raiseEnd result reason).fuses = s.fuses := by
  simp [State.raiseEnd]

@[simp] theorem State.loseBay_fuses (s : State) (b : Nat) : (s.loseBay b).fuses = s.fuses := by simp [State.loseBay]

@[simp] theorem State.loseQueues_fuses (s : State) : s.loseQueues.fuses = s.fuses := by simp [State.loseQueues]

@[simp] theorem State.unplaceAgain_fuses (s : State) (t : Nat) : (s.unplaceAgain t).fuses = s.fuses := by
  simp [State.unplaceAgain]

@[simp] theorem State.bentFree_fuses (s : State) (n : Nat) : (s.bentFree n).fuses = s.fuses := by simp [State.bentFree]

@[simp] theorem State.raiseFail_fuses (s : State) (reason : Nat) : (s.raiseFail reason).fuses = s.fuses := by
  simp [State.raiseFail]

@[simp] theorem State.raiseTo_fuses (s : State) (n : Nat) : (s.raiseTo n).fuses = s.fuses := by simp [State.raiseTo]

@[simp] theorem State.rsuCmd_fuses (s : State) (op : Nat) : (s.rsuCmd op).fuses = s.fuses := by simp [State.rsuCmd]

@[simp] theorem State.raiseFetch_fuses (s : State) : s.raiseFetch.fuses = s.fuses := by
  have read (a n : Nat) (c : Nat) : ((s.planRead a n).1.raiseFail c).fuses = s.fuses :=
    (State.raiseFail_fuses ..).trans (State.planRead_fuses ..)
  have read2 (a b n m c : Nat) : (((s.planRead a n).1.planRead b m).1.raiseFail c).fuses = s.fuses :=
    (State.raiseFail_fuses ..).trans ((State.planRead_fuses ..).trans (State.planRead_fuses ..))
  have gaps (a b n m : Nat) (l : List (Nat × Nat)) : (l.foldl (fun (x : State × Bool) g =>
        let y := x.1.planRead g.1 g.2
        (y.1, x.2 && y.2)) (((s.planRead a n).1.planRead b m).1, true)).1.fuses = s.fuses :=
    (fuses_foldl_fst (fun _ _ => (fuses_fst ..).trans (State.planRead_fuses ..)) _ _).trans
      ((fuses_fst ..).trans ((State.planRead_fuses ..).trans (State.planRead_fuses ..)))
  unfold State.raiseFetch
  exact fuses_ite_of (read ..) (fuses_ite_of (read ..) (fuses_ite_of (read ..) (fuses_ite_of (read2 ..) (fuses_ite_of (read2 ..)
    (fuses_ite_of ((State.raiseFail_fuses ..).trans (gaps ..)) (fuses_ite_of ((State.raiseFail_fuses ..).trans (gaps ..))
      (fuses_ite_of ((State.raiseFail_fuses ..).trans (gaps ..))
        ((State.raiseTo_fuses ..).trans ((State.onRsu_fuses ..).trans (gaps ..))))))))))

@[simp] theorem State.raiseAuth_fuses (s : State) : s.raiseAuth.fuses = s.fuses := by simp [State.raiseAuth]

@[simp] theorem State.putPayloads_fuses (s : State) (l : List Byte) (ls : List Section_) :
    (s.putPayloads l ls).fuses = s.fuses := by
  induction ls generalizing s l with
  | nil => rfl
  | cons e t ih =>
    unfold State.putPayloads
    exact (ih _ _).trans (State.parts_fuses (fun _ _ _ _ => State.stgWrite_fuses ..) _ _ _ _)

@[simp] theorem State.raiseDecrypt_fuses (s : State) : s.raiseDecrypt.fuses = s.fuses := by
  unfold State.raiseDecrypt
  split <;> simp

@[simp] theorem State.loadBay_fuses (s : State) (p : Plan) (b : Nat) : (s.loadBay p b).fuses = s.fuses := by
  simp [State.loadBay]

@[simp] theorem State.loadBanks_fuses (s : State) (p : Plan) :
    (s.loadBanks p).fuses = s.fuses := by simp [State.loadBanks]

@[simp] theorem State.loadQueues_fuses (s : State) (p : Plan) : (s.loadQueues p).fuses = s.fuses := by
  simp [State.loadQueues]

@[simp] theorem State.loadTables_fuses (s : State) (p : Plan) : (s.loadTables p).fuses = s.fuses := by
  simp [State.loadTables]

/-- A step of a fold over states that may fail: where it does not, it keeps the fuses. -/
def KeepsSome (g : Option State → Option State) : Prop := ∀ o v, g o = some v → ∃ t, o = some t ∧ v.fuses = t.fuses

theorem keepsSome_bind {f : State → Option State} (h : ∀ t v, f t = some v → v.fuses = t.fuses) :
    KeepsSome (·.bind f) := by
  intro o v hv
  cases o with
  | none => cases hv
  | some t => exact ⟨t, rfl, h t v hv⟩

theorem keepsSome_foldl {α : Type} {g : Option State → α → Option State} (h : ∀ x, KeepsSome (g · x)) (l : List α) :
    KeepsSome (l.foldl g ·) := by
  induction l with
  | nil => exact fun o v hv => ⟨v, hv, rfl⟩
  | cons x l ih =>
    intro o v hv
    obtain ⟨t, ht, e⟩ := ih _ _ hv
    obtain ⟨w, hw, e'⟩ := h x _ _ ht
    exact ⟨w, hw, e.trans e'⟩

theorem KeepsSome.of_some {g : Option State → Option State} (h : KeepsSome g) {s v : State} (hv : g (some s) = some v) :
    v.fuses = s.fuses := by
  obtain ⟨t, ht, e⟩ := h _ _ hv
  cases ht
  exact e

theorem State.loadListed_fuses (s : State) (p : Plan) (check : Bool) {v : State} (h : s.loadListed p check = some v) :
    v.fuses = s.fuses := by
  refine (keepsSome_foldl (fun r => keepsSome_foldl (fun i => keepsSome_bind fun t v hv => ?_) _) _).of_some h
  dsimp only at hv
  split at hv
  · cases hv
    simp
  · cases hv

theorem State.loadUnlisted_fuses (s : State) (p : Plan) {v : State} (h : s.loadUnlisted p = some v) :
    v.fuses = s.fuses := by
  refine (keepsSome_foldl (fun r => keepsSome_foldl (fun i => keepsSome_bind fun t v hv => ?_) _) _).of_some h
  obtain ⟨w, _, rfl⟩ := Option.map_eq_some_iff.1 hv
  simp

theorem State.loadScribe_fuses (s : State) (p : Plan) (check : Bool) {v : State} (h : s.loadScribe p check = some v) :
    v.fuses = s.fuses := by
  obtain ⟨t, ht, hv⟩ := Option.bind_eq_some_iff.1 h
  rw [State.loadUnlisted_fuses t p hv, State.loadListed_fuses _ p check ht]
  simp

@[simp] theorem State.loadTask_fuses (s : State) (p : Plan) (o : Nat) (w0 : Word) :
    (s.loadTask p o w0).fuses = s.fuses := by
  simp [State.loadTask]

@[simp] theorem State.loadTasks_fuses (s : State) (p : Plan) :
    (s.loadTasks p).fuses = s.fuses := by simp [State.loadTasks]

@[simp] theorem State.reloadTasks_fuses (s : State) (p : Plan) : (s.reloadTasks p).fuses = s.fuses := by
  simp [State.reloadTasks]

@[simp] theorem State.quiesceStart_fuses (s : State) : s.quiesceStart.fuses = s.fuses := by
  unfold State.quiesceStart
  dsimp only
  (repeat' split) <;> simp

@[simp] theorem State.raiseValidate_fuses (s : State) : s.raiseValidate.fuses = s.fuses := by
  unfold State.raiseValidate
  split <;> simp

@[simp] theorem State.raiseQuiesce_fuses (s : State) : s.raiseQuiesce.fuses = s.fuses := by simp [State.raiseQuiesce]

@[simp] theorem State.quiesceGo_fuses (s : State) : s.quiesceGo.fuses = s.fuses := by simp [State.quiesceGo]

theorem State.withPlan_fuses {go : State → Plan → State} (h : ∀ t p, (go t p).fuses = t.fuses) (s : State) :
    (s.withPlan go).fuses = s.fuses := by
  unfold State.withPlan
  dsimp only
  (repeat' split) <;> simp [h]

@[simp] theorem State.raiseBays_fuses (s : State) : s.raiseBays.fuses = s.fuses := by
  exact State.withPlan_fuses (fun t p => by simp) s

@[simp] theorem State.raiseFabric_fuses (s : State) : s.raiseFabric.fuses = s.fuses := by
  exact State.withPlan_fuses (fun t p => by simp) s

@[simp] theorem State.raiseQueues_fuses (s : State) : s.raiseQueues.fuses = s.fuses := by
  exact State.withPlan_fuses (fun t p => by simp) s

@[simp] theorem State.raiseScribe_fuses (s : State) : s.raiseScribe.fuses = s.fuses := by
  refine State.withPlan_fuses (fun t p => ?_) s
  split
  · split
    · rename_i h
      simp [State.loadScribe_fuses _ _ _ h]
    · simp
  · simp

@[simp] theorem State.raiseCommit_fuses (s : State) : s.raiseCommit.fuses = s.fuses := by simp [State.raiseCommit]

@[simp] theorem State.raiseStep_fuses (s : State) (us : Nat) : (s.raiseStep us).fuses = s.fuses := by
  unfold State.raiseStep
  dsimp only
  (repeat' split) <;> simp

@[simp] theorem State.raiseZeroised_fuses (s : State) : s.raiseZeroised.fuses = s.fuses := by simp [State.raiseZeroised]

@[simp] theorem State.bayEnterRun_fuses (s : State) (b : Nat) : (s.bayEnterRun b).fuses = s.fuses := by
  simp [State.bayEnterRun]

@[simp] theorem State.slotMark_fuses (s : State) (i v : Nat) :
    (s.slotMark i v).fuses = s.fuses := by simp [State.slotMark]

@[simp] theorem State.romReturn_fuses (s : State) : s.romReturn.fuses = s.fuses := by simp [State.romReturn]

@[simp] theorem State.romTry_fuses (s : State) (l : List Nat) : (s.romTry l).fuses = s.fuses := by
  induction l generalizing s with
  | nil => simp [State.romTry]
  | cons i l ih => unfold State.romTry; dsimp only; (repeat' split) <;> simp [ih]

@[simp] theorem State.romNext_fuses (s : State) : s.romNext.fuses = s.fuses := by
  unfold State.romNext
  split <;> simp

@[simp] theorem State.romRaise_fuses (s : State) (addr : Nat) : (s.romRaise addr).fuses = s.fuses := by
  simp [State.romRaise]

/-! ### The boot ROM -/

@[simp] theorem State.bootStage_fuses (s : State) (stage : Nat) : (s.bootStage stage).fuses = s.fuses := by
  simp [State.bootStage]

@[simp] theorem State.bootAt_fuses (s : State) (b : Boot) : (s.bootAt b).fuses = s.fuses := by simp [State.bootAt]

@[simp] theorem State.bootFails_fuses (s : State) : s.bootFails.fuses = s.fuses := by simp [State.bootFails]

@[simp] theorem State.bootPort_fuses (s : State) (mhz : Nat) :
    (s.bootPort mhz).fuses = s.fuses := by simp [State.bootPort]

@[simp] theorem State.fwCopy_fuses (s : State) (i : Nat) : (s.fwCopy i).fuses = s.fuses := by simp [State.fwCopy]

@[simp] theorem State.fwStart_fuses (s : State) (i : Nat) : (s.fwStart i).fuses = s.fuses := by simp [State.fwStart]

@[simp] theorem State.fwTry_fuses (s : State) (l : List Nat) : (s.fwTry l).fuses = s.fuses := by
  induction l generalizing s with
  | nil => simp [State.fwTry]
  | cons i l ih => unfold State.fwTry; dsimp only; (repeat' split) <;> simp [ih]

@[simp] theorem State.bootFlash_fuses (s : State) : s.bootFlash.fuses = s.fuses := by
  unfold State.bootFlash
  dsimp only
  (repeat' split) <;> simp

@[simp] theorem State.bootTested_fuses (s : State) : s.bootTested.fuses = s.fuses := by simp [State.bootTested]

@[simp] theorem State.bootTrimmed_fuses (s : State) : s.bootTrimmed.fuses = s.fuses := by simp [State.bootTrimmed]

@[simp] theorem State.bootBegins_fuses (s : State) : s.bootBegins.fuses = s.fuses := by simp [State.bootBegins]

/-! ### Commands of the scribe -/

@[simp] theorem State.recordWord_fuses (s : State) (w : Word) : (s.recordWord w).1.fuses = s.fuses := by
  simp [State.recordWord]

@[simp] theorem State.tcmdRead_fuses (s : State) : s.tcmdRead.fuses = s.fuses := by simp [State.tcmdRead]

@[simp] theorem State.tcmdWrite_fuses (s : State) : s.tcmdWrite.fuses = s.fuses := by simp [State.tcmdWrite]

@[simp] theorem State.tcmdPlace_fuses (s : State) : s.tcmdPlace.fuses = s.fuses := by simp [State.tcmdPlace]

@[simp] theorem State.taskGo_fuses (s : State) (t : Nat) (dst : Option Nat) : (s.taskGo t dst).fuses = s.fuses := by
  simp [State.taskGo]

@[simp] theorem State.taskMoveTry_fuses (s : State) : s.taskMoveTry.fuses = s.fuses := by simp [State.taskMoveTry]

@[simp] theorem State.taskUnplaceTry_fuses (s : State) :
    s.taskUnplaceTry.fuses = s.fuses := by simp [State.taskUnplaceTry]

@[simp] theorem State.tcmdMove_fuses (s : State) : s.tcmdMove.fuses = s.fuses := by simp [State.tcmdMove]

@[simp] theorem State.tcmdUnplace_fuses (s : State) : s.tcmdUnplace.fuses = s.fuses := by simp [State.tcmdUnplace]

@[simp] theorem State.tcmd_fuses (s : State) (op : Nat) : (s.tcmd op).fuses = s.fuses := by
  unfold State.tcmd
  split <;> simp

@[simp] theorem State.pcmdRead_fuses (s : State) : s.pcmdRead.fuses = s.fuses := by simp [State.pcmdRead]

@[simp] theorem State.pageMoveTry_fuses (s : State) : s.pageMoveTry.fuses = s.fuses := by
  unfold State.pageMoveTry
  dsimp only
  (repeat' split) <;> simp

@[simp] theorem State.pcmdMove_fuses (s : State) : s.pcmdMove.fuses = s.fuses := by simp [State.pcmdMove]

@[simp] theorem State.freePageEnt_fuses (s : State) (k : Nat) : (s.freePageEnt k).fuses = s.fuses := by
  unfold State.freePageEnt
  split <;> simp

theorem State.addPages_fuses (s : State) (t : Nat) (l : List Nat) {v : State} (h : s.addPages t l = some v) :
    v.fuses = s.fuses := by
  induction l generalizing s with
  | nil => cases h; rfl
  | cons i l ih =>
    unfold State.addPages at h
    split at h
    · exact (ih _ h).trans (by simp)
    · cases h

@[simp] theorem State.pcmdTwrite_fuses (s : State) : s.pcmdTwrite.fuses = s.fuses := by
  unfold State.pcmdTwrite
  dsimp only
  generalize hadd : State.addPages _ _ _ = o
  split
  · rfl
  split
  · simp
  cases o with
  | none => simp
  | some v => simp [State.addPages_fuses _ _ _ hadd]

@[simp] theorem State.pcmd_fuses (s : State) (op : Nat) : (s.pcmd op).fuses = s.fuses := by
  unfold State.pcmd
  split <;> simp

@[simp] theorem State.scribeWaits_fuses (s : State) : s.scribeWaits.fuses = s.fuses := by simp [State.scribeWaits]

@[simp] theorem State.scrEvac_fuses (s : State) (v : Word) : (s.scrEvac v).fuses = s.fuses := by simp [State.scrEvac]

@[simp] theorem State.scrEvbay_fuses (s : State) (v : Word) : (s.scrEvbay v).fuses = s.fuses := by simp [State.scrEvbay]

@[simp] theorem State.scrBankrel_fuses (s : State) (v : Word) : (s.scrBankrel v).fuses = s.fuses := by
  simp [State.scrBankrel]

/-! ### Register accesses -/

@[simp] theorem State.mailboxRead_fuses (s : State) (ag : Agent) (b m : Nat) (hi : Bool) :
    (s.mailboxRead ag b m hi).1.fuses = s.fuses := by simp [State.mailboxRead]

@[simp] theorem State.mailboxAck_fuses (s : State) (ag : Agent) (b m : Nat) (v : Word) :
    (s.mailboxAck ag b m v).fuses = s.fuses := by simp [State.mailboxAck]

@[simp] theorem State.bayRead_fuses (s : State) (ag : Agent) (b o : Nat) : (s.bayRead ag b o).1.fuses = s.fuses := by
  simp [State.bayRead]

@[simp] theorem State.structWrite_fuses (s : State) (b o : Nat) (v : Word) : (s.structWrite b o v).fuses = s.fuses := by
  simp [State.structWrite]

@[simp] theorem State.reachGuard_fuses (s : State) (b : Nat) (old : Struct) : (s.reachGuard b old).fuses = s.fuses := by
  simp [State.reachGuard]

@[simp] theorem State.testCtl_fuses (s : State) (b cmd : Nat) :
    (s.testCtl b cmd).fuses = s.fuses := by simp [State.testCtl]

@[simp] theorem State.bayStep_fuses (s : State) (b : Nat) : (s.bayStep b).fuses = s.fuses := by simp [State.bayStep]

@[simp] theorem State.traceCtl_fuses (s : State) (b : Nat) (v : Word) : (s.traceCtl b v).fuses = s.fuses := by
  simp [State.traceCtl]

@[simp] theorem State.bayWrite_fuses (s : State) (ag : Agent) (b o : Nat) (v : Word) :
    (s.bayWrite ag b o v).fuses = s.fuses := by simp [State.bayWrite]

@[simp] theorem State.ledgerClear_fuses (s : State) (b : Nat) (v : Word) : (s.ledgerClear b v).fuses = s.fuses := by
  simp [State.ledgerClear]

@[simp] theorem State.ledgerWrite_fuses (s : State) (a : Nat) (v : Word) : (s.ledgerWrite a v).fuses = s.fuses := by
  simp [State.ledgerWrite]

@[simp] theorem State.regRead_fuses (s : State) (ag : Agent) (a : Nat) : (s.regRead ag a).1.fuses = s.fuses := by
  simp [State.regRead]

@[simp] theorem State.devWrite_fuses (s : State) (a : Nat) (v : Word) : (s.devWrite a v).fuses = s.fuses := by
  simp [State.devWrite]

@[simp] theorem State.rstWrite_fuses (s : State) (ag : Agent) (a : Nat) (v : Word) :
    (s.rstWrite ag a v).fuses = s.fuses := by
  simp [State.rstWrite]

@[simp] theorem State.secWrite32_fuses (s : State) (p : Bool) (o : Nat) (v : Word) :
    (s.secWrite32 p o v).fuses = s.fuses := by simp [State.secWrite32]

@[simp] theorem State.qmWrite_fuses (s : State) (a : Nat) (v : Word) : (s.qmWrite a v).fuses = s.fuses := by
  unfold State.qmWrite
  (repeat' split) <;> simp

@[simp] theorem State.scrWrite_fuses (s : State) (a : Nat) (v : Word) : (s.scrWrite a v).fuses = s.fuses := by
  simp [State.scrWrite]

@[simp] theorem State.scfWrite_fuses (s : State) (a : Nat) (v : Word) : (s.scfWrite a v).fuses = s.fuses := by
  unfold State.scfWrite
  (repeat' split) <;> simp

@[simp] theorem State.mxWrite_fuses (s : State) (ag : Agent) (a : Nat) (v : Word) :
    (s.mxWrite ag a v).fuses = s.fuses := by
  simp [State.mxWrite]

@[simp] theorem State.slowWrite_fuses (s : State) (a : Nat) (v : Word) : (s.slowWrite a v).fuses = s.fuses := by
  simp [State.slowWrite]

@[simp] theorem State.stgWrite32_fuses (s : State) (a : Nat) (v : Word) : (s.stgWrite32 a v).fuses = s.fuses := by
  simp [State.stgWrite32]

@[simp] theorem State.regAct_fuses (s : State) (ag : Agent) (a : Nat) (v : Word) :
    (s.regAct ag a v).fuses = s.fuses := by
  unfold State.regAct
  (repeat' split) <;> simp

@[simp] theorem State.regWrite_fuses (s : State) (ag : Agent) (a : Nat) (v : Word) :
    (s.regWrite ag a v).fuses = s.fuses := by
  unfold State.regWrite
  (repeat' split) <;> simp

@[simp] theorem State.narrowWrite_fuses (s : State) (a : Nat) : (s.narrowWrite a).fuses = s.fuses := by
  simp [State.narrowWrite]

@[simp] theorem State.registerWrite_fuses (s : State) (ag : Agent) (a size : Nat) (v : Word) :
    (s.registerWrite ag a size v).fuses = s.fuses := by simp [State.registerWrite]

@[simp] theorem State.registerRead_fuses (s : State) (ag : Agent) (a size : Nat) :
    (s.registerRead ag a size).1.fuses = s.fuses := by simp [State.registerRead]

@[simp] theorem State.bar0Words_fuses (s : State) (off n fbe lbe : Nat) (n0 : Nat) (l : List Word) :
    (s.bar0Words off n fbe lbe n0 l).fuses = s.fuses := by
  induction l generalizing s n0 with
  | nil => rfl
  | cons w l ih =>
    unfold State.bar0Words
    dsimp only
    split <;> simp [ih]

@[simp] theorem State.bar0Read_fuses (s : State) (off n fbe lbe i : Nat) (n0 : Nat) :
    (s.bar0Read off n fbe lbe i n0).1.fuses = s.fuses := by
  induction n0 generalizing s i with
  | zero => rfl
  | succ k ih =>
    unfold State.bar0Read
    dsimp only
    split <;> simp [ih]

@[simp] theorem State.bar0Error_fuses (s : State) (i : Nat) (write : Bool) (off n fbe lbe : Nat) (poison : Bool) :
    (s.bar0Error i write off n fbe lbe poison).fuses = s.fuses := by simp [State.bar0Error]

@[simp] theorem State.bar0Refused_fuses (s : State) (write : Bool) (off n fbe lbe : Nat) (poison : Bool) :
    (s.bar0Refused write off n fbe lbe poison).fuses = s.fuses := by simp [State.bar0Refused]

@[simp] theorem State.bar0Request_fuses (s : State) (write : Bool) (off n fbe lbe : Nat) (data : List Word)
    (poison : Bool) :
    (s.bar0Request write off n fbe lbe data poison).fuses = s.fuses := by simp [State.bar0Request]

@[simp] theorem State.crcPass_fuses (s : State) : s.crcPass.fuses = s.fuses := by
  obtain ⟨v, hv⟩ : ∃ v, s.cfgCrc = v := ⟨_, rfl⟩
  rw [s.crcPass_result hv]
  clear hv
  dsimp only
  (repeat' split) <;> simp

/-! ### The crossbar -/

@[simp] theorem State.busGive_fuses (s : State) (master addr size : Nat) (fid : Option Nat) (signed : Bool) (w : Word)
    (bad : Bool) :
    (s.busGive master addr size fid signed w bad).fuses = s.fuses := by
  unfold State.busGive
  (repeat' split) <;> simp

@[simp] theorem State.busFail_fuses (s : State) (master addr size : Nat) (fid : Option Nat) (kind : Nat) :
    (s.busFail master addr size fid kind).fuses = s.fuses := by simp [State.busFail]

@[simp] theorem State.busRead_fuses (s : State) (master addr size : Nat) (fid : Option Nat) (signed : Bool) :
    (s.busRead master addr size fid signed).fuses = s.fuses := by
  unfold State.busRead
  (repeat' split) <;> simp

@[simp] theorem State.busWrite_fuses (s : State) (master addr size : Nat) (v : Word) :
    (s.busWrite master addr size v).fuses = s.fuses := by
  unfold State.busWrite
  split <;> simp

@[simp] theorem State.busFetch_fuses (s : State) (addr : Nat) : (s.busFetch addr).fuses = s.fuses := by
  simp [State.busFetch]

@[simp] theorem State.beats_fuses (s : State) (master addr : Nat) (write : Bool) (n : Nat) (l : List Word) :
    (s.beats master addr write n l).fuses = s.fuses := by
  induction l generalizing s n with
  | nil => rfl
  | cons w l ih =>
    unfold State.beats
    dsimp only
    split <;> simp [ih]

@[simp] theorem State.burst_fuses (s : State) (master addr : Nat) (write : Bool) (data : List Word) :
    (s.burst master addr write data).fuses = s.fuses := by simp [State.burst]

/-! ### What is due after a command -/

@[simp] theorem State.doWork_fuses (s : State) (w : Work) : (s.doWork w).fuses = s.fuses := by
  unfold State.doWork
  split <;> simp

@[simp] theorem State.doWorks_fuses (s : State) : s.doWorks.fuses = s.fuses := by simp [State.doWorks]

@[simp] theorem State.serveReq_fuses (s : State) (b : Nat) (r : Req) : (s.serveReq b r).fuses = s.fuses := by
  unfold State.serveReq
  split <;> simp

@[simp] theorem State.serveBay_fuses (s : State) (b : Nat) : (s.serveBay b).fuses = s.fuses := by simp [State.serveBay]

@[simp] theorem State.traceOut_fuses (s : State) (b : Nat) : (s.traceOut b).fuses = s.fuses := by simp [State.traceOut]

@[simp] theorem State.serveAll_fuses (s : State) : s.serveAll.fuses = s.fuses := by simp [State.serveAll]

@[simp] theorem State.round_fuses (s : State) : s.round.fuses = s.fuses := by simp [State.round]

@[simp] theorem State.rounds_fuses (n : Nat) (s : State) : (State.rounds n s).fuses = s.fuses := by
  induction n generalizing s with
  | zero => rfl
  | succ n ih => unfold State.rounds; dsimp only; split <;> simp [ih]

@[simp] theorem State.close_fuses (s : State) : s.close.fuses = s.fuses := by
  unfold State.close
  split <;> simp

/-! ### Commands -/

@[simp] theorem State.start_fuses (s : State) : s.start.fuses = s.fuses := by simp [State.start]

@[simp] theorem State.finish_fuses (s t : State) : (s.finish t).fuses = t.fuses := by
  simp [State.finish]

@[simp] theorem State.regAnswer_fuses (s : State) (ag : Agent) (a : Nat) : (s.regAnswer ag a).fuses = s.fuses := by
  simp [State.regAnswer]

@[simp] theorem State.pegApplied_fuses (s : State) : s.pegApplied.fuses = s.fuses := by simp [State.pegApplied]

@[simp] theorem State.bundle_fuses (s : State) (b : Nat) (u : List (Nat × Nat × Nat)) :
    (s.bundle b u).fuses = s.fuses := by
  simp [State.bundle]

@[simp] theorem State.resultArrives_fuses (s : State) (b unit inst : Nat) :
    (s.resultArrives b unit inst).fuses = s.fuses := by simp [State.resultArrives]

@[simp] theorem State.takesFault_fuses (s : State) (b : Nat) : (s.takesFault b).fuses = s.fuses := by
  simp [State.takesFault]

@[simp] theorem State.takesEvent_fuses (s : State) (b : Nat) : (s.takesEvent b).fuses = s.fuses := by
  simp [State.takesEvent]

@[simp] theorem State.takesDispatch_fuses (s : State) (b : Nat) : (s.takesDispatch b).fuses = s.fuses := by
  simp [State.takesDispatch]

@[simp] theorem State.bayIo_fuses (s : State) (b a : Nat) (v : Word) : (s.bayIo b a v).fuses = s.fuses := by
  simp [State.bayIo]

@[simp] theorem State.modesTake_fuses (s : State) (b : Nat) :
    (s.modesTake b).fuses = s.fuses := by simp [State.modesTake]

@[simp] theorem State.structural_fuses (s : State) (ag : Agent) (b o : Nat) (v : Word) :
    (s.structural ag b o v).fuses = s.fuses := by
  unfold State.structural
  split <;> simp

@[simp] theorem State.timerExpires_fuses (s : State) (b n : Nat) : (s.timerExpires b n).fuses = s.fuses := by
  simp [State.timerExpires]

@[simp] theorem State.mailboxPost_fuses (s : State) (b m : Nat) (v : Word) : (s.mailboxPost b m v).fuses = s.fuses := by
  simp [State.mailboxPost]

@[simp] theorem State.bayRegister_fuses (s : State) (ag : Agent) (b o : Nat) (v : Word) :
    (s.bayRegister ag b o v).fuses = s.fuses := by
  unfold State.bayRegister
  split <;> simp

@[simp] theorem State.testStops_fuses (s : State) (b : Nat) :
    (s.testStops b).fuses = s.fuses := by simp [State.testStops]

@[simp] theorem State.outsideWord_fuses (s : State) (b a : Nat) (write : Bool) (v : Word) (poison waited : Bool)
    (u : List (Nat × Nat × Nat)) :
    (s.outsideWord b a write v poison waited u).fuses = s.fuses := by simp [State.outsideWord]

@[simp] theorem State.stagingAccess_fuses (s : State) (ag : Agent) (a : Nat) (write : Bool) (data : List Byte)
    (bad : List Nat) (len : Nat) (u : List (Nat × Nat)) (ctrl : Bool) :
    (s.stagingAccess ag a write data bad len u ctrl).fuses = s.fuses := by simp [State.stagingAccess]

@[simp] theorem State.ddrAccess_fuses (s : State) (a : Nat) (write : Bool) (n : Nat) (data : List Byte) (poison : Bool)
    (ns : Nat) (u : List (Nat × Nat)) (ctrl : Bool) :
    (s.ddrAccess a write n data poison ns u ctrl).fuses = s.fuses := by simp [State.ddrAccess]

@[simp] theorem State.secPostAt_fuses (s : State) (p : Bool) (v : Word) : (s.secPostAt p v).fuses = s.fuses := by
  simp [State.secPostAt]

@[simp] theorem State.railFails_fuses (s : State) : s.railFails.fuses = s.fuses := by simp [State.railFails]

@[simp] theorem State.sourceBack_fuses (s : State) (src : Nat) : (s.sourceBack src).fuses = s.fuses := by
  simp [State.sourceBack]

@[simp] theorem State.microsecond_fuses (s : State) : s.microsecond.fuses = s.fuses := by simp [State.microsecond]

@[simp] theorem State.crystalRuns_fuses (s : State) : s.crystalRuns.fuses = s.fuses := by simp [State.crystalRuns]

end Sys2Proof.Machine

/-! O8: no step changes what was fixed at manufacture or clears a bit of the OTP. -/

namespace Sys2Proof.Proofs.FusesKept
open Sys2Proof Sys2Proof.Machine

/-- What was fixed at manufacture stays, and no bit of the OTP is cleared. -/
def Keeps (s t : State) : Prop :=
  t.hw = s.hw ∧ ∀ a i, (s.sec.otp.byte a).getLsbD i = true → (t.sec.otp.byte a).getLsbD i = true

theorem Keeps.of_fuses {s t : State} (h : t.fuses = s.fuses) : Keeps s t := by
  obtain ⟨hw, ho⟩ := Prod.mk.inj h
  exact ⟨hw, fun a i hb => by rw [ho]; exact hb⟩

theorem Keeps.trans {s t u : State} (h : Keeps s t) (g : Keeps t u) : Keeps s u :=
  ⟨g.1.trans h.1, fun a i hb => g.2 a i (h.2 a i hb)⟩

theorem Keeps.keepsFuses {s t : State} (h : Keeps s t) {w : Hw} {o : Mem} (hs : s.keepsFuses w o) : t.keepsFuses w o :=
  ⟨h.1.trans hs.1, fun a i hb => h.2 a i (hs.2 a i hb)⟩

/-! ### The services that program the OTP -/

theorem bytes_length (m : Mem) (a n : Nat) : (m.bytes a n).length = n := by
  induction n generalizing a with
  | zero => rfl
  | succ n ih => exact congrArg (· + 1) (ih _)

theorem getElem_bytes (m : Mem) (a n k : Nat) (h : k < (m.bytes a n).length) : (m.bytes a n)[k] = m.byte (a + k) := by
  induction n generalizing a k with
  | zero => cases h
  | succ n ih =>
    cases k with
    | zero => rfl
    | succ k => exact (ih (a + 1) k (Nat.lt_of_succ_lt_succ h)).trans (by rw [Nat.add_assoc, Nat.add_comm 1])

/-- Programming sets bits: each byte takes the bits of the data beside those it had. -/
theorem program_byte (x : Sec) (a b : Nat) (data : List Byte) (i : Nat) (h : (x.otp.byte b).getLsbD i = true) :
    ((x.program a data).otp.byte b).getLsbD i = true := by
  unfold Sec.program
  dsimp only
  generalize hn : (data.zip (x.otp.bytes a data.length)).map (fun (e : Byte × Byte) => e.1 ||| e.2) = new
  by_cases hb : b < a ∨ a + new.length ≤ b
  · rw [Mem.byte_putBytes_out new x.otp a b hb]
    exact h
  · obtain ⟨k, rfl⟩ : ∃ k, b = a + k := ⟨b - a, by omega⟩
    rw [Mem.byte_putBytes_in new x.otp a k (by omega)]
    subst hn
    simp [getElem_bytes, h]

section services
variable {s : State} {p : Bool}

theorem keeps_sec {x : Sec} (h : ∀ a i, (s.sec.otp.byte a).getLsbD i = true → (x.otp.byte a).getLsbD i = true) :
    Keeps s { s with sec := x } := ⟨rfl, h⟩

theorem keeps_secEnd (st : Nat) (rs : List Word) : Keeps s (s.secEnd p st rs) := .of_fuses (s.secEnd_fuses ..)

theorem keeps_program (a : Nat) (d : List Byte) (st : Nat) (rs : List Word) :
    Keeps s (State.secEnd { s with sec := s.sec.program a d } p st rs) :=
  (keeps_sec fun b => program_byte s.sec a b d).trans (keeps_secEnd ..)

theorem keeps_program₂ (a b : Nat) (d e : List Byte) (st : Nat) (rs : List Word) :
    Keeps s (State.secEnd { s with sec := (s.sec.program a d).program b e } p st rs) :=
  (keeps_sec fun c i h => program_byte _ b c e i (program_byte s.sec a c d i h)).trans (keeps_secEnd ..)

theorem keeps_service {op role : Nat} {run : State → State} (h : Keeps s (run s)) :
    Keeps s (s.service p op role run) := by
  unfold State.service
  split
  · exact .of_fuses rfl
  · split
    · exact .of_fuses (by simp)
    · exact h

theorem keeps_otpService {op : Nat} {run : State → State} (h : Keeps s (run s)) : Keeps s (s.otpService p op run) := by
  refine keeps_service ?_
  split
  · exact h
  · exact keeps_secEnd ..

theorem keeps_otpKey (slot use h : Nat) (pub : List Byte) : Keeps s (s.svcOtpKey p slot use h pub) := by
  refine keeps_service ?_
  (repeat' split)
  · exact keeps_secEnd ..
  · exact keeps_secEnd ..
  · exact keeps_secEnd ..
  · exact keeps_program₂ ..
  · exact keeps_secEnd ..
  · exact keeps_program₂ ..
  · exact keeps_secEnd ..

theorem keeps_revoke (slot : Nat) : Keeps s (s.svcRevoke p slot) := by
  refine keeps_otpService ?_
  split
  · exact keeps_secEnd ..
  · exact keeps_program ..

theorem keeps_floor (kind : Nat) (v running : Word) : Keeps s (s.svcFloor p kind v running) := by
  refine keeps_otpService ?_
  dsimp only
  generalize (if kind = 0 then running else s.reg 0x5001C) = top
  generalize (if kind = 0 then 0x350 else 0x390) = a
  (repeat' split)
  · exact keeps_secEnd ..
  · exact keeps_secEnd ..
  · exact keeps_program ..

theorem keeps_config (bits : Word) : Keeps s (s.svcConfig p bits) := by
  refine keeps_otpService ?_
  dsimp only
  split
  · exact keeps_program ..
  · exact keeps_secEnd ..

theorem keeps_destroy : Keeps s (s.svcDestroy p) :=
  keeps_otpService ((keeps_sec fun b => program_byte s.sec 0 b (toBytes 4 0x20)).trans (.of_fuses (State.zeroise_fuses _)))

/-- UNLOCK programs a departure bit where the module was in approved mode. -/
theorem keeps_unlockNow (t : List Byte) : Keeps s (s.unlockNow p t) := by
  unfold State.unlockNow
  dsimp only
  split
  · refine (keeps_sec ?_).trans (.of_fuses ((State.secEnd_fuses ..).trans ((State.record_fuses ..).trans (State.event_fuses ..))))
    exact fun b i h => program_byte s.sec _ b _ i h
  · exact (keeps_sec fun _ _ h => h).trans (keeps_secEnd ..)

theorem keeps_unlock : Keeps s (s.svcUnlock p) := by
  refine keeps_service ?_
  dsimp only
  have port : Keeps s { s with sec := s.sec.setPort p { s.sec.port p with nonce := none } } := .of_fuses (by simp)
  refine port.trans ?_
  (repeat' split)
  · exact keeps_secEnd ..
  · exact keeps_secEnd ..
  · exact keeps_secEnd ..
  · exact keeps_unlockNow _

end services

/-! ### Commands and steps -/

theorem keeps_run {s t : State} {f : State → State} (h : ∀ u, Keeps u (f u)) (e : s.run f = .next t) : Keeps s t := by
  injection e with e
  subst e
  exact (Keeps.of_fuses (s := s) rfl).trans ((h s.start).trans (.of_fuses (State.finish_fuses ..)))

theorem keeps_exec (i : Instr) {s t : State} (e : exec i s = .next t) : Keeps s t := by
  unfold exec at e
  cases i with
  | otpKey p slot use h pub => exact keeps_run (fun _ => keeps_otpKey slot use h pub) e
  | otpRevoke p slot => exact keeps_run (fun _ => keeps_revoke slot) e
  | floor p kind v running => exact keeps_run (fun _ => keeps_floor kind v running) e
  | otpConfig p bits => exact keeps_run (fun _ => keeps_config bits) e
  | destroy p => exact keeps_run (fun _ => keeps_destroy) e
  | unlock p => exact keeps_run (fun _ => keeps_unlock) e
  | _ =>
    dsimp only at e
    exact keeps_run (fun _ => .of_fuses (by simp)) e

/-- Settles O8. -/
theorem fusesNeverClear : Obligations.FusesNeverClear := by
  intro h o s t hs e
  refine Keeps.keepsFuses ?_ hs
  unfold step at e
  split at e
  · exact keeps_run (fun u => .of_fuses (State.microsecond_fuses u)) e
  · rename_i i rest _
    exact (Keeps.of_fuses (s := s) (t := { s with pending := rest }) rfl).trans (keeps_exec i e)

end Sys2Proof.Proofs.FusesKept
